-- ==== Sys2Proof/Word.lean ====
section
/-!
DEFINITION. The word types of the EQ6 and the keyed tables that hold its registers, memories and records.
-/
namespace Sys2Proof

/-- One byte of an object in memory (R5). -/
abbrev Byte := BitVec 8

/-- One BAR0 register (R7: registers are 32 bits wide). -/
abbrev Word := BitVec 32

/-- A table keyed by number: keys strictly rising, no entry equal to what an unlisted key reads as.
The operations that keep this form, and the value an unlisted key reads as, stand in `Machine/Ops.lean`. -/
abbrev Sparse (α : Type) := List (Nat × α)

/-- A run of bytes, the byte at offset 0 first (R5). -/
abbrev Bytes := List Byte

end Sys2Proof
end

