-- ==== Sys2Proof/Syntax.lean ====
section
/-!
DEFINITION. The commands of the EQ6: one constructor per row of opcode_table.json, with the operands that the row's
event brings along (file 95: each row is one whole step).
-/
namespace Sys2Proof

/-- Who makes a register access. The host over PCIe and over I3C is one requester (R10, R460); Prephor is the other. -/
inductive Requester where
  | host
  | prephor
  deriving DecidableEq, Repr

/-- How a tile of a compiled program takes part in its output (R149, R150). -/
inductive TilePart where
  /-- The tile holds the whole K of its output and drains itself. -/
  | whole
  /-- A contributor of a K-split: a partial drain into the stream's reduction tree. -/
  | partialSum
  /-- The contributor on the root core, which runs the drain from the scale stage on. -/
  | root
  deriving DecidableEq, Repr

/-- One tile's work in a core program, ended by a drain.  The manual gives no core instruction set and no stream layout beyond R101, so a
plan of such jobs stands for the programs and frames that a schedule object carries (log entry 6): the logical core, the output stream and
the tile, the two operand streams with the cores where they set out (R125) and the offsets there of their eight lines and their metadata, the operand
row-scale and column-scale entries there, the yclk of product 0, of the preload reads and of the drain, the first output row and column, the first position of K and the number of positions, and the
expert whose slot it is. -/
structure TileJob where
  core      : Nat
  stream    : Nat
  tile      : Nat
  rowStream : Nat
  colStream : Nat
  rowCore   : Nat
  colCore   : Nat
  rowOff    : Nat
  rowMeta   : Nat
  colOff    : Nat
  colMeta   : Nat
  rsOff     : Option Nat
  csOff     : Option Nat
  t0        : Nat
  pre       : Nat
  drain     : Nat
  row0      : Nat
  colBase   : Nat
  kStart    : Nat
  kCount    : Nat
  part      : TilePart
  expert    : Option Nat
  deriving DecidableEq, Repr

/-- A codebook table load at command start (R78): the core, the table 0 to 3 and the scratchpad offset. -/
structure TableLoad where
  core  : Nat
  table : Nat
  off   : Nat
  deriving DecidableEq, Repr

/-- A read of an exchange item inside a compute command (R287, R448): link engine, channel, tag, and where the flits go. -/
structure ItemRead where
  port : Nat
  chan : Nat
  tag  : Nat
  core : Nat
  off  : Nat
  deriving DecidableEq, Repr

/-- A contribution to a K-split tile that comes in at a node of its tree from another module (R149, R150): the tile by its stream, first row
and column base, the node, 64 values, and the SAT and NAN flags that travel with them. -/
structure RemotePart where
  stream  : Nat
  row0    : Nat
  colBase : Nat
  node    : Nat
  data    : Bytes
  sat     : Bool
  nan     : Bool
  deriving DecidableEq, Repr

/-- The top-k candidates of an output row that come in at a leaf of its stream's tree from another module (R148): the row by its stream and number, the
node, and entries of 8 bytes. -/
structure RemoteTop where
  stream : Nat
  row    : Nat
  node   : Nat
  cands  : Bytes
  deriving DecidableEq, Repr

/-- What a leaf of a stream's tree in another module sends to the merge of an output row (R113, R253): the row by its stream and number, the node, and
the values that its part of the row holds at its extremes, none where it sends a void. -/
structure RemoteRow where
  stream : Nat
  row    : Nat
  node   : Nat
  vals   : Option (List Nat)
  deriving DecidableEq, Repr

/-- An item that a compute command pushes to a transmit channel (R446): where its flits come from. -/
structure ItemPush where
  port : Nat
  chan : Nat
  tag  : Nat
  core : Nat
  off  : Nat
  deriving DecidableEq, Repr

/-- The compiled work of a TENSOR command (log entry 6). -/
structure TensorPlan where
  tables : List TableLoad
  reads  : List ItemRead
  pushes : List ItemPush
  jobs   : List TileJob
  remote : List RemotePart
  tops   : List RemoteTop
  merges : List RemoteRow
  faults : List (Nat × Nat)   -- transient compute faults while it ran: logical core, yclk (R500)
  slips  : List (Nat × Nat)   -- lockstep crossings found empty while it ran: sender, receiver (R248)
  deriving DecidableEq, Repr

/-- A word of an attempt that did not arrive as it was sent (R267): its number, the value that arrived, and by how many cycles it was late. -/
structure WordFact where
  word  : Nat
  value : Nat
  late  : Int
  deriving DecidableEq, Repr

/-- What a crossing did in the attempts of an alignment (R267): the sender, the receiver, and for each attempt the words that went wrong; in an
attempt that is not listed every word arrives as it was sent. -/
structure CrossingFact where
  tx       : Nat
  rx       : Nat
  attempts : List (List WordFact)
  deriving DecidableEq, Repr

/-- What an alignment finds (R266, R267). A crossing that is not listed passes its first attempt. -/
structure AlignFacts where
  noLock    : List Nat
  crossings : List CrossingFact
  deriving DecidableEq, Repr

/-- A read of a march that does not give what the cells should hold (R302): the core, the bank and the row (128, 129: the spare rows), which of the
bank's marches it is, the first being 0, the unit of the row, the background, the element, and the 132 bits that the read gives. -/
structure RowFail where
  yh   : Nat
  pcol : Nat
  row  : Nat
  bank : Nat
  bankRow : Nat
  march : Nat
  unit : Nat
  background : Nat
  element : Nat
  value : Nat
  deriving DecidableEq, Repr

/-- A core by its physical address (R68). -/
structure PhysCore where
  yh   : Nat
  pcol : Nat
  row  : Nat
  deriving DecidableEq, Repr

/-- Samples of one noise source: 1,024 of a start-up test, or the 2,048 of a block (R476, R477). -/
structure SrcBlock where
  hub     : Nat
  src     : Nat
  samples : List Bool
  deriving DecidableEq, Repr

/-- What the self-tests of power-up find (R522 to R525, R485), and how long the steps take in ms.  `laneFails` holds a port and a
transmit lane, `signal` a port that sees its peer and the map of the peer's MAP message, `gddrFails` a shed and a device, `katFails` a hub
and a test (0 SHA3, 1 AES, 2 DRBG). -/
structure BootFacts where
  h0Fails     : Bool
  h1Fails     : Bool
  readErrorA  : Bool
  readErrorB  : Bool
  bistCore    : List PhysCore
  bistRouter  : List PhysCore
  rowFails    : List RowFail
  deadDie     : List Nat
  seamTrain   : List Nat
  laneFails   : List (Nat × Nat)
  signal      : List (Nat × BitVec 108)
  gddrFails   : List (Nat × Nat)
  align       : AlignFacts
  katFails    : List (Nat × Nat)
  rngBlocks   : List SrcBlock
  stepMs      : List Nat
  deriving DecidableEq, Repr

/-- A unit that a fault is counted against (R495). -/
inductive FaultUnit where
  | core    (c : PhysCore)
  | router  (c : PhysCore)
  | edge    (n : Nat)
  | bankRow (c : PhysCore) (bank row : Nat)
  | lane    (port lane : Nat)
  | device  (shed dev : Nat)
  | hub
  deriving DecidableEq, Repr

/-- What a fault report tells of: an event of a unit, a parity error at an edge router, a lockstep crossing found empty by a slot that a command's
frame drives, or a control message that failed parity, SCHEDULED or EVENT, at a core's control node (R259, R273, R497). -/
inductive FaultEvent where
  | unit     (u : FaultUnit)
  | edge     (router : Nat)
  | crossing (tx rx : Nat)
  | control  (c : PhysCore) (scheduled : Bool)
  deriving DecidableEq, Repr

/-- A supply rail (R556). -/
inductive Rail where
  | vddY  (d : Nat)
  | vddSp (d : Nat)
  | vddRt (yard : Nat)
  | other
  deriving DecidableEq, Repr

/-- The boundary-scan instructions of R461. -/
inductive TapInstr where
  | bypass | idcode | samplePreload | extest | extestPulse | extestTrain | clamp | highz
  deriving DecidableEq, Repr

/-- The I3C common command codes of R460. -/
inductive Ccc where
  | entdaa (addr : Nat) | setdasa (addr : Nat) | rstdaa | getpid | getbcr | getdcr | getstatus
  | enec (events : Nat) | disec (events : Nat)
  deriving DecidableEq, Repr

/-- The requests that R432 answers with Unsupported Request, and the VDM type 1 it discards. -/
inductive BadRequest where
  | io | atomic | type1Config | vdm0 | vdm1 | bar0BadRead
  deriving DecidableEq, Repr

/-- What a check re-read finds (R293, R331). -/
inductive Reread where
  | clean
  | parityWrong
  | edcWrong
  | notRun
  deriving DecidableEq, Repr

/-- Why a hub is declared lost (R513). -/
inductive LossCause where
  | heartbeats
  | hubError
  deriving DecidableEq, Repr

/-- How far a running command had come when a stop, a drain or a kill reached it: phases of an anneal, visits of a rotation, KiB of a
copy, tokens of a COMBINE, or 1 for a march that has begun, with the failing rows it had found; for a kill inside an anneal phase, the
yclk of that phase in which it reaches the first core, how many yclk later it reaches the logical cores that it reaches later, and, at the end of an
entry, whether it comes before its end ledger (0), after it (1) or once the next entry is prepared (2) (R178). -/
structure Progress where
  units : Nat
  steps : Nat
  found : List RowFail
  reach : List (Nat × Nat)
  ledger : Nat
  deriving DecidableEq, Repr

/-- A transient compute fault during an ANNEAL, RESUME or ROTATE: the visit of a ROTATE, else 0; the restart entry; the logical core; and the yclk
since phase 0 of the entry began (R94, R500). -/
structure AnnealFault where
  visit : Nat
  entry : Nat
  core  : Nat
  at_   : Nat
  deriving DecidableEq, Repr

/-- A frame of Nolonlink as it leaves the lanes (R438): the header fields, the payload, the trailer and whether the CRC passed. -/
structure LinkFrame where
  type     : Nat
  chan     : Nat
  flags    : Nat
  seq      : Nat
  tag      : Nat
  itemFlit : Nat
  payload  : Bytes
  crcOk    : Bool
  badLanes : List Nat
  deriving DecidableEq, Repr

/-- What the mesh brings to a node of a link engine: 16-byte flits, and the flags that travel with a partial (R149, R236). -/
structure MeshData where
  data : Bytes
  sat  : Bool
  nan  : Bool
  deriving DecidableEq, Repr

/-- The commands. Engine numbers are those of R343, queues 0 to 511, domains those of R18.  `reduceCompute` brings what link-engine leaves
send, by node; `reduceNode` what comes from the mesh, item by item and child by child, none where it is void. -/
inductive Instr where
  -- engine commands
  | tensor (eng : Nat) (plan : TensorPlan)
  | anneal (eng : Nat) (faults : List AnnealFault)
  | rotate (eng : Nat) (faults : List AnnealFault)
  | snapshot (eng : Nat) (at_ : Progress)
  | resume (eng : Nat) (faults : List AnnealFault)
  | moveCopy (eng : Nat)
  | moveSpinpack (eng : Nat)
  | route (arrival : List Nat)
  | combine
  | reduceCompute (eng : Nat) (remote : List (Nat × Bytes))
  | reduceNode (eng : Nat) (mesh : List (List (Option MeshData)))
  | reduceOpen (eng : Nat)
  | reduceClose (eng : Nat)
  | reduceSend (eng : Nat)
  | fenceSignalAdd (eng : Nat)
  | fenceSignalMax (eng : Nat)
  | fenceWait (eng : Nat)
  | chain (eng : Nat)
  | nop (eng : Nat)
  | patch
  | repairHalter
  | repairColumn
  | repairRow
  | marchDestructive (found : List RowFail)
  | marchPreserving (found : List RowFail)
  | clkmode (facts : AlignFacts)
  | rngctlReseed
  | rngctlRestart (katFail : Option Nat) (blocks : List SrcBlock)
  | rngctlPattern
  | rngctlPatternOff (katFail : Option Nat) (blocks : List SrcBlock)
  | retainToRun
  | retainToRetain
  | retainToOff
  -- host register commands
  | feFenceAdd (value : Word)
  | feQTail (queue : Nat) (value : Word)
  | feQResume (who : Requester) (value : Word)
  | rteRecSel (who : Requester) (value : Word)
  | mbxH2fSeq (mbx : Nat) (value : Word)
  | mbxF2hAck (mbx : Nat) (value : Word)
  | dbH2f (value : Word)
  | perArm (prog : Nat) (value : Word)
  | perDisarm (prog : Nat) (value : Word)
  | perRepairGrant (value : Word)
  | evrCursorHi (who : Requester) (value : Word)
  | evrWin15 (who : Requester)
  | evrAckHi (value : Word)
  | evrFreeze (value : Word)
  | evrThaw (value : Word)
  | drvGclChange (port : Nat) (value : Word)
  | rngData0 (who : Requester)
  | lowWordRead (who : Requester) (off : Nat)
  | registerWrite (who : Requester) (off : Nat) (value : Word)
  -- mailbox requests
  | queueCreate
  | queueDestroy (at_ : List (Nat × Progress))
  | queueBudget
  | map
  | unmap
  | engineDisable
  | engineEnable
  | repairList
  | repairRun
  | patchRequest
  | hubStatus
  | failover
  -- module events
  | powerUp (facts : BootFacts)
  | powerUpStepTimeout (step : Nat) (facts : BootFacts)
  | mrstPulse (ns : Nat)
  | pfailAssert (ns : Nat) (pageUs : Nat)
  | perst
  | railOutOfBand (rail : Rail)
  | yardLost (yard : Nat)
  | flushEnd
  | evrFreezeExpiry
  -- host, management and boundary-scan accesses
  | bar2Access (write : Bool) (addr : Nat) (len : Nat) (data : Bytes)
  | bar4Read (off : Nat) (len : Nat)
  | bar0BadWrite
  | unsupportedRequest (kind : BadRequest)
  | i3cPrivateWrite (data : Bytes)
  | i3cPrivateRead
  | i3cCcc (code : Ccc)
  | tapInstruction (i : TapInstr)
  -- drive ports, time and periods
  | driveFrameRx (port : Nat) (frame : Bytes) (fcsOk : Bool)
  | gptpSync (port : Nat) (timeNs : Nat) (identity : Nat)
  | pdelayReq (port : Nat)
  | syncTimeout
  | gclChangeApply (port : Nat)
  | syncOutPulse
  | syncInEdge
  | syncInTimeout (prog : Nat)
  | tickFire (prog : Nat)
  | listRelease (prog : Nat)
  | commit (prog : Nat)
  | egressDeadline (prog : Nat) (at_ : Progress)
  -- repairs
  | repairWindowOpen (eng : Nat)
  | repairWindowClose (prog : Nat)
  | columnItem (bistFails : Bool) (found : List RowFail)
  | rowItem
  | realign (facts : AlignFacts)
  | faultReport (event : FaultEvent) (eng : Option Nat)
  -- memories
  | spadCheckReread (c : PhysCore) (bank word : Nat) (eng : Option Nat) (result : Reread)
  | memCheckReread (block : Nat) (words : List Nat) (eng : Option Nat) (result : Reread) (edc : Bool)
  | writeRetry (block : Nat) (eng : Option Nat) (ok : Bool)
  | pageRetire (shed : Nat)
  | pageRetireDone (shed : Nat)
  | deviceCopyOver (shed : Nat)
  | deviceSwap (shed : Nat)
  | refresh (shed : Nat)
  -- network
  | conveyorWave (conv : Nat) (flit : Option Nat) (slip : Option (Nat × Nat))
  | crossingHoldEnd (yh : Nat) (heldYclk : Nat)
  | phaseStart (core : Nat) (phase : Nat) (waited : Nat)
  | rotateVisit (eng : Nat) (faults : List AnnealFault)
  | ready (core : Nat) (obj : Nat)
  -- engine events
  | patchLanding (eng : Nat) (found : List RowFail)
  | engineFetch (eng : Nat)
  | preload (eng : Nat)
  | startMarker (eng : Nat) (early : List Nat) (jobs : List TileJob)
  | idleEntry (yh : Nat)
  | wake (yh : Nat)
  | fence (eng : Nat) (slot : Nat)
  | ctlBad (yh : Nat) (type : Nat)
  -- queues and hubs
  | queueTimeout (eng : Nat) (at_ : Progress)
  | drainTimeout (eng : Nat) (at_ : Progress)
  | hostReadTimeout (eng : Nat)
  | accountWindow (eng : Nat)
  | mappingPoint (eng : Nat)
  | slotHandover (slot : Nat)
  | dbH2fPoll
  | heartbeat
  | hubLoss (cause : LossCause)
  | standbyLost
  | hubLostNoStandby
  -- random numbers
  | rngBlock (hub src : Nat) (samples : List Bool)
  | reseed (hub : Nat)
  | rngRequest (hub : Nat)
  | rngDataBound (who : Requester)
  -- Nolonlink
  | dataFrameRx (port : Nat) (frame : LinkFrame)
  | nak (port : Nat) (seq : Nat)
  | laneFault (port : Nat) (lane : Nat)
  | laneSwap (port : Nat) (old new slot : Nat)
  | laneSwapSlot (port : Nat)
  | mapMessage (port : Nat) (map : BitVec 108)
  | linkDown (port : Nat)
  | linkRetrained (port : Nat) (map : BitVec 108)
  | noPeerTimeout (port : Nat)
  | txItemSend (port : Nat) (chan : Nat)
  | linkReadRequest (port : Nat) (chan : Nat) (tag : Nat) (eng : Option Nat)
  -- the remaining events
  | thermtrip (tempC : Nat)
  | testLogicReset
  | windowTimeout
  | flushRegionErased
  | drivePortLink (port : Nat) (up : Bool) (fecLock : Bool)
  | receiveSignal (port : Nat)
  | ackSeq (port : Nat) (seq : Nat)
  | announce (port : Nat) (priority : Nat) (identity : Nat)
  | pdelayResp (port : Nat) (delayNs : Nat)
  | gateControlEntry (port : Nat)
  | configurationWrite (off : Nat) (value : Word)
  deriving DecidableEq, Repr

end Sys2Proof
end

