-- ==== Sys2Proof/Decode.lean ====
section
/-!
DEFINITION. The command a word spells.  No row of opcode_table.json gives any bits, so no word spells a command.
-/
namespace Sys2Proof

/-- The command that the `nbits` low bits `w` spell by the table: none, for the table gives no row any bits. -/
def decodeTableWord (nbits w : Nat) : Option Instr :=
  match nbits, w with
  | _, _ => none

end Sys2Proof
end

