-- ==== Sys2Proof/Config.lean ====
section
/-!
DEFINITION. What a part fixes and its manual does not give: the keys in mask ROM, the boundary-scan identity, and
the free values (log entries 1 and 9).
-/
namespace Sys2Proof.Config

/-- FREE VALUE number `n` (log entry 1): a number the manual leaves open; nothing constrains it. -/
opaque freeValue : Nat → Nat

/-- The Malfepol root key in hub mask ROM, x and y coordinates (R30; the manual gives no value). -/
opaque rootKey : Nat × Nat

/-- The Malfepol factory key in hub mask ROM, x and y coordinates (R30; the manual gives no value). -/
opaque factoryKey : Nat × Nat

/-- The boundary-scan identity of a grade (R461: the BSDL file gives it, the manual does not). -/
opaque idcode : Nat → BitVec 32

/-- Bytes of the PCIe configuration space and capabilities that the manual leaves to the PCIe base specification (R429, R431). -/
opaque pcieConfig : Nat → BitVec 32

/-- Where the Resizable BAR control register of BAR2 stands in configuration space (R430, R431; the manual does not say). -/
opaque rebarControl : Nat

/-- The bytes of a gPTP message by its kind and the byte's place: IEEE 802.1AS fixes them, the manual does not (R454). -/
opaque gptpByte : Nat → Nat → BitVec 8

/-- The word of the MSI-X table (entry × 4 + word) that a configuration offset reaches (R431; the manual does not say where the table stands). -/
opaque msixWord : Nat → Option Nat

/-- FREE VALUE of a sum of two opposite FP32 infinities (log entry 1): R133 and R150 state no result for it. -/
opaque infDiff : Nat → Nat → Nat

/-- FREE VALUE of a lane of IADD64 whose exact sum leaves the INT64 range (log entry 1): R243 states no result for it. -/
opaque wideSum : Int → Int → Nat

/-- FREE VALUE of the finest exponent of a paddock in which no exponent is present (log entry 1): R171 states none. -/
opaque noExponent : Nat

end Sys2Proof.Config
end

