-- ==== Sys2Proof/Machine/State.lean ====
section
/-!
DEFINITION. The state of the EQ6: every register, table, memory and pin the spec gives the module, and the queue of the
commands that wait.  All fields are plain data.  A `Sparse` table reads as its default where no key is listed (the defaults
stand in this file as `….reset`), so the state after reset lists nothing.
-/
namespace Sys2Proof.Machine

/-! ## Pins, power and hubs -/

/-- Module states of R520. -/
inductive ModState where
  | boot | ready | safe | pfail
  deriving DecidableEq, Repr

/-- The module's pins, straps and power state (R520, R533, R559, R564). -/
structure Power where
  mod        : ModState
  step       : Nat
  grade      : Nat          -- package strap, 0 to 2 (R35)
  testLow    : Bool         -- TESTMODE# sampled low (R33)
  i3cStraps  : Nat          -- I3C_ADDR straps (R460)
  safeCause  : Nat
  safeStep   : Nat
  safeDetail : Nat
  bootMs     : Nat
  thermtrip  : Bool         -- THERMTRIP# driven low (R564)
  pfailAt    : Option Nat   -- hclk at which PFAIL# was accepted (R529)
  deriving DecidableEq, Repr

/-- The two hubs (R513 to R515, R518). -/
structure Hubs where
  active    : Nat
  standbyOk : Bool
  h0Lost    : Bool
  h1Lost    : Bool
  gridStart : Nat           -- end of power-up step 1, start of the heartbeat grid
  lastBeat  : Nat           -- hclk of the last heartbeat received
  deriving DecidableEq, Repr

/-! ## The image in force -/

/-- A TOPO record: the USE and FAILED masks of a yard half (R38). -/
structure TopoHalf where
  use    : BitVec 66
  failed : BitVec 66
  deriving DecidableEq, Repr

/-- A TOPO halter entry (R40). -/
structure Halter where
  yh : Nat
  pcol : Nat
  row : Nat
  reason : Nat
  deriving DecidableEq, Repr

/-- A TOPO row-repair entry (R40). -/
structure RowRepair where
  yh : Nat
  pcol : Nat
  row : Nat
  bank : Nat
  spare : Nat
  bankRow : Nat
  deriving DecidableEq, Repr

/-- An ENG entry (R44). -/
structure EngEntry where
  id : Nat
  kind : Nat
  x0 : Nat
  y0 : Nat
  w : Nat
  h : Nat
  slots : Nat
  rt : Bool
  deriving DecidableEq, Repr

/-- A node of a tree record (R252): the kind and number of its place, and its children. -/
structure TreeNode where
  kind : Nat
  loc : Nat
  child0 : Nat
  child1 : Nat
  deriving DecidableEq, Repr

/-- A tree record (R252). -/
structure Tree where
  type : Nat
  op : Nat
  depth : Nat
  rep : Nat
  stride : Nat
  latency : Nat
  baseSlot : Nat
  nodes : List TreeNode
  deriving DecidableEq, Repr

/-- A conveyor record (R251), with the half of its table. -/
structure Conveyor where
  yh : Nat
  edge : Nat
  dir : Nat
  offset : Nat
  slot : Nat
  startCol : Nat
  turnRow : Nat
  turnCol : Nat
  endRow : Nat
  deriving DecidableEq, Repr

/-- A table of NET as its directory names it (R46). -/
structure NetTable where
  kind : Nat
  scope : Nat
  grade : Nat
  data : Bytes
  deriving DecidableEq, Repr

/-- The NET section: its tables in directory order, and what they hold (R46, R47, R251, R252). -/
structure Net where
  tables : List NetTable
  nC : Nat
  conveyors : List Conveyor
  trees : List Tree
  ctlTrees : List Tree
  laneMaps : Sparse (BitVec 108)
  deriving DecidableEq, Repr

/-- A shed record of MEM (R48). -/
structure ShedRec where
  rate : Nat
  active : BitVec 13
  failed : BitVec 13
  refreshSlot : Nat
  deriving DecidableEq, Repr

/-- A translation entry (R49). -/
structure Xlat where
  ppage : Nat
  valid : Bool
  writable : Bool
  bar2 : Bool
  owner : Option Nat        -- queue it was mapped for; 0xFFFF: left without owner by a destruction; none: from the image (R392, R400)
  deriving DecidableEq, Repr

/-- A standing program of PER (R50). -/
structure PerProg where
  prog : Nat
  eng : Nat
  tickSrc : Nat
  period : Nat
  phase : Nat
  egress : Nat
  sched : Nat
  footPages : Nat
  footShare : Nat
  deriving DecidableEq, Repr

/-- A stream-map entry of PER (R50). -/
structure PerStream where
  port : Nat
  dir : Nat
  prog : Nat
  yh : Nat
  sid : Nat
  length : Nat
  spOff : Nat
  deriving DecidableEq, Repr

/-- The RNG section (R52). -/
structure RngParams where
  rct : Nat
  apt : Nat
  reseedLog2 : Nat
  stretchLog2 : Nat
  deriving DecidableEq, Repr

/-- An EVR trigger entry (R53). -/
structure Trigger where
  event : Nat
  enable : Bool
  regs : List Nat
  deriving DecidableEq, Repr

/-- A class record of LIM (R54). -/
structure ClassRec where
  minSlots : Nat
  maxSlots : Nat
  pages : Nat
  share : Nat
  deriving DecidableEq, Repr

/-- A real-time reservation of LIM (R54). -/
structure Resv where
  prog : Nat
  pages : Nat
  share : Nat
  bootShare : Nat
  deriving DecidableEq, Repr

/-- The sections of a Spalas image that stand in force (R36), the patches included. -/
structure Image where
  imageSeq : Nat
  secVersion : Nat
  buildId : Nat
  topo : Sparse TopoHalf
  halters : List Halter
  rows : List RowRepair
  lockMask : BitVec 64
  freeCap : Sparse Nat
  engs : List EngEntry
  otherSlots : List Nat
  net : Net
  sheds : Sparse ShedRec
  resv : List Nat
  xlat : Sparse Xlat
  progs : List PerProg
  streams : List PerStream
  rng : RngParams
  traceSrc : BitVec 64
  triggers : List Trigger
  classes : List ClassRec
  reservations : List Resv
  thresholds : List (Nat × Nat)
  deriving DecidableEq, Repr

/-- The image registers and the trust state (R31, R33, R59, R65). -/
structure Hub where
  aErr : Nat
  bErr : Nat
  copyB : Bool
  factory : Bool
  noImage : Bool
  torn : Bool
  patchSeq : Nat
  custKey : Nat × Nat
  journalAt : Nat           -- offset in the journal region of the next entry
  journalCount : Nat
  loaded : Bool             -- an image has loaded (R372, R95)
  deriving DecidableEq, Repr

/-! ## Yard halves and cores -/

/-- Power states of a yard half (R297). -/
inductive PState where
  | run | idle | retain | off
  deriving DecidableEq, Repr

/-- The state of one yard half (R95, R297, R313). -/
structure Half where
  pstate : PState
  lockstep : Bool
  unaligned : Bool
  mode : Bool               -- anneal (R95)
  curMhz : Nat
  minMhz : Nat
  waking : Bool
  farrier : Bool            -- marching or shifting (FARR_BUSY)
  idleAt : Nat              -- yclk at which its engine's last command ended (R298)
  spareBad : List (Nat × Nat × Nat × Nat)  -- spare rows found failing: pcol, row, bank, spare (R305)
  rows : List RowRepair     -- row remaps in force (R289, R297)
  deriving DecidableEq, Repr

/-- A boundary flip still in flight (R182). -/
structure Pending where
  dir : Nat
  delay : Nat
  spins : Nat
  deriving DecidableEq, Repr

/-- The spin block of a core (R84, R182). -/
structure SpinBlock where
  plane : BitVec 256
  best : BitVec 256
  coup : BitVec 24576
  field : BitVec 4096
  exp : Nat
  dE : List Int
  boundary : BitVec 68
  pend : List Pending
  deriving DecidableEq, Repr

/-- The position of one generator stream: sequence number and bits used of the current block (R82, R179). -/
structure GenPos where
  seq : Nat
  bits : Nat
  deriving DecidableEq, Repr

/-- One cell of a tile of the MAC array (R72, R127). -/
structure MacCell where
  stack : List (Option Int) -- the 12 levels, level 0 first; none where a level is empty
  run   : Option Int        -- the running sum
  deriving DecidableEq, Repr

/-- One physical core (R72, R96). -/
structure Core where
  halter : Option Nat       -- the reason, while the compute is fenced
  routerFault : Bool
  mode : Bool               -- anneal (R96)
  spin : SpinBlock
  gen : Sparse GenPos       -- streams 0x01 to 0x03
  tables : Sparse (BitVec 16) -- codebook entries, table × 256 + entry
  phase : Nat               -- phase begun last in free mode (R167)
  phaseAt : Nat             -- yclk of its half when that phase began
  mac : Sparse (List MacCell) -- the MAC array by tile, as the last drain left its 64 cells; none where no drain has (R72, R125)
  deriving DecidableEq, Repr

/-! ## Engines -/

/-- One half of the program memories of an engine's cores, in core order, and of the command memories of its routers: the frames of R350 and
their length (R72, R76, R241). -/
structure Programs where
  code : List Bytes
  frames : Bytes
  cf : Nat
  deriving DecidableEq, Repr

/-- Engine states of R372. -/
inductive EngState where
  | off | idle | prep | run | drain | kill | post | disabling | disabled
  deriving DecidableEq, Repr

/-- What a command has asked of the check re-reads (R292, R330): the scratchpad words and the blocks of device memory that wait for theirs, and those
whose error is known to be stored. -/
structure Checked where
  asked : List Nat
  known : List Nat
  askedMem : List Nat
  knownMem : List Nat
  deriving DecidableEq, Repr

def Checked.reset : Checked := ⟨[], [], [], []⟩

/-- What a command holds of its schedule object from the moment it was read (R355, R356): the header, the logical cores with a program, the stream
entries, the row-home map of each, and the memory-stream claims. -/
structure Sched where
  header : Bytes
  cores : List Nat
  streams : List Bytes
  maps : List Bytes
  claims : List (Nat × Nat × Nat)
  deriving DecidableEq, Repr

def Sched.reset : Sched := ⟨[], [], [], [], []⟩

/-- A command in an engine or in Prephor's hands (R345, R349, R368, R389). -/
structure Cmd where
  desc : Bytes
  tack : Bytes
  tackVoids : List Bool     -- its bytes whose word was void where it was read, none where all are good (R331)
  sched : Sched             -- its schedule object (R355)
  jobs : List TileJob       -- the tiles of its programs, for a TENSOR (log entry 6)
  queue : Nat
  seq : Nat
  chained : Bool
  slot : Option Nat         -- the hardware slot it was fetched from
  engine : Nat
  seed : Nat
  drawn : Bool
  prepAt : Nat
  startAt : Option Nat
  replayed : Bool
  draining : Bool
  ownTimeout : Bool         -- its queue's own timeout drained it (R389, R401)
  gate : Bool               -- it came as a confirmed preload
  ready : Bool              -- it passed step 10 of R348 and holds its seed
  usesRng : Bool            -- its schedule object has USES_RNG set: its seed is used (R354, R368)
  early : List Nat          -- logical cores that its start marker reached before they were ready (R86)
  checked : Checked
  carried : Nat             -- units of a COPY, from its first on, that conveyor waves have carried (R249, R365)
  flagged : Bool            -- a stale read of an exchange, or an error known to be stored, flags it (R287, R293, R331)
  yclk0 : List Nat          -- yclk of the halves of its engine at its start marker (R368)
  halts : List (Nat × Nat)  -- logical cores haltered while it runs, with the yclk since its start (R94)
  deriving DecidableEq, Repr

/-- A check that failed: status, DETAIL and fault address (R369, R370). -/
structure Fail where
  status : Nat
  detail : Nat
  addr : Nat
  write : Bool              -- the access that failed to translate was to write (R340)
  deriving DecidableEq, Repr

/-- A preload held by an engine (R355). -/
structure Preload where
  cmd : Cmd
  fail : Option Fail
  chainSlot : Option Nat
  ringFault : Bool          -- the ring entry itself could not be read (R384)
  turn : Nat × Nat          -- the class that it was served from, and the slot that the class was served from before it (R24)
  deriving DecidableEq, Repr

/-- The states of a chain slot (R358). -/
inductive ChainSt where
  | empty | armed | fired
  deriving DecidableEq, Repr

/-- A chain slot (R358). -/
structure ChainSlot where
  st : ChainSt
  desc : Bytes
  queue : Nat
  seq : Nat
  deriving DecidableEq, Repr

/-- A FENCE_WAIT that waits for its fence (R363). -/
structure Parked where
  cmd : Cmd
  fence : Nat
  value : Nat
  deriving DecidableEq, Repr

/-- The run record of an ANNEAL or RESUME: what a SNAPSHOT writes in its header (R177, R181). -/
structure AnnealRun where
  seed : Nat
  acb : Bytes
  table : Bytes
  bestE : Int
  eExp : Nat
  bestEntry : Nat
  state : Nat
  entriesDone : Nat
  phase : Nat
  phasesDone : Nat
  lastE : Int
  flips : Nat
  stays : Nat
  tdc : Nat
  stale : Nat
  free : Bool
  halted : Nat
  deriving DecidableEq, Repr

/-- The run record of a ROTATE (R197, R202): the next visit, counted across its passes, and what its visits summed up. -/
structure RotateRun where
  next : Nat
  deltaE : Nat              -- FP64
  visits : Nat
  flips : Nat
  stays : Nat
  tdc : Nat
  stale : Nat
  improved : Nat
  flagged : Bool            -- a folded field was clamped (R198), or a void word was met (R331)
  deriving DecidableEq, Repr

/-- One engine (R343, R375). -/
structure Engine where
  st : EngState
  opcode : Nat
  qslot : Nat
  chained : Bool
  tag : Nat
  queue : Nat
  cur : Option Cmd
  preload : Option Preload
  chain : Sparse ChainSlot
  heldItems : Bool          -- a repair window holds the fetch (R506)
  lastServed : Sparse Nat   -- class: hardware slot served last, plus 1 (R391)
  windowStart : Nat         -- hclk of the accounting window (R390)
  kernelCharge : Nat        -- charge of the kernel queues other than the RT queue (R395)
  waits : List Parked       -- FENCE_WAITs it fetched that are parked, oldest first (R363)
  anneal : List AnnealRun   -- the last run of each of its paddocks (R180)
  rot : Option RotateRun    -- the ROTATE in progress, once a visit has run
  noSnap : Option (Nat × Nat) -- queue and SEQ of the SNAPSHOT that stopped a ROTATE, which writes no area (R201)
  served : Bool             -- its program's first period has completed (R395)
  counts : Sparse (Nat × Nat × Nat)  -- per queue: completed, killed, disabled since the disable request (R373)
  active : Programs         -- the active halves of its cores and routers (R76, R241)
  shadow : Programs         -- the shadow halves
  deriving DecidableEq, Repr

/-! ## Queues and slots -/

/-- Queue states of R381. -/
inductive QState where
  | free | idle | waiting | mapped | halted | faulted | destroying
  deriving DecidableEq, Repr

/-- One software queue (R379, R381, R382, R404). -/
structure Queue where
  st : QState
  cls : Nat
  engine : Nat
  policy : Nat
  haltOnFail : Bool
  timeoutUs : Nat
  descHost : Bool
  descAddr : Nat
  descLog2 : Nat
  recAddr : Nat
  recLog2 : Nat
  mirror : Nat
  pages : Nat
  share : Nat
  head : Nat
  tail : Nat
  done : Nat
  badTail : Bool
  wait : Nat
  usePages : Nat
  charge : Nat
  slot : Option Nat
  owner : Nat               -- mailbox that created it
  rtTick : Nat              -- tick in force of a real-time queue (R409)
  deriving DecidableEq, Repr

/-- One hardware queue slot (R403). -/
structure Slot where
  queue : Option Nat
  pinned : Bool
  leaving : Bool
  next : Option Nat         -- the queue that takes a LEAVING slot (R386)
  mappedAt : Nat            -- hclk of the mapping, for the whole-window rule of R385
  privParked : Bool         -- parked while Prephor carries out its command (R571)
  deriving DecidableEq, Repr

/-- A request taken from a mailbox (R466, R470): the message as Prephor read it. -/
structure Req where
  mbx : Nat
  msg : Bytes
  host : Bool
  fault : Nat               -- 0: read; else the return code of the failed read
  at_ : Nat                 -- hclk of the post
  deriving DecidableEq, Repr

/-- A queue destruction in progress (R400, R401). -/
structure Destroy where
  queue : Nat
  policy : Nat
  report : Nat
  req : Req
  began : Nat               -- hclk at which Prephor began it
  notFetched : Nat
  completed : Sparse Nat
  drained : Sparse Nat
  killed : Sparse Nat
  cancelled : Sparse Nat
  deriving DecidableEq, Repr

/-! ## Route engine -/

/-- A pair that is computed: its expert, its gate, and the core and scratchpad offset of its output row (R220, R222). -/
structure Placed where
  token : Nat
  expert : Nat
  gate : Nat
  core : Nat
  off : Nat
  tree : Nat                -- the dispatch tree of its slot, whose reverse brings the row home (R254)
  deriving DecidableEq, Repr

/-- A route object with its last committed step (R205, R215, R218). -/
structure RouteObj where
  addr : Nat
  id : Nat
  step : Nat
  isOpen : Bool
  obj : Bytes
  toks : List (Nat × Nat)   -- home core and row slot of each token, as ROUTE read them
  pairs : List Placed       -- those of this step
  carry : List Placed       -- deferred at the previous step, combined at this one
  deferred : List Placed    -- deferred at this step
  reports : Sparse Nat      -- expert: OR of the tile status words of its slots, plus 1 (R230)
  deriving DecidableEq, Repr

/-- The route engine (R210, R212). -/
structure RouteEng where
  recs : Sparse Nat         -- token records of 128 bits
  id : Nat
  step : Nat
  selHost : Nat
  latchHost : Nat
  selPre : Nat
  latchPre : Nat
  objs : List RouteObj
  readyCores : List (Nat × Nat)  -- home cores whose ready notice has come, with the route object that it names (R216, R256)
  sent : List ((Nat × Nat) × Nat)  -- speculative pairs that the running ROUTE has sent: token, expert, regular slot (R221)
  deriving DecidableEq, Repr

/-! ## Period unit, drive ports and time -/

/-- Program states of R426. -/
inductive ProgState where
  | absent | disarmed | armed | running | held | repair
  deriving DecidableEq, Repr

/-- One standing program (R407 to R426). -/
structure Program where
  st : ProgState
  lastLate : Bool
  armErr : Nat
  skipped : Nat
  list : Nat
  count : Nat
  recLog2 : Nat
  recAddr : Nat
  tick : Nat
  holdTick : Nat
  cur : Nat                 -- number of the tick whose deadline comes, fired or not
  armAt : Nat               -- ns of the ARM, in the time base of its tick source
  disarmNext : Bool
  fired : Bool              -- the tick in `cur` waits for its deadline
  waits : Bool              -- its fire waits too: its fire instant came while something held it (R423)
  postAt : Nat              -- hclk of the last record of its queue
  released : Bool           -- its list has been released to the queue (R419)
  listDone : Bool
  failed : Bool
  committed : Bool
  edge : Option Nat         -- hclk of the last accepted SYNC_IN edge (R413)
  edges : Nat               -- accepted edges since ARM
  due : List (Nat × Nat)    -- ticks of accepted edges whose fire instant is still to come, and those instants, oldest first (R411)
  fireAt : Nat              -- the fire instant F_k of that tick, in the time base of its tick source
  grantTick : Nat
  grantTicks : Nat
  grantWait : Bool          -- a granted window waits for its first tick
  windowOpen : Bool
  windowLeft : Nat
  claims : List (Nat × Nat × Nat)  -- reserved stream positions: shed, position, slices (R352)
  deriving DecidableEq, Repr

/-- The newest valid record of an ingress stream (R418). -/
structure Ingress where
  tick : Nat
  data : Bytes
  deriving DecidableEq, Repr

/-- A gate control list (R455). -/
structure Gcl where
  entries : List (Nat × Nat)  -- gates, interval
  cycle : Nat
  start : Nat
  deriving DecidableEq, Repr

/-- A frame that waits at, or has left, a drive port (R421, R453). -/
structure Frame where
  port : Nat
  cls : Nat
  bytes : Bytes
  gptp : Option Nat         -- the kind of a gPTP message
  deriving DecidableEq, Repr

/-- One drive port (R457). -/
structure DrivePort where
  cfg : Word
  daLo : Word
  daHi : Word
  saLo : Word
  saHi : Word
  link : Bool
  fecLock : Bool
  baseLo : Word
  baseHi : Word
  cycle : Word
  len : Nat
  pending : Option (Nat × Gcl)  -- cycle start and list of a scheduled change
  gcl : Sparse Word         -- administrative entries, GATES and INTERVAL
  oper : Gcl
  entry : Nat               -- operational entry in force
  gates : Nat
  waiting : List Frame
  deriving DecidableEq, Repr

/-- E5's 802.1AS time (R454, R457). -/
structure TimeSt where
  now : Nat                 -- ns at `at_`
  at_ : Nat                 -- hclk of the last correction
  rateNum : Nat             -- ns per 10^9 ns of REFCLK time, the measured rate ratio
  synced : Bool
  holdover : Bool
  lastSync : Nat
  delayNs : Nat
  master : Option (Nat × Nat)
  syncOut : Nat             -- pulses given on SYNC_OUT
  deriving DecidableEq, Repr

/-- The period unit, the drive ports and the time function. -/
structure Period where
  progs : Sparse Program
  grantProg : Nat
  grantResult : Nat
  ingress : Sparse (Option Ingress)  -- by index in the stream map
  latch : Sparse (Option Ingress)    -- those that stood at the last fire instant of their program (R418)
  hold : Sparse Bytes                -- by index in the stream map
  ports : Sparse DrivePort
  time : TimeSt
  syncMode : Nat
  syncProg : Nat
  deriving DecidableEq, Repr

/-! ## Links -/

/-- A flit: 128 data bits, and the sideband fields that are not parity (R236). -/
structure Flit where
  data   : Bytes
  valid  : Bool
  void   : Bool
  sat    : Bool
  nan    : Bool
  spec   : Bool
  poison : Bool
  member : Nat
  deriving DecidableEq, Repr

/-- An item of an exchange: its tag, its flits, and whether a read has taken it (R447). -/
structure Item where
  tag : Nat
  flits : Bytes
  taken : Bool
  deriving DecidableEq, Repr

/-- An item to be sent: its tag and flits, and whether a SEND brought it (R446, R449). -/
structure TxItem where
  tag : Nat
  flits : Bytes
  bySend : Bool
  deriving DecidableEq, Repr

/-- An item that is being sent: its frames still to go, whose SEQ they take as they go. -/
structure Going where
  item : TxItem
  left : List LinkFrame
  deriving DecidableEq, Repr

/-- A transmit channel (R445, R446, R449). -/
structure TxChan where
  open_ : Bool
  slots : Nat
  flits : Nat
  queue : List TxItem       -- items whole in the transmit buffer, oldest first
  going : List Going        -- items that are being sent, oldest first
  deriving DecidableEq, Repr

/-- An item whose last frame is sent and not acknowledged (R445, R449). -/
structure Unacked where
  chan : Nat
  seq : Nat
  item : TxItem
  deriving DecidableEq, Repr

/-- How far the SEND or NODE that a link engine runs has come (R449, R450). -/
structure LinkRun where
  done : Nat                -- items queued, or pairs processed
  flagged : Bool
  deriving DecidableEq, Repr

/-- A receive channel (R445, R447). -/
structure RxChan where
  open_ : Bool
  flits : Nat
  fence : Option Nat
  mem : Option Nat
  items : List Item         -- oldest first, at most 4
  highest : Option Nat
  partial_ : Option (Nat × Bytes)  -- the item still arriving: tag and flits so far
  deriving DecidableEq, Repr

/-- Link states of R462. -/
inductive LinkSt where
  | down | training | up | noPeer
  deriving DecidableEq, Repr

/-- One Nolonlink port and its link engine (R435 to R451, R462). -/
structure LinkPort where
  st : LinkSt
  noSpare : Bool
  txMap : BitVec 108
  rxMap : BitVec 108
  tx : Sparse TxChan
  rx : Sparse RxChan
  nextSeq : Nat             -- SEQ of the next DATA frame
  expSeq : Nat              -- SEQ expected next
  sent : List LinkFrame     -- the last 512 DATA frames
  unacked : List Unacked
  run : Option LinkRun
  nakOut : Bool             -- a NAK is repeated until the expected SEQ arrives (R439)
  badRun : Nat              -- frames failed in a row
  badCtl : Nat              -- CONTROL frames lost in a row
  faultOut : List Nat       -- LANE_FAULT messages to send
  swapOut : List (Nat × Nat × Nat)  -- LANE_SWAPs announced: old, new, slot
  swapIn : List (Nat × Nat × Nat)   -- LANE_SWAPs that the peer announced
  upAt : Nat                -- hclk of link-up, from which the frame slots count (R439)
  mapOut : Bool             -- MAP is still to be sent (R436)
  replays : List LinkFrame  -- REPLAY frames still to go (R440)
  out : List (Nat × LinkFrame)  -- frames sent with their slots, the idle ones apart
  reply : List (List Flit)  -- flits of the last reply to a read, or of the results that NODE forwarded in its last step (R448, R450)
  mesh : List (Nat × List Flit) -- what the local mesh has brought for NODE: child node and flits, oldest first (R450)
  deriving DecidableEq, Repr

/-! ## Mailboxes, doorbells and Prephor -/

/-- A host-to-firmware mailbox (R464). -/
structure H2f where
  ptrLo : Word
  ptrHi : Word
  len : Nat
  space : Bool
  seq : Nat
  ack : Word
  pending : Bool
  overrun : Bool
  tried : Option (Nat × Word × Bool)   -- a post of this hclk that found PENDING 1: hclk, value, and OVERRUN before it
  deriving DecidableEq, Repr

/-- A firmware-to-host mailbox (R464). -/
structure F2h where
  ptrLo : Word
  ptrHi : Word
  len : Nat
  seq : Nat
  ack : Word
  pending : Bool
  tried : Option (Nat × Word)          -- a post of this hclk that found PENDING 1: hclk and value
  deriving DecidableEq, Repr

/-- A sequencer mailbox (R473). -/
structure SqMbx where
  ptr : Word
  seq : Word
  ack : Word
  deriving DecidableEq, Repr

/-- The mailbox and doorbell block, and Prephor's work. -/
structure Mbx where
  h2f : Sparse H2f
  f2h : Sparse F2h
  sq : Sparse SqMbx
  dbF2h : Word
  dbF2hMask : Word
  dbH2f : Word
  dbH2fMask : Word
  reqs : List Req           -- posted requests, in arrival order
  bgDisable : List (Nat × Req)   -- engines in DISABLING, with the request that waits for its counts
  destroys : List Destroy
  windowReq : Option Req    -- a PATCH or REPAIR_RUN that waits for a window (R470)
  privs : List Cmd          -- privileged commands handed to Prephor (R571)
  deriving DecidableEq, Repr

/-! ## Clocks -/

/-- The CLK block (R265, R272, R273). -/
structure Clocks where
  req : BitVec 60
  aligned : BitVec 60
  state : Nat
  attempts : Nat
  excluded : Nat
  pllTimeout : Bool
  failDomain : Nat
  failValid : Bool
  failPeer : Nat
  failReason : Nat
  unalignedEng : Nat
  lockstepEng : Nat
  slip : BitVec 60
  epoch : Nat
  slipped : List (Nat × Nat)  -- slipped crossings that wait for realignment
  sep : Sparse Nat          -- separation of the FIFO pointers of a crossing of the set, by sender × 64 + receiver (R266, R273, R274)
  deriving DecidableEq, Repr

/-! ## Sheds -/

/-- A write kept for retry (R332): its block, and the retries that failed.  Reads take the written data at once, so the data stand in
device memory already. -/
structure RetryBlk where
  block : Nat               -- physical byte address / 1024
  tries : Nat
  deriving DecidableEq, Repr

/-- One shed (R315, R330 to R342). -/
structure Shed where
  copying : Option Nat      -- position being copied over
  copyDone : Nat
  noSpare : Bool
  retOld : Nat
  retNew : Nat
  retVpage : Nat
  retBusy : Bool
  retDone : List Nat        -- blocks of the retiring page copied, lowest first
  retQueue : List Nat
  checks : List (Nat × Nat) -- blocks waiting for a check re-read: slice, physical byte address / 1024
  full : List Nat           -- blocks whose error found that queue full, not yet taken as stored (R331)
  retry : List RetryBlk
  deriving DecidableEq, Repr

/-- Device memory, translation and the fault registers (R322 to R341). -/
structure Mem where
  data : Sparse Byte        -- by physical byte address, page × 4 MiB + offset
  bad : List Nat            -- physical word numbers whose stored parity is wrong
  sheds : Sparse Shed
  xfLo : Word
  xfHi : Word
  xfInfo : Word
  deriving DecidableEq, Repr

/-- The clock of the routers of a yard half (R240): the yclk since its frame counters were 0, whose remainder modulo 1,024 is the counter of
every core and edge router of the half, and the part of the present yclk that has run, in 1,200ths. -/
structure RouterClock where
  yclk : Nat
  part : Nat
  deriving DecidableEq, Repr

/-- Scratchpads and cores. -/
structure Yards where
  clocks : List RouterClock -- by yard half
  halves : Sparse Half
  cores : Sparse Core       -- by physical core number
  spad : Sparse Byte        -- by physical core number × 0x6_0000 + offset; the spare rows of R289 above those
  bad : List Nat            -- scratchpad word numbers whose stored parity is wrong
  checks : List (Nat × Nat) -- words waiting for a check re-read: core × 12 + bank, word number
  full : List Nat           -- words whose error found that queue full, not yet taken as stored (R293)
  farrSel : Nat
  waves : Sparse Nat        -- serving waves of each conveyor, by index (R249)
  lastWave : Sparse Nat     -- the frame of each conveyor's last wave, plus 1 (R249)
  bufs : Sparse Nat         -- flits that wait in the buffer of a free crossing, by the link's key (R245)
  latest : Sparse Nat       -- LATEST flits that wait at the receiver of a free link, by its key (R246)
  flits : Sparse Nat        -- the 144 bits of the last flit of each conveyor, by index, and of each dispatch tree, from 2^24 on (R236, R249, R254)
  holds : List Nat          -- free halves that hold (R247)
  deriving DecidableEq, Repr

/-! ## Random numbers -/

/-- A waiting request of the generator (R483). -/
inductive RngUser where
  | engine (e : Nat)
  | prephor
  | host
  deriving DecidableEq, Repr

/-- One noise source (R477 to R480, R493). -/
structure NoiseSrc where
  st : Nat
  fails : Nat
  rct : Bool
  apt : Bool
  run : Nat                 -- length of the present run of equal samples
  last : Bool
  deriving DecidableEq, Repr

/-- The RNG domain of one hub (R476 to R493). -/
structure RngHub where
  seeded : Bool
  stretched : Bool
  kat : Bool                -- KAT_FAIL
  alarm : Bool
  activeSrc : Nat
  switchTo : Option Nat     -- the source that becomes active at its next passing block
  pattern : Option Bytes
  patPos : Nat
  src0 : NoiseSrc
  src1 : NoiseSrc
  pool : List (BitVec 256)
  key : BitVec 256
  v : BitVec 128
  count : Nat
  waiting : List (RngUser × Nat)   -- the requests, oldest first, each with the hclk at which it came
  busy : Nat                -- hclk from which the generator takes the next request
  deriving DecidableEq, Repr

/-- The RNG block, with the latches of both requesters (R487). -/
structure Rng where
  hubs : Sparse RngHub
  hostLatch : List Word
  hostRecs : Nat
  hostWaits : Option Nat    -- hclk at which a waiting read of RNG_DATA0 began
  preLatch : List Word
  preRecs : Nat
  preWaits : Option Nat
  deriving DecidableEq, Repr

/-! ## Reliability -/

/-- A repair item (R507). The fields that do not apply hold 0xFF or 0xFFFF. -/
structure RepairItem where
  kind : Nat
  engine : Nat
  yh : Nat
  pcol : Nat
  row : Nat
  bank : Nat
  bankRow : Nat
  boundUs : Nat
  at_ : Nat                 -- hclk when queued
  cmds : List Cmd           -- the privileged commands that wait for it
  req : Option Req          -- the mailbox request that waits for it
  deriving DecidableEq, Repr

/-- A patch that waits to land: an object from the host, or a halter entry of Prephor's own (R64, R505). -/
inductive PatchSrc where
  | object (obj : Bytes)
  | halter (h : Halter)
  deriving DecidableEq, Repr

/-- A patch in wait (R63, R64). -/
structure PatchWait where
  src : PatchSrc
  cmd : Option Cmd          -- the PATCH command that brought it
  req : Option Req          -- the PATCH request that brought it
  engines : List Nat        -- engines whose boundary or window it still waits for
  wins : List Nat           -- those of them whose window it waits for
  stale : List Nat          -- those of them whose open window was open at a failover, and does not serve it (R67)
  held : List Nat           -- engines that hold their fetch for it
  swaps : List (Nat × Nat × Nat)  -- lane swaps still to come: port, old lane, new lane
  deriving DecidableEq, Repr

/-- A tracked unit with the times of its last events (R497, R498). -/
structure Track where
  unit : FaultUnit
  times : List Nat
  deriving DecidableEq, Repr

/-- The reliability unit (R496 to R518). -/
structure Rel where
  yardLost : Bool
  lostYard : Nat
  noColumn : Bool
  items : List RepairItem
  track : List Track        -- the table of 1,024 entries
  fixed : List Track        -- the counters of lanes and devices
  passed : List FaultUnit   -- units past their threshold
  windows : List Nat        -- engines whose repair window is open
  patches : List PatchWait
  deriving DecidableEq, Repr

/-! ## Event recorder and trace -/

/-- An event record (R536). -/
structure EvRec where
  id : Nat
  sev : Nat
  regs : List Word
  repeats : Nat
  domain : Nat
  prev : Bool
  first : Nat
  last : Nat
  arg : Nat
  seq : Nat
  deriving DecidableEq, Repr

/-- A requester's cursor, latch and window (R542). -/
structure EvWin where
  cursor : Nat
  valid : Bool
  gap : Bool
  record : Option EvRec
  deriving DecidableEq, Repr

/-- A flush under way (R544, R545). -/
structure Flush where
  region : Nat
  reason : Nat
  time : Nat                -- hclk when it began
  recs : List EvRec         -- the records it writes, in order
  deriving DecidableEq, Repr

/-- The event recorder and the trace writer (R536 to R553). -/
structure Evr where
  recs : List EvRec
  head : Nat
  freeze : Bool
  freezeAt : Nat
  src : Bool
  ackLo : Word
  heldAcks : List Nat
  missed : Nat
  flushing : Option Flush
  flushWaits : Bool
  erasing : Option Nat
  flushes : Nat
  flushSeq : Nat
  dueRegion : Nat
  prevValid : Bool
  prevSeq : Nat
  prev : List EvRec
  host : EvWin
  pre : EvWin
  traceWr : Nat
  traceSeq : Nat
  traceBuf : List Bytes
  traceGap : Bool
  takes : Nat               -- hclk of the next event that the recorder can take (R537)
  batch : Nat × List Nat    -- an hclk, and the SEQs of the records of the events that came in it
  freed : Nat × List EvRec  -- an hclk, and the records that acknowledgements freed in it (R541)
  pfailUs : Option Nat      -- µs of a page of the flush that PFAIL# bounds, while it is due or runs (R546)
  deriving DecidableEq, Repr

/-! ## Host port, I3C, TAP -/

/-- What the last access was answered with (R432, R460, R461). -/
inductive Resp where
  | none
  | value (w : Word)
  | data (bs : Bytes)
  | unsupported
  | abort
  | dropped
  | waits
  deriving DecidableEq, Repr

/-- The host port, the I3C target and the TAP. -/
structure Ports where
  resp : Resp
  linkUp : Bool
  bar2Log2 : Nat
  config : Sparse Word
  msixTable : Sparse Word   -- the 32 entries of 4 words, by entry × 4 + word (R431, R434)
  hostMem : Sparse Byte
  hostFail : List (Nat × Nat)   -- ranges [lo, hi) of host addresses whose reads complete with an error (R384)
  hostMute : List (Nat × Nat)   -- ranges [lo, hi) whose reads get no completion (R433)
  waitsRead : Sparse (Option Nat)  -- engine: hclk at which its host read went out (R433)
  msix : List Nat           -- vectors sent
  i3cOff : Nat
  i3cDyn : Option Nat
  i3cEvents : Nat
  ibi : List Nat            -- in-band interrupt bytes raised
  tapReset : Bool
  tapInstr : TapInstr
  tapFull : Bool
  sent : List Frame         -- drive frames sent
  gptpOut : List (Nat × Nat)    -- gPTP messages sent: port, kind
  deriving DecidableEq, Repr

/-- What an event has done in the present hclk: it set a write-1-to-clear bit (R7, R8: a fence's saturation, a queue's BAD_TAIL, a mailbox's
OVERRUN, a bit of DB_F2H, a domain's slip, the fault registers' VALID), raised a fence (R402), or fired slot `k` of engine `te` by a record
that engine `e` posted for queue `q` (R374, R402). -/
inductive EventBit where
  | fenceSat (f : Nat) | badTail (q : Nat) | overrun (m : Nat) | dbF2h (i : Nat) | slip (d : Nat) | xfValid
  | fenceUp (f : Nat) | fired (te k e q : Nat)
  deriving DecidableEq, Repr

/-- A record posted in the present hclk: its queue and engine, Q_DONE before it, and its bytes (R396). -/
structure Posted where
  queue : Nat
  engine : Nat
  at_ : Nat
  bytes : Bytes
  deriving DecidableEq, Repr

/-- A tail write of the present hclk: its queue and value, and the tail and BAD_TAIL that it found (R383). -/
structure TailWrite where
  queue : Nat
  tail : Nat
  badTail : Bool
  value : Nat
  deriving DecidableEq, Repr

/-- The module. -/
structure State where
  pending : List Instr      -- commands waiting, first in first out
  freeCtr : Nat             -- free values drawn so far (log entry 1)
  hclk : Nat                -- hclk since power-up (R368)
  pwr : Power
  hubs : Hubs
  img : Image
  hub : Hub
  flash : Sparse Byte
  yards : Yards
  mem : Mem
  engines : Sparse Engine
  fences : Sparse (BitVec 64)
  fenceSat : Sparse Bool
  queues : Sparse Queue
  slots : Sparse Slot
  qSelHost : Nat
  qSelPre : Nat
  route : RouteEng
  per : Period
  links : Sparse LinkPort
  mbx : Mbx
  clk : Clocks
  rng : Rng
  rel : Rel
  evr : Evr
  ports : Ports
  pmon : Sparse Nat         -- by BAR0 offset of the low word (R552)
  latchHost : Word
  latchPre : Word
  fresh : List EventBit     -- what events did in this hclk: no clear of it takes a bit they set (R8)
  posts : List Posted       -- records posted in this hclk (R396)
  tails : List TailWrite    -- tail writes of this hclk (R383)
  deriving DecidableEq, Repr

/-! ## The state after reset -/

def Power.reset : Power := ⟨.boot, 1, 0, false, 0, 0, 0, 0, 0, false, none⟩

def Hubs.reset : Hubs := ⟨0, false, false, false, 0, 0⟩

def TopoHalf.reset : TopoHalf := ⟨0, 0⟩

def Net.reset : Net := ⟨[], 0, [], [], [], []⟩

def ShedRec.reset : ShedRec := ⟨0, 0, 0, 0⟩

def Xlat.reset : Xlat := ⟨0, false, false, false, none⟩

/-- The thresholds of R496 that a part has before its image loads, in the order core, router, bank row, lane, device. -/
def defaultThresholds : List (Nat × Nat) :=
  [(3, 1000000), (3, 1000000), (2, 10000000), (16, 1000), (8, 1000000)]

def Image.reset : Image :=
  ⟨0, 0, 0, [], [], [], 0, [], [], [], Net.reset, [], [], [], [], [], ⟨0, 0, 0, 0⟩, 0, [], [], [], defaultThresholds⟩

def Hub.reset : Hub := ⟨0, 0, false, false, false, false, 0, (0, 0), 0, 0, false⟩

def Half.reset : Half := ⟨.off, false, false, false, 0, 0, false, false, 0, [], []⟩

def SpinBlock.reset : SpinBlock := ⟨0, 0, 0, 0, 0, List.replicate 256 0, 0, []⟩

def GenPos.reset : GenPos := ⟨0, 0⟩

def Core.reset : Core := ⟨none, false, false, SpinBlock.reset, [], [], 0, 0, []⟩

def ChainSlot.reset : ChainSlot := ⟨.empty, [], 0, 0⟩

def Programs.reset : Programs := ⟨[], [], 0⟩

def Engine.reset : Engine :=
  ⟨.off, 0, 0, false, 0, 0, none, none, [], false, [], 0, 0, [], [], none, none, false, [], Programs.reset, Programs.reset⟩

def Queue.reset : Queue :=
  ⟨.free, 0, 0, 0, false, 0, false, 0, 0, 0, 0, 0, 0, 0, 0, 0, 0, false, 0, 0, 0, none, 0, 0⟩

def Slot.reset : Slot := ⟨none, false, false, none, 0, false⟩

def RouteEng.reset : RouteEng := ⟨[], 0, 0, 0, 0, 0, 0, [], [], []⟩

def Program.reset : Program :=
  ⟨.absent, false, 0, 0, 0, 0, 0, 0, 0, 0, 0, 0, false, false, false, 0, false, false, false, false, none, 0, [], 0,
   0, 0, false, false, 0, []⟩

def Gcl.reset : Gcl := ⟨[], 0, 0⟩

/-- The reset value of DRV_GCL(i): every gate open, interval 0 (R457). -/
def gclReset : Word := 0xFF

def DrivePort.reset : DrivePort :=
  ⟨0, 0, 0, 0, 0, false, false, 0, 0, 0, 0, none, [], Gcl.reset, 0, 0xFF, []⟩

def TimeSt.reset : TimeSt := ⟨0, 0, 1000000000, false, false, 0, 0, none, 0⟩

def Period.reset : Period := ⟨[], 0, 0, [], [], [], [], TimeSt.reset, 0, 0⟩

def TxChan.reset : TxChan := ⟨false, 0, 0, [], []⟩

def RxChan.reset : RxChan := ⟨false, 0, none, none, [], none, none⟩

def LinkPort.reset : LinkPort :=
  ⟨.down, false, 0, 0, [], [], 0, 0, [], [], none, false, 0, 0, [], [], [], 0, false, [], [], [], []⟩

def H2f.reset : H2f := ⟨0, 0, 0, false, 0, 0, false, false, none⟩

def F2h.reset : F2h := ⟨0, 0, 0, 0, 0, false, none⟩

def SqMbx.reset : SqMbx := ⟨0, 0, 0⟩

def Mbx.reset : Mbx := ⟨[], [], [], 0, 0xFFFF_FFFF, 0, 0, [], [], [], none, []⟩

def Clocks.reset : Clocks := ⟨0, 0, 0, 0, 0, false, 0, false, 0, 0, 0, 0, 0, 0, [], []⟩

def Shed.reset : Shed := ⟨none, 0, false, 0, 0, 0, false, [], [], [], [], []⟩

def Mem.reset : Mem := ⟨[], [], [], 0, 0, 0⟩

def RouterClock.reset : RouterClock := ⟨0, 0⟩

def Yards.reset : Yards := ⟨List.replicate 32 RouterClock.reset, [], [], [], [], [], [], 0, [], [], [], [], [], []⟩

def NoiseSrc.reset : NoiseSrc := ⟨0, 0, false, false, 0, false⟩

def RngHub.reset : RngHub :=
  ⟨false, false, false, false, 0, none, none, 0, NoiseSrc.reset, NoiseSrc.reset, [], 0, 0, 0, [], 0⟩

def Rng.reset : Rng := ⟨[], [0, 0, 0], 0, none, [0, 0, 0], 0, none⟩

def Rel.reset : Rel := ⟨false, 0, false, [], [], [], [], [], []⟩

def EvWin.reset : EvWin := ⟨1, false, false, none⟩

def Evr.reset : Evr :=
  ⟨[], 0, false, 0, false, 0, [], 0, none, false, none, 0, 0, 0, false, 0, [], EvWin.reset, EvWin.reset, 0, 0, [], false, 0, (0, []), (0, []), none⟩

def Ports.reset : Ports :=
  ⟨.none, true, 30, [], [], [], [], [], [], [], 0, none, 1, [], true, .idcode, true, [], []⟩

/-- The module right after the release of MRST#, before power-up step 1 has run (R520, R533): every register at its reset
value, every memory with nothing listed, no command waiting. -/
def State.reset : State :=
  { pending := [], freeCtr := 0, hclk := 0, pwr := Power.reset, hubs := Hubs.reset, img := Image.reset, hub := Hub.reset,
    flash := [], yards := Yards.reset, mem := Mem.reset, engines := [], fences := [], fenceSat := [], queues := [],
    slots := [], qSelHost := 0, qSelPre := 0, route := RouteEng.reset, per := Period.reset, links := [], mbx := Mbx.reset,
    clk := Clocks.reset, rng := Rng.reset, rel := Rel.reset, evr := Evr.reset, ports := Ports.reset, pmon := [],
    latchHost := 0, latchPre := 0, fresh := [], posts := [], tails := [] }

/-- Why the module stops. -/
inductive Fault where
  /-- Raised by RAIL_OUT_OF_BAND for a rail other than VDD_Y, VDD_SP and VDD_RT: the part is outside its ratings and the
  manual makes no promise (R560). SAFE: the model stops where the hardware may go on in any way. -/
  | outsideRatings
  deriving DecidableEq, Repr

/-- Why a command has no meaning. -/
inductive Refusal where
  /-- Raised by an arm of exec whose command has no meaning yet. SAFE: the model stops. -/
  | notModelled (mnemonic : String)
  deriving DecidableEq, Repr

end Sys2Proof.Machine
end

