-- ==== Sys2Proof/Machine/Ops.lean ====
section
/-!
DEFINITION. The shared operations over the tables and registers: keyed tables in canonical form, byte fields, the parts of
the state by number, counters, free values and time.
-/
namespace Sys2Proof.Machine

/-! ## Keyed tables -/

/-- What key `k` of a table reads as, `d` where the table lists nothing for it. -/
def sget {α : Type} (d : α) : Sparse α → Nat → α
  | [], _ => d
  | (j, v) :: m, k => if j = k then v else sget d m k

/-- A table with key `k` listed as `v`, the keys still rising. -/
def sput {α : Type} : Sparse α → Nat → α → Sparse α
  | [], k, v => [(k, v)]
  | (j, w) :: m, k, v =>
    if k < j then (k, v) :: (j, w) :: m
    else if k = j then (k, v) :: m
    else (j, w) :: sput m k v

/-- A table with nothing listed for key `k`. -/
def sdel {α : Type} : Sparse α → Nat → Sparse α
  | [], _ => []
  | (j, w) :: m, k => if j = k then m else (j, w) :: sdel m k

/-- A write of `v` at key `k`: the value an unlisted key reads as removes the entry, so equal tables are equal data. -/
def sset {α : Type} [DecidableEq α] (d : α) (m : Sparse α) (k : Nat) (v : α) : Sparse α :=
  if v = d then sdel m k else sput m k v

/-- A table with `f` applied to every listed value, in canonical form. -/
def smap {α : Type} [DecidableEq α] (d : α) (f : α → α) : Sparse α → Sparse α
  | [] => []
  | (k, v) :: m => if f v = d then smap d f m else (k, f v) :: smap d f m

/-- A table with the keys of `[lo, hi)` unlisted. -/
def swipe {α : Type} (lo hi : Nat) (m : Sparse α) : Sparse α := m.filter (fun x => decide (x.1 < lo) || decide (hi ≤ x.1))

/-- Every key of a table is above `k`. -/
def sabove {α : Type} (k : Nat) : Sparse α → Bool
  | [] => true
  | (j, _) :: m => decide (k < j) && sabove k m

/-- The canonical form: keys strictly rising, no entry equal to the default. -/
def swf {α : Type} [DecidableEq α] (d : α) : Sparse α → Bool
  | [] => true
  | (j, v) :: m => decide (v ≠ d) && sabove j m && swf d m

/-- The bytes of a table from `a`, `n` of them. -/
def sread {α : Type} (d : α) (m : Sparse α) (a : Nat) : Nat → List α
  | 0 => []
  | n + 1 => sget d m a :: sread d m (a + 1) n

/-- A table with the values `vs` written from key `a` on. -/
def swrite {α : Type} [DecidableEq α] (d : α) (m : Sparse α) (a : Nat) : List α → Sparse α
  | [] => m
  | v :: vs => swrite d (sset d m a v) (a + 1) vs

/-! ## Bytes and fields -/

/-- The unsigned value of a run of bytes, little-endian (R5). -/
def ofBytes : Bytes → Nat
  | [] => 0
  | b :: bs => b.toNat + 256 * ofBytes bs

/-- `n` bytes of a value, little-endian (R5). -/
def toBytes : Nat → Nat → Bytes
  | 0, _ => []
  | n + 1, v => BitVec.ofNat 8 v :: toBytes n (v / 256)

/-- The field of `n` bytes at offset `off` of an object; bytes past its end read as 0. -/
def fld (bs : Bytes) (off n : Nat) : Nat := ofBytes ((bs.drop off).take n)

/-- `n` words of `k` bytes in a row. -/
def wordsOf (k : Nat) : Nat → Bytes → List Nat
  | 0, _ => []
  | n + 1, bs => ofBytes (bs.take k) :: wordsOf k n (bs.drop k)

/-- Bits [hi:lo] of a number. -/
def bits (v hi lo : Nat) : Nat := v / 2 ^ lo % 2 ^ (hi + 1 - lo)

/-- Bit `i` of a number. -/
def bit (v i : Nat) : Bool := v / 2 ^ i % 2 == 1

/-- 1 for true, 0 for false. -/
def b2n (b : Bool) : Nat := if b then 1 else 0

/-- The signed value of an `n`-bit number. -/
def signed (n v : Nat) : Int := if v % 2 ^ n < 2 ^ (n - 1) then (v % 2 ^ n : Nat) else (v % 2 ^ n : Nat) - (2 ^ n : Nat)

/-- The `n`-bit two's complement number of a value. -/
def unsigned (n : Nat) (v : Int) : Nat := (v % (2 ^ n : Nat)).toNat

/-- `n` zero bytes. -/
def zeros (n : Nat) : Bytes := List.replicate n 0

/-- Every byte of a run is 0. -/
def allZero (bs : Bytes) : Bool := bs.all (fun b => b == 0)

/-- Bytes `off` to `off + n - 1` of an object are reserved and 0 (R6, R37). -/
def rsv (bs : Bytes) (off n : Nat) : Bool := fld bs off n == 0

/-- An object with the field of `n` bytes at `off` replaced. -/
def setFld (bs : Bytes) (off n v : Nat) : Bytes := bs.take off ++ toBytes n v ++ bs.drop (off + n)

/-- A low-to-high count below `n`. -/
def upto (n : Nat) : List Nat := List.range n

/-- The set bits of a mask below `n`, lowest first. -/
def setBits (v n : Nat) : List Nat := (upto n).filter (fun i => bit v i)

/-- Elements with their positions. -/
def indexed {α : Type} (xs : List α) : List (Nat × α) := (upto xs.length).zip xs

/-- The first least element of a list under a key. -/
def minBy {α : Type} (key : α → Nat) : List α → Option α
  | [] => none
  | x :: xs =>
    match minBy key xs with
    | none => some x
    | some y => if key x ≤ key y then some x else some y

/-- Drops repeated elements, the first kept. -/
def dedup (xs : List Nat) : List Nat := xs.foldl (fun acc x => if acc.contains x then acc else acc ++ [x]) []

/-- Inserts a number into a strictly rising list. -/
def insertNat (k : Nat) : List Nat → List Nat
  | [] => [k]
  | j :: js => if k < j then k :: j :: js else if k = j then j :: js else j :: insertNat k js

/-! ## Parts of the state by number -/

def State.eng (s : State) (e : Nat) : Engine := sget Engine.reset s.engines e
def State.setEng (s : State) (e : Nat) (x : Engine) : State := { s with engines := sset Engine.reset s.engines e x }
def State.modEng (s : State) (e : Nat) (f : Engine → Engine) : State := s.setEng e (f (s.eng e))

def State.queue (s : State) (q : Nat) : Queue := sget Queue.reset s.queues q
def State.setQueue (s : State) (q : Nat) (x : Queue) : State := { s with queues := sset Queue.reset s.queues q x }
def State.modQueue (s : State) (q : Nat) (f : Queue → Queue) : State := s.setQueue q (f (s.queue q))

def State.slot (s : State) (k : Nat) : Slot := sget Slot.reset s.slots k
def State.setSlot (s : State) (k : Nat) (x : Slot) : State := { s with slots := sset Slot.reset s.slots k x }
def State.modSlot (s : State) (k : Nat) (f : Slot → Slot) : State := s.setSlot k (f (s.slot k))

def State.half (s : State) (d : Nat) : Half := sget Half.reset s.yards.halves d
def State.setHalf (s : State) (d : Nat) (x : Half) : State :=
  { s with yards := { s.yards with halves := sset Half.reset s.yards.halves d x } }
def State.modHalf (s : State) (d : Nat) (f : Half → Half) : State := s.setHalf d (f (s.half d))

/-- The clock of the routers of a half. -/
def State.rclk (s : State) (d : Nat) : RouterClock := s.yards.clocks.getD d RouterClock.reset
def State.setRclk (s : State) (d : Nat) (x : RouterClock) : State := { s with yards := { s.yards with clocks := s.yards.clocks.set d x } }

/-- The number of a physical core: (YH × 66 + PCOL) × 64 + ROW (R68). -/
def physNum (yh pcol row : Nat) : Nat := (yh * 66 + pcol) * 64 + row

def coreNum (c : PhysCore) : Nat := physNum c.yh c.pcol c.row

/-- The physical core of a number. -/
def physOf (n : Nat) : PhysCore := ⟨n / (66 * 64), n / 64 % 66, n % 64⟩

def State.core (s : State) (n : Nat) : Core := sget Core.reset s.yards.cores n
def State.setCore (s : State) (n : Nat) (x : Core) : State :=
  { s with yards := { s.yards with cores := sset Core.reset s.yards.cores n x } }
def State.modCore (s : State) (n : Nat) (f : Core → Core) : State := s.setCore n (f (s.core n))

def State.shed (s : State) (k : Nat) : Shed := sget Shed.reset s.mem.sheds k
def State.setShed (s : State) (k : Nat) (x : Shed) : State :=
  { s with mem := { s.mem with sheds := sset Shed.reset s.mem.sheds k x } }
def State.modShed (s : State) (k : Nat) (f : Shed → Shed) : State := s.setShed k (f (s.shed k))

def State.shedRec (s : State) (k : Nat) : ShedRec := sget ShedRec.reset s.img.sheds k
def State.setShedRec (s : State) (k : Nat) (x : ShedRec) : State :=
  { s with img := { s.img with sheds := sset ShedRec.reset s.img.sheds k x } }

def State.topo (s : State) (d : Nat) : TopoHalf := sget TopoHalf.reset s.img.topo d
def State.setTopo (s : State) (d : Nat) (x : TopoHalf) : State :=
  { s with img := { s.img with topo := sset TopoHalf.reset s.img.topo d x } }

def State.xlat (s : State) (v : Nat) : Xlat := sget Xlat.reset s.img.xlat v
def State.setXlat (s : State) (v : Nat) (x : Xlat) : State :=
  { s with img := { s.img with xlat := sset Xlat.reset s.img.xlat v x } }

def State.prog (s : State) (p : Nat) : Program := sget Program.reset s.per.progs p
def State.setProg (s : State) (p : Nat) (x : Program) : State :=
  { s with per := { s.per with progs := sset Program.reset s.per.progs p x } }
def State.modProg (s : State) (p : Nat) (f : Program → Program) : State := s.setProg p (f (s.prog p))

def State.port (s : State) (n : Nat) : DrivePort := sget DrivePort.reset s.per.ports n
def State.setPort (s : State) (n : Nat) (x : DrivePort) : State :=
  { s with per := { s.per with ports := sset DrivePort.reset s.per.ports n x } }
def State.modPort (s : State) (n : Nat) (f : DrivePort → DrivePort) : State := s.setPort n (f (s.port n))

def State.link (s : State) (p : Nat) : LinkPort := sget LinkPort.reset s.links p
def State.setLink (s : State) (p : Nat) (x : LinkPort) : State := { s with links := sset LinkPort.reset s.links p x }
def State.modLink (s : State) (p : Nat) (f : LinkPort → LinkPort) : State := s.setLink p (f (s.link p))

def State.h2f (s : State) (m : Nat) : H2f := sget H2f.reset s.mbx.h2f m
def State.setH2f (s : State) (m : Nat) (x : H2f) : State :=
  { s with mbx := { s.mbx with h2f := sset H2f.reset s.mbx.h2f m x } }
def State.f2h (s : State) (m : Nat) : F2h := sget F2h.reset s.mbx.f2h m
def State.setF2h (s : State) (m : Nat) (x : F2h) : State :=
  { s with mbx := { s.mbx with f2h := sset F2h.reset s.mbx.f2h m x } }

def State.rngHub (s : State) (h : Nat) : RngHub := sget RngHub.reset s.rng.hubs h
def State.setRngHub (s : State) (h : Nat) (x : RngHub) : State :=
  { s with rng := { s.rng with hubs := sset RngHub.reset s.rng.hubs h x } }
def State.modRngHub (s : State) (h : Nat) (f : RngHub → RngHub) : State := s.setRngHub h (f (s.rngHub h))

def State.fence (s : State) (f : Nat) : BitVec 64 := sget 0 s.fences f

def State.modPwr (s : State) (f : Power → Power) : State := { s with pwr := f s.pwr }
def State.modRel (s : State) (f : Rel → Rel) : State := { s with rel := f s.rel }
def State.modMbx (s : State) (f : Mbx → Mbx) : State := { s with mbx := f s.mbx }
def State.modEvr (s : State) (f : Evr → Evr) : State := { s with evr := f s.evr }
def State.modClk (s : State) (f : Clocks → Clocks) : State := { s with clk := f s.clk }
def State.modPorts (s : State) (f : Ports → Ports) : State := { s with ports := f s.ports }
def State.modPer (s : State) (f : Period → Period) : State := { s with per := f s.per }
def State.modHubs (s : State) (f : Hubs → Hubs) : State := { s with hubs := f s.hubs }
def State.modRoute (s : State) (f : RouteEng → RouteEng) : State := { s with route := f s.route }
def State.modYards (s : State) (f : Yards → Yards) : State := { s with yards := f s.yards }

/-- The last access was answered with `r`. -/
def State.answer (s : State) (r : Resp) : State := s.modPorts (fun p => { p with resp := r })

/-- Applies a change for every element of a list, in order. -/
def State.each {α : Type} (s : State) (xs : List α) (f : State → α → State) : State := xs.foldl f s

/-! ## Counters (R551, R552) -/

/-- The groups of R552. -/
inductive Grp where
  | half | shed | engine | route | link | drive | prog | hub | queue
  deriving DecidableEq, Repr

/-- The base of a counter group (R552). -/
def Grp.base : Grp → Nat
  | .half => 0x0700000
  | .shed => 0x0710000
  | .engine => 0x0720000
  | .route => 0x0730000
  | .link => 0x0740000
  | .drive => 0x0750000
  | .prog => 0x0760000
  | .hub => 0x0770000
  | .queue => 0x0780000

/-- The offset of counter `idx` of instance `inst` (R552). -/
def pmonOff (g : Grp) (inst idx : Nat) : Nat := g.base + 0x100 * inst + 8 * idx

/-- The value of a counter. -/
def State.count (s : State) (g : Grp) (inst idx : Nat) : Nat := sget 0 s.pmon (pmonOff g inst idx)

/-- Adds `n` to a counter, which passes from 2^48 − 1 to 0 (R551). -/
def State.bumpBy (s : State) (g : Grp) (inst idx n : Nat) : State :=
  { s with pmon := sset 0 s.pmon (pmonOff g inst idx) ((s.count g inst idx + n) % 2 ^ 48) }

/-- Adds 1 to a counter. -/
def State.bump (s : State) (g : Grp) (inst idx : Nat) : State := s.bumpBy g inst idx 1

/-! ## Free values (log entry 1) -/

/-- A fresh free value, and the state after drawing it. -/
def State.draw (s : State) : Nat × State := (Config.freeValue s.freeCtr, { s with freeCtr := s.freeCtr + 1 })

/-! ## Requests to the random generators (R483) -/

/-- The place of a user among requests of one hclk: engines by number, then Prephor, then the host. -/
def RngUser.rank : RngUser → Nat
  | .engine e => e
  | .prephor => 21
  | .host => 22

/-- A request joins the line of a generator at hclk `now`. -/
def RngHub.enqueue (h : RngHub) (u : RngUser) (now : Nat) : RngHub :=
  let before (w : RngUser × Nat) : Bool := !(w.2 == now && decide (u.rank < w.1.rank))
  { h with waiting := h.waiting.takeWhile before ++ (u, now) :: h.waiting.dropWhile before }

/-- The requests of a user are withdrawn. -/
def RngHub.withdraw (h : RngHub) (u : RngUser) : RngHub := { h with waiting := h.waiting.filter (fun w => decide (w.1 ≠ u)) }

/-! ## Bits that events set (R8) -/

/-- An event sets a bit in this hclk. -/
def State.event (s : State) (b : EventBit) : State := if s.fresh.contains b then s else { s with fresh := b :: s.fresh }

/-- A clear of a bit takes it: no event has set it in this hclk. -/
def State.clears (s : State) (b : EventBit) : Bool := !s.fresh.contains b

/-! ## Time (R11) -/

/-- hclk in one µs. -/
def hclkPerUs : Nat := 1200

/-- The ns of an hclk count, at 1.2 GHz. -/
def nsOf (h : Nat) : Nat := h * 5 / 6

/-- The µs of an hclk count. -/
def usOf (h : Nat) : Nat := h / hclkPerUs

/-- E5's 802.1AS time now: the time of the last correction, run on at the measured rate (R454). -/
def State.time (s : State) : Nat :=
  s.per.time.now + nsOf (s.hclk - s.per.time.at_) * s.per.time.rateNum / 1000000000

/-! ## Grades and lockstep -/

/-- Logical columns per yard half of a grade code (R17, R35). -/
def logicalOf (grade : Nat) : Nat := if grade = 0 then 64 else if grade = 1 then 60 else 56

/-- Logical columns per yard half of this package. -/
def State.logical (s : State) : Nat := logicalOf s.pwr.grade

/-- Domain `d` is in the aligned set (R265). -/
def State.alignedDom (s : State) (d : Nat) : Bool := s.clk.aligned.getLsbD d

/-- The management domain of the active hub, 54 or 57 (R570). -/
def State.hubDomain (s : State) : Nat := if s.hubs.active = 0 then 54 else 57

/-- A hub serves the part: the active hub is not lost (R515). -/
def State.hubAlive (s : State) : Bool := if s.hubs.active = 0 then !s.hubs.h0Lost else !s.hubs.h1Lost

/-- The module runs work: READY with a hub to serve it (R520). -/
def State.live (s : State) : Bool := s.pwr.mod == .ready && s.hubAlive

end Sys2Proof.Machine
end

