-- ==== Sys2Proof/Machine/Crypto.lean ====
section
/-!
DEFINITION. The published functions that the EQ6 uses: Philox4x32-10 (R80), SHA3-256 and the CTR_DRBG with AES-256 (R481, R482),
SHA-384 and ECDSA on P-384 (R30).
-/
namespace Sys2Proof.Machine

/-! ## Philox4x32-10 (R80) -/

/-- One round on the four counter words under the key words. -/
def philoxRound (c0 c1 c2 c3 k0 k1 : Nat) : Nat × Nat × Nat × Nat :=
  let p0 := 0xD2511F53 * c0
  let p1 := 0xCD9E8D57 * c2
  (Nat.xor (Nat.xor (p1 / 2 ^ 32) c1) k0, p1 % 2 ^ 32, Nat.xor (Nat.xor (p0 / 2 ^ 32) c3) k1, p0 % 2 ^ 32)

/-- `n` rounds with the key bumped between them. -/
def philoxRounds : Nat → Nat → Nat → Nat → Nat → Nat → Nat → Nat × Nat × Nat × Nat
  | 0, c0, c1, c2, c3, _, _ => (c0, c1, c2, c3)
  | n + 1, c0, c1, c2, c3, k0, k1 =>
    let r := philoxRound c0 c1 c2 c3 k0 k1
    philoxRounds n r.1 r.2.1 r.2.2.1 r.2.2.2 ((k0 + 0x9E3779B9) % 2 ^ 32) ((k1 + 0xBB67AE85) % 2 ^ 32)

/-- The 128 output bits of a block, x0 in the low word (R80, R82). -/
def philox (seed core code lane seq : Nat) : Nat :=
  let r := philoxRounds 10 (core % 2 ^ 32) (code % 256 * 2 ^ 24 + lane % 2 ^ 24) (seq % 2 ^ 32) (seq / 2 ^ 32 % 2 ^ 32)
    (seed % 2 ^ 32) (seed / 2 ^ 32 % 2 ^ 32)
  r.1 + r.2.1 * 2 ^ 32 + r.2.2.1 * 2 ^ 64 + r.2.2.2 * 2 ^ 96

/-! ## SHA-384 -/

/-- The 80 round constants. -/
def shaK : List Nat :=
  [0x428a2f98d728ae22, 0x7137449123ef65cd, 0xb5c0fbcfec4d3b2f, 0xe9b5dba58189dbbc] ++
  [0x3956c25bf348b538, 0x59f111f1b605d019, 0x923f82a4af194f9b, 0xab1c5ed5da6d8118] ++
  [0xd807aa98a3030242, 0x12835b0145706fbe, 0x243185be4ee4b28c, 0x550c7dc3d5ffb4e2] ++
  [0x72be5d74f27b896f, 0x80deb1fe3b1696b1, 0x9bdc06a725c71235, 0xc19bf174cf692694] ++
  [0xe49b69c19ef14ad2, 0xefbe4786384f25e3, 0xfc19dc68b8cd5b5, 0x240ca1cc77ac9c65] ++
  [0x2de92c6f592b0275, 0x4a7484aa6ea6e483, 0x5cb0a9dcbd41fbd4, 0x76f988da831153b5] ++
  [0x983e5152ee66dfab, 0xa831c66d2db43210, 0xb00327c898fb213f, 0xbf597fc7beef0ee4] ++
  [0xc6e00bf33da88fc2, 0xd5a79147930aa725, 0x6ca6351e003826f, 0x142929670a0e6e70] ++
  [0x27b70a8546d22ffc, 0x2e1b21385c26c926, 0x4d2c6dfc5ac42aed, 0x53380d139d95b3df] ++
  [0x650a73548baf63de, 0x766a0abb3c77b2a8, 0x81c2c92e47edaee6, 0x92722c851482353b] ++
  [0xa2bfe8a14cf10364, 0xa81a664bbc423001, 0xc24b8b70d0f89791, 0xc76c51a30654be30] ++
  [0xd192e819d6ef5218, 0xd69906245565a910, 0xf40e35855771202a, 0x106aa07032bbd1b8] ++
  [0x19a4c116b8d2d0c8, 0x1e376c085141ab53, 0x2748774cdf8eeb99, 0x34b0bcb5e19b48a8] ++
  [0x391c0cb3c5c95a63, 0x4ed8aa4ae3418acb, 0x5b9cca4f7763e373, 0x682e6ff3d6b2b8a3] ++
  [0x748f82ee5defb2fc, 0x78a5636f43172f60, 0x84c87814a1f0ab72, 0x8cc702081a6439ec] ++
  [0x90befffa23631e28, 0xa4506cebde82bde9, 0xbef9a3f7b2c67915, 0xc67178f2e372532b] ++
  [0xca273eceea26619c, 0xd186b8c721c0c207, 0xeada7dd6cde0eb1e, 0xf57d4f7fee6ed178] ++
  [0x6f067aa72176fba, 0xa637dc5a2c898a6, 0x113f9804bef90dae, 0x1b710b35131c471b] ++
  [0x28db77f523047d84, 0x32caab7b40c72493, 0x3c9ebe0a15c9bebc, 0x431d67c49c100d4c] ++
  [0x4cc5d4becb3e42b6, 0x597f299cfc657e2a, 0x5fcb6fab3ad6faec, 0x6c44198c4a475817]

/-- The initial hash value of SHA-384. -/
def sha384H : List Nat :=
  [0xcbbb9d5dc1059ed8, 0x629a292a367cd507, 0x9159015a3070dd17, 0x152fecd8f70e5939] ++
  [0x67332667ffc00b31, 0x8eb44a8768581511, 0xdb0c2e0d64f98fa7, 0x47b5481dbefa4fa4]

/-- Rotation to the right in `w` bits. -/
def rotr (w x n : Nat) : Nat := x / 2 ^ n + x % 2 ^ n * 2 ^ (w - n)

/-- The unsigned value of a run of bytes, the most significant first. -/
def beNat (bs : Bytes) : Nat := bs.foldl (fun acc b => acc * 256 + b.toNat) 0

/-- `n` bytes of a value, the most significant first. -/
def beBytes (n v : Nat) : Bytes := (toBytes n v).reverse

/-- Cuts a run of bytes into pieces of `k` bytes, `n` of them. -/
def chunks (k : Nat) : Nat → Bytes → List Bytes
  | 0, _ => []
  | n + 1, bs => bs.take k :: chunks k n (bs.drop k)

/-- The message schedule: the last 16 words, newest first, grown to 80. -/
def shaExpand : Nat → List Nat → List Nat
  | 0, ws => ws
  | n + 1, ws =>
    let a := ws.getD 14 0
    let b := ws.getD 1 0
    let s0 := Nat.xor (Nat.xor (rotr 64 a 1) (rotr 64 a 8)) (a / 2 ^ 7)
    let s1 := Nat.xor (Nat.xor (rotr 64 b 19) (rotr 64 b 61)) (b / 2 ^ 6)
    shaExpand n ((ws.getD 15 0 + s0 + ws.getD 6 0 + s1) % 2 ^ 64 :: ws)

/-- One round on the eight working words. -/
def shaRound (st : List Nat) (kw : Nat × Nat) : List Nat :=
  match st with
  | [a, b, c, d, e, f, g, h] =>
    let s1 := Nat.xor (Nat.xor (rotr 64 e 14) (rotr 64 e 18)) (rotr 64 e 41)
    let ch := Nat.xor (Nat.land e f) (Nat.land (2 ^ 64 - 1 - e) g)
    let t1 := h + s1 + ch + kw.1 + kw.2
    let s0 := Nat.xor (Nat.xor (rotr 64 a 28) (rotr 64 a 34)) (rotr 64 a 39)
    let mj := Nat.xor (Nat.xor (Nat.land a b) (Nat.land a c)) (Nat.land b c)
    [(t1 + s0 + mj) % 2 ^ 64, a, b, c, (d + t1) % 2 ^ 64, e, f, g]
  | _ => st

/-- One block. -/
def shaBlock (h : List Nat) (blk : Bytes) : List Nat :=
  let ws := (shaExpand 64 ((chunks 8 16 blk).map beNat).reverse).reverse
  let out := (shaK.zip ws).foldl shaRound h
  (h.zip out).map (fun x => (x.1 + x.2) % 2 ^ 64)

/-- The SHA-384 digest of a run of bytes. -/
def sha384 (bs : Bytes) : Bytes :=
  let n := bs.length
  let pad := (128 - (n + 17) % 128) % 128
  let m := bs ++ [0x80] ++ zeros pad ++ beBytes 16 (8 * n)
  let h := (chunks 128 (m.length / 128) m).foldl shaBlock sha384H
  ((h.take 6).map (beBytes 8)).flatten

/-! ## ECDSA on P-384 -/

def p384 : Nat := 2 ^ 384 - 2 ^ 128 - 2 ^ 96 + 2 ^ 32 - 1
def p384n : Nat := 0xFFFFFFFFFFFFFFFFFFFFFFFFFFFFFFFFFFFFFFFFFFFFFFFFC7634D81F4372DDF581A0DB248B0A77AECEC196ACCC52973
def p384b : Nat := 0xB3312FA7E23EE7E4988E056BE3F82D19181D9C6EFE8141120314088F5013875AC656398D8A2ED19D2A85C8EDD3EC2AEF
def p384g : Nat × Nat :=
  (0xAA87CA22BE8B05378EB1C71EF320AD746E1D3B628BA79B9859F741E082542A385502F25DBF55296C3A545E3872760AB7,
   0x3617DE4A96262C6F5D9E98BF9292DC29F8F41DBD289A147CE9DA3113B5F0B8C00A60B1CE1D7E819D7A431D7C90EA0E5F)

/-- x^e mod m, by the bits of e from the top, `n` of them. -/
def powMod (m x e : Nat) : Nat → Nat
  | 0 => 1 % m
  | n + 1 =>
    let r := powMod m x (e / 2) n
    if e % 2 = 1 then r * r % m * x % m else r * r % m

/-- The inverse modulo a prime. -/
def invMod (m x : Nat) : Nat := powMod m x (m - 2) 384

/-- A point of the curve, none at infinity. -/
abbrev Point := Option (Nat × Nat)

/-- The sum of two points. -/
def ecAdd (a b : Point) : Point :=
  match a, b with
  | none, q => q
  | q, none => q
  | some p, some q =>
    if p.1 = q.1 ∧ (p.2 + q.2) % p384 = 0 then none
    else
      let l := if p.1 = q.1 then (3 * p.1 * p.1 + p384 - 3) * invMod p384 (2 * p.2) % p384
        else (q.2 + p384 - p.2) * invMod p384 ((q.1 + p384 - p.1) % p384) % p384
      let x := (l * l + 2 * p384 - p.1 - q.1) % p384
      some (x, (l * (p.1 + p384 - x) + p384 - p.2) % p384)

/-- k times a point, by the bits of k, `n` of them. -/
def ecMul (q : Point) (k : Nat) : Nat → Point
  | 0 => none
  | n + 1 =>
    let r := ecMul q (k / 2) n
    let d := ecAdd r r
    if k % 2 = 1 then ecAdd d q else d

/-- The signature r, s of 96 bytes (48-byte little-endian r then s, R30) verifies over the SHA-384 digest of a message. -/
def verify (key : Nat × Nat) (msg sig : Bytes) : Bool :=
  let r := fld sig 0 48
  let s := fld sig 48 48
  let onCurve := decide (key.1 < p384 ∧ key.2 < p384 ∧ key.2 * key.2 % p384 = (key.1 * key.1 * key.1 + (p384 - 3) * key.1 + p384b) % p384)
  if r = 0 ∨ s = 0 ∨ p384n ≤ r ∨ p384n ≤ s ∨ !onCurve then false
  else
    let z := beNat (sha384 msg)
    let w := invMod p384n s
    match ecAdd (ecMul (some p384g) (z * w % p384n) 384) (ecMul (some key) (r * w % p384n) 384) with
    | none => false
    | some q => q.1 % p384n == r

/-! ## SHA3-256 -/

/-- The round constants of Keccak-f[1600]. -/
def keccakRC : List Nat :=
  [0x1, 0x8082, 0x800000000000808a, 0x8000000080008000] ++
  [0x808b, 0x80000001, 0x8000000080008081, 0x8000000000008009] ++
  [0x8a, 0x88, 0x80008009, 0x8000000a] ++
  [0x8000808b, 0x800000000000008b, 0x8000000000008089, 0x8000000000008003] ++
  [0x8000000000008002, 0x8000000000000080, 0x800a, 0x800000008000000a] ++
  [0x8000000080008081, 0x8000000000008080, 0x80000001, 0x8000000080008008]

/-- Rotation to the left in 64 bits. -/
def rotl64 (x n : Nat) : Nat := if n % 64 = 0 then x else rotr 64 x (64 - n % 64)

/-- The offsets of rho and the order of pi: lane (x, y) goes to (y, 2x + 3y), walked from (1, 0). -/
def rhoPi : Nat → Nat → Nat → Nat → List (Nat × Nat × Nat)
  | 0, _, _, _ => []
  | n + 1, t, x, y =>
    let nx := y
    let ny := (2 * x + 3 * y) % 5
    (x + 5 * y, nx + 5 * ny, (t + 1) * (t + 2) / 2 % 64) :: rhoPi n (t + 1) nx ny

/-- One round of Keccak-f on 25 lanes. -/
def keccakRound (a : List Nat) (rc : Nat) : List Nat :=
  let c := (upto 5).map (fun x => (upto 5).foldl (fun acc y => Nat.xor acc (a.getD (x + 5 * y) 0)) 0)
  let d := (upto 5).map (fun x => Nat.xor (c.getD ((x + 4) % 5) 0) (rotl64 (c.getD ((x + 1) % 5) 0) 1))
  let t := (indexed a).map (fun v => Nat.xor v.2 (d.getD (v.1 % 5) 0))
  let b := (rhoPi 24 0 1 0).foldl (fun acc m => acc.set m.2.1 (rotl64 (t.getD m.1 0) m.2.2)) t
  let e := (upto 25).map (fun i =>
    let y := i / 5 * 5
    Nat.xor (b.getD i 0) (Nat.land (2 ^ 64 - 1 - b.getD (y + (i + 1) % 5) 0) (b.getD (y + (i + 2) % 5) 0)))
  e.set 0 (Nat.xor (e.getD 0 0) rc)

/-- Keccak-f[1600]. -/
def keccakF (a : List Nat) : List Nat := keccakRC.foldl keccakRound a

/-- The SHA3-256 digest of a run of bytes. -/
def sha3 (bs : Bytes) : Bytes :=
  let pad := 136 - bs.length % 136
  let m := bs ++ (if pad = 1 then [0x86] else [0x06] ++ zeros (pad - 2) ++ [0x80])
  let st := (chunks 136 (m.length / 136) m).foldl (fun a blk =>
    keccakF ((indexed a).map (fun v => if v.1 < 17 then Nat.xor v.2 (fld blk (8 * v.1) 8) else v.2))) (List.replicate 25 0)
  ((st.take 4).map (toBytes 8)).flatten

/-! ## AES-256 -/

/-- The S-box. -/
def aesS : List Nat :=
  [99, 124, 119, 123, 242, 107, 111, 197, 48, 1, 103, 43, 254, 215, 171, 118] ++
  [202, 130, 201, 125, 250, 89, 71, 240, 173, 212, 162, 175, 156, 164, 114, 192] ++
  [183, 253, 147, 38, 54, 63, 247, 204, 52, 165, 229, 241, 113, 216, 49, 21] ++
  [4, 199, 35, 195, 24, 150, 5, 154, 7, 18, 128, 226, 235, 39, 178, 117] ++
  [9, 131, 44, 26, 27, 110, 90, 160, 82, 59, 214, 179, 41, 227, 47, 132] ++
  [83, 209, 0, 237, 32, 252, 177, 91, 106, 203, 190, 57, 74, 76, 88, 207] ++
  [208, 239, 170, 251, 67, 77, 51, 133, 69, 249, 2, 127, 80, 60, 159, 168] ++
  [81, 163, 64, 143, 146, 157, 56, 245, 188, 182, 218, 33, 16, 255, 243, 210] ++
  [205, 12, 19, 236, 95, 151, 68, 23, 196, 167, 126, 61, 100, 93, 25, 115] ++
  [96, 129, 79, 220, 34, 42, 144, 136, 70, 238, 184, 20, 222, 94, 11, 219] ++
  [224, 50, 58, 10, 73, 6, 36, 92, 194, 211, 172, 98, 145, 149, 228, 121] ++
  [231, 200, 55, 109, 141, 213, 78, 169, 108, 86, 244, 234, 101, 122, 174, 8] ++
  [186, 120, 37, 46, 28, 166, 180, 198, 232, 221, 116, 31, 75, 189, 139, 138] ++
  [112, 62, 181, 102, 72, 3, 246, 14, 97, 53, 87, 185, 134, 193, 29, 158] ++
  [225, 248, 152, 17, 105, 217, 142, 148, 155, 30, 135, 233, 206, 85, 40, 223] ++
  [140, 161, 137, 13, 191, 230, 66, 104, 65, 153, 45, 15, 176, 84, 187, 22]

def sub (x : Nat) : Nat := aesS.getD x 0

/-- Doubling in GF(2^8). -/
def xt (x : Nat) : Nat := if x < 128 then 2 * x else Nat.xor (2 * x - 256) 0x1B

/-- Exclusive or of two runs. -/
def xorL (a b : List Nat) : List Nat := (a.zip b).map (fun x => Nat.xor x.1 x.2)

/-- The key schedule: words newest first, grown to 60. -/
def aesExpand : Nat → Nat → Nat → List (List Nat) → List (List Nat)
  | 0, _, _, ws => ws
  | n + 1, i, rc, ws =>
    let t := ws.getD 0 []
    let p := ws.getD 7 []
    let t2 := if i % 8 = 0 then
        match (t.drop 1 ++ t.take 1).map sub with
        | x :: xs => Nat.xor x rc :: xs
        | [] => []
      else if i % 8 = 4 then t.map sub else t
    aesExpand n (i + 1) (if i % 8 = 0 then xt rc else rc) (xorL p t2 :: ws)

/-- The round keys of a 32-byte key, 16 bytes each. -/
def aesKeys (key : List Nat) : List (List Nat) :=
  let w0 := (upto 8).map (fun i => (key.drop (4 * i)).take 4)
  let ws := (aesExpand 52 8 1 w0.reverse).reverse
  (upto 15).map (fun r => (upto 4).flatMap (fun c => ws.getD (4 * r + c) []))

/-- Byte substitution and row shifts. -/
def aesSubShift (s : List Nat) : List Nat := (upto 16).map (fun i => sub (s.getD ((i + 4 * (i % 4)) % 16) 0))

/-- Column mixing. -/
def aesMix (s : List Nat) : List Nat :=
  (upto 16).map (fun i =>
    let c := i / 4 * 4
    let r := i % 4
    let a := s.getD i 0
    let b := s.getD (c + (r + 1) % 4) 0
    let d := s.getD (c + (r + 2) % 4) 0
    let e := s.getD (c + (r + 3) % 4) 0
    Nat.xor (Nat.xor (Nat.xor (xt a) (Nat.xor (xt b) b)) d) e)

/-- One AES-256 block. -/
def aes256 (key blk : List Nat) : List Nat :=
  let ks := aesKeys key
  let s0 := xorL blk (ks.getD 0 [])
  let s13 := (upto 13).foldl (fun s r => xorL (aesMix (aesSubShift s)) (ks.getD (r + 1) [])) s0
  xorL (aesSubShift s13) (ks.getD 14 [])

/-! ## CTR_DRBG with derivation function (SP 800-90A) -/

/-- Bytes of a number, most significant first. -/
def beList (n v : Nat) : List Nat := (beBytes n v).map BitVec.toNat

/-- The number of a run of bytes, most significant first. -/
def listNat (xs : List Nat) : Nat := xs.foldl (fun acc x => acc * 256 + x) 0

/-- Pieces of 16 of a run, `n` of them. -/
def blocks16 : Nat → List Nat → List (List Nat)
  | 0, _ => []
  | n + 1, xs => xs.take 16 :: blocks16 n (xs.drop 16)

/-- The block cipher chain of the derivation function. -/
def drbgBcc (key : List Nat) (data : List Nat) : List Nat :=
  (blocks16 (data.length / 16) data).foldl (fun c b => aes256 key (xorL c b)) (List.replicate 16 0)

/-- The derivation function: 48 bytes from an input. -/
def drbgDf (input : List Nat) : List Nat :=
  let s := beList 4 input.length ++ beList 4 48 ++ input ++ [0x80]
  let s := s ++ List.replicate ((16 - s.length % 16) % 16) 0
  let k0 := upto 32
  let temp := (upto 3).flatMap (fun i => drbgBcc k0 (beList 4 i ++ List.replicate 12 0 ++ s))
  let key := temp.take 32
  let x1 := aes256 key ((temp.drop 32).take 16)
  let x2 := aes256 key x1
  x1 ++ x2 ++ aes256 key x2

/-- The update of the key and the counter. -/
def drbgUpdate (data : List Nat) (key v : Nat) : Nat × Nat :=
  let k := beList 32 key
  let temp := (upto 3).flatMap (fun i => aes256 k (beList 16 ((v + i + 1) % 2 ^ 128)))
  let t := xorL temp data
  (listNat (t.take 32), listNat ((t.drop 32).take 16))

/-- Instantiate from entropy and a nonce, no personalisation string: key and V. -/
def drbgInstantiate (entropy nonce : List Nat) : Nat × Nat := drbgUpdate (drbgDf (entropy ++ nonce)) 0 0

/-- Reseed from entropy. -/
def drbgReseed (entropy : List Nat) (key v : Nat) : Nat × Nat := drbgUpdate (drbgDf entropy) key v

/-- Generate one block of 16 bytes: the output, the new key and V. -/
def drbgGenerate (key v : Nat) : List Nat × Nat × Nat :=
  let v1 := (v + 1) % 2 ^ 128
  let out := aes256 (beList 32 key) (beList 16 v1)
  let u := drbgUpdate (List.replicate 48 0) key v1
  (out, u.1, u.2)

end Sys2Proof.Machine
end

