-- ==== Sys2Proof/Machine/Gen.lean ====
section
/-! DEFINITION. Draws from the streams of the core generator (R80 to R83). -/
namespace Sys2Proof.Machine

/-- A draw of `w` bits from a lane of a stream of core `core`, and the position after it (R82). -/
def genDraw (seed core stream lane w : Nat) (p : GenPos) : Nat × GenPos :=
  let q : GenPos := if 128 < p.bits + w then ⟨p.seq + 1, 0⟩ else p
  (philox seed core stream lane q.seq / 2 ^ q.bits % 2 ^ w, ⟨q.seq, q.bits + w⟩)

end Sys2Proof.Machine
end

