-- ==== Sys2Proof/Machine/Topo.lean ====
section
/-!
DEFINITION. Where things are: yard halves, logical columns, engines and their halves and slots, sheds and pages
(chapters 01, 03, 12 and 13).
-/
namespace Sys2Proof.Machine

/-! ## Yard halves and columns -/

/-- The grid row of a yard half's yard (R69). -/
def halfRow (d : Nat) : Nat := d / 2 / 4

/-- The half-column of a yard half: 2c west, 2c + 1 east (R44, R69). -/
def halfCol (d : Nat) : Nat := 2 * (d / 2 % 4) + d % 2

/-- The yard half at a half-column and a grid row. -/
def halfAt (hc row : Nat) : Nat := 2 * (4 * row + hc / 2) + hc % 2

/-- The columns in USE of a half, west first (R39). -/
def State.useCols (s : State) (d : Nat) : List Nat := setBits (s.topo d).use.toNat 66

/-- The logical column of a physical column in USE (R39). -/
def State.lcol (s : State) (d p : Nat) : Nat := ((s.useCols d).filter (fun q => decide (q < p))).length

/-- The physical column of logical column `l` (R39). -/
def State.pcol (s : State) (d l : Nat) : Nat := (s.useCols d).getD l 0

/-- A physical column is in USE. -/
def State.inUse (s : State) (d p : Nat) : Bool := (s.topo d).use.getLsbD p

/-- Module coordinate X of a core (R69): the half-columns of the grid stand west to east, LOGICAL columns each. -/
def State.coreX (s : State) (c : PhysCore) : Nat := halfCol c.yh * s.logical + s.lcol c.yh c.pcol

/-- Module coordinate Y of a core (R69). -/
def coreY (c : PhysCore) : Nat := halfRow c.yh * 64 + c.row

/-- The logical core index (R70). -/
def State.coreIndex (s : State) (c : PhysCore) : Nat := coreY c * 8 * s.logical + s.coreX c

/-- The physical core of a logical core index (R70). -/
def State.coreAt (s : State) (idx : Nat) : PhysCore :=
  let w := 8 * s.logical
  let x := idx % w
  let y := idx / w
  let d := halfAt (x / s.logical) (y / 64)
  ⟨d, s.pcol d (x % s.logical), y % 64⟩

/-- Logical cores of the module (R70). -/
def State.coreCount (s : State) : Nat := 256 * 8 * s.logical

/-- The physical core at module coordinates (R69). -/
def State.coreXY (s : State) (x y : Nat) : PhysCore := s.coreAt (y * 8 * s.logical + x)

/-! ## Engines -/

/-- The yard halves of an ENG entry (R44). -/
def EngEntry.halves (e : EngEntry) : List Nat :=
  (upto 32).filter (fun d =>
    let c := if e.kind = 0 then halfCol d / 2 else halfCol d
    decide (e.x0 ≤ c) && decide (c < e.x0 + e.w) && decide (e.y0 ≤ halfRow d) && decide (halfRow d < e.y0 + e.h))

/-- The ENG entry of a compute engine. -/
def State.engEntry (s : State) (e : Nat) : Option EngEntry := s.img.engs.find? (fun x => x.id == e)

/-- The yard halves of a compute engine, lowest first. -/
def State.halvesOf (s : State) (e : Nat) : List Nat :=
  match s.engEntry e with
  | none => []
  | some x => x.halves

/-- The compute engine of a yard half. -/
def State.engineOf (s : State) (d : Nat) : Option Nat := (s.img.engs.find? (fun x => x.halves.contains d)).map EngEntry.id

/-- Engine `e` is present (R372): a compute engine of ENG, or any other engine once an image has loaded. -/
def State.present (s : State) (e : Nat) : Bool :=
  s.hub.loaded && (if e < 8 then (s.engEntry e).isSome else decide (e < 21))

/-- The hardware slots of engine `e` (R44). -/
def State.slotsOf (s : State) (e : Nat) : Nat :=
  if e < 8 then
    match s.engEntry e with
    | none => 0
    | some x => x.slots
  else s.img.otherSlots.getD (e - 8) 0

/-- The first slot of engine `e`: slots are dealt out in engine order (DEDUCED, log entry 11). -/
def State.slotBase (s : State) (e : Nat) : Nat := ((upto e).map s.slotsOf).foldl (· + ·) 0

/-- The slots of engine `e`. -/
def State.engSlots (s : State) (e : Nat) : List Nat := (upto (s.slotsOf e)).map (fun i => s.slotBase e + i)

/-- The engine that owns a slot. -/
def State.slotEngine (s : State) (k : Nat) : Nat :=
  ((upto 21).find? (fun e => decide (s.slotBase e ≤ k) && decide (k < s.slotBase e + s.slotsOf e))).getD 0

/-- All halves of engine `e` are in the aligned set (R269). -/
def State.engAligned (s : State) (e : Nat) : Bool := !(s.halvesOf e).isEmpty && (s.halvesOf e).all s.alignedDom

/-- The standing program bound to engine `e` (R50). -/
def State.progOf (s : State) (e : Nat) : Option PerProg := s.img.progs.find? (fun p => p.eng == e)

/-! ## Sheds and physical pages (R322, R323) -/

/-- The domain of a shed's controller (R18). -/
def shedDomain (k : Nat) : Nat := 32 + 2 * k

/-- The shed of a slice. -/
def sliceShed (slice : Nat) : Nat := slice / 24

/-- Bytes of a page. -/
def pageBytes : Nat := 0x400000

/-- Physical pages of the module (R323). -/
def pageCount : Nat := 47616

end Sys2Proof.Machine
end

