-- ==== Sys2Proof/Machine/Flash.lean ====
section
/-!
DEFINITION. The flash of the xSPI port (R458, R459) and the CRC of the flush header (R544).
-/
namespace Sys2Proof.Machine

/-- What an unwritten flash byte reads as: erased (DESIGN CHOICE, log entry 3). -/
def flashErased : Byte := 0xFF

/-- Regions of the flash (R459). -/
def flashKey (slot : Nat) : Nat := 0x10000 * slot
def flashFlush (region : Nat) : Nat := 0x20000 + 0x20000 * region
def flashImage (copyB : Bool) : Nat := if copyB then 0x3000000 else 0x1000000
def flashJournal : Nat := 0x5000000
def journalBytes : Nat := 0x2000000
def flushBytes : Nat := 0x20000

/-- Bytes of the flash. -/
def State.flashRead (s : State) (a n : Nat) : Bytes := sread flashErased s.flash a n

/-- Programming turns ones to zeros, so a byte keeps a zero bit it holds (R66). -/
def programByte (m : Sparse Byte) (a : Nat) (b : Byte) : Sparse Byte := sset flashErased m a (sget flashErased m a &&& b)

/-- Programs a run of bytes. -/
def State.program (s : State) (a : Nat) (bs : Bytes) : State :=
  { s with flash := (indexed bs).foldl (fun m x => programByte m (a + x.1) x.2) s.flash }

/-- Erases `n` bytes from `a`: every byte reads 0xFF. -/
def State.erase (s : State) (a n : Nat) : State :=
  { s with flash := swipe a (a + n) s.flash }

/-- One bit of the CRC-64 of ECMA-182, most significant bit first, over a 64-bit register. -/
def crc64Bit (acc : Nat) : Nat :=
  if bit acc 63 then Nat.xor (acc * 2 % 2 ^ 64) 0x42F0E1EBA9EA3693 else acc * 2 % 2 ^ 64

/-- The CRC-64 with the ECMA-182 polynomial: register from 0, no reflection, no final inversion (DEDUCED, log entry 12). -/
def crc64 (bs : Bytes) : Nat :=
  bs.foldl (fun acc b => crc64Bit (crc64Bit (crc64Bit (crc64Bit (crc64Bit (crc64Bit (crc64Bit (crc64Bit
    (Nat.xor acc (b.toNat * 2 ^ 56)))))))))) 0

/-- The records of a flush image at `base` and its header, when MAGIC and CRC are right (R544, R547): FLUSH_SEQ and the records. -/
def State.flushAt (s : State) (region : Nat) : Option (Nat × Bytes) :=
  let base := flashFlush region
  let h := s.flashRead base 0x28
  let n := min (fld h 0x0A 2) 1024
  let body := s.flashRead (base + 0x100) (64 * n)
  if fld h 0 4 = 0x46455053 ∧ fld h 0x20 8 = crc64 (h.take 0x20 ++ body) then some (fld h 4 4, body) else none

/-- The flush region that is due: the one that does not hold the newer valid flush, region 0 when neither is valid (R544). -/
def dueRegion (f0 f1 : Option (Nat × Bytes)) : Nat :=
  match f0, f1 with
  | none, none => 0
  | some _, none => 1
  | none, some _ => 0
  | some a, some b => if a.1 ≥ b.1 then 1 else 0

/-- The newer valid flush. -/
def newerFlush (f0 f1 : Option (Nat × Bytes)) : Option (Nat × Bytes) :=
  match f0, f1 with
  | none, x => x
  | x, none => x
  | some a, some b => if a.1 ≥ b.1 then some a else some b

end Sys2Proof.Machine
end

