-- ==== Sys2Proof/Machine/Regs.lean ====
section
/-!
DEFINITION. What every BAR0 register reads as (R554 and the register tables of the chapters).  `State.peek` changes
nothing; what a read does besides (the latches of R10, R487 and R542) stands in `Machine/Access.lean`.
-/
namespace Sys2Proof.Machine

/-- Codes of the enumerated fields. -/
def ModState.code : ModState → Nat
  | .boot => 0 | .ready => 1 | .safe => 2 | .pfail => 3

def PState.code : PState → Nat
  | .run => 0 | .idle => 1 | .retain => 2 | .off => 3

def EngState.code : EngState → Nat
  | .off => 0 | .idle => 1 | .prep => 2 | .run => 3 | .drain => 4 | .kill => 5 | .post => 6 | .disabling => 7 | .disabled => 8

def QState.code : QState → Nat
  | .free => 0 | .idle => 1 | .waiting => 2 | .mapped => 3 | .halted => 4 | .faulted => 5 | .destroying => 6

def ProgState.code : ProgState → Nat
  | .absent => 0 | .disarmed => 1 | .armed => 2 | .running => 3 | .held => 4 | .repair => 5

def LinkSt.code : LinkSt → Nat
  | .down => 0 | .training => 1 | .up => 2 | .noPeer => 3

/-- A mask with bit `i` set where `p i` holds, below `n`. -/
def maskOf (n : Nat) (p : Nat → Bool) : Nat := (upto n).foldl (fun acc i => acc + if p i then 2 ^ i else 0) 0

/-- The number of set bits of a mask. -/
def popcount (v n : Nat) : Nat := (setBits v n).length

/-- The low 32 bits of a number, and its bits [63:32]. -/
def lo32 (v : Nat) : Nat := v % 2 ^ 32
def hi32 (v : Nat) : Nat := v / 2 ^ 32 % 2 ^ 32

/-! ## Blocks -/

/-- HUB (R59). -/
def State.regHub (s : State) (o : Nat) : Nat :=
  if o = 0x100 then
    s.hub.aErr % 256 + s.hub.bErr % 256 * 0x100 + b2n s.hub.copyB * 0x10000 + b2n s.hub.factory * 0x20000 +
      b2n s.hub.noImage * 0x40000 + b2n s.hub.torn * 0x80000
  else if o = 0x104 then s.img.imageSeq
  else if o = 0x108 then s.img.secVersion
  else if o = 0x10C then s.hub.patchSeq
  else if o = 0x110 then s.pwr.grade
  else 0

/-- The queue that FE_Q_SEL of a requester names (R404). -/
def State.qSel (s : State) : Requester → Nat
  | .host => s.qSelHost
  | .prephor => s.qSelPre

/-- A queue over share in the current window (R390). -/
def Queue.overShare (q : Queue) : Bool := q.st != .free && decide (q.share * 1024 ≤ q.charge)

/-- FE (R376, R404). -/
def State.regFe (s : State) (who : Requester) (o : Nat) : Nat :=
  let n := s.qSel who
  let q := s.queue n
  if 0x810 ≤ o ∧ o < 0x830 then maskOf 32 (fun i => sget false s.fenceSat (32 * ((o - 0x810) / 4) + i))
  else if 0x1000 ≤ o ∧ o < 0x1800 then
    let v := (s.fence ((o - 0x1000) / 8)).toNat
    if o % 8 = 0 then lo32 v else hi32 v
  else if o = 0x3000 then n
  else if o = 0x3004 then
    q.st.code + q.cls % 4 * 8 + (q.slot.getD 0) % 32 * 32 + b2n q.badTail * 0x400 + b2n (decide (504 ≤ n)) * 0x800 +
      b2n q.overShare * 0x1000
  else if o = 0x3008 then lo32 q.done
  else if o = 0x300C then hi32 q.done
  else if o = 0x3010 then lo32 q.head
  else if o = 0x3014 then min q.wait 65535
  else if o = 0x3018 then q.usePages % 2 ^ 17
  else 0

/-- A command of slot `k` is between PREP and POST on the slot's engine (R403). -/
def State.slotRunning (s : State) (k : Nat) : Bool :=
  match (s.eng (s.slotEngine k)).cur with
  | some c => c.slot == some k
  | none => false

/-- A preload of slot `k` is held (R403). -/
def State.slotPreloaded (s : State) (k : Nat) : Bool :=
  match (s.eng (s.slotEngine k)).preload with
  | some p => p.cmd.slot == some k
  | none => false

/-- Slot `k` is parked on a FENCE_WAIT of its queue, or for its privileged command (R363, R403, R571). -/
def State.slotParked (s : State) (k : Nat) : Bool :=
  match (s.slot k).queue with
  | none => false
  | some q => (s.slot k).privParked || (upto 21).any (fun e => (s.eng e).waits.any (fun w => w.cmd.queue == q))

/-- QS (R403). -/
def State.regQs (s : State) (o : Nat) : Nat :=
  let k := o / 0x1000
  let r := o % 0x1000
  let sl := s.slot k
  if 32 ≤ k then 0
  else
    match sl.queue with
    | none => if r = 0 then s.slotEngine k * 0x1000 + b2n sl.pinned * 0x20000 else 0
    | some n =>
      let q := s.queue n
      if r = 0 then
        n + 0x200 + q.cls % 4 * 0x400 + s.slotEngine k * 0x1000 + b2n sl.pinned * 0x20000 + b2n sl.leaving * 0x40000
      else if r = 8 then lo32 q.done
      else if r = 12 then hi32 q.done
      else if r = 16 then lo32 q.head
      else if r = 20 then b2n (s.slotParked k) + b2n (s.slotRunning k) * 2 + b2n (s.slotPreloaded k) * 4
      else 0

/-- The record latch of a requester (R212). -/
def State.recLatch (s : State) : Requester → Nat
  | .host => s.route.latchHost
  | .prephor => s.route.latchPre

/-- A ROUTE or COMBINE is running (R212). -/
def State.routeBusy (s : State) : Bool :=
  match (s.eng 16).cur with
  | some c => c.startAt.isSome && (fld c.desc 0 1 == 9 || fld c.desc 0 1 == 10)
  | none => false

/-- ENG and the route engine (R212, R375). -/
def State.regEng (s : State) (who : Requester) (o : Nat) : Nat :=
  if o = 0xF0000 then
    b2n s.routeBusy + (s.route.objs.filter (fun r => r.isOpen)).length * 2 + s.route.id % 256 * 0x100 +
      s.route.step % 65536 * 0x10000
  else if o = 0xF0010 then
    match who with
    | .host => s.route.selHost
    | .prephor => s.route.selPre
  else if 0xF0014 ≤ o ∧ o < 0xF0024 then lo32 (s.recLatch who / 2 ^ (8 * (o - 0xF0014)))
  else
    let e := o / 0x100
    let r := o % 0x100
    let x := s.eng e
    if 21 ≤ e then 0
    else if r = 0 then
      x.st.code + x.opcode % 256 * 0x10 + x.qslot % 32 * 0x1000 + b2n x.preload.isSome * 0x20000 + b2n x.chained * 0x40000 +
        b2n ((s.engSlots e).any (fun k => s.slotParked k)) * 0x80000
    else if r = 4 then x.tag % 65536 + x.queue % 512 * 0x10000
    else if r = 8 then
      maskOf 8 (fun c => (sget ChainSlot.reset x.chain c).st == .armed) +
        maskOf 8 (fun c => (sget ChainSlot.reset x.chain c).st == .fired) * 0x100
    else 0

/-- MBX and DB (R464, R472, R473).  The sequencer mailboxes answer here as a RUN or IDLE half does. -/
def State.regMbx (s : State) (o : Nat) : Nat :=
  if o < 0x80 then
    let m := s.h2f (o / 0x20)
    let r := o % 0x20
    if r = 0 then m.ptrLo.toNat
    else if r = 4 then m.ptrHi.toNat
    else if r = 8 then m.len % 8192 + b2n m.space * 0x80000000
    else if r = 12 then m.seq
    else if r = 16 then m.ack.toNat
    else if r = 20 then b2n m.pending + b2n m.overrun * 2
    else 0
  else if o < 0x100 then
    let m := s.f2h ((o - 0x80) / 0x20)
    let r := o % 0x20
    if r = 0 then m.ptrLo.toNat
    else if r = 4 then m.ptrHi.toNat
    else if r = 8 then m.len % 8192
    else if r = 12 then m.seq
    else if r = 16 then m.ack.toNat
    else if r = 20 then b2n m.pending
    else 0
  else if o = 0x200 then s.mbx.dbF2h.toNat
  else if o = 0x204 then s.mbx.dbF2hMask.toNat
  else if o = 0x208 then s.mbx.dbH2f.toNat
  else if o = 0x20C then s.mbx.dbH2fMask.toNat
  else if 0x1000 ≤ o ∧ o < 0x1400 then
    let m := sget SqMbx.reset s.mbx.sq ((o - 0x1000) / 0x20)
    let r := o % 0x20
    if r = 0 then m.ptr.toNat else if r = 4 then m.seq.toNat else if r = 8 then m.ack.toNat else 0
  else 0

/-- The sequencer mailbox that an MBX offset belongs to, if any. -/
def sqHalf (o : Nat) : Option Nat :=
  if 0x401000 ≤ o ∧ o < 0x401400 ∧ o % 0x20 < 12 then some ((o - 0x401000) / 0x20) else none

/-- The active hub's generator. -/
def State.rngActive (s : State) : RngHub := s.rngHub s.hubs.active

/-- The state of a generator (R484, R493). -/
def RngHub.state (p : RngParams) (h : RngHub) : Nat :=
  if !h.seeded then 0 else if decide (2 ^ p.stretchLog2 ≤ h.count) then 3 else if h.stretched then 2 else 1

/-- RNG (R493). -/
def State.regRng (s : State) (who : Requester) (o : Nat) : Nat :=
  let h := s.rngActive
  let src (x : NoiseSrc) : Nat := x.st % 4 + min x.fails 3 * 4 + b2n x.rct * 16 + b2n x.apt * 32
  let latch := match who with
    | .host => s.rng.hostLatch
    | .prephor => s.rng.preLatch
  if o = 0 then
    RngHub.state s.img.rng h + b2n h.alarm * 4 + h.activeSrc % 2 * 8 + b2n h.pattern.isSome * 16 + h.pool.length % 8 * 32 +
      b2n h.kat * 256
  else if o = 4 then src h.src0
  else if o = 8 then src h.src1
  else if o = 12 then
    s.img.rng.rct % 128 + s.img.rng.apt % 1024 * 0x100 + s.img.rng.reseedLog2 % 32 * 0x40000 +
      s.img.rng.stretchLog2 % 32 * 0x800000
  else if o = 16 then h.count % 2 ^ 25
  else if 0x24 ≤ o ∧ o < 0x30 then (latch.getD ((o - 0x24) / 4) 0).toNat
  else 0

/-- The window of a requester (R542). -/
def State.evWin (s : State) : Requester → EvWin
  | .host => s.evr.host
  | .prephor => s.evr.pre

/-- The 64 bytes of an event record (R536). -/
def EvRec.bytes (r : EvRec) : Bytes :=
  toBytes 2 r.id ++ toBytes 1 r.sev ++ toBytes 1 r.regs.length ++ toBytes 2 r.repeats ++ toBytes 1 r.domain ++
  toBytes 1 (b2n r.prev) ++ toBytes 8 r.first ++ toBytes 8 r.last ++ toBytes 8 r.arg ++
  (r.regs.map (fun w => toBytes 4 w.toNat)).flatten ++ zeros (24 - 4 * r.regs.length) ++ toBytes 8 r.seq

/-- EVR (R553). -/
def State.regEvr (s : State) (who : Requester) (o : Nat) : Nat :=
  let w := s.evWin who
  if o = 0 then
    s.evr.recs.length % 2048 + b2n s.evr.freeze * 0x800 + b2n s.evr.flushing.isSome * 0x1000 + b2n s.evr.erasing.isSome * 0x2000 +
      b2n (decide (16 ≤ s.evr.flushes)) * 0x4000 + b2n s.evr.prevValid * 0x8000
  else if o = 4 then lo32 s.evr.head
  else if o = 8 then hi32 s.evr.head
  else if o = 0xC then lo32 w.cursor
  else if o = 0x10 then hi32 w.cursor
  else if o = 0x14 then b2n s.evr.freeze + b2n s.evr.src * 2
  else if o = 0x18 then s.evr.ackLo.toNat
  else if o = 0x20 then s.evr.missed % 65536
  else if o = 0x24 then b2n w.valid + b2n w.gap * 2
  else if o = 0x28 then s.evr.prevSeq
  else if o = 0x30 then lo32 s.evr.traceWr
  else if o = 0x34 then hi32 s.evr.traceWr
  else if o = 0x38 then lo32 s.img.traceSrc.toNat
  else if o = 0x3C then hi32 s.img.traceSrc.toNat
  else if 0x40 ≤ o ∧ o < 0x80 then
    match w.record with
    | none => 0
    | some r => fld r.bytes (o - 0x40) 4
  else 0

/-- PMON (R551, R552): `o` is the BAR0 offset. -/
def State.regPmon (s : State) (o : Nat) : Nat :=
  let v := sget 0 s.pmon (o / 8 * 8)
  if o % 8 = 0 then lo32 v else hi32 v % 65536

/-- MEM (R339, R340). -/
def State.regMem (s : State) (o : Nat) : Nat :=
  if o < 0x200 then
    let k := o / 0x40
    let r := o % 0x40
    let x := s.shed k
    let m := s.shedRec k
    if r = 0 then
      m.active.toNat + m.failed.toNat * 0x10000 + b2n x.copying.isSome * 0x20000000 + b2n x.noSpare * 0x40000000
    else if r = 4 then m.rate % 8 + m.refreshSlot % 32 * 0x100
    else if r = 8 then (x.copying.getD 15) % 16 + x.copyDone % 2 ^ 21 * 16
    else if r = 12 then x.retOld % 65536 + b2n x.retBusy * 0x10000 + min x.retQueue.length 16 * 0x20000
    else if r = 16 then (if x.retBusy then 4096 - x.retDone.length else 0)
    else 0
  else if o = 0x1000 then s.mem.xfLo.toNat
  else if o = 0x1004 then s.mem.xfHi.toNat
  else if o = 0x1008 then s.mem.xfInfo.toNat
  else 0

/-- LNK (R462). -/
def State.regLnk (s : State) (o : Nat) : Nat :=
  let p := s.link (o / 0x100)
  let r := o % 0x100
  if 0x400 ≤ o then 0
  else if r = 0 then
    p.st.code + (108 - popcount p.txMap.toNat 108) % 16 * (if p.txMap = 0 then 0 else 4) + b2n p.noSpare * 0x40
  else if 4 ≤ r ∧ r < 0x14 then lo32 (p.txMap.toNat / 2 ^ (32 * ((r - 4) / 4)))
  else if 0x14 ≤ r ∧ r < 0x24 then lo32 (p.rxMap.toNat / 2 ^ (32 * ((r - 0x14) / 4)))
  else if r = 0x24 then
    maskOf 16 (fun c => (sget TxChan.reset p.tx c).open_) + maskOf 16 (fun c => (sget RxChan.reset p.rx c).open_) * 0x10000
  else 0

/-- The items that wait for a window of program `p`'s engine (R426, R507). -/
def State.progItems (s : State) (p : Nat) : List RepairItem :=
  match s.img.progs.find? (fun x => x.prog == p) with
  | none => []
  | some x => s.rel.items.filter (fun i => i.engine == x.eng)

/-- Ticks that the next waiting item of program `p` needs (R424, R425). -/
def State.needTicks (s : State) (p : Nat) : Nat :=
  match s.img.progs.find? (fun x => x.prog == p), s.progItems p with
  | some x, i :: _ => min ((i.boundUs * 1000 + x.period - 1) / x.period) 4095
  | _, _ => 0

/-- PER and the drive ports (R426, R427, R457). -/
def State.regPer (s : State) (o : Nat) : Nat :=
  if o < 0x800 then
    let p := s.prog (o / 0x100)
    let r := o % 0x100
    if r = 0 then p.st.code + b2n p.lastLate * 8 + p.armErr % 16 * 16 + p.skipped % 128 * 0x100
    else if r = 4 then lo32 p.list
    else if r = 8 then hi32 p.list
    else if r = 12 then p.count % 128 + p.recLog2 % 16 * 0x100
    else if r = 16 then lo32 p.recAddr
    else if r = 20 then hi32 p.recAddr
    else if r = 0x1C then lo32 p.tick
    else if r = 0x20 then hi32 p.tick
    else if r = 0x24 then lo32 p.holdTick
    else if r = 0x28 then
      s.needTicks (o / 0x100) + b2n (!(s.progItems (o / 0x100)).isEmpty) * 0x10000 + b2n p.windowOpen * 0x20000
    else 0
  else if o = 0x1004 then s.per.grantProg % 8 + s.per.grantResult % 4 * 8
  else if 0x2000 ≤ o ∧ o < 0x4000 then
    let p := s.port ((o - 0x2000) / 0x400)
    let r := (o - 0x2000) % 0x400
    if r = 0 then p.cfg.toNat
    else if r = 4 then p.daLo.toNat
    else if r = 8 then p.daHi.toNat
    else if r = 12 then p.saLo.toNat
    else if r = 16 then p.saHi.toNat
    else if r = 20 then b2n p.link + b2n p.fecLock * 2
    else if r = 0x18 then p.baseLo.toNat
    else if r = 0x1C then p.baseHi.toNat
    else if r = 0x20 then p.cycle.toNat
    else if r = 0x24 then p.len % 128 + b2n p.pending.isSome * 0x200
    else if 0x100 ≤ r ∧ r < 0x200 then (sget gclReset p.gcl ((r - 0x100) / 4)).toNat
    else 0
  else if o = 0x4000 then lo32 s.time
  else if o = 0x4004 then hi32 s.time
  else if o = 0x4008 then b2n s.per.time.synced + b2n s.per.time.holdover * 2
  else if o = 0x400C then s.per.syncMode % 4 + s.per.syncProg % 8 * 4
  else 0

/-- CLK (R272). -/
def State.regClk (s : State) (o : Nat) : Nat :=
  let c := s.clk
  if o = 0 then lo32 c.req.toNat
  else if o = 4 then hi32 c.req.toNat
  else if o = 8 then lo32 c.aligned.toNat
  else if o = 0xC then hi32 c.aligned.toNat
  else if o = 0x10 then
    c.state % 4 + c.attempts % 4 * 4 + c.excluded % 64 * 16 + b2n c.pllTimeout * 0x400 + b2n (decide (c.slip ≠ 0)) * 0x800
  else if o = 0x14 then
    c.failDomain % 64 + b2n c.failValid * 0x40 + c.failPeer % 64 * 0x100 + c.failReason % 4 * 0x4000
  else if o = 0x18 then
    c.unalignedEng % 256 + c.lockstepEng % 256 * 0x100
  else if o = 0x1C then lo32 c.slip.toNat
  else if o = 0x20 then hi32 c.slip.toNat
  else if o = 0x24 then c.epoch % 2 ^ 32
  else 0

/-- The threshold of a unit kind as its register holds it (R518). -/
def State.regThr (s : State) (i : Nat) : Nat :=
  let t := s.img.thresholds.getD i (0, 0)
  t.1 % 256 + t.2 % 2 ^ 24 * 256

/-- Kind of a tracked unit: core 0, router 1, bank row 2, lane 3, device 4, as the threshold record orders them (R496). -/
def unitKind : FaultUnit → Nat
  | .core _ => 0 | .router _ => 1 | .edge _ => 1 | .bankRow _ _ _ => 2 | .lane _ _ => 3 | .device _ _ => 4 | .hub => 5

/-- COUNT and WINDOW_US in force for a unit. -/
def State.threshold (s : State) (u : FaultUnit) : Nat × Nat := s.img.thresholds.getD (unitKind u) (2, 1)

/-- An entry of the tracking table is live: its newest time is not older than its window (R498). -/
def State.trackLive (s : State) (t : Track) : Bool := decide (s.hclk ≤ t.times.foldl max 0 + (s.threshold t.unit).2 * hclkPerUs)

/-- REL and the farrier (R313, R518). -/
def State.regRel (s : State) (o : Nat) : Nat :=
  if o = 0 then
    s.hubs.active % 2 + b2n s.hubs.standbyOk * 2 + b2n s.rel.yardLost * 4 + s.rel.lostYard % 16 * 8 +
      min s.rel.items.length 511 * 128 + b2n s.rel.noColumn * 0x10000
  else if 0x10 ≤ o ∧ o < 0x24 then s.regThr ((o - 0x10) / 4)
  else if o = 0x30 then min (s.rel.track.filter s.trackLive).length 1024
  else if o = 0x100 then maskOf 32 (fun d => (s.half d).farrier)
  else if o = 0x104 then s.yards.farrSel % 32
  else if o = 0x108 then (s.half s.yards.farrSel).rows.length % 2 ^ 17
  else 0

/-- PWR (R313, R533). -/
def State.regPwr (s : State) (o : Nat) : Nat :=
  let states (from_ : Nat) : Nat := (upto 16).foldl (fun acc i => acc + (s.half (from_ + i)).pstate.code * 4 ^ i) 0
  if o = 0 then states 0
  else if o = 4 then states 16
  else if o = 8 then maskOf 32 (fun d => (s.half d).waking)
  else if o = 0x10 then s.pwr.mod.code + s.pwr.step % 16 * 16 + b2n s.pwr.testLow * 0x100
  else if o = 0x14 then s.pwr.safeCause % 256 + s.pwr.safeStep % 16 * 0x100 + s.pwr.safeDetail % 65536 * 0x10000
  else if o = 0x18 then min s.pwr.bootMs 2047
  else 0

/-- The cores of half `d` whose compute is fenced now (R95). -/
def State.haltered (s : State) (d : Nat) : Nat :=
  (s.yards.cores.filter (fun c => decide (c.1 / (66 * 64) = d) && c.2.halter.isSome)).length

/-- Spare columns of a half (R95). -/
def State.spareCols (s : State) (d : Nat) : Nat :=
  ((upto 66).filter (fun p => !(s.topo d).use.getLsbD p && !(s.topo d).failed.getLsbD p)).length

/-- The status window entry of a core (R96). -/
def State.coreStatus (s : State) (c : PhysCore) : Nat :=
  let t := s.topo c.yh
  let x := s.core (coreNum c)
  b2n (t.use.getLsbD c.pcol) + b2n (t.failed.getLsbD c.pcol) * 2 + b2n x.halter.isSome * 4 + b2n x.mode * 8 +
    b2n x.routerFault * 16 + (if t.use.getLsbD c.pcol then s.lcol c.yh c.pcol else 0x7F) * 0x100

/-- YRD (R95, R96): `o` counts from the first yard. -/
def State.regYrd (s : State) (o : Nat) : Nat :=
  let d := o / 0x80000
  let r := o % 0x80000
  let h := s.half d
  let t := s.topo d
  if 32 ≤ d then 0
  else if r = 0 then
    d + b2n h.lockstep * 0x40 + b2n h.unaligned * 0x80 + h.pstate.code * 0x100 + ((s.engineOf d).getD 0) * 0x400 +
      b2n (s.engineOf d).isSome * 0x2000 + b2n h.mode * 0x4000
  else if r = 4 then
    if s.hub.loaded then s.logical + s.spareCols d * 0x100 + popcount t.failed.toNat 66 * 0x10000 else 0
  else if r = 8 then h.curMhz % 4096 + h.minMhz % 4096 * 0x10000
  else if r = 0x10 ∨ r = 0x14 ∨ r = 0x18 then lo32 (t.use.toNat / 2 ^ (8 * (r - 0x10)))
  else if r = 0x1C ∨ r = 0x20 ∨ r = 0x24 then lo32 (t.failed.toNat / 2 ^ (8 * (r - 0x1C)))
  else if r = 0x28 then s.haltered d
  else if 0x1000 ≤ r ∧ r < 0x5200 then
    let i := (r - 0x1000) / 4
    s.coreStatus ⟨d, i % 66, i / 66⟩
  else 0

/-! ## The whole map -/

/-- The number that register `off` of BAR0 holds for a requester, in a module that answers as READY does. -/
def State.peekNat (s : State) (who : Requester) (off : Nat) : Nat :=
  let o := off % 0x100000
  match off / 0x100000 with
  | 0x0 => s.regHub o
  | 0x1 => s.regFe who o
  | 0x2 => s.regQs o
  | 0x3 => s.regEng who o
  | 0x4 => s.regMbx o
  | 0x5 => s.regRng who o
  | 0x6 => s.regEvr who o
  | 0x7 => s.regPmon off
  | 0x8 => s.regMem o
  | 0x9 => s.regLnk o
  | 0xA => s.regPer o
  | 0xB => s.regClk o
  | 0xC => s.regRel o
  | 0xD => s.regPwr o
  | b => if 0x10 ≤ b ∧ b < 0x20 then s.regYrd (off - 0x1000000) else 0

/-- The blocks that SAFE leaves alive (R526, R554): HUB, MBX and DB, EVR, CLK, REL, PWR. -/
def safeBlock (off : Nat) : Bool := [0x0, 0x4, 0x6, 0xB, 0xC, 0xD].contains (off / 0x100000)

/-- The blocks that I3C reaches (R460, R554): HUB, EVR, CLK, REL, PWR. -/
def i3cBlock (off : Nat) : Bool := [0x0, 0x6, 0xB, 0xC, 0xD].contains (off / 0x100000)

/-- The register at `off` as a requester reads it, in READY or SAFE; nothing changes. -/
def State.peek (s : State) (who : Requester) (off : Nat) : Word :=
  if s.pwr.mod = .safe ∧ !safeBlock off then 0 else BitVec.ofNat 32 (s.peekNat who off)

/-- The halves whose registers are powered down (R474). -/
def State.sqDown (s : State) (d : Nat) : Bool := (s.half d).pstate == .retain || (s.half d).pstate == .off

end Sys2Proof.Machine
end

