-- ==== Sys2Proof/Machine/Events.lean ====
section
/-!
DEFINITION. The event recorder, the trace writer, doorbells and notices to the outside (chapter 21, R460, R472).
-/
namespace Sys2Proof.Machine

/-! ## Doorbells, MSI-X and in-band interrupts -/

/-- Capabilities of the PCIe function (R431): its MSI-X vectors, the bits of its tags, and the largest payload and read request in bytes. -/
structure PcieCaps where
  vectors : Nat
  tagBits : List Nat
  maxPayload : Nat
  maxReadRequest : Nat
  deriving DecidableEq, Repr

def pcieCaps : PcieCaps := ⟨32, [10, 14], 512, 4096⟩

/-- An MSI-X message of vector `v`; it is discarded while the link is down (R434). -/
def State.msix (s : State) (v : Nat) : State :=
  if s.ports.linkUp && decide (v < pcieCaps.vectors) then s.modPorts (fun p => { p with msix := p.msix ++ [v] }) else s

/-- Sets DB_F2H bit `i`; an MSI-X message goes out when the bit rises unmasked (R431, R472). -/
def State.ringHost (s : State) (i : Nat) : State :=
  let s1 := (s.modMbx (fun m => { m with dbF2h := m.dbF2h ||| BitVec.ofNat 32 (2 ^ i) })).event (.dbF2h i)
  if s.mbx.dbF2h.getLsbD i || s.mbx.dbF2hMask.getLsbD i then s1 else s1.msix i

/-- An I3C in-band interrupt with data byte `b` (R460): raised while ENEC has the target's interrupts enabled (PRESUMED,
log entry 5). -/
def State.inBand (s : State) (b : Nat) : State :=
  if bit s.ports.i3cEvents 0 then s.modPorts (fun p => { p with ibi := p.ibi ++ [b] }) else s

/-! ## Trace (R548 to R550) -/

/-- Makes a trace record of source bit `src`: 32 bytes under R549.  The writer's buffer holds 512 records; a record that
finds it full is dropped and counted, and the next record carries GAP. -/
def State.trace (s : State) (src type flags engine : Nat) (data : Bytes) : State :=
  if s.img.traceSrc.getLsbD src then
    if 512 ≤ s.evr.traceBuf.length then (s.modEvr (fun v => { v with traceGap := true })).bump .hub 2 4
    else
      let r := toBytes 1 type ++ toBytes 1 (flags + b2n s.evr.traceGap * 4) ++ toBytes 1 engine ++ zeros 1 ++
        toBytes 4 s.evr.traceSeq ++ toBytes 8 s.hclk ++ (data.take 16 ++ zeros (16 - data.length))
      s.modEvr (fun v => { v with traceBuf := v.traceBuf ++ [r], traceSeq := v.traceSeq + 1, traceGap := false })
  else s

/-- The TICK record of a fire, `what` 0, or a deadline, 1 (R548, R549; DESIGN CHOICE, log entry 40). -/
def State.traceTick (s : State) (engine prog k what : Nat) : State := s.trace 5 8 0 engine (toBytes 1 prog ++ toBytes 8 k ++ toBytes 1 what)

/-- The LINK record of a NAK received, `what` 0, or sent, 1, with its SEQ, or of a lane swap, 2, with its lanes (R548, R549; DESIGN CHOICE, log entry
40). -/
def State.traceLink (s : State) (port what : Nat) (rest : Bytes) : State := s.trace 7 0xA 0 (17 + port) (toBytes 1 port ++ toBytes 1 what ++ rest)

/-- Writes bytes at a physical address with their parity (R329). -/
def State.physWrite (s : State) (pa : Nat) (bs : Bytes) : State :=
  { s with mem := { s.mem with
      data := swrite 0 s.mem.data pa bs,
      bad := if bs.isEmpty then s.mem.bad
        else s.mem.bad.filter (fun w => decide (w < pa / 4) || decide ((pa + bs.length - 1) / 4 < w)) } }

/-- Ring byte of trace record `i` in device memory: the first 64 reserved pages in list order are the ring (R548, R550). -/
def State.ringByte (s : State) (o : Nat) : Nat := s.img.resv.getD (o / pageBytes) 0 * pageBytes + o % pageBytes

/-- The trace writer writes its oldest record into the ring, and EVR_TRACE_WR counts it (R550). -/
def State.traceWrite (s : State) : State :=
  match s.evr.traceBuf with
  | [] => s
  | r :: rest =>
    let a := s.ringByte (s.evr.traceWr % 8388608 * 32)
    (s.physWrite a r).modEvr (fun v => { v with traceBuf := rest, traceWr := v.traceWr + 1 })

/-! ## Events (R536 to R546) -/

/-- The events of R538. -/
inductive Ev where
  | pwrSafe | pwrPfail | clkAlignFail | xslip | relHalter | relNoColumn | relFailover | relStandbyLost | relYardLost
  | spadParity | qscale | memStoredErr | memNoFrame | memRetire | memDeviceSwap | memDeviceLost
  | linkDown | linkNoSpare | linkLaneSwap
  | rngBlockFail | rngSourceFatal | rngStretch | rngAlarm | rngKatFail
  | patchJournalFull | patchApplied | timeHoldover | mbxDown | perLate | perFail
  deriving DecidableEq, Repr

/-- EVENT_ID and severity of an event (R538). -/
def Ev.idSev : Ev → Nat × Nat
  | .pwrSafe => (0x0100, 3) | .pwrPfail => (0x0101, 3)
  | .clkAlignFail => (0x0200, 2) | .xslip => (0x0201, 2)
  | .relHalter => (0x0300, 1) | .relNoColumn => (0x0301, 2) | .relFailover => (0x0302, 2) | .relStandbyLost => (0x0303, 2)
  | .relYardLost => (0x0304, 3)
  | .spadParity => (0x0400, 1) | .qscale => (0x0401, 0)
  | .memStoredErr => (0x0500, 1) | .memNoFrame => (0x0501, 2) | .memRetire => (0x0502, 1) | .memDeviceSwap => (0x0503, 1)
  | .memDeviceLost => (0x0504, 3)
  | .linkDown => (0x0600, 2) | .linkNoSpare => (0x0601, 2) | .linkLaneSwap => (0x0602, 1)
  | .rngBlockFail => (0x0700, 1) | .rngSourceFatal => (0x0701, 2) | .rngStretch => (0x0702, 1) | .rngAlarm => (0x0703, 3)
  | .rngKatFail => (0x0704, 3)
  | .patchJournalFull => (0x0800, 2) | .patchApplied => (0x0801, 0)
  | .timeHoldover => (0x0900, 1) | .mbxDown => (0x0A00, 1) | .perLate => (0x0B00, 1) | .perFail => (0x0B01, 1)

/-- Every event, for the checks on EVENT_ID (R53). -/
def Ev.all : List Ev :=
  [.pwrSafe, .pwrPfail, .clkAlignFail, .xslip, .relHalter, .relNoColumn, .relFailover, .relStandbyLost, .relYardLost] ++
  [.spadParity, .qscale, .memStoredErr, .memNoFrame, .memRetire, .memDeviceSwap, .memDeviceLost, .linkDown, .linkNoSpare] ++
  [.linkLaneSwap, .rngBlockFail, .rngSourceFatal, .rngStretch, .rngAlarm, .rngKatFail, .patchJournalFull, .patchApplied] ++
  [.timeHoldover, .mbxDown, .perLate, .perFail]

/-- Position of the newest record that merges an event (R540 rule 1). -/
def mergeAt (recs : List EvRec) (id dom arg : Nat) : Option Nat :=
  minBy (fun i => 0xFFFFFFFFFFFFFFFF - (recs.getD i ⟨0, 0, [], 0, 0, false, 0, 0, 0, 0⟩).seq)
    (((indexed recs).filter (fun x => decide (x.2.id = id ∧ x.2.domain = dom ∧ x.2.arg = arg))).map Prod.fst)

/-- The record that an overwrite replaces (R540 rule 3). -/
def overwriteAt (recs : List EvRec) (sev : Nat) : Option Nat :=
  minBy (fun i => (recs.getD i ⟨0, 0, [], 0, 0, false, 0, 0, 0, 0⟩).seq)
    (((indexed recs).filter (fun x => decide (x.2.sev ≤ sev ∧ x.2.sev < 3))).map Prod.fst)

/-- Where an accepted event went. -/
inductive Placed? where
  | merged (seq : Nat)
  | made (seq : Nat)
  | dropped

/-- The order in which the recorder takes the events of one hclk: ascending DOMAIN, then ascending EVENT_ID (R537). -/
def EvRec.before (a b : EvRec) : Bool := decide (a.domain < b.domain ∨ a.domain = b.domain ∧ a.id ≤ b.id)

/-- Record `r` at another place among those of its hclk: that place's SEQ and times. -/
def EvRec.moved (r place : EvRec) : EvRec := { r with seq := place.seq, first := place.first, last := if r.last = r.first then place.first else r.last }

/-- The records of the events of one hclk stand in the order in which the recorder takes them (R537). -/
def Evr.order (v : Evr) : Evr :=
  let mine := (v.recs.filter (fun r => v.batch.2.contains r.seq)).mergeSort (fun a b => decide (a.seq ≤ b.seq))
  let moves := ((mine.mergeSort EvRec.before).map EvRec.seq).zip mine
  { v with recs := v.recs.map (fun r => match moves.find? (fun x => x.1 == r.seq) with
    | some x => r.moved x.2
    | none => r) }

/-- The record into which an event of this hclk merges although an acknowledgement has freed it in it: the event is gone with it (R541). -/
def Evr.gone (v : Evr) (id dom arg now : Nat) : Option EvRec :=
  if v.freed.1 = now then v.freed.2.find? (fun r => decide (r.id = id ∧ r.domain = dom ∧ r.arg = arg)) else none

/-- Places an event that came at hclk `now` in the recorder by the first rule of R540 that applies.  The recorder takes one event per hclk (R537). -/
def Evr.place (v : Evr) (id sev dom arg n now : Nat) (regs : List Word) : Evr × Placed? :=
  let at_ := max now v.takes
  let v := { v with takes := at_ + 1 }
  let new : EvRec := ⟨id, sev, regs, min n 65535, dom, false, at_, at_, arg, v.head + 1⟩
  let mine (r : EvRec) : Bool := decide (r.id = id ∧ r.domain = dom ∧ r.arg = arg)
  let made (recs : List EvRec) : Evr × Placed? :=
    let w := { v with recs := recs, head := v.head + 1, batch := (now, (if v.batch.1 = now then v.batch.2 else []) ++ [new.seq]) }.order
    (w, .made (((w.recs.find? mine).map EvRec.seq).getD new.seq))
  match mergeAt v.recs id dom arg with
  | some i =>
    let r := v.recs.getD i new
    ({ v with recs := v.recs.set i { r with repeats := min (r.repeats + n) 65535, last := at_ } }, .merged r.seq)
  | none =>
    match v.gone id dom arg now with
    | some r => (v, .merged r.seq)
    | none =>
      if v.recs.length < 1024 then made (v.recs ++ [new])
      else
        match overwriteAt v.recs sev with
        | some i => made (v.recs.set i new)
        | none => (v, .dropped)

/-- Frees the records of severity 0 to 2 up to SEQ `a`, at hclk `now` (R541). -/
def Evr.ack (now : Nat) (v : Evr) (a : Nat) : Evr :=
  let stays (r : EvRec) : Bool := decide (3 ≤ r.sev ∨ a < r.seq)
  { v with
    recs := v.recs.filter stays,
    freed := (now, (if v.freed.1 = now then v.freed.2 else []) ++ v.recs.filter (fun r => !stays r)) }

/-- The freeze ends at hclk `now` and the held acknowledgements are applied (R543). -/
def Evr.thaw (now : Nat) (v : Evr) : Evr :=
  { v.heldAcks.foldl (Evr.ack now) v with freeze := false, heldAcks := [] }

/-- The records of a flush in order: severity 3 first, and within a severity the newest first (R544). -/
def flushOrder (recs : List EvRec) : List EvRec :=
  let newest (sev : Nat) := ((recs.filter (fun r => r.sev == sev)).mergeSort (fun a b => decide (b.seq ≤ a.seq)))
  newest 3 ++ newest 2 ++ newest 1 ++ newest 0

/-- Starts an event flush of the due region, unless one runs, an erase runs (then it waits), 16 have run, or PFAIL# is accepted (R529, R545). -/
def State.startFlush (s : State) : State :=
  if s.evr.flushing.isSome ∨ 16 ≤ s.evr.flushes ∨ s.pwr.mod = .pfail then s
  else if s.evr.erasing.isSome then s.modEvr (fun v => { v with flushWaits := true })
  else s.modEvr (fun v => { v with flushing := some ⟨v.dueRegion, 1, s.hclk, flushOrder v.recs⟩, flushes := v.flushes + 1 })

/-- Writes `n` of a flush's records and its header into flash (R544).  The records come four to a page. -/
def State.writeFlush (s : State) (f : Flush) (n : Nat) : State :=
  let recs := f.recs.take n
  let body := (recs.map EvRec.bytes).flatten
  let base := flashFlush f.region
  let head := toBytes 4 0x46455053 ++ toBytes 4 (s.evr.flushSeq + 1) ++ toBytes 1 f.reason ++ toBytes 1 s.hubs.active ++
    toBytes 2 recs.length ++ toBytes 4 s.img.imageSeq ++ toBytes 8 f.time ++ toBytes 4 (lo32 (s.count .hub 2 2)) ++ zeros 4
  let s1 := s.program (base + 0x100) body
  let s2 := s1.program base (head ++ toBytes 8 (crc64 (head ++ body)) ++ zeros 216)
  s2.modEvr (fun v => { v with flushSeq := v.flushSeq + 1, flushing := none, dueRegion := 1 - f.region })

/-- The trigger entry of an event, if EVR has one (R53, R539). -/
def State.trigger (s : State) (id : Nat) : Option Trigger := s.img.triggers.find? (fun t => t.event == id)

/-- A register as a snapshot takes it: nothing is latched, an RS register reads 0, and a register in a powered-down domain
0xFFFF_FFFF (R539). -/
def State.snapshotReg (s : State) (off : Nat) : Word :=
  match sqHalf off with
  | some d => if s.sqDown d then 0xFFFFFFFF else s.peek .prephor off
  | none => s.peek .prephor off

/-- Raises an event, `n` occurrences at once (R537 to R545). -/
def State.raiseBy (s : State) (ev : Ev) (dom arg n : Nat) : State :=
  let id := ev.idSev.1
  let sev := ev.idSev.2
  let trig := s.trigger id
  let off := match trig with
    | some t => !t.enable && decide (sev < 2)
    | none => false
  if off then s
  else if s.evr.freeze ∧ sev < 3 then
    (s.modEvr (fun v => { v with missed := min (v.missed + 1) 65535 })).bump .hub 2 3
  else
    let regs := match trig with
      | some t => if t.enable then t.regs.map s.snapshotReg else []
      | none => []
    let s0 := if s.evr.freeze then s.modEvr (Evr.thaw s.hclk) else s
    let p := s0.evr.place id sev dom arg n s.hclk regs
    let s1 := { s0 with evr := p.1 }
    let s2 := match p.2 with
      | .merged q => s1.trace 6 9 0 0xFF (toBytes 2 id ++ toBytes 8 q)
      | .made q => s1.trace 6 9 0 0xFF (toBytes 2 id ++ toBytes 8 q)
      | .dropped => s1.bump .hub 2 2
    if sev = 3 then
      let s3 := (s2.ringHost 10).inBand 1
      if ev = .pwrPfail then s3 else s3.startFlush
    else s2

/-- Raises one occurrence of an event. -/
def State.raise (s : State) (ev : Ev) (dom arg : Nat) : State := s.raiseBy ev dom arg 1

/-- ARG of a core (R538): bytes YH, PCOL, ROW. -/
def coreArg (c : PhysCore) : Nat := c.yh + c.pcol * 0x100 + c.row * 0x10000

/-- The module domain of events without one (R570). -/
def noDomain : Nat := 0xFF

end Sys2Proof.Machine
end

