-- ==== Sys2Proof/Machine/Memory.lean ====
section
/-!
DEFINITION. Device memory behind translation, host memory, and the scratchpads with their windows and parity
(chapters 11, 12 and 16).
-/
namespace Sys2Proof.Machine

/-! ## Translation (R324 to R327, R340) -/

/-- Agents of MEM_XF_INFO (R340). -/
inductive Agent where
  | bar2 | move (n : Nat) | compute (n : Nat) | route | link (n : Nat) | hub
  deriving DecidableEq, Repr

def Agent.code : Agent → Nat
  | .bar2 => 0 | .move _ => 1 | .compute _ => 2 | .route => 3 | .link _ => 4 | .hub => 5

def Agent.number : Agent → Nat
  | .move n => n | .compute n => n | .link n => n | _ => 0

/-- The agent an engine accesses memory as. -/
def agentOf (e : Nat) : Agent :=
  if e < 8 then .compute e else if e < 16 then .move (e - 8) else if e = 16 then .route else .link (e - 17)

/-- The virtual page of a device-virtual address. -/
def vpage (va : Nat) : Nat := va / pageBytes % 65536

/-- Why an access fails translation (R327), none when it translates. -/
def State.xlatCause (s : State) (va : Nat) (write bar2 : Bool) : Option Nat :=
  let x := s.xlat (vpage va)
  if 2 ^ 38 ≤ va then some 0
  else if !x.valid then some 1
  else if write && !x.writable then some 2
  else if bar2 && !x.bar2 then some 3
  else none

/-- Records a failed translation (R340, R341). -/
def State.xlatFault (s : State) (va : Nat) (write : Bool) (a : Agent) (cause : Nat) : State :=
  let s1 := s.bump .shed (vpage va % 192 / 24) 8
  if s.mem.xfInfo.getLsbD 0 then s1.event .xfValid
  else
    { s1.event .xfValid with mem := { s1.mem with
        xfLo := BitVec.ofNat 32 va, xfHi := BitVec.ofNat 32 (va / 2 ^ 32),
        xfInfo := BitVec.ofNat 32 (1 + b2n write * 2 + a.code * 4 + cause * 32 + a.number % 8 * 128) } }

/-- The shed that serves a virtual page. -/
def vpageShed (v : Nat) : Nat := v % 192 / 24

/-- The physical byte that a translated address reads from, or a write of part of its block goes to (R327, R334):
the old frame while the block of a retiring page is uncopied. -/
def State.physRead (s : State) (va : Nat) : Nat :=
  let page := (s.xlat (vpage va)).ppage
  let off := va % pageBytes
  let k := s.shed (page % 192 / 24)
  if k.retBusy ∧ page = k.retNew ∧ !k.retDone.contains (off / 1024) then k.retOld * pageBytes + off
  else page * pageBytes + off

/-- The stored word at a physical byte has wrong parity. -/
def State.badWord (s : State) (pa : Nat) : Bool := s.mem.bad.contains (pa / 4)

/-- Bytes of device memory at a physical address. -/
def State.physBytes (s : State) (pa n : Nat) : Bytes := sread 0 s.mem.data pa n

/-- Marks the word at a physical byte as one of wrong parity. -/
def State.physSpoil (s : State) (pa : Nat) : State := { s with mem := { s.mem with bad := insertNat (pa / 4) s.mem.bad } }

/-- What a block access touches: the piece of `[va, va + n)` up to the end of the 1 KiB block of `va`. -/
def blockPiece (va n : Nat) : Nat := min n (1024 - va % 1024)

/-- A read of device memory: its bytes, and for every byte whether its word is void by stored parity (R331). -/
structure Read where
  data : Bytes
  voids : List Bool
  deriving DecidableEq, Repr

/-- Room in the queue of a block's slice, or the block in it (R330). -/
def State.blockRoom (s : State) (blk : Nat) : Bool :=
  let slice := blk / 4096 % 192
  let k := s.shed (slice / 24)
  k.checks.contains (slice, blk) || decide ((k.checks.filter (fun c => c.1 == slice)).length < 8)

/-- Queues a block of wrong parity for its check re-read, 8 a slice (R330).  The error of one that finds the queue full is taken as stored at the
next tick (R331, log entry 71). -/
def State.queueCheck (s : State) (pa : Nat) : State :=
  let slice := pa / pageBytes % 192
  let blk := pa / 1024
  let k := s.shed (slice / 24)
  if k.checks.contains (slice, blk) then s
  else if s.blockRoom blk then s.setShed (slice / 24) { k with checks := k.checks ++ [(slice, blk)] }
  else s.setShed (slice / 24) { k with full := insertNat blk k.full }

/-- The pieces of a range by blocks: addresses and lengths, `fuel` of them at most. -/
def blockPieces : Nat → Nat → Nat → List (Nat × Nat)
  | 0, _, _ => []
  | fuel + 1, va, n =>
    if n = 0 then []
    else
      let m := blockPiece va n
      (va, m) :: blockPieces fuel (va + m) (n - m)

/-- All pieces of a range. -/
def pieces (va n : Nat) : List (Nat × Nat) := blockPieces (n / 1024 + 2) va n

/-- The first address of a range that fails translation, with its cause; a range is taken block by block (R327). -/
def State.firstFail (s : State) (va n : Nat) (write bar2 : Bool) : Option (Nat × Nat) :=
  (pieces va n).findSome? (fun p => (s.xlatCause p.1 write bar2).map (fun c => (p.1, c)))

/-- Reads a range that translates. -/
def State.devRead (s : State) (va n : Nat) : Read :=
  let pas := (upto n).map (fun i => s.physRead (va + i))
  ⟨pas.map (sget 0 s.mem.data), pas.map s.badWord⟩

/-- The bytes of a range that translates. -/
def State.devBytes (s : State) (va n : Nat) : Bytes := (s.devRead va n).data

/-- A block of device memory holds a word of wrong parity. -/
def State.badBlock (s : State) (b : Nat) : Bool := s.mem.bad.any (fun w => w / 256 == b)

/-- The blocks of wrong parity that a read of a range meets: a READ moves and checks whole blocks (R321, R330). -/
def State.devBad (s : State) (va n : Nat) : List Nat :=
  (pieces va n).filterMap (fun p =>
    let b := s.physRead p.1 / 1024
    if s.badBlock b then some b else none)

/-- Checks queued for the blocks of wrong parity that a read of a range meets (R330). -/
def State.devNote (s : State) (va n : Nat) : State := s.each (s.devBad va n) (fun s b => s.queueCheck (1024 * b))

/-- Writes one block piece: a whole block of a retiring page goes to the new frame and counts as copied (R334).  A piece that covers a burst in part is
a MERGE, whose READ checks the parity of the block (R321, R330). -/
def State.devWritePiece (s : State) (va : Nat) (bs : Bytes) : State :=
  let page := (s.xlat (vpage va)).ppage
  let k := page % 192 / 24
  let off := va % pageBytes
  let sh := s.shed k
  let fresh := decide (bs.length = 1024) && sh.retBusy && decide (page = sh.retNew)
  let pa := if fresh then page * pageBytes + off else s.physRead va
  let part := decide (va % 32 ≠ 0 ∨ bs.length % 32 ≠ 0) && s.badBlock (pa / 1024)
  let s1 := (if part then s.queueCheck pa else s).physWrite pa bs
  if fresh then s1.modShed k (fun x => { x with retDone := insertNat (off / 1024) x.retDone }) else s1

/-- Writes a range that translates, block by block in ascending order. -/
def State.devWrite (s : State) (va : Nat) (bs : Bytes) : State :=
  s.each (pieces va bs.length) (fun s p => s.devWritePiece p.1 ((bs.drop (p.1 - va)).take p.2))

/-- Writes a range access by access, up to the first that fails translation: nothing of that one is written (R327). -/
def State.writeUpTo (s : State) (va : Nat) (bs : Bytes) : State × Option (Nat × Nat) :=
  match s.firstFail va bs.length true false with
  | none => (s.devWrite va bs, none)
  | some f => (s.devWrite va (bs.take (f.1 - va)), some f)

/-- Writes one after another, up to the first access that fails translation (R327). -/
def State.writeRuns : State → List (Nat × Bytes) → State × Option (Nat × Nat)
  | s, [] => (s, none)
  | s, x :: xs =>
    let w := s.writeUpTo x.1 x.2
    match w.2 with
    | some f => (w.1, some f)
    | none => w.1.writeRuns xs

/-- Marks the words of a written range void where their source was (R331). -/
def State.devSpoil (s : State) (va : Nat) (voids : List Bool) : State :=
  s.each (indexed voids) (fun s x => if x.2 then s.physSpoil (s.physRead (va + x.1)) else s)

/-- A write for Prephor or the hub: nothing is written where the range does not translate or is not writable. -/
def State.hubWrite (s : State) (va : Nat) (bs : Bytes) : State :=
  match s.firstFail va bs.length true false with
  | none => s.devWrite va bs
  | some f => s.xlatFault f.1 true .hub f.2

/-! ## Host memory (R433, R434) -/

/-- A host read gets no completion: the link is down, or the host is silent there (R433, R434). -/
def State.hostSilent (s : State) (a n : Nat) : Bool := !s.ports.linkUp || s.ports.hostMute.any (fun r => decide (r.1 < a + n ∧ a < r.2))

/-- A host read: none where it gets no completion, or completes with an error. -/
def State.hostRead (s : State) (a n : Nat) : Option Bytes :=
  if s.hostSilent a n || s.ports.hostFail.any (fun r => decide (r.1 < a + n ∧ a < r.2)) then none
  else some (sread 0 s.ports.hostMem a n)

/-- A host write; it is discarded while the link is down. -/
def State.hostWrite (s : State) (a : Nat) (bs : Bytes) : State :=
  if s.ports.linkUp then s.modPorts (fun p => { p with hostMem := swrite 0 p.hostMem a bs }) else s

/-! ## Scratchpads (R289 to R297) -/

/-- Bytes of a core's scratchpad. -/
def spadBytes : Nat := 0x60000

/-- The key of a scratchpad byte. -/
def spadKey (core off : Nat) : Nat := core * spadBytes + off

/-- The keys of the spare rows lie above those of the addressed rows: two of 256 bytes in each bank (R289). -/
def spareKey (core bank spare o : Nat) : Nat := 135168 * spadBytes + ((core * 12 + bank) * 2 + spare) * 256 + o

/-- The core and the bank of a key. -/
def keyCore (k : Nat) : Nat := if k < 135168 * spadBytes then k / spadBytes else (k - 135168 * spadBytes) / 512 / 12
def keyBank (k : Nat) : Nat := if k < 135168 * spadBytes then k % spadBytes / 0x8000 else (k - 135168 * spadBytes) / 512 % 12

/-- The row remaps in force on a core (R289). -/
def State.coreRows (s : State) (core : Nat) : List RowRepair :=
  let c := physOf core
  (s.half c.yh).rows.filter (fun r => decide (r.pcol = c.pcol ∧ r.row = c.row))

/-- The key of the byte that an access to a scratchpad offset reaches: in the bank row, or in the spare row that a remap names (R289). -/
def State.cell (s : State) (core off : Nat) : Nat :=
  match (s.coreRows core).find? (fun r => decide (r.bank = off / 0x8000 ∧ r.bankRow = off % 0x8000 / 256)) with
  | none => spadKey core off
  | some r => spareKey core r.bank r.spare (off % 256)

/-- The offset of the byte with a key on its core; none where no access reaches it: a spare row not in use, or a row that a remap replaces. -/
def State.keyOff (s : State) (k : Nat) : Option Nat :=
  let rows := s.coreRows (keyCore k)
  if k < 135168 * spadBytes then
    let off := k % spadBytes
    if rows.any (fun r => decide (r.bank = off / 0x8000 ∧ r.bankRow = off % 0x8000 / 256)) then none else some off
  else
    let o := (k - 135168 * spadBytes) % 512
    (rows.find? (fun r => decide (r.bank = keyBank k ∧ r.spare = o / 256))).map (fun r => 0x8000 * r.bank + 256 * r.bankRow + o % 256)

/-- Bytes of a core's scratchpad from `off`. -/
def State.spadRead (s : State) (core off n : Nat) : Bytes :=
  if (s.coreRows core).isEmpty then sread 0 s.yards.spad (spadKey core off) n
  else (upto n).map (fun i => sget 0 s.yards.spad (s.cell core (off + i)))

/-- The word at a scratchpad offset has wrong parity. -/
def State.spadBad (s : State) (core off : Nat) : Bool := s.yards.bad.contains (s.cell core off / 4)

/-- For every byte of a range, whether its word is void. -/
def State.spadVoids (s : State) (core off n : Nat) : List Bool := (upto n).map (fun i => s.spadBad core (off + i))

/-- Writes bytes of a scratchpad with fresh parity. -/
def State.spadWrite (s : State) (core off : Nat) (bs : Bytes) : State :=
  let k := spadKey core off
  if (s.coreRows core).isEmpty then
    s.modYards (fun y => { y with
      spad := swrite 0 y.spad k bs,
      bad := if bs.isEmpty then y.bad
        else y.bad.filter (fun w => decide (w < k / 4) || decide ((k + bs.length - 1) / 4 < w)) })
  else
    s.modYards (fun y => { y with
      spad := (indexed bs).foldl (fun m b => sset 0 m (s.cell core (off + b.1)) b.2) y.spad,
      bad := y.bad.filter (fun w => !(upto bs.length).any (fun i => s.cell core (off + i) / 4 == w)) })

/-- Marks words void where their source was. -/
def State.spadSpoil (s : State) (core off : Nat) (voids : List Bool) : State :=
  s.each (indexed voids) (fun s x =>
    if x.2 then s.modYards (fun y => { y with bad := insertNat (s.cell core (off + x.1) / 4) y.bad }) else s)

/-- The windows of R294. -/
inductive Window where
  | plain | set | clear
  deriving DecidableEq, Repr

/-- The window and offset of a core-side address, none outside the three windows (R294). -/
def windowOf (a : Nat) : Option (Window × Nat) :=
  if a < spadBytes then some (.plain, a)
  else if 0x100000 ≤ a ∧ a < 0x100000 + spadBytes then some (.set, a - 0x100000)
  else if 0x200000 ≤ a ∧ a < 0x200000 + spadBytes then some (.clear, a - 0x200000)
  else none

/-- Room in the queue of a word's bank, or the word in it (R292). -/
def State.wordRoom (s : State) (core off : Nat) : Bool :=
  let bank := core * 12 + off / 0x8000
  s.yards.checks.contains (bank, spadKey core off / 4) || decide ((s.yards.checks.filter (fun c => c.1 == bank)).length < 4)

/-- Queues a scratchpad word for its check re-read, 4 a bank (R292).  The error of one that finds the queue full is taken as stored at the next tick
(R293, log entry 71). -/
def State.spadCheck (s : State) (core off : Nat) : State :=
  let bank := core * 12 + off / 0x8000
  let w := spadKey core off / 4
  if s.yards.checks.contains (bank, w) then s
  else if s.wordRoom core off then s.modYards (fun y => { y with checks := y.checks ++ [(bank, w)] })
  else s.modYards (fun y => { y with full := insertNat w y.full })

/-- A write of one word through a window (R294 to R296): an alias write leaves a word of wrong parity unchanged. -/
def State.wordStore (s : State) (w : Window) (core off : Nat) (word : Bytes) : State :=
  if w ≠ .plain ∧ s.spadBad core off then s
  else
    let old := s.spadRead core off 4
    let new := match w with
      | .plain => word
      | .set => (old.zip word).map (fun x => x.1 ||| x.2)
      | .clear => (old.zip word).map (fun x => x.1 &&& ~~~ x.2)
    s.spadWrite core off new

/-- A 16-byte write with its word mask to the unit at offset `off` (R290, R295): one alias write where it goes through an alias window. -/
def State.unitStore (s : State) (w : Window) (core off mask : Nat) (unit : Bytes) : State :=
  let s1 := s.each ((upto 4).filter (fun i => bit mask i)) (fun s i => s.wordStore w core (off + 4 * i) ((unit.drop (4 * i)).take 4))
  if w = .plain then s1 else s1.bump .half (physOf core).yh 25

/-- The units that `n` bytes from `off` touch, with the mask of the words they take in each. -/
def unitsOf (off n : Nat) : List (Nat × Nat) :=
  let lo := off / 4
  let hi := (off + n + 3) / 4
  (upto ((off + n + 15) / 16 - off / 16)).map (fun i =>
    let u := off / 16 + i
    (16 * u, maskOf 4 (fun j => decide (lo ≤ 4 * u + j ∧ 4 * u + j < hi))))

/-- The window and offset of `n` bytes at a core-side address that lie in one window whole (R294). -/
def rangeWindow (a n : Nat) : Option (Window × Nat) :=
  match windowOf a, windowOf (a + n - 1) with
  | some (w, o), some (v, _) => if w = v then some (w, o) else none
  | _, _ => none

/-- A write of whole words through the window that holds all of them, unit by unit; one that no window holds writes nothing (R290, R294, R295). -/
def State.windowStore (s : State) (core a : Nat) (bs : Bytes) : State :=
  match rangeWindow a bs.length with
  | none => s
  | some (.plain, off) => s.spadWrite core off bs
  | some (w, off) =>
    let pad := zeros (off % 16) ++ bs ++ zeros 16
    s.each (unitsOf off bs.length) (fun s u => s.unitStore w core u.1 u.2 ((pad.drop (u.1 - off / 16 * 16)).take 16))

/-- The flits of a run of bytes: their places in it and their 16 bytes, the last one shorter. -/
def flitsOf (bs : Bytes) : List (Nat × Bytes) := (upto ((bs.length + 15) / 16)).map (fun i => (16 * i, (bs.drop (16 * i)).take 16))

/-- A write at a core-side address: in one window, or flit by flit, each that no window holds left out (R290, R294, R295). -/
def State.spadStore (s : State) (core a : Nat) (bs : Bytes) : State :=
  if (rangeWindow a bs.length).isSome then s.windowStore core a bs
  else s.each (flitsOf bs) (fun s f => s.windowStore core (a + f.1) f.2)

/-- A core-side read through the windows: the bytes, and for each whether its word is void; none where an address lies outside the
windows (R294). -/
def State.coreRead (s : State) (core a n : Nat) : Option Read :=
  (rangeWindow a n).map (fun x => ⟨s.spadRead core x.2 n, s.spadVoids core x.2 n⟩)

/-- The words of wrong parity that a read of a scratchpad range meets: it checks all four words of every unit (R290, R292). -/
def State.badWords (s : State) (core off n : Nat) : List (Nat × Nat) :=
  if n = 0 then []
  else
    ((upto (4 * ((off + n + 15) / 16 - off / 16))).filterMap (fun i =>
      let o := off / 16 * 16 + 4 * i
      if s.spadBad core o then some (core, o) else none))

/-- The words of wrong parity that a core-side access meets. -/
def State.coreBad (s : State) (core a n : Nat) : List (Nat × Nat) :=
  match rangeWindow a n with
  | none => []
  | some x => s.badWords core x.2 n

/-- The words of wrong parity that a write at a core-side address meets: an alias write checks the words of its mask (R295, R296). -/
def State.aliasBad (s : State) (core a n : Nat) : List (Nat × Nat) :=
  match rangeWindow a n with
  | none => []
  | some (.plain, _) => []
  | some (_, o) => ((upto ((o + n + 3) / 4 - o / 4)).map (fun i => 4 * (o / 4 + i))).filterMap (fun w =>
      if s.spadBad core w then some (core, w) else none)

/-- Deliveries to a half are discarded: it is in RETAIN or OFF, or under march (R260, R306). -/
def State.dropsAt (s : State) (d : Nat) : Bool :=
  let h := s.half d
  h.farrier || h.pstate == .retain || h.pstate == .off

/-- The words of wrong parity that a delivery meets in alias windows (R296). -/
def State.landBad (s : State) (core a : Nat) (bs : Bytes) : List (Nat × Nat) :=
  if s.yards.bad.isEmpty ∨ s.dropsAt (physOf core).yh then [] else (flitsOf bs).flatMap (fun f => s.aliasBad core (a + f.1) f.2.length)

/-- A delivery of a command to a scratchpad, flit by flit (R237, R249, R260, R297, R306): written in RUN and IDLE, each flit discarded and counted in
RETAIN, OFF and under march. -/
def State.landFlits (s : State) (core a : Nat) (bs : Bytes) : State :=
  let d := (physOf core).yh
  if s.dropsAt d then s.bumpBy .half d 26 ((bs.length + 15) / 16) else s.spadStore core a bs

/-- A delivery that no command makes, with the check re-reads of what it meets (R296). -/
def State.deliver (s : State) (core a : Nat) (bs : Bytes) : State :=
  (s.each (s.landBad core a bs) (fun s w => s.spadCheck w.1 w.2)).landFlits core a bs

/-- The bytes that a delivery writes are void where their source was (R293, R331); one that is discarded leaves none. -/
def State.deliverWith (s : State) (core a : Nat) (bs : Bytes) (voids : List Bool) : State :=
  let t := s.landFlits core a bs
  if s.dropsAt (physOf core).yh then t
  else
    match rangeWindow a bs.length with
    | some (.plain, o) => t.spadSpoil core o voids
    | _ => t

/-- The bytes with keys in a range are zero with correct parity. -/
def State.zeroKeys (s : State) (lo hi : Nat) : State :=
  s.modYards (fun y => { y with
    spad := swipe lo hi y.spad,
    bad := y.bad.filter (fun w => decide (4 * w < lo) || decide (hi ≤ 4 * w)) })

/-- Every word of every bank of a half reads zero with correct parity, spare rows too (R297). -/
def State.zeroHalf (s : State) (d : Nat) : State :=
  let a := physNum d 0 0
  let b := physNum (d + 1) 0 0
  (s.zeroKeys (spadKey a 0) (spadKey b 0)).zeroKeys (spareKey a 0 0 0) (spareKey b 0 0 0)

/-- Every word of one core's bank reads zero with correct parity, its spare rows too. -/
def State.zeroBank (s : State) (core bank : Nat) : State :=
  let lo := spadKey core (0x8000 * bank)
  (s.zeroKeys lo (lo + 0x8000)).zeroKeys (spareKey core bank 0 0) (spareKey core bank 2 0)

/-! ## Commands that wait for their re-reads (R292, R330, R501) -/

/-- The number of a scratchpad word. -/
def wordKey (core off : Nat) : Nat := spadKey core off / 4

/-- Command `c` asks for the re-read of a scratchpad word it has met; one that finds the queue of its bank full is taken as stored, and flags it
(R293). -/
def State.askWord (a : State × Cmd) (w : Nat × Nat) : State × Cmd :=
  let x := a.2.checked
  let k := wordKey w.1 w.2
  if x.known.contains k ∨ x.asked.contains k then a
  else if a.1.wordRoom w.1 w.2 then (a.1.spadCheck w.1 w.2, { a.2 with checked := { x with asked := k :: x.asked } })
  else (a.1.spadCheck w.1 w.2, { a.2 with checked := { x with known := k :: x.known }, flagged := true })

/-- Command `c` asks for the re-read of a block it has met; one that finds the queue of its slice full is taken as stored, and flags it (R331). -/
def State.askBlock (a : State × Cmd) (b : Nat) : State × Cmd :=
  let x := a.2.checked
  if x.knownMem.contains b ∨ x.askedMem.contains b then a
  else if a.1.blockRoom b then (a.1.queueCheck (1024 * b), { a.2 with checked := { x with askedMem := b :: x.askedMem } })
  else (a.1.queueCheck (1024 * b), { a.2 with checked := { x with knownMem := b :: x.knownMem }, flagged := true })

/-- Command `c` asks for the re-reads of words and blocks of wrong parity that it has met. -/
def State.ask (s : State) (c : Cmd) (words : List (Nat × Nat)) (blocks : List Nat) : State × Cmd :=
  blocks.foldl State.askBlock (words.foldl State.askWord (s, c))

/-- A command waits for re-reads that it has asked for. -/
def Cmd.asks (c : Cmd) : Bool := !(c.checked.asked.isEmpty && c.checked.askedMem.isEmpty)

/-- The re-reads that the command of engine `e` still needs for the words and blocks of wrong parity it has met: the state in which it has asked for
them and waits; none where it waits for none and knows all of their errors to be stored. -/
def State.takeChecks (s : State) (e : Nat) (c : Cmd) (words : List (Nat × Nat)) (blocks : List Nat) : Option State :=
  if words.all (fun w => c.checked.known.contains (wordKey w.1 w.2)) && blocks.all (fun b => c.checked.knownMem.contains b) && !c.asks then none
  else
    let a := s.ask c words blocks
    some (a.1.modEng e (fun x => { x with cur := some a.2 }))

/-- The re-read of word `k` has run: a command that asked for it waits for it no more, and a stored error flags it. -/
def Cmd.word (k : Nat) (stored : Bool) (c : Cmd) : Cmd :=
  let x := c.checked
  if x.asked.contains k then
    { c with
      checked := { x with asked := x.asked.filter (fun y => y != k), known := if stored then k :: x.known else x.known }, flagged := c.flagged || stored }
  else c

/-- The re-read of block `b` has run. -/
def Cmd.block (b : Nat) (stored : Bool) (c : Cmd) : Cmd :=
  let x := c.checked
  if x.askedMem.contains b then
    { c with
      checked := { x with askedMem := x.askedMem.filter (fun y => y != b), knownMem := if stored then b :: x.knownMem else x.knownMem },
      flagged := c.flagged || stored }
  else c

/-- A re-read has run, for the commands in the engines and those that they hold as preloads. -/
def State.resolve (s : State) (f : Cmd → Cmd) : State :=
  s.each (upto 21) (fun s e => s.modEng e (fun x => { x with
    cur := x.cur.map f, preload := x.preload.map (fun p => { p with cmd := f p.cmd }) }))

end Sys2Proof.Machine
end

