-- ==== Sys2Proof/Machine/Flags.lean ====
section
/-!
DEFINITION. Status codes, DETAIL words and flag bits (R145, R58, R369, R370, R371).
-/
namespace Sys2Proof.Machine

/-! ## Status codes (R369) -/

def stOk : Nat := 0x00
def stFlagged : Nat := 0x01
def stDrained : Nat := 0x10
def stKilled : Nat := 0x11
def stCancelled : Nat := 0x12
def stDisabled : Nat := 0x13
def stBadFormat : Nat := 0x20
def stPrivilege : Nat := 0x21
def stHostRead : Nat := 0x22
def stTranslation : Nat := 0x23
def stQuota : Nat := 0x24
def stSchedule : Nat := 0x25
def stImage : Nat := 0x26
def stRngUnavailable : Nat := 0x30
def stLate : Nat := 0x31
def stReplayed : Nat := 0x40

/-- A status that confirms a preload and fires a chain (R369). -/
def confirms (st : Nat) : Bool := st == stOk || st == stFlagged || st == stReplayed

/-- The status of a command that ran to its end (R369): SCHEDULE, OK_FLAGGED, REPLAYED, OK, the first that applies. -/
def endStatus (sched flagged replayed : Bool) : Nat :=
  if sched then stSchedule else if flagged then stFlagged else if replayed then stReplayed else stOk

/-! ## DETAIL of a BAD_FORMAT (R370): the objects -/

def obDesc : Nat := 0x00
def obTack : Nat := 0x01
def obSched : Nat := 0x02
def obStream : Nat := 0x03
def obFrame : Nat := 0x04
def obControl : Nat := 0x05
def obTable : Nat := 0x06
def obRoute : Nat := 0x07
def obSnapshot : Nat := 0x08
def obPage : Nat := 0x09
def obProgram : Nat := 0x0A
def obMemStream : Nat := 0x0B
def obRowMap : Nat := 0x0C
def obResult : Nat := 0x0D
def obExpert : Nat := 0x0E
def obTokens : Nat := 0x0F
def obTile : Nat := 0x10
def obOther : Nat := 0xFF

/-- A failure that is not at a field (R370). -/
def noField : Nat := 0xFFFF

/-- BAD_FORMAT of an object at a byte offset; the field holds 16 bits (R370). -/
def badFormat (obj off : Nat) : Fail := ⟨stBadFormat, obj * 0x10000 + off % 0x10000, 0, false⟩

/-- A translation fault at an address. -/
def xlatFail (va : Nat) : Fail := ⟨stTranslation, 0, va, false⟩

/-- A reported failure to translate is recorded in the fault registers for the agent that met it (R340). -/
def State.noteAs (s : State) (a : Agent) (f : Fail) : State :=
  if f.status = stTranslation then
    match s.xlatCause f.addr f.write false with
    | some c => s.xlatFault f.addr f.write a c
    | none => s
  else s

/-- DETAIL of SCHEDULE: a cause of R371 and the logical core index that met it first (R370). -/
def schedDetail (cause core : Nat) : Nat := cause + core % 2 ^ 17 * 16

/-! ## Checks in order -/

/-- A check: nothing when it holds, else its failure. -/
def chk (ok : Bool) (f : Fail) : Option Fail := if ok then none else some f

/-- The first failure of a list of checks in their order. -/
def firstOf (fs : List (Option Fail)) : Option Fail := fs.findSome? id

/-- A reserved field of `n` bytes is 0; the failure names the field (R370). -/
def chkZero (obj : Nat) (bs : Bytes) (off n : Nat) : Option Fail := chk (rsv bs off n) (badFormat obj off)

/-! ## FP32 classes -/

/-- The magnitude bits of an FP32 word. -/
def mag32 (v : Nat) : Nat := v % 2 ^ 31

/-- An FP32 word is a NaN, an infinity, or finite. -/
def isNan32 (v : Nat) : Bool := decide (0x7F800000 < mag32 v)
def isInf32 (v : Nat) : Bool := decide (mag32 v = 0x7F800000)
def finite32 (v : Nat) : Bool := decide (mag32 v < 0x7F800000)
def neg32 (v : Nat) : Bool := bit v 31

/-- The order of two finite FP32 words as numbers: `a ≤ b`. -/
def key32 (v : Nat) : Int := if neg32 v then -(mag32 v : Int) else (mag32 v : Int)

/-! ## The tile status word (R145) -/

end Sys2Proof.Machine
end

