-- ==== Sys2Proof/Machine/Net.lean ====
section
/-!
DEFINITION. The base network that the NET section fixes: conveyor paths, tree hops, the outputs they use in each slot, and
what the routers' base memories hold (chapter 09).  Where a tree joins two nodes that are not neighbours, its flits run along
the child's column and then along the parent's row (DESIGN CHOICE, log entry 13).
-/
namespace Sys2Proof.Machine

/-- A router: a core router by its module coordinates, or an edge router by its number. -/
inductive Router where
  | core (x y : Nat)
  | edge (n : Nat)
  deriving DecidableEq, Repr

/-- A base entry's field: in a slot, output `out` of a router (0 N, 1 E, 2 S, 3 W, 4 LOCAL; at an edge router 0 to 3 the mesh ports, 4 and 5 the
die lanes) takes source code `src` of R243 (R241, R242).  While a table is expanded, `dieLane` stands for a die lane not yet chosen. -/
structure Use where
  router : Router
  slot : Nat
  out : Nat
  src : Nat
  deriving DecidableEq, Repr

/-- A base entry's use of the arithmetic unit: the operation and the sources of its operands (R242). -/
structure AluUse where
  router : Router
  slot : Nat
  op : Nat
  a : Nat
  b : Nat
  deriving DecidableEq, Repr

def dieLane : Nat := 8

/-- The numbers from `a` to `b`, in the direction in which they run. -/
def line (a b : Nat) : List Nat := if a ≤ b then (upto (b + 1 - a)).map (fun i => a + i) else (upto (a + 1 - b)).map (fun i => a - i)

/-! ## Edge routers (R238) -/

/-- The boundary routers that an edge router links to, in module coordinates: the logical columns c of its half with c mod 16 = g on a shed face,
rows 4g to 4g + 3 on a west or east face. -/
def edgeCells (logical n : Nat) : List (Nat × Nat) :=
  if n < 256 then
    let k := n / 32
    let x0 := (2 * (k % 4) + n / 16 % 2) * logical
    ((upto logical).filter (fun c => c % 16 == n % 16)).map (fun c => (x0 + c, if k < 4 then 0 else 255))
  else
    let y0 := 64 * ((n - 256) % 64 / 16) + 4 * (n % 16)
    (upto 4).map (fun i => (if n < 320 then 0 else 8 * logical - 1, y0 + i))

/-- The output of a boundary router toward an edge router: the side its face lies on. -/
def edgeSide (n : Nat) : Nat := if n < 128 then 0 else if n < 256 then 2 else if n < 320 then 3 else 1

/-- The mesh port of an edge router toward a boundary router: port i faces the i-th lowest of its columns or rows (DESIGN CHOICE, log entry 67). -/
def edgePort (logical n : Nat) (p : Nat × Nat) : Nat := (edgeCells logical n).idxOf p

/-! ## Hops (R237) -/

/-- yclk of a hop between neighbours (R237): 1 in a half, 4 across a stitch, 16 across a bridge. -/
def hopTime (logical : Nat) (p q : Nat × Nat) : Nat :=
  if p.2 / 64 ≠ q.2 / 64 then 16
  else
    let a := p.1 / logical
    let b := q.1 / logical
    if a = b then 1 else if a / 2 = b / 2 then 4 else 16

/-- yclk of a hop between two routers: 1 between a boundary router and an edge router, either way. -/
def Router.time (logical : Nat) : Router → Router → Nat
  | .core x y, .core u v => hopTime logical (x, y) (u, v)
  | _, _ => 1

/-- The output of a router toward a neighbour. -/
def dirTo (p q : Nat × Nat) : Nat := if q.2 < p.2 then 0 else if p.1 < q.1 then 1 else if p.2 < q.2 then 2 else 3

/-- The output of router `a` toward its neighbour `b`. -/
def Router.toward (logical : Nat) : Router → Router → Nat
  | .core x y, .core u v => dirTo (x, y) (u, v)
  | .core _ _, .edge n => edgeSide n
  | .edge n, .core x y => edgePort logical n (x, y)
  | .edge _, .edge _ => 0

/-- The source code at router `b` of the input from its neighbour `a` (R243). -/
def Router.from (logical : Nat) (b a : Router) : Nat := b.toward logical a + 1

/-- The source code of the LOCAL input; at an edge router a die lane. -/
def Router.localIn : Router → Nat
  | .core _ _ => 5
  | .edge _ => dieLane

/-- The LOCAL output; at an edge router a die lane. -/
def Router.localOut : Router → Nat
  | .core _ _ => 4
  | .edge _ => dieLane

/-- Output `out` of a router drives a stitch or bridge: E or W at a half's edge column, N or S at a yard's edge row, inside the grid (R237). -/
def seamOut (logical : Nat) (x y out : Nat) : Bool :=
  (out == 1 && (x + 1) % logical == 0 && decide (x + 1 < 8 * logical)) || (out == 3 && x % logical == 0 && x != 0) ||
    (out == 0 && y % 64 == 0 && y != 0) || (out == 2 && (y + 1) % 64 == 0 && y != 255)

/-- A hop enters a stitch or bridge in a control slot, which no flit may (R237, R258). -/
def Use.inControlSlot (logical : Nat) (u : Use) : Bool :=
  u.slot % 16 == 15 && (match u.router with
    | .core x y => seamOut logical x y u.out
    | .edge _ => false)

/-! ## Conveyors (R249, R251) -/

/-- The path of a conveyor from its edge router, in module coordinates (R251). -/
def Conveyor.path (c : Conveyor) : List (Nat × Nat) :=
  let r0 := if c.edge / 32 < 4 then 0 else 255
  let down := (line r0 c.turnRow).map (fun y => (c.startCol, y))
  let across := (line c.startCol c.turnCol).map (fun x => (x, c.turnRow))
  let last := (line c.turnRow c.endRow).map (fun y => (c.turnCol, y))
  down ++ across.drop 1 ++ last.drop 1

/-- The times at which a wave reaches the routers of a path, counted from the edge router. -/
def pathTimes (logical : Nat) : Nat → List (Nat × Nat) → List Nat
  | _, [] => []
  | t, [_] => [t]
  | t, p :: q :: rest => t :: pathTimes logical (t + hopTime logical p q) (q :: rest)

/-- A conveyor's path lies in the grid, begins at one of its edge router's columns and has `n` cores (R251). -/
def Conveyor.pathOk (logical : Nat) (c : Conveyor) (n : Nat) : Bool :=
  c.path.all (fun p => decide (p.1 < 8 * logical ∧ p.2 < 256)) && ((edgeCells logical c.edge).map Prod.fst).contains c.startCol &&
    decide (n ≤ c.path.length)

/-- The members of a conveyor in path order: the last `n` cores of its path (R249). -/
def Conveyor.members (c : Conveyor) (n : Nat) : List (Nat × Nat) := c.path.drop (c.path.length - n)

/-- The base fields of a conveyor (R249, R250): a delivery goes out from its edge router's die lane along the path and to LOCAL at each member;
a collection is the same path reversed, from the LOCAL input of its first router to a die lane. -/
def Conveyor.uses (logical : Nat) (c : Conveyor) (n : Nat) : List Use :=
  let ps := c.path
  let ts := pathTimes logical 1 ps
  let e : Router := .edge c.edge
  let at_ (i : Nat) : Router := match ps[i]? with
    | some p => .core p.1 p.2
    | none => e
  let before (i : Nat) : Router := if i = 0 then e else at_ (i - 1)
  let body := (indexed ts).flatMap (fun x =>
    let i := x.1
    let r := at_ i
    let last := decide (i + 1 = ps.length)
    if c.dir = 0 then
      let slot := (c.slot + x.2) % 1024
      let src := r.from logical (before i)
      (if ps.length - n ≤ i then [⟨r, slot, 4, src⟩] else []) ++
        (if last then [] else [⟨r, slot, r.toward logical (at_ (i + 1)), src⟩])
    else
      let slot := (c.slot + 1024 * (x.2 / 1024 + 1) - x.2) % 1024
      [⟨r, slot, r.toward logical (before i), if last then 5 else r.from logical (at_ (i + 1))⟩])
  if c.dir = 0 then ⟨e, c.slot, e.toward logical (at_ 0), dieLane⟩ :: body
  else ⟨e, c.slot, dieLane, e.from logical (at_ 0)⟩ :: body

/-! ## Trees -/

/-- Where a node stands; a link engine stands at no router. -/
def State.nodeAt (s : State) (n : TreeNode) : Option Router :=
  if n.kind = 0 then some (.core (n.loc % (8 * s.logical)) (n.loc / (8 * s.logical)))
  else if n.kind = 1 then some (.edge n.loc)
  else none

/-- The core routers from a child to its parent: along the child's column, then along the parent's row. -/
def between (c p : Nat × Nat) : List (Nat × Nat) :=
  (line c.2 p.2).map (fun y => (c.1, y)) ++ ((line c.1 p.1).map (fun x => (x, p.2))).drop 1

/-- The time of a run of neighbours. -/
def runTime (logical : Nat) (rs : List Router) : Nat := ((rs.zip (rs.drop 1)).map (fun x => x.1.time logical x.2)).foldl (· + ·) 0

/-- The routers from a child to its parent, both among them; an edge router enters the mesh at the boundary router from which the way is shortest,
the lowest-numbered of several. -/
def hopsBetween (logical : Nat) (c p : Router) : List Router :=
  let cores (r : Router) : List (Nat × Nat) := match r with
    | .core x y => [(x, y)]
    | .edge n => edgeCells logical n
  let ways := (cores c).flatMap (fun a => (cores p).map (fun b => (between a b).map (fun q => Router.core q.1 q.2)))
  let inner := (minBy (runTime logical) ways).getD []
  let ends (r : Router) : List Router := match r with
    | .core _ _ => []
    | .edge _ => [r]
  ends c ++ inner ++ ends p

/-- The time from a node to its parent; 1 where an end is a link engine. -/
def State.linkTime (s : State) (c p : TreeNode) : Nat :=
  match s.nodeAt c, s.nodeAt p with
  | some a, some b => runTime s.logical (hopsBetween s.logical a b)
  | _, _ => 1

/-- The children of a node (R252). -/
def TreeNode.children (n : TreeNode) : List Nat := [n.child0, n.child1].filter (fun c => c != 0xFFFF)

/-- The nodes of a tree with their distance in time from the root, the root first; `fuel` bounds the depth. -/
def State.treeWalk (s : State) (t : Tree) : Nat → Nat → Nat → List (Nat × Nat)
  | 0, i, d => [(i, d)]
  | fuel + 1, i, d =>
    match t.nodes[i]? with
    | none => []
    | some n => (i, d) :: n.children.flatMap (fun c =>
        match t.nodes[c]? with
        | none => []
        | some m => State.treeWalk s t fuel c (d + s.linkTime m n))

/-- All nodes of a tree with their distances from the root. -/
def State.treeNodes (s : State) (t : Tree) : List (Nat × Nat) := s.treeWalk t 64 0 0

/-- Levels of the tree below and with node `i`: the nodes on its longest way down to a leaf; `fuel` bounds them. -/
def Tree.levels (t : Tree) : Nat → Nat → Nat
  | 0, _ => 1
  | fuel + 1, i =>
    match t.nodes[i]? with
    | none => 0
    | some n => 1 + (n.children.map (Tree.levels t fuel)).foldl max 0

/-- Node `i` is a leaf. -/
def Tree.isLeaf (t : Tree) (i : Nat) : Bool :=
  match t.nodes[i]? with
  | none => false
  | some n => n.children.isEmpty

/-- Every leaf-to-root path of a DISPATCH tree takes LATENCY (R254). -/
def State.treeTimed (s : State) (t : Tree) : Bool :=
  (s.treeNodes t).all (fun x => !t.isLeaf x.1 || decide (x.2 = t.latency))

/-- The slot in which a node at distance `d` from the root works in copy `r` of a DISPATCH or RETURN tree (R254): LATENCY − d after the leaves of a
DISPATCH, d after the root of a RETURN, whose leaves stand at LATENCY. -/
def Tree.slotAt (t : Tree) (r d : Nat) : Nat :=
  let base := t.baseSlot + r * t.stride
  if t.type = 1 then (base + t.latency + 1024 * (d / 1024 + 1) - d) % 1024 else (base + 1024 * (t.latency / 1024 + 1) - t.latency + d) % 1024

/-- The way of child `c` to node `n`, the child first; none where an end is no router. -/
def State.childRoute (s : State) (t : Tree) (n : TreeNode) (c : Nat) : Option (List Router) :=
  match t.nodes[c]? with
  | none => none
  | some m =>
    match s.nodeAt m, s.nodeAt n with
    | some a, some b => some (hopsBetween s.logical a b)
    | _, _ => none

/-- The source code at a node's own router of what reaches it from child `c`; `own` is the source of a child that stands at the same router. -/
def State.childSrc (s : State) (t : Tree) (n : TreeNode) (own : Nat) (c : Nat) : Nat :=
  match (s.childRoute t n c).map List.reverse with
  | some (b :: a :: _) => b.from s.logical a
  | _ => own

/-- The source code at its router of what a node of a DISPATCH tree sends on: its LOCAL input at a leaf, its arithmetic unit where it has two
children, its child's flit where it has one. -/
def State.nodeSrc (s : State) (t : Tree) (n : TreeNode) (r : Router) : Nat :=
  match n.children with
  | [] => r.localIn
  | [c] => s.childSrc t n r.localIn c
  | _ => 6

/-- Flits for which a copy of a tree has slots: those of one row follow one another from its BASE_SLOT on (R254).  A tree record does not say how many,
so a copy takes the slots up to the next one's, STRIDE of them, and no more than the longest row with its row-scale entry needs (R206, R207;
DESIGN CHOICE, log entry 67). -/
def Tree.rowSlots (t : Tree) : Nat := max 1 (min t.stride 257)

/-- The base fields that the first flit of copy `r` of a DISPATCH or RETURN tree uses (R254). -/
def State.firstUses (s : State) (t : Tree) (r : Nat) : List Use :=
  let w := s.logical
  (s.treeNodes t).flatMap (fun x =>
    match t.nodes[x.1]? with
    | none => []
    | some n =>
      match s.nodeAt n with
      | none => []
      | some q =>
        let hops := n.children.flatMap (fun c =>
          match s.childRoute t n c, t.nodes[c]? with
          | some rs, some m =>
            (indexed (rs.zip (rs.drop 1))).map (fun y =>
              let i := y.1
              let a := y.2.1
              let b := y.2.2
              if t.type = 1 then
                ⟨a, t.slotAt r (x.2 + runTime w (rs.drop i)), a.toward w b,
                  match rs[i - 1]? with
                    | some z => if i = 0 then s.nodeSrc t m a else a.from w z
                    | none => s.nodeSrc t m a⟩
              else
                ⟨b, t.slotAt r (x.2 + runTime w (rs.drop (i + 1))), b.toward w a,
                  match rs[i + 2]? with
                    | some z => b.from w z
                    | none => if x.1 = 0 then b.localIn else s.childSrc t n b.localIn x.1⟩)
          | _, _ => [])
        let ends : List Use :=
          if t.type = 1 then (if x.1 = 0 then [⟨q, t.slotAt r 0, q.localOut, s.nodeSrc t n q⟩] else [])
          else if n.children.isEmpty then [⟨q, t.slotAt r x.2, q.localOut, q.localIn⟩] else []
        hops ++ ends)

/-- The base fields that copy `r` of a DISPATCH or RETURN tree uses: those of its first flit, and of every later flit one slot on, but for the
control slots of stitches and bridges, which no flit enters (R237, R254). -/
def State.treeUses (s : State) (t : Tree) (r : Nat) : List Use :=
  let first := s.firstUses t r
  first ++ (upto (t.rowSlots - 1)).flatMap (fun i =>
    (first.map (fun u => { u with slot := (u.slot + i + 1) % 1024 })).filter (fun u => !u.inControlSlot s.logical))

/-- The SELECT units that a DISPATCH tree uses: the routers of nodes with two children, and their slots. -/
def State.treeAlus (s : State) (t : Tree) (r : Nat) : List AluUse :=
  if t.type ≠ 1 then []
  else (s.treeNodes t).flatMap (fun x =>
    match t.nodes[x.1]? with
    | none => []
    | some n =>
      match s.nodeAt n, n.children with
      | some q, [a, b] =>
        (upto t.rowSlots).map (fun i => ⟨q, (t.slotAt r x.2 + i) % 1024, t.op, s.childSrc t n q.localIn a, s.childSrc t n q.localIn b⟩)
      | _, _ => [])

/-- The die lanes of a router and slot that come before in a list: as outputs, and as sources. -/
def lanesBefore (us : List Use) (u : Use) : Nat × Nat :=
  let same := us.filter (fun v => decide (v.router = u.router ∧ v.slot = u.slot))
  ((same.filter (fun v => decide (4 ≤ v.out))).length, (same.filter (fun v => v.src == 5 || v.src == 7)).length)

/-- Die lanes chosen: the first use of a slot takes lane 0 and the second lane 1 (DESIGN CHOICE, log entry 67); a third output stays unplaced. -/
def placeLanes (us : List Use) : List Use :=
  (us.foldl (fun done u =>
    let n := lanesBefore done u
    { u with out := if u.out = dieLane then min (4 + n.1) dieLane else u.out,
             src := if u.src = dieLane then (if n.2 = 0 then 5 else 7) else u.src } :: done) []).reverse

/-- All base fields for outputs, in any slot (R241, R250).  Copies of one record that fall on the same slots in other frames share their entries (R254;
DEDUCED, log entry 67). -/
def State.baseUses (s : State) (net : Net) : List Use :=
  placeLanes (net.conveyors.flatMap (fun c => c.uses s.logical net.nC) ++
    net.trees.flatMap (fun t => if t.type = 0 then [] else ((upto t.rep).flatMap (fun r => s.treeUses t r)).eraseDups))

/-- The arithmetic units that the base frames use. -/
def State.baseAlus (s : State) (net : Net) : List AluUse :=
  net.trees.flatMap (fun t => (upto t.rep).flatMap (fun r => s.treeAlus t r))

/-- The base entry of a router in a slot, as words of R242: its word, and word 1 of an edge router.  The base memory is what Prephor makes of the NET
section in force, at image load and at patch landing (R241). -/
def State.baseEntry (s : State) (r : Router) (slot : Nat) : Nat × Nat :=
  let us := (s.baseUses s.img.net).filter (fun u => decide (u.router = r ∧ u.slot = slot))
  let alu := ((s.baseAlus s.img.net).find? (fun u => decide (u.router = r ∧ u.slot = slot))).map (fun u =>
    u.a * 2 ^ 15 + u.b * 2 ^ 18 + u.op * 2 ^ 21)
  (((us.filter (fun u => decide (u.out < 5))).map (fun u => u.src * 2 ^ (3 * u.out))).foldl (· + ·) 0 + alu.getD 0,
    ((us.filter (fun u => u.out == 5)).map Use.src).foldl (· + ·) 0)

/-- A field of a frame word. -/
def wordField (w i : Nat) : Nat := w / 2 ^ (3 * i) % 8

/-- The source of an output in a slot (R241): the base field where it is nonzero, else the field of the active command word. -/
def sourceOf (base cmd out : Nat) : Nat := if wordField base out = 0 then wordField cmd out else wordField base out

/-- No element of a list comes twice. -/
def noRepeat {α : Type} [DecidableEq α] : List α → Bool
  | [] => true
  | x :: xs => !xs.contains x && noRepeat xs

/-- The tree of a number (R252): records of REPEAT n take n consecutive numbers. -/
def treeOf : List Tree → Nat → Option (Tree × Nat)
  | [], _ => none
  | t :: ts, k => if k < t.rep then some (t, k) else treeOf ts (k - t.rep)

/-- Trees of a module. -/
def treeCount (ts : List Tree) : Nat := (ts.map Tree.rep).foldl (· + ·) 0

/-! ## Edge routers of an engine (R238, R239) -/

/-- The edge routers of a yard half, lowest number first. -/
def halfEdges (d : Nat) : List Nat :=
  let row := halfRow d
  let hc := halfCol d
  let c := hc / 2
  let h := hc % 2
  let shed := if row = 0 then (upto 16).map (fun g => 32 * c + 16 * h + g)
    else if row = 3 then (upto 16).map (fun g => 32 * (4 + c) + 16 * h + g) else []
  let west := if hc = 0 then (upto 16).map (fun g => 256 + 16 * row + g) else []
  let east := if hc = 7 then (upto 16).map (fun g => 320 + 16 * row + g) else []
  shed ++ west ++ east

/-- The die that the die port of an edge router ends in, by its domain (R238). -/
def edgeDie (n : Nat) : Nat :=
  if n < 256 then shedDomain (n / 32)
  else if n < 320 then [49, 48, 54, 50].getD ((n - 256) / 16) 0
  else [51, 53, 57, 52].getD ((n - 320) / 16) 0

/-- The half of an edge router (R239). -/
def edgeHalf (n : Nat) : Nat := ((upto 32).find? (fun d => (halfEdges d).contains n)).getD 0

/-- The yard half whose router launches the waves of a conveyor: that of its edge router for a delivery, that of the last router of its path for a
collection (R249). -/
def State.waveHalf (s : State) (c : Conveyor) : Nat :=
  match c.path.getLast? with
  | some p => if c.dir = 0 then edgeHalf c.edge else (s.coreXY p.1 p.2).yh
  | none => edgeHalf c.edge

/-- The edge routers of an engine in edge-router number order. -/
def State.engEdges (s : State) (e : Nat) : List Nat := ((s.halvesOf e).flatMap halfEdges).mergeSort (fun a b => decide (a ≤ b))

/-- The cores of an engine in logical core index order. -/
def State.engCores (s : State) (e : Nat) : List Nat :=
  match s.engEntry e with
  | none => []
  | some x =>
    let w := s.logical
    let x0 := if x.kind = 0 then 2 * x.x0 * w else x.x0 * w
    let n := if x.kind = 0 then 2 * x.w * w else x.w * w
    (upto (x.h * 64)).flatMap (fun r => (upto n).map (fun c => (x.y0 * 64 + r) * 8 * w + x0 + c))

end Sys2Proof.Machine
end

