-- ==== Sys2Proof/Machine/Operands.lean ====
section
/-!
DEFINITION. The operand forms of engine commands: descriptors, tack blocks and schedule objects, and the checks of R348 on
them (chapter 13, R76, R98, R108, R138, R244).
-/
namespace Sys2Proof.Machine

/-! ## Descriptors (R345) -/

def dOp (d : Bytes) : Nat := fld d 0 1
def dFlags (d : Bytes) : Nat := fld d 1 1
def dSeedHub (d : Bytes) : Bool := bit (dFlags d) 0
def dTackHost (d : Bytes) : Bool := bit (dFlags d) 1
def dTrigEn (d : Bytes) : Bool := bit (dFlags d) 2
def dNoPreload (d : Bytes) : Bool := bit (dFlags d) 3
def dTag (d : Bytes) : Nat := fld d 2 2
def dTrigEng (d : Bytes) : Nat := fld d 4 1
def dTrigSlot (d : Bytes) : Nat := fld d 5 1
def dSched (d : Bytes) : Nat := fld d 8 8
def dTack (d : Bytes) : Nat := fld d 0x10 8
def dSeed (d : Bytes) : Nat := fld d 0x18 8

/-- Opcodes of R347. -/
def opTensor : Nat := 0x01
def opAnneal : Nat := 0x02
def opRotate : Nat := 0x03
def opSnapshot : Nat := 0x04
def opResume : Nat := 0x05
def opMove : Nat := 0x08
def opRoute : Nat := 0x09
def opCombine : Nat := 0x0A
def opReduce : Nat := 0x0B
def opSignal : Nat := 0x10
def opWait : Nat := 0x11
def opChain : Nat := 0x12
def opNop : Nat := 0x13
def opPatch : Nat := 0x20
def opRepair : Nat := 0x21
def opMarch : Nat := 0x22
def opClkmode : Nat := 0x23
def opRngctl : Nat := 0x24
def opRetain : Nat := 0x25

/-- Engine kinds (R343). -/
inductive EngKind where
  | compute | move | route | link
  deriving DecidableEq, Repr

def kindOf (e : Nat) : EngKind := if e < 8 then .compute else if e < 16 then .move else if e = 16 then .route else .link

/-- An opcode of the table (R347). -/
def opDefined (op : Nat) : Bool :=
  [1, 2, 3, 4, 5, 8, 9, 10, 11, 0x10, 0x11, 0x12, 0x13, 0x20, 0x21, 0x22, 0x23, 0x24, 0x25].contains op

/-- A privileged opcode (R571). -/
def opPrivileged (op : Nat) : Bool := decide (0x20 ≤ op ∧ op ≤ 0x25)

/-- An opcode that sets the mode of its cores on a compute engine: TENSOR tensor, the anneal opcodes and SPINPACK anneal (R14). -/
def opSetsMode (op : Nat) : Option Bool :=
  if op = opTensor then some false
  else if op = opAnneal ∨ op = opRotate ∨ op = opResume ∨ op = opMove then some true
  else none

/-- An engine kind accepts a descriptor's opcode, and for MOVE its form (R343, R347, R364). -/
def accepts (k : EngKind) (d : Bytes) : Bool :=
  let op := dOp d
  if 0x10 ≤ op then true
  else
    match k with
    | .compute => [1, 2, 3, 4, 5].contains op || (op == opMove && fld d 0x20 1 == 1) || op == opReduce
    | .move => op == opMove && fld d 0x20 1 == 0
    | .route => op == opRoute || op == opCombine
    | .link => op == opReduce

/-- The opcode takes a schedule object on a compute engine (R347). -/
def takesSched (k : EngKind) (op : Nat) : Bool := (k == .compute) && [1, 2, 3, 4, 5, 8, 11].contains op

/-- The opcode takes its parameters from a tack block (R347). -/
def takesTack (op : Nat) : Bool := [9, 10, 0x21, 0x22, 0x23, 0x24, 0x25].contains op

/-- Offsets of ARGS bytes that an opcode defines as more than zero (R345). -/
def argDefined (k : EngKind) (op i : Nat) : Bool :=
  if op = opMove then
    match k with
    | .compute => decide (i = 0x20 ∨ (0x28 ≤ i ∧ i < 0x30))
    | _ => decide ((0x20 ≤ i ∧ i < 0x23) ∨ (0x24 ≤ i ∧ i < 0x38))
  else if op = opReduce then
    match k with
    | .compute => decide (0x20 ≤ i ∧ i < 0x30)
    | _ => decide ((0x20 ≤ i ∧ i < 0x32) ∨ (0x34 ≤ i ∧ i < 0x3C))
  else if op = opSignal ∨ op = opWait then decide (i = 0x20 ∨ i = 0x21 ∨ (0x28 ≤ i ∧ i < 0x30))
  else if op = opChain then decide (i = 0x20 ∨ i = 0x21 ∨ (0x28 ≤ i ∧ i < 0x30))
  else if op = opPatch then decide (0x20 ≤ i ∧ i < 0x28)
  else false

/-- The field that an ARGS byte an opcode does not define belongs to: a reserved field where the opcode's table lays one out, else the
byte (R370). -/
def argField (k : EngKind) (op i : Nat) : Nat :=
  if op = opSignal ∨ op = opWait ∨ op = opChain then (if i < 0x28 then 0x22 else 0x30)
  else if op = opMove ∧ k ≠ .compute then (if i < 0x28 then 0x23 else 0x38)
  else if op = opReduce then (if k = .compute then 0x30 else if i < 0x34 then 0x32 else 0x3C)
  else i

/-- The first ARGS field that must be 0 and is not. -/
def argBad (k : EngKind) (d : Bytes) : Option Nat :=
  (((upto 32).map (fun i => 0x20 + i)).find? (fun i => !argDefined k (dOp d) i && d.getD i 0 != 0)).map (argField k (dOp d))

/-- Steps 2 to 4 of R348 on a descriptor, for an engine kind and the class of its origin queue (R344 to R347, R349). -/
def checkDesc (k : EngKind) (cls : Nat) (d : Bytes) : Option Fail :=
  let op := dOp d
  let bad := badFormat obDesc
  firstOf
    [ chk (opDefined op) (bad 0),
      chk (!(opPrivileged op && cls != 0)) ⟨stPrivilege, 0, 0, false⟩,
      chk ((op = opMove ∧ (k = .compute ∨ k = .move)) ∨ accepts k d) (bad 0),
      chk (dFlags d < 16) (bad 1),
      chk (if dTrigEn d then dTrigEng d < 21 else dTrigEng d = 0) (bad 4),
      chk (if dTrigEn d then dTrigSlot d < 8 else dTrigSlot d = 0) (bad 5),
      chkZero obDesc d 6 2,
      chk (if takesSched k op then dSched d % 64 = 0 else dSched d = 0) (bad 8),
      chk (dTack d % 64 = 0 ∧ !(takesTack op && dTack d == 0)) (bad 0x10),
      chk (op ≠ opMove ∨ accepts k d) (bad 0x20),
      (argBad k d).map bad ]

/-! ## Reads of the checks -/

/-- Step 5: the tack block of a descriptor, 256 bytes, or its failure (R346, R349). -/
def State.readTack (s : State) (d : Bytes) : Except Fail Bytes :=
  let a := dTack d
  if a = 0 ∧ !takesTack (dOp d) then .ok []
  else if dTackHost d then
    match s.hostRead a 256 with
    | none => .error ⟨stHostRead, 0, a, false⟩
    | some bs => .ok bs
  else
    match s.firstFail a 256 false false with
    | some f => .error (xlatFail f.1)
    | none => .ok (s.devBytes a 256)

/-- A range translates for reading, else the failure at its first failing access. -/
def State.chkReads (s : State) (va n : Nat) : Option Fail := (s.firstFail va n false false).map (fun f => xlatFail f.1)

/-- A range translates for writing. -/
def State.chkWrites (s : State) (va n : Nat) : Option Fail := (s.firstFail va n true false).map (fun f => { xlatFail f.1 with write := true })

/-! ## Schedule objects (R350 to R353) -/

def soKind (h : Bytes) : Nat := fld h 6 1
def soUsesRng (h : Bytes) : Bool := bit (fld h 7 1) 0
def soCF (h : Bytes) : Nat := fld h 0x0E 2
def soLedger (h : Bytes) : Nat := fld h 0x10 4
def soRecomp (h : Bytes) : Nat := fld h 0x14 4
def soPages (h : Bytes) : Nat := fld h 0x18 4
def soShare (h : Bytes) : Nat := fld h 0x1C 2
def soStreams (h : Bytes) : Nat := fld h 0x1E 2
def soTackOff (h : Bytes) : Nat := fld h 0x20 4
def soMemStreams (h : Bytes) : Nat := fld h 0x24 2
def soProgAddr (h : Bytes) : Nat := fld h 0x28 8
def soFrameAddr (h : Bytes) : Nat := fld h 0x30 8
def soStreamAddr (h : Bytes) : Nat := fld h 0x38 8
def soMemStreamAddr (h : Bytes) : Nat := fld h 0x40 8
def soCtrl (h : Bytes) : Nat := fld h 0x48 8
def soAux (h : Bytes) : Nat := fld h 0x50 8
def soTree0 (h : Bytes) : Nat := fld h 0x58 4
def soNTrees (h : Bytes) : Nat := fld h 0x5C 4

/-- The header of the schedule object at an address. -/
def State.soHeader (s : State) (a : Nat) : Bytes := s.devBytes a 128

/-- Entry `i` of the stream table. -/
def State.soStream (s : State) (h : Bytes) (i : Nat) : Bytes := s.devBytes (soStreamAddr h + 128 * i) 128

/-- The stream entries. -/
def State.soStreamList (s : State) (h : Bytes) : List Bytes := (upto (soStreams h)).map (s.soStream h)

/-- The length of the program of the `i`th core of the rectangle. -/
def State.progLen (s : State) (h : Bytes) (i : Nat) : Nat := fld (s.devBytes (soProgAddr h + 16 * i) 16) 8 4

/-- The logical cores of the rectangle that take part, in index order (R350). -/
def State.soCores (s : State) (e : Nat) (h : Bytes) : List Nat :=
  ((indexed (s.engCores e)).filter (fun x => s.progLen h x.1 != 0)).map Prod.snd

/-- The claims of entry `i` of a memory-stream table: shed, position, slices (R352). -/
def State.entryClaims (s : State) (h : Bytes) (i : Nat) : List (Nat × Nat × Nat) :=
  let m := s.devBytes (soMemStreamAddr h + 8 * i) 8
  let c := (fld m 0 1, fld m 2 2, fld m 4 3)
  if fld m 1 1 = 2 then
    let o := (fld m 2 2 + 1024 - (s.shedRec (fld m 0 1)).refreshSlot) % 32
    let next := if o = 31 then fld m 2 2 + 18 else fld m 2 2 + 1
    [c, (fld m 0 1, next % 1024, fld m 4 3)]
  else [c]

/-- The memory-stream claims of a schedule object (R352). -/
def State.soClaims (s : State) (h : Bytes) : List (Nat × Nat × Nat) := (upto (soMemStreams h)).flatMap (s.entryClaims h)

/-- Two claims meet (R352). -/
def claimsMeet (a b : Nat × Nat × Nat) : Bool := a.1 == b.1 && a.2.1 == b.2.1 && (Nat.land a.2.2 b.2.2 != 0)

/-- Bytes of the frames of a schedule object: CF words a core, CF double words an edge router (R350). -/
def State.frameBytes (s : State) (e : Nat) (h : Bytes) : Nat :=
  soCF h * (4 * (s.engCores e).length + 8 * (s.engEdges e).length)

/-- Step 6: the schedule object and every table and program it points to translate (R348, R350, R351). -/
def State.chkTranslate (s : State) (e a : Nat) : Option Fail :=
  match s.chkReads a 128 with
  | some f => some f
  | none =>
    let h := s.soHeader a
    let cores := (s.engCores e).length
    firstOf
      [ s.chkReads (soProgAddr h) (16 * cores),
        (upto cores).findSome? (fun i =>
          let p := s.devBytes (soProgAddr h + 16 * i) 16
          s.chkReads (fld p 0 8) (fld p 8 4)),
        s.chkReads (soFrameAddr h) (s.frameBytes e h),
        s.chkReads (soStreamAddr h) (128 * soStreams h),
        firstOf ((s.soStreamList h).map (fun t => if fld t 8 8 = 0 then none else s.chkReads (fld t 8 8) (4 * fld t 0x64 4))),
        s.chkReads (soMemStreamAddr h) (8 * soMemStreams h),
        (if soCtrl h = 0 then none else s.chkReads (soCtrl h) 64),
        (if soAux h = 0 then none else s.chkReads (soAux h) 64) ]

/-- FMT codes (R97): 0 INT4, 1 UINT4, 2 INT8, 3 UINT8, 4 CB4, 5 CB8, 6 E4M3, 7 E5M2, 8 BF16, 9 FP16, 10 FP32. -/
def fmtOf (b : Nat) : Nat := b % 16

/-- Bits of an element (R97). -/
def fmtBits (f : Nat) : Nat :=
  if f = 0 ∨ f = 1 ∨ f = 4 then 4 else if f ≤ 7 then 8 else if f ≤ 9 then 16 else 32

/-- The format is a codebook one. -/
def fmtCb (f : Nat) : Bool := decide (f = 4 ∨ f = 5)

/-- A format byte is well formed (R98). -/
def fmtByteOk (b : Nat) : Bool :=
  decide (fmtOf b ≤ 10) && !bit b 7 && (fmtCb (fmtOf b) || decide (bits b 6 4 = 0))

/-- The format byte names the float path (R97, R99). -/
def fmtFloat (b : Nat) : Bool := if fmtCb (fmtOf b) then bit b 6 else decide (6 ≤ fmtOf b)

/-- The fields of a quantisation control block (R108), at their place in the stream entry. -/
def chkQcb (t : Bytes) : List (Option Fail) :=
  let bad (o : Nat) := badFormat obStream (0x10 + o)
  let q (o n : Nat) := fld t (0x10 + o) n
  let fmt := fmtOf (q 0 1)
  [ chk (fmtByteOk (q 0 1)) (bad 0),
    chk (q 1 1 ≤ 3) (bad 1),
    chk (!(q 1 1 = 1 ∨ q 1 1 = 3) ∨ fmtBits fmt ≤ 8) (bad 1),
    chk (q 2 1 ≤ 8) (bad 2),
    chk (q 3 1 ≤ 7) (bad 3),
    chk (q 4 1 ≤ 64) (bad 4),
    chk (q 5 1 ≤ 8) (bad 5),
    chk (q 6 2 = 0) (bad 6),
    chk (q 1 1 ≠ 2 ∨ (finite32 (q 8 4) && !neg32 (q 8 4) && q 8 4 != 0)) (bad 8),
    chk (q 0x0C 4 % 16 = 0) (bad 0x0C),
    chk (q 0x10 4 % 16 = 0) (bad 0x10),
    chk (q 0x14 4 % 16 = 0) (bad 0x14),
    chk (q 0x18 8 = 0) (bad 0x18) ]

/-- The fields of a drain control block (R138), at their place in the stream entry. -/
def chkDcb (t : Bytes) : List (Option Fail) :=
  let bad (o : Nat) := badFormat obStream (0x30 + o)
  let c (o n : Nat) := fld t (0x30 + o) n
  let clamp := bit (c 3 1) 0
  let lo := c 0x10 4
  let hi := c 0x14 4
  let off (o : Nat) : Option Fail := chk (c o 4 % 16 = 0) (bad o)
  [ chk (c 0 1 ≤ 2) (bad 0),
    chk (c 1 1 ≤ 2) (bad 1),
    chk (if c 1 1 = 0 then c 2 1 = 0 else c 2 1 = 8 ∨ c 2 1 = 9 ∨ c 2 1 = 10) (bad 2),
    chk (c 3 1 < 8) (bad 3),
    chk (c 4 1 ≤ 8 ∧ !(c 4 1 = 0 ∧ (bit (c 3 1) 1 ∨ bit (c 3 1) 2))) (bad 4),
    chkZero obStream t 0x35 3,
    chk (c 0 1 ≠ 0 ∨ c 8 4 = 0) (bad 8),
    off 8, off 0x0C,
    chk (if clamp then finite32 lo else lo = 0) (bad 0x10),
    chk (if clamp then finite32 hi ∧ key32 lo ≤ key32 hi else hi = 0) (bad 0x14),
    off 0x18, off 0x1C, off 0x20,
    chkZero obStream t 0x54 12 ]

/-- A stream entry under R351, R98, R102, R108, R113, R126 and R138. -/
def State.chkStream (s : State) (h t : Bytes) : Option Fail :=
  let bad := badFormat obStream
  let role := fld t 0 1
  let tree := fld t 0x60 4
  let isOut := decide (role = 2)
  let treeOk := decide (tree = 0xFFFFFFFF) ||
    (decide (soTree0 h ≤ tree ∧ tree < soTree0 h + soNTrees h) &&
      (match treeOf s.img.net.trees tree with
        | some (x, _) => x.type == 0
        | none => false))
  firstOf (
    [ chk (role ≤ 2) (bad 0),
      chk (fmtByteOk (fld t 1 1) ∧ (isOut ∨ fmtOf (fld t 1 1) ≠ 10)) (bad 1),
      chk (fld t 2 1 ≤ 2 ∧ (!isOut ∨ fld t 2 1 = 0)) (bad 2),
      chk (fld t 3 1 = 0) (bad 3),
      chk (fld t 4 4 ≠ 0 ∧ (fld t 2 1 = 0 ∨ fld t 4 4 % 4 = 0)) (bad 4),
      chk (isOut ∨ fld t 8 8 = 0) (bad 8) ] ++
    (if isOut then chkQcb t ++ chkDcb t
     else [chkZero obStream t 0x10 32, chkZero obStream t 0x30 48]) ++
    [ chk (!isOut ∨ fld t 8 8 ≠ 0 ∨ fld t 0x11 1 = 0 ∨ fld t 0x11 1 = 2) (bad 0x11),
      chk (!isOut ∨ fld t 8 8 ≠ 0 ∨ fld t 0x34 1 = 0) (bad 0x34),
      chk treeOk (bad 0x60),
      chk (fld t 8 8 ≠ 0 ∨ fld t 0x64 4 = 0) (bad 0x64),
      chkZero obStream t 0x68 24 ])

/-- The row-home map of a stream: its entries name cores of the module (R351), and the top-k result of every row slot lies in the scratchpad
(R138, R148). -/
def State.chkRowMap (s : State) (t : Bytes) : Option Fail :=
  if fld t 8 8 = 0 then none
  else
    let entry (r : Nat) : Nat := fld (s.devBytes (fld t 8 8 + 4 * r) 4) 0 4
    let k := fld t 0x34 1
    firstOf
      [ ((upto (fld t 0x64 4)).find? (fun r => decide (s.coreCount ≤ entry r % 2 ^ 17))).map (fun r => badFormat obRowMap (4 * r)),
        ((upto (fld t 0x64 4)).find? (fun r => decide (k ≠ 0 ∧ spadBytes < fld t 0x50 4 + 64 * (entry r / 2 ^ 17) + 8 * k))).map
          (fun r => badFormat obRowMap (4 * r)) ]

/-- Output and ALU codes of a word of a frame entry (R242 to R244). -/
def wordOk (edge : Bool) (w : Nat) : Bool :=
  let src (i : Nat) := w / 2 ^ (3 * i) % 8
  let op := bits w 24 21
  (edge || (upto 7).all (fun i => src i != 7)) && op != 4 && decide (op < 8) && decide (bits w 31 30 = 0)

/-- The field of a router's output in a frame word is nonzero. -/
def fieldUsed (w out : Nat) : Bool := wordField w out != 0

/-- The command frames of a schedule object under R244. -/
def State.chkFrames (s : State) (e : Nat) (h : Bytes) : Option Fail :=
  let cf := soCF h
  let cores := s.engCores e
  let edges := s.engEdges e
  let uses := s.baseUses s.img.net
  let alus := s.baseAlus s.img.net
  let w := 8 * s.logical
  let clash (r : Router) (o word w1 : Nat) : Bool :=
    uses.any (fun u => decide (u.router = r ∧ u.slot % cf = o) && (if u.out = 5 then fieldUsed w1 0 else fieldUsed word u.out)) ||
      alus.any (fun u => decide (u.router = r ∧ u.slot % cf = o ∧ bits word 24 15 ≠ 0))
  firstOf
    [ (indexed cores).findSome? (fun c =>
        (upto cf).findSome? (fun o =>
          let at_ := 4 * (c.1 * cf + o)
          let word := fld (s.devBytes (soFrameAddr h + at_) 4) 0 4
          let x := c.2 % w
          let y := c.2 / w
          let seam := decide (o % 16 = 15) && (upto 4).any (fun i => fieldUsed word i && seamOut s.logical x y i)
          chk (wordOk false word && !clash (.core x y) o word 0 && !seam) (badFormat obFrame at_))),
      (indexed edges).findSome? (fun c =>
        (upto cf).findSome? (fun o =>
          let at_ := 4 * cores.length * cf + 8 * (c.1 * cf + o)
          let bs := s.devBytes (soFrameAddr h + at_) 8
          let w0 := fld bs 0 4
          let w1 := fld bs 4 4
          chk (wordOk true w0 && decide (w1 < 8) && !clash (.edge c.2) o w0 w1) (badFormat obFrame at_))) ]

/-- The memory-stream table under R352: classes, reserved fields, stream positions. -/
def State.chkMemStreams (s : State) (h : Bytes) : Option Fail :=
  (upto (soMemStreams h)).findSome? (fun i =>
    let m := s.devBytes (soMemStreamAddr h + 8 * i) 8
    let bad (o : Nat) := badFormat obMemStream (8 * i + o)
    let o := (fld m 2 2 + 1024 - (s.shedRec (fld m 0 1)).refreshSlot) % 32
    firstOf
      [ chk (fld m 0 1 < 8) (bad 0),
        chk (fld m 1 1 ≤ 2) (bad 1),
        chk (fld m 2 2 < 1024 ∧ 17 ≤ o) (bad 2),
        chk (fld m 7 1 = 0) (bad 7) ])

/-- The claims of a schedule object meet no reservation of an armed program other than `own` (R352). -/
def State.chkReserved (s : State) (own : Option Nat) (h : Bytes) : Option Fail :=
  let held := (s.img.progs.filter (fun p => some p.prog != own)).flatMap (fun p => (s.prog p.prog).claims)
  (upto (soMemStreams h)).findSome? (fun i =>
    chk (!(s.entryClaims h i).any (fun c => held.any (claimsMeet c))) (badFormat obMemStream (8 * i)))

/-- The rectangle of the header is that of the engine's ENG entry (R350). -/
def EngEntry.matches_ (x : EngEntry) (h : Bytes) : Bool :=
  decide (fld h 9 1 = x.x0 ∧ fld h 0x0A 1 = x.y0 ∧ fld h 0x0B 1 = x.w ∧ fld h 0x0C 1 = x.h)

/-- Step 7: the schedule object at `a` for engine `e` and opcode `op`, in a command of program `own` if it is one (R353). -/
def State.chkSched (s : State) (e op a : Nat) (own : Option Nat) : Option Fail :=
  let h := s.soHeader a
  let bad := badFormat obSched
  let entry (f : EngEntry → Bool) : Bool := match s.engEntry e with
    | some x => f x
    | none => false
  let cf := soCF h
  firstOf
    [ chk (fld h 0 4 = 0x4F535053) (bad 0),
      chk (fld h 4 1 = 1) (bad 4),
      chk (fld h 5 1 = s.pwr.grade) (bad 5),
      chk (soKind h = op) (bad 6),
      chk (fld h 7 1 < 2) (bad 7),
      chk (entry (fun x => fld h 8 1 == x.kind)) (bad 8),
      chk (entry (fun x => x.matches_ h)) (bad 9),
      chk (fld h 0x0D 1 = 0) (bad 0x0D),
      chk ([16, 32, 64, 128, 256, 512, 1024].contains cf) (bad 0x0E),
      chk (own.isSome ∨ soShare h = 0) (bad 0x1C),
      chk (soStreams h ≤ 1024) (bad 0x1E),
      chk (soTackOff h = 0xFFFFFFFF ∨ (soTackOff h % 16 = 0 ∧ soTackOff h + 256 ≤ spadBytes)) (bad 0x20),
      chk (soMemStreams h ≤ 4096) (bad 0x24),
      chkZero obSched h 0x26 2,
      chk (if op ∈ [2, 3, 4, 5] then True else soCtrl h = 0) (bad 0x48),
      chk (op = opRotate ∨ op = opTensor ∨ soAux h = 0) (bad 0x50),
      chk (soNTrees h = 0 ∨ (s.img.streams.length ≤ soTree0 h ∧ soTree0 h + soNTrees h ≤ treeCount s.img.net.trees)) (bad 0x58),
      chkZero obSched h 0x60 32,
      (indexed (s.engCores e)).findSome? (fun c =>
        let p := s.devBytes (soProgAddr h + 16 * c.1) 16
        firstOf [chk (fld p 8 4 ≤ 16384) (badFormat obProgram (16 * c.1 + 8)),
          chk (fld p 12 4 = 0) (badFormat obProgram (16 * c.1 + 12))]),
      (indexed (s.soStreamList h)).findSome? (fun t =>
        (s.chkStream h t.2).map (fun f => badFormat obStream (128 * t.1 + f.detail % 0x10000))),
      (s.soStreamList h).findSome? s.chkRowMap,
      s.chkFrames e h,
      s.chkMemStreams h,
      s.chkReserved own h ]

/-- The schedule object at an address as a command of engine `e` holds it (R355). -/
def State.readSched (s : State) (e a : Nat) : Sched :=
  let h := s.soHeader a
  let ts := s.soStreamList h
  ⟨h, s.soCores e h, ts, ts.map (fun t => if fld t 8 8 = 0 then [] else s.devBytes (fld t 8 8) (4 * fld t 0x64 4)), s.soClaims h⟩

/-- The ranges that the checks of a schedule object read, where it translates (R348, R350). -/
def State.schedRanges (s : State) (e a : Nat) : List (Nat × Nat) :=
  let h := s.soHeader a
  let cores := (s.engCores e).length
  [(a, 128), (soProgAddr h, 16 * cores), (soFrameAddr h, s.frameBytes e h), (soStreamAddr h, 128 * soStreams h),
    (soMemStreamAddr h, 8 * soMemStreams h)] ++
    (upto cores).map (fun i =>
      let p := s.devBytes (soProgAddr h + 16 * i) 16
      (fld p 0 8, fld p 8 4)) ++
    (s.soStreamList h).map (fun t => if fld t 8 8 = 0 then (0, 0) else (fld t 8 8, 4 * fld t 0x64 4))

/-- The blocks of wrong parity that steps 5 to 7 of R348 meet: in the tack block, and in the schedule object with its tables and programs (R330). -/
def State.prepBad (s : State) (e : Nat) (d : Bytes) : List Nat :=
  if s.mem.bad.isEmpty then []
  else
    (if dTack d = 0 ∨ dTackHost d ∨ (s.firstFail (dTack d) 256 false false).isSome then [] else s.devBad (dTack d) 256) ++
      (if takesSched (kindOf e) (dOp d) ∧ (s.chkTranslate e (dSched d)).isNone then (s.schedRanges e (dSched d)).flatMap (fun r => s.devBad r.1 r.2)
       else [])

/-- The voids of the tack block of a descriptor, where a byte of it is void (R331). -/
def State.tackVoids (s : State) (d : Bytes) : List Bool :=
  if s.mem.bad.isEmpty ∨ dTack d = 0 ∨ dTackHost d then []
  else
    let v := (s.devRead (dTack d) 256).voids
    if v.any id then v else []

/-! ## Scratchpad addresses of COPY (R365) -/

/-- Core and offset of a scratchpad address. -/
def spCore (a : Nat) : Nat := bits a 48 32
def spOff (a : Nat) : Nat := a % 2 ^ 19

end Sys2Proof.Machine
end

