-- ==== Sys2Proof/Machine/Float.lean ====
section
/-!
DEFINITION. Number formats and their arithmetic: exact dyadic values, rounding to nearest even, FP32 addition and the other operations of
the cells, drains and network nodes (R97, R100, R110, R128 to R133, R150, R243).
-/
namespace Sys2Proof.Machine

/-! ## Exact values -/

/-- The exact value `n × 2^e`. -/
structure Dy where
  n : Int
  e : Int
  deriving DecidableEq, Repr

/-- The integer `n × 2^k`. -/
def shl (n : Int) (k : Nat) : Int := n * (2 ^ k : Nat)

/-- Two values over one exponent. -/
def Dy.align (a b : Dy) : Int × Int × Int :=
  let e := min a.e b.e
  (shl a.n (a.e - e).toNat, shl b.n (b.e - e).toNat, e)

def Dy.add (a b : Dy) : Dy :=
  let x := a.align b
  ⟨x.1 + x.2.1, x.2.2⟩

def Dy.mul (a b : Dy) : Dy := ⟨a.n * b.n, a.e + b.e⟩
def Dy.neg (a : Dy) : Dy := ⟨-a.n, a.e⟩
def Dy.abs (a : Dy) : Dy := ⟨a.n.natAbs, a.e⟩

def Dy.lt (a b : Dy) : Bool :=
  let x := a.align b
  decide (x.1 < x.2.1)

def Dy.le (a b : Dy) : Bool := !b.lt a

/-! ## Rounding -/

/-- `num / den` to the nearest integer, ties to even. -/
def rneDiv (num den : Nat) : Nat :=
  let q := num / den
  let r := num % den
  if 2 * r < den then q else if den < 2 * r then q + 1 else q + q % 2

/-- floor(log2(num / den)) of a positive rational. -/
def log2Ratio (num den : Nat) : Int :=
  let l : Int := (Nat.log2 num : Int) - (Nat.log2 den : Int)
  let ok : Bool := if 0 ≤ l then decide (den * 2 ^ l.toNat ≤ num) else decide (den ≤ num * 2 ^ (-l).toNat)
  if ok then l else l - 1

/-- A binary format: bits of significand, the exponent of the subnormal grid, exponent bits, and the code of its largest finite
magnitude. -/
structure Fmt where
  p      : Nat
  grid   : Int
  maxMag : Nat
  deriving DecidableEq, Repr

def fmt32 : Fmt := ⟨24, -149, 0x7F7FFFFF⟩
def fmtBf16 : Fmt := ⟨8, -133, 0x7F7F⟩
def fmtF16 : Fmt := ⟨11, -24, 0x7BFF⟩
def fmtE4M3 : Fmt := ⟨4, -9, 0x7E⟩
def fmtE5M2 : Fmt := ⟨3, -16, 0x7B⟩

/-- The magnitude code of a positive rational in a format, ties to even; it may lie past the largest finite one. -/
def Fmt.roundRatio (f : Fmt) (num den : Nat) : Nat :=
  if num = 0 then 0
  else
    let q := max (log2Ratio num den - (f.p - 1 : Nat)) f.grid
    let m := if 0 ≤ q then rneDiv num (den * 2 ^ q.toNat) else rneDiv (num * 2 ^ (-q).toNat) den
    (q - f.grid).toNat * 2 ^ (f.p - 1) + m

/-- The magnitude code of a value in a format. -/
def Fmt.round (f : Fmt) (x : Dy) : Nat :=
  if 0 ≤ x.e then f.roundRatio (x.n.natAbs * 2 ^ x.e.toNat) 1 else f.roundRatio x.n.natAbs (2 ^ (-x.e).toNat)

/-- The magnitude of a code, a NaN or an infinity read as a number past the largest finite one. -/
def Fmt.value (f : Fmt) (mag : Nat) : Dy :=
  let ex := mag / 2 ^ (f.p - 1)
  let fr := mag % 2 ^ (f.p - 1)
  if ex = 0 then ⟨fr, f.grid⟩ else ⟨(fr + 2 ^ (f.p - 1) : Nat), f.grid + (ex - 1 : Nat)⟩

/-- The sign bit of an FP32 word at a magnitude. -/
def signed32 (neg : Bool) (mag : Nat) : Nat := mag + if neg then 2 ^ 31 else 0

/-- The exact value of a finite FP32 word. -/
def val32 (v : Nat) : Dy :=
  let m := fmt32.value (mag32 v)
  if neg32 v then m.neg else m

/-- The canonical NaN of FP32. -/
def nan32 : Nat := 0x7FC00000

def one32 : Nat := 0x3F800000

/-! ## FP32 operations -/

/-- A result with what it sets: SAT and NAN. -/
structure Res where
  v   : Nat
  sat : Bool
  nan : Bool
  deriving DecidableEq, Repr

/-- A value rounded to FP32: where its exact magnitude exceeds the largest finite value it takes that value and sets SAT (R129, R133, R144).
`negZero` is the sign of an exact zero. -/
def round32 (x : Dy) (negZero : Bool) : Res :=
  if x.n = 0 then ⟨signed32 negZero 0, false, false⟩
  else if (fmt32.value fmt32.maxMag).lt x.abs then ⟨signed32 (decide (x.n < 0)) fmt32.maxMag, true, false⟩
  else ⟨signed32 (decide (x.n < 0)) (fmt32.round x), false, false⟩

/-- FP32 addition, ties to even (R133, R150). -/
def fadd (a b : Nat) : Res :=
  if isNan32 a || isNan32 b then ⟨nan32, false, true⟩
  else if isInf32 a && isInf32 b && neg32 a != neg32 b then ⟨Config.infDiff a b % 2 ^ 32, false, false⟩
  else if isInf32 a then ⟨signed32 (neg32 a) fmt32.maxMag, true, false⟩
  else if isInf32 b then ⟨signed32 (neg32 b) fmt32.maxMag, true, false⟩
  else round32 ((val32 a).add (val32 b)) (neg32 a && neg32 b)

/-- FP32 multiplication of finite or NaN words, ties to even. -/
def fmul (a b : Nat) : Res :=
  if isNan32 a || isNan32 b then ⟨nan32, false, true⟩
  else round32 ((val32 a).mul (val32 b)) (neg32 a != neg32 b)

/-- FP32 quotient of two positive finite words; past the largest finite value it takes that value, below the subnormal range +0 (R110). -/
def fdivPos (a b : Nat) : Nat :=
  let x := val32 a
  let y := val32 b
  if y.n = 0 then fmt32.maxMag
  else
    let d := x.e - y.e
    let num := x.n.natAbs * 2 ^ d.toNat
    let den := y.n.natAbs * 2 ^ (-d).toNat
    if num * 2 ^ 149 < den then 0 else min (fmt32.roundRatio num den) fmt32.maxMag

/-- An integer rounded to FP32 (R122). -/
def ofInt32 (n : Int) : Nat := (round32 ⟨n, 0⟩ false).v

/-- FP32 numeric order, both words finite: `a < b`. -/
def flt (a b : Nat) : Bool := decide (key32 a < key32 b)

/-- The sum of the running sum and a chunk result, rounded stochastically with a 16-bit draw (R131). -/
def srAdd (a b u : Nat) : Res :=
  if isNan32 a || isNan32 b then ⟨nan32, false, true⟩
  else
    let x := (val32 a).add (val32 b)
    if x.n = 0 then ⟨signed32 (neg32 a && neg32 b) 0, false, false⟩
    else
      let neg := decide (x.n < 0)
      let mag := x.abs
      if (fmt32.value fmt32.maxMag).lt mag then ⟨signed32 neg fmt32.maxMag, true, false⟩
      else
        -- magnitude in units of 2^-149, which every FP32 sum is a multiple of
        let n := mag.n.natAbs * 2 ^ (mag.e + 149).toNat
        let q := Nat.log2 n - 23
        let t := n / 2 ^ q
        let r := n % 2 ^ q
        let code := q * 2 ^ 23 + t
        if r = 0 then ⟨signed32 neg code, false, false⟩
        else if u < r * 65536 / 2 ^ q then
          if fmt32.maxMag < code + 1 then ⟨signed32 neg fmt32.maxMag, true, false⟩ else ⟨signed32 neg (code + 1), false, false⟩
        else ⟨signed32 neg code, false, false⟩

/-! ## Operand elements (R97, R100) -/

/-- An element of a float format widened to FP32: infinities become the largest finite value of the format, NaNs the canonical NaN. -/
def widen (f : Fmt) (expBits : Nat) (hasInf : Bool) (c : Nat) : Res :=
  let w := expBits + f.p
  let mag := c % 2 ^ (w - 1)
  let neg := bit c (w - 1)
  if mag ≤ f.maxMag then
    let x := f.value mag
    ⟨signed32 neg (fmt32.round x), false, false⟩
  else if hasInf && mag == f.maxMag + 1 then ⟨signed32 neg (fmt32.round (f.value f.maxMag)), true, false⟩
  else ⟨nan32, false, true⟩

/-- An element of a float format code (R97) as FP32. -/
def floatElem (fmt c : Nat) : Res :=
  if fmt = 6 then widen fmtE4M3 4 false c
  else if fmt = 7 then widen fmtE5M2 5 true c
  else if fmt = 8 then widen fmtBf16 8 true c
  else if fmt = 9 then widen fmtF16 5 true c
  else if isNan32 c then ⟨nan32, false, true⟩
  else if isInf32 c then ⟨signed32 (neg32 c) fmt32.maxMag, true, false⟩
  else ⟨c, false, false⟩

/-- An element of an integer format code. -/
def intElem (fmt c : Nat) : Int :=
  if fmt = 0 then signed 4 c else if fmt = 1 then (c % 16 : Nat) else if fmt = 2 then signed 8 c else (c % 256 : Nat)

/-! ## Network nodes (R148, R150, R243) -/

/-- The idle flit: VALID 0 and all other bits 0 (R236). -/
def idleFlit : Flit := ⟨zeros 16, false, false, false, false, false, false, 0⟩

/-- A flit that carries data, and the SAT and NAN flags of its partial. -/
def dataFlit (data : Bytes) (sat nan : Bool) : Flit := { idleFlit with data := data, valid := true, sat := sat, nan := nan }

/-- A void flit, with the flags that travel with it. -/
def voidWith (sat nan poison : Bool) : Flit := { idleFlit with valid := true, void := true, sat := sat, nan := nan, poison := poison }

/-- A void flit without flags. -/
def voidFlit : Flit := voidWith false false false

/-- Sideband bits [13:0] (R236). -/
def Flit.side (f : Flit) : Nat :=
  let b (x : Bool) (i : Nat) : Nat := if x then 2 ^ i else 0
  b f.valid 0 + b f.void 1 + b f.sat 2 + b f.nan 3 + b f.spec 4 + b f.poison 5 + f.member % 64 * 64

/-- Ones of a number below `2 ^ w`, modulo 2. -/
def parityOf (w v : Nat) : Nat := ((upto w).filter (fun i => bit v i)).length % 2

/-- The 16 sideband bits (R236): even parity over data [63:0] with sideband [13:0], and over data [127:64]. -/
def Flit.sideband (f : Flit) : Nat :=
  let v := ofBytes f.data
  f.side + (parityOf 64 (v % 2 ^ 64) + parityOf 14 f.side) % 2 * 2 ^ 14 + parityOf 64 (v / 2 ^ 64) * 2 ^ 15

/-- INT32 addition clamped to ±(2^31 − 1) (R127, R150). -/
def iaddSat (a b : Int) : Int × Bool :=
  let m : Int := 2147483647
  let s := a + b
  if m < s then (m, true) else if s < -m then (-m, true) else (s, false)

/-- Lane `i` of four bytes. -/
def lane32 (bs : Bytes) (i : Nat) : Nat := fld bs (4 * i) 4

/-- FADD of two flits. -/
def faddFlit (a b : Flit) : Flit :=
  let rs := (upto 4).map (fun i => fadd (lane32 a.data i) (lane32 b.data i))
  dataFlit ((rs.map (fun r => toBytes 4 r.v)).flatten) (rs.any Res.sat) (rs.any Res.nan)

/-- IADD32 of two flits. -/
def iadd32Flit (a b : Flit) : Flit :=
  let rs := (upto 4).map (fun i => iaddSat (signed 32 (lane32 a.data i)) (signed 32 (lane32 b.data i)))
  dataFlit ((rs.map (fun r => toBytes 4 (unsigned 32 r.1))).flatten) (rs.any Prod.snd) false

/-- A lane of IADD64: exact, or a free value where the sum leaves INT64. -/
def iadd64 (a b : Int) : Nat :=
  if -(2 ^ 63 : Int) ≤ a + b ∧ a + b < 2 ^ 63 then unsigned 64 (a + b) else Config.wideSum a b % 2 ^ 64

/-- IADD64 of two flits. -/
def iadd64Flit (a b : Flit) : Flit :=
  dataFlit (((upto 2).map (fun i => toBytes 8 (iadd64 (signed 64 (fld a.data (8 * i) 8)) (signed 64 (fld b.data (8 * i) 8))))).flatten) false false

/-- MAXMIN of two lanes: a NaN lane yields the other operand. -/
def maxMin (big : Bool) (a b : Nat) : Nat :=
  if isNan32 a then b else if isNan32 b then a else if big then (if key32 a < key32 b then b else a) else (if key32 b < key32 a then b else a)

/-- MAXMIN of two flits: lanes 0, 2 and 3 keep the larger, lane 1 the smaller. -/
def maxMinFlit (a b : Flit) : Flit :=
  dataFlit (((upto 4).map (fun i => toBytes 4 (maxMin (i != 1) (lane32 a.data i) (lane32 b.data i)))).flatten) false false

/-- A flit cannot enter an operation other than SELECT: it is idle or void (R243). -/
def Flit.gap (f : Flit) : Bool := !f.valid || f.void

/-- A result with the flags of its operands (R243): SAT and NAN are the OR of theirs and its own, POISON the OR of theirs. -/
def Flit.along (x a b : Flit) : Flit :=
  { x with sat := x.sat || a.sat || b.sat, nan := x.nan || a.nan || b.nan, poison := a.poison || b.poison }

/-- Two operands of a node under an operation other than TOPK (R243): SELECT passes the valid one, and two valid ones give VOID; elsewhere an
idle or void operand gives VOID. -/
def nodeFlit (op : Nat) (a b : Flit) : Flit :=
  if op = 7 then (if a.valid && b.valid then voidFlit.along a b else if a.valid then a else b)
  else if a.gap || b.gap then voidFlit.along a b
  else if op = 1 then (faddFlit a b).along a b
  else if op = 2 then (iadd32Flit a b).along a b
  else if op = 3 then (iadd64Flit a b).along a b
  else if op = 6 then (maxMinFlit a b).along a b
  else voidFlit.along a b

/-- A top-k candidate: its FP32 value and index (R147, R148). -/
abbrev Cand := Nat × Nat

/-- The padding of a short result. -/
def padCand : Cand := (nan32, 0xFFFFFFFF)

/-- Candidate `a` comes before `b`: numerically, equal values by the lower index. -/
def candBefore (smallest : Bool) (a b : Cand) : Bool :=
  if key32 a.1 = key32 b.1 then decide (a.2 ≤ b.2) else if smallest then decide (key32 a.1 < key32 b.1) else decide (key32 b.1 < key32 a.1)

/-- The `k` best of a list of candidates, NaNs left out, padded. -/
def topK (k : Nat) (smallest : Bool) (cs : List Cand) : List Cand :=
  let ok := ((cs.filter (fun c => !isNan32 c.1)).mergeSort (candBefore smallest)).take k
  ok ++ List.replicate (k - ok.length) padCand

/-- The candidates that a run of flits holds. -/
def flitCands (fs : List Flit) : List Cand := fs.flatMap (fun f => [(lane32 f.data 0, lane32 f.data 1), (lane32 f.data 2, lane32 f.data 3)])

/-- Candidates as flits, two each. -/
def candFlits : List Cand → List Flit
  | a :: b :: rest => dataFlit (toBytes 4 a.1 ++ toBytes 4 a.2 ++ toBytes 4 b.1 ++ toBytes 4 b.2) false false :: candFlits rest
  | [a] => [dataFlit (toBytes 4 a.1 ++ toBytes 4 a.2 ++ toBytes 4 padCand.1 ++ toBytes 4 padCand.2) false false]
  | [] => []

/-- An operation of a node; k and the order are those of TOPK (R242, R243). -/
structure NodeOp where
  op       : Nat
  k        : Nat
  smallest : Bool
  deriving DecidableEq, Repr

/-- What a node met: idle operands under an operation other than SELECT, and pairs of valid operands under SELECT (R243, R262). -/
structure NodeCount where
  empty   : Nat
  collide : Nat
  deriving DecidableEq, Repr

def NodeCount.add (a b : NodeCount) : NodeCount := ⟨a.empty + b.empty, a.collide + b.collide⟩

/-- The count of one pair of operands. -/
def nodeCount (op : Nat) (a b : Flit) : NodeCount :=
  if op = 7 then ⟨0, if a.valid && b.valid then 1 else 0⟩
  else ⟨(if a.valid then 0 else 1) + (if b.valid then 0 else 1), 0⟩

/-- One TOPK merge (R148, R243): ceil(k/2) flits of each operand give ceil(k/2); a void or idle one among them voids the result. -/
def topkMerge (o : NodeOp) (as bs : List Flit) : List Flit :=
  let all := as ++ bs
  let along (f : Flit) : Flit := { f with sat := all.any Flit.sat, nan := all.any Flit.nan, poison := all.any Flit.poison }
  if all.any Flit.gap then as.map (fun _ => along voidFlit)
  else ((candFlits (topK o.k o.smallest (flitCands all))).take as.length).map along

/-- Two runs of flits through a TOPK node, merge after merge; `fuel` bounds the merges. -/
def topkRun (o : NodeOp) : Nat → List Flit → List Flit → List Flit
  | 0, _, _ => []
  | fuel + 1, as, bs =>
    if as.isEmpty then []
    else
      let m := (o.k + 1) / 2
      topkMerge o (as.take m) (bs.take m) ++ topkRun o fuel (as.drop m) (bs.drop m)

/-- Two runs of flits through a node, the first child's first, and what the node met; the shorter run goes on as idle flits. -/
def nodeRun (o : NodeOp) (as bs : List Flit) : List Flit × NodeCount :=
  let n := max as.length bs.length
  let fill (xs : List Flit) : List Flit := xs ++ List.replicate (n - xs.length) idleFlit
  let ps := (fill as).zip (fill bs)
  (if o.op = 5 then topkRun o n (fill as) (fill bs) else ps.map (fun x => nodeFlit o.op x.1 x.2),
    (ps.map (fun x => nodeCount o.op x.1 x.2)).foldl NodeCount.add ⟨0, 0⟩)

/-- The children of a node folded in order. -/
def nodeFold (o : NodeOp) (x : List Flit) (xs : List (List Flit)) : List Flit × NodeCount :=
  xs.foldl (fun a y => ((nodeRun o a.1 y).1, a.2.add (nodeRun o a.1 y).2)) (x, ⟨0, 0⟩)

/-- The value of a tree at node `i`: leaves as `leaf` gives them, inner nodes folded in child order under the operation `op` gives them; with it
what each inner node met.  `fuel` bounds the depth. -/
def Tree.reduce (t : Tree) (op : TreeNode → NodeOp) (leaf : Nat → TreeNode → List Flit) : Nat → Nat → List Flit × List (TreeNode × NodeCount)
  | 0, _ => ([], [])
  | fuel + 1, i =>
    match t.nodes[i]? with
    | none => ([], [])
    | some n =>
      let cs := n.children.map (fun c => Tree.reduce t op leaf fuel c)
      let seen := cs.flatMap Prod.snd
      match cs.map Prod.fst with
      | [] => (leaf i n, [])
      | x :: xs => ((nodeFold (op n) x xs).1, (n, (nodeFold (op n) x xs).2) :: seen)

end Sys2Proof.Machine
end

