-- ==== Sys2Proof/Machine/Gumbel.lean ====
section
/-!
DEFINITION. The Gumbel noise of R160: G(u), the FP32 value nearest to −ln(−ln((u + 0.5) / 65,536)), by fixed-point logarithms with 192
fraction bits, which settle the rounding of every one of the 65,536 values.
-/
namespace Sys2Proof.Machine

/-- 1 in fixed point. -/
def fxOne : Nat := 2 ^ 192

/-- The terms z^(2i + 1) / (2i + 1) of atanh from term `i` on: `p` is z^(2i + 1) and `q` is z². -/
def atanhFrom (q : Nat) : Nat → Nat → Nat → Nat
  | 0, _, _ => 0
  | n + 1, i, p => p / (2 * i + 1) + atanhFrom q n (i + 1) (p * q / fxOne)

/-- atanh(num / den) in fixed point, for a ratio of at most a third. -/
def atanhFx (num den : Nat) : Nat :=
  let z := num * fxOne / den
  atanhFrom (z * z / fxOne) 64 0 z

/-- ln 2 in fixed point. -/
def ln2Fx : Nat := 2 * atanhFx 1 3

/-- ln(num / den) of a positive ratio, in fixed point: k ln 2 + ln m, the ratio being m × 2^k with m from 1 to 2. -/
def lnFx (num den : Nat) : Int :=
  let k := log2Ratio num den
  let n := num * 2 ^ (-k).toNat
  let d := den * 2 ^ k.toNat
  k * ln2Fx + 2 * atanhFx (n - d) (n + d)

/-- G(u) as an FP32 word (R160). -/
def gumbel (u : Nat) : Nat :=
  let w := (-lnFx (2 * u + 1) 131072).toNat
  (round32 ⟨-lnFx w fxOne, -192⟩ false).v

end Sys2Proof.Machine
end

