-- ==== Sys2Proof/Machine/Lattice.lean ====
section
/-!
DEFINITION. The spin lattice (chapters 06 and 07): directions, neighbours and seams, the anneal control block and restart table, the paddock,
and the checks of R176.
-/
namespace Sys2Proof.Machine

/-! ## Directions and neighbours (R153) -/

/-- The row step of direction `d`: 0 N, 1 NE, 2 E, 3 SE, 4 S, 5 SW, 6 W, 7 NW. -/
def dirRow (d : Nat) : Int := if d = 7 ∨ d ≤ 1 then -1 else if 3 ≤ d ∧ d ≤ 5 then 1 else 0

/-- The column step of direction `d`. -/
def dirCol (d : Nat) : Int := if 1 ≤ d ∧ d ≤ 3 then 1 else if 5 ≤ d then -1 else 0

/-- The direction back from a neighbour in direction `d`. -/
def dirBack (d : Nat) : Nat := (d + 4) % 8

/-- The direction is an edge, not a corner. -/
def dirEdge (d : Nat) : Bool := d % 2 == 0

/-- Where a neighbour lies: a spin of the same core, or one of the adjacent core in direction `dir`. -/
inductive Nb where
  | own (j : Nat)
  | other (dir j : Nat)
  deriving DecidableEq, Repr

/-- Which side of 0 to 15 a row or column falls on. -/
def side16 (v : Int) : Int := if v < 0 then -1 else if 15 < v then 1 else 0

/-- The direction with the given steps. -/
def dirOf (r c : Int) : Nat := ((upto 8).find? (fun d => dirRow d == r && dirCol d == c)).getD 8

/-- The neighbour of spin `k` in direction `d`. -/
def nb (k d : Nat) : Nb :=
  let i := (k / 16 : Nat) + dirRow d
  let j := (k % 16 : Nat) + dirCol d
  let n := (i % 16).toNat * 16 + (j % 16).toNat
  if side16 i = 0 ∧ side16 j = 0 then .own n else .other (dirOf (side16 i) (side16 j)) n

/-- The spins of a core's edge or corner that faces direction `d`, in row or column order. -/
def edgeOf (d : Nat) : List Nat :=
  if d = 0 then upto 16
  else if d = 2 then (upto 16).map (fun i => 16 * i + 15)
  else if d = 4 then (upto 16).map (fun j => 240 + j)
  else if d = 6 then (upto 16).map (fun i => 16 * i)
  else if d = 1 then [15] else if d = 3 then [255] else if d = 5 then [240] else [0]

/-- The first of the 68 places of the boundary buffer that hold spins from direction `d`: direction by direction, rows and columns in their
order (DESIGN CHOICE, log entry 27). -/
def bndBase (d : Nat) : Nat := d / 2 * 17 + d % 2 * 16

/-- The place of spin `j` of the adjacent core in direction `d`. -/
def bndPos (d j : Nat) : Nat := bndBase d + if d = 0 ∨ d = 4 then j % 16 else if dirEdge d then j / 16 else 0

/-- The spins of an edge as a flit carries them, bit `i` for spin `i` of the edge (R182). -/
def edgeBits (plane : BitVec 256) (d : Nat) : Nat :=
  ((edgeOf d).mapIdx (fun i k => b2n (plane.getLsbD k) * 2 ^ i)).foldl (· + ·) 0

/-- A spin as ±1. -/
def spinVal (b : Bool) : Int := if b then 1 else -1

/-! ## The anneal control block and the restart table (R169, R174) -/

def acP (a : Bytes) : Nat := fld a 0 1
def acF (a : Bytes) : Nat := fld a 1 1
def acStay (a : Bytes) : Bool := bit (fld a 2 1) 0
def acPexp (a : Bytes) : Bool := bit (fld a 2 1) 1
def acKeep (a : Bytes) : Bool := bit (fld a 2 1) 2
def acInexact (a : Bytes) : Bool := bit (fld a 2 1) 3
def acEntries (a : Bytes) : Nat := fld a 3 1
def acX (a : Bytes) : Nat := fld a 4 2
def acY (a : Bytes) : Nat := fld a 6 2
def acW (a : Bytes) : Nat := fld a 8 2
def acH (a : Bytes) : Nat := fld a 0x0A 2
def acStop (a : Bytes) : Nat := fld a 0x0C 4
def acTable (a : Bytes) : Nat := fld a 0x10 8
def acResult (a : Bytes) : Nat := fld a 0x18 8
def acSnap (a : Bytes) : Nat := fld a 0x20 8
def acCtx (a : Bytes) : Nat := fld a 0x28 4

/-- The fields and bounds of an anneal control block (R174), in layout order. -/
def acbCheck (a : Bytes) : Option Fail :=
  let bad (o : Nat) := badFormat obControl o
  firstOf
    [ chk (8 ≤ acP a ∧ acP a ≤ 64) (bad 0),
      chk (1 ≤ acF a ∧ acF a ≤ acP a) (bad 1),
      chk (fld a 2 1 < 16) (bad 2),
      chk (1 ≤ acEntries a ∧ acEntries a ≤ 64) (bad 3),
      chk (1 ≤ acW a) (bad 8),
      chk (1 ≤ acH a) (bad 0x0A),
      chk (acStop a % 2 = 0) (bad 0x0C),
      chk (acTable a % 16 = 0) (bad 0x10),
      chk (acResult a % 64 = 0) (bad 0x18),
      chk (acSnap a % 4096 = 0) (bad 0x20),
      chk (acCtx a % 16 = 0 ∧ acCtx a + 128 ≤ spadBytes) (bad 0x28),
      chkZero obControl a 0x2C 20 ]

/-- An entry of a restart table (R169). -/
structure Restart where
  beta   : Nat
  phases : Nat
  rerand : Nat
  start  : Nat
  deriving DecidableEq, Repr

/-- Entry `i` of a restart table. -/
def restartAt (t : Bytes) (i : Nat) : Restart := ⟨fld t (16 * i) 4, fld t (16 * i + 4) 2, fld t (16 * i + 6) 1, fld t (16 * i + 7) 1⟩

/-- The first `n` entries of a restart table. -/
def restarts (t : Bytes) (n : Nat) : List Restart := (upto n).map (restartAt t)

/-- The entries of a restart table (R169). -/
def tableCheck (t : Bytes) (n : Nat) : Option Fail :=
  firstOf ((upto n).flatMap (fun i =>
    let x := restartAt t i
    let bad (o : Nat) := badFormat obTable (16 * i + o)
    [ chk (finite32 x.beta && !neg32 x.beta && x.beta != 0) (bad 0),
      chk (2 ≤ x.phases ∧ x.phases % 2 = 0) (bad 4),
      chk (x.start ≤ 2) (bad 7),
      chkZero obTable t (16 * i + 8) 8 ]))

/-! ## The paddock (R158) -/

/-- The rectangle of logical cores lies in engine `e` (R158, R191). -/
def State.padInside (s : State) (e x y w h : Nat) : Bool :=
  match s.engEntry e with
  | none => false
  | some g =>
    let l := s.logical
    let x0 := if g.kind = 0 then 2 * g.x0 * l else g.x0 * l
    let n := if g.kind = 0 then 2 * g.w * l else g.w * l
    decide (x0 ≤ x) && decide (x + w ≤ x0 + n) && decide (g.y0 * 64 ≤ y) && decide (y + h ≤ g.y0 * 64 + g.h * 64)

/-- The logical core indexes of a rectangle in row-major order. -/
def State.padIdx (s : State) (x y w h : Nat) : List Nat :=
  (upto h).flatMap (fun v => (upto w).map (fun u => (y + v) * 8 * s.logical + x + u))

/-- A rectangle of logical cores. -/
structure Rect where
  x : Nat
  y : Nat
  w : Nat
  h : Nat
  deriving DecidableEq, Repr

def acRect (a : Bytes) : Rect := ⟨acX a, acY a, acW a, acH a⟩

def Rect.idx (r : Rect) (s : State) : List Nat := s.padIdx r.x r.y r.w r.h

/-- The exchange latency L between cores of two halves (R165). -/
def seamLatency (a b : Nat) (edge : Bool) : Nat :=
  if a = b then (if edge then 1 else 2)
  else
    let across := halfCol a / 2 != halfCol b / 2
    let down := halfRow a != halfRow b
    let stitch := !across && a % 2 != b % 2
    if edge then (if across || down then 16 else 4)
    else if across && down then 32
    else if across || down then (if stitch then 20 else 17)
    else 5

/-- The yard halves of a rectangle's cores and the paths between adjacent cores of it: latency and whether it is an edge. -/
def State.padPaths (s : State) (x y w h : Nat) : List (Nat × Bool) :=
  let half (u v : Nat) : Nat := halfAt (u / s.logical) (v / 64)
  (upto h).flatMap (fun v => (upto w).flatMap (fun u =>
    (upto 8).filterMap (fun d =>
      let u1 : Int := Int.ofNat u + dirCol d
      let v1 : Int := Int.ofNat v + dirRow d
      let far := half (x + u1.toNat) (y + v1.toNat)
      if 0 ≤ u1 ∧ u1 < Int.ofNat w ∧ 0 ≤ v1 ∧ v1 < Int.ofNat h then
        some (seamLatency (half (x + u) (y + v)) far (dirEdge d), dirEdge d)
      else none)))

/-- Exponent `x` is present (R171): its core is not haltered and holds a nonzero mantissa. -/
def Core.present (c : Core) : Bool := c.halter.isNone && (c.spin.coup != 0 || c.spin.field != 0)

/-- The present exponents of a rectangle. -/
def State.padExps (s : State) (cs : List Nat) : List Nat :=
  (cs.filter (fun i => (s.core (coreNum (s.coreAt i))).present)).map (fun i => (s.core (coreNum (s.coreAt i))).spin.exp)

/-- The finest exponent present, x_f (R171): a free value where none is (log entry 1). -/
def finest (xs : List Nat) : Nat := (minBy id xs).getD (Config.noExponent % 32)

/-- The exponent span (R172) and the equality that PEXP asks for (R157, R176). -/
def expCheck (pexp : Bool) (xs : List Nat) : Option Fail :=
  let lo := (minBy id xs).getD 0
  let hi := xs.foldl max 0
  firstOf
    [ chk (hi ≤ lo + 22) (badFormat obControl noField),
      chk (!pexp ∨ hi = lo ∨ xs.isEmpty) (badFormat obControl 2) ]

/-- The seams are exact (R166). -/
def State.seamExact (s : State) (a : Bytes) : Bool :=
  (s.padPaths (acX a) (acY a) (acW a) (acH a)).all (fun p => decide (acF a - 1 + p.1 ≤ if p.2 then acP a else 2 * acP a))

/-! ## The checks of R176 -/

/-- The first three checks: control block and restart table, paddock, translation.  A table that does not translate is met there. -/
def State.annealHead (s : State) (e : Nat) (a : Bytes) : Option Fail :=
  let n := 16 * acEntries a
  let t := s.devBytes (acTable a) n
  firstOf
    [ acbCheck a,
      (if (s.chkReads (acTable a) n).isNone then tableCheck t (acEntries a) else none),
      chk (s.padInside e (acX a) (acY a) (acW a) (acH a)) (badFormat obControl 4),
      s.chkReads (acTable a) n,
      s.chkWrites (acResult a) 64 ]

/-- The exponent checks and those of R166 and R175, over the present exponents. -/
def State.annealTail (s : State) (e : Nat) (a : Bytes) (xs : List Nat) : Option Fail :=
  firstOf
    [ expCheck (acPexp a) xs,
      chk (acInexact a || !s.engAligned e || s.seamExact a) (badFormat obControl 0),
      chk (!acKeep a || fld (s.devBytes (acResult a) 64) 8 1 == finest xs) (badFormat obResult 8) ]

/-- The control block of a schedule object, by its header (R350). -/
def State.ctrlOf (s : State) (h : Bytes) : Bytes := s.devBytes (soCtrl h) 64

/-- CTRL_ADDR is given (R350). -/
def hasCtrl (h : Bytes) : Option Fail := chk (soCtrl h ≠ 0) (badFormat obSched 0x48)

/-- The checks of R176 that come before the command seed: control block, paddock and translation, `n` bytes of the snapshot area with them. -/
def State.preSeed (s : State) (e : Nat) (h : Bytes) (n : Nat) : Option Fail :=
  firstOf [hasCtrl h, s.annealHead e (s.ctrlOf h), s.chkReads (acSnap (s.ctrlOf h)) n]

/-- ANNEAL (R176). -/
def State.annealCheck (s : State) (e : Nat) (h : Bytes) : Option Fail :=
  let a := s.ctrlOf h
  let xs := s.padExps (s.padIdx (acX a) (acY a) (acW a) (acH a))
  firstOf [s.preSeed e h 1, s.annealTail e a xs]

/-- Bytes of a snapshot (R181). -/
def snapBytes (a : Bytes) : Nat := 4096 * (1 + acW a * acH a)

/-- SNAPSHOT (R180): the checks of R176 on its control block and paddock, and that the snapshot area can be written; one that stopped a ROTATE
writes no area (R201). -/
def State.snapshotCheck (s : State) (e : Nat) (h : Bytes) (noArea : Bool) : Option Fail :=
  let a := s.ctrlOf h
  firstOf
    [ hasCtrl h, acbCheck a, chk (s.padInside e (acX a) (acY a) (acW a) (acH a)) (badFormat obControl 4),
      if noArea then none else s.chkWrites (acSnap a) (snapBytes a) ]

/-- The present exponents of the records of a snapshot, of the cores that are not haltered (R182, R183). -/
def State.snapExps (s : State) (a : Bytes) : List Nat :=
  (indexed (s.padIdx (acX a) (acY a) (acW a) (acH a))).filterMap (fun x =>
    let r := s.devBytes (acSnap a + 4096 * (1 + x.1)) 4096
    if (s.core (coreNum (s.coreAt x.2))).halter.isNone && !(rsv r 0x40 512 && rsv r 0x240 3072) then some (fld r 0xE40 1 % 32) else none)

/-- RESUME against its snapshot (R183). -/
def State.snapMatch (s : State) (a : Bytes) : Option Fail :=
  let h := s.devBytes (acSnap a) 4096
  let bad (o : Nat) := badFormat obSnapshot o
  let same (off n : Nat) : Option Fail := chk (fld h (0x10 + off) n = fld a off n) (bad (0x10 + off))
  let n := 16 * acEntries a
  firstOf
    [ chk (fld h 0 4 = 0x4E535053) (bad 0),
      chk (fld h 4 1 = s.pwr.grade) (bad 4),
      chk (fld h 6 1 ≤ 1) (bad 6),
      same 0 1, same 1 1, same 2 1, same 3 1, same 4 2, same 6 2, same 8 2, same 0x0A 2,
      chk (fld h 0x100 n = ofBytes (s.devBytes (acTable a) n)) (bad 0x100) ]

/-- RESUME (R176, R183). -/
def State.resumeCheck (s : State) (e : Nat) (h : Bytes) : Option Fail :=
  let a := s.ctrlOf h
  firstOf [s.preSeed e h (snapBytes a), s.annealTail e a (s.snapExps a), s.snapMatch a]

/-! ## Rotation (R194 to R196) -/

def rcPages (r : Bytes) : Nat := fld r 0 8
def rcW (r : Bytes) : Nat := fld r 8 2
def rcH (r : Bytes) : Nat := fld r 0x0A 2
def rcWins (r : Bytes) : Nat := fld r 0x0C 2
def rcPasses (r : Bytes) : Nat := fld r 0x0E 2
def rcTable (r : Bytes) : Nat := fld r 0x10 8
def rcVisit (r : Bytes) : Nat := fld r 0x18 2
def rcPass (r : Bytes) : Nat := fld r 0x1A 2
def rcCurrent (r : Bytes) : Bool := bit (fld r 0x1C 1) 0

/-- The fields and bounds of a rotation control block (R194). -/
def rcbCheck (r : Bytes) : Option Fail :=
  let bad (o : Nat) := badFormat obControl o
  firstOf
    [ chk (rcPages r % 4096 = 0) (bad 0),
      chk (1 ≤ rcW r) (bad 8),
      chk (1 ≤ rcH r ∧ rcW r * rcH r ≤ 2 ^ 24) (bad 0x0A),
      chk (1 ≤ rcWins r ∧ rcWins r ≤ 4096) (bad 0x0C),
      chk (1 ≤ rcPasses r) (bad 0x0E),
      chk (rcTable r % 8 = 0) (bad 0x10),
      chk (rcVisit r < rcWins r) (bad 0x18),
      chk (rcPass r < rcPasses r) (bad 0x1A),
      chk (fld r 0x1C 1 ≤ 1) (bad 0x1C),
      chkZero obControl r 0x1D 35 ]

/-- The entries of a rotation table (R195). -/
def rotCheck (a r t : Bytes) : Option Fail :=
  firstOf ((upto (rcWins r)).flatMap (fun i =>
    let bad (o : Nat) := badFormat obTable (8 * i + o)
    [ chk (fld t (8 * i) 2 + acW a ≤ rcW r) (bad 0),
      chk (fld t (8 * i + 2) 2 + acH a ≤ rcH r) (bad 2),
      chk (fld t (8 * i + 4) 1 < 64) (bad 4),
      chk (1 ≤ fld t (8 * i + 5) 1 ∧ fld t (8 * i + 4) 1 + fld t (8 * i + 5) 1 ≤ acEntries a) (bad 5),
      chk (fld t (8 * i + 6) 2 = 0) (bad 6) ]))

/-- ROTATE (R176, R196): the exponent checks apply to each visit's pages. -/
def State.rotateCheck (s : State) (e : Nat) (h : Bytes) : Option Fail :=
  let a := s.ctrlOf h
  let aux := soAux h
  let r := s.devBytes aux 64
  firstOf
    [ s.preSeed e h 1,
      chk (acInexact a || !s.engAligned e || s.seamExact a) (badFormat obControl 0),
      chk (aux ≠ 0) (badFormat obSched 0x50),
      rcbCheck r,
      (if (s.chkReads (rcTable r) (8 * rcWins r)).isNone then rotCheck a r (s.devBytes (rcTable r) (8 * rcWins r)) else none),
      chk (acStop a = 0) (badFormat obControl 0x0C),
      chk (!acKeep a) (badFormat obControl 2),
      s.chkWrites (rcPages r) (4096 * rcW r * rcH r),
      s.chkReads (rcTable r) (8 * rcWins r) ]

/-! ## The SPINPACK control block (R189) -/

def spSrcKind (b : Bytes) : Nat := fld b 0 1
def spDstKind (b : Bytes) : Nat := fld b 1 1
def spPexp (b : Bytes) : Bool := bit (fld b 2 1) 0
def spKeep (b : Bytes) : Bool := bit (fld b 2 1) 1
def spRect (b : Bytes) : Rect := ⟨fld b 4 2, fld b 6 2, fld b 8 2, fld b 0x0A 2⟩
def spSrcOff (b : Bytes) : Nat := fld b 0x0C 4
def spSrc (b : Bytes) : Nat := fld b 0x10 8
def spDst (b : Bytes) : Nat := fld b 0x18 8
def spPgW (b : Bytes) : Nat := fld b 0x20 2
def spPgX (b : Bytes) : Nat := fld b 0x22 2
def spPgY (b : Bytes) : Nat := fld b 0x24 2

/-- Bytes of a source tile (R188). -/
def tileSize : Nat := 10240

/-- Either side of the conversion is spin pages. -/
def spPages (b : Bytes) : Bool := spSrcKind b == 2 || spDstKind b == 1

/-- The index of the page of item `i` (R190, R193). -/
def spPage (b : Bytes) (i : Nat) : Nat := (spPgY b + i / (spRect b).w) * spPgW b + spPgX b + i % (spRect b).w

/-- The fields of a SPINPACK control block (R189), in layout order. -/
def spbCheck (b : Bytes) : Option Fail :=
  let bad (o : Nat) := badFormat obControl o
  firstOf
    [ chk (spSrcKind b ≤ 2) (bad 0),
      chk (spDstKind b ≤ 1 ∧ !(spSrcKind b = 2 ∧ spDstKind b = 1)) (bad 1),
      chk (fld b 2 1 < 4 ∧ !(spKeep b = true ∧ spDstKind b = 1)) (bad 2),
      chkZero obControl b 3 1,
      chk (1 ≤ (spRect b).w) (bad 8),
      chk (1 ≤ (spRect b).h) (bad 0x0A),
      chk (spSrcKind b ≠ 1 ∨ spSrcOff b % 16 = 0) (bad 0x0C),
      chk (spSrcKind b = 1 ∨ spSrc b % (if spSrcKind b = 2 then 4096 else 16) = 0) (bad 0x10),
      chk (spDstKind b ≠ 1 ∨ spDst b % 4096 = 0) (bad 0x18),
      chk (!spPages b ∨ 1 ≤ spPgW b) (bad 0x20),
      chk (!spPages b ∨ spPgX b + (spRect b).w ≤ spPgW b) (bad 0x22),
      chkZero obControl b 0x26 10 ]

/-- Bytes of a source tile that a conversion reads: the last 992 are not read, nor SPINS under KEEP_SPINS (R188, R191). -/
def tileRead (b : Bytes) : Nat := 0x2400 + if spKeep b then 0 else 32

/-- The items that convert: their place in the MOVE and their core, left out the haltered ones (R191) and the logical cores that the start marker
reached too early (R86). -/
def State.spItems (s : State) (b : Bytes) (early : List Nat) : List (Nat × Nat) :=
  (((indexed ((spRect b).idx s)).filter (fun x => !early.contains x.2)).map (fun x => (x.1, coreNum (s.coreAt x.2)))).filter
    (fun x => (s.core x.2).halter.isNone)

/-- The ranges of every item that converts translate (R190, R191, R327). -/
def State.spRanges (s : State) (b : Bytes) : Option Fail :=
  firstOf ((s.spItems b []).flatMap (fun x =>
    [ (if spSrcKind b = 0 then s.chkReads (spSrc b + tileSize * x.1) (tileRead b)
       else if spSrcKind b = 2 then s.chkReads (spSrc b + 4096 * spPage b x.1) 4096 else none),
      if spDstKind b = 1 then s.chkWrites (spDst b + 4096 * spPage b x.1) 4096 else none ]))

/-- MOVE with SPINPACK (R189, R191). -/
def State.spinpackCheck (s : State) (e : Nat) (d : Bytes) : Option Fail :=
  let a := fld d 0x28 8
  let b := s.devBytes a 48
  firstOf
    [ chk (a % 16 = 0) (badFormat obDesc 0x28),
      s.chkReads a 48,
      spbCheck b,
      chk (s.padInside e (spRect b).x (spRect b).y (spRect b).w (spRect b).h) (badFormat obControl 4),
      s.spRanges b ]

end Sys2Proof.Machine
end

