-- ==== Sys2Proof/Machine/Anneal.lean ====
section
/-!
DEFINITION. The lattice annealer over a paddock (R153 to R173): ΔE, Gumbel steps, seam flits, restart entries, exact energy and capture.
Time inside an entry is counted in yclk of each clock group: all halves of a lockstep paddock form one group, a half of a free paddock is a
group of its own.
-/
namespace Sys2Proof.Machine

/-! ## A core of the paddock -/

/-- A core during a run. -/
structure ACore where
  num    : Nat                    -- physical core number
  idx    : Nat                    -- logical core index, for the generator
  half   : Nat
  grp    : Nat                    -- clock group
  odd    : Bool                   -- checkerboard parity (R163)
  halted : Bool                   -- it takes no part in the spins (R93)
  idle   : Bool                   -- although it has no halter: its start marker came early (R86), or it has loaded a void word (R293)
  downAt : Option Nat             -- the yclk of the entry from which a halter set during the run fences it (R94)
  stopAt : Option Nat             -- the yclk of the entry in which a kill reaches it (R178)
  nbs    : List (Option Nat)      -- by direction: the adjacent core's place in the paddock
  coup   : List (List Int)        -- by spin, by direction
  field  : List Int
  exp    : Nat
  plane  : BitVec 256
  best   : BitVec 256
  dE     : List Int
  bnd    : BitVec 68
  gen    : List GenPos            -- streams 0x01, 0x02 and 0x03
  betaC  : Nat
  base   : BitVec 256             -- the plane when the phases of this entry began
  ends   : List (Nat × BitVec 256) -- the planes at the ends of its last active phases, newest first
  ctxPlane : BitVec 256           -- R179: the plane and the generator at the start of the entry
  ctxGen : List GenPos
  ctxAt  : Option (Nat × Nat)     -- the entry and first phase of the context area that it wrote last in this run
  deriving DecidableEq, Repr

def ACore.pos (c : ACore) (stream : Nat) : GenPos := c.gen.getD (stream - 1) GenPos.reset
def ACore.setPos (c : ACore) (stream : Nat) (p : GenPos) : ACore := { c with gen := c.gen.set (stream - 1) p }

/-- The core makes no step at yclk `t` of the entry: it is haltered, a halter set during the run has reached it (R94), or a kill has (R178). -/
def ACore.still (c : ACore) (t : Nat) : Bool := c.halted || c.downAt.any (fun d => decide (d ≤ t)) || c.stopAt.any (fun d => decide (d ≤ t))

/-- The value of the neighbour of spin `k` in direction `d` as the core has it: 0 outside the paddock (R158). -/
def ACore.seen (c : ACore) (k d : Nat) : Int :=
  match nb k d with
  | .own j => spinVal (c.plane.getLsbD j)
  | .other dir j => if (c.nbs.getD dir none).isSome then spinVal (c.bnd.getLsbD (bndPos dir j)) else 0

/-- The stored coupling of spin `k` in direction `d`. -/
def ACore.j (c : ACore) (k d : Nat) : Int := (c.coup.getD k []).getD d 0

/-- ΔE of spin `k` in full (R153, R159). -/
def ACore.fullDelta (c : ACore) (k : Nat) (h : Int) (js : List Int) : Int :=
  2 * spinVal (c.plane.getLsbD k) * (h + (js.mapIdx (fun d x => if x = 0 then 0 else x * c.seen k d)).foldl (· + ·) 0)

/-- The core with every ΔE computed in full. -/
def ACore.recompute (c : ACore) : ACore := { c with dE := (c.field.zip c.coup).mapIdx (fun k x => c.fullDelta k x.1 x.2) }

/-- Adds to the ΔE of a spin. -/
def addAt (xs : List Int) (k : Nat) (v : Int) : List Int := xs.modify k (· + v)

/-- A bit vector with bit `k` set to `b`. -/
def setBit {w : Nat} (x : BitVec w) (k : Nat) (b : Bool) : BitVec w :=
  if x.getLsbD k = b then x else x ^^^ BitVec.ofNat w (2 ^ k)

/-- A flip of own spin `i` (R159). -/
def ACore.flip (c : ACore) (i : Nat) : ACore :=
  let si := spinVal (c.plane.getLsbD i)
  let d1 := (upto 8).foldl (fun ds d =>
    match nb i d with
    | .own j => addAt ds j (-4 * c.j j (dirBack d) * spinVal (c.plane.getLsbD j) * si)
    | .other _ _ => ds) c.dE
  { c with dE := d1.modify i (fun v => -v), plane := setBit c.plane i (!c.plane.getLsbD i) }

/-- Spin `j` of the adjacent core in direction `dir` changes to `b` (R159). -/
def ACore.outer (c : ACore) (dir j : Nat) (b : Bool) : ACore :=
  let p := bndPos dir j
  let old := c.bnd.getLsbD p
  if old = b then c
  else
    let d1 := (edgeOf dir).foldl (fun ds k => (upto 8).foldl (fun ds d =>
      if nb k d = .other dir j then addAt ds k (-4 * c.j k d * spinVal (c.plane.getLsbD k) * spinVal old) else ds) ds) c.dE
    { c with dE := d1, bnd := setBit c.bnd p b }

/-- A flit from direction `dir` is applied: the spins of the sender's facing edge. -/
def ACore.receive (c : ACore) (dir spins : Nat) : ACore :=
  (edgeOf (dirBack dir)).zipIdx.foldl (fun c x => c.outer dir x.1 (bit spins x.2)) c

/-! ## A step (R160 to R162, R164) -/

/-- FP32 rounding to nearest even, past the largest finite value an infinity. -/
def rne32 (x : Dy) : Nat :=
  let m := fmt32.round x
  signed32 (decide (x.n < 0)) (if fmt32.maxMag < m then 0x7F800000 else m)

/-- The score of a spin: G − a, a being ΔE × β_c (R160). -/
def spinScore (g betaC : Nat) (de : Int) : Nat :=
  let a := rne32 ((val32 (ofInt32 de)).mul (val32 betaC))
  if isInf32 a then (if neg32 a then 0x7F800000 else 0xFF800000) else rne32 ((val32 g).add (val32 a).neg)

/-- β_c of an entry for a core (R160). -/
def betaCore (beta exp : Nat) : Nat :=
  let b := val32 beta
  (round32 ⟨b.n, b.e + exp - 15⟩ false).v

/-- The better of the best candidate so far and a later one: equal scores go to the lower index (R161). -/
def better (best : Option (Nat × Nat)) (score k : Nat) : Option (Nat × Nat) :=
  match best with
  | none => some (score, k)
  | some b => if flt b.1 score then some (score, k) else some b

/-- The winner of a step in phase `n`: every lane draws once from stream 0x01, the corners of R164 are no candidates; and the generator
position after it. -/
def ACore.winner (c : ACore) (seed n : Nat) (stay : Bool) : Nat × GenPos :=
  let p := c.pos 1
  let u (lane : Nat) : Nat := (genDraw seed c.idx 1 lane 16 p).1
  let corner (k : Nat) : Bool := if n / 2 % 2 = 0 then k == 0 || k == 15 else k == 240 || k == 255
  let best := (c.dE.zipIdx).foldl (fun b x => if corner x.2 then b else better b (spinScore (gumbel (u x.2)) c.betaC x.1) x.2) none
  let all := if stay then better best (gumbel (u 256)) 256 else best
  ((all.map Prod.snd).getD 256, (genDraw seed c.idx 1 0 16 p).2)

/-! ## The paddock during an entry -/

/-- What a run is given. -/
structure AnnealArgs where
  seed     : Nat
  p        : Nat
  f        : Nat
  stay     : Bool
  lockstep : Bool
  deriving DecidableEq, Repr

/-- A flit on its way: to which core, from which direction, the receiver's yclk of the entry from which it is seen, none where an
asynchronous crossing decides; the spins it carries, its sender and the phase of the flip. -/
structure AFlit where
  dest  : Nat
  dir   : Nat
  due   : Option Nat
  spins : Nat
  src   : Nat
  phase : Nat
  deriving DecidableEq, Repr

/-- A partner value that a seam flip read, to be compared with the partner's plane at the end of its phase `phase` (R168). -/
structure SeamRead where
  flip  : Nat
  half  : Nat
  core  : Nat
  spin  : Nat
  phase : Nat
  val   : Bool
  deriving DecidableEq, Repr

/-- The paddock during a run.  `tau` is the yclk of each clock group since phase 0 of the entry began; `counts` is keyed by half × 4 + kind:
flips, stays, timing-dependent flips.  `downs` holds the halters that are set during the run: entry, logical core and yclk. -/
structure Pad where
  cores  : List ACore
  flits  : List AFlit
  tau    : List Nat
  reads  : List SeamRead
  late   : List Nat
  flips  : Nat
  counts : Sparse Nat
  free   : Nat
  downs  : List (Nat × Nat × Nat)
  deriving DecidableEq, Repr

def Pad.count (a : Pad) (half kind : Nat) : Pad :=
  { a with counts := sset 0 a.counts (half * 4 + kind) (sget 0 a.counts (half * 4 + kind) + 1) }

/-- The sum of one kind over the halves. -/
def Pad.total (a : Pad) (kind : Nat) : Nat := ((a.counts.filter (fun x => x.1 % 4 == kind)).map Prod.snd).foldl (· + ·) 0

/-- A free value of the run (log entry 1). -/
def Pad.draw (a : Pad) : Nat × Pad := (Config.freeValue a.free, { a with free := a.free + 1 })

def Pad.core (a : Pad) (i : Nat) : Option ACore := a.cores[i]?
def Pad.modCore (a : Pad) (i : Nat) (f : ACore → ACore) : Pad := { a with cores := a.cores.modify i f }

/-- The last phase below `n` in which a core of that parity is active, counted from 1; 0 where the entry has none. -/
def lastPhase (n0 n : Nat) (odd : Bool) : Nat :=
  let k := if (n + 1) % 2 = b2n odd then n else n - 1
  if n0 < k ∧ k ≤ n then k else 0

/-- The value of a partner of a flip of core `c` in phase `n` is compared, now or when the partner's phase ends (R168). -/
def Pad.seamRead (n0 n flip : Nat) (c : ACore) (a : Pad) (x : Nat × Nat × Nat) : Pad :=
  let m := x.1
  match a.core m with
  | none => a
  | some pc =>
    if pc.half = c.half then a
    else
      let val := c.bnd.getLsbD (bndPos x.2.1 x.2.2)
      let k := lastPhase n0 n pc.odd
      let miss (p : BitVec 256) : Pad :=
        if p.getLsbD x.2.2 = val ∨ a.late.contains flip then a else { a.count c.half 2 with late := flip :: a.late }
      if k = 0 then miss pc.base
      else
        match pc.ends.find? (fun e => e.1 == k - 1) with
        | some e => miss e.2
        | none => { a with reads := ⟨flip, c.half, m, x.2.2, k - 1, val⟩ :: a.reads }

/-- The partners of spin `k` in adjacent cores: place of the core, direction and spin. -/
def ACore.partners (c : ACore) (k : Nat) : List (Nat × Nat × Nat) :=
  (upto 8).filterMap (fun d =>
    match nb k d with
    | .own _ => none
    | .other dir j => (c.nbs.getD dir none).map (fun m => (m, dir, j)))

/-- The flits that a flip of core `i` sends at yclk `t`: one to every adjacent core with a partner (R165). -/
def Pad.flitsOf (a : Pad) (lockstep : Bool) (i t n k : Nat) (c : ACore) : List AFlit :=
  (dedup ((c.partners k).map (fun x => x.2.1))).filterMap (fun dir =>
    match (c.nbs.getD dir none).bind a.core with
    | none => none
    | some m =>
      let due := if lockstep ∨ m.half = c.half then some (t + seamLatency c.half m.half (dirEdge dir)) else none
      some ⟨(c.nbs.getD dir none).getD 0, dirBack dir, due, edgeBits c.plane dir, i, n⟩)

/-- Core `i` makes a step in phase `n`, at yclk `t` of its group. -/
def Pad.step (g : AnnealArgs) (n0 n t : Nat) (a : Pad) (i : Nat) : Pad :=
  match a.core i with
  | none => a
  | some c =>
    let w := c.winner g.seed n g.stay
    let c1 := c.setPos 1 w.2
    if w.1 = 256 then ((a.modCore i (fun _ => c1)).count c.half 1)
    else
      let b := (c.partners w.1).foldl (Pad.seamRead n0 n a.flips c) a
      let c2 := c1.flip w.1
      let b1 := ({ b with flips := b.flips + 1 }.modCore i (fun _ => c2)).count c.half 0
      { b1 with flits := b1.flits ++ b1.flitsOf g.lockstep i t n w.1 c2 }

/-- A flit of the flits to group `gr` arrives at yclk `t`, phase `n`: a due one does, an asynchronous one of a phase below n − 1 has arrived,
and any other arrives as a free value says, never before an earlier flit of the same core (R165, R167). -/
def Pad.arrive (gr t n : Nat) (r : Pad × List AFlit) (x : AFlit) : Pad × List AFlit :=
  let keep : Pad × List AFlit := (r.1, r.2 ++ [x])
  let take (a : Pad) : Pad × List AFlit := (a.modCore x.dest (fun c => c.receive x.dir x.spins), r.2)
  match r.1.core x.dest with
  | none => keep
  | some c =>
    if c.grp ≠ gr ∨ c.stopAt.any (fun d => decide (d ≤ t)) then keep
    else
      match x.due with
      | some d => if d ≤ t then take r.1 else keep
      | none =>
        if x.phase + 2 ≤ n then take r.1
        else if r.2.any (fun y => y.src == x.src && y.dest == x.dest) then keep
        else
          let f := r.1.draw
          if f.1 % 2 = 1 then take f.2 else (f.2, r.2 ++ [x])

/-- A seam read is compared once its partner's phase has ended. -/
def Pad.settle (a : Pad) (x : SeamRead) : Pad :=
  match (a.core x.core).bind (fun c => c.ends.find? (fun e => e.1 == x.phase)) with
  | none => { a with reads := x :: a.reads }
  | some e =>
    if e.2.getLsbD x.spin = x.val ∨ a.late.contains x.flip then a else { a.count x.half 2 with late := x.flip :: a.late }

/-- The core makes a step in phase `n`. -/
def ACore.active (c : ACore) (gr n : Nat) : Bool := c.grp == gr && n % 2 == b2n c.odd

/-- One yclk of clock group `gr`, in the entry whose first phase is `n0` (R163, R165). -/
def Pad.tick (g : AnnealArgs) (n0 gr : Nat) (a : Pad) : Pad :=
  let t := a.tau.getD gr 0
  let n := n0 + t / g.p
  let s := t % g.p
  let r := a.flits.foldl (Pad.arrive gr t n) (a, [])
  let b := { r.1 with flits := r.2 }
  let moving (c : ACore) : Bool := c.active gr n && !c.still t
  let b1 := if s < g.f then ((indexed b.cores).filter (fun x => moving x.2)).foldl (fun b x => b.step g n0 n t x.1) b else b
  let b2 := if s + 1 = g.p then
      { b1 with cores := b1.cores.map (fun c => if c.active gr n then { c with ends := ((n, c.plane) :: c.ends).take 6 } else c) }
    else b1
  let b3 := if s + 1 = g.p then b2.reads.foldl Pad.settle { b2 with reads := [] } else b2
  { b3 with tau := b3.tau.set gr (t + 1) }

/-- Group `gr` may go on: below the limit, and at the start of a phase n the closing flits of all phases up to n − 2 have come, each sent once the
steps of its phase are made (R165, R167; log entry 53). -/
def Pad.ready (g : AnnealArgs) (n0 limit gr : Nat) (a : Pad) : Bool :=
  let t := a.tau.getD gr 0
  let n := n0 + t / g.p
  decide (t < limit) &&
    (decide (t % g.p ≠ 0) || (a.cores.filter (fun c => c.grp == gr)).all (fun c =>
      (c.nbs.filterMap id).all (fun m =>
        match a.core m with
        | none => true
        | some x =>
          let k := lastPhase n0 (n - 1) x.odd
          x.grp == gr || decide (k = 0 ∨ (k - n0 - 1) * g.p + g.f ≤ a.tau.getD x.grp 0))))

/-- The groups advance to yclk `limit` of the entry; where several are ready, a free value picks the next. -/
def Pad.advance (g : AnnealArgs) (n0 limit : Nat) : Nat → Pad → Pad
  | 0, a => a
  | fuel + 1, a =>
    match (upto a.tau.length).filter (fun gr => a.ready g n0 limit gr) with
    | [] => a
    | [gr] => (a.tick g n0 gr).advance g n0 limit fuel
    | gr :: rest =>
      let f := a.draw
      (f.2.tick g n0 ((gr :: rest).getD (f.1 % (rest.length + 1)) gr)).advance g n0 limit fuel

/-- The groups advance by at most `limit` yclk each. -/
def Pad.runTo (g : AnnealArgs) (n0 limit : Nat) (a : Pad) : Pad :=
  a.advance g n0 limit ((a.tau.map (fun t => limit - t)).foldl (· + ·) 0)

/-! ## Entries (R170 to R173) -/

/-- The boundary values that a core receives from the planes of its neighbours. -/
def Pad.boundary (a : Pad) (c : ACore) : BitVec 68 :=
  (upto 8).foldl (fun v dir =>
    match (c.nbs.getD dir none).bind a.core with
    | none => v
    | some m => (edgeOf (dirBack dir)).foldl (fun v j => setBit v (bndPos dir j) (m.plane.getLsbD j)) v) 0

/-- START (R170): 0 keeps the plane, 1 takes the best plane, 2 draws it. -/
def ACore.startPlane (seed start : Nat) (c : ACore) : ACore :=
  if start = 1 then { c with plane := c.best }
  else if start = 2 then
    let p := c.pos 3
    let v := (upto 256).foldl (fun v k => v + (genDraw seed c.idx 3 k 1 p).1 * 2 ^ k) 0
    ({ c with plane := BitVec.ofNat 256 v }).setPos 3 (genDraw seed c.idx 3 0 1 p).2
  else c

/-- RERAND (R170). -/
def ACore.rerandomise (seed rerand : Nat) (c : ACore) : ACore :=
  if rerand = 0 then c
  else
    let p := c.pos 2
    let v := (upto 256).foldl (fun v k =>
      let u := (genDraw seed c.idx 2 k 16 p).1
      if u % 256 < rerand then setBit v k (bit u 8) else v) c.plane
    ({ c with plane := v }).setPos 2 (genDraw seed c.idx 2 0 16 p).2

/-- The preparation of entry `i`, which begins at phase `n0` (R170, R173): START, RERAND, the boundary values of the new planes, and ΔE in full; every
core that runs notes what it writes to its context area (R179). -/
def Pad.prepare (seed : Nat) (x : Restart) (i n0 : Nat) (a : Pad) : Pad :=
  let a1 := { a with cores := a.cores.map (fun (c : ACore) => if c.halted then c else (c.startPlane seed x.start).rerandomise seed x.rerand) }
  { a1 with
    flits := [], reads := [], tau := a1.tau.map (fun _ => 0),
    cores := a1.cores.map (fun c =>
      let d := { c with bnd := a1.boundary c }.recompute
      let e := { d with betaC := betaCore x.beta c.exp, base := c.plane, ends := [] }
      if c.halted then e else { e with ctxPlane := c.plane, ctxGen := c.gen, ctxAt := some (i, n0) }) }

/-- The present value of the neighbour of spin `k` in direction `d`, 0 outside the paddock. -/
def Pad.partner (a : Pad) (c : ACore) (k d : Nat) : Int :=
  match nb k d with
  | .own j => spinVal (c.plane.getLsbD j)
  | .other dir j =>
    match (c.nbs.getD dir none).bind a.core with
    | none => 0
    | some m => spinVal (m.plane.getLsbD j)

/-- The energy of a core over its spins and owned pairs, in its own mantissa units (R171). -/
def Pad.coreEnergy (a : Pad) (c : ACore) : Int :=
  ((c.field.zip c.coup).mapIdx (fun k x =>
    let own := ([2, 3, 4, 5].map (fun d => x.2.getD d 0 * a.partner c k d)).foldl (· + ·) 0
    spinVal (c.plane.getLsbD k) * Int.neg (x.1 + own))).foldl (· + ·) 0

/-- The exact energy of the paddock in units of exponent `xf` (R171). -/
def Pad.energy (xf : Nat) (a : Pad) : Int :=
  ((a.cores.filter (fun (c : ACore) => !c.halted)).map (fun c => shl (a.coreEnergy c) (c.exp - xf))).foldl (· + ·) 0

/-- Every core that is not haltered copies its plane to its best plane. -/
def Pad.capture (a : Pad) : Pad := { a with cores := a.cores.map (fun (c : ACore) => if c.halted then c else { c with best := c.plane }) }

/-- The last flips of the entry arrive: every flit in flight is applied (R171, R173). -/
def Pad.arriveAll (a : Pad) : Pad :=
  { a.flits.foldl (fun (a : Pad) x => a.modCore x.dest (fun c => c.receive x.dir x.spins)) a with flits := [] }

/-- The halters of entry `i` that are still to come. -/
def Pad.downIn (i : Nat) (a : Pad) : Pad :=
  { a with cores := a.cores.map (fun c => { c with
    downAt := (a.downs.find? (fun d => d.1 == i && d.2.1 == c.idx)).map (fun d => d.2.2) }) }

/-- The halters of the entry have all come. -/
def Pad.downNow (a : Pad) : Pad :=
  { a with cores := a.cores.map (fun c => { c with halted := c.halted || c.downAt.isSome, downAt := none }) }

/-! ## The run over the restart entries -/

/-- A kill: the yclk of its phase in which it reaches the first core, and how many later it reaches others; where that phase is the first after an
entry, 0 before the end ledger of the entry, 1 after it, 2 once the next entry is prepared (R178). -/
structure KillAt where
  steps : Nat
  reach : List (Nat × Nat)
  ledger : Nat
  deriving DecidableEq, Repr

/-- The yclk of the phase in which a kill reaches a logical core. -/
def KillAt.of (k : KillAt) (idx : Nat) : Nat := k.steps + ((k.reach.find? (fun x => x.1 == idx)).map Prod.snd).getD 0

/-- Where a run ends: with the end of its last entry (`natural`), at the end of phase `phase` − 1, or by a kill in phase `phase`. -/
structure Limit where
  phase   : Nat
  natural : Bool
  kill    : Option KillAt
  deriving DecidableEq, Repr

/-- A run in progress: the paddock, the best energy and its entry, the last energy, entries and phases done, captures, and how it ended:
0 complete, 1 stopped, 2 killed. -/
structure ARun where
  pad       : Pad
  bestE     : Int
  bestEntry : Nat
  lastE     : Int
  entries   : Nat
  phase     : Nat
  captures  : Nat
  state     : Nat
  deriving DecidableEq, Repr

/-- The end of an entry (R171, R173). -/
def ARun.ledger (xf entry : Nat) (r : ARun) : ARun :=
  let p := r.pad.arriveAll
  let e := p.energy xf
  let r1 := { r with pad := p, lastE := e, entries := r.entries + 1 }
  if e < r.bestE then { r1 with pad := p.capture, bestE := e, bestEntry := entry, captures := r.captures + 1 } else r1

/-- The kill of an entry reaches every core by the end of the entry, `left` yclk after the phase in which it comes began at `t`. -/
def Pad.killed (k : KillAt) (t left : Nat) (a : Pad) : Pad :=
  { a with cores := a.cores.map (fun c => { c with stopAt := some (t + min left (k.of c.idx)) }) }

/-- The yclk by which a kill has reached every core. -/
def Pad.killEnd (a : Pad) : Nat := (a.cores.filterMap ACore.stopAt).foldl max 0

/-- The phases of an entry that begins at phase `n0`, as far as the limit lets it, and its end ledger where it gets there. -/
def ARun.entry (g : AnnealArgs) (xf i n0 : Nat) (x : Restart) (lim : Limit) (r : ARun) : ARun :=
  let n1 := n0 + x.phases
  let stop := min n1 (max lim.phase n0)
  let t := (stop - n0) * g.p
  let a := (r.pad.downIn i).runTo g n0 t
  let r1 := { r with pad := a.downNow, phase := stop }
  let past := decide (n1 < lim.phase) || (lim.phase == n1 && (match lim.kill with
    | none => lim.natural
    | some k => decide (0 < k.steps ∨ 0 < k.ledger)))
  if past then r1.ledger xf i
  else
    match lim.kill with
    | none => { r1 with state := 1 }
    | some k =>
      let b := a.killed k t ((n1 - stop) * g.p)
      { r1 with state := 2, pad := (b.runTo g n0 b.killEnd).downNow }

/-- A kill comes between the end ledger of an entry and the preparation of the next, which begins at phase `n0`. -/
def Limit.between (lim : Limit) (n0 : Nat) : Bool := lim.kill.any (fun k => decide (lim.phase ≤ n0) && k.steps == 0 && k.ledger == 1)

/-- The entries of a run, `i` the index and `n0` the first phase of the next; `fresh` where the first of them is still to be prepared.  A kill that no
entry has met comes after the last capture (R178). -/
def ARun.entriesRun (g : AnnealArgs) (xf : Nat) (lim : Limit) : List Restart → Nat → Nat → Bool → ARun → ARun
  | [], _, _, _, r => if r.state = 0 ∧ lim.kill.isSome then { r with state := 2 } else r
  | x :: xs, i, n0, fresh, r =>
    if r.state ≠ 0 then r
    else if fresh ∧ lim.between n0 then { r with state := 2, phase := n0 }
    else
      let r1 := if fresh then { r with pad := r.pad.prepare g.seed x i n0, phase := n0 } else r
      (r1.entry g xf i n0 x lim).entriesRun g xf lim xs (i + 1) (n0 + x.phases) true

end Sys2Proof.Machine
end

