-- ==== Sys2Proof/Machine/Mailbox.lean ====
section
/-!
DEFINITION. Mailboxes: posts, messages, replies and acknowledgements (R464 to R470, R472).
-/
namespace Sys2Proof.Machine

/-! ## Messages (R466) -/

def mOp (m : Bytes) : Nat := fld m 0 2
def mReply (m : Bytes) : Nat := fld m 8 8
def mReplyLen (m : Bytes) : Nat := fld m 0x10 4
def mWaitUs (m : Bytes) : Nat := fld m 0x14 4
def mBody (m : Bytes) : Bytes := m.drop 32

/-- Request codes (R469). -/
def rqCreate : Nat := 0x0001
def rqDestroy : Nat := 0x0002
def rqBudget : Nat := 0x0003
def rqMap : Nat := 0x0010
def rqUnmap : Nat := 0x0011
def rqDisable : Nat := 0x0020
def rqEnable : Nat := 0x0021
def rqRepairList : Nat := 0x0030
def rqRepairRun : Nat := 0x0031
def rqPatch : Nat := 0x0040
def rqStatus : Nat := 0x0050
def rqFailover : Nat := 0x0051

/-- Return codes (R468). -/
def rcOk : Nat := 0x0
def rcBadRequest : Nat := 0x1
def rcPrivilege : Nat := 0x2
def rcHostRead : Nat := 0x3
def rcTranslation : Nat := 0x4
def rcBusy : Nat := 0x5
def rcNotFree : Nat := 0x6
def rcNoQueue : Nat := 0x7
def rcNoEngine : Nat := 0x8
def rcQuota : Nat := 0x9
def rcBelowUse : Nat := 0xA
def rcNoFrame : Nat := 0xB
def rcNotMapped : Nat := 0xC
def rcImage : Nat := 0xD
def rcWindowTimeout : Nat := 0xE
def rcSafe : Nat := 0xF
def rcMapped : Nat := 0x10

/-- The body bytes of a request and its reserved ones; none for a reserved code (R469, R471). -/
def requestShape (op : Nat) : Option (Nat × List (Nat × Nat)) :=
  if op = rqCreate then some (64, [(0x2C, 20)])
  else if op = rqDestroy then some (16, [(3, 5)])
  else if op = rqBudget then some (16, [(3, 1), (10, 6)])
  else if op = rqMap then some (16, [(3, 1), (12, 4)])
  else if op = rqUnmap then some (16, [(2, 2), (12, 4)])
  else if op = rqDisable ∨ op = rqEnable then some (8, [(1, 7)])
  else if op = rqRepairRun then some (32, [])
  else if op = rqPatch then some (8, [])
  else if op = rqRepairList ∨ op = rqStatus ∨ op = rqFailover then some (0, [])
  else none

/-- A privileged request (R469). -/
def requestPrivileged (op : Nat) : Bool := [rqDisable, rqEnable, rqRepairRun, rqPatch, rqFailover].contains op

/-- The header of a message is as R466 lays it out. -/
def headerOk (m : Bytes) : Bool :=
  decide (32 ≤ m.length ∧ m.length ≤ 4096) && fld m 2 1 == 1 && rsv m 3 1 && fld m 4 4 + 32 == m.length && rsv m 0x18 8

/-- Why a request is refused before it runs (R466, R468, R469); none when it may run.  A reserved body field that is not 0 counts
as out of range, and a reply area that does not translate is found first (log entry 17). -/
def State.badRc (s : State) (r : Req) : Option Nat :=
  let op := mOp r.msg
  let body := mBody r.msg
  if r.fault ≠ 0 then some r.fault
  else if !headerOk r.msg then some rcBadRequest
  else
    match requestShape op with
    | none => some rcBadRequest
    | some shape =>
      if s.pwr.mod = .safe ∧ op ≠ rqStatus ∧ op ≠ rqRepairList then some rcSafe
      else if requestPrivileged op ∧ r.mbx ≠ 0 then some rcPrivilege
      else if body.length < shape.1 then some rcBadRequest
      else if !shape.2.all (fun x => rsv body x.1 x.2) then some rcBadRequest
      else if !r.host ∧ mReply r.msg ≠ 0 ∧ (s.firstFail (mReply r.msg) (mReplyLen r.msg) true false).isSome then some rcTranslation
      else none

/-- A post to mailbox `m`: the message is read, once, and joins the line (R465, R466). -/
def State.readPost (s : State) (m : Nat) (v : Word) : State :=
  let h := s.h2f m
  let ptr := h.ptrLo.toNat + 2 ^ 32 * h.ptrHi.toNat
  let s1 := s.setH2f m { h with seq := v.toNat, pending := true, tried := none }
  let s2 := s1.modMbx (fun x => { x with dbH2f := x.dbH2f ||| BitVec.ofNat 32 (2 ^ m) })
  let add (s : State) (msg : Bytes) (fault : Nat) : State := s.modMbx (fun x => { x with reqs := x.reqs ++ [⟨m, msg, h.space, fault, s.hclk⟩] })
  if h.len < 32 ∨ 4096 < h.len then add s2 [] rcBadRequest
  else if h.space then
    match s2.hostRead ptr h.len with
    | none => add s2 [] rcHostRead
    | some bs => add s2 bs 0
  else
    match s2.firstFail ptr h.len false false with
    | some f => add (s2.xlatFault f.1 false .hub f.2) [] rcTranslation
    | none => add (s2.devNote ptr h.len) (s2.devBytes ptr h.len) 0

/-- A post that reached the hub in the hclk of the acknowledgement, before it, posts after all (R465). -/
def State.retryPost (s : State) (m : Nat) : State :=
  let h := s.h2f m
  match h.tried with
  | some (t, v, was) => if t = s.hclk then (s.setH2f m { h with overrun := was }).readPost m v else s
  | none => s

/-- Acknowledges a request (R465, R467): the reply, the ACK, PENDING cleared, and the doorbell bit. -/
def State.reply (s : State) (r : Req) (rc : Nat) (body : Bytes) : State :=
  let seq := (s.h2f r.mbx).seq
  let bs := (toBytes 2 (mOp r.msg) ++ toBytes 2 rc ++ toBytes 4 (16 + body.length) ++ toBytes 4 seq ++ zeros 4 ++ body).take (mReplyLen r.msg)
  let s1 := if r.fault = 0 ∧ headerOk r.msg ∧ mReply r.msg ≠ 0 then
      (if r.host then s.hostWrite (mReply r.msg) bs
       else
        match s.firstFail (mReply r.msg) (mReplyLen r.msg) true false with
        | none => s.devWrite (mReply r.msg) bs
        | some f => s.xlatFault f.1 true .hub f.2)
    else s
  let h := s1.h2f r.mbx
  let s2 := s1.setH2f r.mbx { h with ack := BitVec.ofNat 32 (rc + seq % 65536 * 65536), pending := false }
  (s2.modMbx (fun m => { m with reqs := m.reqs.filter (fun x => decide (x ≠ r)) })).ringHost r.mbx |>.retryPost r.mbx

/-- Prephor takes the notice of a request (R472). -/
def State.takeNotice (s : State) (r : Req) : State :=
  s.modMbx (fun m => { m with dbH2f := m.dbH2f &&& ~~~ BitVec.ofNat 32 (2 ^ r.mbx) })

/-- Prephor serves requests: in READY, and in SAFE as far as R469 gives, with a hub alive (R515, R526, R527). -/
def State.serving (s : State) : Bool := (s.pwr.mod == .ready || s.pwr.mod == .safe) && s.hubAlive

/-- Answers the requests at the head that are refused before they run (R470). -/
def State.serveBad (s : State) : Nat → State
  | 0 => s
  | n + 1 =>
    match s.mbx.reqs with
    | [] => s
    | r :: _ =>
      if s.serving then
        match s.badRc r with
        | none => s
        | some rc => ((s.takeNotice r).reply r rc []).serveBad n
      else s

/-- Refused requests at the head of the line are answered. -/
def State.serveHead (s : State) : State := s.serveBad 4

/-- The request that Prephor carries out next, when it has code `op`. -/
def State.headReq (s : State) (op : Nat) : Option Req :=
  match s.mbx.reqs with
  | [] => none
  | r :: _ => if s.serving && (s.badRc r).isNone && mOp r.msg == op then some r else none

/-- Ends a request: its reply, and the refused ones behind it. -/
def State.endReq (s : State) (r : Req) (rc : Nat) (body : Bytes) : State := ((s.takeNotice r).reply r rc body).serveHead

/-- A request that goes on in the background leaves the line (R470). -/
def State.background (s : State) (r : Req) : State :=
  ((s.takeNotice r).modMbx (fun m => { m with reqs := m.reqs.filter (fun x => decide (x ≠ r)) })).serveHead

/-- A write to MBX_H2F_SEQ of mailbox `m` (R465, R466): a post, or OVERRUN; the next SEQ that finds PENDING 1 is kept for an acknowledgement of the
same hclk. -/
def State.postH2f (s : State) (m : Nat) (v : Word) : State :=
  let h := s.h2f m
  let next := decide (v.toNat = (h.seq + 1) % 2 ^ 32)
  if !h.pending ∧ next then (s.readPost m v).serveHead
  else (s.setH2f m { h with
    overrun := true, tried := if next then some (s.hclk, v, h.overrun) else h.tried }).event (.overrun m)

/-- A write of Prephor's to MBX_F2H_SEQ (R465, R467, R472): it posts when the last message has been acknowledged; one that finds PENDING 1 is kept
for an acknowledgement of the same hclk. -/
def State.postF2h (s : State) (m : Nat) (v : Word) : State :=
  let h := s.f2h m
  if v.toNat ≠ (h.seq + 1) % 2 ^ 32 then s
  else if h.pending then s.setF2h m { h with tried := some (s.hclk, v) }
  else (s.setF2h m { h with seq := v.toNat, pending := true, tried := none }).ringHost (m + 4)

/-- A host write to MBX_F2H_ACK (R465): one whose SEQ field is not that of the last message is ignored, any other acknowledges and is stored, also
where PENDING is 0 already (DESIGN CHOICE, log entry 17). -/
def State.ackF2h (s : State) (m : Nat) (v : Word) : State :=
  let h := s.f2h m
  if v.toNat / 65536 = h.seq % 65536 then
    let t := s.setF2h m { h with ack := v, pending := false }
    match h.tried with
    | some (at_, n) => if h.pending ∧ at_ = s.hclk then t.postF2h m n else t
    | none => t
  else s

end Sys2Proof.Machine
end

