-- ==== Sys2Proof/Machine/Complete.lean ====
section
/-!
DEFINITION. Completion: the record, its ring and mirror, triggers, the charge, and what an engine does at a command boundary
(R357 to R360, R368, R372, R387, R390, R396, R401).
-/
namespace Sys2Proof.Machine

/-- What ended a command from outside, where something did. -/
inductive Cause where
  | none | timeout | destroy | deadline
  deriving DecidableEq, Repr

/-- How a command ended: the fields of its record that its end decides (R368). -/
structure Done where
  status : Nat
  detail : Nat := 0
  tileOr : Nat := 0
  faultAddr : Nat := 0
  yclk : Nat := 0
  prephor : Bool := false
  cause : Cause := .none
  deriving DecidableEq, Repr

/-- The end of a command that failed a check. -/
def Fail.done (f : Fail) : Done := { status := f.status, detail := f.detail, faultAddr := f.addr }

/-- Adds 1 to a count of a keyed table of counts. -/
def tally (m : Sparse Nat) (k : Nat) : Sparse Nat := sset 0 m k (sget 0 m k + 1)

/-- A record of a queue that is being destroyed, counted in its report (R401). -/
def Destroy.count (d : Destroy) (e : Nat) (x : Done) : Destroy :=
  if x.status = stCancelled then { d with cancelled := tally d.cancelled e }
  else if x.status = stDrained ∧ x.cause = .destroy then { d with drained := tally d.drained e }
  else if x.status = stKilled ∧ x.cause = .destroy then { d with killed := tally d.killed e }
  else { d with completed := tally d.completed e }

/-- The count of an engine that is being disabled (R373): completed, killed and disabled commands of a queue. -/
def disableCount (m : Sparse (Nat × Nat × Nat)) (q st : Nat) : Sparse (Nat × Nat × Nat) :=
  let c := sget (0, 0, 0) m q
  sset (0, 0, 0) m q
    (if st = stDisabled then (c.1, c.2.1, c.2.2 + 1) else if st = stKilled then (c.1, c.2.1 + 1, c.2.2) else (c.1 + 1, c.2.1, c.2.2))

/-- The status a record carries: a replayed command that ended OK reads REPLAYED (R369). -/
def recStatus (c : Cmd) (st : Nat) : Nat := if st = stOk ∧ c.replayed then stReplayed else st

/-- The 64 bytes of a completion record (R368).  `start` stands for the START of a command that never started. -/
def recordBytes (e : Nat) (c : Cmd) (d : Done) (miss : Bool) (start now : Nat) : Bytes :=
  toBytes 8 c.seq ++ toBytes 2 c.queue ++ toBytes 2 (dTag c.desc) ++ toBytes 1 (dOp c.desc) ++
  toBytes 1 (recStatus c d.status) ++ toBytes 1 e ++
  toBytes 1 (b2n c.chained + b2n miss * 2 + b2n c.drawn * 4 + b2n d.prephor * 8 + b2n c.replayed * 16) ++
  toBytes 4 d.detail ++ toBytes 4 d.tileOr ++ toBytes 8 (if c.usesRng then c.seed else 0) ++
  toBytes 8 (c.startAt.getD start) ++ toBytes 8 now ++ toBytes 8 d.faultAddr ++ toBytes 4 (min d.yclk 0xFFFFFFFF) ++ zeros 4

/-- A record goes to entry `at_` of its queue's ring, and to the mirror (R396, R398). -/
def State.putRecord (s : State) (p : Posted) : State :=
  let q := s.queue p.queue
  let slot := p.at_ % 2 ^ q.recLog2
  let va := q.recAddr + 64 * slot
  let s1 := match s.firstFail va 64 true false with
    | none => s.devWrite va p.bytes
    | some x => s.xlatFault x.1 true (agentOf p.engine) x.2
  if q.mirror = 0 then s1 else s1.hostWrite (q.mirror + 64 * slot) p.bytes

/-- A record that takes the next entry of its queue's ring: those that higher engines posted in this hclk stand after it (R396). -/
def State.placeRecord (s : State) (e n : Nat) (bs : Bytes) : State :=
  let behind (p : Posted) : Bool := p.queue == n && decide (e < p.engine)
  let later := s.posts.filter behind
  let new := ⟨n, e, (s.queue n).done - later.length, bs⟩ :: later.map (fun p => { p with at_ := p.at_ + 1 })
  { s.each new State.putRecord with posts := s.posts.filter (fun p => !behind p) ++ new }

/-- Writes a record to its queue's ring and mirror, and counts it (R368, R387, R390, R396 to R398).  A record of a command
that never started carries a free START (log entry 1) and charges no engine time (log entry 14). -/
def State.writeRecord (s : State) (e : Nat) (c : Cmd) (d : Done) (miss : Bool) : State :=
  let f := if c.startAt.isSome then (0, s) else s.draw
  let s := f.2
  let q := s.queue c.queue
  let st := recStatus c d.status
  let s2 := s.placeRecord e c.queue (recordBytes e c d miss (f.1 % 2 ^ 64) s.hclk)
  let charge := match c.startAt with
    | some t => s.hclk - t
    | none => 0
  let halt := q.haltOnFail && !confirms st && (q.st == .mapped || q.st == .idle || q.st == .waiting)
  let s3 := s2.setQueue c.queue
    { q with done := q.done + 1, charge := q.charge + charge, st := if halt then .halted else q.st }
  let s4 := s3.modEng e (fun x => { x with
    kernelCharge := if q.cls = 0 ∧ c.queue < 504 then x.kernelCharge + charge else x.kernelCharge,
    counts := if x.st = .disabling ∨ x.st = .disabled then disableCount x.counts c.queue st else x.counts })
  let s5 := ((s4.bump .engine e 0).bumpBy .queue c.queue 1 charge)
  let s6 := if (st = stDrained ∨ st = stKilled) ∧ d.cause = .timeout then s5.bump .queue c.queue 2 else s5
  let s7 := if st = stQuota then s6.bump .queue c.queue 3 else s6
  let s8 := if st = stSchedule then s7.bump .engine e 8 else s7
  let s9 := s8.modMbx (fun m => { m with
    destroys := m.destroys.map (fun x => if x.queue = c.queue then x.count e { d with status := st } else x) })
  let s10 := if 504 ≤ c.queue then s9.modProg (c.queue - 504) (fun p => { p with failed := p.failed || !confirms st, postAt := s.hclk }) else s9
  s10.trace 0 2 (b2n c.chained * 2) e (toBytes 2 c.queue ++ toBytes 8 c.seq ++ toBytes 1 (dOp c.desc) ++ toBytes 1 st)

/-- The CMD_START record of a command (R549). -/
def State.traceStart (s : State) (e : Nat) (c : Cmd) : State :=
  s.trace 0 1 (b2n c.chained * 2) e (toBytes 2 c.queue ++ toBytes 8 c.seq ++ toBytes 1 (dOp c.desc))

/-- The command of a chain slot, for its record when it never runs. -/
def ChainSlot.cmd (x : ChainSlot) (e : Nat) : Cmd :=
  { desc := x.desc, tack := [], tackVoids := [], sched := Sched.reset, jobs := [], queue := x.queue, seq := x.seq, chained := true, slot := none, engine := e, seed := 0,
    drawn := false, prepAt := 0, startAt := none, replayed := false, draining := false, ownTimeout := false, gate := false, ready := false,
    usesRng := false, early := [], checked := Checked.reset, carried := 0, flagged := false, yclk0 := [], halts := [] }

/-- Chain slot `k` of engine `e`. -/
def State.chainSlot (s : State) (e k : Nat) : ChainSlot := sget ChainSlot.reset (s.eng e).chain k

def State.setChain (s : State) (e k : Nat) (x : ChainSlot) : State :=
  s.modEng e (fun g => { g with chain := sset ChainSlot.reset g.chain k x })

/-- Engine `e` takes triggers and chains: it is present and not disabled (R373). -/
def State.takesChain (s : State) (e : Nat) : Bool :=
  s.present e && (s.eng e).st != .disabled && (s.eng e).st != .disabling && (s.eng e).st != .off

/-- Engine `e` drops its held preload `p`: what it brought leaves the engine, and its class goes back to the turn at which it was served, as if
it had never been (R24, R224). -/
def State.dropPreload (s : State) (e : Nat) (p : Preload) : State :=
  (s.modEng e (fun x => { x with
    preload := none, shadow := Programs.reset,
    lastServed := if p.chainSlot.isSome then x.lastServed else sset 0 x.lastServed p.turn.1 p.turn.2 })).bump .engine e 2

/-- A preload that came from chain slot `k` is dropped with the slot. -/
def State.dropChainPreload (s : State) (e k : Nat) : State :=
  match (s.eng e).preload with
  | some p => if p.chainSlot = some k then s.dropPreload e p else s
  | none => s

/-- Posts a record with its trigger (R359), and the CANCELLED record of a slot that the trigger cancels; `fuel` bounds the
chain of cancellations by the 168 chain slots.  Records of one hclk go by lower engine number (R396). -/
def State.postAt (s : State) : Nat → Nat → Cmd → Done → State
  | 0, e, c, d => s.writeRecord e c d false
  | fuel + 1, e, c, d =>
    let te := dTrigEng c.desc
    let k := dTrigSlot c.desc
    if dTrigEn c.desc ∧ te < 21 ∧ k < 8 then
      let x := s.chainSlot te k
      let armed := s.takesChain te && x.st == .armed
      let ok := confirms (recStatus c d.status)
      if !armed then (s.bump .engine e 4).writeRecord e c d ok
      else if ok then
        (((s.setChain te k { x with st := .fired }).bump .engine te 3).trace 4 7 0 te (toBytes 1 k ++ toBytes 1 1)).event
          (.fired te k e c.queue) |>.writeRecord e c d false
      else
        let s1 := (((s.setChain te k ChainSlot.reset).dropChainPreload te k).bump .engine te 5).trace 4 7 0 te
          (toBytes 1 k ++ toBytes 1 2)
        if te < e then (s1.postAt fuel te (x.cmd te) { status := stCancelled }).writeRecord e c d false
        else (s1.writeRecord e c d false).postAt fuel te (x.cmd te) { status := stCancelled }
    else s.writeRecord e c d false

/-- Posts the record of a command. -/
def State.postRecord (s : State) (e : Nat) (c : Cmd) (d : Done) : State := s.postAt 168 e c d

/-- Discards a held preload: its descriptor goes back to the head of its queue slot, and a chain slot stays FIRED (R24, R355, R360). -/
def State.discardPreload (s : State) (e : Nat) : State :=
  match (s.eng e).preload with
  | none => s
  | some p =>
    if p.chainSlot.isSome then s.dropPreload e p
    else (s.dropPreload e p).modQueue p.cmd.queue (fun q => { q with head := q.head - 1 })

/-- Confirms a held preload at the end of a command that ended well (R224, R355). -/
def State.confirmPreload (s : State) (e : Nat) : State :=
  match (s.eng e).preload with
  | none => s
  | some p =>
    (s.modEng e (fun x => { x with preload := some { p with cmd := { p.cmd with gate := true } } })).bump .engine e 1

/-- The per-queue counts of an engine that has been disabled, as ENGINE_DISABLE returns them (R373, R469). -/
def Engine.report (x : Engine) : Bytes :=
  (x.counts.map (fun c => toBytes 2 c.1 ++ zeros 2 ++ toBytes 4 c.2.1 ++ toBytes 4 c.2.2.1 ++ toBytes 4 c.2.2.2)).flatten

/-- The engine reaches DISABLED: the request that asked for it is acknowledged (R373, R470). -/
def State.disabled (s : State) (e : Nat) : State :=
  let x := s.eng e
  let s1 := s.modEng e (fun g => { g with st := .disabled, counts := [] })
  match s.mbx.bgDisable.find? (fun b => b.1 == e) with
  | none => s1
  | some b => (s1.modMbx (fun m => { m with bgDisable := m.bgDisable.filter (fun y => y.1 != e) })).reply b.2 rcOk x.report |>.serveHead

/-- The destruction report (R401). -/
def Destroy.bytes (d : Destroy) (done : Nat) : Bytes :=
  toBytes 2 d.queue ++ toBytes 1 d.policy ++ zeros 1 ++ toBytes 4 d.notFetched ++ toBytes 8 done ++
    ((upto 21).map (fun e => toBytes 4 (sget 0 d.completed e) ++ toBytes 4 (sget 0 d.drained e) ++ toBytes 4 (sget 0 d.killed e) ++
      toBytes 4 (sget 0 d.cancelled e))).flatten

/-- A command of queue `q` is between PREP and POST on an engine, or in Prephor's hands. -/
def State.queueBusy (s : State) (q : Nat) : Bool :=
  (upto 21).any (fun e => match (s.eng e).cur with
    | some c => c.queue == q
    | none => false) || s.mbx.privs.any (fun c => c.queue == q)

/-- A slot is left by its queue. -/
def State.freeSlot (s : State) (k : Nat) : State := s.modSlot k (fun x => { x with queue := none, mappedAt := 0 })

/-- Steps 5 and 6 of R400: the report, the slot freed, the pages without owner, the queue FREE, and the acknowledgement. -/
def State.endDestroy (s : State) (d : Destroy) : State :=
  let q := s.queue d.queue
  let bs := d.bytes q.done
  let s1 := if d.req.host then s.hostWrite d.report bs else s.hubWrite d.report bs
  let s2 := match q.slot with
    | none => s1
    | some k => s1.modSlot k (fun x => { x with queue := none, leaving := x.next.isSome, mappedAt := 0, privParked := false })
  let s3 := { s2 with img := { s2.img with
    xlat := smap Xlat.reset (fun x => if x.owner = some d.queue then { x with owner := some 0xFFFF } else x) s2.img.xlat } }
  let s3 := { s3 with slots := smap Slot.reset (fun x => if x.next = some d.queue then { x with next := none } else x) s3.slots }
  let s4 := (s3.setQueue d.queue Queue.reset).modMbx (fun m => { m with destroys := m.destroys.filter (fun x => x.queue != d.queue) })
  (s4.reply d.req rcOk []).serveHead

/-- A destruction acts before a trigger that fired slot `k` of engine `te` in the same hclk (R374, R402): the trigger has found no ARMED slot,
so its record carries CHAIN_MISS. -/
def State.unfire (s : State) (te k : Nat) : State :=
  let mine (b : EventBit) : Bool := match b with
    | .fired a j _ _ => a == te && j == k
    | _ => false
  match s.fresh.find? mine with
  | some (.fired _ _ e n) =>
    let s1 := { ((s.bumpBy .engine te 3 (2 ^ 48 - 1)).bump .engine e 4) with fresh := s.fresh.filter (fun b => !mine b) }
    let miss (p : Posted) : Posted := { p with bytes := setFld p.bytes 15 1 (Nat.lor (fld p.bytes 15 1) 2) }
    match s.posts.find? (fun p => p.queue == n && p.engine == e) with
    | some p => { s1.putRecord (miss p) with posts := s.posts.map (fun x => if x = p then miss p else x) }
    | none => s1
  | _ => s

/-- Step 2 of R400: the chain slots of engine `e` that hold descriptors of queue `n`. -/
def State.cancelChains (s : State) (n e : Nat) : State :=
  s.each (upto 8) (fun s k =>
    let x := s.chainSlot e k
    if x.st = .empty ∨ x.queue ≠ n then s
    else (((((s.unfire e k).setChain e k ChainSlot.reset).dropChainPreload e k).bump .engine e 5).trace 4 7 0 e (toBytes 1 k ++ toBytes 1 2)).postRecord e
      (x.cmd e) { status := stCancelled })

/-- Ends every destruction whose queue has no running command left; a slot that its last CHAIN armed is cancelled before (R400). -/
def State.endDestroys (s : State) : State :=
  s.each s.mbx.destroys (fun s d => if s.queueBusy d.queue then s
    else
      let t := s.each (upto 21) (fun s e => s.cancelChains d.queue e)
      match t.mbx.destroys.find? (fun x => x.queue == d.queue) with
      | some x => t.endDestroy x
      | none => t)

/-- The engine leaves POST: it is idle, or disabled where a disable request waits, and its halves count their 64 yclk to IDLE
(R298, R372, R373). -/
def State.atBoundary (s : State) (e : Nat) : State :=
  let dis := (s.eng e).st == .disabling
  let s1 := s.modEng e (fun x => { x with cur := none, st := if dis then x.st else .idle })
  let s2 := s1.each (s1.halvesOf e) (fun s d => s.modHalf d (fun h => { h with idleAt := (s.rclk d).yclk }))
  if dis then s2.disabled e else s2

/-- The command in engine `e` ends: its record is posted, its preload confirmed or discarded, and the engine reaches a command
boundary (R372).  With no hub left nothing is posted and nothing triggers (R515). -/
def State.finish (s : State) (e : Nat) (c : Cmd) (d : Done) : State :=
  if !s.hubAlive then s.atBoundary e
  else
  let s1 := s.postRecord e c d
  let s2 := if confirms (recStatus c d.status) then s1.confirmPreload e else s1.discardPreload e
  (s2.atBoundary e).endDestroys

/-- A privileged command ends in Prephor's hands: its record is posted with PREPHOR and its slot leaves parking (R571). -/
def State.finishPriv (s : State) (c : Cmd) (d : Done) : State :=
  let s1 := s.postRecord c.engine c { d with prephor := true }
  let s2 := s1.modMbx (fun m => { m with privs := m.privs.filter (fun x => decide (x ≠ c)) })
  let s3 := match c.slot with
    | none => s2
    | some k => s2.modSlot k (fun x => { x with privParked := false })
  s3.endDestroys

/-- A privileged command fails a check in Prephor's hands. -/
def State.failPriv (s : State) (c : Cmd) (f : Fail) : State := (s.noteAs .hub f).finishPriv c f.done

/-- The oldest command of an opcode in Prephor's hands. -/
def State.privOf (s : State) (op : Nat) : Option Cmd := s.mbx.privs.find? (fun c => dOp c.desc == op)

end Sys2Proof.Machine
end

