-- ==== Sys2Proof/Machine/Image.lean ====
section
/-!
DEFINITION. The Spalas image: key records, the sections and their checks, and the validation of a copy (R27 to R58, with
R250 to R254, R319, R325, R416, R418, R496, R539 and R548).  A section is read from its own bytes; a reader answers what the
section holds and how many bytes its records take.
-/
namespace Sys2Proof.Machine

/-! ## Image error codes (R58) -/

def icEmpty : Nat := 0x01
def icReadError : Nat := 0x02
def icBadMagic : Nat := 0x03
def icBadVersion : Nat := 0x04
def icBadLength : Nat := 0x05
def icLifecycle : Nat := 0x06
def icKeyRecord : Nat := 0x07
def icBadSignature : Nat := 0x08
def icRollback : Nat := 0x09
def icGradeMismatch : Nat := 0x0A
def icBadDirectory : Nat := 0x0B
def icSection (i : Nat) : Nat := 0x10 + i
def icEngClkMixed : Nat := 0x20
def icPerBinding : Nat := 0x21
def icLimBelowUse : Nat := 0x22
def icNetTopo : Nat := 0x23
def icPatchSection : Nat := 0x30
def icPatchBase : Nat := 0x31
def icPatchSignature : Nat := 0x32
def icPatchJournalFull : Nat := 0x33
def icPatchContent : Nat := 0x34

/-! ## Section headers (R36) -/

/-- The tags of R36, as four bytes. -/
def sectionTag (i : Nat) : Nat :=
  [0x4F504F54, 0x204B4C43, 0x20474E45, 0x2054454E, 0x204D454D, 0x20524550, 0x20474E52, 0x20525645, 0x204D494C, 0x20205746].getD i 0

/-- A section begins with its tag and SEC_VER 1. -/
def tagOk (i : Nat) (bs : Bytes) : Bool := decide (8 ≤ bs.length) && fld bs 0 4 == sectionTag i && fld bs 4 2 == 1

/-- COUNT of a section. -/
def secCount (bs : Bytes) : Nat := fld bs 6 2

/-- `n` records of `k` bytes at `off`, none where the bytes do not reach. -/
def records (bs : Bytes) (off k n : Nat) : Option (List Bytes) :=
  if off + k * n ≤ bs.length then some (chunks k n (bs.drop off)) else none

/-- Answers when a condition holds. -/
def need (ok : Bool) : Option Unit := if ok then some () else none

/-! ## TOPO (R38 to R40) -/

/-- USE and FAILED of a half are valid (R39). -/
def TopoHalf.ok (logical : Nat) (t : TopoHalf) : Bool :=
  let u := t.use.toNat
  popcount u 66 == logical && (t.use &&& t.failed) == 0 &&
    (upto 64).all (fun p => bit u p || bit u (p + 1) || bit u (p + 2) || decide (u < 2 ^ (p + 3)))

/-- What TOPO holds. -/
structure Topo where
  halves : List TopoHalf
  halters : List Halter
  rows : List RowRepair
  deriving DecidableEq, Repr

/-- Two row repairs take the same spare row. -/
def RowRepair.spareKey (r : RowRepair) : Nat × Nat × Nat × Nat × Nat := (r.yh, r.pcol, r.row, r.bank, r.spare)

/-- The rules of R39 and R40 that hold across records. -/
def Topo.ok (logical : Nat) (t : Topo) : Bool :=
  t.halves.length == 32 && t.halves.all (TopoHalf.ok logical) &&
    t.halters.all (fun h => (t.halves.getD h.yh TopoHalf.reset).use.getLsbD h.pcol) &&
    decide (t.halters.length ≤ 1024) && decide (t.rows.length ≤ 4096) && noRepeat (t.rows.map RowRepair.spareKey)

/-- TOPO from its bytes. -/
def readTopo (logical : Nat) (bs : Bytes) : Option (Topo × Nat) := do
  need (tagOk 0 bs && secCount bs == 32)
  let recs ← records bs 8 32 32
  need ((indexed recs).all (fun x =>
    fld x.2 0 1 == x.1 && fld x.2 1 1 == logical && rsv x.2 2 2 && decide (fld x.2 4 12 < 2 ^ 66) &&
      decide (fld x.2 0x10 12 < 2 ^ 66) && rsv x.2 0x1C 4))
  let halves := recs.map (fun r => (⟨BitVec.ofNat 66 (fld r 4 12), BitVec.ofNat 66 (fld r 0x10 12)⟩ : TopoHalf))
  let head ← records bs 1032 8 1
  let h := head.getD 0 []
  let nh := fld h 0 2
  let nr := fld h 2 2
  need (decide (nh ≤ 1024) && decide (nr ≤ 4096) && rsv h 4 4)
  let hs ← records bs 1040 4 nh
  let rs ← records bs (1040 + 4 * nh) 8 nr
  need (hs.all (fun r => decide (fld r 0 1 < 32 ∧ fld r 1 1 < 66 ∧ fld r 2 1 < 64 ∧ 1 ≤ fld r 3 1 ∧ fld r 3 1 ≤ 3)))
  need (rs.all (fun r => decide (fld r 0 1 < 32 ∧ fld r 1 1 < 66 ∧ fld r 2 1 < 64 ∧ fld r 3 1 < 12 ∧ fld r 4 1 < 2 ∧
    fld r 5 1 = 0 ∧ fld r 6 2 < 128)))
  some (⟨halves, hs.map (fun r => ⟨fld r 0 1, fld r 1 1, fld r 2 1, fld r 3 1⟩),
    rs.map (fun r => ⟨fld r 0 1, fld r 1 1, fld r 2 1, fld r 3 1, fld r 4 1, fld r 6 2⟩)⟩, 1040 + 4 * nh + 8 * nr)

/-! ## CLK (R42, R43) -/

/-- A lockstep mask that R43 allows. -/
def lockMaskOk (m : Nat) : Bool :=
  decide (m < 2 ^ 60) && (m == 0 || bit m 54) && (upto 8).all (fun k => !bit m (33 + 2 * k) || bit m (32 + 2 * k))

/-- LOCK_MASK and the 32 ceilings. -/
def readClk (bs : Bytes) : Option (Nat × List Nat) := do
  need (tagOk 1 bs && secCount bs == 0 && decide (80 ≤ bs.length))
  let m := fld bs 8 8
  let caps := (chunks 2 32 (bs.drop 16)).map ofBytes
  need (lockMaskOk m && caps.all (fun c => c == 0 || decide (1000 ≤ c ∧ c ≤ 2700)))
  some (m, caps.map (fun c => if c = 0 then 2700 else c))

/-! ## ENG (R44, R45) -/

/-- The ENG entries and the SLOTS of engines 8 to 20. -/
def readEng (bs : Bytes) : Option (List EngEntry × List Nat) := do
  let n := secCount bs
  need (tagOk 2 bs && decide (1 ≤ n ∧ n ≤ 8))
  let recs ← records bs 8 16 n
  let tail ← records bs (8 + 16 * n) 16 1
  let engs := recs.map (fun r =>
    (⟨fld r 0 1, fld r 1 1, fld r 2 1, fld r 3 1, fld r 4 1, fld r 5 1, fld r 6 1, bit (fld r 7 1) 0⟩ : EngEntry))
  need (recs.all (fun r => decide (fld r 7 1 < 2) && rsv r 8 8))
  need (engs.all (fun e => decide (e.id < 8 ∧ e.kind < 2 ∧ 1 ≤ e.w ∧ 1 ≤ e.h ∧ 1 ≤ e.slots ∧ e.slots ≤ 32 ∧
    e.x0 + e.w ≤ (if e.kind = 0 then 4 else 8) ∧ e.y0 + e.h ≤ 4)))
  need ((engs.zip (engs.drop 1)).all (fun x => decide (x.1.id < x.2.id)))
  need (noRepeat (engs.flatMap EngEntry.halves))
  let other := ((tail.getD 0 []).take 13).map BitVec.toNat
  need (rsv (tail.getD 0 []) 13 3 && other.all (fun k => decide (1 ≤ k ∧ k ≤ 32)))
  need (decide ((engs.map EngEntry.slots ++ other).foldl (· + ·) 0 ≤ 32))
  some (engs, other)

/-! ## NET (R46, R47, R250 to R254, R257) -/

/-- The tables of NET by its directory, and the bytes that they reach to.  A table that begins inside the directory, and a lane map whose SCOPE is
0xFF, are refused (DESIGN CHOICE, log entry 62). -/
def readNetTables (bs : Bytes) : Option (List NetTable × Nat) := do
  let n := secCount bs
  need (tagOk 3 bs)
  let recs ← records bs 8 16 n
  need (recs.all (fun r =>
    let kind := fld r 0 1
    let scope := fld r 1 1
    let off := fld r 4 4
    decide (1 ≤ kind ∧ kind ≤ 4) && (if kind = 4 then decide (scope < 4) else decide (scope < 32) || scope == 0xFF) &&
      (decide (fld r 2 1 ≤ 2) || fld r 2 1 == 0x0F) && rsv r 3 1 && off % 64 == 0 && decide (8 + 16 * n ≤ off) &&
      decide (off + fld r 8 4 ≤ bs.length) && fld r 12 4 == (if kind = 1 then 1024 else 0)))
  some (recs.map (fun r => ⟨fld r 0 1, fld r 1 1, fld r 2 1, (bs.drop (fld r 4 4)).take (fld r 8 4)⟩),
    (recs.map (fun r => fld r 4 4 + fld r 8 4)).foldl max (8 + 16 * n))

/-- N_C and the conveyors of a base frame table (R251). -/
def readFrameTable (t : NetTable) : Option (Nat × List Conveyor) := do
  let bs := t.data
  need (decide (t.scope < 32) && decide (32 ≤ bs.length) && fld bs 0 4 == 1024 && rsv bs 5 3 && rsv bs 12 20)
  let nc := fld bs 4 1
  let recs ← records bs 32 16 (fld bs 8 4)
  need (decide (1 ≤ nc ∧ nc ≤ 64))
  need (recs.all (fun r => (halfEdges t.scope).contains (fld r 0 2) &&
    decide (fld r 0 2 < 256 ∧ fld r 2 1 < 2 ∧ fld r 3 1 < 24 ∧ fld r 4 2 < 1024) && rsv r 6 2))
  some (nc, recs.map (fun r =>
    ⟨t.scope, fld r 0 2, fld r 2 1, fld r 3 1, fld r 4 2, fld r 8 2, fld r 10 2, fld r 12 2, fld r 14 2⟩))

/-- The ALU operations that a tree TYPE may name (R252, R257). -/
def treeOpOk (type op : Nat) : Bool :=
  if type = 0 then [1, 2, 3, 5, 6].contains op
  else if type = 1 then op == 7
  else if type = 2 then op == 0
  else if type = 0x10 ∨ type = 0x11 then op == 0
  else false

/-- The trees of a tree table, or of the control-network table (R252, R257). -/
def readTrees (t : NetTable) : Option (List Tree) := do
  let bs := t.data
  need (decide (16 ≤ bs.length) && rsv bs 4 12)
  let recs ← records bs 16 32 (fld bs 0 4)
  recs.mapM (fun r => do
    let type := fld r 0 1
    let n := fld r 4 2
    need ((if t.kind = 2 then decide (type < 3) else decide (3 ≤ type)) && treeOpOk type (fld r 1 1))
    need (decide (1 ≤ fld r 2 1 ∧ fld r 2 1 ≤ 64 ∧ 1 ≤ n ∧ 1 ≤ fld r 6 2) && rsv r 3 1 && rsv r 0x0E 2 && rsv r 0x14 12)
    need ((if type = 0 then fld r 0x0C 2 == 0xFFFF else decide (3 ≤ type) || decide (fld r 0x0C 2 < 1024)) && fld r 0x10 4 % 8 == 0)
    let nodes ← records bs (fld r 0x10 4) 8 n
    need (nodes.all (fun x => decide (fld x 0 3 / 2 ^ 22 < 3) && rsv x 7 1 &&
      [fld x 3 2, fld x 5 2].all (fun c => decide (c < n) || c == 0xFFFF)))
    some ⟨type, fld r 1 1, fld r 2 1, fld r 6 2, fld r 8 2, fld r 0x0A 2, fld r 0x0C 2,
      nodes.map (fun x => ⟨fld x 0 3 / 2 ^ 22, fld x 0 3 % 2 ^ 22, fld x 3 2, fld x 5 2⟩)⟩)

/-- A link lane map: 16 bytes, exactly 96 active lanes (R47). -/
def readLaneMap (t : NetTable) : Option (Nat × BitVec 108) := do
  let v := ofBytes (t.data.take 16)
  need (decide (t.data.length = 16) && decide (v < 2 ^ 108) && popcount v 108 == 96)
  some (t.scope, BitVec.ofNat 108 v)

/-- Each shed's conveyors of a direction reach every core exactly once (R250). -/
def State.membersOk (s : State) (cs : List Conveyor) (n : Nat) : Bool :=
  (upto 8).all (fun k => (upto 2).all (fun dir =>
    ((cs.filter (fun c => decide (c.edge / 32 = k ∧ c.dir = dir))).flatMap (fun c => c.members n)).mergeSort
        (fun a b => decide (a.2 * (8 * s.logical) + a.1 ≤ b.2 * (8 * s.logical) + b.1)) =
      (upto s.coreCount).map (fun i => (i % (8 * s.logical), i / (8 * s.logical)))))

/-- The nodes of a tree name places of the module, and DEPTH is its levels from leaf to root (R252; DEDUCED, log entry 67). -/
def State.treePlaced (s : State) (t : Tree) : Bool :=
  t.nodes.all (fun n => if n.kind = 0 then decide (n.loc < s.coreCount) else if n.kind = 1 then decide (n.loc < 384) else decide (n.loc < 4)) &&
    t.levels 64 0 == t.depth

/-- No two hops use the same output of the same router in the same slot, and none enters a seam in a control slot (R237, R250, R258). -/
def State.baseFree (s : State) (net : Net) : Bool :=
  let us := s.baseUses net
  noRepeat (us.map (fun u => (u.router, u.slot, u.out))) && us.all (fun u => decide (u.out < 6) && !u.inControlSlot s.logical)

/-- NET from its tables. -/
def State.readNet (s : State) (tables : List NetTable) : Option Net := do
  let frames ← (tables.filter (fun t => t.kind == 1)).mapM readFrameTable
  let trees ← (tables.filter (fun t => t.kind == 2)).mapM readTrees
  let ctl ← (tables.filter (fun t => t.kind == 3)).mapM readTrees
  let lanes ← (tables.filter (fun t => t.kind == 4)).mapM readLaneMap
  let scopes := (tables.filter (fun t => t.kind == 1)).map NetTable.scope
  need (scopes.length == 32 && noRepeat scopes && lanes.length == 4 && noRepeat (lanes.map Prod.fst))
  let nC := (frames.map Prod.fst).headD 0
  let net : Net := ⟨tables, nC, (frames.map Prod.snd).flatten, trees.flatten, ctl.flatten,
    lanes.foldl (fun m x => sset 0 m x.1 x.2) []⟩
  need (frames.all (fun f => f.1 == nC) && decide (treeCount net.trees ≤ 2 ^ 24))
  need (net.conveyors.all (fun c => c.pathOk s.logical nC) && s.membersOk net.conveyors nC)
  need ((net.trees ++ net.ctlTrees).all s.treePlaced && net.trees.all (fun t => t.type != 1 || s.treeTimed t))
  need (s.baseFree net)
  some net

/-! ## MEM (R48, R49, R319, R325) -/

/-- What MEM holds; a translation entry stands under its virtual page. -/
structure MemSec where
  sheds : List ShedRec
  resv : List Nat
  xlat : List (Nat × Xlat)
  deriving DecidableEq, Repr

/-- The rules of R48 and R49 that hold across records.  A frame of slice 63 stays free of mapped and reserved ones for page 255: the frame that
page 255 itself holds is that one (R49, R467; DEDUCED, log entry 16). -/
def MemSec.ok (m : MemSec) : Bool :=
  let valid := m.xlat.filter (fun x => x.2.valid)
  m.sheds.length == 8 &&
    m.sheds.all (fun x => popcount x.active.toNat 13 == 12 && (x.active &&& x.failed) == 0) &&
    m.sheds.all (fun x => x.rate == (m.sheds.headD ShedRec.reset).rate) &&
    noRepeat (m.xlat.map Prod.fst) &&
    valid.all (fun x => x.2.ppage % 192 == x.1 % 192 && !m.resv.contains x.2.ppage) &&
    (upto 248).any (fun f => !m.resv.contains (63 + 192 * f) && !valid.any (fun x => x.1 != 255 && x.2.ppage == 63 + 192 * f))

/-- MEM from its bytes. -/
def readMem (bs : Bytes) : Option (MemSec × Nat) := do
  need (tagOk 4 bs && secCount bs == 8)
  let recs ← records bs 8 16 8
  need ((indexed recs).all (fun x =>
    fld x.2 0 1 == x.1 && decide (fld x.2 1 1 < 5 ∧ fld x.2 2 2 < 2 ^ 13 ∧ fld x.2 4 2 < 2 ^ 13 ∧ fld x.2 6 2 < 32) && rsv x.2 8 8))
  let rc ← records bs 136 4 1
  let n := fld (rc.getD 0 []) 0 4
  let resv ← records bs 140 4 n
  let xc ← records bs (140 + 4 * n) 4 1
  let k := fld (xc.getD 0 []) 0 4
  need (decide (k ≤ 65536))
  let xs ← records bs (144 + 4 * n) 8 k
  need (resv.all (fun r => decide (ofBytes r < pageCount)))
  need (xs.all (fun x => decide (ofBytes x < 2 ^ 35) && decide (fld x 2 2 < pageCount) && fld x 0 2 != 255))
  some (⟨recs.map (fun r => ⟨fld r 1 1, BitVec.ofNat 13 (fld r 2 2), BitVec.ofNat 13 (fld r 4 2), fld r 6 2⟩),
    resv.map ofBytes,
    xs.map (fun x => (fld x 0 2, ⟨fld x 2 2, bit (fld x 4 1) 0, bit (fld x 4 1) 1, bit (fld x 4 1) 2, none⟩))⟩,
    144 + 4 * n + 8 * k)

/-! ## PER (R50, R51, R416) -/

/-- Bytes of a stream's region with the ingress status record (R416). -/
def PerStream.regionLen (x : PerStream) : Nat := (x.length + 15) / 16 * 16 + (if x.dir = 0 then 16 else 0)

/-- Offset, logical column and row of SP_OFFSET (R416). -/
def PerStream.off (x : PerStream) : Nat := x.spOff % 2 ^ 19
def PerStream.col (x : PerStream) : Nat := bits x.spOff 24 19
def PerStream.row (x : PerStream) : Nat := bits x.spOff 30 25

/-- Two regions of one core overlap. -/
def regionsMeet (a b : PerStream) : Bool :=
  decide (a.yh = b.yh ∧ a.col = b.col ∧ a.row = b.row ∧ a.off < b.off + b.regionLen ∧ b.off < a.off + a.regionLen)

/-- No two regions overlap (R416). -/
def regionsApart : List PerStream → Bool
  | [] => true
  | x :: xs => xs.all (fun y => !regionsMeet x y) && regionsApart xs

/-- Reads `n` programs, each followed by its streams. -/
def readProgs (bs : Bytes) : Nat → Nat → Option (List PerProg × List PerStream × Nat)
  | 0, off => some ([], [], off)
  | n + 1, off => do
    let recs ← records bs off 36 1
    let r := recs.getD 0 []
    let p : PerProg := ⟨fld r 0 1, fld r 1 1, fld r 2 1, fld r 4 4, fld r 8 4, fld r 12 4, fld r 16 8, fld r 24 4, fld r 28 2⟩
    need (decide (p.prog < 8 ∧ p.tickSrc < 2 ∧ 5000 ≤ p.period ∧ p.period ≤ 125000 ∧ p.phase < p.period ∧ 1 ≤ p.egress ∧
      p.egress ≤ p.period ∧ p.footShare ≤ 1024) && rsv r 3 1 && rsv r 30 2)
    let ss ← records bs (off + 36) 16 (fld r 32 4)
    let streams := ss.map (fun x => (⟨fld x 0 1, fld x 1 1, fld x 2 1, fld x 3 1, fld x 4 2, fld x 6 2, fld x 8 4⟩ : PerStream))
    need (ss.all (fun x => rsv x 12 4))
    need (streams.all (fun x => decide (x.port < 8 ∧ x.dir < 2 ∧ x.prog = p.prog ∧ 1 ≤ x.length ∧ x.length ≤ 1500 ∧
      x.spOff < 2 ^ 31 ∧ x.off % 16 = 0 ∧ x.off + x.regionLen ≤ spadBytes)))
    let rest ← readProgs bs n (off + 36 + 16 * ss.length)
    some (p :: rest.1, streams ++ rest.2.1, rest.2.2)

/-- PER from its bytes. -/
def readPer (logical : Nat) (bs : Bytes) : Option (List PerProg × List PerStream) := do
  need (tagOk 5 bs && decide (secCount bs ≤ 8))
  let r ← readProgs bs (secCount bs) 8
  need (noRepeat (r.1.map PerProg.prog) && r.2.1.all (fun x => decide (x.col < logical)) && regionsApart r.2.1)
  some (r.1, r.2.1)

/-! ## RNG, EVR, LIM, FW (R52 to R56) -/

def readRngSec (bs : Bytes) : Option RngParams := do
  need (tagOk 6 bs && secCount bs == 0 && decide (16 ≤ bs.length) && rsv bs 14 2)
  let p : RngParams := ⟨fld bs 8 2, fld bs 10 2, fld bs 12 1, fld bs 13 1⟩
  need (decide (16 ≤ p.rct ∧ p.rct ≤ 64 ∧ 560 ≤ p.apt ∧ p.apt ≤ 900 ∧ 6 ≤ p.reseedLog2 ∧ p.reseedLog2 ≤ 10 ∧
    p.reseedLog2 ≤ p.stretchLog2 ∧ p.stretchLog2 ≤ 24))
  some p

/-- TRACE_SRC and the triggers, given the count of reserved pages (R53, R539, R548).  Of a trigger's offsets the first NREG are read, and only they
must lie in BAR0 (DESIGN CHOICE, log entry 62). -/
def readEvr (resv : Nat) (bs : Bytes) : Option ((BitVec 64 × List Trigger) × Nat) := do
  let n := secCount bs
  need (tagOk 7 bs && decide (n ≤ 256) && decide (24 ≤ bs.length) && rsv bs 16 8)
  let src := fld bs 8 8
  need (decide (src < 2 ^ 9) && (src == 0 || decide (64 ≤ resv)))
  let recs ← records bs 24 32 n
  need (recs.all (fun r =>
    Ev.all.any (fun e => e.idSev.1 == fld r 0 2) && decide (fld r 2 1 < 2 ∧ fld r 3 1 ≤ 6) && rsv r 28 4 &&
      (upto (fld r 3 1)).all (fun i => decide (fld r (4 + 4 * i) 4 < 0x4000000))))
  let ts := recs.map (fun r => (⟨fld r 0 2, fld r 2 1 == 1, (upto (fld r 3 1)).map (fun i => fld r (4 + 4 * i) 4)⟩ : Trigger))
  need (noRepeat (ts.map Trigger.event))
  some ((BitVec.ofNat 64 src, ts), 24 + 32 * n)

/-- The classes and reservations of LIM (R54).  A reservation whose PROG is no program number is refused; of two that name one PROG the first
counts (DESIGN CHOICE, log entry 62). -/
def readLim (bs : Bytes) : Option ((List ClassRec × List Resv) × Nat) := do
  let n := secCount bs
  need (tagOk 8 bs && decide (n ≤ 8))
  let cs ← records bs 8 16 4
  let rs ← records bs 72 16 n
  need (cs.all (fun r => decide (1 ≤ fld r 1 1 ∧ fld r 1 1 ≤ 32 ∧ fld r 0 1 ≤ fld r 1 1) && rsv r 2 2 && rsv r 10 6))
  need (decide ((cs.map (fun r => fld r 0 1)).foldl (· + ·) 0 ≤ 32))
  need (rs.all (fun r => decide (fld r 0 1 < 8) && rsv r 1 3 && rsv r 12 4))
  some ((cs.map (fun r => ⟨fld r 0 1, fld r 1 1, fld r 4 4, fld r 8 2⟩),
    rs.map (fun r => ⟨fld r 0 1, fld r 4 4, fld r 8 2, fld r 10 2⟩)), 72 + 16 * n)

/-- The thresholds of the FW section (R56, R496). -/
def readFw (bs : Bytes) : Option (List (Nat × Nat)) := do
  need (tagOk 9 bs && secCount bs == 0 && decide (24 ≤ bs.length) && rsv bs 20 4)
  let entry := fld bs 12 4
  let len := fld bs 16 4
  need (decide (64 ≤ entry ∧ entry < len ∧ 24 + len ≤ bs.length) && rsv bs 64 24)
  let es := chunks 8 5 (bs.drop 24)
  need (es.all (fun r => allZero r || (decide (2 ≤ fld r 0 1 ∧ 1 ≤ fld r 4 4 ∧ fld r 4 4 ≤ 16777215) && rsv r 1 3)))
  some ((es.zip defaultThresholds).map (fun x => if allZero x.1 then x.2 else (fld x.1 0 1, fld x.1 4 4)))

/-! ## Checks across sections (R51, R55, R57 steps 13 to 16) -/

/-- The halves of an engine all stand inside LOCK_MASK, or all outside (step 13). -/
def EngEntry.unmixed (m : Nat) (e : EngEntry) : Bool := e.halves.all (fun d => bit m d) || e.halves.all (fun d => !bit m d)

/-- A program's engine binding and its streams' halves (R51).  An ENG_ID that names no engine meets neither condition (DESIGN CHOICE, log
entry 62). -/
def bindingOk (m : Nat) (engs : List EngEntry) (streams : List PerStream) (p : PerProg) : Bool :=
  match engs.find? (fun e => e.id == p.eng) with
  | none => false
  | some e =>
    ((e.rt && e.halves.all (fun d => bit m d)) ||
      (decide (e.kind = 1 ∧ e.w = 1 ∧ e.h = 1) && e.halves.all (fun d => !bit m d))) &&
    streams.all (fun x => decide (x.prog ≠ p.prog) || e.halves.contains x.yh)

/-- The logical core index of a stream's region (R69, R70, R416). -/
def PerStream.core (logical : Nat) (x : PerStream) : Nat :=
  (halfRow x.yh * 64 + x.row) * 8 * logical + halfCol x.yh * logical + x.col

/-- Stream `j` travels on tree `j`: its TYPE, its root the region's core, its single leaf on the east face of Y07 (R418). -/
def streamTreeOk (logical : Nat) (ts : List Tree) (j : Nat) (x : PerStream) : Bool :=
  match treeOf ts j with
  | none => false
  | some (t, _) =>
    let leaves := t.nodes.filter (fun n => n.children.isEmpty)
    decide (t.type = if x.dir = 0 then 1 else 2) &&
      (match t.nodes.head? with
        | some n => decide (n.kind = 0 ∧ n.loc = x.core logical)
        | none => false) &&
      leaves.length == 1 && leaves.all (fun n => decide (n.kind = 1 ∧ 336 ≤ n.loc ∧ n.loc ≤ 351))

/-- NET against PER (R418). -/
def streamTreesOk (logical : Nat) (ts : List Tree) (streams : List PerStream) : Bool :=
  (indexed streams).all (fun x => streamTreeOk logical ts x.1 x.2)

/-- LIM against PER (R55). -/
def limOk (progs : List PerProg) (rs : List Resv) : Bool :=
  rs.all (fun r => progs.all (fun p => decide (p.prog ≠ r.prog) || decide (p.footPages ≤ r.pages ∧ p.footShare ≤ r.share)))

/-! ## Key records (R31) -/

/-- A key record: REC_SEQ, MIN_SEC_VERSION and the customer key. -/
structure KeyRec where
  seq : Nat
  minSec : Nat
  key : Nat × Nat
  deriving DecidableEq, Repr

/-- The record of a slot, when it is valid. -/
def State.keyAt (s : State) (slot : Nat) : Option KeyRec :=
  let b := s.flashRead (flashKey slot) 0xD0
  if fld b 0 4 = 0x524B5053 ∧ fld b 0x0C 4 = 0 ∧ verify Config.rootKey (b.take 0x70) (b.drop 0x70) then
    some ⟨fld b 4 4, fld b 8 4, (fld b 0x10 48, fld b 0x40 48)⟩
  else none

/-- The key record in force: the higher REC_SEQ, slot 0 on a tie. -/
def State.keyRec (s : State) : Option KeyRec :=
  match s.keyAt 0, s.keyAt 1 with
  | some a, some b => if a.seq < b.seq then some b else some a
  | some a, none => some a
  | none, x => x

/-! ## Validation (R57) -/

/-- The sections of a copy read and checked in order (steps 12 to 16), or the first failing code. -/
def State.readSections (s : State) (grade seq ver build : Nat) (sec : Nat → Bytes) : Except Nat Image :=
  let get {α : Type} (i : Nat) (x : Option α) : Except Nat α := match x with
    | some a => .ok a
    | none => .error (icSection i)
  let check (ok : Bool) (code : Nat) : Except Nat Unit := if ok then .ok () else .error code
  do
    let topo ← get 0 (readTopo s.logical (sec 0))
    check (topo.1.ok s.logical) (icSection 0)
    let clk ← get 1 (readClk (sec 1))
    let eng ← get 2 (readEng (sec 2))
    let tables ← get 3 (readNetTables (sec 3))
    let net ← get 3 (s.readNet tables.1)
    let mem ← get 4 (readMem (sec 4))
    check mem.1.ok (icSection 4)
    let per ← get 5 (readPer s.logical (sec 5))
    let rng ← get 6 (readRngSec (sec 6))
    let evr ← get 7 (readEvr mem.1.resv.length (sec 7))
    let lim ← get 8 (readLim (sec 8))
    let fw ← get 9 (readFw (sec 9))
    check (eng.1.all (EngEntry.unmixed clk.1)) icEngClkMixed
    check (per.1.all (bindingOk clk.1 eng.1 per.2)) icPerBinding
    check ((net.tables.filter (fun t => t.kind == 1)).all (fun t => t.grade == grade) &&
      streamTreesOk s.logical net.trees per.2) icNetTopo
    check (limOk per.1 lim.1.2) icLimBelowUse
    .ok
      { imageSeq := seq, secVersion := ver, buildId := build,
        topo := (indexed topo.1.halves).foldl (fun m x => sset TopoHalf.reset m x.1 x.2) [],
        halters := topo.1.halters, rows := topo.1.rows, lockMask := BitVec.ofNat 64 clk.1,
        freeCap := (indexed clk.2).foldl (fun m x => sset 0 m x.1 x.2) [],
        engs := eng.1, otherSlots := eng.2, net := net,
        sheds := (indexed mem.1.sheds).foldl (fun m x => sset ShedRec.reset m x.1 x.2) [],
        resv := mem.1.resv, xlat := mem.1.xlat.foldl (fun m x => sset Xlat.reset m x.1 x.2) [],
        progs := per.1, streams := per.2, rng := rng, traceSrc := evr.1.1, triggers := evr.1.2,
        classes := lim.1.1, reservations := lim.1.2, thresholds := fw }

/-- What a validated copy gives: the image and whether it is a FACTORY one (R33). -/
structure Valid where
  img : Image
  factory : Bool
  deriving DecidableEq, Repr

/-- Validation of an image copy in the order of R57; `readErr` tells of an xSPI error.  An IMAGE_LEN past the end of the last section is accepted,
and one that does not reach past the header is refused with BAD_LENGTH (R34; DESIGN CHOICE, log entry 62). -/
def State.validate (s : State) (copyB readErr : Bool) : Except Nat Valid :=
  let base := flashImage copyB
  let h := s.flashRead base 256
  let len := fld h 0x0C 4
  let signer := fld h 9 1
  let grade := fld h 8 1
  let check (ok : Bool) (code : Nat) : Except Nat Unit := if ok then .ok () else .error code
  do
    check (!h.all (fun b => b == 0xFF)) icEmpty
    check (!readErr) icReadError
    check (fld h 0 4 == 0x4C415053) icBadMagic
    check (fld h 4 2 == 1) icBadVersion
    check (len % 64 == 0 && decide (256 ≤ len ∧ len ≤ 0x2000000) && rsv h 0x0A 2 && rsv h 0xE0 32) icBadLength
    check (signer == 0 || (signer == 1 && s.pwr.testLow)) icLifecycle
    check (signer == 1 || s.keyRec.isSome) icKeyRecord
    let rec_ := s.keyRec.getD ⟨0, 0, (0, 0)⟩
    let raw := s.flashRead base len
    check (verify (if signer = 1 then Config.factoryKey else rec_.key) (raw.take 0x80 ++ zeros 96 ++ raw.drop 0xE0)
      ((raw.drop 0x80).take 96)) icBadSignature
    check (signer == 1 || decide (rec_.minSec ≤ fld h 0x10 4)) icRollback
    check (grade == s.pwr.grade || (grade == 0x0F && signer == 1)) icGradeMismatch
    let dir := (chunks 8 10 (h.drop 0x20)).map (fun r => (fld r 0 4, fld r 4 4))
    let sec (i : Nat) : Bytes := (raw.drop (dir.getD i (0, 0)).1).take (dir.getD i (0, 0)).2
    check (rsv h 0x70 16 && dir.all (fun x => x.1 % 64 == 0 && decide (256 ≤ x.1 ∧ x.1 + x.2 ≤ len)) &&
      (dir.zip (dir.drop 1)).all (fun x => decide (x.1.1 < x.2.1 ∧ x.1.1 + x.1.2 ≤ x.2.1)) &&
      (upto 10).all (fun i => tagOk i (sec i))) icBadDirectory
    let img ← s.readSections grade (fld h 0x14 4) (fld h 0x10 4) (fld h 0x18 8) sec
    .ok ⟨img, signer == 1⟩

end Sys2Proof.Machine
end

