-- ==== Sys2Proof/Machine/RouteObject.lean ====
section
/-!
DEFINITION. Route objects (R206 to R209, R215, R231): the header, the expert table, the token map, the landing places of capacity slots, and
the checks of ROUTE and COMBINE.
-/
namespace Sys2Proof.Machine

/-! ## The header (R206) -/

def roId (h : Bytes) : Nat := fld h 4 1
def roK (h : Bytes) : Nat := fld h 5 1
def roTopk (h : Bytes) : Nat := fld h 6 1
def roOver (h : Bytes) : Nat := bits (fld h 7 1) 1 0
def roArrival (h : Bytes) : Bool := bit (fld h 7 1) 2
def roSpec (h : Bytes) : Bool := bit (fld h 7 1) 3
def roGate (h : Bytes) : Nat := bits (fld h 7 1) 5 4
def roExperts (h : Bytes) : Nat := fld h 8 2
def roRow (h : Bytes) : Nat := fld h 0x0A 2
def roElems (h : Bytes) : Nat := fld h 0x0C 2
def roFmt (h : Bytes) : Nat := fld h 0x0E 1
def roBase (h : Bytes) : Nat := fld h 0x10 4
def roCount (h : Bytes) : Nat := fld h 0x14 4
def roTopkOff (h : Bytes) : Nat := fld h 0x18 4
def roRowOff (h : Bytes) : Nat := fld h 0x1C 4
def roRsOff (h : Bytes) : Nat := fld h 0x20 4
def roOutOff (h : Bytes) : Nat := fld h 0x24 4
def roResOff (h : Bytes) : Nat := fld h 0x28 4
def roTree0 (h : Bytes) : Nat := fld h 0x2C 4
def roMap (h : Bytes) : Nat := fld h 0x30 8
def roTable (h : Bytes) : Nat := fld h 0x38 8

/-- There is no residual. -/
def roNoRes (h : Bytes) : Bool := roResOff h == 0xFFFFFFFF

/-- Bytes of a combined row and of an output slot. -/
def roStride (h : Bytes) : Nat := roElems h * (fmtBits (fmtOf (roFmt h)) / 8)

/-- Token records of a token (R209). -/
def roPerToken (h : Bytes) : Nat := if 4 < roK h then 2 else 1

/-- Record `x` of token `i`: with two records a token takes consecutive ones (DEDUCED, log entry 29). -/
def roRecord (h : Bytes) (i x : Nat) : Nat := roBase h + roPerToken h * i + x

/-! ## Expert table, token map and slots (R207, R208) -/

/-- An entry of the expert table. -/
structure Expert where
  kind : Nat
  home : Nat
  cap : Nat
  catchup : Nat
  defer : Nat
  slotOff : Nat
  soutOff : Nat
  deriving DecidableEq, Repr

def expertAt (b : Bytes) (e : Nat) : Expert :=
  let f (o n : Nat) := fld b (16 * e + o) n
  ⟨f 0 1, f 1 1, f 2 2, f 4 2, f 6 2, f 8 4, f 0x0C 4⟩

/-- The expert table. -/
def State.expertsOf (s : State) (h : Bytes) : List Expert :=
  let b := s.devBytes (roTable h) (16 * roExperts h)
  (upto (roExperts h)).map (expertAt b)

/-- The home core and the row slot of every token. -/
def State.tokensOf (s : State) (h : Bytes) : List (Nat × Nat) :=
  (wordsOf 4 (roCount h) (s.devBytes (roMap h) (4 * roCount h))).map (fun w => (w % 2 ^ 17, w / 2 ^ 17))

/-- Slots of an expert. -/
def Expert.slots (x : Expert) : Nat := x.cap + x.catchup + 2 * x.defer

/-- The first slot of defer bank `b`. -/
def Expert.bank (x : Expert) (b : Nat) : Nat := x.cap + x.catchup + b * x.defer

/-- The yard halves of an expert's home. -/
def Expert.halves (x : Expert) : List Nat := if x.kind = 0 then [2 * x.home, 2 * x.home + 1] else [x.home]

/-- The landing core of dispatch tree `n`: its root. -/
def State.landCore (s : State) (n : Nat) : Option Nat :=
  match treeOf s.img.net.trees n with
  | some (t, _) => if t.type = 1 then (t.nodes.head?.bind (fun r => if r.kind = 0 then some r.loc else none)) else none
  | none => none

/-- The landing cores of all slots, expert by expert from TREE0; none where a tree is missing, no dispatch tree, or a stream tree (R254, R418). -/
def State.landCores (s : State) (h : Bytes) (xs : List Expert) : Option (List Nat) :=
  let n := (xs.map Expert.slots).foldl (· + ·) 0
  if roTree0 h < s.img.streams.length then none else ((upto n).mapM (fun i => s.landCore (roTree0 h + i)))

/-- Landing cores with the position on the core: a slot comes after the object's earlier slots there (DEDUCED, log entry 29). -/
def positions (cores : List Nat) : List (Nat × Nat) :=
  (cores.foldl (fun (r : Sparse Nat × List (Nat × Nat)) c =>
    let q := sget 0 r.1 c
    (sset 0 r.1 c (q + 1), (c, q) :: r.2)) ([], [])).2.reverse

/-- The slots of each expert: landing core and position. -/
def splitSlots : List Expert → List (Nat × Nat) → List (List (Nat × Nat))
  | [], _ => []
  | x :: xs, ps => ps.take x.slots :: splitSlots xs (ps.drop x.slots)

def State.slotsOfExperts (s : State) (h : Bytes) (xs : List Expert) : List (List (Nat × Nat)) :=
  splitSlots xs (positions ((s.landCores h xs).getD []))

/-! ## The checks of R209 -/

/-- The bounds of the header (R206). -/
def roBounds (h : Bytes) : Option Fail :=
  let bad (o : Nat) := badFormat obRoute o
  let f := roFmt h
  firstOf
    [ chk (fld h 0 4 = 0x54525053) (bad 0),
      chk (1 ≤ roK h ∧ roK h ≤ 8) (bad 5),
      chk (roK h ≤ roTopk h ∧ roTopk h ≤ 8) (bad 6),
      chk (roOver h ≤ 2 ∧ roGate h ≤ 2 ∧ fld h 7 1 < 64) (bad 7),
      chk (1 ≤ roExperts h ∧ roExperts h ≤ 4096) (bad 8),
      chk (16 ≤ roRow h ∧ roRow h ≤ 4096 ∧ roRow h % 16 = 0) (bad 0x0A),
      chk (8 ≤ roElems h ∧ roElems h ≤ 1024 ∧ roElems h % 8 = 0) (bad 0x0C),
      chk (f = 8 ∨ f = 9 ∨ f = 10) (bad 0x0E),
      chkZero obRoute h 0x0F 1,
      chk (roBase h < 131072) (bad 0x10),
      chk (1 ≤ roCount h ∧ roCount h ≤ if 4 < roK h then 65536 else 131072) (bad 0x14),
      chk (roMap h % 4 = 0) (bad 0x30),
      chk (roTable h % 16 = 0) (bad 0x38) ]

/-- The bounds of the expert table (R207). -/
def expertBounds (h : Bytes) (xs : List Expert) : Option Fail :=
  firstOf (xs.zipIdx.flatMap (fun x =>
    let bad (o : Nat) := badFormat obExpert (16 * x.2 + o)
    [ chk (x.1.kind ≤ 1) (bad 0),
      chk (x.1.home < if x.1.kind = 1 then 32 else 16) (bad 1),
      chk (1 ≤ x.1.cap ∧ x.1.cap ≤ 1024) (bad 2),
      chk (x.1.catchup ≤ 1024) (bad 4),
      chk (x.1.defer ≤ 512 ∧ (roOver h = 1 ∨ x.1.defer = 0)) (bad 6) ]))

/-- An area of `n` places of `size` bytes at a 16-byte aligned offset inside the scratchpad. -/
def areaIn (off n size : Nat) : Bool := decide (off % 16 = 0 ∧ off + n * size ≤ spadBytes)

/-- Row slots that the token map uses. -/
def rowSlots (toks : List (Nat × Nat)) : Nat := (toks.map (fun t => t.2 + 1)).foldl max 0

/-- Scratchpad offsets and areas (R209). -/
def roAreas (h : Bytes) (xs : List Expert) (toks : List (Nat × Nat)) (land : List (List (Nat × Nat))) : Option Fail :=
  let n := rowSlots toks
  let bad (o : Nat) := badFormat obRoute o
  firstOf (
    [ chk (areaIn (roTopkOff h) n 64) (bad 0x18),
      chk (areaIn (roRowOff h) n (roRow h)) (bad 0x1C),
      chk (areaIn (roRsOff h) n 16) (bad 0x20),
      chk (areaIn (roOutOff h) n (roStride h)) (bad 0x24),
      chk (roNoRes h || areaIn (roResOff h) n (roStride h)) (bad 0x28) ] ++
    (xs.zip land).zipIdx.flatMap (fun y =>
      let q := (y.1.2.map (fun p => p.2 + 1)).foldl max 0
      [ chk (areaIn y.1.1.slotOff q (16 + roRow h)) (badFormat obExpert (16 * y.2 + 8)),
        chk (areaIn y.1.1.soutOff q (roStride h)) (badFormat obExpert (16 * y.2 + 0x0C)) ]))

/-- Every expert's home and every token's home core lies inside an assigned engine (R209). -/
def State.roHomes (s : State) (xs : List Expert) (toks : List (Nat × Nat)) : Option Fail :=
  let in_ (x : Expert) : Bool := match x.halves.map s.engineOf with
    | some e :: rest => rest.all (fun y => y == some e)
    | _ => false
  firstOf (
    xs.zipIdx.map (fun x => chk (in_ x.1) (badFormat obExpert (16 * x.2 + 1))) ++
    toks.zipIdx.map (fun t => chk (decide (t.1.1 < s.coreCount) && (s.engineOf (s.coreAt t.1.1).yh).isSome) (badFormat obTokens (4 * t.2))))

/-- A token record: its ROUTE_ID and FLAGS (R210). -/
def recId (r : Nat) : Nat := r % 256
def recFlags (r : Nat) : Nat := r / 256 % 256

/-- A VALID record of the range carries another ROUTE_ID (R209). -/
def State.foreignRecord (s : State) (h : Bytes) : Bool :=
  s.route.recs.any (fun x => decide (roBase h ≤ x.1) && decide (x.1 < roBase h + roPerToken h * roCount h) && bit (recFlags x.2) 0 &&
    recId x.2 != roId h)

/-- The route object at an address, with its last committed step. -/
def State.routeObj (s : State) (a : Nat) : Option RouteObj := s.route.objs.find? (fun o => o.addr == a)

/-- The checks of R209 over the header at `a`. -/
def State.roCheck (s : State) (a : Nat) (start : Bool) : Option Fail :=
  let h := s.devBytes a 64
  let xOk := (s.chkReads (roTable h) (16 * roExperts h)).isNone
  let tOk := (s.chkReads (roMap h) (4 * roCount h)).isNone
  let xs := if xOk then s.expertsOf h else []
  let toks := if tOk then s.tokensOf h else []
  let n := rowSlots toks
  firstOf
    [ roBounds h, expertBounds h xs,
      chk (roOver h ≠ 1 ∨ roK h ≤ 4) (badFormat obRoute 7),
      chk (s.landCores h xs).isSome (badFormat obRoute 0x2C),
      roAreas h xs toks (s.slotsOfExperts h xs),
      s.roHomes xs toks,
      chk (roNoRes h || decide (roOutOff h + n * roStride h ≤ roResOff h ∨ roResOff h + n * roStride h ≤ roOutOff h)) (badFormat obRoute 0x28),
      chk (roBase h + roPerToken h * roCount h ≤ 131072) (badFormat obRoute 0x14),
      chk (start || !s.foreignRecord h) (badFormat obRoute 4),
      chk (((s.routeObj a).map RouteObj.isOpen).getD false == false && decide ((s.route.objs.filter RouteObj.isOpen).length < 8))
        (badFormat obRoute noField),
      s.chkReads (roMap h) (4 * roCount h),
      s.chkReads (roTable h) (16 * roExperts h) ]

/-! ## Expert commands (R229) -/

/-- An expert command: a TENSOR that names a route object and has no top-k stream, which is what marks the router command (R216, R229; DEDUCED, log
entry 66). -/
def Sched.expert (x : Sched) : Bool :=
  decide (soKind x.header = 1 ∧ soAux x.header ≠ 0) && x.streams.all (fun t => decide (fld t 0 1 ≠ 2 ∨ fld t 0x34 1 = 0))

/-- The output slots of a route object that land on a core: their first byte and the byte after their last (R207). -/
def State.outSlots (s : State) (aux core : Nat) : List (Nat × Nat) :=
  let h := s.devBytes aux 64
  let xs := s.expertsOf h
  (xs.zip (s.slotsOfExperts h xs)).flatMap (fun y =>
    (y.2.filter (fun p => p.1 == core)).map (fun p => (y.1.soutOff + p.2 * roStride h, y.1.soutOff + (p.2 + 1) * roStride h)))

/-- The rules of R229 on the output streams of an expert command, before any core starts: SCALE_MODE 0x00 or 0x02, the route object's
OUT_FMT, and an output area that begins in an output slot on one of its cores.  How far the tiles of each core reach is known with them. -/
def State.expertCheck (s : State) (x : Sched) : Option Fail :=
  if !x.expert then none
  else
    let aux := soAux x.header
    let fmt := roFmt (s.devBytes aux 64)
    (indexed x.streams).findSome? (fun t =>
      let bad (o : Nat) := badFormat obStream (128 * t.1 + o)
      if fld t.2 0 1 ≠ 2 then none
      else firstOf
        [ chk (fld t.2 0x11 1 = 0 ∨ fld t.2 0x11 1 = 2) (bad 0x11),
          chk (fld t.2 0x10 1 = fmt) (bad 0x10),
          chk (x.cores.any (fun k => (s.outSlots aux k).any (fun p => decide (p.1 ≤ fld t.2 0x48 4 ∧ fld t.2 0x48 4 < p.2))))
            (bad 0x48) ])

/-! ## ROUTE and COMBINE (R209, R215, R231) -/

def rtAddr (t : Bytes) : Nat := fld t 0 8
def rtStep (t : Bytes) : Nat := fld t 8 4
def rtStart (t : Bytes) : Bool := bit (fld t 0x0C 1) 0
def rtLand (t : Bytes) : Nat := fld t 0x0D 1
def rtCatch (t : Bytes) : Nat := fld t 0x0E 1

/-- START clears VALID in the record range (R213). -/
def State.clearRange (s : State) (h : Bytes) : State :=
  s.modRoute (fun r => { r with recs := r.recs.filterMap (fun (x : Nat × Nat) =>
    if roBase h ≤ x.1 ∧ x.1 < roBase h + roPerToken h * roCount h ∧ bit (recFlags x.2) 0 then
      (if x.2 - 256 = 0 then none else some (x.1, x.2 - 256))
    else some x) })

/-- A ROUTE with START begins: it owns the record range, and the deferred contributions of its route object are dropped (R213, R218, R235). -/
def State.startRoute (s : State) (t : Bytes) : State :=
  let n := (((s.routeObj (rtAddr t)).map RouteObj.deferred).getD []).length
  ((s.clearRange (s.devBytes (rtAddr t) 64)).modRoute (fun r => { r with objs := r.objs.map (fun (o : RouteObj) =>
    if o.addr = rtAddr t then { o with deferred := [] } else o) })).bumpBy .route 0 12 n

/-- The speculative pairs of a ROUTE that is killed or runs again are discarded (R224, R235). -/
def State.discardSent (s : State) : State :=
  (s.bumpBy .route 0 7 s.route.sent.length).modRoute (fun r => { r with sent := [] })

/-- STEP follows the last committed step of the route object (R215). -/
def State.stepFollows (s : State) (t : Bytes) : Bool :=
  match s.routeObj (rtAddr t) with
  | some o => decide (rtStep t = (o.step + 1) % 2 ^ 32)
  | none => false

/-- ROUTE: its tack block, then its route object. -/
def State.routeCheck (s : State) (t : Bytes) : Option Fail :=
  let bad (o : Nat) := badFormat obTack o
  firstOf
    [ chk (rtAddr t % 64 = 0) (bad 0),
      chk (fld t 0x0C 1 ≤ 1) (bad 0x0C),
      chkZero obTack t 0x0F 17,
      s.chkReads (rtAddr t) 64,
      s.roCheck (rtAddr t) (rtStart t),
      chk (rtStart t || s.stepFollows t) (bad 8) ]

/-- COMBINE (R231): STEP is the open step of the route object. -/
def State.combineCheck (s : State) (t : Bytes) : Option Fail :=
  let open_ : Bool := match s.routeObj (rtAddr t) with
    | some o => o.isOpen && decide (o.step = rtStep t)
    | none => false
  firstOf [chk (rtAddr t % 64 = 0) (badFormat obTack 0), chkZero obTack t 0x0C 20, chk open_ (badFormat obTack 8)]

end Sys2Proof.Machine
end

