-- ==== Sys2Proof/Machine/Checks.lean ====
section
/-!
DEFINITION. Step 10 of R348: the checks of each opcode's own chapter, run when a command is confirmed.  Prephor runs those of the
privileged opcodes (R571); CHAIN checks the descriptor it holds when it runs (R358).
-/
namespace Sys2Proof.Machine

/-- The ARGS of FENCE_SIGNAL and FENCE_WAIT (R362). -/
def fenceCheck (d : Bytes) : Option Fail :=
  chk (if dOp d = opSignal then fld d 0x21 1 ≤ 1 else fld d 0x21 1 = 0) (badFormat obDesc 0x21)

/-- The ARGS of CHAIN (R358). -/
def chainCheck (d : Bytes) : Option Fail :=
  firstOf [chk (fld d 0x20 1 ≤ 20) (badFormat obDesc 0x20), chk (fld d 0x21 1 ≤ 7) (badFormat obDesc 0x21)]

/-! ## COPY (R365) -/

def copySrcSpace (d : Bytes) : Nat := fld d 0x21 1
def copyDstSpace (d : Bytes) : Nat := fld d 0x22 1
def copyLen (d : Bytes) : Nat := fld d 0x24 4
def copySrc (d : Bytes) : Nat := fld d 0x28 8
def copyDst (d : Bytes) : Nat := fld d 0x30 8

/-- Every page of a device range belongs to a slice of shed `k`. -/
def pagesOfShed (k va n : Nat) : Bool :=
  (upto ((va + n - 1) / pageBytes - va / pageBytes + 1)).all (fun i => decide ((va / pageBytes + i) % 192 / 24 = k))

/-- One side of a COPY of movement engine `e`: its field at `off`, its space and address.  Whether a device range translates is found
access by access as the COPY runs (R327). -/
def State.copySide (s : State) (e space a n off : Nat) : Option Fail :=
  if space = 0 then chk (a % 16 = 0 ∧ pagesOfShed (e - 8) a n) (badFormat obDesc off)
  else if space = 2 then
    chk (a = spCore a * 2 ^ 32 + spOff a ∧ spCore a < s.coreCount ∧ spOff a + n ≤ spadBytes) (badFormat obDesc off)
  else none

/-- The checks of COPY, in the order of its fields. -/
def State.copyCheck (s : State) (e : Nat) (d : Bytes) : Option Fail :=
  let bad (o : Nat) := badFormat obDesc o
  firstOf
    [ chk (copySrcSpace d ≤ 2) (bad 0x21),
      chk (copyDstSpace d ≤ 2 ∧ !(copySrcSpace d = 1 ∧ copyDstSpace d = 1)) (bad 0x22),
      chk (copyLen d ≠ 0 ∧ copyLen d % 16 = 0) (bad 0x24),
      s.copySide e (copySrcSpace d) (copySrc d) (copyLen d) 0x28,
      s.copySide e (copyDstSpace d) (copyDst d) (copyLen d) 0x30 ]

/-! ## Privileged opcodes, on their tack blocks (R300, R308, R490, R511, R530) -/

/-- A reserved run of a tack block. -/
def tackZero (t : Bytes) (off n : Nat) : Option Fail := chkZero obTack t off n

/-- REPAIR (R511). -/
def State.repairCheck (s : State) (t : Bytes) : Option Fail :=
  let bad (o : Nat) := badFormat obTack o
  let row := decide (fld t 0 1 = 2)
  firstOf
    [ chk (fld t 0 1 ≤ 2) (bad 0),
      chk (fld t 1 1 < 32 ∧ (s.engineOf (fld t 1 1)).isSome) (bad 1),
      chk (s.inUse (fld t 1 1) (fld t 2 1)) (bad 2),
      chk (fld t 3 1 < 64) (bad 3),
      chk (if row then fld t 4 1 < 12 else fld t 4 1 = 0) (bad 4),
      tackZero t 5 1,
      chk (if row then fld t 6 2 < 128 else fld t 6 2 = 0) (bad 6),
      tackZero t 8 24 ]

/-- MARCH (R308). -/
def State.marchCheck (s : State) (t : Bytes) : Option Fail :=
  let bad (o : Nat) := badFormat obTack o
  firstOf
    [ chk (fld t 0 4 ≠ 0) (bad 0),
      chk (fld t 4 1 ≤ 1) (bad 4),
      chk (if fld t 4 1 = 1 then fld t 5 1 < 12 else fld t 5 1 = 0) (bad 5),
      chk (fld t 6 1 < 2) (bad 6),
      tackZero t 7 1,
      chk (fld t 8 8 % 64 = 0) (bad 8),
      s.chkWrites (fld t 8 8) (64 + 8 * fld t 0x10 4),
      tackZero t 0x14 12 ]

/-- CLKMODE (R530). -/
def State.clkmodeCheck (s : State) (t : Bytes) : Option Fail :=
  let m := fld t 0 8
  let fixed (d : Nat) : Bool := decide ((32 ≤ d ∧ d < 48) ∨ (54 ≤ d ∧ d < 60))
  firstOf
    [ chk (lockMaskOk m && s.img.engs.all (EngEntry.unmixed m) && s.img.progs.all (bindingOk m s.img.engs s.img.streams) &&
          (upto 60).all (fun d => !fixed d || bit m d == s.clk.req.getLsbD d)) (badFormat obTack 0),
      tackZero t 8 24 ]

/-- RNGCTL (R490). -/
def State.rngctlCheck (s : State) (t : Bytes) : Option Fail :=
  let bad (o : Nat) := badFormat obTack o
  let op := fld t 0 1
  let len := fld t 4 4
  let a := fld t 8 8
  firstOf
    [ chk (op ≤ 3 ∧ (op < 2 ∨ s.hub.factory)) (bad 0),
      chk (fld t 1 1 ≤ 1) (bad 1),
      tackZero t 2 2,
      chk (if op = 2 then len ≠ 0 ∧ len % 256 = 0 else len = 0) (bad 4),
      chk (if op = 2 then a % 256 = 0 else a = 0) (bad 8),
      (if op = 2 then s.chkReads a len else none),
      tackZero t 0x10 16 ]

/-- RETAIN (R300). -/
def State.retainCheck (s : State) (t : Bytes) : Option Fail :=
  let ds := setBits (fld t 0 4) 32
  let bound (d : Nat) : Bool := match s.engineOf d with
    | none => false
    | some e => (s.progOf e).isSome
  firstOf
    [ chk (fld t 0 4 ≠ 0 ∧ ds.all (fun d => (s.engineOf d).isSome)) (badFormat obTack 0),
      chk (!(fld t 4 1 = 1 ∨ fld t 4 1 = 2) ∨ !ds.any bound) (badFormat obTack 0),
      chk (fld t 4 1 ≤ 2) (badFormat obTack 4),
      tackZero t 5 3 ]

/-- Step 10 of a privileged command, by Prephor (R571).  A PATCH is checked under R60 when it is carried out. -/
def State.privCheck (s : State) (c : Cmd) : Option Fail :=
  let op := dOp c.desc
  if op = opRepair then s.repairCheck c.tack
  else if op = opMarch then s.marchCheck c.tack
  else if op = opClkmode then s.clkmodeCheck c.tack
  else if op = opRngctl then s.rngctlCheck c.tack
  else if op = opRetain then s.retainCheck c.tack
  else none

/-! ## REDUCE (R366, R444, R445, R450) -/

/-- The tree number that REDUCE names is a REDUCE tree, for a compute engine one of the schedule object's range (R366). -/
def State.isReduceTree (s : State) (n : Nat) : Bool :=
  match treeOf s.img.net.trees n with
  | some (t, _) => t.type == 0
  | none => false

/-- REDUCE of a compute engine (R366). -/
def State.reduceCheck (s : State) (h d : Bytes) : Option Fail :=
  let n := fld d 0x20 4
  firstOf
    [ chk (soTree0 h ≤ n ∧ n < soTree0 h + soNTrees h ∧ s.isReduceTree n) (badFormat obDesc 0x20),
      chk (1 ≤ fld d 0x2C 4 ∧ fld d 0x2C 4 ≤ 65536) (badFormat obDesc 0x2C) ]

/-- Tree `n` has a node at link engine `port`; whether node 0 lies there. -/
def State.nodeHere (s : State) (n port : Nat) : Option Bool :=
  match treeOf s.img.net.trees n with
  | some (t, _) =>
    let here (x : TreeNode) : Bool := decide (x.kind = 2 ∧ x.loc = port)
    if t.type = 0 ∧ t.nodes.any here then some ((t.nodes.head?.map here).getD false) else none
  | none => none

/-- REDUCE of a link engine: the table of R444, then the state of the channels (R445, R449, R450). -/
def State.linkCheck (s : State) (e : Nat) (d : Bytes) : Option Fail :=
  let bad (o : Nat) := badFormat obDesc o
  let l := s.link (e - 17)
  let form := fld d 0x20 1
  let chan := fld d 0x21 1
  let tx (c : Nat) : TxChan := sget TxChan.reset l.tx c
  let rx (c : Nat) : RxChan := sget RxChan.reset l.rx c
  let isTx := decide (fld d 0x22 1 = 0)
  let slots := fld d 0x24 2
  let openTx := (upto 16).filter (fun c => (tx c).open_)
  let rxBytes := ((upto 16).map (fun c => if (rx c).open_ then 4 * (rx c).flits * 16 else 0)).foldl (· + ·) 0
  let root := s.nodeHere (fld d 0x28 8) (e - 17)
  firstOf
    [ chk (form ≤ 3) (bad 0x20),
      chk (chan < 16) (bad 0x21),
      chk (form = 0 ∨ form = 3 ∨ fld d 0x22 1 ≤ 1) (bad 0x22),
      chk (fld d 0x23 1 < 4) (bad 0x23),
      chk (form ≠ 1 ∨ !isTx ∨ !bit slots 15) (bad 0x24),
      chk (1 ≤ fld d 0x26 2 ∧ fld d 0x26 2 ≤ 4096) (bad 0x26),
      chk (form ≠ 0 ∨ root.isSome) (bad 0x28),
      chk (form ≠ 0 ∨ (if root = some true then fld d 0x31 1 < 16 ∧ (tx (fld d 0x31 1)).open_ else fld d 0x31 1 = 0xFF)) (bad 0x31),
      chk (form ≠ 1 ∨ (if isTx then !(tx chan).open_ else !(rx chan).open_)) (bad 0x21),
      chk (form ≠ 1 ∨ !isTx ∨ openTx.all (fun c => Nat.land (tx c).slots slots == 0)) (bad 0x24),
      chk (form ≠ 1 ∨ isTx ∨ rxBytes + 4 * fld d 0x26 2 * 16 ≤ 0x100000) (bad 0x26),
      chk (form ≠ 3 ∨ (tx chan).open_) (bad 0x21) ]

/-! ## All opcodes -/

/-- The checks that the chapter of an opcode puts before its command seed (R176, R183, R196). -/
def State.beforeSeed (s : State) (e : Nat) (c : Cmd) : Option Fail :=
  let h := c.sched.header
  if dOp c.desc = opAnneal ∨ dOp c.desc = opRotate then s.preSeed e h 1
  else if dOp c.desc = opResume then s.preSeed e h (snapBytes (s.ctrlOf h))
  else none

/-- Step 10 for a command of engine `e`: the first failure. -/
def State.step10 (s : State) (e : Nat) (c : Cmd) : Option Fail :=
  let d := c.desc
  let h := c.sched.header
  let op := dOp d
  if op = opSignal ∨ op = opWait then fenceCheck d
  else if op = opChain then chainCheck d
  else if op = opTensor then s.expertCheck c.sched
  else if op = opMove ∧ 8 ≤ e then s.copyCheck e d
  else if op = opMove then s.spinpackCheck e d
  else if op = opAnneal then s.annealCheck e h
  else if op = opRotate then s.rotateCheck e h
  else if op = opSnapshot then s.snapshotCheck e h ((s.eng e).noSnap == some (c.queue, c.seq))
  else if op = opResume then s.resumeCheck e h
  else if op = opRoute then s.routeCheck c.tack
  else if op = opCombine then s.combineCheck c.tack
  else if op = opReduce ∧ e < 8 then s.reduceCheck h d
  else if op = opReduce then s.linkCheck e d
  else none

end Sys2Proof.Machine
end

