-- ==== Sys2Proof/Machine/Access.lean ====
section
/-!
DEFINITION. Register reads with their latches, plain register writes, and the accesses of the host port, I3C and the TAP
(R7 to R10, R432, R434, R460, R461, R474, R515, R526, R542, R550).
-/
namespace Sys2Proof.Machine

/-! ## Latched pairs (R10, R554) -/

/-- Counters of an instance of a PMON group by the offset of its slot, none where no instance lies (R552). -/
def pmonCount (off : Nat) : Nat :=
  let i := off % 0x10000 / 0x100
  match off / 0x10000 with
  | 0x70 => if i < 32 then 32 else 0
  | 0x71 => if i < 8 then 9 else 0
  | 0x72 => if i < 21 then 13 else 0
  | 0x73 => if i < 1 then 14 else 0
  | 0x74 => if i < 4 then 8 else 0
  | 0x75 => if i < 8 then 2 else 0
  | 0x76 => if i < 8 then 8 else 0
  | 0x77 => if i < 2 then 7 else if i < 3 then 5 else 0
  | 0x78 => 5
  | 0x79 => 5
  | _ => 0

/-- `off` is the low word of a value read under R10. -/
def latchedLow (off : Nat) : Bool :=
  (decide (0x101000 ≤ off ∧ off < 0x101800) && off % 8 == 0) ||
  (decide (0x200000 ≤ off ∧ off < 0x220000) && off % 0x1000 == 8) ||
  off == 0x103008 || off == 0x600004 || off == 0x600030 ||
  (off % 8 == 0 && decide (off % 0x100 / 8 < pmonCount off)) ||
  (decide (0xA00000 ≤ off ∧ off < 0xA00800) && off % 0x100 == 0x1C) || off == 0xA04000

/-- `off` is the high word of such a value. -/
def latchedHigh (off : Nat) : Bool := decide (4 ≤ off) && latchedLow (off - 4)

/-- The latch of a requester. -/
def State.latch (s : State) : Requester → Word
  | .host => s.latchHost
  | .prephor => s.latchPre

def State.setLatch (s : State) (who : Requester) (w : Word) : State :=
  match who with
  | .host => { s with latchHost := w }
  | .prephor => { s with latchPre := w }

/-! ## The event window (R542) -/

def State.setWin (s : State) (who : Requester) (w : EvWin) : State :=
  s.modEvr (fun v => match who with
    | .host => { v with host := w }
    | .prephor => { v with pre := w })

/-- Latches the record with the lowest SEQ at or above the cursor: step 1 of R542. -/
def State.winLatch (s : State) (who : Requester) : State :=
  let w := s.evWin who
  let view := if s.evr.src then s.evr.prev else s.evr.recs
  match minBy EvRec.seq (view.filter (fun r => decide (w.cursor ≤ r.seq))) with
  | none => s.setWin who { w with valid := false, gap := false, record := none }
  | some r => s.setWin who { w with valid := true, gap := decide (w.cursor < r.seq), record := some r }

/-- What a read of EVR_WIN15 does: step 3 of R542. -/
def State.winAdvance (s : State) (who : Requester) : State :=
  let w := s.evWin who
  let s1 := match w.record with
    | some r => if w.valid then s.setWin who { w with cursor := r.seq + 1 } else s
    | none => s
  s1.winLatch who

/-- A write of EVR_CURSOR_HI (R542). -/
def State.cursorHi (s : State) (who : Requester) (v : Word) : State :=
  let w := s.evWin who
  (s.setWin who { w with cursor := v.toNat * 2 ^ 32 + w.cursor % 2 ^ 32 }).winLatch who

/-- A write of EVR_ACK_HI (R541, R543). -/
def State.ackHi (s : State) (v : Word) : State :=
  let a := v.toNat * 2 ^ 32 + s.evr.ackLo.toNat
  s.modEvr (fun x => if x.freeze then { x with heldAcks := x.heldAcks ++ [a] } else x.ack s.hclk a)

/-- A write of EVR_CTRL (R543, R553): SRC, and a freeze that begins or ends. -/
def State.evrCtrl (s : State) (v : Word) : State :=
  let on := v.getLsbD 0
  let s1 := s.modEvr (fun x => { x with src := v.getLsbD 1 })
  if on ∧ !s.evr.freeze then s1.modEvr (fun x => { x with freeze := true, missed := 0, freezeAt := s.hclk })
  else if !on ∧ s.evr.freeze then s1.modEvr (Evr.thaw s.hclk)
  else s1

/-! ## Reads -/

/-- E0 answers no access: no hub is left (R515, R522). -/
def State.deadBar (s : State) : Bool := !s.hubAlive

/-- A wake of a half is asked for: it is assigned and in RETAIN or OFF (R299). -/
def State.askWake (s : State) (d : Nat) : State :=
  if s.sqDown d ∧ (s.engineOf d).isSome then s.modHalf d (fun h => { h with waking := true }) else s

/-- A read of one register: its answer and what it does besides (R10, R474, R542).  RNG_DATA0 has a read of its own. -/
def State.readReg (s : State) (who : Requester) (off : Nat) : State :=
  if s.deadBar then s.answer .abort
  else
    match sqHalf off with
    | some d =>
      if s.pwr.mod ≠ .safe ∧ s.sqDown d then
        match who with
        | .host => s.answer .abort
        | .prephor => (s.askWake d).answer .waits
      else s.answer (.value (s.peek who off))
    | none =>
      if s.pwr.mod = .safe ∧ !safeBlock off then s.answer (.value 0)
      else if latchedLow off then (s.setLatch who (s.peek who (off + 4))).answer (.value (s.peek who off))
      else if latchedHigh off then s.answer (.value (s.latch who))
      else if off = 0x60007C then (s.winAdvance who).answer (.value (s.peek who off))
      else s.answer (.value (s.peek who off))

/-! ## Plain writes (R7) -/

/-- FE_FENCE_SAT, a W1C register (R376). -/
def State.clearSat (s : State) (i : Nat) (v : Word) : State :=
  { s with fenceSat := (upto 32).foldl (fun m b =>
      if v.getLsbD b ∧ s.clears (.fenceSat (32 * i + b)) then sset false m (32 * i + b) false else m) s.fenceSat }

/-- The bits of a word that a clear of it takes (R8). -/
def State.taken (s : State) (bitOf : Nat → EventBit) (v : Word) : Word :=
  BitVec.ofNat 32 (maskOf 32 (fun i => v.getLsbD i && s.clears (bitOf i)))

/-- The registers of an H2F mailbox that a post reads: writable while no message is pending (R465). -/
def State.writeH2f (s : State) (m : Nat) (f : H2f → H2f) : State :=
  let h := s.h2f m
  if h.pending then (s.setH2f m { h with overrun := true }).event (.overrun m) else s.setH2f m (f h)

/-- Writes of the MBX and DB block: the host's, and Prephor's with the roles reversed (R464, R472, R473). -/
def State.writeMbx (s : State) (who : Requester) (o : Nat) (v : Word) : State :=
  match who with
  | .host =>
    if o < 0x80 then
      let m := o / 0x20
      let r := o % 0x20
      if r = 0 then s.writeH2f m (fun h => { h with ptrLo := v })
      else if r = 4 then s.writeH2f m (fun h => { h with ptrHi := v })
      else if r = 8 then s.writeH2f m (fun h => { h with len := v.toNat % 8192, space := v.getLsbD 31 })
      else if r = 20 then (if v.getLsbD 1 ∧ s.clears (.overrun m) then s.setH2f m { s.h2f m with overrun := false } else s)
      else s
    else if o = 0x200 then s.modMbx (fun x => { x with dbF2h := x.dbF2h &&& ~~~ s.taken .dbF2h v })
    else if o = 0x204 then s.modMbx (fun x => { x with dbF2hMask := v })
    else
      match sqHalf (0x400000 + o) with
      | some d => if s.sqDown d then s.raise .mbxDown d (d + (0x400000 + o) * 2 ^ 32) else s
      | none => s
  | .prephor =>
    if 0x80 ≤ o ∧ o < 0x100 then
      let m := (o - 0x80) / 0x20
      let r := (o - 0x80) % 0x20
      let h := s.f2h m
      if r = 0 then s.setF2h m { h with ptrLo := v }
      else if r = 4 then s.setF2h m { h with ptrHi := v }
      else if r = 8 then s.setF2h m { h with len := v.toNat % 8192 }
      else if r = 12 then s.postF2h m v
      else s
    else if o = 0x200 then s.each (setBits (v.toNat / 65536) 16) (fun s i => s.ringHost (16 + i))
    else if o = 0x208 then s.modMbx (fun x => { x with dbH2f := x.dbH2f &&& ~~~ v })
    else if o = 0x20C then s.modMbx (fun x => { x with dbH2fMask := v })
    else
      match sqHalf (0x400000 + o) with
      | none => s
      | some d =>
        if s.sqDown d then s.askWake d
        else
          let x := sget SqMbx.reset s.mbx.sq d
          let y := if o % 0x20 = 0 then { x with ptr := v } else if o % 0x20 = 4 then { x with seq := v } else { x with ack := v }
          s.modMbx (fun m => { m with sq := sset SqMbx.reset m.sq d y })

/-- DRV_GCL_CTRL and the other registers of a drive port that only store (R457). -/
def DrivePort.write (p : DrivePort) (r : Nat) (v : Word) : DrivePort :=
  if r = 0 then
    let fec := if bits v.toNat 2 1 = 3 then bits p.cfg.toNat 2 1 else bits v.toNat 2 1
    { p with cfg := BitVec.ofNat 32 (v.toNat % 2 ^ 23 / 8 * 8 + fec * 2 + v.toNat % 2) }
  else if r = 4 then { p with daLo := v }
  else if r = 8 then { p with daHi := v &&& 0xFFFF }
  else if r = 12 then { p with saLo := v }
  else if r = 16 then { p with saHi := v &&& 0xFFFF }
  else if r = 0x18 then { p with baseLo := v }
  else if r = 0x1C then { p with baseHi := v }
  else if r = 0x20 then { p with cycle := v }
  else if r = 0x24 then (if v.toNat % 128 ≤ 64 then { p with len := v.toNat % 128 } else p)
  else if 0x100 ≤ r ∧ r < 0x200 then { p with gcl := sset gclReset p.gcl ((r - 0x100) / 4) v }
  else p

/-- A write to a drive port's register: gPTP runs on one port at most (R457). -/
def State.writePort (s : State) (n r : Nat) (v : Word) : State :=
  let s1 := s.modPort n (fun p => p.write r v)
  if r = 0 ∧ v.getLsbD 3 then
    s1.each ((upto 8).filter (fun i => i != n)) (fun s i => s.modPort i (fun p => { p with cfg := p.cfg &&& ~~~ 8 }))
  else s1

/-- The parameters of a program, stored while it is ABSENT or DISARMED (R408, R426). -/
def State.writeProg (s : State) (p r : Nat) (v : Word) : State :=
  let x := s.prog p
  if x.st ≠ .disarmed ∧ x.st ≠ .absent then s
  else if r = 4 then s.setProg p { x with list := x.list / 2 ^ 32 * 2 ^ 32 + v.toNat }
  else if r = 8 then s.setProg p { x with list := x.list % 2 ^ 32 + v.toNat * 2 ^ 32 }
  else if r = 12 then s.setProg p { x with count := v.toNat % 128, recLog2 := bits v.toNat 11 8 }
  else if r = 16 then s.setProg p { x with recAddr := x.recAddr / 2 ^ 32 * 2 ^ 32 + v.toNat }
  else if r = 20 then s.setProg p { x with recAddr := x.recAddr % 2 ^ 32 + v.toNat * 2 ^ 32 }
  else s

/-- A write that only stores, sets or clears under the access code of its register; any other offset is ignored (R7). -/
def State.plainWrite (s : State) (who : Requester) (off : Nat) (v : Word) : State :=
  let o := off % 0x100000
  match off / 0x100000 with
  | 0x1 =>
    if 0x810 ≤ o ∧ o < 0x830 then s.clearSat ((o - 0x810) / 4) v
    else if o = 0x3000 then
      match who with
      | .host => { s with qSelHost := v.toNat % 512 }
      | .prephor => { s with qSelPre := v.toNat % 512 }
    else if o = 0x3004 then (if v.getLsbD 10 ∧ s.clears (.badTail (s.qSel who)) then s.modQueue (s.qSel who) (fun q => { q with badTail := false }) else s)
    else s
  | 0x4 => s.writeMbx who o v
  | 0x6 =>
    if o = 0xC then
      let w := s.evWin who
      s.setWin who { w with cursor := w.cursor / 2 ^ 32 * 2 ^ 32 + v.toNat }
    else if o = 0x18 then s.modEvr (fun x => { x with ackLo := v })
    else s
  | 0x8 =>
    if o = 0x1008 ∧ v.getLsbD 0 ∧ s.clears .xfValid then { s with mem := { s.mem with xfInfo := s.mem.xfInfo &&& ~~~ 1 } } else s
  | 0xA =>
    if o < 0x800 then s.writeProg (o / 0x100) (o % 0x100) v
    else if 0x2000 ≤ o ∧ o < 0x4000 then s.writePort ((o - 0x2000) / 0x400) ((o - 0x2000) % 0x400) v
    else if o = 0x400C then s.modPer (fun x => { x with
        syncMode := if v.toNat % 4 = 3 then x.syncMode else v.toNat % 4, syncProg := bits v.toNat 4 2 })
    else s
  | 0xB =>
    let keep (lo : Nat) (m : Nat) : Nat := m - Nat.land m ((s.taken (fun i => .slip (lo + i)) v).toNat * 2 ^ lo)
    if o = 0x1C then s.modClk (fun c => { c with slip := BitVec.ofNat 60 (keep 0 c.slip.toNat) })
    else if o = 0x20 then s.modClk (fun c => { c with slip := BitVec.ofNat 60 (keep 32 c.slip.toNat) })
    else s
  | 0xC => if o = 0x104 then s.modYards (fun y => { y with farrSel := v.toNat % 32 }) else s
  | _ => s

/-- A BAR0 write reaches its register: a hub serves, and in SAFE the block is alive (R515, R526). -/
def State.writable (s : State) (off : Nat) : Bool := !s.deadBar && (s.pwr.mod != .safe || safeBlock off)

/-! ## Host port (R430, R432, R434, R550) -/

/-- BAR2 is served: a hub alive and the sheds powered (R515, R526, R529). -/
def State.bar2Served (s : State) : Bool :=
  match s.pwr.mod with
  | .ready => true
  | .boot => true
  | .safe => false
  | .pfail => match s.pwr.pfailAt with
    | some t => decide (s.hclk < t + 200 * hclkPerUs)
    | none => false

/-- A host access to device memory through BAR2 (R432, R340, R341). -/
def State.bar2 (s : State) (write : Bool) (addr len : Nat) (data : Bytes) : State :=
  if s.deadBar then s.answer (if write then .dropped else .abort)
  else if !s.bar2Served ∨ 2 ^ s.ports.bar2Log2 < addr + len then s.answer .unsupported
  else
    match s.firstFail addr len write true with
    | some f => (s.xlatFault f.1 write .bar2 f.2).answer (if write then .dropped else .unsupported)
    | none =>
      if write then (s.devWrite addr (data.take len ++ zeros (len - data.length))).answer .none
      else (s.devNote addr len).answer (.data (s.devBytes addr len))

/-- The size of BAR4 (R430). -/
def bar4Bytes : Nat := 2 ^ 28

/-- A host read of the trace ring (R430, R550). -/
def State.bar4 (s : State) (off len : Nat) : State :=
  if s.deadBar then s.answer .abort
  else if bar4Bytes < off + len then s.answer .unsupported
  else if s.pwr.mod = .safe ∨ s.img.traceSrc = 0 then s.answer (.data (zeros len))
  else
    let pas := (upto len).map (fun i => s.ringByte (off + i))
    let met := if s.mem.bad.isEmpty then [] else (dedup (pas.map (fun p => p / 1024))).filter s.badBlock
    (s.each met (fun s b => s.queueCheck (1024 * b))).answer (.data (pas.map (sget 0 s.mem.data)))

/-- PERST#, a hot reset or a link-down (R434): only E0's PCIe function resets; the link stays down until the host configures the
function again. -/
def State.perst (s : State) : State :=
  s.modPorts (fun p => { p with linkUp := false, bar2Log2 := 30, config := [], msixTable := [] })

/-- The Vendor ID (R568) and the class code (R429). -/
def vendorId : Nat := 0x1F3C
def classCode : Nat := 0x120000

/-- The Device ID of a grade (R429). -/
def deviceId (grade : Nat) : Nat := if grade = 0 then 0x6E80 else if grade = 1 then 0x6E78 else 0x6E70

/-- The two words of configuration space that name the part (R429, R568), where PCI has them (PRESUMED, log entry 9). -/
def identityWord (grade off : Nat) : Option Word :=
  if off = 0 then some (BitVec.ofNat 32 (deviceId grade * 0x10000 + vendorId))
  else if off = 8 then some (BitVec.ofNat 32 (classCode * 0x100 + (Config.pcieConfig 8).toNat % 0x100))
  else none

/-- A word of configuration space: the part's identity, else what was written last, else what the base specification gives. -/
def State.configWord (s : State) (off : Nat) : Word :=
  (identityWord s.pwr.grade off).getD (sget (Config.pcieConfig off) s.ports.config off)

/-- What a word of the MSI-X table reads as after a reset: every vector masked (PRESUMED, log entry 9). -/
def msixReset (i : Nat) : Word := if i % 4 = 3 then 1 else 0

/-- A Type 0 configuration write (R430): the Resizable BAR control register sets BAR2's size, the words that name the part keep their values, a
word of the MSI-X table is stored there (R431), other settings are kept. -/
def State.configWrite (s : State) (off : Nat) (v : Word) : State :=
  let n := 20 + bits v.toNat 13 8
  let s1 := s.modPorts (fun p => { p with linkUp := true, resp := .none })
  if off = Config.rebarControl then
    if 30 ≤ n ∧ n ≤ 38 then s1.modPorts (fun p => { p with bar2Log2 := n }) else s1
  else if (identityWord s.pwr.grade off).isSome then s1
  else
    match Config.msixWord off with
    | some i =>
      if i < 4 * pcieCaps.vectors then s1.modPorts (fun p => { p with msixTable := sset (msixReset i) p.msixTable i v }) else s1
    | none => s1.modPorts (fun p => { p with config := sset (Config.pcieConfig off) p.config off v })

end Sys2Proof.Machine
end

