-- ==== Sys2Proof/Machine/Host.lean ====
section
/-!
DEFINITION. The commands of the host port, I3C, the TAP, the event recorder's registers, doorbells and mailbox posts: one
meaning each, over the operations of `Access.lean` and `Mailbox.lean`.
-/
namespace Sys2Proof.Machine

/-- What a command of this file answers: always a next state. -/
abbrev Out := Host.Outcome State Fault Refusal

/-- A write to a register reaches it, or is dropped or ignored (R7, R515, R526). -/
def State.onWrite (s : State) (off : Nat) (f : State → State) : State :=
  if s.writable off then (f s).answer .none else s.answer .dropped

/-- FE_FENCE_ADD (R362, R376): the fence gains AMOUNT, saturating and flagging. -/
def State.fenceAdd (s : State) (f n : Nat) : State :=
  let v := (s.fence f).toNat + n
  if 2 ^ 64 ≤ v then
    { (s.event (.fenceSat f)).event (.fenceUp f) with fences := sset 0 s.fences f (BitVec.ofNat 64 (2 ^ 64 - 1)), fenceSat := sset false s.fenceSat f true }
  else { s.event (.fenceUp f) with fences := sset 0 s.fences f (BitVec.ofNat 64 v) }

/-- An ADD of `n` saturates fence `f`. -/
def State.fenceFull (s : State) (f n : Nat) : Bool := decide (2 ^ 64 ≤ (s.fence f).toNat + n)

/-- MAX (R362). -/
def State.fenceMax (s : State) (f v : Nat) : State :=
  { s.event (.fenceUp f) with fences := sset 0 s.fences f (BitVec.ofNat 64 (max (s.fence f).toNat (v % 2 ^ 64))) }

/-- A write of FE_FENCE_ADD: the fence, and its trace record. -/
def State.fenceWrite (s : State) (v : Word) : State :=
  (s.fenceAdd (v.toNat % 256) (v.toNat / 256)).trace 3 6 0 0xFF (toBytes 1 (v.toNat % 256) ++ toBytes 3 (v.toNat / 256))

/-- FE_FENCE_ADD (R376). -/
def execFeFenceAdd (value : Word) (s : State) : Out := .next (s.onWrite 0x100800 (fun s => s.fenceWrite value))

/-- RTE_REC_SEL (R212). -/
def State.recSel (s : State) (who : Requester) (v : Word) : State :=
  let i := v.toNat % 2 ^ 17
  let r := sget 0 s.route.recs i
  s.modRoute (fun x => match who with
    | .host => { x with selHost := i, latchHost := r }
    | .prephor => { x with selPre := i, latchPre := r })

def execRteRecSel (who : Requester) (value : Word) (s : State) : Out :=
  .next (s.onWrite 0x3F0010 (fun s => s.recSel who value))

/-- MBX_H2F_SEQ (R465). -/
def execMbxH2fSeq (mbx : Nat) (value : Word) (s : State) : Out :=
  .next (s.onWrite 0x40000C (fun s => s.postH2f mbx value))

/-- MBX_F2H_ACK (R465). -/
def execMbxF2hAck (mbx : Nat) (value : Word) (s : State) : Out :=
  .next (s.onWrite 0x400090 (fun s => s.ackF2h mbx value))

/-- DB_H2F, a W1S register (R472). -/
def execDbH2f (value : Word) (s : State) : Out :=
  .next (s.onWrite 0x400208 (fun s => s.modMbx (fun m => { m with dbH2f := m.dbH2f ||| value })))

/-- DB_H2F_POLL (R472): Prephor reads DB_H2F and takes the notices it finds. -/
def execDbH2fPoll (s : State) : Out :=
  .next (if s.serving then (s.modMbx (fun m => { m with dbH2f := 0 })).serveHead else s)

/-- EVR_CURSOR_HI (R542). -/
def execEvrCursorHi (who : Requester) (value : Word) (s : State) : Out :=
  .next (s.onWrite 0x600010 (fun s => s.cursorHi who value))

/-- EVR_WIN15 (R542). -/
def execEvrWin15 (who : Requester) (s : State) : Out := .next (s.readReg who 0x60007C)

/-- EVR_ACK_HI (R541). -/
def execEvrAckHi (value : Word) (s : State) : Out := .next (s.onWrite 0x60001C (fun s => s.ackHi value))

/-- EVR_FREEZE (R543): a write of EVR_CTRL. -/
def execEvrFreeze (value : Word) (s : State) : Out := .next (s.onWrite 0x600014 (fun s => s.evrCtrl value))

/-- EVR_THAW (R543): a write of EVR_CTRL. -/
def execEvrThaw (value : Word) (s : State) : Out := .next (s.onWrite 0x600014 (fun s => s.evrCtrl value))

/-- EVR_FREEZE_EXPIRY (R543): 10 ms after FREEZE was set. -/
def execEvrFreezeExpiry (s : State) : Out :=
  .next (if s.evr.freeze ∧ s.evr.freezeAt + 10000 * hclkPerUs ≤ s.hclk then s.modEvr (Evr.thaw s.hclk) else s)

/-- BAR2_ACCESS (R432). -/
def execBar2Access (write : Bool) (addr len : Nat) (data : Bytes) (s : State) : Out := .next (s.bar2 write addr len data)

/-- BAR4_READ (R550). -/
def execBar4Read (off len : Nat) (s : State) : Out := .next (s.bar4 off len)

/-- A write to BAR0 that is not of one whole register is dropped and counted (R432). -/
def State.badWrite (s : State) : State := if s.deadBar then s.answer .dropped else (s.bump .hub 2 0).answer .dropped

/-- BAR0_BAD_WRITE (R432). -/
def execBar0BadWrite (s : State) : Out := .next s.badWrite

/-- UNSUPPORTED_REQUEST (R432): Unsupported Request; a VDM of type 1 is discarded silently. -/
def execUnsupportedRequest (kind : BadRequest) (s : State) : Out :=
  .next (if kind = .vdm1 then s.answer .dropped
    else if kind = .bar0BadRead ∧ s.deadBar then s.answer .abort
    else s.answer .unsupported)

/-- I3C_PRIVATE_WRITE (R460): four bytes set the BAR0 offset to read; every other private write is ignored. -/
def execI3cPrivateWrite (data : Bytes) (s : State) : Out :=
  .next (if data.length = 4 then s.modPorts (fun p => { p with i3cOff := ofBytes data }) else s)

/-- I3C_PRIVATE_READ (R460, R555): the blocks it reaches, with the host's latch and window. -/
def execI3cPrivateRead (s : State) : Out :=
  .next (if i3cBlock s.ports.i3cOff ∧ s.ports.i3cOff < 0x4000000 then s.readReg .host s.ports.i3cOff
    else s.answer (.value 0xFFFFFFFF))

/-- I3C_CCC (R460). GETPID, GETBCR, GETDCR and GETSTATUS answer words that the manual leaves to MIPI I3C Basic: free values. -/
def execI3cCcc (code : Ccc) (s : State) : Out :=
  let free := (s.draw.2).answer (.value (BitVec.ofNat 32 s.draw.1))
  .next (match code with
    | .entdaa a => s.modPorts (fun p => { p with i3cDyn := some a })
    | .setdasa a => s.modPorts (fun p => { p with i3cDyn := some a })
    | .rstdaa => s.modPorts (fun p => { p with i3cDyn := none })
    | .enec e => s.modPorts (fun p => { p with i3cEvents := Nat.lor p.i3cEvents (e % 256) })
    | .disec e => s.modPorts (fun p => { p with i3cEvents := p.i3cEvents - Nat.land p.i3cEvents (e % 256) })
    | .getpid => free
    | .getbcr => free
    | .getdcr => free
    | .getstatus => free)

/-- TAP_INSTRUCTION (R461): all instructions until image load begins, BYPASS and IDCODE after. -/
def execTapInstruction (i : TapInstr) (s : State) : Out :=
  if s.ports.tapFull ∨ i = .bypass ∨ i = .idcode then
    let s1 := s.modPorts (fun p => { p with tapInstr := i, tapReset := false })
    .next (if i = .idcode then s1.answer (.value (Config.idcode s.pwr.grade)) else s1)
  else .next (s.modPorts (fun p => { p with tapReset := false }))

/-- TEST_LOGIC_RESET (R461; the instruction after it is IEEE 1149.1's, log entry 5). -/
def execTestLogicReset (s : State) : Out :=
  .next (s.modPorts (fun p => { p with tapReset := true, tapInstr := .idcode }))

/-- PERST (R434). -/
def execPerst (s : State) : Out := .next s.perst

/-- CONFIGURATION_WRITE (R430). -/
def execConfigurationWrite (off : Nat) (value : Word) (s : State) : Out := .next (s.configWrite off value)

end Sys2Proof.Machine
end

