-- ==== Sys2Proof/Machine/Rng.lean ====
section
/-!
DEFINITION. The random-number domains of the hubs: health tests, pool and generator (chapter 18).  Byte 0 of an output holds
bits [7:0] (DEDUCED, log entry 15).
-/
namespace Sys2Proof.Machine

/-- The RNG domain of a hub (R476). -/
def rngDomain (hub : Nat) : Nat := if hub = 0 then 55 else 58

/-- Source states of RNG_SRC (R493). -/
def srcOff : Nat := 0
def srcStarting : Nat := 1
def srcOk : Nat := 2
def srcFatal : Nat := 3

def RngHub.src (h : RngHub) (i : Nat) : NoiseSrc := if i = 0 then h.src0 else h.src1
def RngHub.setSrc (h : RngHub) (i : Nat) (x : NoiseSrc) : RngHub := if i = 0 then { h with src0 := x } else { h with src1 := x }

/-- The repetition count test over samples (R478): the run length and last sample after them, and whether a run reached the cutoff. -/
def rctScan (cutoff : Nat) : List Bool → Nat → Bool → Bool → Nat × Bool × Bool
  | [], run, last, failed => (run, last, failed)
  | b :: bs, run, last, failed =>
    let n := if run ≠ 0 ∧ b = last then run + 1 else 1
    rctScan cutoff bs n b (failed || decide (cutoff ≤ n))

/-- The adaptive proportion test fails in a window (R478). -/
def aptFails (cutoff : Nat) (w : List Bool) : Bool :=
  match w with
  | [] => false
  | r :: _ => decide (cutoff ≤ (w.filter (fun b => b == r)).length)

/-- Samples as bytes: the first sample is bit 0 of byte 0 (R481). -/
def sampleBytes : Nat → List Bool → Bytes
  | 0, _ => []
  | n + 1, bs => BitVec.ofNat 8 (maskOf 8 (fun i => bs.getD i false)) :: sampleBytes n (bs.drop 8)

/-- The conditioned block of 2,048 samples (R481). -/
def condition (samples : List Bool) : BitVec 256 := BitVec.ofNat 256 (beNat (sha3 (sampleBytes 256 samples)))

/-- Bytes of a conditioned block. -/
def poolBytes (b : BitVec 256) : List Nat := beList 32 b.toNat

/-- Both sources of a hub are FATAL (R480). -/
def RngHub.bothFatal (h : RngHub) : Bool := h.src0.st == srcFatal && h.src1.st == srcFatal

/-- The alarm of a hub becomes fatal: RNG_ALARM is raised (R486). -/
def State.alarm (s : State) (hub : Nat) : State :=
  if (s.rngHub hub).alarm then s
  else (s.modRngHub hub (fun h => { h with alarm := true })).raise .rngAlarm (rngDomain hub) hub

/-- A failed block of a source (R479): the event, the restart, FATAL at the third in a row, the alarm when both are FATAL. -/
def State.blockFails (s : State) (hub i : Nat) (rct apt : Bool) : State :=
  let x := (s.rngHub hub).src i
  let n := min (x.fails + 1) 3
  let s1 := s.modRngHub hub (fun h => h.setSrc i
    { st := if n = 3 then srcFatal else srcStarting, fails := n, rct := rct, apt := apt, run := 0, last := false })
  let s2 := (s1.bump .hub hub 1).raise .rngBlockFail (rngDomain hub) (hub + i * 0x100 + (b2n rct + b2n apt * 2) * 0x10000)
  let s3 := if n = 3 then s2.raise .rngSourceFatal (rngDomain hub) (hub + i * 0x100) else s2
  let s4 := if n = 3 ∧ (s3.rngHub hub).activeSrc = i then
      s3.modRngHub hub (fun h => { h with switchTo := some (1 - i) })
    else s3
  if (s4.rngHub hub).bothFatal then s4.alarm hub else s4

/-- The generator instantiates from its first three pool blocks when it was never seeded (R482, R485). -/
def RngHub.start (h : RngHub) : RngHub :=
  match h.pool with
  | a :: b :: c :: rest =>
    if h.seeded ∨ h.kat then h
    else
      let u := drbgInstantiate (poolBytes a ++ poolBytes b) ((poolBytes c).take 16)
      { h with seeded := true, stretched := false, key := BitVec.ofNat 256 u.1, v := BitVec.ofNat 128 u.2, count := 0, pool := rest }
  | _ => h

/-- A passing block of a source (R479 to R481). -/
def State.blockPasses (s : State) (hub i : Nat) (samples : List Bool) (run : Nat) (last : Bool) : State :=
  let h := s.rngHub hub
  let h1 := h.setSrc i { h.src i with st := srcOk, fails := 0, run := run, last := last }
  let h2 := if h1.switchTo = some i then { h1 with activeSrc := i, switchTo := none } else h1
  if h2.activeSrc = i then
    let h3 := if h2.pool.length < 4 then { h2 with pool := h2.pool ++ [condition samples] } else h2
    (s.setRngHub hub h3.start).bump .hub hub 0
  else s.setRngHub hub h2

/-- The 2,048 bits a pattern gives from a position, cyclically (R491). -/
def patternBits (p : Bytes) (pos n : Nat) : List Bool :=
  (upto n).map (fun i => (p.getD ((pos + i) / 8 % (if p.length = 0 then 1 else p.length)) 0).getLsbD ((pos + i) % 8))

/-- The samples that a source gives next: the 1,024 of its start-up test, else a block of 2,048 (R476, R477). -/
def NoiseSrc.due (x : NoiseSrc) : Nat := if x.st = srcStarting then 1024 else 2048

/-- A block of samples of a source ends, or its start-up test (R477 to R481). -/
def State.block (s : State) (hub i : Nat) (samples : List Bool) : State :=
  let h := s.rngHub hub
  let x := h.src i
  if x.st = srcFatal ∨ x.st = srcOff ∨ samples.length ≠ x.due then s
  else
    let bits := match h.pattern with
      | some p => patternBits p h.patPos samples.length
      | none => samples
    let s0 := if h.pattern.isSome then s.modRngHub hub (fun h => { h with patPos := h.patPos + samples.length }) else s
    let r := rctScan s.img.rng.rct bits x.run x.last false
    let apt := aptFails s.img.rng.apt (bits.take 1024) || aptFails s.img.rng.apt (bits.drop 1024)
    if r.2.2 || apt then s0.blockFails hub i r.2.2 apt
    else if x.st = srcStarting then
      s0.modRngHub hub (fun h => { h.setSrc i { h.src i with st := srcOk, run := r.1, last := r.2.1 } with
        alarm := if h.kat then h.alarm else false })
    else s0.blockPasses hub i bits r.1 r.2.1

/-- A reseed is due (R484). -/
def RngHub.due (p : RngParams) (h : RngHub) : Bool := decide (2 ^ p.reseedLog2 ≤ h.count)

/-- A reseed can run: a seeded generator, two blocks in the pool, no fatal alarm (R484, R486). -/
def RngHub.canReseed (h : RngHub) : Bool := h.seeded && !h.alarm && decide (2 ≤ h.pool.length)

/-- A reseed from the two oldest pool blocks (R482, R484). -/
def RngHub.reseed (h : RngHub) : RngHub :=
  match h.pool with
  | a :: b :: rest =>
    let u := drbgReseed (poolBytes a ++ poolBytes b) h.key.toNat h.v.toNat
    { h with key := BitVec.ofNat 256 u.1, v := BitVec.ofNat 128 u.2, count := 0, stretched := false, pool := rest }
  | _ => h

/-- The hub's generator reseeds, counted; the 600 hclk that it takes keep requests waiting (R484, R494). -/
def State.reseed (s : State) (hub : Nat) : State :=
  if (s.rngHub hub).canReseed then (s.modRngHub hub (fun h => { h.reseed with busy := s.hclk + 600 })).bump .hub hub 3 else s

/-- The generator can serve a request now (R484). -/
def RngHub.serves (p : RngParams) (h : RngHub) : Bool := h.seeded && decide (h.count < 2 ^ p.stretchLog2)

/-- One request served (R482 to R484): the 128 bits and the state after. -/
def State.generate (s : State) (hub : Nat) : Nat × State :=
  let p := s.img.rng
  let h := s.rngHub hub
  let g := drbgGenerate h.key.toNat h.v.toNat
  let h1 := { h with key := BitVec.ofNat 256 g.2.1, v := BitVec.ofNat 128 g.2.2, count := h.count + 1, busy := s.hclk + 16 }
  let enters := h1.due p && !h1.stretched && !h1.canReseed
  let s1 := (s.setRngHub hub { h1 with stretched := h1.stretched || enters }).bump .hub hub 2
  let s2 := if h.stretched then s1.bump .hub hub 4 else s1
  let s3 := if enters then s2.raise .rngStretch (rngDomain hub) hub else s2
  (listNat g.1.reverse, s3)

/-- A record for RNG_DATA (R487): VALID 1 with 96 bits latched. -/
def State.serveRecord (s : State) (who : Requester) (out : Nat) (stretched alarm : Bool) : State :=
  let words := [BitVec.ofNat 32 out, BitVec.ofNat 32 (out / 2 ^ 32), BitVec.ofNat 32 (out / 2 ^ 64)]
  let n := match who with
    | .host => s.rng.hostRecs + 1
    | .prephor => s.rng.preRecs + 1
  let r := match who with
    | .host => { s.rng with hostLatch := words, hostRecs := n, hostWaits := none }
    | .prephor => { s.rng with preLatch := words, preRecs := n, preWaits := none }
  ({ s with rng := r }).answer (.value (BitVec.ofNat 32 (1 + b2n stretched * 2 + b2n alarm * 4 + n % 2 ^ 24 * 256)))

end Sys2Proof.Machine
end

