-- ==== Sys2Proof/Machine/Engine.lean ====
section
/-!
DEFINITION. Engines: slots and mapping, fetch and preload, the checks of R348 in order, start markers, fences and chains
(chapters 13 and 14).
-/
namespace Sys2Proof.Machine

/-! ## The slot decision (R344, R391, R395) -/

/-- S_res of engine `e` (R395); none where it hosts no standing program. -/
def State.reservedShare (s : State) (e : Nat) : Option Nat :=
  match s.progOf e with
  | none => none
  | some p =>
    let r := (s.img.reservations.find? (fun r => r.prog == p.prog)).getD ⟨0, 0, 0, 0⟩
    let full := !(s.eng e).served || s.rel.windows.contains e || (s.prog p.prog).windowOpen
    some (if full then max r.share r.bootShare else r.share)

/-- The kernel queues of engine `e` other than its RT queue have used their time of this window (R395). -/
def State.kernelSpent (s : State) (e : Nat) : Bool :=
  match s.reservedShare e with
  | none => false
  | some r => decide ((1024 - r) * 1024 ≤ (s.eng e).kernelCharge)

/-- The tail up to which a fetch of this hclk sees the descriptors of queue `n`: a tail write of the hclk comes after it, unless there is nothing
to fetch without it (R383). -/
def State.fetchTail (s : State) (n : Nat) : Nat :=
  match s.tails.find? (fun w => w.queue == n) with
  | some w => if (s.queue n).head < w.tail then w.tail else (s.queue n).tail
  | none => (s.queue n).tail

/-- The queue in slot `k` holds a ready descriptor and is not passed over (R363, R391, R395, R419, R571). -/
def State.slotReady (s : State) (e k : Nat) : Bool :=
  let sl := s.slot k
  match sl.queue with
  | none => false
  | some n =>
    let q := s.queue n
    q.st == .mapped && !sl.leaving && !sl.privParked && !s.slotParked k && decide (q.head < s.fetchTail n) &&
      (if 504 ≤ n then (s.prog (n - 504)).released && !(s.prog (n - 504)).failed else !(q.cls == 0 && s.kernelSpent e))

/-- The place of a slot in the decision of R391, lowest first: pinned, under share, class, and turn within the class. -/
def State.slotRank (s : State) (e k : Nat) : Nat :=
  let sl := s.slot k
  let q := s.queue (sl.queue.getD 0)
  let n := s.slotsOf e
  let base := s.slotBase e
  let last := sget 0 (s.eng e).lastServed q.cls
  let turn := if last = 0 then k - base else (k - base + n - (last - base) % n) % n
  ((b2n (!sl.pinned) * 2 + b2n q.overShare) * 4 + q.cls) * 64 + turn

/-- The slot that engine `e` serves next. -/
def State.slotChoice (s : State) (e : Nat) : Option Nat := minBy (s.slotRank e) ((s.engSlots e).filter (s.slotReady e))

/-- Where the next descriptor comes from. -/
inductive Source where
  | chain (k : Nat)
  | slot (k : Nat)
  deriving DecidableEq, Repr

/-- What engine `e` serves next, besides a held preload (R344). -/
def State.nextSource (s : State) (e : Nat) : Option Source :=
  match (upto 8).find? (fun k => (s.chainSlot e k).st == .fired) with
  | some k => some (.chain k)
  | none => (s.slotChoice e).map .slot

/-- The SEQ of a queue's next descriptor (R382, R409). -/
def Queue.seqOf (q : Queue) (n : Nat) : Nat := if 504 ≤ n then q.rtTick * 256 + q.head else q.head

/-- The address of ring entry `i` of a queue (R382). -/
def Queue.entry (q : Queue) (i : Nat) : Nat := q.descAddr + 64 * (i % 2 ^ q.descLog2)

/-- Step 1 of R348 for ring entry `i` of a queue. -/
def State.readEntry (s : State) (q : Queue) (i : Nat) : Except Fail Bytes :=
  let a := q.entry i
  if q.descHost then
    match s.hostRead a 64 with
    | none => .error ⟨stHostRead, 0, a, false⟩
    | some bs => .ok bs
  else
    match s.firstFail a 64 false false with
    | some f => .error (xlatFail f.1)
    | none => .ok (s.devBytes a 64)

/-- The blocks of wrong parity that the read of ring entry `i` meets (R330). -/
def State.entryBad (s : State) (q : Queue) (i : Nat) : List Nat :=
  if q.descHost ∨ s.mem.bad.isEmpty ∨ (s.firstFail (q.entry i) 64 false false).isSome then [] else s.devBad (q.entry i) 64

/-- A command with nothing run yet. -/
def newCmd (e : Nat) (desc : Bytes) (queue seq : Nat) (slot : Option Nat) : Cmd :=
  { desc := desc, tack := [], tackVoids := [], sched := Sched.reset, jobs := [], queue := queue, seq := seq, chained := slot.isNone, slot := slot, engine := e, seed := 0,
    drawn := false, prepAt := 0, startAt := none, replayed := false, draining := false, ownTimeout := false, gate := false, ready := false,
    usesRng := false, early := [], checked := Checked.reset, carried := 0, flagged := false, yclk0 := [], halts := [] }

/-- The standing program whose list a queue serves. -/
def ownProg (q : Nat) : Option Nat := if 504 ≤ q then some (q - 504) else none

/-- Steps 2 to 7 of R348: the tack block, or the first failure. -/
def State.steps2to7 (s : State) (e : Nat) (c : Cmd) : Except Fail Bytes :=
  let d := c.desc
  match checkDesc (kindOf e) (s.queue c.queue).cls d with
  | some f => .error f
  | none =>
    match s.readTack d with
    | .error f => .error f
    | .ok tack =>
      if takesSched (kindOf e) (dOp d) then
        match firstOf [s.chkTranslate e (dSched d), s.chkSched e (dOp d) (dSched d) (ownProg c.queue)] with
        | some f => .error f
        | none => .ok tack
      else .ok tack

/-- A reported failure to translate is recorded in the fault registers (R340). -/
def State.noteFail (s : State) (e : Nat) (f : Fail) : State := s.noteAs (agentOf e) f

/-- The queue of a ring entry that cannot be read enters FAULTED (R384). -/
def State.faultQueue (s : State) (q : Nat) : State :=
  s.modQueue q (fun x => if x.st = .mapped ∨ x.st = .halted then { x with st := .faulted } else x)

/-- Engine `e` posts the failure of a command in PREP. -/
def State.failCmd (s : State) (e : Nat) (c : Cmd) (f : Fail) : State :=
  let s1 := ((s.noteFail e f).modEng e (fun x => { x with shadow := Programs.reset })).finish e c f.done
  if c.desc.isEmpty then s1.faultQueue c.queue else s1

/-- Engine `e` holds command `c` in state `st`. -/
def State.hold (s : State) (e : Nat) (st : EngState) (c : Cmd) : State := s.modEng e (fun x => { x with st := st, cur := some c })

/-- A command that passed steps 1 to 9: step 10, or the handing to Prephor (R348, R571). -/
def State.accept (s : State) (e : Nat) (c : Cmd) : State :=
  if opPrivileged (dOp c.desc) then
    let s1 := (s.modMbx (fun m => { m with privs := m.privs ++ [{ c with startAt := some s.hclk }] })).traceStart e c
    let s2 := match c.slot with
      | none => s1
      | some k => s1.modSlot k (fun x => { x with privParked := true })
    s2.atBoundary e
  else
    match s.step10 e c with
    | some f => s.failCmd e c f
    | none => s.hold e .prep { c with ready := true }

/-- The schedule object of a command has USES_RNG set (R354). -/
def Cmd.takesRng (c : Cmd) (e : Nat) : Bool :=
  takesSched (kindOf e) (dOp c.desc) && soUsesRng c.sched.header

/-- Steps 8 and 9 of R348, and step 10 where no hub seed is awaited (R354, R392, R486). -/
def State.steps8to10 (s : State) (e : Nat) (c : Cmd) : State :=
  let q := s.queue c.queue
  let pages := if takesSched (kindOf e) (dOp c.desc) then soPages c.sched.header else 0
  if q.pages < pages ∨ q.share = 0 then s.failCmd e c ⟨stQuota, 0, 0, false⟩
  else if !dSeedHub c.desc then
    s.accept e (if takesSched (kindOf e) (dOp c.desc) then { c with seed := dSeed c.desc, usesRng := c.takesRng e } else c)
  else if !c.takesRng e then s.accept e c
  else
    match s.beforeSeed e c with
    | some f => s.failCmd e c f
    | none =>
      if s.rngActive.alarm then s.failCmd e c ⟨stRngUnavailable, 0, 0, false⟩
      else (s.hold e .prep { c with usesRng := true }).modRngHub s.hubs.active (fun h => h.enqueue (.engine e) s.hclk)

/-- A hub seed comes for the command that engine `e` holds in PREP (R354, R483, R488). -/
def State.seedComes (s : State) (e out : Nat) : State :=
  match (s.eng e).cur with
  | some c => if (s.eng e).st = .prep ∧ !c.ready then s.accept e { c with seed := out % 2 ^ 64, drawn := true } else s
  | none => s

/-- The alarm is fatal while engine `e` waits for a hub seed (R354, R486). -/
def State.seedFails (s : State) (e : Nat) : State :=
  match (s.eng e).cur with
  | some c => if (s.eng e).st = .prep ∧ !c.ready then s.failCmd e c ⟨stRngUnavailable, 0, 0, false⟩ else s
  | none => s

/-- Engine `e` waits for a completion from the host (R433). -/
def State.awaitHost (s : State) (e : Nat) : State :=
  s.modPorts (fun p => { p with waitsRead := sset none p.waitsRead e (some s.hclk) })

/-- The programs and frames of the schedule object of a command of engine `e` (R350). -/
def State.programsOf (s : State) (e : Nat) (c : Cmd) : Programs :=
  let h := c.sched.header
  { code := (upto (s.engCores e).length).map (fun i =>
      let p := s.devBytes (soProgAddr h + 16 * i) 16
      s.devBytes (fld p 0 8) (fld p 8 4)),
    frames := s.devBytes (soFrameAddr h) (s.frameBytes e h), cf := soCF h }

/-- The shadow program and command memories take what a command that passed steps 2 to 7 names (R76, R241). -/
def State.loadShadow (s : State) (e : Nat) (c : Cmd) : State :=
  if takesSched (kindOf e) (dOp c.desc) then s.modEng e (fun x => { x with shadow := s.programsOf e c }) else s

/-- The halves of the program and command memories swap as a command starts (R76, R86). -/
def State.swapPrograms (s : State) (e : Nat) : State := s.modEng e (fun x => { x with active := x.shadow, shadow := x.active })

/-- A command entry of the frames of engine `e` as its router reads it: core `i` of the engine, or edge router `i`, in a slot of the router's
frame.  Between two commands it reads 0 (R241). -/
def State.cmdEntry (s : State) (e : Nat) (edge : Bool) (i slot : Nat) : Nat × Nat :=
  let x := s.eng e
  if (x.cur.bind Cmd.startAt).isNone ∨ x.active.cf = 0 then (0, 0)
  else
    let o := slot % x.active.cf
    if edge then
      let at_ := 4 * (s.engCores e).length * x.active.cf + 8 * (i * x.active.cf + o)
      (fld x.active.frames at_ 4, fld x.active.frames (at_ + 4) 4)
    else (fld x.active.frames (4 * (i * x.active.cf + o)) 4, 0)

/-- A command with what steps 5 to 7 have read for it: its tack block and its schedule object (R349, R355). -/
def State.withReads (s : State) (e : Nat) (c : Cmd) (tack : Bytes) : Cmd :=
  { c with
    tack := tack, tackVoids := s.tackVoids c.desc,
    sched := if takesSched (kindOf e) (dOp c.desc) then s.readSched e (dSched c.desc) else Sched.reset }

/-- A command enters PREP with its descriptor read: steps 2 to 10.  It asks for the re-reads of what it meets on the way (R330). -/
def State.checkCmd (s : State) (e : Nat) (c : Cmd) : State :=
  let a := s.ask c [] (s.prepBad e c.desc)
  match a.1.steps2to7 e a.2 with
  | .error f => if f.status = stHostRead ∧ s.hostSilent f.addr 256 then a.1.awaitHost e else a.1.failCmd e a.2 f
  | .ok tack => (a.1.loadShadow e a.2).steps8to10 e (s.withReads e a.2 tack)

/-- A half runs at its present yclk: MIN_MHZ follows (R95). -/
def Half.ranAt (h : Half) (mhz : Nat) : Half := { h with minMhz := if h.minMhz = 0 then mhz else min h.minMhz mhz }

/-- Every half of engine `e` wakes or returns to RUN for a confirmed command (R298, R299). -/
def State.rouse (s : State) (e : Nat) : State :=
  s.each (s.halvesOf e) (fun s d => s.modHalf d (fun h =>
    if h.pstate = .idle then { h.ranAt h.curMhz with pstate := .run } else if h.pstate = .run then h else { h with waking := true }))

/-- The engine takes a confirmed command into PREP, and its halves wake (R298, R299, R372, R375, R389). -/
def State.enter (s : State) (e : Nat) (c : Cmd) : State :=
  (s.rouse e).modEng e (fun x => { x with
    st := .prep, opcode := dOp c.desc, qslot := (c.slot.orElse (fun _ => (s.queue c.queue).slot)).getD 0, chained := c.chained,
    tag := dTag c.desc, queue := c.queue, cur := some { c with prepAt := s.hclk } })

/-- The state of a queue that holds no slot (R381). -/
def Queue.unmapped (q : Queue) : QState := if q.head = q.tail then .idle else .waiting

/-- A tail write takes effect: the tail counts on from the head (R381, R382). -/
def State.setTail (s : State) (n v : Nat) : State :=
  let q := s.queue n
  let ahead := (v + 2 ^ 32 - q.head % 2 ^ 32) % 2 ^ 32
  if 2 ^ q.descLog2 < ahead then (s.setQueue n { q with badTail := true }).event (.badTail n)
  else
    let q1 := { q with tail := q.head + ahead }
    s.setQueue n { q1 with st := if q.st = .idle ∨ q.st = .waiting then q1.unmapped else q.st }

/-- The head of queue `n` passes one entry: the tail writes of this hclk apply after that (R383). -/
def State.passHead (s : State) (n : Nat) : State :=
  match s.tails.find? (fun w => w.queue == n) with
  | some w =>
    if (s.queue n).head < w.tail then
      let s1 := s.modQueue n (fun q => { q with head := q.head + 1, tail := w.tail, badTail := w.badTail })
      let s2 : State := { s1 with fresh := if w.badTail then s.fresh else s.fresh.filter (fun b => decide (b ≠ EventBit.badTail n)) }
      s2.each (s.tails.filter (fun x => x.queue == n)) (fun s x => s.setTail n x.value)
    else s.modQueue n (fun q => { q with head := q.head + 1 })
  | none => s.modQueue n (fun q => { q with head := q.head + 1 })

/-- The queue in slot `k` of engine `e` is served: its head passes one entry (R382, R391). -/
def State.serveSlot (s : State) (e k : Nat) : State :=
  let q := (s.slot k).queue.getD 0
  (s.passHead q).modEng e (fun x => { x with lastServed := sset 0 x.lastServed (s.queue q).cls (k + 1) })

/-- The steps from reading ring entry `i` of a queue on. -/
def State.fetchEntry (s0 : State) (e : Nat) (c0 : Cmd) (i : Nat) : State :=
  let a := s0.ask c0 [] (s0.entryBad (s0.queue c0.queue) i)
  let s := a.1
  let c := a.2
  match s.readEntry (s.queue c.queue) i with
  | .error f =>
    let s1 := s.enter e c
    if f.status = stHostRead ∧ s.hostSilent f.addr 64 then s1.awaitHost e
    else s1.failCmd e { c with prepAt := s.hclk } f
  | .ok d =>
    let c1 := { c with desc := d, prepAt := s.hclk }
    (s.enter e c1).checkCmd e c1

/-- The windows of engine `e` that open at its command boundary: it hosts no program that is armed (R506). -/
def State.boundaryWindow (s : State) (e : Nat) : Bool :=
  match s.progOf e with
  | none => true
  | some p => (s.prog p.prog).st == .disarmed || (s.prog p.prog).st == .absent

/-- A repair item waits whose window opens at this boundary (R506). -/
def State.windowDue (s : State) (e : Nat) : Bool :=
  decide (e < 8) && s.boundaryWindow e && s.rel.items.any (fun i => i.engine == e)

/-- Edge dies of the link engines (R343). -/
def linkDie (e : Nat) : Nat := 49 + (e - 17)

/-- Engine `e` is held for a CLKMODE over `mask`: a half of it, or its edge die, is in the old or the new requested set (R531). -/
def State.clkHolds (s : State) (mask e : Nat) : Bool :=
  let m := s.clk.req.toNat
  if e < 8 then (s.halvesOf e).any (fun d => bit m d || bit mask d)
  else decide (17 ≤ e ∧ e < 21) && (bit m (linkDie e) || bit mask (linkDie e))

/-- A privileged command in Prephor's hands holds the fetch of engine `e` until it has been carried out (R301, R309, R531). An armed
program's engine is held inside its windows only. -/
def State.privHolds (s : State) (e : Nat) (c : Cmd) : Bool :=
  let t := c.tack
  let names : Bool := (s.halvesOf e).any (fun d => bit (fld t 0 4) d)
  s.boundaryWindow e &&
    (if dOp c.desc = opMarch then names
     else if dOp c.desc = opRetain then fld t 4 1 ≠ 0 && names
     else if dOp c.desc = opClkmode then s.clkHolds (fld t 0 8) e
     else false)

/-- The fetch of engine `e` is held by Prephor. -/
def State.heldFor (s : State) (e : Nat) : Bool :=
  s.rel.patches.any (fun p => p.held.contains e) || s.mbx.privs.any (fun c => s.privHolds e c)

/-- Engine `e` may take a command: READY with a hub, at a boundary, and nothing holds its fetch (R372, R506, R515, R520). -/
def State.fetches (s : State) (e : Nat) : Bool :=
  s.live && s.present e && (s.eng e).st == .idle && !s.heldFor e && !(s.eng e).heldItems && !s.windowDue e

/-- A failure that a confirmed fetch meets afresh (R226, R384). -/
def Fail.again (f : Fail) : Bool := f.status == stHostRead || f.status == stTranslation

/-- A confirmed preload enters PREP (R226, R355, R360). -/
def State.fetchPreload (s : State) (e : Nat) (p : Preload) : State :=
  let s0 := s.modEng e (fun x => { x with preload := none })
  let s1 := match p.chainSlot with
    | some k => s0.setChain e k ChainSlot.reset
    | none => s0
  let c := { p.cmd with gate := false, prepAt := s.hclk }
  if p.ringFault then s1.fetchEntry e c ((s.queue c.queue).head - 1)
  else
    match p.fail with
    | none => (s1.enter e c).steps8to10 e c
    | some f => if f.again then (s1.enter e c).checkCmd e c else (s1.enter e c).failCmd e c f

/-- ENGINE_FETCH (R344, R348, R355, R360, R372). -/
def execEngineFetch (eng : Nat) (s : State) : Out :=
  .next (if !s.fetches eng then s
    else
      match (s.eng eng).preload with
      | some p => s.fetchPreload eng p
      | none =>
        match s.nextSource eng with
        | none => s
        | some (.chain k) =>
          let x := s.chainSlot eng k
          let c := { newCmd eng x.desc x.queue x.seq none with prepAt := s.hclk }
          ((s.setChain eng k ChainSlot.reset).enter eng c).checkCmd eng c
        | some (.slot k) =>
          let n := (s.slot k).queue.getD 0
          let q := s.queue n
          (s.serveSlot eng k).fetchEntry eng (newCmd eng [] n (q.seqOf n) (some k)) q.head)

/-- PRELOAD (R355, R356, R360): steps 1 to 7 while command N runs; a failed check is held. -/
def execPreload (eng : Nat) (s : State) : Out :=
  let x := s.eng eng
  .next (match x.cur with
    | none => s
    | some n =>
      if !s.live ∨ x.preload.isSome ∨ n.startAt.isNone ∨ (x.st ≠ .run ∧ x.st ≠ .drain) ∨ dNoPreload n.desc ∨ s.heldFor eng ∨ x.heldItems then s
      else
        let put (s0 : State) (c0 : Cmd) (chainSlot : Option Nat) (turn : Nat × Nat) : State :=
          let a := s0.ask c0 [] (s0.prepBad eng c0.desc)
          let s := a.1
          let c := a.2
          let r := s.steps2to7 eng c
          let p : Preload := match r with
            | .ok tack => ⟨s.withReads eng c tack, none, chainSlot, false, turn⟩
            | .error f => ⟨c, some f, chainSlot, false, turn⟩
          let s := if p.fail.isNone then s.loadShadow eng c else s
          (s.modEng eng (fun x => { x with preload := some p })).trace 1 4 (1 + b2n c.chained * 2) eng
            (toBytes 2 c.queue ++ toBytes 8 c.seq ++ toBytes 1 (dOp c.desc))
        match s.nextSource eng with
        | none => s
        | some (.chain k) =>
          let y := s.chainSlot eng k
          put s (newCmd eng y.desc y.queue y.seq none) (some k) (0, 0)
        | some (.slot k) =>
          let q := (s.slot k).queue.getD 0
          let c := newCmd eng [] q ((s.queue q).seqOf q) (some k)
          let s1 := s.serveSlot eng k
          let turn := ((s.queue q).cls, sget 0 x.lastServed (s.queue q).cls)
          match s.readEntry (s.queue q) (s.queue q).head with
          | .error f => s1.modEng eng (fun x => { x with preload := some ⟨c, some f, none, true, turn⟩ })
          | .ok d =>
            let a := s1.ask { c with desc := d } [] (s.entryBad (s.queue q) (s.queue q).head)
            put a.1 a.2 none turn)

/-- HOST_READ_TIMEOUT (R384, R433): 1 ms without completion fails the read that engine `eng` waits for. -/
def State.readTimedOut (s : State) (e : Nat) : Bool :=
  match sget none s.ports.waitsRead e with
  | some t => decide (t + 1000 * hclkPerUs ≤ s.hclk)
  | none => false

/-- The wait of engine `e` for the host ends. -/
def State.endWait (s : State) (e : Nat) : State :=
  s.modPorts (fun p => { p with waitsRead := sset none p.waitsRead e none })

/-! ## The start of a command (R349, R352, R372) -/

/-- The claims of the commands that run on other engines than `e`. -/
def State.claimsInUse (s : State) (e : Nat) : List (Nat × Nat × Nat) :=
  ((upto 8).filter (fun x => x != e)).flatMap (fun x =>
    match (s.eng x).cur with
    | some c => if c.startAt.isSome ∧ takesSched .compute (dOp c.desc) then c.sched.claims else []
    | none => [])

/-- The claims of the commands that have passed step 7 of R348, running, in PREP or held as preloads, those of queue `n` apart (R352). -/
def State.claimsPassed (s : State) (n : Nat) : List (Nat × Nat × Nat) :=
  (upto 8).flatMap (fun x =>
    let cur := match (s.eng x).cur with
      | some c => if (sget none s.ports.waitsRead x).isSome then [] else [c]
      | none => []
    let held := match (s.eng x).preload with
      | some p => if p.fail.isNone then [p.cmd] else []
      | none => []
    ((cur ++ held).filter (fun c => c.queue != n && takesSched .compute (dOp c.desc))).flatMap (fun c => c.sched.claims))

/-- The command in PREP on engine `e` waits for a claim (R352). -/
def State.claimWaits (s : State) (e : Nat) (c : Cmd) : Bool :=
  takesSched (kindOf e) (dOp c.desc) &&
    (c.sched.claims).any (fun x => (s.claimsInUse e).any (claimsMeet x))

/-- The logical cores that a command names: those with a program (R14, R350). -/
def Cmd.named (c : Cmd) (e : Nat) : List Nat :=
  if takesSched (kindOf e) (dOp c.desc) then c.sched.cores else []

/-- A named core is haltered (R92). -/
def State.anyHalted (s : State) (cs : List Nat) : Bool := cs.any (fun i => (s.core (coreNum (s.coreAt i))).halter.isSome)

/-- The phase in which a command's cores begin: PHASE of its snapshot for a RESUME, else 0 (R163, R183). -/
def State.firstPhase (s : State) (c : Cmd) : Nat := if dOp c.desc = opResume then fld (s.devBytes (acSnap (s.ctrlOf c.sched.header)) 4096) 0x60 8 else 0

/-- The mode of a command comes to the cores it names and to their halves (R14, R95, R96); their first phase begins (R163, R183). -/
def State.setModes (s : State) (e : Nat) (c : Cmd) : State :=
  match opSetsMode (dOp c.desc) with
  | none => s
  | some m =>
    let n := s.firstPhase c
    s.each (c.named e) (fun s i =>
      let p := s.coreAt i
      (s.modCore (coreNum p) (fun x => { x with mode := m, phase := n, phaseAt := (s.rclk p.yh).yclk })).modHalf p.yh (fun h => { h with mode := m }))

/-- The copy of the tack block goes to TACK_OFF of every core of the rectangle (R349). -/
def State.placeTack (s : State) (e : Nat) (c : Cmd) : State :=
  let off := soTackOff c.sched.header
  if off = 0xFFFFFFFF ∨ c.tack.isEmpty then s
  else s.each (s.engCores e) (fun s i => (s.spadWrite (coreNum (s.coreAt i)) off c.tack).spadSpoil (coreNum (s.coreAt i)) off c.tackVoids)

/-- The route engine shows the route object and the step of the command that starts (R212); a ROUTE with START takes its record range (R213). -/
def State.showRoute (s : State) (c : Cmd) : State :=
  if dOp c.desc = opRoute ∨ dOp c.desc = opCombine then
    let s1 := if dOp c.desc = opRoute ∧ rtStart c.tack then s.startRoute c.tack else s
    s1.modRoute (fun r => { r with id := roId (s.devBytes (rtAddr c.tack) 64), step := rtStep c.tack % 65536, sent := [] })
  else s

/-- A command starts: its START is now (R368, R372). -/
def State.start (s : State) (e : Nat) (c : Cmd) : State :=
  let c1 := { c with startAt := some s.hclk, yclk0 := (s.halvesOf e).map (fun d => (s.rclk d).yclk) }
  let s1 := if takesSched (kindOf e) (dOp c.desc) then ((s.swapPrograms e).placeTack e c).setModes e c else s.showRoute c
  (s1.hold e (if c.draining then .drain else .run) c1).traceStart e c

/-- The yclk that a command cut off now has run, in the half that counted most; held yclk do not count (R368, log entry 1). -/
def State.ranYclk (s : State) (e : Nat) (c : Cmd) : Nat :=
  (((s.halvesOf e).zip c.yclk0).map (fun x => (s.rclk x.1).yclk - x.2)).foldl max 0

/-- Every half of engine `e` reads RUN (R298). -/
def State.halvesRun (s : State) (e : Nat) : Bool := (s.halvesOf e).all (fun d => (s.half d).pstate == .run)

/-- A half of engine `e` holds: its cores and routers keep their state, and its command stands still (R247). -/
def State.engHolds (s : State) (e : Nat) : Bool := !s.yards.holds.isEmpty && (s.halvesOf e).any (fun d => s.yards.holds.contains d)

/-- The command of opcode `op` that runs on engine `e`, its start marker sent.  It runs on without a hub (R515), and under PFAIL# until
it is killed (R529); it stands still while a half of its engine holds (R247). -/
def State.running (s : State) (e op : Nat) : Option Cmd :=
  match (s.eng e).cur with
  | some c =>
    if !s.engHolds e ∧ (s.pwr.mod = .ready ∨ s.pwr.mod = .pfail) ∧ dOp c.desc = op ∧ c.startAt.isSome ∧ ((s.eng e).st = .run ∨ (s.eng e).st = .drain ∨ (s.eng e).st = .disabling) then some c
    else none
  | none => none

/-- The non-compute command of opcode `op` on engine `e`, running or ready to start: with it, the state in which it runs.  It starts once the re-reads
that its fetch asked for have run (R330). -/
def State.starting (s : State) (e op : Nat) : Option (Cmd × State) :=
  match s.running e op with
  | some c => some (c, s)
  | none =>
    match (s.eng e).cur with
    | some c =>
      if s.live ∧ dOp c.desc = op ∧ c.ready ∧ !c.asks ∧ !s.engHolds e ∧ (s.eng e).st = .prep then some ({ c with startAt := some s.hclk, yclk0 := (s.halvesOf e).map (fun d => (s.rclk d).yclk) }, s.start e c) else none
    | none => none

/-- Why a draining command was drained (R389, R401). -/
def State.drainCause (s : State) (c : Cmd) : Cause := if !c.ownTimeout ∧ (s.queue c.queue).st = .destroying then .destroy else .timeout

/-- The end of a command whose start marker reached cores before they were ready: a schedule fault, unless it failed otherwise (R86, R369, R371). -/
def Cmd.marked (c : Cmd) (d : Done) : Done :=
  match minBy id c.early with
  | some i => if confirms d.status then { d with status := stSchedule, detail := schedDetail 3 i } else d
  | none => d

/-- The end of a command whose reads of an exchange were stale: OK_FLAGGED where it would be OK or REPLAYED (R287, R369). -/
def Cmd.stale (c : Cmd) (d : Done) : Done := if c.flagged ∧ (d.status = stOk ∨ d.status = stReplayed) then { d with status := stFlagged } else d

/-- A running command ends by itself: one that was drained posts TIMEOUT_DRAINED (R389). -/
def State.complete (s : State) (e : Nat) (c : Cmd) (d : Done) : State :=
  if c.draining then s.finish e c { d with status := stDrained, detail := 0, cause := s.drainCause c } else s.finish e c (c.marked (c.stale d))

/-! ## Fences, chains, NOP (R358 to R363, R367) -/

/-- FENCE and VALUE of a fence command (R362). -/
def fenceOf (d : Bytes) : Nat := fld d 0x20 1
def fenceValue (d : Bytes) : Nat := fld d 0x28 8

/-- The trace record of a fence signal or wait. -/
def State.fenceTrace (s : State) (e : Nat) (d : Bytes) : State := s.trace 3 6 0 e (toBytes 1 (fenceOf d) ++ toBytes 8 (fenceValue d))

/-- FENCE_SIGNAL with ADD (R362). -/
def execFenceSignalAdd (eng : Nat) (s : State) : Out :=
  .next (match s.starting eng opSignal with
    | some (c, t) =>
      if fld c.desc 0x21 1 = 0 then
        let full := t.fenceFull (fenceOf c.desc) (fenceValue c.desc)
        ((t.fenceAdd (fenceOf c.desc) (fenceValue c.desc)).fenceTrace eng c.desc).complete eng c { status := endStatus false full c.replayed }
      else s
    | none => s)

/-- FENCE_SIGNAL with MAX (R362). -/
def execFenceSignalMax (eng : Nat) (s : State) : Out :=
  .next (match s.starting eng opSignal with
    | some (c, t) =>
      if fld c.desc 0x21 1 = 1 then
        ((t.fenceMax (fenceOf c.desc) (fenceValue c.desc)).fenceTrace eng c.desc).complete eng c { status := stOk }
      else s
    | none => s)

/-- The fence of a wait has reached its value (R363). -/
def State.fenceMet (s : State) (f v : Nat) : Bool := decide (v ≤ (s.fence f).toNat)

/-- FENCE_WAIT (R363): it completes, or parks and leaves the engine at a boundary. -/
def execFenceWait (eng : Nat) (s : State) : Out :=
  .next (match s.starting eng opWait with
    | some (c, t) =>
      if t.fenceMet (fenceOf c.desc) (fenceValue c.desc) then (t.fenceTrace eng c.desc).complete eng c { status := stOk }
      else
        ((t.fenceTrace eng c.desc).modEng eng (fun x => { x with
          waits := x.waits ++ [⟨c, fenceOf c.desc, fenceValue c.desc⟩] })).atBoundary eng
    | none => s)

/-- A parked wait leaves its engine. -/
def State.dropWait (s : State) (e : Nat) (w : Parked) : State :=
  s.modEng e (fun x => { x with waits := x.waits.filter (fun y => decide (y ≠ w)) })

/-- FENCE (R363): the slot leaves parking and its FENCE_WAIT completes, once the hclk in which the fence was met is over, since a fetch that
stops in that hclk stops first (R402, log entry 71).  A wait whose queue holds no slot answers to any slot number from 32 on. -/
def execFence (eng slot : Nat) (s : State) : Out :=
  .next (match (s.eng eng).waits.find? (fun w => s.fenceMet w.fence w.value && s.clears (.fenceUp w.fence) &&
      (if slot < 32 then (s.slot slot).queue == some w.cmd.queue else (s.queue w.cmd.queue).slot.isNone)) with
    | some w => if s.live then ((s.dropWait eng w).postRecord eng w.cmd { status := stOk }).endDestroys else s
    | none => s)

/-- The effect of CHAIN: its end and the state (R358). -/
def State.armChain (s : State) (e : Nat) (c : Cmd) : Done × State :=
  let te := fld c.desc 0x20 1
  let k := fld c.desc 0x21 1
  let a := fld c.desc 0x28 8
  if !s.takesChain te then ({ status := stDisabled }, s)
  else if (s.chainSlot te k).st ≠ .empty then ((badFormat obDesc 0x21).done, s)
  else
    match s.firstFail a 64 false false with
    | some f => ((xlatFail f.1).done, s.noteFail e (xlatFail f.1))
    | none =>
      let d := s.devBytes a 64
      match checkDesc (kindOf te) (s.queue c.queue).cls d with
      | some f => (f.done, s)
      | none =>
        ({ status := stOk }, (s.setChain te k ⟨.armed, d, c.queue, c.seq⟩).trace 4 7 0 te (toBytes 1 k ++ toBytes 1 0))

/-- The blocks of wrong parity that a CHAIN meets in the descriptor it reads (R330). -/
def State.chainBad (s : State) (c : Cmd) : List Nat :=
  let a := fld c.desc 0x28 8
  if s.mem.bad.isEmpty ∨ (s.firstFail a 64 false false).isSome then [] else s.devBad a 64

/-- CHAIN (R358).  It waits for the re-reads of what it meets. -/
def execChain (eng : Nat) (s : State) : Out :=
  .next (match s.starting eng opChain with
    | some (c, t) =>
      (t.takeChecks eng c [] (t.chainBad c)).getD
        (let r := t.armChain eng c
         r.2.complete eng c r.1)
    | none => s)

/-- NOP (R367). -/
def execNop (eng : Nat) (s : State) : Out :=
  .next (match s.starting eng opNop with
    | some (c, t) => t.complete eng c { status := stOk }
    | none => s)

/-! ## Queues (R381 to R388, R390) -/

/-- FE_Q_TAIL (R381 to R383): the tail counts on from the head.  The period unit alone moves the tail of a real-time queue (R409). -/
def State.writeTail (s : State) (n v : Nat) : State :=
  let q := s.queue n
  if q.st = .free ∨ q.st = .destroying ∨ 504 ≤ n then s
  else { s.setTail n v with tails := s.tails ++ [⟨n, q.tail, q.badTail, v⟩] }

/-- An engine that is disabled reports every descriptor submitted to it, in ring order (R373); `fuel` bounds the ring. -/
def State.reportRing (s : State) (e n : Nat) : Nat → State
  | 0 => s
  | fuel + 1 =>
    let q := s.queue n
    if q.head < q.tail then
      let d := match s.readEntry q q.head with
        | .ok d => d
        | .error _ => []
      let c := newCmd e d n (q.seqOf n) q.slot
      ((s.setQueue n { q with head := q.head + 1 }).postRecord e { c with chained := false } { status := stDisabled }).reportRing e n fuel
    else s

/-- The descriptors of a queue that is mapped to a slot of a disabled engine are reported. -/
def State.reportQueue (s : State) (n : Nat) : State :=
  let q := s.queue n
  if ((s.eng q.engine).st = .disabled ∨ (s.eng q.engine).st = .disabling) ∧ q.slot.isSome ∧ q.st ≠ .destroying then s.reportRing q.engine n (q.tail - q.head) else s

def execFeQTail (queue : Nat) (value : Word) (s : State) : Out :=
  .next (s.onWrite (0x102000 + 4 * queue) (fun s => (s.writeTail queue value.toNat).reportQueue queue))

/-- A queue leaves HALTED or FAULTED (R387, R388). -/
def State.resumeQueue (s : State) (n : Nat) : State :=
  s.modQueue n (fun q =>
    if q.st = .halted ∨ q.st = .faulted then { q with st := if q.slot.isSome then .mapped else q.unmapped } else q)

/-- FE_Q_RESUME (R404): RESUME of the queue that the requester selects. -/
def execFeQResume (who : Requester) (value : Word) (s : State) : Out :=
  .next (s.onWrite 0x10301C (fun s => if value.getLsbD 0 then s.resumeQueue (s.qSel who) else s))

/-! ## Mapping (R385, R386) -/

/-- The queue that a slot counts for: the one that takes it over, else the one it holds. -/
def Slot.counted (x : Slot) : Option Nat := x.next.orElse (fun _ => x.queue)

/-- Slots of engine `e` held by a class. -/
def State.heldBy (s : State) (e cls : Nat) : Nat :=
  ((s.engSlots e).filter (fun k => match (s.slot k).counted with
    | some q => (s.queue q).cls == cls
    | none => false)).length

/-- The minimums of the classes on `left` slots, met in class order (R385). -/
def classMins : List Nat → Nat → List Nat
  | [], _ => []
  | m :: ms, left => min m left :: classMins ms (left - min m left)

def State.minSlots (s : State) (e cls : Nat) : Nat := (classMins (s.img.classes.map ClassRec.minSlots) (s.slotsOf e)).getD cls 0
def State.maxSlots (s : State) (e cls : Nat) : Nat := min ((s.img.classes.map ClassRec.maxSlots).getD cls 0) (s.slotsOf e)

/-- The queues of engine `e` that wait for a slot and were given none yet. -/
def State.waitingQueues (s : State) (e : Nat) : List Nat :=
  (s.queues.filter (fun x => x.2.st == .waiting && x.2.engine == e &&
    !(s.engSlots e).any (fun k => (s.slot k).next == some x.1))).map Prod.fst

/-- The order of waiting queues: class, then most mapping points waited, then number (R385). -/
def State.waitRank (s : State) (n : Nat) : Nat :=
  let q := s.queue n
  (q.cls * 65536 + (65535 - min q.wait 65535)) * 512 + n

/-- The slots whose queue can be asked to leave: not pinned and not leaving. -/
def State.donors (s : State) (e : Nat) : List Nat :=
  (s.engSlots e).filter (fun k =>
    let x := s.slot k
    x.queue.isSome && !x.pinned && !x.leaving && (s.queue (x.queue.getD 0)).st == .mapped)

/-- A command of queue `n` is between PREP and POST on engine `e`, or was handed from it to Prephor. -/
def State.busyOn (s : State) (e n : Nat) : Bool :=
  (match (s.eng e).cur with
    | some c => c.queue == n
    | none => false) || s.mbx.privs.any (fun c => c.queue == n && c.engine == e)

/-- A mapped queue is idle: nothing outstanding, running on its engine, or parked (R385). -/
def State.queueIdle (s : State) (k : Nat) : Bool :=
  match (s.slot k).queue with
  | none => false
  | some n => (s.queue n).head == (s.queue n).tail && !s.busyOn (s.queue n).engine n && !s.slotParked k

/-- The donor order of rules 2 and 4: the lowest class first, and within it the queue mapped longest. -/
def State.donorRank (s : State) (k : Nat) : Nat :=
  let q := s.queue ((s.slot k).queue.getD 0)
  (3 - q.cls) * 2 ^ 64 + min (s.slot k).mappedAt (2 ^ 64 - 1)

/-- The slot that waiting queue `n` gets by rule `r` of R385. -/
def State.mapRule (s : State) (e r n : Nat) : Option Nat :=
  let w := (s.queue n).cls
  let cls (k : Nat) : Nat := (s.queue ((s.slot k).queue.getD 0)).cls
  if r = 1 then (s.engSlots e).find? (fun k => (s.slot k).queue.isNone && (s.slot k).next.isNone && !(s.slot k).pinned)
  else if r = 2 then
    if s.minSlots e w ≤ s.heldBy e w then none
    else minBy s.donorRank ((s.donors e).filter (fun k => decide (cls k ≠ w ∧ s.minSlots e (cls k) < s.heldBy e (cls k))))
  else if r = 3 then (s.donors e).find? s.queueIdle
  else if s.maxSlots e w ≤ s.heldBy e w then none
  else minBy s.donorRank ((s.donors e).filter (fun k =>
    decide (w ≤ cls k) && decide ((s.slot k).mappedAt + 2 ^ 20 ≤ (s.eng e).windowStart)))

/-- A queue moves into a slot (R386). -/
def State.moveIn (s : State) (k n : Nat) : State :=
  ((s.modSlot k (fun x => { x with queue := some n, leaving := false, next := none, mappedAt := s.hclk })).modQueue n (fun q =>
    { q with st := .mapped, slot := some k, wait := 0 })).reportQueue n

/-- The first rule that applies, with the first waiting queue it serves: rule, queue and slot. -/
def State.mapChoice (s : State) (e : Nat) (waiting : List Nat) : Option (Nat × Nat × Nat) :=
  [1, 2, 3, 4].findSome? (fun r => waiting.findSome? (fun n => (s.mapRule e r n).map (fun k => (r, n, k))))

/-- The rules of R385 until none applies; `fuel` bounds the slots they can take. -/
def State.mapAll (s : State) (e : Nat) : Nat → State
  | 0 => s
  | fuel + 1 =>
    let waiting := (s.waitingQueues e).mergeSort (fun a b => decide (s.waitRank a ≤ s.waitRank b))
    match s.mapChoice e waiting with
    | none => s
    | some (r, n, k) =>
      if r = 1 then (s.moveIn k n).mapAll e fuel
      else
        let out := (s.slot k).queue.getD 0
        let s1 := s.modSlot k (fun x => { x with leaving := true, next := some n })
        let s2 := if r = 2 ∨ r = 4 then s1.bump .queue out 4 else s1
        s2.mapAll e fuel

/-- MAPPING_POINT (R385, R386). -/
def execMappingPoint (eng : Nat) (s : State) : Out :=
  .next (if !s.live ∨ !s.present eng then s
    else
      let s1 := s.each ((s.queues.filter (fun x => x.2.st == .waiting && x.2.engine == eng)).map Prod.fst)
        (fun s n => s.modQueue n (fun q => { q with wait := min (q.wait + 1) 65535 }))
      s1.mapAll eng 64)

/-- The slot has no command in PREP to POST, no held preload and no parked wait (R386). -/
def State.slotQuiet (s : State) (k : Nat) : Bool :=
  match (s.slot k).queue with
  | none => true
  | some n =>
    let mine (e : Nat) : Bool := match (s.eng e).cur with
      | some c => c.slot == some k && c.queue == n
      | none => false
    !(upto 21).any mine && !s.slotPreloaded k && !s.slotParked k && !(s.slot k).privParked

/-- SLOT_HANDOVER (R386): the LEAVING slot's queue moves out and the new one in. -/
def execSlotHandover (slot : Nat) (s : State) : Out :=
  let x := s.slot slot
  .next (if !s.live ∨ !x.leaving ∨ !s.slotQuiet slot then s
    else
      let s1 := match x.queue with
        | none => s
        | some n => s.modQueue n (fun q => { q with slot := none, st := if q.st = QState.mapped then q.unmapped else q.st })
      let s2 := s1.modSlot slot (fun y => { y with queue := none, leaving := false, next := none, mappedAt := 0 })
      match x.next with
      | some n => if (s2.queue n).st = .waiting ∨ (s2.queue n).st = .idle then s2.moveIn slot n else s2
      | none => s2)

/-- ACCOUNT_WINDOW (R390): every charge of the engine resets at its window boundary. -/
def execAccountWindow (eng : Nat) (s : State) : Out :=
  .next (if s.present eng ∧ (s.eng eng).windowStart + 2 ^ 20 ≤ s.hclk then
      let s1 := { s with queues := smap Queue.reset (fun x => if x.engine = eng then { x with charge := 0 } else x) s.queues }
      s1.modEng eng (fun x => { x with kernelCharge := 0, windowStart := x.windowStart + 2 ^ 20 })
    else s)

/-! ## Power states without a command (R298, R299) -/

/-- The engine of a half has a confirmed command. -/
def State.hasCommand (s : State) (e : Nat) : Bool := (s.eng e).cur.isSome || (s.eng e).preload.isSome

/-- 64 yclk of half `d` have passed since its engine's last command ended (R298). -/
def State.idleDue (s : State) (d : Nat) : Bool :=
  decide ((s.half d).idleAt + 64 ≤ (s.rclk d).yclk)

/-- IDLE_ENTRY (R298). -/
def execIdleEntry (yh : Nat) (s : State) : Out :=
  .next (match s.engineOf yh with
    | none => s
    | some e =>
      if s.live ∧ (s.half yh).pstate = .run ∧ !s.hasCommand e ∧ s.idleDue yh then s.modHalf yh (fun h => { h with pstate := .idle })
      else s)

/-- The yclk of half `d` as it comes up, in MHz: 2,400 in lockstep, else a free value up to FREE_CAP and not below 2,400 unless
FREE_CAP is lower (R42, R95, R557, log entry 1). -/
def State.wakeClock (s : State) (d : Nat) : Nat × State :=
  if (s.half d).lockstep then (2400, s)
  else
    let cap := if sget 0 s.img.freeCap d = 0 then 2700 else sget 0 s.img.freeCap d
    let f := s.draw
    (min cap 2400 + f.1 % (cap - min cap 2400 + 1), f.2)

/-- A half that was OFF comes up with its banks zero and its row remaps from TOPO; one in RETAIN keeps its content (R297). -/
def State.wakeHalf (s : State) (d : Nat) : State :=
  let s1 := if (s.half d).pstate = .off then
      (s.zeroHalf d).modHalf d (fun h => { h with rows := s.img.rows.filter (fun r => r.yh == d) })
    else s
  let c := s1.wakeClock d
  c.2.modHalf d (fun h => {
    h.ranAt c.1 with pstate := .run, waking := false, curMhz := c.1 })

/-- WAKE (R299): a WAKE message, or the wake that a confirmed command asked for, brings an assigned half up. One under march is left
as it is (R309). -/
def execWake (yh : Nat) (s : State) : Out :=
  .next (if s.live ∧ s.sqDown yh ∧ (s.engineOf yh).isSome ∧ !(s.half yh).farrier then s.wakeHalf yh else s)

end Sys2Proof.Machine
end

