-- ==== Sys2Proof/Machine/Crossings.lean ====
section
/-!
DEFINITION. The frames of the routers, slot by slot, and what they do at free crossings: handshake buffers, LATEST queues and holds (chapter 09,
R240 to R248, R260, R270).
-/
namespace Sys2Proof.Machine

/-! ## Sources (R241 to R243, R260) -/

/-- The half of a core router's position. -/
def State.halfOfXY (s : State) (x y : Nat) : Nat := halfAt (x / s.logical) (y / 64)

/-- The half of a router. -/
def State.routerHalf (s : State) : Router → Nat
  | .core x y => s.halfOfXY x y
  | .edge n => edgeHalf n

/-- The words of the active command memory of a router in a slot: of the engine whose half it belongs to (R239, R241). -/
def State.cmdWords (s : State) (r : Router) (slot : Nat) : Nat × Nat :=
  match s.engineOf (s.routerHalf r), r with
  | none, _ => (0, 0)
  | some e, .core x y => s.cmdEntry e false ((s.engCores e).idxOf (y * (8 * s.logical) + x)) slot
  | some e, .edge n => s.cmdEntry e true ((s.engEdges e).idxOf n) slot

/-- The source from which output `out` of a router takes its flit in a slot, 5 being die lane 1 of an edge router: the base field where it is nonzero,
else the field of the active command entry (R241 to R243). -/
def State.outSource (s : State) (r : Router) (slot out : Nat) : Nat :=
  let b := s.baseEntry r slot
  let c := s.cmdWords r slot
  if out = 5 then sourceOf b.2 c.2 0 else sourceOf b.1 c.1 out

/-- The operands that the arithmetic unit of a router takes in a slot (R241, R242). -/
def State.aluSources (s : State) (r : Router) (slot : Nat) : List Nat :=
  let b := (s.baseEntry r slot).1
  let c := (s.cmdWords r slot).1
  if bits b 24 21 = 0 ∧ bits c 24 21 = 0 then [] else [sourceOf b c 5, sourceOf b c 6]

/-- The inputs that a router reads in a slot, each once however many outputs take it (R243). -/
def State.inputsOf (s : State) (r : Router) (slot : Nat) : List Nat :=
  dedup (((upto 6).map (s.outSource r slot) ++ s.aluSources r slot).filter (fun i => i != 0 && i != 6))

/-- A flit that an output drives onto a free crossing in a slot is of LATEST class: its driving entry has LATEST set (R242, R246). -/
def State.drivesLatest (s : State) (r : Router) (slot out : Nat) : Bool :=
  let b := (s.baseEntry r slot).1
  bit (if wordField b out = 0 then (s.cmdWords r slot).1 else b) 25

/-! ## Flits (R236) -/

/-- The 144 bits of a flit on a port: sideband above data. -/
def Flit.bits (f : Flit) : Nat := f.sideband * 2 ^ 128 + ofBytes f.data

/-- The last flit of conveyor `i`, or of a dispatch tree from 2^24 on, as the port at its end takes it (R249, R254). -/
def State.setFlit (s : State) (i : Nat) (f : Flit) : State := s.modYards (fun y => { y with flits := sset 0 y.flits i f.bits })

/-- The key of a dispatch tree's flit. -/
def treeFlit (tree : Nat) : Nat := 2 ^ 24 + tree

/-! ## Free crossings (R245, R246) -/

/-- The neighbour of a core router on a side. -/
def neighbour (x y side : Nat) : Nat × Nat :=
  if side = 0 then (x, y - 1) else if side = 1 then (x + 1, y) else if side = 2 then (x, y + 1) else (x - 1, y)

/-- The link that a core router drives on a side: its key in the buffers. -/
def State.linkKey (s : State) (x y side : Nat) : Nat := (y * (8 * s.logical) + x) * 4 + side

/-- The key of an edge router's die port, toward the die or from it, above those of the links. -/
def dieKey (n : Nat) (fromDie : Bool) : Nat := 2 ^ 20 + 2 * n + b2n fromDie

/-- The half whose router reads the link of a key. -/
def State.keyReader (s : State) (k : Nat) : Nat :=
  let i := k / 4
  let q := neighbour (i % (8 * s.logical)) (i / (8 * s.logical)) (k % 4)
  s.halfOfXY q.1 q.2

/-- A side of a core router lies on a free crossing: a stitch or bridge between halves that are not both in the lockstep set (R245). -/
def State.freeSeam (s : State) (x y side : Nat) : Bool :=
  let q := neighbour x y side
  decide (side < 4) && seamOut s.logical x y side && !(s.alignedDom (s.halfOfXY x y) && s.alignedDom (s.halfOfXY q.1 q.2))

/-- The die port of an edge router is a free crossing (R245).  Beside an aligned half its die keeps up, and a slip there comes with the wave or the
fault report that finds it (DESIGN CHOICE, log entry 69). -/
def State.freeDie (s : State) (n : Nat) : Bool := !s.alignedDom (edgeHalf n)

/-- The buffer from which an input of a router takes its flit, where the input is a free crossing. -/
def State.readKey (s : State) (r : Router) (src : Nat) : Option Nat :=
  match r with
  | .core x y =>
    let q := neighbour x y (src - 1)
    if 1 ≤ src ∧ src ≤ 4 ∧ s.freeSeam x y (src - 1) then some (s.linkKey q.1 q.2 ((src + 1) % 4)) else none
  | .edge n => if (src = 5 ∨ src = 7) ∧ s.freeDie n then some (dieKey n true) else none

/-- The buffer into which an output of a router pushes, where it drives a free crossing. -/
def State.pushKey (s : State) (r : Router) (out : Nat) : Option Nat :=
  match r with
  | .core x y => if s.freeSeam x y out then some (s.linkKey x y out) else none
  | .edge n => if 4 ≤ out ∧ s.freeDie n then some (dieKey n false) else none

/-- The frames of a command run on the routers of half `d`. -/
def State.framesRun (s : State) (d : Nat) : Bool :=
  match s.engineOf d with
  | none => false
  | some e => ((s.eng e).cur.bind Cmd.startAt).isSome && (s.eng e).active.cf != 0

/-- The routers of half `d` at its border: the core routers at its edges, and its edge routers. -/
def State.borderOf (s : State) (d : Nat) : List Router :=
  let w := s.logical
  let x0 := halfCol d * w
  let y0 := halfRow d * 64
  (upto w).flatMap (fun i => [.core (x0 + i) y0, .core (x0 + i) (y0 + 63)]) ++
    (upto 62).flatMap (fun i => [.core x0 (y0 + 1 + i), .core (x0 + w - 1) (y0 + 1 + i)]) ++ (halfEdges d).map .edge

/-- The routers of half `d` that may drive or read a crossing in a slot: those of base entries, and all at its border while a command's frames run. -/
def State.slotRouters (s : State) (d slot : Nat) : List Router :=
  if s.framesRun d then s.borderOf d
  else
    ((((s.baseUses s.img.net).filter (fun u => u.slot == slot)).map Use.router ++
      ((s.baseAlus s.img.net).filter (fun u => u.slot == slot)).map AluUse.router).filter (fun r => s.routerHalf r == d)).eraseDups

/-- The buffers from which half `d` takes a flit in a slot of its frame, one for each input read (R246). -/
def State.seamReads (s : State) (d slot : Nat) : List Nat :=
  (s.slotRouters d slot).flatMap (fun r => (s.inputsOf r slot).filterMap (s.readKey r))

/-- The buffers into which half `d` pushes a flit in a slot of its frame, valid or idle, and whether it is of LATEST class (R246). -/
def State.seamPushes (s : State) (d slot : Nat) : List (Nat × Bool) :=
  (s.slotRouters d slot).flatMap (fun r => ((upto 6).filter (fun out => s.outSource r slot out != 0)).filterMap (fun out =>
    (s.pushKey r out).map (fun k => (k, decide (k < 2 ^ 20) && s.drivesLatest r slot out))))

/-- The buffers into which half `d` pushes a SCHEDULED flit in a slot. -/
def State.scheduled (s : State) (d slot : Nat) : List Nat := ((s.seamPushes d slot).filter (fun p => !p.2)).map Prod.fst

/-- Flits that wait in a buffer. -/
def State.waitingFlits (s : State) (k : Nat) : Nat := sget 0 s.yards.bufs k

/-- Flits that a buffer holds, and entries of a LATEST queue (R245, R246). -/
def bufDepth : Nat := 32
def latestDepth : Nat := 128

/-- A buffer holds `n` flits. -/
def State.setBuf (s : State) (k n : Nat) : State := s.modYards (fun y => { y with bufs := sset 0 y.bufs k n })

/-- The dies at the die ports that half `d` uses in a slot have taken flits from their buffers, or brought some, a free value of them since the last
such slot; a die never holds (R247, R250; log entry 69). -/
def State.diesRun (s : State) (d slot : Nat) : State :=
  s.each (dedup ((s.seamReads d slot ++ s.scheduled d slot).filter (fun k => decide (2 ^ 20 ≤ k)))) (fun s k =>
    let f := s.draw
    let n := f.1 % (bufDepth + 1)
    f.2.setBuf k (if k % 2 = 1 then min bufDepth (s.waitingFlits k + n) else s.waitingFlits k - n))

/-! ## Holds (R247, R248, R270) -/

/-- Half `d` holds in a slot: it reads an empty buffer, or would push into a full one (R247). -/
def State.holdsAt (s : State) (d slot : Nat) : Bool :=
  let rs := s.seamReads d slot
  let ps := s.scheduled d slot
  rs.any (fun k => decide (s.waitingFlits k < rs.count k)) || ps.any (fun k => decide (bufDepth < s.waitingFlits k + ps.count k))

/-- A crossing that is read in its slot is found empty: the counter and the event (R248). -/
def State.emptyRead (s : State) (rx : Nat) : State := (if rx < 32 then s.bump .half rx 20 else s).raise .xslip rx rx

/-- A slot of half `d` in which it does not hold.  It takes the oldest flit of every buffer it reads, an empty one read by an aligned half being
R248's (R270), and pushes one into every one it drives; LATEST flits that have come to it are handed to its spin blocks, and those it sends are
queued (R246). -/
def State.passSlot (s : State) (d slot : Nat) : State :=
  let s1 := if s.yards.latest.isEmpty then s else
    s.modYards (fun y => { y with latest := y.latest.filter (fun b => s.keyReader b.1 != d) })
  let s2 := s1.each (s.seamReads d slot) (fun s k => if s.waitingFlits k = 0 then s.emptyRead d else s.setBuf k (s.waitingFlits k - 1))
  s2.each (s.seamPushes d slot) (fun s p =>
    if p.2 then s.modYards (fun y => { y with latest := sset 0 y.latest p.1 (min latestDepth (sget 0 y.latest p.1 + 1)) })
    else s.setBuf p.1 (min bufDepth (s.waitingFlits p.1 + 1)))

/-- `n` yclk of a half that does not hold for a crossing, its frame counter at `y`. -/
def State.alignedSlots (s : State) (d y : Nat) : Nat → State
  | 0 => s
  | n + 1 => (s.passSlot d (y % 1024)).alignedSlots d (y + 1) n

/-- `n` yclk of a free half: it stops in the yclk in which it holds. -/
def State.freeSlots (s : State) (d : Nat) : Nat → State
  | 0 => s
  | n + 1 =>
    if s.yards.holds.contains d then s
    else
      let t := s.rclk d
      let u := s.diesRun d (t.yclk % 1024)
      if u.holdsAt d (t.yclk % 1024) then u.modYards (fun y => { y with holds := d :: y.holds })
      else ((u.passSlot d (t.yclk % 1024)).setRclk d { t with yclk := t.yclk + 1 }).freeSlots d n

/-- A hold of half `d` ends: the missing flits have arrived, and a full buffer has freed an entry (R247). -/
def State.endHold (s : State) (d : Nat) : State :=
  let slot := (s.rclk d).yclk % 1024
  let rs := s.seamReads d slot
  let ps := s.scheduled d slot
  ((s.each rs (fun s k => s.setBuf k (max (rs.count k) (s.waitingFlits k)))).each ps (fun s k =>
    s.setBuf k (min (bufDepth - ps.count k) (s.waitingFlits k)))).modYards (fun y => { y with holds := y.holds.filter (fun x => x != d) })

/-- `n` hclk pass for half `d`: its routers run on in every power state, at 2,400 MHz in lockstep, else at a yclk that follows droop and
temperature, a fresh free value, and one that holds stands still (R19, R85, R240, R247, log entry 1).  Free crossings are followed yclk by yclk
where a single hclk passes (DESIGN CHOICE, log entry 69). -/
def State.runHalf (n : Nat) (s : State) (d : Nat) : State :=
  let c := s.wakeClock d
  let t := s.rclk d
  let u := t.part + c.1 * n
  let on := c.2.setRclk d ⟨t.yclk + u / 1200, u % 1200⟩
  let s1 :=
    if s.alignedDom d then (if n = 1 then on.alignedSlots d t.yclk (u / 1200) else on)
    else if s.yards.holds.contains d then c.2
    else if n = 1 then (c.2.setRclk d ⟨t.yclk, u % 1200⟩).freeSlots d (u / 1200)
    else on
  if (s.half d).pstate = .off then s1
  else s1.modHalf d (fun h => { (if h.pstate = .run then h.ranAt c.1 else h) with curMhz := c.1 })

/-- The routers of the yards are clocked: the yards are powered, and power-up has brought them out of reset (R240, R523). -/
def State.yardsClocked (s : State) : Bool :=
  s.pwr.mod == .ready || s.pwr.mod == .pfail || (s.pwr.mod == .boot && decide (4 ≤ s.pwr.step))

/-- `n` hclk pass. -/
def State.pass (s : State) (n : Nat) : State :=
  let s1 := if s.yardsClocked then s.each (upto 32) (State.runHalf n) else s
  { s1 with hclk := s1.hclk + n, fresh := [], posts := [], tails := [] }

end Sys2Proof.Machine
end

