-- ==== Sys2Proof/Machine/Requests.lean ====
section
/-!
DEFINITION. Mailbox requests that Prephor carries out at once: queues, pages, engines, lists and status (R378 to R394, R469 to R471).
-/
namespace Sys2Proof.Machine

/-! ## Queues -/

/-- Mailbox `m` may act on queue `n` (R468 to R470): none, or the return code of the refusal. -/
def State.queueRc (s : State) (m n : Nat) : Option Nat :=
  let q := s.queue n
  if 512 ≤ n then some rcNoQueue
  else if q.st = .destroying then some rcBusy
  else if q.st = .free ∨ (m ≠ 0 ∧ (504 ≤ n ∨ q.owner ≠ m)) then some rcNoQueue
  else none

/-- The lowest FREE queue. -/
def State.freeQueue (s : State) : Option Nat := (upto 504).find? (fun n => (s.queue n).st == .free)

/-- The fields of a create request are in the ranges of R379 and R471. -/
def createFieldsOk (b : Bytes) : Bool :=
  decide (fld b 2 1 ≤ 3 ∧ fld b 4 1 ≤ 1 ∧ fld b 5 1 ≤ 1 ∧ fld b 6 1 ≤ 1 ∧ fld b 7 1 < 4 ∧ fld b 8 4 < 2 ^ 24) &&
  decide (4 ≤ fld b 0x0C 1 ∧ fld b 0x0C 1 ≤ 16 ∧ 4 ≤ fld b 0x0D 1 ∧ fld b 0x0D 1 ≤ 16) &&
  decide (fld b 0x10 8 % 64 = 0 ∧ fld b 0x18 8 % 64 = 0 ∧ fld b 0x20 8 % 64 = 0) &&
  (!bit (fld b 7 1) 0 || decide (fld b 0x28 4 ≤ 65536)) && (!bit (fld b 7 1) 1 || decide (fld b 0x0E 2 ≤ 1024))

/-- The queue that a create request makes (R379, R471). -/
def State.newQueue (s : State) (b : Bytes) (mbx : Nat) : Queue :=
  let c := s.img.classes.getD (fld b 2 1) ⟨0, 0, 0, 0⟩
  { Queue.reset with
    st := .idle, cls := fld b 2 1, engine := fld b 3 1, policy := fld b 4 1, haltOnFail := fld b 5 1 == 1, timeoutUs := fld b 8 4,
    descHost := fld b 6 1 == 1, descAddr := fld b 0x10 8, descLog2 := fld b 0x0C 1, recAddr := fld b 0x18 8, recLog2 := fld b 0x0D 1,
    mirror := fld b 0x20 8, pages := if bit (fld b 7 1) 0 then fld b 0x28 4 else c.pages,
    share := if bit (fld b 7 1) 1 then fld b 0x0E 2 else c.share, owner := mbx }

/-- Why a create request is refused (R380, R468 to R470), in the order of its fields; else the queue it creates. -/
def State.createTarget (s : State) (m : Nat) (b : Bytes) : Except Nat Nat :=
  let n := fld b 0 2
  let e := fld b 3 1
  if n ≠ 0xFFFF ∧ 503 < n then .error rcNoQueue
  else if n ≠ 0xFFFF ∧ (s.queue n).st = .destroying then .error rcBusy
  else if n ≠ 0xFFFF ∧ (s.queue n).st ≠ .free then .error rcNotFree
  else if !s.present e then .error rcNoEngine
  else if (s.eng e).st = .disabling then .error rcBusy
  else if fld b 2 1 = 0 ∧ m ≠ 0 then .error rcPrivilege
  else if fld b 2 1 ≠ 0 ∧ (s.progOf e).isSome then .error rcBadRequest
  else if !createFieldsOk b then .error rcBadRequest
  else if n ≠ 0xFFFF then .ok n
  else
    match s.freeQueue with
    | some k => .ok k
    | none => .error rcNotFree

/-- QUEUE_CREATE (R380, R471). -/
def execQueueCreate (s : State) : Out :=
  .next (match s.headReq rqCreate with
    | none => s
    | some r =>
      match s.createTarget r.mbx (mBody r.msg) with
      | .error rc => s.endReq r rc []
      | .ok n => (s.setQueue n (s.newQueue (mBody r.msg) r.mbx)).endReq r rcOk (toBytes 2 n ++ zeros 2))

/-- QUEUE_BUDGET (R393, R394). -/
def State.budget (s : State) (m : Nat) (b : Bytes) : Nat × State :=
  let n := fld b 0 2
  let setPages := bit (fld b 2 1) 0
  let setShare := bit (fld b 2 1) 1
  let pages := fld b 4 4
  let share := fld b 8 2
  let foot := (s.img.progs.find? (fun p => decide (p.prog + 504 = n))).map (fun p => (p.footPages, p.footShare))
  let low := match foot with
    | some f => (setPages && decide (pages < f.1)) || (setShare && decide (share < f.2))
    | none => false
  if 4 ≤ fld b 2 1 then (rcBadRequest, s)
  else
    match s.queueRc m n with
    | some rc => (rc, s)
    | none =>
      if (setPages && decide (65536 < pages)) || (setShare && decide (1024 < share)) then (rcBadRequest, s)
      else if low then (rcBelowUse, s)
      else (rcOk, s.modQueue n (fun q => { q with
        pages := if setPages then pages else q.pages, share := if setShare then share else q.share }))

def execQueueBudget (s : State) : Out :=
  .next (match s.headReq rqBudget with
    | none => s
    | some r =>
      let x := s.budget r.mbx (mBody r.msg)
      x.2.endReq r x.1 [])

/-! ## Pages (R325, R328, R392, R467, R469) -/

/-- Prephor's message page (R467). -/
def messagePage : Nat := 255

/-- A frame that no valid entry maps, that is not reserved and that no retirement uses (R333, R469). -/
def State.frameFree (s : State) (p : Nat) : Bool :=
  !s.img.xlat.any (fun x => x.2.valid && x.2.ppage == p) && !s.img.resv.contains p &&
    !(let k := s.shed (p % 192 / 24); k.retBusy && (k.retOld == p || k.retNew == p))

/-- The lowest free frame of a slice. -/
def State.freeFrame (s : State) (slice : Nat) : Option Nat := ((upto 248).map (fun i => slice + 192 * i)).find? s.frameFree

/-- A range of virtual pages that a request may name. -/
def pageRange (v n : Nat) : Bool := decide (v + n ≤ 65536) && !(decide (v ≤ messagePage) && decide (messagePage < v + n))

/-- A page of the range is being retired, so the request is held (R328). -/
def State.rangeRetiring (s : State) (v n : Nat) : Bool :=
  (upto 8).any (fun k => let x := s.shed k; x.retBusy && decide (v ≤ x.retVpage ∧ x.retVpage < v + n))

/-- Maps pages one at a time: the return code, the pages mapped, and the state. -/
def State.mapPages (s : State) (q flags v : Nat) : Nat → Nat → Nat × Nat × State
  | 0, done => (rcOk, done, s)
  | n + 1, done =>
    if (s.xlat v).valid then (rcMapped, done, s)
    else
      match s.freeFrame (v % 192) with
      | none => (rcNoFrame, done, s)
      | some p =>
        ((s.setXlat v ⟨p, true, bit flags 0, bit flags 1, some q⟩).modQueue q (fun x => { x with usePages := x.usePages + 1 })).mapPages
          q flags (v + 1) n (done + 1)

/-- MAP (R392, R469): a request that would take the use above PAGES maps nothing. -/
def State.mapRequest (s : State) (m : Nat) (b : Bytes) : Nat × Nat × State :=
  let q := fld b 0 2
  let n := fld b 4 4
  let v := fld b 8 4
  if 4 ≤ fld b 2 1 ∨ !pageRange v n then (rcBadRequest, 0, s)
  else
    match s.queueRc m q with
    | some rc => (rc, 0, s)
    | none =>
      if (s.queue q).pages < (s.queue q).usePages + n then (rcQuota, 0, s.bump .queue q 3)
      else s.mapPages q (fld b 2 1) v n 0

def execMap (s : State) : Out :=
  .next (match s.headReq rqMap with
    | none => s
    | some r =>
      if s.rangeRetiring (fld (mBody r.msg) 8 4) (fld (mBody r.msg) 4 4) then s
      else
        let x := s.mapRequest r.mbx (mBody r.msg)
        x.2.2.endReq r x.1 (toBytes 4 x.2.1))

/-- Unmaps pages one at a time; a page of another owner is refused. -/
def State.unmapPages (s : State) (q v : Nat) : Nat → Nat → Nat × Nat × State
  | 0, done => (rcOk, done, s)
  | n + 1, done =>
    let x := s.xlat v
    if !x.valid then (rcNotMapped, done, s)
    else if x.owner ≠ some q then (rcBadRequest, done, s)
    else
      let s1 := s.setXlat v Xlat.reset
      (if q = 0xFFFF then s1 else s1.modQueue q (fun y => { y with usePages := y.usePages - 1 })).unmapPages q (v + 1) n (done + 1)

/-- UNMAP (R469). -/
def State.unmapRequest (s : State) (m : Nat) (b : Bytes) : Nat × Nat × State :=
  let q := fld b 0 2
  let n := fld b 4 4
  let v := fld b 8 4
  if !pageRange v n then (rcBadRequest, 0, s)
  else if q = 0xFFFF then (if m = 0 then s.unmapPages q v n 0 else (rcNoQueue, 0, s))
  else
    match s.queueRc m q with
    | some rc => (rc, 0, s)
    | none => s.unmapPages q v n 0

def execUnmap (s : State) : Out :=
  .next (match s.headReq rqUnmap with
    | none => s
    | some r =>
      if s.rangeRetiring (fld (mBody r.msg) 8 4) (fld (mBody r.msg) 4 4) then s
      else
        let x := s.unmapRequest r.mbx (mBody r.msg)
        x.2.2.endReq r x.1 (toBytes 4 x.2.1))

/-! ## Engines (R372, R373) -/

/-- Reports a command that has not started as DISABLED. -/
def State.postDisabled (s : State) (e : Nat) (c : Cmd) : State := s.postRecord e c { status := stDisabled }

/-- Engine `e` no longer waits for a hub seed or a host read. -/
def State.endWaits (s : State) (e : Nat) : State :=
  (s.modRngHub s.hubs.active (fun h => h.withdraw (.engine e))).endWait e

/-- The held preload of a disabled engine is discarded and its descriptor reported; one from a chain slot is reported with its slot. -/
def State.disablePreload (s : State) (e : Nat) : State :=
  match (s.eng e).preload with
  | none => s
  | some p =>
    let s1 := s.dropPreload e p
    if p.chainSlot.isSome then s1 else s1.postDisabled e p.cmd

/-- The ARMED and FIRED chain slots of a disabled engine. -/
def State.disableChains (s : State) (e : Nat) : State :=
  s.each (upto 8) (fun s k =>
    let x := s.chainSlot e k
    if x.st = .empty then s else ((s.unfire e k).setChain e k ChainSlot.reset).postDisabled e (x.cmd e))

/-- The FENCE_WAITs parked on a disabled engine. -/
def State.disableParked (s : State) (e : Nat) : State :=
  s.each (s.eng e).waits (fun s w => (s.dropWait e w).postDisabled e w.cmd)

/-- The rings of the queues mapped to the slots of a disabled engine. -/
def State.disableRings (s : State) (e : Nat) : State :=
  s.each (s.engSlots e) (fun s k => match (s.slot k).queue with
    | some n => if (s.queue n).st = .destroying then s else s.reportRing e n ((s.queue n).tail - (s.queue n).head)
    | none => s)

/-- A command in PREP has not started and is reported. -/
def State.disablePrep (s : State) (e : Nat) : State :=
  match (s.eng e).cur with
  | some c => if c.startAt.isNone then ((s.endWaits e).modEng e (fun x => { x with cur := none })).postDisabled e c else s
  | none => s

/-- Steps 1 to 6 of R373. -/
def State.disable (s : State) (e : Nat) : State :=
  let s1 := s.modEng e (fun x => { x with st := .disabling, counts := [] })
  ((((s1.disablePreload e).disablePrep e).disableChains e).disableParked e).disableRings e

/-- The engine that a request names is absent or busy. -/
def State.engineRc (s : State) (e : Nat) : Option Nat :=
  if !s.present e then some rcNoEngine else if (s.eng e).st = .disabling then some rcBusy else none

/-- ENGINE_DISABLE (R373, R470): a running command goes on, and the acknowledgement waits for it. -/
def execEngineDisable (s : State) : Out :=
  .next (match s.headReq rqDisable with
    | none => s
    | some r =>
      let e := fld (mBody r.msg) 0 1
      match s.engineRc e with
      | some rc => s.endReq r rc []
      | none =>
        let s1 := (s.disable e).background r
        let s2 := s1.modMbx (fun m => { m with bgDisable := m.bgDisable ++ [(e, r)] })
        (if (s2.eng e).cur.isSome then s2 else s2.disabled e).endDestroys)

/-- ENGINE_ENABLE (R372). -/
def execEngineEnable (s : State) : Out :=
  .next (match s.headReq rqEnable with
    | none => s
    | some r =>
      let e := fld (mBody r.msg) 0 1
      match s.engineRc e with
      | some rc => s.endReq r rc []
      | none => (s.modEng e (fun x => if x.st = .disabled then { x with st := .idle } else x)).endReq r rcOk [])

/-! ## Lists and status -/

/-- The 16 bytes of a repair item (R507). -/
def RepairItem.bytes (i : RepairItem) (now : Nat) : Bytes :=
  toBytes 1 i.kind ++ toBytes 1 i.engine ++ toBytes 1 i.yh ++ toBytes 1 i.pcol ++ toBytes 1 i.row ++ toBytes 1 i.bank ++
    toBytes 2 i.bankRow ++ toBytes 4 i.boundUs ++ toBytes 4 (min ((now - i.at_) / (1000 * hclkPerUs)) 0xFFFFFFFF)

/-- REPAIR_LIST (R469, R507). -/
def execRepairList (s : State) : Out :=
  .next (match s.headReq rqRepairList with
    | none => s
    | some r => s.endReq r rcOk ((s.rel.items.map (fun i => i.bytes s.hclk)).flatten))

/-- The HUB_STATUS request that is answered next: the head of the line, or in BOOT the first one posted (R527). -/
def State.statusReq (s : State) : Option Req :=
  if s.pwr.mod = .boot then
    (if s.hubAlive then s.mbx.reqs.find? (fun r => (s.badRc r).isNone && mOp r.msg == rqStatus) else none)
  else s.headReq rqStatus

/-- HUB_STATUS (R469). -/
def execHubStatus (s : State) : Out :=
  .next (match s.statusReq with
    | none => s
    | some r => s.endReq r rcOk (toBytes 4 (s.regHub 0x100) ++ toBytes 4 s.hub.patchSeq ++ toBytes 4 s.hubs.active))

end Sys2Proof.Machine
end

