-- ==== Sys2Proof/Machine/Clock.lean ====
section
/-!
DEFINITION. The lockstep set: alignment, exclusion, slips and realignment (chapter 10), and repair items as they are queued.
-/
namespace Sys2Proof.Machine

/-! ## Crossings (R16, R237, R238) -/

/-- The die that faces a yard from the west or east, by its domain. -/
def sideDie (d : Nat) : Option Nat :=
  let hc := halfCol d
  let west := [49, 48, 54, 50]
  let east := [51, 53, 57, 52]
  if hc = 0 then west[halfRow d]? else if hc = 7 then east[halfRow d]? else none

/-- The shed controller that faces a half. -/
def facingShed (d : Nat) : Option Nat :=
  if halfRow d = 0 then some (shedDomain (halfCol d / 2)) else if halfRow d = 3 then some (shedDomain (4 + halfCol d / 2)) else none

/-- Two yard halves are neighbours in the mesh: a stitch or a bridge joins them. -/
def halvesJoin (a b : Nat) : Bool :=
  (halfRow a == halfRow b && (halfCol a + 1 == halfCol b || halfCol b + 1 == halfCol a)) ||
    (halfCol a == halfCol b && (halfRow a + 1 == halfRow b || halfRow b + 1 == halfRow a))

/-- A crossing joins two domains. -/
def crossing (a b : Nat) : Bool :=
  if a < 32 ∧ b < 32 then halvesJoin a b
  else if a < 32 then sideDie a == some b || facingShed a == some b
  else if b < 32 then sideDie b == some a || facingShed b == some a
  else if a < 48 ∧ b < 48 then a / 2 == b / 2 && a != b
  else decide (54 ≤ a ∧ 54 ≤ b ∧ a < 60 ∧ b < 60) && (a - 54) / 3 == (b - 54) / 3 && a != b

/-! ## The check pattern (R267) -/

/-- The next state of the 16-bit LFSR with polynomial x^16 + x^14 + x^13 + x^11 + 1, shifted toward bit 0 (PRESUMED, log entry 64). -/
def lfsrNext (v : Nat) : Nat := v / 2 + (v + v / 4 + v / 8 + v / 32) % 2 * 2 ^ 15

/-- Word `i` of a check pattern from a seed. -/
def lfsrWord (seed : Nat) : Nat → Nat
  | 0 => seed
  | i + 1 => lfsrNext (lfsrWord seed i)

/-- The seed of a crossing's pattern. -/
def patternSeed (tx rx : Nat) : Nat := Nat.lor 0x8000 (tx * 64 + rx)

/-- Word `w` of an attempt arrived with the right value. -/
def crossingValueOk (c : CrossingFact) (w : WordFact) : Bool := w.value == lfsrWord (patternSeed c.tx c.rx) w.word

/-- An attempt passes: all 256 words arrive with the right value, each in its own cycle. -/
def crossingPasses (c : CrossingFact) (a : List WordFact) : Bool := a.all (fun w => crossingValueOk c w && w.late == 0)

/-- The attempt that passed, 5 where all four failed. -/
def crossingPassed (c : CrossingFact) : Nat := ((upto 4).find? (fun i => crossingPasses c (c.attempts.getD i []))).getD 4 + 1

/-- A word arrived with a wrong value: the reason is PATTERN, not LATENCY. -/
def crossingPattern (c : CrossingFact) : Bool := !c.attempts.all (fun a => a.all (crossingValueOk c))

/-- The crossings of a set of domains, by sender × 64 + receiver. -/
def crossingsOf (ds : List Nat) : List Nat := ds.flatMap (fun a => (ds.filter (crossing a)).map (fun b => a * 64 + b))

/-- The separation of write and read pointer that a crossing's FIFO is reset to (R266, R274). -/
def fifoReset : Nat := 3

/-! ## Alignment (R266 to R269, R271, R272) -/

/-- A domain excluded by an alignment: its peer and reason as CLK_FAIL0 gives them. -/
structure Excluded where
  dom : Nat
  peer : Nat
  reason : Nat
  deriving DecidableEq, Repr

/-- The issuing domain: H0M, or H1M once H1 is active (R268, R271). -/
def State.issuer (s : State) : Nat := s.hubDomain

/-- The domains of a requested set that take part: those of a lost H0 are isolated (R271). -/
def State.takesPart (s : State) (mask : BitVec 60) : List Nat :=
  (setBits mask.toNat 60).filter (fun d => !(s.hubs.h0Lost && decide (54 ≤ d ∧ d ≤ 56)))

/-- The other end of a failed crossing. -/
def otherEnd (c : CrossingFact) (d : Nat) : Nat := if c.tx = d then c.rx else c.tx

/-- A domain is an end of a crossing. -/
def isEnd (c : CrossingFact) (d : Nat) : Bool := c.tx == d || c.rx == d

/-- The failed crossing of a domain with the lowest peer, which gives its peer (R269), and its reason (DEDUCED, log entry 20). -/
def lowestPeer (failed : List CrossingFact) (d : Nat) : Option CrossingFact :=
  minBy (fun c => otherEnd c d) (failed.filter (fun c => isEnd c d))

/-- The domain that the loop of R268 excludes next: the end of the most failed crossings, ties to the higher number. -/
def worstDomain (failed : List CrossingFact) : Option Nat :=
  minBy (fun d => (1000 - (failed.filter (fun c => isEnd c d)).length) * 64 + (63 - d)) ((failed.map (fun c => [c.tx, c.rx])).flatten)

/-- A shed controller takes its PHY domain with it. -/
def withPhy (live : List Nat) (x : Excluded) : List Excluded :=
  if 32 ≤ x.dom ∧ x.dom < 48 ∧ x.dom % 2 = 0 ∧ live.contains (x.dom + 1) then [x, ⟨x.dom + 1, if x.reason = 0 then 0x3F else x.dom, x.reason⟩]
  else [x]

/-- The loop of R268: the domains excluded in order, and the peer when the set is abandoned.  `all` holds every failed crossing, of which a domain's
peer is taken (R269), `failed` those left.  `fuel` bounds the domains. -/
def excludeLoop (issuer : Nat) (all : List CrossingFact) : Nat → List Nat → List CrossingFact → List Excluded × Option Nat
  | 0, _, _ => ([], none)
  | fuel + 1, live, failed =>
    if failed.isEmpty then ([], none)
    else
      match lowestPeer failed issuer with
      | some c => ([], some (otherEnd ((lowestPeer all issuer).getD c) issuer))
      | none =>
        match worstDomain failed with
        | none => ([], none)
        | some d =>
          let c := lowestPeer all d
          let x : Excluded := ⟨d, (c.map (fun y => otherEnd y d)).getD 0x3F, if (c.map crossingPattern).getD true then 1 else 2⟩
          let outs := withPhy live x
          let r := excludeLoop issuer all fuel (live.filter (fun y => !outs.any (fun o => o.dom == y))) (failed.filter (fun y => !isEnd y d))
          (outs ++ r.1, r.2)

/-- Raises CLK_ALIGN_FAIL for an excluded domain (R269, R538). -/
def State.alignFail (s : State) (x : Excluded) : State :=
  s.raise .clkAlignFail x.dom (x.dom + x.peer * 0x100 + x.reason * 0x10000)

/-- The first exclusion fills CLK_FAIL0. -/
def Clocks.fail0 (c : Clocks) (x : Excluded) : Clocks :=
  { c with failDomain := x.dom, failValid := true, failPeer := x.peer, failReason := x.reason }

/-- The compute engines with a half in a list of domains. -/
def State.enginesWith (s : State) (ds : List Nat) : List Nat :=
  (s.img.engs.map EngEntry.id).filter (fun e => (s.halvesOf e).any (fun d => ds.contains d))

/-- Standing programs follow their engine: held while it is UNALIGNED, armed again once it is not (R269, R408, R532). -/
def State.holdPrograms (s : State) : State :=
  s.each s.img.progs (fun s p =>
    let un := bit s.clk.unalignedEng p.eng
    s.modProg p.prog (fun x =>
      if un ∧ x.st = .armed then { x with st := .held } else if !un ∧ x.st = .held then { x with st := .armed } else x))

/-- The yclk of every half that is not OFF after a change of the set: 2,400 MHz in lockstep, else as a free half runs. -/
def State.setClocks (s : State) : State :=
  s.each (upto 32) (fun s d =>
    let was := (s.half d).lockstep
    let s1 := s.modHalf d (fun h => { h with lockstep := s.alignedDom d, unaligned := s.clk.req.getLsbD d && !s.alignedDom d })
    if (s1.half d).pstate = .off ∨ (was = (s1.half d).lockstep ∧ (s1.half d).curMhz ≠ 0) then s1
    else
      let c := s1.wakeClock d
      c.2.modHalf d (fun h => {
        (if h.pstate = .run then h.ranAt c.1 else h) with curMhz := c.1 }))

/-- The registers and engines after an alignment over `live`, less the halves that leave with their engine (R269). -/
def State.setAligned (s : State) (live : List Nat) (state un : Nat) : State :=
  let gone := (upto 8).filter (fun e => bit un e)
  let left := live.filter (fun d => !(gone.any (fun e => (s.halvesOf e).contains d)))
  let engs := s.img.engs.map EngEntry.id
  let s1 := s.modClk (fun c => { c with
    aligned := BitVec.ofNat 60 (maskOf 60 (fun d => left.contains d)), state := state, unalignedEng := un,
    lockstepEng := maskOf 8 (fun e => engs.contains e && (s.halvesOf e).all (fun d => left.contains d)) })
  s1.setClocks.holdPrograms

/-- The marker's work on the domains that it reaches at cycle 1,088: the frame counters of their yard halves are at 0, none of them holds, their
buffers are empty, and the FIFO of every crossing among them is at its reset separation (R240, R247, R266). -/
def State.startSet (s : State) (ds : List Nat) : State :=
  let s1 := s.each (ds.filter (fun d => decide (d < 32))) (fun s d =>
    (s.setRclk d RouterClock.reset).modHalf d (fun h => { h with idleAt := 0 }))
  let driver (k : Nat) : Nat := if k < 2 ^ 20 then (s.coreAt (k / 4)).yh else edgeHalf ((k - 2 ^ 20) / 2)
  let s2 := s1.modYards (fun y => { y with
    holds := y.holds.filter (fun x => !ds.contains x),
    lastWave := y.lastWave.filter (fun w => !((s.img.net.conveyors[w.1]?).any (fun c => ds.contains (s.waveHalf c)))),
    bufs := y.bufs.filter (fun b => !ds.contains (driver b.1)), latest := y.latest.filter (fun b => !ds.contains (driver b.1)) })
  s2.modClk (fun c => { c with sep := (crossingsOf ds).foldl (fun m k => sset 0 m k fifoReset) [] })

/-- One alignment over a requested set, the domains `req` of it taking part (R266 to R269). -/
def State.alignOver (s : State) (mask : BitVec 60) (req : List Nat) (f : AlignFacts) : State :=
  let s0 := s.modClk (fun c => { c with
    req := mask, attempts := 0, excluded := 0, pllTimeout := false, failDomain := 0, failValid := false, failPeer := 0, failReason := 0,
    slipped := [], sep := [], state := if mask = 0 then c.state else 1 })
  if mask = 0 then s0.setAligned [] 0 0
  else
    let iss := s.issuer
    let noLock := req.filter (fun d => f.noLock.contains d)
    let pll := ((noLock.filter (fun d => d != iss)).flatMap (fun d =>
      withPhy (req.filter (fun x => !noLock.contains x)) ⟨d, 0x3F, 0⟩))
    let live := req.filter (fun d => !pll.any (fun x => x.dom == d))
    let facts := f.crossings.filter (fun c => live.contains c.tx && live.contains c.rx && crossing c.tx c.rx)
    let lost := noLock.contains iss
    let failed := facts.filter (fun c => decide (5 ≤ crossingPassed c))
    let loop := if lost then ([], some 0x3F) else excludeLoop iss failed 60 live failed
    let out := pll ++ loop.1
    let attempts := if lost then 0 else (facts.map (fun c => min (crossingPassed c) 4)).foldl max 1 - 1
    let s1 := (if lost then s0 else s0.startSet live).modClk (fun c => { c with
      epoch := c.epoch + 1, attempts := attempts, excluded := out.length, pllTimeout := !pll.isEmpty })
    let s2 := s1.each out (fun s x => s.alignFail x)
    match loop.2 with
    | some peer =>
      let x : Excluded := ⟨iss, peer, 3⟩
      ((s2.modClk (fun c => c.fail0 x)).alignFail x).setAligned [] 3 (maskOf 8 (fun e => (s.enginesWith req).contains e))
    | none =>
      let s3 := match out with
        | [] => s2
        | x :: _ => s2.modClk (fun c => c.fail0 x)
      let doms := out.map Excluded.dom
      s3.setAligned (live.filter (fun d => !doms.contains d)) 2 (maskOf 8 (fun e => (s.enginesWith doms).contains e))

/-- The alignment of power-up step 6. -/
def State.align (s : State) (mask : BitVec 60) (f : AlignFacts) : State := s.alignOver mask (s.takesPart mask) f

/-! ## Repair items (R507) -/

/-- An item with no field of its own set. -/
def State.item (s : State) (kind engine boundUs : Nat) : RepairItem :=
  ⟨kind, engine, 0xFF, 0xFF, 0xFF, 0xFF, 0xFFFF, boundUs, s.hclk, [], none⟩

/-- Queues an item at the end of the list. -/
def State.queueItem (s : State) (i : RepairItem) : State := s.modRel (fun r => { r with items := r.items ++ [i] })

/-! ## Slips (R248, R259, R273, R274) -/

/-- The engines at the ends of a crossing. -/
def State.crossingEngines (s : State) (c : Nat × Nat) : List Nat := s.enginesWith ([c.1, c.2].filter (fun d => decide (d < 32)))

/-- A crossing read by lockstep is found empty.  Inside the aligned set it has slipped: the receiver's bit, the LOCKSTEP bit of its engine cleared,
and a REALIGN item for the engines at its ends (R273).  From a free sender to an aligned yard half R248 alone applies (R270). -/
def State.slip (s : State) (tx rx : Nat) : State :=
  if !crossing tx rx ∨ !s.alignedDom rx then s
  else if !s.alignedDom tx then (if rx < 32 then s.emptyRead rx else s)
  else
    let hit := s.enginesWith ([rx].filter (fun d => decide (d < 32)))
    let s2 := ((s.emptyRead rx).event (.slip rx)).modClk (fun c => { c with
      slip := c.slip ||| BitVec.ofNat 60 (2 ^ rx), sep := sset 0 c.sep (tx * 64 + rx) 0,
      lockstepEng := maskOf 8 (fun e => bit c.lockstepEng e && !hit.contains e) })
    if s2.clk.slipped.contains (tx, rx) then s2
    else
      let s3 := s2.modClk (fun c => { c with slipped := c.slipped ++ [(tx, rx)] })
      s3.each (s3.crossingEngines (tx, rx)) (fun s e =>
        if s.rel.items.any (fun i => i.kind == 3 && i.engine == e) then s
        else s.queueItem { s.item 3 e 17 with yh := if rx < 32 then rx else 0xFF })

/-- A domain leaves the set as at power-up: its PHY with it, and its engine UNALIGNED (R268, R269, R274). -/
def State.dropDomain (s : State) (x : Excluded) : State :=
  let live := setBits s.clk.aligned.toNat 60
  let outs := withPhy live x
  let s1 := s.modClk (fun c =>
    let d := { c with excluded := c.excluded + outs.length }
    if c.failValid then d else d.fail0 x)
  let s2 := s1.each outs (fun s y => s.alignFail y)
  let doms := outs.map Excluded.dom
  let s3 := s2.setAligned (live.filter (fun d => !doms.contains d)) s2.clk.state
    (maskOf 8 (fun e => bit s2.clk.unalignedEng e || (s.enginesWith doms).contains e))
  s3.modClk (fun c => { c with
    lockstepEng := maskOf 8 (fun e => bit c.lockstepEng e && bit s.clk.lockstepEng e),
    slipped := c.slipped.filter (fun y => s3.alignedDom y.1 && s3.alignedDom y.2) })

/-- LOCKSTEP returns to the engines in the set of which no slipped crossing remains, at either end (R274). -/
def State.restoreLockstep (s : State) : State :=
  s.modClk (fun c => { c with
    lockstepEng := maskOf 8 (fun e => bit c.lockstepEng e || (s.engAligned e && c.slipped.all (fun y => !(s.crossingEngines y).contains e))) })

/-- The slipped crossings of a list that fail all four attempts again. -/
def failedAgain (f : AlignFacts) (cs : List (Nat × Nat)) : List CrossingFact :=
  f.crossings.filter (fun y => cs.contains (y.tx, y.rx) && decide (5 ≤ crossingPassed y))

/-- Slipped crossings are realigned together (R274): each FIFO is reset to its separation, and the receiver of one that fails again leaves the set with
the lowest peer of its failed crossings. -/
def State.realignAll (s : State) (f : AlignFacts) (cs : List (Nat × Nat)) : State :=
  let s1 := s.modClk (fun k => { k with
    slipped := k.slipped.filter (fun y => !cs.contains y),
    sep := cs.foldl (fun m c => sset 0 m (c.1 * 64 + c.2) fifoReset) k.sep })
  let bad := failedAgain f cs
  (s1.each (dedup (bad.map CrossingFact.rx)) (fun s d =>
    match lowestPeer (bad.filter (fun y => y.rx == d)) d with
    | some y => if s.alignedDom d then s.dropDomain ⟨d, otherEnd y d, if crossingPattern y then 1 else 2⟩ else s
    | none => s)).restoreLockstep

end Sys2Proof.Machine
end

