-- ==== Sys2Proof/Machine/Patch.lean ====
section
/-!
DEFINITION. Patches: the checks of R60, what a body may change (R62), the flash journal (R65, R66), the windows a patch
waits for (R63) and how it lands (R64).  A body has the layout of its section (log entry 16).
-/
namespace Sys2Proof.Machine

/-! ## Patch objects (R60) -/

def poSection (o : Bytes) : Nat := fld o 4 1
def poMode (o : Bytes) : Nat := fld o 5 1
def poSeq (o : Bytes) : Nat := fld o 0x14 4
def poLen (o : Bytes) : Nat := fld o 0x18 4
def poBody (o : Bytes) : Bytes := (o.drop 192).take (poLen o)
def poSig (o : Bytes) : Bytes := (o.drop 0x20).take 96

/-- SECTION and MODE pair (step 2). -/
def poPaired (o : Bytes) : Bool := [(0, 0), (3, 1), (4, 0), (7, 1), (8, 1)].contains (poSection o, poMode o)

/-- What step 6 asks of a signature: a host patch is signed; at replay a patch of Prephor's passes with zeros (R60, R65). -/
inductive PatchFrom where
  | host | replay
  deriving DecidableEq, Repr

/-- The signature of a patch (step 6). -/
def State.poSigned (s : State) (from_ : PatchFrom) (o : Bytes) : Bool :=
  if allZero (poSig o) then from_ == .replay
  else verify (if s.hub.factory then Config.factoryKey else s.hub.custKey) (o.take 0x20 ++ zeros 96 ++ o.drop 0x80) (poSig o)

/-! ## Bodies (R62) -/

/-- What TOPO in force holds. -/
def State.topoNow (s : State) : Topo := ⟨(upto 32).map s.topo, s.img.halters, s.img.rows⟩

/-- Two row repairs name the same bank row. -/
def samePlace (a b : RowRepair) : Bool := decide (a.yh = b.yh ∧ a.pcol = b.pcol ∧ a.row = b.row ∧ a.bank = b.bank ∧ a.bankRow = b.bankRow)

/-- Row repairs with others added: a bank row that is repaired anew goes to its new spare row only (R289, R305). -/
def addRows (old new : List RowRepair) : List RowRepair :=
  let fresh := new.filter (fun r => !old.contains r)
  old.filter (fun r => !fresh.any (samePlace r)) ++ fresh

/-- TOPO with the changes that a body states (R41, R62): masks of the records, FAILED bits added, halters and row repairs
added, and halters gone whose column has left USE. -/
def topoAmend (old new : Topo) : Topo :=
  let halves := (old.halves.zip new.halves).map (fun x => (⟨x.2.use, x.1.failed ||| x.2.failed⟩ : TopoHalf))
  let fresh := new.halters.filter (fun h => !old.halters.any (fun g => decide (g.yh = h.yh ∧ g.pcol = h.pcol ∧ g.row = h.row)))
  { halves := halves,
    halters := (old.halters.filter (fun h => (halves.getD h.yh TopoHalf.reset).use.getLsbD h.pcol)) ++ fresh,
    rows := addRows old.rows new.rows }

/-- What MEM in force holds. -/
def State.memNow (s : State) : MemSec := ⟨(upto 8).map s.shedRec, s.img.resv, s.img.xlat⟩

/-- A change of a shed record that R62 allows: FAILED bits added, and at most the spare in for a FAILED device. -/
def shedAmendOk (a b : ShedRec) : Bool :=
  let out := a.active.toNat - (a.active &&& b.active).toNat
  b.rate == a.rate && b.refreshSlot == a.refreshSlot &&
    (b.active == a.active ||
      (!a.active.getLsbD 12 && popcount out 13 == 1 && b.active.toNat == a.active.toNat - out + 2 ^ 12 &&
        (b.failed.toNat / out % 2 == 1)))

/-- MEM with the changes that a body states. -/
def memAmend (old new : MemSec) : MemSec :=
  let entry (x : Nat × Xlat) : Nat × Xlat := match new.xlat.find? (fun y => y.1 == x.1) with
    | some y => if { x.2 with owner := none } = y.2 then x else y
    | none => x
  { sheds := (old.sheds.zip new.sheds).map (fun x => ShedRec.mk x.2.rate x.2.active (x.1.failed ||| x.2.failed) x.2.refreshSlot),
    resv := old.resv ++ dedup (new.resv.filter (fun p => !old.resv.contains p)),
    xlat := old.xlat.map entry ++ new.xlat.filter (fun y => !old.xlat.any (fun x => x.1 == y.1)) }

/-- The tables of NET with those that a body replaces, matched by KIND and SCOPE in order and compiled for the same grade; none
where a table of the body matches none. -/
def netReplace : List NetTable → List NetTable → Option (List NetTable)
  | [], body => if body.isEmpty then some [] else none
  | t :: ts, body =>
    match body.find? (fun x => decide (x.kind = t.kind ∧ x.scope = t.scope ∧ x.grade = t.grade)) with
    | none => (netReplace ts body).map (fun r => t :: r)
    | some x => (netReplace ts (body.erase x)).map (fun r => x :: r)

/-- The image with TOPO set. -/
def Image.withTopo (i : Image) (t : Topo) : Image :=
  { i with topo := (indexed t.halves).foldl (fun m x => sset TopoHalf.reset m x.1 x.2) [], halters := t.halters, rows := t.rows }

/-- The image with MEM set. -/
def Image.withMem (i : Image) (m : MemSec) : Image :=
  { i with
    sheds := (indexed m.sheds).foldl (fun x y => sset ShedRec.reset x y.1 y.2) [], resv := m.resv,
    xlat := m.xlat.foldl (fun x y => sset Xlat.reset x y.1 y.2) [] }

/-- Blocks that a copy-over moves: both slices of a device, at 1/12 of a shed's blocks each (R336). -/
def copyTotal : Nat := 2031616

/-- A device swap waits for its copy-over (R62, R336). -/
def State.swapReady (s : State) (b : List ShedRec) : Bool :=
  (indexed b).all (fun x =>
    let a := s.shedRec x.1
    let out := a.active.toNat - (a.active &&& x.2.active).toNat
    a.active == x.2.active ||
      (match (s.shed x.1).copying with
        | some k => out == 2 ^ k && decide (copyTotal ≤ (s.shed x.1).copyDone)
        | none => false))

/-- Step 7: the image that a body leads to, or the failing code. -/
def State.patchBody (s : State) (from_ : PatchFrom) (o : Bytes) : Except Nat Image :=
  let body := poBody o
  let full (n : Nat) : Except Nat Unit := if n = body.length then .ok () else .error icPatchContent
  let get {α : Type} (x : Option α) : Except Nat α := match x with
    | some a => .ok a
    | none => .error icPatchContent
  let check (ok : Bool) (code : Nat) : Except Nat Unit := if ok then .ok () else .error code
  if poSection o = 0 then do
    let t ← get (readTopo s.logical body)
    full t.2
    let new := topoAmend s.topoNow t.1
    check (t.1.ok s.logical && new.ok s.logical) icPatchContent
    .ok (s.img.withTopo new)
  else if poSection o = 3 then do
    let t ← get (readNetTables body)
    full t.2
    let tables ← get (netReplace s.img.net.tables t.1)
    let net ← get (s.readNet tables)
    check (streamTreesOk s.logical net.trees s.img.streams) icPatchContent
    .ok { s.img with net := net }
  else if poSection o = 4 then do
    let m ← get (readMem body)
    full m.2
    let new := memAmend s.memNow m.1
    check (noRepeat (m.1.xlat.map Prod.fst) && new.ok &&
        (((upto 8).map s.shedRec).zip new.sheds).all (fun x => shedAmendOk x.1 x.2))
      icPatchContent
    check (from_ == .replay || s.swapReady new.sheds) icPatchContent
    .ok (s.img.withMem new)
  else if poSection o = 7 then do
    let e ← get (readEvr s.img.resv.length body)
    full e.2
    .ok { s.img with traceSrc := e.1.1, triggers := e.1.2 }
  else do
    let l ← get (readLim body)
    full l.2
    check (limOk s.img.progs l.1.2) icLimBelowUse
    .ok { s.img with classes := l.1.1, reservations := l.1.2 }

/-- Steps 1 to 5 of R60, on the 192 bytes of the header. -/
def State.patchHead (s : State) (o : Bytes) : Except Nat Unit :=
  let check (ok : Bool) (code : Nat) : Except Nat Unit := if ok then .ok () else .error code
  do
    check (decide (192 ≤ o.length) && fld o 0 4 == 0x54505053) icPatchContent
    check (poPaired o) icPatchSection
    check (rsv o 6 2 && rsv o 0x1C 4 && rsv o 0x80 64) icPatchContent
    check (fld o 8 4 == s.img.imageSeq && fld o 0x0C 8 == s.img.buildId && poSeq o == s.hub.patchSeq + 1) icPatchBase
    check (decide (1 ≤ poLen o ∧ poLen o ≤ 0x1FFFF00)) icPatchContent

/-- Steps 1 to 7 of R60: the image that the patch leads to, or the failing code. -/
def State.patchCheck (s : State) (from_ : PatchFrom) (o : Bytes) : Except Nat Image :=
  let check (ok : Bool) (code : Nat) : Except Nat Unit := if ok then .ok () else .error code
  do
    s.patchHead o
    check (decide (192 + poLen o ≤ o.length)) icPatchContent
    check (s.poSigned from_ o) icPatchSignature
    s.patchBody from_ o

/-! ## Journal (R65, R66) -/

def jMagic : Nat := 0x4A505053
def jClosed : Nat := 0x5A5A5A5A

/-- The next multiple of `a` at or above `x`. -/
def alignUp (x a : Nat) : Nat := (x + a - 1) / a * a

/-- Room for an object in the journal (R60 step 8, R65). -/
def State.journalRoom (s : State) (o : Bytes) : Bool :=
  decide (s.hub.journalCount < 4096 ∧ s.hub.journalAt + 16 + o.length + 48 ≤ journalBytes)

/-- Appends an object with its digest and closes the entry (R66). -/
def State.journalAppend (s : State) (o : Bytes) : State :=
  let a := flashJournal + s.hub.journalAt
  let n := o.length + 48
  let s1 := s.program a (toBytes 4 jMagic ++ toBytes 4 n ++ List.replicate 8 0xFF)
  let s2 := s1.program (a + 16) (o ++ sha384 o)
  let s3 := s2.program (a + 8) (toBytes 4 jClosed)
  { s3 with hub := { s3.hub with journalAt := alignUp (s.hub.journalAt + 16 + n) 256, journalCount := s.hub.journalCount + 1 } }

/-- One stop of the boot ROM's walk at offset `off` (R66); `torn` tells that an entry before was torn.  Gives the offset at which
the walk goes on and whether the entry was torn; none ends the walk.  An all-zero page is VOID and counts as an entry of the journal (DEDUCED, log
entry 62). -/
def State.journalEntry (s : State) (off : Nat) (torn : Bool) : State × Option (Nat × Bool) :=
  if journalBytes < off + 16 then (s, none)
  else
    let h := s.flashRead (flashJournal + off) 16
    let len := fld h 4 4
    let mark := fld h 8 4
    let s1 : State := { s with hub := { s.hub with journalCount := s.hub.journalCount + 1 } }
    let voided : State := s1.program (flashJournal + off + 8) (zeros 4)
    let next := alignUp (off + 16 + len) 256
    if h.all (fun b => b == 0xFF) then (s, none)
    else if allZero (s.flashRead (flashJournal + off) 256) then (s1, some (alignUp (off + 1) 0x10000, torn))
    else if fld h 0 4 ≠ jMagic ∨ len < 240 ∨ journalBytes < off + 16 + len then
      (s1.program (flashJournal + off) (zeros 256), some (alignUp (off + 1) 0x10000, true))
    else if mark = 0 then (s1, some (next, torn))
    else
      let o := s.flashRead (flashJournal + off + 16) (len - 48)
      let d := s.flashRead (flashJournal + off + 16 + (len - 48)) 48
      if torn ∨ mark ≠ jClosed ∨ sha384 o ≠ d then (voided, some (next, true))
      else if fld o 8 4 ≠ s.img.imageSeq ∨ fld o 0x0C 8 ≠ s.img.buildId then (s1, some (next, false))
      else
        match s.patchCheck .replay o with
        | .error _ => (voided, some (next, true))
        | .ok img =>
          ({ s1 with img := img, hub := { s1.hub with patchSeq := s1.hub.patchSeq + 1 } }, some (next, false))

/-- The boot ROM's walk from offset `off` (R66).  `fuel` bounds the pages. -/
def State.journalWalk (s : State) : Nat → Nat → Bool → State
  | 0, off, torn => { s with hub := { s.hub with journalAt := off, torn := torn } }
  | fuel + 1, off, torn =>
    match s.journalEntry off torn with
    | (s1, none) => { s1 with hub := { s1.hub with journalAt := off, torn := torn } }
    | (s1, some x) => s1.journalWalk fuel x.1 x.2

/-- Replays the journal over the running copy (R65). -/
def State.journalReplay (s : State) : State :=
  ({ s with hub := { s.hub with patchSeq := 0, journalAt := 0, journalCount := 0, torn := false } }).journalWalk 131073 0 false

/-! ## Prephor's own patches (R61) -/

/-- A section body that states the step from one image to the next (log entry 16). -/
def topoBody (logical : Nat) (old new : Image) : Bytes :=
  let rec_ (d : Nat) : Bytes :=
    let t := sget TopoHalf.reset new.topo d
    toBytes 1 d ++ toBytes 1 logical ++ zeros 2 ++ toBytes 12 t.use.toNat ++ toBytes 12 t.failed.toNat ++ zeros 4
  let hs := new.halters.filter (fun h => !old.halters.contains h)
  let rs := new.rows.filter (fun r => !old.rows.contains r)
  toBytes 4 (sectionTag 0) ++ toBytes 2 1 ++ toBytes 2 32 ++ ((upto 32).map rec_).flatten ++
    toBytes 2 hs.length ++ toBytes 2 rs.length ++ zeros 4 ++
    (hs.map (fun h => toBytes 1 h.yh ++ toBytes 1 h.pcol ++ toBytes 1 h.row ++ toBytes 1 h.reason)).flatten ++
    (rs.map (fun r => toBytes 1 r.yh ++ toBytes 1 r.pcol ++ toBytes 1 r.row ++ toBytes 1 r.bank ++ toBytes 1 r.spare ++ zeros 1 ++
      toBytes 2 r.bankRow)).flatten

def memBody (old new : Image) : Bytes :=
  let rec_ (k : Nat) : Bytes :=
    let m := sget ShedRec.reset new.sheds k
    toBytes 1 k ++ toBytes 1 m.rate ++ toBytes 2 m.active.toNat ++ toBytes 2 m.failed.toNat ++ toBytes 2 m.refreshSlot ++ zeros 8
  let rv := new.resv.filter (fun p => !old.resv.contains p)
  let xs := new.xlat.filter (fun x => sget Xlat.reset old.xlat x.1 ≠ x.2)
  toBytes 4 (sectionTag 4) ++ toBytes 2 1 ++ toBytes 2 8 ++ ((upto 8).map rec_).flatten ++
    toBytes 4 rv.length ++ (rv.map (toBytes 4)).flatten ++ toBytes 4 xs.length ++
    (xs.map (fun x => toBytes 2 x.1 ++ toBytes 2 x.2.ppage ++
      toBytes 4 (b2n x.2.valid + b2n x.2.writable * 2 + b2n x.2.bar2 * 4))).flatten

def laneBody (grade port : Nat) (map : BitVec 108) : Bytes :=
  toBytes 4 (sectionTag 3) ++ toBytes 2 1 ++ toBytes 2 1 ++
    toBytes 1 4 ++ toBytes 1 port ++ toBytes 1 grade ++ zeros 1 ++ toBytes 4 64 ++ toBytes 4 16 ++ zeros 4 ++ zeros 40 ++
    toBytes 16 map.toNat

/-- An unsigned patch object of Prephor's (R60, R61). -/
def State.ownPatch (s : State) (sec mode : Nat) (body : Bytes) : Bytes :=
  toBytes 4 0x54505053 ++ toBytes 1 sec ++ toBytes 1 mode ++ zeros 2 ++ toBytes 4 s.img.imageSeq ++ toBytes 8 s.img.buildId ++
    toBytes 4 (s.hub.patchSeq + 1) ++ toBytes 4 body.length ++ zeros 4 ++ zeros 96 ++ zeros 64 ++ body

/-- Journals a patch object and takes its image into force (R64, R65); where the journal is full the image comes into force
unrecorded (R305, R509). -/
def State.recordPatch (s : State) (o : Bytes) (img : Image) : State :=
  if s.journalRoom o then
    let s1 := s.journalAppend o
    let s2 : State := { s1 with img := img, hub := { s1.hub with patchSeq := s1.hub.patchSeq + 1 } }
    s2.raise .patchApplied s.hubDomain (s2.hub.patchSeq + poSection o * 2 ^ 32)
  else ({ s with img := img }).raise .patchJournalFull s.hubDomain (poSeq o)

/-- A TOPO, MEM or lane-map patch of Prephor's that records a state already in force (R61, R63). -/
def State.ownTopo (s : State) (img : Image) : State := s.recordPatch (s.ownPatch 0 0 (topoBody s.logical s.img img)) img
def State.ownMem (s : State) (img : Image) : State := s.recordPatch (s.ownPatch 4 0 (memBody s.img img)) img
def State.ownLane (s : State) (port : Nat) (map : BitVec 108) : State :=
  let t : NetTable := ⟨4, port, s.pwr.grade, toBytes 16 map.toNat⟩
  let tables := s.img.net.tables.map (fun x => if x.kind = 4 ∧ x.scope = port then { t with grade := x.grade } else x)
  let img := { s.img with net := { s.img.net with tables := tables, laneMaps := sset 0 s.img.net.laneMaps port map } }
  let grade := ((s.img.net.tables.find? (fun x => decide (x.kind = 4 ∧ x.scope = port))).map NetTable.grade).getD s.pwr.grade
  s.recordPatch (s.ownPatch 3 1 (laneBody grade port map)) img

/-! ## What a patch waits for (R63) -/

/-- The halves whose TOPO differs between two images. -/
def topoHalves (a b : Image) : List Nat :=
  (upto 32).filter (fun d => decide (sget TopoHalf.reset a.topo d ≠ sget TopoHalf.reset b.topo d) ||
    (b.halters.any (fun h => h.yh == d && !a.halters.contains h)) || (a.halters.any (fun h => h.yh == d && !b.halters.contains h)) ||
    b.rows.any (fun r => r.yh == d && !a.rows.contains r))

/-- The compute engines of a list of halves, lowest first. -/
def State.enginesOf (s : State) (ds : List Nat) : List Nat := (upto 8).filter (fun e => ds.any (fun d => s.engineOf d == some e))

/-- The halves whose tables differ: a frame table its own half, a tree or control table every half (R63). -/
def netHalves (a b : Image) : List Nat :=
  let changed := (a.net.tables.zip b.net.tables).filter (fun x => decide (x.1 ≠ x.2))
  (upto 32).filter (fun d => changed.any (fun x =>
    if x.2.kind = 1 then x.2.scope == d else if x.2.kind = 4 then false else x.2.scope == 0xFF || x.2.scope == d))

/-- The lane swaps between two maps, lowest old lane first. -/
def laneSwaps (port : Nat) (a b : BitVec 108) : List (Nat × Nat × Nat) :=
  let gone := (upto 108).filter (fun i => a.getLsbD i && !b.getLsbD i)
  let come := (upto 108).filter (fun i => b.getLsbD i && !a.getLsbD i)
  (gone.zip come).map (fun x => (port, x.1, x.2))

/-- What a patch waits for: a boundary of every engine concerned, the windows of some of them with the BOUND_US of their items, and lane swaps
(R63, R64). -/
structure PatchNeed where
  engines : List Nat
  wins : List (Nat × Nat)
  swaps : List (Nat × Nat × Nat)
  deriving DecidableEq, Repr

/-- The half's column substitution bound (R509): 67 µs in lockstep, 160 µs for a free half. -/
def State.columnBound (s : State) (d : Nat) : Nat := if (s.half d).lockstep then 67 else 160

def State.patchNeed (s : State) (sec : Nat) (new : Image) : PatchNeed :=
  if sec = 0 then
    let use := (upto 32).filter (fun d => decide ((s.topo d).use ≠ (sget TopoHalf.reset new.topo d).use))
    let rows := (upto 32).filter (fun d => new.rows.any (fun r => r.yh == d && !s.img.rows.contains r))
    let bound (e : Nat) : Nat := ((use.filter (fun d => s.engineOf d == some e)).map s.columnBound).foldl max 1
    ⟨s.enginesOf (topoHalves s.img new), (s.enginesOf (use ++ rows)).map (fun e => (e, bound e)), []⟩
  else if sec = 3 then
    let win := s.enginesOf (netHalves s.img new)
    let swaps := (upto 4).flatMap (fun p => laneSwaps p (sget 0 s.img.net.laneMaps p) (sget 0 new.net.laneMaps p))
    ⟨win, win.map (fun e => (e, 1)), swaps⟩
  else ⟨[], [], []⟩

/-! ## Landing (R64, R90, R261, R312) -/

/-- The core to which the content of core `n` moves when the columns in USE of half `d` change; none where it leaves USE. -/
def moveCore (d : Nat) (old new : List Nat) (n : Nat) : Option Nat :=
  let c := physOf n
  if c.yh ≠ d then some n
  else
    match old.findIdx? (fun p => p == c.pcol) with
    | none => none
    | some l => (new[l]?).map (fun p => physNum d p c.row)

/-- The key that the byte with key `k` moves to: its offset on the core that takes its core's content. -/
def State.moveKey (s : State) (d : Nat) (old new : List Nat) (k : Nat) : Option Nat :=
  let n := keyCore k
  match moveCore d old new n, s.keyOff k with
  | some m, some off => some (if m = n then k else s.cell m off)
  | some m, none => if m = n then some k else none
  | none, _ => none

/-- What a core holds for its logical core goes with it: all but its halter and its router's fault (R87, R90). -/
def Core.takes (c from_ : Core) : Core := { from_ with halter := c.halter, routerFault := c.routerFault }

/-- The farrier moves the scratchpad of each moved logical core to its new physical core, and the core's other state goes with it (R87, R90, R312). -/
def State.shiftHalf (s : State) (d : Nat) (old new : List Nat) : State :=
  let moved := (old.zip new).filter (fun x => x.1 != x.2)
  let s1 := s.modYards (fun y => { y with
    spad := y.spad.foldl (fun m x => match s.moveKey d old new x.1 with
      | some k => sset 0 m k x.2
      | none => m) [],
    bad := y.bad.foldl (fun m w => match s.moveKey d old new (4 * w) with
      | some k => insertNat (k / 4) m
      | none => m) [],
    checks := y.checks.filterMap (fun x => (moveCore d old new (x.2 * 4 / spadBytes)).map (fun m =>
      let off := x.2 * 4 % spadBytes
      (m * 12 + off / 0x8000, spadKey m off / 4))) })
  s1.each moved (fun t x => t.each (upto 64) (fun t r =>
    t.modCore (physNum d x.2 r) (fun c => c.takes (s.core (physNum d x.1 r)))))

/-- A row remap comes into force, and the content of its row goes with it, raw with its parity bits (R289, R305, R510). -/
def State.takeRow (s : State) (r : RowRepair) : State :=
  let n := physNum r.yh r.pcol r.row
  let at_ (o : Nat) : Nat := s.cell n (0x8000 * r.bank + 256 * r.bankRow + o)
  let s1 := (s.zeroKeys (spareKey n r.bank r.spare 0) (spareKey n r.bank r.spare 256)).modYards (fun y => { y with
    spad := (upto 256).foldl (fun m o => sset 0 m (spareKey n r.bank r.spare o) (sget 0 s.yards.spad (at_ o))) y.spad,
    bad := (upto 64).foldl (fun m w => if s.yards.bad.contains (at_ (4 * w) / 4) then insertNat (spareKey n r.bank r.spare (4 * w) / 4) m else m)
      y.bad })
  s1.modHalf r.yh (fun h => { h with rows := addRows h.rows [r] })

/-- Halters in force come to the cores, and a halter leaves with its column (R41, R62). -/
def State.applyHalters (s : State) : State :=
  let s1 := s.each s.yards.cores (fun s x =>
    let c := physOf x.1
    if x.2.halter.isSome ∧ !(s.topo c.yh).use.getLsbD c.pcol then s.modCore x.1 (fun k => { k with halter := none }) else s)
  s1.each s.img.halters (fun s h =>
    let n := physNum h.yh h.pcol h.row
    if (s.core n).halter.isNone then (s.modCore n (fun k => { k with halter := some h.reason })).bump .half h.yh 29 else s)

/-- What a patch that has come into force does to the hardware (R64): shifts, halters and row remaps of TOPO, the copy-over
ended of a shed whose ACTIVE changed, the budgets of the RT queues of LIM (R379), and the preloads of the engines concerned discarded. -/
def State.afterPatch (s : State) (before : Image) (sec : Nat) : State :=
  let ds := if sec = 0 then topoHalves before s.img else if sec = 3 then netHalves before s.img else []
  let s1 := if sec ≠ 0 then s
    else
      let moved := s.each ds (fun s d =>
        let old := setBits (sget TopoHalf.reset before.topo d).use.toNat 66
        let new := s.useCols d
        if old = new then s else s.shiftHalf d old new)
      (moved.applyHalters).each (s.img.rows.filter (fun r => !before.rows.contains r))
        (fun s r => if (s.half r.yh).rows.contains r then s else s.takeRow r)
  let s2 := s1.each (upto 8) (fun s k =>
    if (sget ShedRec.reset before.sheds k).active = (s.shedRec k).active then s
    else s.modShed k (fun x => { x with copying := none, copyDone := 0 }))
  let s3 := if sec ≠ 8 then s2
    else s2.each s.img.progs (fun s p =>
      match s.img.reservations.find? (fun r => r.prog == p.prog) with
      | some r => s.modQueue (504 + p.prog) (fun q => { q with pages := r.pages, share := r.share })
      | none => s.modQueue (504 + p.prog) (fun q => { q with pages := 0, share := 0 }))
  s3.each (s.enginesOf ds) (fun s e => s.discardPreload e)

/-- A patch object lands: it is checked again, journalled and applied, or fails with its code (R60, R64, R67). -/
def State.landObject (s : State) (o : Bytes) : Except Nat State :=
  match s.patchCheck .host o with
  | .error c => .error c
  | .ok img => if s.journalRoom o then .ok ((s.recordPatch o img).afterPatch s.img (poSection o)) else .error icPatchJournalFull

/-- A refused patch: a full journal raises its event (R65). -/
def State.refusePatch (s : State) (o : Bytes) (code : Nat) : State :=
  if code = icPatchJournalFull then s.raise .patchJournalFull s.hubDomain (poSeq o) else s

/-- A halter entry of Prephor's lands (R505). -/
def State.landHalter (s : State) (h : Halter) : State :=
  if s.img.halters.any (fun g => decide (g.yh = h.yh ∧ g.pcol = h.pcol ∧ g.row = h.row)) ∨ !(s.topo h.yh).use.getLsbD h.pcol then s
  else s.ownTopo { s.img with halters := s.img.halters ++ [h] }

end Sys2Proof.Machine
end

