-- ==== Sys2Proof/Machine/Farrier.lean ====
section
/-!
DEFINITION. Halters, spare rows, marches and column substitutions (R91 to R94, R302 to R312, R505, R508): what Prephor and the
farriers do to a half, whoever asked for it.
-/
namespace Sys2Proof.Machine

/-! ## Halters (R499, R505) -/

/-- The command that runs on a core's engine learns of a halter that came while it runs (R94). -/
def State.noteHalt (s : State) (c : PhysCore) : State :=
  match s.engineOf c.yh with
  | none => s
  | some e =>
    let ran (m : Cmd) : Nat := (s.rclk c.yh).yclk - ((((s.halvesOf e).zip m.yclk0).find? (fun y => y.1 == c.yh)).map Prod.snd).getD 0
    s.modEng e (fun x => { x with cur := x.cur.map (fun m =>
      if m.startAt.isSome ∧ s.inUse c.yh c.pcol then { m with halts := m.halts ++ [(s.coreIndex c, ran m)] } else m) })

/-- A core's compute is fenced: the counter and the event of a new halter. -/
def State.halt (s : State) (c : PhysCore) (reason : Nat) : State :=
  let n := coreNum c
  if (s.core n).halter.isSome then s
  else (((s.noteHalt c).modCore n (fun k => { k with halter := some reason })).bump .half c.yh 29).raise .relHalter c.yh
    (coreArg c + reason * 0x1000000)

/-- Prephor records a new halter: at once where no engine runs on the half, else at its engine's next boundary (R63, R505). -/
def State.recordHalter (s : State) (h : Halter) : State :=
  match s.engineOf h.yh with
  | some e =>
    if s.pwr.mod = .boot then s.landHalter h
    else s.modRel (fun r => { r with patches := r.patches ++ [⟨.halter h, none, none, [e], [], [], [], []⟩] })
  | none => s.landHalter h

/-- A COLUMN item for a core's column; one that waits is joined (R505, R509). -/
def State.queueColumn (s : State) (c : PhysCore) (cmds : List Cmd) (req : Option Req) : State :=
  let same (i : RepairItem) : Bool := decide (i.kind = 1 ∧ i.yh = c.yh ∧ i.pcol = c.pcol)
  if s.rel.items.any same then
    s.modRel (fun r => { r with items := r.items.map (fun i =>
      if same i then { i with cmds := i.cmds ++ cmds, req := i.req.orElse (fun _ => req) } else i) })
  else
    s.queueItem { s.item 1 ((s.engineOf c.yh).getD 0xFF) (s.columnBound c.yh) with
      yh := c.yh, pcol := c.pcol, row := c.row, cmds := cmds, req := req }

/-- A new halter with its record and its COLUMN item (R505). -/
def State.halter (s : State) (c : PhysCore) (reason : Nat) (cmds : List Cmd) (req : Option Req) : State :=
  let new := (s.core (coreNum c)).halter.isNone
  let s1 := s.halt c reason
  (if new then s1.recordHalter ⟨c.yh, c.pcol, c.row, reason⟩ else s1).queueColumn c cmds req

/-! ## Spare rows (R289, R305) -/

/-- Spare row `k` of a bank is in use. -/
def Half.spareUsed (h : Half) (p : PhysCore) (bank k : Nat) : Bool :=
  h.rows.any (fun r => decide (r.pcol = p.pcol ∧ r.row = p.row ∧ r.bank = bank ∧ r.spare = k))

/-- The lowest working spare row of a bank that is free. -/
def Half.freeSpare (h : Half) (p : PhysCore) (bank : Nat) : Option Nat :=
  [0, 1].find? (fun k => !h.spareUsed p bank k && !h.spareBad.contains (p.pcol, p.row, bank, k))

/-- A remap comes into force with the content of its row, raw with its parity bits, recorded by a TOPO patch (R305, R510). -/
def State.remap (s : State) (r : RowRepair) : State :=
  (s.takeRow r).ownTopo { s.img with rows := addRows s.img.rows [r] }

/-- Spare row `k` of a bank is never assigned again in this power cycle. -/
def State.spoilSpare (s : State) (p : PhysCore) (bank k : Nat) : State :=
  s.modHalf p.yh (fun h => { h with
    spareBad := if h.spareBad.contains (p.pcol, p.row, bank, k) then h.spareBad else h.spareBad ++ [(p.pcol, p.row, bank, k)] })

/-! ## Marches (R302 to R307) -/

/-- The 132 bits of a unit under a background (R302): zeros, 0x5, 0x3 and 0x0F repeated from bit 0 upward. -/
def marchData (background : Nat) : Nat :=
  let pattern (w v : Nat) : Nat := ((upto (132 / w + 1)).map (fun i => v * 2 ^ (w * i))).foldl (· + ·) 0 % 2 ^ 132
  if background = 0 then 0 else if background = 1 then pattern 4 5 else if background = 2 then pattern 4 3 else pattern 8 0x0F

/-- The elements of a march (R302): whether units are visited upward, whether it reads the background inverted (none: it does not read), and whether
it writes the background inverted (none: it does not write). -/
def marchElements : List (Bool × Option Bool × Option Bool) :=
  [(true, none, some false), (true, some false, some true), (true, some true, some false), (false, some false, some true),
    (false, some true, some false), (true, some false, none)]

/-- What the read of an element should give under a background; none where the element does not read. -/
def marchExpect (background element : Nat) : Option Nat :=
  match marchElements[element]? with
  | some (_, some inv, _) => some (if inv then 2 ^ 132 - 1 - marchData background else marchData background)
  | _ => none

/-- A read of a march fails its row: it differs from its expected value (R302). -/
def rowFails (x : RowFail) : Bool := (marchExpect x.background x.element).any (fun v => v != x.value)

/-- Two reads fall on the same row. -/
def sameRow (a b : RowFail) : Bool :=
  decide (a.yh = b.yh ∧ a.pcol = b.pcol ∧ a.row = b.row ∧ a.bank = b.bank ∧ a.bankRow = b.bankRow)

/-- A failing row of a march and the spare row that it went to. -/
structure FoundRow where
  fail   : RowFail
  spare  : Option Nat
  deriving DecidableEq, Repr

/-- What marches have found and done so far; `again` names, by half × 12 + bank and march, the marches after which their bank is marched again. -/
structure MarchOut where
  st       : State
  rows     : List FoundRow
  repaired : Nat
  halters  : Nat
  again    : List (Nat × Nat)
  deriving DecidableEq, Repr

/-- Marches begin. -/
def MarchOut.start (s : State) : MarchOut := ⟨s, [], 0, 0, []⟩

/-- The core of a failing row. -/
def failAt (x : RowFail) : PhysCore := ⟨x.yh, x.pcol, x.row⟩

/-- Notes a failing row once, with the spare row it holds now. -/
def noteRow (rows : List FoundRow) (x : RowFail) (spare : Option Nat) : List FoundRow :=
  if rows.any (fun r => sameRow r.fail x) then rows.map (fun r => if sameRow r.fail x then ⟨x, spare⟩ else r)
  else rows ++ [⟨x, spare⟩]

/-- A spare row that is in use, or was retired: a march visits a retired row and ignores its failures (R302).  A spare row that has failed before it
was ever assigned counts as retired (DESIGN CHOICE, log entry 23). -/
def State.spareOut (s : State) (x : RowFail) : Bool :=
  let h := s.half x.yh
  let k := x.bankRow - 128
  decide (128 ≤ x.bankRow) && (h.spareUsed (failAt x) x.bank k || h.spareBad.contains (x.pcol, x.row, x.bank, k))

/-- A row that fails in a march is counted and noted; where it is a spare row, or a row that was remapped, its spare row has failed (R305).  Rows stand
as the march visits them: a bank row as remapped, or a spare row as 128 or 129. -/
def MarchOut.find (o : MarchOut) (x : RowFail) : MarchOut :=
  let s := if o.rows.any (fun r => sameRow r.fail x) then o.st else o.st.bump .half x.yh 27
  let place : RowRepair := ⟨x.yh, x.pcol, x.row, x.bank, 0, x.bankRow⟩
  let gone : Option Nat := if 128 ≤ x.bankRow then some (x.bankRow - 128) else ((s.half x.yh).rows.find? (samePlace place)).map RowRepair.spare
  { o with st := match gone with
      | some k => s.spoilSpare (failAt x) x.bank k
      | none => s, rows := noteRow o.rows x none }

/-- What becomes of a row that failed in march `m` once that march has ended (R305): with a working spare free it is remapped, where repair is
enabled; with none its core is haltered. -/
def MarchOut.mend (o : MarchOut) (repair : Bool) (m : Nat) (x : RowFail) : MarchOut :=
  if 128 ≤ x.bankRow then o
  else
    match (o.st.half x.yh).freeSpare (failAt x) x.bank with
    | some k =>
      if !repair then o
      else
        let key := (x.yh * 12 + x.bank, m)
        { o with
          st := (o.st.remap ⟨x.yh, x.pcol, x.row, x.bank, k, x.bankRow⟩).bump .half x.yh 28,
          rows := noteRow o.rows x (some k), repaired := o.repaired + 1,
          again := if o.again.contains key then o.again else o.again ++ [key] }
    | none =>
      { o with
        st := o.st.halter (failAt x) 2 [] none, halters := o.halters + b2n (o.st.core (coreNum (failAt x))).halter.isNone }

/-- The rows of a list of failing reads, each once. -/
def failRows (xs : List RowFail) : List RowFail := xs.foldl (fun ys x => if ys.any (sameRow x) then ys else ys ++ [x]) []

/-- March `m` of a bank of half `d` with its failing reads; it is run at all where `m` is 0 or the march before it remapped a row (R305). -/
def MarchOut.march (o : MarchOut) (repair : Bool) (d b m : Nat) (xs : List RowFail) : MarchOut :=
  if m ≠ 0 ∧ !o.again.contains (d * 12 + b, m - 1) then o
  else
    let rows := (failRows (xs.filter rowFails)).filter (fun x => !o.st.spareOut x)
    rows.foldl (fun o x => o.mend repair m x) (rows.foldl MarchOut.find o)

/-- The marches of the banks of half `d` with the failing reads of each (R302, R305). -/
def MarchOut.marches (o : MarchOut) (repair : Bool) (d : Nat) (found : List RowFail) : MarchOut :=
  if found.isEmpty then o
  else
    (upto 12).foldl (fun o b =>
      let xs := found.filter (fun x => x.bank == b)
      ((dedup (xs.map RowFail.march)).mergeSort (fun i j => decide (i ≤ j))).foldl (fun o m =>
        o.march repair d b m (xs.filter (fun x => x.march == m))) o) o

/-- Every word of bank `b` of the cores of half `d` reads zero with correct parity. -/
def State.zeroBanks (s : State) (d b : Nat) : State :=
  let hit (k : Nat) : Bool := decide (keyCore k / 4224 = d ∧ keyBank k = b)
  s.modYards (fun y => { y with spad := y.spad.filter (fun x => !hit x.1), bad := y.bad.filter (fun w => !hit (4 * w)) })

/-- A failing row lies in a core of half `d` that the march visits. -/
def State.marched (s : State) (d : Nat) (x : RowFail) : Bool :=
  decide (x.yh = d ∧ x.row < 64 ∧ x.bank < 12 ∧ x.bankRow < 130) && s.inUse d x.pcol

/-- The march of half `d`: content as its mode leaves it, then the rows it finds (R303 to R305). -/
def MarchOut.half (o : MarchOut) (d : Nat) (park : Option Nat) (repair : Bool) (found : List RowFail) : MarchOut :=
  let s1 := match park with
    | none => o.st.zeroHalf d
    | some b => o.st.zeroBanks d b
  ({ o with st := s1 } : MarchOut).marches repair d (found.filter (s1.marched d))

/-! ## Column substitution (R508, R509, R312) -/

/-- The column that takes the place of `p` in half `d`, and the new USE; none where there is no substitution. -/
def State.substitute (s : State) (d p : Nat) : Option (Nat × BitVec 66) :=
  let t := s.topo d
  let u := t.use.toNat
  match (upto 66).find? (fun q => decide (u < 2 ^ q) && !t.failed.getLsbD q) with
  | none => none
  | some q =>
    let use2 := BitVec.ofNat 66 (u - (if bit u p then 2 ^ p else 0) + 2 ^ q)
    if TopoHalf.ok s.logical ⟨use2, t.failed⟩ then some (q, use2) else none

/-- TOPO with half `d` changed. -/
def State.topoWith (s : State) (d : Nat) (t : TopoHalf) : Image :=
  let now := s.topoNow
  s.img.withTopo (topoAmend now { now with halves := now.halves.set d t })

/-- The FAILED bit of a column is set by patch (R509, R523). -/
def State.markFailed (s : State) (d p : Nat) : State :=
  let t := s.topo d
  if t.failed.getLsbD p then s else s.ownTopo (s.topoWith d ⟨t.use, t.failed ||| BitVec.ofNat 66 (2 ^ p)⟩)

/-- The TOPO record of half `d` once column `p` has left USE: it is FAILED from then on (the worked example after R67). -/
def State.replaced (s : State) (d p : Nat) (use2 : BitVec 66) : TopoHalf :=
  ⟨use2, (s.topo d).failed ||| BitVec.ofNat 66 (2 ^ p)⟩

/-- The new USE comes into force: the TOPO patch, the incoming column `q` marched, the content shifted, and the halters of the
column `p` that leaves gone (R41, R312, R508, R509). -/
def State.takeColumn (s : State) (d p q : Nat) (use2 : BitVec 66) (found : List RowFail) : State :=
  let s1 := s.ownTopo (s.topoWith d (s.replaced d p use2))
  let o := (MarchOut.start s1).marches true d (found.filter (fun x => s1.marched d x && x.pcol == q))
  (o.st.afterPatch s.img 0).bump .half d 30

/-- No substitution (R508, R516): REL_NO_COLUMN and its bit. -/
def State.noColumn (s : State) (c : PhysCore) : State :=
  (s.modRel (fun r => { r with noColumn := true })).raise .relNoColumn c.yh (c.yh + c.pcol * 0x100)

end Sys2Proof.Machine
end

