-- ==== Sys2Proof/Machine/Period.lean ====
section
/-!
DEFINITION. Standing programs and their ticks, drive frames and ports, 802.1AS time and the SYNC pins (chapter 15 and R452 to R457).
The deadline itself stands with the kills, in `Kill.lean`.
-/
namespace Sys2Proof.Machine

/-! ## Ticks (R411 to R413) -/

/-- Time in the base of a program's tick source: 802.1AS ns, or ns of REFCLK. -/
def State.progNow (s : State) (p : PerProg) : Nat := if p.tickSrc = 0 then s.time else nsOf s.hclk

/-- The entry of a program in PER. -/
def State.perProg (s : State) (p : Nat) : Option PerProg := s.img.progs.find? (fun x => x.prog == p)

/-- The tick that is due and its fire instant: one not taken yet, at least 1 µs after ARM (R407, R411, R413). -/
def State.dueTick (s : State) (p : PerProg) : Option (Nat × Nat) :=
  let x := s.prog p.prog
  let t := s.progNow p
  let fresh (k f : Nat) : Option (Nat × Nat) := if f ≤ t ∧ x.armAt + 1000 ≤ f ∧ x.fireAt < f then some (k, f) else none
  if p.tickSrc = 0 then
    if t < p.phase then none else fresh ((t - p.phase) / p.period) ((t - p.phase) / p.period * p.period + p.phase)
  else (x.due.find? (fun d => decide (x.fireAt < d.2))).bind (fun d => fresh d.1 d.2)

/-- The number of the next tick to fire. -/
def State.nextTick (s : State) (p : PerProg) : Nat :=
  let t := s.progNow p
  let x := s.prog p.prog
  if p.tickSrc = 0 then (if t < p.phase then 0 else (t - p.phase) / p.period + 1)
  else ((x.due.find? (fun d => decide (x.fireAt < d.2))).map Prod.fst).getD x.edges

/-- A program is armed: ARMED, RUNNING, HELD or REPAIR. -/
def Program.armed (x : Program) : Bool := x.st == .armed || x.st == .running || x.st == .held || x.st == .repair

/-- An armed program on SYNC_IN sees an edge (R413). -/
def State.syncEdge (s : State) (p : PerProg) : State :=
  let x := s.prog p.prog
  let f := nsOf s.hclk + p.phase
  let take (s : State) : State := s.setProg p.prog { x with
    edge := some s.hclk, edges := x.edges + 1,
    due := x.due.filter (fun d => decide (x.fireAt < d.2)) ++ (if x.armAt + 1000 ≤ f then [(x.edges, f)] else []) }
  if !x.armed ∨ p.tickSrc ≠ 1 then s
  else
    match x.edge with
    | none => take s
    | some h =>
      let d := 8 * nsOf (s.hclk - h)
      if d < 7 * p.period then s.bump .prog p.prog 5
      else if 9 * p.period < d then take (s.bump .prog p.prog 5)
      else take s

/-- SYNC_IN_EDGE (R413, R456). -/
def execSyncInEdge (s : State) : Out := .next (if s.live then s.each s.img.progs (fun s p => s.syncEdge p) else s)

/-- SYNC_IN_TIMEOUT (R413): no edge within 9/8 periods; the next edge is accepted. -/
def execSyncInTimeout (prog : Nat) (s : State) : Out :=
  .next (match s.perProg prog with
    | none => s
    | some p =>
      let x := s.prog prog
      match x.edge with
      | none => s
      | some h =>
        if s.live ∧ x.armed ∧ p.tickSrc = 1 ∧ 9 * p.period < 8 * nsOf (s.hclk - h) then
          (s.setProg prog { x with edge := none }).bump .prog prog 5
        else s)

/-! ## Arming (R406 to R408) -/

/-- The schedule objects that a list names. -/
def State.listScheds (s : State) (list count : Nat) : List Nat :=
  dedup (((upto count).map (fun i => dSched (s.devBytes (list + 64 * i) 64))).filter (fun a => a != 0))

/-- The first check of R407 that fails, by its code; 0 for none. -/
def State.armErr (s : State) (p : PerProg) (x : Program) : Nat :=
  let objs := s.listScheds x.list x.count
  let h := s.soHeader p.sched
  if !(decide (1 ≤ x.count ∧ x.count ≤ 64)) then 1
  else if !(x.list % 64 == 0 && x.recAddr % 64 == 0 && decide (4 ≤ x.recLog2)) then 2
  else if (s.firstFail x.list (64 * x.count) false false).isSome || (s.firstFail x.recAddr (64 * 2 ^ x.recLog2) true false).isSome then 3
  else if dSched (s.devBytes x.list 64) ≠ p.sched then 4
  else if objs.any (fun a => (s.firstFail a 128 false false).isSome) then 7
  else if p.footPages < soPages h ∨ p.footShare < soShare h then 7
  else 0

/-- ARM succeeds: the list, its claims and a fresh start of ticks and ingress (R352, R407, R408, R417). -/
def State.armed (s : State) (p : PerProg) (x : Program) : State :=
  let objs := s.listScheds x.list x.count
  let s1 := s.setProg p.prog { x with
    st := if bit s.clk.unalignedEng p.eng then .held else .armed, armErr := 0, armAt := s.progNow p, disarmNext := false, fired := false,
    waits := false, released := false, listDone := false, failed := false, committed := false, edge := none, edges := 0, due := [], fireAt := 0,
    claims := objs.flatMap (fun a => s.soClaims (s.soHeader a)) }
  let s2 := s1.modQueue (504 + p.prog) (fun q => { q with
    descAddr := x.list, descLog2 := 6, recAddr := x.recAddr, recLog2 := x.recLog2, head := 0, tail := 0 })
  s2.modPer (fun u => { u with ingress := (indexed s.img.streams).foldl (fun m y =>
    if y.2.prog = p.prog then sset none m y.1 none else m) u.ingress })

/-- A write of ARM. -/
def State.arm (s : State) (prog : Nat) : State :=
  let x := s.prog prog
  let err (n : Nat) : State := s.setProg prog { x with armErr := n }
  match s.perProg prog with
  | none => err 5
  | some p =>
    if x.armed then err 6
    else if x.st = .absent then err 5
    else
      let n := s.armErr p x
      if n = 0 then s.armed p x else err n

/-- The program is DISARMED: its positions are free again (R352). -/
def Program.disarm (x : Program) : Program :=
  { x with st := .disarmed, disarmNext := false, fired := false, waits := false, released := false, claims := [], grantWait := false }

/-- A write of DISARM (R407, R408). -/
def State.disarm (s : State) (prog : Nat) : State :=
  let x := s.prog prog
  if x.st = .held then s.setProg prog x.disarm
  else if x.st = .armed ∨ x.st = .running ∨ x.st = .repair then s.setProg prog { x with disarmNext := true }
  else s

/-- A write of PER_P_CTRL: ARM acts before DISARM. -/
def State.progCtrl (s : State) (prog : Nat) (v : Word) : State :=
  let s1 := if v.getLsbD 0 then s.arm prog else s
  if v.getLsbD 1 then s1.disarm prog else s1

/-- PER_ARM (R407). -/
def execPerArm (prog : Nat) (value : Word) (s : State) : Out := .next (s.onWrite 0xA00018 (fun s => s.progCtrl prog value))

/-- PER_DISARM (R407, R408). -/
def execPerDisarm (prog : Nat) (value : Word) (s : State) : Out := .next (s.onWrite 0xA00018 (fun s => s.progCtrl prog value))

/-! ## Repair grants (R424, R425, R427) -/

/-- The RESULT of a grant for `n` ticks from tick `t`, and whether it is taken. -/
def State.grantResult (s : State) (prog t : Nat) : Nat :=
  match s.perProg prog with
  | none => 1
  | some p =>
    let x := s.prog prog
    if x.windowOpen || x.grantWait then 2
    else if !x.armed || !s.rel.items.any (fun i => i.engine == p.eng) then 1
    else if 32768 ≤ (t + 65536 - s.nextTick p % 65536) % 65536 then 3
    else 0

/-- A write of PER_REPAIR_GRANT; one of 0 ticks is ignored. -/
def State.grant (s : State) (v : Word) : State :=
  let prog := v.toNat % 8
  let n := bits v.toNat 15 4
  let t := v.toNat / 65536
  if n = 0 then s
  else
    let r := s.grantResult prog t
    let s1 := s.modPer (fun u => { u with grantProg := if r = 0 then prog else u.grantProg, grantResult := r })
    if r = 0 then s1.modProg prog (fun x => { x with grantTick := t, grantTicks := n, grantWait := true }) else s1

/-- PER_REPAIR_GRANT (R424). -/
def execPerRepairGrant (value : Word) (s : State) : Out := .next (s.onWrite 0xA01000 (fun s => s.grant value))

/-- A granted window opens at a fire instant: the engine's fetch is held and its preload discarded (R301, R425, R506). -/
def State.openWindow (s : State) (p : PerProg) : State :=
  let s1 := s.modProg p.prog (fun x => { x with
    st := .repair, windowOpen := true, windowLeft := x.grantTicks - 1, grantWait := false })
  ((s1.modEng p.eng (fun e => { e with heldItems := true })).discardPreload p.eng).modRel (fun r => { r with windows := r.windows ++ [p.eng] })

/-- What remains of a granted window fits a bound (R425). -/
def State.windowFits (s : State) (p : PerProg) (boundUs : Nat) : Bool :=
  let x := s.prog p.prog
  decide (boundUs * 1000 + (s.progNow p - x.fireAt) ≤ (x.windowLeft + 1) * p.period)

/-- A granted window ends: the program is armed again, HELD or DISARMED, the engine's fetch is released, no patch that awaits another engine's window
holds it any more, and its next window serves every patch (R67, R407, R425). -/
def State.endGrant (s : State) (p : PerProg) : State :=
  let x := s.prog p.prog
  let y := { x with windowOpen := false, st := if bit s.clk.unalignedEng p.eng then .held else .armed }
  let s1 := s.setProg p.prog (if x.disarmNext then y.disarm else y)
  (s1.modEng p.eng (fun e => { e with heldItems := false })).modRel (fun r => { r with
    windows := r.windows.filter (fun e => e != p.eng),
    patches := r.patches.map (fun w => { w with
      stale := w.stale.filter (fun e => e != p.eng),
      held := if w.wins.contains p.eng then w.held.filter (fun e => e != p.eng) else w.held }) })

/-- REPAIR_WINDOW_CLOSE (R425): the fire instant after the window's last tick. -/
def execRepairWindowClose (prog : Nat) (s : State) : Out :=
  .next (match s.perProg prog with
    | none => s
    | some p =>
      let x := s.prog prog
      if x.windowOpen ∧ x.windowLeft = 0 ∧ !x.fired ∧ (s.dueTick p).isSome then s.endGrant p else s)

/-! ## Fire and ingress (R409, R417 to R419, R423) -/

/-- The logical core and offset of a stream's region. -/
def State.streamCore (s : State) (x : PerStream) : Nat := coreNum (s.coreAt (x.core s.logical))

/-- The ingress status record (R417). -/
def ingressStatus (k : Nat) (r : Option Ingress) : Bytes :=
  match r with
  | none => toBytes 4 0 ++ toBytes 1 2 ++ zeros 11
  | some x => toBytes 4 x.tick ++ toBytes 1 (b2n (x.tick == k % 2 ^ 32)) ++ zeros 11

/-- The newest records of a program's streams as they stand at a fire instant (R418). -/
def State.latchIngress (s : State) (p : PerProg) : State :=
  s.modPer (fun u => { u with latch := (indexed s.img.streams).foldl (fun m x =>
    if x.2.prog = p.prog ∧ x.2.dir = 0 then sset none m x.1 (sget none u.ingress x.1) else m) u.latch })

/-- One ingress stream is delivered with its status record (R418). -/
def State.deliverStream (s : State) (k : Nat) (j : Nat) (x : PerStream) : State :=
  let r := sget none s.per.latch j
  let n := (x.length + 15) / 16 * 16
  let data := ((r.map Ingress.data).getD [] ++ zeros n).take n
  let s1 := if r.map Ingress.tick = some (k % 2 ^ 32) then s else s.bump .prog x.prog 3
  s1.deliver (s.streamCore x) x.off (data ++ ingressStatus k r)

/-- What a fire waits for (R352, R423, R506): claims of commands that passed their checks before the ARM, a window's items, or a killed
command of the program that has not posted. -/
def State.fireBlocked (s : State) (p : PerProg) : Bool :=
  s.rel.windows.contains p.eng ||
    (match (s.eng p.eng).cur with
      | some c => c.queue == 504 + p.prog
      | none => false) ||
    (s.claimsPassed (504 + p.prog)).any (fun c => (s.prog p.prog).claims.any (claimsMeet c))

/-- Tick `k` fires: its list is submitted, and one for a disabled engine is reported when it is released (R373, R409, R418). -/
def State.fire (s : State) (p : PerProg) (k f : Nat) : State :=
  let s1 := s.modProg p.prog (fun x => { x with
    st := .running, tick := k, cur := k, fireAt := f, fired := true, waits := false, released := false, listDone := false, failed := false,
    committed := false, skipped := 0 })
  let s2 := (s1.modQueue (504 + p.prog) (fun q => { q with head := 0, tail := (s.prog p.prog).count, rtTick := k })).bump .prog p.prog 0
  let s2 := s2.traceTick p.eng p.prog k 0
  s2.each (indexed s.img.streams) (fun s x => if x.2.prog = p.prog ∧ x.2.dir = 0 then s.deliverStream k x.1 x.2 else s)

/-- A fire instant of an armed program (R407, R411, R423 to R425).  A fire that something holds back waits with the ingress of its instant, and
its deadline comes all the same. -/
def State.takeTick (s : State) (p : PerProg) (k f : Nat) : State :=
  let x := s.prog p.prog
  let wait := { x with cur := k, fireAt := f, fired := true, skipped := 0 }
  if x.windowOpen then
    if x.windowLeft = 0 then s else (s.setProg p.prog { wait with windowLeft := x.windowLeft - 1 }).bump .prog p.prog 7
  else if x.disarmNext then s.setProg p.prog x.disarm
  else if x.grantWait ∧ k % 65536 = x.grantTick then ((s.setProg p.prog wait).openWindow p).bump .prog p.prog 7
  else if x.st = .held then s.setProg p.prog wait
  else
    let s1 := s.latchIngress p
    if s.fireBlocked p then
      s1.setProg p.prog { wait with waits := true, released := false, listDone := false, failed := false, committed := false }
    else s1.fire p k f

/-- TICK_FIRE (R411): a fire instant, or the end of what a fire waited for (R423). -/
def execTickFire (prog : Nat) (s : State) : Out :=
  .next (match s.perProg prog with
    | none => s
    | some p =>
      let x := s.prog prog
      if !s.live ∨ !x.armed then s
      else if x.waits then (if x.st = .held ∨ s.fireBlocked p then s else s.fire p x.cur x.fireAt)
      else if x.fired then s
      else
        match s.dueTick p with
        | some d => s.takeTick p d.1 d.2
        | none => s)

/-- LIST_RELEASE (R419): IN_DONE of the tick that runs. -/
def execListRelease (prog : Nat) (s : State) : Out :=
  .next (if s.live ∧ (s.prog prog).st = .running ∧ (s.prog prog).fired ∧ !(s.prog prog).waits then
      (s.modProg prog (fun x => { x with released := true })).reportQueue (504 + prog)
    else s)

/-! ## Commit (R420) -/

/-- The list of a program has posted its last record, none of them a failure. -/
def State.listEnded (s : State) (prog : Nat) : Bool :=
  let x := s.prog prog
  let q := s.queue (504 + prog)
  let e := (s.perProg prog).map PerProg.eng
  x.released && !x.failed && q.head == q.tail && !s.queueBusy (504 + prog) &&
    !(upto 21).any (fun e => (s.eng e).waits.any (fun w => w.cmd.queue == 504 + prog)) &&
    (match e with
      | some e => (match (s.eng e).preload with
        | some r => r.cmd.queue != 504 + prog
        | none => true)
      | none => false)

/-- The outputs of a tick go into the hold (R420). -/
def State.commit (s : State) (prog : Nat) : State :=
  let hold := (indexed s.img.streams).foldl (fun m x =>
    if x.2.prog = prog ∧ x.2.dir = 1 then sset [] m x.1 (s.spadRead (s.streamCore x.2) x.2.off x.2.length) else m) s.per.hold
  let met := s.img.streams.flatMap (fun x => if x.prog = prog ∧ x.dir = 1 then s.badWords (s.streamCore x) x.off x.length else [])
  ((s.each met (fun s w => s.spadCheck w.1 w.2)).modPer (fun u => { u with hold := hold })).modProg prog (fun x => { x with
    listDone := true, committed := true, holdTick := x.cur % 2 ^ 32 })

/-- hclk that the read of a program's egress regions takes: 128 ns, one eclk per two flits, and the largest tree latency (R420). -/
def State.commitHclk (s : State) (prog : Nat) : Nat :=
  let mine := (indexed s.img.streams).filter (fun x => decide (x.2.prog = prog ∧ x.2.dir = 1))
  let flits := (mine.map (fun x => (x.2.length + 15) / 16)).foldl (· + ·) 0
  let lat := (mine.map (fun x => ((s.img.net.trees[x.1]?).map Tree.latency).getD 0)).foldl max 0
  154 + (flits + 1) / 2 + (lat + 1) / 2

/-- COMMIT (R420, R423): the commit ends, its time past since the list's last record. -/
def execCommit (prog : Nat) (s : State) : Out :=
  .next (if s.live ∧ (s.prog prog).st = .running ∧ (s.prog prog).fired ∧ !(s.prog prog).committed ∧ s.listEnded prog ∧
      (s.prog prog).postAt + s.commitHclk prog ≤ s.hclk then s.commit prog else s)

/-! ## Gates and frames (R453, R455) -/

/-- The entries of a gate list as one cycle runs them: cut at the cycle's end, or the last one extended (R455). -/
def Gcl.cut : List (Nat × Nat) → Nat → List (Nat × Nat)
  | [], _ => []
  | (g, _) :: [], left => [(g, left)]
  | (g, n) :: rest, left => if left ≤ n then [(g, left)] else (g, n) :: Gcl.cut rest (left - n)

/-- The entries with time left in them, from an offset on. -/
def Gcl.from : List (Nat × Nat) → Nat → List (Nat × Nat)
  | [], _ => []
  | (g, n) :: rest, o => if o < n then (g, n - o) :: rest else Gcl.from rest (o - n)

/-- The offset of a time in the cycle of a gate list. -/
def Gcl.offset (g : Gcl) (t : Nat) : Nat := if g.cycle = 0 then 0 else (t - g.start) % g.cycle

/-- What the gates do from a time on, for two cycles. -/
def Gcl.ahead (g : Gcl) (t : Nat) : List (Nat × Nat) :=
  let one := Gcl.cut g.entries g.cycle
  Gcl.from one (g.offset t) ++ one

/-- ns for which gate `c` stays open. -/
def gateOpen (c : Nat) : List (Nat × Nat) → Nat
  | [] => 0
  | (g, n) :: rest => if bit g c then n + gateOpen c rest else 0

/-- The index of the entry in force at an offset. -/
def Gcl.index : List (Nat × Nat) → Nat → Nat
  | [], _ => 0
  | (_, n) :: rest, o => if o < n then 0 else 1 + Gcl.index rest (o - n)

/-- ns that a frame takes on a 25 Gb/s port, preamble and FCS included. -/
def frameNs (f : Frame) : Nat := ((f.bytes.length + 12) * 8 + 24) / 25

/-- A frame of a class may start after `used` ns: its gate is open and stays open to the frame's end (R455). -/
def DrivePort.mayStart (p : DrivePort) (t used : Nat) (f : Frame) : Bool :=
  p.oper.entries.isEmpty || decide (used + frameNs f ≤ gateOpen f.cls (p.oper.ahead t))

/-- The frames that a port sends now, in order, and those that wait. -/
def DrivePort.send (p : DrivePort) (t : Nat) : List Frame → Nat → List Frame × List Frame
  | [], _ => ([], [])
  | f :: fs, used =>
    if p.mayStart t used f then
      let r := p.send t fs (used + frameNs f)
      (f :: r.1, r.2)
    else
      let r := p.send t fs used
      (r.1, f :: r.2)

/-- A port sends the frames that wait and may start; nothing leaves while its link is down. -/
def State.drain (s : State) (n : Nat) : State :=
  let p := s.port n
  if !p.cfg.getLsbD 0 ∨ !p.link then s
  else
    let r := p.send s.time p.waiting 0
    (s.setPort n { p with waiting := r.2 }).modPorts (fun x => { x with
      sent := x.sent ++ r.1, gptpOut := x.gptpOut ++ r.1.filterMap (fun f => f.gptp.map (fun k => (f.port, k))) })

/-- A frame comes to a port; a port that does not run takes none. -/
def State.queueFrame (s : State) (f : Frame) : State :=
  if (s.port f.port).cfg.getLsbD 0 then (s.modPort f.port (fun p => { p with waiting := p.waiting ++ [f] })).drain f.port else s

/-- A change of the gate list is scheduled (R455): the first cycle start at or after the base time, not before now. -/
def State.gclChange (s : State) (n : Nat) (v : Word) : State :=
  let s1 := s.modPort n (fun p => p.write 0x24 v)
  let p := s1.port n
  let cycle := p.cycle.toNat
  let base := p.baseLo.toNat + 2 ^ 32 * p.baseHi.toNat
  if v.getLsbD 8 ∧ 1000 ≤ cycle ∧ cycle ≤ 1000000000 then
    let start := if s.time ≤ base then base else base + (s.time - base + cycle - 1) / cycle * cycle
    let es := (upto p.len).map (fun i => let w := (sget gclReset p.gcl i).toNat; (w % 256, w / 256))
    s1.setPort n { p with pending := some (start, ⟨es, cycle, start⟩) }
  else s1

/-- DRV_GCL_CHANGE (R455, R457). -/
def execDrvGclChange (port : Nat) (value : Word) (s : State) : Out := .next (s.onWrite 0xA02024 (fun s => s.gclChange port value))

/-- The gates in force at a port, and its frames that may start. -/
def State.gateEntry (s : State) (n : Nat) : State :=
  let p := s.port n
  let now := (p.oper.ahead s.time).head?
  let i := if p.oper.entries.isEmpty then 0 else Gcl.index (Gcl.cut p.oper.entries p.oper.cycle) (p.oper.offset s.time)
  (s.setPort n { p with entry := i, gates := (now.map Prod.fst).getD 0xFF }).drain n

/-- GCL_CHANGE_APPLY (R455). -/
def execGclChangeApply (port : Nat) (s : State) : Out :=
  .next (match (s.port port).pending with
    | none => s
    | some x => if x.1 ≤ s.time then (s.modPort port (fun p => { p with oper := x.2, pending := none })).gateEntry port else s)

/-- GATE_CONTROL_ENTRY (R455): the entry of the operational list that now holds. -/
def execGateControlEntry (port : Nat) (s : State) : Out := .next (s.gateEntry port)

/-- DRIVE_PORT_LINK (R457). -/
def execDrivePortLink (port : Nat) (up fecLock : Bool) (s : State) : Out :=
  .next ((s.modPort port (fun p => { p with link := up, fecLock := fecLock })).drain port)

/-! ## Egress frames (R414, R415, R421) -/

/-- The Ethernet header of a port's drive frames (R414, R457). -/
def DrivePort.header (p : DrivePort) : Bytes :=
  let c := p.cfg.toNat
  toBytes 4 p.daLo.toNat ++ toBytes 2 p.daHi.toNat ++ toBytes 4 p.saLo.toNat ++ toBytes 2 p.saHi.toNat ++
    (if bit c 7 then beBytes 2 0x8100 ++ beBytes 2 (bits c 22 20 * 0x2000 + bits c 19 8) else []) ++ beBytes 2 0x88B5

/-- A stream record (R414). -/
def streamRecord (x : PerStream) (data : Bytes) : Bytes :=
  let d := (data ++ zeros x.length).take x.length
  toBytes 2 x.sid ++ toBytes 2 x.length ++ d ++ zeros ((4 - x.length % 4) % 4)

/-- Records packed into payloads of at most 1,500 bytes, header included; a record never splits (R421). -/
def packRecords (rs : List Bytes) : List (List Bytes) :=
  let r := rs.foldl (fun (a : List (List Bytes) × List Bytes) x =>
    if !a.2.isEmpty && decide (1500 < 16 + (a.2.map List.length).foldl (· + ·) 0 + x.length || 64 ≤ a.2.length) then (a.1 ++ [a.2], [x])
    else (a.1, a.2 ++ [x])) ([], [])
  if r.2.isEmpty then r.1 else r.1 ++ [r.2]

/-- The frames of a program's tick on one port (R414, R421). -/
def State.egressFrames (s : State) (prog flags k time port : Nat) : List Frame :=
  let mine := (indexed s.img.streams).filter (fun x => decide (x.2.prog = prog ∧ x.2.dir = 1 ∧ x.2.port = port))
  let p := s.port port
  (packRecords (mine.map (fun x => streamRecord x.2 (sget [] s.per.hold x.1)))).map (fun rs =>
    ⟨port, bits p.cfg.toNat 6 4, p.header ++ toBytes 1 1 ++ toBytes 1 flags ++ toBytes 1 rs.length ++ toBytes 1 prog ++ toBytes 4 k ++
      toBytes 8 time ++ rs.flatten, none⟩)

/-- E5 sends the egress frames of a tick (R421). -/
def State.egress (s : State) (prog flags k time : Nat) : State :=
  s.each (upto 8) (fun s n => s.each (s.egressFrames prog flags k time n) (fun s f => s.queueFrame f))

/-! ## Ingress frames (R414, R418, R452, R453) -/

/-- The program that a dropped frame or record of a port counts against: that of its stream, else the lowest with an ingress stream
on the port (DESIGN CHOICE, log entry 22). -/
def State.inBad (s : State) (port : Nat) (prog : Option Nat) : State :=
  match prog.orElse (fun _ => minBy id ((s.img.streams.filter (fun x => decide (x.port = port ∧ x.dir = 0))).map PerStream.prog)) with
  | some p => s.bump .prog p 4
  | none => s

/-- The records of a drive frame, `n` of them: each goes to every ingress stream of its port and STREAM_ID (R418). -/
def State.takeRecords (s : State) (port tick : Nat) : Nat → Bytes → State
  | 0, _ => s
  | n + 1, bs =>
    if bs.length < 4 then s.inBad port none
    else
      let len := fld bs 2 2
      let data := (bs.drop 4).take len
      let rest := bs.drop (4 + (len + 3) / 4 * 4)
      let mine := (indexed s.img.streams).filter (fun x => decide (x.2.port = port ∧ x.2.dir = 0 ∧ x.2.sid = fld bs 0 2))
      let s1 := if mine.isEmpty then s.inBad port none else s.each mine (fun s x =>
        if len = x.2.length ∧ data.length = len then s.modPer (fun u => { u with ingress := sset none u.ingress x.1 (some ⟨tick, data⟩) })
        else s.inBad port (some x.2.prog))
      s1.takeRecords port tick n rest

/-- A drive frame's payload (R414). -/
def State.driveFrame (s : State) (port : Nat) (bs : Bytes) : State :=
  if bs.length < 16 ∨ fld bs 0 1 ≠ 1 ∨ fld bs 2 1 = 0 ∨ 64 < fld bs 2 1 then s.inBad port none
  else s.takeRecords port (fld bs 4 4) (fld bs 2 1) (bs.drop 16)

/-- E5 serves its ports. -/
def State.e5Up (s : State) : Bool := s.pwr.mod == .ready && s.hubAlive

/-- DRIVE_FRAME_RX (R414, R452, R453): a frame without its FCS.  One longer than 1,518 bytes counts as bad. -/
def execDriveFrameRx (port : Nat) (frame : Bytes) (fcsOk : Bool) (s : State) : Out :=
  let p := s.port port
  let et (o : Nat) : Nat := ofBytes ((frame.drop o).take 2).reverse
  let tagged := et 12 == 0x8100
  let type := if tagged then et 16 else et 12
  .next (if !s.e5Up ∨ !p.cfg.getLsbD 0 then s
    else if !fcsOk ∨ 1518 < frame.length then s.bump .drive port 0
    else if type = 0x88B5 then s.driveFrame port (frame.drop (if tagged then 18 else 14))
    else if type = 0x88F7 ∧ p.cfg.getLsbD 3 then s
    else s.bump .drive port 1)

/-! ## 802.1AS time and the SYNC pins (R454, R456) -/

/-- The time function runs on a port. -/
def State.ptpOn (s : State) (port : Nat) : Bool := s.e5Up && (s.port port).cfg.getLsbD 0 && (s.port port).cfg.getLsbD 3

def State.modTime (s : State) (f : TimeSt → TimeSt) : State := s.modPer (fun u => { u with time := f u.time })

/-- The best master is the one of identity `id`, or none is chosen. -/
def TimeSt.follows (t : TimeSt) (id : Nat) : Bool := match t.master with
  | some m => m.2 == id
  | none => true

/-- GPTP_SYNC (R454): the time follows the grandmaster, corrected by the link delay; the rate ratio is measured between two Syncs.  A Sync of
another master than the best one is not followed. -/
def execGptpSync (port : Nat) (timeNs identity : Nat) (s : State) : Out :=
  .next (if s.ptpOn port ∧ s.per.time.follows identity then
      s.modTime (fun t =>
        let now := timeNs + t.delayNs
        let d := nsOf (s.hclk - t.lastSync)
        { t with
          now := now, at_ := s.hclk, synced := true, holdover := false, lastSync := s.hclk,
          rateNum := if (t.synced ∨ t.holdover) ∧ 0 < d ∧ t.now ≤ now ∧ t.at_ = t.lastSync then (now - t.now) * 1000000000 / d else t.rateNum })
    else s)

/-- SYNC_TIMEOUT (R454): three Sync intervals pass with no Sync: the time enters holdover, and the master is chosen
anew. -/
def execSyncTimeout (s : State) : Out :=
  .next (if s.e5Up ∧ s.per.time.synced then
      (s.modTime (fun t => { t with synced := false, holdover := true, master := none })).raise .timeHoldover 53 0
    else s)

/-- Kinds of the gPTP messages that E5 sends. -/
def gptpPdelayReq : Nat := 2
def gptpPdelayResp : Nat := 3
def gptpPdelayRespFollowUp : Nat := 0xA

/-- A gPTP message goes out in traffic class 7, under its gate (R453, R455); what it holds is IEEE 802.1AS's. -/
def State.gptpSend (s : State) (port kind : Nat) : State :=
  s.queueFrame ⟨port, 7, (upto 68).map (fun i => Config.gptpByte kind i), some kind⟩

/-- PDELAY_REQ (R454): answered in two steps. -/
def execPdelayReq (port : Nat) (s : State) : Out :=
  .next (if s.ptpOn port then (s.gptpSend port gptpPdelayResp).gptpSend port gptpPdelayRespFollowUp else s)

/-- E5 measures the link delay: it asks on the port that runs gPTP once in every second (R454; PRESUMED, log entry 75). -/
def State.askDelay (s : State) : State :=
  if nsOf (s.hclk + 1) / 1000000000 = nsOf s.hclk / 1000000000 then s
  else s.each ((upto 8).filter s.ptpOn) (fun s n => s.gptpSend n gptpPdelayReq)

/-- PDELAY_RESP (R454): the measured link delay. -/
def execPdelayResp (port : Nat) (delayNs : Nat) (s : State) : Out :=
  .next (if s.ptpOn port then s.modTime (fun t => { t with delayNs := delayNs }) else s)

/-- ANNOUNCE (R454): the best master is the one of the lowest priority, then the lowest identity. -/
def execAnnounce (port : Nat) (priority : Nat) (identity : Nat) (s : State) : Out :=
  .next (if s.ptpOn port then
      s.modTime (fun t =>
        match t.master with
        | some m => if priority < m.1 ∨ (priority = m.1 ∧ identity < m.2) then { t with master := some (priority, identity) } else t
        | none => { t with master := some (priority, identity) })
    else s)

/-- SYNC_OUT_PULSE (R456): a pulse at a whole second, or at a fire instant of the chosen program. -/
def execSyncOutPulse (s : State) : Out :=
  .next (if s.e5Up ∧ (s.per.syncMode = 1 ∨ (s.per.syncMode = 2 ∧ (s.prog s.per.syncProg).armed)) then
      s.modTime (fun t => { t with syncOut := t.syncOut + 1 })
    else s)

end Sys2Proof.Machine
end

