-- ==== Sys2Proof/Machine/Repair.lean ====
section
/-!
DEFINITION. Repair windows and items, patches, and the privileged commands that Prephor carries out: PATCH, REPAIR, MARCH, CLKMODE
and RETAIN (chapters 02, 11, 19 and 20).
-/
namespace Sys2Proof.Machine

/-! ## Boundaries and windows (R425, R506) -/

/-- Engine `e` stands at a command boundary. -/
def State.boundary (s : State) (e : Nat) : Bool := (s.eng e).cur.isNone

/-- A granted window of engine `e` is open (R425). -/
def State.granted (s : State) (e : Nat) : Bool :=
  match s.progOf e with
  | some p => (s.prog p.prog).windowOpen
  | none => false

/-- An item of `boundUs` may run on engine `e` now: its window is open, it is at a boundary, and in a granted window the bound fits. -/
def State.itemFits (s : State) (e boundUs : Nat) : Bool :=
  if 8 ≤ e then true
  else
    s.rel.windows.contains e && s.boundary e &&
      (match s.progOf e with
        | some p => !(s.prog p.prog).windowOpen || s.windowFits p boundUs
        | none => true)

/-- Prephor and the farriers work: READY with a hub. -/
def State.repairing (s : State) : Bool := s.live

/-- A window whose last item has left releases the fetch; a granted one stays open to its end (R425, R506). -/
def State.closeWindow (s : State) (e : Nat) : State :=
  if s.rel.items.any (fun i => i.engine == e) || s.granted e then s
  else (s.modEng e (fun x => { x with heldItems := false })).modRel (fun r => { r with windows := r.windows.filter (fun w => w != e) })

/-- An item leaves the list. -/
def State.dropItem (s : State) (i : RepairItem) : State :=
  (s.modRel (fun r => { r with items := r.items.filter (fun y => decide (y ≠ i)) })).closeWindow i.engine

/-- The items that a command or a request waits for leave the list. -/
def State.dropItemsOf (s : State) (kind : Nat) (cmds : List Cmd) (req : Option Req) : State :=
  s.each (s.rel.items.filter (fun i => decide (i.kind = kind ∧ i.cmds = cmds ∧ i.req = req))) (fun s i => s.dropItem i)

/-- The mailbox request that waited for a window is answered (R470). -/
def State.endWindowReq (s : State) (req : Option Req) (rc : Nat) (body : Bytes) : State :=
  match req with
  | none => s
  | some r => (s.modMbx (fun m => { m with windowReq := none })).reply r rc body |>.serveHead

/-- The commands that waited for an item end. -/
def State.endCmds (s : State) (cs : List Cmd) (d : Done) : State := s.each cs (fun s c => s.finishPriv c d)

/-- An item has run: it leaves, and what waited for it ends. -/
def State.endItem (s : State) (i : RepairItem) (flagged : Bool) : State :=
  ((s.dropItem i).endCmds i.cmds { status := endStatus false flagged false }).endWindowReq i.req rcOk []

/-- REPAIR_WINDOW_OPEN (R506): at the boundary of an engine that hosts no armed program. -/
def execRepairWindowOpen (eng : Nat) (s : State) : Out :=
  .next (if s.repairing ∧ s.windowDue eng ∧ s.boundary eng ∧ !s.rel.windows.contains eng then
      ((s.modEng eng (fun x => { x with heldItems := true })).discardPreload eng).modRel (fun r => { r with windows := r.windows ++ [eng] })
    else s)

/-! ## COLUMN, ROW and REALIGN items (R274, R508 to R510) -/

/-- The slipped crossings at the halves of engine `e` whose engines, at both ends, have their windows open (R273, R274). -/
def State.realignable (s : State) (e : Nat) : List (Nat × Nat) :=
  s.clk.slipped.filter (fun c => (s.crossingEngines c).contains e && (s.crossingEngines c).all (fun g => s.itemFits g 17))

/-- A patch waits on an item of KIND 4 of its own for each engine whose window it needs (R63). -/
def RepairItem.ofPatch (i : RepairItem) (p : PatchWait) : Bool := decide (i.kind = 4 ∧ i.cmds = p.cmd.toList ∧ i.req = p.req)

/-- An item that its own window cannot serve now: its crossings need another engine's window (R274), or its engine already holds for the patch and waits
for the others (R64). -/
def State.itemWaits (s : State) (i : RepairItem) : Bool :=
  if i.kind = 3 then (s.realignable i.engine).isEmpty
  else i.kind == 4 && s.rel.patches.any (fun p => i.ofPatch p && p.held.contains i.engine)

/-- In a window at a command boundary the items of an engine run in queue order (R506). -/
def State.itemTurn (s : State) (i : RepairItem) : Bool :=
  s.granted i.engine || (s.rel.items.takeWhile (fun j => decide (j ≠ i))).all (fun j => j.engine != i.engine || s.itemWaits j)

/-- The first item of a kind whose window lets it run, in its turn. -/
def State.itemReady (s : State) (kind : Nat) : Option RepairItem :=
  s.rel.items.find? (fun i => i.kind == kind && s.itemFits i.engine i.boundUs && (decide (8 ≤ i.engine) || s.itemTurn i))

/-- A COLUMN item runs (R508, R509): the substitute is chosen now; one that fails BIST is marked FAILED and the item stays. -/
def State.runColumn (s : State) (i : RepairItem) (bistFails : Bool) (found : List RowFail) : State :=
  let c : PhysCore := ⟨i.yh, i.pcol, i.row⟩
  if !s.inUse i.yh i.pcol then s.endItem i false
  else
    match s.substitute i.yh i.pcol with
    | none => (s.noColumn c).endItem i true
    | some x =>
      if bistFails then s.markFailed i.yh x.1
      else
        let t := s.takeColumn i.yh i.pcol x.1 x.2 found
        t.endItem i (!s.journalRoom (s.ownPatch 0 0 (topoBody s.logical s.img (s.topoWith i.yh (s.replaced i.yh i.pcol x.2)))))

/-- COLUMN_ITEM (R508, R509): the BIST of the incoming column and what its march finds. -/
def execColumnItem (bistFails : Bool) (found : List RowFail) (s : State) : Out :=
  .next (match s.itemReady 1 with
    | none => s
    | some i => if s.repairing then s.runColumn i bistFails found else s)

/-- A ROW item runs (R510).  A bank row whose spare row fails goes to the other one (R305). -/
def State.runRow (s : State) (i : RepairItem) : State :=
  let c : PhysCore := ⟨i.yh, i.pcol, i.row⟩
  let place : RowRepair := ⟨i.yh, i.pcol, i.row, i.bank, 0, i.bankRow⟩
  let s1 := match (s.half i.yh).rows.find? (samePlace place) with
    | some r => s.spoilSpare c i.bank r.spare
    | none => s
  match (s1.half i.yh).freeSpare c i.bank with
  | some k =>
    let t := (s1.remap { place with spare := k }).bump .half i.yh 31
    t.endItem i (t.hub.patchSeq == s.hub.patchSeq)
  | none => (s1.halter c 1 i.cmds i.req).dropItem i

/-- ROW_ITEM (R510). -/
def execRowItem (s : State) : Out :=
  .next (match s.itemReady 2 with
    | none => s
    | some i => if s.repairing then s.runRow i else s)

/-- A REALIGN item has nothing left to realign. -/
def State.realigned (s : State) (i : RepairItem) : Bool :=
  i.kind == 3 && s.clk.slipped.all (fun c => !(s.crossingEngines c).contains i.engine)

/-- The first REALIGN item whose window, with those of the engines at the other ends, lets a crossing of its engine be realigned. -/
def State.realignItem (s : State) : Option RepairItem :=
  s.rel.items.find? (fun i => i.kind == 3 && s.itemFits i.engine i.boundUs && s.itemTurn i && !(s.realignable i.engine).isEmpty)

/-- REALIGN (R274): the slipped crossings of the item's engine are realigned, each in the windows of the engines at both its ends; an item leaves when
no slipped crossing of its engine is left, and the engine's LOCKSTEP bit returns. -/
def execRealign (facts : AlignFacts) (s : State) : Out :=
  .next (if s.repairing then
      let t := match s.realignItem with
        | some i => s.realignAll facts (s.realignable i.engine)
        | none => s
      t.each (t.rel.items.filter t.realigned) (fun u y => u.endItem y false)
    else s)

/-! ## PATCH (R60 to R67) -/

/-- The patch object at an address: its header, then the body that the header gives (R60). -/
def State.readPatch (s : State) (a : Nat) : Except Fail Bytes :=
  match s.firstFail a 192 false false with
  | some f => .error (xlatFail f.1)
  | none =>
    let h := s.devBytes a 192
    match s.patchHead h with
    | .error c => .error ⟨stImage, c, 0, false⟩
    | .ok _ =>
      match s.firstFail a (192 + poLen h) false false with
      | some f => .error (xlatFail f.1)
      | none => .ok (s.devBytes a (192 + poLen h))

/-- The checks that the read of a patch object asks for (R330). -/
def State.patchNote (s : State) (a : Nat) : State :=
  match s.readPatch a with
  | .ok o => s.devNote a o.length
  | .error _ => s

/-- Steps 1 to 8 of R60 on the object at an address: the object and what it waits for. -/
def State.openPatch (s : State) (a : Nat) : Except Fail (Bytes × PatchNeed) :=
  match s.readPatch a with
  | .error f => .error f
  | .ok o =>
    match s.patchCheck .host o with
    | .error c => .error ⟨stImage, c, 0, false⟩
    | .ok img => if s.journalRoom o then .ok (o, s.patchNeed (poSection o) img) else .error ⟨stImage, icPatchJournalFull, 0, false⟩

/-- What brought a patch ends: the command's record, or the request's reply with its image error code (R469). -/
def State.endPatch (s : State) (cmd : Option Cmd) (req : Option Req) (f : Option Fail) : State :=
  let s1 := match cmd with
    | none => s
    | some c => s.finishPriv c ((f.map Fail.done).getD { status := stOk })
  match f with
  | none => s1.endWindowReq req rcOk (zeros 4)
  | some x =>
    if x.status = stImage then s1.endWindowReq req rcImage (toBytes 4 x.detail) else s1.endWindowReq req rcTranslation (zeros 4)

/-- The frame slot that runs `h` hclk after link-up: a slot lasts 2 ns (R437). -/
def slotOf (h : Nat) : Nat := h * 5 / 12

/-- The frame slot of a port now. -/
def State.slotNow (s : State) (port : Nat) : Nat := slotOf (s.hclk - (s.link port).upAt)

/-- The next slot for control frames after slot `f` (R439). -/
def nextControl (f : Nat) : Nat := f + 1 + (15 - (f + 1) % 16)

/-- A LANE_SWAP is announced in the next control frame: its slot F is the first multiple of 16 at least 64 slots after that (R441). -/
def State.announceSwap (s : State) (port old new : Nat) : State :=
  s.modLink port (fun l => { l with swapOut := l.swapOut ++ [(old, new, (nextControl (s.slotNow port) + 64 + 15) / 16 * 16)] })

/-- A patch has landed: it ends, or waits for the lane swaps it still needs, one at a time; a port whose link is not up takes its map at
once (R63). -/
def State.afterLanding (s : State) (p : PatchWait) : State :=
  let now := p.swaps.filter (fun x => (s.link x.1).st != .up)
  let left := p.swaps.filter (fun x => (s.link x.1).st == .up)
  let s1 := s.each now (fun s x => s.modLink x.1 (fun l => { l with txMap := sget 0 s.img.net.laneMaps x.1 }))
  match left with
  | [] => s1.endPatch p.cmd p.req none
  | x :: _ =>
    (s1.modRel (fun r => { r with patches := r.patches ++ [{ p with engines := [], wins := [], stale := [], held := [], swaps := left }] })).announceSwap x.1 x.2.1 x.2.2

/-- The columns that a landed patch brought into USE are marched with repair enabled (R91, R312). -/
def State.marchNew (s t : State) (found : List RowFail) : State :=
  ((upto 32).foldl (fun o d => o.marches true d (found.filter (fun x => t.marched d x && !s.inUse d x.pcol))) (MarchOut.start t)).st

/-- A patch lands or fails (R60, R64).  A halter of Prephor's discards the preload of its engine as any TOPO patch does. -/
def State.land (s : State) (p : PatchWait) (found : List RowFail) : State :=
  match p.src with
  | .halter h => s.each (s.enginesOf [h.yh]) (fun s e => s.discardPreload e) |>.landHalter h
  | .object o =>
    match s.landObject o with
    | .error c => (s.refusePatch o c).endPatch p.cmd p.req (some ⟨stImage, c, 0, false⟩)
    | .ok t => (s.marchNew t found).afterLanding p

/-- A MEM patch that names a page under retirement is held (R328). -/
def State.patchHeld (s : State) (o : Bytes) : Bool :=
  poSection o == 4 &&
    (match readMem (poBody o) with
      | some m => (upto 8).any (fun k => let x := s.shed k; x.retBusy && m.1.xlat.any (fun y => y.1 == x.retVpage))
      | none => false)

/-- A validated patch lands at once, or waits; a window that it needs is a repair item of KIND 4 for each engine (R63). -/
def State.beginPatch (s : State) (o : Bytes) (n : PatchNeed) (cmd : Option Cmd) (req : Option Req) : State :=
  let p : PatchWait := ⟨.object o, cmd, req, n.engines, n.wins.map Prod.fst, [], [], n.swaps⟩
  if n.engines.isEmpty then s.land p []
  else
    (s.modRel (fun r => { r with patches := r.patches ++ [p] })).each n.wins (fun s w =>
      s.queueItem { s.item 4 w.1 w.2 with cmds := cmd.toList, req := req })

/-- The oldest PATCH in Prephor's hands that does not wait to land. -/
def State.newPatch (s : State) : Option Cmd :=
  s.mbx.privs.find? (fun c => dOp c.desc == opPatch && !s.rel.patches.any (fun p => p.cmd == some c))

/-- PATCH (R60, R63). -/
def execPatch (s : State) : Out :=
  .next (match s.newPatch with
    | none => s
    | some c =>
      if !s.repairing then s
      else
        match s.openPatch (fld c.desc 0x20 8) with
        | .ok x => if s.patchHeld x.1 then s else (s.patchNote (fld c.desc 0x20 8)).beginPatch x.1 x.2 (some c) none
        | .error f =>
          let s1 := if f.status = stImage then
              (match s.readPatch (fld c.desc 0x20 8) with
                | .ok o => s.refusePatch o f.detail
                | .error _ => s)
            else s.xlatFault f.addr false .hub ((s.xlatCause f.addr false false).getD 0)
          s1.finishPriv c f.done)

/-- A patch's own item for engine `e` fits its window, in its turn (R63, R506). -/
def State.patchFits (s : State) (p : PatchWait) (e : Nat) : Bool :=
  match s.rel.items.find? (fun i => i.ofPatch p && i.engine == e) with
  | some i => s.itemFits e i.boundUs && s.itemTurn i
  | none => s.itemFits e 0

/-- The first patch that engine `e` may hold for now. -/
def State.patchFor (s : State) (e : Nat) : Option PatchWait :=
  s.rel.patches.find? (fun p => p.engines.contains e && !p.held.contains e && (!p.wins.contains e || !p.stale.contains e && s.patchFits p e))

/-- A patch leaves the list of those in wait. -/
def State.dropPatch (s : State) (p : PatchWait) : State :=
  s.modRel (fun r => { r with patches := r.patches.filter (fun y => decide (y ≠ p)) })

/-- PATCH_LANDING (R64, R505): engine `eng` stands at a boundary and holds for the patch; once every engine concerned holds, it lands.
The marches of columns that come into USE find `found`. -/
def execPatchLanding (eng : Nat) (found : List RowFail) (s : State) : Out :=
  .next (match s.patchFor eng with
    | none => s
    | some p =>
      if !s.repairing ∨ !s.boundary eng then s
      else
        let q := { p with held := p.held ++ [eng] }
        if q.engines.all (fun e => q.held.contains e) then
          let cmds := p.cmd.toList
          ((s.dropPatch p).land q found).dropItemsOf 4 cmds p.req
        else
          (s.modRel (fun r => { r with patches := r.patches.map (fun y => if y = p then q else y) })).discardPreload eng)

/-! ## REPAIR (R511) -/

/-- The oldest REPAIR of an operation whose item is not queued yet.  One with a reserved operation counts with HALTER. -/
def State.newRepair (s : State) (op : Nat) : Option Cmd :=
  s.mbx.privs.find? (fun c => dOp c.desc == opRepair && (fld c.tack 0 1 == op || (op == 0 && decide (3 ≤ fld c.tack 0 1))) &&
    !s.rel.items.any (fun i => i.cmds.contains c))

/-- The core that a REPAIR block names. -/
def repairCore (t : Bytes) : PhysCore := ⟨fld t 1 1, fld t 2 1, fld t 3 1⟩

/-- What REPAIR queues, for a command or a REPAIR_RUN (R511). -/
def State.queueRepair (s : State) (t : Bytes) (cmds : List Cmd) (req : Option Req) : State :=
  let c := repairCore t
  if fld t 0 1 = 0 then s.halter c 3 cmds req
  else if fld t 0 1 = 1 then s.queueColumn c cmds req
  else
    s.queueItem { s.item 2 ((s.engineOf c.yh).getD 0xFF) 1 with
      yh := c.yh, pcol := c.pcol, row := c.row, bank := fld t 4 1, bankRow := fld t 6 2, cmds := cmds, req := req }

/-- A REPAIR is checked and its item queued. -/
def State.repair (s : State) (c : Cmd) : State :=
  match s.privCheck c with
  | some f => s.failPriv c f
  | none => s.queueRepair c.tack [c] none

/-- REPAIR with OP HALTER. -/
def execRepairHalter (s : State) : Out :=
  .next (match s.newRepair 0 with
    | some c => if s.repairing then s.repair c else s
    | none => s)

/-- REPAIR with OP COLUMN. -/
def execRepairColumn (s : State) : Out :=
  .next (match s.newRepair 1 with
    | some c => if s.repairing then s.repair c else s
    | none => s)

/-- REPAIR with OP ROW. -/
def execRepairRow (s : State) : Out :=
  .next (match s.newRepair 2 with
    | some c => if s.repairing then s.repair c else s
    | none => s)

/-! ## REPAIR_RUN, PATCH and WINDOW_TIMEOUT of the mailbox (R469, R470) -/

/-- REPAIR_RUN: the item queued, the reply when it has run. -/
def execRepairRun (s : State) : Out :=
  .next (match s.headReq rqRepairRun with
    | none => s
    | some r =>
      if s.mbx.windowReq.isSome then s.endReq r rcBusy []
      else
        match s.repairCheck (mBody r.msg) with
        | some _ => s.endReq r rcBadRequest []
        | none => ((s.background r).modMbx (fun m => { m with windowReq := some r })).queueRepair (mBody r.msg) [] (some r))

/-- PATCH as a request: the body holds the address of the object. -/
def execPatchRequest (s : State) : Out :=
  .next (match s.headReq rqPatch with
    | none => s
    | some r =>
      if s.mbx.windowReq.isSome then s.endReq r rcBusy (zeros 4)
      else
        match s.openPatch (fld (mBody r.msg) 0 8) with
        | .error f =>
          if f.status = stImage then
            (match s.readPatch (fld (mBody r.msg) 0 8) with
              | .ok o => (s.refusePatch o f.detail).endReq r rcImage (toBytes 4 f.detail)
              | .error _ => s.endReq r rcImage (toBytes 4 f.detail))
          else
            (s.xlatFault f.addr false .hub ((s.xlatCause f.addr false false).getD 0)).endReq r rcTranslation (zeros 4)
        | .ok x => if s.patchHeld x.1 then s else (((s.patchNote (fld (mBody r.msg) 0 8)).background r).modMbx (fun m => { m with windowReq := some r })).beginPatch x.1 x.2 none (some r))

/-- WAIT_US of the waiting request has passed; 0 waits without limit. -/
def State.windowLate (s : State) (r : Req) : Bool := mWaitUs r.msg ≠ 0 && decide (r.at_ + mWaitUs r.msg * hclkPerUs ≤ s.hclk)

/-- WINDOW_TIMEOUT (R469): the item or patch leaves the list, and a halter stays with an item of its own. -/
def execWindowTimeout (s : State) : Out :=
  .next (match s.mbx.windowReq with
    | none => s
    | some r =>
      if !s.windowLate r ∨ !s.serving then s
      else
        let mine (i : RepairItem) : Bool := i.req == some r
        let halted (i : RepairItem) : Bool := decide (i.kind = 1) && (s.core (physNum i.yh i.pcol i.row)).halter.isSome
        let keep (i : RepairItem) : Bool := !mine i || !i.cmds.isEmpty || halted i
        let gone := s.rel.items.filter (fun i => !keep i)
        let s1 := s.modRel (fun x => { x with
          items := (x.items.filter keep).map (fun i => if mine i then { i with req := none } else i),
          patches := x.patches.filter (fun p => decide (p.req ≠ some r)) })
        (s1.each gone (fun s i => s.closeWindow i.engine)).endWindowReq (some r) rcWindowTimeout [])

/-! ## MARCH (R302 to R311) -/

/-- The halves that a MARCH or RETAIN names. -/
def maskHalves (c : Cmd) : List Nat := setBits (fld c.tack 0 4) 32

/-- An earlier MARCH or RETAIN names one of the halves of `c` (R309). -/
def State.privBehind (s : State) (c : Cmd) : Bool :=
  (s.mbx.privs.takeWhile (fun y => decide (y ≠ c))).any (fun y =>
    (dOp y.desc == opMarch || dOp y.desc == opRetain) && (maskHalves y).any (fun d => (maskHalves c).contains d))

/-- The first MARCH of a mode that no earlier one keeps back; one with a reserved mode counts with the destructive. -/
def State.newMarch (s : State) (mode : Nat) : Option Cmd :=
  s.mbx.privs.find? (fun c => dOp c.desc == opMarch && (fld c.tack 4 1 == mode || (mode == 0 && decide (2 ≤ fld c.tack 4 1))) &&
    !s.privBehind c)

/-- The bound of a march's item in µs: 36 or 437 in lockstep, 86 or 1,047 at 1,000 MHz (DESIGN CHOICE, log entry 23). -/
def State.marchBound (s : State) (mode d : Nat) : Nat :=
  if mode = 0 then (if (s.half d).lockstep then 36 else 86) else if (s.half d).lockstep then 437 else 1047

/-- The engines of the halves of a MARCH, and the bound of each. -/
def State.marchEngines (s : State) (c : Cmd) : List (Nat × Nat) :=
  (s.enginesOf (maskHalves c)).map (fun e =>
    (e, (((maskHalves c).filter (fun d => s.engineOf d == some e)).map (s.marchBound (fld c.tack 4 1))).foldl max 0))

/-- Engine `e` holds for Prephor: at a boundary, and inside a window when its program is armed. -/
def State.holdsFor (s : State) (e boundUs : Nat) : Bool :=
  s.boundary e && (s.boundaryWindow e || s.itemFits e boundUs)

/-- The items that a waiting command needs for the engines of armed programs, each queued once. -/
def State.needItems (s : State) (kind : Nat) (c : Cmd) (es : List (Nat × Nat)) : State :=
  s.each es (fun s e =>
    if s.boundaryWindow e.1 || s.rel.items.any (fun i => i.kind == kind && i.engine == e.1 && i.cmds.contains c) then s
    else s.queueItem { s.item kind e.1 e.2 with cmds := [c] })

/-- The order of report entries (R311). -/
def rowKey (x : RowFail) : Nat := (((x.yh * 66 + x.pcol) * 64 + x.row) * 12 + x.bank) * 256 + x.bankRow

/-- A report entry (R40, R311). -/
def FoundRow.bytes (x : FoundRow) : Bytes :=
  toBytes 1 x.fail.yh ++ toBytes 1 x.fail.pcol ++ toBytes 1 x.fail.row ++ toBytes 1 x.fail.bank ++ toBytes 1 (x.spare.getD 0xFF) ++ zeros 1 ++
    toBytes 2 x.fail.bankRow

/-- The yclk of the march of half `d`: the ledger of R303 or R304, and every further march of a bank (R305). -/
def marchYclk (mode d : Nat) (o : MarchOut) : Nat :=
  (if mode = 0 then 85320 else 1046434) + 83272 * (o.again.filter (fun x => x.1 / 12 == d)).length

/-- The report of a march (R311). -/
def marchReport (max_ yclk : Nat) (o : MarchOut) : Bytes :=
  let rows := o.rows.mergeSort (fun a b => decide (rowKey a.fail ≤ rowKey b.fail))
  toBytes 4 0x524D5053 ++ toBytes 4 rows.length ++ toBytes 4 (min rows.length max_) ++ toBytes 4 o.repaired ++ toBytes 4 o.halters ++
    zeros 4 ++ toBytes 8 yclk ++ zeros 32 ++
    ((rows.take max_).map FoundRow.bytes).flatten

/-- The halves of a march wake where they sleep (R309). -/
def State.marchWake (s : State) (d : Nat) : State := if s.sqDown d ∧ (s.engineOf d).isSome then s.wakeHalf d else s

/-- The halves of a march are left IDLE; one of no engine is OFF (R297, R309). -/
def State.marchRest (s : State) (d : Nat) : State :=
  s.modHalf d (fun h => { h with pstate := if (s.engineOf d).isSome then .idle else .off, waking := false, farrier := false })

/-- A MARCH that holds its engines begins (R309): preloads are discarded, its halves wake, and their farriers are busy (R313). -/
def State.beginMarch (s : State) (c : Cmd) : State :=
  let ds := maskHalves c
  ((s.each (s.enginesOf ds) (fun s e => s.discardPreload e)).each ds (fun s d => s.marchWake d)).each ds (fun s d =>
    s.modHalf d (fun h => { h with farrier := true }))

/-- The farriers of all halves of a MARCH are at work for it. -/
def State.marching (s : State) (c : Cmd) : Bool := !(maskHalves c).isEmpty && (maskHalves c).all (fun d => (s.half d).farrier)

/-- A MARCH that has begun runs (R309), to its end or, with the end `cut` and the yclk of a kill given, to where it is cut off. -/
def State.runMarch (s : State) (c : Cmd) (found : List RowFail) (cut : Option (Done × Option Nat)) : State :=
  let ds := maskHalves c
  let mode := fld c.tack 4 1
  let o := ds.foldl (fun o d => o.half d (if mode = 1 then some (fld c.tack 5 1) else none) (bit (fld c.tack 6 1) 0) found)
    (MarchOut.start s)
  let yclk := (cut.bind Prod.snd).getD ((ds.map (fun d => marchYclk mode d o)).foldl max 0)
  let s2 := (o.st.each ds (fun s d => s.marchRest d)).hubWrite (fld c.tack 8 8) (marchReport (fld c.tack 0x10 4) yclk o)
  (s2.finishPriv c ((cut.map Prod.fst).getD { status := endStatus false (!o.rows.isEmpty) false })).dropItemsOf 5 [c] none

/-- The engines of a MARCH hold, and no half of it wakes: it may begin. -/
def State.marchReady (s : State) (c : Cmd) : Bool :=
  (s.marchEngines c).all (fun e => s.holdsFor e.1 e.2) && (maskHalves c).all (fun d => !(s.half d).waking)

/-- A MARCH is checked, waits for its engines, begins, and, once its farriers are at work, runs to its end. -/
def State.march (s : State) (c : Cmd) (found : List RowFail) : State :=
  match s.privCheck c with
  | some f => s.failPriv c f
  | none =>
    if s.marching c then s.runMarch c found none
    else if s.marchReady c then s.beginMarch c
    else s.needItems 5 c (s.marchEngines c)

/-- MARCH in destructive mode (R303). -/
def execMarchDestructive (found : List RowFail) (s : State) : Out :=
  .next (match s.newMarch 0 with
    | some c => if s.repairing then s.march c found else s
    | none => s)

/-- MARCH in preserving mode (R304). -/
def execMarchPreserving (found : List RowFail) (s : State) : Out :=
  .next (match s.newMarch 1 with
    | some c => if s.repairing then s.march c found else s
    | none => s)

/-! ## CLKMODE (R530 to R532) -/

/-- The engines that a CLKMODE over `mask` holds. -/
def State.clkEngines (s : State) (mask : Nat) : List Nat := (upto 21).filter (fun e => s.present e && s.clkHolds mask e)

/-- The domains that take part in the alignment of a CLKMODE: a shed or hub domain only if it is aligned now (R271, R530). -/
def State.clkTakesPart (s : State) (mask : BitVec 60) : List Nat :=
  (s.takesPart mask).filter (fun d => !decide ((32 ≤ d ∧ d < 48) ∨ 54 ≤ d) || s.alignedDom d)

/-- The alignment runs with every engine held, and the REALIGN items leave the list (R531, R532). -/
def State.runClkmode (s : State) (c : Cmd) (facts : AlignFacts) : State :=
  let mask := BitVec.ofNat 60 (fld c.tack 0 8)
  let s1 := s.each (s.clkEngines (fld c.tack 0 8)) (fun s e => s.discardPreload e)
  let s2 := s1.alignOver mask (s1.clkTakesPart mask) facts
  let s3 := s2.each (s2.rel.items.filter (fun i => i.kind == 3)) (fun s i => s.endItem i false)
  (s3.finishPriv c { status := endStatus false (s3.clk.aligned != mask) false }).dropItemsOf 6 [c] none

/-- CLKMODE (R530, R531). -/
def execClkmode (facts : AlignFacts) (s : State) : Out :=
  .next (match s.privOf opClkmode with
    | none => s
    | some c =>
      if !s.repairing then s
      else
        match s.privCheck c with
        | some f => s.failPriv c f
        | none =>
          let es := (s.clkEngines (fld c.tack 0 8)).map (fun e => (e, 20))
          if es.all (fun e => s.holdsFor e.1 e.2) then s.runClkmode c facts else s.needItems 6 c es)

/-! ## RETAIN (R297 to R301) -/

/-- The spin block of a core whose supply was lost: free values from number `k` on (R87, log entry 1). -/
def freeSpin (k : Nat) : SpinBlock :=
  let v (i : Nat) : Nat := Config.freeValue (k + i)
  ⟨BitVec.ofNat 256 (v 0), BitVec.ofNat 256 (v 1), BitVec.ofNat 24576 (v 2), BitVec.ofNat 4096 (v 3), v 4 % 32,
    (upto 256).map (fun i => signed 24 (v (6 + i))), BitVec.ofNat 68 (v 5), []⟩

/-- The generator positions of a core whose supply was lost: free values from number `k` on (R87, log entry 1). -/
def freeGen (k : Nat) : Sparse GenPos :=
  (upto 3).foldl (fun m i => sset GenPos.reset m (i + 1) ⟨Config.freeValue (k + 2 * i) % 2 ^ 64, Config.freeValue (k + 2 * i + 1) % 256⟩) []

/-- What a core keeps when its half loses its core supply: the halter, the router's fault and the mode bit (R87, R96).  Its codebook tables hold 0,
which no command reads before it has loaded them, and its MAC array is empty (DESIGN CHOICE, log entry 63). -/
def State.loseCore (s : State) (n : Nat) : State :=
  let t := s.modCore n (fun k => { Core.reset with
    halter := k.halter, routerFault := k.routerFault, mode := k.mode, spin := freeSpin s.freeCtr,
    gen := freeGen (s.freeCtr + 262) })
  { t with freeCtr := s.freeCtr + 268 }

/-- The cores in USE of a half. -/
def State.coresOf (s : State) (d : Nat) : List Nat := (s.useCols d).flatMap (fun p => (upto 64).map (fun r => physNum d p r))

/-- The program memories of the cores of half `d` lose their content (R87); what they read then is 0 (DESIGN CHOICE, log entry 63). -/
def State.losePrograms (s : State) (d : Nat) : State :=
  match s.engineOf d with
  | none => s
  | some e =>
    let cores := s.engCores e
    let lose (p : Programs) : Programs := { p with code := (indexed p.code).map (fun x =>
      if (s.coreAt (cores.getD x.1 0)).yh = d then [] else x.2) }
    s.modEng e (fun x => { x with active := lose x.active, shadow := lose x.shadow })

/-- A half goes to sleep (R87, R297).  One that goes from OFF to RETAIN holds zeros and the remaps of TOPO, as a wake would give it (DESIGN
CHOICE, log entry 23). -/
def State.sleepHalf (s : State) (d : Nat) (target : PState) : State :=
  let s1 := if s.sqDown d then s else (s.losePrograms d).each (s.coresOf d) (fun s n => s.loseCore n)
  if target = .off then (s1.zeroHalf d).modHalf d (fun h => { h with pstate := .off, curMhz := 0, rows := [] })
  else if (s.half d).pstate = .off then
    let c := s1.wakeClock d
    c.2.modHalf d (fun h => { h with pstate := .retain, curMhz := c.1, rows := s.img.rows.filter (fun r => r.yh == d) })
  else s1.modHalf d (fun h => { h with pstate := .retain })

/-- The first RETAIN of a target that no earlier MARCH or RETAIN keeps back; one with a reserved target counts with RUN. -/
def State.newRetain (s : State) (target : Nat) : Option Cmd :=
  s.mbx.privs.find? (fun c => dOp c.desc == opRetain && (fld c.tack 4 1 == target || (target == 0 && decide (3 ≤ fld c.tack 4 1))) &&
    !s.privBehind c)

/-- Target half `d` can be moved: its engine is at a boundary, and no wake is under way (R299, R301). -/
def State.maySleep (s : State) (d : Nat) : Bool :=
  !(s.half d).waking && (match s.engineOf d with
    | some e => s.boundary e
    | none => true)

/-- RETAIN with a target that sleeps: every half of it at once. -/
def State.runSleep (s : State) (c : Cmd) (target : PState) : State :=
  let ds := (maskHalves c).filter (fun d => (s.half d).pstate != target)
  if ds.all s.maySleep then
    let s1 := s.each (s.enginesOf ds) (fun s e => s.discardPreload e)
    (s1.each ds (fun s d => s.sleepHalf d target)).finishPriv c { status := stOk }
  else s

/-- A RETAIN is checked and carried out. -/
def State.retain (s : State) (c : Cmd) (run : State → State) : State :=
  match s.privCheck c with
  | some f => s.failPriv c f
  | none => run s

/-- A half comes to RUN: from sleep by a wake, from IDLE at once. -/
def State.toRun (s : State) (d : Nat) : State :=
  if s.sqDown d then s.wakeHalf d else s.modHalf d (fun h => { h.ranAt h.curMhz with pstate := .run })

/-- RETAIN to RUN (R299, R300). -/
def execRetainToRun (s : State) : Out :=
  .next (match s.newRetain 0 with
    | some c =>
      if s.repairing then s.retain c (fun s => (s.each (maskHalves c) (fun s d => s.toRun d)).finishPriv c { status := stOk }) else s
    | none => s)

/-- RETAIN to RETAIN (R301). -/
def execRetainToRetain (s : State) : Out :=
  .next (match s.newRetain 1 with
    | some c => if s.repairing then s.retain c (fun s => s.runSleep c .retain) else s
    | none => s)

/-- RETAIN to OFF (R301). -/
def execRetainToOff (s : State) : Out :=
  .next (match s.newRetain 2 with
    | some c => if s.repairing then s.retain c (fun s => s.runSleep c .off) else s
    | none => s)

end Sys2Proof.Machine
end

