-- ==== Sys2Proof/Machine/Faults.lean ====
section
/-!
DEFINITION. The reliability unit and the hubs: fault reports and their thresholds, replays, heartbeats, takeover and the loss of a hub
(chapter 19, R497 to R501, R513 to R515).
-/
namespace Sys2Proof.Machine

/-! ## Hubs (R513 to R515) -/

/-- The other hub. -/
def otherHub (h : Nat) : Nat := 1 - h

/-- hclk of a takeover: 750 µs (R513). -/
def takeoverHclk : Nat := 750 * hclkPerUs

/-- Fire instants of a program after time `t0` and up to `t1` (R411, R413, R514). -/
def State.firesBetween (s : State) (p : PerProg) (t0 t1 : Nat) : Nat :=
  let n (t : Nat) : Nat := if t < p.phase then 0 else (t - p.phase) / p.period + 1
  if p.tickSrc = 0 then n t1 - n t0
  else
    match (s.prog p.prog).edge with
    | none => 0
    | some h => b2n (decide (t0 < nsOf h + p.phase ∧ nsOf h + p.phase ≤ t1))

/-- The period unit over a takeover from `s` to `t`: each fire instant inside is a missed tick, and the next one fires (R514).  A granted window
runs on by those ticks, and ends where its end lies among them (R425). -/
def State.missTicks (s t : State) : State :=
  t.each t.img.progs (fun u p =>
    let x := u.prog p.prog
    if x.armed then
      let n := s.firesBetween p (s.progNow p) (t.progNow p)
      let v := (u.bumpBy .prog p.prog 5 n).modProg p.prog (fun x => { x with
        armAt := max x.armAt (t.progNow p - 999), windowLeft := if x.windowOpen then x.windowLeft - n else x.windowLeft })
      if x.windowOpen ∧ x.windowLeft < n then v.endGrant p else v
    else u)

/-- The windows that Prephor opened at a command boundary close at a failover: H1 opens them again at the next one, or they wait for a grant where the
program has been armed meanwhile (R67, R506). -/
def State.closeWindows (s : State) : State :=
  (s.each (s.rel.windows.filter (fun e => !s.granted e)) (fun s e => s.modEng e (fun x => { x with heldItems := false }))).modRel (fun r => { r with
    windows := r.windows.filter s.granted })

/-- The patches that wait at a failover: no engine holds for one any more, and a window that was open does not serve it (R67). -/
def State.restartPatches (s : State) : State :=
  s.modRel (fun r => { r with patches := r.patches.map (fun p =>
    if p.engines.isEmpty then p else { p with held := [], stale := p.wins.filter (fun e => r.windows.contains e) }) })

/-- A ROUTE or COMBINE that runs over a failover runs again from its start and completes with REPLAYED (R214); what was sent speculatively is discarded
(R224). -/
def State.rerunRoute (s : State) : State :=
  s.discardSent.modEng 16 (fun x => { x with cur := x.cur.map (fun c => if c.startAt.isSome then { c with replayed := true } else c) })

/-- H1 declares H0 lost and takes over, in one step of 750 µs (R67, R271, R475, R513, R514; log entry 24). -/
def State.takeOver (s : State) : State :=
  let s := s.closeWindows.restartPatches
  let t := s.pass takeoverHclk
  let seeds := (t.rngHub 0).waiting.filter (fun w => decide (w.1 ≠ .host ∧ w.1 ≠ .prephor))
  let t1 := t.modHubs (fun h => { h with h0Lost := true, active := 1, standbyOk := false })
  let t2 := t1.modClk (fun c => { c with aligned := c.aligned &&& ~~~ BitVec.ofNat 60 (2 ^ 54 + 2 ^ 55 + 2 ^ 56) })
  let t3 := (t2.modRngHub 0 (fun h => { h with waiting := [] })).modRngHub 1 (fun h => { h with waiting := h.waiting ++ seeds })
  let t4 := (s.missTicks t3).rerunRoute
  ((t4.ringHost 9).bump .hub 2 1).raise .relFailover t4.hubDomain 1

/-- A takeover can happen: H0 is active and H1 mirrors it. -/
def State.hasStandby (s : State) : Bool := s.hubs.active == 0 && s.hubs.standbyOk

/-- HEARTBEAT (R513). -/
def execHeartbeat (s : State) : Out :=
  .next (if s.hasStandby then s.modHubs (fun h => { h with lastBeat := s.hclk }) else s)

/-- 25 heartbeats in a row are missing: 250 µs since the last one received (R513). -/
def State.beatsMissed (s : State) : Bool := decide (s.hubs.lastBeat + 250 * hclkPerUs ≤ s.hclk)

/-- HUB_LOSS (R513). -/
def execHubLoss (cause : LossCause) (s : State) : Out :=
  .next (if s.hasStandby ∧ (cause = .hubError ∨ s.beatsMissed) then s.takeOver else s)

/-- The active hub is lost with no standby (R515). -/
def State.loseHub (s : State) : State :=
  if s.hubs.active = 0 then s.modHubs (fun h => { h with h0Lost := true }) else s.modHubs (fun h => { h with h1Lost := true })

/-- HUB_LOST_NO_STANDBY (R515). -/
def execHubLostNoStandby (s : State) : Out := .next (if s.hubs.standbyOk then s else s.loseHub)

/-- STANDBY_LOST (R515): the standby hub is lost while the other is active. -/
def execStandbyLost (s : State) : Out :=
  .next (if s.hubs.standbyOk then
      let lost := otherHub s.hubs.active
      (s.modHubs (fun h => { h with
        standbyOk := false, h0Lost := h.h0Lost || decide (lost = 0), h1Lost := h.h1Lost || decide (lost = 1) })).raise
        .relStandbyLost s.hubDomain lost
    else s)

/-- FAILOVER as a request (R469, R475): H1 acknowledges it.  With no standby it is refused (DESIGN CHOICE, log entry 24). -/
def execFailover (s : State) : Out :=
  .next (match s.headReq rqFailover with
    | none => s
    | some r => if s.hasStandby then s.takeOver.endReq r rcOk [] else s.endReq r rcBadRequest [])

/-! ## Replays (R500, R501, R504) -/

/-- The REPLAY record of a command (R548, R549; DESIGN CHOICE, log entry 40). -/
def State.traceReplay (s : State) (e : Nat) (c : Cmd) : State :=
  s.trace 8 0xB 0 e (toBytes 2 c.queue ++ toBytes 8 c.seq ++ toBytes 1 (dOp c.desc))

/-- The command that runs on engine `e` is replayed: its record will read REPLAYED.  What a ROUTE has sent speculatively is discarded (R224). -/
def State.replay (s : State) (e : Nat) : State :=
  match (s.eng e).cur with
  | some c =>
    if c.startAt.isSome then ((if e = 16 then s.discardSent else s).modEng e (fun x => { x with cur := some { c with replayed := true } })).bump .engine e 9 |>.traceReplay e c
    else s
  | none => s

/-- The engine whose running command names a core (R14, R500). -/
def State.runsOn (s : State) (c : PhysCore) : Option Nat :=
  match s.engineOf c.yh with
  | none => none
  | some e =>
    match (s.eng e).cur with
    | some m => if m.startAt.isSome ∧ s.inUse c.yh c.pcol ∧ (m.named e).contains (s.coreIndex c) then some e else none
    | none => none

/-! ## Counting (R496 to R499) -/

/-- A unit that may still pass its threshold: a core or router that no halter or substitution has dealt with, or any other unit. -/
def State.counts (s : State) (u : FaultUnit) : Bool :=
  !s.rel.passed.contains u &&
    (match u with
      | .core c => s.inUse c.yh c.pcol && (s.core (coreNum c)).halter.isNone
      | .router c => s.inUse c.yh c.pcol
      | .bankRow c _ _ => s.inUse c.yh c.pcol
      | _ => true)

/-- The times of a unit with one more event, and whether it is lasting: the last COUNT events lie within the window (R497). -/
def addTime (count windowUs now : Nat) (times : List Nat) : List Nat × Bool :=
  let ts := times ++ [now]
  let first := ts.getD (ts.length - count) 0
  (ts.drop (ts.length - (count - 1)), decide (count ≤ ts.length ∧ now - first ≤ windowUs * hclkPerUs))

/-- A unit of the tracking table: cores, routers and bank rows (R498). -/
def unitTracked (u : FaultUnit) : Bool := unitKind u ≤ 2

/-- The newest time of a tracked unit. -/
def Track.newest (t : Track) : Nat := t.times.foldl max 0

/-- A full table gives up the entry whose newest time is oldest, counted (R498). -/
def State.evict (s : State) : State :=
  if s.rel.track.length < 1024 then s
  else
    match minBy Track.newest s.rel.track with
    | none => s
    | some t => (s.modRel (fun r => { r with track := r.track.erase t })).bump .hub s.hubs.active 6

/-- A unit's entry with one more event; whether it became lasting. -/
def State.countEvent (s : State) (u : FaultUnit) : Bool × State :=
  let th := s.threshold u
  let s0 := s.modRel (fun r => { r with track := r.track.filter s.trackLive })
  let list := if unitTracked u then s0.rel.track else s0.rel.fixed
  let old := list.find? (fun t => decide (t.unit = u))
  let x := addTime th.1 th.2 s.hclk ((old.map Track.times).getD [])
  let entry : Track := ⟨u, x.1⟩
  if x.2 then
    (true, s0.modRel (fun r => { r with
      track := r.track.filter (fun t => decide (t.unit ≠ u)), fixed := r.fixed.filter (fun t => decide (t.unit ≠ u)),
      passed := r.passed ++ [u] }))
  else if unitTracked u then
    let s1 := if old.isSome then s0 else s0.evict
    (false, s1.modRel (fun r => { r with track := r.track.filter (fun t => decide (t.unit ≠ u)) ++ [entry] }))
  else (false, s0.modRel (fun r => { r with fixed := r.fixed.filter (fun t => decide (t.unit ≠ u)) ++ [entry] }))

/-- A lasting device fault: the copy-over begins, or the shed has no spare (R336, R338). -/
def State.deviceFault (s : State) (k dev : Nat) : State :=
  let m := s.shedRec k
  let sh := s.shed k
  let lost (d : Nat) : State :=
    (s.modShed k (fun x => { x with noSpare := true, copying := if dev = 12 then none else x.copying })).raise .memDeviceLost (shedDomain k)
      (k + d * 0x100)
  match sh.copying with
  | some p => if dev = 12 then lost p else if m.active.getLsbD dev ∧ dev ≠ p then lost dev else s
  | none =>
    if !m.active.getLsbD dev then s
    else if dev < 12 ∧ !m.active.getLsbD 12 ∧ !m.failed.getLsbD 12 then s.modShed k (fun x => { x with copying := some dev, copyDone := 0 })
    else lost dev

/-- What a unit that passes its threshold brings at once (R499); an edge router has no entry in a status window and no core to halter, and keeps
forwarding (R96; DESIGN CHOICE, log entry 73). -/
def State.lasting (s : State) (u : FaultUnit) : State :=
  match u with
  | .core c => s.halter c 1 [] none
  | .router c => (s.modCore (coreNum c) (fun k => { k with routerFault := true })).halter c 1 [] none
  | .bankRow c bank row =>
    s.queueItem { s.item 2 ((s.engineOf c.yh).getD 0xFF) 1 with yh := c.yh, pcol := c.pcol, row := c.row, bank := bank, bankRow := row }
  | .edge _ => s
  | .lane port lane => s.modLink port (fun l => { l with faultOut := l.faultOut ++ [lane] })
  | .device k dev => s.deviceFault k dev
  | .hub => s

/-- An event is counted against a unit, which may pass its threshold. -/
def State.countFault (s : State) (u : FaultUnit) : State :=
  if s.counts u then
    let x := s.countEvent u
    if x.1 then x.2.lasting u else x.2
  else s

/-- A fault that is a transient compute fault of the command that names its core: replayed, unless its event made the core lasting
(R500, R504). -/
def State.computeFault (s : State) (c : PhysCore) (u : FaultUnit) : State :=
  let t := s.countFault u
  if !s.rel.passed.contains u ∧ t.rel.passed.contains u then t
  else
    match s.runsOn c with
    | some e => t.replay e
    | none => t

/-- The command whose flit a slot carried is replayed (R259, R273); a slot that carried none replays nothing. -/
def State.flitReplay (s : State) (eng : Option Nat) : State :=
  match eng with
  | some e => s.replay e
  | none => s

/-- A fault of a unit that no other command counts (R495, R497, R499). -/
def State.unitFault (s : State) (u : FaultUnit) (eng : Option Nat) : State :=
  match u with
  | .core c => s.computeFault c u
  | .router c => ((s.bump .half c.yh 16).countFault u).flitReplay eng
  | .hub => if s.hasStandby then s.takeOver else if s.hubs.standbyOk then s else s.loseHub
  | _ => s.countFault u

/-- FAULT_REPORT (R259, R273, R495, R497): `eng` is the engine whose command consumed the poisoned flit, where one did.  A SCHEDULED message that
fails parity is a poisoned flit; an EVENT message is dropped and repeated; each counts against its router (R259, R495). -/
def State.faultReport (s : State) (x : FaultEvent) (eng : Option Nat) : State :=
  match x with
  | .unit u => s.unitFault u eng
  | .edge n => ((s.bump .half (edgeHalf n) 16).countFault (.edge n)).flitReplay eng
  | .crossing tx rx => (s.slip tx rx).flitReplay eng
  | .control c true => ((s.bump .half c.yh 16).countFault (.router c)).flitReplay eng
  | .control c false => (s.bump .half c.yh 21).countFault (.router c)

def execFaultReport (event : FaultEvent) (eng : Option Nat) (s : State) : Out :=
  .next (if s.live then s.faultReport event eng else s)

end Sys2Proof.Machine
end

