-- ==== Sys2Proof/Machine/Power.lean ====
section
/-!
DEFINITION. Power-up and the module states: BOOT, READY, SAFE and PFAIL, MRST#, PFAIL#, rails, THERMTRIP# and the flushes
(chapter 20, R517, R528, R544 to R547, R560, R564).
-/
namespace Sys2Proof.Machine

/-! ## SAFE (R526, R528, R534) -/

/-- SAFE causes. -/
def scNoImage : Nat := 2
def scScratchpad : Nat := 3
def scRouter : Nat := 4
def scTrain : Nat := 5
def scMem : Nat := 6
def scRng : Nat := 7
def scYardLost : Nat := 8
def scTimeout : Nat := 9

/-- Every half unpowered. -/
def darkHalves (hs : Sparse Half) : Sparse Half := (upto 32).foldl (fun m d =>
  let h := sget Half.reset m d
  sset Half.reset m d { h with pstate := .off, curMhz := 0, waking := false, farrier := false }) hs

/-- Every yard, shed and edge die E1 to E5 is unpowered; commands there are gone without a record. -/
def State.dark (s : State) : State :=
  { s with
    engines := [], links := [], mem := { s.mem with data := [], bad := [] },
    mbx := { s.mbx with privs := [] },
    rel := { s.rel with windows := [], patches := [] },
    yards := { s.yards with
      clocks := Yards.reset.clocks, spad := [], bad := [], checks := [],
      halves := darkHalves s.yards.halves },
    per := { s.per with ports := smap DrivePort.reset (fun x => { x with waiting := [] }) s.per.ports } }

/-- ms since the release of MRST#, as PWR_BOOT_MS holds them. -/
def State.bootMs (s : State) : Nat := min (s.hclk / (1000 * hclkPerUs)) 2047

/-- The module enters SAFE. -/
def State.enterSafe (s : State) (cause step detail : Nat) : State :=
  let s1 := s.modPwr (fun p => { p with
    safeCause := cause, safeStep := step, safeDetail := detail, bootMs := if p.mod = .boot then s.bootMs else p.bootMs })
  let s2 := s1.raise .pwrSafe noDomain (cause + step * 0x100 + detail % 65536 * 0x10000)
  let s3 := ((s2.modPwr (fun p => { p with mod := .safe })).ringHost 8).inBand 2
  s3.dark.serveHead

/-! ## Power-up (R521 to R525) -/

/-- A step that fails: the state, the cause and DETAIL. -/
structure BootStop where
  st     : State
  cause  : Nat
  detail : Nat

/-- Bounds of the steps in ms (R521). -/
def stepBound (k : Nat) : Nat := [20, 350, 60, 10, 120, 1, 400, 10, 20].getD (k - 1) 0

/-- Alignment begins: CLK_STAT reads ALIGNING while a requested set is not empty (R265, R266). -/
def State.beginAlign (s : State) : State :=
  let mask := BitVec.ofNat 60 s.img.lockMask.toNat
  s.modClk (fun c => { c with req := mask, state := if mask = 0 then 0 else 1 })

/-- Step `k` begins; it takes its ms, and fails where they pass its bound or `late` names it. -/
def State.bootStep (s : State) (f : BootFacts) (late : Option Nat) (k : Nat) (run : State → Except BootStop State) :
    Except BootStop State :=
  let ms := f.stepMs.getD (k - 1) 0
  let past := decide (late = some k ∨ stepBound k < ms)
  let t := s.modPwr (fun p => { p with step := k })
  let t := if k = 6 then t.beginAlign else t
  let s1 := t.pass ((if past then stepBound k else ms) * 1000 * hclkPerUs)
  if past then .error ⟨s1, scTimeout, 0⟩ else run s1

/-- Step 1: the hubs check themselves (R522). -/
def State.boot1 (s : State) (f : BootFacts) : State :=
  let s1 := s.modHubs (fun h => { h with
    active := b2n f.h0Fails, h0Lost := f.h0Fails, h1Lost := f.h1Fails, standbyOk := !f.h0Fails && !f.h1Fails,
    gridStart := s.hclk, lastBeat := s.hclk })
  if f.h0Fails then s1.raise .relStandbyLost s1.hubDomain 0
  else if f.h1Fails then s1.raise .relStandbyLost s1.hubDomain 1
  else s1

/-- An event record as a flush holds it (R536, R547). -/
def readEvRec (b : Bytes) : EvRec :=
  ⟨fld b 0 2, fld b 2 1 % 4, (upto (fld b 3 1)).map (fun i => BitVec.ofNat 32 (fld b (0x20 + 4 * i) 4)), fld b 4 2, fld b 6 1, true,
    fld b 8 8, fld b 0x10 8, fld b 0x18 8, fld b 0x38 8⟩

/-- The previous-cycle view and the flush region that is due (R544, R547). -/
def State.loadPrev (s : State) : State :=
  let f0 := s.flushAt 0
  let f1 := s.flushAt 1
  let s1 := s.modEvr (fun v => { v with dueRegion := dueRegion f0 f1 })
  match newerFlush f0 f1 with
  | none => s1
  | some x => s1.modEvr (fun v => { v with
      prevValid := true, prevSeq := x.1, flushSeq := x.1, prev := (chunks 64 (x.2.length / 64) x.2).map readEvRec })

/-- A flush region is blank. -/
def State.flushBlank (s : State) (r : Nat) : Bool :=
  !s.flash.any (fun x => decide (flashFlush r ≤ x.1 ∧ x.1 < flashFlush r + flushBytes))

/-- Prephor erases the region that is due, if it is not blank (R547). -/
def State.eraseDue (s : State) : State :=
  if s.flushBlank s.evr.dueRegion then s else s.modEvr (fun v => { v with erasing := some v.dueRegion })

/-- The copy that runs: the valid one with the higher IMAGE_SEQ, copy A on a tie (R28). -/
def chooseCopy (a b : Except Nat Valid) : Option (Bool × Valid) :=
  match a, b with
  | .ok x, .ok y => if x.img.imageSeq < y.img.imageSeq then some (true, y) else some (false, x)
  | .ok x, .error _ => some (false, x)
  | .error _, .ok y => some (true, y)
  | .error _, .error _ => none

/-- The error code of a copy, 0 for none (R58, R59). -/
def copyErr : Except Nat Valid → Nat
  | .ok _ => 0
  | .error c => c

/-- Step 2: both images validated, one chosen, and the journal replayed over it (R28, R31, R33, R65). -/
def State.boot2 (s : State) (f : BootFacts) : Except BootStop State :=
  let s0 := (s.modPorts (fun p => { p with tapFull := false, tapReset := true, tapInstr := .idcode })).loadPrev
  let a := s0.validate false f.readErrorA
  let b := s0.validate true f.readErrorB
  let s1 : State := { s0 with hub := { s0.hub with aErr := copyErr a, bErr := copyErr b } }
  match chooseCopy a b with
  | none => .error ⟨{ s1 with hub := { s1.hub with noImage := true } }, scNoImage, copyErr a + copyErr b * 0x100⟩
  | some x =>
    let s2 : State := { s1 with
      img := x.2.img,
      hub := { s1.hub with
        copyB := x.1, factory := x.2.factory, custKey := (s1.keyRec.getD ⟨0, 0, (0, 0)⟩).key, loaded := true } }
    let s3 := s2.journalReplay.eraseDue
    .ok (s3.each (upto 21) (fun s e => s.modEng e (fun x => { x with windowStart := s.hclk })))

/-- Step 3: yards and stacked dies, halters and row repairs of TOPO, and the farrier's march (R41, R307, R523). -/
def State.boot3 (s : State) (f : BootFacts) : Except BootStop State :=
  match f.deadDie with
  | d :: _ => .error ⟨s, scScratchpad, d⟩
  | [] =>
    let s1 := s.each (upto 32) (fun s d => s.modHalf d (fun h => { h with
      pstate := .idle, rows := s.img.rows.filter (fun r => r.yh == d) }))
    let o := (upto 32).foldl (fun o d => o.half d none true f.rowFails) (MarchOut.start s1.applyHalters)
    .ok o.st

/-- The columns of a list of cores, each once. -/
def columnsOf (cs : List PhysCore) : List PhysCore :=
  cs.foldl (fun acc c => if acc.any (fun d => decide (d.yh = c.yh ∧ d.pcol = c.pcol)) then acc else acc ++ [c]) []

/-- The columns of failed routers are substituted, one after the other, each incoming column marched (R307, R312, R523). -/
def State.bootColumns (s : State) (found : List RowFail) : List PhysCore → Except BootStop State
  | [] => .ok s
  | c :: cs =>
    match s.substitute c.yh c.pcol with
    | none => .error ⟨s, scRouter, c.yh + c.pcol * 0x100⟩
    | some x => (s.takeColumn c.yh c.pcol x.1 x.2 found).bootColumns found cs

/-- Step 4: core logic BIST and router BIST (R523).  Columns outside USE are marked FAILED first (DEDUCED, log entry 21). -/
def State.boot4 (s : State) (f : BootFacts) : Except BootStop State :=
  let s1 := s.each (f.bistCore.filter (fun c => s.inUse c.yh c.pcol)) (fun s c => s.halter c 2 [] none)
  let s2 := s1.each f.bistRouter (fun s c => s.modCore (coreNum c) (fun k => { k with routerFault := true }))
  let cols := columnsOf f.bistRouter
  let s3 := s2.each (cols.filter (fun c => !s.inUse c.yh c.pcol)) (fun s c => s.markFailed c.yh c.pcol)
  s3.bootColumns f.rowFails (cols.filter (fun c => s.inUse c.yh c.pcol))

/-- A lane map with lane `old` out and `new` in. -/
def laneFor (m : BitVec 108) (old new : Nat) : BitVec 108 := (m &&& ~~~ BitVec.ofNat 108 (2 ^ old)) ||| BitVec.ofNat 108 (2 ^ new)

/-- A lane swap that has taken effect: the map, its patch, its event and its counter (R441, R463). -/
def State.swapLane (s : State) (port old new : Nat) : State :=
  let map := laneFor (s.link port).txMap old new
  let s1 := (s.modLink port (fun l => { l with txMap := map })).ownLane port map
  ((s1.bump .link port 1).raise .linkLaneSwap (49 + port) (port + old * 0x100 + new * 0x10000)).traceLink port 2 (toBytes 1 old ++ toBytes 1 new)

/-- A lane that failed training is replaced by the lowest working lane outside the map (R524). -/
def State.trainLane (s : State) (port : Nat) (bad : List Nat) (old : Nat) : State :=
  match (upto 108).find? (fun i => !(s.link port).txMap.getLsbD i && !bad.contains i) with
  | none => s
  | some i => s.swapLane port old i

/-- A port has no spare lane: its bit and its event (R441, R524). -/
def State.noSpareLane (s : State) (port : Nat) : State :=
  (s.modLink port (fun l => { l with noSpare := true })).raise .linkNoSpare (49 + port) port

/-- One Nolonlink port trains (R436, R524). -/
def State.trainPort (s : State) (f : BootFacts) (port : Nat) : State :=
  let map := sget 0 s.img.net.laneMaps port
  let bad := (f.laneFails.filter (fun x => x.1 == port)).map Prod.snd
  let s1 := s.setLink port { LinkPort.reset with txMap := map }
  if 12 < bad.length then s1.noSpareLane port
  else
    let s2 := s1.each (bad.filter (fun i => map.getLsbD i)) (fun s i => s.trainLane port bad i)
    match f.signal.find? (fun x => x.1 == port) with
    | some x => s2.modLink port (fun l => { l with st := .up, rxMap := x.2 })
    | none => s2.modLink port (fun l => { l with st := .noPeer })

/-- Step 5: seams, then the Nolonlink ports (R524). -/
def State.boot5 (s : State) (f : BootFacts) : Except BootStop State :=
  match f.seamTrain with
  | d :: _ => .error ⟨s, scTrain, d⟩
  | [] => .ok (s.each (upto 4) (fun s p => s.trainPort f p))

/-- Device `k` of shed `sh` is taken out and D12 in, recorded by a MEM patch with its event (R337, R525). -/
def State.spareDevice (s : State) (sh k : Nat) : State :=
  let m := s.shedRec sh
  let new : ShedRec := { m with
    active := (m.active &&& ~~~ BitVec.ofNat 13 (2 ^ k)) ||| BitVec.ofNat 13 (2 ^ 12), failed := m.failed ||| BitVec.ofNat 13 (2 ^ k) }
  (s.ownMem { s.img with sheds := sset ShedRec.reset s.img.sheds sh new }).raise .memDeviceSwap (shedDomain sh) (sh + k * 0x100)

/-- Devices that failed training (R525). -/
def State.bootDevices (s : State) (bad : List (Nat × Nat)) : List (Nat × Nat) → Except BootStop State
  | [] => .ok s
  | (sh, k) :: rest =>
    let m := s.shedRec sh
    if m.active.getLsbD k then
      if k < 12 ∧ !m.active.getLsbD 12 ∧ !m.failed.getLsbD 12 ∧ !bad.contains (sh, 12) then (s.spareDevice sh k).bootDevices bad rest
      else .error ⟨s, scMem, sh + k * 16⟩
    else if m.failed.getLsbD k then s.bootDevices bad rest
    else
      (s.ownMem { s.img with sheds := sset ShedRec.reset s.img.sheds sh { m with failed := m.failed ||| BitVec.ofNat 13 (2 ^ k) } }).bootDevices
        bad rest

/-- Step 7: GDDR6, every block of every slice zero with correct parity (R525). -/
def State.boot7 (s : State) (f : BootFacts) : Except BootStop State :=
  match s.bootDevices f.gddrFails f.gddrFails with
  | .error e => .error e
  | .ok s1 => .ok { s1 with mem := { s1.mem with data := [], bad := [] } }

/-- A failed known-answer test (R485). -/
def State.katFails (s : State) (hub test : Nat) : State :=
  ((s.modRngHub hub (fun h => { h with kat := true })).raise .rngKatFail (rngDomain hub) (hub + test * 0x100)).alarm hub

/-- Both sources of a hub start (R477). -/
def RngHub.startSources (h : RngHub) : RngHub :=
  { h with src0 := { NoiseSrc.reset with st := srcStarting }, src1 := { NoiseSrc.reset with st := srcStarting }, activeSrc := 0, switchTo := none }

/-- The hubs that are not lost. -/
def State.hubsUp (s : State) : List Nat := (if s.hubs.h0Lost then [] else [0]) ++ (if s.hubs.h1Lost then [] else [1])

/-- Step 8: known-answer tests, source start-up and the instantiate of every hub (R485, R489). -/
def State.boot8 (s : State) (f : BootFacts) : Except BootStop State :=
  let up := s.hubsUp
  let s1 := s.each up (fun s h => s.modRngHub h RngHub.startSources)
  let s2 := s1.each (f.katFails.filter (fun x => up.contains x.1)) (fun s x => s.katFails x.1 x.2)
  let s3 := s2.each (f.rngBlocks.filter (fun b => up.contains b.hub)) (fun s b => s.block b.hub b.src b.samples)
  let h := s3.rngActive
  if h.alarm && !h.seeded then .error ⟨s3, scRng, h.src0.st + h.src1.st * 4⟩
  else if !h.seeded then .error ⟨s3, scTimeout, 0⟩
  else .ok s3

/-- The RT queue of a standing program, pinned to slot 0 of its engine (R378, R379, R385). -/
def State.createRt (s : State) (p : PerProg) : State :=
  let r := (s.img.reservations.find? (fun r => r.prog == p.prog)).getD ⟨0, 0, 0, 0⟩
  let k := s.slotBase p.eng
  let q := 504 + p.prog
  let s1 := s.setQueue q { Queue.reset with
    st := .mapped, engine := p.eng, policy := 1, descLog2 := 6, pages := r.pages, share := r.share, slot := some k }
  (s1.setSlot k { Slot.reset with queue := some q, pinned := true, mappedAt := s.hclk }).modProg p.prog (fun x => { x with st := .disarmed })

/-- Page 255 goes to the lowest free frame of slice 63, read-only and with BAR2 set (R467). -/
def State.mapMessagePage (s : State) : State :=
  match s.freeFrame 63 with
  | none => s
  | some p => s.setXlat messagePage ⟨p, true, false, true, none⟩

/-- A half at READY: IDLE where an engine owns it, else OFF with its content lost (R297, R527). -/
def State.readyHalf (s : State) (d : Nat) : State :=
  if (s.engineOf d).isSome then s
  else (s.zeroHalf d).modHalf d (fun h => { h with pstate := .off, curMhz := 0 })

/-- Step 9: RT queues, base frames and READY; the requests that waited are served (R378, R467, R520, R527). -/
def State.boot9 (s : State) : State :=
  let s1 := (s.each s.img.progs (fun s p => s.createRt p)).mapMessagePage
  let s2 := s1.each ((upto 21).filter s1.present) (fun s e => s.modEng e (fun x => { x with
    st := .idle, windowStart := s.hclk - (s.hclk - x.windowStart) % 1048576 }))
  let s3 := s2.each (upto 32) (fun s d => s.readyHalf d)
  (s3.modPwr (fun p => { p with mod := .ready, bootMs := s3.bootMs })).holdPrograms.serveHead

/-- The nine steps (R521).  Step 6 never fails. -/
def State.bootAll (s : State) (f : BootFacts) (late : Option Nat) : Except BootStop State := do
  let s1 ← s.bootStep f late 1 (fun s => .ok (s.boot1 f))
  let s2 ← s1.bootStep f late 2 (fun s => s.boot2 f)
  let s3 ← s2.bootStep f late 3 (fun s => s.boot3 f)
  let s4 ← s3.bootStep f late 4 (fun s => s.boot4 f)
  let s5 ← s4.bootStep f late 5 (fun s => s.boot5 f)
  let s6 ← s5.bootStep f late 6 (fun s => .ok (s.align (BitVec.ofNat 60 s.img.lockMask.toNat) f.align))
  let s7 ← s6.bootStep f late 7 (fun s => s.boot7 f)
  let s8 ← s7.bootStep f late 8 (fun s => s.boot8 f)
  s8.bootStep f late 9 (fun s => .ok s.boot9)

/-- Power-up to READY or SAFE.  With both hubs failed the module answers nothing (R522). -/
def State.powerUp (s : State) (f : BootFacts) (late : Option Nat) : State :=
  if f.h0Fails ∧ f.h1Fails then s.modHubs (fun h => { h with h0Lost := true, h1Lost := true })
  else
    match s.bootAll f late with
    | .ok t => t
    | .error e => e.st.enterSafe e.cause e.st.pwr.step e.detail

/-- The module waits for the release of MRST# to act: nothing has run since reset. -/
def State.atReset (s : State) : Bool := s.pwr.mod == .boot && s.pwr.step == 1 && !s.hub.loaded && s.hubAlive

/-- POWER_UP (R521). -/
def execPowerUp (facts : BootFacts) (s : State) : Out := .next (if s.atReset then s.powerUp facts none else s)

/-- POWER_UP_STEP_TIMEOUT (R521): a power-up whose step `step` runs past its bound. -/
def execPowerUpStepTimeout (step : Nat) (facts : BootFacts) (s : State) : Out :=
  .next (if s.atReset ∧ 1 ≤ step ∧ step ≤ 9 then s.powerUp facts (some step) else s)

/-! ## MRST#, PFAIL#, rails and temperature (R529, R559, R560, R564) -/

/-- Pages of 4 records that flush `f` holds. -/
def Flush.pages (f : Flush) : Nat := (f.recs.length + 3) / 4

/-- Programs the first `n` pages of records of a flush, and no header (R544). -/
def State.programPages (s : State) (f : Flush) (n : Nat) : State :=
  s.program (flashFlush f.region + 0x100) ((f.recs.take (4 * n)).map EvRec.bytes).flatten

/-- µs of a page as the flash takes them, at most 150 (R458). -/
def pageTime (us : Nat) : Nat := if us = 0 then 1 else min us 150

/-- Pages of records that a flush programs when PFAIL# was accepted at hclk `t`: a page begins only if, at 150 µs, it ends by 1,650 µs (R546). -/
def Flush.pfailPages (f : Flush) (t us : Nat) : Nat :=
  min f.pages ((1500 * hclkPerUs + t - f.time) / (pageTime us * hclkPerUs) + 1)

/-- hclk at which such a flush has programmed its header. -/
def Flush.pfailEnd (f : Flush) (t us : Nat) : Nat := f.time + (f.pfailPages t us + 1) * pageTime us * hclkPerUs

/-- An erase that is cut off leaves its region open: whether a header stands there is a free value (log entry 74). -/
def State.cutErase (s : State) : State :=
  match s.evr.erasing with
  | none => s
  | some r =>
    let d := s.draw
    { d.2 with flash := swrite flashErased d.2.flash (flashFlush r) (toBytes 4 (d.1 % 2 ^ 32)) }.modEvr (fun v => { v with erasing := none, flushWaits := false })

/-- A flush that is cut off leaves the pages that it has programmed, and no header (R544, R560): under PFAIL# as its pages take their time, else any
number of them, a free value (log entry 74). -/
def State.cutFlush (s : State) : State :=
  match s.evr.flushing with
  | none => s
  | some f =>
    match s.evr.pfailUs with
    | some us => s.programPages f (min f.pages ((s.hclk - f.time) / (pageTime us * hclkPerUs)))
    | none => s.draw.2.programPages f (s.draw.1 % (f.pages + 1))

/-- The state after MRST#: everything at reset but the flash, the straps and what lies outside the module. -/
def State.mrst (s : State) : State :=
  let t := s.cutFlush.cutErase
  { State.reset with
    pending := s.pending, freeCtr := t.freeCtr, flash := t.flash,
    pwr := { Power.reset with grade := s.pwr.grade, testLow := s.pwr.testLow, i3cStraps := s.pwr.i3cStraps },
    ports := { Ports.reset with
      hostMem := s.ports.hostMem, hostFail := s.ports.hostFail, hostMute := s.ports.hostMute, msix := s.ports.msix, ibi := s.ports.ibi, sent := s.ports.sent,
      gptpOut := s.ports.gptpOut } }

/-- MRST_PULSE (R559): low for at least 1 µs. -/
def execMrstPulse (ns : Nat) (s : State) : Out := .next (if 1000 ≤ ns then s.mrst else s)

/-- The flush of PFAIL# becomes due (R546): an event flush that runs goes on under the bound, and an erase is abandoned and leaves no flush. -/
def State.pfailFlush (s : State) (pageUs : Nat) : State :=
  if s.evr.erasing.isSome then s.cutErase else s.modEvr (fun v => { v with pfailUs := some pageUs })

/-- PFAIL_ASSERT (R529): accepted after 1 µs low.  The flush, the kill at 100 µs and the dark at 200 µs come with time. -/
def execPfailAssert (ns pageUs : Nat) (s : State) : Out :=
  .next (if 1000 ≤ ns ∧ s.pwr.mod ≠ .pfail ∧ s.hubAlive then
      let s1 := s.raise .pwrPfail noDomain 0
      (s1.modPwr (fun p => { p with mod := .pfail, pfailAt := some s.hclk })).pfailFlush pageUs
    else s)

/-- The flush of PFAIL#: it begins 10 µs after the acceptance at hclk `t`, and ends with its header (R546). -/
def State.pfailWrite (s : State) (t : Nat) : State :=
  match s.evr.pfailUs, s.evr.flushing with
  | none, _ => s
  | some _, none =>
    if t + 10 * hclkPerUs ≤ s.hclk then s.modEvr (fun v => { v with flushing := some ⟨v.dueRegion, 2, s.hclk, flushOrder v.recs⟩ }) else s
  | some us, some f =>
    if f.pfailEnd t us ≤ s.hclk then (s.writeFlush f (4 * f.pfailPages t us)).modEvr (fun v => { v with pfailUs := none }) else s

/-- What PFAIL# brings as time passes (R529): its flush, running commands killed at 100 µs, yards and dies dark at 200 µs. -/
def State.pfailTick (s : State) : State :=
  match s.pwr.pfailAt with
  | none => s
  | some t =>
    let u := s.pfailWrite t
    if t + 200 * hclkPerUs ≤ s.hclk then u.dark
    else if t + 100 * hclkPerUs ≤ s.hclk then { u with engines := [] }
    else u

/-- A yard is lost (R517, R528). -/
def State.loseYard (s : State) (y : Nat) : State :=
  let s1 := (s.modRel (fun r => { r with yardLost := true, lostYard := y })).raise .relYardLost noDomain y
  s1.enterSafe scYardLost (if s.pwr.mod = .boot then s.pwr.step else 0) y

/-- The module's yards are powered and a hub tells of their loss. -/
def State.yardsUp (s : State) : Bool := (s.pwr.mod == .ready || s.pwr.mod == .boot) && s.hubAlive

/-- YARD_LOST (R517). -/
def execYardLost (yard : Nat) (s : State) : Out := .next (if s.yardsUp then s.loseYard yard else s)

/-- The yard of a rail (R556). -/
def Rail.yard : Rail → Option Nat
  | .vddY d => some (d / 2)
  | .vddSp d => some (d / 2)
  | .vddRt y => some y
  | .other => none

/-- RAIL_OUT_OF_BAND (R560): a yard is lost; any other rail without PFAIL# leaves the ratings. -/
def execRailOutOfBand (rail : Rail) (s : State) : Out :=
  match Rail.yard rail with
  | some y => .next (if s.yardsUp then s.loseYard y else s)
  | none => if s.pwr.mod = .pfail then .next s else .fault .outsideRatings

/-- THERMTRIP (R564): any die sensor at 125 °C or more; low until the next power-up. -/
def execThermtrip (tempC : Nat) (s : State) : Out :=
  .next (if 125 ≤ tempC then s.modPwr (fun p => { p with thermtrip := true }) else s)

/-! ## Flushes (R544, R545) -/

/-- FLUSH_END (R545): the flush ends, and the other region is erased while power stays up.  Under PFAIL# a flush ends with time (R546). -/
def execFlushEnd (s : State) : Out :=
  .next (match s.evr.flushing with
    | none => s
    | some f =>
      if s.pwr.mod = .pfail then s else
      let s1 := s.writeFlush f f.recs.length
      s1.modEvr (fun v => { v with erasing := some (1 - f.region) }))

/-- FLUSH_REGION_ERASED (R545, R547): the region is blank, and a flush that waited begins. -/
def execFlushRegionErased (s : State) : Out :=
  .next (match s.evr.erasing with
    | none => s
    | some r =>
      let s1 := (s.erase (flashFlush r) flushBytes).modEvr (fun v => { v with erasing := none, flushWaits := false })
      if s.evr.flushWaits then s1.startFlush else s1)

end Sys2Proof.Machine
end

