-- ==== Sys2Proof/Machine/Reread.lean ====
section
/-!
DEFINITION. Check re-reads and the commands that wait for them: what an error of a scratchpad word or of a block of device memory is taken for, and
how a command asks for the re-reads of what it has met (R292, R293, R330, R331).
-/
namespace Sys2Proof.Machine

/-- The command that consumed a faulty read is replayed. -/
def State.replayFor (s : State) (eng : Option Nat) : State :=
  match eng with
  | some e => s.replay e
  | none => s

/-! ## Scratchpads (R292, R293) -/

/-- The parity of a scratchpad word is as the re-read found it. -/
def State.spadParity (s : State) (core off : Nat) (wrong : Bool) : State :=
  let w := s.cell core off / 4
  s.modYards (fun y => { y with bad := if wrong then insertNat w y.bad else y.bad.filter (fun x => x != w) })

/-- A scratchpad error taken as stored: the counter, the event, and its bank row counted (R293). -/
def State.spadStored (s : State) (c : PhysCore) (bank word : Nat) : State :=
  let off := 0x8000 * bank + 4 * word
  (((s.spadParity (coreNum c) off true).bump .half c.yh 24).raise .spadParity c.yh (coreArg c + off * 2 ^ 32)).countFault
    (.bankRow c bank (word / 64))

/-- A transient error of the scratchpad read path: counted against the core, and its consumer replayed (R293, R495, R504). -/
def State.spadTransient (s : State) (c : PhysCore) (eng : Option Nat) : State :=
  let t := (s.bump .half c.yh 23).countFault (.core c)
  if (s.core (coreNum c)).halter.isNone ∧ (t.core (coreNum c)).halter.isSome ∧ s.runsOn c = eng then t else t.replayFor eng

/-! ## GDDR6 (R330, R331) -/

/-- The shed and the slice of a block. -/
def blockSlice (b : Nat) : Nat := b / 4096 % 192
def blockPage (b : Nat) : Nat := b / 4096

/-- The device that holds the position of a slice (R315, R316). -/
def State.deviceOf (s : State) (slice : Nat) : Nat :=
  let k := slice % 24 / 2
  if (s.shedRec (slice / 24)).active.getLsbD k then k else 12

/-- Every re-read and retry counts against the device (R331, R332, R495). -/
def State.countDevice (s : State) (b : Nat) : State :=
  s.countFault (.device (blockSlice b / 24) (s.deviceOf (blockSlice b)))

/-- A page with a stored error waits for retirement; without a free frame, or with 16 pages waiting, it stays in service (R333). -/
def State.retirePage (s : State) (page : Nat) : State :=
  let k := page % 192 / 24
  let x := s.shed k
  if x.retQueue.contains page ∨ (x.retBusy ∧ x.retOld = page) then s
  else if 16 ≤ x.retQueue.length ∨ (s.freeFrame (page % 192)).isNone then s.raise .memNoFrame (shedDomain k) page
  else s.modShed k (fun y => { y with retQueue := y.retQueue ++ [page] })

/-- The parity of words of a block is as the re-read found it. -/
def State.blockParity (s : State) (b : Nat) (wrong : List Nat) : State :=
  let rest := s.mem.bad.filter (fun w => w / 256 != b)
  { s with mem := { s.mem with bad := wrong.foldl (fun m w => insertNat (256 * b + w % 256) m) rest } }

/-- An error of a block taken as stored: the event and the retirement of its page (R331, R333). -/
def State.memStored (s : State) (b : Nat) (words : List Nat) (counter : Nat) : State :=
  let k := blockSlice b / 24
  let off := b % 4096 * 1024 + words.headD 0 % 256 * 4
  (((s.blockParity b words).bump .shed k counter).raise .memStoredErr (shedDomain k) (blockPage b + off * 2 ^ 32)).retirePage (blockPage b)

/-- An access of the command of engine `e` fails translation: the command ends (R327, R340). -/
def State.xlatEnd (s : State) (e : Nat) (c : Cmd) (va : Nat) (write : Bool) (cause : Nat) : State :=
  (s.xlatFault va write (agentOf e) cause).complete e c { status := stTranslation, faultAddr := va }

/-! ## Errors that found their queue full (R293, R331) -/

/-- The scratchpad errors that found their queue full are taken as stored. -/
def State.takeFullWords (s : State) : State :=
  (s.each s.yards.full (fun s w =>
    let off := 4 * w % spadBytes
    s.spadStored (physOf (4 * w / spadBytes)) (off / 0x8000) (off % 0x8000 / 4))).modYards (fun y => { y with full := [] })

/-- The errors of the blocks of shed `k` that found their queue full are taken as stored. -/
def State.takeFullBlocks (s : State) (k : Nat) : State :=
  (s.each (s.shed k).full (fun s b =>
    s.memStored b ((s.mem.bad.filter (fun w => w / 256 == b)).map (fun w => w % 256)) 6)).modShed k (fun x => { x with full := [] })

/-- All of them. -/
def State.takeFull (s : State) : State :=
  let s1 := if s.yards.full.isEmpty then s else s.takeFullWords
  s1.each (upto 8) (fun s k => if (s.shed k).full.isEmpty then s else s.takeFullBlocks k)

end Sys2Proof.Machine
end

