-- ==== Sys2Proof/Machine/Annealing.lean ====
section
/-!
DEFINITION. ANNEAL, SNAPSHOT and RESUME (R174 to R185): the paddock read from and written to the cores, the context areas, the result record
and the snapshot.
-/
namespace Sys2Proof.Machine

/-! ## The paddock and the cores -/

/-- The signed values of `n` mantissas of `w` bits in a store, lowest first. -/
def mantissas (w n v : Nat) : List Int := (upto n).map (fun k => signed w (v / 2 ^ (w * k)))

/-- A list cut into `n` runs of `k`. -/
def runsOf {α : Type} (k : Nat) : Nat → List α → List (List α)
  | 0, _ => []
  | n + 1, xs => xs.take k :: runsOf k n (xs.drop k)

/-- The couplings of a spin block, by spin and direction (R153). -/
def SpinBlock.coups (b : SpinBlock) : List (List Int) := runsOf 8 256 (mantissas 12 2048 b.coup.toNat)

/-- The fields of a spin block. -/
def SpinBlock.fields (b : SpinBlock) : List Int := mantissas 16 256 b.field.toNat

/-- A core of the paddock before a run (R163, R171); `idle` lists the logical cores that take no part in it although they have no halter. -/
def State.aCore (s : State) (r : Rect) (lockstep : Bool) (halves idle : List Nat) (i idx : Nat) : ACore :=
  let p := s.coreAt idx
  let c := s.core (coreNum p)
  let u := i % r.w
  let v := i / r.w
  let place (d : Nat) : Option Nat :=
    let u1 := Int.ofNat u + dirCol d
    let v1 := Int.ofNat v + dirRow d
    if 0 ≤ u1 ∧ u1 < Int.ofNat r.w ∧ 0 ≤ v1 ∧ v1 < Int.ofNat r.h then some (v1.toNat * r.w + u1.toNat) else none
  { num := coreNum p, idx := idx, half := p.yh, grp := if lockstep then 0 else halves.idxOf p.yh,
    odd := (r.x + u + r.y + v) % 2 == 1, halted := c.halter.isSome || idle.contains idx, idle := c.halter.isNone && idle.contains idx,
    downAt := none, stopAt := none, nbs := (upto 8).map place,
    coup := c.spin.coups, field := c.spin.fields, exp := c.spin.exp, plane := c.spin.plane, best := c.spin.best, dE := c.spin.dE,
    bnd := c.spin.boundary, gen := [1, 2, 3].map (sget GenPos.reset c.gen), betaC := 0, base := c.spin.plane, ends := [],
    ctxPlane := c.spin.plane, ctxGen := [1, 2, 3].map (sget GenPos.reset c.gen), ctxAt := none }

/-- The paddock of a rectangle of engine `e` before a run. -/
def State.pad (s : State) (e : Nat) (r : Rect) (idle : List Nat) : Pad :=
  let ls := s.engAligned e
  let idx := r.idx s
  let halves := dedup (idx.map (fun i => (s.coreAt i).yh))
  { cores := (indexed idx).map (fun x => s.aCore r ls halves idle x.1 x.2), flits := [],
    tau := if ls then [0] else halves.map (fun _ => 0), reads := [], late := [], flips := 0, counts := [], free := s.freeCtr, downs := [] }

/-- The paddock with every core's generator at one position (R82, R200). -/
def Pad.seeded (a : Pad) (seq : Nat) : Pad :=
  { a with cores := a.cores.map (fun (c : ACore) => { c with gen := [⟨seq, 0⟩, ⟨seq, 0⟩, ⟨seq, 0⟩] }) }

/-- The flits in flight to core `i` by their arrival, the delay counted from yclk `t` of the entry, a free value on an asynchronous crossing
(R182; log entry 1). -/
def Pad.pending (a : Pad) (t i : Nat) : List Pending :=
  let xs := ((a.flits.zipIdx).filter (fun x => x.1.dest == i)).map (fun (x : AFlit × Nat) =>
    (⟨x.1.dir, (match x.1.due with
      | some d => d - t
      | none => Config.freeValue (a.free + x.2) % 256), x.1.spins⟩ : Pending))
  xs.mergeSort (fun x y => decide (x.delay ≤ y.delay))

/-- The cores hold the paddock again; `t` is the yclk of the entry at which it stopped. -/
def State.putPad (s : State) (a : Pad) (t : Nat) : State :=
  let s1 := s.each (indexed a.cores) (fun s x =>
    s.modCore x.2.num (fun c => { c with
      spin := { c.spin with plane := x.2.plane, best := x.2.best, dE := x.2.dE, boundary := x.2.bnd, pend := a.pending t x.1 },
      gen := ((x.2.gen).zipIdx 1).foldl (fun m g => sset GenPos.reset m g.2 g.1) c.gen }))
  { s1 with freeCtr := a.free + a.flits.length }

/-- The counters of a run (R185): flips, stays, and timing-dependent flips as TDC in free mode or SEAM_STALE in lockstep. -/
def State.countPad (s : State) (a : Pad) (lockstep : Bool) : State :=
  s.each a.counts (fun s x =>
    let kind := x.1 % 4
    s.bumpBy .half (x.1 / 4) (if kind = 0 then 9 else if kind = 1 then 10 else if lockstep then 12 else 11) x.2)

/-! ## Context areas and result records (R177, R179) -/

/-- A context area (R179). -/
def ctxBytes (c : ACore) (state entry phase : Nat) : Bytes :=
  toBytes 32 c.ctxPlane.toNat ++ (c.ctxGen.map (fun g => toBytes 8 g.seq)).flatten ++ (c.ctxGen.map (fun g => toBytes 1 g.bits)).flatten ++
    toBytes 1 state ++ toBytes 4 entry ++ toBytes 8 phase ++ zeros 56

/-- The entry and the next phase of a core's context area: after a kill, that of the yclk in which the kill reached the core, the entry having
begun at phase `n0` (R178, R179). -/
def ACore.nextPhase (p n0 phase : Nat) (c : ACore) : Nat :=
  match c.stopAt with
  | some t => n0 + t / p
  | none => phase

/-- Every core that runs writes its context area; one that a halter has fenced during the run leaves what it wrote at the start of its last entry
(R94, R179). -/
def State.writeCtx (s : State) (off p : Nat) (a : Pad) (state entry n0 phase : Nat) : State :=
  s.each a.cores (fun s c =>
    if !c.halted then s.spadWrite c.num off (ctxBytes c state entry (c.nextPhase p n0 phase))
    else
      match c.ctxAt with
      | some x => s.spadWrite c.num off (ctxBytes c 0 x.1 x.2)
      | none => s)

/-- A result record (R177). -/
def AnnealRun.bytes (r : AnnealRun) : Bytes :=
  toBytes 8 (unsigned 64 r.bestE) ++ toBytes 1 r.eExp ++ toBytes 1 r.bestEntry ++ toBytes 1 r.state ++ zeros 1 ++ toBytes 4 r.entriesDone ++
    toBytes 8 (unsigned 64 r.lastE) ++ toBytes 8 r.flips ++ toBytes 8 r.stays ++ toBytes 8 r.tdc ++ toBytes 8 r.stale ++ toBytes 8 r.phasesDone

/-- The energy that says "no entry completed" (R177), and E_best before any capture (R175). -/
def noEnergy : Int := -(2 ^ 63)
def topEnergy : Int := 2 ^ 63 - 1

/-! ## A run (R175 to R179) -/

/-- What an ANNEAL or RESUME runs: its record at the start, the entries left, the first of them, its first phase and whether it is still to be
prepared, and the paddock. -/
structure AJob where
  base  : AnnealRun
  left  : List Restart
  first : Nat
  n0    : Nat
  fresh : Bool
  pad   : Pad
  deriving DecidableEq, Repr

/-- Phases of a list of entries. -/
def phasesOf (xs : List Restart) : Nat := (xs.map Restart.phases).foldl (· + ·) 0

/-- Haltered cores of a paddock. -/
def Pad.haltedCount (a : Pad) : Nat := (a.cores.filter (fun (c : ACore) => c.halted && !c.idle)).length

/-- The job of an ANNEAL (R175). -/
def State.annealJob (s : State) (e seed : Nat) (a : Bytes) (idle : List Nat) : AJob :=
  let t := s.devBytes (acTable a) (16 * acEntries a)
  let p := (s.pad e (acRect a) idle).seeded 0
  let xf := finest (s.padExps (acRect a |>.idx s))
  let best := if acKeep a then signed 64 (fld (s.devBytes (acResult a) 64) 0 8) else topEnergy
  { base := ⟨seed, a, t, best, xf, 0xFF, 0, 0, 0, 0, noEnergy, 0, 0, 0, 0, !s.engAligned e, p.haltedCount⟩,
    left := restarts t (acEntries a), first := 0, n0 := 0, fresh := true, pad := if acKeep a then p else p.capture }

/-- Where a job ends by itself: with its last entry, or at STOP_PHASES phases of the command (R178). -/
def AJob.limit (j : AJob) : Limit :=
  let all := j.n0 + phasesOf j.left
  let stop := j.base.phase + acStop j.base.acb
  if acStop j.base.acb = 0 ∨ all < stop then ⟨all, true, none⟩ else ⟨stop, false, none⟩

/-- A run of a job to a limit, with the halters that are set during it. -/
def AJob.run (j : AJob) (lockstep : Bool) (lim : Limit) (downs : List (Nat × Nat × Nat)) : ARun :=
  let a := j.base.acb
  ARun.entriesRun ⟨j.base.seed, acP a, acF a, acStay a, lockstep⟩ j.base.eExp lim j.left j.first j.n0 j.fresh
    ⟨{ j.pad with downs := downs }, j.base.bestE, j.base.bestEntry, j.base.lastE, j.base.entriesDone, j.base.phase, 0, 0⟩

/-- The record after a run. -/
def AJob.after (j : AJob) (r : ARun) : AnnealRun :=
  let late := r.pad.total 2
  { j.base with
    bestE := r.bestE, bestEntry := r.bestEntry, lastE := r.lastE, entriesDone := r.entries, phase := r.phase, state := r.state,
    halted := r.pad.haltedCount, phasesDone := j.base.phasesDone + (r.phase - j.base.phase), flips := j.base.flips + r.pad.total 0, stays := j.base.stays + r.pad.total 1,
    tdc := j.base.tdc + if j.base.free then late else 0, stale := j.base.stale + if j.base.free then 0 else late }

/-- The entry in which a run ended, and its first phase. -/
def AJob.endEntry (j : AJob) (r : ARun) : Nat × Nat :=
  let k := min (r.entries - j.base.entriesDone) (j.left.length - 1)
  (j.first + k, j.n0 + phasesOf (j.left.take k))

/-- The engine keeps the record of a run as the last one of its paddock (R180). -/
def State.keepRun (s : State) (e : Nat) (r : AnnealRun) : State :=
  s.modEng e (fun x => { x with anneal := r :: x.anneal.filter (fun y => decide (acRect y.acb ≠ acRect r.acb)) })

/-- The effects of a run on everything but its command, and the failed access where its result record meets one (R177 to R179, R185, R327). -/
def State.applyRun (s : State) (e : Nat) (j : AJob) (r : ARun) : State × Option (Nat × Nat) :=
  let a := j.base.acb
  let done := j.after r
  let at_ := j.endEntry r
  let s1 := (s.putPad r.pad ((r.phase - at_.2) * acP a)).writeCtx (acCtx a) (acP a) r.pad r.state at_.1 at_.2
    (if r.state = 0 then at_.2 else r.phase)
  let s2 := ((s1.countPad r.pad (!j.base.free)).bumpBy .engine e 12 r.captures).keepRun e done
  if r.state = 2 then (s2, none) else s2.writeUpTo (acResult a) done.bytes

/-- The record of the current command after its run ended (R178, R368): the yclk of a run that did not end by itself are those that
passed (log entry 1). -/
def State.completeRun (s : State) (e : Nat) (c : Cmd) (flagged whole : Bool) : State :=
  let now := ((s.eng e).cur.map Cmd.replayed).getD c.replayed
  s.complete e { c with replayed := now }
    { status := endStatus false flagged now, yclk := if whole then soLedger c.sched.header else s.ranYclk e c }

/-! ## Snapshots (R181, R182) -/

/-- The flits in flight that a record has room for: the last of every direction first, and then those that arrive last (R184; DEDUCED, log entry 27).
In an exact paddock a core makes no step between two flits of one direction, so that its last one decides. -/
def keepEight (ps : List Pending) : List Pending :=
  let later (x : Pending × Nat) : Nat := ((ps.drop (x.2 + 1)).filter (fun p => p.dir == x.1.dir)).length
  let best := (ps.zipIdx.mergeSort (fun x y => decide (later x < later y ∨ later x = later y ∧ y.2 ≤ x.2))).take 8
  (best.mergeSort (fun x y => decide (x.2 ≤ y.2))).map Prod.fst

/-- A core record (R182); it has room for eight of the flits in flight. -/
def coreRecord (c : Core) : Bytes :=
  let g := [1, 2, 3].map (sget GenPos.reset c.gen)
  let b := c.spin
  let ps := keepEight b.pend
  let pend := (ps.map (fun p => toBytes 1 p.dir ++ toBytes 1 p.delay ++ zeros 2 ++ toBytes 4 p.spins)).flatten
  let unused := (List.replicate (8 - ps.length) (toBytes 1 0xFF ++ zeros 7)).flatten
  toBytes 32 b.plane.toNat ++ toBytes 32 b.best.toNat ++ toBytes 512 b.field.toNat ++ toBytes 3072 b.coup.toNat ++ toBytes 1 b.exp ++
    toBytes 1 (b2n c.halter.isSome) ++ zeros 6 ++ (g.map (fun x => toBytes 8 x.seq)).flatten ++ (g.map (fun x => toBytes 1 x.bits)).flatten ++
    zeros 13 ++ toBytes 9 b.boundary.toNat ++ zeros 7 ++ pend ++ unused ++ zeros 320

/-- A core with a record loaded (R183). -/
def Core.load (c : Core) (r : Bytes) : Core :=
  let pend := ((upto 8).map (fun i => (⟨fld r (0xE80 + 8 * i) 1, fld r (0xE81 + 8 * i) 1, fld r (0xE84 + 8 * i) 4⟩ : Pending))).filter
    (fun p => decide (p.dir < 8))
  { c with
    spin := { c.spin with
      plane := BitVec.ofNat 256 (fld r 0 32), best := BitVec.ofNat 256 (fld r 0x20 32), field := BitVec.ofNat 4096 (fld r 0x40 512),
      coup := BitVec.ofNat 24576 (fld r 0x240 3072), exp := fld r 0xE40 1 % 32, boundary := BitVec.ofNat 68 (fld r 0xE70 9), pend := pend },
    gen := (upto 3).foldl (fun m i => sset GenPos.reset m (i + 1) ⟨fld r (0xE48 + 8 * i) 8, fld r (0xE60 + i) 1⟩) c.gen }

/-- The header of a snapshot (R181). -/
def snapHeader (grade : Nat) (r : AnnealRun) : Bytes :=
  toBytes 4 0x4E535053 ++ toBytes 1 grade ++ toBytes 1 (b2n r.free) ++ toBytes 1 r.state ++ zeros 1 ++ toBytes 8 r.seed ++ r.acb.take 64 ++
    toBytes 8 (unsigned 64 r.bestE) ++ toBytes 1 r.eExp ++ toBytes 1 r.bestEntry ++ zeros 2 ++ toBytes 4 r.entriesDone ++ toBytes 8 r.phase ++
    toBytes 8 r.phasesDone ++ toBytes 8 r.flips ++ toBytes 8 r.stays ++ toBytes 8 r.tdc ++ toBytes 8 r.stale ++ toBytes 4 r.halted ++ zeros 108 ++
    r.table ++ zeros (1024 - r.table.length) ++ zeros 2816

/-- The run record that SNAPSHOT writes for a paddock: of the last ANNEAL or RESUME of the engine on that paddock, free values where none has run
(R180; log entries 1 and 54). -/
def State.snapRun (s : State) (e : Nat) (a : Bytes) : AnnealRun × State :=
  let f (k : Nat) : Nat := Config.freeValue (s.freeCtr + k)
  let fresh : AnnealRun := ⟨f 0 % 2 ^ 64, a, toBytes 1024 (f 1), f 2, f 3 % 32, f 4 % 256, f 5 % 256, f 6, f 7, f 8, 0, f 9, f 10, f 11, f 12,
    f 13 % 2 == 1, f 14⟩
  match (s.eng e).anneal.find? (fun r => decide (acRect r.acb = acRect a)) with
  | some r => (r, s)
  | none => (fresh, { s with freeCtr := s.freeCtr + 15 })

/-- SNAPSHOT writes its area, up to the first access that fails translation (R180 to R182, R327); a core that its start marker reached too early
writes no record (R86). -/
def State.writeSnapshot (s : State) (e : Nat) (a : Bytes) (idle : List Nat) : State × Option (Nat × Nat) :=
  let r := s.snapRun e a
  let recs := ((indexed ((acRect a).idx s)).filter (fun x => !idle.contains x.2)).map (fun x =>
    (acSnap a + 4096 * (1 + x.1), coreRecord (s.core (coreNum (s.coreAt x.2)))))
  r.2.writeRuns ((acSnap a, snapHeader s.pwr.grade r.1) :: recs)

/-! ## RESUME (R183) -/

/-- The record that a snapshot's header holds.  It holds no energy of the last entry, so LAST_E stands at "none" until an entry of the RESUME is
complete (DESIGN CHOICE, log entry 54). -/
def snapRec (h a t : Bytes) (free : Bool) (halted : Nat) : AnnealRun :=
  ⟨fld h 8 8, a, t, signed 64 (fld h 0x50 8), fld h 0x58 1, fld h 0x59 1, fld h 6 1, fld h 0x5C 4, fld h 0x60 8, fld h 0x68 8, noEnergy,
    fld h 0x70 8, fld h 0x78 8, fld h 0x80 8, fld h 0x88 8, free, halted⟩

/-- The core records of a snapshot: the logical core and where its record stands. -/
def State.snapRecords (s : State) (a : Bytes) : List (Nat × Nat) :=
  (indexed ((acRect a).idx s)).map (fun x => (x.2, acSnap a + 4096 * (1 + x.1)))

/-- The core records are loaded by the cores that take part. -/
def State.loadRecords (s : State) (a : Bytes) (idle : List Nat) : State :=
  s.each ((s.snapRecords a).filter (fun x => !idle.contains x.1)) (fun s x =>
    s.modCore (coreNum (s.coreAt x.1)) (fun c => c.load (s.devBytes x.2 4096)))

/-- Where the context areas of the run that a snapshot holds lie: the CTX_OFF of its control block (R179, R183; DEDUCED, log entry 54). -/
def snapCtx (h a : Bytes) : Nat :=
  let off := acCtx ((h.drop 0x10).take 64)
  if off + 128 ≤ spadBytes then off else acCtx a

/-- A core as RESUME takes it up in phase `phase` of an entry that began at phase `n0`: ΔE in full, the end of its last active phase, and the
start of the entry from its context area (R159, R168, R179). -/
def State.takeUp (s : State) (ctx n0 phase : Nat) (x : Restart) (c : ACore) : ACore :=
  let k := lastPhase n0 phase c.odd
  let b := s.spadRead c.num ctx 64
  { c.recompute with
    betaC := betaCore x.beta c.exp, ends := if k = 0 then [] else [(k - 1, c.plane)], ctxPlane := BitVec.ofNat 256 (fld b 0 32),
    ctxGen := (upto 3).map (fun i => ⟨fld b (0x20 + 8 * i) 8, fld b (0x38 + i) 1⟩) }

/-- The paddock as RESUME takes it up in an entry, the flits in flight at their delays (R183). -/
def State.resumePad (s : State) (e n0 phase : Nat) (x : Restart) (h a : Bytes) (idle : List Nat) : Pad :=
  let p := s.pad e (acRect a) idle
  let t := (phase - n0) * acP a
  let flits := (indexed p.cores).flatMap (fun y =>
    (s.core y.2.num).spin.pend.map (fun q =>
      let src := (y.2.nbs.getD q.dir none).getD y.1
      (⟨y.1, q.dir, some (t + q.delay), q.spins, src, phase - 1⟩ : AFlit)))
  { p with flits := flits, tau := p.tau.map (fun _ => t), cores := p.cores.map (s.takeUp (snapCtx h a) n0 phase x) }

/-- The job of a RESUME, its records loaded. -/
def State.resumeJob (s : State) (e : Nat) (a : Bytes) (idle : List Nat) : AJob :=
  let h := s.devBytes (acSnap a) 4096
  let t := s.devBytes (acTable a) (16 * acEntries a)
  let xs := restarts t (acEntries a)
  let i := fld h 0x5C 4
  let n0 := phasesOf (xs.take i)
  let p := s.resumePad e n0 (fld h 0x60 8) (xs.getD i ⟨0, 0, 0, 0⟩) h a idle
  ⟨snapRec h a t (!s.engAligned e) p.haltedCount, xs.drop i, i, n0, false, p⟩

/-! ## What a run reads (R292, R327, R330) -/

/-- The ranges of device memory that an ANNEAL or RESUME reads as it runs. -/
def State.annealReads (s : State) (c : Cmd) : List (Nat × Nat) :=
  let a := s.ctrlOf c.sched.header
  (acTable a, 16 * acEntries a) ::
    (if dOp c.desc = opResume then (acSnap a, 4096) :: (s.snapRecords a).map (fun x => (x.2, 4096))
     else if acKeep a then [(acResult a, 64)] else [])

/-- The scratchpad words of wrong parity that a RESUME meets in the context areas. -/
def State.annealWords (s : State) (c : Cmd) : List (Nat × Nat) :=
  let a := s.ctrlOf c.sched.header
  if dOp c.desc = opResume then
    ((acRect a).idx s).flatMap (fun i => s.badWords (coreNum (s.coreAt i)) (snapCtx (s.devBytes (acSnap a) 4096) a) 64)
  else []

/-- A range of device memory holds a void word. -/
def State.voidRange (s : State) (x : Nat × Nat) : Bool := (s.devRead x.1 x.2).voids.any id

/-- The logical cores that take no part although they have no halter: the start marker came early (R86), or a word of the core record is void (R92,
R331; DEDUCED, log entry 54). -/
def State.idleCores (s : State) (c : Cmd) : List Nat :=
  c.early ++
    (if dOp c.desc = opResume then ((s.snapRecords (s.ctrlOf c.sched.header)).filter (fun x => s.voidRange (x.2, 0xEC0))).map Prod.fst else [])

/-! ## Compute faults during a run (R94, R500, R504) -/

/-- A run that meets compute faults: the state with their counts, the halters they have set so far, and the replays. -/
structure AnnealFaced where
  st      : State
  downs   : List AnnealFault
  replays : Nat

/-- One fault: one whose event makes its core lasting halters it from then on, with no replay; any other replays the command from the start of its
entry (R94, R179, R504). -/
def AnnealFaced.face (a : AnnealFaced) (f : AnnealFault) : AnnealFaced :=
  let c := a.st.coreAt f.core
  let t := a.st.countFault (.core c)
  if (a.st.core (coreNum c)).halter.isNone ∧ (t.core (coreNum c)).halter.isSome then ⟨t, a.downs ++ [f], a.replays⟩
  else ⟨t, a.downs.map (fun d => if d.entry = f.entry ∧ d.visit = f.visit then { d with at_ := 0 } else d), a.replays + 1⟩

/-- The faults of the cores of a rectangle. -/
def State.annealFaced (s : State) (r : Rect) (fs : List AnnealFault) : AnnealFaced :=
  (fs.filter (fun f => (r.idx s).contains f.core)).foldl AnnealFaced.face ⟨s, [], 0⟩

/-- The halters of a run as the paddock takes them. -/
def AnnealFaced.pad (a : AnnealFaced) : List (Nat × Nat × Nat) := a.downs.map (fun d => (d.entry, d.core, d.at_))

/-- The state after the faults of a run, its replays counted. -/
def AnnealFaced.counted (a : AnnealFaced) (e : Nat) : State := a.st.each (upto a.replays) (fun s _ => s.replay e)

/-! ## ANNEAL and RESUME -/

/-- The job of the ANNEAL or RESUME that runs on engine `e`, and the state its job starts from: a RESUME has loaded its records. -/
def State.jobOf (s : State) (e : Nat) (c : Cmd) : AJob × State :=
  let a := s.ctrlOf c.sched.header
  let idle := s.idleCores c
  if dOp c.desc = opResume then
    let s1 := s.loadRecords a idle
    (s1.resumeJob e a idle, s1)
  else (s.annealJob e c.seed a idle, s)

/-- An ANNEAL or RESUME that has run: its run, the state, and the failed access of its result record. -/
structure AnnealEnd where
  run  : ARun
  st   : State
  fail : Option (Nat × Nat)

/-- The ANNEAL or RESUME on engine `e` runs to the end, to a stop after `units` phases of its own, or to a kill, and meets compute faults. -/
def State.runAnneal (s : State) (e : Nat) (c : Cmd) (stop : Option Nat) (kill : Option Progress) (fs : List AnnealFault) : AnnealEnd :=
  let j := s.jobOf e c
  let own := j.1.limit
  let lim : Limit := match kill, stop with
    | some p, _ => ⟨j.1.base.phase + p.units, false, some ⟨p.steps, p.reach, p.ledger⟩⟩
    | none, some u => if own.phase < j.1.base.phase + u then own else ⟨j.1.base.phase + u, false, none⟩
    | none, none => own
  let d := j.2.annealFaced (acRect j.1.base.acb) fs
  let r := j.1.run (j.2.engAligned e) lim d.pad
  let t := (d.counted e).applyRun e j.1 r
  ⟨r, t.1, t.2⟩

/-- A restored run that was complete completes at once (R183). -/
def State.restoreWhole (s : State) (e : Nat) (c : Cmd) (flagged : Bool) : State :=
  let a := s.ctrlOf c.sched.header
  let idle := s.idleCores c
  let s1 := s.loadRecords a idle
  let h := s.devBytes (acSnap a) 4096
  let p := s1.pad e (acRect a) idle
  let r := snapRec h a (s.devBytes (acTable a) (16 * acEntries a)) (!s.engAligned e) p.haltedCount
  let w := (s1.keepRun e r).writeUpTo (acResult a) r.bytes
  match w.2 with
  | some f => w.1.xlatEnd e c f.1 true f.2
  | none => w.1.completeRun e c (flagged || p.haltedCount != 0) false

/-- The ANNEAL or RESUME on engine `e`, what it reads known, ends by itself or at a stop (R178). -/
def State.finishAnneal (s : State) (e : Nat) (c : Cmd) (stop : Option Nat) (fs : List AnnealFault) (flagged : Bool) : State :=
  if dOp c.desc = opResume ∧ fld (s.devBytes (acSnap (s.ctrlOf c.sched.header)) 4096) 6 1 = 0 then s.restoreWhole e c flagged
  else
    let r := s.runAnneal e c stop none fs
    match r.fail with
    | some f => r.st.xlatEnd e c f.1 true f.2
    | none => r.st.completeRun e c (flagged || r.run.pad.haltedCount != 0) (r.run.state = 0)

/-- The ANNEAL or RESUME on engine `e` ends by itself or at a stop, once the re-reads of what it meets have run (R178, R292, R327, R330). -/
def State.endAnneal (s : State) (e : Nat) (c : Cmd) (stop : Option Nat) (fs : List AnnealFault) : State :=
  let rs := s.annealReads c
  let words := s.annealWords c
  match rs.findSome? (fun x => s.firstFail x.1 x.2 false false) with
  | some f => s.xlatEnd e c f.1 false f.2
  | none => (s.takeChecks e c words (rs.flatMap (fun x => s.devBad x.1 x.2))).getD
      (s.finishAnneal e c stop fs (!words.isEmpty || rs.any s.voidRange))

/-- A command that was told to drain before it started stops after its first phase or visit (R178, R389). -/
def Cmd.firstStop (c : Cmd) : Option Nat := if c.draining then some 1 else none

/-- ANNEAL (R158 to R179), and the transient compute faults that it meets (R94). -/
def execAnneal (eng : Nat) (faults : List AnnealFault) (s : State) : Out :=
  .next (match s.running eng opAnneal with
    | some c => s.endAnneal eng c c.firstStop faults
    | none => s)

/-- RESUME (R183). -/
def execResume (eng : Nat) (faults : List AnnealFault) (s : State) : Out :=
  .next (match s.running eng opResume with
    | some c => s.endAnneal eng c c.firstStop faults
    | none => s)

end Sys2Proof.Machine
end

