-- ==== Sys2Proof/Machine/Move.lean ====
section
/-! DEFINITION. MOVE with COPY (R365) and the host reads that never complete (R433). -/
namespace Sys2Proof.Machine

/-- The data of `n` bytes of a COPY's source from byte `o` on, and their voids (R293, R331). -/
def State.copyData (s : State) (d : Bytes) (o n : Nat) : Read :=
  let a := copySrc d + o
  if copySrcSpace d = 0 then s.devRead a n
  else if copySrcSpace d = 1 then ⟨sread 0 s.ports.hostMem a n, List.replicate n false⟩
  else
    let k := coreNum (s.coreAt (spCore a))
    ⟨s.spadRead k (spOff a) n, s.spadVoids k (spOff a) n⟩

/-- The scratchpad words and the blocks of wrong parity that `n` bytes of a COPY from byte `o` on meet (R292, R330). -/
def State.copyMet (s : State) (d : Bytes) (o n : Nat) : List (Nat × Nat) × List Nat :=
  let a := copySrc d + o
  if copySrcSpace d = 0 then ([], s.devBad a n)
  else if copySrcSpace d = 2 then (s.badWords (coreNum (s.coreAt (spCore a))) (spOff a) n, [])
  else ([], [])

/-- The destination of a COPY takes data from byte `o` on: a copy of a void word keeps a parity error (R293, R331). -/
def State.copyWrites (s : State) (d : Bytes) (o : Nat) (r : Read) : State :=
  let a := copyDst d + o
  if copyDstSpace d = 0 then (s.devWrite a r.data).devSpoil a r.voids
  else if copyDstSpace d = 1 then s.hostWrite a r.data
  else
    let k := coreNum (s.coreAt (spCore a))
    (s.spadWrite k (spOff a) r.data).spadSpoil k (spOff a) r.voids

/-- Units of a COPY's first `n` bytes that conveyor waves have not carried before. -/
def Cmd.toCarry (c : Cmd) (n : Nat) : Nat := n / 16 - c.carried

/-- The first `n` bytes of a COPY, and the waves that carry them (R249, R262, R365). -/
def State.copyPart (s : State) (e : Nat) (c : Cmd) (n : Nat) : State :=
  let d := c.desc
  let s1 := if copySrcSpace d = 2 then s.bumpBy .shed (e - 8) 1 (c.toCarry n) else s
  let s2 := if copyDstSpace d = 2 then s1.bumpBy .shed (e - 8) 0 (c.toCarry n) else s1
  s2.copyWrites d 0 (s.copyData d 0 n)

/-- A scratchpad side of a COPY whose banks are in RUN or IDLE and not under march (R249, R306). -/
def State.copyAwake (s : State) (space a : Nat) : Bool :=
  if space = 2 then
    let h := s.half (s.coreAt (spCore a)).yh
    !h.farrier && (h.pstate == .run || h.pstate == .idle)
  else true

/-- Bytes that a COPY reads from the host before a read fails, in whole units of 16 (R365, R433). -/
def State.hostPrefix (s : State) (d : Bytes) : Nat :=
  let a := copySrc d
  let n := copyLen d
  if !s.ports.linkUp then 0
  else
    let bad := ((s.ports.hostFail ++ s.ports.hostMute).filter (fun r => decide (r.1 < a + n ∧ a < r.2))).map (fun r => r.1 - a)
    (bad.foldl min n) / 16 * 16

/-- The source of a COPY can be read to its end. -/
def State.copyReadable (s : State) (d : Bytes) : Bool := copySrcSpace d != 1 || (s.hostRead (copySrc d) (copyLen d)).isSome

/-- A COPY whose host read has failed: the prefix read before it stands (R365, R433). -/
def State.copyHostFail (s : State) (e : Nat) (c : Cmd) : State :=
  let n := s.hostPrefix c.desc
  ((s.copyPart e c n).endWait e).complete e c { status := stHostRead, faultAddr := copySrc c.desc + n }

/-- Where a COPY stops at a failed translation: the bytes before the failing access, its address, whether it is a write, and the cause. -/
structure CopyFault where
  done : Nat
  addr : Nat
  write : Bool
  cause : Nat
  deriving DecidableEq, Repr

/-- The first access of a COPY that fails translation (R327), unless a host read fails before it. -/
def State.copyFault (s : State) (d : Bytes) : Option CopyFault :=
  let side (space a : Nat) (write : Bool) : Option CopyFault :=
    if space = 0 then (s.firstFail a (copyLen d) write false).map (fun f => ⟨f.1 - a, f.1, write, f.2⟩) else none
  let first := match side (copySrcSpace d) (copySrc d) false, side (copyDstSpace d) (copyDst d) true with
    | some x, some y => if y.done < x.done then some y else some x
    | some x, none => some x
    | none, y => y
  first.filter (fun f => s.copyReadable d || decide (f.done ≤ s.hostPrefix d))

/-- A COPY whose access fails translation: nothing of that access is written, and what was written before it stands (R327, R340). -/
def State.copyXlatFail (s : State) (e : Nat) (c : Cmd) (f : CopyFault) : State :=
  (((s.copyPart e c f.done).xlatFault f.addr f.write (agentOf e) f.cause).endWait e).complete e c
    { status := stTranslation, faultAddr := f.addr }

/-- MOVE_COPY (R365).  It waits while a scratchpad side is not awake, and for the re-reads of what it meets (R292, R330); a host read without
completion ends at HOST_READ_TIMEOUT, and one that completes with an error at once. -/
def execMoveCopy (eng : Nat) (s : State) : Out :=
  .next (if eng < 8 then s
    else
      match s.starting eng opMove with
      | none => s
      | some (c, t) =>
        let d := c.desc
        if !t.copyAwake (copySrcSpace d) (copySrc d) || !t.copyAwake (copyDstSpace d) (copyDst d) then t
        else if let some f := t.copyFault d then t.copyXlatFail eng c f
        else if !t.copyReadable d then
          if t.hostSilent (copySrc d + t.hostPrefix d) 16 then (if (sget none t.ports.waitsRead eng).isSome then t else t.awaitHost eng)
          else t.copyHostFail eng c
        else
          let met := t.copyMet d 0 (copyLen d)
          let flagged := (t.copyData d 0 (copyLen d)).voids.any id
          (t.takeChecks eng c met.1 met.2).getD
            (((t.copyPart eng c (copyLen d)).endWait eng).complete eng c { status := endStatus false flagged c.replayed }))

/-- HOST_READ_TIMEOUT (R384, R433): a read that gets no completion within 1 ms fails. -/
def execHostReadTimeout (eng : Nat) (s : State) : Out :=
  .next (if !s.readTimedOut eng then s
    else
      let t := s.endWait eng
      match (t.eng eng).cur with
      | none => t
      | some c =>
        if (t.eng eng).st = .prep ∧ !c.ready then
          let a := if c.desc.isEmpty then (t.queue c.queue).entry ((t.queue c.queue).head - 1) else dTack c.desc
          t.failCmd eng c ⟨stHostRead, 0, a, false⟩
        else if dOp c.desc = opMove ∧ 8 ≤ eng ∧ c.startAt.isSome then t.copyHostFail eng c
        else t)

end Sys2Proof.Machine
end

