-- ==== Sys2Proof/Machine/RngCmd.lean ====
section
/-!
DEFINITION. The commands of the random-number block: sample blocks, requests, RNG_DATA reads and RNGCTL (chapter 18).
-/
namespace Sys2Proof.Machine

/-! ## Requests and reads (R483, R486, R487) -/

/-- The hub's RNG domain is powered and works. -/
def State.rngUp (s : State) (hub : Nat) : Bool :=
  decide (hub < 2) && s.pwr.mod != .boot && !(if hub = 0 then s.hubs.h0Lost else s.hubs.h1Lost)

/-- A fatal alarm on the active hub fails the commands that wait for a seed (R354, R486, R492). -/
def State.alarmEffects (s : State) : State :=
  if s.rngActive.alarm then
    s.each s.rngActive.waiting (fun s w => match w.1 with
      | .engine e => (s.modRngHub s.hubs.active (fun h => h.withdraw w.1)).seedFails e
      | _ => s)
  else s

/-- The generator serves a user (R483, R487, R488). -/
def State.serveUser (s : State) (hub : Nat) (u : RngUser) : State :=
  let h := s.rngHub hub
  let g := s.generate hub
  match u with
  | .engine e => g.2.seedComes e g.1
  | .host => g.2.serveRecord .host g.1 h.stretched h.alarm
  | .prephor => g.2.serveRecord .prephor g.1 h.stretched h.alarm

/-- A reseed is due and possible: it runs before the next request (R484, R492). -/
def State.reseedFirst (s : State) (hub : Nat) : Bool := (s.rngHub hub).due s.img.rng && (s.rngHub hub).canReseed

/-- The generator can serve now: its last request lies 16 hclk back, its last reseed 600, and no reseed comes first (R483, R484). -/
def State.rngServes (s : State) (hub : Nat) : Bool :=
  (s.rngHub hub).serves s.img.rng && !s.reseedFirst hub && decide ((s.rngHub hub).busy ≤ s.hclk)

/-- RNG_REQUEST (R483): the oldest waiting request of the active hub; a reseed that comes first runs, and the request waits for it (R484). -/
def execRngRequest (hub : Nat) (s : State) : Out :=
  .next (match (s.rngHub hub).waiting with
    | [] => s
    | w :: rest =>
      if !s.rngUp hub ∨ s.hubs.active ≠ hub then s
      else if s.rngServes hub then (s.modRngHub hub (fun h => { h with waiting := rest })).serveUser hub w.1
      else if s.reseedFirst hub ∧ (s.rngHub hub).busy ≤ s.hclk then s.reseed hub
      else s)

/-- The user that a requester's read is. -/
def readUser : Requester → RngUser
  | .host => .host
  | .prephor => .prephor

/-- When a requester's waiting read of RNG_DATA0 began. -/
def State.dataWaits (s : State) : Requester → Option Nat
  | .host => s.rng.hostWaits
  | .prephor => s.rng.preWaits

/-- A read of RNG_DATA0 waits. -/
def State.setDataWaits (s : State) (who : Requester) (w : Option Nat) : State :=
  { s with rng := match who with
    | .host => { s.rng with hostWaits := w }
    | .prephor => { s.rng with preWaits := w } }

/-- RNG_DATA0 (R487): a read takes one request, served at once where nothing waits before it.  A requester has one read outstanding. -/
def execRngData0 (who : Requester) (s : State) : Out :=
  .next (if s.deadBar then s.answer .abort
    else if s.pwr.mod = .safe then s.answer (.value (s.peek who 0x500020))
    else if (s.dataWaits who).isSome then s.answer .waits
    else if s.rngUp s.hubs.active ∧ s.rngActive.waiting = [] ∧ s.rngServes s.hubs.active then s.serveUser s.hubs.active (readUser who)
    else ((s.modRngHub s.hubs.active (fun h => h.enqueue (readUser who) s.hclk)).setDataWaits who (some s.hclk)).answer
      .waits)

/-- LOW_WORD_READ (R7, R10): a register read; a low word latches its high word, and RNG_DATA0 waits for its data as RNG_DATA0 says. -/
def execLowWordRead (who : Requester) (off : Nat) (s : State) : Out :=
  if off = 0x500020 then execRngData0 who s else .next (s.readReg who off)

/-- The answer at the bound: VALID 0 and zeros latched (R487). -/
def State.boundRecord (s : State) (who : Requester) : State :=
  let n := match who with
    | .host => s.rng.hostRecs
    | .prephor => s.rng.preRecs
  let r := match who with
    | .host => { s.rng with hostLatch := [0, 0, 0], hostWaits := none }
    | .prephor => { s.rng with preLatch := [0, 0, 0], preWaits := none }
  ({ s with rng := r }).answer (.value (BitVec.ofNat 32 (n % 2 ^ 24 * 256)))

/-- RNG_DATA_BOUND (R487): 20 µs have passed; the request is withdrawn. -/
def execRngDataBound (who : Requester) (s : State) : Out :=
  .next (match s.dataWaits who with
    | none => s
    | some t =>
      if s.hclk < t + 20 * hclkPerUs then s
      else
        (s.modRngHub s.hubs.active (fun h => h.withdraw (readUser who))).boundRecord who)

/-! ## Blocks and reseeds (R476 to R484) -/

/-- RNG_BLOCK (R476): a source's block, or the 1,024 samples of its start-up test, ends. -/
def execRngBlock (hub src : Nat) (samples : List Bool) (s : State) : Out :=
  .next (if s.rngUp hub ∧ src < 2 then (s.block hub src samples).alarmEffects else s)

/-- RESEED (R484): a reseed that is due and possible. -/
def execReseed (hub : Nat) (s : State) : Out :=
  .next (if s.rngUp hub ∧ (s.rngHub hub).due s.img.rng then s.reseed hub else s)

/-! ## RNGCTL (R490 to R492) -/

/-- The hub that an RNGCTL block names. -/
def State.rngctlHub (s : State) (c : Cmd) : Nat := if fld c.tack 1 1 = 0 then s.hubs.active else otherHub s.hubs.active

/-- The first RNGCTL of an operation; one with a reserved operation counts with RESEED.  A second one for the same hub waits for the
first (R492). -/
def State.newRngctl (s : State) (op : Nat) : Option Cmd :=
  s.mbx.privs.find? (fun c => dOp c.desc == opRngctl && (fld c.tack 0 1 == op || (op == 0 && decide (4 ≤ fld c.tack 0 1))) &&
    !(s.mbx.privs.takeWhile (fun y => decide (y ≠ c))).any (fun y => dOp y.desc == opRngctl && fld y.tack 1 1 == fld c.tack 1 1))

/-- An RNGCTL is checked and carried out on its hub; a lost hub has no generator. -/
def State.rngctl (s : State) (op : Nat) (run : Cmd → Nat → State → State) : State :=
  match s.newRngctl op with
  | none => s
  | some c =>
    if !s.repairing then s
    else
      match s.privCheck c with
      | some f => s.failPriv c f
      | none =>
        if s.rngUp (s.rngctlHub c) then run c (s.rngctlHub c) s else s.finishPriv c { status := stRngUnavailable }

/-- RNGCTL RESEED (R491): it waits until the pool holds two blocks. -/
def execRngctlReseed (s : State) : Out :=
  .next (s.rngctl 0 (fun c hub s =>
    if (s.rngHub hub).alarm then s.finishPriv c { status := stRngUnavailable }
    else if (s.rngHub hub).canReseed then (s.reseed hub).finishPriv c { status := stOk }
    else s))

/-- Both sources restart with their failures cleared, over an empty pool. -/
def RngHub.restart (h : RngHub) : RngHub := { h.startSources with kat := false, pool := [], pattern := none, patPos := 0 }

/-- A restart runs over the blocks that come (R491): the new seed, or its failure.  Blocks that decide nothing leave the command waiting. -/
def State.restart (s : State) (c : Cmd) (hub : Nat) (katFail : Option Nat) (blocks : List SrcBlock) : State :=
  let had := (s.rngHub hub).seeded
  let s1 := s.modRngHub hub RngHub.restart
  match katFail with
  | some t => ((s1.katFails hub t).alarmEffects).finishPriv c { status := stRngUnavailable }
  | none =>
    let s2 := s1.each (blocks.filter (fun b => b.hub == hub && decide (b.src < 2))) (fun s b => s.block hub b.src b.samples)
    let h := s2.rngHub hub
    if h.bothFatal then s2.alarmEffects.finishPriv c { status := stRngUnavailable }
    else if !had ∧ h.seeded then s2.finishPriv c { status := stOk }
    else if had ∧ h.canReseed then (s2.reseed hub).finishPriv c { status := stOk }
    else s

/-- RNGCTL RESTART (R491). -/
def execRngctlRestart (katFail : Option Nat) (blocks : List SrcBlock) (s : State) : Out :=
  .next (s.rngctl 1 (fun c hub s => s.restart c hub katFail blocks))

/-- RNGCTL PATTERN_OFF (R491). -/
def execRngctlPatternOff (katFail : Option Nat) (blocks : List SrcBlock) (s : State) : Out :=
  .next (s.rngctl 3 (fun c hub s => s.restart c hub katFail blocks))

/-- The source that feeds the generator next: the active one, or the one it switches to. -/
def RngHub.feeding (h : RngHub) : Nat := h.switchTo.getD h.activeSrc

/-- Pattern blocks until the generator is seeded or both sources are FATAL (R491); `fuel` bounds the restarts. -/
def State.runPattern (s : State) (hub : Nat) : Nat → State
  | 0 => s
  | fuel + 1 =>
    let h := s.rngHub hub
    if h.seeded ∨ h.bothFatal then s
    else
      let i := h.feeding
      (s.block hub i (List.replicate (h.src i).due false)).runPattern hub fuel

/-- RNGCTL PATTERN (R491). -/
def execRngctlPattern (s : State) : Out :=
  .next (s.rngctl 2 (fun c hub s =>
    let p := s.devBytes (fld c.tack 8 8) (fld c.tack 4 4)
    let s1 := s.modRngHub hub (fun h => { h with pattern := some p, patPos := 0, seeded := false, stretched := false, count := 0, pool := [] })
    let s2 := (s1.runPattern hub 24).alarmEffects
    s2.finishPriv c { status := if (s2.rngHub hub).seeded then stOk else stRngUnavailable }))

end Sys2Proof.Machine
end

