-- ==== Sys2Proof/Machine/Spin.lean ====
section
/-!
DEFINITION. SPINPACK (R155, R157, R188 to R193): source tiles and spin pages, the shared exponent, and the conversion into spin blocks or pages.
-/
namespace Sys2Proof.Machine

/-! ## Exponents and mantissas (R155, R157) -/

/-- A value to the nearest integer, ties to even. -/
def rneInt (x : Dy) : Int :=
  let m : Nat := if 0 ≤ x.e then x.n.natAbs * 2 ^ x.e.toNat else rneDiv x.n.natAbs (2 ^ (-x.e).toNat)
  if x.n < 0 then -(m : Int) else (m : Int)

/-- The rounded mantissa of an FP32 word at exponent `x`: value × 2^(15 − x). -/
def mantOf (x v : Nat) : Int :=
  let d := val32 v
  rneInt ⟨d.n, d.e + 15 - x⟩

/-- The largest magnitude of FP32 words, as a magnitude code. -/
def topMag (vs : List Nat) : Nat := (vs.map mag32).foldl max 0

/-- The exponent of a store of couplings and fields whose largest magnitudes are given: the smallest at which both round into their range, else
31 (R155).  Rounding keeps order, so the largest magnitude decides. -/
def exponentOf (fieldMax maxCoup maxField : Nat) : Nat :=
  ((upto 32).find? (fun x => decide (mantOf x maxCoup ≤ 2047) && decide (mantOf x maxField ≤ (fieldMax : Int)))).getD 31

/-- A mantissa clamped to ±`lim`, whether it was lost, and whether it was clamped (R155). -/
def clampMant (lim : Nat) (x v : Nat) : Int × Bool × Bool :=
  let m := mantOf x v
  if (lim : Int) < m then (lim, false, true) else if m < -(lim : Int) then (-(lim : Int), false, true) else (m, m == 0 && mag32 v != 0, false)

/-- Signed values packed into a store of `w` bits each (R153). -/
def packMant (w : Nat) (ms : List Int) : Nat := (ms.foldr (fun m v => unsigned w m + 2 ^ w * v) 0)

/-! ## Items (R188, R190, R192) -/

/-- A converted item: its core, its page, its spin-block content and what the conversion lost and clamped. -/
structure SpinItem where
  core  : Nat
  page  : Nat
  plane : BitVec 256
  field : BitVec 4096
  coup  : BitVec 24576
  exp   : Nat
  loss  : Nat
  clip  : Nat
  deriving DecidableEq, Repr

/-- A source tile: fields, couplings and spins (R188). -/
structure Tile0 where
  fields : List Nat
  coups  : List Nat
  plane  : Nat
  deriving DecidableEq, Repr

/-- The source tile in 10,240 bytes. -/
def tileOf (b : Bytes) : Tile0 :=
  ⟨(upto 256).map (fun k => fld b (4 * k) 4), (upto 2048).map (fun k => fld b (0x400 + 4 * k) 4), fld b 0x2400 32⟩

/-- The first coefficient of a tile that is a NaN or an infinity, by byte offset (R190). -/
def tileBad (t : Tile0) : Option Fail :=
  ((t.fields ++ t.coups).zipIdx.find? (fun x => !finite32 x.1)).map (fun x => badFormat obTile (4 * x.2))

/-- Page row `py` is the last that an array `pgW` wide can have: 65,535 rows and 2^24 pages at most (R193). -/
def lastRow (pgW py : Nat) : Bool := decide (65535 < py + 2 ∨ 2 ^ 24 < pgW * (py + 2))

/-- The couplings of a tile with those out of the page array read as 0: its west, east and north edges, and its south edge in the last row that
an array can have (R190, R193; log entry 28). -/
def openEdge (pgW px py : Nat) (coups : List Nat) : List Nat :=
  coups.mapIdx (fun i v =>
    match nb (i / 8) (i % 8) with
    | .own _ => v
    | .other dir _ =>
      if (px = 0 ∧ dirCol dir = -1) ∨ (px + 1 = pgW ∧ dirCol dir = 1) ∨ (py = 0 ∧ dirRow dir = -1) ∨ (lastRow pgW py ∧ dirRow dir = 1) then 0
      else v)

/-- The check of a spin page at its place (R193). -/
def pageBad (p : Bytes) (index : Nat) : Option Fail :=
  let bad (o : Nat) := badFormat obPage o
  firstOf
    [ chk (fld p 0xE20 1 ≤ 31) (bad 0xE20),
      chkZero obPage p 0xE21 3,
      chk (fld p 0xE24 4 = index) (bad 0xE24),
      chkZero obPage p 0xE30 464 ]

/-- A spin page with its spins, coefficients and exponent (R192). -/
def pageBytesOf (x : SpinItem) : Bytes :=
  toBytes 32 x.plane.toNat ++ toBytes 512 x.field.toNat ++ toBytes 3072 x.coup.toNat ++ toBytes 1 x.exp ++ zeros 3 ++ toBytes 4 x.page ++
    zeros 8 ++ zeros 464

/-- The item of a spin page (R190). -/
def itemOfPage (core page : Nat) (p : Bytes) : SpinItem :=
  ⟨core, page, BitVec.ofNat 256 (fld p 0 32), BitVec.ofNat 4096 (fld p 0x20 512), BitVec.ofNat 24576 (fld p 0x220 3072), fld p 0xE20 1, 0, 0⟩

/-- The item of a source tile at an exponent. -/
def itemOfTile (fieldMax core page x : Nat) (t : Tile0) : SpinItem :=
  let hs := t.fields.map (clampMant fieldMax x)
  let js := t.coups.map (clampMant 2047 x)
  let n (p : Int × Bool × Bool → Bool) : Nat := ((hs ++ js).filter p).length
  ⟨core, page, BitVec.ofNat 256 t.plane, BitVec.ofNat 4096 (packMant 16 (hs.map Prod.fst)), BitVec.ofNat 24576 (packMant 12 (js.map Prod.fst)),
    x, n (fun r => r.2.1), n (fun r => r.2.2)⟩

/-- The source of item `i` on a core: bytes and voids (R188 to R190).  One in scratchpad is read through the windows; a read outside them gives nothing,
which counts as void (R294; DESIGN CHOICE, log entry 70). -/
def State.spRead (s : State) (b : Bytes) (x : Nat × Nat) : Read :=
  if spSrcKind b = 0 then s.devRead (spSrc b + tileSize * x.1) (tileRead b)
  else if spSrcKind b = 1 then (s.coreRead x.2 (spSrcOff b) (tileRead b)).getD ⟨zeros (tileRead b), [true]⟩
  else s.devRead (spSrc b + 4096 * spPage b x.1) 4096

/-- The source bytes of an item. -/
def State.spSource (s : State) (b : Bytes) (x : Nat × Nat) : Bytes := (s.spRead b x).data

/-- The source of an item holds a void word: the item converts nothing, as on a haltered core (R92, R293; DEDUCED, log entry 70). -/
def State.spVoid (s : State) (b : Bytes) (x : Nat × Nat) : Bool := (s.spRead b x).voids.any id

/-- The items whose sources can be read. -/
def State.spSound (s : State) (b : Bytes) (early : List Nat) : List (Nat × Nat) := (s.spItems b early).filter (fun x => !s.spVoid b x)

/-- The items of a conversion from source tiles, or its failure (R155, R190). -/
def State.fromTiles (s : State) (b : Bytes) (early : List Nat) : Except Fail (List SpinItem) :=
  let fieldMax := if spDstKind b = 1 then 16383 else 32767
  let ts := (s.spSound b early).map (fun x => (x, tileOf (s.spSource b x)))
  match ts.findSome? (fun y => tileBad y.2) with
  | some f => .error f
  | none =>
    let us := ts.map (fun y =>
      let px := spPgX b + y.1.1 % (spRect b).w
      let py := spPgY b + y.1.1 / (spRect b).w
      (y.1, if spDstKind b = 1 then { y.2 with coups := openEdge (spPgW b) px py y.2.coups } else y.2))
    let tops := us.map (fun y => (topMag y.2.coups, topMag y.2.fields))
    let shared := exponentOf fieldMax ((tops.map Prod.fst).foldl max 0) ((tops.map Prod.snd).foldl max 0)
    .ok (us.map (fun y =>
      let x := if spPexp b then shared else exponentOf fieldMax (topMag y.2.coups) (topMag y.2.fields)
      itemOfTile fieldMax y.1.2 (spPage b y.1.1) x y.2))

/-- The items of a conversion from spin pages, or its failure (R190, R193). -/
def State.fromPages (s : State) (b : Bytes) (early : List Nat) : Except Fail (List SpinItem) :=
  let ps := (s.spSound b early).map (fun x => (x, s.spSource b x))
  match ps.findSome? (fun y => pageBad y.2 (spPage b y.1.1)) with
  | some f => .error f
  | none =>
    let items := ps.map (fun y => itemOfPage y.1.2 (spPage b y.1.1) y.2)
    let first := (items.head?.map SpinItem.exp).getD 0
    if spPexp b ∧ items.any (fun x => x.exp != first) then .error (badFormat obPage 0xE20) else .ok items

/-- An item reaches its core's spin block (R189 to R192). -/
def State.putBlock (b : Bytes) (s : State) (x : SpinItem) : State :=
  let s1 := s.modCore x.core (fun c => { c with
    spin := { c.spin with plane := if spKeep b then c.spin.plane else x.plane, field := x.field, coup := x.coup, exp := x.exp } })
  let d := x.core / (66 * 64)
  (s1.bumpBy .half d 14 x.loss).bumpBy .half d 15 x.clip

/-- Items reach their spin blocks and their pages, up to the first page access that fails translation (R189 to R192, R327). -/
def State.putItems (b : Bytes) : State → List SpinItem → State × Option (Nat × Nat)
  | s, [] => (s, none)
  | s, x :: xs =>
    let s1 := s.putBlock b x
    if spDstKind b = 1 then
      let w := s1.writeUpTo (spDst b + 4096 * x.page) (pageBytesOf x)
      match w.2 with
      | some f => (w.1, some f)
      | none => State.putItems b w.1 xs
    else State.putItems b s1 xs

/-- The first read of a conversion that fails translation (R327). -/
def State.spFault (s : State) (b : Bytes) (early : List Nat) : Option (Nat × Nat) :=
  (s.spItems b early).findSome? (fun x =>
    if spSrcKind b = 0 then s.firstFail (spSrc b + tileSize * x.1) (tileRead b) false false
    else if spSrcKind b = 2 then s.firstFail (spSrc b + 4096 * spPage b x.1) 4096 false false
    else none)

/-- The scratchpad words of wrong parity that a conversion meets (R292). -/
def State.spWords (s : State) (b : Bytes) (early : List Nat) : List (Nat × Nat) :=
  if spSrcKind b = 1 then (s.spItems b early).flatMap (fun x => s.coreBad x.2 (spSrcOff b) (tileRead b)) else []

/-- The blocks of wrong parity that a conversion meets (R330). -/
def State.spBlocks (s : State) (b : Bytes) (early : List Nat) : List Nat :=
  (s.spItems b early).flatMap (fun x =>
    if spSrcKind b = 0 then s.devBad (spSrc b + tileSize * x.1) (tileRead b)
    else if spSrcKind b = 2 then s.devBad (spSrc b + 4096 * spPage b x.1) 4096
    else [])

/-- The lowest core whose read of its source in scratchpad leaves the windows (R294, R371). -/
def State.spOutside (s : State) (b : Bytes) (early : List Nat) : Option Nat :=
  if spSrcKind b = 1 ∧ (rangeWindow (spSrcOff b) (tileRead b)).isNone then
    minBy id (((spRect b).idx s).filter (fun i => !early.contains i && (s.core (coreNum (s.coreAt i))).halter.isNone))
  else none

/-- A conversion whose sources have been read (R190, R191). -/
def State.convert (s : State) (e : Nat) (c : Cmd) (b : Bytes) : State :=
  match (if spSrcKind b = 2 then s.fromPages b c.early else s.fromTiles b c.early) with
  | .error f => s.complete e c f.done
  | .ok items =>
    let flagged := s.anyHalted ((spRect b).idx s) || (s.spItems b c.early).any (s.spVoid b)
    let r := s.putItems b items
    match r.2 with
    | some f => r.1.xlatEnd e c f.1 true f.2
    | none =>
      match s.spOutside b c.early with
      | some i => r.1.complete e c { status := stSchedule, detail := schedDetail 4 i, yclk := soLedger c.sched.header }
      | none => r.1.completeRun e c flagged true

/-- MOVE with SPINPACK (R190, R191): a conversion that fails writes nothing.  It waits for the re-reads of what it meets (R292, R330). -/
def execMoveSpinpack (eng : Nat) (s : State) : Out :=
  .next (match s.running eng opMove with
    | none => s
    | some c =>
      if 8 ≤ eng then s
      else
        let b := s.devBytes (fld c.desc 0x28 8) 48
        match s.spFault b c.early with
        | some f => s.xlatEnd eng c f.1 false f.2
        | none => (s.takeChecks eng c (s.spWords b c.early) (s.spBlocks b c.early)).getD (s.convert eng c b))

end Sys2Proof.Machine
end

