-- ==== Sys2Proof/Machine/Rotate.lean ====
section
/-!
DEFINITION. ROTATE (R194 to R202): visits of windows, halo folding, write-back and the result record.
-/
namespace Sys2Proof.Machine

/-! ## FP64 sums (R202) -/

def fmt64 : Fmt := ⟨53, -1074, 0x7FEFFFFFFFFFFFFF⟩

/-- The exact value of a finite FP64 word. -/
def val64 (v : Nat) : Dy :=
  let m := fmt64.value (v % 2 ^ 63)
  if bit v 63 then m.neg else m

/-- A value as an FP64 word, ties to even. -/
def round64 (x : Dy) : Nat := fmt64.round x + if x.n < 0 then 2 ^ 63 else 0

/-- FP64 addition of finite words, ties to even. -/
def add64 (a b : Nat) : Nat := round64 ((val64 a).add (val64 b))

/-! ## Windows and pages -/

/-- What a ROTATE works with. -/
structure RotCtx where
  acb   : Bytes
  rcb   : Bytes
  seed  : Nat
  deriving DecidableEq, Repr

def State.rotCtx (s : State) (c : Cmd) : RotCtx := ⟨s.ctrlOf c.sched.header, s.devBytes (soAux c.sched.header) 64, c.seed⟩

/-- Visits of the whole command, from pass 0 on (R200). -/
def RotCtx.total (x : RotCtx) : Nat := rcPasses x.rcb * rcWins x.rcb

/-- The first visit. -/
def RotCtx.firstVisit (x : RotCtx) : Nat := rcPass x.rcb * rcWins x.rcb + rcVisit x.rcb

/-- The rotation-table entry of visit `g`. -/
def State.rotEntry (s : State) (x : RotCtx) (g : Nat) : Bytes := s.devBytes (rcTable x.rcb + 8 * (g % rcWins x.rcb)) 8

/-- The address of page (u, v) (R193). -/
def RotCtx.pageAt (x : RotCtx) (u v : Nat) : Nat := rcPages x.rcb + 4096 * (v * rcW x.rcb + u)

/-- Page (u, v) of the array, where it lies in the array. -/
def RotCtx.inArray (x : RotCtx) (u v : Int) : Bool := decide (0 ≤ u) && decide (u < rcW x.rcb) && decide (0 ≤ v) && decide (v < rcH x.rcb)

/-- The page at direction `dir` of the window's page (u, v), counted from the window, where it is a halo page. -/
def RotCtx.halo (x : RotCtx) (wx wy u v dir : Nat) : Option (Nat × Nat) :=
  let u1 := Int.ofNat u + dirCol dir
  let v1 := Int.ofNat v + dirRow dir
  let inside := 0 ≤ u1 ∧ u1 < Int.ofNat (acW x.acb) ∧ 0 ≤ v1 ∧ v1 < Int.ofNat (acH x.acb)
  if inside then none
  else if x.inArray (wx + u1) (wy + v1) then some ((wx + u1).toNat, (wy + v1).toNat) else none

/-- A page is not good where it stands (R193). -/
def State.pageFail (s : State) (x : RotCtx) (p : Nat × Nat) : Option Fail :=
  pageBad (s.devBytes (x.pageAt p.1 p.2) 4096) (p.2 * rcW x.rcb + p.1)

/-- The page of core `i` of the window at (wx, wy), and its halo pages. -/
def RotCtx.page (x : RotCtx) (wx wy i : Nat) : Nat × Nat := (wx + i % acW x.acb, wy + i / acW x.acb)
def RotCtx.halos (x : RotCtx) (wx wy i : Nat) : List (Nat × Nat) := (upto 8).filterMap (x.halo wx wy (i % acW x.acb) (i / acW x.acb))

/-- The pages that the window at (wx, wy) loads: its own in core order, then its halo pages. -/
def RotCtx.pages (x : RotCtx) (wx wy : Nat) : List (Nat × Nat) :=
  let own := upto (acH x.acb * acW x.acb)
  own.map (x.page wx wy) ++ own.flatMap (x.halos wx wy)

/-- The ranges of device memory that visit `g` of the window at (wx, wy) reads: its entry, the restart table and the pages. -/
def RotCtx.reads (x : RotCtx) (g wx wy : Nat) : List (Nat × Nat) :=
  (rcTable x.rcb + 8 * (g % rcWins x.rcb), 8) :: (acTable x.acb, 16 * acEntries x.acb) ::
    (x.pages wx wy).map (fun p => (x.pageAt p.1 p.2, 4096))

/-- A page holds a void word where it is used. -/
def State.voidPage (s : State) (x : RotCtx) (p : Nat × Nat) : Bool := s.voidRange (x.pageAt p.1 p.2, 0xE30)

/-- A core loads its page into its spin block (R197). -/
def State.loadPage (x : RotCtx) (wx wy : Nat) (s : State) (y : Nat × Nat) : State :=
  let p := s.devBytes (x.pageAt (x.page wx wy y.1).1 (x.page wx wy y.1).2) 4096
  let i := itemOfPage y.2 0 p
  s.modCore y.2 (fun c => { c with spin := { c.spin with plane := i.plane, field := i.field, coup := i.coup, exp := i.exp } })

/-- The folded fields of a core, and how many were clamped (R198). -/
def State.folded (s : State) (x : RotCtx) (wx wy i : Nat) (c : ACore) : List Int × Nat :=
  let halo := (upto 8).map (fun dir => (x.halo wx wy (i % acW x.acb) (i / acW x.acb) dir).map (fun p => fld (s.devBytes (x.pageAt p.1 p.2) 32) 0 32))
  let sum (k : Nat) (js : List Int) : Int := (js.mapIdx (fun d j =>
    match nb k d with
    | .own _ => 0
    | .other dir n =>
      match halo.getD dir none with
      | some v => j * spinVal (bit v n)
      | none => 0)).foldl (· + ·) 0
  let hs := (c.field.zip c.coup).mapIdx (fun k y => y.1 + sum k y.2)
  (hs.map (fun h => if 32767 < h then 32767 else if h < -32767 then -32767 else h), (hs.filter (fun h => decide (32767 < h ∨ h < -32767))).length)

/-- The logical cores of the window at (wx, wy) that load no page: the start marker came early (R86), or a word of the page is void (R92, R331;
DEDUCED, log entry 55). -/
def State.noPage (s : State) (x : RotCtx) (c : Cmd) (wx wy : Nat) : List Nat :=
  c.early ++ ((indexed ((acRect x.acb).idx s)).filter (fun y => s.voidPage x (x.page wx wy y.1))).map Prod.snd

/-- The logical cores of the window that take no part in its spins: those, and any with a void halo. -/
def State.noPart (s : State) (x : RotCtx) (c : Cmd) (wx wy : Nat) : List Nat :=
  s.noPage x c wx wy ++ ((indexed ((acRect x.acb).idx s)).filter (fun y => (x.halos wx wy y.1).any (s.voidPage x))).map Prod.snd

/-- The window loaded and folded: the paddock, whether a field was clamped, and the state. -/
def State.loadWindow (s : State) (e : Nat) (x : RotCtx) (c : Cmd) (g wx wy : Nat) : Pad × Bool × State :=
  let r := acRect x.acb
  let s1 := s.each (((indexed (r.idx s)).filter (fun y => !(s.noPage x c wx wy).contains y.2)).map (fun y => (y.1, coreNum (s.coreAt y.2))))
    (State.loadPage x wx wy)
  let p := (s1.pad e r (s.noPart x c wx wy)).seeded (g * 2 ^ 32)
  let fs := (indexed p.cores).map (fun y => (y.2, s1.folded x wx wy y.1 y.2))
  let s2 := s1.each fs (fun s y =>
    (s.modCore y.1.num (fun c => { c with spin := { c.spin with field := BitVec.ofNat 4096 (packMant 16 y.2.1) } })).bumpBy .half y.1.half 15 y.2.2)
  ({ p with cores := fs.map (fun y => { y.1 with field := y.2.1 }) }, fs.any (fun y => y.2.2 != 0), s2)

/-- The write-back of a page: its spins and its count of visits; a haltered core gives back those it loaded (R192, R199). -/
def State.backOf (s : State) (x : RotCtx) (wx wy : Nat) (y : Nat × ACore) : List (Nat × Bytes) :=
  let va := x.pageAt (x.page wx wy y.1).1 (x.page wx wy y.1).2
  let plane := if y.2.halted then fld (s.devBytes va 4096) 0 32 else if rcCurrent x.rcb then y.2.plane.toNat else y.2.best.toNat
  [(va, toBytes 32 plane), (va + 0xE28, toBytes 8 (fld (s.devBytes va 4096) 0xE28 8 + 1))]

/-! ## Visits -/

/-- What ends a visit before its write-back has ended: a failed check, an access that fails translation, or a wait for re-reads. -/
inductive VisitStop where
  | bad (f : Fail)
  | xlat (va : Nat) (write : Bool) (cause : Nat)
  | waits
  deriving DecidableEq, Repr

/-- The run record of a ROTATE that has visited nothing yet. -/
def RotCtx.fresh (x : RotCtx) : RotateRun := ⟨x.firstVisit, 0, 0, 0, 0, 0, 0, 0, false⟩

/-- The run record of the ROTATE on engine `e`. -/
def State.rotRun (s : State) (e : Nat) (x : RotCtx) : RotateRun := ((s.eng e).rot).getD x.fresh

/-- A window that is loaded: the paddock and the state, the best energy at its start and its exponent, its entries and their first index. -/
structure RotWindow where
  pad   : Pad
  st    : State
  xf    : Nat
  e0    : Int
  first : Nat
  left  : List Restart

/-- The run of a window's entries, and the compute faults that it meets (R197). -/
def State.runWindow (s : State) (e : Nat) (x : RotCtx) (g : Nat) (w : RotWindow) (kill : Option Progress) (fs : List AnnealFault) : ARun × State :=
  let a := x.acb
  let ls := s.engAligned e
  let lim : Limit := match kill with
    | none => ⟨phasesOf w.left, true, none⟩
    | some k => ⟨k.steps / acP a, false, some ⟨k.steps % acP a, k.reach, k.ledger⟩⟩
  let d := w.st.annealFaced (acRect a) (fs.filter (fun f => f.visit == g))
  let run := ARun.entriesRun ⟨x.seed, acP a, acF a, acStay a, ls⟩ w.xf lim w.left w.first 0 true
    ⟨{ w.pad.capture with downs := d.pad }, w.e0, 0xFF, noEnergy, 0, 0, 0, 0⟩
  let k := min run.entries (w.left.length - 1)
  let n0 := phasesOf (w.left.take k)
  let s1 := (((d.counted e).putPad run.pad 0).writeCtx (acCtx a) (acP a) run.pad run.state (w.first + k) n0 (if run.state = 0 then n0 else run.phase)).countPad
    run.pad ls
  (run, s1.bumpBy .engine e 12 run.captures)

/-- The run record after a visit `g` that `run` made. -/
def RotateRun.after (r : RotateRun) (x : RotCtx) (ls flagged : Bool) (w : RotWindow) (run : ARun) : RotateRun :=
  let late := run.pad.total 2
  let e1 := if rcCurrent x.rcb then run.lastE else run.bestE
  { next := r.next + 1, deltaE := add64 r.deltaE (round64 ⟨e1 - w.e0, (w.xf : Int) - 15⟩), visits := r.visits + 1,
    flips := r.flips + run.pad.total 0, stays := r.stays + run.pad.total 1, tdc := r.tdc + (if ls then 0 else late),
    stale := r.stale + (if ls then late else 0), improved := r.improved + b2n (decide (e1 < w.e0)), flagged := r.flagged || flagged }

/-- The window of visit `g`, its reads known, loaded and folded; its exponents are checked then (R197). -/
def State.setWindow (s : State) (e : Nat) (x : RotCtx) (c : Cmd) (g wx wy first n : Nat) : Except (VisitStop × State) (RotWindow × Bool) :=
  match (x.pages wx wy).findSome? (s.pageFail x) with
  | some f => .error (.bad f, s)
  | none =>
    let w := s.loadWindow e x c g wx wy
    let xs := w.2.2.padExps ((acRect x.acb).idx s)
    match expCheck (acPexp x.acb) xs with
    | some f => .error (.bad f, w.2.2)
    | none =>
      let a := x.acb
      .ok (⟨w.1, w.2.2, finest xs, w.1.energy (finest xs), first, (restarts (s.devBytes (acTable a) (16 * acEntries a)) (acEntries a)).drop first |>.take n⟩,
        w.2.1)

/-- The phases of the next visit begin at 0 on its cores (R163, R167, R197; log entry 55). -/
def State.newPhases (s : State) (cores : List Nat) : State :=
  s.each cores (fun s i => s.modCore (coreNum (s.coreAt i)) (fun x => { x with phase := 0, phaseAt := (s.rclk (s.coreAt i).yh).yclk }))

/-- The visit that is next (R197 to R200): what ends it early with the state it leaves, or the state.  A visit that a kill ends writes nothing back and
waits for nothing. -/
def State.visit (s : State) (e : Nat) (x : RotCtx) (c : Cmd) (r : RotateRun) (kill : Option Progress) (fs : List AnnealFault) :
    Except (VisitStop × State) State :=
  let g := r.next
  let t := s.rotEntry x g
  let wx := fld t 0 2
  let wy := fld t 2 2
  let reads := x.reads g wx wy
  match reads.findSome? (fun y => s.firstFail y.1 y.2 false false) with
  | some f => .error (.xlat f.1 false f.2, s)
  | none =>
    match (if kill.isSome then none else s.takeChecks e c [] (reads.flatMap (fun y => s.devBad y.1 y.2))) with
    | some u => .error (.waits, u)
    | none =>
      match s.setWindow e x c g wx wy (fld t 4 1) (fld t 5 1) with
      | .error f => .error f
      | .ok w =>
        let d := s.runWindow e x g w.1 kill fs
        if kill.isSome then .ok d.2
        else
          let cores := (indexed d.1.pad.cores).filter (fun y => !(s.noPage x c wx wy).contains y.2.idx)
          let b := d.2.writeRuns (cores.flatMap (d.2.backOf x wx wy))
          match b.2 with
          | some f => .error (.xlat f.1 true f.2, b.1)
          | none => .ok ((b.1.modEng e (fun y => { y with
              rot := some (r.after x (s.engAligned e) (w.2 || reads.any s.voidRange) w.1 d.1) })).newPhases ((acRect x.acb).idx s))

/-- Visits until `upTo` have been written back or none is left; what ended them early, with the state it left. -/
def State.visits (e : Nat) (x : RotCtx) (c : Cmd) (fs : List AnnealFault) (upTo : Nat) : Nat → State → Option VisitStop × State
  | 0, s => (none, s)
  | fuel + 1, s =>
    let r := s.rotRun e x
    if x.total ≤ r.next ∨ upTo ≤ r.visits then (none, s)
    else
      match s.visit e x c r none fs with
      | .error f => (some f.1, f.2)
      | .ok t => t.visits e x c fs upTo fuel

/-- The run record of engine `e` is dropped. -/
def State.dropRot (s : State) (e : Nat) : State := s.modEng e (fun x => { x with rot := none })

/-- A ROTATE whose visit ended early ends with it, unless it waits. -/
def State.stopVisit (s : State) (e : Nat) (c : Cmd) : VisitStop → State
  | .bad f => (s.dropRot e).complete e c f.done
  | .xlat va write cause => (s.dropRot e).xlatEnd e c va write cause
  | .waits => s

/-- The result record of a ROTATE (R202). -/
def RotateRun.bytes (r : RotateRun) (x : RotCtx) : Bytes :=
  toBytes 8 r.deltaE ++ toBytes 2 (r.next % rcWins x.rcb) ++ toBytes 2 (r.next / rcWins x.rcb) ++ toBytes 1 (b2n (decide (r.next < x.total))) ++
    zeros 3 ++ toBytes 8 r.visits ++ toBytes 8 r.flips ++ toBytes 8 r.stays ++ toBytes 8 r.tdc ++ toBytes 8 r.stale ++ toBytes 4 r.improved ++ zeros 4

/-- The ROTATE on engine `e` ends by itself or at a stop, once `upTo` visits are written back (R197, R201, R202, R327). -/
def State.endRotate (s : State) (e : Nat) (c : Cmd) (upTo : Option Nat) (fs : List AnnealFault) : State :=
  let x := s.rotCtx c
  let v := s.visits e x c fs (upTo.getD x.total) x.total
  let r := v.2.rotRun e x
  match v.1 with
  | some f => v.2.stopVisit e c f
  | none =>
    let halted := v.2.anyHalted ((acRect x.acb).idx s)
    let w := v.2.writeUpTo (acResult x.acb) (r.bytes x)
    match w.2 with
    | some f => (w.1.dropRot e).xlatEnd e c f.1 true f.2
    | none => (w.1.dropRot e).completeRun e c (halted || r.flagged) (upTo.isNone)

/-- ROTATE (R197): the visits that are left, and its end. -/
def execRotate (eng : Nat) (faults : List AnnealFault) (s : State) : Out :=
  .next (match s.running eng opRotate with
    | some c => s.endRotate eng c c.firstStop faults
    | none => s)

/-- ROTATE_VISIT (R197): the next visit of a running ROTATE, every write-back of the one before acknowledged. -/
def execRotateVisit (eng : Nat) (faults : List AnnealFault) (s : State) : Out :=
  .next (match s.running eng opRotate with
    | none => s
    | some c =>
      let x := s.rotCtx c
      let r := s.rotRun eng x
      if x.total ≤ r.next then s
      else
        match s.visit eng x c r none faults with
        | .error f => f.2.stopVisit eng c f.1
        | .ok t => t)

/-! ## Phases in free mode (R167) -/

/-- The command of engine `e` that runs phases: ANNEAL, RESUME or ROTATE. -/
def State.phased (s : State) (e : Nat) : Option Cmd :=
  ((s.running e opAnneal).orElse (fun _ => s.running e opResume)).orElse (fun _ => s.running e opRotate)

/-- The cores next to place `i` of a rectangle, each with its direction. -/
def Rect.next (r : Rect) (i : Nat) : List (Nat × Nat) :=
  (upto 8).filterMap (fun d =>
    let u := Int.ofNat (i % r.w) + dirCol d
    let v := Int.ofNat (i / r.w) + dirRow d
    if 0 ≤ u ∧ u < Int.ofNat r.w ∧ 0 ≤ v ∧ v < Int.ofNat r.h then some (d, v.toNat * r.w + u.toNat) else none)

/-- A core of half `half` has received the phase-closing flits of logical core `idx`, which lies in direction `d` of it, for all phases up to `n` − 2:
the last of them is sent once the `f` steps of its phase are made.  In the half it takes L yclk; from another half it may come any time within L and
the 3 yclk of R245, which a free value says, and 4 yclk of the sender cover those (R165, R167, R245; log entry 53). -/
def State.closedTo (s : State) (p f n half d idx : Nat) (odd : Bool) : Bool :=
  let c := s.coreAt idx
  let x := s.core (coreNum c)
  let k := lastPhase 0 (n - 1) odd
  let sent := if k ≤ x.phase then x.phaseAt + f - p else x.phaseAt + f
  let now := (s.rclk c.yh).yclk
  let l := seamLatency half c.yh (dirEdge d)
  k = 0 || (decide (k ≤ x.phase + 1) &&
    (if c.yh = half then decide (sent + l ≤ now)
     else decide (sent ≤ now) && (decide (sent + l + 4 ≤ now) || Config.freeValue (s.freeCtr + d) % 2 == 1)))

/-- Core `core` of a paddock may begin phase `n`: the phase after the one it began last, with the phase-closing flits of every neighbour of the paddock
for all phases up to n − 2 (R167). -/
def State.phaseOpen (s : State) (a : Bytes) (core n : Nat) : Bool :=
  let r := acRect a
  let cs := r.idx s
  match cs.findIdx? (fun i => coreNum (s.coreAt i) == core) with
  | none => false
  | some i => n == (s.core core).phase + 1 && (r.next i).all (fun m =>
      s.closedTo (acP a) (acF a) n (physOf core).yh m.1 (cs.getD m.2 0) ((r.x + m.2 % r.w + r.y + m.2 / r.w) % 2 == 1))

/-- PHASE_START (R167): a core of a free paddock begins the phase after `waited` yclk of its half in which no other core of the half was
counted as waiting. -/
def execPhaseStart (core phase waited : Nat) (s : State) : Out :=
  let d := (physOf core).yh
  .next (match s.engineOf d with
    | none => s
    | some e =>
      match s.phased e with
      | none => s
      | some c =>
        if s.engAligned e then s
        else
          let t := { s with freeCtr := s.freeCtr + 8 }
          if s.phaseOpen (s.ctrlOf c.sched.header) core phase then
            (t.modCore core (fun x => { x with phase := phase, phaseAt := (s.rclk d).yclk })).bumpBy .half d 13 waited
          else t)

/-! ## SNAPSHOT (R180, R201) -/

/-- The running ANNEAL, RESUME or ROTATE of engine `e` that a SNAPSHOT from another queue slot, held as the preload, stops; with the SNAPSHOT. -/
def State.stoppedBy (s : State) (e : Nat) : Option (Cmd × Cmd) :=
  match (s.eng e).preload, (s.eng e).cur with
  | some p, some c =>
    if p.fail.isNone ∧ dOp p.cmd.desc = opSnapshot ∧ p.cmd.slot ≠ c.slot ∧ p.cmd.queue ≠ c.queue then
      if (s.running e opRotate).isSome then some (c, p.cmd)
      else if ((s.running e opAnneal).isSome ∨ (s.running e opResume).isSome) ∧
          acRect (s.ctrlOf p.cmd.sched.header) = acRect (s.ctrlOf c.sched.header) then some (c, p.cmd)
      else none
    else none
  | _, _ => none

/-- SNAPSHOT (R180): as a stop request it ends the running command after the phases, or visits, that `at_` counts; once it has started itself
it writes the snapshot, except where it stopped a ROTATE. -/
def execSnapshot (eng : Nat) (at_ : Progress) (s : State) : Out :=
  .next (match s.running eng opSnapshot with
    | some c =>
      let skip := (s.eng eng).noSnap == some (c.queue, c.seq)
      let s1 := s.modEng eng (fun x => { x with noSnap := none })
      if skip then s1.completeRun eng c false true
      else
        let w := s1.writeSnapshot eng (s.ctrlOf c.sched.header) c.early
        match w.2 with
        | some f => w.1.xlatEnd eng c f.1 true f.2
        | none => w.1.completeRun eng c false true
    | none =>
      match s.stoppedBy eng with
      | none => s
      | some (c, n) =>
        if dOp c.desc = opRotate then
          (s.modEng eng (fun x => { x with noSnap := some (n.queue, n.seq) })).endRotate eng c (some (max 1 at_.units)) []
        else s.endAnneal eng c (some (max 1 at_.units)) [])

end Sys2Proof.Machine
end

