-- ==== Sys2Proof/Machine/Drain.lean ====
section
/-!
DEFINITION. The drain's number work: output codes, row ranges, history records, row-scale entries and top-k candidates (R107 to R118,
R147).
-/
namespace Sys2Proof.Machine

/-! ## Formats of outputs and codebook entries (R79, R97, R109) -/

/-- A format byte takes the integer path (R98, R99). -/
def intPath (fb : Nat) : Bool := !fmtFloat fb

/-- A codebook entry as FP32: an INT8 value or an FP16 one (R79, R100). -/
def entry32 (fb e : Nat) : Nat := if intPath fb then ofInt32 (signed 8 e) else (floatElem 9 e).v

/-- The entries that a codebook format uses. -/
def cbSize (fb : Nat) : Nat := if fmtOf fb = 4 then 16 else 256

/-- The entries of a codebook format as FP32. -/
def cbEntries (fb : Nat) (table : List Nat) : List Nat := (table.take (cbSize fb)).map (entry32 fb)

/-- The binary format of a float format code. -/
def outFmt (f : Nat) : Fmt := if f = 6 then fmtE4M3 else if f = 7 then fmtE5M2 else if f = 8 then fmtBf16 else if f = 9 then fmtF16 else fmt32

/-- Bits of a code. -/
def codeBits (fb : Nat) : Nat := fmtBits (fmtOf fb)

/-- The largest magnitude among FP32 words that are not NaN. -/
def maxMag (vs : List Nat) : Nat := ((vs.filter (fun v => !isNan32 v)).map mag32).foldl max 0

/-- QMAX of an output under a quantisation mode, as FP32; none for a float output in mode 0x00 (R109). -/
def qMax (fb mode fixed : Nat) (table : List Nat) : Option Nat :=
  let f := fmtOf fb
  if f = 0 then some (ofInt32 7) else if f = 1 then some (ofInt32 15)
  else if f = 2 then some (ofInt32 127) else if f = 3 then some (ofInt32 255)
  else if f ≤ 5 then some (maxMag (cbEntries fb table))
  else if f = 6 then some (ofInt32 448) else if f = 7 then some (ofInt32 57344)
  else if mode = 2 then some fixed else none

/-- s and r of a range R (R109, R110). -/
def factors (range qm : Nat) : Nat × Nat := if mag32 qm = 0 then (one32, 0) else (fdivPos range qm, fdivPos qm range)

/-! ## Element codes (R107, R110) -/

/-- An exact value rounded to the nearest integer, ties to even. -/
def Dy.rne (x : Dy) : Int :=
  let m := if 0 ≤ x.e then x.n.natAbs * 2 ^ x.e.toNat else rneDiv x.n.natAbs (2 ^ (-x.e).toNat)
  if x.n < 0 then -(m : Int) else m

/-- The codebook search of R107 over entries from `lo`, halving from `half`; `fuel` bounds the steps. -/
def cbSearch (v : Dy) (es : List Nat) : Nat → Nat → Nat → Nat
  | 0, _, lo => lo
  | fuel + 1, half, lo =>
    if half = 0 then lo
    else
      let a := es.getD (lo + half - 1) 0
      let b := es.getD (lo + half) 0
      let up := !isNan32 a && !isNan32 b && ((val32 a).add (val32 b)).lt (v.mul ⟨2, 0⟩)
      cbSearch v es fuel (half / 2) (if up then lo + half else lo)

/-- Range of codes of an integer format (R109). -/
def codeRange (f : Nat) : Int × Int := if f = 0 then (-7, 7) else if f = 1 then (0, 15) else if f = 2 then (-127, 127) else (0, 255)

/-- The code of NaN (R110). -/
def nanCode (f : Nat) : Nat :=
  if f ≤ 5 then 0 else if f ≤ 7 then 0x7F else if f = 8 then 0x7FC0 else if f = 9 then 0x7E00 else nan32

/-- An exact value in a float format: rounded, at most the largest finite magnitude; whether it was past it.  Below the normal range it is rounded once,
on the subnormal grid (R110; DESIGN CHOICE, log entry 66). -/
def roundOut (f : Nat) (neg : Bool) (x : Dy) : Nat × Bool :=
  let m := (outFmt f).round x
  let top := decide ((outFmt f).maxMag < m)
  ((if neg then 2 ^ (fmtBits f - 1) else 0) + min m (outFmt f).maxMag, top)

/-- The code of an element after the clamp step under factor `r`, and whether it counts as clamped (R110); a zero of either sign has code 0 in FP8
(R115).  In a row of zeros NaN elements and codebook formats take the codes that R110 gives them (DEDUCED, log entry 66). -/
def outCode (fb mode fixed : Nat) (table : List Nat) (r v : Nat) : Nat × Bool :=
  let f := fmtOf fb
  if isNan32 v then (nanCode f, false)
  else
    let x := (val32 v).mul (val32 r)
    if f ≤ 3 then
      let n := x.rne
      let c := max (codeRange f).1 (min n (codeRange f).2)
      (unsigned (fmtBits f) c, decide (c ≠ n) || ((f == 1 || f == 3) && decide (x.n < 0)))
    else if f ≤ 5 then
      let es := cbEntries fb table
      let vs := (es.filter (fun e => !isNan32 e)).map val32
      (cbSearch x es 8 (cbSize fb / 2) 0, !vs.isEmpty && (vs.all (fun e => x.lt e) || vs.all (fun e => e.lt x)))
    else if f ≤ 7 then (if mag32 v = 0 then (0, false) else roundOut f (neg32 v) x)
    else if mode = 2 ∧ mag32 fixed < mag32 v then ((roundOut f (neg32 v) (val32 fixed)).1, true)
    else ((roundOut f (neg32 v) (val32 v)).1, false)

/-- The magnitude that a code stands for (R118); 0 for a NaN. -/
def codeMag (fb : Nat) (table : List Nat) (c : Nat) : Dy :=
  let f := fmtOf fb
  if f ≤ 3 then ⟨(intElem f c).natAbs, 0⟩
  else if f ≤ 5 then
    let e := (cbEntries fb table).getD c 0
    if isNan32 e then ⟨0, 0⟩ else (val32 e).abs
  else
    let r := floatElem f c
    if r.nan then ⟨0, 0⟩ else (val32 r.v).abs

/-- Codes whose largest magnitude lies below QMAX / 16 (R118); none of a NaN element is among them (R110). -/
def underused (fb : Nat) (table : List Nat) (qm : Option Nat) (cs : List Nat) : Bool :=
  match qm with
  | none => false
  | some q => !cs.isEmpty && cs.all (fun c => (codeMag fb table c).lt ((val32 q).mul ⟨1, -4⟩))

/-- Codes of `w` bits packed into bytes (R97). -/
def packCodes (w : Nat) (cs : List Nat) : Bytes :=
  if w = 4 then (upto ((cs.length + 1) / 2)).map (fun i => BitVec.ofNat 8 (cs.getD (2 * i) 0 % 16 + cs.getD (2 * i + 1) 0 % 16 * 16))
  else (cs.map (toBytes (w / 8))).flatten

/-- `n` codes of `w` bits from packed bytes (R97). -/
def unpackCodes (w n : Nat) (bs : Bytes) : List Nat :=
  if w = 4 then (bs.flatMap (fun b => [b.toNat % 16, b.toNat / 16])).take n else wordsOf (w / 8) n bs

/-! ## History records and row-scale entries (R111 to R116) -/

/-- The smallest normal FP32 value. -/
def minNormal : Nat := 0x00800000

/-- HPOS and HVALID as they are read (R112). -/
def histPos (h : Bytes) (depth : Nat) : Nat × Nat :=
  if depth ≤ fld h 0x28 1 ∨ depth < fld h 0x29 1 then (0, 0) else (fld h 0x28 1, fld h 0x29 1)

/-- The largest of a list of FP32 words, NaN where there is none. -/
def maxVal (vs : List Nat) : Nat :=
  match vs with
  | [] => nan32
  | x :: xs => xs.foldl (fun a b => if key32 a < key32 b then b else a) x

/-- The smallest of a list of FP32 words, NaN where there is none. -/
def minVal (vs : List Nat) : Nat :=
  match vs with
  | [] => nan32
  | x :: xs => xs.foldl (fun a b => if key32 b < key32 a then b else a) x

/-- The predicted range of a row (R111). -/
def predictRange (h : Bytes) (depth headroom : Nat) : Nat :=
  let p := histPos h depth
  let m := if p.2 = 0 then fld h 0x20 4
    else maxVal (((upto p.2).map (fun i => fld h (4 * ((p.1 + depth - 1 - i % depth) % depth)) 4)).filter (fun v => !isNan32 v))
  if isNan32 m ∨ isInf32 m ∨ neg32 m then minNormal
  else
    let r := (round32 ((val32 m).mul ⟨(2 ^ headroom : Nat), 0⟩) false).v
    if r < minNormal then minNormal else r

/-- The history record after a merge with maximum `m` at scale `s` (R112, R113). -/
def histUpdate (h : Bytes) (depth m s : Nat) : Bytes :=
  let p := histPos h depth
  let h1 := setFld (setFld h (4 * p.1) 4 m) 0x24 4 s
  (setFld (setFld h1 0x28 1 ((p.1 + 1) % depth)) 0x29 1 (min (p.2 + 1) depth)).take 0x2A ++ zeros 6

/-- Row-scale FLAGS (R114). -/
def rfZero : Nat := 1
def rfDegen : Nat := 2
def rfSat : Nat := 4
def rfUnder : Nat := 8
def rfRecomputed : Nat := 16

/-- A row-scale entry (R114). -/
def rowEntry (scale offset maxAbs flags : Nat) : Bytes := toBytes 4 scale ++ toBytes 4 offset ++ toBytes 4 maxAbs ++ toBytes 1 flags ++ zeros 3

/-- ZERO and DEGEN rows: FLAGS, SCALE and OFFSET (R115, R116). -/
def specialRow (vs : List Nat) : Option (Nat × Nat × Nat) :=
  let lo := minVal vs
  let hi := maxVal vs
  if vs.all (fun v => mag32 v = 0) then some (rfZero, one32, 0)
  else if 2 ≤ vs.length ∧ key32 lo = key32 hi then some (rfDegen, minNormal, hi)
  else none

end Sys2Proof.Machine
end

