-- ==== Sys2Proof/Machine/Links.lean ====
section
/-!
DEFINITION. Nolonlink and REDUCE: channels, items, frames, replays, lane swaps and retrains; the tree sums of a compute engine and the
nodes of a link engine (R253, R286, R287, R366, R435 to R450).
-/
namespace Sys2Proof.Machine

/-! ## Sequence numbers and channels -/

/-- SEQ counts modulo 2^32. -/
def seqAdd (a n : Nat) : Nat := (a + n) % 2 ^ 32

/-- SEQ `a` does not lie after `b`. -/
def seqLe (a b : Nat) : Bool := decide ((b + 2 ^ 32 - a % 2 ^ 32) % 2 ^ 32 < 2 ^ 31)

def LinkPort.txChan (l : LinkPort) (c : Nat) : TxChan := sget TxChan.reset l.tx c
def LinkPort.rxChan (l : LinkPort) (c : Nat) : RxChan := sget RxChan.reset l.rx c
def LinkPort.setTx (l : LinkPort) (c : Nat) (x : TxChan) : LinkPort := { l with tx := sset TxChan.reset l.tx c x }
def LinkPort.setRx (l : LinkPort) (c : Nat) (x : RxChan) : LinkPort := { l with rx := sset RxChan.reset l.rx c x }

/-- The items in the transmit buffer. -/
def LinkPort.queued (l : LinkPort) : List TxItem := (upto 16).flatMap (fun c => (l.txChan c).going.map Going.item ++ (l.txChan c).queue)

/-- Domain of a port's edge die. -/
def portDomain (port : Nat) : Nat := 49 + port

/-! ## Sending (R438 to R442, R446, R449) -/

/-- Payload flits of a frame. -/
def frameFlits : Nat := 310

/-- The frames of an item on a channel, their SEQ still to come (R446). -/
def itemFrames (chan : Nat) (x : TxItem) : List LinkFrame :=
  let n := (x.flits.length / 16 + frameFlits - 1) / frameFlits
  (upto n).map (fun i =>
    let p := (x.flits.drop (i * frameFlits * 16)).take (frameFlits * 16)
    { type := 1, chan := chan, flags := b2n (i == 0) + b2n (i + 1 == n) * 2, seq := 0, tag := x.tag, itemFlit := i * frameFlits,
      payload := p ++ zeros (frameFlits * 16 - p.length), crcOk := true, badLanes := [] })

/-- The frame content (R438): 312 flits of 16 bytes, the header, the payload and the trailer. -/
def frameContent (f : LinkFrame) (ack : Nat) : Bytes :=
  let body := toBytes 1 f.type ++ toBytes 1 f.chan ++ toBytes 1 f.flags ++ zeros 1 ++ toBytes 4 f.seq ++ toBytes 4 f.tag ++ toBytes 2 f.itemFlit ++
    zeros 2 ++ (f.payload ++ zeros (4960 - f.payload.length)).take 4960
  body ++ toBytes 8 (crc64 body) ++ toBytes 4 ack ++ zeros 4

/-- The 2,496 words of 16 bits that a frame content is cut into (R437). -/
def frameWords (content : Bytes) : List Nat := wordsOf 2 2496 content

/-- Logical lane of word `w`, and its position among the lane's 26 (R437). -/
def wordLane (w : Nat) : Nat := w % 96
def wordPos (w : Nat) : Nat := w / 96

/-- The words of a frame content on logical lane `j`, by position (R437). -/
def laneWords (content : Bytes) (j : Nat) : List Nat :=
  (indexed (frameWords content)).filterMap (fun x => if wordLane x.1 = j then some x.2 else none)

/-- The frame content that the words of the 96 logical lanes make up: word w is at position w div 96 of lane w mod 96 (R437). -/
def ofLanes (lanes : List (List Nat)) : Bytes :=
  ((upto 2496).map (fun w => toBytes 2 ((lanes.getD (wordLane w) []).getD (wordPos w) 0))).flatten

/-- Logical lane j of a lane map: the physical lane of its (j + 1)th set bit (R436). -/
def physLane (map : BitVec 108) (j : Nat) : Option Nat := ((upto 108).filter (fun i => map.getLsbD i))[j]?

/-- What a physical transmit lane of a port carries of a frame in its slot: none on a lane outside the map (R436, R437). -/
def LinkPort.onLane (l : LinkPort) (f : LinkFrame) (lane : Nat) : Option (List Nat) :=
  ((upto 96).find? (fun j => physLane l.txMap j == some lane)).map (laneWords (frameContent f ((l.expSeq + 2 ^ 32 - 1) % 2 ^ 32)))

/-- The last `n` elements of a list. -/
def lastN {α : Type} (n : Nat) (xs : List α) : List α := xs.drop (xs.length - n)

/-- The front item of a channel is sent from now on. -/
def LinkPort.sendItem (l : LinkPort) (chan : Nat) : LinkPort :=
  let ch := l.txChan chan
  match ch.queue with
  | [] => l
  | x :: rest => l.setTx chan { ch with queue := rest, going := ch.going ++ [⟨x, itemFrames chan x⟩] }

/-- TXITEM_SEND (R446): the front item of an open channel goes out while the port is UP, its frames in the channel's data positions. -/
def execTxItemSend (port chan : Nat) (s : State) : Out :=
  .next (if (s.link port).st = .up then s.modLink port (fun l => l.sendItem chan) else s)

/-- NAK received (R440): every kept frame from the named SEQ goes out again as a REPLAY frame, in the next data positions. -/
def execNak (port seq : Nat) (s : State) : Out :=
  .next (if (s.link port).st = .up then
      ((s.bump .link port 0).modLink port (fun l => { l with
        replays := (l.sent.filter (fun f => seqLe seq f.seq)).map (fun f => { f with type := 2 }) })).traceLink port 0 (toBytes 4 seq)
    else s)

/-! ## Frame slots (R439) -/

/-- A frame without data: IDLE, or CONTROL with its messages. -/
def bareFrame (type : Nat) (payload : Bytes) : LinkFrame :=
  { type := type, chan := 0, flags := 0, seq := 0, tag := 0, itemFlit := 0, payload := payload ++ zeros (4960 - payload.length), crcOk := true, badLanes := [] }

/-- What a data position that nothing fills sends. -/
def idleFrame : LinkFrame := bareFrame 0 []

/-- A control message of 16 bytes: its type, and its contents from byte 1 on (DESIGN CHOICE, log entry 72). -/
def ctlMsg (type : Nat) (body : Bytes) : Bytes := toBytes 1 type ++ body ++ zeros (15 - body.length)

/-- The messages that wait at a port: NAK until the missing frame has come, LANE_FAULTs, every LANE_SWAP until its slot, and MAP. -/
def LinkPort.messages (l : LinkPort) : List Bytes :=
  (if l.nakOut then [ctlMsg 1 (zeros 3 ++ toBytes 4 l.expSeq)] else []) ++ l.faultOut.map (fun i => ctlMsg 2 (toBytes 1 i)) ++
    l.swapOut.map (fun x => ctlMsg 3 (toBytes 1 x.1 ++ toBytes 1 x.2.1 ++ zeros 1 ++ toBytes 4 x.2.2)) ++
    (if l.mapOut then [ctlMsg 4 (toBytes 14 l.txMap.toNat)] else [])

/-- The CONTROL frame of a port: its messages, or ALIVE where none waits. -/
def LinkPort.control (l : LinkPort) : LinkFrame :=
  bareFrame 3 (if l.messages.isEmpty then ctlMsg 5 [] else (l.messages.take 310).flatten)

/-- The channel that sends in data position `p`: open, its mask has the position, and an item of it is being sent (R445, R446). -/
def LinkPort.sender (l : LinkPort) (p : Nat) : Option Nat :=
  (upto 16).find? (fun c => (l.txChan c).open_ && bit (l.txChan c).slots p && !(l.txChan c).going.isEmpty)

/-- The next frame of a channel goes out in slot `f`: its last one leaves the item to be acknowledged. -/
def LinkPort.sendFrame (l : LinkPort) (f chan : Nat) : LinkPort :=
  let ch := l.txChan chan
  match ch.going with
  | [] => l
  | g :: rest =>
    match g.left with
    | [] => l.setTx chan { ch with going := rest }
    | x :: left =>
      let y := { x with seq := l.nextSeq }
      let l1 := l.setTx chan { ch with going := if left.isEmpty then rest else { g with left := left } :: rest }
      { l1 with
        nextSeq := seqAdd l.nextSeq 1, sent := lastN 512 (l.sent ++ [y]), out := l.out ++ [(f, y)],
        unacked := if left.isEmpty then l.unacked ++ [⟨chan, l.nextSeq, g.item⟩] else l.unacked }

/-- Slot `f` of a port (R439, R440): a CONTROL frame in every sixteenth, else a REPLAY frame that waits, else a frame of the position's channel,
else IDLE.  IDLE and ALIVE stand in no list. -/
def LinkPort.slot (l : LinkPort) (f : Nat) : LinkPort :=
  if f % 16 = 15 then
    if l.messages.isEmpty then l else { l with out := l.out ++ [(f, l.control)], faultOut := [], mapOut := false }
  else
    match l.replays with
    | x :: rest => { l with out := l.out ++ [(f, x)], replays := rest }
    | [] =>
      match l.sender (f % 16) with
      | some c => l.sendFrame f c
      | none => l

/-- The frame that slot `f` of a port has carried. -/
def LinkPort.inSlot (l : LinkPort) (f : Nat) : LinkFrame :=
  match l.out.find? (fun x => x.1 == f) with
  | some x => x.2
  | none => if f % 16 = 15 then bareFrame 3 (ctlMsg 5 []) else idleFrame

/-- A frame slot of port `port` begins in the hclk that runs. -/
def State.linkSlot (s : State) (port : Nat) : State :=
  let l := s.link port
  let f := slotOf (s.hclk + 1 - l.upAt)
  if l.st = .up ∧ s.slotNow port < f then s.setLink port (l.slot f) else s

/-- The command of a FORM of link REDUCE that runs on the engine of a port. -/
def State.linkCmd (s : State) (port form : Nat) : Option Cmd :=
  match s.running (17 + port) opReduce with
  | some c => if fld c.desc 0x20 1 = form then some c else none
  | none => none

/-- A SEND whose items are all acknowledged ends (R449). -/
def State.sendDone (s : State) (port : Nat) : State :=
  match s.linkCmd port 3, (s.link port).run with
  | some c, some r =>
    let l := s.link port
    if l.queued.any TxItem.bySend || l.unacked.any (fun u => u.item.bySend) then s
    else (s.modLink port (fun l => { l with run := none })).complete (17 + port) c { status := endStatus false r.flagged c.replayed }
  | _, _ => s

/-- ACK_SEQ of a good frame (R438, R445, R449): the peer has received everything up to `seq`. -/
def execAckSeq (port seq : Nat) (s : State) : Out :=
  .next (if (s.link port).st = .up then
      (s.modLink port (fun l => { l with unacked := l.unacked.filter (fun u => !seqLe u.seq seq) })).sendDone port
    else s)

/-- An item pushed by a compute command into the 256 KiB transmit buffer (R446); the items of a SEND come as there is room for them. -/
def State.pushItem (s : State) (port chan tag : Nat) (flits : Bytes) : State :=
  let l := s.link port
  let ch := l.txChan chan
  let used := ((l.queued.filter (fun x => !x.bySend)).map (fun x => x.flits.length)).foldl (· + ·) 0
  if !ch.open_ then s
  else if 0x40000 < used + flits.length then s.bump .link port 3
  else s.modLink port (fun l => l.setTx chan { ch with queue := ch.queue ++ [⟨tag, flits, false⟩] })

/-! ## Receiving (R286, R287, R440, R445 to R448) -/

/-- A write of a link engine; one that does not translate is dropped and recorded (R327, R340). -/
def State.linkWrite (s : State) (port va : Nat) (bs : Bytes) : State :=
  match s.firstFail va bs.length true false with
  | none => s.devWrite va bs
  | some f => s.xlatFault f.1 true (.link port) f.2

/-- A fence that a link engine signals takes ADD 1 (R362, R447); without a hub nothing is signalled (R515). -/
def State.linkSignal (s : State) (port : Nat) (f : Option Nat) : State :=
  match f with
  | none => s
  | some n => if s.hubAlive then (s.fenceAdd n 1).trace 3 6 0 (17 + port) (toBytes 1 n ++ toBytes 8 1) else s

/-- ITEM_ARRIVAL (R447). -/
def State.itemArrives (s : State) (port chan tag : Nat) (flits : Bytes) : State :=
  let r := (s.link port).rxChan chan
  let fresh := match r.highest with
    | none => true
    | some h => decide (h < tag)
  if !fresh then s.bump .link port 4
  else
    let full := decide (4 ≤ r.items.length)
    let lost := full && (r.items.head?.map (fun x => !x.taken)).getD false
    let r1 := { r with items := (if full then r.items.drop 1 else r.items) ++ [⟨tag, flits, false⟩], highest := some tag }
    let s1 := s.modLink port (fun l => l.setRx chan r1)
    let s2 := if lost then s1.bump .link port 5 else s1
    let s3 := match r.mem with
      | none => s2
      | some a => s2.linkWrite port (a + tag % 4 * r.flits * 16) flits
    s3.linkSignal port r.fence

/-- A frame accepted in order (R438, R445, R447). -/
def State.frameIn (s : State) (port : Nat) (f : LinkFrame) : State :=
  let s1 := s.modLink port (fun l => { l with expSeq := seqAdd l.expSeq 1, nakOut := false })
  let r := (s1.link port).rxChan f.chan
  if !r.open_ then s1.bump .link port 2
  else
    let part := if bit f.flags 0 then some (f.tag, f.payload) else r.partial_.map (fun p => (p.1, p.2 ++ f.payload))
    if bit f.flags 1 then
      let s2 := s1.modLink port (fun l => l.setRx f.chan { r with partial_ := none })
      match part with
      | none => s2
      | some p => s2.itemArrives port f.chan p.1 (p.2.take (r.flits * 16))
    else s1.modLink port (fun l => l.setRx f.chan { r with partial_ := part })

/-- LINK_DOWN (R442): the port goes DOWN, and items whose frames had not all arrived are discarded. -/
def State.linkFalls (s : State) (port : Nat) : State :=
  (s.modLink port (fun l => { l with
    st := .down, rx := smap RxChan.reset (fun x => { x with partial_ := none }) l.rx, nakOut := false, badRun := 0, badCtl := 0, faultOut := [],
    swapOut := [], swapIn := [], mapOut := false, replays := [] })).raise .linkDown (portDomain port) port

/-- A NAK is due: it goes out in the next control frame, and its record is made once (R440, R548). -/
def State.askNak (s : State) (port : Nat) : State :=
  let l := s.link port
  if l.nakOut then s else (s.modLink port (fun l => { l with nakOut := true })).traceLink port 1 (toBytes 4 l.expSeq)

/-- A frame that fails its CRC, or is of no type (R438, R440, R442): one of data starts a NAK and counts against its bad lanes; one of
control, which its slot tells, is dropped without replay, and the fourth lost in a row takes the port down. -/
def State.frameBad (s : State) (port : Nat) (f : LinkFrame) : State :=
  let l := s.link port
  let ctl := if f.type = 3 then l.badCtl + 1 else l.badCtl
  let s0 := s.modLink port (fun l => { l with badRun := l.badRun + 1, badCtl := ctl })
  let s1 := if f.type = 3 then s0 else s0.askNak port
  let s2 := if l.nakOut || f.type == 3 then s1 else s1.each f.badLanes (fun s i => s.countFault (.lane port i))
  if 256 ≤ l.badRun + 1 ∨ 4 ≤ ctl then s2.linkFalls port else s2

/-- DATA_FRAME_RX (R440): a DATA or REPLAY frame is accepted in order, or dropped; a NAK starts where one is missing. -/
def execDataFrameRx (port : Nat) (frame : LinkFrame) (s : State) : Out :=
  .next (
    let l := s.link port
    if l.st ≠ .up then s
    else if !frame.crcOk ∨ 3 < frame.type then s.frameBad port frame
    else
      let s1 := s.modLink port (fun l => { l with badRun := 0, badCtl := if frame.type = 3 then 0 else l.badCtl })
      if frame.type ≠ 1 ∧ frame.type ≠ 2 then s1
      else if frame.seq % 2 ^ 32 = l.expSeq then s1.frameIn port frame
      else if seqLe l.expSeq frame.seq then s1.askNak port
      else s1)

/-- The newest item of a list with a tag up to `t`. -/
def newestUpTo (t : Nat) (xs : List Item) : Option Item :=
  xs.foldl (fun acc x => if x.tag ≤ t ∧ (acc.all (fun y => y.tag ≤ x.tag)) then some x else acc) none

/-- A TAGGED read of a receive channel (R287, R448): the flits, whether the read is stale, and the state after it. -/
def State.linkRead (s : State) (port chan tag : Nat) : Bytes × Bool × State :=
  let r := (s.link port).rxChan chan
  let item := newestUpTo tag r.items
  let stale := !(item.any (fun x => x.tag == tag))
  let s1 := s.modLink port (fun l => l.setRx chan { r with items := r.items.map (fun x => if some x = item then { x with taken := true } else x) })
  let s2 := if stale then (s1.bump .link port 6).bump .link port 7 else s1
  ((item.map Item.flits).getD (zeros (r.flits * 16)), stale, s2)

/-- The command in engine `e` has met a stale read (R287). -/
def State.flagStale (s : State) (e : Nat) : State :=
  s.modEng e (fun x => { x with cur := x.cur.map (fun c => { c with flagged := true }) })

/-- 16-byte flits of a run of bytes. -/
def toFlits (bs : Bytes) : List Flit := (chunks 16 (bs.length / 16) bs).map (fun b => dataFlit b false false)

/-- The bytes of a run of flits. -/
def flitBytes (fs : List Flit) : Bytes := (fs.map Flit.data).flatten

/-- LINK_READ_REQUEST (R287, R448): the reply enters the die port; a stale read flags the command of engine `eng` that sent the request. -/
def execLinkReadRequest (port chan tag : Nat) (eng : Option Nat) (s : State) : Out :=
  .next (
    let r := s.linkRead port chan tag
    let t := r.2.2.modLink port (fun l => { l with reply := [toFlits r.1] })
    match eng with
    | some e => if r.2.1 then t.flagStale e else t
    | none => t)

/-! ## Lanes and training (R436, R441, R442, R524) -/

/-- LANE_FAULT received (R441): the lowest transmit lane outside the map takes over, or the port has no spare. -/
def execLaneFault (port lane : Nat) (s : State) : Out :=
  .next (
    let l := s.link port
    let taken := l.swapOut.map (fun x => x.2.1)
    if l.st ≠ .up ∨ !l.txMap.getLsbD lane ∨ l.swapOut.any (fun x => x.1 == lane) then s
    else
      match (upto 108).find? (fun i => !l.txMap.getLsbD i && !taken.contains i) with
      | none => s.noSpareLane port
      | some i => s.announceSwap port lane i)

/-- LANE_SWAP received (R441): the peer names a swap, in every control frame until its slot. -/
def execLaneSwap (port old new slot : Nat) (s : State) : Out :=
  .next (s.modLink port (fun l => if l.st ≠ .up ∨ l.swapIn.contains (old, new, slot) then l else { l with swapIn := l.swapIn ++ [(old, new, slot)] }))

/-- A swap of a lane-map PATCH has taken effect: the next begins, or the PATCH completes (R63). -/
def State.patchSwapped (s : State) (p : PatchWait) : State :=
  let s1 := s.dropPatch p
  match p.swaps.drop 1 with
  | [] => s1.endPatch p.cmd p.req none
  | x :: rest => (s1.modRel (fun r => { r with patches := r.patches ++ [{ p with swaps := x :: rest }] })).announceSwap x.1 x.2.1 x.2.2

/-- Slot F of a swap that this end announced. -/
def State.swapOutNow (s : State) (port : Nat) (x : Nat × Nat × Nat) : State :=
  let s1 := s.modLink port (fun l => { l with swapOut := l.swapOut.drop 1 })
  match s.rel.patches.find? (fun p => p.swaps.head? == some (port, x.1, x.2.1)) with
  | none => s1.swapLane port x.1 x.2.1
  | some p =>
    let s2 := s1.modLink port (fun l => { l with txMap := laneFor l.txMap x.1 x.2.1 })
    ((s2.bump .link port 1).raise .linkLaneSwap (portDomain port) (port + x.1 * 0x100 + x.2.1 * 0x10000)).patchSwapped p

/-- LANE_SWAP_SLOT (R441): both ends switch the lane at slot F, which this end counts for what it announced. -/
def execLaneSwapSlot (port : Nat) (s : State) : Out :=
  .next (match (s.link port).swapOut, (s.link port).swapIn with
    | x :: _, _ => if x.2.2 ≤ s.slotNow port then s.swapOutNow port x else s
    | [], x :: rest => s.modLink port (fun l => { l with swapIn := rest, rxMap := laneFor l.rxMap x.1 x.2.1 })
    | [], [] => s)

/-- MAP received (R436). -/
def execMapMessage (port : Nat) (map : BitVec 108) (s : State) : Out := .next (s.modLink port (fun l => { l with rxMap := map }))

/-- LINK_DOWN. -/
def execLinkDown (port : Nat) (s : State) : Out := .next (if (s.link port).st = .up then s.linkFalls port else s)

/-- The items that were not acknowledged, or were being sent, go back to the front of their channels (R442, R449). -/
def LinkPort.resendAll (l : LinkPort) : LinkPort :=
  let back := (upto 16).foldl (fun l c =>
    let again := (l.unacked.filter (fun u => u.chan == c)).map Unacked.item ++ (l.txChan c).going.map Going.item
    if again.isEmpty then l else l.setTx c { l.txChan c with queue := again ++ (l.txChan c).queue, going := [] }) l
  { back with unacked := [], sent := [] }

/-- The swaps that a PATCH waited for at a port have taken effect with its training. -/
def State.patchTrained (s : State) (port : Nat) : State :=
  s.each s.rel.patches (fun s p =>
    if p.swaps.any (fun x => x.1 == port) then
      let left := p.swaps.filter (fun x => x.1 != port)
      let s1 := s.dropPatch p
      match left with
      | [] => s1.endPatch p.cmd p.req none
      | x :: _ =>
        let s2 := s1.modRel (fun r => { r with patches := r.patches ++ [{ p with swaps := left }] })
        if p.swaps.head?.any (fun y => y.1 == port) then s2.announceSwap x.1 x.2.1 x.2.2 else s2
    else s)

/-- LINK_RETRAINED (R436, R442): the port comes UP on the lanes of its NET map, frame slots and SEQ restart at 0, and MAP is exchanged. -/
def execLinkRetrained (port : Nat) (map : BitVec 108) (s : State) : Out :=
  .next (if s.pwr.mod = .safe ∨ ((s.link port).st ≠ .down ∧ (s.link port).st ≠ .training) then s
    else
      (s.modLink port (fun l => { l.resendAll with
        st := .up, rxMap := map, txMap := sget 0 s.img.net.laneMaps port, nextSeq := 0, expSeq := 0, upAt := s.hclk, mapOut := true })).patchTrained port)

/-- NO_PEER_TIMEOUT (R524): no receive signal. -/
def execNoPeerTimeout (port : Nat) (s : State) : Out :=
  .next (s.modLink port (fun l => if l.st = .training ∨ l.st = .down then { l with st := .noPeer } else l))

/-- RECEIVE_SIGNAL (R524): a port without a peer keeps listening, and trains when a signal comes. -/
def execReceiveSignal (port : Nat) (s : State) : Out :=
  .next (s.modLink port (fun l => if l.st = .noPeer then { l with st := .training } else l))

/-! ## REDUCE on a link engine (R444, R445, R449, R450) -/

def rForm (d : Bytes) : Nat := fld d 0x20 1
def rChan (d : Bytes) : Nat := fld d 0x21 1
def rDir (d : Bytes) : Nat := fld d 0x22 1
def rFlits (d : Bytes) : Nat := fld d 0x26 2
def rAddr (d : Bytes) : Nat := fld d 0x28 8
def rTxChan (d : Bytes) : Nat := fld d 0x31 1
def rCount (d : Bytes) : Nat := fld d 0x34 4
def rTag0 (d : Bytes) : Nat := fld d 0x38 4

/-- OPEN of a receive channel on port `port` with the channel as the command gives it. -/
def openRx (d : Bytes) : RxChan :=
  { open_ := true, flits := rFlits d, fence := if bit (fld d 0x23 1) 0 then some (fld d 0x30 1) else none,
    mem := if bit (fld d 0x23 1) 1 then some (rAddr d) else none, items := [], highest := none, partial_ := none }

/-- REDUCE_OPEN (R445). -/
def execReduceOpen (eng : Nat) (s : State) : Out :=
  .next (match s.starting eng opReduce with
    | some (c, t) =>
      if rForm c.desc ≠ 1 ∨ eng < 17 then s
      else
        let t1 := t.modLink (eng - 17) (fun l =>
          if rDir c.desc = 0 then l.setTx (rChan c.desc) ⟨true, fld c.desc 0x24 2, rFlits c.desc, [], []⟩
          else l.setRx (rChan c.desc) (openRx c.desc))
        t1.complete eng c { status := stOk }
    | none => s)

/-- REDUCE_CLOSE (R445): a transmit channel waits until its last item has been acknowledged. -/
def execReduceClose (eng : Nat) (s : State) : Out :=
  .next (match s.starting eng opReduce with
    | some (c, t) =>
      if rForm c.desc ≠ 2 ∨ eng < 17 then s
      else
        let l := t.link (eng - 17)
        let k := rChan c.desc
        if rDir c.desc = 0 then
          if !(l.txChan k).queue.isEmpty || !(l.txChan k).going.isEmpty || l.unacked.any (fun u => u.chan == k) then t
          else (t.setLink (eng - 17) (l.setTx k TxChan.reset)).complete eng c { status := stOk }
        else (t.setLink (eng - 17) (l.setRx k RxChan.reset)).complete eng c { status := stOk }
    | none => s)

/-- The items of a SEND as device memory holds them. -/
def sendItems (d : Bytes) (bs : Bytes) : List TxItem :=
  (upto (rCount d)).map (fun i => ⟨(rTag0 d + i) % 2 ^ 32, (bs.drop (i * rFlits d * 16)).take (rFlits d * 16), true⟩)

/-- REDUCE_SEND (R449): the items are read, the re-reads of what they meet first (R330), and queued; the command ends when the last is acknowledged. -/
def execReduceSend (eng : Nat) (s : State) : Out :=
  .next (match s.starting eng opReduce with
    | some (c, t) =>
      if rForm c.desc ≠ 3 ∨ eng < 17 then s
      else
        let port := eng - 17
        if (t.link port).run.isSome then t.sendDone port
        else
          let n := rCount c.desc * rFlits c.desc * 16
          match t.firstFail (rAddr c.desc) n false false with
          | some f => (t.noteFail eng (xlatFail f.1)).complete eng c (xlatFail f.1).done
          | none =>
            let r := t.devRead (rAddr c.desc) n
            (t.takeChecks eng c [] (t.devBad (rAddr c.desc) n)).getD ((t.modLink port (fun l =>
              let ch := l.txChan (rChan c.desc)
              { l.setTx (rChan c.desc) { ch with queue := ch.queue ++ sendItems c.desc r.data } with
                run := some ⟨rCount c.desc, r.voids.any id⟩ })).sendDone port)
    | none => s)

/-- What the mesh brings for one child, with the SAT and NAN flags that travel with its flits: void where it brings none. -/
def meshFlits (n : Nat) (x : Option MeshData) : List Flit := match x with
  | some m => (chunks 16 (m.data.length / 16) m.data).map (fun b => dataFlit b m.sat m.nan)
  | none => List.replicate n voidFlit

/-- The tree node placed at a port's link engine: its number and record (R252, R450).  A node with children comes before a leaf there. -/
def Tree.nodeFor (t : Tree) (port : Nat) : Option (Nat × TreeNode) :=
  let here := (indexed t.nodes).filter (fun x => decide (x.2.kind = 2 ∧ x.2.loc = port))
  (here.find? (fun x => !x.2.children.isEmpty)).orElse (fun _ => here.head?)

/-- Child `c` of a node is a leaf at this engine: it takes the receive channel. -/
def Tree.localLeaf (t : Tree) (port c : Nat) : Bool :=
  match t.nodes[c]? with
  | some m => m.children.isEmpty && decide (m.kind = 2 ∧ m.loc = port)
  | none => false

/-- The operands of one pair, in child order: the item of the receive channel at local leaves; at the others what commands of
this module have pushed, else what the mesh brings. -/
def Tree.operands (t : Tree) (port n : Nat) (item : Bytes) (came : List (Nat × List Flit)) : List Nat → List (Option MeshData) → List (List Flit)
  | [], _ => []
  | c :: cs, ms =>
    if t.localLeaf port c then toFlits item :: t.operands port n item came cs ms
    else
      match came.find? (fun x => x.1 == c) with
      | some x => x.2 :: t.operands port n item came cs (ms.drop 1)
      | none => meshFlits n (ms.headD none) :: t.operands port n item came cs (ms.drop 1)

/-- The operation of a tree's node over runs of `n` flits: its OP, and for TOPK, of which a record names no k, as many candidates as the flits
hold, largest first (DESIGN CHOICE, log entry 67). -/
def Tree.nodeOp (t : Tree) (n : Nat) : NodeOp := ⟨t.op, min 8 (2 * n), false⟩

/-- The oldest entry of each child of a list is taken. -/
def dropFirst (cs : List Nat) (m : List (Nat × List Flit)) : List (Nat × List Flit) :=
  cs.foldl (fun m c => m.eraseP (fun x => x.1 == c)) m

/-- One pair of a NODE goes through it (R450): the result goes to the parent through the die ports, or out on TX_CHAN from the root. -/
def State.nodePair (s : State) (port : Nat) (c : Cmd) (t : Tree) (i : Nat) (n : TreeNode) (tag : Nat) (item : Bytes) (ms : List (Option MeshData)) :
    State :=
  let ops := if n.children.isEmpty then [toFlits item] else t.operands port (rFlits c.desc) item (s.link port).mesh n.children ms
  let out := match ops with
    | [] => []
    | x :: xs => (nodeFold (t.nodeOp (rFlits c.desc)) x xs).1
  let void := out.any Flit.void
  let s1 := s.modLink port (fun l => { l with
    run := l.run.map (fun r => ⟨r.done + 1, r.flagged || void⟩), mesh := dropFirst n.children l.mesh })
  if void then s1
  else if i = 0 then
    s1.modLink port (fun l =>
      let ch := l.txChan (rTxChan c.desc)
      l.setTx (rTxChan c.desc) { ch with queue := ch.queue ++ [⟨tag, flitBytes out, false⟩] })
  else s1.modLink port (fun l => { l with reply := l.reply ++ [out] })

/-- A NODE pairs operands by tag while both are there. -/
def State.nodePairs (s : State) (port : Nat) (c : Cmd) (t : Tree) (i : Nat) (n : TreeNode) : List (List (Option MeshData)) → State
  | [] => s
  | ms :: rest =>
    let k := ((s.link port).run.map LinkRun.done).getD 0
    let tag := (rTag0 c.desc + k) % 2 ^ 32
    let needs := n.children.isEmpty || n.children.any (t.localLeaf port)
    let here := ((s.link port).rxChan (rChan c.desc)).items.any (fun x => x.tag == tag)
    if rCount c.desc ≤ k ∨ (needs ∧ !here) then s
    else
      let r := if needs then s.linkRead port (rChan c.desc) tag else ([], false, s)
      (r.2.2.nodePair port c t i n tag r.1 ms).nodePairs port c t i n rest

/-- A NODE that has processed COUNT items ends. -/
def State.nodeDone (s : State) (port : Nat) (c : Cmd) : State :=
  match (s.link port).run with
  | some r =>
    if rCount c.desc ≤ r.done then
      (s.modLink port (fun l => { l with run := none })).complete (17 + port) c { status := endStatus false r.flagged c.replayed }
    else s
  | none => s

/-- REDUCE_NODE (R450): with what the mesh brings for its next items. -/
def execReduceNode (eng : Nat) (mesh : List (List (Option MeshData))) (s : State) : Out :=
  .next (match s.starting eng opReduce with
    | some (c, t) =>
      if rForm c.desc ≠ 0 ∨ eng < 17 then s
      else
        let port := eng - 17
        let t1 := t.modLink port (fun l => { l with run := some (l.run.getD ⟨0, false⟩), reply := [] })
        match treeOf s.img.net.trees (rAddr c.desc % 2 ^ 32) with
        | none => t1.complete eng c (badFormat obDesc 0x28).done
        | some (tr, _) =>
          match tr.nodeFor port with
          | none => t1.complete eng c (badFormat obDesc 0x28).done
          | some (i, n) => (t1.nodePairs port c tr i n mesh).nodeDone port c
    | none => s)

/-! ## REDUCE on a compute engine (R150, R253, R366) -/

/-- What a leaf sends: a core its flits from SRC_OFF, void where its compute is fenced or a word is void; a link engine what `remote` gives;
an edge router idle flits, and so a core that the start marker reached too early (R86, R92, R243, R293, R366). -/
def State.reduceLeaf (s : State) (src n : Nat) (remote : List (Nat × Bytes)) (early : List Nat) (i : Nat) (x : TreeNode) : List Flit :=
  let void := List.replicate n voidFlit
  if x.kind = 0 then
    let k := coreNum (s.coreAt x.loc)
    if early.contains x.loc then List.replicate n idleFlit
    else if (s.core k).halter.isSome then void
    else
      (upto n).map (fun j => match s.coreRead k (src + 16 * j) 16 with
        | none => voidFlit
        | some r => if r.voids.any id then voidFlit else (toFlits r.data).headD voidFlit)
  else if x.kind = 2 then
    (match remote.find? (fun y => y.1 == i) with
      | some y => toFlits y.2
      | none => void)
  else List.replicate n idleFlit

/-- The operation that a REDUCE tree applies at a node under a command (R243, R253): the tree's OP; for TOPK at a core router, k and the order of
the first TOPK word of that router's command frame. -/
def State.frameNodeOp (s : State) (e : Nat) (t : Tree) (n : Nat) (x : TreeNode) : NodeOp :=
  if t.op ≠ 5 ∨ x.kind ≠ 0 then t.nodeOp n
  else
    let g := (s.eng e).active
    let i := (s.engCores e).idxOf x.loc
    match (upto g.cf).find? (fun o => bits (fld g.frames (4 * (i * g.cf + o)) 4) 24 21 == 5) with
    | none => t.nodeOp n
    | some o =>
      let w := fld g.frames (4 * (i * g.cf + o)) 4
      ⟨5, bits w 28 26 + 1, bit w 29⟩

/-- The idle operands and collisions that the routers of a tree met are counted in their halves (R262). -/
def State.countNodes (s : State) (xs : List (TreeNode × NodeCount)) : State :=
  s.each xs (fun s x =>
    let d := if x.1.kind = 0 then (s.coreAt x.1.loc).yh else edgeHalf x.1.loc
    if x.1.kind = 2 then s else (s.bumpBy .half d 17 x.2.empty).bumpBy .half d 18 x.2.collide)

/-- The logical cores of the leaves of a tree. -/
def Tree.leafCores (t : Tree) : List Nat := (t.nodes.filter (fun n => n.children.isEmpty && n.kind == 0)).map TreeNode.loc

/-- The logical core at the root of a tree. -/
def Tree.rootCore (t : Tree) : Option Nat := (t.nodes.head?.filter (fun x => x.kind == 0)).map TreeNode.loc

/-- A core makes its accesses for a REDUCE: it is not haltered, and the start marker did not come too early (R86, R92). -/
def State.reduceLive (s : State) (early : List Nat) (i : Nat) : Bool := (s.core (coreNum (s.coreAt i))).halter.isNone && !early.contains i

/-- The first core of a REDUCE that makes an access outside the windows (R294, R371); a void result makes none. -/
def State.reduceOutside (s : State) (t : Tree) (src dst n : Nat) (void : Bool) (early : List Nat) : Option Nat :=
  let out (a : Nat) : Bool := (upto n).any (fun j => (rangeWindow (a + 16 * j) 16).isNone)
  minBy id ((if out src then t.leafCores.filter (s.reduceLive early) else []) ++
    (if !void && out dst then t.rootCore.toList.filter (s.reduceLive early) else []))

/-- The words of wrong parity that a REDUCE meets: at its leaves, and where its result goes through an alias window (R292, R296). -/
def State.reduceWords (s : State) (t : Tree) (src dst n : Nat) (void : Bool) (early : List Nat) : List (Nat × Nat) :=
  (t.leafCores.filter (s.reduceLive early)).flatMap (fun i => (upto n).flatMap (fun j => s.coreBad (coreNum (s.coreAt i)) (src + 16 * j) 16)) ++
    (if void then [] else (t.rootCore.toList.filter (s.reduceLive early)).flatMap (fun i =>
      (upto n).flatMap (fun j => s.aliasBad (coreNum (s.coreAt i)) (dst + 16 * j) 16)))

/-- A REDUCE whose leaves can be read: the root core writes the tree's result, and a void result writes nothing. -/
def State.reduceRun (s : State) (e : Nat) (c : Cmd) (t : Tree) (remote : List (Nat × Bytes)) : State :=
  let src := fld c.desc 0x24 4
  let dst := fld c.desc 0x28 4
  let n := fld c.desc 0x2C 4
  let yclk := soLedger c.sched.header
  let sum := t.reduce (s.frameNodeOp e t n) (s.reduceLeaf src n remote c.early) 65 0
  let void := sum.1.isEmpty || sum.1.any Flit.gap
  let halted := t.rootCore.any (fun i => !s.reduceLive c.early i)
  match s.takeChecks e c (s.reduceWords t src dst n void c.early) [] with
  | some s1 => s1
  | none =>
    let left := !void && t.rootCore.any (fun i => (upto n).any (fun j => !(s.aliasBad (coreNum (s.coreAt i)) (dst + 16 * j) 16).isEmpty))
    let s1 := s.countNodes sum.2
    let s2 := match t.rootCore with
      | some i => if void ∨ halted then s1 else s1.each (indexed sum.1) (fun s f => s.spadStore (coreNum (s.coreAt i)) (dst + 16 * f.1) f.2.data)
      | none => s1
    match s.reduceOutside t src dst n void c.early with
    | some i => s2.complete e c { status := stSchedule, detail := schedDetail 4 i, yclk := yclk }
    | none => s2.complete e c { status := endStatus false (void || halted || left) c.replayed, yclk := yclk }

/-- REDUCE_COMPUTE (R366).  It waits for the re-reads of what it meets (R292).  Offsets that are no multiple of 16 are served byte by byte (R74;
DESIGN CHOICE, log entry 65). -/
def execReduceCompute (eng : Nat) (remote : List (Nat × Bytes)) (s : State) : Out :=
  .next (if 8 ≤ eng then s
    else
      match s.running eng opReduce with
      | none => s
      | some c =>
        match treeOf s.img.net.trees (fld c.desc 0x20 4) with
        | none => s.complete eng c (badFormat obDesc 0x20).done
        | some (t, _) => s.reduceRun eng c t remote)

end Sys2Proof.Machine
end

