-- ==== Sys2Proof/Machine/Tensor.lean ====
section
/-!
DEFINITION. TENSOR (chapters 04 and 05): operands, accumulation, drains, K-splits, row merges, quantisation, the recompute pass and status
words, over the plan that stands for the core programs (log entry 6).  When each product is formed follows from the plan alone; the accesses to the
scratchpads are then made in the order of their yclk (R291).
-/
namespace Sys2Proof.Machine

/-! ## The plan against the schedule object -/

/-- What a TENSOR command works with: its engine, seed, schedule header and streams; the logical cores that the start marker reached too early (R86);
and of the compute faults that it met, those that made a core lasting and those that could not be replayed, as logical core and yclk. -/
structure TensorCtx where
  eng     : Nat
  seed    : Nat
  header  : Bytes
  streams : List Bytes
  maps    : List Bytes     -- the row-home map of each stream
  aux     : Nat
  rt      : Bool           -- no recompute pass (R121)
  expert  : Bool           -- an expert command (R229)
  early   : List Nat
  downs   : List (Nat × Nat)
  voids   : List (Nat × Nat)
  deriving DecidableEq, Repr

def TensorCtx.stream (x : TensorCtx) (i : Nat) : Bytes := x.streams.getD i []

def stFmt (t : Bytes) : Nat := fld t 1 1
def stSparse (t : Bytes) : Nat := fld t 2 1
def stK (t : Bytes) : Nat := fld t 4 4

/-- Fields of the QCB and the DCB (R108, R138), with their defaults.  An output is coded in its OUT_FMT, whatever FMT its stream entry names (R98;
DESIGN CHOICE, log entry 66). -/
def qFmt (t : Bytes) : Nat := fld t 0x10 1
def qMode (t : Bytes) : Nat := fld t 0x11 1
def qDepth (t : Bytes) : Nat := if fld t 0x12 1 = 0 then 4 else fld t 0x12 1
def qHeadroom (t : Bytes) : Nat := fld t 0x13 1
def qSatThresh (t : Bytes) : Nat := if fld t 0x14 1 = 0 then 4 else fld t 0x14 1
def qUnderThresh (t : Bytes) : Nat := if fld t 0x15 1 = 0 then 8 else fld t 0x15 1
def qFixed (t : Bytes) : Nat := fld t 0x18 4
def qHistOff (t : Bytes) : Nat := fld t 0x1C 4
def qRscaleOff (t : Bytes) : Nat := fld t 0x20 4
def qStageOff (t : Bytes) : Nat := fld t 0x24 4
def cPreload (t : Bytes) : Nat := fld t 0x30 1
def cFuseOp (t : Bytes) : Nat := fld t 0x31 1
def cFuseFmt (t : Bytes) : Nat := fld t 0x32 1
def cClamp (t : Bytes) : Bool := bit (fld t 0x33 1) 0
def cTopkOnly (t : Bytes) : Bool := bit (fld t 0x33 1) 1
def cSmallest (t : Bytes) : Bool := bit (fld t 0x33 1) 2
def cTopk (t : Bytes) : Nat := fld t 0x34 1
def cPreloadOff (t : Bytes) : Nat := fld t 0x38 4
def cFuseOff (t : Bytes) : Nat := fld t 0x3C 4
def cLo (t : Bytes) : Nat := fld t 0x40 4
def cHi (t : Bytes) : Nat := fld t 0x44 4
def cOutOff (t : Bytes) : Nat := fld t 0x48 4
def cStatusOff (t : Bytes) : Nat := fld t 0x4C 4
def cTopkOff (t : Bytes) : Nat := fld t 0x50 4

/-- Bytes of a tile's 64 elements in the output format (R139). -/
def tileBytes (t : Bytes) : Nat := 8 * codeBits (qFmt t)

/-- Bytes of a tile's fused operand (R139). -/
def fuseBytes (t : Bytes) : Nat := if fmtOf (cFuseFmt t) = 10 then 256 else 128

/-- The programmed K in force for a job's tile (R102, R126, R149): its output's, whatever K its operands name (DESIGN CHOICE, log entry 66); that of
its row operand's share for a contributor of a K-split; none for a root core with no contribution of its own. -/
def TensorCtx.kOf (x : TensorCtx) (j : TileJob) : Nat :=
  if j.part = .root ∧ j.kCount = 0 then 0 else if j.part = .whole then stK (x.stream j.stream) else stK (x.stream j.rowStream)

/-- The roles of a job's streams, which a plan of this schedule object respects (R351). -/
def TensorCtx.rolesOk (x : TensorCtx) (j : TileJob) : Bool :=
  decide (j.stream < x.streams.length ∧ j.rowStream < x.streams.length ∧ j.colStream < x.streams.length) &&
    decide (fld (x.stream j.stream) 0 1 = 2 ∧ fld (x.stream j.rowStream) 0 1 = 0 ∧ fld (x.stream j.colStream) 0 1 = 1)

/-- Operands run east along the core's row and south along its column (R125): the cores where they set out. -/
def State.wayOk (s : State) (j : TileJob) : Bool :=
  let w := 8 * s.logical
  decide (j.rowCore / w = j.core / w ∧ j.rowCore ≤ j.core ∧ j.colCore % w = j.core % w ∧ j.colCore ≤ j.core)

/-- The codebook table of a core that a format byte names (R98). -/
def tableNamed (core fb : Nat) : List (Nat × Nat) := if fmtCb (fmtOf fb) then [(core, bits fb 5 4)] else []

/-- The home core and row slot of a row (R351). -/
def TensorCtx.rowHome (x : TensorCtx) (stream row : Nat) : Option (Nat × Nat) :=
  let t := x.stream stream
  if fld t 8 8 = 0 ∨ fld t 0x64 4 ≤ row then none
  else
    let w := fld (x.maps.getD stream []) (4 * row) 4
    some (w % 2 ^ 17, w / 2 ^ 17)

/-- The tables that a job's streams name: where its operands set out, where it drains, and at the home cores of its rows, whose range they give
(R109, R110). -/
def TensorCtx.tablesOf (x : TensorCtx) (j : TileJob) : List (Nat × Nat) :=
  let out := qFmt (x.stream j.stream)
  tableNamed j.rowCore (stFmt (x.stream j.rowStream)) ++ tableNamed j.colCore (stFmt (x.stream j.colStream)) ++
    (if j.part = .partialSum then []
     else tableNamed j.core out ++ ((upto 8).filterMap (fun r => x.rowHome j.stream (j.row0 + r))).flatMap (fun h => tableNamed h.1 out))

/-- The plan loads the tables that its streams name, and no other (R78). -/
def TensorCtx.tablesOk (x : TensorCtx) (plan : TensorPlan) : Bool :=
  let need := plan.jobs.flatMap x.tablesOf
  need.all (fun n => plan.tables.any (fun l => l.core == n.1 && l.table == n.2)) && plan.tables.all (fun l => need.contains (l.core, l.table))

/-- Drains of a stream on a core. -/
def drainsOf (jobs : List TileJob) (j : TileJob) : Nat := (jobs.filter (fun y => y.core == j.core && y.stream == j.stream)).length

/-- Every address of a job's stream and tile count lies in the scratchpad (R138, R139). -/
def areaCheck (jobs : List TileJob) (i : Nat) (t : Bytes) (j : TileJob) : Option Fail :=
  let n := drainsOf jobs j
  let ok (off size field : Nat) : Option Fail := chk (off + n * size ≤ spadBytes) (badFormat obStream (128 * i + field))
  firstOf
    [ (if cPreload t = 0 then none else ok (cPreloadOff t) (if cPreload t = 1 then 32 else 256) 0x38),
      (if cFuseOp t = 0 then none else ok (cFuseOff t) (fuseBytes t) 0x3C),
      (if cTopkOnly t then none else ok (cOutOff t) (tileBytes t) 0x48),
      ok (cStatusOff t) 4 0x4C ]

/-- The output tiles of an expert command write only output slots that land on their core (R207, R229). -/
def State.slotAreaOk (s : State) (aux : Nat) (t : Bytes) (n : Nat) (j : TileJob) : Bool :=
  let slots := s.outSlots aux j.core
  cTopkOnly t || (upto (n * tileBytes t / 16)).all (fun i =>
    slots.any (fun p => decide (p.1 ≤ cOutOff t + 16 * i ∧ cOutOff t + 16 * i + 16 ≤ p.2)))

/-- The checks on the streams of jobs, made before any core starts: R99, R101, R102 and R138, and R229 on those of an expert command. -/
def State.tensorCheck (s : State) (x : TensorCtx) (jobs : List TileJob) : Option Fail :=
  jobs.findSome? (fun j =>
    let t := x.stream j.stream
    let a := x.stream j.rowStream
    let b := x.stream j.colStream
    let i := j.stream
    firstOf
      [ chk (intPath (stFmt a) == intPath (stFmt b)) (badFormat obStream (128 * j.colStream + 1)),
        chk (stSparse a = 0 ∨ stSparse b = 0) (badFormat obStream (128 * j.colStream + 2)),
        chk ((stSparse a = 0 ∧ stSparse b = 0) ∨ x.kOf j % 4 = 0) (badFormat obStream (128 * (if j.part = .whole then i else j.rowStream) + 4)),
        areaCheck jobs i t j,
        chk (!x.expert ∨ s.slotAreaOk x.aux t (drainsOf jobs j) j) (badFormat obStream (128 * i + 0x48)) ])

/-! ## Operands (R97 to R106, R117) -/

/-- One side of a job: eight lines of values with their flags, and for a sparse one the dense position of each value. -/
structure Side where
  lines : List (List (Int × Bool × Bool))
  pos   : Option (List (List Nat))
  void  : Bool
  deriving DecidableEq, Repr

/-- An operand element: its value, INT or FP32 word by path, and whether it sets SAT or NAN (R79, R97, R100). -/
def operandElem (fb : Nat) (table : List Nat) (c : Nat) : Int × Bool × Bool :=
  let f := fmtOf fb
  if intPath fb then
    (if fmtCb f then (signed 8 (table.getD c 0), false, false) else (intElem f c, false, false))
  else
    let r := if fmtCb f then floatElem 9 (table.getD c 0) else floatElem f c
    ((r.v : Int), r.sat, r.nan)

/-- Values stored in a group of 4 positions by a SPARSE code (R101). -/
def groupVals (sp : Nat) : Nat := if sp = 1 then 2 else if sp = 2 then 1 else 4

/-- Stored values of `n` dense positions. -/
def storedOf (sp n : Nat) : Nat := if sp = 0 then n else n / 4 * groupVals sp

/-- The table `i` of a core: 256 entries. -/
def Core.table (c : Core) (i : Nat) : List Nat := (upto 256).map (fun k => (sget 0 c.tables (i * 256 + k)).toNat)

/-- The codebook table that a format byte names, on a core. -/
def State.tableOf (s : State) (core fb : Nat) : List Nat := if fmtCb (fmtOf fb) then (s.core core).table (bits fb 5 4) else []

/-- Bytes of a line of `n` stored values, from a byte boundary (R101). -/
def lineBytes (fb n : Nat) : Nat := (n * fmtBits (fmtOf fb) + 7) / 8

/-- The bit at which value `k` of line `r` begins, of eight lines of `m` stored values: a sparse line starts at a byte boundary (R101), dense lines
follow each other element by element (R97; log entry 6). -/
def valueBit (fb sp m r k : Nat) : Nat := if sp = 0 then fmtBits (fmtOf fb) * (r * m + k) else 8 * lineBytes fb m * r + fmtBits (fmtOf fb) * k

/-- A core-side read as a job makes it (R292, R294): the bytes with their voids, the words of wrong parity that it meets, and whether its address lies
outside the windows, where it gives void bytes. -/
structure Fetch where
  data    : Bytes
  voids   : List Bool
  met     : List (Nat × Nat)
  outside : Bool
  deriving DecidableEq, Repr

/-- A read of `n` bytes at a core-side address of a logical core; one of no bytes is no access. -/
def State.fetch (s : State) (core a n : Nat) : Fetch :=
  if n = 0 then ⟨[], [], [], false⟩
  else
    let k := coreNum (s.coreAt core)
    match s.coreRead k a n with
    | some r => ⟨r.data, r.voids, s.coreBad k a n, false⟩
    | none => ⟨zeros n, List.replicate n true, [], true⟩

def Fetch.void (f : Fetch) : Bool := f.voids.any id

/-- A side with nothing read. -/
def Side.empty (sp : Nat) : Side := ⟨List.replicate 8 [], if sp = 0 then none else some (List.replicate 8 []), false⟩

/-- The stored values of a side of `m` that product `k` reads: its own one, or at the first product of a group the four of the group, for a dense side
beside a sparse one (R101, R125). -/
def valuesAt (own other k : Nat) : List Nat :=
  if own ≠ 0 ∨ other = 0 then [k]
  else if k % groupVals other = 0 then (upto 4).map (fun i => 4 * (k / groupVals other) + i)
  else []

/-- The reads of value `k` of the eight lines of a side, and of its metadata: the side with them, and the reads.  `degen` marks rows whose elements are
replaced by code 0 (R97, R101, R117). -/
def State.readValue (s : State) (t : Bytes) (core off info m : Nat) (table : List Nat) (degen : List Bool) (a : Side × List Fetch) (k : Nat) :
    Side × List Fetch :=
  let fb := stFmt t
  let sp := stSparse t
  let w := fmtBits (fmtOf fb)
  let words := (m * 2 + 31) / 32
  let vs := (upto 8).map (fun r =>
    let p := valueBit fb sp m r k
    let z := s.fetch core (off + p / 8) ((p % 8 + w + 7) / 8)
    let q := s.fetch core (info + 4 * (words * r + k / 16)) (if sp = 0 then 0 else 4)
    (operandElem fb table (if degen.getD r false then 0 else fld z.data 0 4 / 2 ^ (p % 8) % 2 ^ w),
      k / groupVals sp * 4 + fld q.data 0 4 / 4 ^ (k % 16) % 4, z, q))
  let fs := vs.flatMap (fun v => [v.2.2.1, v.2.2.2])
  (⟨(a.1.lines.zip vs).map (fun y => y.1 ++ [y.2.1]), a.1.pos.map (fun ps => (ps.zip vs).map (fun y => y.1 ++ [y.2.2.1])),
      a.1.void || fs.any Fetch.void⟩, a.2 ++ fs)

/-- Operand row scales and column scales (R114, R122, R123). -/
structure Scales where
  rs     : List Nat
  offset : List Nat
  degen  : List Bool
  cs     : List Nat
  wsum   : List Nat
  deriving DecidableEq, Repr

/-- A scale word as FP32 (DEDUCED, log entry 6): an infinity as the largest finite value, a NaN as the canonical one. -/
def scaleWord (v : Nat) : Nat := (floatElem 10 v).v

/-- The scale entries of a job; 1.0 and 0 where the streams carry none. -/
def scalesOf (row col : Option Bytes) : Scales :=
  let r := row.getD (((upto 8).map (fun _ => rowEntry one32 0 0 0)).flatten)
  let c := col.getD (((upto 8).map (fun _ => toBytes 4 one32 ++ zeros 4)).flatten)
  ⟨(upto 8).map (fun i => scaleWord (fld r (16 * i) 4)), (upto 8).map (fun i => scaleWord (fld r (16 * i + 4) 4)),
    (upto 8).map (fun i => bit (fld r (16 * i + 0x0C) 1) 1), (upto 8).map (fun i => scaleWord (fld c (8 * i) 4)),
    (upto 8).map (fun i => scaleWord (fld c (8 * i + 4) 4))⟩

/-! ## Accumulation (R127 to R133, R136, R137) -/

/-- A tile element: the stack from level 0, the running sum, its joins and flags, and the position of its generator lane. -/
structure Cell where
  stack : List (Option Int)
  run   : Option Int
  joins : Nat
  sat   : Bool
  nan   : Bool
  pos   : GenPos
  deriving DecidableEq, Repr

/-- An addition inside the stack: exact on the integer path, FP32 to nearest even on the float path. -/
def stackAdd (int : Bool) (a b : Int) : Int × Bool × Bool :=
  if int then (a + b, false, false)
  else
    let r := fadd a.toNat b.toNat
    ((r.v : Int), r.sat, r.nan)

/-- A value carried up the stack: the new stack, the chunk result that leaves level 11, and the flags (R128). -/
def carryUp (int : Bool) : List (Option Int) → Int → List (Option Int) × Option Int × Bool × Bool
  | [], c => ([], some c, false, false)
  | none :: ls, c => (some c :: ls, none, false, false)
  | some v :: ls, c =>
    let a := stackAdd int v c
    let r := carryUp int ls a.1
    (none :: r.1, r.2.1, a.2.1 || r.2.2.1, a.2.2 || r.2.2.2)

/-- A join into the running sum, with a draw where it is not empty and the path is float (R127, R131, R132). -/
def Cell.join (int : Bool) (seed core lane : Nat) (k : Cell) (x : Int) : Cell :=
  match k.run with
  | none => { k with run := some x, joins := k.joins + 1 }
  | some v =>
    if int then
      let r := iaddSat v x
      { k with run := some r.1, joins := k.joins + 1, sat := k.sat || r.2 }
    else
      let u := genDraw seed core 0 lane 16 k.pos
      let r := srAdd v.toNat x.toNat u.1
      { k with run := some (r.v : Int), joins := k.joins + 1, sat := k.sat || r.sat, nan := k.nan || r.nan, pos := u.2 }

/-- The occupied levels folded from level 11 down (R128). -/
def foldStack (int : Bool) (ls : List (Option Int)) : Option Int × Bool × Bool :=
  ls.reverse.foldl (fun acc l =>
    match l, acc.1 with
    | none, _ => acc
    | some v, none => (some v, acc.2)
    | some v, some t =>
      let a := stackAdd int t v
      (some a.1, acc.2.1 || a.2.1, acc.2.2 || a.2.2)) (none, false, false)

/-- The stack is emptied into the running sum: at a drain, and at a chunk boundary of a sparse operand (R102, R128). -/
def Cell.fold (int : Bool) (seed core lane : Nat) (k : Cell) : Cell :=
  let f := foldStack int k.stack
  let k1 := { k with stack := List.replicate 12 none, sat := k.sat || f.2.1, nan := k.nan || f.2.2 }
  match f.1 with
  | none => k1
  | some x => k1.join int seed core lane x

/-- One product enters a cell. -/
def Cell.push (int : Bool) (seed core lane : Nat) (k : Cell) (p : Int × Bool × Bool) : Cell :=
  let r := carryUp int k.stack p.1
  let k1 := { k with stack := r.1, sat := k.sat || p.2.1 || r.2.2.1, nan := k.nan || p.2.2 || r.2.2.2 }
  match r.2.1 with
  | none => k1
  | some x => { k1 with stack := List.replicate 12 none }.join int seed core lane x

/-- The product of two elements (R127, R129, R105). -/
def product (int : Bool) (a b : Int × Bool × Bool) : Int × Bool × Bool :=
  if int then (a.1 * b.1, false, false)
  else
    let r := fmul a.1.toNat b.1.toNat
    ((r.v : Int), r.sat || a.2.1 || b.2.1, r.nan || a.2.2 || b.2.2)

/-- The products of cell (r, c) in their order, each dense position or stored value one (R101, R102). -/
def products (int : Bool) (a b : Side) (r c : Nat) : List (Int × Bool × Bool) :=
  let x := a.lines.getD r []
  let y := b.lines.getD c []
  let z : Int × Bool × Bool := (0, false, false)
  match a.pos, b.pos with
  | some p, _ => (x.zip (p.getD r [])).map (fun e => product int e.1 (y.getD e.2 z))
  | none, some p => (y.zip (p.getD c [])).map (fun e => product int (x.getD e.2 z) e.1)
  | none, none => (x.zip y).map (fun e => product int e.1 e.2)

/-- A preload value (R136, R137): the value and whether it sets SAT or NAN. -/
def preloadWord (int : Bool) (v : Nat) : Int × Bool × Bool :=
  if int then (if v % 2 ^ 32 = 2 ^ 31 then (-2147483647, true, false) else (signed 32 v, false, false))
  else
    let r := floatElem 10 v
    ((r.v : Int), r.sat, r.nan)

/-! ## When products are formed, and what drains meet (R125, R126, R140 to R143) -/

/-- yclk between the products of a format byte (R97, R99). -/
def rateOf (fb : Nat) : Nat :=
  let f := fmtOf fb
  if fmtCb f then (if intPath fb then 2 else 8) else if f ≤ 1 then 1 else if f ≤ 7 then 2 else 8

/-- Cells at distance `d`. -/
def cellsAt (d : Nat) : Nat := min d (14 - d) + 1

/-- A length of a drain (R142, R149). -/
def drainLen (t : Bytes) (part : TilePart) : Nat :=
  if part = .partialSum then 28
  else
    let f := fmtOf (qFmt t)
    16 + 7 * (if fmtOf (cFuseFmt t) = 10 ∧ cFuseOp t ≠ 0 ∨ part = .root then 2 else 1) +
      (1 + if f = 4 then 4 else if f = 5 then 8 else 0) +
      ((if cTopkOnly t then 0 else tileBytes t / 16) + 1 + if qMode t = 3 then 16 else 0)

/-- A product of a cell: its yclk, the job it is of and its number there, and the dense positions by which it advances the count (R102, R126). -/
structure Stamp where
  t   : Nat
  job : Nat
  k   : Nat
  inc : Nat
  deriving DecidableEq, Repr

/-- The products of a job in the cells at distance `d` from (0, 0) (R125). -/
def TensorCtx.stampsOf (x : TensorCtx) (d : Nat) (n : Nat) (j : TileJob) : List Stamp :=
  let a := x.stream j.rowStream
  let b := x.stream j.colStream
  let sp := max (stSparse a) (stSparse b)
  let g := groupVals sp
  let i := max (rateOf (stFmt a)) (rateOf (stFmt b))
  (upto (storedOf sp j.kCount)).map (fun k => ⟨j.t0 + i * k + d, n, k, if sp = 0 then 1 else if k % g + 1 = g then 4 else 0⟩)

/-- The products addressed to one tile, in the cells at distance `d`, in the order of their yclk. -/
def TensorCtx.stamps (x : TensorCtx) (jobs : List (Nat × TileJob)) (d : Nat) : List Stamp :=
  (jobs.flatMap (fun j => x.stampsOf d j.1 j.2)).mergeSort (fun a b => decide (a.t < b.t ∨ (a.t = b.t ∧ a.job ≤ b.job)))

/-- The dense positions of a run of products. -/
def posOf (ss : List Stamp) : Nat := (ss.map Stamp.inc).foldl (· + ·) 0

/-- The yclk in which a cell's count reaches `k`. -/
def reach (k : Nat) : Nat → List Stamp → Option Nat
  | _, [] => none
  | n, s :: ss => if k ≤ n + s.inc then some s.t else reach k (n + s.inc) ss

/-- What the drain of a job meets: the products that the tile has accepted, by distance; whether the drain is early (R140), and whether an earlier
one of the tile was; whether a product reached the tile while it was full or folding, and when first (R126, R143); and the products discarded then. -/
structure Fate where
  take  : List (List Stamp)
  early : Bool
  was   : Bool
  past  : Option Nat
  lost  : Nat
  deriving DecidableEq, Repr

/-- A core's tiles between drains: from when each takes products, those whose drain was early, when the drain unit is idle, and the fates so far by
job. -/
structure Meet where
  free  : List Nat
  dead  : List Bool
  idle  : Nat
  fates : List (Nat × Fate)
  deriving DecidableEq, Repr

/-- Products of a tile in `[lo, hi)`, by distance. -/
def within (all : List (List Stamp)) (lo hi : Nat) : List (List Stamp) := all.map (fun ss => ss.filter (fun s => decide (lo ≤ s.t ∧ s.t < hi)))

/-- Cells times products of a list by distance. -/
def cellCount (all : List (List Stamp)) : Nat := ((indexed all).map (fun x => cellsAt x.1 * x.2.length)).foldl (· + ·) 0

/-- The first yclk in a list by distance. -/
def firstTime (all : List (List Stamp)) : Option Nat := minBy id (all.flatten.map Stamp.t)

/-- One drain of a core (R126, R140, R143). -/
def TensorCtx.meet (x : TensorCtx) (jobs : List (Nat × TileJob)) (m : Meet) (n : Nat × TileJob) : Meet :=
  let j := n.2
  let all := (upto 15).map (x.stamps (jobs.filter (fun y => y.2.tile == j.tile)))
  let k := x.kOf j
  let here := within all (m.free.getD j.tile 0) j.drain
  let times := here.map (reach k 0)
  let full : Option Nat := if k ≠ 0 ∧ times.all Option.isSome then some ((times.map (fun t => t.getD 0)).foldl max 0) else none
  let take := match full with
    | some t => within here 0 (t + 1)
    | none => here
  let past := match full with
    | some t => within here (t + 1) j.drain
    | none => here.map (fun _ => [])
  let was := m.dead.getD j.tile false
  let early := was || take.any (fun ss => posOf ss != k) || decide (j.drain < m.idle)
  let fold := if early then [] else within all j.drain (j.drain + 12)
  let bad := if was then [] else past ++ fold
  let fate : Fate := ⟨take, early, was, firstTime bad, if was then 0 else cellCount past + cellCount fold⟩
  { free := if early then m.free else m.free.set j.tile (j.drain + 12),
    dead := if early then m.dead.set j.tile true else m.dead,
    idle := if early then m.idle else j.drain + drainLen (x.stream j.stream) j.part,
    fates := (n.1, fate) :: m.fates }

/-- Job `a` drains before job `b`, or at the same yclk and comes before it in the plan. -/
def drainsBefore (a b : Nat × TileJob) : Bool := decide (a.2.drain < b.2.drain ∨ (a.2.drain = b.2.drain ∧ a.1 ≤ b.1))

/-- The fates of all jobs, core by core. -/
def TensorCtx.fates (x : TensorCtx) (jobs : List TileJob) : List (Nat × Fate) :=
  (dedup (jobs.map TileJob.core)).flatMap (fun k =>
    let mine := (indexed jobs).filter (fun j => j.2.core == k)
    ((mine.mergeSort drainsBefore).foldl (x.meet mine) ⟨[0, 0], [false, false], 0, []⟩).fates)

/-- The sequence number of a job's drain among those of its stream on its core (R139). -/
def seqOf (jobs : List TileJob) (n : Nat) (j : TileJob) : Nat :=
  ((indexed jobs).filter (fun y => y.2.core == j.core && y.2.stream == j.stream && y.1 != n && drainsBefore y (n, j))).length

/-! ## The run -/

/-- Status word bits (R145). -/
def twSat : Nat := 1
def twNan : Nat := 2
def twInc : Nat := 4
def twEarly : Nat := 8
def twOver : Nat := 16
def twVoid : Nat := 32
def twThresh : Nat := 64

/-- The bits of two status words together. -/
def orBits (a b : Nat) : Nat := Nat.lor a b

/-- What a job has read: its operands, its scales, its preload by element, and whether a word of them was void (R293). -/
structure Load where
  a    : Side
  b    : Side
  sc   : Scales
  pre  : List (Int × Bool × Bool)
  void : Bool
  deriving DecidableEq, Repr

/-- A tile after its drain: its job, its sequence number and status bits, its joins, 64 accumulators and 64 outputs, and its counts. -/
structure Tile where
  job    : TileJob
  seq    : Nat
  st     : Nat
  joins  : Nat
  halted : Bool            -- its core does not run: it drains and sends nothing (R86, R92)
  live   : Bool            -- accepted, complete and not void: its elements are written
  acc    : List Int
  y      : List Nat
  codes  : List Nat
  clamps : List Nat        -- clamped elements by row
  unders : List Bool       -- rows underused
  sat    : Nat             -- clamped elements that count
  under  : Nat             -- underused rows that count
  lost   : Nat             -- products discarded
  cut    : Bool            -- its core came down before its last write (R94)
  fuse   : Bytes           -- its fused operand, as far as it is read, and whether a word of it was void
  fvoid  : Bool
  wrote  : Option Nat      -- the status word that it wrote last
  deriving DecidableEq, Repr

/-- A row of an output stream: its home core and slot where it has them, the jobs that hold its parts with their row, the prediction that its first
drain fixes, and what its merge found. -/
structure Row where
  stream : Nat
  id     : Nat
  home   : Option (Nat × Nat)
  parts  : List (Nat × Nat)    -- job, row of the tile
  opened : Bool
  hist   : Bytes
  gone   : Bool                -- its history record could not be read
  qm     : Option Nat
  s      : Nat
  r      : Nat
  void   : Bool
  spec   : Option (Nat × Nat × Nat)
  maxAbs : Nat
  flags  : Nat
  clamps : Bool
  deriving DecidableEq, Repr

/-- A TENSOR as it runs: the state, what its jobs have read and their tiles, its rows, the positions of the generator lanes, the words of wrong parity
met, the first schedule fault (yclk, cause, core), the codebook tables loaded from void words, what the nodes of its trees met, and the units changed
in place with their yclk (R502). -/
structure Run where
  st    : State
  loads : List (Option Load)
  tiles : List (Option Tile)
  rows  : List Row
  lanes : Sparse GenPos
  met   : List (Nat × Nat)
  fault : Option (Nat × Nat × Nat)
  tabs  : List (Nat × Nat)
  nodes : List (TreeNode × NodeCount)
  log   : List (Nat × Nat)
  deriving DecidableEq, Repr

/-- The earlier of two schedule faults. -/
def firstFault (a : Option (Nat × Nat × Nat)) (b : Nat × Nat × Nat) : Option (Nat × Nat × Nat) :=
  match a with
  | none => some b
  | some x => if b.1 < x.1 ∨ (b.1 = x.1 ∧ (b.2.2 < x.2.2 ∨ (b.2.2 = x.2.2 ∧ b.2.1 < x.2.1))) then some b else some x

/-- A logical core does not run at yclk `t`: it is haltered, from the command's start or from the yclk in which its halter came (R92, R94), or the start
marker came before it was ready (R86). -/
def Run.down (u : Run) (x : TensorCtx) (core t : Nat) : Bool :=
  x.early.contains core || x.downs.any (fun d => decide (d.1 = core ∧ d.2 ≤ t)) ||
    ((u.st.core (coreNum (u.st.coreAt core))).halter.isSome && !x.downs.any (fun d => d.1 == core))

/-- The run has made the reads `fs` for core `core` at yclk `t` (R292, R294, R371). -/
def Run.note (u : Run) (core t : Nat) (fs : List Fetch) : Run :=
  { u with met := u.met ++ fs.flatMap Fetch.met, fault := if fs.any Fetch.outside then firstFault u.fault (t, 4, core) else u.fault }

/-- A core-side write at yclk `t`, through the windows; one outside them writes nothing (R294).  Units that it changes in place go to the replay log:
those of an alias write, and all of them where `log` says so (R502). -/
def Run.store (u : Run) (t core a : Nat) (bs : Bytes) (log : Bool) : Run :=
  let k := coreNum (u.st.coreAt core)
  let n := bs.length
  if n = 0 then u
  else
    match windowOf a, windowOf (a + n - 1) with
    | some (w, o), some (v, _) =>
      if w ≠ v then { u with fault := firstFault u.fault (t, 4, core) }
      else
        { u with
          st := u.st.spadStore k a bs, met := u.met ++ u.st.aliasBad k a n,
          log := if log ∨ w ≠ .plain then u.log ++ (unitsOf o n).map (fun y => (t, spadKey k y.1)) else u.log }
    | _, _ => { u with fault := firstFault u.fault (t, 4, core) }

/-- A codebook table is loaded from scratchpad at command start (R78); a haltered core still sends operands on (R92). -/
def Run.loadTable (x : TensorCtx) (u : Run) (l : TableLoad) : Run :=
  if x.early.contains l.core then u
  else
    let k := coreNum (u.st.coreAt l.core)
    let z := u.st.fetch l.core l.off 512
    let u1 := u.note l.core 0 [z]
    { u1 with
      st := u.st.modCore k (fun c => { c with
        tables := (upto 256).foldl (fun m i => sset 0 m (l.table * 256 + i) (BitVec.ofNat 16 (fld z.data (2 * i) 2))) c.tables }),
      tabs := if z.void then (k, l.table) :: u.tabs else u.tabs }

/-- An item is pushed from a core's scratchpad (R446). -/
def Run.push (x : TensorCtx) (time : Nat) (u : Run) (p : ItemPush) : Run :=
  if u.down x p.core time then u
  else
    let z := u.st.fetch p.core p.off (((u.st.link p.port).txChan p.chan).flits * 16)
    { u.note p.core time [z] with st := u.st.pushItem p.port p.chan p.tag z.data }

/-- The codebook table that a format byte names on a core, and whether it was loaded from a void word. -/
def Run.table (u : Run) (core fb : Nat) : List Nat × Bool :=
  let k := coreNum (u.st.coreAt core)
  (u.st.tableOf k fb, fmtCb (fmtOf fb) && u.tabs.contains (k, bits fb 5 4))

/-- What a job has read so far. -/
def Run.loaded (u : Run) (x : TensorCtx) (n : Nat) (j : TileJob) : Load :=
  (u.loads[n]?).join.getD
    ⟨Side.empty (stSparse (x.stream j.rowStream)), Side.empty (stSparse (x.stream j.colStream)), scalesOf none none, [], false⟩

/-- The operand scales of a job are read in the yclk of its first product; a table loaded from a void word, or a core that sends too early, voids it
(R86, R122, R293). -/
def Run.loadScales (x : TensorCtx) (u : Run) (n : Nat) (j : TileJob) : Run :=
  if u.down x j.core j.t0 then u
  else
    let rs := u.st.fetch j.rowCore (j.rsOff.getD 0) (if j.rsOff.isSome then 128 else 0)
    let cs := u.st.fetch j.colCore (j.csOff.getD 0) (if j.csOff.isSome then 64 else 0)
    let sc := scalesOf (if j.rsOff.isSome then some rs.data else none) (if j.csOff.isSome then some cs.data else none)
    let gone := (u.table j.rowCore (stFmt (x.stream j.rowStream))).2 || (u.table j.colCore (stFmt (x.stream j.colStream))).2 ||
      x.early.contains j.rowCore || x.early.contains j.colCore
    let l := u.loaded x n j
    { u.note j.core j.t0 [rs, cs] with loads := u.loads.set n (some { l with sc := sc, void := l.void || rs.void || cs.void || gone }) }

/-- The preload of a job is read in its own yclk (R136, R137). -/
def Run.loadPre (x : TensorCtx) (jobs : List TileJob) (u : Run) (n : Nat) (j : TileJob) : Run :=
  let t := x.stream j.stream
  if u.down x j.core j.pre ∨ cPreload t = 0 ∨ j.kStart ≠ 0 ∨ j.kCount = 0 then u
  else
    let width := if cPreload t = 1 then 32 else 256
    let pr := u.st.fetch j.core (cPreloadOff t + width * seqOf jobs n j) width
    let int := intPath (stFmt (x.stream j.rowStream))
    let pre := (upto 64).map (fun e => preloadWord int (fld pr.data (4 * (if cPreload t = 1 then e % 8 else e)) 4))
    let l := u.loaded x n j
    { u.note j.core j.pre [pr] with loads := u.loads.set n (some { l with pre := pre, void := l.void || pr.void }) }

/-- The operands of product `k` of a job are read in its yclk (R125, R291). -/
def Run.loadProduct (x : TensorCtx) (u : Run) (n : Nat) (j : TileJob) (k time : Nat) : Run :=
  if u.down x j.core time then u
  else
    let a := x.stream j.rowStream
    let b := x.stream j.colStream
    let l := u.loaded x n j
    let ra := (valuesAt (stSparse a) (stSparse b) k).foldl
      (u.st.readValue a j.rowCore j.rowOff j.rowMeta (storedOf (stSparse a) j.kCount) (u.table j.rowCore (stFmt a)).1 l.sc.degen) (l.a, [])
    let rb := (valuesAt (stSparse b) (stSparse a) k).foldl
      (u.st.readValue b j.colCore j.colOff j.colMeta (storedOf (stSparse b) j.kCount) (u.table j.colCore (stFmt b)).1 []) (l.b, [])
    { u.note j.core time (ra.2 ++ rb.2) with
      loads := u.loads.set n (some { l with a := ra.1, b := rb.1, void := l.void || ra.1.void || rb.1.void }) }

/-- Products enter a cell in order; a chunk of a sparse operand ends with the dense position that fills it (R102, R128). -/
def Cell.feed (int : Bool) (seed core lane : Nat) : Cell → Nat → List (Stamp × Bool × (Int × Bool × Bool)) → Cell
  | k, _, [] => k
  | k, n, p :: ps =>
    let k1 := k.push int seed core lane p.2.2
    let n1 := n + p.1.inc
    Cell.feed int seed core lane (if p.2.1 ∧ p.1.inc ≠ 0 ∧ n1 % 4096 = 0 then k1.fold int seed core lane else k1) n1 ps

/-- The products that a cell's accepted stamps stand for, each with whether it is of a sparse operand. -/
def Run.valuesOf (u : Run) (int : Bool) (r c : Nat) (ss : List Stamp) : List (Stamp × Bool × (Int × Bool × Bool)) :=
  let js := dedup (ss.map Stamp.job)
  let tab := js.map (fun n => match (u.loads[n]?).join with
    | some l => (n, l.a.pos.isSome || l.b.pos.isSome, products int l.a l.b r c)
    | none => (n, false, []))
  ss.map (fun s => match tab.find? (fun y => y.1 == s.job) with
    | some y => (s, y.2.1, y.2.2.getD s.k (0, false, false))
    | none => (s, false, (0, false, false)))

/-- A job's drain: the fold of its tile, judged as its fate says (R126, R128, R140 to R145). -/
def Run.drain (x : TensorCtx) (jobs : List TileJob) (u : Run) (n : Nat) (j : TileJob) (f : Fate) : Run :=
  let t := x.stream j.stream
  let len := drainLen t j.part
  let seq := seqOf jobs n j
  let blank : Tile := ⟨j, seq, 0, 0, false, false, [], [], [], [], [], 0, 0, 0, false, [], false, none⟩
  if u.down x j.core j.drain then { u with tiles := u.tiles.set n (some { blank with halted := true }) }
  else
    let int := intPath (stFmt (x.stream j.rowStream))
    let own := (u.loads[n]?).join
    let used := dedup ((f.take.flatten).map Stamp.job)
    let cs := (upto 64).map (fun e =>
      let r := e / 8
      let c := e % 8
      let lane := 2 * e + j.tile
      let p := own.bind (fun l => l.pre[e]?)
      let k0 : Cell := ⟨List.replicate 12 none, p.map Prod.fst, 0, (p.map (fun v => v.2.1)).getD false, (p.map (fun v => v.2.2)).getD false,
        sget GenPos.reset u.lanes (j.core * 128 + lane)⟩
      let k1 := k0.feed int x.seed j.core lane 0 (u.valuesOf int r c (f.take.getD (r + c) []))
      if f.early then k1 else k1.fold int x.seed j.core lane)
    let faulty := x.voids.any (fun v => decide (v.1 = j.core ∧ j.t0 ≤ v.2 ∧ v.2 < j.drain + len))
    let void := faulty || (own.map Load.void).getD false || used.any (fun m => (((u.loads[m]?).join).map Load.void).getD true)
    let past := f.past.isSome
    let flags := if f.was then twInc + twEarly
      else
        (if cs.any Cell.sat then twSat else 0) + (if cs.any Cell.nan then twNan else 0) + (if f.early then twEarly else 0) +
          (if past then twOver else 0) + (if void ∧ !f.early then twVoid else 0) + (if f.early ∨ past ∨ void then twInc else 0)
    let joins := if f.was then 0 else if f.early then ((cs.head?.map Cell.joins).getD 0) else (cs.map Cell.joins).foldl max 0
    let fl1 := match f.past with
      | some z => firstFault u.fault (z, 2, j.core)
      | none => u.fault
    { u with
      st := u.st.modCore (coreNum (u.st.coreAt j.core)) (fun k => { k with
        mac := sset [] k.mac j.tile (cs.map (fun c => ⟨c.stack, c.run⟩)) }),
      tiles := u.tiles.set n (some { blank with
        st := flags, joins := joins, live := !f.early && !past && !void, acc := cs.map (fun c => c.run.getD 0), lost := f.lost }),
      lanes := if f.was then u.lanes else (indexed cs).foldl (fun m c => sset GenPos.reset m (j.core * 128 + (2 * c.1 + j.tile)) c.2.pos) u.lanes,
      fault := if f.early ∧ !f.was then firstFault fl1 (j.drain, 1, j.core) else fl1 }

/-! ## K-splits (R149, R150) -/

/-- Two jobs contribute to one output tile. -/
def sameOutput (a b : TileJob) : Bool := a.stream == b.stream && a.row0 == b.row0 && a.colBase == b.colBase

/-- The 16 flits of a contribution: void ones where the tile was early or is void, and where its core came down before it had sent them (R92, R140). -/
def Run.partFlits (u : Run) (x : TensorCtx) (int : Bool) (t : Tile) : List Flit :=
  if t.live ∧ !u.down x t.job.core (t.job.drain + 27) then
    (chunks 16 16 ((t.acc.map (fun v => toBytes 4 (if int then unsigned 32 v else v.toNat))).flatten)).map (fun b =>
      dataFlit b (bit t.st 0) (bit t.st 1))
  else if x.early.contains t.job.core then List.replicate 16 idleFlit
  else List.replicate 16 (voidWith (bit t.st 0) (bit t.st 1) false)

/-- A tree as the commands of this module see it: a node at a link engine sends what it has combined, and is a leaf to them (R150, R253). -/
def Tree.local_ (t : Tree) : Tree := { t with nodes := t.nodes.map (fun n => if n.kind = 2 then { n with child0 := 0xFFFF, child1 := 0xFFFF } else n) }

/-- What a leaf of the tree of a K-split tile sends: idle flits where nothing has come. -/
def Run.splitLeaf (u : Run) (x : TensorCtx) (int : Bool) (remote : List RemotePart) (j : TileJob) (i : Nat) (n : TreeNode) : List Flit :=
  match u.tiles.findSome? (fun t => t.filter (fun t => t.job.part == .partialSum && sameOutput t.job j && n.kind == 0 && t.job.core == n.loc)) with
  | some t => u.partFlits x int t
  | none =>
    match remote.find? (fun r => r.stream == j.stream && r.row0 == j.row0 && r.colBase == j.colBase && r.node == i) with
    | some r => (chunks 16 16 (r.data ++ zeros (256 - r.data.length))).map (fun b => dataFlit b r.sat r.nan)
    | none => List.replicate 16 idleFlit

/-- The sum of a K-split for its root tile, with what the nodes met: the root core's own contribution first, then the children of node 0 in order;
every node works by the path's arithmetic (R150). -/
def Run.rootSum (u : Run) (x : TensorCtx) (remote : List RemotePart) (t : Tile) : List Flit × List (TreeNode × NodeCount) :=
  let int := intPath (stFmt (x.stream t.job.rowStream))
  let op : NodeOp := ⟨if int then 2 else 1, 0, false⟩
  let own := if t.job.kCount = 0 then [] else [u.partFlits x int t]
  match treeOf u.st.img.net.trees (fld (x.stream t.job.stream) 0x60 4) with
  | none => ((own.head?).getD [], [])
  | some (tr, _) =>
    match tr.nodes.head? with
    | none => ((own.head?).getD [], [])
    | some root =>
      let cs := root.children.map (fun c => tr.local_.reduce (fun _ => op) (u.splitLeaf x int remote t.job) 65 c)
      let seen := cs.flatMap Prod.snd
      match own ++ cs.map Prod.fst with
      | [] => ([], seen)
      | o :: os => ((nodeFold op o os).1, (root, (nodeFold op o os).2) :: seen)

/-- What the contributors of an output tile send towards the link engines of its tree: the port, and for a child of a node there the child and the
flits it sends, its own sums on the way combined (R149, R150, R450). -/
def Run.toLinks (u : Run) (x : TensorCtx) (remote : List RemotePart) (j : TileJob) : List (Nat × Nat × List Flit) :=
  let op : NodeOp := ⟨if intPath (stFmt (x.stream j.rowStream)) then 2 else 1, 0, false⟩
  match treeOf u.st.img.net.trees (fld (x.stream j.stream) 0x60 4) with
  | none => []
  | some (tr, _) =>
    let mine (c : Nat) : Bool := ((u.st.treeWalk tr.local_ 65 c 0).filterMap (fun y => tr.nodes[y.1]?)).any (fun m =>
      m.kind == 0 && u.tiles.any (fun t => t.any (fun t => t.job.part == .partialSum && sameOutput t.job j && t.job.core == m.loc)))
    tr.nodes.flatMap (fun m =>
      if m.kind ≠ 2 then []
      else (m.children.filter mine).map (fun c =>
        (m.loc, c, (tr.local_.reduce (fun _ => op) (u.splitLeaf x (op.op == 2) remote j) 65 c).1)))

/-- All contributions towards link engines, tile by tile in the order of the plan, wait there for NODE. -/
def Run.sendLinks (u : Run) (x : TensorCtx) (plan : TensorPlan) : Run :=
  let first := (indexed plan.jobs).filter (fun n => n.2.part == .partialSum &&
    !(plan.jobs.take n.1).any (fun y => y.part == .partialSum && sameOutput y n.2))
  let out := first.flatMap (fun n => u.toLinks x plan.remote n.2)
  { u with st := u.st.each out (fun s y => s.modLink y.1 (fun l => { l with mesh := l.mesh ++ [y.2] })) }

/-- A root tile with its sum: the OR of all contributors' flags, also where a void makes it incomplete. -/
def Tile.withSum (t : Tile) (int : Bool) (sum : List Flit) : Tile :=
  let st := orBits t.st ((if sum.any Flit.sat then twSat else 0) + (if sum.any Flit.nan then twNan else 0))
  if sum.isEmpty ∨ sum.any Flit.gap then { t with live := false, st := orBits st (twVoid + twInc) }
  else
    let bs := flitBytes sum
    { t with st := st, acc := (upto 64).map (fun i => if int then signed 32 (fld bs (4 * i) 4) else ((fld bs (4 * i) 4 : Nat) : Int)) }

/-! ## The scale stage and the codes (R109 to R111, R122, R144) -/

/-- A result with the flags of two steps. -/
def Res.also (r : Res) (sat nan : Bool) : Res := ⟨r.v, r.sat || sat, r.nan || nan⟩

/-- One element through × rs, × cs, the fused step and the clamp. -/
def scaleElem (int : Bool) (t : Bytes) (sc : Scales) (fuse : Option Res) (r c : Nat) (acc : Int) : Res :=
  let cs := sc.cs.getD c one32
  let y0 := if sc.degen.getD r false then fmul (sc.offset.getD r 0) (sc.wsum.getD c 0)
    else fmul (if int then ofInt32 acc else acc.toNat) (sc.rs.getD r one32)
  let y1 := (fmul y0.v cs).also y0.sat y0.nan
  let y2 := match fuse with
    | none => y1
    | some z => (if cFuseOp t = 1 then fadd y1.v z.v else fmul y1.v z.v).also (y1.sat || z.sat) (y1.nan || z.nan)
  if cClamp t ∧ !isNan32 y2.v then
    let a := if key32 y2.v < key32 (cLo t) then cLo t else y2.v
    { y2 with v := if key32 (cHi t) < key32 a then cHi t else a }
  else y2

/-- The rows of a stream, by number, with the jobs that drain their parts. -/
def TensorCtx.rowsOf (x : TensorCtx) (jobs : List TileJob) (stream : Nat) : List Row :=
  let mine := (indexed jobs).filter (fun t => t.2.stream == stream && t.2.part != .partialSum)
  let parts := mine.flatMap (fun t => (upto 8).map (fun r => (t.2.row0 + r, t.1, r)))
  let ids := (dedup (parts.map Prod.fst)).mergeSort (fun a b => decide (a ≤ b))
  ids.map (fun id =>
    ⟨stream, id, x.rowHome stream id, (parts.filter (fun p => p.1 == id)).map Prod.snd, false, [], false, none, one32, one32, false, none, 0, 0,
      false⟩)

/-- The first drain of a row fixes its range, from its history record in the predicted modes (R109 to R111): the row and the read.  QMAX of a codebook
format comes from the home core's table, or where a row has no home from the core of its first part (DESIGN CHOICE, log entry 66). -/
def Run.opening (u : Run) (x : TensorCtx) (jobs : List TileJob) (row : Row) : Row × Fetch :=
  let t := x.stream row.stream
  let mode := qMode t
  let fb := qFmt t
  let reads := mode == 1 || mode == 3
  let at_ := match row.home with
    | some h => h.1
    | none => ((row.parts.head?.bind (fun p => jobs[p.1]?)).map TileJob.core).getD 0
  let h := u.st.fetch at_ (qHistOff t + 48 * ((row.home.map Prod.snd).getD 0)) (if reads && row.home.isSome then 48 else 0)
  let tb := u.table at_ fb
  let qm := qMax fb mode (qFixed t) tb.1
  let range := if mode = 2 then qFixed t else predictRange h.data (qDepth t) (qHeadroom t)
  let f := if mode = 0 ∨ (mode = 2 ∧ 8 ≤ fmtOf fb) then (one32, one32) else factors range (qm.getD 0)
  ({ row with opened := true, hist := h.data, gone := h.void || tb.2, qm := qm, s := f.1, r := f.2 }, h)

/-- Rows that a job's tile drains open. -/
def Run.openRows (x : TensorCtx) (jobs : List TileJob) (u : Run) (n : Nat) (j : TileJob) : Run :=
  let os := u.rows.map (fun row =>
    if row.opened ∨ !row.parts.any (fun p => p.1 == n) then (row, none)
    else
      let o := u.opening x jobs row
      (o.1, some ((row.home.map Prod.fst).getD j.core, o.2)))
  let fs := os.filterMap Prod.snd
  let u1 := fs.foldl (fun (v : Run) f => v.note f.1 (j.drain + 11) [f.2]) u
  { u1 with rows := os.map Prod.fst }

/-- Row `r` of a tile: its eight outputs. -/
def Tile.row (t : Tile) (r : Nat) : List Nat := (t.y.drop (8 * r)).take 8

/-- The codes of eight outputs of a row under factor `r`, the elements that clamp, and whether the codes underuse their range (R110, R118). -/
def codesOf (t : Bytes) (table : List Nat) (r : Nat) (qm : Option Nat) (vals : List Nat) : List Nat × Nat × Bool :=
  let fb := qFmt t
  let cs := vals.map (outCode fb (qMode t) (qFixed t) table r)
  let real := ((vals.zip cs).filter (fun y => !isNan32 y.1)).map (fun y => y.2.1)
  (cs.map Prod.fst, (cs.filter Prod.snd).length, underused fb table qm real)

/-- A tile's 64 outputs coded row by row. -/
def Tile.coded (t : Tile) (st : Bytes) (table : List Nat) (rows : List (Option Row)) : Tile :=
  let cs := (indexed rows).map (fun x => match x.2 with
    | some row => codesOf st table row.r row.qm (t.row x.1)
    | none => codesOf st table one32 none (t.row x.1))
  { t with codes := (cs.map Prod.fst).flatten, clamps := cs.map (fun c => c.2.1), unders := cs.map (fun c => c.2.2) }

/-- yclk between the rows of a drain (R142). -/
def rowStep (t : Bytes) (part : TilePart) : Nat := if fmtOf (cFuseFmt t) = 10 ∧ cFuseOp t ≠ 0 ∨ part = .root then 2 else 1

/-- Row `r` of the fused operand of a drain that is not early is read (R141, R144). -/
def Run.readFuse (x : TensorCtx) (u : Run) (n : Nat) (j : TileJob) (r time : Nat) : Run :=
  match (u.tiles[n]?).join with
  | none => u
  | some t =>
    let st := x.stream j.stream
    if t.halted ∨ j.part = .partialSum ∨ bit t.st 3 ∨ cFuseOp st = 0 then u
    else
      let w := fuseBytes st / 8
      let z := u.st.fetch j.core (cFuseOff st + fuseBytes st * t.seq + w * r) w
      { u.note j.core time [z] with tiles := u.tiles.set n (some { t with fuse := t.fuse ++ z.data, fvoid := t.fvoid || z.void }) }

/-- A tile that drains itself goes through its scale stage and is coded (R141).  One that OVERRUN marks runs the stage too, and writes no element (R145,
R146). -/
def Run.scale (x : TensorCtx) (plan : TensorPlan) (u0 : Run) (n : Nat) (j : TileJob) : Run :=
  match (u0.tiles[n]?).join with
  | none => u0
  | some t0 =>
    if t0.halted ∨ j.part = .partialSum ∨ bit t0.st 3 then u0
    else
      let u := Run.openRows x plan.jobs u0 n j
      let st := x.stream j.stream
      let int := intPath (stFmt (x.stream j.rowStream))
      let sum := if j.part = .root then u.rootSum x plan.remote t0 else ([], [])
      let t := if j.part = .root then t0.withSum int sum.1 else t0
      let f := fmtOf (cFuseFmt st)
      let tb := u.table j.core (qFmt st)
      let rows := (upto 8).map (fun r => u.rows.find? (fun row => row.parts.contains (n, r)))
      let void := t.fvoid || tb.2 || rows.any (fun r => (r.map Row.gone).getD false)
      let sc := (u.loaded x n j).sc
      let es := unpackCodes (fmtBits f) 64 t.fuse
      let ys := (indexed t.acc).map (fun a =>
        scaleElem int st sc (if cFuseOp st = 0 then none else some (floatElem f (es.getD a.1 0))) (a.1 / 8) (a.1 % 8) a.2)
      let flags := if void ∨ bit t.st 5 then (if void then twVoid + twInc else 0)
        else (if ys.any Res.sat then twSat else 0) + (if ys.any Res.nan then twNan else 0)
      let t1 := { t with live := t.live && !void, st := orBits t.st flags }
      let t2 := if t1.live then { t1 with y := ys.map Res.v }.coded st tb.1 rows else t1
      { u with tiles := u.tiles.set n (some t2), nodes := u.nodes ++ sum.2 }

/-! ## Writes of a drain (R94, R120, R139 to R142) -/

/-- The element writes of a drain, in 16-byte units. -/
def elemWrites (st : Bytes) : Nat := if cTopkOnly st then 0 else tileBytes st / 16

/-- Writes that a drain makes: its elements and its staging area in 16-byte units, and its status word last; an early one its status word, a partial
one none (R140, R142, R149). -/
def drainWrites (st : Bytes) (part : TilePart) (early : Bool) : Nat :=
  if early then 1 else if part = .partialSum then 0 else elemWrites st + (if qMode st = 3 then 16 else 0) + 1

/-- The yclk of write `i` of a drain: the last ones of its length, or the yclk after an early one (R140 to R142). -/
def writeTime (st : Bytes) (j : TileJob) (early : Bool) (i : Nat) : Nat :=
  if early then j.drain + 1 else j.drain + drainLen st j.part - drainWrites st j.part early + i

/-- A tile has written a status word: every drain does but a partial one that is not early, none of a core that does not run, and none that a halter
cut off (R92, R94, R140, R149). -/
def Tile.writesStatus (t : Tile) : Bool := !t.halted && !t.cut && (t.job.part != .partialSum || bit t.st 3)

/-- The status word of a tile (R145). -/
def Tile.word (t : Tile) : Nat := t.st + min t.joins 255 * 0x100

/-- The status word of job `n`'s tile is written as it stands (R145). -/
def Run.status (x : TensorCtx) (u : Run) (time n : Nat) : Run :=
  match (u.tiles[n]?).join with
  | none => u
  | some t =>
    if t.writesStatus ∧ t.wrote ≠ some t.word then
      { u.store time t.job.core (cStatusOff (x.stream t.job.stream) + 4 * t.seq) (toBytes 4 t.word) false with
        tiles := u.tiles.set n (some { t with wrote := some t.word }) }
    else u

/-- Write `i` of a job's drain; a tile whose core comes down before its last write is never complete (R94). -/
def Run.write (x : TensorCtx) (u : Run) (n : Nat) (j : TileJob) (i time : Nat) : Run :=
  match (u.tiles[n]?).join with
  | none => u
  | some t =>
    let st := x.stream j.stream
    let ne := elemWrites st
    if t.halted then u
    else if u.down x j.core time then
      { u with tiles := u.tiles.set n (some { t with cut := true, live := false, st := orBits t.st (twVoid + twInc) }) }
    else if i + 1 = drainWrites st j.part (bit t.st 3) then u.status x time n
    else if !t.live then u
    else if i < ne then
      u.store time j.core (cOutOff st + tileBytes st * t.seq + 16 * i) (((packCodes (codeBits (qFmt st)) t.codes).drop (16 * i)).take 16) false
    else
      u.store time j.core (qStageOff st + 256 * t.seq + 16 * (i - ne)) ((((t.y.map (toBytes 4)).flatten).drop (16 * (i - ne))).take 16) false

/-! ## Row merges (R111 to R118, R147, R148) -/

/-- The tiles of a row's parts, with the row of each. -/
def Run.partTiles (u : Run) (row : Row) : List (Tile × Nat) := row.parts.filterMap (fun p => ((u.tiles[p.1]?).join).map (fun t => (t, p.2)))

/-- A tile of a row is marked void. -/
def Run.voidTiles (u : Run) (row : Row) : Run :=
  row.parts.foldl (fun (v : Run) p => match (v.tiles[p.1]?).join with
    | some t => if t.halted then v else { v with tiles := v.tiles.set p.1 (some { t with st := orBits t.st (twVoid + twInc) }) }
    | none => v) u

/-- The rows that a merge gives to the counts of its tiles, unless R115 or R116 marks it (R118). -/
def Run.countRow (u : Run) (row : Row) : Run :=
  if row.spec.isSome then u
  else
    row.parts.foldl (fun (v : Run) p => match (v.tiles[p.1]?).join with
      | some t =>
        if t.live then
          { v with tiles := v.tiles.set p.1 (some { t with
            sat := t.sat + t.clamps.getD p.2 0, under := t.under + b2n (t.unders.getD p.2 false) }) }
        else v
      | none => v) u

/-- The row-scale entry of a row (R114). -/
def Row.entry (row : Row) : Bytes :=
  let p := row.spec.getD (0, row.s, 0)
  rowEntry p.2.1 p.2.2 row.maxAbs row.flags

/-- The row-scale FLAGS of a row: SAT where an element clamped, UNDER of a row that R115 and R116 do not mark (R114, R118). -/
def rowFlags (spec : Option (Nat × Nat × Nat)) (clamps under : Bool) : Nat :=
  (if clamps then rfSat else 0) + (match spec with
    | some p => p.1
    | none => if under then rfUnder else 0)

/-- The candidates of a row: those of its tiles, and those that the leaves of its tree in other modules send; none where one of these leaves sends
nothing (R147, R148). -/
def Run.rowCands (u : Run) (t : Bytes) (tops : List RemoteTop) (row : Row) : Option (List Cand) :=
  let own : List Cand := (u.partTiles row).flatMap (fun p => (indexed (p.1.row p.2)).map (fun v => (v.2, (p.1.job.colBase + v.1) % 2 ^ 32)))
  match treeOf u.st.img.net.trees (fld t 0x60 4) with
  | none => some own
  | some (tr, _) =>
    let leaves := (indexed tr.local_.nodes).filter (fun n => n.2.children.isEmpty && n.2.kind != 0)
    let far := leaves.map (fun n => tops.find? (fun r => r.stream == row.stream && r.row == row.id && r.node == n.1))
    if far.all Option.isSome then
      some (own ++ far.flatMap (fun r => (r.map (fun r => (upto (r.cands.length / 8)).map (fun i =>
        ((fld r.cands (8 * i) 4, fld r.cands (8 * i + 4) 4) : Cand)))).getD []))
    else none

/-- The top-k result of a row; a void one is not written, and its tiles carry VOID (R147, R148). -/
def Run.topk (x : TensorCtx) (tops : List RemoteTop) (time : Nat) (u : Run) (row : Row) (h : Nat × Nat) : Run :=
  let t := x.stream row.stream
  if cTopk t = 0 then u
  else
    match (if row.void then none else u.rowCands t tops row) with
    | none => u.voidTiles row
    | some cs =>
      let best := topK (cTopk t) (cSmallest t) cs
      if u.down x h.1 time then u
      else u.store time h.1 (cTopkOff t + 64 * h.2) ((best.map (fun c => toBytes 4 c.1 ++ toBytes 4 c.2)).flatten) false

/-- What the leaves of a row's tree in other modules send to its merge (R113, R253). -/
def Row.far (row : Row) (merges : List RemoteRow) : List (Option (List Nat)) :=
  (merges.filter (fun m => m.stream == row.stream && m.row == row.id)).map RemoteRow.vals

/-- The merge of row `i` of the run at yclk `time`: its maximum, its marks, its history record, its row-scale entry and its top-k result.  Its UNDER
needs every part underused (DESIGN CHOICE, log entry 66). -/
def Run.mergeRow (x : TensorCtx) (tops : List RemoteTop) (merges : List RemoteRow) (u : Run) (i time : Nat) : Run :=
  match u.rows[i]? with
  | none => u
  | some row0 =>
    let t := x.stream row0.stream
    let parts := u.partTiles row0
    let far := row0.far merges
    let void := row0.gone || decide (parts.length < row0.parts.length) || parts.any (fun p => !p.1.live) || far.any Option.isNone
    let vals := (parts.flatMap (fun p => if p.1.live then p.1.row p.2 else []) ++ far.flatMap (fun v => v.getD [])).filter (fun v => !isNan32 v)
    let spec := if void ∨ row0.home.isNone then none else specialRow vals
    let clamps := parts.any (fun p => decide (0 < p.1.clamps.getD p.2 0))
    let under := parts.all (fun p => p.1.unders.getD p.2 false)
    let row := { row0 with void := void, spec := spec, maxAbs := maxMag vals, clamps := clamps, flags := rowFlags spec clamps under }
    let u1 := ({ u with rows := u.rows.set i row }).countRow row
    match row.home with
    | none => u1
    | some h =>
      let dead := void || u1.down x h.1 time
      let u2 := if dead || qMode t == 0 || qMode t == 2 then u1
        else
          let hist := u1.st.fetch h.1 (qHistOff t + 48 * h.2) 48
          (u1.note h.1 time [hist]).store time h.1 (qHistOff t + 48 * h.2) (histUpdate hist.data (qDepth t) row.maxAbs row.s) true
      let u3 := if dead then u2 else u2.store time h.1 (qRscaleOff t + 16 * h.2) row.entry false
      u3.topk x tops time row h

/-! ## The run in the order of its accesses (R291) -/

/-- What an event of the run is: scales, preload or a product of a job read; its drain; a row of its fused operand read; its scale stage; one of its
writes; or the merge of a row. -/
inductive Act where
  | scales | preload | product (k : Nat) | drain | fuse (r : Nat) | scale | write (i : Nat) | merge
  deriving DecidableEq, Repr

/-- The order of acts of one yclk: reads come before writes (R291). -/
def Act.rank : Act → Nat
  | .scales => 0 | .preload => 0 | .product _ => 0 | .drain => 1 | .fuse _ => 2 | .scale => 2 | .write _ => 3 | .merge => 4

/-- An event of the run: its yclk, what it is, and the job or row it is of. -/
structure Event where
  time : Nat
  act  : Act
  idx  : Nat
  deriving DecidableEq, Repr

/-- The yclk in which a job's drain ends. -/
def TensorCtx.doneAt (x : TensorCtx) (j : TileJob) : Nat := j.drain + drainLen (x.stream j.stream) j.part

/-- The events of one job. -/
def TensorCtx.jobEvents (x : TensorCtx) (n : Nat) (j : TileJob) (early : Bool) : List Event :=
  let a := x.stream j.rowStream
  let b := x.stream j.colStream
  let st := x.stream j.stream
  let i := max (rateOf (stFmt a)) (rateOf (stFmt b))
  let w := rowStep st j.part
  [⟨j.t0, .scales, n⟩, ⟨j.pre, .preload, n⟩] ++
    (upto (storedOf (max (stSparse a) (stSparse b)) j.kCount)).map (fun k => ⟨j.t0 + i * k, .product k, n⟩) ++
    [⟨j.drain, .drain, n⟩] ++ (upto 8).map (fun r => ⟨j.drain + 11 + w * r, .fuse r, n⟩) ++ [⟨j.drain + 12 + 7 * w, .scale, n⟩] ++
    (upto (drainWrites st j.part early)).map (fun k => ⟨writeTime st j early k, .write k, n⟩)

/-- The yclk in which a row merges: its last part has drained. -/
def TensorCtx.mergeAt (x : TensorCtx) (jobs : List TileJob) (row : Row) : Nat :=
  ((row.parts.filterMap (fun p => jobs[p.1]?)).map x.doneAt).foldl max 0

/-- The events of a plan: those of its jobs, and the merge of each row once its last part has drained. -/
def TensorCtx.events (x : TensorCtx) (jobs : List TileJob) (rows : List Row) (fates : List (Nat × Fate)) : List Event :=
  let early (n : Nat) : Bool := (((fates.find? (fun f => f.1 == n)).map Prod.snd).map Fate.early).getD false
  let es := (indexed jobs).flatMap (fun n => x.jobEvents n.1 n.2 (early n.1)) ++ (indexed rows).map (fun r => ⟨x.mergeAt jobs r.2, .merge, r.1⟩)
  es.mergeSort (fun a b =>
    decide (a.time < b.time ∨ (a.time = b.time ∧ (a.act.rank < b.act.rank ∨ (a.act.rank = b.act.rank ∧ a.idx ≤ b.idx)))))

/-- One event. -/
def Run.event (x : TensorCtx) (plan : TensorPlan) (fates : List (Nat × Fate)) (u : Run) (v : Event) : Run :=
  if v.act = .merge then u.mergeRow x plan.tops plan.merges v.idx v.time
  else
    match plan.jobs[v.idx]?, (fates.find? (fun f => f.1 == v.idx)).map Prod.snd with
    | some j, some f =>
      match v.act with
      | .scales => u.loadScales x v.idx j
      | .preload => u.loadPre x plan.jobs v.idx j
      | .product k => u.loadProduct x v.idx j k v.time
      | .drain => u.drain x plan.jobs v.idx j f
      | .fuse r => u.readFuse x v.idx j r v.time
      | .scale => u.scale x plan v.idx j
      | .write i => u.write x v.idx j i v.time
      | .merge => u
    | _, _ => u

/-! ## The recompute pass and the end (R118 to R121, R145, R146) -/

/-- A tile has reached a threshold of R118. -/
def TensorCtx.reached (x : TensorCtx) (t : Tile) : Bool :=
  let q := x.stream t.job.stream
  t.live && t.job.part != .partialSum && (decide (qSatThresh q ≤ t.sat) || decide (qUnderThresh q ≤ t.under))

/-- Part `p` of a row in the recompute pass: its codes again, from its staging area (R120); whether an element clamped, and whether the codes underuse
their range. -/
def Run.againPart (x : TensorCtx) (time : Nat) (st : Bytes) (r : Nat) (qm : Option Nat) (a : Run × Bool × Bool) (p : Nat × Nat) : Run × Bool × Bool :=
  let u := a.1
  match (u.tiles[p.1]?).join with
  | none => a
  | some t =>
    if !t.live ∨ u.down x t.job.core time then a
    else
      let z := u.st.fetch t.job.core (qStageOff st + 256 * t.seq + 32 * p.2) 32
      let tb := u.table t.job.core (qFmt st)
      let cs := codesOf st tb.1 r qm (wordsOf 4 8 z.data)
      let t1 := { t with codes := t.codes.take (8 * p.2) ++ cs.1 ++ t.codes.drop (8 * p.2 + 8) }
      let u1 := { u.note t.job.core time [z] with tiles := u.tiles.set p.1 (some t1) }
      let w := codeBits (qFmt st)
      let u2 := if cTopkOnly st then u1 else u1.store time t.job.core (cOutOff st + tileBytes st * t.seq + w * p.2) (packCodes w cs.1) false
      (u2, a.2.1 || decide (0 < cs.2.1), a.2.2 && cs.2.2)

/-- The recompute pass over row `i` (R120): range the merged maximum, codes again, S_LAST the scale of the pass, the row-scale entry with RECOMPUTED. -/
def Run.again (x : TensorCtx) (time : Nat) (u : Run) (i : Nat) : Run :=
  match u.rows[i]? with
  | none => u
  | some row =>
    let t := x.stream row.stream
    match row.home with
    | none => u
    | some h =>
      if qMode t ≠ 3 ∨ row.void then u
      else
        let f := factors (max row.maxAbs minNormal) (row.qm.getD 0)
        let c := row.parts.foldl (Run.againPart x time t f.2 row.qm) (u, false, true)
        let under := if row.clamps then c.2.2 else bit row.flags 3
        let row1 := { row with s := f.1, r := f.2, flags := rfRecomputed + rowFlags row.spec c.2.1 under }
        let u1 := { c.1 with rows := c.1.rows.set i row1 }
        if u1.down x h.1 time then u1
        else (u1.store time h.1 (qHistOff t + 48 * h.2 + 0x24) (toBytes 4 f.1) false).store time h.1 (qRscaleOff t + 16 * h.2) row1.entry false

/-- What a run of the jobs leaves: the run, its tiles in the order of the plan, and whether the recompute pass ran. -/
structure TensorRun where
  run   : Run
  tiles : List Tile
  again : Bool

/-- The jobs of a TENSOR from its table loads to its last write and its pushes.  A status word to which row merges have added a bit since its drain is
written again at the end (DESIGN CHOICE, log entry 66). -/
def State.runJobs (s : State) (x : TensorCtx) (plan : TensorPlan) : TensorRun :=
  let rows := (upto x.streams.length).flatMap (fun i => x.rowsOf plan.jobs i)
  let n := plan.jobs.length
  let u0 : Run := plan.tables.foldl (Run.loadTable x)
    ⟨s, List.replicate n none, List.replicate n none, rows, [], [], (minBy id x.early).map (fun k => (0, 3, k)), [], [], []⟩
  let fates := x.fates plan.jobs
  let es := x.events plan.jobs rows fates
  let u1 := es.foldl (Run.event x plan fates) u0
  let last := (es.map Event.time).foldl max 0
  let hit := u1.tiles.any (fun t => (t.map x.reached).getD false)
  let again := hit && !x.rt && rows.any (fun r => qMode (x.stream r.stream) == 3)
  let u2 := if again then (upto rows.length).foldl (Run.again x (last + 1)) u1 else u1
  let u3 := { u2 with tiles := u2.tiles.map (fun t => t.map (fun t => if x.reached t then { t with st := orBits t.st twThresh } else t)) }
  let u4 := (upto n).foldl (fun (u : Run) i => u.status x (last + 1) i) u3
  ⟨plan.pushes.foldl (Run.push x (last + 1)) (u4.sendLinks x plan), u4.tiles.filterMap id, again⟩

/-! ## The start of a command (R86, R348, R372) -/

/-- What a TENSOR command runs with. -/
def State.tensorCtx (s : State) (e : Nat) (c : Cmd) : TensorCtx :=
  ⟨e, c.seed, c.sched.header, c.sched.streams, c.sched.maps, soAux c.sched.header,
    (ownProg c.queue).isSome || ((s.engEntry e).map EngEntry.rt).getD false, c.sched.expert, c.early, c.halts, []⟩

/-- A job reads its preload before its first join or its fold (R137). -/
def TensorCtx.preOk (x : TensorCtx) (j : TileJob) : Bool :=
  let i := max (rateOf (stFmt (x.stream j.rowStream))) (rateOf (stFmt (x.stream j.colStream)))
  decide (j.pre ≤ j.drain ∧ (j.kCount < 4096 ∨ j.pre ≤ j.t0 + 4095 * i))

/-- The history records of two rows on one core overlap (R112). -/
def TensorCtx.histMeet (x : TensorCtx) (a b : Row) : Bool :=
  let at_ (r : Row) (h : Nat × Nat) : Nat := qHistOff (x.stream r.stream) + 48 * h.2
  let keeps (r : Row) : Bool := qMode (x.stream r.stream) == 1 || qMode (x.stream r.stream) == 3
  match a.home, b.home with
  | some h, some g => keeps a && keeps b && h.1 == g.1 && decide (at_ a h < at_ b g + 48 ∧ at_ b g < at_ a h + 48)
  | _, _ => false

/-- Of two streams whose history records overlap the later one opens its row only when the earlier one has merged (R113). -/
def TensorCtx.histOk (x : TensorCtx) (jobs : List TileJob) : Bool :=
  let rows := (upto x.streams.length).flatMap (fun i => x.rowsOf jobs i)
  let opens (r : Row) : Nat := (minBy id ((r.parts.filterMap (fun p => jobs[p.1]?)).map TileJob.drain)).getD 0
  rows.all (fun a => rows.all (fun b => !(decide (a.stream < b.stream) && x.histMeet a b) || decide (x.mergeAt jobs a ≤ opens b)))

/-- The jobs are of the schedule object of command `c`: their streams have their roles, their operands come along their core's row and column, all
their cores take part, and preloads and history records are read in their order (R14, R113, R125, R137, R350, R351). -/
def State.jobsOk (s : State) (e : Nat) (c : Cmd) (jobs : List TileJob) : Bool :=
  let named := c.named e
  let x := s.tensorCtx e c
  x.histOk jobs && jobs.all (fun j => x.rolesOk j && x.preOk j && s.wayOk j && named.contains j.core && named.contains j.rowCore && named.contains j.colCore)

/-- START_MARKER (R86, R348, R352, R372); `early` holds the logical cores that the marker reaches before they are ready, `jobs` the tiles of the programs
of a TENSOR.  What its chapters check on these is checked here, before any core starts (log entry 6). -/
def execStartMarker (eng : Nat) (early : List Nat) (jobs : List TileJob) (s : State) : Out :=
  .next (match (s.eng eng).cur with
    | none => s
    | some c =>
      let c1 := { c with early := early.filter (fun i => (c.named eng).contains i) }
      if !s.live ∨ (s.eng eng).st ≠ .prep ∨ !c.ready ∨ 0x10 ≤ dOp c.desc ∨
          (takesSched (kindOf eng) (dOp c.desc) ∧ (!s.halvesRun eng ∨ s.claimWaits eng c)) then s
      else if 8 ≤ eng ∨ dOp c.desc ≠ opTensor then s.start eng c1
      else if !s.jobsOk eng c jobs then s
      else
        match s.tensorCheck (s.tensorCtx eng c) jobs with
        | some f => s.failCmd eng c f
        | none => s.start eng { c1 with jobs := jobs })

/-! ## Counters and completion (R118, R124, R152, R230) -/

/-- The counters of one tile (R124, R152). -/
def State.countTile (x : TensorCtx) (s : State) (t : Tile) : State :=
  let d := (s.coreAt t.job.core).yh
  let s1 := if t.live ∧ t.job.part ≠ .partialSum then (s.bumpBy .half d 1 t.sat).bumpBy .half d 2 t.under else s
  let s2 := if x.reached t then s1.bump .half d 0 else s1
  let on (b idx : Nat) (s : State) : State := if t.writesStatus ∧ bit t.st b then s.bump .half d idx else s
  let s3 := on 2 6 (on 1 5 (on 0 4 s2))
  let s4 := if !t.halted ∧ bit t.st 3 then s3.bump .half d 7 else s3
  s4.bumpBy .half d 8 t.lost

/-- What an expert command reports of its tiles (R230). -/
def State.reportTile (aux : Nat) (s : State) (t : Tile) : State :=
  match t.job.expert with
  | none => s
  | some e =>
    let w := if t.halted then twInc + twVoid else t.word
    s.modRoute (fun r => { r with objs := r.objs.map (fun o =>
      if o.addr = aux then { o with reports := sset 0 o.reports e (orBits (sget 0 o.reports e - 1) w + 1) } else o) })

/-- The item reads of a plan: whether one was stale, the words of wrong parity that their deliveries met in alias windows (R296), and the state. -/
structure PlanReads where
  stale : Bool
  met   : List (Nat × Nat)
  st    : State

/-- An item read into a core's scratchpad (R287, R448). -/
def State.planRead (acc : PlanReads) (r : ItemRead) : PlanReads :=
  let x := acc.st.linkRead r.port r.chan r.tag
  let k := coreNum (x.2.2.coreAt r.core)
  ⟨acc.stale || x.2.1, acc.met ++ x.2.2.landBad k r.off x.1, x.2.2.landFlits k r.off x.1⟩

/-- The end of a TENSOR: its status, DETAIL and TILE_OR (R119, R146, R371). -/
def tensorDone (r : TensorRun) (flagged replayed : Bool) (yclk : Nat) : Done :=
  let words := (r.tiles.filter Tile.writesStatus).map Tile.word
  let all := words.foldl orBits 0
  let bad := flagged || bit all 0 || bit all 1 || bit all 2 || bit all 5 || r.tiles.any (fun t => t.halted || t.cut) || (bit all 6 && !r.again)
  match r.run.fault with
  | some f => { status := stSchedule, detail := schedDetail f.2.1 f.2.2, tileOr := all, yclk := yclk }
  | none => { status := endStatus false bad replayed, tileOr := all, yclk := yclk }

/-- A slip that a command of engine `e` meets (R248, R273). -/
def State.planSlips (s : State) (e : Nat) (slips : List (Nat × Nat)) : State :=
  if slips.isEmpty then s else (s.each slips (fun s x => s.slip x.1 x.2)).replay e

/-- The QSCALE event of a command: one, repeated by the number of tiles (R118, R538). -/
def State.qscale (s : State) (e : Nat) (c : Cmd) (n : Nat) : State :=
  if n = 0 then s else s.raiseBy .qscale noDomain (e + c.queue % 256 * 0x100 + dTag c.desc * 0x10000) n

/-! ## Transient compute faults met while it runs (R94, R502, R504) -/

/-- The replay log of a core is full by yclk `t`: it has copied 64 units (R502). -/
def logFull (log : List (Nat × Nat)) (t : Nat) : Bool :=
  let units := dedup ((log.filter (fun y => decide (y.1 ≤ t))).map Prod.snd)
  (dedup (units.map keyCore)).any (fun k => decide (64 ≤ (units.filter (fun u => keyCore u == k)).length))

/-- The compute faults of a run: the state with their counts, what the command runs with, and its replays. -/
structure Faced where
  st      : State
  ctx     : TensorCtx
  replays : Nat

/-- One transient compute fault, at a logical core and a yclk.  One whose event makes its core lasting halters it from then on, with no replay (R94,
R504); one met once the replay log is full voids the tiles of its core at work then (R502); any other replays the command from its start. -/
def State.face (s : State) (plan : TensorPlan) (a : Faced) (f : Nat × Nat) : Faced :=
  let c := s.coreAt f.1
  let t := a.st.countFault (.core c)
  let x := a.ctx
  if (a.st.core (coreNum c)).halter.isNone ∧ (t.core (coreNum c)).halter.isSome then ⟨t, { x with downs := x.downs ++ [f] }, a.replays⟩
  else if logFull (s.runJobs x plan).run.log f.2 then ⟨t, { x with voids := x.voids ++ [f] }, a.replays⟩
  else ⟨t, { x with downs := x.downs.map (fun d => (d.1, 0)), voids := [] }, a.replays + 1⟩

/-- All of them, each of a core that the command names (R500). -/
def State.faced (s : State) (e : Nat) (c : Cmd) (x : TensorCtx) (plan : TensorPlan) : Faced :=
  (plan.faults.filter (fun f => (c.named e).contains f.1)).foldl (s.face plan) ⟨s, x, 0⟩

/-- A TENSOR as far as it reads and writes: the state after its item reads, whether one was stale, the faults it faced, and its run. -/
structure TensorWork where
  stale : Bool
  met   : List (Nat × Nat)
  base  : State
  faced : Faced
  run   : TensorRun

def State.tensorWork (s : State) (e : Nat) (c : Cmd) (x : TensorCtx) (plan : TensorPlan) : TensorWork :=
  let rd := plan.reads.foldl State.planRead ⟨false, [], s.planSlips e plan.slips⟩
  let f := rd.st.faced e c x plan
  ⟨rd.stale, rd.met, rd.st, f, rd.st.runJobs f.ctx plan⟩

/-- The end of a TENSOR whose work is done: its counts, reports and completion. -/
def State.endTensor (s : State) (e : Nat) (c : Cmd) (x : TensorCtx) (plan : TensorPlan) (w : TensorWork) : State :=
  let r := w.run
  let faults := plan.faults.filter (fun f => (c.named e).contains f.1)
  let s1 := r.run.st.each faults (fun t f => t.countFault (.core (s.coreAt f.1)))
  let s2 := s1.each (upto w.faced.replays) (fun t _ => t.replay e)
  let lost := !w.faced.ctx.voids.isEmpty
  let s3 := if lost then s2.bump .engine e 10 else s2
  let s4 := s3.each ((r.run.rows.filter (fun row => (row.spec.map Prod.fst) == some rfDegen)).filterMap Row.home) (fun s h =>
    s.bump .half (s.coreAt h.1).yh 3)
  let s5 := (r.tiles.foldl (State.countTile x) s4).countNodes r.run.nodes
  let s6 := if r.again then s5.bump .engine e 11 else s5
  let s7 := s6.qscale e c (r.tiles.filter x.reached).length
  let s8 := if x.aux = 0 then s7 else r.tiles.foldl (State.reportTile x.aux) s7
  let flagged := w.stale || lost || !w.faced.ctx.downs.isEmpty || s.anyHalted (c.named e)
  let now := ((s8.eng e).cur.map Cmd.replayed).getD c.replayed
  s8.complete e { c with replayed := now } (tensorDone r flagged now (soLedger x.header + if r.again then soRecomp x.header else 0))

/-- The run of a TENSOR command, its schedule passed.  It waits for the re-reads of the words it meets (R292). -/
def State.runTensor (s : State) (e : Nat) (c : Cmd) (x : TensorCtx) (plan : TensorPlan) : State :=
  let w := s.tensorWork e c x plan
  (s.takeChecks e c (w.met ++ w.run.run.met) []).getD (s.endTensor e c x plan w)

/-- The cores that a plan reads tables and items on take part (R14, R350). -/
def State.planOk (s : State) (e : Nat) (c : Cmd) (plan : TensorPlan) : Bool :=
  let named := c.named e
  (s.tensorCtx e c).tablesOk plan && decide (plan.jobs = c.jobs) && plan.reads.all (fun r => named.contains r.core) &&
    plan.pushes.all (fun p => named.contains p.core)

/-- TENSOR (R73, R125 to R152).  A plan that is not of this command does nothing. -/
def execTensor (eng : Nat) (plan : TensorPlan) (s : State) : Out :=
  .next (match s.running eng opTensor with
    | none => s
    | some c => if 8 ≤ eng ∨ !s.planOk eng c plan then s else s.runTensor eng c (s.tensorCtx eng c) plan)

end Sys2Proof.Machine
end

