-- ==== Sys2Proof/Machine/Route.lean ====
section
/-!
DEFINITION. The route engine (R205 to R235): ready notices, speculation, admission and overflow, placement, gates, token records, combine lists,
and COMBINE.
-/
namespace Sys2Proof.Machine

/-! ## FP32 as the route engine divides and adds (R220) -/

/-- FP32 addition with infinities, ties to even. -/
def addInf (a b : Nat) : Nat :=
  if isNan32 a || isNan32 b then nan32
  else if isInf32 a && isInf32 b then (if neg32 a = neg32 b then a else nan32)
  else if isInf32 a then a
  else if isInf32 b then b
  else
    let x := (val32 a).add (val32 b)
    if x.n = 0 then signed32 (neg32 a && neg32 b) 0 else signed32 (decide (x.n < 0)) (min (fmt32.round x) 0x7F800000)

/-- The quotient of a word and a finite nonzero one, ties to even. -/
def divInf (a b : Nat) : Nat :=
  let neg := neg32 a != neg32 b
  if isNan32 a then nan32
  else if isInf32 a then signed32 neg 0x7F800000
  else
    let x := val32 a
    let y := val32 b
    let d := x.e - y.e
    let m := if 0 ≤ d then fmt32.roundRatio (x.n.natAbs * 2 ^ d.toNat) y.n.natAbs else fmt32.roundRatio x.n.natAbs (y.n.natAbs * 2 ^ (-d).toNat)
    signed32 neg (min m 0x7F800000)

/-! ## Intake (R216) -/

/-- Outcomes of R211. -/
inductive Outcome where
  | none_ | served | spec | rerouted | deferred | zeroed
  deriving DecidableEq, Repr

def Outcome.code : Outcome → Nat
  | .none_ => 0 | .served => 1 | .spec => 2 | .rerouted => 3 | .deferred => 4 | .zeroed => 5

/-- The pair was admitted and is computed in this step. -/
def Outcome.live (o : Outcome) : Bool := o == .served || o == .spec || o == .rerouted

/-- A pair of token and expert: its first choice and value, where it ended and with what value, its outcome, slot and gate. -/
structure RPair where
  tok  : Nat
  rank : Nat
  exp  : Nat
  end_ : Nat
  val  : Nat
  out  : Outcome
  slot : Option Nat
  gate : Nat
  deriving DecidableEq, Repr

/-- A SECOND candidate: rank, expert and value. -/
abbrev Cand2 := Nat × Nat × Nat

/-- What the top-k area of a token gives: its pairs, its candidates, the values at its ranks, and its flags. -/
structure Intake where
  pairs : List RPair
  cands : List Cand2
  vals  : List Nat
  flags : Nat
  deriving DecidableEq, Repr

def tfValid : Nat := 1
def tfExt : Nat := 2
def tfNoTopk : Nat := 4
def tfBadExpert : Nat := 8
def tfArrival : Nat := 16
def tfLost : Nat := 32
def tfDeferIn : Nat := 64
def tfBadGate : Nat := 128

/-- The intake of token `i` from its top-k area (R216). -/
def intake (h : Bytes) (i : Nat) (area : Bytes) (void : Bool) : Intake :=
  let k := roK h
  let ent := (upto (roTopk h)).map (fun r => (fld area (8 * r) 4, fld area (8 * r + 4) 4))
  let fresh := !void && decide ((ent.head?.map Prod.snd).getD 0 < 2 ^ 31)
  if !fresh then
    ⟨(upto k).map (fun r => ⟨i, r, 0xFFF, 0xFFF, 0, .zeroed, none, 0⟩), [], ent.map Prod.fst, tfNoTopk⟩
  else
    let bad (r : Nat) (e : Nat) : Bool := decide (roExperts h ≤ e) || (ent.take r).any (fun x => x.2 == e)
    let ps := (ent.take k).mapIdx (fun r x =>
      (⟨i, r, x.2, x.2, x.1, if bad r x.2 then .zeroed else .none_, none, 0⟩ : RPair))
    let cs := ((ent.mapIdx (fun r x => ((r, x.2, x.1) : Cand2))).drop k).filter (fun c => !bad c.1 c.2.1)
    ⟨ps, cs, ent.map Prod.fst, if ps.any (fun p => p.out == .zeroed) then tfBadExpert else 0⟩

/-! ## Admission and overflow (R217, R218, R222) -/

/-- What a ROUTE decides with. -/
structure RouteCtx where
  h     : Bytes
  step  : Nat
  xs    : List Expert
  toks  : List (Nat × Nat)
  land  : List (List (Nat × Nat))
  ins   : List Intake
  spec  : List ((Nat × Nat) × Nat)   -- speculative pairs (token, expert) and their regular slots
  specOn : Bool
  deriving DecidableEq, Repr

def RouteCtx.expert (x : RouteCtx) (e : Nat) : Expert := x.xs.getD e ⟨0, 0, 0, 0, 0, 0, 0⟩

/-- The slot that a speculative row of a pair has taken. -/
def RouteCtx.sent (x : RouteCtx) (i e : Nat) : Option Nat := (x.spec.find? (fun y => y.1 == (i, e))).map Prod.snd

/-- Decisions so far.  Pairs are numbered token × K + rank. -/
structure Adm where
  pairs : List RPair
  adm   : Sparse Nat               -- admitted pairs by expert
  reg   : Sparse Nat               -- regular slots taken without speculation
  cat   : Sparse Nat               -- catch-up slots taken
  dfr   : Sparse Nat               -- defer slots taken
  taken : List (Nat × Nat)         -- candidates taken: token and rank
  at_   : List (Nat × Nat)         -- admissions: token and expert
  order : List Nat                 -- pairs in admission order
  log   : List (Nat × Nat)         -- decisions: token and expert
  cont  : List Nat                 -- contested experts
  hits  : Nat
  miss  : Nat
  spill : Nat
  deriving DecidableEq, Repr

def Adm.modPair (a : Adm) (k : Nat) (f : RPair → RPair) : Adm := { a with pairs := a.pairs.modify k f }

/-- Pair `k` is admitted at expert `e`. -/
def Adm.accept (a : Adm) (k i e : Nat) : Adm :=
  { a with adm := sset 0 a.adm e (sget 0 a.adm e + 1), at_ := (i, e) :: a.at_, order := a.order ++ [k], log := (i, e) :: a.log }

/-- An expert refuses a pair and is contested (R219). -/
def Adm.contest (a : Adm) (e : Nat) : Adm := { a with cont := if a.cont.contains e then a.cont else e :: a.cont }

/-- The choice of pair `k` at its own expert (R217): the state and whether it was refused. -/
def Adm.first (x : RouteCtx) (a : Adm) (k : Nat) : Adm × Bool :=
  match a.pairs[k]? with
  | none => (a, false)
  | some p =>
    if p.out ≠ .none_ then (a, false)
    else if sget 0 a.adm p.exp < (x.expert p.exp).cap then (((a.modPair k (fun p => { p with out := .served })).accept k p.tok p.exp), false)
    else ({ a.contest p.exp with log := (p.tok, p.exp) :: a.log }, true)

/-- An admitted pair takes a catch-up slot of expert `e`. -/
def Adm.catch_ (x : RouteCtx) (a : Adm) (k e : Nat) : Adm :=
  let n := sget 0 a.cat e
  { a.modPair k (fun p => { p with slot := some ((x.expert e).cap + n) }) with cat := sset 0 a.cat e (n + 1) }

/-- Misses at expert `e` that have been admitted and wait for their catch-up slot (R222). -/
def Adm.waiting (x : RouteCtx) (a : Adm) (e : Nat) : Nat :=
  ((dedup a.order).filter (fun k => match a.pairs[k]? with
    | some p => p.out.live && p.slot.isNone && p.end_ == e && (x.sent p.tok e).isNone
    | none => false)).length

/-- A candidate can take a refused pair (R218); after an overflow it also needs a catch-up slot that no miss admitted before it takes (R222). -/
def Adm.fits (x : RouteCtx) (a : Adm) (i : Nat) (need : Bool) (c : Cand2) : Bool :=
  let e := c.2.1
  !a.taken.contains (i, c.1) && decide (sget 0 a.adm e < (x.expert e).cap) && !a.at_.contains (i, e) &&
    (!need || decide (sget 0 a.cat e + a.waiting x e < (x.expert e).catchup))

/-- The overflow policy on refused pair `k` (R218, R222). -/
def Adm.policy (x : RouteCtx) (need : Bool) (a : Adm) (k : Nat) : Adm :=
  match a.pairs[k]? with
  | none => a
  | some p =>
    let zero : Adm := a.modPair k (fun p => { p with out := .zeroed, end_ := p.exp, slot := none })
    if roOver x.h = 0 then
      match ((x.ins.getD p.tok ⟨[], [], [], 0⟩).cands).find? (a.fits x p.tok need) with
      | none => zero
      | some c =>
        let e := c.2.1
        ({ a.modPair k (fun p => { p with out := .rerouted, end_ := e, val := c.2.2, slot := none }) with
          taken := (p.tok, c.1) :: a.taken }).accept k p.tok e
    else if roOver x.h = 1 ∧ sget 0 a.dfr p.exp < (x.expert p.exp).defer then
      let n := sget 0 a.dfr p.exp
      { a.modPair k (fun p => { p with
          out := .deferred, end_ := p.exp, slot := some ((x.expert p.exp).bank ((x.step + 1) % 2) + n) }) with
        dfr := sset 0 a.dfr p.exp (n + 1) }
    else zero

/-- The pairs of a token in rank order. -/
def RouteCtx.tokenPairs (x : RouteCtx) (i : Nat) : List Nat := (upto (roK x.h)).map (fun r => i * roK x.h + r)

/-- First choices of the pairs `ks`, in order: the state and the refused pairs. -/
def Adm.firsts (x : RouteCtx) (a : Adm) (ks : List Nat) : Adm × List Nat :=
  ks.foldl (fun (r : Adm × List Nat) k =>
    let y := r.1.first x k
    (y.1, if y.2 then r.2 ++ [k] else r.2)) (a, [])

/-- Admission (R217): all first choices rank by rank and then the policy, or under ARRIVAL token by token as their records come. -/
def RouteCtx.admission (x : RouteCtx) (arrival : List Nat) (a : Adm) : Adm :=
  if roArrival x.h then
    arrival.foldl (fun a i =>
      let r := a.firsts x (x.tokenPairs i)
      r.2.foldl (Adm.policy x false) r.1) a
  else
    let ks := (upto (roK x.h)).flatMap (fun r => (upto x.toks.length).map (fun i => i * roK x.h + r))
    let r := a.firsts x ks
    r.2.foldl (Adm.policy x false) r.1

/-- The placement of one admitted pair (R222). -/
def Adm.place (x : RouteCtx) (a : Adm) (k : Nat) : Adm :=
  match a.pairs[k]? with
  | none => a
  | some p =>
    if p.slot.isSome ∨ !p.out.live then a
    else if !x.specOn then
      let n := sget 0 a.reg p.end_
      { a.modPair k (fun p => { p with slot := some n }) with reg := sset 0 a.reg p.end_ (n + 1), miss := a.miss + 1 }
    else
      match x.sent p.tok p.end_ with
      | some sl => { a.modPair k (fun p => { p with slot := some sl, out := if p.out = .served then .spec else p.out }) with hits := a.hits + 1 }
      | none =>
        let a1 := { a with miss := a.miss + 1 }
        if sget 0 a.cat p.end_ < (x.expert p.end_).catchup then a1.catch_ x k p.end_
        else Adm.policy x true { a1.contest p.end_ with spill := a1.spill + 1, log := (p.tok, p.end_) :: a1.log } k

/-- The placement of all admitted pairs in admission order; `fuel` bounds the admissions that overflows add. -/
def Adm.placeAll (x : RouteCtx) : Nat → Nat → Adm → Adm
  | 0, _, a => a
  | fuel + 1, n, a =>
    match a.order[n]? with
    | none => a
    | some k => (a.place x k).placeAll x fuel (n + 1)

/-! ## Gates (R220) -/

/-- The gates of one token's pairs, and whether its sum was bad; a token without a route (R216) has no sum. -/
def gatesOf (gate k : Nat) (routed : Bool) (vals : List Nat) (ps : List RPair) : List RPair × Bool :=
  let has (p : RPair) : Bool := p.out.live || p.out == .deferred
  if !routed then (ps, false)
  else if gate = 0 then (ps.map (fun p => if has p then { p with gate := p.val } else p), false)
  else
    let sum := if gate = 1 then (vals.take k).foldl addInf 0 else ((ps.filter has).map RPair.val).foldl addInf 0
    if mag32 sum = 0 ∨ !finite32 sum then (ps, true) else (ps.map (fun p => if has p then { p with gate := divInf p.val sum } else p), false)

/-! ## Speculation (R221) -/

/-- The speculative set of token `i`: its ranks that were served at the step before, with their experts. -/
def State.specSet (s : State) (h : Bytes) (step i : Nat) : List (Nat × Nat) :=
  let recs := (indexed ((upto (roPerToken h)).map (fun x => sget 0 s.route.recs (roRecord h i x))))
  let ok (r : Nat) : Bool := bit (recFlags r) 0 && recId r == roId h && bits r 31 16 == (step + 65535) % 65536
  if !recs.all (fun r => ok r.2) then []
  else recs.flatMap (fun r => ((upto 4).filter (fun k =>
    let o := bits r.2 (83 + 4 * k) (80 + 4 * k)
    o == 1 || o == 2 || o == 3)).map (fun k => (4 * r.1 + k, bits r.2 (43 + 12 * k) (32 + 12 * k))))

/-- The speculative pairs in order, each with the next free regular slot of its expert. -/
def State.specPairs (s : State) (h : Bytes) (step : Nat) (xs : List Expert) (n : Nat) : List ((Nat × Nat) × Nat) :=
  ((upto n).foldl (fun (r : Sparse Nat × List ((Nat × Nat) × Nat)) i =>
    (s.specSet h step i).foldl (fun r y =>
      let e := y.2
      let q := sget 0 r.1 e
      if q < ((xs[e]?).map Expert.cap).getD 0 ∧ !r.2.any (fun y => y.1 == (i, e)) then (sset 0 r.1 e (q + 1), r.2 ++ [((i, e), q)]) else r) r)
    ([], [])).2

/-! ## ROUTE (R209 to R222) -/

/-- The ready notices of every token home core have come for this route object (R216). -/
def State.routeReady (s : State) (obj : Nat) (toks : List (Nat × Nat)) : Bool :=
  toks.all (fun t => s.route.readyCores.contains (coreNum (s.coreAt t.1), obj))

/-- What ROUTE works with, its speculation decided and its records taken in. -/
def State.routeCtx (s : State) (t : Bytes) : RouteCtx :=
  let h := s.devBytes (rtAddr t) 64
  let xs := s.expertsOf h
  let toks := s.tokensOf h
  let on := roSpec h && !rtStart t
  let read (x : (Nat × Nat) × Nat) : Intake :=
    let k := coreNum (s.coreAt x.1.1)
    let a := roTopkOff h + 64 * x.1.2
    intake h x.2 (s.spadRead k a 64) ((s.spadVoids k a (8 * roTopk h)).any id)
  ⟨h, rtStep t, xs, toks, s.slotsOfExperts h xs, toks.zipIdx.map read,
    if on then s.specPairs h (rtStep t) xs toks.length else [], on⟩

/-- The decisions of a ROUTE: admission, placement and gates; with the tokens whose sum was bad. -/
def RouteCtx.decided (x : RouteCtx) (arrival : List Nat) : Adm × List Bool :=
  let k := roK x.h
  let a0 : Adm := ⟨x.ins.flatMap Intake.pairs, [], [], [], [], [], [], [], [], [], 0, 0, 0⟩
  let a1 := x.admission arrival a0
  let a2 := a1.placeAll x (2 * a1.pairs.length + 1) 0
  let gs := x.ins.mapIdx (fun i n => gatesOf (roGate x.h) k (!bit n.flags 2) n.vals ((a2.pairs.drop (i * k)).take k))
  ({ a2 with pairs := gs.flatMap Prod.fst }, gs.map Prod.snd)

/-- What fills slot `q` of expert `e`: the token whose row it takes. -/
def RouteCtx.filler (x : RouteCtx) (a : Adm) (e q : Nat) : Option Nat :=
  match a.pairs.find? (fun p => p.end_ == e && p.slot == some q) with
  | some p => some p.tok
  | none => (x.spec.find? (fun y => y.1.2 == e && y.2 == q)).map (fun y => y.1.1)

/-- A zero row with its row-scale entry (R215). -/
def zeroRow (n : Nat) : Bytes := rowEntry one32 0 0 rfZero ++ zeros n

/-- The dispatch tree of a slot of expert `e` (R205, R254). -/
def RouteCtx.treeNum (x : RouteCtx) (e q : Nat) : Nat := roTree0 x.h + ((x.xs.take e).map Expert.slots).foldl (· + ·) 0 + q

/-- What one flit from a home core becomes at the root of a dispatch tree, where the route engine enables the leaves of that core, and what its SELECT
nodes meet (R243, R254). -/
def State.select (s : State) (tree home : Nat) : List Flit × List (TreeNode × NodeCount) :=
  match treeOf s.img.net.trees tree with
  | none => ([], [])
  | some (t, _) =>
    t.reduce (fun _ => ⟨7, 0, false⟩) (fun _ n => [if n.kind = 0 ∧ n.loc = home then dataFlit (zeros 16) false false else idleFlit]) 65 0

/-- One slot lands: the row of its token with its row-scale entry; a zero row where no pair fills it, where the token's home is no leaf of the slot's
tree, and after a collision; a copy of a void word is void (R207, R215, R254, R293).  The last flit of the row carries SPEC where the row is
speculative (R236). -/
def RouteCtx.landSlot (x : RouteCtx) (spec : Bool) (fill : Nat → Nat → Option Nat) (s : State) (y : Nat × Nat × (Nat × Nat)) : State :=
  let k := coreNum (s.coreAt y.2.2.1)
  let off := (x.expert y.1).slotOff + (16 + roRow x.h) * y.2.2.2
  let zero (s : State) : State := s.deliver k off (zeroRow (roRow x.h))
  match (fill y.1 y.2.1).bind (fun i => x.toks[i]?) with
  | none => zero s
  | some (c, j) =>
    let h := coreNum (s.coreAt c)
    let rs := roRsOff x.h + 16 * j
    let row := roRowOff x.h + roRow x.h * j
    let d := s.select (x.treeNum y.1 y.2.1) c
    let n := 1 + roRow x.h / 16
    let s1 := s.countNodes (d.2.map (fun z => (z.1, ⟨n * z.2.empty, n * z.2.collide⟩)))
    if d.1.any (fun f => f.valid && !f.void) then
      let last := s.spadRead h (row + roRow x.h - 16) 16
      (s1.setFlit (treeFlit (x.treeNum y.1 y.2.1)) { dataFlit last false false with spec := spec }).deliverWith k off (s.spadRead h rs 16 ++ s.spadRead h row (roRow x.h)) (s.spadVoids h rs 16 ++ s.spadVoids h row (roRow x.h))
    else zero s1

/-- The slots that land at this step: the regular and catch-up slots, and the defer bank of the next step (R218, R222). -/
def RouteCtx.landing (x : RouteCtx) : List (Nat × Nat × (Nat × Nat)) :=
  (x.xs.zip x.land).zipIdx.flatMap (fun y =>
    let e := y.1.1
    let b := e.bank ((x.step + 1) % 2)
    (y.1.2.zipIdx.filter (fun p => decide (p.2 < e.cap + e.catchup) || (decide (b ≤ p.2) && decide (p.2 < b + e.defer)))).map
      (fun p => (y.2, p.2, p.1)))

/-- The place where a pair is computed (R207). -/
def RouteCtx.placed (x : RouteCtx) (p : RPair) : Placed :=
  let q := p.slot.getD 0
  let sl := ((x.land.getD p.end_ []).getD q (0, 0))
  ⟨p.tok, p.end_, p.gate, sl.1, (x.expert p.end_).soutOff + sl.2 * roStride x.h, x.treeNum p.end_ q⟩

/-- The gate byte of a record (R210). -/
def gateByte (g : Nat) : Nat := (outCode 6 0 0 [] one32 g).1

/-- Record `n` of a token (R210). -/
def recordOf (h : Bytes) (step flags n : Nat) (ps : List RPair) : Nat :=
  let at_ (k : Nat) : Option RPair := ps[4 * n + k]?
  let has (p : RPair) : Bool := p.out.live || p.out == .deferred
  let bytes := toBytes 1 (roId h) ++ toBytes 1 (orBits flags (tfValid + if n = 0 then 0 else tfExt)) ++ toBytes 2 step ++
    toBytes 6 (((upto 4).map (fun k => (((at_ k).map (fun p => if p.out.live then p.end_ else p.exp)).getD 0xFFF) % 4096 * 4096 ^ k)).foldl (· + ·) 0) ++
    toBytes 2 (((upto 4).map (fun k => (((at_ k).map (fun p => p.out.code)).getD 0) * 16 ^ k)).foldl (· + ·) 0) ++
    ((upto 4).map (fun k => toBytes 1 (((at_ k).map (fun p => if has p then gateByte p.gate else 0)).getD 0))).flatten
  ofBytes bytes

/-- An entry of a combine list (R231). -/
def listEntry (p : Option (Nat × Nat)) : Bytes :=
  match p with
  | some (e, g) => toBytes 4 g ++ toBytes 4 (0x80000000 + e)
  | none => toBytes 4 0 ++ toBytes 4 0xC0000000

/-- The combine list of token `i` (R231). -/
def combineList (h : Bytes) (i : Nat) (ps : List RPair) (carry : List Placed) : Bytes :=
  let own := (ps.map (fun p => listEntry (if p.out.live then some (p.end_, p.gate) else none))).flatten
  if roOver h = 1 then
    let cs := (carry.filter (fun c => c.token == i)).map (fun c => listEntry (some (c.expert, c.gate)))
    own ++ cs.flatten ++ (List.replicate (roK h - cs.length) (listEntry none)).flatten
  else own

/-- Decisions at contested experts (R219). -/
def Adm.arrivals (a : Adm) : List (Nat × Nat) := a.log.filter (fun y => a.cont.contains y.2)

/-- H0M or a token home runs free, so ARRIVAL decisions count in TDC too (R219, R284). -/
def State.routeFree (s : State) (toks : List (Nat × Nat)) : Bool :=
  !s.alignedDom 54 || toks.any (fun t => !s.alignedDom (s.coreAt t.1).yh)

/-- The counters of a ROUTE (R235). -/
def State.countRoute (s : State) (x : RouteCtx) (a : Adm) : State :=
  let n (o : Outcome) : Nat := (a.pairs.filter (fun p => p.out == o)).length
  let arr := if roArrival x.h then a.arrivals.length else 0
  let b (s : State) (y : Nat × Nat) : State := s.bumpBy .route 0 y.1 y.2
  s.each [(0, n .served), (1, n .spec), (2, n .rerouted), (3, n .deferred), (4, n .zeroed), (5, a.hits), (6, a.miss),
    (7, x.spec.length - a.hits), (8, a.spill), (9, arr), (10, (x.ins.filter (fun i => bit i.flags 2)).length),
    (13, if s.routeFree x.toks then arr else 0)] b

/-- The flags of token `i` (R210). -/
def RouteCtx.flags (x : RouteCtx) (a : Adm) (badGate : List Bool) (i : Nat) : Nat :=
  orBits (orBits ((x.ins.map Intake.flags).getD i 0) (if badGate.getD i false then tfBadGate else 0))
    (if roArrival x.h ∧ a.arrivals.any (fun y => y.1 == i) then tfArrival else 0)

/-- The trace record of one pair of a ROUTE (R226, R549). -/
def pairRecord (h : Bytes) (tok e rank out : Nat) : Bytes :=
  toBytes 1 (roId h) ++ toBytes 4 tok ++ toBytes 2 e ++ toBytes 1 rank ++ toBytes 1 out

/-- The trace of the decisions: a record of every pair with what it has become (log entry 56). -/
def State.traceAdmit (s : State) (x : RouteCtx) (a : Adm) : State :=
  s.each a.pairs (fun s p => s.trace 2 5 0 16 (pairRecord x.h p.tok p.end_ p.rank p.out.code))

/-- The commit of a ROUTE: its records all at once, the route object's step, and the combine lists (R214, R218, R231). -/
def State.commitRoute (s : State) (t : Bytes) (x : RouteCtx) (a : Adm) (badGate : List Bool) : State :=
  let k := roK x.h
  let carry := ((s.routeObj (rtAddr t)).map RouteObj.deferred).getD []
  let own (i : Nat) : List RPair := (a.pairs.drop (i * k)).take k
  let recs := (upto x.toks.length).flatMap (fun i => (upto (roPerToken x.h)).map (fun n =>
    (roRecord x.h i n, recordOf x.h (rtStep t % 65536) (x.flags a badGate i) n (own i))))
  let obj : RouteObj :=
    { addr := rtAddr t, id := roId x.h, step := rtStep t, isOpen := true, obj := x.h, toks := x.toks,
      pairs := (a.pairs.filter (fun p => p.out.live)).map x.placed, carry := carry,
      deferred := (a.pairs.filter (fun p => p.out == .deferred)).map x.placed, reports := [] }
  let s1 := s.modRoute (fun r => { r with
    recs := recs.foldl (fun m y => sset 0 m y.1 y.2) r.recs,
    objs := r.objs.filter (fun o => o.addr != rtAddr t) ++ [obj],
    readyCores := r.readyCores.filter (fun c => c.2 != rtAddr t), sent := [] })
  let s2 := s1.each x.toks.zipIdx (fun s y =>
    s.deliver (coreNum (s.coreAt y.1.1)) (roTopkOff x.h + 64 * y.1.2) (combineList x.h y.2 (own y.2) carry))
  (s2.countRoute x a).traceAdmit x a

/-- A ROUTE read or copied a void word (R293). -/
def RouteCtx.sawVoid (x : RouteCtx) (s : State) : Bool :=
  x.toks.any (fun t =>
    let k := coreNum (s.coreAt t.1)
    (s.spadVoids k (roTopkOff x.h + 64 * t.2) (8 * roTopk x.h)).any id || (s.spadVoids k (roRsOff x.h + 16 * t.2) 16).any id ||
      (s.spadVoids k (roRowOff x.h + roRow x.h * t.2) (roRow x.h)).any id)

/-- The words of wrong parity that a ROUTE meets in the areas it reads (R292). -/
def State.routeWords (s : State) (x : RouteCtx) : List (Nat × Nat) :=
  x.toks.flatMap (fun t =>
    let k := coreNum (s.coreAt t.1)
    s.badWords k (roTopkOff x.h + 64 * t.2) (8 * roTopk x.h) ++ s.badWords k (roRsOff x.h + 16 * t.2) 16 ++
      s.badWords k (roRowOff x.h + roRow x.h * t.2) (roRow x.h))

/-- The blocks of wrong parity that it meets in the route object and its tables (R330). -/
def State.routeBlocks (s : State) (a : Nat) (h : Bytes) : List Nat :=
  s.devBad a 64 ++ s.devBad (roMap h) (4 * roCount h) ++ s.devBad (roTable h) (16 * roExperts h)

/-- The speculative rows are sent, each with its trace record, before any record is taken in (R221, R226); once. -/
def State.sendSpec (s : State) (x : RouteCtx) : State :=
  if !s.route.sent.isEmpty then s
  else
    let fill (e q : Nat) : Option Nat := (x.spec.find? (fun y => y.1.2 == e && y.2 == q)).map (fun y => y.1.1)
    let slots := x.landing.filter (fun y => (fill y.1 y.2.1).isSome)
    let s1 := (s.modRoute (fun r => { r with sent := x.spec })).each x.spec (fun t y =>
      t.trace 1 3 1 16 (pairRecord x.h y.1.1 y.1.2 (((s.specSet x.h x.step y.1.1).find? (fun r => r.2 == y.1.2)).map Prod.fst |>.getD 0) 0))
    s1.each slots (x.landSlot true fill)

/-- `arrival` names every token once. -/
def arrivalOk (n : Nat) (arrival : List Nat) : Bool := arrival.length == n && (upto n).all arrival.contains

/-- A ROUTE with every ready notice in decides, sends the rows that are not sent yet, signals its two fences and commits. -/
def State.runRoute (s : State) (c : Cmd) (x : RouteCtx) (arrival : List Nat) : State :=
  let d := x.decided arrival
  let sent (y : Nat × Nat × (Nat × Nat)) : Bool := s.route.sent.any (fun z => z.1.2 == y.1 && z.2 == y.2.1)
  let s1 := s.each (x.landing.filter (fun y => !sent y)) (x.landSlot false (x.filler d.1))
  let s2 := (s1.fenceAdd (rtLand c.tack) 1).fenceAdd (rtCatch c.tack) 1
  let s3 := s2.commitRoute c.tack x d.1 d.2
  let now := ((s3.eng 16).cur.map Cmd.replayed).getD c.replayed
  s3.complete 16 { c with replayed := now } { status := endStatus false (x.sawVoid s) now }

/-- ROUTE (R205 to R222): it sends its speculative rows; with every ready notice in it runs, and waits for the re-reads of what it meets (R292, R330);
under ARRIVAL the records come in the order `arrival`. -/
def execRoute (arrival : List Nat) (s : State) : Out :=
  .next (match s.starting 16 opRoute with
    | none => s
    | some (c, t) =>
      let h := t.devBytes (rtAddr c.tack) 64
      let toks := t.tokensOf h
      let x := t.routeCtx c.tack
      let t1 := t.sendSpec x
      if !t1.routeReady (rtAddr c.tack) toks ∨ (roArrival h ∧ !arrivalOk toks.length arrival) then t1
      else (t1.takeChecks 16 c (t1.routeWords x) (t1.routeBlocks (rtAddr c.tack) h)).getD (t1.runRoute c x arrival))

/-- READY (R216): the ready notice of a token home core for a route object reaches the route engine. -/
def execReady (core obj : Nat) (s : State) : Out :=
  .next (if s.live then s.modRoute (fun r => { r with
      readyCores := if r.readyCores.contains (core, obj) then r.readyCores else (core, obj) :: r.readyCores })
    else s)

/-! ## COMBINE (R230 to R232) -/

/-- A pair of an expert is lost: its report is missing, or has INCOMPLETE or VOID (R230). -/
def RouteObj.lost (o : RouteObj) (e : Nat) : Bool :=
  let r := sget 0 o.reports e
  r == 0 || bit (r - 1) 2 || bit (r - 1) 5

/-- An element of a row, FP32, infinities as the largest finite value of the format (R232). -/
def rowElems (f n : Nat) (bs : Bytes) : List Nat := (unpackCodes (fmtBits f) n bs).map (fun c => (floatElem f c).v)

/-- The pairs of a token in ascending expert index. -/
def ofToken (i : Nat) (ps : List Placed) : List Placed := (ps.filter (fun p => p.token == i)).mergeSort (fun a b => decide (a.expert ≤ b.expert))

/-- What one token's combine gives: its output row, whether its residual was void, the pairs lost, and whether a carried-in pair was used. -/
structure Combined where
  row   : Bytes
  void  : Bool
  lost  : Nat
  carry : Bool
  deriving DecidableEq, Repr

/-- The output row of a pair holds a void word (R293). -/
def State.rowVoid (s : State) (o : RouteObj) (p : Placed) : Bool := (s.spadVoids (coreNum (s.coreAt p.core)) p.off (roStride o.obj)).any id

/-- The return tree of a pair's slot reaches a home core (R254); a row that has no way home is lost (DESIGN CHOICE, log entry 67). -/
def State.comesHome (s : State) (home : Nat) (p : Placed) : Bool :=
  match treeOf s.img.net.trees p.tree with
  | some (t, _) => t.leafCores.contains home
  | none => false

/-- The combine of token `i` (R232). -/
def State.combineToken (s : State) (o : RouteObj) (i : Nat) (t : Nat × Nat) : Combined :=
  let h := o.obj
  let f := fmtOf (roFmt h)
  let k := coreNum (s.coreAt t.1)
  let res := roResOff h + roStride h * t.2
  let acc0 := if roNoRes h then List.replicate (roElems h) 0 else rowElems f (roElems h) (s.spadRead k res (roStride h))
  let gone (p : Placed) : Bool := o.lost p.expert || s.rowVoid o p || !s.comesHome t.1 p
  let now := ofToken i o.pairs
  let old := ofToken i o.carry
  let used := (now ++ old).filter (fun p => !gone p)
  let acc := used.foldl (fun acc p =>
    let y := rowElems f (roElems h) (s.spadRead (coreNum (s.coreAt p.core)) p.off (roStride h))
    (acc.zip y).map (fun z => (fadd z.1 (fmul p.gate z.2).v).v)) acc0
  ⟨packCodes (fmtBits f) (acc.map (fun v => (outCode f 0 0 [] one32 v).1)), !roNoRes h && (s.spadVoids k res (roStride h)).any id,
    ((now ++ old).filter gone).length, old.any (fun p => !gone p)⟩

/-- The words of wrong parity that a COMBINE meets (R292). -/
def State.combineWords (s : State) (o : RouteObj) : List (Nat × Nat) :=
  (o.pairs ++ o.carry).flatMap (fun p => s.badWords (coreNum (s.coreAt p.core)) p.off (roStride o.obj)) ++
    (if roNoRes o.obj then []
     else o.toks.flatMap (fun t => s.badWords (coreNum (s.coreAt t.1)) (roResOff o.obj + roStride o.obj * t.2) (roStride o.obj)))

/-- One token's output row and record flags (R210, R232). -/
def State.putCombined (o : RouteObj) (s : State) (y : (Nat × Nat) × Nat × Combined) : State :=
  let c := y.2.2
  let s1 := if c.void then s else s.deliver (coreNum (s.coreAt y.1.1)) (roOutOff o.obj + roStride o.obj * y.1.2) c.row
  let fl := (if c.lost = 0 then 0 else tfLost) + if c.carry then tfDeferIn else 0
  let s2 := s1.bumpBy .route 0 11 c.lost
  if fl = 0 then s2
  else s2.modRoute (fun r => { r with recs := (upto (roPerToken o.obj)).foldl (fun m n =>
    let q := roRecord o.obj y.2.1 n
    let v := sget 0 m q
    sset 0 m q (v - recFlags v * 256 + orBits (recFlags v) fl * 256)) r.recs })

/-- The tokens of a COMBINE in its order: home core by home core, in row-slot order (R232). -/
def RouteObj.order (o : RouteObj) : List ((Nat × Nat) × Nat) :=
  o.toks.zipIdx.mergeSort (fun a b => decide (a.1.1 * 2 ^ 15 + a.1.2 ≤ b.1.1 * 2 ^ 15 + b.1.2))

/-- The tokens of a COMBINE, as far as the first `n` of them. -/
def State.combineRows (s : State) (o : RouteObj) (n : Nat) : List ((Nat × Nat) × Nat × Combined) :=
  (o.order.take n).map (fun y => (y.1, y.2, s.combineToken o y.2 y.1))

/-- A COMBINE writes every token's row and ends the step. -/
def State.runCombine (s : State) (c : Cmd) (o : RouteObj) : State :=
  let rows := s.combineRows o o.toks.length
  let s1 := s.each rows (State.putCombined o)
  let s2 := s1.modRoute (fun r => { r with objs := r.objs.map (fun (x : RouteObj) => if x.addr = o.addr then { x with isOpen := false } else x) })
  let flagged := rows.any (fun y => y.2.2.lost != 0 || y.2.2.void)
  s2.complete 16 c { status := endStatus false flagged c.replayed }

/-- COMBINE (R230 to R233).  It waits for the re-reads of what it meets (R292). -/
def execCombine (s : State) : Out :=
  .next (match s.starting 16 opCombine with
    | none => s
    | some (c, t) =>
      match t.routeObj (rtAddr c.tack) with
      | none => s
      | some o => (t.takeChecks 16 c (t.combineWords o) []).getD (t.runCombine c o))

end Sys2Proof.Machine
end

