-- ==== Sys2Proof/Machine/Kill.lean ====
section
/-!
DEFINITION. What ends a command from outside: timeouts, queue destruction and the egress deadline (R178, R201, R233, R310, R389, R400 to
R402, R420 to R423); and a plain register write (R7).
-/
namespace Sys2Proof.Machine

/-! ## What a kill leaves -/

/-- A kill of an ANNEAL or RESUME after `at_.units` phases of its own and `at_.steps` yclk of the next, at the end of an entry before or after its
ledger (R178, R179).  A kill comes before the run would end by itself. -/
def State.killAnneal (s : State) (e : Nat) (c : Cmd) (at_ : Progress) : State :=
  if dOp c.desc = opResume ∧ fld (s.devBytes (acSnap (s.ctrlOf c.sched.header)) 4096) 6 1 = 0 then s.loadRecords (s.ctrlOf c.sched.header) (s.idleCores c)
  else
    let j := (s.jobOf e c).1
    let own := j.limit.phase - j.base.phase
    let steps := if own = 0 then 0 else min at_.steps (acP j.base.acb)
    let p := if own ≤ at_.units ∧ j.limit.natural ∧ 0 < at_.ledger then { at_ with units := own, steps := 0 }
      else { at_ with units := min at_.units (own - 1), steps := steps }
    (s.runAnneal e c none (some p) []).st

/-- A kill of a ROTATE in the visit after `at_.units` of them, `at_.steps` yclk into its spins: nothing of that visit is written back (R201). -/
def State.killRotate (s : State) (e : Nat) (c : Cmd) (at_ : Progress) : State :=
  let x := s.rotCtx c
  let v := s.visits e x c [] at_.units x.total
  let r := v.2.rotRun e x
  let t := if v.1.isSome ∨ x.total ≤ r.next then v.2
    else match v.2.visit e x c r (some at_) [] with
      | .ok t => t
      | .error f => f.2
  t.dropRot e

/-- Bytes that a killed COPY has written: whole KiB of its length, and what waves have carried, as far as it could read, its accesses translated, and its banks were
awake (R327, R365). -/
def State.copyDone (s : State) (c : Cmd) (kib : Nat) : Nat :=
  let d := c.desc
  if !s.copyAwake (copySrcSpace d) (copySrc d) || !s.copyAwake (copyDstSpace d) (copyDst d) then 0
  else
    let n := min (max (kib * 1024) (16 * c.carried)) (copyLen d)
    let m := if s.copyReadable d then n else min n (s.hostPrefix d)
    match s.copyFault d with
    | some f => min m f.done
    | none => m

/-- A killed COMBINE: the outputs of its first `n` tokens are written and the step stays open (R233). -/
def State.killCombine (s : State) (c : Cmd) (n : Nat) : State :=
  match s.routeObj (rtAddr c.tack) with
  | none => s
  | some o => s.each (s.combineRows o n) (State.putCombined o)

/-- A killed REDUCE of a link engine: items of a SEND that were not sent stay unsent, and what has gone out stands (R449, R450). -/
def State.killLink (s : State) (port : Nat) : State :=
  s.modLink port (fun l => { l with
    run := none, tx := smap TxChan.reset (fun x => { x with queue := x.queue.filter (fun i => !i.bySend) }) l.tx })

/-- What a kill leaves of a running command besides its record. -/
def State.killed (s : State) (e : Nat) (c : Cmd) (at_ : Progress) : State :=
  let op := dOp c.desc
  if c.startAt.isNone then s
  else if op = opAnneal ∨ op = opResume then s.killAnneal e c at_
  else if op = opRotate then s.killRotate e c at_
  else if op = opMove ∧ 8 ≤ e then s.copyPart e c (s.copyDone c at_.units)
  else if op = opRoute then s.discardSent
  else if op = opCombine then s.killCombine c at_.units
  else if op = opReduce ∧ 17 ≤ e then s.killLink (e - 17)
  else s

/-- The command in engine `e` is killed (R372, R389): its record carries `st` and the yclk that a started compute command ran, and a COPY gives its written prefix in KiB (R370). -/
def State.kill (s : State) (e : Nat) (c : Cmd) (at_ : Progress) (st : Nat) (cause : Cause) : State :=
  let s1 := (s.killed e c at_).endWaits e
  let ran := if takesSched (kindOf e) (dOp c.desc) ∧ c.startAt.isSome then s.ranYclk e c else 0
  let kib := if dOp c.desc = opMove ∧ 8 ≤ e ∧ c.startAt.isSome then s.copyDone c at_.units / 1024 else 0
  s1.finish e c { status := st, detail := kib, yclk := ran, cause := cause }

/-! ## Drains -/

/-- The command in engine `e` drains (R389): an ANNEAL, RESUME or ROTATE stops at the end of a phase or visit, a FENCE_WAIT ends at once, and
any other runs on to its end. -/
def State.drainCmd (s : State) (e : Nat) (c : Cmd) (at_ : Progress) (cause : Cause) : State :=
  let op := dOp c.desc
  let c1 := { c with draining := true, ownTimeout := cause = .timeout }
  if op = opWait then s.finish e c { status := stDrained, cause := cause }
  else if c.startAt.isSome ∧ (op = opAnneal ∨ op = opResume) then s.endAnneal e c1 (some (max 1 at_.units)) []
  else if c.startAt.isSome ∧ op = opRotate then s.endRotate e c1 (some (max 1 at_.units)) []
  else s.modEng e (fun x => { x with cur := some c1, st := if x.st = .run then .drain else x.st })

/-- The policy of a queue is KILL. -/
def Queue.kills (q : Queue) : Bool := q.policy == 1

/-! ## Privileged commands -/

/-- A privileged command leaves what it waits in: its items, those of a halter apart, and its patch (R389, R512). -/
def State.dropPriv (s : State) (c : Cmd) : State :=
  let mine (i : RepairItem) : Bool := i.cmds.contains c
  let halted (i : RepairItem) : Bool := decide (i.kind = 1) && (s.core (physNum i.yh i.pcol i.row)).halter.isSome
  let keep (i : RepairItem) : Bool := !mine i || i.cmds.any (fun y => decide (y ≠ c)) || i.req.isSome || halted i
  let gone := s.rel.items.filter (fun i => !keep i)
  let s1 := s.modRel (fun x => { x with
    items := (x.items.filter keep).map (fun i => { i with cmds := i.cmds.filter (fun y => decide (y ≠ c)) }),
    patches := x.patches.filter (fun p => decide (p.cmd ≠ some c)) })
  s1.each gone (fun s i => s.closeWindow i.engine)

/-- A PATCH has made its journal append and only waits for lane swaps: it completes (R67, R402). -/
def State.patchLanded (s : State) (c : Cmd) : Bool := s.rel.patches.any (fun p => p.cmd == some c && p.engines.isEmpty)

/-- A MARCH has begun. -/
def State.marchBegun (s : State) (c : Cmd) : Bool := dOp c.desc == opMarch && !s.privBehind c && s.marching c

/-- Bank `b` of the cores of half `d` holds free values, as a preserving march that was killed may leave PARK (R310, log entry 1). -/
def State.freeBank (s : State) (b : Nat) (d : Nat) : State :=
  s.each (s.coresOf d) (fun s k =>
    let bs := (upto 0x8000).map (fun i => BitVec.ofNat 8 (Config.freeValue (s.freeCtr + i)))
    { (s.spadWrite k (b * 0x8000) bs) with freeCtr := s.freeCtr + 0x8000 })

/-- A privileged command is drained or killed (R310, R389): one that waits ends at once and has done nothing; a march that has begun runs to
its end, or is cut off with its report written; a PATCH that has landed goes on. -/
def State.stopPriv (s : State) (c : Cmd) (kill : Bool) (at_ : Progress) (st : Nat) (cause : Cause) : State :=
  let d : Done := { status := st, cause := cause }
  if s.patchLanded c then s
  else if s.marchBegun c then
    let mode := fld c.tack 4 1
    if kill then
      let f := s.draw
      let t := f.2.runMarch c at_.found (some (d, some (f.1 % 2 ^ 64)))
      if mode = 1 then t.each (maskHalves c) (fun s h => s.freeBank (fld c.tack 5 1) h) else t
    else s.runMarch c at_.found (some (d, none))
  else (s.dropPriv c).finishPriv c d

/-! ## Timeouts (R389) -/

/-- The timeout of a command has expired and nothing has acted on it yet.  Its hclk is over, in which the command's own end and a destruction
come first (R374, R402, log entry 71); a queue that is being destroyed has no timeout of its own (R402). -/
def State.timedOut (s : State) (c : Cmd) : Bool :=
  let q := s.queue c.queue
  q.timeoutUs != 0 && !c.draining && q.st != .destroying && decide (c.prepAt + q.timeoutUs * hclkPerUs < s.hclk)

/-- The status of a command that its queue's policy ends. -/
def Queue.endStatus (q : Queue) : Nat := if q.kills then stKilled else stDrained

/-- The command in engine `e` times out. -/
def State.timeOut (s : State) (e : Nat) (c : Cmd) (at_ : Progress) : State :=
  if (s.queue c.queue).kills then s.kill e c at_ stKilled .timeout else s.drainCmd e c at_ .timeout

/-- A parked FENCE_WAIT, or a privileged command that engine `e` fetched, times out. -/
def State.timeOutWaiting (s : State) (e : Nat) (at_ : Progress) : State :=
  match (s.eng e).waits.find? (fun w => s.timedOut w.cmd) with
  | some w => ((s.dropWait e w).postRecord e w.cmd { status := (s.queue w.cmd.queue).endStatus, cause := .timeout }).endDestroys
  | none =>
    match s.mbx.privs.find? (fun c => decide (c.engine = e) && s.timedOut c && !s.patchLanded c) with
    | some c => s.stopPriv c (s.queue c.queue).kills at_ (s.queue c.queue).endStatus .timeout
    | none => s

/-- QUEUE_TIMEOUT (R389): of the command in engine `eng`, else of one that waits. -/
def execQueueTimeout (eng : Nat) (at_ : Progress) (s : State) : Out :=
  .next (if !s.live then s
    else
      match (s.eng eng).cur with
      | some c => if s.timedOut c then s.timeOut eng c at_ else s.timeOutWaiting eng at_
      | none => s.timeOutWaiting eng at_)

/-- When a drained command is killed: one TIMEOUT_US after its drain; 1 s where a destroyed queue has none (R389, R400). -/
def State.drainEnd (s : State) (c : Cmd) : Nat :=
  let t := (s.queue c.queue).timeoutUs
  match s.mbx.destroys.find? (fun d => d.queue == c.queue) with
  | some d => if c.ownTimeout then c.prepAt + 2 * t * hclkPerUs else d.began + (if t = 0 then 1000000 else t) * hclkPerUs
  | none => c.prepAt + 2 * t * hclkPerUs

/-- DRAIN_TIMEOUT (R389, R400): a drained command that still runs is killed. -/
def execDrainTimeout (eng : Nat) (at_ : Progress) (s : State) : Out :=
  .next (match (s.eng eng).cur with
    | some c => if s.live ∧ c.draining ∧ s.drainEnd c ≤ s.hclk then s.kill eng c at_ stKilled (s.drainCause c) else s
    | none => s)

/-! ## Queue destruction (R400 to R402) -/

/-- Step 3: the preload that engine `e` holds for queue `n`, and the FENCE_WAITs parked on it. -/
def State.cancelHeld (s : State) (n e : Nat) : State :=
  let s1 := match (s.eng e).preload with
    | some p =>
      if p.cmd.queue = n then (s.dropPreload e p).postRecord e p.cmd { status := stCancelled }
      else s
    | none => s
  s1.each ((s1.eng e).waits.filter (fun w => w.cmd.queue == n)) (fun s w =>
    (s.dropWait e w).postRecord e w.cmd { status := stCancelled })

/-- How far the command of engine `e` had come, where the list says. -/
def progressOf (at_ : List (Nat × Progress)) (e : Nat) : Progress := ((at_.find? (fun x => x.1 == e)).map Prod.snd).getD ⟨0, 0, [], [], 0⟩

/-- Step 4: the commands of queue `n` between PREP and POST on engine `e`. -/
def State.endRunning (s : State) (n : Nat) (kill : Bool) (at_ : List (Nat × Progress)) (e : Nat) : State :=
  match (s.eng e).cur with
  | some c =>
    if c.queue ≠ n then s
    else if kill then s.kill e c (progressOf at_ e) stKilled .destroy
    else if c.draining then s else s.drainCmd e c (progressOf at_ e) .destroy
  | none => s

/-- Step 4 for the commands of queue `n` in Prephor's hands. -/
def State.endPrivs (s : State) (n : Nat) (kill : Bool) (at_ : List (Nat × Progress)) : State :=
  s.each (s.mbx.privs.filter (fun c => c.queue == n)) (fun s c =>
    s.stopPriv c kill (progressOf at_ c.engine) (if kill then stKilled else stDrained) .destroy)

/-- Steps 1 to 4 of R400, and the rest where nothing of the queue still runs. -/
def State.destroyQueue (s : State) (r : Req) (at_ : List (Nat × Progress)) : State :=
  let b := mBody r.msg
  let n := fld b 0 2
  let kill := fld b 2 1 == 1
  let q := s.queue n
  let d : Destroy := ⟨n, fld b 2 1, fld b 8 8, r, s.hclk, q.tail - q.head, [], [], [], []⟩
  let s1 := ((s.background r).setQueue n { q with st := .destroying }).modMbx (fun m => { m with destroys := m.destroys ++ [d] })
  let s2 := (s1.each (upto 21) (fun s e => s.cancelChains n e)).each (upto 21) (fun s e => s.cancelHeld n e)
  ((s2.each (upto 21) (State.endRunning · n kill at_)).endPrivs n kill at_).endDestroys

/-- Why a destroy request is refused: a real-time queue is not the host's, and a report in device memory must translate (R378, R469). -/
def State.destroyRc (s : State) (r : Req) : Option Nat :=
  let b := mBody r.msg
  let n := fld b 0 2
  match s.queueRc r.mbx n with
  | some rc => some rc
  | none =>
    if 504 ≤ n then some rcNoQueue
    else if 1 < fld b 2 1 then some rcBadRequest
    else if !r.host ∧ (s.firstFail (fld b 8 8) 352 true false).isSome then some rcTranslation
    else none

/-- The report area of a destruction that does not translate is recorded (R340). -/
def State.noteReport (s : State) (r : Req) (rc : Nat) : State :=
  if rc = rcTranslation then s.noteAs .hub { xlatFail (((s.firstFail (fld (mBody r.msg) 8 8) 352 true false).map Prod.fst).getD 0) with write := true } else s

/-- QUEUE_DESTROY (R400, R469). -/
def execQueueDestroy (at_ : List (Nat × Progress)) (s : State) : Out :=
  .next (match s.headReq rqDestroy with
    | none => s
    | some r =>
      match s.destroyRc r with
      | some rc => (s.noteReport r rc).endReq r rc []
      | none => s.destroyQueue r at_)

/-! ## The egress deadline (R420 to R423) -/

/-- E5 sends frames: with a hub, in READY, and under PFAIL# until it goes dark (R515, R529). -/
def State.e5Sends (s : State) : Bool :=
  s.hubAlive && (match s.pwr.mod with
    | .ready => true
    | .pfail => (match s.pwr.pfailAt with
      | some t => decide (s.hclk < t + 200 * hclkPerUs)
      | none => false)
    | _ => false)

/-- The running commands of a list are killed, and so is what it has parked or left with Prephor: LATE (R422). -/
def State.killList (s : State) (n : Nat) (at_ : Progress) : State :=
  let s1 := s.each (upto 21) (fun s e => match (s.eng e).cur with
    | some c => if c.queue = n ∧ c.startAt.isSome then s.kill e c at_ stLate .deadline else s
    | none => s)
  let s2 := s1.each (upto 21) (fun s e => s.each ((s.eng e).waits.filter (fun w => w.cmd.queue == n)) (fun s w =>
    (s.dropWait e w).postRecord e w.cmd { status := stLate, cause := .deadline }))
  s2.each (s2.mbx.privs.filter (fun c => c.queue == n)) (fun s c => s.stopPriv c true at_ stLate .deadline)

/-- A command of a list that has not started leaves its engine; its descriptor goes back, or counts as withdrawn where it was chained. -/
def State.withdrawPrep (n : Nat) (acc : Nat × State) (e : Nat) : Nat × State :=
  match (acc.2.eng e).cur with
  | some c =>
    if c.queue = n ∧ c.startAt.isNone then
      let t := (acc.2.endWaits e).atBoundary e
      if c.chained then (acc.1 + 1, t) else (acc.1, t.modQueue n (fun q => { q with head := q.head - 1 }))
    else acc
  | none => acc

/-- The chain slots that hold descriptors of a list are emptied (DEDUCED, log entry 22). -/
def State.withdrawChains (n : Nat) (acc : Nat × State) (e : Nat) : Nat × State :=
  (upto 8).foldl (fun (acc : Nat × State) k =>
    let x := acc.2.chainSlot e k
    if x.st = .empty ∨ x.queue ≠ n then acc else (acc.1 + 1, (acc.2.setChain e k ChainSlot.reset).dropChainPreload e k)) acc

/-- Every descriptor of a list that has not started is withdrawn, with no record, and counted in SKIPPED (R422). -/
def State.withdraw (s : State) (prog : Nat) : State :=
  let n := 504 + prog
  let s1 := s.each (upto 21) (fun s e => match (s.eng e).preload with
    | some p => if p.cmd.queue = n then s.discardPreload e else s
    | none => s)
  let a := (upto 21).foldl (State.withdrawPrep n) (0, s1)
  let b := (upto 21).foldl (State.withdrawChains n) a
  let q := b.2.queue n
  (b.2.setQueue n { q with head := q.tail }).modProg prog (fun x => { x with skipped := q.tail - q.head + b.1 })

/-- The tick's deadline has passed. -/
def State.endTick (s : State) (p : PerProg) (late : Bool) : State :=
  let ran := (s.prog p.prog).st == .running
  let s1 := s.modProg p.prog (fun x => { x with
    fired := false, waits := false, released := false, lastLate := late,
    st := if x.st = .running then (if bit s.clk.unalignedEng p.eng then .held else .armed) else x.st })
  if ran then s1.modEng p.eng (fun e => { e with served := true }) else s1

/-- Egress flags (R415): LATE, HOLD, REPAIR, HELD, FAIL. -/
def efLate : Nat := 3
def efRepair : Nat := 6
def efHeld : Nat := 10
def efFail : Nat := 18

/-- A list that did not commit by its deadline (R422): FAIL where one of its commands failed, else LATE. -/
def State.missDeadline (s : State) (p : PerProg) (time : Nat) (at_ : Progress) : State :=
  let x := s.prog p.prog
  let arg := p.prog + x.cur % 2 ^ 32 * 2 ^ 32
  let t := (s.killList (504 + p.prog) at_).withdraw p.prog
  let t1 := if x.failed then (t.bump .prog p.prog 2).raise .perFail s.hubDomain arg
    else (t.bump .prog p.prog 1).raise .perLate s.hubDomain arg
  (t1.egress p.prog (if x.failed then efFail else efLate) (x.cur % 2 ^ 32) time).endTick p true

/-- D_k of the tick of a program that waits for it has come. -/
def State.deadlineDue (s : State) (p : PerProg) : Bool :=
  (s.prog p.prog).fired && decide ((s.prog p.prog).fireAt + p.egress ≤ s.progNow p)

/-- ns since that deadline. -/
def State.pastDeadline (s : State) (p : PerProg) : Nat := s.progNow p - ((s.prog p.prog).fireAt + p.egress)

/-- The egress of a tick at its deadline (R415, R421 to R425). -/
def State.deadline (s : State) (at_ : Progress) (p : PerProg) : State :=
  let x := s.prog p.prog
  let k := x.cur % 2 ^ 32
  let time := s.time - s.pastDeadline p
  let s := s.traceTick p.eng p.prog x.cur 1
  if x.windowOpen then
    (if x.disarmNext then s else s.egress p.prog efRepair k time).endTick p false
  else if x.st = .held then (s.egress p.prog efHeld k time).endTick p false
  else if x.committed then (s.egress p.prog 0 k time).endTick p false
  else s.missDeadline p time at_

/-- Programs `p` and `q` send on one port. -/
def State.sharePort (s : State) (p q : Nat) : Bool :=
  let out (n : Nat) : List Nat := (s.img.streams.filter (fun x => decide (x.prog = n ∧ x.dir = 1))).map PerStream.port
  (out p).any (fun n => (out q).contains n)

/-- The lower programs whose deadline is the same and which send on a port of program `p`: their frames leave first (R421). -/
def State.deadlineBefore (s : State) (p : PerProg) : List PerProg :=
  ((upto p.prog).filterMap s.perProg).filter (fun q =>
    s.deadlineDue q && s.pastDeadline q == s.pastDeadline p && s.sharePort q.prog p.prog)

/-- EGRESS_DEADLINE (R415, R421 to R425): D_k of the tick that waits for it. -/
def execEgressDeadline (prog : Nat) (at_ : Progress) (s : State) : Out :=
  .next (match s.perProg prog with
    | none => s
    | some p =>
      if !s.e5Sends ∨ !s.deadlineDue p then s
      else (s.each (s.deadlineBefore p) (fun s q => s.deadline at_ q)).deadline at_ p)

/-! ## Register writes (R7) -/

/-- The effect of a write at an offset whose register does more than store. -/
def State.effectWrite (s : State) (who : Requester) (off : Nat) (v : Word) : Option State :=
  let o := off % 0x100000
  match off / 0x100000 with
  | 0x1 =>
    if o = 0x800 then some (s.fenceWrite v)
    else if 0x2000 ≤ o ∧ o < 0x2800 then some ((s.writeTail ((o - 0x2000) / 4) v.toNat).reportQueue ((o - 0x2000) / 4))
    else if o = 0x301C then some (if v.getLsbD 0 then s.resumeQueue (s.qSel who) else s)
    else none
  | 0x3 => if o = 0xF0010 then some (s.recSel who v) else none
  | 0x4 =>
    if who = .host ∧ o < 0x80 ∧ o % 0x20 = 0xC then some (s.postH2f (o / 0x20) v)
    else if who = .host ∧ 0x80 ≤ o ∧ o < 0x100 ∧ o % 0x20 = 0x10 then some (s.ackF2h ((o - 0x80) / 0x20) v)
    else if who = .host ∧ o = 0x208 then some (s.modMbx (fun m => { m with dbH2f := m.dbH2f ||| v }))
    else none
  | 0x6 =>
    if o = 0x10 then some (s.cursorHi who v)
    else if o = 0x14 then some (s.evrCtrl v)
    else if o = 0x1C then some (s.ackHi v)
    else none
  | 0xA =>
    if o < 0x800 ∧ o % 0x100 = 0x18 then some (s.progCtrl (o / 0x100) v)
    else if o = 0x1000 then some (s.grant v)
    else if 0x2000 ≤ o ∧ o < 0x4000 ∧ (o - 0x2000) % 0x400 = 0x24 then some (s.gclChange ((o - 0x2000) / 0x400) v)
    else none
  | _ => none

/-- REGISTER_WRITE (R7, R404, R457, R464, R472, R474): a register stores, sets or clears under its access code, or does what its own row
does; a write that is not to a whole register is dropped and counted (R432). -/
def execRegisterWrite (who : Requester) (off : Nat) (value : Word) (s : State) : Out :=
  .next (if off % 4 ≠ 0 then s.badWrite else s.onWrite off (fun s => (s.effectWrite who off value).getD (s.plainWrite who off value)))

end Sys2Proof.Machine
end

