-- ==== Sys2Proof/Machine/Network.lean ====
section
/-!
DEFINITION. The network's own events: conveyor waves, slips found by them, holds of free halves and bad control messages (chapter 09).
-/
namespace Sys2Proof.Machine

/-- Serving waves of conveyor `i` since image load (R249). -/
def State.wave (s : State) (i : Nat) : Nat := sget 0 s.yards.waves i

/-- The slice that serving wave `w` of a conveyor serves (R249). -/
def Conveyor.slice (c : Conveyor) (nC w : Nat) : Nat := 24 * (c.edge / 32) + (w / nC + c.offset) % 24

/-- The core that is member `k` of a conveyor of `n`, by its physical number. -/
def State.member (s : State) (c : Conveyor) (n k : Nat) : Option Nat :=
  ((c.members n)[k]?).map (fun p => coreNum (s.coreXY p.1 p.2))

/-- The slot in which that router launches. -/
def State.waveSlot (s : State) (c : Conveyor) : Nat :=
  if c.dir = 0 then c.slot else (((c.uses s.logical s.img.net.nC).getLast?).map Use.slot).getD c.slot

/-- The frame whose wave conveyor `i` may launch now: its slot has come in the frame that runs, and it has not launched there (R240, R249). -/
def State.waveFrame (s : State) (i : Nat) (c : Conveyor) : Option Nat :=
  let y := (s.rclk (s.waveHalf c)).yclk
  if s.waveSlot c ≤ y % 1024 ∧ sget 0 s.yards.lastWave i ≠ y / 1024 + 1 then some (y / 1024) else none

/-- The banks of a core take and give waves: its half is in RUN or IDLE and not under march (R249, R306). -/
def State.waveAwake (s : State) (core : Nat) : Bool :=
  let h := s.half (physOf core).yh
  !h.farrier && (h.pstate == .run || h.pstate == .idle)

/-- The running COPY `m` of a shed's movement engine has its next unit, `u`, since it writes in ascending order, for core `k` and the slice that a wave serves (R249, R365): a delivery takes
data for a scratchpad, a collection data of one. -/
def State.unitFits (s : State) (c : Conveyor) (k slice : Nat) (m : Cmd) (u : Nat) : Bool :=
  let d := m.desc
  let here (space a : Nat) := space == 2 && coreNum (s.coreAt (spCore a)) == k
  let there (space a : Nat) (write : Bool) :=
    space == 1 || (space == 0 && (a + 16 * u) / pageBytes % 192 == slice && (s.xlatCause (a + 16 * u) write false).isNone)
  decide (16 * u < copyLen d) && u == m.carried && s.waveAwake k && s.copyReadable d &&
    (if c.dir = 0 then here (copyDstSpace d) (copyDst d) && (there (copySrcSpace d) (copySrc d) false || copySrcSpace d == 2)
      else here (copySrcSpace d) (copySrc d) && there (copyDstSpace d) (copyDst d) true)

/-- A serving wave of conveyor `i` carries unit `u` of the COPY that its shed's movement engine runs, in a flit that names its member (R236, R249, R262); an error that it meets is re-read first, and the
wave stays idle (R292, R330). -/
def State.waveUnit (s : State) (i : Nat) (c : Conveyor) (w u : Nat) : State :=
  let n := s.img.net.nC
  let e := 8 + c.edge / 32
  match s.running e opMove, s.member c n (w % n) with
  | some m, some k =>
    if !s.unitFits c k (c.slice n w) m u then s
    else
      let met := s.copyMet m.desc (16 * u) 16
      match s.takeChecks e m met.1 met.2 with
      | some t => t
      | none =>
        let r := s.copyData m.desc (16 * u) 16
        (((s.copyWrites m.desc (16 * u) r).setFlit i { dataFlit r.data false false with member := w % n }).modEng e (fun x =>
          { x with cur := some { m with carried := u + 1 } })).bump .shed (c.edge / 32) (if c.dir = 0 then 0 else 1)
  | _, _ => s

/-- The command that a wave of shed `k` carries data for is replayed: the COPY of its movement engine (R259, R273, R500). -/
def State.waveReplay (s : State) (k : Nat) : State := if (s.running (8 + k) opMove).isSome then s.replay (8 + k) else s

/-- CONVEYOR_WAVE (R249): conveyor `conv` launches the wave of the frame that runs, once its slot has come.  Even frames serve a delivery and odd ones
a collection; the others are idle.  A serving wave carries unit `flit` of the COPY of its shed, none where it is idle; a slip on its way makes it an
idle flit with POISON (R248). -/
def execConveyorWave (conv : Nat) (flit : Option Nat) (slip : Option (Nat × Nat)) (s : State) : Out :=
  .next (match s.img.net.conveyors[conv]? with
    | none => s
    | some c =>
      match s.waveFrame conv c with
      | none => s
      | some frame =>
        if !s.hub.loaded ∨ s.pwr.mod = .safe ∨ s.pwr.mod = .pfail then s
        else
          let w := s.wave conv
          let serves := decide (frame % 2 = c.dir % 2)
          let idle := { idleFlit with member := if serves then w % s.img.net.nC else 0, poison := slip.isSome }
          let s1 := (s.modYards (fun y => { y with
            lastWave := sset 0 y.lastWave conv (frame + 1),
            waves := if serves then sset 0 y.waves conv (w + 1) else y.waves })).setFlit conv idle
          match slip, flit with
          | some x, some _ => if serves then (s1.slip x.1 x.2).waveReplay (c.edge / 32) else s1.slip x.1 x.2
          | some x, none => s1.slip x.1 x.2
          | none, some u => if serves then s1.waveUnit conv c w u else s1
          | none, none => s1)

/-- CROSSING_HOLD_END (R247): a free half that holds has held for `heldYclk`; the state of its cores and routers stands as it was. -/
def execCrossingHoldEnd (yh heldYclk : Nat) (s : State) : Out :=
  .next (if !s.yards.holds.contains yh ∨ s.pwr.mod ≠ .ready then s else (s.endHold yh).bumpBy .half yh 19 heldYclk)

/-- CTL_BAD (R256): a control message with a reserved TYPE is dropped and counted. -/
def execCtlBad (yh type : Nat) (s : State) : Out := .next (if 0x0E ≤ type then s.bump .half yh 22 else s)

end Sys2Proof.Machine
end

