-- ==== Sys2Proof/Machine/Sheds.lean ====
section
/-!
DEFINITION. Check re-reads, write retries, page retirement, copy-over and refresh (chapters 11 and 12).
-/
namespace Sys2Proof.Machine

/-- The module's memories are powered and their controllers run. -/
def State.memoryUp (s : State) : Bool := s.pwr.mod == .ready

/-! ## Scratchpads (R292, R293) -/

/-- SPAD_CHECK_REREAD (R293): the word's address, the engine whose command read it, and what the re-read finds. -/
def execSpadCheckReread (c : PhysCore) (bank word : Nat) (eng : Option Nat) (result : Reread) (s : State) : Out :=
  let off := 0x8000 * bank + 4 * word
  let key := (coreNum c * 12 + bank, spadKey (coreNum c) off / 4)
  .next (if !s.memoryUp then s
    else
      let s1 := s.modYards (fun y => { y with checks := y.checks.filter (fun x => decide (x ≠ key)) })
      let s2 := s1.resolve (Cmd.word (wordKey (coreNum c) off) (result == .parityWrong || result == .notRun))
      match result with
      | .clean => (s2.spadParity (coreNum c) off false).spadTransient c eng
      | .edcWrong => (s2.spadParity (coreNum c) off false).spadTransient c eng
      | .parityWrong => s2.spadStored c bank word
      | .notRun => s2.spadStored c bank word)

/-! ## GDDR6 (R330 to R332) -/

/-- MEM_CHECK_REREAD (R331, R342): the block, its words of wrong parity, the engine whose command read it, what the re-read finds, and whether
the READ that queued it failed EDC. -/
def execMemCheckReread (block : Nat) (words : List Nat) (eng : Option Nat) (result : Reread) (edc : Bool) (s : State) : Out :=
  let k := blockSlice block / 24
  .next (if !s.memoryUp then s
    else
      let s1 := s.modShed k (fun x => { x with checks := x.checks.filter (fun c => decide (c ≠ (blockSlice block, block))) })
      let s2 := (if edc then s1.bump .shed k 2 else s1).resolve (Cmd.block block (result == .parityWrong || result == .notRun))
      match result with
      | .clean => (((s2.blockParity block []).bump .shed k 4).countDevice block).replayFor eng
      | .edcWrong => ((s2.bump .shed k 2).countDevice block).replayFor eng
      | .parityWrong => (s2.memStored block words 5).countDevice block
      | .notRun => s2.memStored block words 6)

/-- A retry of a write that failed EDC (R332): eight failures retire the page. -/
def State.retryWrite (s : State) (b tries : Nat) (ok : Bool) : State :=
  let k := blockSlice b / 24
  let rest := (s.shed k).retry.filter (fun r => r.block != b)
  let s1 := (s.bump .shed k 3).countDevice b
  if ok then s1.modShed k (fun x => { x with retry := rest })
  else if 8 ≤ tries + 1 then (s1.modShed k (fun x => { x with retry := rest })).retirePage (blockPage b)
  else s1.modShed k (fun x => { x with retry := rest ++ [⟨b, tries + 1⟩] })

/-- WRITE_RETRY (R332): a retry of the write to a block.  A write that is not kept yet has failed EDC just now; with four kept on its
slice its command is replayed instead. -/
def execWriteRetry (block : Nat) (eng : Option Nat) (ok : Bool) (s : State) : Out :=
  let k := blockSlice block / 24
  .next (if !s.memoryUp then s
    else
      match (s.shed k).retry.find? (fun r => r.block == block) with
      | some r => s.retryWrite block r.tries ok
      | none =>
        if 4 ≤ ((s.shed k).retry.filter (fun r => blockSlice r.block == blockSlice block)).length then s.replayFor eng
        else s.retryWrite block 0 ok)

/-! ## Page retirement (R333 to R335) -/

/-- The virtual page that a valid entry maps to a frame. -/
def State.vpageOf (s : State) (page : Nat) : Option Nat := (s.img.xlat.find? (fun x => x.2.valid && x.2.ppage == page)).map Prod.fst

/-- Block `i` of the retiring page is copied raw, with its parity (R334). -/
def State.copyBlock (s : State) (k i : Nat) : State :=
  let x := s.shed k
  if x.retDone.contains i then s
  else
    let src := x.retOld * pageBytes + 1024 * i
    let dst := x.retNew * pageBytes + 1024 * i
    let bad := (upto 256).filter (fun w => s.mem.bad.contains (src / 4 + w))
    let s1 := s.physWrite dst (s.physBytes src 1024)
    (bad.foldl (fun s w => s.physSpoil (dst + 4 * w)) s1).modShed k (fun y => { y with retDone := insertNat i y.retDone })

/-- The next page that waits is switched to a new frame, every block uncopied (R334). -/
def State.startRetire (s : State) (k : Nat) : State :=
  match (s.shed k).retQueue with
  | [] => s
  | page :: rest =>
    let s1 := s.modShed k (fun x => { x with retQueue := rest })
    match s1.vpageOf page, s1.freeFrame (page % 192) with
    | some v, some new =>
      (s1.setXlat v { s1.xlat v with ppage := new }).modShed k (fun x => { x with
        retOld := page, retNew := new, retVpage := v, retBusy := true, retDone := [] })
    | some _, none => s1.raise .memNoFrame (shedDomain k) page
    | none, _ => s1

/-- PAGE_RETIRE (R334): the switch, or while a page is being retired the copy of its next block. -/
def execPageRetire (shed : Nat) (s : State) : Out :=
  .next (if !s.memoryUp then s
    else if (s.shed shed).retBusy then
      match (upto 4096).find? (fun i => !(s.shed shed).retDone.contains i) with
      | some i => s.copyBlock shed i
      | none => s
    else s.startRetire shed)

/-- A list of blocks of the page that a retirement copies. -/
def State.copyBlocks (s : State) (k : Nat) (is : List Nat) : State := s.each is (fun s i => s.copyBlock k i)

/-- The retirement of shed record `x` in the journal: the old page reserved, the page's entry as the switch left it (R335). -/
def State.recordRetire (s : State) (x : Shed) : State :=
  let before := { s.img with xlat := sset Xlat.reset s.img.xlat x.retVpage { s.xlat x.retVpage with ppage := x.retOld } }
  let after := { s.img with resv := s.img.resv ++ [x.retOld] }
  s.recordPatch (s.ownPatch 4 0 (memBody before after)) after

/-- The end of a retirement (R335): the old page is reserved, and the state in force is journalled. -/
def State.endRetire (s : State) (k : Nat) : State :=
  let x := s.shed k
  let s1 := (s.copyBlocks k (upto 4096)).modShed k (fun y => { y with retBusy := false, retDone := [] })
  ((s1.recordRetire x).raise .memRetire (shedDomain k) (x.retOld + x.retNew * 2 ^ 32)).bump .shed k 7

/-- PAGE_RETIRE_DONE (R335): the blocks left are copied and the retirement ends. -/
def execPageRetireDone (shed : Nat) (s : State) : Out :=
  .next (if s.memoryUp ∧ (s.shed shed).retBusy then s.endRetire shed else s)

/-! ## Copy-over, device swap and refresh (R320, R336, R337) -/

/-- DEVICE_COPY_OVER (R336): both slices are copied. -/
def execDeviceCopyOver (shed : Nat) (s : State) : Out :=
  .next (if s.memoryUp ∧ (s.shed shed).copying.isSome then s.modShed shed (fun x => { x with copyDone := copyTotal }) else s)

/-- DEVICE_SWAP (R337): the spare takes the position, recorded by a MEM patch. -/
def execDeviceSwap (shed : Nat) (s : State) : Out :=
  .next (match (s.shed shed).copying with
    | none => s
    | some k =>
      if s.live ∧ copyTotal ≤ (s.shed shed).copyDone then
        (s.spareDevice shed k).modShed shed (fun x => { x with copying := none, copyDone := 0 })
      else s)

/-- REFRESH (R320): the refresh commands of a REFRESH position change nothing that software can see. -/
def execRefresh (_ : Nat) (s : State) : Out := .next s

end Sys2Proof.Machine
end

