-- ==== Sys2Proof/Machine/Dispatch.lean ====
section
/-! DEFINITION. The meaning of every command: one arm per row of opcode_table.json. -/
namespace Sys2Proof.Machine

def exec (i : Instr) (s : State) : Host.Outcome State Fault Refusal :=
  match i with
  | .tensor eng plan => Sys2Proof.Machine.execTensor eng plan s
  | .anneal eng faults => Sys2Proof.Machine.execAnneal eng faults s
  | .rotate eng faults => Sys2Proof.Machine.execRotate eng faults s
  | .snapshot eng atOp => Sys2Proof.Machine.execSnapshot eng atOp s
  | .resume eng faults => Sys2Proof.Machine.execResume eng faults s
  | .moveCopy eng => Sys2Proof.Machine.execMoveCopy eng s
  | .moveSpinpack eng => Sys2Proof.Machine.execMoveSpinpack eng s
  | .route arrival => Sys2Proof.Machine.execRoute arrival s
  | .combine => Sys2Proof.Machine.execCombine s
  | .reduceCompute eng remote => Sys2Proof.Machine.execReduceCompute eng remote s
  | .reduceNode eng mesh => Sys2Proof.Machine.execReduceNode eng mesh s
  | .reduceOpen eng => Sys2Proof.Machine.execReduceOpen eng s
  | .reduceClose eng => Sys2Proof.Machine.execReduceClose eng s
  | .reduceSend eng => Sys2Proof.Machine.execReduceSend eng s
  | .fenceSignalAdd eng => Sys2Proof.Machine.execFenceSignalAdd eng s
  | .fenceSignalMax eng => Sys2Proof.Machine.execFenceSignalMax eng s
  | .fenceWait eng => Sys2Proof.Machine.execFenceWait eng s
  | .chain eng => Sys2Proof.Machine.execChain eng s
  | .nop eng => Sys2Proof.Machine.execNop eng s
  | .patch => Sys2Proof.Machine.execPatch s
  | .repairHalter => Sys2Proof.Machine.execRepairHalter s
  | .repairColumn => Sys2Proof.Machine.execRepairColumn s
  | .repairRow => Sys2Proof.Machine.execRepairRow s
  | .marchDestructive found => Sys2Proof.Machine.execMarchDestructive found s
  | .marchPreserving found => Sys2Proof.Machine.execMarchPreserving found s
  | .clkmode facts => Sys2Proof.Machine.execClkmode facts s
  | .rngctlReseed => Sys2Proof.Machine.execRngctlReseed s
  | .rngctlRestart katFail blocks => Sys2Proof.Machine.execRngctlRestart katFail blocks s
  | .rngctlPattern => Sys2Proof.Machine.execRngctlPattern s
  | .rngctlPatternOff katFail blocks => Sys2Proof.Machine.execRngctlPatternOff katFail blocks s
  | .retainToRun => Sys2Proof.Machine.execRetainToRun s
  | .retainToRetain => Sys2Proof.Machine.execRetainToRetain s
  | .retainToOff => Sys2Proof.Machine.execRetainToOff s
  | .feFenceAdd value => Sys2Proof.Machine.execFeFenceAdd value s
  | .feQTail queue value => Sys2Proof.Machine.execFeQTail queue value s
  | .feQResume who value => Sys2Proof.Machine.execFeQResume who value s
  | .rteRecSel who value => Sys2Proof.Machine.execRteRecSel who value s
  | .mbxH2fSeq mbx value => Sys2Proof.Machine.execMbxH2fSeq mbx value s
  | .mbxF2hAck mbx value => Sys2Proof.Machine.execMbxF2hAck mbx value s
  | .dbH2f value => Sys2Proof.Machine.execDbH2f value s
  | .perArm prog value => Sys2Proof.Machine.execPerArm prog value s
  | .perDisarm prog value => Sys2Proof.Machine.execPerDisarm prog value s
  | .perRepairGrant value => Sys2Proof.Machine.execPerRepairGrant value s
  | .evrCursorHi who value => Sys2Proof.Machine.execEvrCursorHi who value s
  | .evrWin15 who => Sys2Proof.Machine.execEvrWin15 who s
  | .evrAckHi value => Sys2Proof.Machine.execEvrAckHi value s
  | .evrFreeze value => Sys2Proof.Machine.execEvrFreeze value s
  | .evrThaw value => Sys2Proof.Machine.execEvrThaw value s
  | .drvGclChange port value => Sys2Proof.Machine.execDrvGclChange port value s
  | .rngData0 who => Sys2Proof.Machine.execRngData0 who s
  | .lowWordRead who off => Sys2Proof.Machine.execLowWordRead who off s
  | .registerWrite who off value => Sys2Proof.Machine.execRegisterWrite who off value s
  | .queueCreate => Sys2Proof.Machine.execQueueCreate s
  | .queueDestroy atOp => Sys2Proof.Machine.execQueueDestroy atOp s
  | .queueBudget => Sys2Proof.Machine.execQueueBudget s
  | .map => Sys2Proof.Machine.execMap s
  | .unmap => Sys2Proof.Machine.execUnmap s
  | .engineDisable => Sys2Proof.Machine.execEngineDisable s
  | .engineEnable => Sys2Proof.Machine.execEngineEnable s
  | .repairList => Sys2Proof.Machine.execRepairList s
  | .repairRun => Sys2Proof.Machine.execRepairRun s
  | .patchRequest => Sys2Proof.Machine.execPatchRequest s
  | .hubStatus => Sys2Proof.Machine.execHubStatus s
  | .failover => Sys2Proof.Machine.execFailover s
  | .powerUp facts => Sys2Proof.Machine.execPowerUp facts s
  | .powerUpStepTimeout step facts => Sys2Proof.Machine.execPowerUpStepTimeout step facts s
  | .mrstPulse ns => Sys2Proof.Machine.execMrstPulse ns s
  | .pfailAssert ns pageUs => Sys2Proof.Machine.execPfailAssert ns pageUs s
  | .perst => Sys2Proof.Machine.execPerst s
  | .railOutOfBand rail => Sys2Proof.Machine.execRailOutOfBand rail s
  | .yardLost yard => Sys2Proof.Machine.execYardLost yard s
  | .flushEnd => Sys2Proof.Machine.execFlushEnd s
  | .evrFreezeExpiry => Sys2Proof.Machine.execEvrFreezeExpiry s
  | .bar2Access write addr len data => Sys2Proof.Machine.execBar2Access write addr len data s
  | .bar4Read off len => Sys2Proof.Machine.execBar4Read off len s
  | .bar0BadWrite => Sys2Proof.Machine.execBar0BadWrite s
  | .unsupportedRequest kind => Sys2Proof.Machine.execUnsupportedRequest kind s
  | .i3cPrivateWrite data => Sys2Proof.Machine.execI3cPrivateWrite data s
  | .i3cPrivateRead => Sys2Proof.Machine.execI3cPrivateRead s
  | .i3cCcc code => Sys2Proof.Machine.execI3cCcc code s
  | .tapInstruction iOp => Sys2Proof.Machine.execTapInstruction iOp s
  | .driveFrameRx port frame fcsOk => Sys2Proof.Machine.execDriveFrameRx port frame fcsOk s
  | .gptpSync port timeNs identity => Sys2Proof.Machine.execGptpSync port timeNs identity s
  | .pdelayReq port => Sys2Proof.Machine.execPdelayReq port s
  | .syncTimeout => Sys2Proof.Machine.execSyncTimeout s
  | .gclChangeApply port => Sys2Proof.Machine.execGclChangeApply port s
  | .syncOutPulse => Sys2Proof.Machine.execSyncOutPulse s
  | .syncInEdge => Sys2Proof.Machine.execSyncInEdge s
  | .syncInTimeout prog => Sys2Proof.Machine.execSyncInTimeout prog s
  | .tickFire prog => Sys2Proof.Machine.execTickFire prog s
  | .listRelease prog => Sys2Proof.Machine.execListRelease prog s
  | .commit prog => Sys2Proof.Machine.execCommit prog s
  | .egressDeadline prog atOp => Sys2Proof.Machine.execEgressDeadline prog atOp s
  | .repairWindowOpen eng => Sys2Proof.Machine.execRepairWindowOpen eng s
  | .repairWindowClose prog => Sys2Proof.Machine.execRepairWindowClose prog s
  | .columnItem bistFails found => Sys2Proof.Machine.execColumnItem bistFails found s
  | .rowItem => Sys2Proof.Machine.execRowItem s
  | .realign facts => Sys2Proof.Machine.execRealign facts s
  | .faultReport event eng => Sys2Proof.Machine.execFaultReport event eng s
  | .spadCheckReread c bank word eng result => Sys2Proof.Machine.execSpadCheckReread c bank word eng result s
  | .memCheckReread block words eng result edc => Sys2Proof.Machine.execMemCheckReread block words eng result edc s
  | .writeRetry block eng ok => Sys2Proof.Machine.execWriteRetry block eng ok s
  | .pageRetire shed => Sys2Proof.Machine.execPageRetire shed s
  | .pageRetireDone shed => Sys2Proof.Machine.execPageRetireDone shed s
  | .deviceCopyOver shed => Sys2Proof.Machine.execDeviceCopyOver shed s
  | .deviceSwap shed => Sys2Proof.Machine.execDeviceSwap shed s
  | .refresh shed => Sys2Proof.Machine.execRefresh shed s
  | .conveyorWave conv flit slip => Sys2Proof.Machine.execConveyorWave conv flit slip s
  | .crossingHoldEnd yh heldYclk => Sys2Proof.Machine.execCrossingHoldEnd yh heldYclk s
  | .phaseStart core phase waited => Sys2Proof.Machine.execPhaseStart core phase waited s
  | .rotateVisit eng faults => Sys2Proof.Machine.execRotateVisit eng faults s
  | .ready core obj => Sys2Proof.Machine.execReady core obj s
  | .patchLanding eng found => Sys2Proof.Machine.execPatchLanding eng found s
  | .engineFetch eng => Sys2Proof.Machine.execEngineFetch eng s
  | .preload eng => Sys2Proof.Machine.execPreload eng s
  | .startMarker eng early jobs => Sys2Proof.Machine.execStartMarker eng early jobs s
  | .idleEntry yh => Sys2Proof.Machine.execIdleEntry yh s
  | .wake yh => Sys2Proof.Machine.execWake yh s
  | .fence eng slot => Sys2Proof.Machine.execFence eng slot s
  | .ctlBad yh type => Sys2Proof.Machine.execCtlBad yh type s
  | .queueTimeout eng atOp => Sys2Proof.Machine.execQueueTimeout eng atOp s
  | .drainTimeout eng atOp => Sys2Proof.Machine.execDrainTimeout eng atOp s
  | .hostReadTimeout eng => Sys2Proof.Machine.execHostReadTimeout eng s
  | .accountWindow eng => Sys2Proof.Machine.execAccountWindow eng s
  | .mappingPoint eng => Sys2Proof.Machine.execMappingPoint eng s
  | .slotHandover slot => Sys2Proof.Machine.execSlotHandover slot s
  | .dbH2fPoll => Sys2Proof.Machine.execDbH2fPoll s
  | .heartbeat => Sys2Proof.Machine.execHeartbeat s
  | .hubLoss cause => Sys2Proof.Machine.execHubLoss cause s
  | .standbyLost => Sys2Proof.Machine.execStandbyLost s
  | .hubLostNoStandby => Sys2Proof.Machine.execHubLostNoStandby s
  | .rngBlock hub src samples => Sys2Proof.Machine.execRngBlock hub src samples s
  | .reseed hub => Sys2Proof.Machine.execReseed hub s
  | .rngRequest hub => Sys2Proof.Machine.execRngRequest hub s
  | .rngDataBound who => Sys2Proof.Machine.execRngDataBound who s
  | .dataFrameRx port frame => Sys2Proof.Machine.execDataFrameRx port frame s
  | .nak port seq => Sys2Proof.Machine.execNak port seq s
  | .laneFault port lane => Sys2Proof.Machine.execLaneFault port lane s
  | .laneSwap port old new slot => Sys2Proof.Machine.execLaneSwap port old new slot s
  | .laneSwapSlot port => Sys2Proof.Machine.execLaneSwapSlot port s
  | .mapMessage port map => Sys2Proof.Machine.execMapMessage port map s
  | .linkDown port => Sys2Proof.Machine.execLinkDown port s
  | .linkRetrained port map => Sys2Proof.Machine.execLinkRetrained port map s
  | .noPeerTimeout port => Sys2Proof.Machine.execNoPeerTimeout port s
  | .txItemSend port chan => Sys2Proof.Machine.execTxItemSend port chan s
  | .linkReadRequest port chan tag eng => Sys2Proof.Machine.execLinkReadRequest port chan tag eng s
  | .thermtrip tempC => Sys2Proof.Machine.execThermtrip tempC s
  | .testLogicReset => Sys2Proof.Machine.execTestLogicReset s
  | .windowTimeout => Sys2Proof.Machine.execWindowTimeout s
  | .flushRegionErased => Sys2Proof.Machine.execFlushRegionErased s
  | .drivePortLink port up fecLock => Sys2Proof.Machine.execDrivePortLink port up fecLock s
  | .receiveSignal port => Sys2Proof.Machine.execReceiveSignal port s
  | .ackSeq port seq => Sys2Proof.Machine.execAckSeq port seq s
  | .announce port priority identity => Sys2Proof.Machine.execAnnounce port priority identity s
  | .pdelayResp port delayNs => Sys2Proof.Machine.execPdelayResp port delayNs s
  | .gateControlEntry port => Sys2Proof.Machine.execGateControlEntry port s
  | .configurationWrite off value => Sys2Proof.Machine.execConfigurationWrite off value s

end Sys2Proof.Machine
end

