-- ==== Sys2Proof/Machine/Tick.lean ====
section
/-! DEFINITION. What one hclk brings when no command waits (log entry 10). -/
namespace Sys2Proof.Machine

/-- The engines' counters of one hclk: FENCE_PARK and STREAM_WAIT (R352, R363). -/
def State.tickEngine (s : State) (e : Nat) : State :=
  let s1 := if (s.engSlots e).any s.slotParked then s.bump .engine e 6 else s
  match (s.eng e).cur with
  | some c => if (s.eng e).st = .prep ∧ c.ready ∧ s.claimWaits e c then s1.bump .engine e 7 else s1
  | none => s1

/-- The queues' counter of one hclk: Q_WAIT_HCLK (R405). -/
def State.tickQueues (s : State) : State :=
  s.each (s.queues.filter (fun x => x.2.st == .waiting)) (fun s x => s.bump .queue x.1 0)

/-- RNG_STALL of the active hub: a request waits on an empty or STALLED generator (R494). -/
def State.tickRng (s : State) : State :=
  let h := s.rngActive
  if h.waiting.isEmpty || h.serves s.img.rng then s else s.bump .hub s.hubs.active 5

/-- PER_FIRE_SLIP of a program whose fire waits (R423), by the whole ns of this hclk. -/
def State.tickFires (s : State) : State :=
  s.each s.img.progs (fun s p =>
    let x := s.prog p.prog
    if x.armed && x.waits && x.st != .held then
      s.bumpBy .prog p.prog 6 (nsOf (s.hclk + 1) - nsOf s.hclk)
    else s)

/-- One hclk passes. -/
def State.tick (s : State) : State :=
  let s1 := if s.live then ((s.each ((upto 21).filter s.present) State.tickEngine).tickQueues.tickRng).tickFires.askDelay.traceWrite else s
  let s1 := if s1.pwr.mod = .ready then s1.takeFull else s1
  let s2 := if s1.pwr.mod = .ready then s1.each (upto 4) State.linkSlot else s1
  (s2.pass 1).pfailTick

end Sys2Proof.Machine
end

