-- ==== Sys2Proof/Safety.lean ====
section
/-!
DEFINITION. What a safe run of the EQ6 is, in the terms the statements use: the step goes on, and the invariant that every
step keeps.
-/
namespace Sys2Proof.Machine

/-- The step from `s` neither faults nor is refused. -/
def State.goesOn (s : State) : Prop := ∃ t, step s = .next t

/-- The canonical form of the memories: device memory, the scratchpads, the flash and host memory list their bytes in rising
order, and list none that reads as an unlisted one does. -/
def Memory.wf (s : State) : Bool :=
  swf 0 s.mem.data && swf 0 s.yards.spad && swf flashErased s.flash && swf 0 s.ports.hostMem

/-- The canonical form of the tables of engines, queues, slots and fences. -/
def State.unitsWf (s : State) : Bool :=
  swf Engine.reset s.engines && swf Queue.reset s.queues && swf Slot.reset s.slots && swf 0 s.fences

/-- The canonical form of the tables of halves, cores, sheds, link ports, standing programs, drive ports, mailboxes and RNG
domains, and of the tables of TOPO and MEM in force. -/
def State.partsWf (s : State) : Bool :=
  swf Half.reset s.yards.halves && swf Core.reset s.yards.cores && swf Shed.reset s.mem.sheds && swf LinkPort.reset s.links &&
  swf Program.reset s.per.progs && swf DrivePort.reset s.per.ports && swf H2f.reset s.mbx.h2f && swf F2h.reset s.mbx.f2h &&
  swf RngHub.reset s.rng.hubs && swf TopoHalf.reset s.img.topo && swf ShedRec.reset s.img.sheds && swf Xlat.reset s.img.xlat

/-- The counters stand in canonical form, each below 2^48 (R551). -/
def State.countersOk (s : State) : Bool := swf 0 s.pmon && s.pmon.all (fun x => decide (x.2 < 2 ^ 48))

/-- The invariant of the machine: every memory and table in canonical form, every counter below 2^48 (R551), at most 1,024 event
records (R536). -/
def State.Inv (s : State) : Prop :=
  Memory.wf s = true ∧ s.unitsWf = true ∧ s.partsWf = true ∧ s.countersOk = true ∧ s.evr.recs.length ≤ 1024

/-- Request `r`, in the line of `s`, has left that of `u`.  A post tried in the same hclk (R465) may have brought another of the same bytes. -/
def State.leftLine (s u : State) (r : Req) : Prop := (s.h2f r.mbx).tried = none → r ∉ u.mbx.reqs

/-- The patch that landed in `t` is in force in `u` and in its journal; the owners of pages are left out, which the end of a destruction
takes (R400). -/
def State.patchedAs (u t : State) : Prop := u.hub = t.hub ∧ u.flash = t.flash ∧ ({ u.img with xlat := t.img.xlat } : Image) = t.img

/-! ## What a command leaves alone -/

/-- The parts of the machine that the frames speak of. -/
inductive Part where
  | pwr     -- the mode and what power-up, SAFE and PFAIL# leave
  | hubs    -- which hub serves, and those lost
  | img     -- the image in force
  | hub     -- the state of the image and its journal
  | flash   -- the flash
  | halves  -- power states, row repairs and marches of the halves
  | cores   -- halters and the registers of the cores
  | spad    -- the scratchpads
  | data    -- device memory
  | engines -- the engines and their chain slots
  | fences  -- the fences
  | queues  -- the queues
  | slots   -- the queue slots
  | sel     -- the select registers and the high-word latches
  | route   -- the route engine
  | per     -- the period unit, the drive ports and the time
  | links   -- the Nolonlink ports
  | clk     -- lockstep and its crossings
  | rng     -- the random generators
  | rel     -- the repair items, windows and fault counts
  | host    -- host memory
  | hclk    -- the count of hclk
  deriving DecidableEq, Repr

/-- Part `p` is in `s` as it was in `o`. -/
def Part.same (p : Part) (o s : State) : Prop :=
  match p with
  | .pwr => s.pwr = o.pwr
  | .hubs => s.hubs = o.hubs
  | .img => s.img = o.img
  | .hub => s.hub = o.hub
  | .flash => s.flash = o.flash
  | .halves => s.yards.halves = o.yards.halves
  | .cores => s.yards.cores = o.yards.cores
  | .spad => s.yards.spad = o.yards.spad
  | .data => s.mem.data = o.mem.data
  | .engines => s.engines = o.engines
  | .fences => s.fences = o.fences ∧ s.fenceSat = o.fenceSat
  | .queues => s.queues = o.queues
  | .slots => s.slots = o.slots
  | .sel => s.qSelHost = o.qSelHost ∧ s.qSelPre = o.qSelPre ∧ s.latchHost = o.latchHost ∧ s.latchPre = o.latchPre
  | .route => s.route = o.route
  | .per => s.per = o.per
  | .links => s.links = o.links
  | .clk => s.clk = o.clk
  | .rng => s.rng = o.rng
  | .rel => s.rel = o.rel
  | .host => s.ports.hostMem = o.ports.hostMem
  | .hclk => s.hclk = o.hclk

/-- At these a command of an engine may end, with its record in device memory and host memory (R369). -/
def mayRecord (c : Instr) : Bool :=
  match c with
  | .tensor _ _ | .anneal _ _ | .rotate _ _ | .snapshot _ _ | .resume _ _ | .moveCopy _ | .moveSpinpack _ | .route _
  | .combine | .reduceCompute _ _ | .reduceNode _ _ | .reduceOpen _ | .reduceClose _ | .reduceSend _ | .fenceSignalAdd _
  | .fenceSignalMax _ | .fenceWait _ | .chain _ | .nop _ | .patch | .repairHalter | .repairColumn | .repairRow
  | .marchDestructive _ | .marchPreserving _ | .clkmode _ | .rngctlReseed | .rngctlRestart _ _ | .rngctlPattern
  | .rngctlPatternOff _ _ | .retainToRun | .retainToRetain | .retainToOff | .feQTail _ _ | .rngData0 _ | .lowWordRead _ _
  | .registerWrite _ _ _ | .queueDestroy _ | .engineDisable | .patchRequest | .listRelease _ | .egressDeadline _ _
  | .columnItem _ _ | .rowItem | .realign _ | .rotateVisit _ _ | .patchLanding _ _ | .engineFetch _ | .startMarker _ _ _
  | .fence _ _ | .queueTimeout _ _ | .drainTimeout _ _ | .hostReadTimeout _ | .mappingPoint _ | .slotHandover _
  | .rngBlock _ _ _ | .rngRequest _ | .laneSwapSlot _ | .linkRetrained _ _ | .ackSeq _ _ => true
  | _ => false

/-- The commands that may change a part; MRST_PULSE may change every part. -/
def mayWrite (p : Part) (c : Instr) : Bool :=
  match c with
  | .mrstPulse _ => true
  | c => match p with
    | .pwr =>
      match c with
      | .powerUp _ | .powerUpStepTimeout _ _ | .pfailAssert _ _ | .railOutOfBand _ | .yardLost _ | .thermtrip _ => true
      | _ => false
    | .hubs =>
      match c with
      | .failover | .powerUp _ | .powerUpStepTimeout _ _ | .faultReport _ _ | .heartbeat | .hubLoss _ | .standbyLost
      | .hubLostNoStandby => true
      | _ => false
    | .img =>
      match c with
      | .tensor _ _ | .anneal _ _ | .rotate _ _ | .snapshot _ _ | .resume _ _ | .moveCopy _ | .moveSpinpack _ | .route _
      | .combine | .reduceCompute _ _ | .reduceNode _ _ | .reduceOpen _ | .reduceClose _ | .reduceSend _ | .fenceSignalAdd _
      | .fenceSignalMax _ | .fenceWait _ | .chain _ | .nop _ | .patch | .repairHalter | .repairColumn | .repairRow
      | .marchDestructive _ | .marchPreserving _ | .clkmode _ | .rngctlReseed | .rngctlRestart _ _ | .rngctlPattern
      | .rngctlPatternOff _ _ | .retainToRun | .retainToRetain | .retainToOff | .rngData0 _ | .lowWordRead _ _
      | .queueDestroy _ | .map | .unmap | .engineDisable | .repairRun | .patchRequest | .powerUp _ | .powerUpStepTimeout _ _
      | .egressDeadline _ _ | .columnItem _ _ | .rowItem | .realign _ | .faultReport _ _ | .spadCheckReread _ _ _ _ _
      | .memCheckReread _ _ _ _ _ | .writeRetry _ _ _ | .pageRetire _ | .pageRetireDone _ | .deviceSwap _ | .rotateVisit _ _
      | .patchLanding _ _ | .engineFetch _ | .startMarker _ _ _ | .fence _ _ | .queueTimeout _ _ | .drainTimeout _ _
      | .hostReadTimeout _ | .rngBlock _ _ _ | .rngRequest _ | .dataFrameRx _ _ | .laneSwapSlot _ | .linkRetrained _ _
      | .ackSeq _ _ => true
      | _ => false
    | .hub =>
      match c with
      | .tensor _ _ | .anneal _ _ | .rotate _ _ | .snapshot _ _ | .resume _ _ | .patch | .repairHalter | .repairColumn
      | .repairRow | .marchDestructive _ | .marchPreserving _ | .queueDestroy _ | .repairRun | .patchRequest | .powerUp _
      | .powerUpStepTimeout _ _ | .egressDeadline _ _ | .columnItem _ _ | .rowItem | .faultReport _ _
      | .spadCheckReread _ _ _ _ _ | .memCheckReread _ _ _ _ _ | .writeRetry _ _ _ | .pageRetireDone _ | .deviceSwap _
      | .rotateVisit _ _ | .patchLanding _ _ | .queueTimeout _ _ | .drainTimeout _ _ | .dataFrameRx _ _ | .laneSwapSlot _ => true
      | _ => false
    | .flash =>
      match c with
      | .tensor _ _ | .anneal _ _ | .rotate _ _ | .snapshot _ _ | .resume _ _ | .patch | .repairHalter | .repairColumn
      | .repairRow | .marchDestructive _ | .marchPreserving _ | .queueDestroy _ | .repairRun | .patchRequest | .powerUp _
      | .powerUpStepTimeout _ _ | .pfailAssert _ _ | .flushEnd | .egressDeadline _ _ | .columnItem _ _ | .rowItem
      | .faultReport _ _ | .spadCheckReread _ _ _ _ _ | .memCheckReread _ _ _ _ _ | .writeRetry _ _ _ | .pageRetireDone _
      | .deviceSwap _ | .rotateVisit _ _ | .patchLanding _ _ | .queueTimeout _ _ | .drainTimeout _ _ | .dataFrameRx _ _
      | .laneSwapSlot _ | .flushRegionErased => true
      | _ => false
    | .halves =>
      match c with
      | .tensor _ _ | .anneal _ _ | .rotate _ _ | .snapshot _ _ | .resume _ _ | .moveCopy _ | .moveSpinpack _ | .route _
      | .combine | .reduceCompute _ _ | .reduceNode _ _ | .reduceOpen _ | .reduceClose _ | .reduceSend _ | .fenceSignalAdd _
      | .fenceSignalMax _ | .fenceWait _ | .chain _ | .nop _ | .patch | .marchDestructive _ | .marchPreserving _ | .clkmode _
      | .rngctlRestart _ _ | .rngctlPattern | .rngctlPatternOff _ _ | .retainToRun | .retainToRetain | .retainToOff
      | .evrWin15 _ | .rngData0 _ | .lowWordRead _ _ | .registerWrite _ _ _ | .queueDestroy _ | .patchRequest | .failover
      | .powerUp _ | .powerUpStepTimeout _ _ | .railOutOfBand _ | .yardLost _ | .i3cPrivateRead | .egressDeadline _ _
      | .columnItem _ _ | .rowItem | .realign _ | .faultReport _ _ | .rotateVisit _ _ | .patchLanding _ _ | .engineFetch _
      | .startMarker _ _ _ | .idleEntry _ | .wake _ | .queueTimeout _ _ | .drainTimeout _ _ | .hostReadTimeout _ | .hubLoss _
      | .rngBlock _ _ _ | .rngRequest _ | .ackSeq _ _ => true
      | _ => false
    | .cores =>
      match c with
      | .tensor _ _ | .anneal _ _ | .rotate _ _ | .snapshot _ _ | .resume _ _ | .moveCopy _ | .moveSpinpack _ | .route _
      | .combine | .reduceNode _ _ | .reduceOpen _ | .reduceClose _ | .reduceSend _ | .fenceSignalAdd _ | .fenceSignalMax _
      | .fenceWait _ | .chain _ | .nop _ | .patch | .repairHalter | .repairColumn | .repairRow | .marchDestructive _
      | .marchPreserving _ | .retainToRetain | .retainToOff | .queueDestroy _ | .repairRun | .patchRequest | .powerUp _
      | .powerUpStepTimeout _ _ | .egressDeadline _ _ | .columnItem _ _ | .rowItem | .faultReport _ _
      | .spadCheckReread _ _ _ _ _ | .memCheckReread _ _ _ _ _ | .writeRetry _ _ _ | .phaseStart _ _ _ | .rotateVisit _ _
      | .patchLanding _ _ | .startMarker _ _ _ | .queueTimeout _ _ | .drainTimeout _ _ | .dataFrameRx _ _ => true
      | _ => false
    | .spad =>
      match c with
      | .tensor _ _ | .anneal _ _ | .rotate _ _ | .snapshot _ _ | .resume _ _ | .moveCopy _ | .route _ | .combine
      | .reduceCompute _ _ | .reduceNode _ _ | .reduceOpen _ | .reduceClose _ | .reduceSend _ | .fenceSignalAdd _
      | .fenceSignalMax _ | .fenceWait _ | .chain _ | .nop _ | .patch | .marchDestructive _ | .marchPreserving _
      | .retainToRun | .retainToRetain | .retainToOff | .queueDestroy _ | .patchRequest | .powerUp _
      | .powerUpStepTimeout _ _ | .railOutOfBand _ | .yardLost _ | .tickFire _ | .egressDeadline _ _ | .columnItem _ _
      | .rowItem | .conveyorWave _ _ _ | .rotateVisit _ _ | .patchLanding _ _ | .startMarker _ _ _ | .wake _
      | .queueTimeout _ _ | .drainTimeout _ _ | .hostReadTimeout _ => true
      | _ => false
    | .data =>
      mayRecord c ||
      match c with
      | .mbxH2fSeq _ _ | .queueCreate | .queueBudget | .map | .unmap | .engineEnable | .repairList | .repairRun | .hubStatus
      | .failover | .powerUp _ | .powerUpStepTimeout _ _ | .railOutOfBand _ | .yardLost _ | .bar2Access _ _ _ _
      | .pageRetire _ | .pageRetireDone _ | .conveyorWave _ _ _ | .dbH2fPoll | .dataFrameRx _ _ | .windowTimeout => true
      | _ => false
    | .engines =>
      mayRecord c ||
      match c with
      | .engineEnable | .repairRun | .failover | .powerUp _ | .powerUpStepTimeout _ _ | .railOutOfBand _ | .yardLost _
      | .tickFire _ | .repairWindowOpen _ | .repairWindowClose _ | .faultReport _ _ | .spadCheckReread _ _ _ _ _
      | .memCheckReread _ _ _ _ _ | .writeRetry _ _ _ | .conveyorWave _ _ _ | .preload _ | .accountWindow _ | .hubLoss _
      | .dataFrameRx _ _ | .linkReadRequest _ _ _ _ | .windowTimeout => true
      | _ => false
    | .fences =>
      match c with
      | .route _ | .fenceSignalAdd _ | .fenceSignalMax _ | .feFenceAdd _ | .registerWrite _ _ _ | .dataFrameRx _ _ => true
      | _ => false
    | .queues =>
      mayRecord c ||
      match c with
      | .feQResume _ _ | .perArm _ _ | .perDisarm _ _ | .queueCreate | .queueBudget | .map | .unmap | .powerUp _
      | .powerUpStepTimeout _ _ | .tickFire _ | .repairWindowOpen _ | .preload _ | .accountWindow _ => true
      | _ => false
    | .slots =>
      mayRecord c ||
      match c with
      | .powerUp _ | .powerUpStepTimeout _ _ => true
      | _ => false
    | .sel =>
      match c with
      | .evrWin15 _ | .lowWordRead _ _ | .registerWrite _ _ _ | .i3cPrivateRead => true
      | _ => false
    | .route =>
      match c with
      | .tensor _ _ | .anneal _ _ | .rotate _ _ | .snapshot _ _ | .resume _ _ | .moveCopy _ | .route _ | .combine
      | .reduceNode _ _ | .reduceOpen _ | .reduceClose _ | .reduceSend _ | .fenceSignalAdd _ | .fenceSignalMax _
      | .fenceWait _ | .chain _ | .nop _ | .rteRecSel _ _ | .registerWrite _ _ _ | .queueDestroy _ | .failover
      | .egressDeadline _ _ | .faultReport _ _ | .spadCheckReread _ _ _ _ _ | .memCheckReread _ _ _ _ _ | .writeRetry _ _ _
      | .conveyorWave _ _ _ | .rotateVisit _ _ | .ready _ _ | .startMarker _ _ _ | .queueTimeout _ _ | .drainTimeout _ _
      | .hubLoss _ => true
      | _ => false
    | .per =>
      mayRecord c ||
      match c with
      | .perArm _ _ | .perDisarm _ _ | .perRepairGrant _ | .drvGclChange _ _ | .failover | .powerUp _
      | .powerUpStepTimeout _ _ | .railOutOfBand _ | .yardLost _ | .driveFrameRx _ _ _ | .gptpSync _ _ _ | .pdelayReq _
      | .syncTimeout | .gclChangeApply _ | .syncOutPulse | .syncInEdge | .syncInTimeout _ | .tickFire _ | .commit _
      | .repairWindowClose _ | .faultReport _ _ | .hubLoss _ | .drivePortLink _ _ _ | .announce _ _ _ | .pdelayResp _ _
      | .gateControlEntry _ => true
      | _ => false
    | .links =>
      match c with
      | .tensor _ _ | .anneal _ _ | .rotate _ _ | .snapshot _ _ | .resume _ _ | .reduceNode _ _ | .reduceOpen _
      | .reduceClose _ | .reduceSend _ | .patch | .queueDestroy _ | .patchRequest | .powerUp _ | .powerUpStepTimeout _ _
      | .railOutOfBand _ | .yardLost _ | .egressDeadline _ _ | .faultReport _ _ | .spadCheckReread _ _ _ _ _
      | .memCheckReread _ _ _ _ _ | .writeRetry _ _ _ | .rotateVisit _ _ | .patchLanding _ _ | .queueTimeout _ _
      | .drainTimeout _ _ | .dataFrameRx _ _ | .nak _ _ | .laneFault _ _ | .laneSwap _ _ _ _ | .laneSwapSlot _
      | .mapMessage _ _ | .linkDown _ | .linkRetrained _ _ | .noPeerTimeout _ | .txItemSend _ _ | .linkReadRequest _ _ _ _
      | .receiveSignal _ | .ackSeq _ _ => true
      | _ => false
    | .clk =>
      match c with
      | .tensor _ _ | .clkmode _ | .registerWrite _ _ _ | .failover | .powerUp _ | .powerUpStepTimeout _ _ | .realign _
      | .faultReport _ _ | .conveyorWave _ _ _ | .hubLoss _ => true
      | _ => false
    | .rng =>
      match c with
      | .rngctlReseed | .rngctlRestart _ _ | .rngctlPattern | .rngctlPatternOff _ _ | .rngData0 _ | .lowWordRead _ _
      | .queueDestroy _ | .engineDisable | .failover | .powerUp _ | .powerUpStepTimeout _ _ | .egressDeadline _ _
      | .faultReport _ _ | .engineFetch _ | .queueTimeout _ _ | .drainTimeout _ _ | .hubLoss _ | .rngBlock _ _ _ | .reseed _
      | .rngRequest _ | .rngDataBound _ => true
      | _ => false
    | .rel =>
      match c with
      | .tensor _ _ | .anneal _ _ | .rotate _ _ | .snapshot _ _ | .resume _ _ | .patch | .repairHalter | .repairColumn
      | .repairRow | .marchDestructive _ | .marchPreserving _ | .clkmode _ | .queueDestroy _ | .repairRun | .patchRequest
      | .failover | .powerUp _ | .powerUpStepTimeout _ _ | .railOutOfBand _ | .yardLost _ | .tickFire _ | .egressDeadline _ _
      | .repairWindowOpen _ | .repairWindowClose _ | .columnItem _ _ | .rowItem | .realign _ | .faultReport _ _
      | .spadCheckReread _ _ _ _ _ | .memCheckReread _ _ _ _ _ | .writeRetry _ _ _ | .conveyorWave _ _ _ | .rotateVisit _ _
      | .patchLanding _ _ | .queueTimeout _ _ | .drainTimeout _ _ | .hubLoss _ | .dataFrameRx _ _ | .laneSwapSlot _
      | .linkRetrained _ _ | .windowTimeout => true
      | _ => false
    | .host =>
      mayRecord c ||
      match c with
      | .mbxH2fSeq _ _ | .queueCreate | .queueBudget | .map | .unmap | .engineEnable | .repairList | .repairRun | .hubStatus
      | .failover | .powerUp _ | .powerUpStepTimeout _ _ | .railOutOfBand _ | .yardLost _ | .conveyorWave _ _ _ | .dbH2fPoll
      | .windowTimeout => true
      | _ => false
    | .hclk =>
      match c with
      | .failover | .powerUp _ | .powerUpStepTimeout _ _ | .faultReport _ _ | .hubLoss _ => true
      | _ => false

/-- Command `c` may change part `p`. -/
def May (c : Instr) (p : Part) : Prop := mayWrite p c = true

end Sys2Proof.Machine
end

