-- ==== Sys2Proof/Certificates/Slice0/Obligations.lean ====
section
/-!
DEFINITION. The statements for the provers.  The general statements come first, then for every command the state that it
completes in, family by family, with what it leaves alone.
-/

open Sys2Proof Sys2Proof.Machine

/-! ## The machine -/

/-- The model's form: the steps of the table are whole and indivisible (file 95), and a step runs the command at the front of the queue on the
state with the queue's rest. -/
def Obligations.StepRunsFrontCommand : Prop :=
  ∀ (s : State) (c : Instr) (rest : List Instr), s.pending = c :: rest → step s = exec c { s with pending := rest }

/-- The model's choice of log entry 10: with no command waiting one hclk passes, and nothing comes into the queue. -/
def Obligations.IdleStepPassesOneHclk : Prop :=
  ∀ s : State, s.Inv → s.pending = [] → ∃ t, step s = .next t ∧ t.pending = [] ∧ t.hclk = s.hclk + 1

/-- The state after reset meets the invariant of the machine. -/
def Obligations.ResetMeetsInvariant : Prop := State.reset.Inv

/-- The invariant holds after every step that goes on: every memory and table in canonical form, every counter below 2^48 (R551), at
most 1,024 event records (R536). -/
def Obligations.StepKeepsInvariant : Prop := ∀ s t : State, s.Inv → step s = .next t → t.Inv

/-- R520, R533, R472, R372, R381: what the registers read after the release of MRST#. -/
def Obligations.ResetReadings : Prop :=
  State.reset.pwr.mod = .boot ∧ State.reset.pwr.step = 1 ∧ State.reset.pwr.safeCause = 0 ∧ State.reset.pwr.safeDetail = 0 ∧
    (∀ who, State.reset.peek who 0x400200 = 0 ∧ State.reset.peek who 0x400204 = 0xFFFFFFFF ∧ State.reset.peek who 0x400208 = 0 ∧
      State.reset.peek who 0x40020C = 0) ∧
    (∀ f, State.reset.fence f = 0) ∧ (∀ e, (State.reset.eng e).st = .off) ∧ (∀ q, (State.reset.queue q).st = .free) ∧
    (∀ g i k, State.reset.count g i k = 0) ∧ State.reset.pending = []

/-- R526, R529: no step takes the module out of SAFE but MRST# and the acceptance of PFAIL#, and none takes it out of PFAIL but MRST#. -/
def Obligations.SafeAndPfailLeftOnlyByReset : Prop :=
  (∀ s t : State, s.Inv → s.pwr.mod = .safe → (∀ ns rest, s.pending ≠ Instr.mrstPulse ns :: rest) → step s = .next t →
     t.pwr.mod = .safe ∨ t.pwr.mod = .pfail) ∧
  (∀ s t : State, s.Inv → s.pwr.mod = .pfail → (∀ ns rest, s.pending ≠ Instr.mrstPulse ns :: rest) → step s = .next t →
     t.pwr.mod = .pfail)

/-- R363, R513, R515, R536: until MRST# fence values never fall and no SEQ of an event record is used again, and outside BOOT a lost hub stays
lost; two ADDs on a fence commute, and two MAXes. -/
def Obligations.FencesSeqsAndLossesOnlyGrow : Prop :=
  (∀ s t : State, s.Inv → (∀ ns rest, s.pending ≠ Instr.mrstPulse ns :: rest) → step s = .next t →
    (∀ f, (s.fence f).toNat ≤ (t.fence f).toNat) ∧ s.evr.head ≤ t.evr.head ∧
    (s.pwr.mod ≠ .boot → (s.hubs.h0Lost = true → t.hubs.h0Lost = true) ∧ (s.hubs.h1Lost = true → t.hubs.h1Lost = true))) ∧
  (∀ (s : State) (f a b : Nat), s.Inv →
    ((s.fenceAdd f a).fenceAdd f b).fence f = ((s.fenceAdd f b).fenceAdd f a).fence f ∧
    ((s.fenceMax f a).fenceMax f b).fence f = ((s.fenceMax f b).fenceMax f a).fence f)

/-- The frames: a command that completes leaves alone every part that the table of `mayWrite` does not give it, the queue of commands and the
package strap. -/
def Obligations.CommandsKeepToTheirParts : Prop :=
  ∀ (c : Instr) (s t : State), s.Inv → exec c s = .next t →
    (∀ p, mayWrite p c = false → p.same s t) ∧ t.pending = s.pending ∧ t.pwr.grade = s.pwr.grade

/-- R551: a counter passes from 2^48 − 1 to 0, reads through its two words, and a count leaves every other counter alone. -/
def Obligations.CountersWrap : Prop :=
  ∀ (s : State) (g h : Grp) (i j k l n : Nat), s.Inv →
    (s.bumpBy g i k n).count g i k = (s.count g i k + n) % 2 ^ 48 ∧
    (pmonOff h j l ≠ pmonOff g i k → (s.bumpBy g i k n).count h j l = s.count h j l) ∧
    (s.bumpBy g i k n).count g i k < 2 ^ 48

/-! ## Compute engines -/

/-- TENSOR: a command whose plan is one of its schedule object and who knows the errors it met to be stored completes, its engine at a boundary;
where the plan meets no slip and no fault and reads no item, the scratchpads hold what the jobs wrote. -/
def Obligations.TensorCompletes : Prop :=
  ∀ (s : State) (e : Nat) (plan : TensorPlan) (c : Cmd), s.Inv → e < 8 → s.running e opTensor = some c →
    s.planOk e c plan = true →
    s.takeChecks e c ((s.tensorWork e c (s.tensorCtx e c) plan).met ++ (s.tensorWork e c (s.tensorCtx e c) plan).run.run.met) [] = none →
    ∃ u, exec (.tensor e plan) s = .next u ∧ (u.eng e).cur = none ∧ u.pwr = s.pwr ∧ u.fences = s.fences ∧
      (plan.slips = [] → plan.reads = [] → plan.faults = [] →
        u.yards.spad = (s.runJobs (s.tensorCtx e c) plan).run.st.yards.spad)

/-- ANNEAL and RESUME (R177, R178, R183): a running command whose reads translate and who knows the errors it meets to be stored completes, its
engine at a boundary; ANNEAL changes no coupling, no field and no exponent of any core (R153, R163). -/
def Obligations.AnnealCompletes : Prop :=
  ∀ (s : State) (e : Nat) (c : Cmd) (faults : List AnnealFault), s.Inv →
    (s.annealReads c).findSome? (fun x => s.firstFail x.1 x.2 false false) = none →
    s.takeChecks e c (s.annealWords c) ((s.annealReads c).flatMap (fun x => s.devBad x.1 x.2)) = none →
    (s.running e opAnneal = some c → ∃ u, exec (.anneal e faults) s = .next u ∧ (u.eng e).cur = none ∧ u.fences = s.fences ∧
      ∀ n, (u.core n).spin.coup = (s.core n).spin.coup ∧ (u.core n).spin.field = (s.core n).spin.field ∧
        (u.core n).spin.exp = (s.core n).spin.exp) ∧
    (s.running e opResume = some c → ∃ u, exec (.resume e faults) s = .next u ∧ (u.eng e).cur = none ∧ u.fences = s.fences)

/-- ROTATE (R197, R201): a running command that waits for no re-read and meets no block of wrong parity completes; ROTATE_VISIT: a visit that meets no bad page is counted,
and the command goes on to the next. -/
def Obligations.RotateCompletes : Prop :=
  ∀ (s t : State) (e : Nat) (c : Cmd) (faults : List AnnealFault), s.Inv → s.running e opRotate = some c →
    (s.mem.bad = [] → c.asks = false → ∃ u, exec (.rotate e faults) s = .next u ∧ (u.eng e).cur = none ∧ u.fences = s.fences) ∧
    ((s.rotRun e (s.rotCtx c)).next < (s.rotCtx c).total →
      s.visit e (s.rotCtx c) c (s.rotRun e (s.rotCtx c)) none faults = .ok t →
      exec (.rotateVisit e faults) s = .next t ∧ ∃ r, (t.eng e).rot = some r ∧ r.next = (s.rotRun e (s.rotCtx c)).next + 1 ∧
        r.visits = (s.rotRun e (s.rotCtx c)).visits + 1)

/-- SNAPSHOT (R180) and MOVE with SPINPACK (R190): a SNAPSHOT that runs completes and changes no core and no scratchpad, and one that comes as a
stop request ends the running command where nothing it meets has wrong parity; a SPINPACK whose sources translate and who knows the errors it meets
to be stored completes, and a conversion that fails writes no spin block and no scratchpad. -/
def Obligations.SnapshotAndSpinpackComplete : Prop :=
  (∀ (s : State) (e : Nat) (p : Progress) (c n : Cmd), s.Inv →
     (s.running e opSnapshot = some c → ∃ u, exec (.snapshot e p) s = .next u ∧ (u.eng e).cur = none ∧
       u.yards.cores = s.yards.cores ∧ u.yards.spad = s.yards.spad) ∧
     (s.running e opSnapshot = none → s.stoppedBy e = some (c, n) → s.mem.bad = [] → s.yards.bad = [] → c.asks = false →
       ∃ u, exec (.snapshot e p) s = .next u ∧ (u.eng e).cur = none)) ∧
  (∀ (s : State) (e : Nat) (c : Cmd) (b : Bytes), s.Inv → e < 8 → s.running e opMove = some c → b = s.devBytes (fld c.desc 0x28 8) 48 →
     s.spFault b c.early = none → s.takeChecks e c (s.spWords b c.early) (s.spBlocks b c.early) = none →
     ∃ u, exec (.moveSpinpack e) s = .next u ∧ (u.eng e).cur = none ∧ u.yards.spad = s.yards.spad ∧ u.fences = s.fences ∧
       (∀ f, (if spSrcKind b = 2 then s.fromPages b c.early else s.fromTiles b c.early) = .error f → u.yards.cores = s.yards.cores))

/-- REDUCE of a compute engine (R366): a command whose tree is in the image and who knows the errors it meets to be stored completes, changes no spin
block, and a void or empty result writes nothing. -/
def Obligations.ReduceComputeCompletes : Prop :=
  ∀ (s : State) (e : Nat) (c : Cmd) (remote : List (Nat × Bytes)) (t : Tree) (n : Nat) (sum : List Flit), s.Inv → e < 8 →
    s.running e opReduce = some c → treeOf s.img.net.trees (fld c.desc 0x20 4) = some (t, n) →
    sum = (t.reduce (s.frameNodeOp e t (fld c.desc 0x2C 4))
      (s.reduceLeaf (fld c.desc 0x24 4) (fld c.desc 0x2C 4) remote c.early) 65 0).1 →
    s.takeChecks e c (s.reduceWords t (fld c.desc 0x24 4) (fld c.desc 0x28 4) (fld c.desc 0x2C 4) (sum.isEmpty || sum.any Flit.gap) c.early) [] =
      none →
    ∃ u, exec (.reduceCompute e remote) s = .next u ∧ (u.eng e).cur = none ∧ u.yards.cores = s.yards.cores ∧ u.fences = s.fences ∧
      ((sum.isEmpty || sum.any Flit.gap) = true → u.yards.spad = s.yards.spad)

/-! ## Movement, route and link engines -/

/-- MOVE with COPY (R365) and HOST_READ_TIMEOUT (R433): a COPY whose banks are awake, whose source can be read, whose accesses translate and who
knows the errors it meets to be stored completes, and a scratchpad destination, each byte in a cell of its own, reads as the source; a read that
found no completion in 1 ms ends its command. -/
def Obligations.CopyCompletes : Prop :=
  (∀ (s t : State) (e : Nat) (c : Cmd), s.Inv → 8 ≤ e → s.starting e opMove = some (c, t) →
    t.copyAwake (copySrcSpace c.desc) (copySrc c.desc) = true → t.copyAwake (copyDstSpace c.desc) (copyDst c.desc) = true →
    t.copyReadable c.desc = true → t.copyFault c.desc = none →
    t.takeChecks e c (t.copyMet c.desc 0 (copyLen c.desc)).1 (t.copyMet c.desc 0 (copyLen c.desc)).2 = none →
    ∃ u, exec (.moveCopy e) s = .next u ∧ (u.eng e).cur = none ∧ u.fences = s.fences ∧ u.yards.cores = s.yards.cores ∧
      (copyDstSpace c.desc = 2 →
        ((upto (copyLen c.desc)).map (fun i => t.cell (coreNum (t.coreAt (spCore (copyDst c.desc)))) (spOff (copyDst c.desc) + i))).Nodup →
        u.spadRead (coreNum (t.coreAt (spCore (copyDst c.desc)))) (spOff (copyDst c.desc)) (copyLen c.desc) =
          (t.copyData c.desc 0 (copyLen c.desc)).data) ∧
      (copyDstSpace c.desc ≠ 2 → u.yards.spad = s.yards.spad)) ∧
  (∀ (s : State) (e : Nat) (c : Cmd), s.Inv → s.readTimedOut e = true → (s.eng e).cur = some c →
    ((s.eng e).st = .prep ∧ c.ready = false) ∨ (dOp c.desc = opMove ∧ 8 ≤ e ∧ c.startAt.isSome = true) →
    ∃ u, exec (.hostReadTimeout e) s = .next u ∧ (u.eng e).cur = none)

/-- ROUTE (R215 to R217), READY (R216) and COMBINE (R230 to R232): with every ready notice in, and the errors it meets known to be stored, ROUTE
completes, opens its step, and adds 1 to its two fences; READY notes the core for the route object of the notice; COMBINE completes, closes the step
of its route object, and signals no fence. -/
def Obligations.RouteAndCombineComplete : Prop :=
  (∀ (s t t1 : State) (c : Cmd) (h : Bytes) (arrival : List Nat), s.Inv → s.starting 16 opRoute = some (c, t) →
    h = t.devBytes (rtAddr c.tack) 64 → t1 = t.sendSpec (t.routeCtx c.tack) → t.routeReady (rtAddr c.tack) (t.tokensOf h) = true →
    (roArrival h = true → arrivalOk (t.tokensOf h).length arrival = true) →
    t1.takeChecks 16 c (t1.routeWords (t.routeCtx c.tack)) (t1.routeBlocks (rtAddr c.tack) h) = none →
    ∃ u, exec (.route arrival) s = .next u ∧ (u.eng 16).cur = none ∧
      (∃ o ∈ u.route.objs, o.addr = rtAddr c.tack ∧ o.step = rtStep c.tack ∧ o.isOpen = true) ∧
      (∀ f, f ≠ rtLand c.tack → f ≠ rtCatch c.tack → u.fence f = s.fence f) ∧
      (rtLand c.tack ≠ rtCatch c.tack →
        (u.fence (rtLand c.tack)).toNat = min ((s.fence (rtLand c.tack)).toNat + 1) (2 ^ 64 - 1) ∧
        (u.fence (rtCatch c.tack)).toNat = min ((s.fence (rtCatch c.tack)).toNat + 1) (2 ^ 64 - 1))) ∧
  (∀ (s : State) (core obj : Nat), s.live = true →
    ∃ u, exec (.ready core obj) s = .next u ∧ (core, obj) ∈ u.route.readyCores ∧
      (∀ x, x ≠ (core, obj) → (x ∈ u.route.readyCores ↔ x ∈ s.route.readyCores)) ∧
      u = { s with route := { s.route with readyCores := u.route.readyCores } }) ∧
  (∀ (s t : State) (c : Cmd) (o : RouteObj), s.Inv → s.starting 16 opCombine = some (c, t) → t.routeObj (rtAddr c.tack) = some o →
     t.takeChecks 16 c (t.combineWords o) [] = none →
     ∃ u, exec .combine s = .next u ∧ (u.eng 16).cur = none ∧ u.fences = s.fences ∧ u.yards.cores = s.yards.cores ∧
       ∀ x ∈ u.route.objs, x.addr = o.addr → x.isOpen = false)

/-- REDUCE of a link engine (R445, R449, R450): OPEN opens its channel; CLOSE of a receive channel, or of a transmit channel with nothing
unacknowledged, closes it; a SEND ends when its items are acknowledged, and a NODE when it has processed COUNT items. -/
def Obligations.LinkReduceCompletes : Prop :=
  ∀ (s t : State) (e : Nat) (c : Cmd), s.Inv → 17 ≤ e → s.starting e opReduce = some (c, t) →
    (rForm c.desc = 1 → ∃ u, exec (.reduceOpen e) s = .next u ∧ (u.eng e).cur = none ∧
      (rDir c.desc = 0 → (u.link (e - 17)).txChan (rChan c.desc) = ⟨true, fld c.desc 0x24 2, rFlits c.desc, [], []⟩) ∧
      (rDir c.desc ≠ 0 → (u.link (e - 17)).rxChan (rChan c.desc) = openRx c.desc)) ∧
    (rForm c.desc = 2 → rDir c.desc ≠ 0 → swf RxChan.reset (s.link (e - 17)).rx = true →
      ∃ u, exec (.reduceClose e) s = .next u ∧ (u.eng e).cur = none ∧ ((u.link (e - 17)).rxChan (rChan c.desc)).open_ = false) ∧
    (rForm c.desc = 2 → rDir c.desc = 0 → swf TxChan.reset (s.link (e - 17)).tx = true →
      ((s.link (e - 17)).txChan (rChan c.desc)).queue = [] → ((s.link (e - 17)).txChan (rChan c.desc)).going = [] → (s.link (e - 17)).unacked.all (fun x => x.chan != rChan c.desc) = true →
      ∃ u, exec (.reduceClose e) s = .next u ∧ (u.eng e).cur = none ∧ ((u.link (e - 17)).txChan (rChan c.desc)).open_ = false) ∧
    (∀ r, rForm c.desc = 3 → s.running e opReduce = some c → (s.link (e - 17)).run = some r →
      (s.link (e - 17)).queued.any TxItem.bySend = false → (s.link (e - 17)).unacked.any (fun x => x.item.bySend) = false →
      ∃ u, exec (.reduceSend e) s = .next u ∧ (u.eng e).cur = none ∧ (u.link (e - 17)).run = none) ∧
    (∀ r tr k n mesh, rForm c.desc = 0 → (s.link (e - 17)).run = some r → rCount c.desc ≤ r.done →
      treeOf s.img.net.trees (rAddr c.desc % 2 ^ 32) = some (tr, k) → tr.nodeFor (e - 17) = some n →
      ∃ u, exec (.reduceNode e mesh) s = .next u ∧ (u.eng e).cur = none ∧ (u.link (e - 17)).run = none)

/-! ## Fences, chains, NOP -/

/-- R362, R376: ADD saturates at 2^64 − 1 and then sets the fence's bit of FE_FENCE_SAT; MAX takes the larger value; a write of
FE_FENCE_ADD is an ADD.  No other fence changes. -/
def Obligations.FenceSignals : Prop :=
  ∀ (s : State) (e : Nat), s.Inv →
    (∀ c t, s.starting e opSignal = some (c, t) → fld c.desc 0x21 1 = 0 →
      ∃ u, exec (.fenceSignalAdd e) s = .next u ∧ (u.eng e).cur = none ∧
        (u.fence (fenceOf c.desc)).toNat = min ((s.fence (fenceOf c.desc)).toNat + fenceValue c.desc) (2 ^ 64 - 1) ∧
        (2 ^ 64 ≤ (s.fence (fenceOf c.desc)).toNat + fenceValue c.desc → (fenceOf c.desc, true) ∈ u.fenceSat) ∧
        ∀ f, f ≠ fenceOf c.desc → u.fence f = s.fence f) ∧
    (∀ c t, s.starting e opSignal = some (c, t) → fld c.desc 0x21 1 = 1 →
      ∃ u, exec (.fenceSignalMax e) s = .next u ∧ (u.eng e).cur = none ∧
        (u.fence (fenceOf c.desc)).toNat = max (s.fence (fenceOf c.desc)).toNat (fenceValue c.desc) ∧ u.fenceSat = s.fenceSat ∧
        ∀ f, f ≠ fenceOf c.desc → u.fence f = s.fence f) ∧
    (∀ v : Word, s.writable 0x100800 = true →
      ∃ u, exec (.feFenceAdd v) s = .next u ∧ u.engines = s.engines ∧ u.ports.resp = .none ∧
        (u.fence (v.toNat % 256)).toNat = min ((s.fence (v.toNat % 256)).toNat + v.toNat / 256) (2 ^ 64 - 1) ∧
        ∀ f, f ≠ v.toNat % 256 → u.fence f = s.fence f)

/-- FENCE_WAIT (R363), FENCE, CHAIN (R358) and NOP (R367): a FENCE_WAIT whose fence has reached VALUE completes; one whose fence has not parks and
leaves its engine at a boundary; FENCE completes a parked wait whose fence has come to its value, and no fence changes.  A CHAIN whose slot is
EMPTY and whose descriptor is good, its parity right or its error known to be stored, arms the slot and ends with OK; NOP ends with OK. -/
def Obligations.WaitsChainsAndNopComplete : Prop :=
  (∀ (s : State) (e : Nat), s.Inv →
     (∀ c t, s.starting e opWait = some (c, t) → fenceValue c.desc ≤ (s.fence (fenceOf c.desc)).toNat →
       ∃ u, exec (.fenceWait e) s = .next u ∧ (u.eng e).cur = none ∧ u.fences = s.fences) ∧
     (∀ c t, s.starting e opWait = some (c, t) → (s.fence (fenceOf c.desc)).toNat < fenceValue c.desc →
       ∃ u, exec (.fenceWait e) s = .next u ∧ (u.eng e).cur = none ∧ u.fences = s.fences ∧
         (⟨c, fenceOf c.desc, fenceValue c.desc⟩ : Parked) ∈ (u.eng e).waits) ∧
     (∀ k w, s.live = true → (s.eng e).waits.find? (fun w => s.fenceMet w.fence w.value && s.clears (.fenceUp w.fence) &&
         (if k < 32 then (s.slot k).queue == some w.cmd.queue else (s.queue w.cmd.queue).slot.isNone)) = some w →
       ∃ u, exec (.fence e k) s = .next u ∧ w ∉ (u.eng e).waits ∧ u.fences = s.fences ∧ ∀ x, (u.eng x).cur = (s.eng x).cur)) ∧
  (∀ (s t : State) (e : Nat) (c : Cmd), s.Inv →
     (s.starting e opChain = some (c, t) → t.takesChain (fld c.desc 0x20 1) = true →
       (t.chainSlot (fld c.desc 0x20 1) (fld c.desc 0x21 1)).st = .empty → t.firstFail (fld c.desc 0x28 8) 64 false false = none →
       checkDesc (kindOf (fld c.desc 0x20 1)) (t.queue c.queue).cls (t.devBytes (fld c.desc 0x28 8) 64) = none →
       t.takeChecks e c [] (t.chainBad c) = none →
       ∃ w : State, exec (.chain e) s = .next (w.complete e c { status := stOk }) ∧
         w.chainSlot (fld c.desc 0x20 1) (fld c.desc 0x21 1) = ⟨.armed, t.devBytes (fld c.desc 0x28 8) 64, c.queue, c.seq⟩ ∧
         ((w.complete e c { status := stOk }).eng e).cur = none) ∧
     (s.starting e opNop = some (c, t) →
       exec (.nop e) s = .next (t.complete e c { status := stOk }) ∧ ((t.complete e c { status := stOk }).eng e).cur = none))

/-! ## Privileged commands -/

/-- PATCH, as a command and as a request (R60, R63, R64, R469): an object that fails its checks changes nothing of the image, and what brought it
ends; one that passes them and waits for nothing comes into force, is journalled, and ends what brought it.  PATCH_LANDING
(R63, R64, R505): the engine holds for the patch; with the last engine that it concerns the object comes into force and is journalled, or the
halter of Prephor's does, and the patch is no more in wait. -/
def Obligations.PatchCompletes : Prop :=
  (∀ s : State, s.Inv → s.live = true →
     (∀ c f, s.newPatch = some c → s.openPatch (fld c.desc 0x20 8) = .error f →
       ∃ u, exec .patch s = .next u ∧ c ∉ u.mbx.privs ∧ u.hub = s.hub) ∧
     (∀ c o n t, s.newPatch = some c → s.openPatch (fld c.desc 0x20 8) = .ok (o, n) → s.patchHeld o = false → n.engines = [] → n.swaps = [] →
       (s.patchNote (fld c.desc 0x20 8)).landObject o = .ok t →
       ∃ u, exec .patch s = .next u ∧ c ∉ u.mbx.privs ∧ u.patchedAs t ∧ t.hub.patchSeq = s.hub.patchSeq + 1) ∧
     (∀ r f, s.headReq rqPatch = some r → s.mbx.windowReq = none → s.openPatch (fld (mBody r.msg) 0 8) = .error f →
       ∃ u, exec .patchRequest s = .next u ∧ s.leftLine u r ∧ u.hub = s.hub) ∧
     (∀ r o n t, s.headReq rqPatch = some r → s.mbx.windowReq = none → s.openPatch (fld (mBody r.msg) 0 8) = .ok (o, n) →
       s.patchHeld o = false → n.engines = [] → n.swaps = [] →
       (((s.patchNote (fld (mBody r.msg) 0 8)).background r).modMbx (fun m => { m with windowReq := some r })).landObject o = .ok t →
       ∃ u, exec .patchRequest s = .next u ∧ s.leftLine u r ∧ u.mbx.windowReq = none ∧ u.patchedAs t ∧
         t.hub.patchSeq = s.hub.patchSeq + 1)) ∧
  (∀ (s : State) (e : Nat) (p : PatchWait) (found : List RowFail), s.Inv → s.live = true → s.patchFor e = some p → s.boundary e = true →
     (p.engines.all (fun x => (p.held ++ [e]).contains x) = false →
       ∃ u, exec (.patchLanding e found) s = .next u ∧ ({ p with held := p.held ++ [e] } : PatchWait) ∈ u.rel.patches ∧ u.img = s.img ∧
         u.hub = s.hub) ∧
     (∀ o t, p.engines.all (fun x => (p.held ++ [e]).contains x) = true → p.swaps = [] → p.src = .object o →
       (s.dropPatch p).landObject o = .ok t →
       ∃ u, exec (.patchLanding e found) s = .next u ∧ p ∉ u.rel.patches ∧ (∀ c, p.cmd = some c → c ∉ u.mbx.privs) ∧
         (found = [] → u.patchedAs t ∧ t.hub.patchSeq = s.hub.patchSeq + 1)) ∧
     (∀ h, p.engines.all (fun x => (p.held ++ [e]).contains x) = true → p.src = .halter h →
       ∃ u, exec (.patchLanding e found) s = .next u ∧ p ∉ u.rel.patches ∧
         ((s.topo h.yh).use.getLsbD h.pcol = true →
           u.img.halters.any (fun g => decide (g.yh = h.yh ∧ g.pcol = h.pcol ∧ g.row = h.row)) = true)))

/-- REPAIR and REPAIR_RUN (R505, R507, R511): a HALTER fences the core that the block names, with REASON 0x03 unless it is fenced already, and queues the
item of its column; a COLUMN queues the item of the column, and a ROW that of the bank row, and change nothing of the yards; the command, or the
request, goes into its item, whose end is its own (R508, R510); a block that fails its checks ends the command and queues nothing. -/
def Obligations.RepairQueuesItem : Prop :=
  ∀ (s : State) (c : Cmd) (k : PhysCore), s.Inv → s.live = true →
    (k = repairCore c.tack → s.privCheck c = none → s.newRepair 0 = some c →
      ∃ u, exec .repairHalter s = .next u ∧ (u.core (coreNum k)).halter = ((s.core (coreNum k)).halter).or (some 3) ∧
        (∀ n, n ≠ coreNum k → u.core n = s.core n) ∧ u.yards.spad = s.yards.spad ∧ u.mbx.privs = s.mbx.privs ∧
        ∃ i ∈ u.rel.items, i.kind = 1 ∧ i.yh = k.yh ∧ i.pcol = k.pcol ∧ c ∈ i.cmds) ∧
    (k = repairCore c.tack → s.privCheck c = none → s.newRepair 1 = some c →
      ∃ u, exec .repairColumn s = .next u ∧ u.yards = s.yards ∧ u.mbx.privs = s.mbx.privs ∧
        ∃ i ∈ u.rel.items, i.kind = 1 ∧ i.yh = k.yh ∧ i.pcol = k.pcol ∧ c ∈ i.cmds) ∧
    (k = repairCore c.tack → s.privCheck c = none → s.newRepair 2 = some c →
      ∃ u e, exec .repairRow s = .next u ∧ s.engineOf k.yh = some e ∧ u.yards = s.yards ∧ u.mbx.privs = s.mbx.privs ∧
        u.rel.items = s.rel.items ++ [⟨2, e, k.yh, k.pcol, k.row, fld c.tack 4 1, fld c.tack 6 2, 1, s.hclk, [c], none⟩]) ∧
    (∀ i op f, (i = Instr.repairHalter ∧ op = 0) ∨ (i = Instr.repairColumn ∧ op = 1) ∨ (i = Instr.repairRow ∧ op = 2) →
      s.newRepair op = some c → s.privCheck c = some f → ∃ u, exec i s = .next u ∧ c ∉ u.mbx.privs ∧ u.rel = s.rel) ∧
    (∀ r, s.headReq rqRepairRun = some r → s.mbx.windowReq = none → s.repairCheck (mBody r.msg) = none → k = repairCore (mBody r.msg) →
      ∃ u, exec .repairRun s = .next u ∧ s.leftLine u r ∧ u.mbx.windowReq = some r ∧
        (fld (mBody r.msg) 0 1 = 0 → (u.core (coreNum k)).halter.isSome = true) ∧
        (fld (mBody r.msg) 0 1 ≤ 1 → ∃ i ∈ u.rel.items, i.kind = 1 ∧ i.yh = k.yh ∧ i.pcol = k.pcol ∧
          (i.req = some r ∨ ∃ y ∈ s.rel.items, y.kind = 1 ∧ y.yh = k.yh ∧ y.pcol = k.pcol ∧ i.req = y.req)) ∧
        (fld (mBody r.msg) 0 1 = 2 → ∃ i ∈ u.rel.items, i.kind = 2 ∧ i.yh = k.yh ∧ i.pcol = k.pcol ∧ i.row = k.row ∧
          i.bank = fld (mBody r.msg) 4 1 ∧ i.bankRow = fld (mBody r.msg) 6 2 ∧ i.req = some r))

/-- The items of the list (R274, R508 to R510): a COLUMN item whose substitute passes BIST and a ROW item with a spare row free leave the list, and the
commands that waited in them end; a substitute that fails BIST leaves the list as it was; REALIGN leaves no crossing slipped that the windows of
both engines of its item admit, and an item of whose engine no slipped crossing is left leaves too; after its wait a request leaves its items
(R469). -/
def Obligations.ItemsComplete : Prop :=
  ∀ s : State, s.Inv → s.live = true →
    (∀ i x found, s.itemReady 1 = some i → s.inUse i.yh i.pcol = true → s.substitute i.yh i.pcol = some x →
      (∃ u, exec (.columnItem false found) s = .next u ∧ i ∉ u.rel.items ∧ (∀ c ∈ i.cmds, c ∉ u.mbx.privs)) ∧
      (∃ u, exec (.columnItem true found) s = .next u ∧ u.rel.items = s.rel.items)) ∧
    (∀ i k, s.itemReady 2 = some i → (s.half i.yh).rows.find? (samePlace ⟨i.yh, i.pcol, i.row, i.bank, 0, i.bankRow⟩) = none →
      (s.half i.yh).freeSpare ⟨i.yh, i.pcol, i.row⟩ i.bank = some k →
      ∃ u, exec .rowItem s = .next u ∧ i ∉ u.rel.items ∧ (∀ c ∈ i.cmds, c ∉ u.mbx.privs) ∧
        (⟨i.yh, i.pcol, i.row, i.bank, k, i.bankRow⟩ : RowRepair) ∈ (u.half i.yh).rows) ∧
    (∀ i facts, s.realignItem = some i →
      ∃ u, exec (.realign facts) s = .next u ∧ (∀ x ∈ s.realignable i.engine, x ∉ u.clk.slipped) ∧
        ((∀ x ∈ s.clk.slipped, (s.crossingEngines x).contains i.engine = true → x ∈ s.realignable i.engine) →
          i ∉ u.rel.items ∧ (∀ c ∈ i.cmds, c ∉ u.mbx.privs) ∧
            ∀ x ∈ u.clk.slipped, (s.crossingEngines x).contains i.engine = false)) ∧
    (∀ i facts, s.realignItem = none → i ∈ s.rel.items → s.realigned i = true →
      ∃ u, exec (.realign facts) s = .next u ∧ i ∉ u.rel.items ∧ u.clk.slipped = s.clk.slipped) ∧
    (∀ r, s.mbx.windowReq = some r → s.windowLate r = true →
      ∃ u, exec .windowTimeout s = .next u ∧ u.mbx.windowReq = none ∧ ∀ i ∈ u.rel.items, i.req ≠ some r)

/-- MARCH (R303, R304, R309): once its engines hold it begins, its farriers busy; a march that has begun ends with its halves at rest; the destructive
mode leaves their scratchpads zero, and the preserving mode, where it finds no row that fails, keeps every bank but PARK. -/
def Obligations.MarchCompletes : Prop :=
  ∀ (s : State) (c : Cmd) (found : List RowFail), s.Inv → s.live = true → s.privCheck c = none →
    (∀ i mode, (i = Instr.marchDestructive found ∧ mode = 0) ∨ (i = Instr.marchPreserving found ∧ mode = 1) → s.newMarch mode = some c →
      s.marching c = false → s.marchReady c = true →
      ∃ u, exec i s = .next u ∧ u.marching c = true ∧ u.mbx.privs = s.mbx.privs) ∧
    (s.newMarch 0 = some c → s.marching c = true → ∃ u, exec (.marchDestructive found) s = .next u ∧ c ∉ u.mbx.privs ∧
      (∀ d ∈ maskHalves c, ((u.half d).pstate = .idle ∨ (u.half d).pstate = .off) ∧ (u.half d).farrier = false) ∧
      ∀ d ∈ maskHalves c, ∀ p r o, p < 66 → r < 64 → o < spadBytes → sget 0 u.yards.spad (spadKey (physNum d p r) o) = 0) ∧
    (s.newMarch 1 = some c → s.marching c = true → ∃ u, exec (.marchPreserving found) s = .next u ∧ c ∉ u.mbx.privs ∧
      (∀ d ∈ maskHalves c, ((u.half d).pstate = .idle ∨ (u.half d).pstate = .off) ∧ (u.half d).farrier = false) ∧
      (found.all (fun x => !rowFails x) = true → ∀ k, keyCore k / 4224 ∉ maskHalves c ∨ keyBank k ≠ fld c.tack 5 1 →
        sget 0 u.yards.spad k = sget 0 s.yards.spad k))

/-- RNGCTL (R484, R491): RESEED takes two blocks of the pool and counts from 0; PATTERN puts its pattern in force; RESTART and PATTERN_OFF
end with the reseed that two good blocks allow, or with a known-answer test that fails. -/
def Obligations.RngctlCompletes : Prop :=
  ∀ (s : State) (c : Cmd), s.Inv → s.live = true → s.privCheck c = none → s.rngUp (s.rngctlHub c) = true →
    (s.newRngctl 0 = some c → (s.rngHub (s.rngctlHub c)).canReseed = true →
      ∃ u, exec .rngctlReseed s = .next u ∧ c ∉ u.mbx.privs ∧ (u.rngHub (s.rngctlHub c)).count = 0 ∧
        (u.rngHub (s.rngctlHub c)).pool = (s.rngHub (s.rngctlHub c)).pool.drop 2) ∧
    (s.newRngctl 2 = some c →
      ∃ u, exec .rngctlPattern s = .next u ∧ c ∉ u.mbx.privs ∧
        (u.rngHub (s.rngctlHub c)).pattern = some (s.devBytes (fld c.tack 8 8) (fld c.tack 4 4))) ∧
    (∀ i op katFail blocks, (i = .rngctlRestart katFail blocks ∧ op = 1) ∨ (i = .rngctlPatternOff katFail blocks ∧ op = 3) →
      s.newRngctl op = some c →
      (∀ t, katFail = some t → ∃ u, exec i s = .next u ∧ c ∉ u.mbx.privs ∧ (u.rngHub (s.rngctlHub c)).kat = true ∧
        (u.rngHub (s.rngctlHub c)).alarm = true) ∧
      (∀ w : State, katFail = none →
        w = (s.modRngHub (s.rngctlHub c) RngHub.restart).each (blocks.filter (fun b => b.hub == s.rngctlHub c && decide (b.src < 2)))
          (fun s b => s.block (s.rngctlHub c) b.src b.samples) →
        (s.rngHub (s.rngctlHub c)).seeded = true → (w.rngHub (s.rngctlHub c)).canReseed = true →
        (w.rngHub (s.rngctlHub c)).bothFatal = false →
        ∃ u, exec i s = .next u ∧ c ∉ u.mbx.privs ∧ (u.rngHub (s.rngctlHub c)).count = 0))

/-- CLKMODE (R530, R531) and RETAIN (R297, R299 to R301): with its engines held CLKMODE aligns over its mask and ends, an empty mask leaving no
domain aligned; the halves of a RETAIN reach their target and it ends. -/
def Obligations.ClkmodeAndRetainComplete : Prop :=
  ∀ (s : State) (c : Cmd) (facts : AlignFacts), s.Inv → s.live = true → s.privCheck c = none →
    (s.privOf opClkmode = some c → (s.clkEngines (fld c.tack 0 8)).all (fun e => s.holdsFor e 20) = true →
      ∃ u, exec (.clkmode facts) s = .next u ∧ c ∉ u.mbx.privs ∧ u.clk.req = BitVec.ofNat 60 (fld c.tack 0 8) ∧
        (fld c.tack 0 8 = 0 → u.clk.aligned = 0 ∧ u.clk.state = 0)) ∧
    (s.newRetain 0 = some c → ∃ u, exec .retainToRun s = .next u ∧ c ∉ u.mbx.privs ∧ ∀ d ∈ maskHalves c, (u.half d).pstate = .run) ∧
    (s.newRetain 1 = some c → (maskHalves c).all s.maySleep = true →
      ∃ u, exec .retainToRetain s = .next u ∧ c ∉ u.mbx.privs ∧ ∀ d ∈ maskHalves c, (u.half d).pstate = .retain) ∧
    (s.newRetain 2 = some c → (maskHalves c).all s.maySleep = true →
      ∃ u, exec .retainToOff s = .next u ∧ c ∉ u.mbx.privs ∧ ∀ d ∈ maskHalves c, (u.half d).pstate = .off)

/-! ## Registers -/

/-- FE_Q_TAIL and FE_Q_CTRL (R382, R387, R388): an accepted tail is in force, a refused one sets BAD_TAIL alone, and RESUME takes a HALTED or
FAULTED queue on from its head.  No other queue changes. -/
def Obligations.QueueRegisters : Prop :=
  ∀ (s : State) (n : Nat) (v : Word), s.Inv →
    (s.writable (0x102000 + 4 * n) = true → n < 504 → (s.queue n).st ≠ .free → (s.queue n).st ≠ .destroying →
      (s.eng (s.queue n).engine).st ≠ .disabled → (s.eng (s.queue n).engine).st ≠ .disabling →
      ∃ u, exec (.feQTail n v) s = .next u ∧ (∀ m, m ≠ n → u.queue m = s.queue m) ∧ (u.queue n).head = (s.queue n).head ∧
        ((v.toNat + 2 ^ 32 - (s.queue n).head % 2 ^ 32) % 2 ^ 32 ≤ 2 ^ (s.queue n).descLog2 →
          (u.queue n).tail = (s.queue n).head + (v.toNat + 2 ^ 32 - (s.queue n).head % 2 ^ 32) % 2 ^ 32 ∧
          (u.queue n).badTail = (s.queue n).badTail) ∧
        (2 ^ (s.queue n).descLog2 < (v.toNat + 2 ^ 32 - (s.queue n).head % 2 ^ 32) % 2 ^ 32 →
          u.queue n = { s.queue n with badTail := true })) ∧
    (∀ who, s.writable 0x10301C = true → v.getLsbD 0 = true → n = s.qSel who →
      ∃ u, exec (.feQResume who v) s = .next u ∧ (∀ m, m ≠ n → u.queue m = s.queue m) ∧ (u.queue n).head = (s.queue n).head ∧
        (u.queue n).tail = (s.queue n).tail ∧ (u.queue n).st ≠ .halted ∧ (u.queue n).st ≠ .faulted ∧
        ((s.queue n).st = .halted ∨ (s.queue n).st = .faulted → (s.queue n).slot.isSome = true → (u.queue n).st = .mapped))

/-- R10: the high word that follows the read of a low word is the one of that read, whatever has changed in between but the requester's
latch. -/
def Obligations.LatchedPairs : Prop :=
  ∀ (s : State) (who : Requester) (off : Nat), s.Inv → s.hubAlive = true → latchedLow off = true → sqHalf off = none → sqHalf (off + 4) = none →
    ∃ u, exec (.lowWordRead who off) s = .next u ∧ u.ports.resp = .value (s.peek who off) ∧
      ∀ t : State, t.hubAlive = true → t.latch who = u.latch who → latchedLow (off + 4) = false →
        ∃ w, exec (.lowWordRead who (off + 4)) t = .next w ∧ w.ports.resp = .value (s.peek who (off + 4)) ∧ w.latch who = t.latch who

/-- A write of one register (R7, R212, R432, R472): RTE_REC_SEL latches the record it selects for its requester alone; a write that is not to a
whole register is dropped and counted; DB_F2H_MASK stores what is written, and no write reaches a register that does not serve. -/
def Obligations.RegisterWrites : Prop :=
  ∀ (s : State) (who : Requester) (v : Word) (off : Nat), s.Inv → s.hubAlive = true →
    (s.writable 0x3F0010 = true → ∃ u, exec (.rteRecSel .host v) s = .next u ∧ u.route.selHost = v.toNat % 2 ^ 17 ∧
      u.route.latchHost = sget 0 s.route.recs (v.toNat % 2 ^ 17) ∧ u.route.selPre = s.route.selPre ∧ u.route.latchPre = s.route.latchPre) ∧
    (s.writable 0x3F0010 = true → ∃ u, exec (.rteRecSel .prephor v) s = .next u ∧ u.route.selPre = v.toNat % 2 ^ 17 ∧
      u.route.latchPre = sget 0 s.route.recs (v.toNat % 2 ^ 17) ∧ u.route.selHost = s.route.selHost ∧
      u.route.latchHost = s.route.latchHost) ∧
    (off % 4 ≠ 0 → ∃ u, exec (.registerWrite who off v) s = .next u ∧ u.ports.resp = .dropped ∧
      u.count .hub 2 0 = (s.count .hub 2 0 + 1) % 2 ^ 48 ∧ u.mbx = s.mbx ∧ u.per = s.per) ∧
    (∃ u, exec (.registerWrite .host 0x400204 v) s = .next u ∧ u.mbx = { s.mbx with dbF2hMask := v } ∧ u.ports.resp = .none ∧
      u.peek who 0x400204 = v) ∧
    (off % 4 = 0 → s.writable off = false → exec (.registerWrite who off v) s = .next (s.answer .dropped))

/-- Mailboxes and doorbells (R465, R472): the next SEQ posts, any other sets OVERRUN, and the next one before its ACK is tried again with an ACK of the
same hclk; an ACK counts when its SEQ matches; DB_H2F gathers the bits written, and Prephor's look at it takes them. -/
def Obligations.MailboxesAndDoorbells : Prop :=
  ∀ (s : State) (m : Nat) (v : Word), s.Inv →
    (s.writable 0x40000C = true → (s.h2f m).pending = false → v.toNat = ((s.h2f m).seq + 1) % 2 ^ 32 →
      ∃ u, exec (.mbxH2fSeq m v) s = .next u ∧ (u.h2f m).seq = v.toNat ∧ (u.h2f m).overrun = (s.h2f m).overrun ∧
        ∀ bs, (s.h2f m).space = true → 32 ≤ (s.h2f m).len → (s.h2f m).len ≤ 4096 → s.mbx.reqs = [] →
          s.hostRead ((s.h2f m).ptrLo.toNat + 2 ^ 32 * (s.h2f m).ptrHi.toNat) (s.h2f m).len = some bs →
          s.badRc ⟨m, bs, true, 0, s.hclk⟩ = none → u.mbx.reqs = [⟨m, bs, true, 0, s.hclk⟩] ∧ (u.h2f m).pending = true) ∧
    (s.writable 0x40000C = true → (s.h2f m).pending = true ∨ v.toNat ≠ ((s.h2f m).seq + 1) % 2 ^ 32 →
      ∃ u, exec (.mbxH2fSeq m v) s = .next u ∧ u.mbx.reqs = s.mbx.reqs ∧ u.h2f m = { s.h2f m with
        overrun := true,
        tried := if v.toNat = ((s.h2f m).seq + 1) % 2 ^ 32 then some (s.hclk, v, (s.h2f m).overrun) else (s.h2f m).tried }) ∧
    (∀ n, s.writable 0x400090 = true → (s.f2h m).pending = true → v.toNat / 65536 = (s.f2h m).seq % 65536 →
      (s.f2h m).tried = some (s.hclk, n) → n.toNat = ((s.f2h m).seq + 1) % 2 ^ 32 →
      ∃ u, exec (.mbxF2hAck m v) s = .next u ∧ (u.f2h m).ack = v ∧ (u.f2h m).seq = n.toNat ∧ (u.f2h m).pending = true) ∧
    (s.writable 0x400090 = true → (s.f2h m).pending = true → (∀ x, (s.f2h m).tried = some x → x.1 ≠ s.hclk) →
      ∃ u, exec (.mbxF2hAck m v) s = .next u ∧
        u.f2h m = if v.toNat / 65536 = (s.f2h m).seq % 65536 then { s.f2h m with ack := v, pending := false } else s.f2h m) ∧
    (s.writable 0x400208 = true → ∃ u, exec (.dbH2f v) s = .next u ∧ u.mbx = { s.mbx with dbH2f := s.mbx.dbH2f ||| v }) ∧
    (s.serving = true → ∃ u, exec .dbH2fPoll s = .next u ∧ u.mbx.dbH2f = 0)

/-- PER_P_CTRL and PER_REPAIR_GRANT (R407, R408, R424): ARM takes effect where its checks pass and else leaves its code; DISARM ends a HELD
program at once and another at its next fire instant; a grant leaves its result, and waits for its tick where it is taken. -/
def Obligations.ProgramRegisters : Prop :=
  ∀ (s : State) (n : Nat) (v : Word) (p : PerProg), s.Inv → s.perProg n = some p →
    (s.writable 0xA00018 = true → v.getLsbD 0 = true → v.getLsbD 1 = false → (s.prog n).st = .disarmed → s.armErr p (s.prog n) = 0 →
      ∃ u, exec (.perArm n v) s = .next u ∧ (u.prog n).st = (if bit s.clk.unalignedEng p.eng then .held else .armed) ∧
        (u.prog n).armErr = 0 ∧ (u.prog n).armAt = s.progNow p ∧ (u.queue (504 + n)).head = 0 ∧ (u.queue (504 + n)).tail = 0 ∧
        (u.queue (504 + n)).descAddr = (s.prog n).list ∧ (u.queue (504 + n)).recAddr = (s.prog n).recAddr) ∧
    (s.writable 0xA00018 = true → v.getLsbD 0 = true → v.getLsbD 1 = false → (s.prog n).st = .disarmed → s.armErr p (s.prog n) ≠ 0 →
      ∃ u, exec (.perArm n v) s = .next u ∧ u.prog n = { s.prog n with armErr := s.armErr p (s.prog n) } ∧ u.queues = s.queues) ∧
    (s.writable 0xA00018 = true → v.getLsbD 0 = false → v.getLsbD 1 = true →
      ∃ u, exec (.perDisarm n v) s = .next u ∧ ((s.prog n).st = .held → (u.prog n).st = .disarmed ∧ (u.prog n).claims = []) ∧
        ((s.prog n).st = .armed ∨ (s.prog n).st = .running ∨ (s.prog n).st = .repair → u.prog n = { s.prog n with disarmNext := true }) ∧
        ((s.prog n).st = .absent ∨ (s.prog n).st = .disarmed → u.prog n = s.prog n)) ∧
    (s.writable 0xA01000 = true → v.toNat % 8 = n → bits v.toNat 15 4 ≠ 0 →
      ∃ u, exec (.perRepairGrant v) s = .next u ∧ u.per.grantProg = (if s.grantResult n (v.toNat / 65536) = 0 then n else s.per.grantProg) ∧
        u.per.grantResult = s.grantResult n (v.toNat / 65536) ∧
        (s.grantResult n (v.toNat / 65536) = 0 → (u.prog n).grantWait = true ∧ (u.prog n).grantTick = v.toNat / 65536 ∧
          (u.prog n).grantTicks = bits v.toNat 15 4) ∧
        (s.grantResult n (v.toNat / 65536) ≠ 0 → u.prog n = s.prog n))

/-- The event window (R542) and the freeze (R543).  The window holds the record of lowest SEQ at or above the cursor, with GAP where the cursor lies
below it, and after the last word of a valid record the cursor is its SEQ plus 1.  A write of FREEZE begins a freeze with EVR_MISSED 0, one that is
in force goes on; it ends when FREEZE is cleared or 10 ms have passed, and the acknowledgements held are applied. -/
def Obligations.EventWindowAndFreeze : Prop :=
  (∀ (s : State) (who : Requester) (v : Word), s.Inv → s.hubAlive = true → s.evr.src = false →
     (s.writable 0x600010 = true → ∃ u, exec (.evrCursorHi who v) s = .next u ∧
       (u.evWin who).cursor = v.toNat * 2 ^ 32 + (s.evWin who).cursor % 2 ^ 32 ∧ u.evr.recs = s.evr.recs ∧
       ((u.evWin who).valid = true → ∃ r ∈ s.evr.recs, (u.evWin who).record = some r ∧ (u.evWin who).cursor ≤ r.seq ∧
         ((u.evWin who).gap = true ↔ (u.evWin who).cursor < r.seq) ∧ ∀ x ∈ s.evr.recs, (u.evWin who).cursor ≤ x.seq → r.seq ≤ x.seq) ∧
       ((u.evWin who).valid = false → ∀ x ∈ s.evr.recs, x.seq < (u.evWin who).cursor)) ∧
     (∀ r, (s.evWin who).record = some r → (s.evWin who).valid = true →
       ∃ u, exec (.evrWin15 who) s = .next u ∧ (u.evWin who).cursor = r.seq + 1 ∧ u.evr.recs = s.evr.recs)) ∧
  (∀ (s : State) (v : Word), s.Inv →
     (s.writable 0x600014 = true → v.getLsbD 0 = true → ∃ u, exec (.evrFreeze v) s = .next u ∧ u.evr.freeze = true ∧
       (s.evr.freeze = false → u.evr.missed = 0 ∧ u.evr.freezeAt = s.hclk) ∧
       (s.evr.freeze = true → u.evr.missed = s.evr.missed ∧ u.evr.freezeAt = s.evr.freezeAt) ∧ u.evr.recs = s.evr.recs) ∧
     (s.writable 0x600014 = true → v.getLsbD 0 = false → s.evr.freeze = true → ∃ u, exec (.evrThaw v) s = .next u ∧
       u.evr.freeze = false ∧ u.evr.heldAcks = [] ∧
       ∀ r, r ∈ u.evr.recs ↔ r ∈ s.evr.recs ∧ ∀ a ∈ s.evr.heldAcks, ¬ (r.sev ≤ 2 ∧ r.seq ≤ a)) ∧
     (s.evr.freeze = true → s.evr.freezeAt + 10000 * hclkPerUs ≤ s.hclk → ∃ u, exec .evrFreezeExpiry s = .next u ∧
       u.evr.freeze = false ∧ u.evr.heldAcks = [] ∧
       ∀ r, r ∈ u.evr.recs ↔ r ∈ s.evr.recs ∧ ∀ a ∈ s.evr.heldAcks, ¬ (r.sev ≤ 2 ∧ r.seq ≤ a)))

/-- EVR_ACK_HI (R541): outside a freeze the records of severity 0 to 2 up to the value written are freed, and every other stays; the host sees
it through the words EVR_ACK_LO and EVR_ACK_HI. -/
def Obligations.AckFreesRecords : Prop :=
  ∀ (s : State) (v : Word), s.Inv → s.writable 0x60001C = true → s.evr.freeze = false →
    ∃ u, exec (.evrAckHi v) s = .next u ∧
      ∀ r, r ∈ u.evr.recs ↔ r ∈ s.evr.recs ∧ ¬ (r.sev ≤ 2 ∧ r.seq ≤ v.toNat * 2 ^ 32 + s.evr.ackLo.toNat)

/-! ## Power and resets -/

/-- POWER_UP (R372, R521, R522): it ends in READY, with every engine that is present IDLE, or in SAFE; with both hubs failed the module answers
nothing.  POWER_UP_STEP_TIMEOUT: a step past its bound ends in SAFE with TIMEOUT, unless an earlier step has failed. -/
def Obligations.PowerUpEnds : Prop :=
  ∀ (s : State) (f : BootFacts), s.Inv → s.atReset = true →
    (∃ u, exec (.powerUp f) s = .next u ∧
      ((f.h0Fails && f.h1Fails) = false → u.pwr.mod = .ready ∨ u.pwr.mod = .safe) ∧
      ((f.h0Fails && f.h1Fails) = true → u.hubAlive = false) ∧
      (u.pwr.mod = .ready → ∀ e, e < 21 → u.present e = true → (u.eng e).st = .idle)) ∧
    (∀ k, 1 ≤ k → k ≤ 9 → (f.h0Fails && f.h1Fails) = false →
      ∃ u, exec (.powerUpStepTimeout k f) s = .next u ∧ u.pwr.mod = .safe ∧ u.pwr.safeStep ≤ k ∧
        (u.pwr.safeStep = k → u.pwr.safeCause = scTimeout))

/-- MRST#, PFAIL# and PERST# (R434, R529, R559): MRST# leaves the flash and resets the rest, and what a flush or an erase had done in its region
stays as it was cut off; PFAIL# is accepted after 1 µs,
kills what runs at 100 µs and leaves the yards and dies dark at 200 µs; PERST# touches the PCIe function only. -/
def Obligations.ResetAndPowerFail : Prop :=
  (∀ (s : State) (ns : Nat), s.Inv → 1000 ≤ ns →
    ∃ u, exec (.mrstPulse ns) s = .next u ∧ (s.evr.flushing = none → s.evr.erasing = none → u.flash = s.flash) ∧
      ((∀ f, s.evr.flushing = some f → f.region < 2 ∧ f.recs.length ≤ 1024 ∧ ∀ r ∈ f.recs, r.regs.length ≤ 6) →
        (∀ r, s.evr.erasing = some r → r < 2) → ∀ k, k < flashFlush 0 ∨ flashFlush 1 + flushBytes ≤ k →
        sget flashErased u.flash k = sget flashErased s.flash k) ∧ u.pending = s.pending ∧ u.pwr.mod = .boot ∧ u.pwr.grade = s.pwr.grade ∧
      u.engines = [] ∧ u.queues = [] ∧ u.fences = [] ∧ u.pmon = [] ∧ u.hub = State.reset.hub ∧ u.mbx = State.reset.mbx ∧
      u.evr = State.reset.evr ∧ u.per = State.reset.per ∧ u.clk = State.reset.clk) ∧
  (∀ (s : State) (ns us : Nat), s.Inv →
    (1000 ≤ ns → s.pwr.mod ≠ .pfail → s.hubAlive = true →
      ∃ u, exec (.pfailAssert ns us) s = .next u ∧ u.pwr.mod = .pfail ∧ u.pwr.pfailAt = some s.hclk ∧ u.engines = s.engines) ∧
    (ns < 1000 → exec (.pfailAssert ns us) s = .next s)) ∧
  (∀ (s : State) (t : Nat), s.Inv → s.pending = [] → s.pwr.mod = .pfail → s.pwr.pfailAt = some t →
    (s.hclk + 1 = t + 100 * hclkPerUs → ∃ u, step s = .next u ∧ u.engines = []) ∧
    (s.hclk + 1 = t + 200 * hclkPerUs → ∃ u, step s = .next u ∧ u.engines = [] ∧ u.links = [] ∧ u.mem.data = [] ∧ u.yards.spad = [])) ∧
  (∀ s : State, s.Inv → ∃ u, exec .perst s = .next u ∧ u.ports.linkUp = false ∧ u.ports.bar2Log2 = 30 ∧ u.engines = s.engines ∧
    u.queues = s.queues ∧ u.fences = s.fences ∧ u.mbx = s.mbx)

/-- R564: THERMTRIP# goes low when a die sensor reads 125 °C or more, and nothing else changes; it stays as it is until the next power-up. -/
def Obligations.ThermtripStaysLow : Prop :=
  (∀ (s : State) (c : Nat), (125 ≤ c → exec (.thermtrip c) s = .next { s with pwr := { s.pwr with thermtrip := true } }) ∧
     (c < 125 → exec (.thermtrip c) s = .next s)) ∧
  (∀ s t : State, s.Inv → step s = .next t → (∀ ns rest, s.pending ≠ Instr.mrstPulse ns :: rest) →
     (s.pwr.thermtrip = true → t.pwr.thermtrip = true) ∧
     ((∀ c rest, s.pending ≠ Instr.thermtrip c :: rest) → t.pwr.thermtrip = s.pwr.thermtrip)) ∧
  (∀ (s : State) (ns : Nat), s.Inv → 1000 ≤ ns → ∃ u, exec (.mrstPulse ns) s = .next u ∧ u.pwr.thermtrip = false)

/-- YARD_LOST and RAIL_OUT_OF_BAND (R517, R528, R560): a lost yard puts the module into SAFE with its cause, and a rail of a yard loses that
yard; another rail that leaves its band without PFAIL# is outside the ratings, of which the manual says nothing more. -/
def Obligations.LostYardEntersSafe : Prop :=
  ∀ (s : State) (y : Nat) (r : Rail), s.Inv →
    (s.yardsUp = true → ∃ u, exec (.yardLost y) s = .next u ∧ u.pwr.mod = .safe ∧ u.pwr.safeCause = scYardLost ∧ u.pwr.safeDetail = y ∧
      u.rel.yardLost = true ∧ u.rel.lostYard = y ∧ u.engines = [] ∧ u.yards.spad = [] ∧ ∀ d, d < 32 → (u.half d).pstate = .off) ∧
    (Rail.yard r = some y → s.yardsUp = true → ∃ u, exec (.railOutOfBand r) s = .next u ∧ exec (.yardLost y) s = .next u) ∧
    (Rail.yard r = none → s.pwr.mod = .pfail → exec (.railOutOfBand r) s = .next s) ∧
    (Rail.yard r = none → s.pwr.mod ≠ .pfail → exec (.railOutOfBand r) s = .fault .outsideRatings)

/-- Flushes (R544, R545): at its end the records stand in a region that was blank, under a header with their count, the next flush number and the
CRC, and the other region is erased; under PFAIL no flush ends so (R546).  An erase leaves its region blank and every other byte of the flash, and
the flush that waited for it begins. -/
def Obligations.FlushesComplete : Prop :=
  ∀ s : State, s.Inv →
    (∀ f, s.evr.flushing = some f → s.pwr.mod ≠ .pfail →
      ∃ u, exec .flushEnd s = .next u ∧ u.evr.flushing = none ∧ u.evr.flushSeq = s.evr.flushSeq + 1 ∧ u.evr.dueRegion = 1 - f.region ∧
        u.evr.erasing = some (1 - f.region) ∧ u.evr.recs = s.evr.recs ∧
        (s.flushBlank f.region = true → f.recs.length ≤ 1024 → (∀ r ∈ f.recs, r.regs.length ≤ 6) → s.evr.flushSeq + 1 < 2 ^ 32 →
          u.flushAt f.region = some (s.evr.flushSeq + 1, (f.recs.map EvRec.bytes).flatten))) ∧
    (s.pwr.mod = .pfail → exec .flushEnd s = .next s) ∧
    (∀ r, s.evr.erasing = some r →
      ∃ u, exec .flushRegionErased s = .next u ∧ u.evr.erasing = none ∧ u.flushBlank r = true ∧
        (∀ k, k < flashFlush r ∨ flashFlush r + flushBytes ≤ k → sget flashErased u.flash k = sget flashErased s.flash k) ∧
        (s.evr.flushWaits = true → s.evr.flushing = none → s.evr.flushes < 16 → s.pwr.mod ≠ .pfail →
          ∃ f, u.evr.flushing = some f ∧ f.region = s.evr.dueRegion ∧ f.recs = flushOrder s.evr.recs))

/-! ## Host port and management ports -/

/-- BAR2 (R430, R432): within the BAR and one page an access that translates reads what the last one wrote, and a write leaves every other byte of
device memory alone. -/
def Obligations.Bar2ReadsWhatItWrote : Prop :=
  ∀ (s : State) (a n : Nat) (data : Bytes), s.Inv → s.hubAlive = true → s.bar2Served = true → a + n ≤ 2 ^ s.ports.bar2Log2 →
    (s.firstFail a n false true = none →
      ∃ u, exec (.bar2Access false a n data) s = .next u ∧ u.ports.resp = .data (s.devBytes a n) ∧ u.mem.data = s.mem.data) ∧
    (s.firstFail a n true true = none → data.length = n → a % pageBytes + n ≤ pageBytes → (∀ k, (s.shed k).retBusy = false) →
      ∃ u, exec (.bar2Access true a n data) s = .next u ∧ u.ports.resp = .none ∧ u.devBytes a n = data ∧
        ∀ k, k < s.physRead a ∨ s.physRead a + n ≤ k → sget 0 u.mem.data k = sget 0 s.mem.data k)

/-- R341: a failed BAR2 access is recorded with AGENT 0x0 under the first-fault rule: the address and cause of its first part that fails, unless a
fault is recorded already. -/
def Obligations.FailedBar2AccessIsRecorded : Prop :=
  ∀ (s : State) (write : Bool) (a n : Nat) (data : Bytes) (x : Nat × Nat), s.Inv → s.hubAlive = true → s.bar2Served = true →
    a + n ≤ 2 ^ s.ports.bar2Log2 → s.firstFail a n write true = some x →
    ∃ u, exec (.bar2Access write a n data) s = .next u ∧ u.ports.resp = (if write then .dropped else .unsupported) ∧
      u.mem.data = s.mem.data ∧
      (s.mem.xfInfo.getLsbD 0 = false → u.mem.xfLo = BitVec.ofNat 32 x.1 ∧ u.mem.xfHi = BitVec.ofNat 32 (x.1 / 2 ^ 32) ∧
        u.mem.xfInfo.getLsbD 0 = true ∧ u.mem.xfInfo.getLsbD 1 = write ∧ bits u.mem.xfInfo.toNat 4 2 = 0 ∧
        bits u.mem.xfInfo.toNat 6 5 = x.2 % 4) ∧
      (s.mem.xfInfo.getLsbD 0 = true → u.mem.xfLo = s.mem.xfLo ∧ u.mem.xfHi = s.mem.xfHi ∧ u.mem.xfInfo = s.mem.xfInfo)

/-- The other requests of the host (R429 to R432, R550): a BAR4 read within its 256 MiB gives bytes of the trace ring, zeros with no source on, and one
past them is refused; a bad BAR0 write is dropped and counted; what is not supported is refused and changes nothing else; a configuration write sets
BAR2's size, a word of the MSI-X table or its own word, and leaves the identity as it is. -/
def Obligations.HostRequests : Prop :=
  ∀ (s : State) (off n : Nat) (v : Word) (k : BadRequest), s.Inv → s.hubAlive = true →
    (off + n ≤ bar4Bytes → s.pwr.mod ≠ .safe → s.img.traceSrc ≠ 0 → ∃ u, exec (.bar4Read off n) s = .next u ∧
      u.ports.resp = .data ((upto n).map (fun i => sget 0 s.mem.data (s.ringByte (off + i)))) ∧ u.mem.data = s.mem.data) ∧
    (off + n ≤ bar4Bytes → s.pwr.mod = .safe ∨ s.img.traceSrc = 0 →
      ∃ u, exec (.bar4Read off n) s = .next u ∧ u.ports.resp = .data (zeros n)) ∧
    (bar4Bytes < off + n → exec (.bar4Read off n) s = .next (s.answer .unsupported)) ∧
    (∃ u, exec .bar0BadWrite s = .next u ∧ u.ports.resp = .dropped ∧ u.count .hub 2 0 = (s.count .hub 2 0 + 1) % 2 ^ 48) ∧
    (∃ u, exec (.unsupportedRequest k) s = .next u ∧ u.ports.resp = (if k = .vdm1 then .dropped else .unsupported) ∧ u.mem = s.mem ∧
      u.mbx = s.mbx ∧ u.pmon = s.pmon) ∧
    (∃ u, exec (.configurationWrite off v) s = .next u ∧ u.ports.linkUp = true ∧
      (off ≠ Config.rebarControl → identityWord s.pwr.grade off = none → (s.ports.config.map Prod.fst).Nodup →
        (s.ports.msixTable.map Prod.fst).Nodup → u.ports.bar2Log2 = s.ports.bar2Log2 ∧
        (Config.msixWord off).elim (sget (Config.pcieConfig off) u.ports.config off = v ∧ u.ports.msixTable = s.ports.msixTable)
          (fun i => u.ports.config = s.ports.config ∧ (i < 128 → sget (msixReset i) u.ports.msixTable i = v))) ∧
      (∀ w, off ≠ Config.rebarControl → identityWord s.pwr.grade off = some w → u.ports.config = s.ports.config ∧
        u.ports.msixTable = s.ports.msixTable) ∧
      (off = Config.rebarControl → u.ports.bar2Log2 =
        if 30 ≤ 20 + bits v.toNat 13 8 ∧ 20 + bits v.toNat 13 8 ≤ 38 then 20 + bits v.toNat 13 8 else s.ports.bar2Log2))

/-- I3C and the TAP (R460, R461): four bytes choose the register that the next private read returns, in the blocks that I3C reaches; the CCCs
set address and events; the TAP takes every instruction until image load, and BYPASS and IDCODE after. -/
def Obligations.ManagementPorts : Prop :=
  ∀ (s : State) (data : Bytes) (a : Nat) (i : TapInstr), s.Inv →
    (data.length = 4 → ∃ u, exec (.i3cPrivateWrite data) s = .next u ∧ u.ports.i3cOff = ofBytes data ∧
      (s.hubAlive = true → i3cBlock (ofBytes data) = true → ofBytes data < 0x4000000 → latchedHigh (ofBytes data) = false →
        sqHalf (ofBytes data) = none →
        ∃ w, exec .i3cPrivateRead u = .next w ∧ w.ports.resp = .value (u.peek .host (ofBytes data)))) ∧
    (data.length ≠ 4 → exec (.i3cPrivateWrite data) s = .next s) ∧
    (i3cBlock s.ports.i3cOff = false → ∃ u, exec .i3cPrivateRead s = .next u ∧ u.ports.resp = .value 0xFFFFFFFF) ∧
    (∀ c, c = .entdaa a ∨ c = .setdasa a → ∃ u, exec (.i3cCcc c) s = .next u ∧ u.ports.i3cDyn = some a) ∧
    (∃ u, exec (.i3cCcc .rstdaa) s = .next u ∧ u.ports.i3cDyn = none) ∧
    (∃ u, exec (.i3cCcc (.enec a)) s = .next u ∧ u.ports.i3cEvents = Nat.lor s.ports.i3cEvents (a % 256)) ∧
    (∃ u, exec (.i3cCcc (.disec a)) s = .next u ∧ Nat.land u.ports.i3cEvents (a % 256) = 0) ∧
    (∀ c, c = .getpid ∨ c = .getbcr ∨ c = .getdcr ∨ c = .getstatus →
      ∃ u w, exec (.i3cCcc c) s = .next u ∧ u.ports.resp = .value w ∧ u.ports.i3cDyn = s.ports.i3cDyn) ∧
    (s.ports.tapFull = true ∨ i = .bypass ∨ i = .idcode → ∃ u, exec (.tapInstruction i) s = .next u ∧ u.ports.tapInstr = i ∧
      (i = .idcode → u.ports.resp = .value (Config.idcode s.pwr.grade))) ∧
    (s.ports.tapFull = false → i ≠ .bypass → i ≠ .idcode → ∃ u, exec (.tapInstruction i) s = .next u ∧ u.ports.tapInstr = s.ports.tapInstr) ∧
    (∃ u, exec .testLogicReset s = .next u ∧ u.ports.tapReset = true ∧ u.ports.tapInstr = .idcode)

/-! ## Drive ports, time and standing programs -/

/-- Drive frames (R414, R418, R452, R453): a frame with a bad FCS and one of another type are counted, and a record of a known stream and length
is the newest of its stream. -/
def Obligations.DriveFrames : Prop :=
  ∀ (s : State) (port : Nat) (frame : Bytes), s.Inv → s.e5Up = true → (s.port port).cfg.getLsbD 0 = true →
    (∀ ok, ok = false ∨ 1518 < frame.length → ∃ u, exec (.driveFrameRx port frame ok) s = .next u ∧ u.per = s.per ∧
      u.count .drive port 0 = (s.count .drive port 0 + 1) % 2 ^ 48) ∧
    (frame.length ≤ 1518 → ofBytes ((frame.drop 12).take 2).reverse ≠ 0x8100 → ofBytes ((frame.drop 12).take 2).reverse ≠ 0x88B5 →
      (ofBytes ((frame.drop 12).take 2).reverse ≠ 0x88F7 ∨ (s.port port).cfg.getLsbD 3 = false) →
      ∃ u, exec (.driveFrameRx port frame true) s = .next u ∧ u.per = s.per ∧
        u.count .drive port 1 = (s.count .drive port 1 + 1) % 2 ^ 48) ∧
    (∀ j x, frame.length ≤ 1518 → 34 ≤ frame.length → ofBytes ((frame.drop 12).take 2).reverse = 0x88B5 → fld frame 14 1 = 1 →
      fld frame 16 1 = 1 → 34 + fld frame 32 2 ≤ frame.length → fld frame 32 2 = x.length →
      (indexed s.img.streams).find? (fun y => decide (y.2.port = port ∧ y.2.dir = 0 ∧ y.2.sid = fld frame 30 2)) = some (j, x) →
      ∃ u, exec (.driveFrameRx port frame true) s = .next u ∧
        sget none u.per.ingress j = some ⟨fld frame 18 4, (frame.drop 34).take x.length⟩)

/-- 802.1AS time (R454): a Sync of the master that stands sets the time, corrected by the link delay, and ends a holdover, and a Sync of another
changes nothing; the loss of Sync begins a holdover, and the time runs on; a peer delay request is answered in two steps, under the gate of class 7
(R453), and a response sets the link delay; of two masters the better one stands; with no command waiting the time runs on from REFCLK at the
last measured rate ratio, in holdover too. -/
def Obligations.TimeFollowsSync : Prop :=
  ∀ (s : State) (port n i : Nat), s.Inv →
    (s.per.time.follows i = false → exec (.gptpSync port n i) s = .next s) ∧
    (s.ptpOn port = true → s.per.time.follows i = true → ∃ u, exec (.gptpSync port n i) s = .next u ∧ u.time = n + s.per.time.delayNs ∧ u.per.time.synced = true ∧
      u.per.time.holdover = false ∧ u.per.time.lastSync = s.hclk ∧ u.per.progs = s.per.progs ∧ u.hclk = s.hclk) ∧
    (s.e5Up = true → s.per.time.synced = true → ∃ u, exec .syncTimeout s = .next u ∧ u.per.time.synced = false ∧
      u.per.time.holdover = true ∧ u.time = s.time ∧ u.per.progs = s.per.progs) ∧
    (s.ptpOn port = true → (s.port port).waiting = [] →
      ((s.port port).link = true → (s.port port).oper.entries = [] → ∃ u, exec (.pdelayReq port) s = .next u ∧ u.per.time = s.per.time ∧
        u.ports.gptpOut = s.ports.gptpOut ++ [(port, gptpPdelayResp), (port, gptpPdelayRespFollowUp)]) ∧
      ((s.port port).link = false → ∃ u, exec (.pdelayReq port) s = .next u ∧ u.ports.gptpOut = s.ports.gptpOut ∧
        (u.port port).waiting.map Frame.gptp = [some gptpPdelayResp, some gptpPdelayRespFollowUp])) ∧
    (s.ptpOn port = true → ∃ u, exec (.pdelayResp port n) s = .next u ∧ u.per.time.delayNs = n ∧ u.time = s.time) ∧
    (∀ t, s.pending = [] → step s = .next t → t.per.time = s.per.time ∧
      t.time = s.per.time.now + nsOf (s.hclk + 1 - s.per.time.at_) * s.per.time.rateNum / 1000000000) ∧
    (∀ pr id, s.ptpOn port = true → ∃ u m, exec (.announce port pr id) s = .next u ∧ u.per.time.master = some m ∧
      (m.1 < pr ∨ (m.1 = pr ∧ m.2 ≤ id)) ∧ (m = (pr, id) ∨ some m = s.per.time.master))

/-- Gates and links of a drive port (R455, R457): a change waits for the first cycle start at or after the base time and is in force from it; the
gates in force are those of the entry that holds; frames leave a port that is up with an empty list, and none leaves one that is down. -/
def Obligations.GatesAndPorts : Prop :=
  ∀ (s : State) (n : Nat) (v : Word), s.Inv →
    (s.writable 0xA02024 = true → v.getLsbD 8 = true → 1000 ≤ (s.port n).cycle.toNat → (s.port n).cycle.toNat ≤ 1000000000 →
      ∃ u t g, exec (.drvGclChange n v) s = .next u ∧ (u.port n).pending = some (t, g) ∧ g.start = t ∧ g.cycle = (s.port n).cycle.toNat ∧
        (s.port n).baseLo.toNat + 2 ^ 32 * (s.port n).baseHi.toNat ≤ t ∧ s.time ≤ t ∧
        (t - ((s.port n).baseLo.toNat + 2 ^ 32 * (s.port n).baseHi.toNat)) % (s.port n).cycle.toNat = 0 ∧
        ((s.port n).baseLo.toNat + 2 ^ 32 * (s.port n).baseHi.toNat < t → t < s.time + (s.port n).cycle.toNat)) ∧
    (∀ x, (s.port n).pending = some x → x.1 ≤ s.time →
      ∃ u, exec (.gclChangeApply n) s = .next u ∧ (u.port n).oper = x.2 ∧ (u.port n).pending = none) ∧
    (∃ u, exec (.gateControlEntry n) s = .next u ∧
      (u.port n).gates = ((((s.port n).oper.ahead s.time).head?).map Prod.fst).getD 0xFF ∧ (u.port n).oper = (s.port n).oper) ∧
    (∀ lock, ∃ u, exec (.drivePortLink n false lock) s = .next u ∧ (u.port n).link = false ∧ (u.port n).fecLock = lock ∧
      u.ports.sent = s.ports.sent) ∧
    (∀ lock, (s.port n).cfg.getLsbD 0 = true → (s.port n).oper.entries = [] →
      ∃ u, exec (.drivePortLink n true lock) s = .next u ∧ (u.port n).link = true ∧ (u.port n).waiting = [] ∧
        u.ports.sent = s.ports.sent ++ (s.port n).waiting)

/-- SYNC pins (R411, R413, R456): an armed program takes its first edge and one that comes 7/8 to 9/8 periods after the last; an early one is a miss and
is ignored; without an edge in 9/8 periods there is a miss, and the next edge is taken; SYNC_OUT pulses at each second of mode 1. -/
def Obligations.SyncPins : Prop :=
  ∀ (s : State) (p : PerProg), s.Inv → s.live = true → p.tickSrc = 1 → (s.prog p.prog).armed = true →
    (p ∈ s.img.progs → (s.img.progs.map PerProg.prog).Nodup →
      ((s.prog p.prog).edge = none ∨ (∃ h, (s.prog p.prog).edge = some h ∧ 7 * p.period ≤ 8 * nsOf (s.hclk - h)) →
        ∃ u, exec .syncInEdge s = .next u ∧
          u.prog p.prog = { s.prog p.prog with
            edge := some s.hclk, edges := (s.prog p.prog).edges + 1,
            due := (s.prog p.prog).due.filter (fun d => decide ((s.prog p.prog).fireAt < d.2)) ++
              (if (s.prog p.prog).armAt + 1000 ≤ nsOf s.hclk + p.phase then [((s.prog p.prog).edges, nsOf s.hclk + p.phase)] else []) }) ∧
      (∀ h, (s.prog p.prog).edge = some h → 8 * nsOf (s.hclk - h) < 7 * p.period →
        ∃ u, exec .syncInEdge s = .next u ∧ u.prog p.prog = s.prog p.prog ∧
          u.count .prog p.prog 5 = (s.count .prog p.prog 5 + 1) % 2 ^ 48)) ∧
    (∀ h, s.perProg p.prog = some p → (s.prog p.prog).edge = some h → 9 * p.period < 8 * nsOf (s.hclk - h) →
      ∃ u, exec (.syncInTimeout p.prog) s = .next u ∧ (u.prog p.prog).edge = none ∧
        u.count .prog p.prog 5 = (s.count .prog p.prog 5 + 1) % 2 ^ 48) ∧
    (s.per.syncMode = 1 → ∃ u, exec .syncOutPulse s = .next u ∧ u.per.time.syncOut = s.per.time.syncOut + 1)

/-- TICK_FIRE, COMMIT and EGRESS_DEADLINE (R409, R411, R420 to R423): a due tick of an ARMED program that nothing holds back fires, with its list in
its queue; one that is held back waits, and fires when nothing holds it any more; the commit takes the egress regions into the hold; and the deadline ends the tick, late where it had not committed. -/
def Obligations.TicksComplete : Prop :=
  ∀ (s : State) (n : Nat) (p : PerProg), s.Inv → s.perProg n = some p →
    (∀ k f, s.live = true → (s.prog n).st = .armed → (s.prog n).fired = false → (s.prog n).disarmNext = false →
      (s.prog n).windowOpen = false → (s.prog n).grantWait = false → (s.prog n).waits = false → s.dueTick p = some (k, f) →
      s.fireBlocked p = true →
      ∃ u, exec (.tickFire n) s = .next u ∧ (u.prog n).waits = true ∧ (u.prog n).fired = true ∧ (u.prog n).cur = k ∧ (u.prog n).fireAt = f ∧
        u.queues = s.queues ∧ u.engines = s.engines) ∧
    (s.live = true → (s.prog n).armed = true → (s.prog n).waits = true → (s.prog n).st ≠ .held → s.fireBlocked p = false →
      ∃ u, exec (.tickFire n) s = .next u ∧ (u.prog n).st = .running ∧ (u.prog n).waits = false ∧ (u.prog n).tick = (s.prog n).cur ∧
        (u.queue (504 + n)).head = 0 ∧ (u.queue (504 + n)).tail = (s.prog n).count) ∧
    (∀ k f, s.live = true → (s.prog n).st = .armed → (s.prog n).fired = false → (s.prog n).disarmNext = false →
      (s.prog n).windowOpen = false → (s.prog n).grantWait = false → (s.prog n).waits = false → s.dueTick p = some (k, f) →
      s.fireBlocked p = false →
      ∃ u, exec (.tickFire n) s = .next u ∧ (u.prog n).st = .running ∧ (u.prog n).fired = true ∧ (u.prog n).tick = k ∧
        (u.prog n).released = false ∧ (u.queue (504 + n)).head = 0 ∧ (u.queue (504 + n)).tail = (s.prog n).count ∧
        (u.queue (504 + n)).rtTick = k) ∧
    (s.live = true → (s.prog n).st = .running → (s.prog n).fired = true → (s.prog n).committed = false → s.listEnded n = true →
      (s.prog n).postAt + s.commitHclk n ≤ s.hclk →
      ∃ u, exec (.commit n) s = .next u ∧ (u.prog n).committed = true ∧ (u.prog n).holdTick = (s.prog n).cur % 2 ^ 32 ∧
        ∀ j x, (j, x) ∈ indexed s.img.streams → x.prog = n → x.dir = 1 → 0 < x.length →
          sget [] u.per.hold j = s.spadRead (s.streamCore x) x.off x.length) ∧
    (∀ a, s.e5Sends = true → (s.prog n).fired = true → (s.prog n).fireAt + p.egress ≤ s.progNow p →
      (s.prog n).windowOpen = false → (s.prog n).st = .running →
      ∃ u, exec (.egressDeadline n a) s = .next u ∧ (u.prog n).fired = false ∧ (u.prog n).lastLate = !(s.prog n).committed ∧
        ((s.prog n).committed = false → (u.queue (504 + n)).head = (u.queue (504 + n)).tail))

/-- R419: LIST_RELEASE at IN_DONE releases the list of the tick that runs, and until then no engine takes a command of it, a fetch of another queue's
command leaving it where it stands. -/
def Obligations.ListReleasedAtInDone : Prop :=
  ∀ (s : State) (n : Nat), s.Inv →
    (s.live = true → (s.prog n).st = .running → (s.prog n).fired = true → (s.prog n).waits = false →
      (s.eng (s.queue (504 + n)).engine).st ≠ .disabled → (s.eng (s.queue (504 + n)).engine).st ≠ .disabling →
      ∃ u, exec (.listRelease n) s = .next u ∧ (u.prog n).released = true ∧ u.queues = s.queues ∧ u.engines = s.engines) ∧
    (∀ e k, (s.slot k).queue = some (504 + n) → (s.prog n).released = false → s.slotReady e k = false) ∧
    (∀ p k f, s.perProg n = some p → ((s.fire p k f).prog n).released = false) ∧
    (∀ e k u, (s.prog n).released = false → (s.eng e).preload = none → s.nextSource e = some (.slot k) → (∀ d ∈ s.mbx.destroys, d.queue ≠ 504 + n) →
      exec (.engineFetch e) s = .next u → (u.queue (504 + n)).head = (s.queue (504 + n)).head ∧
        ∀ c, (s.eng e).cur = none → (u.eng e).cur = some c → c.queue ≠ 504 + n)

/-! ## Faults, memory and the network -/

/-- Faults (R259, R293, R331, R332, R497, R499): a unit that passes its threshold is marked and its handling begins, a core's with a halter; a poisoned
flit at an edge router, and a SCHEDULED or EVENT control message that fails parity, is counted, the last two also against the threshold of the core
router that they name; a flit that misses its slot at an aligned crossing sets the SLIP bit of its receiver; a check re-read leaves its queue and
settles the parity of its words; a write that succeeds leaves the retry buffer. -/
def Obligations.FaultsAreHandled : Prop :=
  ∀ (s : State) (unit : FaultUnit) (c : PhysCore) (bank word b : Nat) (e : Option Nat), s.Inv →
    (s.live = true → unit ≠ .hub → s.counts unit = true → (s.countEvent unit).1 = true →
      ∃ u, exec (.faultReport (.unit unit) e) s = .next u ∧ unit ∈ u.rel.passed ∧
        (∀ k, unit = .core k ∨ unit = .router k → (u.core (coreNum k)).halter.isSome = true)) ∧
    (s.live = true → (∀ x, e = some x → x < 21) → ∃ u, exec (.faultReport (.edge b) e) s = .next u ∧
      u.count .half (edgeHalf b) 16 = (s.count .half (edgeHalf b) 16 + 1) % 2 ^ 48 ∧ u.yards = s.yards) ∧
    (s.live = true → (∀ x, e = some x → x < 21) → ∃ u, exec (.faultReport (.control c true) e) s = .next u ∧
      u.count .half c.yh 16 = (s.count .half c.yh 16 + 1) % 2 ^ 48 ∧
      (s.counts (.router c) = false ∨ (s.countEvent (.router c)).1 = false → u.yards = s.yards) ∧
      (s.counts (.router c) = true → (s.countEvent (.router c)).1 = true → (u.core (coreNum c)).halter.isSome = true)) ∧
    (s.live = true → ∃ u, exec (.faultReport (.control c false) e) s = .next u ∧
      u.count .half c.yh 21 = (s.count .half c.yh 21 + 1) % 2 ^ 48 ∧
      (s.counts (.router c) = false ∨ (s.countEvent (.router c)).1 = false → u.yards = s.yards ∧ u.engines = s.engines) ∧
      (s.counts (.router c) = true → (s.countEvent (.router c)).1 = true → (u.core (coreNum c)).halter.isSome = true)) ∧
    (s.live = true → b < 60 → word < 60 → crossing b word = true → s.alignedDom b = true → s.alignedDom word = true →
      ∃ u, exec (.faultReport (.crossing b word) none) s = .next u ∧ u.clk.slip.getLsbD word = true) ∧
    (s.memoryUp = true → ∀ r, r = .clean ∨ r = .edcWrong →
      ∃ u, exec (.spadCheckReread c bank word e r) s = .next u ∧
        (coreNum c * 12 + bank, spadKey (coreNum c) (0x8000 * bank + 4 * word) / 4) ∉ u.yards.checks ∧
        s.cell (coreNum c) (0x8000 * bank + 4 * word) / 4 ∉ u.yards.bad ∧ u.yards.spad = s.yards.spad) ∧
    (s.memoryUp = true → ∀ r, r = .parityWrong ∨ r = .notRun →
      ∃ u, exec (.spadCheckReread c bank word e r) s = .next u ∧
        (coreNum c * 12 + bank, spadKey (coreNum c) (0x8000 * bank + 4 * word) / 4) ∉ u.yards.checks ∧
        s.cell (coreNum c) (0x8000 * bank + 4 * word) / 4 ∈ u.yards.bad ∧ u.yards.spad = s.yards.spad) ∧
    (s.memoryUp = true → ∀ k, ∃ u, exec (.memCheckReread b [] e .clean k) s = .next u ∧ (∀ w ∈ u.mem.bad, w / 256 ≠ b) ∧ u.mem.data = s.mem.data) ∧
    (s.memoryUp = true → ∀ k, ∃ u, exec (.memCheckReread b [word] e .parityWrong k) s = .next u ∧ 256 * b + word % 256 ∈ u.mem.bad ∧
      u.mem.data = s.mem.data) ∧
    (s.memoryUp = true → (∃ r ∈ (s.shed (blockSlice b / 24)).retry, r.block = b) →
      ∃ u, exec (.writeRetry b e true) s = .next u ∧ ∀ r ∈ (u.shed (blockSlice b / 24)).retry, r.block ≠ b)

/-- Pages and devices of a shed (R320, R334 to R337): a retirement switches the page to a new frame first and copies a block at a time after, and at
its end the old frame is reserved; a copy-over that is done lets the spare take the position; a refresh changes nothing. -/
def Obligations.PagesAndDevices : Prop :=
  ∀ (s : State) (k : Nat), s.Inv → s.memoryUp = true →
    (∀ page rest v new, (s.shed k).retBusy = false → (s.shed k).retQueue = page :: rest → s.vpageOf page = some v →
      s.freeFrame (page % 192) = some new →
      ∃ u, exec (.pageRetire k) s = .next u ∧ (u.shed k).retBusy = true ∧ (u.shed k).retOld = page ∧ (u.shed k).retNew = new ∧
        (u.shed k).retDone = [] ∧ u.xlat v = { s.xlat v with ppage := new } ∧ u.mem.data = s.mem.data) ∧
    (∀ i, (s.shed k).retBusy = true → (upto 4096).find? (fun i => !(s.shed k).retDone.contains i) = some i →
      ∃ u, exec (.pageRetire k) s = .next u ∧ i ∈ (u.shed k).retDone ∧
        u.physBytes ((s.shed k).retNew * pageBytes + 1024 * i) 1024 = s.physBytes ((s.shed k).retOld * pageBytes + 1024 * i) 1024) ∧
    ((s.shed k).retBusy = true → ∃ u, exec (.pageRetireDone k) s = .next u ∧ (u.shed k).retBusy = false ∧ (s.shed k).retOld ∈ u.img.resv ∧
      u.count .shed k 7 = (s.count .shed k 7 + 1) % 2 ^ 48) ∧
    ((s.shed k).copying.isSome = true → ∃ u, exec (.deviceCopyOver k) s = .next u ∧ copyTotal ≤ (u.shed k).copyDone ∧ u.img = s.img) ∧
    (∀ d, s.hubAlive = true → (s.shed k).copying = some d → d < 12 → copyTotal ≤ (s.shed k).copyDone →
      ∃ u, exec (.deviceSwap k) s = .next u ∧ (u.shed k).copying = none ∧ (u.shedRec k).active.getLsbD 12 = true ∧
        (u.shedRec k).active.getLsbD d = false ∧ (u.shedRec k).failed.getLsbD d = true) ∧
    exec (.refresh k) s = .next s

/-- The network (R167, R240, R247, R249, R256): a conveyor launches once in a frame, serving waves are counted, an idle one moves no data, and one that
carries the next unit of the COPY of its shed moves its data and is counted; a hold ends with its yclk counted, and where there is none nothing
happens; a bad control message is counted; a phase that is open begins. -/
def Obligations.NetworkEvents : Prop :=
  ∀ (s : State) (i n : Nat), s.Inv →
    (∀ c frame, s.img.net.conveyors[i]? = some c → s.waveFrame i c = some frame → s.hub.loaded = true → s.pwr.mod ≠ .safe → s.pwr.mod ≠ .pfail →
      ∃ u, exec (.conveyorWave i none none) s = .next u ∧ u.wave i = (if frame % 2 = c.dir % 2 then s.wave i + 1 else s.wave i) ∧
        u.waveFrame i c = none ∧ u.yards.spad = s.yards.spad ∧ u.mem = s.mem ∧ u.pmon = s.pmon) ∧
    (∀ c frame m k, s.img.net.conveyors[i]? = some c → s.waveFrame i c = some frame → s.hub.loaded = true → s.pwr.mod = .ready →
      frame % 2 = c.dir % 2 → s.running (8 + c.edge / 32) opMove = some m → s.member c s.img.net.nC (s.wave i % s.img.net.nC) = some k →
      s.unitFits c k (c.slice s.img.net.nC (s.wave i)) m n = true →
      s.takeChecks (8 + c.edge / 32) m (s.copyMet m.desc (16 * n) 16).1 (s.copyMet m.desc (16 * n) 16).2 = none →
      ∃ u, exec (.conveyorWave i (some n) none) s = .next u ∧ u.wave i = s.wave i + 1 ∧
        (u.eng (8 + c.edge / 32)).cur = some { m with carried := n + 1 } ∧
        u.count .shed (c.edge / 32) (if c.dir = 0 then 0 else 1) = (s.count .shed (c.edge / 32) (if c.dir = 0 then 0 else 1) + 1) % 2 ^ 48 ∧
        (copyDstSpace m.desc = 2 →
          ((upto 16).map (fun j => s.cell (coreNum (s.coreAt (spCore (copyDst m.desc + 16 * n)))) (spOff (copyDst m.desc + 16 * n) + j))).Nodup →
          u.spadRead (coreNum (s.coreAt (spCore (copyDst m.desc + 16 * n)))) (spOff (copyDst m.desc + 16 * n)) 16 =
            (s.copyData m.desc (16 * n) 16).data) ∧
        (copyDstSpace m.desc ≠ 2 → u.yards.spad = s.yards.spad)) ∧
    (s.yards.holds.contains i = true → s.pwr.mod = .ready → ∃ u, exec (.crossingHoldEnd i n) s = .next u ∧
      u.count .half i 19 = (s.count .half i 19 + n) % 2 ^ 48 ∧ u.yards.cores = s.yards.cores ∧ u.yards.spad = s.yards.spad ∧
      u.yards.halves = s.yards.halves ∧ i ∉ u.yards.holds) ∧
    (s.yards.holds.contains i = false → exec (.crossingHoldEnd i n) s = .next s) ∧
    (0x0E ≤ n → ∃ u, exec (.ctlBad i n) s = .next u ∧ u.count .half i 22 = (s.count .half i 22 + 1) % 2 ^ 48) ∧
    (∀ e c w, s.engineOf (physOf i).yh = some e → s.phased e = some c → s.engAligned e = false →
      s.phaseOpen (s.ctrlOf c.sched.header) i n = true →
      ∃ u, exec (.phaseStart i n w) s = .next u ∧ (u.core i).phase = n ∧ (u.core i).spin = (s.core i).spin ∧
        u.count .half (physOf i).yh 13 = (s.count .half (physOf i).yh 13 + w) % 2 ^ 48)

/-- Drain arithmetic (R109, R115, R116): a row of zeros and a row of one repeated value get their entries, any other row with two different values
gets none of its own; and no signed integer output writes the code −8 or −128. -/
def Obligations.DrainArithmetic : Prop :=
  (∀ vs : List Nat, (∀ v ∈ vs, mag32 v = 0) → specialRow vs = some (rfZero, 0x3F800000, 0)) ∧
  (∀ (vs : List Nat) (v : Nat), 2 ≤ vs.length → (∀ x ∈ vs, x = v) → mag32 v ≠ 0 → specialRow vs = some (rfDegen, 0x00800000, v)) ∧
  (∀ (vs : List Nat) (v w : Nat), v ∈ vs → w ∈ vs → key32 v < key32 w → specialRow vs = none) ∧
  (∀ (fb mode fixed : Nat) (table : List Nat) (r v : Nat), fmtOf fb = 0 → (outCode fb mode fixed table r v).1 ≠ 8) ∧
  (∀ (fb mode fixed : Nat) (table : List Nat) (r v : Nat), fmtOf fb = 2 → (outCode fb mode fixed table r v).1 ≠ 128)

/-! ## Fetching, timeouts and slots -/

/-- Fetching and starting (R298, R299, R348, R355, R372): an engine that fetches takes the descriptor at the head of its slot's queue; a running
command lets the next one be preloaded; a command that is ready starts, a TENSOR with the jobs of its schedule where they pass its checks and it
ends with the first failure where they do not; halves sleep and wake. -/
def Obligations.FetchingAndStarting : Prop :=
  ∀ (s : State) (e : Nat), s.Inv →
    (∀ k n, s.fetches e = true → (s.eng e).preload = none → s.nextSource e = some (.slot k) → (s.slot k).queue = some n →
      (s.eng e).cur = none → (∀ d ∈ s.mbx.destroys, d.queue ≠ n) → ∃ u, exec (.engineFetch e) s = .next u ∧ (u.queue n).head = (s.queue n).head + 1 ∧
        sget 0 (u.eng e).lastServed (s.queue n).cls = k + 1 ∧
        ((u.eng e).cur = none ∨ ∃ c, (u.eng e).cur = some c ∧ c.queue = n ∧ c.seq = (s.queue n).seqOf n ∧ c.startAt = none)) ∧
    (∀ c k n, s.live = true → (s.eng e).cur = some c → (s.eng e).preload = none → c.startAt.isSome = true → (s.eng e).st = .run →
      dNoPreload c.desc = false → s.heldFor e = false → (s.eng e).heldItems = false → s.nextSource e = some (.slot k) →
      (s.slot k).queue = some n →
      ∃ u p, exec (.preload e) s = .next u ∧ (u.eng e).preload = some p ∧ p.cmd.queue = n ∧ p.cmd.seq = (s.queue n).seqOf n ∧
        p.cmd.startAt = none ∧ (u.queue n).head = (s.queue n).head + 1 ∧ (u.eng e).cur = some c) ∧
    (∀ c early jobs, s.live = true → (s.eng e).cur = some c → (s.eng e).st = .prep → c.ready = true → dOp c.desc < 0x10 →
      (takesSched (kindOf e) (dOp c.desc) = true → s.halvesRun e = true ∧ s.claimWaits e c = false) →
      (8 ≤ e ∨ dOp c.desc ≠ opTensor → ∃ u, exec (.startMarker e early jobs) s = .next u ∧
        (u.eng e).cur = some { c with
          early := early.filter (fun i => (c.named e).contains i), startAt := some s.hclk, yclk0 := (s.halvesOf e).map (fun d => (s.rclk d).yclk) } ∧
        (u.eng e).st = if c.draining then .drain else .run) ∧
      (e < 8 → dOp c.desc = opTensor → s.jobsOk e c jobs = true → s.tensorCheck (s.tensorCtx e c) jobs = none →
        ∃ u, exec (.startMarker e early jobs) s = .next u ∧
        (u.eng e).cur = some { c with
          early := early.filter (fun i => (c.named e).contains i), jobs := jobs, startAt := some s.hclk,
          yclk0 := (s.halvesOf e).map (fun d => (s.rclk d).yclk) } ∧
        (u.eng e).st = if c.draining then .drain else .run) ∧
      (∀ f, e < 8 → dOp c.desc = opTensor → s.jobsOk e c jobs = true → s.tensorCheck (s.tensorCtx e c) jobs = some f →
        ∃ u, exec (.startMarker e early jobs) s = .next u ∧ (u.eng e).cur = none)) ∧
    (∀ d x, s.engineOf d = some x → s.live = true → (s.half d).pstate = .run → s.hasCommand x = false → s.idleDue d = true →
      ∃ u, exec (.idleEntry d) s = .next u ∧ (u.half d).pstate = .idle ∧ u.yards.spad = s.yards.spad) ∧
    (∀ d, s.live = true → s.sqDown d = true → (s.engineOf d).isSome = true → (s.half d).farrier = false →
      ∃ u, exec (.wake d) s = .next u ∧ (u.half d).pstate = .run ∧ (u.half d).waking = false ∧
        ((s.half d).pstate = .retain → u.yards.spad = s.yards.spad) ∧
        ((s.half d).pstate = .off → ∀ p r o, p < 66 → r < 64 → o < spadBytes → sget 0 u.yards.spad (spadKey (physNum d p r) o) = 0))

/-- Timeouts (R374, R389): a command past its time of a queue of policy KILL is killed; one that is neither an anneal nor a rotate drains; a drained
command that still runs at its bound is killed. -/
def Obligations.TimeoutsEndCommands : Prop :=
  ∀ (s : State) (e : Nat) (c : Cmd) (a : Progress), s.Inv → s.live = true → (s.eng e).cur = some c →
    (s.timedOut c = true → (s.queue c.queue).kills = true → ∃ u, exec (.queueTimeout e a) s = .next u ∧ (u.eng e).cur = none) ∧
    (s.timedOut c = true → (s.queue c.queue).kills = false → dOp c.desc ≠ opWait → dOp c.desc ≠ opAnneal → dOp c.desc ≠ opResume →
      dOp c.desc ≠ opRotate → ∃ u, exec (.queueTimeout e a) s = .next u ∧ (u.eng e).cur = some { c with draining := true, ownTimeout := true } ∧
        ((s.eng e).st = .run → (u.eng e).st = .drain)) ∧
    (c.draining = true → s.drainEnd c ≤ s.hclk → ∃ u, exec (.drainTimeout e a) s = .next u ∧ (u.eng e).cur = none)

/-- Windows and slots (R385, R386, R390, R425, R506): an accounting window that ends resets the charges of its engine; at a mapping point a queue that
does not wait is given no slot, and one that waits alone is given the first free slot; a LEAVING slot that is quiet takes its next queue; a repair
window opens at the boundary and holds the fetch, and a granted one closes at its last tick. -/
def Obligations.WindowsAndSlots : Prop :=
  ∀ (s : State) (e k : Nat), s.Inv →
    (s.present e = true → (s.eng e).windowStart + 2 ^ 20 ≤ s.hclk → ∃ u, exec (.accountWindow e) s = .next u ∧
      (u.eng e).windowStart = (s.eng e).windowStart + 2 ^ 20 ∧ (u.eng e).kernelCharge = 0 ∧
      ∀ n, (u.queue n) = if (s.queue n).engine = e then { s.queue n with charge := 0 } else s.queue n) ∧
    (s.live = true → s.present e = true → ∃ u, exec (.mappingPoint e) s = .next u ∧ ∀ q, (s.queue q).st ≠ .waiting →
      (s.queue q).slot = none → (u.queue q).slot = none) ∧
    (∀ n, s.live = true → s.present e = true → (s.eng e).st ≠ .disabled → (s.eng e).st ≠ .disabling → s.waitingQueues e = [n] →
      s.mapRule e 1 n = some k → ∃ u, exec (.mappingPoint e) s = .next u ∧
      (u.queue n).st = .mapped ∧ (u.queue n).slot = some k ∧ (u.slot k).queue = some n) ∧
    (∀ o n, s.live = true → (s.slot k).leaving = true → s.slotQuiet k = true → (s.slot k).queue = some o → (s.slot k).next = some n → o ≠ n →
      (s.queue n).st = .waiting → (s.queue o).st = .mapped → (s.eng (s.queue n).engine).st ≠ .disabled →
      (s.eng (s.queue n).engine).st ≠ .disabling →
      ∃ u, exec (.slotHandover k) s = .next u ∧ (u.slot k).queue = some n ∧ (u.slot k).leaving = false ∧ (u.queue n).st = .mapped ∧
        (u.queue n).slot = some k ∧ (u.queue o).slot = none ∧ ((u.queue o).st = .waiting ∨ (u.queue o).st = .idle)) ∧
    (s.live = true → s.windowDue e = true → s.boundary e = true → s.rel.windows.contains e = false →
      ∃ u, exec (.repairWindowOpen e) s = .next u ∧ e ∈ u.rel.windows ∧ (u.eng e).heldItems = true ∧ (u.eng e).preload = none) ∧
    (∀ p, s.perProg k = some p → (s.prog k).windowOpen = true → (s.prog k).windowLeft = 0 → (s.prog k).fired = false → (s.dueTick p).isSome = true →
      ∃ u, exec (.repairWindowClose k) s = .next u ∧ (u.prog k).windowOpen = false ∧ p.eng ∉ u.rel.windows ∧
        (u.eng p.eng).heldItems = false)

/-! ## Hubs and random numbers -/

/-- Heartbeats and the loss of a hub (R513 to R515): a heartbeat is noted; a reported error or 250 µs without one makes H1 active, and counts the
failover; the loss of the standby, or of the last hub, leaves the machine as it is but for that. -/
def Obligations.HubsFailOver : Prop :=
  ∀ (s : State) (c : LossCause), s.Inv →
    (s.hasStandby = true → ∃ u, exec .heartbeat s = .next u ∧ u.hubs = { s.hubs with lastBeat := s.hclk }) ∧
    (s.hasStandby = true → c = .hubError ∨ s.beatsMissed = true → ∃ u, exec (.hubLoss c) s = .next u ∧ u.hubs.active = 1 ∧
      u.hubs.h0Lost = true ∧ u.hubs.standbyOk = false ∧ u.mbx.dbF2h.getLsbD 9 = true ∧ u.fences = s.fences ∧ u.queues = s.queues ∧
      u.count .hub 2 1 = (s.count .hub 2 1 + 1) % 2 ^ 48) ∧
    (s.hubs.standbyOk = true → s.hubs.active < 2 → ∃ u, exec .standbyLost s = .next u ∧ u.hubs.standbyOk = false ∧
      (s.hubs.active = 0 → u.hubs.h1Lost = true) ∧ u.hubs.active = s.hubs.active ∧ u.engines = s.engines) ∧
    (s.hubs.standbyOk = false → ∃ u, exec .hubLostNoStandby s = .next u ∧ u.hubAlive = false ∧ u.engines = s.engines ∧ u.yards = s.yards)

/-- Random numbers (R476, R477, R479, R483, R484, R487): a block of a source that is FATAL or off, or of another length than its source's, changes
nothing; one that fails restarts its source and counts; a start-up block that passes makes its source OK; a block of the active source that passes
clears its failures, is counted, and joins the conditioned blocks where there is room; a due reseed takes two blocks, and is done before a request is
served; the oldest request is served; a read of RNG_DATA0 takes one output at once where nothing waits, else it waits, and at its bound its request is
withdrawn. -/
def Obligations.RandomNumbers : Prop :=
  ∀ (s : State) (hub i : Nat) (bs : List Bool) (who : Requester), s.Inv → hub < 2 → s.rngUp hub = true →
    (i < 2 → ((s.rngHub hub).src i).st = srcFatal ∨ ((s.rngHub hub).src i).st = srcOff → s.rngActive.alarm = false →
      exec (.rngBlock hub i bs) s = .next s) ∧
    (bs.length ≠ ((s.rngHub hub).src i).due → s.rngActive.alarm = false → exec (.rngBlock hub i bs) s = .next s) ∧
    (i < 2 → ((s.rngHub hub).src i).st = srcStarting → (s.rngHub hub).pattern = none → bs.length = 1024 → s.rngActive.alarm = false →
      (rctScan s.img.rng.rct bs ((s.rngHub hub).src i).run ((s.rngHub hub).src i).last false).2.2 = false → aptFails s.img.rng.apt bs = false →
      ∃ u, exec (.rngBlock hub i bs) s = .next u ∧ ((u.rngHub hub).src i).st = srcOk ∧
        ((u.rngHub hub).src i).fails = ((s.rngHub hub).src i).fails ∧ (u.rngHub hub).pool = (s.rngHub hub).pool ∧ u.pmon = s.pmon) ∧
    (i < 2 → ((s.rngHub hub).src i).st = srcOk → (s.rngHub hub).pattern = none → bs.length = 2048 → s.rngActive.alarm = false →
      (rctScan s.img.rng.rct bs ((s.rngHub hub).src i).run ((s.rngHub hub).src i).last false).2.2 = false →
      aptFails s.img.rng.apt (bs.take 1024) = false → aptFails s.img.rng.apt (bs.drop 1024) = false →
      ∃ u, exec (.rngBlock hub i bs) s = .next u ∧ ((u.rngHub hub).src i).st = srcOk ∧ ((u.rngHub hub).src i).fails = 0 ∧
        ((s.rngHub hub).activeSrc = i → (s.rngHub hub).switchTo = none → u.count .hub hub 0 = (s.count .hub hub 0 + 1) % 2 ^ 48 ∧
          ((s.rngHub hub).seeded = true → (u.rngHub hub).pool =
            if (s.rngHub hub).pool.length < 4 then (s.rngHub hub).pool ++ [condition bs] else (s.rngHub hub).pool))) ∧
    (i < 2 → ((s.rngHub hub).src i).st = srcOk ∨ ((s.rngHub hub).src i).st = srcStarting → (s.rngHub hub).pattern = none →
      bs.length = ((s.rngHub hub).src i).due →
      (rctScan s.img.rng.rct bs ((s.rngHub hub).src i).run ((s.rngHub hub).src i).last false).2.2 = true →
      ∃ u, exec (.rngBlock hub i bs) s = .next u ∧ ((u.rngHub hub).src i).fails = min (((s.rngHub hub).src i).fails + 1) 3 ∧
        ((u.rngHub hub).src i).st = (if 2 ≤ ((s.rngHub hub).src i).fails then srcFatal else srcStarting) ∧
        (u.rngHub hub).pool = (s.rngHub hub).pool) ∧
    ((s.rngHub hub).due s.img.rng = true → (s.rngHub hub).canReseed = true → ∃ u, exec (.reseed hub) s = .next u ∧
      (u.rngHub hub).count = 0 ∧ (u.rngHub hub).pool = (s.rngHub hub).pool.drop 2) ∧
    ((s.rngHub hub).waiting ≠ [] → s.hubs.active = hub → s.reseedFirst hub = true → (s.rngHub hub).busy ≤ s.hclk →
      ∃ u, exec (.rngRequest hub) s = .next u ∧ (u.rngHub hub).waiting = (s.rngHub hub).waiting ∧ (u.rngHub hub).count = 0) ∧
    (∀ t rest, (s.rngHub hub).waiting = (.host, t) :: rest → s.hubs.active = hub → s.rngServes hub = true →
      ∃ u w, exec (.rngRequest hub) s = .next u ∧ (u.rngHub hub).waiting = rest ∧ u.ports.resp = .value w ∧ w.getLsbD 0 = true ∧
        u.rng.hostWaits = none) ∧
    (s.hubAlive = true → s.pwr.mod ≠ .safe → s.dataWaits who = none → s.hubs.active = hub → (s.rngHub hub).waiting = [] →
      s.rngServes hub = true → ∃ u w, exec (.rngData0 who) s = .next u ∧ u.ports.resp = .value w ∧ w.getLsbD 0 = true ∧
        (u.rngHub hub).waiting = []) ∧
    (s.hubAlive = true → s.pwr.mod ≠ .safe → s.dataWaits who = none → s.hubs.active = hub →
      s.rngServes hub = false ∨ (s.rngHub hub).waiting ≠ [] →
      ∃ u, exec (.rngData0 who) s = .next u ∧ u.ports.resp = .waits ∧
        (u.rngHub hub).waiting = ((s.rngHub hub).enqueue (readUser who) s.hclk).waiting ∧ u.dataWaits who = some s.hclk) ∧
    (∀ t, s.dataWaits who = some t → t + 20 * hclkPerUs ≤ s.hclk → s.hubs.active = hub →
      ∃ u w, exec (.rngDataBound who) s = .next u ∧ u.dataWaits who = none ∧ (∀ w ∈ (u.rngHub hub).waiting, w.1 ≠ readUser who) ∧
        u.ports.resp = .value w ∧ w.getLsbD 0 = false)

/-! ## Requests to Prephor -/

/-- Requests about queues and pages (R380, R392, R393, R400, R469, R471): each leaves the line with its reply, where none is tried there; a create makes an IDLE queue with nothing in
it; a budget sets what it names; a destroy of a queue with nothing running frees it; MAP over the quota maps nothing and no MAP
changes an entry that is valid, and UNMAP leaves every page of another owner. -/
def Obligations.QueueAndPageRequests : Prop :=
  ∀ (s : State) (r : Req), s.Inv →
    (∀ n, s.headReq rqCreate = some r → s.createTarget r.mbx (mBody r.msg) = .ok n →
      ∃ u, exec .queueCreate s = .next u ∧ s.leftLine u r ∧ u.queue n = s.newQueue (mBody r.msg) r.mbx ∧ (u.queue n).st = .idle ∧
        (u.queue n).head = 0 ∧ (u.queue n).tail = 0 ∧ (u.queue n).done = 0 ∧ ∀ m, m ≠ n → u.queue m = s.queue m) ∧
    (∀ rc, s.headReq rqCreate = some r → s.createTarget r.mbx (mBody r.msg) = .error rc →
      ∃ u, exec .queueCreate s = .next u ∧ s.leftLine u r ∧ u.queues = s.queues) ∧
    (s.headReq rqBudget = some r → ∃ u, exec .queueBudget s = .next u ∧ s.leftLine u r ∧
      (fld (mBody r.msg) 2 1 = 3 → (s.budget r.mbx (mBody r.msg)).1 = rcOk →
        u.queue (fld (mBody r.msg) 0 2) = { s.queue (fld (mBody r.msg) 0 2) with
          pages := fld (mBody r.msg) 4 4, share := fld (mBody r.msg) 8 2 }) ∧
      ((s.budget r.mbx (mBody r.msg)).1 ≠ rcOk → u.queues = s.queues)) ∧
    (∀ a, s.headReq rqDestroy = some r → s.destroyRc r = none → (∀ e, (s.eng e).cur = none ∧ (s.eng e).preload = none ∧ (s.eng e).waits = [] ∧
        (s.eng e).chain = []) → s.mbx.privs = [] → s.mbx.destroys = [] →
      ∃ u, exec (.queueDestroy a) s = .next u ∧ s.leftLine u r ∧ u.queue (fld (mBody r.msg) 0 2) = Queue.reset ∧ u.mbx.destroys = []) ∧
    (s.headReq rqMap = some r → s.rangeRetiring (fld (mBody r.msg) 8 4) (fld (mBody r.msg) 4 4) = false →
      ∃ u, exec .map s = .next u ∧ s.leftLine u r ∧
        ((s.queue (fld (mBody r.msg) 0 2)).pages < (s.queue (fld (mBody r.msg) 0 2)).usePages + fld (mBody r.msg) 4 4 →
          u.img.xlat = s.img.xlat) ∧
        ∀ v, (s.xlat v).valid = true → u.xlat v = s.xlat v) ∧
    (s.headReq rqUnmap = some r → s.rangeRetiring (fld (mBody r.msg) 8 4) (fld (mBody r.msg) 4 4) = false →
      ∃ u, exec .unmap s = .next u ∧ s.leftLine u r ∧
        ∀ v, (s.xlat v).owner ≠ some (fld (mBody r.msg) 0 2) → u.xlat v = s.xlat v)

/-- The other requests (R372, R373, R469, R470, R475, R507): each leaves the line, where no reply is tried there; a disabled engine takes no more commands and an enabled one is IDLE
again; a list and a status change nothing of the machine; FAILOVER makes H1 active. -/
def Obligations.OtherRequests : Prop :=
  ∀ (s : State) (r : Req), s.Inv →
    (s.headReq rqDisable = some r → s.engineRc (fld (mBody r.msg) 0 1) = none → ∃ u, exec .engineDisable s = .next u ∧ s.leftLine u r ∧
      ((u.eng (fld (mBody r.msg) 0 1)).st = .disabled ∨ (u.eng (fld (mBody r.msg) 0 1)).st = .disabling) ∧
      u.fetches (fld (mBody r.msg) 0 1) = false) ∧
    (s.headReq rqEnable = some r → s.engineRc (fld (mBody r.msg) 0 1) = none → ∃ u, exec .engineEnable s = .next u ∧ s.leftLine u r ∧
      ((s.eng (fld (mBody r.msg) 0 1)).st = .disabled → (u.eng (fld (mBody r.msg) 0 1)).st = .idle)) ∧
    (∀ rc, s.headReq rqEnable = some r → s.engineRc (fld (mBody r.msg) 0 1) = some rc → ∃ u, exec .engineEnable s = .next u ∧
      s.leftLine u r ∧ u.engines = s.engines) ∧
    (s.headReq rqRepairList = some r → ∃ u, exec .repairList s = .next u ∧ s.leftLine u r ∧ u.rel = s.rel ∧ u.queues = s.queues) ∧
    (s.statusReq = some r → ∃ u, exec .hubStatus s = .next u ∧ s.leftLine u r ∧ u.hub = s.hub ∧ u.hubs = s.hubs) ∧
    (s.headReq rqFailover = some r → s.hasStandby = true → ∃ u, exec .failover s = .next u ∧ s.leftLine u r ∧ u.hubs.active = 1 ∧
      u.hubs.h0Lost = true)

/-! ## Nolonlink -/

/-- Frames (R438, R440, R445 to R449): a frame in order is accepted once, a repeat is dropped, and one that is missing starts a NAK; a NAK lets every kept
frame from its SEQ go again; an acknowledgement clears what it covers; an item leaves its queue as whole frames for the channel's positions; and a read
takes the newest item up to its tag. -/
def Obligations.LinkFrames : Prop :=
  ∀ (s : State) (p : Nat) (f : LinkFrame) (n : Nat), s.Inv → (s.link p).st = .up →
    (f.crcOk = true → f.type = 1 ∨ f.type = 2 → f.seq % 2 ^ 32 = (s.link p).expSeq →
      ∃ u, exec (.dataFrameRx p f) s = .next u ∧ (u.link p).expSeq = seqAdd (s.link p).expSeq 1 ∧ (u.link p).nakOut = false) ∧
    (f.crcOk = true → f.type = 1 ∨ f.type = 2 → f.seq % 2 ^ 32 ≠ (s.link p).expSeq →
      ∃ u, exec (.dataFrameRx p f) s = .next u ∧ (u.link p).expSeq = (s.link p).expSeq ∧ (u.link p).rx = (s.link p).rx ∧
        (seqLe (s.link p).expSeq f.seq = true → (u.link p).nakOut = true)) ∧
    (f.crcOk = false → (s.link p).badRun + 1 < 256 → (s.link p).badCtl < 3 → ∃ u, exec (.dataFrameRx p f) s = .next u ∧
      (u.link p).nakOut = ((s.link p).nakOut || f.type != 3) ∧
      (u.link p).badRun = (s.link p).badRun + 1 ∧ (u.link p).expSeq = (s.link p).expSeq) ∧
    (∃ u, exec (.nak p n) s = .next u ∧ u.count .link p 0 = (s.count .link p 0 + 1) % 2 ^ 48 ∧
      (u.link p).replays = ((s.link p).sent.filter (fun x => seqLe n x.seq)).map (fun x => { x with type := 2 }) ∧
      (u.link p).sent = (s.link p).sent ∧ (u.link p).expSeq = (s.link p).expSeq) ∧
    (∃ u, exec (.ackSeq p n) s = .next u ∧ ∀ x ∈ (u.link p).unacked, seqLe x.seq n = false) ∧
    (∀ x rest, ((s.link p).txChan n).open_ = true → ((s.link p).txChan n).queue = x :: rest →
      ∃ u, exec (.txItemSend p n) s = .next u ∧ ((u.link p).txChan n).queue = rest ∧
      ((u.link p).txChan n).going = ((s.link p).txChan n).going ++ [⟨x, itemFrames n x⟩] ∧ (u.link p).nextSeq = (s.link p).nextSeq) ∧
    (∀ t x who, newestUpTo t ((s.link p).rxChan n).items = some x → ∃ u, exec (.linkReadRequest p n t who) s = .next u ∧
      (u.link p).reply = [toFlits x.flits] ∧ (x.tag = t → u.pmon = s.pmon ∧ u.engines = s.engines))

/-- Lanes and training (R436, R437, R441, R442, R462, R524): the words of a frame content make it up again from its 96 logical lanes; a faulty lane is answered with the lowest spare, and from its slot on the map holds the spare
instead; a port goes down, retrains with SEQ at 0, and listens where it has no peer. -/
def Obligations.LinkLanesAndTraining : Prop :=
  ∀ (s : State) (p i j n : Nat) (m : BitVec 108), s.Inv →
    ((s.link p).st = .up → (s.link p).txMap.getLsbD i = true → (s.link p).swapOut = [] →
      (upto 108).find? (fun x => !(s.link p).txMap.getLsbD x) = some j →
      ∃ u f, exec (.laneFault p i) s = .next u ∧ (u.link p).swapOut = [(i, j, f)] ∧ f % 16 = 0 ∧
        nextControl (s.slotNow p) + 64 ≤ f ∧ f < nextControl (s.slotNow p) + 80) ∧
    ((s.link p).st = .up → ∃ u, exec (.laneSwap p i j n) s = .next u ∧ (i, j, n) ∈ (u.link p).swapIn) ∧
    ((s.link p).swapOut = [(i, j, n)] → n ≤ s.slotNow p → i < 108 → j < 108 → i ≠ j → s.rel.patches = [] →
      ∃ u, exec (.laneSwapSlot p) s = .next u ∧ (u.link p).swapOut = [] ∧ (u.link p).txMap.getLsbD i = false ∧
        (u.link p).txMap.getLsbD j = true ∧ u.count .link p 1 = (s.count .link p 1 + 1) % 2 ^ 48) ∧
    ((s.link p).swapOut = [] → (s.link p).swapIn = [(i, j, n)] → ∃ u, exec (.laneSwapSlot p) s = .next u ∧ (u.link p).swapIn = [] ∧
      (u.link p).rxMap = laneFor (s.link p).rxMap i j) ∧
    (∃ u, exec (.mapMessage p m) s = .next u ∧ u.link p = { s.link p with rxMap := m }) ∧
    ((s.link p).st = .up → ∃ u, exec (.linkDown p) s = .next u ∧ (u.link p).st = .down) ∧
    (s.pwr.mod ≠ .safe → (s.link p).st = .down ∨ (s.link p).st = .training → s.rel.patches = [] →
      ∃ u, exec (.linkRetrained p m) s = .next u ∧ (u.link p).st = .up ∧ (u.link p).nextSeq = 0 ∧ (u.link p).expSeq = 0 ∧
        (u.link p).rxMap = m ∧ (u.link p).txMap = sget 0 s.img.net.laneMaps p ∧ (u.link p).unacked = [] ∧
        (u.link p).mapOut = true ∧ u.slotNow p = 0) ∧
    ((s.link p).st = .down ∨ (s.link p).st = .training → ∃ u, exec (.noPeerTimeout p) s = .next u ∧
      u.link p = { s.link p with st := .noPeer }) ∧
    ((s.link p).st = .noPeer → ∃ u, exec (.receiveSignal p) s = .next u ∧ u.link p = { s.link p with st := .training }) ∧
    (∀ content : Bytes, content.length = 4992 → ofLanes ((upto 96).map (laneWords content)) = content ∧
      ∀ j, j < 96 → (laneWords content j).length = 26)
end

