-- ==== Sys2Proof/Laws/Events.lean ====
section
/-! SUPPORT. The event FIFO: its length and its head under every operation (R536, R537, R541, R543). -/
namespace Sys2Proof.Machine

theorem ack_length (now : Nat) (v : Evr) (a : Nat) : (v.ack now a).recs.length ≤ v.recs.length := List.length_filter_le _ _
theorem ack_head (now : Nat) (v : Evr) (a : Nat) : (v.ack now a).head = v.head := rfl

theorem acks_length (now : Nat) (xs : List Nat) (v : Evr) : (xs.foldl (Evr.ack now) v).recs.length ≤ v.recs.length := by
  induction xs generalizing v with
  | nil => exact Nat.le_refl _
  | cons a xs ih => exact Nat.le_trans (ih _) (ack_length now v a)

theorem acks_head (now : Nat) (xs : List Nat) (v : Evr) : (xs.foldl (Evr.ack now) v).head = v.head := by
  induction xs generalizing v with
  | nil => rfl
  | cons a xs ih => exact ih _

theorem thaw_length (now : Nat) (v : Evr) : (v.thaw now).recs.length ≤ v.recs.length := acks_length now v.heldAcks v
theorem thaw_head (now : Nat) (v : Evr) : (v.thaw now).head = v.head := acks_head now v.heldAcks v

@[simp] theorem order_length (v : Evr) : v.order.recs.length = v.recs.length := List.length_map _
@[simp] theorem order_head (v : Evr) : v.order.head = v.head := rfl

/-- Placing an event never leaves more than 1,024 records and never takes the head back. -/
theorem place_ok (v : Evr) (id sev dom arg n now : Nat) (regs : List Word) :
    (v.place id sev dom arg n now regs).1.recs.length ≤ max v.recs.length 1024 ∧ v.head ≤ (v.place id sev dom arg n now regs).1.head := by
  unfold Evr.place
  dsimp only
  split
  · simp only [List.length_set]; exact ⟨Nat.le_max_left _ _, Nat.le_refl _⟩
  · split
    · exact ⟨Nat.le_max_left _ _, Nat.le_refl _⟩
    · split
      · simp only [order_length, order_head, List.length_append, List.length_cons, List.length_nil]
        exact ⟨by omega, by omega⟩
      · split
        · simp only [order_length, order_head, List.length_set]; exact ⟨Nat.le_max_left _ _, by omega⟩
        · exact ⟨Nat.le_max_left _ _, Nat.le_refl _⟩

end Sys2Proof.Machine
end

