-- ==== Sys2Proof/Laws/Sparse.lean ====
section
/-!
SUPPORT. The laws of the keyed tables: a read after a write, every other key untouched, the canonical form kept.
-/
namespace Sys2Proof.Machine

variable {α : Type}

/-! ## One key -/

@[simp] theorem sget_nil (d : α) (k : Nat) : sget d [] k = d := rfl

@[simp] theorem sget_sput_same (d : α) (m : Sparse α) (k : Nat) (v : α) : sget d (sput m k v) k = v := by
  induction m with
  | nil => simp [sput, sget]
  | cons x m ih =>
    obtain ⟨j, w⟩ := x
    simp only [sput]
    split
    · simp [sget]
    · split
      · simp [sget]
      · have hne : j ≠ k := fun h => by omega
        simp [sget, hne, ih]

theorem sget_sput_ne (d : α) (m : Sparse α) (k j : Nat) (v : α) (h : j ≠ k) : sget d (sput m k v) j = sget d m j := by
  induction m with
  | nil => simp [sput, sget, Ne.symm h]
  | cons x m ih =>
    obtain ⟨i, w⟩ := x
    simp only [sput]
    split
    · simp [sget, Ne.symm h]
    · split
      · next hk =>
          subst hk
          simp [sget, Ne.symm h]
      · simp only [sget]
        split
        · rfl
        · exact ih

theorem sget_sdel_ne (d : α) (m : Sparse α) (k j : Nat) (h : j ≠ k) : sget d (sdel m k) j = sget d m j := by
  induction m with
  | nil => rfl
  | cons x m ih =>
    obtain ⟨i, w⟩ := x
    simp only [sdel]
    split
    · next hk =>
        subst hk
        simp [sget, Ne.symm h]
    · simp only [sget]
      split
      · rfl
      · exact ih

/-- Nothing is listed for a key below every key of a table. -/
theorem sget_of_sabove (d : α) (m : Sparse α) (k : Nat) (h : sabove k m = true) : sget d m k = d := by
  induction m with
  | nil => rfl
  | cons x m ih =>
    obtain ⟨i, w⟩ := x
    simp only [sabove, Bool.and_eq_true, decide_eq_true_eq] at h
    simp only [sget]
    rw [if_neg (by omega)]
    exact ih h.2

theorem sabove_mono (m : Sparse α) (k j : Nat) (h : sabove k m = true) (hj : j ≤ k) : sabove j m = true := by
  induction m with
  | nil => rfl
  | cons x m ih =>
    obtain ⟨i, w⟩ := x
    simp only [sabove, Bool.and_eq_true, decide_eq_true_eq] at h ⊢
    exact ⟨by omega, ih h.2⟩

theorem sabove_sput (m : Sparse α) (k j : Nat) (v : α) (h : sabove j m = true) (hk : j < k) : sabove j (sput m k v) = true := by
  induction m with
  | nil => simp [sput, sabove, hk]
  | cons x m ih =>
    obtain ⟨i, w⟩ := x
    simp only [sabove, Bool.and_eq_true, decide_eq_true_eq] at h
    simp only [sput]
    split
    · simp [sabove, h, hk]
    · split
      · simp [sabove, h, hk]
      · simp [sabove, h, ih h.2]

theorem sabove_sdel (m : Sparse α) (k j : Nat) (h : sabove j m = true) : sabove j (sdel m k) = true := by
  induction m with
  | nil => rfl
  | cons x m ih =>
    obtain ⟨i, w⟩ := x
    simp only [sabove, Bool.and_eq_true, decide_eq_true_eq] at h
    simp only [sdel]
    split
    · exact h.2
    · simp [sabove, h, ih h.2]

variable [DecidableEq α]

theorem sget_sset_ne (d : α) (m : Sparse α) (k j : Nat) (v : α) (h : j ≠ k) : sget d (sset d m k v) j = sget d m j := by
  unfold sset
  split
  · exact sget_sdel_ne d m k j h
  · exact sget_sput_ne d m k j v h

/-! ## The canonical form -/

theorem swf_sput (d : α) (m : Sparse α) (k : Nat) (v : α) (h : swf d m = true) (hv : v ≠ d) : swf d (sput m k v) = true := by
  induction m with
  | nil => simp [sput, swf, sabove, hv]
  | cons x m ih =>
    obtain ⟨i, w⟩ := x
    simp only [swf, Bool.and_eq_true, decide_eq_true_eq] at h
    simp only [sput]
    split
    · next hk => simp [swf, sabove, h, hv, hk, sabove_mono m i k h.1.2 (by omega)]
    · split
      · next hk =>
          subst hk
          simp [swf, h, hv]
      · next hk hne => simp [swf, h, ih h.2, sabove_sput m k i v h.1.2 (by omega)]

theorem swf_sdel (d : α) (m : Sparse α) (k : Nat) (h : swf d m = true) : swf d (sdel m k) = true := by
  induction m with
  | nil => rfl
  | cons x m ih =>
    obtain ⟨i, w⟩ := x
    simp only [swf, Bool.and_eq_true, decide_eq_true_eq] at h
    simp only [sdel]
    split
    · exact h.2
    · simp [swf, h, ih h.2, sabove_sdel m k i h.1.2]

/-- A write keeps the canonical form. -/
theorem swf_sset (d : α) (m : Sparse α) (k : Nat) (v : α) (h : swf d m = true) : swf d (sset d m k v) = true := by
  unfold sset
  split
  · exact swf_sdel d m k h
  · next hv => exact swf_sput d m k v h hv

theorem sget_sdel_same (d : α) (m : Sparse α) (k : Nat) (h : swf d m = true) : sget d (sdel m k) k = d := by
  induction m with
  | nil => rfl
  | cons x m ih =>
    obtain ⟨i, w⟩ := x
    simp only [swf, Bool.and_eq_true, decide_eq_true_eq] at h
    simp only [sdel]
    split
    · next hk =>
        subst hk
        exact sget_of_sabove d m i h.1.2
    · next hk => simp [sget, hk, ih h.2]

/-- A read after a write to the same key gives the value written. -/
theorem sget_sset_same (d : α) (m : Sparse α) (k : Nat) (v : α) (h : swf d m = true) : sget d (sset d m k v) k = v := by
  unfold sset
  split
  · next hv => rw [hv, sget_sdel_same d m k h]
  · simp

/-! ## Runs of keys -/

/-- A run of writes keeps the canonical form. -/
theorem swf_swrite (d : α) (m : Sparse α) (a : Nat) (vs : List α) (h : swf d m = true) : swf d (swrite d m a vs) = true := by
  induction vs generalizing m a with
  | nil => exact h
  | cons v vs ih => exact ih _ _ (swf_sset d m a v h)

/-- A run of writes leaves every key outside it alone. -/
theorem sget_swrite_ne (d : α) (m : Sparse α) (a k : Nat) (vs : List α) (h : k < a ∨ a + vs.length ≤ k) :
    sget d (swrite d m a vs) k = sget d m k := by
  induction vs generalizing m a with
  | nil => rfl
  | cons v vs ih =>
    simp only [List.length_cons] at h
    rw [swrite, ih _ _ (by omega), sget_sset_ne d m a k v (by omega)]

theorem sread_swrite_below (d : α) (m : Sparse α) (a b n : Nat) (vs : List α) (h : b + n ≤ a) :
    sread d (swrite d m a vs) b n = sread d m b n := by
  induction n generalizing b with
  | zero => rfl
  | succ n ih => rw [sread, sread, sget_swrite_ne d m a b vs (by omega), ih _ (by omega)]

/-- A run of reads after the same run of writes gives the values written. -/
theorem sread_swrite_same (d : α) (m : Sparse α) (a : Nat) (vs : List α) (h : swf d m = true) :
    sread d (swrite d m a vs) a vs.length = vs := by
  induction vs generalizing m a with
  | nil => rfl
  | cons v vs ih =>
    have hh : sget d (swrite d (sset d m a v) (a + 1) vs) a = v := by
      rw [sget_swrite_ne d _ (a + 1) a vs (by omega), sget_sset_same d m a v h]
    rw [List.length_cons, sread, swrite, hh, ih _ _ (swf_sset d m a v h)]

omit [DecidableEq α] in
@[simp] theorem length_sread (d : α) (m : Sparse α) (a n : Nat) : (sread d m a n).length = n := by
  induction n generalizing a with
  | zero => rfl
  | succ n ih => simp [sread, ih]

/-! ## Whole tables -/

omit [DecidableEq α] in
theorem sabove_filter (p : Nat × α → Bool) (k : Nat) (m : Sparse α) (h : sabove k m = true) : sabove k (m.filter p) = true := by
  induction m with
  | nil => rfl
  | cons x m ih =>
    obtain ⟨i, w⟩ := x
    simp only [sabove, Bool.and_eq_true] at h
    simp only [List.filter_cons]
    split
    · simp [sabove, h, ih h.2]
    · exact ih h.2

/-- Leaving entries out keeps the canonical form. -/
theorem swf_filter (d : α) (p : Nat × α → Bool) (m : Sparse α) (h : swf d m = true) : swf d (m.filter p) = true := by
  induction m with
  | nil => rfl
  | cons x m ih =>
    obtain ⟨i, w⟩ := x
    simp only [swf, Bool.and_eq_true] at h
    simp only [List.filter_cons]
    split
    · simp [swf, h, ih h.2, sabove_filter p i m h.1.2]
    · exact ih h.2

theorem swf_swipe (d : α) (lo hi : Nat) (m : Sparse α) (h : swf d m = true) : swf d (swipe lo hi m) = true := swf_filter d _ m h

theorem sabove_smap (d : α) (f : α → α) (k : Nat) (m : Sparse α) (h : sabove k m = true) : sabove k (smap d f m) = true := by
  induction m with
  | nil => rfl
  | cons x m ih =>
    obtain ⟨i, w⟩ := x
    simp only [sabove, Bool.and_eq_true] at h
    simp only [smap]
    split
    · exact ih h.2
    · simp [sabove, h, ih h.2]

/-- A change of every value keeps the canonical form. -/
theorem swf_smap (d : α) (f : α → α) (m : Sparse α) (h : swf d m = true) : swf d (smap d f m) = true := by
  induction m with
  | nil => rfl
  | cons x m ih =>
    obtain ⟨i, w⟩ := x
    simp only [swf, Bool.and_eq_true] at h
    simp only [smap]
    split
    · exact ih h.2
    · next hv => simp [swf, ih h.2, sabove_smap d f i m h.1.2, hv]

/-- A fold of writes keeps the canonical form. -/
theorem swf_foldl {β : Type} (d : α) (f : Sparse α → β → Sparse α) (hf : ∀ m x, swf d m = true → swf d (f m x) = true) (xs : List β)
    (m : Sparse α) (h : swf d m = true) : swf d (xs.foldl f m) = true := by
  induction xs generalizing m with
  | nil => exact h
  | cons x xs ih => exact ih _ (hf _ _ h)

/-- A run of reads elsewhere after a run of writes. -/
theorem sread_swrite_above (d : α) (m : Sparse α) (a b n : Nat) (vs : List α) (h : a + vs.length ≤ b) :
    sread d (swrite d m a vs) b n = sread d m b n := by
  induction n generalizing b with
  | zero => rfl
  | succ n ih => rw [sread, sread, sget_swrite_ne d m a b vs (by omega), ih _ (by omega)]

/-! ## Values of a table -/

/-- Every listed value meets `p`. -/
def sall (p : α → Bool) (m : Sparse α) : Bool := m.all (fun x => p x.2)

omit [DecidableEq α] in
theorem sall_sput (p : α → Bool) (m : Sparse α) (k : Nat) (v : α) (h : sall p m = true) (hv : p v = true) :
    sall p (sput m k v) = true := by
  induction m with
  | nil => simp [sput, sall, hv]
  | cons x m ih =>
    obtain ⟨i, w⟩ := x
    simp only [sall, List.all_cons, Bool.and_eq_true] at h ih ⊢
    simp only [sput]
    split
    · simp [hv, h]
    · split
      · simp [hv, h]
      · simp only [List.all_cons, Bool.and_eq_true]
        exact ⟨h.1, ih h.2⟩

omit [DecidableEq α] in
theorem sall_sdel (p : α → Bool) (m : Sparse α) (k : Nat) (h : sall p m = true) : sall p (sdel m k) = true := by
  induction m with
  | nil => rfl
  | cons x m ih =>
    obtain ⟨i, w⟩ := x
    simp only [sall, List.all_cons, Bool.and_eq_true] at h ih ⊢
    simp only [sdel]
    split
    · exact h.2
    · simp only [List.all_cons, Bool.and_eq_true]
      exact ⟨h.1, ih h.2⟩

theorem sall_sset (p : α → Bool) (d : α) (m : Sparse α) (k : Nat) (v : α) (h : sall p m = true) (hv : p v = true) :
    sall p (sset d m k v) = true := by
  unfold sset
  split
  · exact sall_sdel p m k h
  · exact sall_sput p m k v h hv

omit [DecidableEq α] in
theorem sget_of_sall (p : α → Bool) (d : α) (m : Sparse α) (k : Nat) (h : sall p m = true) (hd : p d = true) :
    p (sget d m k) = true := by
  induction m with
  | nil => exact hd
  | cons x m ih =>
    obtain ⟨i, w⟩ := x
    simp only [sall, List.all_cons, Bool.and_eq_true] at h ih
    simp only [sget]
    split
    · exact h.1
    · exact ih h.2

end Sys2Proof.Machine
end

