-- ==== Sys2Proof/Laws/Keep.lean ====
section
/-!
SUPPORT. What no operation of the machine does: it leaves the queue of commands alone, breaks no canonical form, takes no
fence back, and leaves SAFE or PFAIL nowhere but at MRST#.  `Keeps P o s` says so of a state `s` that an operation reached
from `o`; the parts under `P` hold of every command but MRST_PULSE.
-/
namespace Sys2Proof.Machine

/-- The invariant, part by part. -/
structure Flat (s : State) : Prop where
  data : swf 0 s.mem.data = true
  spad : swf 0 s.yards.spad = true
  flash : swf flashErased s.flash = true
  host : swf 0 s.ports.hostMem = true
  engines : swf Engine.reset s.engines = true
  queues : swf Queue.reset s.queues = true
  slots : swf Slot.reset s.slots = true
  fences : swf 0 s.fences = true
  halves : swf Half.reset s.yards.halves = true
  cores : swf Core.reset s.yards.cores = true
  sheds : swf Shed.reset s.mem.sheds = true
  links : swf LinkPort.reset s.links = true
  progs : swf Program.reset s.per.progs = true
  ports : swf DrivePort.reset s.per.ports = true
  h2f : swf H2f.reset s.mbx.h2f = true
  f2h : swf F2h.reset s.mbx.f2h = true
  rng : swf RngHub.reset s.rng.hubs = true
  topo : swf TopoHalf.reset s.img.topo = true
  recs : swf ShedRec.reset s.img.sheds = true
  xlat : swf Xlat.reset s.img.xlat = true
  pmon : swf 0 s.pmon = true
  counts : sall (fun n => decide (n < 2 ^ 48)) s.pmon = true
  events : s.evr.recs.length ≤ 1024

theorem flat_iff (s : State) : Flat s ↔ s.Inv := by
  constructor
  · intro h
    refine ⟨?_, ?_, ?_, ?_, h.events⟩
    · simp only [Memory.wf, Bool.and_eq_true]
      exact ⟨⟨⟨h.data, h.spad⟩, h.flash⟩, h.host⟩
    · simp only [State.unitsWf, Bool.and_eq_true]
      exact ⟨⟨⟨h.engines, h.queues⟩, h.slots⟩, h.fences⟩
    · simp only [State.partsWf, Bool.and_eq_true]
      exact ⟨⟨⟨⟨⟨⟨⟨⟨⟨⟨⟨h.halves, h.cores⟩, h.sheds⟩, h.links⟩, h.progs⟩, h.ports⟩, h.h2f⟩, h.f2h⟩, h.rng⟩, h.topo⟩, h.recs⟩, h.xlat⟩
    · simp only [State.countersOk, Bool.and_eq_true]
      exact ⟨h.pmon, h.counts⟩
  · rintro ⟨hm, hu, hp, hc, he⟩
    simp only [Memory.wf, State.unitsWf, State.partsWf, State.countersOk, Bool.and_eq_true] at hm hu hp hc
    obtain ⟨⟨⟨m1, m2⟩, m3⟩, m4⟩ := hm
    obtain ⟨⟨⟨u1, u2⟩, u3⟩, u4⟩ := hu
    obtain ⟨⟨⟨⟨⟨⟨⟨⟨⟨⟨⟨p1, p2⟩, p3⟩, p4⟩, p5⟩, p6⟩, p7⟩, p8⟩, p9⟩, p10⟩, p11⟩, p12⟩ := hp
    exact ⟨m1, m2, m3, m4, u1, u2, u3, u4, p1, p2, p3, p4, p5, p6, p7, p8, p9, p10, p11, p12, hc.1, hc.2, he⟩

/-- A state `s` that operations of one command reached from `o`; `W` holds of the parts that they may write. -/
structure Keeps (P : Prop) (W : Part → Prop) (o s : State) : Prop where
  pending : s.pending = o.pending
  grade : s.pwr.grade = o.pwr.grade
  flat : Flat s
  fence : P → ∀ f, (o.fence f).toNat ≤ (s.fence f).toNat
  head : P → o.evr.head ≤ s.evr.head
  safe : P → o.pwr.mod = .safe → s.pwr.mod = .safe ∨ s.pwr.mod = .pfail
  pfail : P → o.pwr.mod = .pfail → s.pwr.mod = .pfail
  lost0 : P → o.pwr.mod ≠ .boot → o.hubs.h0Lost = true → s.hubs.h0Lost = true
  lost1 : P → o.pwr.mod ≠ .boot → o.hubs.h1Lost = true → s.hubs.h1Lost = true
  same : ∀ p, ¬W p → p.same o s

variable {P : Prop} {W : Part → Prop} {o s t : State} {α : Type}

theorem Keeps.rfl' (h : Flat o) : Keeps P W o o :=
  ⟨rfl, rfl, h, fun _ _ => Nat.le_refl _, fun _ => Nat.le_refl _, fun _ h => .inl h, fun _ h => h, fun _ _ h => h, fun _ _ h => h,
    fun p _ => by cases p <;> simp [Part.same]⟩

/-- The parts that `Keeps` speaks of are those of another state. -/
theorem Keeps.congr (h : Keeps P W o s) (h1 : t.pending = s.pending) (h2 : t.pwr = s.pwr) (h3 : t.mem.data = s.mem.data)
    (h4 : t.mem.sheds = s.mem.sheds) (h5 : t.yards.spad = s.yards.spad) (h6 : t.yards.halves = s.yards.halves)
    (h7 : t.yards.cores = s.yards.cores) (h8 : t.flash = s.flash) (h9 : t.ports.hostMem = s.ports.hostMem)
    (h10 : t.engines = s.engines) (h11 : t.queues = s.queues) (h12 : t.slots = s.slots) (h13 : t.fences = s.fences)
    (h14 : t.links = s.links) (h15 : t.per.progs = s.per.progs) (h16 : t.per.ports = s.per.ports)
    (h17 : t.mbx.h2f = s.mbx.h2f) (h18 : t.mbx.f2h = s.mbx.f2h) (h19 : t.rng.hubs = s.rng.hubs)
    (h20 : t.img.topo = s.img.topo) (h21 : t.img.sheds = s.img.sheds) (h22 : t.img.xlat = s.img.xlat) (h23 : t.pmon = s.pmon)
    (h24 : t.evr.recs = s.evr.recs) (h25 : t.evr.head = s.evr.head) (h26 : t.hubs = s.hubs)
    (hp : ∀ p, ¬W p → p.same o t) : Keeps P W o t where
  pending := h1 ▸ h.pending
  grade := h2 ▸ h.grade
  flat := ⟨h3 ▸ h.flat.data, h5 ▸ h.flat.spad, h8 ▸ h.flat.flash, h9 ▸ h.flat.host, h10 ▸ h.flat.engines, h11 ▸ h.flat.queues,
    h12 ▸ h.flat.slots, h13 ▸ h.flat.fences, h6 ▸ h.flat.halves, h7 ▸ h.flat.cores, h4 ▸ h.flat.sheds, h14 ▸ h.flat.links,
    h15 ▸ h.flat.progs, h16 ▸ h.flat.ports, h17 ▸ h.flat.h2f, h18 ▸ h.flat.f2h, h19 ▸ h.flat.rng, h20 ▸ h.flat.topo,
    h21 ▸ h.flat.recs, h22 ▸ h.flat.xlat, h23 ▸ h.flat.pmon, h23 ▸ h.flat.counts, h24 ▸ h.flat.events⟩
  fence := by
    intro p f
    have := h.fence p f
    simp only [State.fence, h13] at this ⊢
    exact this
  head := by rw [h25]; exact h.head
  safe := by rw [h2]; exact h.safe
  pfail := by rw [h2]; exact h.pfail
  lost0 := by rw [h26]; exact h.lost0
  lost1 := by rw [h26]; exact h.lost1
  same := hp

/-! ## The parts by number -/

theorem setEng_keeps [Fact (W .engines)] (h : Keeps P W o s) (e x) : Keeps P W o (s.setEng e x) :=
  { h with flat := { h.flat with engines := swf_sset _ _ _ _ h.flat.engines }, same := fun p hp => by cases p <;> first | exact h.same _ hp | exact absurd Fact.out hp }
theorem modEng_keeps [Fact (W .engines)] (h : Keeps P W o s) (e f) : Keeps P W o (s.modEng e f) := setEng_keeps h e _
theorem setQueue_keeps [Fact (W .queues)] (h : Keeps P W o s) (e x) : Keeps P W o (s.setQueue e x) :=
  { h with flat := { h.flat with queues := swf_sset _ _ _ _ h.flat.queues }, same := fun p hp => by cases p <;> first | exact h.same _ hp | exact absurd Fact.out hp }
theorem modQueue_keeps [Fact (W .queues)] (h : Keeps P W o s) (e f) : Keeps P W o (s.modQueue e f) := setQueue_keeps h e _
theorem setSlot_keeps [Fact (W .slots)] (h : Keeps P W o s) (e x) : Keeps P W o (s.setSlot e x) :=
  { h with flat := { h.flat with slots := swf_sset _ _ _ _ h.flat.slots }, same := fun p hp => by cases p <;> first | exact h.same _ hp | exact absurd Fact.out hp }
theorem modSlot_keeps [Fact (W .slots)] (h : Keeps P W o s) (e f) : Keeps P W o (s.modSlot e f) := setSlot_keeps h e _
theorem setHalf_keeps [Fact (W .halves)] (h : Keeps P W o s) (e x) : Keeps P W o (s.setHalf e x) :=
  { h with flat := { h.flat with halves := swf_sset _ _ _ _ h.flat.halves }, same := fun p hp => by cases p <;> first | exact h.same _ hp | exact absurd Fact.out hp }
theorem modHalf_keeps [Fact (W .halves)] (h : Keeps P W o s) (e f) : Keeps P W o (s.modHalf e f) := setHalf_keeps h e _
theorem setCore_keeps [Fact (W .cores)] (h : Keeps P W o s) (e x) : Keeps P W o (s.setCore e x) :=
  { h with flat := { h.flat with cores := swf_sset _ _ _ _ h.flat.cores }, same := fun p hp => by cases p <;> first | exact h.same _ hp | exact absurd Fact.out hp }
theorem modCore_keeps [Fact (W .cores)] (h : Keeps P W o s) (e f) : Keeps P W o (s.modCore e f) := setCore_keeps h e _
theorem setShed_keeps (h : Keeps P W o s) (e x) : Keeps P W o (s.setShed e x) :=
  { h with flat := { h.flat with sheds := swf_sset _ _ _ _ h.flat.sheds }, same := fun p hp => by cases p <;> exact h.same _ hp }
theorem modShed_keeps (h : Keeps P W o s) (e f) : Keeps P W o (s.modShed e f) := setShed_keeps h e _
theorem setShedRec_keeps [Fact (W .img)] (h : Keeps P W o s) (e x) : Keeps P W o (s.setShedRec e x) :=
  { h with flat := { h.flat with recs := swf_sset _ _ _ _ h.flat.recs }, same := fun p hp => by cases p <;> first | exact h.same _ hp | exact absurd Fact.out hp }
theorem setTopo_keeps [Fact (W .img)] (h : Keeps P W o s) (e x) : Keeps P W o (s.setTopo e x) :=
  { h with flat := { h.flat with topo := swf_sset _ _ _ _ h.flat.topo }, same := fun p hp => by cases p <;> first | exact h.same _ hp | exact absurd Fact.out hp }
theorem setXlat_keeps [Fact (W .img)] (h : Keeps P W o s) (e x) : Keeps P W o (s.setXlat e x) :=
  { h with flat := { h.flat with xlat := swf_sset _ _ _ _ h.flat.xlat }, same := fun p hp => by cases p <;> first | exact h.same _ hp | exact absurd Fact.out hp }
theorem setProg_keeps [Fact (W .per)] (h : Keeps P W o s) (e x) : Keeps P W o (s.setProg e x) :=
  { h with flat := { h.flat with progs := swf_sset _ _ _ _ h.flat.progs }, same := fun p hp => by cases p <;> first | exact h.same _ hp | exact absurd Fact.out hp }
theorem modProg_keeps [Fact (W .per)] (h : Keeps P W o s) (e f) : Keeps P W o (s.modProg e f) := setProg_keeps h e _
theorem setPort_keeps [Fact (W .per)] (h : Keeps P W o s) (e x) : Keeps P W o (s.setPort e x) :=
  { h with flat := { h.flat with ports := swf_sset _ _ _ _ h.flat.ports }, same := fun p hp => by cases p <;> first | exact h.same _ hp | exact absurd Fact.out hp }
theorem modPort_keeps [Fact (W .per)] (h : Keeps P W o s) (e f) : Keeps P W o (s.modPort e f) := setPort_keeps h e _
theorem setLink_keeps [Fact (W .links)] (h : Keeps P W o s) (e x) : Keeps P W o (s.setLink e x) :=
  { h with flat := { h.flat with links := swf_sset _ _ _ _ h.flat.links }, same := fun p hp => by cases p <;> first | exact h.same _ hp | exact absurd Fact.out hp }
theorem modLink_keeps [Fact (W .links)] (h : Keeps P W o s) (e f) : Keeps P W o (s.modLink e f) := setLink_keeps h e _
theorem setH2f_keeps (h : Keeps P W o s) (e x) : Keeps P W o (s.setH2f e x) :=
  { h with flat := { h.flat with h2f := swf_sset _ _ _ _ h.flat.h2f }, same := fun p hp => by cases p <;> exact h.same _ hp }
theorem setF2h_keeps (h : Keeps P W o s) (e x) : Keeps P W o (s.setF2h e x) :=
  { h with flat := { h.flat with f2h := swf_sset _ _ _ _ h.flat.f2h }, same := fun p hp => by cases p <;> exact h.same _ hp }
theorem setRngHub_keeps [Fact (W .rng)] (h : Keeps P W o s) (e x) : Keeps P W o (s.setRngHub e x) :=
  { h with flat := { h.flat with rng := swf_sset _ _ _ _ h.flat.rng }, same := fun p hp => by cases p <;> first | exact h.same _ hp | exact absurd Fact.out hp }
theorem modRngHub_keeps [Fact (W .rng)] (h : Keeps P W o s) (e f) : Keeps P W o (s.modRngHub e f) := setRngHub_keeps h e _

/-! ## The parts changed whole -/

theorem modRel_keeps [Fact (W .rel)] (h : Keeps P W o s) (f) : Keeps P W o (s.modRel f) := { h with flat := { h.flat with }, same := fun p hp => by cases p <;> first | exact h.same _ hp | exact absurd Fact.out hp }
theorem modClk_keeps [Fact (W .clk)] (h : Keeps P W o s) (f) : Keeps P W o (s.modClk f) := { h with flat := { h.flat with }, same := fun p hp => by cases p <;> first | exact h.same _ hp | exact absurd Fact.out hp }
theorem modRoute_keeps [Fact (W .route)] (h : Keeps P W o s) (f) : Keeps P W o (s.modRoute f) := { h with flat := { h.flat with }, same := fun p hp => by cases p <;> first | exact h.same _ hp | exact absurd Fact.out hp }

theorem modPwr_keeps [Fact (W .pwr)] (h : Keeps P W o s) (f) (hf : ∀ p, (f p).grade = p.grade ∧ (f p).mod = p.mod) : Keeps P W o (s.modPwr f) :=
  { h with
    same := fun p hp => by cases p <;> first | exact h.same _ hp | exact absurd Fact.out hp
    flat := { h.flat with }
    grade := (hf s.pwr).1.trans h.grade
    safe := fun p q => by rw [State.modPwr, (hf s.pwr).2]; exact h.safe p q
    pfail := fun p q => (hf s.pwr).2.trans (h.pfail p q) }

theorem modMbx_keeps (h : Keeps P W o s) (f) (hf : ∀ m, (f m).h2f = m.h2f ∧ (f m).f2h = m.f2h) : Keeps P W o (s.modMbx f) :=
  h.congr rfl rfl rfl rfl rfl rfl rfl rfl rfl rfl rfl rfl rfl rfl rfl rfl (hf _).1 (hf _).2 rfl rfl rfl rfl rfl rfl rfl rfl
    (fun p hp => by cases p <;> exact h.same _ hp)

theorem modEvr_keeps (h : Keeps P W o s) (f) (hf : ∀ v, (f v).recs.length ≤ max v.recs.length 1024 ∧ v.head ≤ (f v).head) :
    Keeps P W o (s.modEvr f) :=
  { h with
    same := fun p hp => by cases p <;> exact h.same _ hp
    flat := { h.flat with
      events := Nat.le_trans (hf s.evr).1 (Nat.max_le.2 ⟨h.flat.events, Nat.le_refl _⟩) }
    head := fun p => Nat.le_trans (h.head p) (hf s.evr).2 }

theorem modPorts_keeps (h : Keeps P W o s) (f) (hf : ∀ p, (f p).hostMem = p.hostMem) : Keeps P W o (s.modPorts f) :=
  h.congr rfl rfl rfl rfl rfl rfl rfl rfl (hf _) rfl rfl rfl rfl rfl rfl rfl rfl rfl rfl rfl rfl rfl rfl rfl rfl rfl
    (fun p hp => by cases p <;> first | exact h.same _ hp | exact (hf s.ports).trans (h.same _ hp))

theorem modPer_keeps [Fact (W .per)] (h : Keeps P W o s) (f) (hf : ∀ u, (f u).progs = u.progs ∧ (f u).ports = u.ports) : Keeps P W o (s.modPer f) :=
  h.congr rfl rfl rfl rfl rfl rfl rfl rfl rfl rfl rfl rfl rfl rfl (hf _).1 (hf _).2 rfl rfl rfl rfl rfl rfl rfl rfl rfl rfl
    (fun p hp => by cases p <;> first | exact h.same _ hp | exact absurd Fact.out hp)

theorem modYards_keeps (h : Keeps P W o s) (f)
    (hf : ∀ y, (f y).spad = y.spad ∧ (f y).halves = y.halves ∧ (f y).cores = y.cores) : Keeps P W o (s.modYards f) :=
  h.congr rfl rfl rfl rfl (hf _).1 (hf _).2.1 (hf _).2.2 rfl rfl rfl rfl rfl rfl rfl rfl rfl rfl rfl rfl rfl rfl rfl rfl rfl rfl rfl
    (fun p hp => by
      cases p <;> first
        | exact h.same _ hp
        | exact (hf s.yards).1.trans (h.same .spad hp)
        | exact (hf s.yards).2.1.trans (h.same .halves hp)
        | exact (hf s.yards).2.2.trans (h.same .cores hp))

theorem modHubs_keeps [Fact (W .hubs)] (h : Keeps P W o s) (f)
    (hf : ∀ u, (u.h0Lost = true → (f u).h0Lost = true) ∧ (u.h1Lost = true → (f u).h1Lost = true)) : Keeps P W o (s.modHubs f) :=
  { h with
    same := fun p hp => by cases p <;> first | exact h.same _ hp | exact absurd Fact.out hp
    flat := { h.flat with }
    lost0 := fun p q r => (hf s.hubs).1 (h.lost0 p q r)
    lost1 := fun p q r => (hf s.hubs).2 (h.lost1 p q r) }

/-- A change of the hubs in BOOT. -/
theorem modHubs_boot_keeps [Fact (W .hubs)] (h : Keeps P W o s) (hb : P → o.pwr.mod = .boot) (f) : Keeps P W o (s.modHubs f) :=
  { h with
    same := fun p hp => by cases p <;> first | exact h.same _ hp | exact absurd Fact.out hp
    flat := { h.flat with }
    lost0 := fun p q _ => absurd (hb p) q
    lost1 := fun p q _ => absurd (hb p) q }

/-- A change of the scratchpads that keeps their canonical form. -/
theorem modYards_spad_keeps [Fact (W .spad)] (h : Keeps P W o s) (f)
    (hf : ∀ y, (swf 0 y.spad = true → swf 0 (f y).spad = true) ∧ (f y).halves = y.halves ∧ (f y).cores = y.cores) :
    Keeps P W o (s.modYards f) :=
  { h with
    same := fun p hp => by
      cases p <;> first
        | exact h.same _ hp
        | exact absurd Fact.out hp
        | exact (hf s.yards).2.1.trans (h.same .halves hp)
        | exact (hf s.yards).2.2.trans (h.same .cores hp)
    flat := { h.flat with
      spad := (hf _).1 h.flat.spad
      halves := by show swf _ (f s.yards).halves = true; rw [(hf _).2.1]; exact h.flat.halves
      cores := by show swf _ (f s.yards).cores = true; rw [(hf _).2.2]; exact h.flat.cores } }

theorem answer_keeps (h : Keeps P W o s) (r) : Keeps P W o (s.answer r) := modPorts_keeps h _ (fun _ => rfl)

theorem bumpBy_keeps (h : Keeps P W o s) (g i k n) : Keeps P W o (s.bumpBy g i k n) :=
  { h with
    same := fun p hp => by cases p <;> exact h.same _ hp
    flat := { h.flat with
      pmon := swf_sset _ _ _ _ h.flat.pmon
      counts := sall_sset _ _ _ _ _ h.flat.counts (by simp only [decide_eq_true_eq]; exact Nat.mod_lt _ (by decide)) } }
theorem bump_keeps (h : Keeps P W o s) (g i k) : Keeps P W o (s.bump g i k) := bumpBy_keeps h g i k 1

theorem draw_keeps (h : Keeps P W o s) : Keeps P W o s.draw.2 := { h with flat := { h.flat with }, same := fun p hp => by cases p <;> exact h.same _ hp }

/-! ## Memories, tables and fences -/

theorem flash_keeps [Fact (W .flash)] (h : Keeps P W o s) (m) (hm : swf flashErased m = true) : Keeps P W o { s with flash := m } :=
  { h with flat := { h.flat with flash := hm }, same := fun p hp => by cases p <;> first | exact h.same _ hp | exact absurd Fact.out hp }

theorem mem_keeps [Fact (W .data)] (h : Keeps P W o s) (m : Mem) (hd : swf 0 m.data = true) (hs : m.sheds = s.mem.sheds) : Keeps P W o { s with mem := m } :=
  { h with flat := { h.flat with data := hd, sheds := by show swf _ m.sheds = true; rw [hs]; exact h.flat.sheds }, same := fun p hp => by cases p <;> first | exact h.same _ hp | exact absurd Fact.out hp }

theorem hostMem_keeps [Fact (W .host)] (h : Keeps P W o s) (m) (hm : swf 0 m = true) : Keeps P W o (s.modPorts (fun p => { p with hostMem := m })) :=
  { h with flat := { h.flat with host := hm }, same := fun p hp => by cases p <;> first | exact h.same _ hp | exact absurd Fact.out hp }

/-- The tables of an image stand in canonical form. -/
structure Image.Ok (i : Image) : Prop where
  topo : swf TopoHalf.reset i.topo = true
  recs : swf ShedRec.reset i.sheds = true
  xlat : swf Xlat.reset i.xlat = true

theorem img_keeps [Fact (W .img)] (h : Keeps P W o s) (i : Image) (hi : i.Ok) : Keeps P W o { s with img := i } :=
  { h with flat := { h.flat with topo := hi.topo, recs := hi.recs, xlat := hi.xlat }, same := fun p hp => by cases p <;> first | exact h.same _ hp | exact absurd Fact.out hp }

theorem xlat_keeps [Fact (W .img)] (h : Keeps P W o s) (m) (hm : swf Xlat.reset m = true) : Keeps P W o { s with img := { s.img with xlat := m } } :=
  { h with flat := { h.flat with xlat := hm }, same := fun p hp => by cases p <;> first | exact h.same _ hp | exact absurd Fact.out hp }

theorem Keeps.img_ok (h : Keeps P W o s) : s.img.Ok := ⟨h.flat.topo, h.flat.recs, h.flat.xlat⟩

theorem evr_keeps (h : Keeps P W o s) (v : Evr) (hl : v.recs.length ≤ max s.evr.recs.length 1024) (hh : s.evr.head ≤ v.head) :
    Keeps P W o { s with evr := v } :=
  { h with
    same := fun p hp => by cases p <;> exact h.same _ hp
    flat := { h.flat with events := Nat.le_trans hl (Nat.max_le.2 ⟨h.flat.events, Nat.le_refl _⟩) }
    head := fun p => Nat.le_trans (h.head p) hh }

theorem slots_keeps [Fact (W .slots)] (h : Keeps P W o s) (m) (hm : swf Slot.reset m = true) : Keeps P W o { s with slots := m } :=
  { h with flat := { h.flat with slots := hm }, same := fun p hp => by cases p <;> first | exact h.same _ hp | exact absurd Fact.out hp }

theorem free_keeps (h : Keeps P W o s) (x) : Keeps P W o { s with freeCtr := x } := { h with flat := { h.flat with }, same := fun p hp => by cases p <;> exact h.same _ hp }

theorem hub_keeps [Fact (W .hub)] (h : Keeps P W o s) (x) : Keeps P W o { s with hub := x } := { h with flat := { h.flat with }, same := fun p hp => by cases p <;> first | exact h.same _ hp | exact absurd Fact.out hp }

theorem hclk_keeps [Fact (W .hclk)] (h : Keeps P W o s) (x) : Keeps P W o { s with hclk := x } :=
  { h with flat := { h.flat with }, same := fun p hp => by cases p <;> first | exact h.same _ hp | exact absurd Fact.out hp }

theorem fenceSat_keeps [Fact (W .fences)] (h : Keeps P W o s) (x) : Keeps P W o { s with fenceSat := x } :=
  { h with flat := { h.flat with }, same := fun p hp => by cases p <;> first | exact h.same _ hp | exact absurd Fact.out hp }

theorem latch_keeps [Fact (W .sel)] (h : Keeps P W o s) (a b c d) :
    Keeps P W o { s with qSelHost := a, qSelPre := b, latchHost := c, latchPre := d } :=
  { h with flat := { h.flat with }, same := fun p hp => by cases p <;> first | exact h.same _ hp | exact absurd Fact.out hp }

theorem rng_keeps [Fact (W .rng)] (h : Keeps P W o s) (x : Rng) (hx : x.hubs = s.rng.hubs) : Keeps P W o { s with rng := x } :=
  { h with flat := { h.flat with rng := by rw [hx]; exact h.flat.rng }, same := fun p hp => by cases p <;> first | exact h.same _ hp | exact absurd Fact.out hp }

theorem engines_keeps [Fact (W .engines)] (h : Keeps P W o s) (m) (hm : swf Engine.reset m = true) :
    Keeps P W o { s with engines := m } := { h with flat := { h.flat with engines := hm }, same := fun p hp => by cases p <;> first | exact h.same _ hp | exact absurd Fact.out hp }

/-- A change of the memory that leaves its bytes and its sheds alone. -/
theorem memMarks_keeps (h : Keeps P W o s) (m : Mem) (hd : m.data = s.mem.data) (hs : m.sheds = s.mem.sheds) :
    Keeps P W o { s with mem := m } :=
  { h with
    same := fun p hp => by cases p <;> first | exact h.same _ hp | exact hd.trans (h.same .data hp)
    flat := { h.flat with
      data := by show swf _ m.data = true; rw [hd]; exact h.flat.data
      sheds := by show swf _ m.sheds = true; rw [hs]; exact h.flat.sheds } }

theorem queues_keeps [Fact (W .queues)] (h : Keeps P W o s) (m) (hm : swf Queue.reset m = true) : Keeps P W o { s with queues := m } :=
  { h with flat := { h.flat with queues := hm }, same := fun p hp => by cases p <;> first | exact h.same _ hp | exact absurd Fact.out hp }

theorem fences_keeps [Fact (W .fences)] (h : Keeps P W o s) (f : Nat) (v : BitVec 64) (hv : (s.fence f).toNat ≤ v.toNat) :
    Keeps P W o { s with fences := sset 0 s.fences f v } :=
  { h with
    same := fun p hp => by cases p <;> first | exact h.same _ hp | exact absurd Fact.out hp
    flat := { h.flat with fences := swf_sset _ _ _ _ h.flat.fences }
    fence := fun p g => by
      refine Nat.le_trans (h.fence p g) ?_
      simp only [State.fence] at hv ⊢
      by_cases hg : g = f
      · subst hg; rw [sget_sset_same _ _ _ _ h.flat.fences]; exact hv
      · rw [sget_sset_ne _ _ _ _ _ hg] }

/-! ## Control -/

theorem ite_keeps {c : Prop} [Decidable c] {a b : State} (h1 : c → Keeps P W o a) (h2 : ¬c → Keeps P W o b) :
    Keeps P W o (if c then a else b) := by
  split
  · next hc => exact h1 hc
  · next hc => exact h2 hc

theorem foldl_keeps (xs : List α) (f : State → α → State) (hf : ∀ s x, Keeps P W o s → Keeps P W o (f s x)) (h : Keeps P W o s) :
    Keeps P W o (xs.foldl f s) := by
  induction xs generalizing s with
  | nil => exact h
  | cons x xs ih => exact ih (hf _ _ h)

/-- The same of a fold over data that holds a state. -/
theorem foldl_part_keeps {β : Type} (part : β → State) (xs : List α) (f : β → α → β)
    (hf : ∀ b x, Keeps P W o (part b) → Keeps P W o (part (f b x))) {b : β} (h : Keeps P W o (part b)) : Keeps P W o (part (xs.foldl f b)) := by
  induction xs generalizing b with
  | nil => exact h
  | cons x xs ih => exact ih (hf _ _ h)

theorem each_keeps (xs : List α) (f : State → α → State) (hf : ∀ s x, Keeps P W o s → Keeps P W o (f s x)) (h : Keeps P W o s) :
    Keeps P W o (s.each xs f) := foldl_keeps xs f hf h

/-- What an outcome leaves when it is a next state. -/
def OutKeeps (P : Prop) (W : Part → Prop) (o : State) (r : Out) : Prop := ∀ t, r = .next t → Keeps P W o t

theorem next_keeps (h : Keeps P W o s) : OutKeeps P W o (.next s) := fun _ ht => by cases ht; exact h
theorem fault_keeps (f : Fault) : OutKeeps P W o (.fault f) := fun _ ht => by cases ht
theorem refused_keeps (r : Refusal) : OutKeeps P W o (.refused r) := fun _ ht => by cases ht
theorem ite_out_keeps {c : Prop} [Decidable c] {a b : Out} (h1 : c → OutKeeps P W o a) (h2 : ¬c → OutKeeps P W o b) :
    OutKeeps P W o (if c then a else b) := by
  split
  · next hc => exact h1 hc
  · next hc => exact h2 hc

/-- A change of the module's mode. -/
theorem modPwr_mod_keeps [Fact (W .pwr)] (h : Keeps P W o s) (m : ModState) (f : Power → Power) (hf : ∀ p, (f p).grade = p.grade ∧ (f p).mod = m)
    (h1 : P → o.pwr.mod = .safe → m = .safe ∨ m = .pfail) (h2 : P → o.pwr.mod = .pfail → m = .pfail) : Keeps P W o (s.modPwr f) :=
  { h with
    same := fun p hp => by cases p <;> first | exact h.same _ hp | exact absurd Fact.out hp
    flat := { h.flat with }
    grade := (hf s.pwr).1.trans h.grade
    safe := fun p q => by rw [State.modPwr, (hf s.pwr).2]; exact h1 p q
    pfail := fun p q => (hf s.pwr).2.trans (h2 p q) }

/-! ## Power-up -/

/-- What a step of power-up leaves, whether it goes on or fails. -/
def BootKeeps (P : Prop) (W : Part → Prop) (o : State) (r : Except BootStop State) : Prop :=
  (∀ t, r = .ok t → Keeps P W o t) ∧ ∀ e, r = .error e → Keeps P W o e.st

theorem boot_ok_keeps (h : Keeps P W o s) : BootKeeps P W o (.ok s) := ⟨fun _ ht => Except.ok.inj ht ▸ h, fun _ he => by cases he⟩

theorem boot_error_keeps (e : BootStop) (h : Keeps P W o e.st) : BootKeeps P W o (.error e) :=
  ⟨fun _ ht => (by cases ht), fun _ he => (by rw [← Except.error.inj he]; exact h)⟩

theorem boot_bind_keeps {r : Except BootStop State} {f : State → Except BootStop State} (h : BootKeeps P W o r)
    (hf : ∀ u, Keeps P W o u → BootKeeps P W o (f u)) : BootKeeps P W o (r >>= f) := by
  cases r with
  | error e => exact boot_error_keeps e (h.2 e rfl)
  | ok u => exact hf u (h.1 u rfl)

end Sys2Proof.Machine
end

