-- ==== Sys2Proof/Laws/Images.lean ====
section
/-! SUPPORT. The images that validation and patches lead to stand in canonical form. -/
namespace Sys2Proof.Machine

theorem except_bind_ok {ε α β : Type} {x : Except ε α} {f : α → Except ε β} {b : β} (h : (x >>= f) = .ok b) :
    ∃ a, x = .ok a ∧ f a = .ok b := by
  cases x with
  | error e => cases h
  | ok a => exact ⟨a, rfl, h⟩

theorem swf_indexed {α : Type} [DecidableEq α] (d : α) (xs : List α) :
    swf d ((indexed xs).foldl (fun m x => sset d m x.1 x.2) []) = true :=
  swf_foldl d _ (fun m x h => swf_sset d m x.1 x.2 h) _ _ rfl

theorem swf_entries {α : Type} [DecidableEq α] (d : α) (xs : List (Nat × α)) :
    swf d (xs.foldl (fun m x => sset d m x.1 x.2) []) = true :=
  swf_foldl d _ (fun m x h => swf_sset d m x.1 x.2 h) _ _ rfl

theorem withTopo_ok {i : Image} (h : i.Ok) (t : Topo) : (i.withTopo t).Ok := ⟨swf_indexed _ _, h.recs, h.xlat⟩
theorem withMem_ok {i : Image} (h : i.Ok) (m : MemSec) : (i.withMem m).Ok := ⟨h.topo, swf_indexed _ _, swf_entries _ _⟩

theorem readSections_ok {s : State} {g q v b : Nat} {f : Nat → Bytes} {i : Image} (h : s.readSections g q v b f = .ok i) : i.Ok := by
  unfold State.readSections at h
  dsimp only at h
  repeat' (obtain ⟨_, -, h⟩ := except_bind_ok h)
  injection h with h
  subst h
  exact ⟨swf_indexed _ _, swf_indexed _ _, swf_entries _ _⟩

theorem patchBody_ok {s : State} {p : PatchFrom} {o : Bytes} {i : Image} (hs : s.img.Ok) (h : s.patchBody p o = .ok i) : i.Ok := by
  unfold State.patchBody at h
  dsimp only at h
  split at h
  · repeat' (obtain ⟨_, -, h⟩ := except_bind_ok h)
    injection h with h; subst h; exact withTopo_ok hs _
  · split at h
    · repeat' (obtain ⟨_, -, h⟩ := except_bind_ok h)
      injection h with h; subst h; exact ⟨hs.topo, hs.recs, hs.xlat⟩
    · split at h
      · repeat' (obtain ⟨_, -, h⟩ := except_bind_ok h)
        injection h with h; subst h; exact withMem_ok hs _
      · split at h
        · repeat' (obtain ⟨_, -, h⟩ := except_bind_ok h)
          injection h with h; subst h; exact ⟨hs.topo, hs.recs, hs.xlat⟩
        · repeat' (obtain ⟨_, -, h⟩ := except_bind_ok h)
          injection h with h; subst h; exact ⟨hs.topo, hs.recs, hs.xlat⟩

theorem patchCheck_ok {s : State} {p : PatchFrom} {o : Bytes} {i : Image} (hs : s.img.Ok) (h : s.patchCheck p o = .ok i) : i.Ok := by
  unfold State.patchCheck at h
  dsimp only at h
  obtain ⟨_, -, h⟩ := except_bind_ok h
  obtain ⟨_, -, h⟩ := except_bind_ok h
  obtain ⟨_, -, h⟩ := except_bind_ok h
  exact patchBody_ok hs h

theorem validate_ok {s : State} {b e : Bool} {v : Valid} (h : s.validate b e = .ok v) : v.img.Ok := by
  unfold State.validate at h
  dsimp only at h
  repeat' (obtain ⟨_, h1, h⟩ := except_bind_ok h)
  rw [← Except.ok.inj h]
  exact readSections_ok h1

theorem chooseCopy_some {a b : Except Nat Valid} {x : Bool × Valid} (h : chooseCopy a b = some x) : a = .ok x.2 ∨ b = .ok x.2 := by
  unfold chooseCopy at h
  split at h
  · split at h
    · rw [← Option.some.inj h]; exact .inr rfl
    · rw [← Option.some.inj h]; exact .inl rfl
  · rw [← Option.some.inj h]; exact .inl rfl
  · rw [← Option.some.inj h]; exact .inr rfl
  · cases h

end Sys2Proof.Machine
end

