-- ==== Sys2Proof/Laws/KeepOps.lean ====
section
/-! SUPPORT. What the operations and commands of Machine/Ops.lean keep (see Laws/Keep.lean). -/
namespace Sys2Proof.Machine

variable {P : Prop} {W : Part → Prop} {o s t : State}

theorem fresh_keeps (h : Keeps P W o s) (x) : Keeps P W o { s with fresh := x } := { h with flat := { h.flat with }, same := fun p hp => by cases p <;> exact h.same _ hp }

theorem posts_keeps (h : Keeps P W o s) (x) : Keeps P W o { s with posts := x } := { h with flat := { h.flat with }, same := fun p hp => by cases p <;> exact h.same _ hp }

theorem tails_keeps (h : Keeps P W o s) (x) : Keeps P W o { s with tails := x } := { h with flat := { h.flat with }, same := fun p hp => by cases p <;> exact h.same _ hp }

theorem event_fences (s : State) (b) : (s.event b).fences = s.fences := by
  unfold State.event
  split <;> rfl

theorem event_keeps (h : Keeps P W o s) (a1) : Keeps P W o (State.event s a1) := by
  unfold State.event
  split
  · exact h
  · exact fresh_keeps h _

theorem event_fence (s : State) (b f) : (s.event b).fence f = s.fence f := by
  unfold State.event
  split <;> rfl

theorem event_mem (s : State) (b) : (s.event b).mem = s.mem := by
  unfold State.event
  split <;> rfl

theorem setRclk_keeps (h : Keeps P W o s) (a1 a2) : Keeps P W o (State.setRclk s a1 a2) := by
  refine modYards_keeps h (fun y => { y with clocks := y.clocks.set a1 a2 }) ?_
  exact fun _ => ⟨rfl, rfl, rfl⟩

end Sys2Proof.Machine
end

