-- ==== Sys2Proof/Laws/KeepFlash.lean ====
section
/-! SUPPORT. What the operations and commands of Machine/Flash.lean keep (see Laws/Keep.lean). -/
namespace Sys2Proof.Machine

variable {P : Prop} {W : Part → Prop} {o s t : State}

theorem program_keeps [Fact (W .flash)] (h : Keeps P W o s) (a1 a2) : Keeps P W o (State.program s a1 a2) :=
  flash_keeps h _ (swf_foldl _ _ (fun _ _ hm => swf_sset _ _ _ _ hm) _ _ h.flat.flash)

theorem erase_keeps [Fact (W .flash)] (h : Keeps P W o s) (a1 a2) : Keeps P W o (State.erase s a1 a2) := flash_keeps h _ (swf_swipe _ _ _ _ h.flat.flash)

end Sys2Proof.Machine
end

