-- ==== Sys2Proof/Laws/KeepEvents.lean ====
section
/-! SUPPORT. What the operations and commands of Machine/Events.lean keep (see Laws/Keep.lean). -/
namespace Sys2Proof.Machine

variable {P : Prop} {W : Part → Prop} {o s t : State}

theorem trace_keeps (h : Keeps P W o s) (a1 a2 a3 a4 a5) : Keeps P W o (State.trace s a1 a2 a3 a4 a5) := by
  unfold State.trace
  repeat' first
    | with_reducible assumption
    | with_reducible apply bump_keeps
    | with_reducible apply modEvr_keeps
    | with_reducible apply ite_keeps <;> intro _
    | exact fun _ => ⟨Nat.le_max_left _ _, Nat.le_refl _⟩

theorem inBand_keeps (h : Keeps P W o s) (a1) : Keeps P W o (State.inBand s a1) := by
  unfold State.inBand
  repeat' first
    | with_reducible assumption
    | with_reducible apply modPorts_keeps
    | with_reducible apply ite_keeps <;> intro _
    | exact fun _ => rfl

theorem msix_keeps (h : Keeps P W o s) (a1) : Keeps P W o (State.msix s a1) := by
  unfold State.msix
  repeat' first
    | with_reducible assumption
    | with_reducible apply modPorts_keeps
    | with_reducible apply ite_keeps <;> intro _
    | exact fun _ => rfl

theorem ringHost_keeps (h : Keeps P W o s) (a1) : Keeps P W o (State.ringHost s a1) := by
  unfold State.ringHost
  repeat' first
    | with_reducible assumption
    | with_reducible apply event_keeps
    | with_reducible apply modMbx_keeps
    | with_reducible apply msix_keeps
    | with_reducible apply ite_keeps <;> intro _
    | exact fun _ => ⟨rfl, rfl⟩

theorem startFlush_keeps (h : Keeps P W o s) : Keeps P W o (State.startFlush s) := by
  unfold State.startFlush
  repeat' first
    | with_reducible assumption
    | with_reducible apply modEvr_keeps
    | with_reducible apply ite_keeps <;> intro _
    | exact fun _ => ⟨Nat.le_max_left _ _, Nat.le_refl _⟩

theorem thaw_keeps (h : Keeps P W o s) : Keeps P W o (if s.evr.freeze then s.modEvr (Evr.thaw s.hclk) else s) := by
  split
  · exact modEvr_keeps h _ (fun v => ⟨Nat.le_trans (thaw_length _ v) (Nat.le_max_left _ _), Nat.le_of_eq (thaw_head _ v).symm⟩)
  · exact h

theorem raiseBy_keeps (h : Keeps P W o s) (a1 a2 a3 a4) : Keeps P W o (State.raiseBy s a1 a2 a3 a4) := by
  unfold State.raiseBy
  extract_lets id sev trig off regs s0 p s1 s2 s3
  have h0 : Keeps P W o s0 := thaw_keeps h
  have h1 : Keeps P W o s1 := by
    have hp := place_ok s0.evr id sev a2 a3 a4 s.hclk regs
    exact evr_keeps h0 _ hp.1 hp.2
  have h2 : Keeps P W o s2 := by
    simp only [s2]
    split
    · exact trace_keeps h1 _ _ _ _ _
    · exact trace_keeps h1 _ _ _ _ _
    · exact bump_keeps h1 _ _ _
  refine ite_keeps (fun _ => h) (fun _ => ite_keeps (fun _ => ?_) (fun _ => ite_keeps (fun _ => ite_keeps (fun _ => ?_) (fun _ => ?_)) (fun _ => h2)))
  · refine bump_keeps (modEvr_keeps h _ ?_) _ _ _
    exact fun _ => ⟨Nat.le_max_left _ _, Nat.le_refl _⟩
  · exact inBand_keeps (ringHost_keeps h2 _) _
  · exact startFlush_keeps (inBand_keeps (ringHost_keeps h2 _) _)

theorem raise_keeps (h : Keeps P W o s) (a1 a2 a3) : Keeps P W o (State.raise s a1 a2 a3) := raiseBy_keeps h _ _ _ 1

theorem physWrite_keeps [Fact (W .data)] (h : Keeps P W o s) (a1 a2) : Keeps P W o (State.physWrite s a1 a2) := by
  unfold State.physWrite
  exact mem_keeps h _ (swf_swrite _ _ _ _ h.flat.data) rfl

theorem writeFlush_keeps [Fact (W .flash)] (h : Keeps P W o s) (a1 a2) : Keeps P W o (State.writeFlush s a1 a2) := by
  unfold State.writeFlush
  refine modEvr_keeps (program_keeps (program_keeps h _ _) _ _) _ ?_
  exact fun _ => ⟨Nat.le_max_left _ _, Nat.le_refl _⟩

theorem traceLink_keeps (h : Keeps P W o s) (a1 a2 a3) : Keeps P W o (State.traceLink s a1 a2 a3) := by
  unfold State.traceLink
  repeat' first
    | with_reducible assumption
    | with_reducible apply trace_keeps

theorem traceWrite_keeps [Fact (W .data)] (h : Keeps P W o s) : Keeps P W o (State.traceWrite s) := by
  unfold State.traceWrite
  split
  · exact h
  · exact modEvr_keeps (physWrite_keeps h _ _) _ (fun _ => ⟨Nat.le_max_left _ _, Nat.le_refl _⟩)

theorem traceTick_keeps (h : Keeps P W o s) (a1 a2 a3 a4) : Keeps P W o (State.traceTick s a1 a2 a3 a4) := by
  unfold State.traceTick
  repeat' first
    | with_reducible assumption
    | with_reducible apply trace_keeps

end Sys2Proof.Machine
end

