-- ==== Sys2Proof/Laws/KeepMemory.lean ====
section
/-! SUPPORT. What the operations and commands of Machine/Memory.lean keep (see Laws/Keep.lean). -/
namespace Sys2Proof.Machine

variable {P : Prop} {W : Part → Prop} {o s t : State}

theorem hostWrite_keeps [Fact (W .host)] (h : Keeps P W o s) (a1 a2) : Keeps P W o (State.hostWrite s a1 a2) := by
  unfold State.hostWrite
  split
  · exact hostMem_keeps h _ (swf_swrite _ _ _ _ h.flat.host)
  · exact h

theorem queueCheck_keeps (h : Keeps P W o s) (a1) : Keeps P W o (State.queueCheck s a1) := by
  unfold State.queueCheck
  repeat' first
    | with_reducible assumption
    | with_reducible apply setShed_keeps
    | with_reducible apply ite_keeps <;> intro _

theorem devWritePiece_keeps [Fact (W .data)] (h : Keeps P W o s) (a1 a2) : Keeps P W o (State.devWritePiece s a1 a2) := by
  unfold State.devWritePiece
  repeat' first
    | with_reducible assumption
    | with_reducible apply queueCheck_keeps
    | with_reducible apply modShed_keeps
    | with_reducible apply physWrite_keeps
    | with_reducible apply ite_keeps <;> intro _

theorem devWrite_keeps [Fact (W .data)] (h : Keeps P W o s) (a1 a2) : Keeps P W o (State.devWrite s a1 a2) := by
  unfold State.devWrite
  repeat' first
    | with_reducible assumption
    | with_reducible apply each_keeps
    | with_reducible apply devWritePiece_keeps
    | with_reducible apply each_keeps
    | intro _ _ _

theorem xlatFault_keeps (h : Keeps P W o s) (a1 a2 a3 a4) : Keeps P W o (State.xlatFault s a1 a2 a3 a4) := by
  unfold State.xlatFault
  refine ite_keeps (fun _ => event_keeps (bump_keeps h _ _ _) _) (fun _ => ?_)
  exact memMarks_keeps (event_keeps (bump_keeps h _ _ _) _) _ (by rw [event_mem]) (by rw [event_mem])

theorem devNote_keeps (h : Keeps P W o s) (a1 a2) : Keeps P W o (State.devNote s a1 a2) := by
  unfold State.devNote
  repeat' first
    | with_reducible assumption
    | with_reducible apply queueCheck_keeps
    | with_reducible apply each_keeps
    | with_reducible apply each_keeps
    | intro _ _ _

theorem spadWrite_keeps [Fact (W .spad)] (h : Keeps P W o s) (a1 a2 a3) : Keeps P W o (State.spadWrite s a1 a2 a3) := by
  unfold State.spadWrite
  refine ite_keeps (fun _ => ?_) (fun _ => ?_)
  · refine modYards_spad_keeps h _ ?_
    exact fun _ => ⟨fun hy => swf_swrite _ _ _ _ hy, rfl, rfl⟩
  · refine modYards_spad_keeps h _ ?_
    exact fun _ => ⟨fun hy => swf_foldl _ _ (fun _ _ hm => swf_sset _ _ _ _ hm) _ _ hy, rfl, rfl⟩

theorem wordStore_keeps [Fact (W .spad)] (h : Keeps P W o s) (a1 a2 a3 a4) : Keeps P W o (State.wordStore s a1 a2 a3 a4) := by
  unfold State.wordStore
  repeat' first
    | with_reducible assumption
    | with_reducible apply spadWrite_keeps
    | with_reducible apply ite_keeps <;> intro _

theorem unitStore_keeps [Fact (W .spad)] (h : Keeps P W o s) (a1 a2 a3 a4 a5) : Keeps P W o (State.unitStore s a1 a2 a3 a4 a5) := by
  unfold State.unitStore
  repeat' first
    | with_reducible assumption
    | with_reducible apply bump_keeps
    | with_reducible apply wordStore_keeps
    | with_reducible apply each_keeps
    | with_reducible apply ite_keeps <;> intro _
    | with_reducible apply each_keeps
    | intro _ _ _

theorem windowStore_keeps [Fact (W .spad)] (h : Keeps P W o s) (a1 a2 a3) : Keeps P W o (State.windowStore s a1 a2 a3) := by
  unfold State.windowStore
  repeat' first
    | with_reducible assumption
    | with_reducible apply unitStore_keeps
    | with_reducible apply each_keeps
    | with_reducible apply spadWrite_keeps
    | with_reducible apply each_keeps
    | intro _ _ _
    | split

theorem spadStore_keeps [Fact (W .spad)] (h : Keeps P W o s) (a1 a2 a3) : Keeps P W o (State.spadStore s a1 a2 a3) := by
  unfold State.spadStore
  repeat' first
    | with_reducible assumption
    | with_reducible apply each_keeps
    | with_reducible apply windowStore_keeps
    | with_reducible apply ite_keeps <;> intro _
    | with_reducible apply each_keeps
    | intro _ _ _

theorem landFlits_keeps [Fact (W .spad)] (h : Keeps P W o s) (a1 a2 a3) : Keeps P W o (State.landFlits s a1 a2 a3) := by
  unfold State.landFlits
  repeat' first
    | with_reducible assumption
    | with_reducible apply spadStore_keeps
    | with_reducible apply bumpBy_keeps
    | with_reducible apply ite_keeps <;> intro _

theorem spadCheck_keeps (h : Keeps P W o s) (a1 a2) : Keeps P W o (State.spadCheck s a1 a2) := by
  unfold State.spadCheck
  repeat' first
    | with_reducible assumption
    | with_reducible apply modYards_keeps
    | with_reducible apply ite_keeps <;> intro _
    | exact fun _ => ⟨rfl, rfl, rfl⟩

theorem deliver_keeps [Fact (W .spad)] (h : Keeps P W o s) (a1 a2 a3) : Keeps P W o (State.deliver s a1 a2 a3) := by
  unfold State.deliver
  repeat' first
    | with_reducible assumption
    | with_reducible apply landFlits_keeps
    | with_reducible apply each_keeps
    | with_reducible apply spadCheck_keeps
    | with_reducible apply each_keeps
    | intro _ _ _

theorem hubWrite_keeps [Fact (W .data)] (h : Keeps P W o s) (a1 a2) : Keeps P W o (State.hubWrite s a1 a2) := by
  unfold State.hubWrite
  repeat' first
    | with_reducible assumption
    | with_reducible apply xlatFault_keeps
    | with_reducible apply devWrite_keeps
    | intro _ _ _
    | split

theorem spadSpoil_keeps (h : Keeps P W o s) (a1 a2 a3) : Keeps P W o (State.spadSpoil s a1 a2 a3) := by
  unfold State.spadSpoil
  repeat' first
    | with_reducible assumption
    | with_reducible apply each_keeps
    | with_reducible apply modYards_keeps
    | with_reducible apply ite_keeps <;> intro _
    | with_reducible apply each_keeps
    | exact fun _ => ⟨rfl, rfl, rfl⟩
    | intro _ _ _

theorem askBlock_keeps {a1 : State × Cmd} (h : Keeps P W o a1.1) (a2) : Keeps P W o (State.askBlock a1 a2).1 := by
  unfold State.askBlock
  dsimp only
  split
  · exact h
  · split <;> exact queueCheck_keeps h _

theorem askWord_keeps {a1 : State × Cmd} (h : Keeps P W o a1.1) (a2) : Keeps P W o (State.askWord a1 a2).1 := by
  unfold State.askWord
  dsimp only
  split
  · exact h
  · split <;> exact spadCheck_keeps h _ _

theorem ask_keeps (h : Keeps P W o s) (a1 a2 a3) : Keeps P W o (State.ask s a1 a2 a3).1 := by
  unfold State.ask
  refine foldl_part_keeps Prod.fst _ _ (fun _ _ hy => askBlock_keeps hy _) ?_
  exact foldl_part_keeps Prod.fst _ _ (fun _ _ hy => askWord_keeps hy _) h

theorem takeChecks_keeps [Fact (W .engines)] (h : Keeps P W o s) {a1 : Nat} {a2 : Cmd} {a3 : List (Nat × Nat)} {a4 : List Nat} {t : State}
    (hx : s.takeChecks a1 a2 a3 a4 = some t) : Keeps P W o t := by
  unfold State.takeChecks at hx
  split at hx
  · cases hx
  · rw [← Option.some.inj hx]
    refine modEng_keeps ?_ _ _
    refine foldl_part_keeps Prod.fst _ _ (fun _ _ hy => askBlock_keeps hy _) ?_
    exact foldl_part_keeps Prod.fst _ _ (fun _ _ hy => askWord_keeps hy _) h

/-- A command that waits for re-reads, or goes on. -/
theorem getD_keeps {x : Option State} {d : State} (hx : ∀ t, x = some t → Keeps P W o t) (hd : Keeps P W o d) : Keeps P W o (x.getD d) := by
  cases x with
  | none => exact hd
  | some t => exact hx t rfl

theorem zeroKeys_keeps [Fact (W .spad)] (h : Keeps P W o s) (a1 a2) : Keeps P W o (State.zeroKeys s a1 a2) := by
  unfold State.zeroKeys
  refine modYards_spad_keeps h _ ?_
  exact fun _ => ⟨fun hy => swf_swipe _ _ _ _ hy, rfl, rfl⟩

theorem writeUpTo_keeps [Fact (W .data)] (h : Keeps P W o s) (a1 a2) : Keeps P W o (State.writeUpTo s a1 a2).1 := by
  unfold State.writeUpTo
  repeat' first
    | with_reducible assumption
    | with_reducible apply devWrite_keeps
    | intro _ _ _
    | split

theorem writeRuns_keeps [Fact (W .data)] (h : Keeps P W o s) (a1) : Keeps P W o (State.writeRuns s a1).1 := by
  induction a1 generalizing s with
  | nil => exact h
  | cons x xs ih =>
    have hw := writeUpTo_keeps h x.1 x.2
    unfold State.writeRuns
    dsimp only
    split
    · exact hw
    · exact ih hw

theorem zeroHalf_keeps [Fact (W .spad)] (h : Keeps P W o s) (a1) : Keeps P W o (State.zeroHalf s a1) := by
  unfold State.zeroHalf
  repeat' first
    | with_reducible assumption
    | with_reducible apply zeroKeys_keeps

theorem physSpoil_keeps (h : Keeps P W o s) (a1) : Keeps P W o (State.physSpoil s a1) := by
  unfold State.physSpoil
  repeat' first
    | with_reducible assumption
    | with_reducible refine memMarks_keeps ?_ _ rfl rfl

theorem devSpoil_keeps (h : Keeps P W o s) (a1 a2) : Keeps P W o (State.devSpoil s a1 a2) := by
  unfold State.devSpoil
  repeat' first
    | with_reducible assumption
    | with_reducible apply each_keeps
    | with_reducible apply physSpoil_keeps
    | with_reducible apply ite_keeps <;> intro _
    | with_reducible apply each_keeps
    | intro _ _ _

theorem deliverWith_keeps [Fact (W .spad)] (h : Keeps P W o s) (a1 a2 a3 a4) : Keeps P W o (State.deliverWith s a1 a2 a3 a4) := by
  unfold State.deliverWith
  repeat' first
    | with_reducible assumption
    | with_reducible apply landFlits_keeps
    | with_reducible apply spadSpoil_keeps
    | with_reducible apply ite_keeps <;> intro _
    | intro _ _ _
    | split

theorem resolve_keeps [Fact (W .engines)] (h : Keeps P W o s) (a1) : Keeps P W o (State.resolve s a1) := by
  unfold State.resolve
  repeat' first
    | with_reducible assumption
    | with_reducible apply modEng_keeps
    | with_reducible apply each_keeps
    | with_reducible apply each_keeps
    | intro _ _ _

theorem zeroBank_keeps [Fact (W .spad)] (h : Keeps P W o s) (a1 a2) : Keeps P W o (State.zeroBank s a1 a2) := by
  unfold State.zeroBank
  repeat' first
    | with_reducible assumption
    | with_reducible apply zeroKeys_keeps

end Sys2Proof.Machine
end

