-- ==== Sys2Proof/Laws/KeepFlags.lean ====
section
/-! SUPPORT. What the operations and commands of Machine/Flags.lean keep (see Laws/Keep.lean). -/
namespace Sys2Proof.Machine

variable {P : Prop} {W : Part → Prop} {o s t : State}

theorem noteAs_keeps (h : Keeps P W o s) (a1 a2) : Keeps P W o (State.noteAs s a1 a2) := by
  unfold State.noteAs
  repeat' first
    | with_reducible assumption
    | with_reducible apply xlatFault_keeps
    | with_reducible apply ite_keeps <;> intro _
    | intro _ _ _
    | split

end Sys2Proof.Machine
end

