-- ==== Sys2Proof/Laws/KeepMailbox.lean ====
section
/-! SUPPORT. What the operations and commands of Machine/Mailbox.lean keep (see Laws/Keep.lean). -/
namespace Sys2Proof.Machine

variable {P : Prop} {W : Part → Prop} {o s t : State}

theorem readPost_keeps (h : Keeps P W o s) (a1 a2) : Keeps P W o (State.readPost s a1 a2) := by
  unfold State.readPost
  repeat' first
    | with_reducible assumption
    | with_reducible apply setH2f_keeps
    | with_reducible apply devNote_keeps
    | with_reducible apply xlatFault_keeps
    | with_reducible apply modMbx_keeps
    | with_reducible apply ite_keeps <;> intro _
    | exact fun _ => ⟨rfl, rfl⟩
    | intro _ _ _
    | split

theorem retryPost_keeps (h : Keeps P W o s) (a1) : Keeps P W o (State.retryPost s a1) := by
  unfold State.retryPost
  repeat' first
    | with_reducible assumption
    | with_reducible apply setH2f_keeps
    | with_reducible apply readPost_keeps
    | with_reducible apply ite_keeps <;> intro _
    | intro _ _ _
    | split
    | dsimp only

theorem reply_keeps [Fact (W .data)] [Fact (W .host)] (h : Keeps P W o s) (a1 a2 a3) : Keeps P W o (State.reply s a1 a2 a3) := by
  unfold State.reply
  repeat' first
    | with_reducible assumption
    | with_reducible apply hostWrite_keeps
    | with_reducible apply setH2f_keeps
    | with_reducible apply ringHost_keeps
    | with_reducible apply xlatFault_keeps
    | with_reducible apply devWrite_keeps
    | with_reducible apply modMbx_keeps
    | with_reducible apply retryPost_keeps
    | with_reducible apply ite_keeps <;> intro _
    | exact fun _ => ⟨rfl, rfl⟩
    | intro _ _ _
    | split

theorem takeNotice_keeps (h : Keeps P W o s) (a1) : Keeps P W o (State.takeNotice s a1) := by
  unfold State.takeNotice
  repeat' first
    | with_reducible assumption
    | with_reducible apply modMbx_keeps
    | exact fun _ => ⟨rfl, rfl⟩

theorem serveBad_keeps [Fact (W .data)] [Fact (W .host)] (h : Keeps P W o s) (a1) : Keeps P W o (State.serveBad s a1) := by
  induction a1 generalizing s with
  | zero => exact h
  | succ n ih =>
    unfold State.serveBad
    split
    · exact h
    · split
      · split
        · exact h
        · exact ih (reply_keeps (takeNotice_keeps h _) _ _ _)
      · exact h

theorem serveHead_keeps [Fact (W .data)] [Fact (W .host)] (h : Keeps P W o s) : Keeps P W o (State.serveHead s) := by
  unfold State.serveHead
  repeat' first
    | with_reducible assumption
    | with_reducible apply serveBad_keeps

theorem endReq_keeps [Fact (W .data)] [Fact (W .host)] (h : Keeps P W o s) (a1 a2 a3) : Keeps P W o (State.endReq s a1 a2 a3) := by
  unfold State.endReq
  repeat' first
    | with_reducible assumption
    | with_reducible apply takeNotice_keeps
    | with_reducible apply reply_keeps
    | with_reducible apply serveHead_keeps

theorem background_keeps [Fact (W .data)] [Fact (W .host)] (h : Keeps P W o s) (a1) : Keeps P W o (State.background s a1) := by
  unfold State.background
  repeat' first
    | with_reducible assumption
    | with_reducible apply takeNotice_keeps
    | with_reducible apply serveHead_keeps
    | with_reducible apply modMbx_keeps
    | exact fun _ => ⟨rfl, rfl⟩

theorem postF2h_keeps (h : Keeps P W o s) (a1 a2) : Keeps P W o (State.postF2h s a1 a2) := by
  unfold State.postF2h
  repeat' first
    | with_reducible assumption
    | with_reducible apply setF2h_keeps
    | with_reducible apply ringHost_keeps
    | with_reducible apply ite_keeps <;> intro _

theorem ackF2h_keeps (h : Keeps P W o s) (a1 a2) : Keeps P W o (State.ackF2h s a1 a2) := by
  unfold State.ackF2h
  repeat' first
    | with_reducible assumption
    | with_reducible apply setF2h_keeps
    | with_reducible apply postF2h_keeps
    | with_reducible apply ite_keeps <;> intro _
    | intro _ _ _
    | split

theorem postH2f_keeps [Fact (W .data)] [Fact (W .host)] (h : Keeps P W o s) (a1 a2) : Keeps P W o (State.postH2f s a1 a2) := by
  unfold State.postH2f
  repeat' first
    | with_reducible assumption
    | with_reducible apply setH2f_keeps
    | with_reducible apply event_keeps
    | with_reducible apply readPost_keeps
    | with_reducible apply serveHead_keeps
    | with_reducible apply ite_keeps <;> intro _

end Sys2Proof.Machine
end

