-- ==== Sys2Proof/Laws/KeepComplete.lean ====
section
/-! SUPPORT. What the operations and commands of Machine/Complete.lean keep (see Laws/Keep.lean). -/
namespace Sys2Proof.Machine

variable {P : Prop} {W : Part → Prop} {o s t : State}

theorem putRecord_keeps [Fact (W .data)] [Fact (W .host)] (h : Keeps P W o s) (a1) : Keeps P W o (State.putRecord s a1) := by
  unfold State.putRecord
  repeat' first
    | with_reducible assumption
    | with_reducible apply hostWrite_keeps
    | with_reducible apply xlatFault_keeps
    | with_reducible apply devWrite_keeps
    | with_reducible apply ite_keeps <;> intro _
    | intro _ _ _
    | split

theorem placeRecord_keeps [Fact (W .data)] [Fact (W .host)] (h : Keeps P W o s) (a1 a2 a3) : Keeps P W o (State.placeRecord s a1 a2 a3) := by
  unfold State.placeRecord
  exact posts_keeps (each_keeps _ _ (fun _ _ hu => putRecord_keeps hu _) h) _

theorem disabled_keeps [Fact (W .data)] [Fact (W .engines)] [Fact (W .host)] (h : Keeps P W o s) (a1) : Keeps P W o (State.disabled s a1) := by
  unfold State.disabled
  repeat' first
    | with_reducible assumption
    | with_reducible apply modEng_keeps
    | with_reducible apply reply_keeps
    | with_reducible apply serveHead_keeps
    | with_reducible apply modMbx_keeps
    | exact fun _ => ⟨rfl, rfl⟩
    | intro _ _ _
    | split

theorem atBoundary_keeps [Fact (W .halves)] [Fact (W .data)] [Fact (W .engines)] [Fact (W .host)] (h : Keeps P W o s) (a1) : Keeps P W o (State.atBoundary s a1) := by
  unfold State.atBoundary
  repeat' first
    | with_reducible assumption
    | with_reducible apply modHalf_keeps
    | with_reducible apply modEng_keeps
    | with_reducible apply each_keeps
    | with_reducible apply disabled_keeps
    | with_reducible apply ite_keeps <;> intro _
    | with_reducible apply each_keeps
    | intro _ _ _

theorem writeRecord_keeps [Fact (W .data)] [Fact (W .engines)] [Fact (W .queues)] [Fact (W .per)] [Fact (W .host)] (h : Keeps P W o s) (a1 a2 a3 a4) : Keeps P W o (State.writeRecord s a1 a2 a3 a4) := by
  unfold State.writeRecord
  extract_lets f u q st s2 charge halt s3 s4 s5 s6 s7 s8 s9 s10
  have h0 : Keeps P W o u := by
    simp only [u, f]
    split
    · exact h
    · exact draw_keeps h
  have h2 : Keeps P W o s2 := placeRecord_keeps h0 _ _ _
  have h4 : Keeps P W o s4 := modEng_keeps (setQueue_keeps h2 _ _) _ _
  have h5 : Keeps P W o s5 := bumpBy_keeps (bump_keeps h4 _ _ _) _ _ _ _
  have h6 : Keeps P W o s6 := ite_keeps (fun _ => bump_keeps h5 _ _ _) (fun _ => h5)
  have h7 : Keeps P W o s7 := ite_keeps (fun _ => bump_keeps h6 _ _ _) (fun _ => h6)
  have h8 : Keeps P W o s8 := ite_keeps (fun _ => bump_keeps h7 _ _ _) (fun _ => h7)
  have h9 : Keeps P W o s9 := by
    refine modMbx_keeps h8 _ ?_
    exact fun _ => ⟨rfl, rfl⟩
  have h10 : Keeps P W o s10 := ite_keeps (fun _ => modProg_keeps h9 _ _) (fun _ => h9)
  exact trace_keeps h10 _ _ _ _ _

theorem setChain_keeps [Fact (W .engines)] (h : Keeps P W o s) (a1 a2 a3) : Keeps P W o (State.setChain s a1 a2 a3) := by
  unfold State.setChain
  repeat' first
    | with_reducible assumption
    | with_reducible apply modEng_keeps

theorem dropPreload_keeps [Fact (W .engines)] (h : Keeps P W o s) (a1 a2) : Keeps P W o (State.dropPreload s a1 a2) := by
  unfold State.dropPreload
  repeat' first
    | with_reducible assumption
    | with_reducible apply modEng_keeps
    | with_reducible apply bump_keeps

theorem dropChainPreload_keeps [Fact (W .engines)] (h : Keeps P W o s) (a1 a2) : Keeps P W o (State.dropChainPreload s a1 a2) := by
  unfold State.dropChainPreload
  repeat' first
    | with_reducible assumption
    | with_reducible apply dropPreload_keeps
    | with_reducible apply ite_keeps <;> intro _
    | intro _ _ _
    | split

theorem postAt_keeps [Fact (W .data)] [Fact (W .engines)] [Fact (W .queues)] [Fact (W .per)] [Fact (W .host)] (h : Keeps P W o s) (a1 a2 a3 a4) : Keeps P W o (State.postAt s a1 a2 a3 a4) := by
  induction a1 generalizing s a2 a3 a4 with
  | zero =>
    unfold State.postAt
    repeat' first
      | with_reducible assumption
      | with_reducible apply bump_keeps
      | with_reducible apply dropChainPreload_keeps
      | with_reducible apply event_keeps
      | with_reducible apply setChain_keeps
      | with_reducible apply writeRecord_keeps
  | succ n ih =>
    unfold State.postAt
    repeat' first
      | with_reducible assumption
      | with_reducible apply ih
      | with_reducible apply bump_keeps
      | with_reducible apply dropChainPreload_keeps
      | with_reducible apply event_keeps
      | with_reducible apply setChain_keeps
      | with_reducible apply writeRecord_keeps
      | with_reducible apply trace_keeps
      | with_reducible apply ite_keeps <;> intro _

theorem postRecord_keeps [Fact (W .data)] [Fact (W .engines)] [Fact (W .queues)] [Fact (W .per)] [Fact (W .host)] (h : Keeps P W o s) (a1 a2 a3) : Keeps P W o (State.postRecord s a1 a2 a3) := by
  unfold State.postRecord
  repeat' first
    | with_reducible assumption
    | with_reducible apply postAt_keeps

theorem confirmPreload_keeps [Fact (W .engines)] (h : Keeps P W o s) (a1) : Keeps P W o (State.confirmPreload s a1) := by
  unfold State.confirmPreload
  repeat' first
    | with_reducible assumption
    | with_reducible apply modEng_keeps
    | with_reducible apply bump_keeps
    | intro _ _ _
    | split

theorem discardPreload_keeps [Fact (W .engines)] [Fact (W .queues)] (h : Keeps P W o s) (a1) : Keeps P W o (State.discardPreload s a1) := by
  unfold State.discardPreload
  repeat' first
    | with_reducible assumption
    | with_reducible apply dropPreload_keeps
    | with_reducible apply modQueue_keeps
    | with_reducible apply ite_keeps <;> intro _
    | intro _ _ _
    | split

theorem unfire_keeps [Fact (W .data)] [Fact (W .host)] (h : Keeps P W o s) (a1 a2) : Keeps P W o (State.unfire s a1 a2) := by
  unfold State.unfire
  dsimp only
  split
  · split
    · exact posts_keeps (putRecord_keeps (fresh_keeps (bump_keeps (bumpBy_keeps h _ _ _ _) _ _ _) _) _) _
    · exact fresh_keeps (bump_keeps (bumpBy_keeps h _ _ _ _) _ _ _) _
  · exact h

theorem cancelChains_keeps [Fact (W .data)] [Fact (W .engines)] [Fact (W .queues)] [Fact (W .per)] [Fact (W .host)] (h : Keeps P W o s) (a1 a2) : Keeps P W o (State.cancelChains s a1 a2) := by
  unfold State.cancelChains
  repeat' first
    | with_reducible assumption
    | with_reducible apply bump_keeps
    | with_reducible apply dropChainPreload_keeps
    | with_reducible apply each_keeps
    | with_reducible apply setChain_keeps
    | with_reducible apply unfire_keeps
    | with_reducible apply postRecord_keeps
    | with_reducible apply trace_keeps
    | with_reducible apply ite_keeps <;> intro _
    | with_reducible apply each_keeps
    | intro _ _ _

theorem endDestroy_keeps [Fact (W .img)] [Fact (W .data)] [Fact (W .queues)] [Fact (W .slots)] [Fact (W .host)] (h : Keeps P W o s) (a1) : Keeps P W o (State.endDestroy s a1) := by
  unfold State.endDestroy
  extract_lets q bs s1 s2 im s3 s4 s5
  have h1 : Keeps P W o s1 := ite_keeps (fun _ => hostWrite_keeps h _ _) (fun _ => hubWrite_keeps h _ _)
  have h2 : Keeps P W o s2 := by
    simp only [s2]
    split
    · exact h1
    · exact modSlot_keeps h1 _ _
  have h3 : Keeps P W o s3 := xlat_keeps h2 _ (swf_smap _ _ _ h2.flat.xlat)
  have h4 : Keeps P W o s4 := slots_keeps h3 _ (swf_smap _ _ _ h3.flat.slots)
  have h5 : Keeps P W o s5 := by
    refine modMbx_keeps (setQueue_keeps h4 _ _) _ ?_
    exact fun _ => ⟨rfl, rfl⟩
  exact serveHead_keeps (reply_keeps h5 _ _ _)

theorem endDestroys_keeps [Fact (W .img)] [Fact (W .data)] [Fact (W .engines)] [Fact (W .queues)] [Fact (W .slots)] [Fact (W .per)] [Fact (W .host)] (h : Keeps P W o s) : Keeps P W o (State.endDestroys s) := by
  unfold State.endDestroys
  repeat' first
    | with_reducible assumption
    | with_reducible apply cancelChains_keeps
    | with_reducible apply each_keeps
    | with_reducible apply endDestroy_keeps
    | with_reducible apply ite_keeps <;> intro _
    | with_reducible apply each_keeps
    | intro _ _ _
    | split
    | dsimp only

theorem finish_keeps [Fact (W .img)] [Fact (W .halves)] [Fact (W .data)] [Fact (W .engines)] [Fact (W .queues)] [Fact (W .slots)] [Fact (W .per)] [Fact (W .host)] (h : Keeps P W o s) (a1 a2 a3) : Keeps P W o (State.finish s a1 a2 a3) := by
  unfold State.finish
  repeat' first
    | with_reducible assumption
    | with_reducible apply discardPreload_keeps
    | with_reducible apply endDestroys_keeps
    | with_reducible apply confirmPreload_keeps
    | with_reducible apply atBoundary_keeps
    | with_reducible apply postRecord_keeps
    | with_reducible apply ite_keeps <;> intro _

theorem traceStart_keeps (h : Keeps P W o s) (a1 a2) : Keeps P W o (State.traceStart s a1 a2) := by
  unfold State.traceStart
  repeat' first
    | with_reducible assumption
    | with_reducible apply trace_keeps

theorem finishPriv_keeps [Fact (W .img)] [Fact (W .data)] [Fact (W .engines)] [Fact (W .queues)] [Fact (W .slots)] [Fact (W .per)] [Fact (W .host)] (h : Keeps P W o s) (a1 a2) : Keeps P W o (State.finishPriv s a1 a2) := by
  unfold State.finishPriv
  repeat' first
    | with_reducible assumption
    | with_reducible apply endDestroys_keeps
    | with_reducible apply modMbx_keeps
    | with_reducible apply postRecord_keeps
    | with_reducible apply modSlot_keeps
    | exact fun _ => ⟨rfl, rfl⟩
    | intro _ _ _
    | split

theorem failPriv_keeps [Fact (W .img)] [Fact (W .data)] [Fact (W .engines)] [Fact (W .queues)] [Fact (W .slots)] [Fact (W .per)] [Fact (W .host)] (h : Keeps P W o s) (a1 a2) : Keeps P W o (State.failPriv s a1 a2) := by
  unfold State.failPriv
  repeat' first
    | with_reducible assumption
    | with_reducible apply finishPriv_keeps
    | with_reducible apply noteAs_keeps

theorem freeSlot_keeps [Fact (W .slots)] (h : Keeps P W o s) (a1) : Keeps P W o (State.freeSlot s a1) := by
  unfold State.freeSlot
  repeat' first
    | with_reducible assumption
    | with_reducible apply modSlot_keeps

end Sys2Proof.Machine
end

