-- ==== Sys2Proof/Laws/KeepAccess.lean ====
section
/-! SUPPORT. What the operations and commands of Machine/Access.lean keep (see Laws/Keep.lean). -/
namespace Sys2Proof.Machine

variable {P : Prop} {W : Part → Prop} {o s t : State}

theorem setLatch_keeps [Fact (W .sel)] (h : Keeps P W o s) (a1 a2) : Keeps P W o (State.setLatch s a1 a2) := by
  cases a1 <;> exact latch_keeps h _ _ _ _

theorem setWin_keeps (h : Keeps P W o s) (a1 a2) : Keeps P W o (State.setWin s a1 a2) := by
  unfold State.setWin
  repeat' first
    | with_reducible assumption
    | with_reducible apply modEvr_keeps
    | exact fun _ => ⟨Nat.le_max_left _ _, Nat.le_refl _⟩
    | intro _ _ _
    | split

theorem winLatch_keeps (h : Keeps P W o s) (a1) : Keeps P W o (State.winLatch s a1) := by
  unfold State.winLatch
  repeat' first
    | with_reducible assumption
    | with_reducible apply setWin_keeps
    | intro _ _ _
    | split
    | dsimp only

theorem askWake_keeps [Fact (W .halves)] (h : Keeps P W o s) (a1) : Keeps P W o (State.askWake s a1) := by
  unfold State.askWake
  repeat' first
    | with_reducible assumption
    | with_reducible apply modHalf_keeps
    | with_reducible apply ite_keeps <;> intro _

theorem winAdvance_keeps (h : Keeps P W o s) (a1) : Keeps P W o (State.winAdvance s a1) := by
  unfold State.winAdvance
  repeat' first
    | with_reducible assumption
    | with_reducible apply setWin_keeps
    | with_reducible apply winLatch_keeps
    | with_reducible apply ite_keeps <;> intro _
    | intro _ _ _
    | split

theorem readReg_keeps [Fact (W .halves)] [Fact (W .sel)] (h : Keeps P W o s) (a1 a2) : Keeps P W o (State.readReg s a1 a2) := by
  unfold State.readReg
  repeat' first
    | with_reducible assumption
    | with_reducible apply setLatch_keeps
    | with_reducible apply answer_keeps
    | with_reducible apply askWake_keeps
    | with_reducible apply winAdvance_keeps
    | with_reducible apply ite_keeps <;> intro _
    | intro _ _ _
    | split

theorem ackHi_keeps (h : Keeps P W o s) (a1) : Keeps P W o (State.ackHi s a1) := by
  unfold State.ackHi
  refine modEvr_keeps h _ (fun v => ?_)
  split
  · exact ⟨Nat.le_max_left _ _, Nat.le_refl _⟩
  · exact ⟨Nat.le_trans (ack_length _ _ _) (Nat.le_max_left _ _), Nat.le_refl _⟩

theorem bar2_keeps [Fact (W .data)] (h : Keeps P W o s) (a1 a2 a3 a4) : Keeps P W o (State.bar2 s a1 a2 a3 a4) := by
  unfold State.bar2
  repeat' first
    | with_reducible assumption
    | with_reducible apply answer_keeps
    | with_reducible apply devNote_keeps
    | with_reducible apply xlatFault_keeps
    | with_reducible apply devWrite_keeps
    | with_reducible apply ite_keeps <;> intro _
    | intro _ _ _
    | split

theorem evrCtrl_keeps (h : Keeps P W o s) (a1) : Keeps P W o (State.evrCtrl s a1) := by
  unfold State.evrCtrl
  extract_lets on s1
  have h1 : Keeps P W o s1 := modEvr_keeps h _ (fun _ => ⟨Nat.le_max_left _ _, Nat.le_refl _⟩)
  refine ite_keeps (fun _ => ?_) (fun _ => ite_keeps (fun _ => ?_) (fun _ => h1))
  · refine modEvr_keeps h1 _ ?_
    exact fun _ => ⟨Nat.le_max_left _ _, Nat.le_refl _⟩
  · exact modEvr_keeps h1 _ (fun v => ⟨Nat.le_trans (thaw_length _ v) (Nat.le_max_left _ _), Nat.le_of_eq (thaw_head _ v).symm⟩)

theorem bar4_keeps (h : Keeps P W o s) (a1 a2) : Keeps P W o (State.bar4 s a1 a2) := by
  unfold State.bar4
  repeat' first
    | with_reducible assumption
    | with_reducible apply queueCheck_keeps
    | with_reducible apply answer_keeps
    | with_reducible apply each_keeps
    | with_reducible apply ite_keeps <;> intro _
    | with_reducible apply each_keeps
    | intro _ _ _

theorem cursorHi_keeps (h : Keeps P W o s) (a1 a2) : Keeps P W o (State.cursorHi s a1 a2) := by
  unfold State.cursorHi
  repeat' first
    | with_reducible assumption
    | with_reducible apply setWin_keeps
    | with_reducible apply winLatch_keeps

theorem writePort_keeps [Fact (W .per)] (h : Keeps P W o s) (a1 a2 a3) : Keeps P W o (State.writePort s a1 a2 a3) := by
  unfold State.writePort
  repeat' first
    | with_reducible assumption
    | with_reducible apply each_keeps
    | with_reducible apply modPort_keeps
    | with_reducible apply ite_keeps <;> intro _
    | with_reducible apply each_keeps
    | intro _ _ _

theorem configWrite_keeps (h : Keeps P W o s) (a1 a2) : Keeps P W o (State.configWrite s a1 a2) := by
  unfold State.configWrite
  repeat' first
    | with_reducible assumption
    | with_reducible apply modPorts_keeps
    | with_reducible apply ite_keeps <;> intro _
    | exact fun _ => rfl
    | intro _ _ _
    | split

theorem writeProg_keeps [Fact (W .per)] (h : Keeps P W o s) (a1 a2 a3) : Keeps P W o (State.writeProg s a1 a2 a3) := by
  unfold State.writeProg
  repeat' first
    | with_reducible assumption
    | with_reducible apply setProg_keeps
    | with_reducible apply ite_keeps <;> intro _

theorem perst_keeps (h : Keeps P W o s) : Keeps P W o (State.perst s) := by
  unfold State.perst
  repeat' first
    | with_reducible assumption
    | with_reducible apply modPorts_keeps
    | exact fun _ => rfl

theorem clearSat_keeps [Fact (W .fences)] (h : Keeps P W o s) (a1 a2) : Keeps P W o (State.clearSat s a1 a2) := by
  unfold State.clearSat
  repeat' first
    | with_reducible assumption
    | with_reducible apply foldl_keeps
    | with_reducible refine fenceSat_keeps ?_ _

theorem writeH2f_keeps (h : Keeps P W o s) (a1 a2) : Keeps P W o (State.writeH2f s a1 a2) := by
  unfold State.writeH2f
  repeat' first
    | with_reducible assumption
    | with_reducible apply setH2f_keeps
    | with_reducible apply event_keeps
    | with_reducible apply ite_keeps <;> intro _

theorem writeMbx_keeps [Fact (W .halves)] (h : Keeps P W o s) (a1 a2 a3) : Keeps P W o (State.writeMbx s a1 a2 a3) := by
  unfold State.writeMbx
  repeat' first
    | with_reducible assumption
    | with_reducible apply each_keeps
    | with_reducible apply setH2f_keeps
    | with_reducible apply setF2h_keeps
    | with_reducible apply ringHost_keeps
    | with_reducible apply askWake_keeps
    | with_reducible apply raise_keeps
    | with_reducible apply modMbx_keeps
    | with_reducible apply postF2h_keeps
    | with_reducible apply writeH2f_keeps
    | with_reducible apply ite_keeps <;> intro _
    | with_reducible apply each_keeps
    | exact fun _ => ⟨rfl, rfl⟩
    | intro _ _ _
    | split

theorem plainWrite_keeps [Fact (W .halves)] [Fact (W .fences)] [Fact (W .queues)] [Fact (W .sel)] [Fact (W .per)] [Fact (W .clk)] (h : Keeps P W o s) (a1 a2 a3) : Keeps P W o (State.plainWrite s a1 a2 a3) := by
  unfold State.plainWrite
  extract_lets q keep
  split
  · refine ite_keeps (fun _ => clearSat_keeps h _ _) (fun _ => ite_keeps (fun _ => ?_) (fun _ => ite_keeps (fun _ => ite_keeps (fun _ => modQueue_keeps h _ _) (fun _ => h)) (fun _ => h)))
    cases a1 <;> exact latch_keeps h _ _ _ _
  · exact writeMbx_keeps h _ _ _
  · refine ite_keeps (fun _ => setWin_keeps h _ _) (fun _ => ite_keeps (fun _ => ?_) (fun _ => h))
    refine modEvr_keeps h _ ?_
    exact fun _ => ⟨Nat.le_max_left _ _, Nat.le_refl _⟩
  · refine ite_keeps (fun _ => ?_) (fun _ => h)
    exact memMarks_keeps h _ rfl rfl
  · refine ite_keeps (fun _ => writeProg_keeps h _ _ _) (fun _ => ite_keeps (fun _ => writePort_keeps h _ _ _) (fun _ => ite_keeps (fun _ => ?_) (fun _ => h)))
    refine modPer_keeps h _ ?_
    exact fun _ => ⟨rfl, rfl⟩
  · exact ite_keeps (fun _ => modClk_keeps h _) (fun _ => ite_keeps (fun _ => modClk_keeps h _) (fun _ => h))
  · refine ite_keeps (fun _ => ?_) (fun _ => h)
    refine modYards_keeps h _ ?_
    exact fun _ => ⟨rfl, rfl, rfl⟩
  · exact h

end Sys2Proof.Machine
end

