-- ==== Sys2Proof/Laws/KeepHost.lean ====
section
/-! SUPPORT. What the operations and commands of Machine/Host.lean keep (see Laws/Keep.lean). -/
namespace Sys2Proof.Machine

variable {P : Prop} {W : Part → Prop} {o s t : State}

theorem onWrite_keeps (h : Keeps P W o s) (a1) (f : State → State) (hf : ∀ u, Keeps P W o u → Keeps P W o (f u)) :
    Keeps P W o (State.onWrite s a1 f) := by
  unfold State.onWrite
  split
  · exact answer_keeps (hf _ h) _
  · exact answer_keeps h _

theorem fenceAdd_keeps [Fact (W .fences)] (h : Keeps P W o s) (a1 a2) : Keeps P W o (State.fenceAdd s a1 a2) := by
  unfold State.fenceAdd
  have hb := (s.fence a1).isLt
  refine ite_keeps (fun hv => ?_) (fun hv => ?_)
  · have h1 := fences_keeps (event_keeps (event_keeps h (.fenceSat a1)) (.fenceUp a1)) a1 (BitVec.ofNat 64 (2 ^ 64 - 1))
      (by simp only [event_fence, BitVec.toNat_ofNat]; omega)
    rw [event_fences, event_fences] at h1
    exact fenceSat_keeps h1 _
  · have h1 := fences_keeps (event_keeps h (.fenceUp a1)) a1 (BitVec.ofNat 64 ((s.fence a1).toNat + a2))
      (by simp only [event_fence, BitVec.toNat_ofNat]; omega)
    rwa [event_fences] at h1

theorem fenceWrite_keeps [Fact (W .fences)] (h : Keeps P W o s) (a1) : Keeps P W o (State.fenceWrite s a1) := by
  unfold State.fenceWrite
  repeat' first
    | with_reducible assumption
    | with_reducible apply trace_keeps
    | with_reducible apply fenceAdd_keeps

theorem execFeFenceAdd_keeps [Fact (W .fences)] (h : Keeps P W o s) (a1) : OutKeeps P W o (execFeFenceAdd a1 s) := by
  unfold execFeFenceAdd
  repeat' first
    | with_reducible assumption
    | with_reducible apply fenceWrite_keeps
    | with_reducible apply onWrite_keeps
    | with_reducible apply next_keeps
    | with_reducible apply fault_keeps
    | intro _ _ _
    | intro _ _

theorem execEvrFreezeExpiry_keeps (h : Keeps P W o s) : OutKeeps P W o (execEvrFreezeExpiry s) := by
  unfold execEvrFreezeExpiry
  repeat' first
    | with_reducible assumption
    | with_reducible apply modEvr_keeps
    | with_reducible apply ite_keeps <;> intro _
    | with_reducible apply next_keeps
    | with_reducible apply fault_keeps
    | exact fun _ => ⟨Nat.le_max_left _ _, Nat.le_refl _⟩
    | exact fun v => ⟨Nat.le_trans (thaw_length _ v) (Nat.le_max_left _ _), Nat.le_of_eq (thaw_head _ v).symm⟩

theorem execDbH2fPoll_keeps [Fact (W .data)] [Fact (W .host)] (h : Keeps P W o s) : OutKeeps P W o (execDbH2fPoll s) := by
  unfold execDbH2fPoll
  repeat' first
    | with_reducible assumption
    | with_reducible apply serveHead_keeps
    | with_reducible apply modMbx_keeps
    | with_reducible apply ite_keeps <;> intro _
    | with_reducible apply next_keeps
    | with_reducible apply fault_keeps
    | exact fun _ => ⟨rfl, rfl⟩

theorem execI3cPrivateRead_keeps [Fact (W .halves)] [Fact (W .sel)] (h : Keeps P W o s) : OutKeeps P W o (execI3cPrivateRead s) := by
  unfold execI3cPrivateRead
  repeat' first
    | with_reducible assumption
    | with_reducible apply answer_keeps
    | with_reducible apply readReg_keeps
    | with_reducible apply ite_keeps <;> intro _
    | with_reducible apply next_keeps

theorem execEvrAckHi_keeps (h : Keeps P W o s) (a1) : OutKeeps P W o (execEvrAckHi a1 s) := by
  unfold execEvrAckHi
  repeat' first
    | with_reducible assumption
    | with_reducible apply ackHi_keeps
    | with_reducible apply onWrite_keeps
    | with_reducible apply next_keeps
    | with_reducible apply fault_keeps
    | intro _ _ _
    | intro _ _

theorem fenceMax_keeps [Fact (W .fences)] (h : Keeps P W o s) (a1 a2) : Keeps P W o (State.fenceMax s a1 a2) := by
  unfold State.fenceMax
  have hb := (s.fence a1).isLt
  have h1 := fences_keeps (event_keeps h (.fenceUp a1)) a1 (BitVec.ofNat 64 (max (s.fence a1).toNat (a2 % 2 ^ 64))) (by
    rw [event_fence, BitVec.toNat_ofNat, Nat.mod_eq_of_lt (by have := Nat.mod_lt a2 (show 0 < 2 ^ 64 by decide); omega)]
    exact Nat.le_max_left _ _)
  rwa [event_fences] at h1

theorem execBar2Access_keeps [Fact (W .data)] (h : Keeps P W o s) (a1 a2 a3 a4) : OutKeeps P W o (execBar2Access a1 a2 a3 a4 s) := by
  unfold execBar2Access
  repeat' first
    | with_reducible assumption
    | with_reducible apply bar2_keeps
    | with_reducible apply next_keeps

theorem execEvrThaw_keeps (h : Keeps P W o s) (a1) : OutKeeps P W o (execEvrThaw a1 s) := by
  unfold execEvrThaw
  repeat' first
    | with_reducible assumption
    | with_reducible apply evrCtrl_keeps
    | with_reducible apply onWrite_keeps
    | with_reducible apply next_keeps
    | with_reducible apply fault_keeps
    | intro _ _ _
    | intro _ _

theorem execBar4Read_keeps (h : Keeps P W o s) (a1 a2) : OutKeeps P W o (execBar4Read a1 a2 s) := by
  unfold execBar4Read
  repeat' first
    | with_reducible assumption
    | with_reducible apply bar4_keeps
    | with_reducible apply next_keeps

theorem execTestLogicReset_keeps (h : Keeps P W o s) : OutKeeps P W o (execTestLogicReset s) := by
  unfold execTestLogicReset
  repeat' first
    | with_reducible assumption
    | with_reducible apply modPorts_keeps
    | with_reducible apply next_keeps
    | with_reducible apply fault_keeps
    | exact fun _ => rfl

theorem execI3cCcc_keeps (h : Keeps P W o s) (a1) : OutKeeps P W o (execI3cCcc a1 s) := by
  unfold execI3cCcc
  repeat' first
    | with_reducible assumption
    | with_reducible apply answer_keeps
    | with_reducible apply draw_keeps
    | with_reducible apply modPorts_keeps
    | with_reducible apply next_keeps
    | with_reducible apply fault_keeps
    | exact fun _ => rfl
    | intro _ _ _
    | split

theorem execMbxF2hAck_keeps (h : Keeps P W o s) (a1 a2) : OutKeeps P W o (execMbxF2hAck a1 a2 s) := by
  unfold execMbxF2hAck
  repeat' first
    | with_reducible assumption
    | with_reducible apply ackF2h_keeps
    | with_reducible apply onWrite_keeps
    | with_reducible apply next_keeps
    | with_reducible apply fault_keeps
    | intro _ _ _
    | intro _ _

theorem execI3cPrivateWrite_keeps (h : Keeps P W o s) (a1) : OutKeeps P W o (execI3cPrivateWrite a1 s) := by
  unfold execI3cPrivateWrite
  repeat' first
    | with_reducible assumption
    | with_reducible apply modPorts_keeps
    | with_reducible apply ite_keeps <;> intro _
    | with_reducible apply next_keeps
    | with_reducible apply fault_keeps
    | exact fun _ => rfl

theorem recSel_keeps [Fact (W .route)] (h : Keeps P W o s) (a1 a2) : Keeps P W o (State.recSel s a1 a2) := by
  unfold State.recSel
  repeat' first
    | with_reducible assumption
    | with_reducible apply modRoute_keeps

theorem execRteRecSel_keeps [Fact (W .route)] (h : Keeps P W o s) (a1 a2) : OutKeeps P W o (execRteRecSel a1 a2 s) := by
  unfold execRteRecSel
  repeat' first
    | with_reducible assumption
    | with_reducible apply recSel_keeps
    | with_reducible apply onWrite_keeps
    | with_reducible apply next_keeps
    | with_reducible apply fault_keeps
    | intro _ _ _
    | intro _ _

theorem execEvrCursorHi_keeps (h : Keeps P W o s) (a1 a2) : OutKeeps P W o (execEvrCursorHi a1 a2 s) := by
  unfold execEvrCursorHi
  repeat' first
    | with_reducible assumption
    | with_reducible apply cursorHi_keeps
    | with_reducible apply onWrite_keeps
    | with_reducible apply next_keeps
    | with_reducible apply fault_keeps
    | intro _ _ _
    | intro _ _

theorem badWrite_keeps (h : Keeps P W o s) : Keeps P W o (State.badWrite s) := by
  unfold State.badWrite
  repeat' first
    | with_reducible assumption
    | with_reducible apply bump_keeps
    | with_reducible apply answer_keeps
    | with_reducible apply ite_keeps <;> intro _

theorem execEvrWin15_keeps [Fact (W .halves)] [Fact (W .sel)] (h : Keeps P W o s) (a1) : OutKeeps P W o (execEvrWin15 a1 s) := by
  unfold execEvrWin15
  repeat' first
    | with_reducible assumption
    | with_reducible apply readReg_keeps
    | with_reducible apply next_keeps

theorem execConfigurationWrite_keeps (h : Keeps P W o s) (a1 a2) : OutKeeps P W o (execConfigurationWrite a1 a2 s) := by
  unfold execConfigurationWrite
  repeat' first
    | with_reducible assumption
    | with_reducible apply configWrite_keeps
    | with_reducible apply next_keeps

theorem execTapInstruction_keeps (h : Keeps P W o s) (a1) : OutKeeps P W o (execTapInstruction a1 s) := by
  unfold execTapInstruction
  repeat' first
    | with_reducible assumption
    | with_reducible apply answer_keeps
    | with_reducible apply modPorts_keeps
    | with_reducible apply ite_keeps <;> intro _
    | with_reducible apply ite_out_keeps <;> intro _
    | with_reducible apply next_keeps
    | with_reducible apply fault_keeps
    | exact fun _ => rfl

theorem execUnsupportedRequest_keeps (h : Keeps P W o s) (a1) : OutKeeps P W o (execUnsupportedRequest a1 s) := by
  unfold execUnsupportedRequest
  repeat' first
    | with_reducible assumption
    | with_reducible apply answer_keeps
    | with_reducible apply ite_keeps <;> intro _
    | with_reducible apply next_keeps

theorem execPerst_keeps (h : Keeps P W o s) : OutKeeps P W o (execPerst s) := by
  unfold execPerst
  repeat' first
    | with_reducible assumption
    | with_reducible apply perst_keeps
    | with_reducible apply next_keeps

theorem execDbH2f_keeps (h : Keeps P W o s) (a1) : OutKeeps P W o (execDbH2f a1 s) := by
  unfold execDbH2f
  repeat' first
    | with_reducible assumption
    | with_reducible apply modMbx_keeps
    | with_reducible apply onWrite_keeps
    | with_reducible apply next_keeps
    | with_reducible apply fault_keeps
    | exact fun _ => ⟨rfl, rfl⟩
    | intro _ _ _
    | intro _ _

theorem execMbxH2fSeq_keeps [Fact (W .data)] [Fact (W .host)] (h : Keeps P W o s) (a1 a2) : OutKeeps P W o (execMbxH2fSeq a1 a2 s) := by
  unfold execMbxH2fSeq
  repeat' first
    | with_reducible assumption
    | with_reducible apply postH2f_keeps
    | with_reducible apply onWrite_keeps
    | with_reducible apply next_keeps
    | with_reducible apply fault_keeps
    | intro _ _ _
    | intro _ _

theorem execEvrFreeze_keeps (h : Keeps P W o s) (a1) : OutKeeps P W o (execEvrFreeze a1 s) := by
  unfold execEvrFreeze
  repeat' first
    | with_reducible assumption
    | with_reducible apply evrCtrl_keeps
    | with_reducible apply onWrite_keeps
    | with_reducible apply next_keeps
    | with_reducible apply fault_keeps
    | intro _ _ _
    | intro _ _

theorem execBar0BadWrite_keeps (h : Keeps P W o s) : OutKeeps P W o (execBar0BadWrite s) := by
  unfold execBar0BadWrite
  repeat' first
    | with_reducible assumption
    | with_reducible apply badWrite_keeps
    | with_reducible apply next_keeps

end Sys2Proof.Machine
end

