-- ==== Sys2Proof/Laws/KeepRng.lean ====
section
/-! SUPPORT. What the operations and commands of Machine/Rng.lean keep (see Laws/Keep.lean). -/
namespace Sys2Proof.Machine

variable {P : Prop} {W : Part → Prop} {o s t : State}

theorem alarm_keeps [Fact (W .rng)] (h : Keeps P W o s) (a1) : Keeps P W o (State.alarm s a1) := by
  unfold State.alarm
  repeat' first
    | with_reducible assumption
    | with_reducible apply modRngHub_keeps
    | with_reducible apply raise_keeps
    | with_reducible apply ite_keeps <;> intro _

theorem blockFails_keeps [Fact (W .rng)] (h : Keeps P W o s) (a1 a2 a3 a4) : Keeps P W o (State.blockFails s a1 a2 a3 a4) := by
  unfold State.blockFails
  repeat' first
    | with_reducible assumption
    | with_reducible apply bump_keeps
    | with_reducible apply alarm_keeps
    | with_reducible apply modRngHub_keeps
    | with_reducible apply raise_keeps
    | with_reducible apply ite_keeps <;> intro _

theorem blockPasses_keeps [Fact (W .rng)] (h : Keeps P W o s) (a1 a2 a3 a4 a5) : Keeps P W o (State.blockPasses s a1 a2 a3 a4 a5) := by
  unfold State.blockPasses
  repeat' first
    | with_reducible assumption
    | with_reducible apply setRngHub_keeps
    | with_reducible apply bump_keeps
    | with_reducible apply ite_keeps <;> intro _

theorem block_keeps [Fact (W .rng)] (h : Keeps P W o s) (a1 a2 a3) : Keeps P W o (State.block s a1 a2 a3) := by
  unfold State.block
  repeat' first
    | with_reducible assumption
    | with_reducible apply blockFails_keeps
    | with_reducible apply blockPasses_keeps
    | with_reducible apply modRngHub_keeps
    | with_reducible apply ite_keeps <;> intro _

theorem reseed_keeps [Fact (W .rng)] (h : Keeps P W o s) (a1) : Keeps P W o (State.reseed s a1) := by
  unfold State.reseed
  repeat' first
    | with_reducible assumption
    | with_reducible apply bump_keeps
    | with_reducible apply modRngHub_keeps
    | with_reducible apply ite_keeps <;> intro _

theorem generate_keeps [Fact (W .rng)] (h : Keeps P W o s) (a1) : Keeps P W o (State.generate s a1).2 := by
  unfold State.generate
  repeat' first
    | with_reducible assumption
    | with_reducible apply setRngHub_keeps
    | with_reducible apply bump_keeps
    | with_reducible apply raise_keeps
    | with_reducible apply ite_keeps <;> intro _

theorem serveRecord_keeps [Fact (W .rng)] (h : Keeps P W o s) (a1 a2 a3 a4) : Keeps P W o (State.serveRecord s a1 a2 a3 a4) := by
  unfold State.serveRecord
  repeat' first
    | with_reducible assumption
    | with_reducible apply answer_keeps
    | with_reducible refine rng_keeps ?_ _ rfl
    | intro _ _ _
    | split

end Sys2Proof.Machine
end

