-- ==== Sys2Proof/Laws/KeepRouteObject.lean ====
section
/-! SUPPORT. What the operations and commands of Machine/RouteObject.lean keep (see Laws/Keep.lean). -/
namespace Sys2Proof.Machine

variable {P : Prop} {W : Part → Prop} {o s t : State}

theorem clearRange_keeps [Fact (W .route)] (h : Keeps P W o s) (a1) : Keeps P W o (State.clearRange s a1) := by
  unfold State.clearRange
  repeat' first
    | with_reducible assumption
    | with_reducible apply modRoute_keeps

theorem startRoute_keeps [Fact (W .route)] (h : Keeps P W o s) (a1) : Keeps P W o (State.startRoute s a1) := by
  unfold State.startRoute
  repeat' first
    | with_reducible assumption
    | with_reducible apply modRoute_keeps
    | with_reducible apply clearRange_keeps
    | with_reducible apply bumpBy_keeps

theorem discardSent_keeps [Fact (W .route)] (h : Keeps P W o s) : Keeps P W o (State.discardSent s) := by
  unfold State.discardSent
  repeat' first
    | with_reducible assumption
    | with_reducible apply modRoute_keeps
    | with_reducible apply bumpBy_keeps

end Sys2Proof.Machine
end

