-- ==== Sys2Proof/Laws/KeepEngine.lean ====
section
/-! SUPPORT. What the operations and commands of Machine/Engine.lean keep (see Laws/Keep.lean). -/
namespace Sys2Proof.Machine

variable {P : Prop} {W : Part → Prop} {o s t : State}

theorem wakeClock_keeps (h : Keeps P W o s) (a1) : Keeps P W o (State.wakeClock s a1).2 := by
  unfold State.wakeClock
  repeat' first
    | with_reducible assumption
    | with_reducible apply draw_keeps
    | intro _ _ _
    | split

theorem complete_keeps [Fact (W .img)] [Fact (W .halves)] [Fact (W .data)] [Fact (W .engines)] [Fact (W .queues)] [Fact (W .slots)] [Fact (W .per)] [Fact (W .host)] (h : Keeps P W o s) (a1 a2 a3) : Keeps P W o (State.complete s a1 a2 a3) := by
  unfold State.complete
  repeat' first
    | with_reducible assumption
    | with_reducible apply finish_keeps
    | with_reducible apply ite_keeps <;> intro _

theorem setModes_keeps [Fact (W .halves)] [Fact (W .cores)] (h : Keeps P W o s) (a1 a2) : Keeps P W o (State.setModes s a1 a2) := by
  unfold State.setModes
  repeat' first
    | with_reducible assumption
    | with_reducible apply modHalf_keeps
    | with_reducible apply each_keeps
    | with_reducible apply modCore_keeps
    | with_reducible apply each_keeps
    | intro _ _ _
    | split

theorem placeTack_keeps [Fact (W .spad)] (h : Keeps P W o s) (a1 a2) : Keeps P W o (State.placeTack s a1 a2) := by
  unfold State.placeTack
  repeat' first
    | with_reducible assumption
    | with_reducible apply each_keeps
    | with_reducible apply spadWrite_keeps
    | with_reducible apply spadSpoil_keeps
    | with_reducible apply ite_keeps <;> intro _
    | with_reducible apply each_keeps
    | intro _ _ _

theorem swapPrograms_keeps [Fact (W .engines)] (h : Keeps P W o s) (a1) : Keeps P W o (State.swapPrograms s a1) := by
  unfold State.swapPrograms
  repeat' first
    | with_reducible assumption
    | with_reducible apply modEng_keeps

theorem showRoute_keeps [Fact (W .route)] (h : Keeps P W o s) (a1) : Keeps P W o (State.showRoute s a1) := by
  unfold State.showRoute
  repeat' first
    | with_reducible assumption
    | with_reducible apply modRoute_keeps
    | with_reducible apply startRoute_keeps
    | with_reducible apply ite_keeps <;> intro _

theorem hold_keeps [Fact (W .engines)] (h : Keeps P W o s) (a1 a2 a3) : Keeps P W o (State.hold s a1 a2 a3) := by
  unfold State.hold
  repeat' first
    | with_reducible assumption
    | with_reducible apply modEng_keeps

theorem start_keeps [Fact (W .halves)] [Fact (W .cores)] [Fact (W .spad)] [Fact (W .engines)] [Fact (W .route)] (h : Keeps P W o s) (a1 a2) : Keeps P W o (State.start s a1 a2) := by
  unfold State.start
  repeat' first
    | with_reducible assumption
    | with_reducible apply hold_keeps
    | with_reducible apply traceStart_keeps
    | with_reducible apply setModes_keeps
    | with_reducible apply swapPrograms_keeps
    | with_reducible apply placeTack_keeps
    | with_reducible apply showRoute_keeps
    | with_reducible apply ite_keeps <;> intro _

/-- The same of the command that START gives. -/
theorem starting_keeps [Fact (W .halves)] [Fact (W .cores)] [Fact (W .spad)] [Fact (W .engines)] [Fact (W .route)] (h : Keeps P W o s) {e op : Nat} {x : Cmd × State} (hx : s.starting e op = some x) : Keeps P W o x.2 := by
  unfold State.starting at hx
  split at hx
  · injection hx with hx; subst hx; exact h
  · split at hx
    · split at hx
      · injection hx with hx; subst hx; exact start_keeps h _ _
      · cases hx
    · cases hx

theorem noteFail_keeps (h : Keeps P W o s) (a1 a2) : Keeps P W o (State.noteFail s a1 a2) := by
  unfold State.noteFail
  repeat' first
    | with_reducible assumption
    | with_reducible apply noteAs_keeps

theorem faultQueue_keeps [Fact (W .queues)] (h : Keeps P W o s) (a1) : Keeps P W o (State.faultQueue s a1) := by
  unfold State.faultQueue
  repeat' first
    | with_reducible assumption
    | with_reducible apply modQueue_keeps

theorem failCmd_keeps [Fact (W .img)] [Fact (W .halves)] [Fact (W .data)] [Fact (W .engines)] [Fact (W .queues)] [Fact (W .slots)] [Fact (W .per)] [Fact (W .host)] (h : Keeps P W o s) (a1 a2 a3) : Keeps P W o (State.failCmd s a1 a2 a3) := by
  unfold State.failCmd
  repeat' first
    | with_reducible assumption
    | with_reducible apply finish_keeps
    | with_reducible apply modEng_keeps
    | with_reducible apply faultQueue_keeps
    | with_reducible apply noteFail_keeps
    | with_reducible apply ite_keeps <;> intro _

theorem seedFails_keeps [Fact (W .img)] [Fact (W .halves)] [Fact (W .data)] [Fact (W .engines)] [Fact (W .queues)] [Fact (W .slots)] [Fact (W .per)] [Fact (W .host)] (h : Keeps P W o s) (a1) : Keeps P W o (State.seedFails s a1) := by
  unfold State.seedFails
  repeat' first
    | with_reducible assumption
    | with_reducible apply failCmd_keeps
    | with_reducible apply ite_keeps <;> intro _
    | intro _ _ _
    | split

theorem reportRing_keeps [Fact (W .data)] [Fact (W .engines)] [Fact (W .queues)] [Fact (W .per)] [Fact (W .host)] (h : Keeps P W o s) (a1 a2 a3) : Keeps P W o (State.reportRing s a1 a2 a3) := by
  induction a3 generalizing s  with
  | zero =>
    unfold State.reportRing
    repeat' first
      | with_reducible assumption
  | succ n ih =>
    unfold State.reportRing
    repeat' first
      | with_reducible assumption
      | with_reducible apply ih
      | with_reducible apply setQueue_keeps
      | with_reducible apply postRecord_keeps
      | with_reducible apply ite_keeps <;> intro _

theorem reportQueue_keeps [Fact (W .data)] [Fact (W .engines)] [Fact (W .queues)] [Fact (W .per)] [Fact (W .host)] (h : Keeps P W o s) (a1) : Keeps P W o (State.reportQueue s a1) := by
  unfold State.reportQueue
  repeat' first
    | with_reducible assumption
    | with_reducible apply reportRing_keeps
    | with_reducible apply ite_keeps <;> intro _

theorem moveIn_keeps [Fact (W .data)] [Fact (W .engines)] [Fact (W .queues)] [Fact (W .slots)] [Fact (W .per)] [Fact (W .host)] (h : Keeps P W o s) (a1 a2) : Keeps P W o (State.moveIn s a1 a2) := by
  unfold State.moveIn
  repeat' first
    | with_reducible assumption
    | with_reducible apply reportQueue_keeps
    | with_reducible apply modQueue_keeps
    | with_reducible apply modSlot_keeps

theorem mapAll_keeps [Fact (W .data)] [Fact (W .engines)] [Fact (W .queues)] [Fact (W .slots)] [Fact (W .per)] [Fact (W .host)] (h : Keeps P W o s) (a1 a2) : Keeps P W o (State.mapAll s a1 a2) := by
  induction a2 generalizing s  with
  | zero =>
    unfold State.mapAll
    repeat' first
      | with_reducible assumption
  | succ n ih =>
    unfold State.mapAll
    repeat' first
      | with_reducible assumption
      | with_reducible apply ih
      | with_reducible apply bump_keeps
      | with_reducible apply moveIn_keeps
      | with_reducible apply modSlot_keeps
      | with_reducible apply ite_keeps <;> intro _
      | intro _ _ _
      | split
      | dsimp only

theorem endWait_keeps (h : Keeps P W o s) (a1) : Keeps P W o (State.endWait s a1) := by
  unfold State.endWait
  repeat' first
    | with_reducible assumption
    | with_reducible apply modPorts_keeps
    | exact fun _ => rfl

theorem wakeHalf_keeps [Fact (W .halves)] [Fact (W .spad)] (h : Keeps P W o s) (a1) : Keeps P W o (State.wakeHalf s a1) := by
  unfold State.wakeHalf
  repeat' first
    | with_reducible assumption
    | with_reducible apply modHalf_keeps
    | with_reducible apply zeroHalf_keeps
    | with_reducible apply wakeClock_keeps
    | with_reducible apply ite_keeps <;> intro _

theorem rouse_keeps [Fact (W .halves)] (h : Keeps P W o s) (a1) : Keeps P W o (State.rouse s a1) := by
  unfold State.rouse
  repeat' first
    | with_reducible assumption
    | with_reducible apply modHalf_keeps
    | with_reducible apply each_keeps
    | with_reducible apply each_keeps
    | intro _ _ _

theorem enter_keeps [Fact (W .halves)] [Fact (W .engines)] (h : Keeps P W o s) (a1 a2) : Keeps P W o (State.enter s a1 a2) := by
  unfold State.enter
  repeat' first
    | with_reducible assumption
    | with_reducible apply modEng_keeps
    | with_reducible apply rouse_keeps

theorem awaitHost_keeps (h : Keeps P W o s) (a1) : Keeps P W o (State.awaitHost s a1) := by
  unfold State.awaitHost
  repeat' first
    | with_reducible assumption
    | with_reducible apply modPorts_keeps
    | exact fun _ => rfl

theorem accept_keeps [Fact (W .img)] [Fact (W .halves)] [Fact (W .data)] [Fact (W .engines)] [Fact (W .queues)] [Fact (W .slots)] [Fact (W .per)] [Fact (W .host)] (h : Keeps P W o s) (a1 a2) : Keeps P W o (State.accept s a1 a2) := by
  unfold State.accept
  repeat' first
    | with_reducible assumption
    | with_reducible apply hold_keeps
    | with_reducible apply traceStart_keeps
    | with_reducible apply atBoundary_keeps
    | with_reducible apply failCmd_keeps
    | with_reducible apply modMbx_keeps
    | with_reducible apply modSlot_keeps
    | with_reducible apply ite_keeps <;> intro _
    | exact fun _ => ⟨rfl, rfl⟩
    | intro _ _ _
    | split

theorem steps8to10_keeps [Fact (W .img)] [Fact (W .halves)] [Fact (W .data)] [Fact (W .engines)] [Fact (W .queues)] [Fact (W .slots)] [Fact (W .per)] [Fact (W .rng)] [Fact (W .host)] (h : Keeps P W o s) (a1 a2) : Keeps P W o (State.steps8to10 s a1 a2) := by
  unfold State.steps8to10
  repeat' first
    | with_reducible assumption
    | with_reducible apply hold_keeps
    | with_reducible apply modRngHub_keeps
    | with_reducible apply failCmd_keeps
    | with_reducible apply accept_keeps
    | with_reducible apply ite_keeps <;> intro _
    | intro _ _ _
    | split

theorem loadShadow_keeps [Fact (W .engines)] (h : Keeps P W o s) (a1 a2) : Keeps P W o (State.loadShadow s a1 a2) := by
  unfold State.loadShadow
  repeat' first
    | with_reducible assumption
    | with_reducible apply modEng_keeps
    | with_reducible apply ite_keeps <;> intro _

theorem checkCmd_keeps [Fact (W .img)] [Fact (W .halves)] [Fact (W .data)] [Fact (W .engines)] [Fact (W .queues)] [Fact (W .slots)] [Fact (W .per)] [Fact (W .rng)] [Fact (W .host)] (h : Keeps P W o s) (a1 a2) : Keeps P W o (State.checkCmd s a1 a2) := by
  unfold State.checkCmd
  repeat' first
    | with_reducible assumption
    | with_reducible apply ask_keeps
    | with_reducible apply loadShadow_keeps
    | with_reducible apply awaitHost_keeps
    | with_reducible apply failCmd_keeps
    | with_reducible apply steps8to10_keeps
    | with_reducible apply ite_keeps <;> intro _
    | intro _ _ _
    | split
    | dsimp only

theorem fetchEntry_keeps [Fact (W .img)] [Fact (W .halves)] [Fact (W .data)] [Fact (W .engines)] [Fact (W .queues)] [Fact (W .slots)] [Fact (W .per)] [Fact (W .rng)] [Fact (W .host)] (h : Keeps P W o s) (a1 a2 a3) : Keeps P W o (State.fetchEntry s a1 a2 a3) := by
  unfold State.fetchEntry
  repeat' first
    | with_reducible assumption
    | with_reducible apply ask_keeps
    | with_reducible apply checkCmd_keeps
    | with_reducible apply awaitHost_keeps
    | with_reducible apply failCmd_keeps
    | with_reducible apply enter_keeps
    | with_reducible apply ite_keeps <;> intro _
    | intro _ _ _
    | split
    | dsimp only

theorem fetchPreload_keeps [Fact (W .img)] [Fact (W .halves)] [Fact (W .data)] [Fact (W .engines)] [Fact (W .queues)] [Fact (W .slots)] [Fact (W .per)] [Fact (W .rng)] [Fact (W .host)] (h : Keeps P W o s) (a1 a2) : Keeps P W o (State.fetchPreload s a1 a2) := by
  unfold State.fetchPreload
  repeat' first
    | with_reducible assumption
    | with_reducible apply modEng_keeps
    | with_reducible apply fetchEntry_keeps
    | with_reducible apply checkCmd_keeps
    | with_reducible apply setChain_keeps
    | with_reducible apply failCmd_keeps
    | with_reducible apply steps8to10_keeps
    | with_reducible apply enter_keeps
    | with_reducible apply ite_keeps <;> intro _
    | intro _ _ _
    | split

theorem setTail_keeps [Fact (W .queues)] (h : Keeps P W o s) (a1 a2) : Keeps P W o (State.setTail s a1 a2) := by
  unfold State.setTail
  repeat' first
    | with_reducible assumption
    | with_reducible apply event_keeps
    | with_reducible apply setQueue_keeps
    | with_reducible apply ite_keeps <;> intro _

theorem passHead_keeps [Fact (W .queues)] (h : Keeps P W o s) (a1) : Keeps P W o (State.passHead s a1) := by
  unfold State.passHead
  split
  · refine ite_keeps (fun _ => ?_) (fun _ => modQueue_keeps h _ _)
    extract_lets s1 s2
    have h2 : Keeps P W o s2 := fresh_keeps (s := s1) (modQueue_keeps h _ _) _
    clear_value s2
    exact each_keeps _ _ (fun _ _ hy => setTail_keeps hy _ _) h2
  · exact modQueue_keeps h _ _

theorem serveSlot_keeps [Fact (W .engines)] [Fact (W .queues)] (h : Keeps P W o s) (a1 a2) : Keeps P W o (State.serveSlot s a1 a2) := by
  unfold State.serveSlot
  repeat' first
    | with_reducible assumption
    | with_reducible apply modEng_keeps
    | with_reducible apply passHead_keeps

theorem execEngineFetch_keeps [Fact (W .img)] [Fact (W .halves)] [Fact (W .data)] [Fact (W .engines)] [Fact (W .queues)] [Fact (W .slots)] [Fact (W .per)] [Fact (W .rng)] [Fact (W .host)] (h : Keeps P W o s) (a1) : OutKeeps P W o (execEngineFetch a1 s) := by
  unfold execEngineFetch
  repeat' first
    | with_reducible assumption
    | with_reducible apply fetchEntry_keeps
    | with_reducible apply fetchPreload_keeps
    | with_reducible apply checkCmd_keeps
    | with_reducible apply serveSlot_keeps
    | with_reducible apply setChain_keeps
    | with_reducible apply enter_keeps
    | with_reducible apply ite_keeps <;> intro _
    | with_reducible apply next_keeps
    | with_reducible apply fault_keeps
    | intro _ _ _
    | split

theorem dropWait_keeps [Fact (W .engines)] (h : Keeps P W o s) (a1 a2) : Keeps P W o (State.dropWait s a1 a2) := by
  unfold State.dropWait
  repeat' first
    | with_reducible assumption
    | with_reducible apply modEng_keeps

theorem execFence_keeps [Fact (W .img)] [Fact (W .data)] [Fact (W .engines)] [Fact (W .queues)] [Fact (W .slots)] [Fact (W .per)] [Fact (W .host)] (h : Keeps P W o s) (a1 a2) : OutKeeps P W o (execFence a1 a2 s) := by
  unfold execFence
  repeat' first
    | with_reducible assumption
    | with_reducible apply endDestroys_keeps
    | with_reducible apply dropWait_keeps
    | with_reducible apply postRecord_keeps
    | with_reducible apply ite_keeps <;> intro _
    | with_reducible apply next_keeps
    | with_reducible apply fault_keeps
    | intro _ _ _
    | split

theorem execPreload_keeps [Fact (W .engines)] [Fact (W .queues)] (h : Keeps P W o s) (a1) : OutKeeps P W o (execPreload a1 s) := by
  unfold execPreload
  repeat' first
    | with_reducible assumption
    | with_reducible apply modEng_keeps
    | with_reducible apply ask_keeps
    | with_reducible apply loadShadow_keeps
    | with_reducible apply serveSlot_keeps
    | with_reducible apply trace_keeps
    | with_reducible apply ite_keeps <;> intro _
    | with_reducible apply next_keeps
    | with_reducible apply fault_keeps
    | intro _ _ _
    | split
    | dsimp only

theorem seedComes_keeps [Fact (W .img)] [Fact (W .halves)] [Fact (W .data)] [Fact (W .engines)] [Fact (W .queues)] [Fact (W .slots)] [Fact (W .per)] [Fact (W .host)] (h : Keeps P W o s) (a1 a2) : Keeps P W o (State.seedComes s a1 a2) := by
  unfold State.seedComes
  repeat' first
    | with_reducible assumption
    | with_reducible apply accept_keeps
    | with_reducible apply ite_keeps <;> intro _
    | intro _ _ _
    | split

theorem execNop_keeps [Fact (W .img)] [Fact (W .halves)] [Fact (W .cores)] [Fact (W .spad)] [Fact (W .data)] [Fact (W .engines)] [Fact (W .queues)] [Fact (W .slots)] [Fact (W .route)] [Fact (W .per)] [Fact (W .host)] (h : Keeps P W o s) (a1) : OutKeeps P W o (execNop a1 s) := by
  unfold execNop
  repeat' first
    | with_reducible assumption
    | exact starting_keeps h ‹_›
    | with_reducible apply complete_keeps
    | with_reducible apply next_keeps
    | with_reducible apply fault_keeps
    | intro _ _ _
    | split

theorem writeTail_keeps [Fact (W .queues)] (h : Keeps P W o s) (a1 a2) : Keeps P W o (State.writeTail s a1 a2) := by
  unfold State.writeTail
  repeat' first
    | with_reducible assumption
    | with_reducible apply setTail_keeps
    | with_reducible apply ite_keeps <;> intro _
    | with_reducible refine tails_keeps ?_ _

theorem execFeQTail_keeps [Fact (W .data)] [Fact (W .engines)] [Fact (W .queues)] [Fact (W .per)] [Fact (W .host)] (h : Keeps P W o s) (a1 a2) : OutKeeps P W o (execFeQTail a1 a2 s) := by
  unfold execFeQTail
  repeat' first
    | with_reducible assumption
    | with_reducible apply reportQueue_keeps
    | with_reducible apply writeTail_keeps
    | with_reducible apply onWrite_keeps
    | with_reducible apply next_keeps
    | with_reducible apply fault_keeps
    | intro _ _ _
    | intro _ _

theorem resumeQueue_keeps [Fact (W .queues)] (h : Keeps P W o s) (a1) : Keeps P W o (State.resumeQueue s a1) := by
  unfold State.resumeQueue
  repeat' first
    | with_reducible assumption
    | with_reducible apply modQueue_keeps

theorem execAccountWindow_keeps [Fact (W .engines)] [Fact (W .queues)] (h : Keeps P W o s) (a1) : OutKeeps P W o (execAccountWindow a1 s) := by
  unfold execAccountWindow
  refine next_keeps (ite_keeps (fun _ => ?_) (fun _ => h))
  exact modEng_keeps (queues_keeps h _ (swf_smap _ _ _ h.flat.queues)) _ _

theorem execFeQResume_keeps [Fact (W .queues)] (h : Keeps P W o s) (a1 a2) : OutKeeps P W o (execFeQResume a1 a2 s) := by
  unfold execFeQResume
  repeat' first
    | with_reducible assumption
    | with_reducible apply resumeQueue_keeps
    | with_reducible apply onWrite_keeps
    | with_reducible apply ite_keeps <;> intro _
    | with_reducible apply next_keeps
    | with_reducible apply fault_keeps
    | intro _ _ _
    | intro _ _

theorem execWake_keeps [Fact (W .halves)] [Fact (W .spad)] (h : Keeps P W o s) (a1) : OutKeeps P W o (execWake a1 s) := by
  unfold execWake
  repeat' first
    | with_reducible assumption
    | with_reducible apply wakeHalf_keeps
    | with_reducible apply ite_keeps <;> intro _
    | with_reducible apply next_keeps

theorem armChain_keeps [Fact (W .engines)] (h : Keeps P W o s) (a1 a2) : Keeps P W o (State.armChain s a1 a2).2 := by
  unfold State.armChain
  repeat' first
    | with_reducible assumption
    | with_reducible apply setChain_keeps
    | with_reducible apply trace_keeps
    | with_reducible apply noteFail_keeps
    | intro _ _ _
    | split
    | dsimp only

theorem fenceTrace_keeps (h : Keeps P W o s) (a1 a2) : Keeps P W o (State.fenceTrace s a1 a2) := by
  unfold State.fenceTrace
  repeat' first
    | with_reducible assumption
    | with_reducible apply trace_keeps

theorem execFenceSignalAdd_keeps [Fact (W .img)] [Fact (W .halves)] [Fact (W .cores)] [Fact (W .spad)] [Fact (W .data)] [Fact (W .engines)] [Fact (W .fences)] [Fact (W .queues)] [Fact (W .slots)] [Fact (W .route)] [Fact (W .per)] [Fact (W .host)] (h : Keeps P W o s) (a1) : OutKeeps P W o (execFenceSignalAdd a1 s) := by
  unfold execFenceSignalAdd
  repeat' first
    | with_reducible assumption
    | exact starting_keeps h ‹_›
    | with_reducible apply complete_keeps
    | with_reducible apply fenceTrace_keeps
    | with_reducible apply fenceAdd_keeps
    | with_reducible apply ite_keeps <;> intro _
    | with_reducible apply next_keeps
    | with_reducible apply fault_keeps
    | intro _ _ _
    | split

theorem execSlotHandover_keeps [Fact (W .data)] [Fact (W .engines)] [Fact (W .queues)] [Fact (W .slots)] [Fact (W .per)] [Fact (W .host)] (h : Keeps P W o s) (a1) : OutKeeps P W o (execSlotHandover a1 s) := by
  unfold execSlotHandover
  repeat' first
    | with_reducible assumption
    | with_reducible apply modQueue_keeps
    | with_reducible apply moveIn_keeps
    | with_reducible apply modSlot_keeps
    | with_reducible apply ite_keeps <;> intro _
    | with_reducible apply next_keeps
    | with_reducible apply fault_keeps
    | intro _ _ _
    | split

theorem execChain_keeps [Fact (W .img)] [Fact (W .halves)] [Fact (W .cores)] [Fact (W .spad)] [Fact (W .data)] [Fact (W .engines)] [Fact (W .queues)] [Fact (W .slots)] [Fact (W .route)] [Fact (W .per)] [Fact (W .host)] (h : Keeps P W o s) (a1) : OutKeeps P W o (execChain a1 s) := by
  unfold execChain
  repeat' first
    | with_reducible assumption
    | exact starting_keeps h ‹_›
    | with_reducible refine getD_keeps (fun _ hx => takeChecks_keeps ?_ hx) ?_
    | exact takeChecks_keeps (by assumption) ‹_›
    | with_reducible apply complete_keeps
    | with_reducible apply armChain_keeps
    | with_reducible apply next_keeps
    | with_reducible apply fault_keeps
    | intro _ _ _
    | split

theorem execFenceWait_keeps [Fact (W .img)] [Fact (W .halves)] [Fact (W .cores)] [Fact (W .spad)] [Fact (W .data)] [Fact (W .engines)] [Fact (W .queues)] [Fact (W .slots)] [Fact (W .route)] [Fact (W .per)] [Fact (W .host)] (h : Keeps P W o s) (a1) : OutKeeps P W o (execFenceWait a1 s) := by
  unfold execFenceWait
  repeat' first
    | with_reducible assumption
    | with_reducible apply modEng_keeps
    | exact starting_keeps h ‹_›
    | with_reducible apply complete_keeps
    | with_reducible apply fenceTrace_keeps
    | with_reducible apply atBoundary_keeps
    | with_reducible apply ite_keeps <;> intro _
    | with_reducible apply next_keeps
    | with_reducible apply fault_keeps
    | intro _ _ _
    | split

theorem execMappingPoint_keeps [Fact (W .data)] [Fact (W .engines)] [Fact (W .queues)] [Fact (W .slots)] [Fact (W .per)] [Fact (W .host)] (h : Keeps P W o s) (a1) : OutKeeps P W o (execMappingPoint a1 s) := by
  unfold execMappingPoint
  repeat' first
    | with_reducible assumption
    | with_reducible apply mapAll_keeps
    | with_reducible apply modQueue_keeps
    | with_reducible apply each_keeps
    | with_reducible apply ite_keeps <;> intro _
    | with_reducible apply next_keeps
    | with_reducible apply fault_keeps
    | with_reducible apply each_keeps
    | intro _ _ _

theorem execIdleEntry_keeps [Fact (W .halves)] (h : Keeps P W o s) (a1) : OutKeeps P W o (execIdleEntry a1 s) := by
  unfold execIdleEntry
  repeat' first
    | with_reducible assumption
    | with_reducible apply modHalf_keeps
    | with_reducible apply ite_keeps <;> intro _
    | with_reducible apply next_keeps
    | with_reducible apply fault_keeps
    | intro _ _ _
    | split

theorem execFenceSignalMax_keeps [Fact (W .img)] [Fact (W .halves)] [Fact (W .cores)] [Fact (W .spad)] [Fact (W .data)] [Fact (W .engines)] [Fact (W .fences)] [Fact (W .queues)] [Fact (W .slots)] [Fact (W .route)] [Fact (W .per)] [Fact (W .host)] (h : Keeps P W o s) (a1) : OutKeeps P W o (execFenceSignalMax a1 s) := by
  unfold execFenceSignalMax
  repeat' first
    | with_reducible assumption
    | exact starting_keeps h ‹_›
    | with_reducible apply fenceMax_keeps
    | with_reducible apply complete_keeps
    | with_reducible apply fenceTrace_keeps
    | with_reducible apply ite_keeps <;> intro _
    | with_reducible apply next_keeps
    | with_reducible apply fault_keeps
    | intro _ _ _
    | split

end Sys2Proof.Machine
end

