-- ==== Sys2Proof/Laws/KeepCrossings.lean ====
section
/-! SUPPORT. What the operations and commands of Machine/Crossings.lean keep (see Laws/Keep.lean). -/
namespace Sys2Proof.Machine

variable {P : Prop} {W : Part → Prop} {o s t : State}

theorem emptyRead_keeps (h : Keeps P W o s) (a1) : Keeps P W o (State.emptyRead s a1) := by
  unfold State.emptyRead
  repeat' first
    | with_reducible assumption
    | with_reducible apply bump_keeps
    | with_reducible apply raise_keeps
    | with_reducible apply ite_keeps <;> intro _

theorem setBuf_keeps (h : Keeps P W o s) (a1 a2) : Keeps P W o (State.setBuf s a1 a2) := by
  unfold State.setBuf
  repeat' first
    | with_reducible assumption
    | with_reducible apply modYards_keeps
    | exact fun _ => ⟨rfl, rfl, rfl⟩

theorem passSlot_keeps (h : Keeps P W o s) (a1 a2) : Keeps P W o (State.passSlot s a1 a2) := by
  unfold State.passSlot
  repeat' first
    | with_reducible assumption
    | with_reducible apply each_keeps
    | with_reducible apply modYards_keeps
    | with_reducible apply emptyRead_keeps
    | with_reducible apply setBuf_keeps
    | with_reducible apply ite_keeps <;> intro _
    | with_reducible apply each_keeps
    | exact fun _ => ⟨rfl, rfl, rfl⟩
    | intro _ _ _

theorem alignedSlots_keeps (h : Keeps P W o s) (a1 a2 a3) : Keeps P W o (State.alignedSlots s a1 a2 a3) := by
  induction a3 generalizing s a2 with
  | zero => exact h
  | succ n ih => exact ih (passSlot_keeps h _ _) _

theorem diesRun_keeps (h : Keeps P W o s) (a1 a2) : Keeps P W o (State.diesRun s a1 a2) := by
  unfold State.diesRun
  repeat' first
    | with_reducible assumption
    | with_reducible apply each_keeps
    | with_reducible apply setBuf_keeps
    | with_reducible apply draw_keeps
    | with_reducible apply each_keeps
    | intro _ _ _

theorem freeSlots_keeps (h : Keeps P W o s) (a1 a2) : Keeps P W o (State.freeSlots s a1 a2) := by
  induction a2 generalizing s with
  | zero => exact h
  | succ n ih =>
    unfold State.freeSlots
    extract_lets t u
    have hu : Keeps P W o u := diesRun_keeps h _ _
    clear_value u
    refine ite_keeps (fun _ => h) (fun _ => ite_keeps (fun _ => ?_) (fun _ => ih (setRclk_keeps (passSlot_keeps hu _ _) _ _)))
    refine modYards_keeps hu _ ?_
    exact fun _ => ⟨rfl, rfl, rfl⟩

theorem runHalf_keeps [Fact (W .halves)] (h : Keeps P W o s) (a1 a2) : Keeps P W o (State.runHalf a1 s a2) := by
  unfold State.runHalf
  repeat' first
    | with_reducible assumption
    | with_reducible apply modHalf_keeps
    | with_reducible apply setRclk_keeps
    | with_reducible apply alignedSlots_keeps
    | with_reducible apply wakeClock_keeps
    | with_reducible apply freeSlots_keeps
    | with_reducible apply ite_keeps <;> intro _

theorem pass_keeps [Fact (W .halves)] [Fact (W .hclk)] (h : Keeps P W o s) (a1) : Keeps P W o (State.pass s a1) := by
  unfold State.pass
  extract_lets s1
  have h1 : Keeps P W o s1 := ite_keeps (fun _ => each_keeps _ _ (fun _ _ hu => runHalf_keeps hu _ _) h) (fun _ => h)
  clear_value s1
  exact { h1 with flat := { h1.flat with }, same := fun p hp => by cases p <;> first | exact h1.same _ hp | exact absurd Fact.out hp }

theorem endHold_keeps (h : Keeps P W o s) (a1) : Keeps P W o (State.endHold s a1) := by
  unfold State.endHold
  repeat' first
    | with_reducible assumption
    | with_reducible apply each_keeps
    | with_reducible apply modYards_keeps
    | with_reducible apply setBuf_keeps
    | with_reducible apply each_keeps
    | exact fun _ => ⟨rfl, rfl, rfl⟩
    | intro _ _ _

theorem setFlit_keeps (h : Keeps P W o s) (a1 a2) : Keeps P W o (State.setFlit s a1 a2) := by
  unfold State.setFlit
  repeat' first
    | with_reducible assumption
    | with_reducible apply modYards_keeps
    | exact fun _ => ⟨rfl, rfl, rfl⟩

end Sys2Proof.Machine
end

