-- ==== Sys2Proof/Laws/KeepRequests.lean ====
section
/-! SUPPORT. What the operations and commands of Machine/Requests.lean keep (see Laws/Keep.lean). -/
namespace Sys2Proof.Machine

variable {P : Prop} {W : Part → Prop} {o s t : State}

theorem mapPages_keeps [Fact (W .img)] [Fact (W .queues)] (h : Keeps P W o s) (a1 a2 a3 a4 a5) : Keeps P W o (State.mapPages s a1 a2 a3 a4 a5).2.2 := by
  induction a4 generalizing s a3 a5 with
  | zero =>
    unfold State.mapPages
    repeat' first
      | with_reducible assumption
  | succ n ih =>
    unfold State.mapPages
    repeat' first
      | with_reducible assumption
      | with_reducible apply ih
      | with_reducible apply modQueue_keeps
      | with_reducible apply setXlat_keeps
      | intro _ _ _
      | split

theorem mapRequest_keeps [Fact (W .img)] [Fact (W .queues)] (h : Keeps P W o s) (a1 a2) : Keeps P W o (State.mapRequest s a1 a2).2.2 := by
  unfold State.mapRequest
  repeat' first
    | with_reducible assumption
    | with_reducible apply bump_keeps
    | with_reducible apply mapPages_keeps
    | intro _ _ _
    | split
    | dsimp only

theorem execMap_keeps [Fact (W .img)] [Fact (W .data)] [Fact (W .queues)] [Fact (W .host)] (h : Keeps P W o s) : OutKeeps P W o (execMap s) := by
  unfold execMap
  repeat' first
    | with_reducible assumption
    | with_reducible apply endReq_keeps
    | with_reducible apply mapRequest_keeps
    | with_reducible apply ite_keeps <;> intro _
    | with_reducible apply next_keeps
    | with_reducible apply fault_keeps
    | intro _ _ _
    | split

theorem unmapPages_keeps [Fact (W .img)] [Fact (W .queues)] (h : Keeps P W o s) (a1 a2 a3 a4) : Keeps P W o (State.unmapPages s a1 a2 a3 a4).2.2 := by
  induction a3 generalizing s a2 a4 with
  | zero =>
    unfold State.unmapPages
    repeat' first
      | with_reducible assumption
  | succ n ih =>
    unfold State.unmapPages
    repeat' first
      | with_reducible assumption
      | with_reducible apply ih
      | with_reducible apply modQueue_keeps
      | with_reducible apply setXlat_keeps
      | intro _ _ _
      | split
      | dsimp only

theorem unmapRequest_keeps [Fact (W .img)] [Fact (W .queues)] (h : Keeps P W o s) (a1 a2) : Keeps P W o (State.unmapRequest s a1 a2).2.2 := by
  unfold State.unmapRequest
  repeat' first
    | with_reducible assumption
    | with_reducible apply unmapPages_keeps
    | intro _ _ _
    | split
    | dsimp only

theorem execUnmap_keeps [Fact (W .img)] [Fact (W .data)] [Fact (W .queues)] [Fact (W .host)] (h : Keeps P W o s) : OutKeeps P W o (execUnmap s) := by
  unfold execUnmap
  repeat' first
    | with_reducible assumption
    | with_reducible apply endReq_keeps
    | with_reducible apply unmapRequest_keeps
    | with_reducible apply ite_keeps <;> intro _
    | with_reducible apply next_keeps
    | with_reducible apply fault_keeps
    | intro _ _ _
    | split

theorem postDisabled_keeps [Fact (W .data)] [Fact (W .engines)] [Fact (W .queues)] [Fact (W .per)] [Fact (W .host)] (h : Keeps P W o s) (a1 a2) : Keeps P W o (State.postDisabled s a1 a2) := by
  unfold State.postDisabled
  repeat' first
    | with_reducible assumption
    | with_reducible apply postRecord_keeps

theorem disableChains_keeps [Fact (W .data)] [Fact (W .engines)] [Fact (W .queues)] [Fact (W .per)] [Fact (W .host)] (h : Keeps P W o s) (a1) : Keeps P W o (State.disableChains s a1) := by
  unfold State.disableChains
  repeat' first
    | with_reducible assumption
    | with_reducible apply each_keeps
    | with_reducible apply setChain_keeps
    | with_reducible apply postDisabled_keeps
    | with_reducible apply unfire_keeps
    | with_reducible apply ite_keeps <;> intro _
    | with_reducible apply each_keeps
    | intro _ _ _

theorem execHubStatus_keeps [Fact (W .data)] [Fact (W .host)] (h : Keeps P W o s) : OutKeeps P W o (execHubStatus s) := by
  unfold execHubStatus
  repeat' first
    | with_reducible assumption
    | with_reducible apply endReq_keeps
    | with_reducible apply next_keeps
    | with_reducible apply fault_keeps
    | intro _ _ _
    | split

theorem disableParked_keeps [Fact (W .data)] [Fact (W .engines)] [Fact (W .queues)] [Fact (W .per)] [Fact (W .host)] (h : Keeps P W o s) (a1) : Keeps P W o (State.disableParked s a1) := by
  unfold State.disableParked
  repeat' first
    | with_reducible assumption
    | with_reducible apply each_keeps
    | with_reducible apply dropWait_keeps
    | with_reducible apply postDisabled_keeps
    | with_reducible apply each_keeps
    | intro _ _ _

theorem disablePreload_keeps [Fact (W .data)] [Fact (W .engines)] [Fact (W .queues)] [Fact (W .per)] [Fact (W .host)] (h : Keeps P W o s) (a1) : Keeps P W o (State.disablePreload s a1) := by
  unfold State.disablePreload
  repeat' first
    | with_reducible assumption
    | with_reducible apply dropPreload_keeps
    | with_reducible apply postDisabled_keeps
    | with_reducible apply ite_keeps <;> intro _
    | intro _ _ _
    | split

theorem endWaits_keeps [Fact (W .rng)] (h : Keeps P W o s) (a1) : Keeps P W o (State.endWaits s a1) := by
  unfold State.endWaits
  repeat' first
    | with_reducible assumption
    | with_reducible apply modRngHub_keeps
    | with_reducible apply endWait_keeps

theorem budget_keeps [Fact (W .queues)] (h : Keeps P W o s) (a1 a2) : Keeps P W o (State.budget s a1 a2).2 := by
  unfold State.budget
  repeat' first
    | with_reducible assumption
    | with_reducible apply modQueue_keeps
    | intro _ _ _
    | split
    | dsimp only

theorem execQueueBudget_keeps [Fact (W .data)] [Fact (W .queues)] [Fact (W .host)] (h : Keeps P W o s) : OutKeeps P W o (execQueueBudget s) := by
  unfold execQueueBudget
  repeat' first
    | with_reducible assumption
    | with_reducible apply endReq_keeps
    | with_reducible apply budget_keeps
    | with_reducible apply next_keeps
    | with_reducible apply fault_keeps
    | intro _ _ _
    | split

theorem execEngineEnable_keeps [Fact (W .data)] [Fact (W .engines)] [Fact (W .host)] (h : Keeps P W o s) : OutKeeps P W o (execEngineEnable s) := by
  unfold execEngineEnable
  repeat' first
    | with_reducible assumption
    | with_reducible apply modEng_keeps
    | with_reducible apply endReq_keeps
    | with_reducible apply next_keeps
    | with_reducible apply fault_keeps
    | intro _ _ _
    | split
    | dsimp only

theorem execQueueCreate_keeps [Fact (W .data)] [Fact (W .queues)] [Fact (W .host)] (h : Keeps P W o s) : OutKeeps P W o (execQueueCreate s) := by
  unfold execQueueCreate
  repeat' first
    | with_reducible assumption
    | with_reducible apply endReq_keeps
    | with_reducible apply setQueue_keeps
    | with_reducible apply next_keeps
    | with_reducible apply fault_keeps
    | intro _ _ _
    | split

theorem disableRings_keeps [Fact (W .data)] [Fact (W .engines)] [Fact (W .queues)] [Fact (W .per)] [Fact (W .host)] (h : Keeps P W o s) (a1) : Keeps P W o (State.disableRings s a1) := by
  unfold State.disableRings
  repeat' first
    | with_reducible assumption
    | with_reducible apply each_keeps
    | with_reducible apply reportRing_keeps
    | with_reducible apply ite_keeps <;> intro _
    | with_reducible apply each_keeps
    | intro _ _ _
    | split

theorem disablePrep_keeps [Fact (W .data)] [Fact (W .engines)] [Fact (W .queues)] [Fact (W .per)] [Fact (W .rng)] [Fact (W .host)] (h : Keeps P W o s) (a1) : Keeps P W o (State.disablePrep s a1) := by
  unfold State.disablePrep
  repeat' first
    | with_reducible assumption
    | with_reducible apply modEng_keeps
    | with_reducible apply endWaits_keeps
    | with_reducible apply postDisabled_keeps
    | with_reducible apply ite_keeps <;> intro _
    | intro _ _ _
    | split

theorem disable_keeps [Fact (W .data)] [Fact (W .engines)] [Fact (W .queues)] [Fact (W .per)] [Fact (W .rng)] [Fact (W .host)] (h : Keeps P W o s) (a1) : Keeps P W o (State.disable s a1) := by
  unfold State.disable
  repeat' first
    | with_reducible assumption
    | with_reducible apply modEng_keeps
    | with_reducible apply disableChains_keeps
    | with_reducible apply disableParked_keeps
    | with_reducible apply disablePreload_keeps
    | with_reducible apply disableRings_keeps
    | with_reducible apply disablePrep_keeps

theorem execEngineDisable_keeps [Fact (W .img)] [Fact (W .data)] [Fact (W .engines)] [Fact (W .queues)] [Fact (W .slots)] [Fact (W .per)] [Fact (W .rng)] [Fact (W .host)] (h : Keeps P W o s) : OutKeeps P W o (execEngineDisable s) := by
  unfold execEngineDisable
  repeat' first
    | with_reducible assumption
    | with_reducible apply background_keeps
    | with_reducible apply endDestroys_keeps
    | with_reducible apply disabled_keeps
    | with_reducible apply endReq_keeps
    | with_reducible apply disable_keeps
    | with_reducible apply modMbx_keeps
    | with_reducible apply ite_keeps <;> intro _
    | with_reducible apply next_keeps
    | with_reducible apply fault_keeps
    | exact fun _ => ⟨rfl, rfl⟩
    | intro _ _ _
    | split
    | dsimp only

theorem execRepairList_keeps [Fact (W .data)] [Fact (W .host)] (h : Keeps P W o s) : OutKeeps P W o (execRepairList s) := by
  unfold execRepairList
  repeat' first
    | with_reducible assumption
    | with_reducible apply endReq_keeps
    | with_reducible apply next_keeps
    | with_reducible apply fault_keeps
    | intro _ _ _
    | split

end Sys2Proof.Machine
end

