-- ==== Sys2Proof/Laws/KeepClock.lean ====
section
/-! SUPPORT. What the operations and commands of Machine/Clock.lean keep (see Laws/Keep.lean). -/
namespace Sys2Proof.Machine

variable {P : Prop} {W : Part → Prop} {o s t : State}

theorem restoreLockstep_keeps [Fact (W .clk)] (h : Keeps P W o s) : Keeps P W o (State.restoreLockstep s) := by
  unfold State.restoreLockstep
  repeat' first
    | with_reducible assumption
    | with_reducible apply modClk_keeps

theorem queueItem_keeps [Fact (W .rel)] (h : Keeps P W o s) (a1) : Keeps P W o (State.queueItem s a1) := by
  unfold State.queueItem
  repeat' first
    | with_reducible assumption
    | with_reducible apply modRel_keeps

theorem slip_keeps [Fact (W .clk)] [Fact (W .rel)] (h : Keeps P W o s) (a1 a2) : Keeps P W o (State.slip s a1 a2) := by
  unfold State.slip
  repeat' first
    | with_reducible assumption
    | with_reducible apply each_keeps
    | with_reducible apply emptyRead_keeps
    | with_reducible apply event_keeps
    | with_reducible apply queueItem_keeps
    | with_reducible apply modClk_keeps
    | with_reducible apply ite_keeps <;> intro _
    | with_reducible apply each_keeps
    | intro _ _ _

theorem holdPrograms_keeps [Fact (W .per)] (h : Keeps P W o s) : Keeps P W o (State.holdPrograms s) := by
  unfold State.holdPrograms
  repeat' first
    | with_reducible assumption
    | with_reducible apply modProg_keeps
    | with_reducible apply each_keeps
    | with_reducible apply each_keeps
    | intro _ _ _

theorem setClocks_keeps [Fact (W .halves)] (h : Keeps P W o s) : Keeps P W o (State.setClocks s) := by
  unfold State.setClocks
  repeat' first
    | with_reducible assumption
    | with_reducible apply modHalf_keeps
    | with_reducible apply each_keeps
    | with_reducible apply wakeClock_keeps
    | with_reducible apply ite_keeps <;> intro _
    | with_reducible apply each_keeps
    | intro _ _ _

theorem setAligned_keeps [Fact (W .halves)] [Fact (W .per)] [Fact (W .clk)] (h : Keeps P W o s) (a1 a2 a3) : Keeps P W o (State.setAligned s a1 a2 a3) := by
  unfold State.setAligned
  repeat' first
    | with_reducible assumption
    | with_reducible apply setClocks_keeps
    | with_reducible apply modClk_keeps
    | with_reducible apply holdPrograms_keeps

theorem startSet_keeps [Fact (W .halves)] [Fact (W .clk)] (h : Keeps P W o s) (a1) : Keeps P W o (State.startSet s a1) := by
  unfold State.startSet
  repeat' first
    | with_reducible assumption
    | with_reducible apply modHalf_keeps
    | with_reducible apply setRclk_keeps
    | with_reducible apply each_keeps
    | with_reducible apply modYards_keeps
    | with_reducible apply modClk_keeps
    | with_reducible apply each_keeps
    | with_reducible apply foldl_keeps
    | exact fun _ => ⟨rfl, rfl, rfl⟩
    | intro _ _ _

theorem alignFail_keeps (h : Keeps P W o s) (a1) : Keeps P W o (State.alignFail s a1) := by
  unfold State.alignFail
  repeat' first
    | with_reducible assumption
    | with_reducible apply raise_keeps

theorem alignOver_keeps [Fact (W .halves)] [Fact (W .per)] [Fact (W .clk)] (h : Keeps P W o s) (a1 a2 a3) : Keeps P W o (State.alignOver s a1 a2 a3) := by
  unfold State.alignOver
  repeat' first
    | with_reducible assumption
    | with_reducible apply startSet_keeps
    | with_reducible apply each_keeps
    | with_reducible apply setAligned_keeps
    | with_reducible apply modClk_keeps
    | with_reducible apply alignFail_keeps
    | with_reducible apply ite_keeps <;> intro _
    | with_reducible apply each_keeps
    | with_reducible apply foldl_keeps
    | intro _ _ _
    | split
    | dsimp only

theorem align_keeps [Fact (W .halves)] [Fact (W .per)] [Fact (W .clk)] (h : Keeps P W o s) (a1 a2) : Keeps P W o (State.align s a1 a2) := by
  unfold State.align
  repeat' first
    | with_reducible assumption
    | with_reducible apply alignOver_keeps

theorem dropDomain_keeps [Fact (W .halves)] [Fact (W .per)] [Fact (W .clk)] (h : Keeps P W o s) (a1) : Keeps P W o (State.dropDomain s a1) := by
  unfold State.dropDomain
  repeat' first
    | with_reducible assumption
    | with_reducible apply each_keeps
    | with_reducible apply setAligned_keeps
    | with_reducible apply modClk_keeps
    | with_reducible apply alignFail_keeps
    | with_reducible apply each_keeps
    | intro _ _ _

theorem realignAll_keeps [Fact (W .halves)] [Fact (W .per)] [Fact (W .clk)] (h : Keeps P W o s) (a1 a2) : Keeps P W o (State.realignAll s a1 a2) := by
  unfold State.realignAll
  repeat' first
    | with_reducible assumption
    | with_reducible apply restoreLockstep_keeps
    | with_reducible apply each_keeps
    | with_reducible apply modClk_keeps
    | with_reducible apply dropDomain_keeps
    | with_reducible apply ite_keeps <;> intro _
    | with_reducible apply each_keeps
    | with_reducible apply foldl_keeps
    | intro _ _ _
    | split

end Sys2Proof.Machine
end

