-- ==== Sys2Proof/Laws/KeepPatch.lean ====
section
/-! SUPPORT. What the operations and commands of Machine/Patch.lean keep (see Laws/Keep.lean). -/
namespace Sys2Proof.Machine

variable {P : Prop} {W : Part → Prop} {o s t : State}

theorem journalAppend_keeps [Fact (W .hub)] [Fact (W .flash)] (h : Keeps P W o s) (a1) : Keeps P W o (State.journalAppend s a1) := by
  unfold State.journalAppend
  repeat' first
    | with_reducible assumption
    | with_reducible apply program_keeps
    | with_reducible refine hub_keeps ?_ _

theorem recordPatch_keeps [Fact (W .img)] [Fact (W .hub)] [Fact (W .flash)] (h : Keeps P W o s) (a1 a2) (hi : a2.Ok) : Keeps P W o (State.recordPatch s a1 a2) := by
  unfold State.recordPatch
  refine ite_keeps (fun _ => ?_) (fun _ => raise_keeps (img_keeps h _ hi) _ _ _)
  exact raise_keeps (hub_keeps (img_keeps (journalAppend_keeps h a1) a2 hi) _) _ _ _

theorem ownTopo_keeps [Fact (W .img)] [Fact (W .hub)] [Fact (W .flash)] (h : Keeps P W o s) (a1) (hi : a1.Ok) : Keeps P W o (State.ownTopo s a1) := recordPatch_keeps h _ _ hi

theorem landHalter_keeps [Fact (W .img)] [Fact (W .hub)] [Fact (W .flash)] (h : Keeps P W o s) (a1) : Keeps P W o (State.landHalter s a1) := by
  unfold State.landHalter
  repeat' first
    | with_reducible assumption
    | refine ownTopo_keeps ?_ _ ?_
    | exact withTopo_ok h.img_ok _
    | exact ⟨(Keeps.flat h).topo, (Keeps.flat h).recs, (Keeps.flat h).xlat⟩
    | with_reducible apply ite_keeps <;> intro _

theorem ownLane_keeps [Fact (W .img)] [Fact (W .hub)] [Fact (W .flash)] (h : Keeps P W o s) (a1 a2) : Keeps P W o (State.ownLane s a1 a2) :=
  recordPatch_keeps h _ _ ⟨h.flat.topo, h.flat.recs, h.flat.xlat⟩

theorem takeRow_keeps [Fact (W .halves)] [Fact (W .spad)] (h : Keeps P W o s) (a1) : Keeps P W o (State.takeRow s a1) := by
  unfold State.takeRow
  generalize upto 256 = os
  generalize upto 64 = ws
  extract_lets n at_ s1
  refine modHalf_keeps ?_ _ _
  refine modYards_spad_keeps (zeroKeys_keeps h _ _) _ ?_
  intro y
  refine ⟨fun hy => ?_, rfl, rfl⟩
  exact swf_foldl _ _ (fun m x hm => swf_sset _ _ _ _ hm) _ _ hy

theorem shiftHalf_keeps [Fact (W .cores)] [Fact (W .spad)] (h : Keeps P W o s) (a1 a2 a3) : Keeps P W o (State.shiftHalf s a1 a2 a3) := by
  unfold State.shiftHalf
  refine each_keeps _ _ (fun u x hu => each_keeps _ _ (fun v r hv => modCore_keeps hv _ _) hu) (modYards_spad_keeps h _ ?_)
  refine fun y => ⟨fun _ => swf_foldl _ _ (fun m x hm => ?_) _ _ rfl, rfl, rfl⟩
  split
  · exact swf_sset _ _ _ _ hm
  · exact hm

theorem applyHalters_keeps [Fact (W .cores)] (h : Keeps P W o s) : Keeps P W o (State.applyHalters s) := by
  unfold State.applyHalters
  repeat' first
    | with_reducible assumption
    | with_reducible apply bump_keeps
    | with_reducible apply each_keeps
    | with_reducible apply modCore_keeps
    | with_reducible apply ite_keeps <;> intro _
    | with_reducible apply each_keeps
    | intro _ _ _

theorem afterPatch_keeps [Fact (W .halves)] [Fact (W .cores)] [Fact (W .spad)] [Fact (W .engines)] [Fact (W .queues)] (h : Keeps P W o s) (a1 a2) : Keeps P W o (State.afterPatch s a1 a2) := by
  unfold State.afterPatch
  extract_lets ds moved s1 s2 s3
  have h1 : Keeps P W o s1 := by
    refine ite_keeps (fun _ => h) (fun _ => ?_)
    refine each_keeps _ _ ?_ (applyHalters_keeps (each_keeps _ _ ?_ h))
    · exact fun u x hu => ite_keeps (fun _ => hu) (fun _ => takeRow_keeps hu _)
    · exact fun u d hu => ite_keeps (fun _ => hu) (fun _ => shiftHalf_keeps hu _ _ _)
  have h2 : Keeps P W o s2 := each_keeps _ _ (fun u k hu => ite_keeps (fun _ => hu) (fun _ => modShed_keeps hu _ _)) h1
  have h3 : Keeps P W o s3 := by
    refine ite_keeps (fun _ => h2) (fun _ => each_keeps _ _ (fun u p hu => ?_) h2)
    split <;> exact modQueue_keeps hu _ _
  exact each_keeps _ _ (fun u e hu => discardPreload_keeps hu _) h3

theorem journalEntry_keeps [Fact (W .img)] [Fact (W .hub)] [Fact (W .flash)] (h : Keeps P W o s) (a1 a2) : Keeps P W o (State.journalEntry s a1 a2).1 := by
  unfold State.journalEntry
  extract_lets hb len mark hs s1 voided next b d
  have h1 : Keeps P W o s1 := hub_keeps h _
  have hv : Keeps P W o voided := program_keeps h1 _ _
  have hw := program_keeps h1 (flashJournal + a1) (zeros 256)
  split
  · exact h
  · split
    · exact h
    · split
      · exact h1
      · split
        · exact hw
        · split
          · exact h1
          · split
            · exact hv
            · split
              · exact h1
              · split
                · exact hv
                · next img hp => exact hub_keeps (img_keeps h1 img (patchCheck_ok h.img_ok hp)) _

theorem journalWalk_keeps [Fact (W .img)] [Fact (W .hub)] [Fact (W .flash)] (h : Keeps P W o s) (a1 a2 a3) : Keeps P W o (State.journalWalk s a1 a2 a3) := by
  induction a1 generalizing s a2 a3 with
  | zero => exact hub_keeps h _
  | succ n ih =>
    have h1 := journalEntry_keeps h a2 a3
    rw [State.journalWalk]
    split
    · next heq => rw [heq] at h1; exact hub_keeps h1 _
    · next heq => rw [heq] at h1; exact ih h1 _ _

theorem journalReplay_keeps [Fact (W .img)] [Fact (W .hub)] [Fact (W .flash)] (h : Keeps P W o s) : Keeps P W o (State.journalReplay s) := by
  unfold State.journalReplay
  repeat' first
    | with_reducible assumption
    | with_reducible apply journalWalk_keeps
    | with_reducible refine hub_keeps ?_ _

theorem ownMem_keeps [Fact (W .img)] [Fact (W .hub)] [Fact (W .flash)] (h : Keeps P W o s) (a1) (hi : a1.Ok) : Keeps P W o (State.ownMem s a1) := recordPatch_keeps h _ _ hi

theorem landObject_keeps [Fact (W .img)] [Fact (W .hub)] [Fact (W .flash)] [Fact (W .halves)] [Fact (W .cores)] [Fact (W .spad)] [Fact (W .engines)] [Fact (W .queues)] (h : Keeps P W o s) {a1 : Bytes} {u : State} (hx : s.landObject a1 = .ok u) : Keeps P W o u := by
  unfold State.landObject at hx
  split at hx
  · cases hx
  · next img hp =>
      split at hx
      · injection hx with hx
        subst hx
        exact afterPatch_keeps (recordPatch_keeps h _ _ (patchCheck_ok h.img_ok hp)) _ _
      · cases hx

theorem refusePatch_keeps (h : Keeps P W o s) (a1 a2) : Keeps P W o (State.refusePatch s a1 a2) := by
  unfold State.refusePatch
  repeat' first
    | with_reducible assumption
    | with_reducible apply raise_keeps
    | with_reducible apply ite_keeps <;> intro _

end Sys2Proof.Machine
end

