-- ==== Sys2Proof/Laws/KeepFarrier.lean ====
section
/-! SUPPORT. What the operations and commands of Machine/Farrier.lean keep (see Laws/Keep.lean). -/
namespace Sys2Proof.Machine

variable {P : Prop} {W : Part → Prop} {o s t : State}

theorem noteHalt_keeps [Fact (W .engines)] (h : Keeps P W o s) (a1) : Keeps P W o (State.noteHalt s a1) := by
  unfold State.noteHalt
  repeat' first
    | with_reducible assumption
    | with_reducible apply modEng_keeps
    | intro _ _ _
    | split

theorem halt_keeps [Fact (W .cores)] [Fact (W .engines)] (h : Keeps P W o s) (a1 a2) : Keeps P W o (State.halt s a1 a2) := by
  unfold State.halt
  repeat' first
    | with_reducible assumption
    | with_reducible apply bump_keeps
    | with_reducible apply modCore_keeps
    | with_reducible apply raise_keeps
    | with_reducible apply noteHalt_keeps
    | with_reducible apply ite_keeps <;> intro _

theorem queueColumn_keeps [Fact (W .rel)] (h : Keeps P W o s) (a1 a2 a3) : Keeps P W o (State.queueColumn s a1 a2 a3) := by
  unfold State.queueColumn
  repeat' first
    | with_reducible assumption
    | with_reducible apply queueItem_keeps
    | with_reducible apply modRel_keeps
    | with_reducible apply ite_keeps <;> intro _

theorem recordHalter_keeps [Fact (W .img)] [Fact (W .hub)] [Fact (W .flash)] [Fact (W .rel)] (h : Keeps P W o s) (a1) : Keeps P W o (State.recordHalter s a1) := by
  unfold State.recordHalter
  repeat' first
    | with_reducible assumption
    | with_reducible apply modRel_keeps
    | with_reducible apply landHalter_keeps
    | with_reducible apply ite_keeps <;> intro _
    | intro _ _ _
    | split

theorem halter_keeps [Fact (W .img)] [Fact (W .hub)] [Fact (W .flash)] [Fact (W .cores)] [Fact (W .engines)] [Fact (W .rel)] (h : Keeps P W o s) (a1 a2 a3 a4) : Keeps P W o (State.halter s a1 a2 a3 a4) := by
  unfold State.halter
  repeat' first
    | with_reducible assumption
    | with_reducible apply halt_keeps
    | with_reducible apply recordHalter_keeps
    | with_reducible apply queueColumn_keeps
    | with_reducible apply ite_keeps <;> intro _

theorem markFailed_keeps [Fact (W .img)] [Fact (W .hub)] [Fact (W .flash)] (h : Keeps P W o s) (a1 a2) : Keeps P W o (State.markFailed s a1 a2) := by
  unfold State.markFailed
  repeat' first
    | with_reducible assumption
    | refine ownTopo_keeps ?_ _ ?_
    | exact withTopo_ok h.img_ok _
    | exact ⟨(Keeps.flat h).topo, (Keeps.flat h).recs, (Keeps.flat h).xlat⟩
    | with_reducible apply ite_keeps <;> intro _

theorem remap_keeps [Fact (W .img)] [Fact (W .hub)] [Fact (W .flash)] [Fact (W .halves)] [Fact (W .spad)] (h : Keeps P W o s) (a1) : Keeps P W o (State.remap s a1) := by
  unfold State.remap
  repeat' first
    | with_reducible assumption
    | refine ownTopo_keeps ?_ _ ?_
    | exact withTopo_ok h.img_ok _
    | exact ⟨(Keeps.flat h).topo, (Keeps.flat h).recs, (Keeps.flat h).xlat⟩
    | with_reducible apply takeRow_keeps

theorem MarchOut_mend_keeps [Fact (W .img)] [Fact (W .hub)] [Fact (W .flash)] [Fact (W .halves)] [Fact (W .cores)] [Fact (W .spad)] [Fact (W .engines)] [Fact (W .rel)] {x : MarchOut} (h : Keeps P W o x.st) (a1 a2 a3) : Keeps P W o (MarchOut.mend x a1 a2 a3).st := by
  unfold MarchOut.mend
  split
  · exact h
  · split
    · split
      · exact h
      · exact bump_keeps (remap_keeps h _) _ _ _
    · exact halter_keeps h _ _ _ _

theorem spoilSpare_keeps [Fact (W .halves)] (h : Keeps P W o s) (a1 a2 a3) : Keeps P W o (State.spoilSpare s a1 a2 a3) := by
  unfold State.spoilSpare
  repeat' first
    | with_reducible assumption
    | with_reducible apply modHalf_keeps

theorem MarchOut_find_keeps [Fact (W .halves)] {x : MarchOut} (h : Keeps P W o x.st) (a1) : Keeps P W o (MarchOut.find x a1).st := by
  unfold MarchOut.find
  extract_lets u place gone
  have h1 : Keeps P W o u := ite_keeps (fun _ => h) (fun _ => bump_keeps h _ _ _)
  clear_value u gone
  dsimp only
  cases gone with
  | some k => exact spoilSpare_keeps h1 _ _ _
  | none => exact h1

theorem MarchOut_march_keeps [Fact (W .img)] [Fact (W .hub)] [Fact (W .flash)] [Fact (W .halves)] [Fact (W .cores)] [Fact (W .spad)] [Fact (W .engines)] [Fact (W .rel)] {x : MarchOut} (h : Keeps P W o x.st) (a1 a2 a3 a4 a5) : Keeps P W o (MarchOut.march x a1 a2 a3 a4 a5).st := by
  unfold MarchOut.march
  split
  · exact h
  · refine foldl_part_keeps MarchOut.st _ _ (fun _ _ hy => MarchOut_mend_keeps hy _ _ _) ?_
    exact foldl_part_keeps MarchOut.st _ _ (fun _ _ hy => MarchOut_find_keeps hy _) h

theorem MarchOut_marches_keeps [Fact (W .img)] [Fact (W .hub)] [Fact (W .flash)] [Fact (W .halves)] [Fact (W .cores)] [Fact (W .spad)] [Fact (W .engines)] [Fact (W .rel)] {x : MarchOut} (h : Keeps P W o x.st) (a1 a2 a3) : Keeps P W o (MarchOut.marches x a1 a2 a3).st := by
  unfold MarchOut.marches
  split
  · exact h
  · refine foldl_part_keeps MarchOut.st _ _ (fun _ _ hy => ?_) h
    exact foldl_part_keeps MarchOut.st _ _ (fun _ _ hz => MarchOut_march_keeps hz _ _ _ _ _) hy

theorem MarchOut_start_keeps (h : Keeps P W o s) : Keeps P W o (MarchOut.start s).st := by
  unfold MarchOut.start
  repeat' first
    | with_reducible assumption

theorem takeColumn_keeps [Fact (W .img)] [Fact (W .hub)] [Fact (W .flash)] [Fact (W .halves)] [Fact (W .cores)] [Fact (W .spad)] [Fact (W .engines)] [Fact (W .queues)] [Fact (W .rel)] (h : Keeps P W o s) (a1 a2 a3 a4 a5) : Keeps P W o (State.takeColumn s a1 a2 a3 a4 a5) := by
  unfold State.takeColumn
  exact bump_keeps (afterPatch_keeps (MarchOut_marches_keeps (x := MarchOut.start _) (ownTopo_keeps h _ (withTopo_ok h.img_ok _)) _ _ _) _ _) _ _ _

theorem zeroBanks_keeps [Fact (W .spad)] (h : Keeps P W o s) (a1 a2) : Keeps P W o (State.zeroBanks s a1 a2) := by
  unfold State.zeroBanks
  refine modYards_spad_keeps h _ ?_
  exact fun _ => ⟨fun hy => swf_filter _ _ _ hy, rfl, rfl⟩

theorem MarchOut_half_keeps [Fact (W .img)] [Fact (W .hub)] [Fact (W .flash)] [Fact (W .halves)] [Fact (W .cores)] [Fact (W .spad)] [Fact (W .engines)] [Fact (W .rel)] {x : MarchOut} (h : Keeps P W o x.st) (a1 a2 a3 a4) : Keeps P W o (MarchOut.half x a1 a2 a3 a4).st := by
  unfold MarchOut.half
  extract_lets u
  have hu : Keeps P W o u := by
    simp only [u]
    split
    · exact zeroHalf_keeps h _
    · exact zeroBanks_keeps h _ _
  exact MarchOut_marches_keeps (x := { x with st := u }) hu _ _ _

theorem marchHalves_keeps (xs : List Nat) (f : MarchOut → Nat → MarchOut) (hf : ∀ y d, Keeps P W o y.st → Keeps P W o (f y d).st)
    {x : MarchOut} (h : Keeps P W o x.st) : Keeps P W o (xs.foldl f x).st := by
  induction xs generalizing x with
  | nil => exact h
  | cons d xs ih => exact ih (hf _ _ h)

theorem noColumn_keeps [Fact (W .rel)] (h : Keeps P W o s) (a1) : Keeps P W o (State.noColumn s a1) := by
  unfold State.noColumn
  repeat' first
    | with_reducible assumption
    | with_reducible apply modRel_keeps
    | with_reducible apply raise_keeps

end Sys2Proof.Machine
end

