-- ==== Sys2Proof/Laws/KeepPeriod.lean ====
section
/-! SUPPORT. What the operations and commands of Machine/Period.lean keep (see Laws/Keep.lean). -/
namespace Sys2Proof.Machine

variable {P : Prop} {W : Part → Prop} {o s t : State}

theorem endGrant_keeps [Fact (W .engines)] [Fact (W .per)] [Fact (W .rel)] (h : Keeps P W o s) (a1) : Keeps P W o (State.endGrant s a1) := by
  unfold State.endGrant
  repeat' first
    | with_reducible assumption
    | with_reducible apply setProg_keeps
    | with_reducible apply modEng_keeps
    | with_reducible apply modRel_keeps

theorem syncEdge_keeps [Fact (W .per)] (h : Keeps P W o s) (a1) : Keeps P W o (State.syncEdge s a1) := by
  unfold State.syncEdge
  repeat' first
    | with_reducible assumption
    | with_reducible apply setProg_keeps
    | with_reducible apply bump_keeps
    | with_reducible apply ite_keeps <;> intro _
    | intro _ _ _
    | split

theorem execSyncInEdge_keeps [Fact (W .per)] (h : Keeps P W o s) : OutKeeps P W o (execSyncInEdge s) := by
  unfold execSyncInEdge
  repeat' first
    | with_reducible assumption
    | with_reducible apply syncEdge_keeps
    | with_reducible apply each_keeps
    | with_reducible apply ite_keeps <;> intro _
    | with_reducible apply next_keeps
    | with_reducible apply fault_keeps
    | with_reducible apply each_keeps
    | intro _ _ _

theorem armed_keeps [Fact (W .queues)] [Fact (W .per)] (h : Keeps P W o s) (a1 a2) : Keeps P W o (State.armed s a1 a2) := by
  unfold State.armed
  repeat' first
    | with_reducible assumption
    | with_reducible apply setProg_keeps
    | with_reducible apply modQueue_keeps
    | with_reducible apply modPer_keeps
    | with_reducible apply foldl_keeps
    | exact fun _ => ⟨rfl, rfl⟩

theorem arm_keeps [Fact (W .queues)] [Fact (W .per)] (h : Keeps P W o s) (a1) : Keeps P W o (State.arm s a1) := by
  unfold State.arm
  repeat' first
    | with_reducible assumption
    | with_reducible apply setProg_keeps
    | with_reducible apply armed_keeps
    | with_reducible apply ite_keeps <;> intro _
    | intro _ _ _
    | split

theorem disarm_keeps [Fact (W .per)] (h : Keeps P W o s) (a1) : Keeps P W o (State.disarm s a1) := by
  unfold State.disarm
  repeat' first
    | with_reducible assumption
    | with_reducible apply setProg_keeps
    | with_reducible apply ite_keeps <;> intro _

theorem progCtrl_keeps [Fact (W .queues)] [Fact (W .per)] (h : Keeps P W o s) (a1 a2) : Keeps P W o (State.progCtrl s a1 a2) := by
  unfold State.progCtrl
  repeat' first
    | with_reducible assumption
    | with_reducible apply arm_keeps
    | with_reducible apply disarm_keeps
    | with_reducible apply ite_keeps <;> intro _

theorem inBad_keeps (h : Keeps P W o s) (a1 a2) : Keeps P W o (State.inBad s a1 a2) := by
  unfold State.inBad
  repeat' first
    | with_reducible assumption
    | with_reducible apply bump_keeps
    | intro _ _ _
    | split

theorem takeRecords_keeps [Fact (W .per)] (h : Keeps P W o s) (a1 a2 a3 a4) : Keeps P W o (State.takeRecords s a1 a2 a3 a4) := by
  induction a3 generalizing s a4 with
  | zero =>
    unfold State.takeRecords
    repeat' first
      | with_reducible assumption
  | succ n ih =>
    unfold State.takeRecords
    repeat' first
      | with_reducible assumption
      | with_reducible apply ih
      | with_reducible apply each_keeps
      | with_reducible apply modPer_keeps
      | with_reducible apply inBad_keeps
      | with_reducible apply ite_keeps <;> intro _
      | with_reducible apply each_keeps
      | exact fun _ => ⟨rfl, rfl⟩
      | intro _ _ _

theorem gclChange_keeps [Fact (W .per)] (h : Keeps P W o s) (a1 a2) : Keeps P W o (State.gclChange s a1 a2) := by
  unfold State.gclChange
  repeat' first
    | with_reducible assumption
    | with_reducible apply setPort_keeps
    | with_reducible apply modPort_keeps
    | with_reducible apply ite_keeps <;> intro _

theorem execDrvGclChange_keeps [Fact (W .per)] (h : Keeps P W o s) (a1 a2) : OutKeeps P W o (execDrvGclChange a1 a2 s) := by
  unfold execDrvGclChange
  repeat' first
    | with_reducible assumption
    | with_reducible apply onWrite_keeps
    | with_reducible apply gclChange_keeps
    | with_reducible apply next_keeps
    | with_reducible apply fault_keeps
    | intro _ _ _
    | intro _ _

theorem drain_keeps [Fact (W .per)] (h : Keeps P W o s) (a1) : Keeps P W o (State.drain s a1) := by
  unfold State.drain
  repeat' first
    | with_reducible assumption
    | with_reducible apply setPort_keeps
    | with_reducible apply modPorts_keeps
    | with_reducible apply ite_keeps <;> intro _
    | exact fun _ => rfl

theorem queueFrame_keeps [Fact (W .per)] (h : Keeps P W o s) (a1) : Keeps P W o (State.queueFrame s a1) := by
  unfold State.queueFrame
  repeat' first
    | with_reducible assumption
    | with_reducible apply drain_keeps
    | with_reducible apply modPort_keeps
    | with_reducible apply ite_keeps <;> intro _

theorem gptpSend_keeps [Fact (W .per)] (h : Keeps P W o s) (a1 a2) : Keeps P W o (State.gptpSend s a1 a2) := by
  unfold State.gptpSend
  repeat' first
    | with_reducible assumption
    | with_reducible apply queueFrame_keeps

theorem askDelay_keeps [Fact (W .per)] (h : Keeps P W o s) : Keeps P W o (State.askDelay s) := by
  unfold State.askDelay
  repeat' first
    | with_reducible assumption
    | with_reducible apply each_keeps
    | with_reducible apply gptpSend_keeps
    | with_reducible apply ite_keeps <;> intro _
    | with_reducible apply each_keeps
    | intro _ _ _

theorem execRepairWindowClose_keeps [Fact (W .engines)] [Fact (W .per)] [Fact (W .rel)] (h : Keeps P W o s) (a1) : OutKeeps P W o (execRepairWindowClose a1 s) := by
  unfold execRepairWindowClose
  repeat' first
    | with_reducible assumption
    | with_reducible apply endGrant_keeps
    | with_reducible apply ite_keeps <;> intro _
    | with_reducible apply next_keeps
    | with_reducible apply fault_keeps
    | intro _ _ _
    | split

theorem commit_keeps [Fact (W .per)] (h : Keeps P W o s) (a1) : Keeps P W o (State.commit s a1) := by
  unfold State.commit
  repeat' first
    | with_reducible assumption
    | with_reducible apply modProg_keeps
    | with_reducible apply each_keeps
    | with_reducible apply modPer_keeps
    | with_reducible apply spadCheck_keeps
    | with_reducible apply each_keeps
    | with_reducible apply foldl_keeps
    | exact fun _ => ⟨rfl, rfl⟩
    | intro _ _ _

theorem driveFrame_keeps [Fact (W .per)] (h : Keeps P W o s) (a1 a2) : Keeps P W o (State.driveFrame s a1 a2) := by
  unfold State.driveFrame
  repeat' first
    | with_reducible assumption
    | with_reducible apply takeRecords_keeps
    | with_reducible apply inBad_keeps
    | with_reducible apply ite_keeps <;> intro _

theorem openWindow_keeps [Fact (W .engines)] [Fact (W .queues)] [Fact (W .per)] [Fact (W .rel)] (h : Keeps P W o s) (a1) : Keeps P W o (State.openWindow s a1) := by
  unfold State.openWindow
  repeat' first
    | with_reducible assumption
    | with_reducible apply modEng_keeps
    | with_reducible apply modProg_keeps
    | with_reducible apply discardPreload_keeps
    | with_reducible apply modRel_keeps

theorem modTime_keeps [Fact (W .per)] (h : Keeps P W o s) (a1) : Keeps P W o (State.modTime s a1) := by
  unfold State.modTime
  repeat' first
    | with_reducible assumption
    | with_reducible apply modPer_keeps
    | exact fun _ => ⟨rfl, rfl⟩

theorem execPdelayResp_keeps [Fact (W .per)] (h : Keeps P W o s) (a1 a2) : OutKeeps P W o (execPdelayResp a1 a2 s) := by
  unfold execPdelayResp
  repeat' first
    | with_reducible assumption
    | with_reducible apply modTime_keeps
    | with_reducible apply ite_keeps <;> intro _
    | with_reducible apply next_keeps

theorem execPerArm_keeps [Fact (W .queues)] [Fact (W .per)] (h : Keeps P W o s) (a1 a2) : OutKeeps P W o (execPerArm a1 a2 s) := by
  unfold execPerArm
  repeat' first
    | with_reducible assumption
    | with_reducible apply progCtrl_keeps
    | with_reducible apply onWrite_keeps
    | with_reducible apply next_keeps
    | with_reducible apply fault_keeps
    | intro _ _ _
    | intro _ _

theorem execSyncInTimeout_keeps [Fact (W .per)] (h : Keeps P W o s) (a1) : OutKeeps P W o (execSyncInTimeout a1 s) := by
  unfold execSyncInTimeout
  repeat' first
    | with_reducible assumption
    | with_reducible apply setProg_keeps
    | with_reducible apply bump_keeps
    | with_reducible apply ite_keeps <;> intro _
    | with_reducible apply next_keeps
    | with_reducible apply fault_keeps
    | intro _ _ _
    | split
    | dsimp only

theorem gateEntry_keeps [Fact (W .per)] (h : Keeps P W o s) (a1) : Keeps P W o (State.gateEntry s a1) := by
  unfold State.gateEntry
  repeat' first
    | with_reducible assumption
    | with_reducible apply setPort_keeps
    | with_reducible apply drain_keeps

theorem execGclChangeApply_keeps [Fact (W .per)] (h : Keeps P W o s) (a1) : OutKeeps P W o (execGclChangeApply a1 s) := by
  unfold execGclChangeApply
  repeat' first
    | with_reducible assumption
    | with_reducible apply modPort_keeps
    | with_reducible apply gateEntry_keeps
    | with_reducible apply ite_keeps <;> intro _
    | with_reducible apply next_keeps
    | with_reducible apply fault_keeps
    | intro _ _ _
    | split

theorem execGptpSync_keeps [Fact (W .per)] (h : Keeps P W o s) (a1 a2 a3) : OutKeeps P W o (execGptpSync a1 a2 a3 s) := by
  unfold execGptpSync
  repeat' first
    | with_reducible assumption
    | with_reducible apply modTime_keeps
    | with_reducible apply ite_keeps <;> intro _
    | with_reducible apply next_keeps

theorem latchIngress_keeps [Fact (W .per)] (h : Keeps P W o s) (a1) : Keeps P W o (State.latchIngress s a1) := by
  unfold State.latchIngress
  repeat' first
    | with_reducible assumption
    | with_reducible apply modPer_keeps
    | with_reducible apply foldl_keeps
    | exact fun _ => ⟨rfl, rfl⟩

theorem execGateControlEntry_keeps [Fact (W .per)] (h : Keeps P W o s) (a1) : OutKeeps P W o (execGateControlEntry a1 s) := by
  unfold execGateControlEntry
  repeat' first
    | with_reducible assumption
    | with_reducible apply gateEntry_keeps
    | with_reducible apply next_keeps

theorem grant_keeps [Fact (W .per)] (h : Keeps P W o s) (a1) : Keeps P W o (State.grant s a1) := by
  unfold State.grant
  repeat' first
    | with_reducible assumption
    | with_reducible apply modProg_keeps
    | with_reducible apply modPer_keeps
    | with_reducible apply ite_keeps <;> intro _
    | exact fun _ => ⟨rfl, rfl⟩

theorem execSyncTimeout_keeps [Fact (W .per)] (h : Keeps P W o s) : OutKeeps P W o (execSyncTimeout s) := by
  unfold execSyncTimeout
  repeat' first
    | with_reducible assumption
    | with_reducible apply raise_keeps
    | with_reducible apply modTime_keeps
    | with_reducible apply ite_keeps <;> intro _
    | with_reducible apply next_keeps

theorem execPdelayReq_keeps [Fact (W .per)] (h : Keeps P W o s) (a1) : OutKeeps P W o (execPdelayReq a1 s) := by
  unfold execPdelayReq
  repeat' first
    | with_reducible assumption
    | with_reducible apply gptpSend_keeps
    | with_reducible apply ite_keeps <;> intro _
    | with_reducible apply next_keeps

theorem deliverStream_keeps [Fact (W .spad)] (h : Keeps P W o s) (a1 a2 a3) : Keeps P W o (State.deliverStream s a1 a2 a3) := by
  unfold State.deliverStream
  repeat' first
    | with_reducible assumption
    | with_reducible apply bump_keeps
    | with_reducible apply deliver_keeps
    | with_reducible apply ite_keeps <;> intro _

theorem fire_keeps [Fact (W .spad)] [Fact (W .queues)] [Fact (W .per)] (h : Keeps P W o s) (a1 a2 a3) : Keeps P W o (State.fire s a1 a2 a3) := by
  unfold State.fire
  repeat' first
    | with_reducible assumption
    | with_reducible apply bump_keeps
    | with_reducible apply modProg_keeps
    | with_reducible apply modQueue_keeps
    | with_reducible apply each_keeps
    | with_reducible apply traceTick_keeps
    | with_reducible apply deliverStream_keeps
    | with_reducible apply ite_keeps <;> intro _
    | with_reducible apply each_keeps
    | intro _ _ _

theorem execAnnounce_keeps [Fact (W .per)] (h : Keeps P W o s) (a1 a2 a3) : OutKeeps P W o (execAnnounce a1 a2 a3 s) := by
  unfold execAnnounce
  repeat' first
    | with_reducible assumption
    | with_reducible apply modTime_keeps
    | with_reducible apply ite_keeps <;> intro _
    | with_reducible apply next_keeps

theorem egress_keeps [Fact (W .per)] (h : Keeps P W o s) (a1 a2 a3 a4) : Keeps P W o (State.egress s a1 a2 a3 a4) := by
  unfold State.egress
  repeat' first
    | with_reducible assumption
    | with_reducible apply each_keeps
    | with_reducible apply queueFrame_keeps
    | with_reducible apply each_keeps
    | intro _ _ _

theorem takeTick_keeps [Fact (W .spad)] [Fact (W .engines)] [Fact (W .queues)] [Fact (W .per)] [Fact (W .rel)] (h : Keeps P W o s) (a1 a2 a3) : Keeps P W o (State.takeTick s a1 a2 a3) := by
  unfold State.takeTick
  repeat' first
    | with_reducible assumption
    | with_reducible apply setProg_keeps
    | with_reducible apply bump_keeps
    | with_reducible apply openWindow_keeps
    | with_reducible apply latchIngress_keeps
    | with_reducible apply fire_keeps
    | with_reducible apply ite_keeps <;> intro _

theorem execPerDisarm_keeps [Fact (W .queues)] [Fact (W .per)] (h : Keeps P W o s) (a1 a2) : OutKeeps P W o (execPerDisarm a1 a2 s) := by
  unfold execPerDisarm
  repeat' first
    | with_reducible assumption
    | with_reducible apply progCtrl_keeps
    | with_reducible apply onWrite_keeps
    | with_reducible apply next_keeps
    | with_reducible apply fault_keeps
    | intro _ _ _
    | intro _ _

theorem execDrivePortLink_keeps [Fact (W .per)] (h : Keeps P W o s) (a1 a2 a3) : OutKeeps P W o (execDrivePortLink a1 a2 a3 s) := by
  unfold execDrivePortLink
  repeat' first
    | with_reducible assumption
    | with_reducible apply drain_keeps
    | with_reducible apply modPort_keeps
    | with_reducible apply next_keeps

theorem execDriveFrameRx_keeps [Fact (W .per)] (h : Keeps P W o s) (a1 a2 a3) : OutKeeps P W o (execDriveFrameRx a1 a2 a3 s) := by
  unfold execDriveFrameRx
  repeat' first
    | with_reducible assumption
    | with_reducible apply bump_keeps
    | with_reducible apply driveFrame_keeps
    | with_reducible apply ite_keeps <;> intro _
    | with_reducible apply next_keeps

theorem execCommit_keeps [Fact (W .per)] (h : Keeps P W o s) (a1) : OutKeeps P W o (execCommit a1 s) := by
  unfold execCommit
  repeat' first
    | with_reducible assumption
    | with_reducible apply commit_keeps
    | with_reducible apply ite_keeps <;> intro _
    | with_reducible apply next_keeps

theorem execTickFire_keeps [Fact (W .spad)] [Fact (W .engines)] [Fact (W .queues)] [Fact (W .per)] [Fact (W .rel)] (h : Keeps P W o s) (a1) : OutKeeps P W o (execTickFire a1 s) := by
  unfold execTickFire
  repeat' first
    | with_reducible assumption
    | with_reducible apply fire_keeps
    | with_reducible apply takeTick_keeps
    | with_reducible apply ite_keeps <;> intro _
    | with_reducible apply next_keeps
    | with_reducible apply fault_keeps
    | intro _ _ _
    | split

theorem execListRelease_keeps [Fact (W .data)] [Fact (W .engines)] [Fact (W .queues)] [Fact (W .per)] [Fact (W .host)] (h : Keeps P W o s) (a1) : OutKeeps P W o (execListRelease a1 s) := by
  unfold execListRelease
  repeat' first
    | with_reducible assumption
    | with_reducible apply modProg_keeps
    | with_reducible apply reportQueue_keeps
    | with_reducible apply ite_keeps <;> intro _
    | with_reducible apply next_keeps

theorem execSyncOutPulse_keeps [Fact (W .per)] (h : Keeps P W o s) : OutKeeps P W o (execSyncOutPulse s) := by
  unfold execSyncOutPulse
  repeat' first
    | with_reducible assumption
    | with_reducible apply modTime_keeps
    | with_reducible apply ite_keeps <;> intro _
    | with_reducible apply next_keeps

theorem execPerRepairGrant_keeps [Fact (W .per)] (h : Keeps P W o s) (a1) : OutKeeps P W o (execPerRepairGrant a1 s) := by
  unfold execPerRepairGrant
  repeat' first
    | with_reducible assumption
    | with_reducible apply grant_keeps
    | with_reducible apply onWrite_keeps
    | with_reducible apply next_keeps
    | with_reducible apply fault_keeps
    | intro _ _ _
    | intro _ _

end Sys2Proof.Machine
end

