-- ==== Sys2Proof/Laws/KeepRepair.lean ====
section
/-! SUPPORT. What the operations and commands of Machine/Repair.lean keep (see Laws/Keep.lean). -/
namespace Sys2Proof.Machine

variable {P : Prop} {W : Part → Prop} {o s t : State}

theorem queueRepair_keeps [Fact (W .img)] [Fact (W .hub)] [Fact (W .flash)] [Fact (W .cores)] [Fact (W .engines)] [Fact (W .rel)] (h : Keeps P W o s) (a1 a2 a3) : Keeps P W o (State.queueRepair s a1 a2 a3) := by
  unfold State.queueRepair
  repeat' first
    | with_reducible assumption
    | with_reducible apply halter_keeps
    | with_reducible apply queueItem_keeps
    | with_reducible apply queueColumn_keeps
    | with_reducible apply ite_keeps <;> intro _

theorem execRepairRun_keeps [Fact (W .img)] [Fact (W .hub)] [Fact (W .flash)] [Fact (W .cores)] [Fact (W .data)] [Fact (W .engines)] [Fact (W .rel)] [Fact (W .host)] (h : Keeps P W o s) : OutKeeps P W o (execRepairRun s) := by
  unfold execRepairRun
  repeat' first
    | with_reducible assumption
    | with_reducible apply background_keeps
    | with_reducible apply endReq_keeps
    | with_reducible apply modMbx_keeps
    | with_reducible apply queueRepair_keeps
    | with_reducible apply ite_keeps <;> intro _
    | with_reducible apply next_keeps
    | with_reducible apply fault_keeps
    | exact fun _ => ⟨rfl, rfl⟩
    | intro _ _ _
    | split

theorem dropPatch_keeps [Fact (W .rel)] (h : Keeps P W o s) (a1) : Keeps P W o (State.dropPatch s a1) := by
  unfold State.dropPatch
  repeat' first
    | with_reducible assumption
    | with_reducible apply modRel_keeps

theorem endWindowReq_keeps [Fact (W .data)] [Fact (W .host)] (h : Keeps P W o s) (a1 a2 a3) : Keeps P W o (State.endWindowReq s a1 a2 a3) := by
  unfold State.endWindowReq
  repeat' first
    | with_reducible assumption
    | with_reducible apply reply_keeps
    | with_reducible apply serveHead_keeps
    | with_reducible apply modMbx_keeps
    | exact fun _ => ⟨rfl, rfl⟩
    | intro _ _ _
    | split

theorem endPatch_keeps [Fact (W .img)] [Fact (W .data)] [Fact (W .engines)] [Fact (W .queues)] [Fact (W .slots)] [Fact (W .per)] [Fact (W .host)] (h : Keeps P W o s) (a1 a2 a3) : Keeps P W o (State.endPatch s a1 a2 a3) := by
  unfold State.endPatch
  repeat' first
    | with_reducible assumption
    | with_reducible apply finishPriv_keeps
    | with_reducible apply endWindowReq_keeps
    | with_reducible apply ite_keeps <;> intro _
    | intro _ _ _
    | split

theorem announceSwap_keeps [Fact (W .links)] (h : Keeps P W o s) (a1 a2 a3) : Keeps P W o (State.announceSwap s a1 a2 a3) := by
  unfold State.announceSwap
  repeat' first
    | with_reducible assumption
    | with_reducible apply modLink_keeps

theorem closeWindow_keeps [Fact (W .engines)] [Fact (W .rel)] (h : Keeps P W o s) (a1) : Keeps P W o (State.closeWindow s a1) := by
  unfold State.closeWindow
  repeat' first
    | with_reducible assumption
    | with_reducible apply modEng_keeps
    | with_reducible apply modRel_keeps
    | with_reducible apply ite_keeps <;> intro _

theorem marchWake_keeps [Fact (W .halves)] [Fact (W .spad)] (h : Keeps P W o s) (a1) : Keeps P W o (State.marchWake s a1) := by
  unfold State.marchWake
  repeat' first
    | with_reducible assumption
    | with_reducible apply wakeHalf_keeps
    | with_reducible apply ite_keeps <;> intro _

theorem execRepairWindowOpen_keeps [Fact (W .engines)] [Fact (W .queues)] [Fact (W .rel)] (h : Keeps P W o s) (a1) : OutKeeps P W o (execRepairWindowOpen a1 s) := by
  unfold execRepairWindowOpen
  repeat' first
    | with_reducible assumption
    | with_reducible apply modEng_keeps
    | with_reducible apply discardPreload_keeps
    | with_reducible apply modRel_keeps
    | with_reducible apply ite_keeps <;> intro _
    | with_reducible apply next_keeps

theorem marchRest_keeps [Fact (W .halves)] (h : Keeps P W o s) (a1) : Keeps P W o (State.marchRest s a1) := by
  unfold State.marchRest
  repeat' first
    | with_reducible assumption
    | with_reducible apply modHalf_keeps

theorem dropItem_keeps [Fact (W .engines)] [Fact (W .rel)] (h : Keeps P W o s) (a1) : Keeps P W o (State.dropItem s a1) := by
  unfold State.dropItem
  repeat' first
    | with_reducible assumption
    | with_reducible apply closeWindow_keeps
    | with_reducible apply modRel_keeps

theorem dropItemsOf_keeps [Fact (W .engines)] [Fact (W .rel)] (h : Keeps P W o s) (a1 a2 a3) : Keeps P W o (State.dropItemsOf s a1 a2 a3) := by
  unfold State.dropItemsOf
  repeat' first
    | with_reducible assumption
    | with_reducible apply each_keeps
    | with_reducible apply dropItem_keeps
    | with_reducible apply each_keeps
    | intro _ _ _

theorem runMarch_keeps [Fact (W .img)] [Fact (W .hub)] [Fact (W .flash)] [Fact (W .halves)] [Fact (W .cores)] [Fact (W .spad)] [Fact (W .data)] [Fact (W .engines)] [Fact (W .queues)] [Fact (W .slots)] [Fact (W .per)] [Fact (W .rel)] [Fact (W .host)] (h : Keeps P W o s) (a1 a2 a3) : Keeps P W o (State.runMarch s a1 a2 a3) := by
  unfold State.runMarch
  repeat' first
    | with_reducible assumption
    | with_reducible apply finishPriv_keeps
    | with_reducible apply each_keeps
    | refine marchHalves_keeps _ _ (fun y d hy => MarchOut_half_keeps hy _ _ _ _) ?_
    | with_reducible apply hubWrite_keeps
    | with_reducible apply dropItemsOf_keeps
    | with_reducible apply marchRest_keeps
    | with_reducible apply MarchOut_start_keeps
    | with_reducible apply each_keeps
    | with_reducible apply foldl_keeps
    | intro _ _ _

theorem beginMarch_keeps [Fact (W .halves)] [Fact (W .spad)] [Fact (W .engines)] [Fact (W .queues)] (h : Keeps P W o s) (a1) : Keeps P W o (State.beginMarch s a1) := by
  unfold State.beginMarch
  repeat' first
    | with_reducible assumption
    | with_reducible apply modHalf_keeps
    | with_reducible apply marchWake_keeps
    | with_reducible apply each_keeps
    | with_reducible apply discardPreload_keeps
    | with_reducible apply each_keeps
    | intro _ _ _

theorem needItems_keeps [Fact (W .rel)] (h : Keeps P W o s) (a1 a2 a3) : Keeps P W o (State.needItems s a1 a2 a3) := by
  unfold State.needItems
  repeat' first
    | with_reducible assumption
    | with_reducible apply each_keeps
    | with_reducible apply queueItem_keeps
    | with_reducible apply ite_keeps <;> intro _
    | with_reducible apply each_keeps
    | intro _ _ _

theorem march_keeps [Fact (W .img)] [Fact (W .hub)] [Fact (W .flash)] [Fact (W .halves)] [Fact (W .cores)] [Fact (W .spad)] [Fact (W .data)] [Fact (W .engines)] [Fact (W .queues)] [Fact (W .slots)] [Fact (W .per)] [Fact (W .rel)] [Fact (W .host)] (h : Keeps P W o s) (a1 a2) : Keeps P W o (State.march s a1 a2) := by
  unfold State.march
  repeat' first
    | with_reducible assumption
    | with_reducible apply failPriv_keeps
    | with_reducible apply runMarch_keeps
    | with_reducible apply needItems_keeps
    | with_reducible apply beginMarch_keeps
    | with_reducible apply ite_keeps <;> intro _
    | intro _ _ _
    | split

theorem execMarchPreserving_keeps [Fact (W .img)] [Fact (W .hub)] [Fact (W .flash)] [Fact (W .halves)] [Fact (W .cores)] [Fact (W .spad)] [Fact (W .data)] [Fact (W .engines)] [Fact (W .queues)] [Fact (W .slots)] [Fact (W .per)] [Fact (W .rel)] [Fact (W .host)] (h : Keeps P W o s) (a1) : OutKeeps P W o (execMarchPreserving a1 s) := by
  unfold execMarchPreserving
  repeat' first
    | with_reducible assumption
    | with_reducible apply march_keeps
    | with_reducible apply ite_keeps <;> intro _
    | with_reducible apply next_keeps
    | with_reducible apply fault_keeps
    | intro _ _ _
    | split

theorem execMarchDestructive_keeps [Fact (W .img)] [Fact (W .hub)] [Fact (W .flash)] [Fact (W .halves)] [Fact (W .cores)] [Fact (W .spad)] [Fact (W .data)] [Fact (W .engines)] [Fact (W .queues)] [Fact (W .slots)] [Fact (W .per)] [Fact (W .rel)] [Fact (W .host)] (h : Keeps P W o s) (a1) : OutKeeps P W o (execMarchDestructive a1 s) := by
  unfold execMarchDestructive
  repeat' first
    | with_reducible assumption
    | with_reducible apply march_keeps
    | with_reducible apply ite_keeps <;> intro _
    | with_reducible apply next_keeps
    | with_reducible apply fault_keeps
    | intro _ _ _
    | split

theorem retain_keeps [Fact (W .img)] [Fact (W .data)] [Fact (W .engines)] [Fact (W .queues)] [Fact (W .slots)] [Fact (W .per)] [Fact (W .host)] (h : Keeps P W o s) (a1) (run : State → State) (hr : ∀ u, Keeps P W o u → Keeps P W o (run u)) : Keeps P W o (State.retain s a1 run) := by
  unfold State.retain
  split
  · exact failPriv_keeps h _ _
  · exact hr _ h

theorem endCmds_keeps [Fact (W .img)] [Fact (W .data)] [Fact (W .engines)] [Fact (W .queues)] [Fact (W .slots)] [Fact (W .per)] [Fact (W .host)] (h : Keeps P W o s) (a1 a2) : Keeps P W o (State.endCmds s a1 a2) := by
  unfold State.endCmds
  repeat' first
    | with_reducible assumption
    | with_reducible apply finishPriv_keeps
    | with_reducible apply each_keeps
    | with_reducible apply each_keeps
    | intro _ _ _

theorem endItem_keeps [Fact (W .img)] [Fact (W .data)] [Fact (W .engines)] [Fact (W .queues)] [Fact (W .slots)] [Fact (W .per)] [Fact (W .rel)] [Fact (W .host)] (h : Keeps P W o s) (a1 a2) : Keeps P W o (State.endItem s a1 a2) := by
  unfold State.endItem
  repeat' first
    | with_reducible assumption
    | with_reducible apply endWindowReq_keeps
    | with_reducible apply endCmds_keeps
    | with_reducible apply dropItem_keeps

theorem runRow_keeps [Fact (W .img)] [Fact (W .hub)] [Fact (W .flash)] [Fact (W .halves)] [Fact (W .cores)] [Fact (W .spad)] [Fact (W .data)] [Fact (W .engines)] [Fact (W .queues)] [Fact (W .slots)] [Fact (W .per)] [Fact (W .rel)] [Fact (W .host)] (h : Keeps P W o s) (a1) : Keeps P W o (State.runRow s a1) := by
  unfold State.runRow
  repeat' first
    | with_reducible assumption
    | with_reducible apply spoilSpare_keeps
    | with_reducible apply bump_keeps
    | with_reducible apply remap_keeps
    | with_reducible apply halter_keeps
    | with_reducible apply dropItem_keeps
    | with_reducible apply endItem_keeps
    | intro _ _ _
    | split
    | dsimp only

theorem execRowItem_keeps [Fact (W .img)] [Fact (W .hub)] [Fact (W .flash)] [Fact (W .halves)] [Fact (W .cores)] [Fact (W .spad)] [Fact (W .data)] [Fact (W .engines)] [Fact (W .queues)] [Fact (W .slots)] [Fact (W .per)] [Fact (W .rel)] [Fact (W .host)] (h : Keeps P W o s) : OutKeeps P W o (execRowItem s) := by
  unfold execRowItem
  repeat' first
    | with_reducible assumption
    | with_reducible apply runRow_keeps
    | with_reducible apply ite_keeps <;> intro _
    | with_reducible apply next_keeps
    | with_reducible apply fault_keeps
    | intro _ _ _
    | split

theorem afterLanding_keeps [Fact (W .img)] [Fact (W .data)] [Fact (W .engines)] [Fact (W .queues)] [Fact (W .slots)] [Fact (W .per)] [Fact (W .links)] [Fact (W .rel)] [Fact (W .host)] (h : Keeps P W o s) (a1) : Keeps P W o (State.afterLanding s a1) := by
  unfold State.afterLanding
  repeat' first
    | with_reducible assumption
    | with_reducible apply each_keeps
    | with_reducible apply modRel_keeps
    | with_reducible apply endPatch_keeps
    | with_reducible apply announceSwap_keeps
    | with_reducible apply modLink_keeps
    | with_reducible apply each_keeps
    | intro _ _ _
    | split
    | dsimp only

theorem marchNew_keeps [Fact (W .img)] [Fact (W .hub)] [Fact (W .flash)] [Fact (W .halves)] [Fact (W .cores)] [Fact (W .spad)] [Fact (W .engines)] [Fact (W .rel)] {u : State} (h : Keeps P W o s) (a1) : Keeps P W o (State.marchNew u s a1) := by
  unfold State.marchNew
  exact foldl_part_keeps MarchOut.st _ _ (fun _ _ hy => MarchOut_marches_keeps hy _ _ _) (b := MarchOut.start s) h

theorem land_keeps [Fact (W .img)] [Fact (W .hub)] [Fact (W .flash)] [Fact (W .halves)] [Fact (W .cores)] [Fact (W .spad)] [Fact (W .data)] [Fact (W .engines)] [Fact (W .queues)] [Fact (W .slots)] [Fact (W .per)] [Fact (W .links)] [Fact (W .rel)] [Fact (W .host)] (h : Keeps P W o s) (a1 a2) : Keeps P W o (State.land s a1 a2) := by
  unfold State.land
  repeat' first
    | with_reducible assumption
    | with_reducible apply each_keeps
    | with_reducible apply refusePatch_keeps
    | with_reducible apply discardPreload_keeps
    | (apply landObject_keeps h; assumption)
    | with_reducible apply endPatch_keeps
    | with_reducible apply marchNew_keeps
    | with_reducible apply afterLanding_keeps
    | with_reducible apply landHalter_keeps
    | with_reducible apply each_keeps
    | intro _ _ _
    | split

theorem beginPatch_keeps [Fact (W .img)] [Fact (W .hub)] [Fact (W .flash)] [Fact (W .halves)] [Fact (W .cores)] [Fact (W .spad)] [Fact (W .data)] [Fact (W .engines)] [Fact (W .queues)] [Fact (W .slots)] [Fact (W .per)] [Fact (W .links)] [Fact (W .rel)] [Fact (W .host)] (h : Keeps P W o s) (a1 a2 a3 a4) : Keeps P W o (State.beginPatch s a1 a2 a3 a4) := by
  unfold State.beginPatch
  repeat' first
    | with_reducible assumption
    | with_reducible apply each_keeps
    | with_reducible apply land_keeps
    | with_reducible apply queueItem_keeps
    | with_reducible apply modRel_keeps
    | with_reducible apply ite_keeps <;> intro _
    | with_reducible apply each_keeps
    | intro _ _ _

theorem patchNote_keeps (h : Keeps P W o s) (a1) : Keeps P W o (State.patchNote s a1) := by
  unfold State.patchNote
  repeat' first
    | with_reducible assumption
    | with_reducible apply devNote_keeps
    | intro _ _ _
    | split

theorem execPatch_keeps [Fact (W .img)] [Fact (W .hub)] [Fact (W .flash)] [Fact (W .halves)] [Fact (W .cores)] [Fact (W .spad)] [Fact (W .data)] [Fact (W .engines)] [Fact (W .queues)] [Fact (W .slots)] [Fact (W .per)] [Fact (W .links)] [Fact (W .rel)] [Fact (W .host)] (h : Keeps P W o s) : OutKeeps P W o (execPatch s) := by
  unfold execPatch
  repeat' first
    | with_reducible assumption
    | with_reducible apply finishPriv_keeps
    | with_reducible apply beginPatch_keeps
    | with_reducible apply refusePatch_keeps
    | with_reducible apply xlatFault_keeps
    | with_reducible apply patchNote_keeps
    | with_reducible apply ite_keeps <;> intro _
    | with_reducible apply next_keeps
    | with_reducible apply fault_keeps
    | intro _ _ _
    | split

theorem execRealign_keeps [Fact (W .img)] [Fact (W .halves)] [Fact (W .data)] [Fact (W .engines)] [Fact (W .queues)] [Fact (W .slots)] [Fact (W .per)] [Fact (W .clk)] [Fact (W .rel)] [Fact (W .host)] (h : Keeps P W o s) (a1) : OutKeeps P W o (execRealign a1 s) := by
  unfold execRealign
  repeat' first
    | with_reducible assumption
    | with_reducible apply each_keeps
    | with_reducible apply realignAll_keeps
    | with_reducible apply endItem_keeps
    | with_reducible apply ite_keeps <;> intro _
    | with_reducible apply next_keeps
    | with_reducible apply fault_keeps
    | with_reducible apply each_keeps
    | intro _ _ _
    | split

theorem execWindowTimeout_keeps [Fact (W .data)] [Fact (W .engines)] [Fact (W .rel)] [Fact (W .host)] (h : Keeps P W o s) : OutKeeps P W o (execWindowTimeout s) := by
  unfold execWindowTimeout
  repeat' first
    | with_reducible assumption
    | with_reducible apply each_keeps
    | with_reducible apply closeWindow_keeps
    | with_reducible apply endWindowReq_keeps
    | with_reducible apply modRel_keeps
    | with_reducible apply ite_keeps <;> intro _
    | with_reducible apply next_keeps
    | with_reducible apply fault_keeps
    | with_reducible apply each_keeps
    | intro _ _ _
    | split

theorem repair_keeps [Fact (W .img)] [Fact (W .hub)] [Fact (W .flash)] [Fact (W .cores)] [Fact (W .data)] [Fact (W .engines)] [Fact (W .queues)] [Fact (W .slots)] [Fact (W .per)] [Fact (W .rel)] [Fact (W .host)] (h : Keeps P W o s) (a1) : Keeps P W o (State.repair s a1) := by
  unfold State.repair
  repeat' first
    | with_reducible assumption
    | with_reducible apply failPriv_keeps
    | with_reducible apply queueRepair_keeps
    | intro _ _ _
    | split

theorem execRepairRow_keeps [Fact (W .img)] [Fact (W .hub)] [Fact (W .flash)] [Fact (W .cores)] [Fact (W .data)] [Fact (W .engines)] [Fact (W .queues)] [Fact (W .slots)] [Fact (W .per)] [Fact (W .rel)] [Fact (W .host)] (h : Keeps P W o s) : OutKeeps P W o (execRepairRow s) := by
  unfold execRepairRow
  repeat' first
    | with_reducible assumption
    | with_reducible apply repair_keeps
    | with_reducible apply ite_keeps <;> intro _
    | with_reducible apply next_keeps
    | with_reducible apply fault_keeps
    | intro _ _ _
    | split

theorem losePrograms_keeps [Fact (W .engines)] (h : Keeps P W o s) (a1) : Keeps P W o (State.losePrograms s a1) := by
  unfold State.losePrograms
  repeat' first
    | with_reducible assumption
    | with_reducible apply modEng_keeps
    | intro _ _ _
    | split

theorem loseCore_keeps [Fact (W .cores)] (h : Keeps P W o s) (a1) : Keeps P W o (State.loseCore s a1) := by
  unfold State.loseCore
  repeat' first
    | with_reducible assumption
    | with_reducible apply modCore_keeps
    | with_reducible refine free_keeps ?_ _

theorem sleepHalf_keeps [Fact (W .halves)] [Fact (W .cores)] [Fact (W .spad)] [Fact (W .engines)] (h : Keeps P W o s) (a1 a2) : Keeps P W o (State.sleepHalf s a1 a2) := by
  unfold State.sleepHalf
  repeat' first
    | with_reducible assumption
    | with_reducible apply modHalf_keeps
    | with_reducible apply each_keeps
    | with_reducible apply zeroHalf_keeps
    | with_reducible apply losePrograms_keeps
    | with_reducible apply wakeClock_keeps
    | with_reducible apply loseCore_keeps
    | with_reducible apply ite_keeps <;> intro _
    | with_reducible apply each_keeps
    | intro _ _ _

theorem runSleep_keeps [Fact (W .img)] [Fact (W .halves)] [Fact (W .cores)] [Fact (W .spad)] [Fact (W .data)] [Fact (W .engines)] [Fact (W .queues)] [Fact (W .slots)] [Fact (W .per)] [Fact (W .host)] (h : Keeps P W o s) (a1 a2) : Keeps P W o (State.runSleep s a1 a2) := by
  unfold State.runSleep
  repeat' first
    | with_reducible assumption
    | with_reducible apply finishPriv_keeps
    | with_reducible apply each_keeps
    | with_reducible apply sleepHalf_keeps
    | with_reducible apply discardPreload_keeps
    | with_reducible apply ite_keeps <;> intro _
    | with_reducible apply each_keeps
    | intro _ _ _

theorem execRepairHalter_keeps [Fact (W .img)] [Fact (W .hub)] [Fact (W .flash)] [Fact (W .cores)] [Fact (W .data)] [Fact (W .engines)] [Fact (W .queues)] [Fact (W .slots)] [Fact (W .per)] [Fact (W .rel)] [Fact (W .host)] (h : Keeps P W o s) : OutKeeps P W o (execRepairHalter s) := by
  unfold execRepairHalter
  repeat' first
    | with_reducible assumption
    | with_reducible apply repair_keeps
    | with_reducible apply ite_keeps <;> intro _
    | with_reducible apply next_keeps
    | with_reducible apply fault_keeps
    | intro _ _ _
    | split

theorem toRun_keeps [Fact (W .halves)] [Fact (W .spad)] (h : Keeps P W o s) (a1) : Keeps P W o (State.toRun s a1) := by
  unfold State.toRun
  repeat' first
    | with_reducible assumption
    | with_reducible apply modHalf_keeps
    | with_reducible apply wakeHalf_keeps
    | with_reducible apply ite_keeps <;> intro _

theorem execRetainToRun_keeps [Fact (W .img)] [Fact (W .halves)] [Fact (W .spad)] [Fact (W .data)] [Fact (W .engines)] [Fact (W .queues)] [Fact (W .slots)] [Fact (W .per)] [Fact (W .host)] (h : Keeps P W o s) : OutKeeps P W o (execRetainToRun s) := by
  unfold execRetainToRun
  repeat' first
    | with_reducible assumption
    | with_reducible apply retain_keeps
    | with_reducible apply finishPriv_keeps
    | with_reducible apply each_keeps
    | with_reducible apply toRun_keeps
    | with_reducible apply ite_keeps <;> intro _
    | with_reducible apply next_keeps
    | with_reducible apply fault_keeps
    | with_reducible apply each_keeps
    | intro _ _ _
    | intro _ _
    | intro _ _ _
    | split

theorem runColumn_keeps [Fact (W .img)] [Fact (W .hub)] [Fact (W .flash)] [Fact (W .halves)] [Fact (W .cores)] [Fact (W .spad)] [Fact (W .data)] [Fact (W .engines)] [Fact (W .queues)] [Fact (W .slots)] [Fact (W .per)] [Fact (W .rel)] [Fact (W .host)] (h : Keeps P W o s) (a1 a2 a3) : Keeps P W o (State.runColumn s a1 a2 a3) := by
  unfold State.runColumn
  repeat' first
    | with_reducible assumption
    | with_reducible apply markFailed_keeps
    | with_reducible apply takeColumn_keeps
    | with_reducible apply noColumn_keeps
    | with_reducible apply endItem_keeps
    | with_reducible apply ite_keeps <;> intro _
    | intro _ _ _
    | split

theorem execPatchRequest_keeps [Fact (W .img)] [Fact (W .hub)] [Fact (W .flash)] [Fact (W .halves)] [Fact (W .cores)] [Fact (W .spad)] [Fact (W .data)] [Fact (W .engines)] [Fact (W .queues)] [Fact (W .slots)] [Fact (W .per)] [Fact (W .links)] [Fact (W .rel)] [Fact (W .host)] (h : Keeps P W o s) : OutKeeps P W o (execPatchRequest s) := by
  unfold execPatchRequest
  repeat' first
    | with_reducible assumption
    | with_reducible apply beginPatch_keeps
    | with_reducible apply refusePatch_keeps
    | with_reducible apply background_keeps
    | with_reducible apply xlatFault_keeps
    | with_reducible apply patchNote_keeps
    | with_reducible apply endReq_keeps
    | with_reducible apply modMbx_keeps
    | with_reducible apply ite_keeps <;> intro _
    | with_reducible apply next_keeps
    | with_reducible apply fault_keeps
    | exact fun _ => ⟨rfl, rfl⟩
    | intro _ _ _
    | split

theorem execRetainToRetain_keeps [Fact (W .img)] [Fact (W .halves)] [Fact (W .cores)] [Fact (W .spad)] [Fact (W .data)] [Fact (W .engines)] [Fact (W .queues)] [Fact (W .slots)] [Fact (W .per)] [Fact (W .host)] (h : Keeps P W o s) : OutKeeps P W o (execRetainToRetain s) := by
  unfold execRetainToRetain
  repeat' first
    | with_reducible assumption
    | with_reducible apply retain_keeps
    | with_reducible apply runSleep_keeps
    | with_reducible apply ite_keeps <;> intro _
    | with_reducible apply next_keeps
    | with_reducible apply fault_keeps
    | intro _ _ _
    | intro _ _
    | intro _ _ _
    | split

theorem runClkmode_keeps [Fact (W .img)] [Fact (W .halves)] [Fact (W .data)] [Fact (W .engines)] [Fact (W .queues)] [Fact (W .slots)] [Fact (W .per)] [Fact (W .clk)] [Fact (W .rel)] [Fact (W .host)] (h : Keeps P W o s) (a1 a2) : Keeps P W o (State.runClkmode s a1 a2) := by
  unfold State.runClkmode
  repeat' first
    | with_reducible assumption
    | with_reducible apply finishPriv_keeps
    | with_reducible apply each_keeps
    | with_reducible apply alignOver_keeps
    | with_reducible apply discardPreload_keeps
    | with_reducible apply dropItemsOf_keeps
    | with_reducible apply endItem_keeps
    | with_reducible apply each_keeps
    | intro _ _ _

theorem execRepairColumn_keeps [Fact (W .img)] [Fact (W .hub)] [Fact (W .flash)] [Fact (W .cores)] [Fact (W .data)] [Fact (W .engines)] [Fact (W .queues)] [Fact (W .slots)] [Fact (W .per)] [Fact (W .rel)] [Fact (W .host)] (h : Keeps P W o s) : OutKeeps P W o (execRepairColumn s) := by
  unfold execRepairColumn
  repeat' first
    | with_reducible assumption
    | with_reducible apply repair_keeps
    | with_reducible apply ite_keeps <;> intro _
    | with_reducible apply next_keeps
    | with_reducible apply fault_keeps
    | intro _ _ _
    | split

theorem execRetainToOff_keeps [Fact (W .img)] [Fact (W .halves)] [Fact (W .cores)] [Fact (W .spad)] [Fact (W .data)] [Fact (W .engines)] [Fact (W .queues)] [Fact (W .slots)] [Fact (W .per)] [Fact (W .host)] (h : Keeps P W o s) : OutKeeps P W o (execRetainToOff s) := by
  unfold execRetainToOff
  repeat' first
    | with_reducible assumption
    | with_reducible apply retain_keeps
    | with_reducible apply runSleep_keeps
    | with_reducible apply ite_keeps <;> intro _
    | with_reducible apply next_keeps
    | with_reducible apply fault_keeps
    | intro _ _ _
    | intro _ _
    | intro _ _ _
    | split

theorem execColumnItem_keeps [Fact (W .img)] [Fact (W .hub)] [Fact (W .flash)] [Fact (W .halves)] [Fact (W .cores)] [Fact (W .spad)] [Fact (W .data)] [Fact (W .engines)] [Fact (W .queues)] [Fact (W .slots)] [Fact (W .per)] [Fact (W .rel)] [Fact (W .host)] (h : Keeps P W o s) (a1 a2) : OutKeeps P W o (execColumnItem a1 a2 s) := by
  unfold execColumnItem
  repeat' first
    | with_reducible assumption
    | with_reducible apply runColumn_keeps
    | with_reducible apply ite_keeps <;> intro _
    | with_reducible apply next_keeps
    | with_reducible apply fault_keeps
    | intro _ _ _
    | split

theorem execClkmode_keeps [Fact (W .img)] [Fact (W .halves)] [Fact (W .data)] [Fact (W .engines)] [Fact (W .queues)] [Fact (W .slots)] [Fact (W .per)] [Fact (W .clk)] [Fact (W .rel)] [Fact (W .host)] (h : Keeps P W o s) (a1) : OutKeeps P W o (execClkmode a1 s) := by
  unfold execClkmode
  repeat' first
    | with_reducible assumption
    | with_reducible apply failPriv_keeps
    | with_reducible apply runClkmode_keeps
    | with_reducible apply needItems_keeps
    | with_reducible apply ite_keeps <;> intro _
    | with_reducible apply next_keeps
    | with_reducible apply fault_keeps
    | intro _ _ _
    | split

theorem execPatchLanding_keeps [Fact (W .img)] [Fact (W .hub)] [Fact (W .flash)] [Fact (W .halves)] [Fact (W .cores)] [Fact (W .spad)] [Fact (W .data)] [Fact (W .engines)] [Fact (W .queues)] [Fact (W .slots)] [Fact (W .per)] [Fact (W .links)] [Fact (W .rel)] [Fact (W .host)] (h : Keeps P W o s) (a1 a2) : OutKeeps P W o (execPatchLanding a1 a2 s) := by
  unfold execPatchLanding
  repeat' first
    | with_reducible assumption
    | with_reducible apply discardPreload_keeps
    | with_reducible apply land_keeps
    | with_reducible apply dropPatch_keeps
    | with_reducible apply modRel_keeps
    | with_reducible apply dropItemsOf_keeps
    | with_reducible apply ite_keeps <;> intro _
    | with_reducible apply next_keeps
    | with_reducible apply fault_keeps
    | intro _ _ _
    | split

end Sys2Proof.Machine
end

