-- ==== Sys2Proof/Laws/KeepFaults.lean ====
section
/-! SUPPORT. What the operations and commands of Machine/Faults.lean keep (see Laws/Keep.lean). -/
namespace Sys2Proof.Machine

variable {P : Prop} {W : Part → Prop} {o s t : State}

theorem closeWindows_keeps [Fact (W .engines)] [Fact (W .rel)] (h : Keeps P W o s) : Keeps P W o (State.closeWindows s) := by
  unfold State.closeWindows
  repeat' first
    | with_reducible assumption
    | with_reducible apply modEng_keeps
    | with_reducible apply each_keeps
    | with_reducible apply modRel_keeps
    | with_reducible apply each_keeps
    | intro _ _ _

theorem evict_keeps [Fact (W .rel)] (h : Keeps P W o s) : Keeps P W o (State.evict s) := by
  unfold State.evict
  repeat' first
    | with_reducible assumption
    | with_reducible apply bump_keeps
    | with_reducible apply modRel_keeps
    | with_reducible apply ite_keeps <;> intro _
    | intro _ _ _
    | split

theorem countEvent_keeps [Fact (W .rel)] (h : Keeps P W o s) (a1) : Keeps P W o (State.countEvent s a1).2 := by
  unfold State.countEvent
  extract_lets th s0 list old x entry s1
  have h0 : Keeps P W o s0 := modRel_keeps h _
  have h1 : Keeps P W o s1 := ite_keeps (fun _ => h0) (fun _ => evict_keeps h0)
  split
  · dsimp only; exact modRel_keeps h0 _
  · split
    · dsimp only; exact modRel_keeps h1 _
    · dsimp only; exact modRel_keeps h0 _

theorem deviceFault_keeps (h : Keeps P W o s) (a1 a2) : Keeps P W o (State.deviceFault s a1 a2) := by
  unfold State.deviceFault
  repeat' first
    | with_reducible assumption
    | with_reducible apply modShed_keeps
    | with_reducible apply raise_keeps
    | with_reducible apply ite_keeps <;> intro _
    | intro _ _ _
    | split
    | dsimp only

theorem lasting_keeps [Fact (W .img)] [Fact (W .hub)] [Fact (W .flash)] [Fact (W .cores)] [Fact (W .engines)] [Fact (W .links)] [Fact (W .rel)] (h : Keeps P W o s) (a1) : Keeps P W o (State.lasting s a1) := by
  unfold State.lasting
  repeat' first
    | with_reducible assumption
    | with_reducible apply halter_keeps
    | with_reducible apply modCore_keeps
    | with_reducible apply queueItem_keeps
    | with_reducible apply deviceFault_keeps
    | with_reducible apply modLink_keeps
    | intro _ _ _
    | split

theorem countFault_keeps [Fact (W .img)] [Fact (W .hub)] [Fact (W .flash)] [Fact (W .cores)] [Fact (W .engines)] [Fact (W .links)] [Fact (W .rel)] (h : Keeps P W o s) (a1) : Keeps P W o (State.countFault s a1) := by
  unfold State.countFault
  repeat' first
    | with_reducible assumption
    | with_reducible apply lasting_keeps
    | with_reducible apply countEvent_keeps
    | with_reducible apply ite_keeps <;> intro _

theorem restartPatches_keeps [Fact (W .rel)] (h : Keeps P W o s) : Keeps P W o (State.restartPatches s) := by
  unfold State.restartPatches
  repeat' first
    | with_reducible assumption
    | with_reducible apply modRel_keeps

theorem rerunRoute_keeps [Fact (W .engines)] [Fact (W .route)] (h : Keeps P W o s) : Keeps P W o (State.rerunRoute s) := by
  unfold State.rerunRoute
  repeat' first
    | with_reducible assumption
    | with_reducible apply modEng_keeps
    | with_reducible apply discardSent_keeps

theorem missTicks_keeps [Fact (W .engines)] [Fact (W .per)] [Fact (W .rel)] {u : State} (h : Keeps P W o s) : Keeps P W o (State.missTicks u s) := by
  unfold State.missTicks
  refine each_keeps _ _ (fun v p hv => ?_) h
  dsimp only
  refine ite_keeps (fun _ => ite_keeps (fun _ => endGrant_keeps ?_ _) (fun _ => ?_)) (fun _ => hv)
  · exact modProg_keeps (bumpBy_keeps hv _ _ _ _) _ _
  · exact modProg_keeps (bumpBy_keeps hv _ _ _ _) _ _

theorem takeOver_keeps [Fact (W .hubs)] [Fact (W .halves)] [Fact (W .engines)] [Fact (W .route)] [Fact (W .per)] [Fact (W .clk)] [Fact (W .rng)] [Fact (W .rel)] [Fact (W .hclk)] (h : Keeps P W o s) : Keeps P W o (State.takeOver s) := by
  unfold State.takeOver
  repeat' first
    | with_reducible assumption
    | with_reducible apply closeWindows_keeps
    | with_reducible apply bump_keeps
    | with_reducible apply modHubs_keeps
    | with_reducible apply ringHost_keeps
    | with_reducible apply modRngHub_keeps
    | with_reducible apply pass_keeps
    | with_reducible apply modClk_keeps
    | with_reducible apply restartPatches_keeps
    | with_reducible apply raise_keeps
    | with_reducible apply rerunRoute_keeps
    | with_reducible apply missTicks_keeps
    | exact fun _ => ⟨id, id⟩
    | exact fun _ => ⟨fun _ => rfl, id⟩

theorem execHubLoss_keeps [Fact (W .hubs)] [Fact (W .halves)] [Fact (W .engines)] [Fact (W .route)] [Fact (W .per)] [Fact (W .clk)] [Fact (W .rng)] [Fact (W .rel)] [Fact (W .hclk)] (h : Keeps P W o s) (a1) : OutKeeps P W o (execHubLoss a1 s) := by
  unfold execHubLoss
  repeat' first
    | with_reducible assumption
    | with_reducible apply takeOver_keeps
    | with_reducible apply ite_keeps <;> intro _
    | with_reducible apply next_keeps

theorem traceReplay_keeps (h : Keeps P W o s) (a1 a2) : Keeps P W o (State.traceReplay s a1 a2) := by
  unfold State.traceReplay
  repeat' first
    | with_reducible assumption
    | with_reducible apply trace_keeps

theorem replay_keeps [Fact (W .engines)] [Fact (W .route)] (h : Keeps P W o s) (a1) : Keeps P W o (State.replay s a1) := by
  unfold State.replay
  repeat' first
    | with_reducible assumption
    | with_reducible apply modEng_keeps
    | with_reducible apply bump_keeps
    | with_reducible apply traceReplay_keeps
    | with_reducible apply discardSent_keeps
    | with_reducible apply ite_keeps <;> intro _
    | intro _ _ _
    | split

theorem computeFault_keeps [Fact (W .img)] [Fact (W .hub)] [Fact (W .flash)] [Fact (W .cores)] [Fact (W .engines)] [Fact (W .route)] [Fact (W .links)] [Fact (W .rel)] (h : Keeps P W o s) (a1 a2) : Keeps P W o (State.computeFault s a1 a2) := by
  unfold State.computeFault
  repeat' first
    | with_reducible assumption
    | with_reducible apply countFault_keeps
    | with_reducible apply replay_keeps
    | with_reducible apply ite_keeps <;> intro _
    | intro _ _ _
    | split

theorem flitReplay_keeps [Fact (W .engines)] [Fact (W .route)] (h : Keeps P W o s) (a1) : Keeps P W o (State.flitReplay s a1) := by
  unfold State.flitReplay
  repeat' first
    | with_reducible assumption
    | with_reducible apply replay_keeps
    | intro _ _ _
    | split

theorem loseHub_keeps [Fact (W .hubs)] (h : Keeps P W o s) : Keeps P W o (State.loseHub s) := by
  unfold State.loseHub
  repeat' first
    | with_reducible assumption
    | with_reducible apply modHubs_keeps
    | with_reducible apply ite_keeps <;> intro _
    | exact fun _ => ⟨id, id⟩
    | exact fun _ => ⟨fun _ => rfl, id⟩
    | exact fun _ => ⟨id, fun _ => rfl⟩

theorem unitFault_keeps [Fact (W .hubs)] [Fact (W .img)] [Fact (W .hub)] [Fact (W .flash)] [Fact (W .halves)] [Fact (W .cores)] [Fact (W .engines)] [Fact (W .route)] [Fact (W .per)] [Fact (W .links)] [Fact (W .clk)] [Fact (W .rng)] [Fact (W .rel)] [Fact (W .hclk)] (h : Keeps P W o s) (a1 a2) : Keeps P W o (State.unitFault s a1 a2) := by
  unfold State.unitFault
  repeat' first
    | with_reducible assumption
    | with_reducible apply bump_keeps
    | with_reducible apply countFault_keeps
    | with_reducible apply computeFault_keeps
    | with_reducible apply loseHub_keeps
    | with_reducible apply takeOver_keeps
    | with_reducible apply flitReplay_keeps
    | with_reducible apply ite_keeps <;> intro _
    | intro _ _ _
    | split

theorem execFailover_keeps [Fact (W .hubs)] [Fact (W .halves)] [Fact (W .data)] [Fact (W .engines)] [Fact (W .route)] [Fact (W .per)] [Fact (W .clk)] [Fact (W .rng)] [Fact (W .rel)] [Fact (W .host)] [Fact (W .hclk)] (h : Keeps P W o s) : OutKeeps P W o (execFailover s) := by
  unfold execFailover
  repeat' first
    | with_reducible assumption
    | with_reducible apply endReq_keeps
    | with_reducible apply takeOver_keeps
    | with_reducible apply ite_keeps <;> intro _
    | with_reducible apply next_keeps
    | with_reducible apply fault_keeps
    | intro _ _ _
    | split

theorem faultReport_keeps [Fact (W .hubs)] [Fact (W .img)] [Fact (W .hub)] [Fact (W .flash)] [Fact (W .halves)] [Fact (W .cores)] [Fact (W .engines)] [Fact (W .route)] [Fact (W .per)] [Fact (W .links)] [Fact (W .clk)] [Fact (W .rng)] [Fact (W .rel)] [Fact (W .hclk)] (h : Keeps P W o s) (a1 a2) : Keeps P W o (State.faultReport s a1 a2) := by
  unfold State.faultReport
  repeat' first
    | with_reducible assumption
    | with_reducible apply slip_keeps
    | with_reducible apply bump_keeps
    | with_reducible apply unitFault_keeps
    | with_reducible apply countFault_keeps
    | with_reducible apply flitReplay_keeps
    | intro _ _ _
    | split

theorem execHubLostNoStandby_keeps [Fact (W .hubs)] (h : Keeps P W o s) : OutKeeps P W o (execHubLostNoStandby s) := by
  unfold execHubLostNoStandby
  repeat' first
    | with_reducible assumption
    | with_reducible apply loseHub_keeps
    | with_reducible apply ite_keeps <;> intro _
    | with_reducible apply next_keeps

theorem execFaultReport_keeps [Fact (W .hubs)] [Fact (W .img)] [Fact (W .hub)] [Fact (W .flash)] [Fact (W .halves)] [Fact (W .cores)] [Fact (W .engines)] [Fact (W .route)] [Fact (W .per)] [Fact (W .links)] [Fact (W .clk)] [Fact (W .rng)] [Fact (W .rel)] [Fact (W .hclk)] (h : Keeps P W o s) (a1 a2) : OutKeeps P W o (execFaultReport a1 a2 s) := by
  unfold execFaultReport
  repeat' first
    | with_reducible assumption
    | with_reducible apply faultReport_keeps
    | with_reducible apply ite_keeps <;> intro _
    | with_reducible apply next_keeps

theorem execStandbyLost_keeps [Fact (W .hubs)] (h : Keeps P W o s) : OutKeeps P W o (execStandbyLost s) := by
  unfold execStandbyLost
  repeat' first
    | with_reducible assumption
    | with_reducible apply modHubs_keeps
    | with_reducible apply raise_keeps
    | with_reducible apply ite_keeps <;> intro _
    | with_reducible apply next_keeps
    | with_reducible apply fault_keeps
    | exact fun _ => ⟨id, id⟩
    | exact fun _ => ⟨fun _ => rfl, id⟩
    | exact fun _ => ⟨id, fun _ => rfl⟩
    | exact fun _ => ⟨fun hu => by simp [hu], fun hu => by simp [hu]⟩

theorem execHeartbeat_keeps [Fact (W .hubs)] (h : Keeps P W o s) : OutKeeps P W o (execHeartbeat s) := by
  unfold execHeartbeat
  repeat' first
    | with_reducible assumption
    | with_reducible apply modHubs_keeps
    | with_reducible apply ite_keeps <;> intro _
    | with_reducible apply next_keeps
    | with_reducible apply fault_keeps
    | exact fun _ => ⟨id, id⟩

end Sys2Proof.Machine
end

