-- ==== Sys2Proof/Laws/KeepPower.lean ====
section
/-! SUPPORT. What the operations and commands of Machine/Power.lean keep (see Laws/Keep.lean). -/
namespace Sys2Proof.Machine

variable {P : Prop} {W : Part → Prop} {o s t : State}

theorem cutErase_keeps [Fact (W .flash)] (h : Keeps P W o s) : Keeps P W o (State.cutErase s) := by
  unfold State.cutErase
  split
  · exact h
  · refine modEvr_keeps (flash_keeps (draw_keeps h) _ (swf_swrite _ _ _ _ (draw_keeps h).flat.flash)) _ ?_
    exact fun _ => ⟨Nat.le_max_left _ _, Nat.le_refl _⟩

theorem pfailFlush_keeps [Fact (W .flash)] (h : Keeps P W o s) (a1) : Keeps P W o (State.pfailFlush s a1) := by
  unfold State.pfailFlush
  repeat' first
    | with_reducible assumption
    | with_reducible apply cutErase_keeps
    | with_reducible apply modEvr_keeps
    | with_reducible apply ite_keeps <;> intro _
    | exact fun _ => ⟨Nat.le_max_left _ _, Nat.le_refl _⟩

theorem execPfailAssert_keeps [Fact (W .pwr)] [Fact (W .flash)] (h : Keeps P W o s) (a1 a2) : OutKeeps P W o (execPfailAssert a1 a2 s) := by
  unfold execPfailAssert
  refine next_keeps (ite_keeps (fun _ => ?_) (fun _ => h))
  refine pfailFlush_keeps (modPwr_mod_keeps (raise_keeps h _ _ _) .pfail _ ?_ ?_ ?_) _
  · exact fun _ => ⟨rfl, rfl⟩
  · exact fun _ _ => .inr rfl
  · exact fun _ _ => rfl

theorem execFlushEnd_keeps [Fact (W .flash)] (h : Keeps P W o s) : OutKeeps P W o (execFlushEnd s) := by
  unfold execFlushEnd
  repeat' first
    | with_reducible assumption
    | with_reducible apply writeFlush_keeps
    | with_reducible apply modEvr_keeps
    | with_reducible apply ite_keeps <;> intro _
    | with_reducible apply next_keeps
    | with_reducible apply fault_keeps
    | exact fun _ => ⟨Nat.le_max_left _ _, Nat.le_refl _⟩
    | intro _ _ _
    | split

theorem swapLane_keeps [Fact (W .img)] [Fact (W .hub)] [Fact (W .flash)] [Fact (W .links)] (h : Keeps P W o s) (a1 a2 a3) : Keeps P W o (State.swapLane s a1 a2 a3) := by
  unfold State.swapLane
  repeat' first
    | with_reducible assumption
    | with_reducible apply bump_keeps
    | with_reducible apply ownLane_keeps
    | with_reducible apply traceLink_keeps
    | with_reducible apply raise_keeps
    | with_reducible apply modLink_keeps

theorem bootColumns_keeps [Fact (W .img)] [Fact (W .hub)] [Fact (W .flash)] [Fact (W .halves)] [Fact (W .cores)] [Fact (W .spad)] [Fact (W .engines)] [Fact (W .queues)] [Fact (W .rel)] (h : Keeps P W o s) (a1 a2) : BootKeeps P W o (State.bootColumns s a1 a2) := by
  induction a2 generalizing s with
  | nil => exact boot_ok_keeps h
  | cons c cs ih =>
    unfold State.bootColumns
    split
    · exact boot_error_keeps _ h
    · exact ih (takeColumn_keeps h _ _ _ _ _)

theorem boot4_keeps [Fact (W .img)] [Fact (W .hub)] [Fact (W .flash)] [Fact (W .halves)] [Fact (W .cores)] [Fact (W .spad)] [Fact (W .engines)] [Fact (W .queues)] [Fact (W .rel)] (h : Keeps P W o s) (a1) : BootKeeps P W o (State.boot4 s a1) := by
  unfold State.boot4
  extract_lets s1 s2 cols s3
  have h1 : Keeps P W o s1 := by
    refine each_keeps _ _ ?_ h
    exact fun u e hu => halter_keeps hu _ _ _ _
  have h2 : Keeps P W o s2 := by
    refine each_keeps _ _ ?_ h1
    exact fun u e hu => modCore_keeps hu _ _
  have h3 : Keeps P W o s3 := by
    refine each_keeps _ _ ?_ h2
    exact fun u e hu => markFailed_keeps hu _ _
  exact bootColumns_keeps h3 _ _

theorem katFails_keeps [Fact (W .rng)] (h : Keeps P W o s) (a1 a2) : Keeps P W o (State.katFails s a1 a2) := by
  unfold State.katFails
  repeat' first
    | with_reducible assumption
    | with_reducible apply alarm_keeps
    | with_reducible apply modRngHub_keeps
    | with_reducible apply raise_keeps

theorem boot8_keeps [Fact (W .rng)] (h : Keeps P W o s) (a1) : BootKeeps P W o (State.boot8 s a1) := by
  unfold State.boot8
  extract_lets up s1 s2 s3 hh
  have h1 : Keeps P W o s1 := by
    refine each_keeps _ _ ?_ h
    exact fun u e hu => modRngHub_keeps hu _ _
  have h2 : Keeps P W o s2 := by
    refine each_keeps _ _ ?_ h1
    exact fun u e hu => katFails_keeps hu _ _
  have h3 : Keeps P W o s3 := by
    refine each_keeps _ _ ?_ h2
    exact fun u e hu => block_keeps hu _ _ _
  split
  · exact boot_error_keeps _ h3
  · split
    · exact boot_error_keeps _ h3
    · exact boot_ok_keeps h3

theorem readyHalf_keeps [Fact (W .halves)] [Fact (W .spad)] (h : Keeps P W o s) (a1) : Keeps P W o (State.readyHalf s a1) := by
  unfold State.readyHalf
  repeat' first
    | with_reducible assumption
    | with_reducible apply modHalf_keeps
    | with_reducible apply zeroHalf_keeps
    | with_reducible apply ite_keeps <;> intro _

theorem beginAlign_keeps [Fact (W .clk)] (h : Keeps P W o s) : Keeps P W o (State.beginAlign s) := by
  unfold State.beginAlign
  repeat' first
    | with_reducible assumption
    | with_reducible apply modClk_keeps

theorem bootStep_keeps [Fact (W .pwr)] [Fact (W .halves)] [Fact (W .clk)] [Fact (W .hclk)] (h : Keeps P W o s) (a1 a2 a3) (run : State → Except BootStop State) (hr : ∀ u, Keeps P W o u → BootKeeps P W o (run u)) :
    BootKeeps P W o (State.bootStep s a1 a2 a3 run) := by
  unfold State.bootStep
  extract_lets ms past u v s1
  have hu : Keeps P W o u := by
    refine modPwr_keeps h _ ?_
    exact fun _ => ⟨rfl, rfl⟩
  have h1 : Keeps P W o s1 := pass_keeps (ite_keeps (fun _ => beginAlign_keeps hu) (fun _ => hu)) _
  split
  · exact boot_error_keeps _ h1
  · exact hr _ h1

theorem boot1_keeps [Fact (W .hubs)] (h : Keeps P W o s) (hb : P → o.pwr.mod = .boot) (a1) : Keeps P W o (State.boot1 s a1) := by
  unfold State.boot1
  extract_lets s1
  have h1 : Keeps P W o s1 := modHubs_boot_keeps h hb _
  exact ite_keeps (fun _ => raise_keeps h1 _ _ _) (fun _ => ite_keeps (fun _ => raise_keeps h1 _ _ _) (fun _ => h1))

theorem loadPrev_keeps (h : Keeps P W o s) : Keeps P W o (State.loadPrev s) := by
  unfold State.loadPrev
  repeat' first
    | with_reducible assumption
    | with_reducible apply modEvr_keeps
    | exact fun _ => ⟨Nat.le_max_left _ _, Nat.le_refl _⟩
    | intro _ _ _
    | split
    | dsimp only

theorem eraseDue_keeps (h : Keeps P W o s) : Keeps P W o (State.eraseDue s) := by
  unfold State.eraseDue
  repeat' first
    | with_reducible assumption
    | with_reducible apply modEvr_keeps
    | with_reducible apply ite_keeps <;> intro _
    | exact fun _ => ⟨Nat.le_max_left _ _, Nat.le_refl _⟩

theorem boot2_keeps [Fact (W .img)] [Fact (W .hub)] [Fact (W .flash)] [Fact (W .engines)] (h : Keeps P W o s) (a1) : BootKeeps P W o (State.boot2 s a1) := by
  unfold State.boot2
  extract_lets s0 a b hu s1
  have h0 : Keeps P W o s0 := by
    refine loadPrev_keeps (modPorts_keeps h _ ?_)
    exact fun _ => rfl
  have h1 : Keeps P W o s1 := hub_keeps h0 _
  split
  · exact boot_error_keeps _ (hub_keeps h1 _)
  · next x hx =>
    have hi : x.2.img.Ok := by
      rcases chooseCopy_some hx with ha | hb
      · exact validate_ok ha
      · exact validate_ok hb
    refine boot_ok_keeps (each_keeps _ _ ?_ (eraseDue_keeps (journalReplay_keeps (hub_keeps (img_keeps h1 _ hi) _))))
    exact fun u e hu => modEng_keeps hu _ _

theorem boot3_keeps [Fact (W .img)] [Fact (W .hub)] [Fact (W .flash)] [Fact (W .halves)] [Fact (W .cores)] [Fact (W .spad)] [Fact (W .engines)] [Fact (W .rel)] (h : Keeps P W o s) (a1) : BootKeeps P W o (State.boot3 s a1) := by
  unfold State.boot3
  split
  · exact boot_error_keeps _ h
  · refine boot_ok_keeps (marchHalves_keeps _ _ (fun y d hy => MarchOut_half_keeps hy _ _ _ _) ?_)
    refine applyHalters_keeps (each_keeps _ _ ?_ h)
    exact fun u e hu => modHalf_keeps hu _ _

theorem noSpareLane_keeps [Fact (W .links)] (h : Keeps P W o s) (a1) : Keeps P W o (State.noSpareLane s a1) := by
  unfold State.noSpareLane
  repeat' first
    | with_reducible assumption
    | with_reducible apply raise_keeps
    | with_reducible apply modLink_keeps

theorem trainLane_keeps [Fact (W .img)] [Fact (W .hub)] [Fact (W .flash)] [Fact (W .links)] (h : Keeps P W o s) (a1 a2 a3) : Keeps P W o (State.trainLane s a1 a2 a3) := by
  unfold State.trainLane
  repeat' first
    | with_reducible assumption
    | with_reducible apply swapLane_keeps
    | intro _ _ _
    | split

theorem trainPort_keeps [Fact (W .img)] [Fact (W .hub)] [Fact (W .flash)] [Fact (W .links)] (h : Keeps P W o s) (a1 a2) : Keeps P W o (State.trainPort s a1 a2) := by
  unfold State.trainPort
  repeat' first
    | with_reducible assumption
    | with_reducible apply trainLane_keeps
    | with_reducible apply each_keeps
    | with_reducible apply noSpareLane_keeps
    | with_reducible apply modLink_keeps
    | with_reducible apply setLink_keeps
    | with_reducible apply ite_keeps <;> intro _
    | with_reducible apply each_keeps
    | intro _ _ _
    | split

theorem boot5_keeps [Fact (W .img)] [Fact (W .hub)] [Fact (W .flash)] [Fact (W .links)] (h : Keeps P W o s) (a1) : BootKeeps P W o (State.boot5 s a1) := by
  unfold State.boot5
  split
  · exact boot_error_keeps _ h
  · refine boot_ok_keeps (each_keeps _ _ ?_ h)
    exact fun u e hu => trainPort_keeps hu _ _

theorem spareDevice_keeps [Fact (W .img)] [Fact (W .hub)] [Fact (W .flash)] (h : Keeps P W o s) (a1 a2) : Keeps P W o (State.spareDevice s a1 a2) := by
  unfold State.spareDevice
  refine raise_keeps (ownMem_keeps h _ ?_) _ _ _
  exact ⟨h.flat.topo, swf_sset _ _ _ _ h.flat.recs, h.flat.xlat⟩

theorem bootDevices_keeps [Fact (W .img)] [Fact (W .hub)] [Fact (W .flash)] (h : Keeps P W o s) (a1 a2) : BootKeeps P W o (State.bootDevices s a1 a2) := by
  induction a2 generalizing s with
  | nil => exact boot_ok_keeps h
  | cons x xs ih =>
    unfold State.bootDevices
    extract_lets m
    split
    · split
      · exact ih (spareDevice_keeps h _ _)
      · exact boot_error_keeps _ h
    · split
      · exact ih h
      · refine ih (ownMem_keeps h _ ?_)
        exact ⟨h.flat.topo, swf_sset _ _ _ _ h.flat.recs, h.flat.xlat⟩

theorem boot7_keeps [Fact (W .img)] [Fact (W .hub)] [Fact (W .flash)] [Fact (W .data)] (h : Keeps P W o s) (a1) : BootKeeps P W o (State.boot7 s a1) := by
  have hd := bootDevices_keeps h a1.gddrFails a1.gddrFails
  unfold State.boot7
  split
  · next e he => exact boot_error_keeps e (hd.2 e he)
  · next u hu =>
    have h1 := hd.1 u hu
    exact boot_ok_keeps (mem_keeps h1 _ rfl rfl)

theorem mapMessagePage_keeps [Fact (W .img)] (h : Keeps P W o s) : Keeps P W o (State.mapMessagePage s) := by
  unfold State.mapMessagePage
  repeat' first
    | with_reducible assumption
    | with_reducible apply setXlat_keeps
    | intro _ _ _
    | split

theorem createRt_keeps [Fact (W .queues)] [Fact (W .slots)] [Fact (W .per)] (h : Keeps P W o s) (a1) : Keeps P W o (State.createRt s a1) := by
  unfold State.createRt
  repeat' first
    | with_reducible assumption
    | with_reducible apply modProg_keeps
    | with_reducible apply setSlot_keeps
    | with_reducible apply setQueue_keeps

theorem boot9_keeps [Fact (W .pwr)] [Fact (W .img)] [Fact (W .halves)] [Fact (W .spad)] [Fact (W .data)] [Fact (W .engines)] [Fact (W .queues)] [Fact (W .slots)] [Fact (W .per)] [Fact (W .host)] (h : Keeps P W o s) (hb : P → o.pwr.mod = .boot) : Keeps P W o (State.boot9 s) := by
  unfold State.boot9
  extract_lets s1 s2 s3
  have h1 : Keeps P W o s1 := by
    refine mapMessagePage_keeps (each_keeps _ _ ?_ h)
    exact fun u e hu => createRt_keeps hu _
  have h2 : Keeps P W o s2 := by
    refine each_keeps _ _ ?_ h1
    exact fun u e hu => modEng_keeps hu _ _
  have h3 : Keeps P W o s3 := by
    refine each_keeps _ _ ?_ h2
    exact fun u e hu => readyHalf_keeps hu _
  refine serveHead_keeps (holdPrograms_keeps (modPwr_mod_keeps h3 .ready _ ?_ ?_ ?_))
  · exact fun _ => ⟨rfl, rfl⟩
  · exact fun p q => by rw [hb p] at q; cases q
  · exact fun p q => by rw [hb p] at q; cases q

theorem bootAll_keeps [Fact (W .pwr)] [Fact (W .hubs)] [Fact (W .img)] [Fact (W .hub)] [Fact (W .flash)] [Fact (W .halves)] [Fact (W .cores)] [Fact (W .spad)] [Fact (W .data)] [Fact (W .engines)] [Fact (W .queues)] [Fact (W .slots)] [Fact (W .per)] [Fact (W .links)] [Fact (W .clk)] [Fact (W .rng)] [Fact (W .rel)] [Fact (W .host)] [Fact (W .hclk)] (h : Keeps P W o s) (hb : P → o.pwr.mod = .boot) (a1 a2) : BootKeeps P W o (State.bootAll s a1 a2) := by
  unfold State.bootAll
  refine boot_bind_keeps (bootStep_keeps h _ _ _ _ (fun u hu => boot_ok_keeps (boot1_keeps hu hb _))) (fun s1 h1 => ?_)
  refine boot_bind_keeps (bootStep_keeps h1 _ _ _ _ (fun u hu => boot2_keeps hu _)) (fun s2 h2 => ?_)
  refine boot_bind_keeps (bootStep_keeps h2 _ _ _ _ (fun u hu => boot3_keeps hu _)) (fun s3 h3 => ?_)
  refine boot_bind_keeps (bootStep_keeps h3 _ _ _ _ (fun u hu => boot4_keeps hu _)) (fun s4 h4 => ?_)
  refine boot_bind_keeps (bootStep_keeps h4 _ _ _ _ (fun u hu => boot5_keeps hu _)) (fun s5 h5 => ?_)
  refine boot_bind_keeps (bootStep_keeps h5 _ _ _ _ (fun u hu => boot_ok_keeps (align_keeps hu _ _))) (fun s6 h6 => ?_)
  refine boot_bind_keeps (bootStep_keeps h6 _ _ _ _ (fun u hu => boot7_keeps hu _)) (fun s7 h7 => ?_)
  refine boot_bind_keeps (bootStep_keeps h7 _ _ _ _ (fun u hu => boot8_keeps hu _)) (fun s8 h8 => ?_)
  exact bootStep_keeps h8 _ _ _ _ (fun u hu => boot_ok_keeps (boot9_keeps hu hb))

theorem darkHalves_wf (hs : Sparse Half) (h : swf Half.reset hs = true) : swf Half.reset (darkHalves hs) = true := by
  unfold darkHalves
  refine swf_foldl _ _ ?_ _ _ h
  exact fun m d hm => swf_sset _ _ _ _ hm

theorem dark_keeps [Fact (W .halves)] [Fact (W .spad)] [Fact (W .data)] [Fact (W .engines)] [Fact (W .per)] [Fact (W .links)] [Fact (W .rel)] (h : Keeps P W o s) : Keeps P W o (State.dark s) := by
  have hh := darkHalves_wf s.yards.halves h.flat.halves
  have hp := swf_smap DrivePort.reset (fun x => { x with waiting := [] }) s.per.ports h.flat.ports
  unfold State.dark
  generalize darkHalves s.yards.halves = hs at hh ⊢
  exact { h with
    flat := { h.flat with data := rfl, spad := rfl, engines := rfl, links := rfl, halves := hh, ports := hp }
    same := fun p hp => by cases p <;> first | exact h.same _ hp | exact absurd Fact.out hp }

theorem enterSafe_keeps [Fact (W .pwr)] [Fact (W .halves)] [Fact (W .spad)] [Fact (W .data)] [Fact (W .engines)] [Fact (W .per)] [Fact (W .links)] [Fact (W .rel)] [Fact (W .host)] (h : Keeps P W o s) (hp : P → o.pwr.mod ≠ .pfail) (a1 a2 a3) : Keeps P W o (State.enterSafe s a1 a2 a3) := by
  unfold State.enterSafe
  extract_lets s1 s2 s3
  have h1 : Keeps P W o s1 := by
    refine modPwr_keeps h _ ?_
    exact fun _ => ⟨rfl, rfl⟩
  have h2 : Keeps P W o s2 := raise_keeps h1 _ _ _
  have h3 : Keeps P W o s3 := by
    refine inBand_keeps (ringHost_keeps (modPwr_mod_keeps h2 .safe _ ?_ ?_ ?_) _) _
    · exact fun _ => ⟨rfl, rfl⟩
    · exact fun _ _ => .inl rfl
    · exact fun p q => absurd q (hp p)
  exact serveHead_keeps (dark_keeps h3)

theorem powerUp_keeps [Fact (W .pwr)] [Fact (W .hubs)] [Fact (W .img)] [Fact (W .hub)] [Fact (W .flash)] [Fact (W .halves)] [Fact (W .cores)] [Fact (W .spad)] [Fact (W .data)] [Fact (W .engines)] [Fact (W .queues)] [Fact (W .slots)] [Fact (W .per)] [Fact (W .links)] [Fact (W .clk)] [Fact (W .rng)] [Fact (W .rel)] [Fact (W .host)] [Fact (W .hclk)] (h : Keeps P W o s) (hb : P → o.pwr.mod = .boot) (a1 a2) : Keeps P W o (State.powerUp s a1 a2) := by
  have ha := bootAll_keeps h hb a1 a2
  unfold State.powerUp
  split
  · exact modHubs_boot_keeps h hb _
  · split
    · next u hu => exact ha.1 u hu
    · next e he => exact enterSafe_keeps (ha.2 e he) (fun p q => by rw [hb p] at q; cases q) _ _ _

theorem execPowerUp_keeps [Fact (W .pwr)] [Fact (W .hubs)] [Fact (W .img)] [Fact (W .hub)] [Fact (W .flash)] [Fact (W .halves)] [Fact (W .cores)] [Fact (W .spad)] [Fact (W .data)] [Fact (W .engines)] [Fact (W .queues)] [Fact (W .slots)] [Fact (W .per)] [Fact (W .links)] [Fact (W .clk)] [Fact (W .rng)] [Fact (W .rel)] [Fact (W .host)] [Fact (W .hclk)] (h : Flat s) (a1) : OutKeeps P W s (execPowerUp a1 s) := by
  have h := Keeps.rfl' (P := P) (W := W) h
  unfold execPowerUp
  refine next_keeps (ite_keeps (fun hr => powerUp_keeps h (fun _ => ?_) _ _) (fun _ => h))
  simp only [State.atReset, Bool.and_eq_true, beq_iff_eq] at hr
  exact hr.1.1.1

theorem execThermtrip_keeps [Fact (W .pwr)] (h : Keeps P W o s) (a1) : OutKeeps P W o (execThermtrip a1 s) := by
  unfold execThermtrip
  repeat' first
    | with_reducible assumption
    | with_reducible apply modPwr_keeps
    | with_reducible apply ite_keeps <;> intro _
    | with_reducible apply next_keeps
    | with_reducible apply fault_keeps
    | exact fun _ => ⟨rfl, rfl⟩

theorem programPages_keeps [Fact (W .flash)] (h : Keeps P W o s) (a1 a2) : Keeps P W o (State.programPages s a1 a2) := by
  unfold State.programPages
  repeat' first
    | with_reducible assumption
    | with_reducible apply program_keeps

theorem pfailWrite_keeps [Fact (W .flash)] (h : Keeps P W o s) (a1) : Keeps P W o (State.pfailWrite s a1) := by
  unfold State.pfailWrite
  repeat' first
    | with_reducible assumption
    | with_reducible apply writeFlush_keeps
    | with_reducible apply modEvr_keeps
    | with_reducible apply ite_keeps <;> intro _
    | exact fun _ => ⟨Nat.le_max_left _ _, Nat.le_refl _⟩
    | intro _ _ _
    | split

theorem pfailTick_keeps [Fact (W .flash)] [Fact (W .halves)] [Fact (W .spad)] [Fact (W .data)] [Fact (W .engines)] [Fact (W .per)] [Fact (W .links)] [Fact (W .rel)] (h : Keeps P W o s) : Keeps P W o (State.pfailTick s) := by
  unfold State.pfailTick
  split
  · exact h
  · extract_lets u
    have hu : Keeps P W o u := pfailWrite_keeps h _
    refine ite_keeps (fun _ => dark_keeps hu) (fun _ => ite_keeps (fun _ => ?_) (fun _ => hu))
    exact engines_keeps hu _ rfl

theorem loseYard_keeps [Fact (W .pwr)] [Fact (W .halves)] [Fact (W .spad)] [Fact (W .data)] [Fact (W .engines)] [Fact (W .per)] [Fact (W .links)] [Fact (W .rel)] [Fact (W .host)] (h : Keeps P W o s) (hp : P → o.pwr.mod ≠ .pfail) (a1) : Keeps P W o (State.loseYard s a1) :=
  enterSafe_keeps (raise_keeps (modRel_keeps h _) _ _ _) hp _ _ _

theorem cutFlush_keeps [Fact (W .flash)] (h : Keeps P W o s) : Keeps P W o (State.cutFlush s) := by
  unfold State.cutFlush
  repeat' first
    | with_reducible assumption
    | with_reducible apply programPages_keeps
    | with_reducible apply draw_keeps
    | intro _ _ _
    | split

theorem execPowerUpStepTimeout_keeps [Fact (W .pwr)] [Fact (W .hubs)] [Fact (W .img)] [Fact (W .hub)] [Fact (W .flash)] [Fact (W .halves)] [Fact (W .cores)] [Fact (W .spad)] [Fact (W .data)] [Fact (W .engines)] [Fact (W .queues)] [Fact (W .slots)] [Fact (W .per)] [Fact (W .links)] [Fact (W .clk)] [Fact (W .rng)] [Fact (W .rel)] [Fact (W .host)] [Fact (W .hclk)] (h : Flat s) (a1 a2) : OutKeeps P W s (execPowerUpStepTimeout a1 a2 s) := by
  have h := Keeps.rfl' (P := P) (W := W) h
  unfold execPowerUpStepTimeout
  refine next_keeps (ite_keeps (fun hr => powerUp_keeps h (fun _ => ?_) _ _) (fun _ => h))
  simp only [State.atReset, Bool.and_eq_true, beq_iff_eq] at hr
  exact hr.1.1.1.1

theorem mrst_keeps (h : Flat s) (hP : ¬P) (hW : ∀ p, W p) : Keeps P W s (State.mrst s) :=
  have : Fact (W .flash) := ⟨hW _⟩
  have hf := (cutErase_keeps (cutFlush_keeps (Keeps.rfl' (P := P) (W := W) h))).flat.flash
  { pending := rfl, grade := rfl
    flat := ⟨rfl, rfl, hf, h.host, rfl, rfl, rfl, rfl, rfl, rfl, rfl, rfl, rfl, rfl, rfl, rfl, rfl, rfl, rfl, rfl, rfl, rfl, Nat.zero_le _⟩
    fence := fun p => absurd p hP, head := fun p => absurd p hP, safe := fun p => absurd p hP, pfail := fun p => absurd p hP
    lost0 := fun p => absurd p hP, lost1 := fun p => absurd p hP
    same := fun p hp => absurd (hW p) hp }

theorem execMrstPulse_keeps (h : Flat s) (hP : ¬P) (hW : ∀ p, W p) (a1) : OutKeeps P W s (execMrstPulse a1 s) :=
  next_keeps (ite_keeps (fun _ => mrst_keeps h hP hW) (fun _ => Keeps.rfl' h))

theorem yardsUp_mod (hu : s.yardsUp = true) : s.pwr.mod ≠ .pfail := by
  intro hq
  simp [State.yardsUp, hq] at hu

theorem execYardLost_keeps [Fact (W .pwr)] [Fact (W .halves)] [Fact (W .spad)] [Fact (W .data)] [Fact (W .engines)] [Fact (W .per)] [Fact (W .links)] [Fact (W .rel)] [Fact (W .host)] (h : Flat s) (a1) : OutKeeps P W s (execYardLost a1 s) :=
  next_keeps (ite_keeps (fun hu => loseYard_keeps (Keeps.rfl' h) (fun _ => yardsUp_mod hu) _) (fun _ => Keeps.rfl' h))

theorem execFlushRegionErased_keeps [Fact (W .flash)] (h : Keeps P W o s) : OutKeeps P W o (execFlushRegionErased s) := by
  unfold execFlushRegionErased
  repeat' first
    | with_reducible assumption
    | with_reducible apply erase_keeps
    | with_reducible apply modEvr_keeps
    | with_reducible apply startFlush_keeps
    | with_reducible apply ite_keeps <;> intro _
    | with_reducible apply next_keeps
    | with_reducible apply fault_keeps
    | exact fun _ => ⟨Nat.le_max_left _ _, Nat.le_refl _⟩
    | intro _ _ _
    | split

theorem execRailOutOfBand_keeps [Fact (W .pwr)] [Fact (W .halves)] [Fact (W .spad)] [Fact (W .data)] [Fact (W .engines)] [Fact (W .per)] [Fact (W .links)] [Fact (W .rel)] [Fact (W .host)] (h : Flat s) (a1) : OutKeeps P W s (execRailOutOfBand a1 s) := by
  unfold execRailOutOfBand
  split
  · exact next_keeps (ite_keeps (fun hu => loseYard_keeps (Keeps.rfl' h) (fun _ => yardsUp_mod hu) _) (fun _ => Keeps.rfl' h))
  · exact ite_out_keeps (fun _ => next_keeps (Keeps.rfl' h)) (fun _ => fault_keeps _)

end Sys2Proof.Machine
end

