-- ==== Sys2Proof/Laws/KeepReread.lean ====
section
/-! SUPPORT. What the operations and commands of Machine/Reread.lean keep (see Laws/Keep.lean). -/
namespace Sys2Proof.Machine

variable {P : Prop} {W : Part → Prop} {o s t : State}

theorem countDevice_keeps [Fact (W .img)] [Fact (W .hub)] [Fact (W .flash)] [Fact (W .cores)] [Fact (W .engines)] [Fact (W .links)] [Fact (W .rel)] (h : Keeps P W o s) (a1) : Keeps P W o (State.countDevice s a1) := by
  unfold State.countDevice
  repeat' first
    | with_reducible assumption
    | with_reducible apply countFault_keeps

theorem retirePage_keeps (h : Keeps P W o s) (a1) : Keeps P W o (State.retirePage s a1) := by
  unfold State.retirePage
  repeat' first
    | with_reducible assumption
    | with_reducible apply modShed_keeps
    | with_reducible apply raise_keeps
    | with_reducible apply ite_keeps <;> intro _

theorem spadParity_keeps (h : Keeps P W o s) (a1 a2 a3) : Keeps P W o (State.spadParity s a1 a2 a3) := by
  unfold State.spadParity
  repeat' first
    | with_reducible assumption
    | with_reducible apply modYards_keeps
    | exact fun _ => ⟨rfl, rfl, rfl⟩

theorem spadStored_keeps [Fact (W .img)] [Fact (W .hub)] [Fact (W .flash)] [Fact (W .cores)] [Fact (W .engines)] [Fact (W .links)] [Fact (W .rel)] (h : Keeps P W o s) (a1 a2 a3) : Keeps P W o (State.spadStored s a1 a2 a3) := by
  unfold State.spadStored
  repeat' first
    | with_reducible assumption
    | with_reducible apply spadParity_keeps
    | with_reducible apply bump_keeps
    | with_reducible apply countFault_keeps
    | with_reducible apply raise_keeps

theorem takeFullWords_keeps [Fact (W .img)] [Fact (W .hub)] [Fact (W .flash)] [Fact (W .cores)] [Fact (W .engines)] [Fact (W .links)] [Fact (W .rel)] (h : Keeps P W o s) : Keeps P W o (State.takeFullWords s) := by
  unfold State.takeFullWords
  repeat' first
    | with_reducible assumption
    | with_reducible apply spadStored_keeps
    | with_reducible apply each_keeps
    | with_reducible apply modYards_keeps
    | with_reducible apply each_keeps
    | exact fun _ => ⟨rfl, rfl, rfl⟩
    | intro _ _ _

theorem blockParity_keeps (h : Keeps P W o s) (a1 a2) : Keeps P W o (State.blockParity s a1 a2) := by
  unfold State.blockParity
  repeat' first
    | with_reducible assumption
    | with_reducible apply foldl_keeps
    | with_reducible refine memMarks_keeps ?_ _ rfl rfl

theorem memStored_keeps (h : Keeps P W o s) (a1 a2 a3) : Keeps P W o (State.memStored s a1 a2 a3) := by
  unfold State.memStored
  repeat' first
    | with_reducible assumption
    | with_reducible apply bump_keeps
    | with_reducible apply blockParity_keeps
    | with_reducible apply retirePage_keeps
    | with_reducible apply raise_keeps

theorem takeFullBlocks_keeps (h : Keeps P W o s) (a1) : Keeps P W o (State.takeFullBlocks s a1) := by
  unfold State.takeFullBlocks
  repeat' first
    | with_reducible assumption
    | with_reducible apply modShed_keeps
    | with_reducible apply each_keeps
    | with_reducible apply memStored_keeps
    | with_reducible apply each_keeps
    | intro _ _ _

theorem takeFull_keeps [Fact (W .img)] [Fact (W .hub)] [Fact (W .flash)] [Fact (W .cores)] [Fact (W .engines)] [Fact (W .links)] [Fact (W .rel)] (h : Keeps P W o s) : Keeps P W o (State.takeFull s) := by
  unfold State.takeFull
  repeat' first
    | with_reducible assumption
    | with_reducible apply each_keeps
    | with_reducible apply takeFullWords_keeps
    | with_reducible apply takeFullBlocks_keeps
    | with_reducible apply ite_keeps <;> intro _
    | with_reducible apply each_keeps
    | intro _ _ _

theorem xlatEnd_keeps [Fact (W .img)] [Fact (W .halves)] [Fact (W .data)] [Fact (W .engines)] [Fact (W .queues)] [Fact (W .slots)] [Fact (W .per)] [Fact (W .host)] (h : Keeps P W o s) (a1 a2 a3 a4 a5) : Keeps P W o (State.xlatEnd s a1 a2 a3 a4 a5) := by
  unfold State.xlatEnd
  repeat' first
    | with_reducible assumption
    | with_reducible apply complete_keeps
    | with_reducible apply xlatFault_keeps

theorem replayFor_keeps [Fact (W .engines)] [Fact (W .route)] (h : Keeps P W o s) (a1) : Keeps P W o (State.replayFor s a1) := by
  unfold State.replayFor
  repeat' first
    | with_reducible assumption
    | with_reducible apply replay_keeps
    | intro _ _ _
    | split

theorem spadTransient_keeps [Fact (W .img)] [Fact (W .hub)] [Fact (W .flash)] [Fact (W .cores)] [Fact (W .engines)] [Fact (W .route)] [Fact (W .links)] [Fact (W .rel)] (h : Keeps P W o s) (a1 a2) : Keeps P W o (State.spadTransient s a1 a2) := by
  unfold State.spadTransient
  repeat' first
    | with_reducible assumption
    | with_reducible apply bump_keeps
    | with_reducible apply countFault_keeps
    | with_reducible apply replayFor_keeps
    | with_reducible apply ite_keeps <;> intro _

end Sys2Proof.Machine
end

