-- ==== Sys2Proof/Laws/KeepAnnealing.lean ====
section
/-! SUPPORT. What the operations and commands of Machine/Annealing.lean keep (see Laws/Keep.lean). -/
namespace Sys2Proof.Machine

variable {P : Prop} {W : Part → Prop} {o s t : State}

theorem AnnealFaced_face_keeps [Fact (W .img)] [Fact (W .hub)] [Fact (W .flash)] [Fact (W .cores)] [Fact (W .engines)] [Fact (W .links)] [Fact (W .rel)] {x : AnnealFaced} (h : Keeps P W o x.st) (a1) : Keeps P W o (AnnealFaced.face x a1).st := by
  unfold AnnealFaced.face
  repeat' first
    | with_reducible assumption
    | with_reducible apply countFault_keeps
    | intro _ _ _
    | split
    | dsimp only

theorem annealFaced_keeps [Fact (W .img)] [Fact (W .hub)] [Fact (W .flash)] [Fact (W .cores)] [Fact (W .engines)] [Fact (W .links)] [Fact (W .rel)] (h : Keeps P W o s) (a1 a2) : Keeps P W o (State.annealFaced s a1 a2).st :=
  foldl_part_keeps AnnealFaced.st _ _ (fun _ _ hy => AnnealFaced_face_keeps hy _) (b := ⟨s, [], 0⟩) h

theorem countPad_keeps (h : Keeps P W o s) (a1 a2) : Keeps P W o (State.countPad s a1 a2) := by
  unfold State.countPad
  repeat' first
    | with_reducible assumption
    | with_reducible apply each_keeps
    | with_reducible apply bumpBy_keeps
    | with_reducible apply each_keeps
    | intro _ _ _

theorem writeCtx_keeps [Fact (W .spad)] (h : Keeps P W o s) (a1 a2 a3 a4 a5 a6 a7) : Keeps P W o (State.writeCtx s a1 a2 a3 a4 a5 a6 a7) := by
  unfold State.writeCtx
  repeat' first
    | with_reducible assumption
    | with_reducible apply each_keeps
    | with_reducible apply spadWrite_keeps
    | with_reducible apply ite_keeps <;> intro _
    | with_reducible apply each_keeps
    | intro _ _ _
    | split

theorem putPad_keeps [Fact (W .cores)] (h : Keeps P W o s) (a1 a2) : Keeps P W o (State.putPad s a1 a2) := by
  unfold State.putPad
  repeat' first
    | with_reducible assumption
    | with_reducible apply each_keeps
    | with_reducible apply modCore_keeps
    | with_reducible apply each_keeps
    | with_reducible apply foldl_keeps
    | with_reducible refine free_keeps ?_ _
    | intro _ _ _

theorem AnnealFaced_counted_keeps [Fact (W .engines)] [Fact (W .route)] {x : AnnealFaced} (h : Keeps P W o x.st) (a1) : Keeps P W o (AnnealFaced.counted x a1) := by
  unfold AnnealFaced.counted
  repeat' first
    | with_reducible assumption
    | with_reducible apply each_keeps
    | with_reducible apply replay_keeps
    | with_reducible apply each_keeps
    | intro _ _ _

theorem loadRecords_keeps [Fact (W .cores)] (h : Keeps P W o s) (a1 a2) : Keeps P W o (State.loadRecords s a1 a2) := by
  unfold State.loadRecords
  repeat' first
    | with_reducible assumption
    | with_reducible apply each_keeps
    | with_reducible apply modCore_keeps
    | with_reducible apply each_keeps
    | intro _ _ _

theorem keepRun_keeps [Fact (W .engines)] (h : Keeps P W o s) (a1 a2) : Keeps P W o (State.keepRun s a1 a2) := by
  unfold State.keepRun
  repeat' first
    | with_reducible assumption
    | with_reducible apply modEng_keeps

theorem completeRun_keeps [Fact (W .img)] [Fact (W .halves)] [Fact (W .data)] [Fact (W .engines)] [Fact (W .queues)] [Fact (W .slots)] [Fact (W .per)] [Fact (W .host)] (h : Keeps P W o s) (a1 a2 a3 a4) : Keeps P W o (State.completeRun s a1 a2 a3 a4) := by
  unfold State.completeRun
  repeat' first
    | with_reducible assumption
    | with_reducible apply complete_keeps

theorem restoreWhole_keeps [Fact (W .img)] [Fact (W .halves)] [Fact (W .cores)] [Fact (W .data)] [Fact (W .engines)] [Fact (W .queues)] [Fact (W .slots)] [Fact (W .per)] [Fact (W .host)] (h : Keeps P W o s) (a1 a2 a3) : Keeps P W o (State.restoreWhole s a1 a2 a3) := by
  unfold State.restoreWhole
  repeat' first
    | with_reducible assumption
    | with_reducible apply keepRun_keeps
    | with_reducible apply xlatEnd_keeps
    | with_reducible apply writeUpTo_keeps
    | with_reducible apply loadRecords_keeps
    | with_reducible apply completeRun_keeps
    | intro _ _ _
    | split
    | dsimp only

theorem jobOf_keeps [Fact (W .cores)] (h : Keeps P W o s) (a1 a2) : Keeps P W o (State.jobOf s a1 a2).2 := by
  unfold State.jobOf
  repeat' first
    | with_reducible assumption
    | with_reducible apply loadRecords_keeps
    | intro _ _ _
    | split

theorem applyRun_keeps [Fact (W .cores)] [Fact (W .spad)] [Fact (W .data)] [Fact (W .engines)] (h : Keeps P W o s) (a1 a2 a3) : Keeps P W o (State.applyRun s a1 a2 a3).1 := by
  unfold State.applyRun
  repeat' first
    | with_reducible assumption
    | with_reducible apply countPad_keeps
    | with_reducible apply writeCtx_keeps
    | with_reducible apply keepRun_keeps
    | with_reducible apply putPad_keeps
    | with_reducible apply bumpBy_keeps
    | with_reducible apply writeUpTo_keeps
    | intro _ _ _
    | split

theorem runAnneal_keeps [Fact (W .img)] [Fact (W .hub)] [Fact (W .flash)] [Fact (W .cores)] [Fact (W .spad)] [Fact (W .data)] [Fact (W .engines)] [Fact (W .route)] [Fact (W .links)] [Fact (W .rel)] (h : Keeps P W o s) (a1 a2 a3 a4 a5) : Keeps P W o (State.runAnneal s a1 a2 a3 a4 a5).st := by
  unfold State.runAnneal
  repeat' first
    | with_reducible assumption
    | with_reducible apply AnnealFaced_counted_keeps
    | with_reducible apply annealFaced_keeps
    | with_reducible apply applyRun_keeps
    | with_reducible apply jobOf_keeps

theorem finishAnneal_keeps [Fact (W .img)] [Fact (W .hub)] [Fact (W .flash)] [Fact (W .halves)] [Fact (W .cores)] [Fact (W .spad)] [Fact (W .data)] [Fact (W .engines)] [Fact (W .queues)] [Fact (W .slots)] [Fact (W .route)] [Fact (W .per)] [Fact (W .links)] [Fact (W .rel)] [Fact (W .host)] (h : Keeps P W o s) (a1 a2 a3 a4 a5) : Keeps P W o (State.finishAnneal s a1 a2 a3 a4 a5) := by
  unfold State.finishAnneal
  repeat' first
    | with_reducible assumption
    | with_reducible apply xlatEnd_keeps
    | with_reducible apply runAnneal_keeps
    | with_reducible apply restoreWhole_keeps
    | with_reducible apply completeRun_keeps
    | with_reducible apply ite_keeps <;> intro _
    | intro _ _ _
    | split
    | dsimp only

theorem endAnneal_keeps [Fact (W .img)] [Fact (W .hub)] [Fact (W .flash)] [Fact (W .halves)] [Fact (W .cores)] [Fact (W .spad)] [Fact (W .data)] [Fact (W .engines)] [Fact (W .queues)] [Fact (W .slots)] [Fact (W .route)] [Fact (W .per)] [Fact (W .links)] [Fact (W .rel)] [Fact (W .host)] (h : Keeps P W o s) (a1 a2 a3 a4) : Keeps P W o (State.endAnneal s a1 a2 a3 a4) := by
  unfold State.endAnneal
  repeat' first
    | with_reducible assumption
    | with_reducible apply finishAnneal_keeps
    | with_reducible refine getD_keeps (fun _ hx => takeChecks_keeps ?_ hx) ?_
    | exact takeChecks_keeps (by assumption) ‹_›
    | with_reducible apply xlatEnd_keeps
    | intro _ _ _
    | split
    | dsimp only

theorem execResume_keeps [Fact (W .img)] [Fact (W .hub)] [Fact (W .flash)] [Fact (W .halves)] [Fact (W .cores)] [Fact (W .spad)] [Fact (W .data)] [Fact (W .engines)] [Fact (W .queues)] [Fact (W .slots)] [Fact (W .route)] [Fact (W .per)] [Fact (W .links)] [Fact (W .rel)] [Fact (W .host)] (h : Keeps P W o s) (a1 a2) : OutKeeps P W o (execResume a1 a2 s) := by
  unfold execResume
  repeat' first
    | with_reducible assumption
    | with_reducible apply endAnneal_keeps
    | with_reducible apply next_keeps
    | with_reducible apply fault_keeps
    | intro _ _ _
    | split

theorem snapRun_keeps (h : Keeps P W o s) (a1 a2) : Keeps P W o (State.snapRun s a1 a2).2 := by
  unfold State.snapRun
  extract_lets f fresh
  clear_value fresh
  split
  · exact h
  · exact free_keeps h _

theorem writeSnapshot_keeps [Fact (W .data)] (h : Keeps P W o s) (a1 a2 a3) : Keeps P W o (State.writeSnapshot s a1 a2 a3).1 := by
  unfold State.writeSnapshot
  repeat' first
    | with_reducible assumption
    | with_reducible apply writeRuns_keeps
    | with_reducible apply snapRun_keeps

theorem execAnneal_keeps [Fact (W .img)] [Fact (W .hub)] [Fact (W .flash)] [Fact (W .halves)] [Fact (W .cores)] [Fact (W .spad)] [Fact (W .data)] [Fact (W .engines)] [Fact (W .queues)] [Fact (W .slots)] [Fact (W .route)] [Fact (W .per)] [Fact (W .links)] [Fact (W .rel)] [Fact (W .host)] (h : Keeps P W o s) (a1 a2) : OutKeeps P W o (execAnneal a1 a2 s) := by
  unfold execAnneal
  repeat' first
    | with_reducible assumption
    | with_reducible apply endAnneal_keeps
    | with_reducible apply next_keeps
    | with_reducible apply fault_keeps
    | intro _ _ _
    | split

end Sys2Proof.Machine
end

