-- ==== Sys2Proof/Laws/KeepLinks.lean ====
section
/-! SUPPORT. What the operations and commands of Machine/Links.lean keep (see Laws/Keep.lean). -/
namespace Sys2Proof.Machine

variable {P : Prop} {W : Part → Prop} {o s t : State}

theorem sendDone_keeps [Fact (W .img)] [Fact (W .halves)] [Fact (W .data)] [Fact (W .engines)] [Fact (W .queues)] [Fact (W .slots)] [Fact (W .per)] [Fact (W .links)] [Fact (W .host)] (h : Keeps P W o s) (a1) : Keeps P W o (State.sendDone s a1) := by
  unfold State.sendDone
  repeat' first
    | with_reducible assumption
    | with_reducible apply complete_keeps
    | with_reducible apply modLink_keeps
    | with_reducible apply ite_keeps <;> intro _
    | intro _ _ _
    | split

theorem execReduceSend_keeps [Fact (W .img)] [Fact (W .halves)] [Fact (W .cores)] [Fact (W .spad)] [Fact (W .data)] [Fact (W .engines)] [Fact (W .queues)] [Fact (W .slots)] [Fact (W .route)] [Fact (W .per)] [Fact (W .links)] [Fact (W .host)] (h : Keeps P W o s) (a1) : OutKeeps P W o (execReduceSend a1 s) := by
  unfold execReduceSend
  repeat' first
    | with_reducible assumption
    | exact starting_keeps h ‹_›
    | with_reducible refine getD_keeps (fun _ hx => takeChecks_keeps ?_ hx) ?_
    | exact takeChecks_keeps (by assumption) ‹_›
    | with_reducible apply sendDone_keeps
    | with_reducible apply complete_keeps
    | with_reducible apply modLink_keeps
    | with_reducible apply noteFail_keeps
    | with_reducible apply ite_keeps <;> intro _
    | with_reducible apply next_keeps
    | with_reducible apply fault_keeps
    | intro _ _ _
    | split
    | dsimp only

theorem patchSwapped_keeps [Fact (W .img)] [Fact (W .data)] [Fact (W .engines)] [Fact (W .queues)] [Fact (W .slots)] [Fact (W .per)] [Fact (W .links)] [Fact (W .rel)] [Fact (W .host)] (h : Keeps P W o s) (a1) : Keeps P W o (State.patchSwapped s a1) := by
  unfold State.patchSwapped
  repeat' first
    | with_reducible assumption
    | with_reducible apply dropPatch_keeps
    | with_reducible apply modRel_keeps
    | with_reducible apply endPatch_keeps
    | with_reducible apply announceSwap_keeps
    | intro _ _ _
    | split

theorem swapOutNow_keeps [Fact (W .img)] [Fact (W .hub)] [Fact (W .flash)] [Fact (W .data)] [Fact (W .engines)] [Fact (W .queues)] [Fact (W .slots)] [Fact (W .per)] [Fact (W .links)] [Fact (W .rel)] [Fact (W .host)] (h : Keeps P W o s) (a1 a2) : Keeps P W o (State.swapOutNow s a1 a2) := by
  unfold State.swapOutNow
  repeat' first
    | with_reducible assumption
    | with_reducible apply bump_keeps
    | with_reducible apply swapLane_keeps
    | with_reducible apply raise_keeps
    | with_reducible apply patchSwapped_keeps
    | with_reducible apply modLink_keeps
    | intro _ _ _
    | split

theorem execLaneSwapSlot_keeps [Fact (W .img)] [Fact (W .hub)] [Fact (W .flash)] [Fact (W .data)] [Fact (W .engines)] [Fact (W .queues)] [Fact (W .slots)] [Fact (W .per)] [Fact (W .links)] [Fact (W .rel)] [Fact (W .host)] (h : Keeps P W o s) (a1) : OutKeeps P W o (execLaneSwapSlot a1 s) := by
  unfold execLaneSwapSlot
  repeat' first
    | with_reducible assumption
    | with_reducible apply swapOutNow_keeps
    | with_reducible apply modLink_keeps
    | with_reducible apply ite_keeps <;> intro _
    | with_reducible apply next_keeps
    | with_reducible apply fault_keeps
    | intro _ _ _
    | split

theorem linkFalls_keeps [Fact (W .links)] (h : Keeps P W o s) (a1) : Keeps P W o (State.linkFalls s a1) := by
  unfold State.linkFalls
  repeat' first
    | with_reducible assumption
    | with_reducible apply raise_keeps
    | with_reducible apply modLink_keeps

theorem execLinkDown_keeps [Fact (W .links)] (h : Keeps P W o s) (a1) : OutKeeps P W o (execLinkDown a1 s) := by
  unfold execLinkDown
  repeat' first
    | with_reducible assumption
    | with_reducible apply linkFalls_keeps
    | with_reducible apply ite_keeps <;> intro _
    | with_reducible apply next_keeps

theorem pushItem_keeps [Fact (W .links)] (h : Keeps P W o s) (a1 a2 a3 a4) : Keeps P W o (State.pushItem s a1 a2 a3 a4) := by
  unfold State.pushItem
  repeat' first
    | with_reducible assumption
    | with_reducible apply bump_keeps
    | with_reducible apply modLink_keeps
    | with_reducible apply ite_keeps <;> intro _

theorem countNodes_keeps (h : Keeps P W o s) (a1) : Keeps P W o (State.countNodes s a1) := by
  unfold State.countNodes
  repeat' first
    | with_reducible assumption
    | with_reducible apply each_keeps
    | with_reducible apply bumpBy_keeps
    | with_reducible apply ite_keeps <;> intro _
    | with_reducible apply each_keeps
    | intro _ _ _

theorem flagStale_keeps [Fact (W .engines)] (h : Keeps P W o s) (a1) : Keeps P W o (State.flagStale s a1) := by
  unfold State.flagStale
  repeat' first
    | with_reducible assumption
    | with_reducible apply modEng_keeps

theorem linkWrite_keeps [Fact (W .data)] (h : Keeps P W o s) (a1 a2 a3) : Keeps P W o (State.linkWrite s a1 a2 a3) := by
  unfold State.linkWrite
  repeat' first
    | with_reducible assumption
    | with_reducible apply xlatFault_keeps
    | with_reducible apply devWrite_keeps
    | intro _ _ _
    | split

theorem execNoPeerTimeout_keeps [Fact (W .links)] (h : Keeps P W o s) (a1) : OutKeeps P W o (execNoPeerTimeout a1 s) := by
  unfold execNoPeerTimeout
  repeat' first
    | with_reducible assumption
    | with_reducible apply modLink_keeps
    | with_reducible apply next_keeps

theorem execMapMessage_keeps [Fact (W .links)] (h : Keeps P W o s) (a1 a2) : OutKeeps P W o (execMapMessage a1 a2 s) := by
  unfold execMapMessage
  repeat' first
    | with_reducible assumption
    | with_reducible apply modLink_keeps
    | with_reducible apply next_keeps

theorem nodeDone_keeps [Fact (W .img)] [Fact (W .halves)] [Fact (W .data)] [Fact (W .engines)] [Fact (W .queues)] [Fact (W .slots)] [Fact (W .per)] [Fact (W .links)] [Fact (W .host)] (h : Keeps P W o s) (a1 a2) : Keeps P W o (State.nodeDone s a1 a2) := by
  unfold State.nodeDone
  repeat' first
    | with_reducible assumption
    | with_reducible apply complete_keeps
    | with_reducible apply modLink_keeps
    | with_reducible apply ite_keeps <;> intro _
    | intro _ _ _
    | split

theorem askNak_keeps [Fact (W .links)] (h : Keeps P W o s) (a1) : Keeps P W o (State.askNak s a1) := by
  unfold State.askNak
  repeat' first
    | with_reducible assumption
    | with_reducible apply traceLink_keeps
    | with_reducible apply modLink_keeps
    | with_reducible apply ite_keeps <;> intro _

theorem frameBad_keeps [Fact (W .img)] [Fact (W .hub)] [Fact (W .flash)] [Fact (W .cores)] [Fact (W .engines)] [Fact (W .links)] [Fact (W .rel)] (h : Keeps P W o s) (a1 a2) : Keeps P W o (State.frameBad s a1 a2) := by
  unfold State.frameBad
  repeat' first
    | with_reducible assumption
    | with_reducible apply askNak_keeps
    | with_reducible apply each_keeps
    | with_reducible apply countFault_keeps
    | with_reducible apply linkFalls_keeps
    | with_reducible apply modLink_keeps
    | with_reducible apply ite_keeps <;> intro _
    | with_reducible apply each_keeps
    | intro _ _ _

theorem execAckSeq_keeps [Fact (W .img)] [Fact (W .halves)] [Fact (W .data)] [Fact (W .engines)] [Fact (W .queues)] [Fact (W .slots)] [Fact (W .per)] [Fact (W .links)] [Fact (W .host)] (h : Keeps P W o s) (a1 a2) : OutKeeps P W o (execAckSeq a1 a2 s) := by
  unfold execAckSeq
  repeat' first
    | with_reducible assumption
    | with_reducible apply sendDone_keeps
    | with_reducible apply modLink_keeps
    | with_reducible apply ite_keeps <;> intro _
    | with_reducible apply next_keeps

theorem linkSlot_keeps [Fact (W .links)] (h : Keeps P W o s) (a1) : Keeps P W o (State.linkSlot s a1) := by
  unfold State.linkSlot
  repeat' first
    | with_reducible assumption
    | with_reducible apply setLink_keeps
    | with_reducible apply ite_keeps <;> intro _

theorem linkSignal_keeps [Fact (W .fences)] (h : Keeps P W o s) (a1 a2) : Keeps P W o (State.linkSignal s a1 a2) := by
  unfold State.linkSignal
  repeat' first
    | with_reducible assumption
    | with_reducible apply trace_keeps
    | with_reducible apply fenceAdd_keeps
    | with_reducible apply ite_keeps <;> intro _
    | intro _ _ _
    | split

theorem itemArrives_keeps [Fact (W .data)] [Fact (W .fences)] [Fact (W .links)] (h : Keeps P W o s) (a1 a2 a3 a4) : Keeps P W o (State.itemArrives s a1 a2 a3 a4) := by
  unfold State.itemArrives
  repeat' first
    | with_reducible assumption
    | with_reducible apply bump_keeps
    | with_reducible apply linkWrite_keeps
    | with_reducible apply linkSignal_keeps
    | with_reducible apply modLink_keeps
    | with_reducible apply ite_keeps <;> intro _
    | intro _ _ _
    | split

theorem frameIn_keeps [Fact (W .data)] [Fact (W .fences)] [Fact (W .links)] (h : Keeps P W o s) (a1 a2) : Keeps P W o (State.frameIn s a1 a2) := by
  unfold State.frameIn
  repeat' first
    | with_reducible assumption
    | with_reducible apply bump_keeps
    | with_reducible apply itemArrives_keeps
    | with_reducible apply modLink_keeps
    | with_reducible apply ite_keeps <;> intro _
    | intro _ _ _
    | split

theorem patchTrained_keeps [Fact (W .img)] [Fact (W .data)] [Fact (W .engines)] [Fact (W .queues)] [Fact (W .slots)] [Fact (W .per)] [Fact (W .links)] [Fact (W .rel)] [Fact (W .host)] (h : Keeps P W o s) (a1) : Keeps P W o (State.patchTrained s a1) := by
  unfold State.patchTrained
  repeat' first
    | with_reducible assumption
    | with_reducible apply each_keeps
    | with_reducible apply dropPatch_keeps
    | with_reducible apply modRel_keeps
    | with_reducible apply endPatch_keeps
    | with_reducible apply announceSwap_keeps
    | with_reducible apply ite_keeps <;> intro _
    | with_reducible apply each_keeps
    | intro _ _ _
    | split
    | dsimp only

theorem reduceRun_keeps [Fact (W .img)] [Fact (W .halves)] [Fact (W .spad)] [Fact (W .data)] [Fact (W .engines)] [Fact (W .queues)] [Fact (W .slots)] [Fact (W .per)] [Fact (W .host)] (h : Keeps P W o s) (a1 a2 a3 a4) : Keeps P W o (State.reduceRun s a1 a2 a3 a4) := by
  unfold State.reduceRun
  repeat' first
    | with_reducible assumption
    | with_reducible refine getD_keeps (fun _ hx => takeChecks_keeps ?_ hx) ?_
    | exact takeChecks_keeps (by assumption) ‹_›
    | with_reducible apply each_keeps
    | with_reducible apply complete_keeps
    | with_reducible apply spadStore_keeps
    | with_reducible apply countNodes_keeps
    | with_reducible apply ite_keeps <;> intro _
    | with_reducible apply each_keeps
    | intro _ _ _
    | split
    | dsimp only

theorem execReduceCompute_keeps [Fact (W .img)] [Fact (W .halves)] [Fact (W .spad)] [Fact (W .data)] [Fact (W .engines)] [Fact (W .queues)] [Fact (W .slots)] [Fact (W .per)] [Fact (W .host)] (h : Keeps P W o s) (a1 a2) : OutKeeps P W o (execReduceCompute a1 a2 s) := by
  unfold execReduceCompute
  repeat' first
    | with_reducible assumption
    | with_reducible apply complete_keeps
    | with_reducible apply reduceRun_keeps
    | with_reducible apply ite_keeps <;> intro _
    | with_reducible apply next_keeps
    | with_reducible apply fault_keeps
    | intro _ _ _
    | split

theorem execLinkRetrained_keeps [Fact (W .img)] [Fact (W .data)] [Fact (W .engines)] [Fact (W .queues)] [Fact (W .slots)] [Fact (W .per)] [Fact (W .links)] [Fact (W .rel)] [Fact (W .host)] (h : Keeps P W o s) (a1 a2) : OutKeeps P W o (execLinkRetrained a1 a2 s) := by
  unfold execLinkRetrained
  repeat' first
    | with_reducible assumption
    | with_reducible apply patchTrained_keeps
    | with_reducible apply modLink_keeps
    | with_reducible apply ite_keeps <;> intro _
    | with_reducible apply next_keeps

theorem execDataFrameRx_keeps [Fact (W .img)] [Fact (W .hub)] [Fact (W .flash)] [Fact (W .cores)] [Fact (W .data)] [Fact (W .engines)] [Fact (W .fences)] [Fact (W .links)] [Fact (W .rel)] (h : Keeps P W o s) (a1 a2) : OutKeeps P W o (execDataFrameRx a1 a2 s) := by
  unfold execDataFrameRx
  repeat' first
    | with_reducible assumption
    | with_reducible apply frameBad_keeps
    | with_reducible apply frameIn_keeps
    | with_reducible apply askNak_keeps
    | with_reducible apply modLink_keeps
    | with_reducible apply ite_keeps <;> intro _
    | with_reducible apply next_keeps

theorem linkRead_keeps [Fact (W .links)] (h : Keeps P W o s) (a1 a2 a3) : Keeps P W o (State.linkRead s a1 a2 a3).2.2 := by
  unfold State.linkRead
  repeat' first
    | with_reducible assumption
    | with_reducible apply bump_keeps
    | with_reducible apply modLink_keeps
    | with_reducible apply ite_keeps <;> intro _

theorem execLinkReadRequest_keeps [Fact (W .engines)] [Fact (W .links)] (h : Keeps P W o s) (a1 a2 a3 a4) : OutKeeps P W o (execLinkReadRequest a1 a2 a3 a4 s) := by
  unfold execLinkReadRequest
  repeat' first
    | with_reducible assumption
    | with_reducible apply flagStale_keeps
    | with_reducible apply linkRead_keeps
    | with_reducible apply modLink_keeps
    | with_reducible apply ite_keeps <;> intro _
    | with_reducible apply next_keeps
    | with_reducible apply fault_keeps
    | intro _ _ _
    | split

theorem execLaneFault_keeps [Fact (W .links)] (h : Keeps P W o s) (a1 a2) : OutKeeps P W o (execLaneFault a1 a2 s) := by
  unfold execLaneFault
  repeat' first
    | with_reducible assumption
    | with_reducible apply noSpareLane_keeps
    | with_reducible apply announceSwap_keeps
    | with_reducible apply ite_keeps <;> intro _
    | with_reducible apply next_keeps
    | with_reducible apply fault_keeps
    | intro _ _ _
    | split

theorem execLaneSwap_keeps [Fact (W .links)] (h : Keeps P W o s) (a1 a2 a3 a4) : OutKeeps P W o (execLaneSwap a1 a2 a3 a4 s) := by
  unfold execLaneSwap
  repeat' first
    | with_reducible assumption
    | with_reducible apply modLink_keeps
    | with_reducible apply next_keeps

theorem execTxItemSend_keeps [Fact (W .links)] (h : Keeps P W o s) (a1 a2) : OutKeeps P W o (execTxItemSend a1 a2 s) := by
  unfold execTxItemSend
  repeat' first
    | with_reducible assumption
    | with_reducible apply modLink_keeps
    | with_reducible apply ite_keeps <;> intro _
    | with_reducible apply next_keeps

theorem nodePair_keeps [Fact (W .links)] (h : Keeps P W o s) (a1 a2 a3 a4 a5 a6 a7 a8) : Keeps P W o (State.nodePair s a1 a2 a3 a4 a5 a6 a7 a8) := by
  unfold State.nodePair
  repeat' first
    | with_reducible assumption
    | with_reducible apply modLink_keeps
    | with_reducible apply ite_keeps <;> intro _

theorem nodePairs_keeps [Fact (W .links)] (h : Keeps P W o s) (a1 a2 a3 a4 a5 a6) : Keeps P W o (State.nodePairs s a1 a2 a3 a4 a5 a6) := by
  induction a6 generalizing s  with
  | nil =>
    unfold State.nodePairs
    repeat' first
      | with_reducible assumption
  | cons x xs ih =>
    unfold State.nodePairs
    repeat' first
      | with_reducible assumption
      | with_reducible apply ih
      | with_reducible apply linkRead_keeps
      | with_reducible apply nodePair_keeps
      | with_reducible apply ite_keeps <;> intro _
      | intro _ _ _
      | split

theorem execReduceClose_keeps [Fact (W .img)] [Fact (W .halves)] [Fact (W .cores)] [Fact (W .spad)] [Fact (W .data)] [Fact (W .engines)] [Fact (W .queues)] [Fact (W .slots)] [Fact (W .route)] [Fact (W .per)] [Fact (W .links)] [Fact (W .host)] (h : Keeps P W o s) (a1) : OutKeeps P W o (execReduceClose a1 s) := by
  unfold execReduceClose
  repeat' first
    | with_reducible assumption
    | exact starting_keeps h ‹_›
    | with_reducible apply complete_keeps
    | with_reducible apply setLink_keeps
    | with_reducible apply ite_keeps <;> intro _
    | with_reducible apply next_keeps
    | with_reducible apply fault_keeps
    | intro _ _ _
    | split

theorem execReceiveSignal_keeps [Fact (W .links)] (h : Keeps P W o s) (a1) : OutKeeps P W o (execReceiveSignal a1 s) := by
  unfold execReceiveSignal
  repeat' first
    | with_reducible assumption
    | with_reducible apply modLink_keeps
    | with_reducible apply next_keeps

theorem execReduceOpen_keeps [Fact (W .img)] [Fact (W .halves)] [Fact (W .cores)] [Fact (W .spad)] [Fact (W .data)] [Fact (W .engines)] [Fact (W .queues)] [Fact (W .slots)] [Fact (W .route)] [Fact (W .per)] [Fact (W .links)] [Fact (W .host)] (h : Keeps P W o s) (a1) : OutKeeps P W o (execReduceOpen a1 s) := by
  unfold execReduceOpen
  repeat' first
    | with_reducible assumption
    | exact starting_keeps h ‹_›
    | with_reducible apply complete_keeps
    | with_reducible apply modLink_keeps
    | with_reducible apply ite_keeps <;> intro _
    | with_reducible apply next_keeps
    | with_reducible apply fault_keeps
    | intro _ _ _
    | split

theorem execReduceNode_keeps [Fact (W .img)] [Fact (W .halves)] [Fact (W .cores)] [Fact (W .spad)] [Fact (W .data)] [Fact (W .engines)] [Fact (W .queues)] [Fact (W .slots)] [Fact (W .route)] [Fact (W .per)] [Fact (W .links)] [Fact (W .host)] (h : Keeps P W o s) (a1 a2) : OutKeeps P W o (execReduceNode a1 a2 s) := by
  unfold execReduceNode
  repeat' first
    | with_reducible assumption
    | exact starting_keeps h ‹_›
    | with_reducible apply nodeDone_keeps
    | with_reducible apply complete_keeps
    | with_reducible apply nodePairs_keeps
    | with_reducible apply modLink_keeps
    | with_reducible apply ite_keeps <;> intro _
    | with_reducible apply next_keeps
    | with_reducible apply fault_keeps
    | intro _ _ _
    | split
    | dsimp only

theorem execNak_keeps [Fact (W .links)] (h : Keeps P W o s) (a1 a2) : OutKeeps P W o (execNak a1 a2 s) := by
  unfold execNak
  repeat' first
    | with_reducible assumption
    | with_reducible apply bump_keeps
    | with_reducible apply traceLink_keeps
    | with_reducible apply modLink_keeps
    | with_reducible apply ite_keeps <;> intro _
    | with_reducible apply next_keeps

end Sys2Proof.Machine
end

