-- ==== Sys2Proof/Laws/KeepMove.lean ====
section
/-! SUPPORT. What the operations and commands of Machine/Move.lean keep (see Laws/Keep.lean). -/
namespace Sys2Proof.Machine

variable {P : Prop} {W : Part → Prop} {o s t : State}

theorem copyWrites_keeps [Fact (W .spad)] [Fact (W .data)] [Fact (W .host)] (h : Keeps P W o s) (a1 a2 a3) : Keeps P W o (State.copyWrites s a1 a2 a3) := by
  unfold State.copyWrites
  repeat' first
    | with_reducible assumption
    | with_reducible apply hostWrite_keeps
    | with_reducible apply devSpoil_keeps
    | with_reducible apply spadWrite_keeps
    | with_reducible apply devWrite_keeps
    | with_reducible apply spadSpoil_keeps
    | with_reducible apply ite_keeps <;> intro _

theorem copyPart_keeps [Fact (W .spad)] [Fact (W .data)] [Fact (W .host)] (h : Keeps P W o s) (a1 a2 a3) : Keeps P W o (State.copyPart s a1 a2 a3) := by
  unfold State.copyPart
  repeat' first
    | with_reducible assumption
    | with_reducible apply copyWrites_keeps
    | with_reducible apply bumpBy_keeps
    | with_reducible apply ite_keeps <;> intro _

theorem copyXlatFail_keeps [Fact (W .img)] [Fact (W .halves)] [Fact (W .spad)] [Fact (W .data)] [Fact (W .engines)] [Fact (W .queues)] [Fact (W .slots)] [Fact (W .per)] [Fact (W .host)] (h : Keeps P W o s) (a1 a2 a3) : Keeps P W o (State.copyXlatFail s a1 a2 a3) := by
  unfold State.copyXlatFail
  repeat' first
    | with_reducible assumption
    | with_reducible apply copyPart_keeps
    | with_reducible apply complete_keeps
    | with_reducible apply xlatFault_keeps
    | with_reducible apply endWait_keeps

theorem copyHostFail_keeps [Fact (W .img)] [Fact (W .halves)] [Fact (W .spad)] [Fact (W .data)] [Fact (W .engines)] [Fact (W .queues)] [Fact (W .slots)] [Fact (W .per)] [Fact (W .host)] (h : Keeps P W o s) (a1 a2) : Keeps P W o (State.copyHostFail s a1 a2) := by
  unfold State.copyHostFail
  repeat' first
    | with_reducible assumption
    | with_reducible apply copyPart_keeps
    | with_reducible apply complete_keeps
    | with_reducible apply endWait_keeps

theorem execHostReadTimeout_keeps [Fact (W .img)] [Fact (W .halves)] [Fact (W .spad)] [Fact (W .data)] [Fact (W .engines)] [Fact (W .queues)] [Fact (W .slots)] [Fact (W .per)] [Fact (W .host)] (h : Keeps P W o s) (a1) : OutKeeps P W o (execHostReadTimeout a1 s) := by
  unfold execHostReadTimeout
  repeat' first
    | with_reducible assumption
    | with_reducible apply copyHostFail_keeps
    | with_reducible apply failCmd_keeps
    | with_reducible apply endWait_keeps
    | with_reducible apply ite_keeps <;> intro _
    | with_reducible apply next_keeps
    | with_reducible apply fault_keeps
    | intro _ _ _
    | split
    | dsimp only

theorem execMoveCopy_keeps [Fact (W .img)] [Fact (W .halves)] [Fact (W .cores)] [Fact (W .spad)] [Fact (W .data)] [Fact (W .engines)] [Fact (W .queues)] [Fact (W .slots)] [Fact (W .route)] [Fact (W .per)] [Fact (W .host)] (h : Keeps P W o s) (a1) : OutKeeps P W o (execMoveCopy a1 s) := by
  unfold execMoveCopy
  repeat' first
    | with_reducible assumption
    | with_reducible apply copyXlatFail_keeps
    | with_reducible apply copyHostFail_keeps
    | exact starting_keeps h ‹_›
    | with_reducible refine getD_keeps (fun _ hx => takeChecks_keeps ?_ hx) ?_
    | exact takeChecks_keeps (by assumption) ‹_›
    | with_reducible apply copyPart_keeps
    | with_reducible apply complete_keeps
    | with_reducible apply awaitHost_keeps
    | with_reducible apply endWait_keeps
    | with_reducible apply ite_keeps <;> intro _
    | with_reducible apply next_keeps
    | with_reducible apply fault_keeps
    | intro _ _ _
    | split

end Sys2Proof.Machine
end

