-- ==== Sys2Proof/Laws/KeepRngCmd.lean ====
section
/-! SUPPORT. What the operations and commands of Machine/RngCmd.lean keep (see Laws/Keep.lean). -/
namespace Sys2Proof.Machine

variable {P : Prop} {W : Part → Prop} {o s t : State}

theorem rngctl_keeps [Fact (W .img)] [Fact (W .data)] [Fact (W .engines)] [Fact (W .queues)] [Fact (W .slots)] [Fact (W .per)] [Fact (W .host)] (h : Keeps P W o s) (a1) (run : Cmd → Nat → State → State) (hr : ∀ c n u, Keeps P W o u → Keeps P W o (run c n u)) :
    Keeps P W o (State.rngctl s a1 run) := by
  unfold State.rngctl
  split
  · exact h
  · refine ite_keeps (fun _ => h) (fun _ => ?_)
    split
    · exact failPriv_keeps h _ _
    · exact ite_keeps (fun _ => hr _ _ _ h) (fun _ => finishPriv_keeps h _ _)

theorem alarmEffects_keeps [Fact (W .img)] [Fact (W .halves)] [Fact (W .data)] [Fact (W .engines)] [Fact (W .queues)] [Fact (W .slots)] [Fact (W .per)] [Fact (W .rng)] [Fact (W .host)] (h : Keeps P W o s) : Keeps P W o (State.alarmEffects s) := by
  unfold State.alarmEffects
  repeat' first
    | with_reducible assumption
    | with_reducible apply each_keeps
    | with_reducible apply modRngHub_keeps
    | with_reducible apply seedFails_keeps
    | with_reducible apply ite_keeps <;> intro _
    | with_reducible apply each_keeps
    | intro _ _ _
    | split

theorem restart_keeps [Fact (W .img)] [Fact (W .halves)] [Fact (W .data)] [Fact (W .engines)] [Fact (W .queues)] [Fact (W .slots)] [Fact (W .per)] [Fact (W .rng)] [Fact (W .host)] (h : Keeps P W o s) (a1 a2 a3 a4) : Keeps P W o (State.restart s a1 a2 a3 a4) := by
  unfold State.restart
  repeat' first
    | with_reducible assumption
    | with_reducible apply finishPriv_keeps
    | with_reducible apply each_keeps
    | with_reducible apply modRngHub_keeps
    | with_reducible apply katFails_keeps
    | with_reducible apply alarmEffects_keeps
    | with_reducible apply reseed_keeps
    | with_reducible apply block_keeps
    | with_reducible apply ite_keeps <;> intro _
    | with_reducible apply each_keeps
    | intro _ _ _
    | split

theorem execRngctlRestart_keeps [Fact (W .img)] [Fact (W .halves)] [Fact (W .data)] [Fact (W .engines)] [Fact (W .queues)] [Fact (W .slots)] [Fact (W .per)] [Fact (W .rng)] [Fact (W .host)] (h : Keeps P W o s) (a1 a2) : OutKeeps P W o (execRngctlRestart a1 a2 s) := by
  unfold execRngctlRestart
  repeat' first
    | with_reducible assumption
    | with_reducible apply rngctl_keeps
    | with_reducible apply restart_keeps
    | with_reducible apply next_keeps
    | with_reducible apply fault_keeps
    | intro _ _ _ _

theorem execReseed_keeps [Fact (W .rng)] (h : Keeps P W o s) (a1) : OutKeeps P W o (execReseed a1 s) := by
  unfold execReseed
  repeat' first
    | with_reducible assumption
    | with_reducible apply reseed_keeps
    | with_reducible apply ite_keeps <;> intro _
    | with_reducible apply next_keeps

theorem boundRecord_keeps [Fact (W .rng)] (h : Keeps P W o s) (a1) : Keeps P W o (State.boundRecord s a1) := by
  unfold State.boundRecord
  repeat' first
    | with_reducible assumption
    | with_reducible apply answer_keeps
    | with_reducible refine rng_keeps ?_ _ rfl
    | intro _ _ _
    | split

theorem execRngDataBound_keeps [Fact (W .rng)] (h : Keeps P W o s) (a1) : OutKeeps P W o (execRngDataBound a1 s) := by
  unfold execRngDataBound
  repeat' first
    | with_reducible assumption
    | with_reducible apply modRngHub_keeps
    | with_reducible apply boundRecord_keeps
    | with_reducible apply ite_keeps <;> intro _
    | with_reducible apply next_keeps
    | with_reducible apply fault_keeps
    | intro _ _ _
    | split

theorem serveUser_keeps [Fact (W .img)] [Fact (W .halves)] [Fact (W .data)] [Fact (W .engines)] [Fact (W .queues)] [Fact (W .slots)] [Fact (W .per)] [Fact (W .rng)] [Fact (W .host)] (h : Keeps P W o s) (a1 a2) : Keeps P W o (State.serveUser s a1 a2) := by
  unfold State.serveUser
  repeat' first
    | with_reducible assumption
    | with_reducible apply generate_keeps
    | with_reducible apply serveRecord_keeps
    | with_reducible apply seedComes_keeps
    | intro _ _ _
    | split

theorem execRngRequest_keeps [Fact (W .img)] [Fact (W .halves)] [Fact (W .data)] [Fact (W .engines)] [Fact (W .queues)] [Fact (W .slots)] [Fact (W .per)] [Fact (W .rng)] [Fact (W .host)] (h : Keeps P W o s) (a1) : OutKeeps P W o (execRngRequest a1 s) := by
  unfold execRngRequest
  repeat' first
    | with_reducible assumption
    | with_reducible apply modRngHub_keeps
    | with_reducible apply serveUser_keeps
    | with_reducible apply reseed_keeps
    | with_reducible apply ite_keeps <;> intro _
    | with_reducible apply next_keeps
    | with_reducible apply fault_keeps
    | intro _ _ _
    | split

theorem execRngBlock_keeps [Fact (W .img)] [Fact (W .halves)] [Fact (W .data)] [Fact (W .engines)] [Fact (W .queues)] [Fact (W .slots)] [Fact (W .per)] [Fact (W .rng)] [Fact (W .host)] (h : Keeps P W o s) (a1 a2 a3) : OutKeeps P W o (execRngBlock a1 a2 a3 s) := by
  unfold execRngBlock
  repeat' first
    | with_reducible assumption
    | with_reducible apply alarmEffects_keeps
    | with_reducible apply block_keeps
    | with_reducible apply ite_keeps <;> intro _
    | with_reducible apply next_keeps

theorem runPattern_keeps [Fact (W .rng)] (h : Keeps P W o s) (a1 a2) : Keeps P W o (State.runPattern s a1 a2) := by
  induction a2 generalizing s  with
  | zero =>
    unfold State.runPattern
    repeat' first
      | with_reducible assumption
  | succ n ih =>
    unfold State.runPattern
    repeat' first
      | with_reducible assumption
      | with_reducible apply ih
      | with_reducible apply block_keeps
      | with_reducible apply ite_keeps <;> intro _

theorem execRngctlReseed_keeps [Fact (W .img)] [Fact (W .data)] [Fact (W .engines)] [Fact (W .queues)] [Fact (W .slots)] [Fact (W .per)] [Fact (W .rng)] [Fact (W .host)] (h : Keeps P W o s) : OutKeeps P W o (execRngctlReseed s) := by
  unfold execRngctlReseed
  repeat' first
    | with_reducible assumption
    | with_reducible apply rngctl_keeps
    | with_reducible apply finishPriv_keeps
    | with_reducible apply reseed_keeps
    | with_reducible apply ite_keeps <;> intro _
    | with_reducible apply next_keeps
    | with_reducible apply fault_keeps
    | intro _ _ _ _

theorem execRngctlPatternOff_keeps [Fact (W .img)] [Fact (W .halves)] [Fact (W .data)] [Fact (W .engines)] [Fact (W .queues)] [Fact (W .slots)] [Fact (W .per)] [Fact (W .rng)] [Fact (W .host)] (h : Keeps P W o s) (a1 a2) : OutKeeps P W o (execRngctlPatternOff a1 a2 s) := by
  unfold execRngctlPatternOff
  repeat' first
    | with_reducible assumption
    | with_reducible apply rngctl_keeps
    | with_reducible apply restart_keeps
    | with_reducible apply next_keeps
    | with_reducible apply fault_keeps
    | intro _ _ _ _

theorem execRngctlPattern_keeps [Fact (W .img)] [Fact (W .halves)] [Fact (W .data)] [Fact (W .engines)] [Fact (W .queues)] [Fact (W .slots)] [Fact (W .per)] [Fact (W .rng)] [Fact (W .host)] (h : Keeps P W o s) : OutKeeps P W o (execRngctlPattern s) := by
  unfold execRngctlPattern
  repeat' first
    | with_reducible assumption
    | with_reducible apply rngctl_keeps
    | with_reducible apply finishPriv_keeps
    | with_reducible apply runPattern_keeps
    | with_reducible apply modRngHub_keeps
    | with_reducible apply alarmEffects_keeps
    | with_reducible apply next_keeps
    | with_reducible apply fault_keeps
    | intro _ _ _ _

theorem setDataWaits_keeps [Fact (W .rng)] (h : Keeps P W o s) (a1 a2) : Keeps P W o (State.setDataWaits s a1 a2) := by
  unfold State.setDataWaits
  repeat' first
    | with_reducible assumption
    | with_reducible refine rng_keeps ?_ _ rfl
    | intro _ _ _
    | split

theorem execRngData0_keeps [Fact (W .img)] [Fact (W .halves)] [Fact (W .data)] [Fact (W .engines)] [Fact (W .queues)] [Fact (W .slots)] [Fact (W .per)] [Fact (W .rng)] [Fact (W .host)] (h : Keeps P W o s) (a1) : OutKeeps P W o (execRngData0 a1 s) := by
  unfold execRngData0
  repeat' first
    | with_reducible assumption
    | with_reducible apply answer_keeps
    | with_reducible apply modRngHub_keeps
    | with_reducible apply setDataWaits_keeps
    | with_reducible apply serveUser_keeps
    | with_reducible apply ite_keeps <;> intro _
    | with_reducible apply next_keeps

theorem execLowWordRead_keeps [Fact (W .img)] [Fact (W .halves)] [Fact (W .data)] [Fact (W .engines)] [Fact (W .queues)] [Fact (W .slots)] [Fact (W .sel)] [Fact (W .per)] [Fact (W .rng)] [Fact (W .host)] (h : Keeps P W o s) (a1 a2) : OutKeeps P W o (execLowWordRead a1 a2 s) := by
  unfold execLowWordRead
  repeat' first
    | with_reducible assumption
    | with_reducible apply readReg_keeps
    | with_reducible apply execRngData0_keeps
    | with_reducible apply ite_out_keeps <;> intro _
    | with_reducible apply next_keeps

end Sys2Proof.Machine
end

