-- ==== Sys2Proof/Laws/KeepSpin.lean ====
section
/-! SUPPORT. What the operations and commands of Machine/Spin.lean keep (see Laws/Keep.lean). -/
namespace Sys2Proof.Machine

variable {P : Prop} {W : Part → Prop} {o s t : State}

theorem putBlock_keeps [Fact (W .cores)] (h : Keeps P W o s) (a1 a2) : Keeps P W o (State.putBlock a1 s a2) := by
  unfold State.putBlock
  repeat' first
    | with_reducible assumption
    | with_reducible apply modCore_keeps
    | with_reducible apply bumpBy_keeps

theorem putItems_keeps [Fact (W .cores)] [Fact (W .data)] (h : Keeps P W o s) (a1 a2) : Keeps P W o (State.putItems a1 s a2).1 := by
  induction a2 generalizing s with
  | nil => exact h
  | cons x xs ih =>
    have h1 := putBlock_keeps h a1 x
    unfold State.putItems
    split
    · have hw := writeUpTo_keeps h1 (spDst a1 + 4096 * x.page) (pageBytesOf x)
      dsimp only
      split
      · exact hw
      · exact ih hw
    · exact ih h1

theorem convert_keeps [Fact (W .img)] [Fact (W .halves)] [Fact (W .cores)] [Fact (W .data)] [Fact (W .engines)] [Fact (W .queues)] [Fact (W .slots)] [Fact (W .per)] [Fact (W .host)] (h : Keeps P W o s) (a1 a2 a3) : Keeps P W o (State.convert s a1 a2 a3) := by
  unfold State.convert
  repeat' first
    | with_reducible assumption
    | with_reducible apply putItems_keeps
    | with_reducible apply complete_keeps
    | with_reducible apply xlatEnd_keeps
    | with_reducible apply completeRun_keeps
    | intro _ _ _
    | split
    | dsimp only

theorem execMoveSpinpack_keeps [Fact (W .img)] [Fact (W .halves)] [Fact (W .cores)] [Fact (W .data)] [Fact (W .engines)] [Fact (W .queues)] [Fact (W .slots)] [Fact (W .per)] [Fact (W .host)] (h : Keeps P W o s) (a1) : OutKeeps P W o (execMoveSpinpack a1 s) := by
  unfold execMoveSpinpack
  refine next_keeps ?_
  split
  · exact h
  · refine ite_keeps (fun _ => h) (fun _ => ?_)
    extract_lets b
    clear_value b
    split
    · exact xlatEnd_keeps h _ _ _ _ _
    · exact getD_keeps (fun _ hx => takeChecks_keeps h hx) (convert_keeps h _ _ _)

end Sys2Proof.Machine
end

