-- ==== Sys2Proof/Laws/KeepRotate.lean ====
section
/-! SUPPORT. What the operations and commands of Machine/Rotate.lean keep (see Laws/Keep.lean). -/
namespace Sys2Proof.Machine

variable {P : Prop} {W : Part → Prop} {o s t : State}

theorem loadPage_keeps [Fact (W .cores)] (h : Keeps P W o s) (a1 a2 a3 a4) : Keeps P W o (State.loadPage a1 a2 a3 s a4) := by
  unfold State.loadPage
  repeat' first
    | with_reducible assumption
    | with_reducible apply modCore_keeps

theorem loadWindow_keeps [Fact (W .cores)] (h : Keeps P W o s) (a1 a2 a3 a4 a5 a6) : Keeps P W o (State.loadWindow s a1 a2 a3 a4 a5 a6).2.2 := by
  unfold State.loadWindow
  repeat' first
    | with_reducible assumption
    | with_reducible apply loadPage_keeps
    | with_reducible apply each_keeps
    | with_reducible apply modCore_keeps
    | with_reducible apply bumpBy_keeps
    | with_reducible apply each_keeps
    | intro _ _ _

theorem setWindow_keeps [Fact (W .cores)] (h : Keeps P W o s) {a1 : Nat} {a2 : RotCtx} {a3 : Cmd} {a4 a5 a6 a7 a8 : Nat} :
    (∀ x, s.setWindow a1 a2 a3 a4 a5 a6 a7 a8 = .error x → Keeps P W o x.2) ∧
      ∀ x, s.setWindow a1 a2 a3 a4 a5 a6 a7 a8 = .ok x → Keeps P W o x.1.st := by
  have hw := loadWindow_keeps h a1 a2 a3 a4 a5 a6
  unfold State.setWindow
  split
  · exact ⟨fun _ hx => (by cases hx; exact h), fun _ hx => by cases hx⟩
  · dsimp only
    generalize s.loadWindow a1 a2 a3 a4 a5 a6 = w at hw ⊢
    split
    · exact ⟨fun _ hx => (by cases hx; exact hw), fun _ hx => by cases hx⟩
    · exact ⟨fun _ hx => (by cases hx), fun _ hx => by cases hx; exact hw⟩

theorem runWindow_keeps [Fact (W .img)] [Fact (W .hub)] [Fact (W .flash)] [Fact (W .cores)] [Fact (W .spad)] [Fact (W .engines)] [Fact (W .route)] [Fact (W .links)] [Fact (W .rel)] {w : RotWindow} (h : Keeps P W o w.st) (t a1 a2 a3 a4 a5) : Keeps P W o (State.runWindow t a1 a2 a3 w a4 a5).2 := by
  unfold State.runWindow
  dsimp only
  exact bumpBy_keeps (countPad_keeps (writeCtx_keeps (putPad_keeps (AnnealFaced_counted_keeps (annealFaced_keeps h _ _) _) _ _) _ _ _ _ _ _ _) _ _) _ _ _ _

theorem newPhases_keeps [Fact (W .cores)] (h : Keeps P W o s) (a1) : Keeps P W o (State.newPhases s a1) := by
  unfold State.newPhases
  repeat' first
    | with_reducible assumption
    | with_reducible apply each_keeps
    | with_reducible apply modCore_keeps
    | with_reducible apply each_keeps
    | intro _ _ _

theorem visit_keeps [Fact (W .img)] [Fact (W .hub)] [Fact (W .flash)] [Fact (W .cores)] [Fact (W .spad)] [Fact (W .data)] [Fact (W .engines)] [Fact (W .route)] [Fact (W .links)] [Fact (W .rel)] (h : Keeps P W o s) {a1 : Nat} {a2 : RotCtx} {a3 : Cmd} {a4 : RotateRun} {a5 : Option Progress} {a6 : List AnnealFault} :
    (∀ x, s.visit a1 a2 a3 a4 a5 a6 = .error x → Keeps P W o x.2) ∧ ∀ t, s.visit a1 a2 a3 a4 a5 a6 = .ok t → Keeps P W o t := by
  unfold State.visit
  extract_lets g t wx wy reads
  split
  · exact ⟨fun _ hx => (by cases hx; exact h), fun _ hx => by cases hx⟩
  · split
    · next u hu =>
      refine ⟨fun _ hx => ?_, fun _ hx => by cases hx⟩
      cases hx
      split at hu
      · cases hu
      · exact takeChecks_keeps h hu
    · split
      · next f hf => exact ⟨fun _ hx => (by cases hx; exact (setWindow_keeps h).1 _ hf), fun _ hx => by cases hx⟩
      · next w hw =>
        have hd := runWindow_keeps ((setWindow_keeps h).2 _ hw) s a1 a2 g a5 a6
        dsimp only
        generalize s.runWindow a1 a2 g w.1 a5 a6 = d at hd ⊢
        split
        · exact ⟨fun _ hx => (by cases hx), fun _ hx => by cases hx; exact hd⟩
        · generalize List.flatMap _ _ = bs
          have hb := writeRuns_keeps hd bs
          generalize d.2.writeRuns bs = b at hb ⊢
          split
          · exact ⟨fun _ hx => (by cases hx; exact hb), fun _ hx => by cases hx⟩
          · exact ⟨fun _ hx => (by cases hx), fun _ hx => by cases hx; exact newPhases_keeps (modEng_keeps hb _ _) _⟩

theorem execPhaseStart_keeps [Fact (W .cores)] (h : Keeps P W o s) (a1 a2 a3) : OutKeeps P W o (execPhaseStart a1 a2 a3 s) := by
  unfold execPhaseStart
  refine next_keeps ?_
  split
  · exact h
  · split
    · exact h
    · refine ite_keeps (fun _ => h) (fun _ => ?_)
      extract_lets t
      have ht : Keeps P W o t := free_keeps h _
      clear_value t
      exact ite_keeps (fun _ => bumpBy_keeps (modCore_keeps ht _ _) _ _ _ _) (fun _ => ht)

theorem visits_keeps [Fact (W .img)] [Fact (W .hub)] [Fact (W .flash)] [Fact (W .cores)] [Fact (W .spad)] [Fact (W .data)] [Fact (W .engines)] [Fact (W .route)] [Fact (W .links)] [Fact (W .rel)] (h : Keeps P W o s) (a1 a2 a3 a4 a5 a6) : Keeps P W o (State.visits a1 a2 a3 a4 a5 a6 s).2 := by
  induction a6 generalizing s with
  | zero => exact h
  | succ n ih =>
    unfold State.visits
    dsimp only
    split
    · exact h
    · split
      · next f hf => exact (visit_keeps h).1 _ hf
      · next u hu => exact ih ((visit_keeps h).2 _ hu)

theorem dropRot_keeps [Fact (W .engines)] (h : Keeps P W o s) (a1) : Keeps P W o (State.dropRot s a1) := by
  unfold State.dropRot
  repeat' first
    | with_reducible assumption
    | with_reducible apply modEng_keeps

theorem stopVisit_keeps [Fact (W .img)] [Fact (W .halves)] [Fact (W .data)] [Fact (W .engines)] [Fact (W .queues)] [Fact (W .slots)] [Fact (W .per)] [Fact (W .host)] (h : Keeps P W o s) (a1 a2 a3) : Keeps P W o (State.stopVisit s a1 a2 a3) := by
  unfold State.stopVisit
  repeat' first
    | with_reducible assumption
    | with_reducible apply dropRot_keeps
    | with_reducible apply complete_keeps
    | with_reducible apply xlatEnd_keeps
    | intro _ _ _
    | split

theorem endRotate_keeps [Fact (W .img)] [Fact (W .hub)] [Fact (W .flash)] [Fact (W .halves)] [Fact (W .cores)] [Fact (W .spad)] [Fact (W .data)] [Fact (W .engines)] [Fact (W .queues)] [Fact (W .slots)] [Fact (W .route)] [Fact (W .per)] [Fact (W .links)] [Fact (W .rel)] [Fact (W .host)] (h : Keeps P W o s) (a1 a2 a3 a4) : Keeps P W o (State.endRotate s a1 a2 a3 a4) := by
  unfold State.endRotate
  extract_lets x v r
  have hv : Keeps P W o v.2 := visits_keeps h _ _ _ _ _ _
  clear_value r v
  split
  · exact stopVisit_keeps hv _ _ _
  · next halted w _ _ =>
    have hw : Keeps P W o w.1 := writeUpTo_keeps hv _ _
    clear_value w
    split
    · exact xlatEnd_keeps (dropRot_keeps hw _) _ _ _ _ _
    · exact completeRun_keeps (dropRot_keeps hw _) _ _ _ _

theorem execRotateVisit_keeps [Fact (W .img)] [Fact (W .hub)] [Fact (W .flash)] [Fact (W .halves)] [Fact (W .cores)] [Fact (W .spad)] [Fact (W .data)] [Fact (W .engines)] [Fact (W .queues)] [Fact (W .slots)] [Fact (W .route)] [Fact (W .per)] [Fact (W .links)] [Fact (W .rel)] [Fact (W .host)] (h : Keeps P W o s) (a1 a2) : OutKeeps P W o (execRotateVisit a1 a2 s) := by
  unfold execRotateVisit
  refine next_keeps ?_
  split
  · exact h
  · extract_lets x r
    refine ite_keeps (fun _ => h) (fun _ => ?_)
    split
    · next f hf => exact stopVisit_keeps ((visit_keeps h).1 _ hf) _ _ _
    · next u hu => exact (visit_keeps h).2 _ hu

theorem execRotate_keeps [Fact (W .img)] [Fact (W .hub)] [Fact (W .flash)] [Fact (W .halves)] [Fact (W .cores)] [Fact (W .spad)] [Fact (W .data)] [Fact (W .engines)] [Fact (W .queues)] [Fact (W .slots)] [Fact (W .route)] [Fact (W .per)] [Fact (W .links)] [Fact (W .rel)] [Fact (W .host)] (h : Keeps P W o s) (a1 a2) : OutKeeps P W o (execRotate a1 a2 s) := by
  unfold execRotate
  repeat' first
    | with_reducible assumption
    | with_reducible apply endRotate_keeps
    | with_reducible apply next_keeps
    | with_reducible apply fault_keeps
    | intro _ _ _
    | split

theorem execSnapshot_keeps [Fact (W .img)] [Fact (W .hub)] [Fact (W .flash)] [Fact (W .halves)] [Fact (W .cores)] [Fact (W .spad)] [Fact (W .data)] [Fact (W .engines)] [Fact (W .queues)] [Fact (W .slots)] [Fact (W .route)] [Fact (W .per)] [Fact (W .links)] [Fact (W .rel)] [Fact (W .host)] (h : Keeps P W o s) (a1 a2) : OutKeeps P W o (execSnapshot a1 a2 s) := by
  unfold execSnapshot
  repeat' first
    | with_reducible assumption
    | with_reducible apply modEng_keeps
    | with_reducible apply xlatEnd_keeps
    | with_reducible apply writeSnapshot_keeps
    | with_reducible apply endAnneal_keeps
    | with_reducible apply completeRun_keeps
    | with_reducible apply endRotate_keeps
    | with_reducible apply ite_keeps <;> intro _
    | with_reducible apply next_keeps
    | with_reducible apply fault_keeps
    | intro _ _ _
    | split
    | dsimp only

end Sys2Proof.Machine
end

