-- ==== Sys2Proof/Laws/KeepTensor.lean ====
section
/-! SUPPORT. What the operations and commands of Machine/Tensor.lean keep (see Laws/Keep.lean). -/
namespace Sys2Proof.Machine

variable {P : Prop} {W : Part → Prop} {o s t : State}

theorem countTile_keeps (h : Keeps P W o s) (a1 a2) : Keeps P W o (State.countTile a1 s a2) := by
  unfold State.countTile
  repeat' first
    | with_reducible assumption
    | with_reducible apply bump_keeps
    | with_reducible apply bumpBy_keeps
    | with_reducible apply ite_keeps <;> intro _

theorem Run_note_keeps {x : Run} (h : Keeps P W o x.st) (a1 a2 a3) : Keeps P W o (Run.note x a1 a2 a3).st := by
  unfold Run.note
  repeat' first
    | with_reducible assumption

theorem Run_loadTable_keeps [Fact (W .cores)] {x : Run} (h : Keeps P W o x.st) (a1 a2) : Keeps P W o (Run.loadTable a1 x a2).st := by
  unfold Run.loadTable
  repeat' first
    | with_reducible assumption
    | with_reducible apply modCore_keeps
    | with_reducible apply Run_note_keeps
    | with_reducible apply foldl_keeps
    | intro _ _ _
    | split

theorem Run_countRow_keeps {x : Run} (h : Keeps P W o x.st) (a1) : Keeps P W o (Run.countRow x a1).st := by
  unfold Run.countRow
  split
  · exact h
  · refine foldl_part_keeps Run.st _ _ (fun v p hv => ?_) h
    split
    · split <;> exact hv
    · exact hv

theorem Run_store_keeps [Fact (W .spad)] {x : Run} (h : Keeps P W o x.st) (a1 a2 a3 a4 a5) : Keeps P W o (Run.store x a1 a2 a3 a4 a5).st := by
  unfold Run.store
  repeat' first
    | with_reducible assumption
    | with_reducible apply spadStore_keeps
    | intro _ _ _
    | split
    | dsimp only

theorem Run_voidTiles_keeps {x : Run} (h : Keeps P W o x.st) (a1) : Keeps P W o (Run.voidTiles x a1).st := by
  unfold Run.voidTiles
  refine foldl_part_keeps Run.st _ _ (fun v p hv => ?_) h
  split
  · split <;> exact hv
  · exact hv

theorem Run_topk_keeps [Fact (W .spad)] {x : Run} (h : Keeps P W o x.st) (a1 a2 a3 a4 a5) : Keeps P W o (Run.topk a1 a2 a3 x a4 a5).st := by
  unfold Run.topk
  repeat' first
    | with_reducible assumption
    | with_reducible apply Run_voidTiles_keeps
    | with_reducible apply Run_store_keeps
    | intro _ _ _
    | split
    | dsimp only

theorem Run_mergeRow_keeps [Fact (W .spad)] {x : Run} (h : Keeps P W o x.st) (a1 a2 a3 a4 a5) : Keeps P W o (Run.mergeRow a1 a2 a3 x a4 a5).st := by
  unfold Run.mergeRow
  repeat' first
    | with_reducible assumption
    | with_reducible apply Run_topk_keeps
    | with_reducible apply Run_countRow_keeps
    | with_reducible apply Run_note_keeps
    | with_reducible apply Run_store_keeps
    | intro _ _ _
    | split
    | dsimp only

theorem Run_loadScales_keeps {x : Run} (h : Keeps P W o x.st) (a1 a2 a3) : Keeps P W o (Run.loadScales a1 x a2 a3).st := by
  unfold Run.loadScales
  repeat' first
    | with_reducible assumption
    | with_reducible apply Run_note_keeps
    | intro _ _ _
    | split

theorem Run_loadPre_keeps {x : Run} (h : Keeps P W o x.st) (a1 a2 a3 a4) : Keeps P W o (Run.loadPre a1 a2 x a3 a4).st := by
  unfold Run.loadPre
  repeat' first
    | with_reducible assumption
    | with_reducible apply Run_note_keeps
    | intro _ _ _
    | split
    | dsimp only

theorem Run_loadProduct_keeps {x : Run} (h : Keeps P W o x.st) (a1 a2 a3 a4 a5) : Keeps P W o (Run.loadProduct a1 x a2 a3 a4 a5).st := by
  unfold Run.loadProduct
  repeat' first
    | with_reducible assumption
    | with_reducible apply Run_note_keeps
    | with_reducible apply foldl_keeps
    | intro _ _ _
    | split

theorem Run_drain_keeps [Fact (W .cores)] {x : Run} (h : Keeps P W o x.st) (a1 a2 a3 a4 a5) : Keeps P W o (Run.drain a1 a2 x a3 a4 a5).st := by
  unfold Run.drain
  repeat' first
    | with_reducible assumption
    | with_reducible apply modCore_keeps
    | with_reducible apply foldl_keeps
    | intro _ _ _
    | split

theorem Run_readFuse_keeps {x : Run} (h : Keeps P W o x.st) (a1 a2 a3 a4 a5) : Keeps P W o (Run.readFuse a1 x a2 a3 a4 a5).st := by
  unfold Run.readFuse
  repeat' first
    | with_reducible assumption
    | with_reducible apply Run_note_keeps
    | intro _ _ _
    | split
    | dsimp only

theorem Run_openRows_keeps {x : Run} (h : Keeps P W o x.st) (a1 a2 a3 a4) : Keeps P W o (Run.openRows a1 a2 x a3 a4).st := by
  unfold Run.openRows
  exact foldl_part_keeps Run.st _ _ (fun _ _ hv => Run_note_keeps hv _ _ _) h

theorem Run_scale_keeps {x : Run} (h : Keeps P W o x.st) (a1 a2 a3 a4) : Keeps P W o (Run.scale a1 a2 x a3 a4).st := by
  unfold Run.scale
  repeat' first
    | with_reducible assumption
    | with_reducible apply Run_openRows_keeps
    | intro _ _ _
    | split

theorem Run_status_keeps [Fact (W .spad)] {x : Run} (h : Keeps P W o x.st) (a1 a2 a3) : Keeps P W o (Run.status a1 x a2 a3).st := by
  unfold Run.status
  repeat' first
    | with_reducible assumption
    | with_reducible apply Run_store_keeps
    | intro _ _ _
    | split

theorem Run_write_keeps [Fact (W .spad)] {x : Run} (h : Keeps P W o x.st) (a1 a2 a3 a4 a5) : Keeps P W o (Run.write a1 x a2 a3 a4 a5).st := by
  unfold Run.write
  repeat' first
    | with_reducible assumption
    | with_reducible apply Run_status_keeps
    | with_reducible apply Run_store_keeps
    | intro _ _ _
    | split
    | dsimp only

theorem Run_event_keeps [Fact (W .cores)] [Fact (W .spad)] {x : Run} (h : Keeps P W o x.st) (a1 a2 a3 a4) : Keeps P W o (Run.event a1 a2 a3 x a4).st := by
  unfold Run.event
  repeat' first
    | with_reducible assumption
    | with_reducible apply Run_write_keeps
    | with_reducible apply Run_readFuse_keeps
    | with_reducible apply Run_drain_keeps
    | with_reducible apply Run_loadScales_keeps
    | with_reducible apply Run_loadPre_keeps
    | with_reducible apply Run_mergeRow_keeps
    | with_reducible apply Run_loadProduct_keeps
    | with_reducible apply Run_scale_keeps
    | intro _ _ _
    | split

theorem Run_againPart_keeps [Fact (W .spad)] {x : Run × Bool × Bool} (h : Keeps P W o x.1.st) (a1 a2 a3 a4 a5 a6) :
    Keeps P W o (Run.againPart a1 a2 a3 a4 a5 x a6).1.st := by
  unfold Run.againPart
  extract_lets u
  split
  · exact h
  · split
    · exact h
    · dsimp only
      split
      · exact h
      · refine Run_store_keeps ?_ _ _ _ _ _
        exact h

theorem Run_again_keeps [Fact (W .spad)] {x : Run} (h : Keeps P W o x.st) (a1 a2 a3) : Keeps P W o (Run.again a1 a2 x a3).st := by
  unfold Run.again
  split
  · exact h
  · extract_lets t
    split
    · exact h
    · split
      · exact h
      · next f c under row1 src u1 _ _ _ _ =>
        have hc : Keeps P W o c.1.st :=
          foldl_part_keeps (fun a : Run × Bool × Bool => a.1.st) _ _ (fun _ _ hy => Run_againPart_keeps hy _ _ _ _ _ _) (b := (x, false, true)) h
        have h1 : Keeps P W o u1.st := hc
        clear_value u1
        split
        · exact h1
        · exact Run_store_keeps (Run_store_keeps h1 _ _ _ _ _) _ _ _ _ _

theorem Run_push_keeps [Fact (W .links)] {x : Run} (h : Keeps P W o x.st) (a1 a2 a3) : Keeps P W o (Run.push a1 a2 x a3).st := by
  unfold Run.push
  repeat' first
    | with_reducible assumption
    | with_reducible apply pushItem_keeps
    | with_reducible apply Run_note_keeps
    | intro _ _ _
    | split

theorem Run_sendLinks_keeps [Fact (W .links)] {x : Run} (h : Keeps P W o x.st) (a1 a2) : Keeps P W o (Run.sendLinks x a1 a2).st := by
  unfold Run.sendLinks
  repeat' first
    | with_reducible assumption
    | with_reducible apply each_keeps
    | with_reducible apply modLink_keeps
    | with_reducible apply each_keeps
    | intro _ _ _

theorem runJobs_keeps [Fact (W .cores)] [Fact (W .spad)] [Fact (W .links)] (h : Keeps P W o s) (a1 a2) : Keeps P W o (State.runJobs s a1 a2).run.st := by
  unfold State.runJobs
  extract_lets rows n u0 fates es u1 last hit again u2 u3 u4
  have h0 : Keeps P W o u0.st := foldl_part_keeps Run.st _ _ (fun _ _ hy => Run_loadTable_keeps hy _ _) h
  clear_value u0
  have h1 : Keeps P W o u1.st := foldl_part_keeps Run.st _ _ (fun _ _ hy => Run_event_keeps hy _ _ _ _) h0
  clear_value u1
  have h2 : Keeps P W o u2.st := by
    simp only [u2]
    split
    · exact foldl_part_keeps Run.st _ _ (fun _ _ hy => Run_again_keeps hy _ _ _) h1
    · exact h1
  clear_value u2
  have h4 : Keeps P W o u4.st := foldl_part_keeps Run.st _ _ (fun _ _ hy => Run_status_keeps hy _ _ _) h2
  clear_value u4
  exact foldl_part_keeps Run.st _ _ (fun _ _ hy => Run_push_keeps hy _ _ _) (Run_sendLinks_keeps h4 _ _)

theorem planSlips_keeps [Fact (W .engines)] [Fact (W .route)] [Fact (W .clk)] [Fact (W .rel)] (h : Keeps P W o s) (a1 a2) : Keeps P W o (State.planSlips s a1 a2) := by
  unfold State.planSlips
  repeat' first
    | with_reducible assumption
    | with_reducible apply slip_keeps
    | with_reducible apply each_keeps
    | with_reducible apply replay_keeps
    | with_reducible apply ite_keeps <;> intro _
    | with_reducible apply each_keeps
    | intro _ _ _

theorem face_keeps [Fact (W .img)] [Fact (W .hub)] [Fact (W .flash)] [Fact (W .cores)] [Fact (W .spad)] [Fact (W .engines)] [Fact (W .links)] [Fact (W .rel)] {x : Faced} (h : Keeps P W o x.st) (a1 a2 a3) : Keeps P W o (State.face a1 a2 x a3).st := by
  unfold State.face
  extract_lets c t y
  have ht : Keeps P W o t := countFault_keeps h _
  clear_value t
  split
  · exact ht
  · split <;> exact ht

theorem reportTile_keeps [Fact (W .route)] (h : Keeps P W o s) (a1 a2) : Keeps P W o (State.reportTile a1 s a2) := by
  unfold State.reportTile
  repeat' first
    | with_reducible assumption
    | with_reducible apply modRoute_keeps
    | intro _ _ _
    | split

theorem faced_keeps [Fact (W .img)] [Fact (W .hub)] [Fact (W .flash)] [Fact (W .cores)] [Fact (W .spad)] [Fact (W .engines)] [Fact (W .links)] [Fact (W .rel)] (h : Keeps P W o s) (a1 a2 a3 a4) : Keeps P W o (State.faced s a1 a2 a3 a4).st := by
  unfold State.faced
  exact foldl_part_keeps Faced.st _ _ (fun _ _ hy => face_keeps hy _ _ _) (b := ⟨s, a3, 0⟩) h

theorem tensorWork_keeps [Fact (W .img)] [Fact (W .hub)] [Fact (W .flash)] [Fact (W .cores)] [Fact (W .spad)] [Fact (W .engines)] [Fact (W .route)] [Fact (W .links)] [Fact (W .clk)] [Fact (W .rel)] (h : Keeps P W o s) (a1 a2 a3 a4) : Keeps P W o (State.tensorWork s a1 a2 a3 a4).run.run.st := by
  unfold State.tensorWork
  extract_lets rd f
  have hd : Keeps P W o rd.st := foldl_part_keeps PlanReads.st _ _ (fun _ _ hy => landFlits_keeps (linkRead_keeps hy _ _ _) _ _ _) (planSlips_keeps h _ _)
  exact runJobs_keeps hd _ _

theorem qscale_keeps (h : Keeps P W o s) (a1 a2 a3) : Keeps P W o (State.qscale s a1 a2 a3) := by
  unfold State.qscale
  repeat' first
    | with_reducible assumption
    | with_reducible apply raiseBy_keeps
    | with_reducible apply ite_keeps <;> intro _

theorem endTensor_keeps [Fact (W .img)] [Fact (W .hub)] [Fact (W .flash)] [Fact (W .halves)] [Fact (W .cores)] [Fact (W .data)] [Fact (W .engines)] [Fact (W .queues)] [Fact (W .slots)] [Fact (W .route)] [Fact (W .per)] [Fact (W .links)] [Fact (W .rel)] [Fact (W .host)] {w : TensorWork} (h : Keeps P W o w.run.run.st) (t a1 a2 a3 a4) : Keeps P W o (State.endTensor t a1 a2 a3 a4 w) := by
  unfold State.endTensor
  extract_lets r faults s1 s2 lost s3 s4 s5 s6 s7 s8 flagged now
  have h1 : Keeps P W o s1 := each_keeps _ _ (fun _ _ hy => countFault_keeps hy _) h
  have h2 : Keeps P W o s2 := each_keeps _ _ (fun _ _ hy => replay_keeps hy _) h1
  have h3 : Keeps P W o s3 := ite_keeps (fun _ => bump_keeps h2 _ _ _) (fun _ => h2)
  have h4 : Keeps P W o s4 := each_keeps _ _ (fun _ _ hy => bump_keeps hy _ _ _) h3
  have h5 : Keeps P W o s5 := countNodes_keeps (foldl_keeps _ _ (fun _ _ hy => countTile_keeps hy _ _) h4) _
  have h6 : Keeps P W o s6 := ite_keeps (fun _ => bump_keeps h5 _ _ _) (fun _ => h5)
  have h7 : Keeps P W o s7 := qscale_keeps h6 _ _ _
  have h8 : Keeps P W o s8 := ite_keeps (fun _ => h7) (fun _ => foldl_keeps _ _ (fun _ _ hy => reportTile_keeps hy _ _) h7)
  exact complete_keeps h8 _ _ _

theorem runTensor_keeps [Fact (W .img)] [Fact (W .hub)] [Fact (W .flash)] [Fact (W .halves)] [Fact (W .cores)] [Fact (W .spad)] [Fact (W .data)] [Fact (W .engines)] [Fact (W .queues)] [Fact (W .slots)] [Fact (W .route)] [Fact (W .per)] [Fact (W .links)] [Fact (W .clk)] [Fact (W .rel)] [Fact (W .host)] (h : Keeps P W o s) (a1 a2 a3 a4) : Keeps P W o (State.runTensor s a1 a2 a3 a4) := by
  unfold State.runTensor
  exact getD_keeps (fun _ hx => takeChecks_keeps h hx) (endTensor_keeps (tensorWork_keeps h _ _ _ _) _ _ _ _ _)

theorem execStartMarker_keeps [Fact (W .img)] [Fact (W .halves)] [Fact (W .cores)] [Fact (W .spad)] [Fact (W .data)] [Fact (W .engines)] [Fact (W .queues)] [Fact (W .slots)] [Fact (W .route)] [Fact (W .per)] [Fact (W .host)] (h : Keeps P W o s) (a1 a2 a3) : OutKeeps P W o (execStartMarker a1 a2 a3 s) := by
  unfold execStartMarker
  repeat' first
    | with_reducible assumption
    | with_reducible apply start_keeps
    | with_reducible apply failCmd_keeps
    | with_reducible apply ite_keeps <;> intro _
    | with_reducible apply next_keeps
    | with_reducible apply fault_keeps
    | intro _ _ _
    | split

theorem execTensor_keeps [Fact (W .img)] [Fact (W .hub)] [Fact (W .flash)] [Fact (W .halves)] [Fact (W .cores)] [Fact (W .spad)] [Fact (W .data)] [Fact (W .engines)] [Fact (W .queues)] [Fact (W .slots)] [Fact (W .route)] [Fact (W .per)] [Fact (W .links)] [Fact (W .clk)] [Fact (W .rel)] [Fact (W .host)] (h : Keeps P W o s) (a1 a2) : OutKeeps P W o (execTensor a1 a2 s) := by
  unfold execTensor
  repeat' first
    | with_reducible assumption
    | with_reducible apply runTensor_keeps
    | with_reducible apply ite_keeps <;> intro _
    | with_reducible apply next_keeps
    | with_reducible apply fault_keeps
    | intro _ _ _
    | split

end Sys2Proof.Machine
end

