-- ==== Sys2Proof/Laws/KeepRoute.lean ====
section
/-! SUPPORT. What the operations and commands of Machine/Route.lean keep (see Laws/Keep.lean). -/
namespace Sys2Proof.Machine

variable {P : Prop} {W : Part → Prop} {o s t : State}

theorem putCombined_keeps [Fact (W .spad)] [Fact (W .route)] (h : Keeps P W o s) (a1 a2) : Keeps P W o (State.putCombined a1 s a2) := by
  unfold State.putCombined
  repeat' first
    | with_reducible assumption
    | with_reducible apply modRoute_keeps
    | with_reducible apply deliver_keeps
    | with_reducible apply bumpBy_keeps
    | with_reducible apply ite_keeps <;> intro _

theorem runCombine_keeps [Fact (W .img)] [Fact (W .halves)] [Fact (W .spad)] [Fact (W .data)] [Fact (W .engines)] [Fact (W .queues)] [Fact (W .slots)] [Fact (W .route)] [Fact (W .per)] [Fact (W .host)] (h : Keeps P W o s) (a1 a2) : Keeps P W o (State.runCombine s a1 a2) := by
  unfold State.runCombine
  repeat' first
    | with_reducible assumption
    | with_reducible apply each_keeps
    | with_reducible apply modRoute_keeps
    | with_reducible apply complete_keeps
    | with_reducible apply putCombined_keeps
    | with_reducible apply each_keeps
    | intro _ _ _

theorem RouteCtx_landSlot_keeps [Fact (W .spad)] (h : Keeps P W o s) (a1 a2 a3 a4) : Keeps P W o (RouteCtx.landSlot a1 a2 a3 s a4) := by
  unfold RouteCtx.landSlot
  repeat' first
    | with_reducible assumption
    | with_reducible apply setFlit_keeps
    | with_reducible apply deliverWith_keeps
    | with_reducible apply deliver_keeps
    | with_reducible apply countNodes_keeps
    | with_reducible apply ite_keeps <;> intro _
    | intro _ _ _
    | split

theorem sendSpec_keeps [Fact (W .spad)] [Fact (W .route)] (h : Keeps P W o s) (a1) : Keeps P W o (State.sendSpec s a1) := by
  unfold State.sendSpec
  repeat' first
    | with_reducible assumption
    | with_reducible apply each_keeps
    | with_reducible apply modRoute_keeps
    | with_reducible apply trace_keeps
    | with_reducible apply RouteCtx_landSlot_keeps
    | with_reducible apply ite_keeps <;> intro _
    | with_reducible apply each_keeps
    | intro _ _ _

theorem countRoute_keeps (h : Keeps P W o s) (a1 a2) : Keeps P W o (State.countRoute s a1 a2) := by
  unfold State.countRoute
  repeat' first
    | with_reducible assumption
    | with_reducible apply each_keeps
    | with_reducible apply bumpBy_keeps
    | with_reducible apply each_keeps
    | intro _ _ _

theorem traceAdmit_keeps (h : Keeps P W o s) (a1 a2) : Keeps P W o (State.traceAdmit s a1 a2) := by
  unfold State.traceAdmit
  repeat' first
    | with_reducible assumption
    | with_reducible apply each_keeps
    | with_reducible apply trace_keeps
    | with_reducible apply each_keeps
    | intro _ _ _

theorem execCombine_keeps [Fact (W .img)] [Fact (W .halves)] [Fact (W .cores)] [Fact (W .spad)] [Fact (W .data)] [Fact (W .engines)] [Fact (W .queues)] [Fact (W .slots)] [Fact (W .route)] [Fact (W .per)] [Fact (W .host)] (h : Keeps P W o s) : OutKeeps P W o (execCombine s) := by
  unfold execCombine
  repeat' first
    | with_reducible assumption
    | with_reducible apply runCombine_keeps
    | exact starting_keeps h ‹_›
    | with_reducible refine getD_keeps (fun _ hx => takeChecks_keeps ?_ hx) ?_
    | exact takeChecks_keeps (by assumption) ‹_›
    | with_reducible apply next_keeps
    | with_reducible apply fault_keeps
    | intro _ _ _
    | split

theorem commitRoute_keeps [Fact (W .spad)] [Fact (W .route)] (h : Keeps P W o s) (a1 a2 a3 a4) : Keeps P W o (State.commitRoute s a1 a2 a3 a4) := by
  unfold State.commitRoute
  repeat' first
    | with_reducible assumption
    | with_reducible apply countRoute_keeps
    | with_reducible apply each_keeps
    | with_reducible apply modRoute_keeps
    | with_reducible apply traceAdmit_keeps
    | with_reducible apply deliver_keeps
    | with_reducible apply each_keeps
    | with_reducible apply foldl_keeps
    | intro _ _ _

theorem runRoute_keeps [Fact (W .img)] [Fact (W .halves)] [Fact (W .spad)] [Fact (W .data)] [Fact (W .engines)] [Fact (W .fences)] [Fact (W .queues)] [Fact (W .slots)] [Fact (W .route)] [Fact (W .per)] [Fact (W .host)] (h : Keeps P W o s) (a1 a2 a3) : Keeps P W o (State.runRoute s a1 a2 a3) := by
  unfold State.runRoute
  repeat' first
    | with_reducible assumption
    | with_reducible apply each_keeps
    | with_reducible apply complete_keeps
    | with_reducible apply commitRoute_keeps
    | with_reducible apply fenceAdd_keeps
    | with_reducible apply RouteCtx_landSlot_keeps
    | with_reducible apply each_keeps
    | intro _ _ _

theorem execReady_keeps [Fact (W .route)] (h : Keeps P W o s) (a1 a2) : OutKeeps P W o (execReady a1 a2 s) := by
  unfold execReady
  repeat' first
    | with_reducible assumption
    | with_reducible apply modRoute_keeps
    | with_reducible apply ite_keeps <;> intro _
    | with_reducible apply next_keeps

theorem execRoute_keeps [Fact (W .img)] [Fact (W .halves)] [Fact (W .cores)] [Fact (W .spad)] [Fact (W .data)] [Fact (W .engines)] [Fact (W .fences)] [Fact (W .queues)] [Fact (W .slots)] [Fact (W .route)] [Fact (W .per)] [Fact (W .host)] (h : Keeps P W o s) (a1) : OutKeeps P W o (execRoute a1 s) := by
  unfold execRoute
  refine next_keeps ?_
  split
  · exact h
  · next c u hs =>
    have hu : Keeps P W o u := starting_keeps h hs
    clear hs
    extract_lets hd toks x u1
    have h1 : Keeps P W o u1 := sendSpec_keeps hu _
    clear_value u1
    exact ite_keeps (fun _ => h1) (fun _ => getD_keeps (fun _ hx => takeChecks_keeps h1 hx) (runRoute_keeps h1 _ _ _))

end Sys2Proof.Machine
end

