-- ==== Sys2Proof/Laws/KeepKill.lean ====
section
/-! SUPPORT. What the operations and commands of Machine/Kill.lean keep (see Laws/Keep.lean). -/
namespace Sys2Proof.Machine

variable {P : Prop} {W : Part → Prop} {o s t : State}

theorem killLink_keeps [Fact (W .links)] (h : Keeps P W o s) (a1) : Keeps P W o (State.killLink s a1) := by
  unfold State.killLink
  repeat' first
    | with_reducible assumption
    | with_reducible apply modLink_keeps

theorem dropPriv_keeps [Fact (W .engines)] [Fact (W .rel)] (h : Keeps P W o s) (a1) : Keeps P W o (State.dropPriv s a1) := by
  unfold State.dropPriv
  repeat' first
    | with_reducible assumption
    | with_reducible apply each_keeps
    | with_reducible apply closeWindow_keeps
    | with_reducible apply modRel_keeps
    | with_reducible apply each_keeps
    | intro _ _ _

theorem killCombine_keeps [Fact (W .spad)] [Fact (W .route)] (h : Keeps P W o s) (a1 a2) : Keeps P W o (State.killCombine s a1 a2) := by
  unfold State.killCombine
  repeat' first
    | with_reducible assumption
    | with_reducible apply each_keeps
    | with_reducible apply putCombined_keeps
    | with_reducible apply each_keeps
    | intro _ _ _
    | split

theorem withdrawPrep_keeps [Fact (W .halves)] [Fact (W .data)] [Fact (W .engines)] [Fact (W .queues)] [Fact (W .rng)] [Fact (W .host)] {a2 : Nat × State} (h : Keeps P W o a2.2) (a1 a3) : Keeps P W o (State.withdrawPrep a1 a2 a3).2 := by
  unfold State.withdrawPrep
  split
  · split
    · extract_lets u
      have hu : Keeps P W o u := atBoundary_keeps (endWaits_keeps h _) _
      split
      · exact hu
      · dsimp only; exact modQueue_keeps hu _ _
    · exact h
  · exact h

theorem withdrawChains_keeps [Fact (W .engines)] {a2 : Nat × State} (h : Keeps P W o a2.2) (a1 a3) : Keeps P W o (State.withdrawChains a1 a2 a3).2 := by
  unfold State.withdrawChains
  refine foldl_part_keeps Prod.snd _ _ (fun b k hb => ?_) h
  dsimp only
  split
  · exact hb
  · exact dropChainPreload_keeps (setChain_keeps hb _ _ _) _ _

theorem withdraw_keeps [Fact (W .halves)] [Fact (W .data)] [Fact (W .engines)] [Fact (W .queues)] [Fact (W .per)] [Fact (W .rng)] [Fact (W .host)] (h : Keeps P W o s) (a1) : Keeps P W o (State.withdraw s a1) := by
  unfold State.withdraw
  extract_lets n s1 a b q
  have h1 : Keeps P W o s1 := by
    refine each_keeps _ _ (fun u e hu => ?_) h
    split
    · split
      · exact discardPreload_keeps hu _
      · exact hu
    · exact hu
  clear_value s1
  have ha : Keeps P W o a.2 :=
    foldl_part_keeps Prod.snd (upto 21) (State.withdrawPrep n) (fun _ _ hy => withdrawPrep_keeps hy _ _) (b := (0, s1)) h1
  clear_value a
  have hb : Keeps P W o b.2 :=
    foldl_part_keeps Prod.snd (upto 21) (State.withdrawChains n) (fun _ _ hy => withdrawChains_keeps hy _ _) (b := a) ha
  exact modProg_keeps (setQueue_keeps hb _ _) _ _

theorem endTick_keeps [Fact (W .engines)] [Fact (W .per)] (h : Keeps P W o s) (a1 a2) : Keeps P W o (State.endTick s a1 a2) := by
  unfold State.endTick
  repeat' first
    | with_reducible assumption
    | with_reducible apply modEng_keeps
    | with_reducible apply modProg_keeps
    | with_reducible apply ite_keeps <;> intro _

theorem killAnneal_keeps [Fact (W .img)] [Fact (W .hub)] [Fact (W .flash)] [Fact (W .cores)] [Fact (W .spad)] [Fact (W .data)] [Fact (W .engines)] [Fact (W .route)] [Fact (W .links)] [Fact (W .rel)] (h : Keeps P W o s) (a1 a2 a3) : Keeps P W o (State.killAnneal s a1 a2 a3) := by
  unfold State.killAnneal
  repeat' first
    | with_reducible assumption
    | with_reducible apply runAnneal_keeps
    | with_reducible apply jobOf_keeps
    | with_reducible apply loadRecords_keeps
    | with_reducible apply ite_keeps <;> intro _

theorem killRotate_keeps [Fact (W .img)] [Fact (W .hub)] [Fact (W .flash)] [Fact (W .cores)] [Fact (W .spad)] [Fact (W .data)] [Fact (W .engines)] [Fact (W .route)] [Fact (W .links)] [Fact (W .rel)] (h : Keeps P W o s) (a1 a2 a3) : Keeps P W o (State.killRotate s a1 a2 a3) := by
  unfold State.killRotate
  extract_lets x v r u
  have hv : Keeps P W o v.2 := visits_keeps h _ _ _ _ _ _
  clear_value v
  have hu : Keeps P W o u := by
    simp only [u]
    split
    · exact hv
    · split
      · next w hw => exact (visit_keeps hv).2 _ hw
      · next f hf => exact (visit_keeps hv).1 _ hf
  exact dropRot_keeps hu _

theorem killed_keeps [Fact (W .img)] [Fact (W .hub)] [Fact (W .flash)] [Fact (W .cores)] [Fact (W .spad)] [Fact (W .data)] [Fact (W .engines)] [Fact (W .route)] [Fact (W .links)] [Fact (W .rel)] [Fact (W .host)] (h : Keeps P W o s) (a1 a2 a3) : Keeps P W o (State.killed s a1 a2 a3) := by
  unfold State.killed
  repeat' first
    | with_reducible assumption
    | with_reducible apply killLink_keeps
    | with_reducible apply killCombine_keeps
    | with_reducible apply killAnneal_keeps
    | with_reducible apply copyPart_keeps
    | with_reducible apply killRotate_keeps
    | with_reducible apply discardSent_keeps
    | with_reducible apply ite_keeps <;> intro _

theorem kill_keeps [Fact (W .img)] [Fact (W .hub)] [Fact (W .flash)] [Fact (W .halves)] [Fact (W .cores)] [Fact (W .spad)] [Fact (W .data)] [Fact (W .engines)] [Fact (W .queues)] [Fact (W .slots)] [Fact (W .route)] [Fact (W .per)] [Fact (W .links)] [Fact (W .rng)] [Fact (W .rel)] [Fact (W .host)] (h : Keeps P W o s) (a1 a2 a3 a4 a5) : Keeps P W o (State.kill s a1 a2 a3 a4 a5) := by
  unfold State.kill
  repeat' first
    | with_reducible assumption
    | with_reducible apply finish_keeps
    | with_reducible apply endWaits_keeps
    | with_reducible apply killed_keeps

theorem drainCmd_keeps [Fact (W .img)] [Fact (W .hub)] [Fact (W .flash)] [Fact (W .halves)] [Fact (W .cores)] [Fact (W .spad)] [Fact (W .data)] [Fact (W .engines)] [Fact (W .queues)] [Fact (W .slots)] [Fact (W .route)] [Fact (W .per)] [Fact (W .links)] [Fact (W .rel)] [Fact (W .host)] (h : Keeps P W o s) (a1 a2 a3 a4) : Keeps P W o (State.drainCmd s a1 a2 a3 a4) := by
  unfold State.drainCmd
  repeat' first
    | with_reducible assumption
    | with_reducible apply finish_keeps
    | with_reducible apply modEng_keeps
    | with_reducible apply endAnneal_keeps
    | with_reducible apply endRotate_keeps
    | with_reducible apply ite_keeps <;> intro _

theorem timeOut_keeps [Fact (W .img)] [Fact (W .hub)] [Fact (W .flash)] [Fact (W .halves)] [Fact (W .cores)] [Fact (W .spad)] [Fact (W .data)] [Fact (W .engines)] [Fact (W .queues)] [Fact (W .slots)] [Fact (W .route)] [Fact (W .per)] [Fact (W .links)] [Fact (W .rng)] [Fact (W .rel)] [Fact (W .host)] (h : Keeps P W o s) (a1 a2 a3) : Keeps P W o (State.timeOut s a1 a2 a3) := by
  unfold State.timeOut
  repeat' first
    | with_reducible assumption
    | with_reducible apply drainCmd_keeps
    | with_reducible apply kill_keeps
    | with_reducible apply ite_keeps <;> intro _

theorem endRunning_keeps [Fact (W .img)] [Fact (W .hub)] [Fact (W .flash)] [Fact (W .halves)] [Fact (W .cores)] [Fact (W .spad)] [Fact (W .data)] [Fact (W .engines)] [Fact (W .queues)] [Fact (W .slots)] [Fact (W .route)] [Fact (W .per)] [Fact (W .links)] [Fact (W .rng)] [Fact (W .rel)] [Fact (W .host)] (h : Keeps P W o s) (a1 a2 a3 a4) : Keeps P W o (State.endRunning s a1 a2 a3 a4) := by
  unfold State.endRunning
  repeat' first
    | with_reducible assumption
    | with_reducible apply drainCmd_keeps
    | with_reducible apply kill_keeps
    | with_reducible apply ite_keeps <;> intro _
    | intro _ _ _
    | split

theorem freeBank_keeps [Fact (W .spad)] (h : Keeps P W o s) (a1 a2) : Keeps P W o (State.freeBank s a1 a2) := by
  unfold State.freeBank
  repeat' first
    | with_reducible assumption
    | with_reducible apply each_keeps
    | with_reducible apply spadWrite_keeps
    | with_reducible apply each_keeps
    | with_reducible refine free_keeps ?_ _
    | intro _ _ _

theorem stopPriv_keeps [Fact (W .img)] [Fact (W .hub)] [Fact (W .flash)] [Fact (W .halves)] [Fact (W .cores)] [Fact (W .spad)] [Fact (W .data)] [Fact (W .engines)] [Fact (W .queues)] [Fact (W .slots)] [Fact (W .per)] [Fact (W .rel)] [Fact (W .host)] (h : Keeps P W o s) (a1 a2 a3 a4 a5) : Keeps P W o (State.stopPriv s a1 a2 a3 a4 a5) := by
  unfold State.stopPriv
  repeat' first
    | with_reducible assumption
    | with_reducible apply dropPriv_keeps
    | with_reducible apply finishPriv_keeps
    | with_reducible apply each_keeps
    | with_reducible apply runMarch_keeps
    | with_reducible apply freeBank_keeps
    | with_reducible apply draw_keeps
    | with_reducible apply ite_keeps <;> intro _
    | with_reducible apply each_keeps
    | intro _ _ _

theorem timeOutWaiting_keeps [Fact (W .img)] [Fact (W .hub)] [Fact (W .flash)] [Fact (W .halves)] [Fact (W .cores)] [Fact (W .spad)] [Fact (W .data)] [Fact (W .engines)] [Fact (W .queues)] [Fact (W .slots)] [Fact (W .per)] [Fact (W .rel)] [Fact (W .host)] (h : Keeps P W o s) (a1 a2) : Keeps P W o (State.timeOutWaiting s a1 a2) := by
  unfold State.timeOutWaiting
  repeat' first
    | with_reducible assumption
    | with_reducible apply endDestroys_keeps
    | with_reducible apply dropWait_keeps
    | with_reducible apply stopPriv_keeps
    | with_reducible apply postRecord_keeps
    | intro _ _ _
    | split

theorem execQueueTimeout_keeps [Fact (W .img)] [Fact (W .hub)] [Fact (W .flash)] [Fact (W .halves)] [Fact (W .cores)] [Fact (W .spad)] [Fact (W .data)] [Fact (W .engines)] [Fact (W .queues)] [Fact (W .slots)] [Fact (W .route)] [Fact (W .per)] [Fact (W .links)] [Fact (W .rng)] [Fact (W .rel)] [Fact (W .host)] (h : Keeps P W o s) (a1 a2) : OutKeeps P W o (execQueueTimeout a1 a2 s) := by
  unfold execQueueTimeout
  repeat' first
    | with_reducible assumption
    | with_reducible apply timeOut_keeps
    | with_reducible apply timeOutWaiting_keeps
    | with_reducible apply ite_keeps <;> intro _
    | with_reducible apply next_keeps
    | with_reducible apply fault_keeps
    | intro _ _ _
    | split

theorem killList_keeps [Fact (W .img)] [Fact (W .hub)] [Fact (W .flash)] [Fact (W .halves)] [Fact (W .cores)] [Fact (W .spad)] [Fact (W .data)] [Fact (W .engines)] [Fact (W .queues)] [Fact (W .slots)] [Fact (W .route)] [Fact (W .per)] [Fact (W .links)] [Fact (W .rng)] [Fact (W .rel)] [Fact (W .host)] (h : Keeps P W o s) (a1 a2) : Keeps P W o (State.killList s a1 a2) := by
  unfold State.killList
  repeat' first
    | with_reducible assumption
    | with_reducible apply each_keeps
    | with_reducible apply kill_keeps
    | with_reducible apply dropWait_keeps
    | with_reducible apply stopPriv_keeps
    | with_reducible apply postRecord_keeps
    | with_reducible apply ite_keeps <;> intro _
    | with_reducible apply each_keeps
    | intro _ _ _
    | split

theorem cancelHeld_keeps [Fact (W .data)] [Fact (W .engines)] [Fact (W .queues)] [Fact (W .per)] [Fact (W .host)] (h : Keeps P W o s) (a1 a2) : Keeps P W o (State.cancelHeld s a1 a2) := by
  unfold State.cancelHeld
  repeat' first
    | with_reducible assumption
    | with_reducible apply dropPreload_keeps
    | with_reducible apply each_keeps
    | with_reducible apply dropWait_keeps
    | with_reducible apply postRecord_keeps
    | with_reducible apply ite_keeps <;> intro _
    | with_reducible apply each_keeps
    | intro _ _ _
    | split

theorem endPrivs_keeps [Fact (W .img)] [Fact (W .hub)] [Fact (W .flash)] [Fact (W .halves)] [Fact (W .cores)] [Fact (W .spad)] [Fact (W .data)] [Fact (W .engines)] [Fact (W .queues)] [Fact (W .slots)] [Fact (W .per)] [Fact (W .rel)] [Fact (W .host)] (h : Keeps P W o s) (a1 a2 a3) : Keeps P W o (State.endPrivs s a1 a2 a3) := by
  unfold State.endPrivs
  repeat' first
    | with_reducible assumption
    | with_reducible apply each_keeps
    | with_reducible apply stopPriv_keeps
    | with_reducible apply each_keeps
    | intro _ _ _

theorem destroyQueue_keeps [Fact (W .img)] [Fact (W .hub)] [Fact (W .flash)] [Fact (W .halves)] [Fact (W .cores)] [Fact (W .spad)] [Fact (W .data)] [Fact (W .engines)] [Fact (W .queues)] [Fact (W .slots)] [Fact (W .route)] [Fact (W .per)] [Fact (W .links)] [Fact (W .rng)] [Fact (W .rel)] [Fact (W .host)] (h : Keeps P W o s) (a1 a2) : Keeps P W o (State.destroyQueue s a1 a2) := by
  unfold State.destroyQueue
  repeat' first
    | with_reducible assumption
    | with_reducible apply cancelChains_keeps
    | with_reducible apply each_keeps
    | with_reducible apply endRunning_keeps
    | with_reducible apply background_keeps
    | with_reducible apply endDestroys_keeps
    | with_reducible apply endPrivs_keeps
    | with_reducible apply cancelHeld_keeps
    | with_reducible apply setQueue_keeps
    | with_reducible apply modMbx_keeps
    | with_reducible apply each_keeps
    | exact fun _ => ⟨rfl, rfl⟩
    | intro _ _ _

theorem noteReport_keeps (h : Keeps P W o s) (a1 a2) : Keeps P W o (State.noteReport s a1 a2) := by
  unfold State.noteReport
  repeat' first
    | with_reducible assumption
    | with_reducible apply noteAs_keeps
    | with_reducible apply ite_keeps <;> intro _

theorem execQueueDestroy_keeps [Fact (W .img)] [Fact (W .hub)] [Fact (W .flash)] [Fact (W .halves)] [Fact (W .cores)] [Fact (W .spad)] [Fact (W .data)] [Fact (W .engines)] [Fact (W .queues)] [Fact (W .slots)] [Fact (W .route)] [Fact (W .per)] [Fact (W .links)] [Fact (W .rng)] [Fact (W .rel)] [Fact (W .host)] (h : Keeps P W o s) (a1) : OutKeeps P W o (execQueueDestroy a1 s) := by
  unfold execQueueDestroy
  repeat' first
    | with_reducible assumption
    | with_reducible apply destroyQueue_keeps
    | with_reducible apply noteReport_keeps
    | with_reducible apply endReq_keeps
    | with_reducible apply next_keeps
    | with_reducible apply fault_keeps
    | intro _ _ _
    | split

theorem execDrainTimeout_keeps [Fact (W .img)] [Fact (W .hub)] [Fact (W .flash)] [Fact (W .halves)] [Fact (W .cores)] [Fact (W .spad)] [Fact (W .data)] [Fact (W .engines)] [Fact (W .queues)] [Fact (W .slots)] [Fact (W .route)] [Fact (W .per)] [Fact (W .links)] [Fact (W .rng)] [Fact (W .rel)] [Fact (W .host)] (h : Keeps P W o s) (a1 a2) : OutKeeps P W o (execDrainTimeout a1 a2 s) := by
  unfold execDrainTimeout
  repeat' first
    | with_reducible assumption
    | with_reducible apply kill_keeps
    | with_reducible apply ite_keeps <;> intro _
    | with_reducible apply next_keeps
    | with_reducible apply fault_keeps
    | intro _ _ _
    | split

theorem missDeadline_keeps [Fact (W .img)] [Fact (W .hub)] [Fact (W .flash)] [Fact (W .halves)] [Fact (W .cores)] [Fact (W .spad)] [Fact (W .data)] [Fact (W .engines)] [Fact (W .queues)] [Fact (W .slots)] [Fact (W .route)] [Fact (W .per)] [Fact (W .links)] [Fact (W .rng)] [Fact (W .rel)] [Fact (W .host)] (h : Keeps P W o s) (a1 a2 a3) : Keeps P W o (State.missDeadline s a1 a2 a3) := by
  unfold State.missDeadline
  repeat' first
    | with_reducible assumption
    | with_reducible apply bump_keeps
    | with_reducible apply withdraw_keeps
    | with_reducible apply endTick_keeps
    | with_reducible apply killList_keeps
    | with_reducible apply raise_keeps
    | with_reducible apply egress_keeps
    | with_reducible apply ite_keeps <;> intro _

theorem deadline_keeps [Fact (W .img)] [Fact (W .hub)] [Fact (W .flash)] [Fact (W .halves)] [Fact (W .cores)] [Fact (W .spad)] [Fact (W .data)] [Fact (W .engines)] [Fact (W .queues)] [Fact (W .slots)] [Fact (W .route)] [Fact (W .per)] [Fact (W .links)] [Fact (W .rng)] [Fact (W .rel)] [Fact (W .host)] (h : Keeps P W o s) (a1 a2) : Keeps P W o (State.deadline s a1 a2) := by
  unfold State.deadline
  repeat' first
    | with_reducible assumption
    | with_reducible apply endTick_keeps
    | with_reducible apply traceTick_keeps
    | with_reducible apply missDeadline_keeps
    | with_reducible apply egress_keeps
    | with_reducible apply ite_keeps <;> intro _

theorem execEgressDeadline_keeps [Fact (W .img)] [Fact (W .hub)] [Fact (W .flash)] [Fact (W .halves)] [Fact (W .cores)] [Fact (W .spad)] [Fact (W .data)] [Fact (W .engines)] [Fact (W .queues)] [Fact (W .slots)] [Fact (W .route)] [Fact (W .per)] [Fact (W .links)] [Fact (W .rng)] [Fact (W .rel)] [Fact (W .host)] (h : Keeps P W o s) (a1 a2) : OutKeeps P W o (execEgressDeadline a1 a2 s) := by
  unfold execEgressDeadline
  repeat' first
    | with_reducible assumption
    | with_reducible apply each_keeps
    | with_reducible apply deadline_keeps
    | with_reducible apply ite_keeps <;> intro _
    | with_reducible apply next_keeps
    | with_reducible apply fault_keeps
    | with_reducible apply each_keeps
    | intro _ _ _
    | split

theorem effectWrite_keeps [Fact (W .data)] [Fact (W .engines)] [Fact (W .fences)] [Fact (W .queues)] [Fact (W .route)] [Fact (W .per)] [Fact (W .host)] (h : Keeps P W o s) {a1 : Requester} {a2 : Nat} {a3 : Word} {u : State} (hx : s.effectWrite a1 a2 a3 = some u) :
    Keeps P W o u := by
  unfold State.effectWrite at hx
  extract_lets q at hx
  clear_value q
  split at hx
  · split at hx
    · rw [← Option.some.inj hx]; exact fenceWrite_keeps h _
    · split at hx
      · rw [← Option.some.inj hx]; exact reportQueue_keeps (writeTail_keeps h _ _) _
      · split at hx
        · rw [← Option.some.inj hx]; exact ite_keeps (fun _ => resumeQueue_keeps h _) (fun _ => h)
        · cases hx
  · split at hx
    · rw [← Option.some.inj hx]; exact recSel_keeps h _ _
    · cases hx
  · split at hx
    · rw [← Option.some.inj hx]; exact postH2f_keeps h _ _
    · split at hx
      · rw [← Option.some.inj hx]; exact ackF2h_keeps h _ _
      · split at hx
        · rw [← Option.some.inj hx]
          refine modMbx_keeps h _ ?_
          exact fun _ => ⟨rfl, rfl⟩
        · cases hx
  · split at hx
    · rw [← Option.some.inj hx]; exact cursorHi_keeps h _ _
    · split at hx
      · rw [← Option.some.inj hx]; exact evrCtrl_keeps h _
      · split at hx
        · rw [← Option.some.inj hx]; exact ackHi_keeps h _
        · cases hx
  · split at hx
    · rw [← Option.some.inj hx]; exact progCtrl_keeps h _ _
    · split at hx
      · rw [← Option.some.inj hx]; exact grant_keeps h _
      · split at hx
        · rw [← Option.some.inj hx]; exact gclChange_keeps h _ _
        · cases hx
  · cases hx

theorem execRegisterWrite_keeps [Fact (W .halves)] [Fact (W .data)] [Fact (W .engines)] [Fact (W .fences)] [Fact (W .queues)] [Fact (W .sel)] [Fact (W .route)] [Fact (W .per)] [Fact (W .clk)] [Fact (W .host)] (h : Keeps P W o s) (a1 a2 a3) : OutKeeps P W o (execRegisterWrite a1 a2 a3 s) := by
  unfold execRegisterWrite
  refine next_keeps (ite_keeps (fun _ => badWrite_keeps h) (fun _ => onWrite_keeps h _ _ (fun u hu => ?_)))
  cases hx : u.effectWrite a1 a2 a3 with
  | none => exact plainWrite_keeps hu _ _ _
  | some w => exact effectWrite_keeps hu hx

end Sys2Proof.Machine
end

