-- ==== Sys2Proof/Laws/KeepNetwork.lean ====
section
/-! SUPPORT. What the operations and commands of Machine/Network.lean keep (see Laws/Keep.lean). -/
namespace Sys2Proof.Machine

variable {P : Prop} {W : Part → Prop} {o s t : State}

theorem execCrossingHoldEnd_keeps (h : Keeps P W o s) (a1 a2) : OutKeeps P W o (execCrossingHoldEnd a1 a2 s) := by
  unfold execCrossingHoldEnd
  repeat' first
    | with_reducible assumption
    | with_reducible apply endHold_keeps
    | with_reducible apply bumpBy_keeps
    | with_reducible apply ite_keeps <;> intro _
    | with_reducible apply next_keeps

theorem waveReplay_keeps [Fact (W .engines)] [Fact (W .route)] (h : Keeps P W o s) (a1) : Keeps P W o (State.waveReplay s a1) := by
  unfold State.waveReplay
  repeat' first
    | with_reducible assumption
    | with_reducible apply replay_keeps
    | with_reducible apply ite_keeps <;> intro _

theorem waveUnit_keeps [Fact (W .spad)] [Fact (W .data)] [Fact (W .engines)] [Fact (W .host)] (h : Keeps P W o s) (a1 a2 a3 a4) : Keeps P W o (State.waveUnit s a1 a2 a3 a4) := by
  unfold State.waveUnit
  repeat' first
    | with_reducible assumption
    | with_reducible apply modEng_keeps
    | with_reducible apply bump_keeps
    | with_reducible refine getD_keeps (fun _ hx => takeChecks_keeps ?_ hx) ?_
    | exact takeChecks_keeps (by assumption) ‹_›
    | with_reducible apply setFlit_keeps
    | with_reducible apply copyWrites_keeps
    | with_reducible apply ite_keeps <;> intro _
    | intro _ _ _
    | split
    | dsimp only

theorem execCtlBad_keeps (h : Keeps P W o s) (a1 a2) : OutKeeps P W o (execCtlBad a1 a2 s) := by
  unfold execCtlBad
  repeat' first
    | with_reducible assumption
    | with_reducible apply bump_keeps
    | with_reducible apply ite_keeps <;> intro _
    | with_reducible apply next_keeps

theorem execConveyorWave_keeps [Fact (W .spad)] [Fact (W .data)] [Fact (W .engines)] [Fact (W .route)] [Fact (W .clk)] [Fact (W .rel)] [Fact (W .host)] (h : Keeps P W o s) (a1 a2 a3) : OutKeeps P W o (execConveyorWave a1 a2 a3 s) := by
  unfold execConveyorWave
  repeat' first
    | with_reducible assumption
    | with_reducible apply slip_keeps
    | with_reducible apply setFlit_keeps
    | with_reducible apply modYards_keeps
    | with_reducible apply waveReplay_keeps
    | with_reducible apply waveUnit_keeps
    | with_reducible apply ite_keeps <;> intro _
    | with_reducible apply next_keeps
    | with_reducible apply fault_keeps
    | exact fun _ => ⟨rfl, rfl, rfl⟩
    | intro _ _ _
    | split

end Sys2Proof.Machine
end

