-- ==== Sys2Proof/Laws/KeepSheds.lean ====
section
/-! SUPPORT. What the operations and commands of Machine/Sheds.lean keep (see Laws/Keep.lean). -/
namespace Sys2Proof.Machine

variable {P : Prop} {W : Part → Prop} {o s t : State}

theorem retryWrite_keeps [Fact (W .img)] [Fact (W .hub)] [Fact (W .flash)] [Fact (W .cores)] [Fact (W .engines)] [Fact (W .links)] [Fact (W .rel)] (h : Keeps P W o s) (a1 a2 a3) : Keeps P W o (State.retryWrite s a1 a2 a3) := by
  unfold State.retryWrite
  repeat' first
    | with_reducible assumption
    | with_reducible apply bump_keeps
    | with_reducible apply modShed_keeps
    | with_reducible apply retirePage_keeps
    | with_reducible apply countDevice_keeps
    | with_reducible apply ite_keeps <;> intro _

theorem copyBlock_keeps [Fact (W .data)] (h : Keeps P W o s) (a1 a2) : Keeps P W o (State.copyBlock s a1 a2) := by
  unfold State.copyBlock
  repeat' first
    | with_reducible assumption
    | with_reducible apply modShed_keeps
    | with_reducible apply physWrite_keeps
    | with_reducible apply physSpoil_keeps
    | with_reducible apply ite_keeps <;> intro _
    | with_reducible apply foldl_keeps
    | intro _ _ _

theorem copyBlocks_keeps [Fact (W .data)] (h : Keeps P W o s) (a1 a2) : Keeps P W o (State.copyBlocks s a1 a2) := by
  unfold State.copyBlocks
  repeat' first
    | with_reducible assumption
    | with_reducible apply each_keeps
    | with_reducible apply copyBlock_keeps
    | with_reducible apply each_keeps
    | intro _ _ _

theorem recordRetire_keeps [Fact (W .img)] [Fact (W .hub)] [Fact (W .flash)] (h : Keeps P W o s) (a1) : Keeps P W o (State.recordRetire s a1) := by
  unfold State.recordRetire
  refine recordPatch_keeps h _ _ ?_
  exact ⟨h.flat.topo, h.flat.recs, h.flat.xlat⟩

theorem endRetire_keeps [Fact (W .img)] [Fact (W .hub)] [Fact (W .flash)] [Fact (W .data)] (h : Keeps P W o s) (a1) : Keeps P W o (State.endRetire s a1) :=
  bump_keeps (raise_keeps (recordRetire_keeps (modShed_keeps (copyBlocks_keeps h _ _) _ _) _) _ _ _) _ _ _

theorem execRefresh_keeps (h : Keeps P W o s) (a1) : OutKeeps P W o (execRefresh a1 s) := by
  unfold execRefresh
  repeat' first
    | with_reducible assumption
    | with_reducible apply next_keeps

theorem startRetire_keeps [Fact (W .img)] (h : Keeps P W o s) (a1) : Keeps P W o (State.startRetire s a1) := by
  unfold State.startRetire
  repeat' first
    | with_reducible assumption
    | with_reducible apply modShed_keeps
    | with_reducible apply setXlat_keeps
    | with_reducible apply raise_keeps
    | intro _ _ _
    | split
    | dsimp only

theorem execPageRetireDone_keeps [Fact (W .img)] [Fact (W .hub)] [Fact (W .flash)] [Fact (W .data)] (h : Keeps P W o s) (a1) : OutKeeps P W o (execPageRetireDone a1 s) := by
  unfold execPageRetireDone
  repeat' first
    | with_reducible assumption
    | with_reducible apply endRetire_keeps
    | with_reducible apply ite_keeps <;> intro _
    | with_reducible apply next_keeps

theorem execDeviceCopyOver_keeps (h : Keeps P W o s) (a1) : OutKeeps P W o (execDeviceCopyOver a1 s) := by
  unfold execDeviceCopyOver
  repeat' first
    | with_reducible assumption
    | with_reducible apply modShed_keeps
    | with_reducible apply ite_keeps <;> intro _
    | with_reducible apply next_keeps

theorem execWriteRetry_keeps [Fact (W .img)] [Fact (W .hub)] [Fact (W .flash)] [Fact (W .cores)] [Fact (W .engines)] [Fact (W .route)] [Fact (W .links)] [Fact (W .rel)] (h : Keeps P W o s) (a1 a2 a3) : OutKeeps P W o (execWriteRetry a1 a2 a3 s) := by
  unfold execWriteRetry
  repeat' first
    | with_reducible assumption
    | with_reducible apply retryWrite_keeps
    | with_reducible apply replayFor_keeps
    | with_reducible apply ite_keeps <;> intro _
    | with_reducible apply next_keeps
    | with_reducible apply fault_keeps
    | intro _ _ _
    | split

theorem execSpadCheckReread_keeps [Fact (W .img)] [Fact (W .hub)] [Fact (W .flash)] [Fact (W .cores)] [Fact (W .engines)] [Fact (W .route)] [Fact (W .links)] [Fact (W .rel)] (h : Keeps P W o s) (a1 a2 a3 a4 a5) : OutKeeps P W o (execSpadCheckReread a1 a2 a3 a4 a5 s) := by
  unfold execSpadCheckReread
  repeat' first
    | with_reducible assumption
    | with_reducible apply spadParity_keeps
    | with_reducible apply spadStored_keeps
    | with_reducible apply resolve_keeps
    | with_reducible apply modYards_keeps
    | with_reducible apply spadTransient_keeps
    | with_reducible apply ite_keeps <;> intro _
    | with_reducible apply next_keeps
    | with_reducible apply fault_keeps
    | exact fun _ => ⟨rfl, rfl, rfl⟩
    | intro _ _ _
    | split

theorem execDeviceSwap_keeps [Fact (W .img)] [Fact (W .hub)] [Fact (W .flash)] (h : Keeps P W o s) (a1) : OutKeeps P W o (execDeviceSwap a1 s) := by
  unfold execDeviceSwap
  repeat' first
    | with_reducible assumption
    | with_reducible apply modShed_keeps
    | with_reducible apply spareDevice_keeps
    | with_reducible apply ite_keeps <;> intro _
    | with_reducible apply next_keeps
    | with_reducible apply fault_keeps
    | intro _ _ _
    | split

theorem execMemCheckReread_keeps [Fact (W .img)] [Fact (W .hub)] [Fact (W .flash)] [Fact (W .cores)] [Fact (W .engines)] [Fact (W .route)] [Fact (W .links)] [Fact (W .rel)] (h : Keeps P W o s) (a1 a2 a3 a4 a5) : OutKeeps P W o (execMemCheckReread a1 a2 a3 a4 a5 s) := by
  unfold execMemCheckReread
  repeat' first
    | with_reducible assumption
    | with_reducible apply bump_keeps
    | with_reducible apply modShed_keeps
    | with_reducible apply resolve_keeps
    | with_reducible apply blockParity_keeps
    | with_reducible apply memStored_keeps
    | with_reducible apply countDevice_keeps
    | with_reducible apply replayFor_keeps
    | with_reducible apply ite_keeps <;> intro _
    | with_reducible apply next_keeps
    | with_reducible apply fault_keeps
    | intro _ _ _
    | split

theorem execPageRetire_keeps [Fact (W .img)] [Fact (W .data)] (h : Keeps P W o s) (a1) : OutKeeps P W o (execPageRetire a1 s) := by
  unfold execPageRetire
  repeat' first
    | with_reducible assumption
    | with_reducible apply startRetire_keeps
    | with_reducible apply copyBlock_keeps
    | with_reducible apply ite_keeps <;> intro _
    | with_reducible apply next_keeps
    | with_reducible apply fault_keeps
    | intro _ _ _
    | split

end Sys2Proof.Machine
end

