-- ==== Sys2Proof/Laws/KeepTick.lean ====
section
/-! SUPPORT. What the operations and commands of Machine/Tick.lean keep (see Laws/Keep.lean). -/
namespace Sys2Proof.Machine

variable {P : Prop} {W : Part → Prop} {o s t : State}

theorem tickFires_keeps (h : Keeps P W o s) : Keeps P W o (State.tickFires s) := by
  unfold State.tickFires
  repeat' first
    | with_reducible assumption
    | with_reducible apply each_keeps
    | with_reducible apply bumpBy_keeps
    | with_reducible apply ite_keeps <;> intro _
    | with_reducible apply each_keeps
    | intro _ _ _

theorem tickRng_keeps (h : Keeps P W o s) : Keeps P W o (State.tickRng s) := by
  unfold State.tickRng
  repeat' first
    | with_reducible assumption
    | with_reducible apply bump_keeps
    | with_reducible apply ite_keeps <;> intro _

theorem tickQueues_keeps (h : Keeps P W o s) : Keeps P W o (State.tickQueues s) := by
  unfold State.tickQueues
  repeat' first
    | with_reducible assumption
    | with_reducible apply bump_keeps
    | with_reducible apply each_keeps
    | with_reducible apply each_keeps
    | intro _ _ _

theorem tickEngine_keeps (h : Keeps P W o s) (a1) : Keeps P W o (State.tickEngine s a1) := by
  unfold State.tickEngine
  repeat' first
    | with_reducible assumption
    | with_reducible apply bump_keeps
    | with_reducible apply ite_keeps <;> intro _
    | intro _ _ _
    | split

theorem tick_keeps [Fact (W .img)] [Fact (W .hub)] [Fact (W .flash)] [Fact (W .halves)] [Fact (W .cores)] [Fact (W .spad)] [Fact (W .data)] [Fact (W .engines)] [Fact (W .per)] [Fact (W .links)] [Fact (W .rel)] [Fact (W .hclk)] (h : Keeps P W o s) : Keeps P W o (State.tick s) := by
  unfold State.tick
  extract_lets s1 s2 s3
  have h1 : Keeps P W o s1 :=
    ite_keeps (fun _ => traceWrite_keeps (askDelay_keeps (tickFires_keeps (tickRng_keeps (tickQueues_keeps (each_keeps _ _ (fun _ _ hu => tickEngine_keeps hu _) h))))))
      (fun _ => h)
  clear_value s1
  have h2 : Keeps P W o s2 := ite_keeps (fun _ => takeFull_keeps h1) (fun _ => h1)
  clear_value s2
  have h3 : Keeps P W o s3 := ite_keeps (fun _ => each_keeps _ _ (fun _ _ hu => linkSlot_keeps hu _) h2) (fun _ => h2)
  exact pfailTick_keeps (pass_keeps h3 1)

end Sys2Proof.Machine
end

