-- ==== Sys2Proof/Laws/KeepExec.lean ====
section
/-! SUPPORT. What no command takes back and what it leaves alone: the parts of `Keeps` hold of every command, those under `P` of every
command but MRST_PULSE. -/
namespace Sys2Proof.Machine

/-- Every command keeps what `Keeps` says; MRST_PULSE what it says without its premise. -/
theorem exec_keeps {P : Prop} {s : State} (c : Instr) (h : Flat s) (hP : ∀ ns, c = .mrstPulse ns → ¬P) :
    OutKeeps P (May c) s (exec c s) := by
  cases c with
  | tensor eng plan =>
    have : Fact (May (.tensor eng plan) .img) := ⟨rfl⟩
    have : Fact (May (.tensor eng plan) .hub) := ⟨rfl⟩
    have : Fact (May (.tensor eng plan) .flash) := ⟨rfl⟩
    have : Fact (May (.tensor eng plan) .halves) := ⟨rfl⟩
    have : Fact (May (.tensor eng plan) .cores) := ⟨rfl⟩
    have : Fact (May (.tensor eng plan) .spad) := ⟨rfl⟩
    have : Fact (May (.tensor eng plan) .data) := ⟨rfl⟩
    have : Fact (May (.tensor eng plan) .engines) := ⟨rfl⟩
    have : Fact (May (.tensor eng plan) .queues) := ⟨rfl⟩
    have : Fact (May (.tensor eng plan) .slots) := ⟨rfl⟩
    have : Fact (May (.tensor eng plan) .route) := ⟨rfl⟩
    have : Fact (May (.tensor eng plan) .per) := ⟨rfl⟩
    have : Fact (May (.tensor eng plan) .links) := ⟨rfl⟩
    have : Fact (May (.tensor eng plan) .clk) := ⟨rfl⟩
    have : Fact (May (.tensor eng plan) .rel) := ⟨rfl⟩
    have : Fact (May (.tensor eng plan) .host) := ⟨rfl⟩
    exact execTensor_keeps (Keeps.rfl' h) eng plan
  | anneal eng faults =>
    have : Fact (May (.anneal eng faults) .img) := ⟨rfl⟩
    have : Fact (May (.anneal eng faults) .hub) := ⟨rfl⟩
    have : Fact (May (.anneal eng faults) .flash) := ⟨rfl⟩
    have : Fact (May (.anneal eng faults) .halves) := ⟨rfl⟩
    have : Fact (May (.anneal eng faults) .cores) := ⟨rfl⟩
    have : Fact (May (.anneal eng faults) .spad) := ⟨rfl⟩
    have : Fact (May (.anneal eng faults) .data) := ⟨rfl⟩
    have : Fact (May (.anneal eng faults) .engines) := ⟨rfl⟩
    have : Fact (May (.anneal eng faults) .queues) := ⟨rfl⟩
    have : Fact (May (.anneal eng faults) .slots) := ⟨rfl⟩
    have : Fact (May (.anneal eng faults) .route) := ⟨rfl⟩
    have : Fact (May (.anneal eng faults) .per) := ⟨rfl⟩
    have : Fact (May (.anneal eng faults) .links) := ⟨rfl⟩
    have : Fact (May (.anneal eng faults) .rel) := ⟨rfl⟩
    have : Fact (May (.anneal eng faults) .host) := ⟨rfl⟩
    exact execAnneal_keeps (Keeps.rfl' h) eng faults
  | rotate eng faults =>
    have : Fact (May (.rotate eng faults) .img) := ⟨rfl⟩
    have : Fact (May (.rotate eng faults) .hub) := ⟨rfl⟩
    have : Fact (May (.rotate eng faults) .flash) := ⟨rfl⟩
    have : Fact (May (.rotate eng faults) .halves) := ⟨rfl⟩
    have : Fact (May (.rotate eng faults) .cores) := ⟨rfl⟩
    have : Fact (May (.rotate eng faults) .spad) := ⟨rfl⟩
    have : Fact (May (.rotate eng faults) .data) := ⟨rfl⟩
    have : Fact (May (.rotate eng faults) .engines) := ⟨rfl⟩
    have : Fact (May (.rotate eng faults) .queues) := ⟨rfl⟩
    have : Fact (May (.rotate eng faults) .slots) := ⟨rfl⟩
    have : Fact (May (.rotate eng faults) .route) := ⟨rfl⟩
    have : Fact (May (.rotate eng faults) .per) := ⟨rfl⟩
    have : Fact (May (.rotate eng faults) .links) := ⟨rfl⟩
    have : Fact (May (.rotate eng faults) .rel) := ⟨rfl⟩
    have : Fact (May (.rotate eng faults) .host) := ⟨rfl⟩
    exact execRotate_keeps (Keeps.rfl' h) eng faults
  | snapshot eng atOp =>
    have : Fact (May (.snapshot eng atOp) .img) := ⟨rfl⟩
    have : Fact (May (.snapshot eng atOp) .hub) := ⟨rfl⟩
    have : Fact (May (.snapshot eng atOp) .flash) := ⟨rfl⟩
    have : Fact (May (.snapshot eng atOp) .halves) := ⟨rfl⟩
    have : Fact (May (.snapshot eng atOp) .cores) := ⟨rfl⟩
    have : Fact (May (.snapshot eng atOp) .spad) := ⟨rfl⟩
    have : Fact (May (.snapshot eng atOp) .data) := ⟨rfl⟩
    have : Fact (May (.snapshot eng atOp) .engines) := ⟨rfl⟩
    have : Fact (May (.snapshot eng atOp) .queues) := ⟨rfl⟩
    have : Fact (May (.snapshot eng atOp) .slots) := ⟨rfl⟩
    have : Fact (May (.snapshot eng atOp) .route) := ⟨rfl⟩
    have : Fact (May (.snapshot eng atOp) .per) := ⟨rfl⟩
    have : Fact (May (.snapshot eng atOp) .links) := ⟨rfl⟩
    have : Fact (May (.snapshot eng atOp) .rel) := ⟨rfl⟩
    have : Fact (May (.snapshot eng atOp) .host) := ⟨rfl⟩
    exact execSnapshot_keeps (Keeps.rfl' h) eng atOp
  | resume eng faults =>
    have : Fact (May (.resume eng faults) .img) := ⟨rfl⟩
    have : Fact (May (.resume eng faults) .hub) := ⟨rfl⟩
    have : Fact (May (.resume eng faults) .flash) := ⟨rfl⟩
    have : Fact (May (.resume eng faults) .halves) := ⟨rfl⟩
    have : Fact (May (.resume eng faults) .cores) := ⟨rfl⟩
    have : Fact (May (.resume eng faults) .spad) := ⟨rfl⟩
    have : Fact (May (.resume eng faults) .data) := ⟨rfl⟩
    have : Fact (May (.resume eng faults) .engines) := ⟨rfl⟩
    have : Fact (May (.resume eng faults) .queues) := ⟨rfl⟩
    have : Fact (May (.resume eng faults) .slots) := ⟨rfl⟩
    have : Fact (May (.resume eng faults) .route) := ⟨rfl⟩
    have : Fact (May (.resume eng faults) .per) := ⟨rfl⟩
    have : Fact (May (.resume eng faults) .links) := ⟨rfl⟩
    have : Fact (May (.resume eng faults) .rel) := ⟨rfl⟩
    have : Fact (May (.resume eng faults) .host) := ⟨rfl⟩
    exact execResume_keeps (Keeps.rfl' h) eng faults
  | moveCopy eng =>
    have : Fact (May (.moveCopy eng) .img) := ⟨rfl⟩
    have : Fact (May (.moveCopy eng) .halves) := ⟨rfl⟩
    have : Fact (May (.moveCopy eng) .cores) := ⟨rfl⟩
    have : Fact (May (.moveCopy eng) .spad) := ⟨rfl⟩
    have : Fact (May (.moveCopy eng) .data) := ⟨rfl⟩
    have : Fact (May (.moveCopy eng) .engines) := ⟨rfl⟩
    have : Fact (May (.moveCopy eng) .queues) := ⟨rfl⟩
    have : Fact (May (.moveCopy eng) .slots) := ⟨rfl⟩
    have : Fact (May (.moveCopy eng) .route) := ⟨rfl⟩
    have : Fact (May (.moveCopy eng) .per) := ⟨rfl⟩
    have : Fact (May (.moveCopy eng) .host) := ⟨rfl⟩
    exact execMoveCopy_keeps (Keeps.rfl' h) eng
  | moveSpinpack eng =>
    have : Fact (May (.moveSpinpack eng) .img) := ⟨rfl⟩
    have : Fact (May (.moveSpinpack eng) .halves) := ⟨rfl⟩
    have : Fact (May (.moveSpinpack eng) .cores) := ⟨rfl⟩
    have : Fact (May (.moveSpinpack eng) .data) := ⟨rfl⟩
    have : Fact (May (.moveSpinpack eng) .engines) := ⟨rfl⟩
    have : Fact (May (.moveSpinpack eng) .queues) := ⟨rfl⟩
    have : Fact (May (.moveSpinpack eng) .slots) := ⟨rfl⟩
    have : Fact (May (.moveSpinpack eng) .per) := ⟨rfl⟩
    have : Fact (May (.moveSpinpack eng) .host) := ⟨rfl⟩
    exact execMoveSpinpack_keeps (Keeps.rfl' h) eng
  | route arrival =>
    have : Fact (May (.route arrival) .img) := ⟨rfl⟩
    have : Fact (May (.route arrival) .halves) := ⟨rfl⟩
    have : Fact (May (.route arrival) .cores) := ⟨rfl⟩
    have : Fact (May (.route arrival) .spad) := ⟨rfl⟩
    have : Fact (May (.route arrival) .data) := ⟨rfl⟩
    have : Fact (May (.route arrival) .engines) := ⟨rfl⟩
    have : Fact (May (.route arrival) .fences) := ⟨rfl⟩
    have : Fact (May (.route arrival) .queues) := ⟨rfl⟩
    have : Fact (May (.route arrival) .slots) := ⟨rfl⟩
    have : Fact (May (.route arrival) .route) := ⟨rfl⟩
    have : Fact (May (.route arrival) .per) := ⟨rfl⟩
    have : Fact (May (.route arrival) .host) := ⟨rfl⟩
    exact execRoute_keeps (Keeps.rfl' h) arrival
  | combine =>
    have : Fact (May (.combine) .img) := ⟨rfl⟩
    have : Fact (May (.combine) .halves) := ⟨rfl⟩
    have : Fact (May (.combine) .cores) := ⟨rfl⟩
    have : Fact (May (.combine) .spad) := ⟨rfl⟩
    have : Fact (May (.combine) .data) := ⟨rfl⟩
    have : Fact (May (.combine) .engines) := ⟨rfl⟩
    have : Fact (May (.combine) .queues) := ⟨rfl⟩
    have : Fact (May (.combine) .slots) := ⟨rfl⟩
    have : Fact (May (.combine) .route) := ⟨rfl⟩
    have : Fact (May (.combine) .per) := ⟨rfl⟩
    have : Fact (May (.combine) .host) := ⟨rfl⟩
    exact execCombine_keeps (Keeps.rfl' h)
  | reduceCompute eng remote =>
    have : Fact (May (.reduceCompute eng remote) .img) := ⟨rfl⟩
    have : Fact (May (.reduceCompute eng remote) .halves) := ⟨rfl⟩
    have : Fact (May (.reduceCompute eng remote) .spad) := ⟨rfl⟩
    have : Fact (May (.reduceCompute eng remote) .data) := ⟨rfl⟩
    have : Fact (May (.reduceCompute eng remote) .engines) := ⟨rfl⟩
    have : Fact (May (.reduceCompute eng remote) .queues) := ⟨rfl⟩
    have : Fact (May (.reduceCompute eng remote) .slots) := ⟨rfl⟩
    have : Fact (May (.reduceCompute eng remote) .per) := ⟨rfl⟩
    have : Fact (May (.reduceCompute eng remote) .host) := ⟨rfl⟩
    exact execReduceCompute_keeps (Keeps.rfl' h) eng remote
  | reduceNode eng mesh =>
    have : Fact (May (.reduceNode eng mesh) .img) := ⟨rfl⟩
    have : Fact (May (.reduceNode eng mesh) .halves) := ⟨rfl⟩
    have : Fact (May (.reduceNode eng mesh) .cores) := ⟨rfl⟩
    have : Fact (May (.reduceNode eng mesh) .spad) := ⟨rfl⟩
    have : Fact (May (.reduceNode eng mesh) .data) := ⟨rfl⟩
    have : Fact (May (.reduceNode eng mesh) .engines) := ⟨rfl⟩
    have : Fact (May (.reduceNode eng mesh) .queues) := ⟨rfl⟩
    have : Fact (May (.reduceNode eng mesh) .slots) := ⟨rfl⟩
    have : Fact (May (.reduceNode eng mesh) .route) := ⟨rfl⟩
    have : Fact (May (.reduceNode eng mesh) .per) := ⟨rfl⟩
    have : Fact (May (.reduceNode eng mesh) .links) := ⟨rfl⟩
    have : Fact (May (.reduceNode eng mesh) .host) := ⟨rfl⟩
    exact execReduceNode_keeps (Keeps.rfl' h) eng mesh
  | reduceOpen eng =>
    have : Fact (May (.reduceOpen eng) .img) := ⟨rfl⟩
    have : Fact (May (.reduceOpen eng) .halves) := ⟨rfl⟩
    have : Fact (May (.reduceOpen eng) .cores) := ⟨rfl⟩
    have : Fact (May (.reduceOpen eng) .spad) := ⟨rfl⟩
    have : Fact (May (.reduceOpen eng) .data) := ⟨rfl⟩
    have : Fact (May (.reduceOpen eng) .engines) := ⟨rfl⟩
    have : Fact (May (.reduceOpen eng) .queues) := ⟨rfl⟩
    have : Fact (May (.reduceOpen eng) .slots) := ⟨rfl⟩
    have : Fact (May (.reduceOpen eng) .route) := ⟨rfl⟩
    have : Fact (May (.reduceOpen eng) .per) := ⟨rfl⟩
    have : Fact (May (.reduceOpen eng) .links) := ⟨rfl⟩
    have : Fact (May (.reduceOpen eng) .host) := ⟨rfl⟩
    exact execReduceOpen_keeps (Keeps.rfl' h) eng
  | reduceClose eng =>
    have : Fact (May (.reduceClose eng) .img) := ⟨rfl⟩
    have : Fact (May (.reduceClose eng) .halves) := ⟨rfl⟩
    have : Fact (May (.reduceClose eng) .cores) := ⟨rfl⟩
    have : Fact (May (.reduceClose eng) .spad) := ⟨rfl⟩
    have : Fact (May (.reduceClose eng) .data) := ⟨rfl⟩
    have : Fact (May (.reduceClose eng) .engines) := ⟨rfl⟩
    have : Fact (May (.reduceClose eng) .queues) := ⟨rfl⟩
    have : Fact (May (.reduceClose eng) .slots) := ⟨rfl⟩
    have : Fact (May (.reduceClose eng) .route) := ⟨rfl⟩
    have : Fact (May (.reduceClose eng) .per) := ⟨rfl⟩
    have : Fact (May (.reduceClose eng) .links) := ⟨rfl⟩
    have : Fact (May (.reduceClose eng) .host) := ⟨rfl⟩
    exact execReduceClose_keeps (Keeps.rfl' h) eng
  | reduceSend eng =>
    have : Fact (May (.reduceSend eng) .img) := ⟨rfl⟩
    have : Fact (May (.reduceSend eng) .halves) := ⟨rfl⟩
    have : Fact (May (.reduceSend eng) .cores) := ⟨rfl⟩
    have : Fact (May (.reduceSend eng) .spad) := ⟨rfl⟩
    have : Fact (May (.reduceSend eng) .data) := ⟨rfl⟩
    have : Fact (May (.reduceSend eng) .engines) := ⟨rfl⟩
    have : Fact (May (.reduceSend eng) .queues) := ⟨rfl⟩
    have : Fact (May (.reduceSend eng) .slots) := ⟨rfl⟩
    have : Fact (May (.reduceSend eng) .route) := ⟨rfl⟩
    have : Fact (May (.reduceSend eng) .per) := ⟨rfl⟩
    have : Fact (May (.reduceSend eng) .links) := ⟨rfl⟩
    have : Fact (May (.reduceSend eng) .host) := ⟨rfl⟩
    exact execReduceSend_keeps (Keeps.rfl' h) eng
  | fenceSignalAdd eng =>
    have : Fact (May (.fenceSignalAdd eng) .img) := ⟨rfl⟩
    have : Fact (May (.fenceSignalAdd eng) .halves) := ⟨rfl⟩
    have : Fact (May (.fenceSignalAdd eng) .cores) := ⟨rfl⟩
    have : Fact (May (.fenceSignalAdd eng) .spad) := ⟨rfl⟩
    have : Fact (May (.fenceSignalAdd eng) .data) := ⟨rfl⟩
    have : Fact (May (.fenceSignalAdd eng) .engines) := ⟨rfl⟩
    have : Fact (May (.fenceSignalAdd eng) .fences) := ⟨rfl⟩
    have : Fact (May (.fenceSignalAdd eng) .queues) := ⟨rfl⟩
    have : Fact (May (.fenceSignalAdd eng) .slots) := ⟨rfl⟩
    have : Fact (May (.fenceSignalAdd eng) .route) := ⟨rfl⟩
    have : Fact (May (.fenceSignalAdd eng) .per) := ⟨rfl⟩
    have : Fact (May (.fenceSignalAdd eng) .host) := ⟨rfl⟩
    exact execFenceSignalAdd_keeps (Keeps.rfl' h) eng
  | fenceSignalMax eng =>
    have : Fact (May (.fenceSignalMax eng) .img) := ⟨rfl⟩
    have : Fact (May (.fenceSignalMax eng) .halves) := ⟨rfl⟩
    have : Fact (May (.fenceSignalMax eng) .cores) := ⟨rfl⟩
    have : Fact (May (.fenceSignalMax eng) .spad) := ⟨rfl⟩
    have : Fact (May (.fenceSignalMax eng) .data) := ⟨rfl⟩
    have : Fact (May (.fenceSignalMax eng) .engines) := ⟨rfl⟩
    have : Fact (May (.fenceSignalMax eng) .fences) := ⟨rfl⟩
    have : Fact (May (.fenceSignalMax eng) .queues) := ⟨rfl⟩
    have : Fact (May (.fenceSignalMax eng) .slots) := ⟨rfl⟩
    have : Fact (May (.fenceSignalMax eng) .route) := ⟨rfl⟩
    have : Fact (May (.fenceSignalMax eng) .per) := ⟨rfl⟩
    have : Fact (May (.fenceSignalMax eng) .host) := ⟨rfl⟩
    exact execFenceSignalMax_keeps (Keeps.rfl' h) eng
  | fenceWait eng =>
    have : Fact (May (.fenceWait eng) .img) := ⟨rfl⟩
    have : Fact (May (.fenceWait eng) .halves) := ⟨rfl⟩
    have : Fact (May (.fenceWait eng) .cores) := ⟨rfl⟩
    have : Fact (May (.fenceWait eng) .spad) := ⟨rfl⟩
    have : Fact (May (.fenceWait eng) .data) := ⟨rfl⟩
    have : Fact (May (.fenceWait eng) .engines) := ⟨rfl⟩
    have : Fact (May (.fenceWait eng) .queues) := ⟨rfl⟩
    have : Fact (May (.fenceWait eng) .slots) := ⟨rfl⟩
    have : Fact (May (.fenceWait eng) .route) := ⟨rfl⟩
    have : Fact (May (.fenceWait eng) .per) := ⟨rfl⟩
    have : Fact (May (.fenceWait eng) .host) := ⟨rfl⟩
    exact execFenceWait_keeps (Keeps.rfl' h) eng
  | chain eng =>
    have : Fact (May (.chain eng) .img) := ⟨rfl⟩
    have : Fact (May (.chain eng) .halves) := ⟨rfl⟩
    have : Fact (May (.chain eng) .cores) := ⟨rfl⟩
    have : Fact (May (.chain eng) .spad) := ⟨rfl⟩
    have : Fact (May (.chain eng) .data) := ⟨rfl⟩
    have : Fact (May (.chain eng) .engines) := ⟨rfl⟩
    have : Fact (May (.chain eng) .queues) := ⟨rfl⟩
    have : Fact (May (.chain eng) .slots) := ⟨rfl⟩
    have : Fact (May (.chain eng) .route) := ⟨rfl⟩
    have : Fact (May (.chain eng) .per) := ⟨rfl⟩
    have : Fact (May (.chain eng) .host) := ⟨rfl⟩
    exact execChain_keeps (Keeps.rfl' h) eng
  | nop eng =>
    have : Fact (May (.nop eng) .img) := ⟨rfl⟩
    have : Fact (May (.nop eng) .halves) := ⟨rfl⟩
    have : Fact (May (.nop eng) .cores) := ⟨rfl⟩
    have : Fact (May (.nop eng) .spad) := ⟨rfl⟩
    have : Fact (May (.nop eng) .data) := ⟨rfl⟩
    have : Fact (May (.nop eng) .engines) := ⟨rfl⟩
    have : Fact (May (.nop eng) .queues) := ⟨rfl⟩
    have : Fact (May (.nop eng) .slots) := ⟨rfl⟩
    have : Fact (May (.nop eng) .route) := ⟨rfl⟩
    have : Fact (May (.nop eng) .per) := ⟨rfl⟩
    have : Fact (May (.nop eng) .host) := ⟨rfl⟩
    exact execNop_keeps (Keeps.rfl' h) eng
  | patch =>
    have : Fact (May (.patch) .img) := ⟨rfl⟩
    have : Fact (May (.patch) .hub) := ⟨rfl⟩
    have : Fact (May (.patch) .flash) := ⟨rfl⟩
    have : Fact (May (.patch) .halves) := ⟨rfl⟩
    have : Fact (May (.patch) .cores) := ⟨rfl⟩
    have : Fact (May (.patch) .spad) := ⟨rfl⟩
    have : Fact (May (.patch) .data) := ⟨rfl⟩
    have : Fact (May (.patch) .engines) := ⟨rfl⟩
    have : Fact (May (.patch) .queues) := ⟨rfl⟩
    have : Fact (May (.patch) .slots) := ⟨rfl⟩
    have : Fact (May (.patch) .per) := ⟨rfl⟩
    have : Fact (May (.patch) .links) := ⟨rfl⟩
    have : Fact (May (.patch) .rel) := ⟨rfl⟩
    have : Fact (May (.patch) .host) := ⟨rfl⟩
    exact execPatch_keeps (Keeps.rfl' h)
  | repairHalter =>
    have : Fact (May (.repairHalter) .img) := ⟨rfl⟩
    have : Fact (May (.repairHalter) .hub) := ⟨rfl⟩
    have : Fact (May (.repairHalter) .flash) := ⟨rfl⟩
    have : Fact (May (.repairHalter) .cores) := ⟨rfl⟩
    have : Fact (May (.repairHalter) .data) := ⟨rfl⟩
    have : Fact (May (.repairHalter) .engines) := ⟨rfl⟩
    have : Fact (May (.repairHalter) .queues) := ⟨rfl⟩
    have : Fact (May (.repairHalter) .slots) := ⟨rfl⟩
    have : Fact (May (.repairHalter) .per) := ⟨rfl⟩
    have : Fact (May (.repairHalter) .rel) := ⟨rfl⟩
    have : Fact (May (.repairHalter) .host) := ⟨rfl⟩
    exact execRepairHalter_keeps (Keeps.rfl' h)
  | repairColumn =>
    have : Fact (May (.repairColumn) .img) := ⟨rfl⟩
    have : Fact (May (.repairColumn) .hub) := ⟨rfl⟩
    have : Fact (May (.repairColumn) .flash) := ⟨rfl⟩
    have : Fact (May (.repairColumn) .cores) := ⟨rfl⟩
    have : Fact (May (.repairColumn) .data) := ⟨rfl⟩
    have : Fact (May (.repairColumn) .engines) := ⟨rfl⟩
    have : Fact (May (.repairColumn) .queues) := ⟨rfl⟩
    have : Fact (May (.repairColumn) .slots) := ⟨rfl⟩
    have : Fact (May (.repairColumn) .per) := ⟨rfl⟩
    have : Fact (May (.repairColumn) .rel) := ⟨rfl⟩
    have : Fact (May (.repairColumn) .host) := ⟨rfl⟩
    exact execRepairColumn_keeps (Keeps.rfl' h)
  | repairRow =>
    have : Fact (May (.repairRow) .img) := ⟨rfl⟩
    have : Fact (May (.repairRow) .hub) := ⟨rfl⟩
    have : Fact (May (.repairRow) .flash) := ⟨rfl⟩
    have : Fact (May (.repairRow) .cores) := ⟨rfl⟩
    have : Fact (May (.repairRow) .data) := ⟨rfl⟩
    have : Fact (May (.repairRow) .engines) := ⟨rfl⟩
    have : Fact (May (.repairRow) .queues) := ⟨rfl⟩
    have : Fact (May (.repairRow) .slots) := ⟨rfl⟩
    have : Fact (May (.repairRow) .per) := ⟨rfl⟩
    have : Fact (May (.repairRow) .rel) := ⟨rfl⟩
    have : Fact (May (.repairRow) .host) := ⟨rfl⟩
    exact execRepairRow_keeps (Keeps.rfl' h)
  | marchDestructive found =>
    have : Fact (May (.marchDestructive found) .img) := ⟨rfl⟩
    have : Fact (May (.marchDestructive found) .hub) := ⟨rfl⟩
    have : Fact (May (.marchDestructive found) .flash) := ⟨rfl⟩
    have : Fact (May (.marchDestructive found) .halves) := ⟨rfl⟩
    have : Fact (May (.marchDestructive found) .cores) := ⟨rfl⟩
    have : Fact (May (.marchDestructive found) .spad) := ⟨rfl⟩
    have : Fact (May (.marchDestructive found) .data) := ⟨rfl⟩
    have : Fact (May (.marchDestructive found) .engines) := ⟨rfl⟩
    have : Fact (May (.marchDestructive found) .queues) := ⟨rfl⟩
    have : Fact (May (.marchDestructive found) .slots) := ⟨rfl⟩
    have : Fact (May (.marchDestructive found) .per) := ⟨rfl⟩
    have : Fact (May (.marchDestructive found) .rel) := ⟨rfl⟩
    have : Fact (May (.marchDestructive found) .host) := ⟨rfl⟩
    exact execMarchDestructive_keeps (Keeps.rfl' h) found
  | marchPreserving found =>
    have : Fact (May (.marchPreserving found) .img) := ⟨rfl⟩
    have : Fact (May (.marchPreserving found) .hub) := ⟨rfl⟩
    have : Fact (May (.marchPreserving found) .flash) := ⟨rfl⟩
    have : Fact (May (.marchPreserving found) .halves) := ⟨rfl⟩
    have : Fact (May (.marchPreserving found) .cores) := ⟨rfl⟩
    have : Fact (May (.marchPreserving found) .spad) := ⟨rfl⟩
    have : Fact (May (.marchPreserving found) .data) := ⟨rfl⟩
    have : Fact (May (.marchPreserving found) .engines) := ⟨rfl⟩
    have : Fact (May (.marchPreserving found) .queues) := ⟨rfl⟩
    have : Fact (May (.marchPreserving found) .slots) := ⟨rfl⟩
    have : Fact (May (.marchPreserving found) .per) := ⟨rfl⟩
    have : Fact (May (.marchPreserving found) .rel) := ⟨rfl⟩
    have : Fact (May (.marchPreserving found) .host) := ⟨rfl⟩
    exact execMarchPreserving_keeps (Keeps.rfl' h) found
  | clkmode facts =>
    have : Fact (May (.clkmode facts) .img) := ⟨rfl⟩
    have : Fact (May (.clkmode facts) .halves) := ⟨rfl⟩
    have : Fact (May (.clkmode facts) .data) := ⟨rfl⟩
    have : Fact (May (.clkmode facts) .engines) := ⟨rfl⟩
    have : Fact (May (.clkmode facts) .queues) := ⟨rfl⟩
    have : Fact (May (.clkmode facts) .slots) := ⟨rfl⟩
    have : Fact (May (.clkmode facts) .per) := ⟨rfl⟩
    have : Fact (May (.clkmode facts) .clk) := ⟨rfl⟩
    have : Fact (May (.clkmode facts) .rel) := ⟨rfl⟩
    have : Fact (May (.clkmode facts) .host) := ⟨rfl⟩
    exact execClkmode_keeps (Keeps.rfl' h) facts
  | rngctlReseed =>
    have : Fact (May (.rngctlReseed) .img) := ⟨rfl⟩
    have : Fact (May (.rngctlReseed) .data) := ⟨rfl⟩
    have : Fact (May (.rngctlReseed) .engines) := ⟨rfl⟩
    have : Fact (May (.rngctlReseed) .queues) := ⟨rfl⟩
    have : Fact (May (.rngctlReseed) .slots) := ⟨rfl⟩
    have : Fact (May (.rngctlReseed) .per) := ⟨rfl⟩
    have : Fact (May (.rngctlReseed) .rng) := ⟨rfl⟩
    have : Fact (May (.rngctlReseed) .host) := ⟨rfl⟩
    exact execRngctlReseed_keeps (Keeps.rfl' h)
  | rngctlRestart katFail blocks =>
    have : Fact (May (.rngctlRestart katFail blocks) .img) := ⟨rfl⟩
    have : Fact (May (.rngctlRestart katFail blocks) .halves) := ⟨rfl⟩
    have : Fact (May (.rngctlRestart katFail blocks) .data) := ⟨rfl⟩
    have : Fact (May (.rngctlRestart katFail blocks) .engines) := ⟨rfl⟩
    have : Fact (May (.rngctlRestart katFail blocks) .queues) := ⟨rfl⟩
    have : Fact (May (.rngctlRestart katFail blocks) .slots) := ⟨rfl⟩
    have : Fact (May (.rngctlRestart katFail blocks) .per) := ⟨rfl⟩
    have : Fact (May (.rngctlRestart katFail blocks) .rng) := ⟨rfl⟩
    have : Fact (May (.rngctlRestart katFail blocks) .host) := ⟨rfl⟩
    exact execRngctlRestart_keeps (Keeps.rfl' h) katFail blocks
  | rngctlPattern =>
    have : Fact (May (.rngctlPattern) .img) := ⟨rfl⟩
    have : Fact (May (.rngctlPattern) .halves) := ⟨rfl⟩
    have : Fact (May (.rngctlPattern) .data) := ⟨rfl⟩
    have : Fact (May (.rngctlPattern) .engines) := ⟨rfl⟩
    have : Fact (May (.rngctlPattern) .queues) := ⟨rfl⟩
    have : Fact (May (.rngctlPattern) .slots) := ⟨rfl⟩
    have : Fact (May (.rngctlPattern) .per) := ⟨rfl⟩
    have : Fact (May (.rngctlPattern) .rng) := ⟨rfl⟩
    have : Fact (May (.rngctlPattern) .host) := ⟨rfl⟩
    exact execRngctlPattern_keeps (Keeps.rfl' h)
  | rngctlPatternOff katFail blocks =>
    have : Fact (May (.rngctlPatternOff katFail blocks) .img) := ⟨rfl⟩
    have : Fact (May (.rngctlPatternOff katFail blocks) .halves) := ⟨rfl⟩
    have : Fact (May (.rngctlPatternOff katFail blocks) .data) := ⟨rfl⟩
    have : Fact (May (.rngctlPatternOff katFail blocks) .engines) := ⟨rfl⟩
    have : Fact (May (.rngctlPatternOff katFail blocks) .queues) := ⟨rfl⟩
    have : Fact (May (.rngctlPatternOff katFail blocks) .slots) := ⟨rfl⟩
    have : Fact (May (.rngctlPatternOff katFail blocks) .per) := ⟨rfl⟩
    have : Fact (May (.rngctlPatternOff katFail blocks) .rng) := ⟨rfl⟩
    have : Fact (May (.rngctlPatternOff katFail blocks) .host) := ⟨rfl⟩
    exact execRngctlPatternOff_keeps (Keeps.rfl' h) katFail blocks
  | retainToRun =>
    have : Fact (May (.retainToRun) .img) := ⟨rfl⟩
    have : Fact (May (.retainToRun) .halves) := ⟨rfl⟩
    have : Fact (May (.retainToRun) .spad) := ⟨rfl⟩
    have : Fact (May (.retainToRun) .data) := ⟨rfl⟩
    have : Fact (May (.retainToRun) .engines) := ⟨rfl⟩
    have : Fact (May (.retainToRun) .queues) := ⟨rfl⟩
    have : Fact (May (.retainToRun) .slots) := ⟨rfl⟩
    have : Fact (May (.retainToRun) .per) := ⟨rfl⟩
    have : Fact (May (.retainToRun) .host) := ⟨rfl⟩
    exact execRetainToRun_keeps (Keeps.rfl' h)
  | retainToRetain =>
    have : Fact (May (.retainToRetain) .img) := ⟨rfl⟩
    have : Fact (May (.retainToRetain) .halves) := ⟨rfl⟩
    have : Fact (May (.retainToRetain) .cores) := ⟨rfl⟩
    have : Fact (May (.retainToRetain) .spad) := ⟨rfl⟩
    have : Fact (May (.retainToRetain) .data) := ⟨rfl⟩
    have : Fact (May (.retainToRetain) .engines) := ⟨rfl⟩
    have : Fact (May (.retainToRetain) .queues) := ⟨rfl⟩
    have : Fact (May (.retainToRetain) .slots) := ⟨rfl⟩
    have : Fact (May (.retainToRetain) .per) := ⟨rfl⟩
    have : Fact (May (.retainToRetain) .host) := ⟨rfl⟩
    exact execRetainToRetain_keeps (Keeps.rfl' h)
  | retainToOff =>
    have : Fact (May (.retainToOff) .img) := ⟨rfl⟩
    have : Fact (May (.retainToOff) .halves) := ⟨rfl⟩
    have : Fact (May (.retainToOff) .cores) := ⟨rfl⟩
    have : Fact (May (.retainToOff) .spad) := ⟨rfl⟩
    have : Fact (May (.retainToOff) .data) := ⟨rfl⟩
    have : Fact (May (.retainToOff) .engines) := ⟨rfl⟩
    have : Fact (May (.retainToOff) .queues) := ⟨rfl⟩
    have : Fact (May (.retainToOff) .slots) := ⟨rfl⟩
    have : Fact (May (.retainToOff) .per) := ⟨rfl⟩
    have : Fact (May (.retainToOff) .host) := ⟨rfl⟩
    exact execRetainToOff_keeps (Keeps.rfl' h)
  | feFenceAdd value =>
    have : Fact (May (.feFenceAdd value) .fences) := ⟨rfl⟩
    exact execFeFenceAdd_keeps (Keeps.rfl' h) value
  | feQTail queue value =>
    have : Fact (May (.feQTail queue value) .data) := ⟨rfl⟩
    have : Fact (May (.feQTail queue value) .engines) := ⟨rfl⟩
    have : Fact (May (.feQTail queue value) .queues) := ⟨rfl⟩
    have : Fact (May (.feQTail queue value) .per) := ⟨rfl⟩
    have : Fact (May (.feQTail queue value) .host) := ⟨rfl⟩
    exact execFeQTail_keeps (Keeps.rfl' h) queue value
  | feQResume who value =>
    have : Fact (May (.feQResume who value) .queues) := ⟨rfl⟩
    exact execFeQResume_keeps (Keeps.rfl' h) who value
  | rteRecSel who value =>
    have : Fact (May (.rteRecSel who value) .route) := ⟨rfl⟩
    exact execRteRecSel_keeps (Keeps.rfl' h) who value
  | mbxH2fSeq mbx value =>
    have : Fact (May (.mbxH2fSeq mbx value) .data) := ⟨rfl⟩
    have : Fact (May (.mbxH2fSeq mbx value) .host) := ⟨rfl⟩
    exact execMbxH2fSeq_keeps (Keeps.rfl' h) mbx value
  | mbxF2hAck mbx value =>
    exact execMbxF2hAck_keeps (Keeps.rfl' h) mbx value
  | dbH2f value =>
    exact execDbH2f_keeps (Keeps.rfl' h) value
  | perArm prog value =>
    have : Fact (May (.perArm prog value) .queues) := ⟨rfl⟩
    have : Fact (May (.perArm prog value) .per) := ⟨rfl⟩
    exact execPerArm_keeps (Keeps.rfl' h) prog value
  | perDisarm prog value =>
    have : Fact (May (.perDisarm prog value) .queues) := ⟨rfl⟩
    have : Fact (May (.perDisarm prog value) .per) := ⟨rfl⟩
    exact execPerDisarm_keeps (Keeps.rfl' h) prog value
  | perRepairGrant value =>
    have : Fact (May (.perRepairGrant value) .per) := ⟨rfl⟩
    exact execPerRepairGrant_keeps (Keeps.rfl' h) value
  | evrCursorHi who value =>
    exact execEvrCursorHi_keeps (Keeps.rfl' h) who value
  | evrWin15 who =>
    have : Fact (May (.evrWin15 who) .halves) := ⟨rfl⟩
    have : Fact (May (.evrWin15 who) .sel) := ⟨rfl⟩
    exact execEvrWin15_keeps (Keeps.rfl' h) who
  | evrAckHi value =>
    exact execEvrAckHi_keeps (Keeps.rfl' h) value
  | evrFreeze value =>
    exact execEvrFreeze_keeps (Keeps.rfl' h) value
  | evrThaw value =>
    exact execEvrThaw_keeps (Keeps.rfl' h) value
  | drvGclChange port value =>
    have : Fact (May (.drvGclChange port value) .per) := ⟨rfl⟩
    exact execDrvGclChange_keeps (Keeps.rfl' h) port value
  | rngData0 who =>
    have : Fact (May (.rngData0 who) .img) := ⟨rfl⟩
    have : Fact (May (.rngData0 who) .halves) := ⟨rfl⟩
    have : Fact (May (.rngData0 who) .data) := ⟨rfl⟩
    have : Fact (May (.rngData0 who) .engines) := ⟨rfl⟩
    have : Fact (May (.rngData0 who) .queues) := ⟨rfl⟩
    have : Fact (May (.rngData0 who) .slots) := ⟨rfl⟩
    have : Fact (May (.rngData0 who) .per) := ⟨rfl⟩
    have : Fact (May (.rngData0 who) .rng) := ⟨rfl⟩
    have : Fact (May (.rngData0 who) .host) := ⟨rfl⟩
    exact execRngData0_keeps (Keeps.rfl' h) who
  | lowWordRead who off =>
    have : Fact (May (.lowWordRead who off) .img) := ⟨rfl⟩
    have : Fact (May (.lowWordRead who off) .halves) := ⟨rfl⟩
    have : Fact (May (.lowWordRead who off) .data) := ⟨rfl⟩
    have : Fact (May (.lowWordRead who off) .engines) := ⟨rfl⟩
    have : Fact (May (.lowWordRead who off) .queues) := ⟨rfl⟩
    have : Fact (May (.lowWordRead who off) .slots) := ⟨rfl⟩
    have : Fact (May (.lowWordRead who off) .sel) := ⟨rfl⟩
    have : Fact (May (.lowWordRead who off) .per) := ⟨rfl⟩
    have : Fact (May (.lowWordRead who off) .rng) := ⟨rfl⟩
    have : Fact (May (.lowWordRead who off) .host) := ⟨rfl⟩
    exact execLowWordRead_keeps (Keeps.rfl' h) who off
  | registerWrite who off value =>
    have : Fact (May (.registerWrite who off value) .halves) := ⟨rfl⟩
    have : Fact (May (.registerWrite who off value) .data) := ⟨rfl⟩
    have : Fact (May (.registerWrite who off value) .engines) := ⟨rfl⟩
    have : Fact (May (.registerWrite who off value) .fences) := ⟨rfl⟩
    have : Fact (May (.registerWrite who off value) .queues) := ⟨rfl⟩
    have : Fact (May (.registerWrite who off value) .sel) := ⟨rfl⟩
    have : Fact (May (.registerWrite who off value) .route) := ⟨rfl⟩
    have : Fact (May (.registerWrite who off value) .per) := ⟨rfl⟩
    have : Fact (May (.registerWrite who off value) .clk) := ⟨rfl⟩
    have : Fact (May (.registerWrite who off value) .host) := ⟨rfl⟩
    exact execRegisterWrite_keeps (Keeps.rfl' h) who off value
  | queueCreate =>
    have : Fact (May (.queueCreate) .data) := ⟨rfl⟩
    have : Fact (May (.queueCreate) .queues) := ⟨rfl⟩
    have : Fact (May (.queueCreate) .host) := ⟨rfl⟩
    exact execQueueCreate_keeps (Keeps.rfl' h)
  | queueDestroy atOp =>
    have : Fact (May (.queueDestroy atOp) .img) := ⟨rfl⟩
    have : Fact (May (.queueDestroy atOp) .hub) := ⟨rfl⟩
    have : Fact (May (.queueDestroy atOp) .flash) := ⟨rfl⟩
    have : Fact (May (.queueDestroy atOp) .halves) := ⟨rfl⟩
    have : Fact (May (.queueDestroy atOp) .cores) := ⟨rfl⟩
    have : Fact (May (.queueDestroy atOp) .spad) := ⟨rfl⟩
    have : Fact (May (.queueDestroy atOp) .data) := ⟨rfl⟩
    have : Fact (May (.queueDestroy atOp) .engines) := ⟨rfl⟩
    have : Fact (May (.queueDestroy atOp) .queues) := ⟨rfl⟩
    have : Fact (May (.queueDestroy atOp) .slots) := ⟨rfl⟩
    have : Fact (May (.queueDestroy atOp) .route) := ⟨rfl⟩
    have : Fact (May (.queueDestroy atOp) .per) := ⟨rfl⟩
    have : Fact (May (.queueDestroy atOp) .links) := ⟨rfl⟩
    have : Fact (May (.queueDestroy atOp) .rng) := ⟨rfl⟩
    have : Fact (May (.queueDestroy atOp) .rel) := ⟨rfl⟩
    have : Fact (May (.queueDestroy atOp) .host) := ⟨rfl⟩
    exact execQueueDestroy_keeps (Keeps.rfl' h) atOp
  | queueBudget =>
    have : Fact (May (.queueBudget) .data) := ⟨rfl⟩
    have : Fact (May (.queueBudget) .queues) := ⟨rfl⟩
    have : Fact (May (.queueBudget) .host) := ⟨rfl⟩
    exact execQueueBudget_keeps (Keeps.rfl' h)
  | map =>
    have : Fact (May (.map) .img) := ⟨rfl⟩
    have : Fact (May (.map) .data) := ⟨rfl⟩
    have : Fact (May (.map) .queues) := ⟨rfl⟩
    have : Fact (May (.map) .host) := ⟨rfl⟩
    exact execMap_keeps (Keeps.rfl' h)
  | unmap =>
    have : Fact (May (.unmap) .img) := ⟨rfl⟩
    have : Fact (May (.unmap) .data) := ⟨rfl⟩
    have : Fact (May (.unmap) .queues) := ⟨rfl⟩
    have : Fact (May (.unmap) .host) := ⟨rfl⟩
    exact execUnmap_keeps (Keeps.rfl' h)
  | engineDisable =>
    have : Fact (May (.engineDisable) .img) := ⟨rfl⟩
    have : Fact (May (.engineDisable) .data) := ⟨rfl⟩
    have : Fact (May (.engineDisable) .engines) := ⟨rfl⟩
    have : Fact (May (.engineDisable) .queues) := ⟨rfl⟩
    have : Fact (May (.engineDisable) .slots) := ⟨rfl⟩
    have : Fact (May (.engineDisable) .per) := ⟨rfl⟩
    have : Fact (May (.engineDisable) .rng) := ⟨rfl⟩
    have : Fact (May (.engineDisable) .host) := ⟨rfl⟩
    exact execEngineDisable_keeps (Keeps.rfl' h)
  | engineEnable =>
    have : Fact (May (.engineEnable) .data) := ⟨rfl⟩
    have : Fact (May (.engineEnable) .engines) := ⟨rfl⟩
    have : Fact (May (.engineEnable) .host) := ⟨rfl⟩
    exact execEngineEnable_keeps (Keeps.rfl' h)
  | repairList =>
    have : Fact (May (.repairList) .data) := ⟨rfl⟩
    have : Fact (May (.repairList) .host) := ⟨rfl⟩
    exact execRepairList_keeps (Keeps.rfl' h)
  | repairRun =>
    have : Fact (May (.repairRun) .img) := ⟨rfl⟩
    have : Fact (May (.repairRun) .hub) := ⟨rfl⟩
    have : Fact (May (.repairRun) .flash) := ⟨rfl⟩
    have : Fact (May (.repairRun) .cores) := ⟨rfl⟩
    have : Fact (May (.repairRun) .data) := ⟨rfl⟩
    have : Fact (May (.repairRun) .engines) := ⟨rfl⟩
    have : Fact (May (.repairRun) .rel) := ⟨rfl⟩
    have : Fact (May (.repairRun) .host) := ⟨rfl⟩
    exact execRepairRun_keeps (Keeps.rfl' h)
  | patchRequest =>
    have : Fact (May (.patchRequest) .img) := ⟨rfl⟩
    have : Fact (May (.patchRequest) .hub) := ⟨rfl⟩
    have : Fact (May (.patchRequest) .flash) := ⟨rfl⟩
    have : Fact (May (.patchRequest) .halves) := ⟨rfl⟩
    have : Fact (May (.patchRequest) .cores) := ⟨rfl⟩
    have : Fact (May (.patchRequest) .spad) := ⟨rfl⟩
    have : Fact (May (.patchRequest) .data) := ⟨rfl⟩
    have : Fact (May (.patchRequest) .engines) := ⟨rfl⟩
    have : Fact (May (.patchRequest) .queues) := ⟨rfl⟩
    have : Fact (May (.patchRequest) .slots) := ⟨rfl⟩
    have : Fact (May (.patchRequest) .per) := ⟨rfl⟩
    have : Fact (May (.patchRequest) .links) := ⟨rfl⟩
    have : Fact (May (.patchRequest) .rel) := ⟨rfl⟩
    have : Fact (May (.patchRequest) .host) := ⟨rfl⟩
    exact execPatchRequest_keeps (Keeps.rfl' h)
  | hubStatus =>
    have : Fact (May (.hubStatus) .data) := ⟨rfl⟩
    have : Fact (May (.hubStatus) .host) := ⟨rfl⟩
    exact execHubStatus_keeps (Keeps.rfl' h)
  | failover =>
    have : Fact (May (.failover) .hubs) := ⟨rfl⟩
    have : Fact (May (.failover) .halves) := ⟨rfl⟩
    have : Fact (May (.failover) .data) := ⟨rfl⟩
    have : Fact (May (.failover) .engines) := ⟨rfl⟩
    have : Fact (May (.failover) .route) := ⟨rfl⟩
    have : Fact (May (.failover) .per) := ⟨rfl⟩
    have : Fact (May (.failover) .clk) := ⟨rfl⟩
    have : Fact (May (.failover) .rng) := ⟨rfl⟩
    have : Fact (May (.failover) .rel) := ⟨rfl⟩
    have : Fact (May (.failover) .host) := ⟨rfl⟩
    have : Fact (May (.failover) .hclk) := ⟨rfl⟩
    exact execFailover_keeps (Keeps.rfl' h)
  | powerUp facts =>
    have : Fact (May (.powerUp facts) .pwr) := ⟨rfl⟩
    have : Fact (May (.powerUp facts) .hubs) := ⟨rfl⟩
    have : Fact (May (.powerUp facts) .img) := ⟨rfl⟩
    have : Fact (May (.powerUp facts) .hub) := ⟨rfl⟩
    have : Fact (May (.powerUp facts) .flash) := ⟨rfl⟩
    have : Fact (May (.powerUp facts) .halves) := ⟨rfl⟩
    have : Fact (May (.powerUp facts) .cores) := ⟨rfl⟩
    have : Fact (May (.powerUp facts) .spad) := ⟨rfl⟩
    have : Fact (May (.powerUp facts) .data) := ⟨rfl⟩
    have : Fact (May (.powerUp facts) .engines) := ⟨rfl⟩
    have : Fact (May (.powerUp facts) .queues) := ⟨rfl⟩
    have : Fact (May (.powerUp facts) .slots) := ⟨rfl⟩
    have : Fact (May (.powerUp facts) .per) := ⟨rfl⟩
    have : Fact (May (.powerUp facts) .links) := ⟨rfl⟩
    have : Fact (May (.powerUp facts) .clk) := ⟨rfl⟩
    have : Fact (May (.powerUp facts) .rng) := ⟨rfl⟩
    have : Fact (May (.powerUp facts) .rel) := ⟨rfl⟩
    have : Fact (May (.powerUp facts) .host) := ⟨rfl⟩
    have : Fact (May (.powerUp facts) .hclk) := ⟨rfl⟩
    exact execPowerUp_keeps h facts
  | powerUpStepTimeout step facts =>
    have : Fact (May (.powerUpStepTimeout step facts) .pwr) := ⟨rfl⟩
    have : Fact (May (.powerUpStepTimeout step facts) .hubs) := ⟨rfl⟩
    have : Fact (May (.powerUpStepTimeout step facts) .img) := ⟨rfl⟩
    have : Fact (May (.powerUpStepTimeout step facts) .hub) := ⟨rfl⟩
    have : Fact (May (.powerUpStepTimeout step facts) .flash) := ⟨rfl⟩
    have : Fact (May (.powerUpStepTimeout step facts) .halves) := ⟨rfl⟩
    have : Fact (May (.powerUpStepTimeout step facts) .cores) := ⟨rfl⟩
    have : Fact (May (.powerUpStepTimeout step facts) .spad) := ⟨rfl⟩
    have : Fact (May (.powerUpStepTimeout step facts) .data) := ⟨rfl⟩
    have : Fact (May (.powerUpStepTimeout step facts) .engines) := ⟨rfl⟩
    have : Fact (May (.powerUpStepTimeout step facts) .queues) := ⟨rfl⟩
    have : Fact (May (.powerUpStepTimeout step facts) .slots) := ⟨rfl⟩
    have : Fact (May (.powerUpStepTimeout step facts) .per) := ⟨rfl⟩
    have : Fact (May (.powerUpStepTimeout step facts) .links) := ⟨rfl⟩
    have : Fact (May (.powerUpStepTimeout step facts) .clk) := ⟨rfl⟩
    have : Fact (May (.powerUpStepTimeout step facts) .rng) := ⟨rfl⟩
    have : Fact (May (.powerUpStepTimeout step facts) .rel) := ⟨rfl⟩
    have : Fact (May (.powerUpStepTimeout step facts) .host) := ⟨rfl⟩
    have : Fact (May (.powerUpStepTimeout step facts) .hclk) := ⟨rfl⟩
    exact execPowerUpStepTimeout_keeps h step facts
  | mrstPulse ns =>
    exact execMrstPulse_keeps h (hP _ rfl) (fun _ => rfl) ns
  | pfailAssert ns pageUs =>
    have : Fact (May (.pfailAssert ns pageUs) .pwr) := ⟨rfl⟩
    have : Fact (May (.pfailAssert ns pageUs) .flash) := ⟨rfl⟩
    exact execPfailAssert_keeps (Keeps.rfl' h) ns pageUs
  | perst =>
    exact execPerst_keeps (Keeps.rfl' h)
  | railOutOfBand rail =>
    have : Fact (May (.railOutOfBand rail) .pwr) := ⟨rfl⟩
    have : Fact (May (.railOutOfBand rail) .halves) := ⟨rfl⟩
    have : Fact (May (.railOutOfBand rail) .spad) := ⟨rfl⟩
    have : Fact (May (.railOutOfBand rail) .data) := ⟨rfl⟩
    have : Fact (May (.railOutOfBand rail) .engines) := ⟨rfl⟩
    have : Fact (May (.railOutOfBand rail) .per) := ⟨rfl⟩
    have : Fact (May (.railOutOfBand rail) .links) := ⟨rfl⟩
    have : Fact (May (.railOutOfBand rail) .rel) := ⟨rfl⟩
    have : Fact (May (.railOutOfBand rail) .host) := ⟨rfl⟩
    exact execRailOutOfBand_keeps h rail
  | yardLost yard =>
    have : Fact (May (.yardLost yard) .pwr) := ⟨rfl⟩
    have : Fact (May (.yardLost yard) .halves) := ⟨rfl⟩
    have : Fact (May (.yardLost yard) .spad) := ⟨rfl⟩
    have : Fact (May (.yardLost yard) .data) := ⟨rfl⟩
    have : Fact (May (.yardLost yard) .engines) := ⟨rfl⟩
    have : Fact (May (.yardLost yard) .per) := ⟨rfl⟩
    have : Fact (May (.yardLost yard) .links) := ⟨rfl⟩
    have : Fact (May (.yardLost yard) .rel) := ⟨rfl⟩
    have : Fact (May (.yardLost yard) .host) := ⟨rfl⟩
    exact execYardLost_keeps h yard
  | flushEnd =>
    have : Fact (May (.flushEnd) .flash) := ⟨rfl⟩
    exact execFlushEnd_keeps (Keeps.rfl' h)
  | evrFreezeExpiry =>
    exact execEvrFreezeExpiry_keeps (Keeps.rfl' h)
  | bar2Access write addr len data =>
    have : Fact (May (.bar2Access write addr len data) .data) := ⟨rfl⟩
    exact execBar2Access_keeps (Keeps.rfl' h) write addr len data
  | bar4Read off len =>
    exact execBar4Read_keeps (Keeps.rfl' h) off len
  | bar0BadWrite =>
    exact execBar0BadWrite_keeps (Keeps.rfl' h)
  | unsupportedRequest kind =>
    exact execUnsupportedRequest_keeps (Keeps.rfl' h) kind
  | i3cPrivateWrite data =>
    exact execI3cPrivateWrite_keeps (Keeps.rfl' h) data
  | i3cPrivateRead =>
    have : Fact (May (.i3cPrivateRead) .halves) := ⟨rfl⟩
    have : Fact (May (.i3cPrivateRead) .sel) := ⟨rfl⟩
    exact execI3cPrivateRead_keeps (Keeps.rfl' h)
  | i3cCcc code =>
    exact execI3cCcc_keeps (Keeps.rfl' h) code
  | tapInstruction iOp =>
    exact execTapInstruction_keeps (Keeps.rfl' h) iOp
  | driveFrameRx port frame fcsOk =>
    have : Fact (May (.driveFrameRx port frame fcsOk) .per) := ⟨rfl⟩
    exact execDriveFrameRx_keeps (Keeps.rfl' h) port frame fcsOk
  | gptpSync port timeNs identity =>
    have : Fact (May (.gptpSync port timeNs identity) .per) := ⟨rfl⟩
    exact execGptpSync_keeps (Keeps.rfl' h) port timeNs identity
  | pdelayReq port =>
    have : Fact (May (.pdelayReq port) .per) := ⟨rfl⟩
    exact execPdelayReq_keeps (Keeps.rfl' h) port
  | syncTimeout =>
    have : Fact (May (.syncTimeout) .per) := ⟨rfl⟩
    exact execSyncTimeout_keeps (Keeps.rfl' h)
  | gclChangeApply port =>
    have : Fact (May (.gclChangeApply port) .per) := ⟨rfl⟩
    exact execGclChangeApply_keeps (Keeps.rfl' h) port
  | syncOutPulse =>
    have : Fact (May (.syncOutPulse) .per) := ⟨rfl⟩
    exact execSyncOutPulse_keeps (Keeps.rfl' h)
  | syncInEdge =>
    have : Fact (May (.syncInEdge) .per) := ⟨rfl⟩
    exact execSyncInEdge_keeps (Keeps.rfl' h)
  | syncInTimeout prog =>
    have : Fact (May (.syncInTimeout prog) .per) := ⟨rfl⟩
    exact execSyncInTimeout_keeps (Keeps.rfl' h) prog
  | tickFire prog =>
    have : Fact (May (.tickFire prog) .spad) := ⟨rfl⟩
    have : Fact (May (.tickFire prog) .engines) := ⟨rfl⟩
    have : Fact (May (.tickFire prog) .queues) := ⟨rfl⟩
    have : Fact (May (.tickFire prog) .per) := ⟨rfl⟩
    have : Fact (May (.tickFire prog) .rel) := ⟨rfl⟩
    exact execTickFire_keeps (Keeps.rfl' h) prog
  | listRelease prog =>
    have : Fact (May (.listRelease prog) .data) := ⟨rfl⟩
    have : Fact (May (.listRelease prog) .engines) := ⟨rfl⟩
    have : Fact (May (.listRelease prog) .queues) := ⟨rfl⟩
    have : Fact (May (.listRelease prog) .per) := ⟨rfl⟩
    have : Fact (May (.listRelease prog) .host) := ⟨rfl⟩
    exact execListRelease_keeps (Keeps.rfl' h) prog
  | commit prog =>
    have : Fact (May (.commit prog) .per) := ⟨rfl⟩
    exact execCommit_keeps (Keeps.rfl' h) prog
  | egressDeadline prog atOp =>
    have : Fact (May (.egressDeadline prog atOp) .img) := ⟨rfl⟩
    have : Fact (May (.egressDeadline prog atOp) .hub) := ⟨rfl⟩
    have : Fact (May (.egressDeadline prog atOp) .flash) := ⟨rfl⟩
    have : Fact (May (.egressDeadline prog atOp) .halves) := ⟨rfl⟩
    have : Fact (May (.egressDeadline prog atOp) .cores) := ⟨rfl⟩
    have : Fact (May (.egressDeadline prog atOp) .spad) := ⟨rfl⟩
    have : Fact (May (.egressDeadline prog atOp) .data) := ⟨rfl⟩
    have : Fact (May (.egressDeadline prog atOp) .engines) := ⟨rfl⟩
    have : Fact (May (.egressDeadline prog atOp) .queues) := ⟨rfl⟩
    have : Fact (May (.egressDeadline prog atOp) .slots) := ⟨rfl⟩
    have : Fact (May (.egressDeadline prog atOp) .route) := ⟨rfl⟩
    have : Fact (May (.egressDeadline prog atOp) .per) := ⟨rfl⟩
    have : Fact (May (.egressDeadline prog atOp) .links) := ⟨rfl⟩
    have : Fact (May (.egressDeadline prog atOp) .rng) := ⟨rfl⟩
    have : Fact (May (.egressDeadline prog atOp) .rel) := ⟨rfl⟩
    have : Fact (May (.egressDeadline prog atOp) .host) := ⟨rfl⟩
    exact execEgressDeadline_keeps (Keeps.rfl' h) prog atOp
  | repairWindowOpen eng =>
    have : Fact (May (.repairWindowOpen eng) .engines) := ⟨rfl⟩
    have : Fact (May (.repairWindowOpen eng) .queues) := ⟨rfl⟩
    have : Fact (May (.repairWindowOpen eng) .rel) := ⟨rfl⟩
    exact execRepairWindowOpen_keeps (Keeps.rfl' h) eng
  | repairWindowClose prog =>
    have : Fact (May (.repairWindowClose prog) .engines) := ⟨rfl⟩
    have : Fact (May (.repairWindowClose prog) .per) := ⟨rfl⟩
    have : Fact (May (.repairWindowClose prog) .rel) := ⟨rfl⟩
    exact execRepairWindowClose_keeps (Keeps.rfl' h) prog
  | columnItem bistFails found =>
    have : Fact (May (.columnItem bistFails found) .img) := ⟨rfl⟩
    have : Fact (May (.columnItem bistFails found) .hub) := ⟨rfl⟩
    have : Fact (May (.columnItem bistFails found) .flash) := ⟨rfl⟩
    have : Fact (May (.columnItem bistFails found) .halves) := ⟨rfl⟩
    have : Fact (May (.columnItem bistFails found) .cores) := ⟨rfl⟩
    have : Fact (May (.columnItem bistFails found) .spad) := ⟨rfl⟩
    have : Fact (May (.columnItem bistFails found) .data) := ⟨rfl⟩
    have : Fact (May (.columnItem bistFails found) .engines) := ⟨rfl⟩
    have : Fact (May (.columnItem bistFails found) .queues) := ⟨rfl⟩
    have : Fact (May (.columnItem bistFails found) .slots) := ⟨rfl⟩
    have : Fact (May (.columnItem bistFails found) .per) := ⟨rfl⟩
    have : Fact (May (.columnItem bistFails found) .rel) := ⟨rfl⟩
    have : Fact (May (.columnItem bistFails found) .host) := ⟨rfl⟩
    exact execColumnItem_keeps (Keeps.rfl' h) bistFails found
  | rowItem =>
    have : Fact (May (.rowItem) .img) := ⟨rfl⟩
    have : Fact (May (.rowItem) .hub) := ⟨rfl⟩
    have : Fact (May (.rowItem) .flash) := ⟨rfl⟩
    have : Fact (May (.rowItem) .halves) := ⟨rfl⟩
    have : Fact (May (.rowItem) .cores) := ⟨rfl⟩
    have : Fact (May (.rowItem) .spad) := ⟨rfl⟩
    have : Fact (May (.rowItem) .data) := ⟨rfl⟩
    have : Fact (May (.rowItem) .engines) := ⟨rfl⟩
    have : Fact (May (.rowItem) .queues) := ⟨rfl⟩
    have : Fact (May (.rowItem) .slots) := ⟨rfl⟩
    have : Fact (May (.rowItem) .per) := ⟨rfl⟩
    have : Fact (May (.rowItem) .rel) := ⟨rfl⟩
    have : Fact (May (.rowItem) .host) := ⟨rfl⟩
    exact execRowItem_keeps (Keeps.rfl' h)
  | realign facts =>
    have : Fact (May (.realign facts) .img) := ⟨rfl⟩
    have : Fact (May (.realign facts) .halves) := ⟨rfl⟩
    have : Fact (May (.realign facts) .data) := ⟨rfl⟩
    have : Fact (May (.realign facts) .engines) := ⟨rfl⟩
    have : Fact (May (.realign facts) .queues) := ⟨rfl⟩
    have : Fact (May (.realign facts) .slots) := ⟨rfl⟩
    have : Fact (May (.realign facts) .per) := ⟨rfl⟩
    have : Fact (May (.realign facts) .clk) := ⟨rfl⟩
    have : Fact (May (.realign facts) .rel) := ⟨rfl⟩
    have : Fact (May (.realign facts) .host) := ⟨rfl⟩
    exact execRealign_keeps (Keeps.rfl' h) facts
  | faultReport event eng =>
    have : Fact (May (.faultReport event eng) .hubs) := ⟨rfl⟩
    have : Fact (May (.faultReport event eng) .img) := ⟨rfl⟩
    have : Fact (May (.faultReport event eng) .hub) := ⟨rfl⟩
    have : Fact (May (.faultReport event eng) .flash) := ⟨rfl⟩
    have : Fact (May (.faultReport event eng) .halves) := ⟨rfl⟩
    have : Fact (May (.faultReport event eng) .cores) := ⟨rfl⟩
    have : Fact (May (.faultReport event eng) .engines) := ⟨rfl⟩
    have : Fact (May (.faultReport event eng) .route) := ⟨rfl⟩
    have : Fact (May (.faultReport event eng) .per) := ⟨rfl⟩
    have : Fact (May (.faultReport event eng) .links) := ⟨rfl⟩
    have : Fact (May (.faultReport event eng) .clk) := ⟨rfl⟩
    have : Fact (May (.faultReport event eng) .rng) := ⟨rfl⟩
    have : Fact (May (.faultReport event eng) .rel) := ⟨rfl⟩
    have : Fact (May (.faultReport event eng) .hclk) := ⟨rfl⟩
    exact execFaultReport_keeps (Keeps.rfl' h) event eng
  | spadCheckReread c bank word eng result =>
    have : Fact (May (.spadCheckReread c bank word eng result) .img) := ⟨rfl⟩
    have : Fact (May (.spadCheckReread c bank word eng result) .hub) := ⟨rfl⟩
    have : Fact (May (.spadCheckReread c bank word eng result) .flash) := ⟨rfl⟩
    have : Fact (May (.spadCheckReread c bank word eng result) .cores) := ⟨rfl⟩
    have : Fact (May (.spadCheckReread c bank word eng result) .engines) := ⟨rfl⟩
    have : Fact (May (.spadCheckReread c bank word eng result) .route) := ⟨rfl⟩
    have : Fact (May (.spadCheckReread c bank word eng result) .links) := ⟨rfl⟩
    have : Fact (May (.spadCheckReread c bank word eng result) .rel) := ⟨rfl⟩
    exact execSpadCheckReread_keeps (Keeps.rfl' h) c bank word eng result
  | memCheckReread block words eng result edc =>
    have : Fact (May (.memCheckReread block words eng result edc) .img) := ⟨rfl⟩
    have : Fact (May (.memCheckReread block words eng result edc) .hub) := ⟨rfl⟩
    have : Fact (May (.memCheckReread block words eng result edc) .flash) := ⟨rfl⟩
    have : Fact (May (.memCheckReread block words eng result edc) .cores) := ⟨rfl⟩
    have : Fact (May (.memCheckReread block words eng result edc) .engines) := ⟨rfl⟩
    have : Fact (May (.memCheckReread block words eng result edc) .route) := ⟨rfl⟩
    have : Fact (May (.memCheckReread block words eng result edc) .links) := ⟨rfl⟩
    have : Fact (May (.memCheckReread block words eng result edc) .rel) := ⟨rfl⟩
    exact execMemCheckReread_keeps (Keeps.rfl' h) block words eng result edc
  | writeRetry block eng ok =>
    have : Fact (May (.writeRetry block eng ok) .img) := ⟨rfl⟩
    have : Fact (May (.writeRetry block eng ok) .hub) := ⟨rfl⟩
    have : Fact (May (.writeRetry block eng ok) .flash) := ⟨rfl⟩
    have : Fact (May (.writeRetry block eng ok) .cores) := ⟨rfl⟩
    have : Fact (May (.writeRetry block eng ok) .engines) := ⟨rfl⟩
    have : Fact (May (.writeRetry block eng ok) .route) := ⟨rfl⟩
    have : Fact (May (.writeRetry block eng ok) .links) := ⟨rfl⟩
    have : Fact (May (.writeRetry block eng ok) .rel) := ⟨rfl⟩
    exact execWriteRetry_keeps (Keeps.rfl' h) block eng ok
  | pageRetire shed =>
    have : Fact (May (.pageRetire shed) .img) := ⟨rfl⟩
    have : Fact (May (.pageRetire shed) .data) := ⟨rfl⟩
    exact execPageRetire_keeps (Keeps.rfl' h) shed
  | pageRetireDone shed =>
    have : Fact (May (.pageRetireDone shed) .img) := ⟨rfl⟩
    have : Fact (May (.pageRetireDone shed) .hub) := ⟨rfl⟩
    have : Fact (May (.pageRetireDone shed) .flash) := ⟨rfl⟩
    have : Fact (May (.pageRetireDone shed) .data) := ⟨rfl⟩
    exact execPageRetireDone_keeps (Keeps.rfl' h) shed
  | deviceCopyOver shed =>
    exact execDeviceCopyOver_keeps (Keeps.rfl' h) shed
  | deviceSwap shed =>
    have : Fact (May (.deviceSwap shed) .img) := ⟨rfl⟩
    have : Fact (May (.deviceSwap shed) .hub) := ⟨rfl⟩
    have : Fact (May (.deviceSwap shed) .flash) := ⟨rfl⟩
    exact execDeviceSwap_keeps (Keeps.rfl' h) shed
  | refresh shed =>
    exact execRefresh_keeps (Keeps.rfl' h) shed
  | conveyorWave conv flit slip =>
    have : Fact (May (.conveyorWave conv flit slip) .spad) := ⟨rfl⟩
    have : Fact (May (.conveyorWave conv flit slip) .data) := ⟨rfl⟩
    have : Fact (May (.conveyorWave conv flit slip) .engines) := ⟨rfl⟩
    have : Fact (May (.conveyorWave conv flit slip) .route) := ⟨rfl⟩
    have : Fact (May (.conveyorWave conv flit slip) .clk) := ⟨rfl⟩
    have : Fact (May (.conveyorWave conv flit slip) .rel) := ⟨rfl⟩
    have : Fact (May (.conveyorWave conv flit slip) .host) := ⟨rfl⟩
    exact execConveyorWave_keeps (Keeps.rfl' h) conv flit slip
  | crossingHoldEnd yh heldYclk =>
    exact execCrossingHoldEnd_keeps (Keeps.rfl' h) yh heldYclk
  | phaseStart core phase waited =>
    have : Fact (May (.phaseStart core phase waited) .cores) := ⟨rfl⟩
    exact execPhaseStart_keeps (Keeps.rfl' h) core phase waited
  | rotateVisit eng faults =>
    have : Fact (May (.rotateVisit eng faults) .img) := ⟨rfl⟩
    have : Fact (May (.rotateVisit eng faults) .hub) := ⟨rfl⟩
    have : Fact (May (.rotateVisit eng faults) .flash) := ⟨rfl⟩
    have : Fact (May (.rotateVisit eng faults) .halves) := ⟨rfl⟩
    have : Fact (May (.rotateVisit eng faults) .cores) := ⟨rfl⟩
    have : Fact (May (.rotateVisit eng faults) .spad) := ⟨rfl⟩
    have : Fact (May (.rotateVisit eng faults) .data) := ⟨rfl⟩
    have : Fact (May (.rotateVisit eng faults) .engines) := ⟨rfl⟩
    have : Fact (May (.rotateVisit eng faults) .queues) := ⟨rfl⟩
    have : Fact (May (.rotateVisit eng faults) .slots) := ⟨rfl⟩
    have : Fact (May (.rotateVisit eng faults) .route) := ⟨rfl⟩
    have : Fact (May (.rotateVisit eng faults) .per) := ⟨rfl⟩
    have : Fact (May (.rotateVisit eng faults) .links) := ⟨rfl⟩
    have : Fact (May (.rotateVisit eng faults) .rel) := ⟨rfl⟩
    have : Fact (May (.rotateVisit eng faults) .host) := ⟨rfl⟩
    exact execRotateVisit_keeps (Keeps.rfl' h) eng faults
  | ready core obj =>
    have : Fact (May (.ready core obj) .route) := ⟨rfl⟩
    exact execReady_keeps (Keeps.rfl' h) core obj
  | patchLanding eng found =>
    have : Fact (May (.patchLanding eng found) .img) := ⟨rfl⟩
    have : Fact (May (.patchLanding eng found) .hub) := ⟨rfl⟩
    have : Fact (May (.patchLanding eng found) .flash) := ⟨rfl⟩
    have : Fact (May (.patchLanding eng found) .halves) := ⟨rfl⟩
    have : Fact (May (.patchLanding eng found) .cores) := ⟨rfl⟩
    have : Fact (May (.patchLanding eng found) .spad) := ⟨rfl⟩
    have : Fact (May (.patchLanding eng found) .data) := ⟨rfl⟩
    have : Fact (May (.patchLanding eng found) .engines) := ⟨rfl⟩
    have : Fact (May (.patchLanding eng found) .queues) := ⟨rfl⟩
    have : Fact (May (.patchLanding eng found) .slots) := ⟨rfl⟩
    have : Fact (May (.patchLanding eng found) .per) := ⟨rfl⟩
    have : Fact (May (.patchLanding eng found) .links) := ⟨rfl⟩
    have : Fact (May (.patchLanding eng found) .rel) := ⟨rfl⟩
    have : Fact (May (.patchLanding eng found) .host) := ⟨rfl⟩
    exact execPatchLanding_keeps (Keeps.rfl' h) eng found
  | engineFetch eng =>
    have : Fact (May (.engineFetch eng) .img) := ⟨rfl⟩
    have : Fact (May (.engineFetch eng) .halves) := ⟨rfl⟩
    have : Fact (May (.engineFetch eng) .data) := ⟨rfl⟩
    have : Fact (May (.engineFetch eng) .engines) := ⟨rfl⟩
    have : Fact (May (.engineFetch eng) .queues) := ⟨rfl⟩
    have : Fact (May (.engineFetch eng) .slots) := ⟨rfl⟩
    have : Fact (May (.engineFetch eng) .per) := ⟨rfl⟩
    have : Fact (May (.engineFetch eng) .rng) := ⟨rfl⟩
    have : Fact (May (.engineFetch eng) .host) := ⟨rfl⟩
    exact execEngineFetch_keeps (Keeps.rfl' h) eng
  | preload eng =>
    have : Fact (May (.preload eng) .engines) := ⟨rfl⟩
    have : Fact (May (.preload eng) .queues) := ⟨rfl⟩
    exact execPreload_keeps (Keeps.rfl' h) eng
  | startMarker eng early jobs =>
    have : Fact (May (.startMarker eng early jobs) .img) := ⟨rfl⟩
    have : Fact (May (.startMarker eng early jobs) .halves) := ⟨rfl⟩
    have : Fact (May (.startMarker eng early jobs) .cores) := ⟨rfl⟩
    have : Fact (May (.startMarker eng early jobs) .spad) := ⟨rfl⟩
    have : Fact (May (.startMarker eng early jobs) .data) := ⟨rfl⟩
    have : Fact (May (.startMarker eng early jobs) .engines) := ⟨rfl⟩
    have : Fact (May (.startMarker eng early jobs) .queues) := ⟨rfl⟩
    have : Fact (May (.startMarker eng early jobs) .slots) := ⟨rfl⟩
    have : Fact (May (.startMarker eng early jobs) .route) := ⟨rfl⟩
    have : Fact (May (.startMarker eng early jobs) .per) := ⟨rfl⟩
    have : Fact (May (.startMarker eng early jobs) .host) := ⟨rfl⟩
    exact execStartMarker_keeps (Keeps.rfl' h) eng early jobs
  | idleEntry yh =>
    have : Fact (May (.idleEntry yh) .halves) := ⟨rfl⟩
    exact execIdleEntry_keeps (Keeps.rfl' h) yh
  | wake yh =>
    have : Fact (May (.wake yh) .halves) := ⟨rfl⟩
    have : Fact (May (.wake yh) .spad) := ⟨rfl⟩
    exact execWake_keeps (Keeps.rfl' h) yh
  | fence eng slot =>
    have : Fact (May (.fence eng slot) .img) := ⟨rfl⟩
    have : Fact (May (.fence eng slot) .data) := ⟨rfl⟩
    have : Fact (May (.fence eng slot) .engines) := ⟨rfl⟩
    have : Fact (May (.fence eng slot) .queues) := ⟨rfl⟩
    have : Fact (May (.fence eng slot) .slots) := ⟨rfl⟩
    have : Fact (May (.fence eng slot) .per) := ⟨rfl⟩
    have : Fact (May (.fence eng slot) .host) := ⟨rfl⟩
    exact execFence_keeps (Keeps.rfl' h) eng slot
  | ctlBad yh type =>
    exact execCtlBad_keeps (Keeps.rfl' h) yh type
  | queueTimeout eng atOp =>
    have : Fact (May (.queueTimeout eng atOp) .img) := ⟨rfl⟩
    have : Fact (May (.queueTimeout eng atOp) .hub) := ⟨rfl⟩
    have : Fact (May (.queueTimeout eng atOp) .flash) := ⟨rfl⟩
    have : Fact (May (.queueTimeout eng atOp) .halves) := ⟨rfl⟩
    have : Fact (May (.queueTimeout eng atOp) .cores) := ⟨rfl⟩
    have : Fact (May (.queueTimeout eng atOp) .spad) := ⟨rfl⟩
    have : Fact (May (.queueTimeout eng atOp) .data) := ⟨rfl⟩
    have : Fact (May (.queueTimeout eng atOp) .engines) := ⟨rfl⟩
    have : Fact (May (.queueTimeout eng atOp) .queues) := ⟨rfl⟩
    have : Fact (May (.queueTimeout eng atOp) .slots) := ⟨rfl⟩
    have : Fact (May (.queueTimeout eng atOp) .route) := ⟨rfl⟩
    have : Fact (May (.queueTimeout eng atOp) .per) := ⟨rfl⟩
    have : Fact (May (.queueTimeout eng atOp) .links) := ⟨rfl⟩
    have : Fact (May (.queueTimeout eng atOp) .rng) := ⟨rfl⟩
    have : Fact (May (.queueTimeout eng atOp) .rel) := ⟨rfl⟩
    have : Fact (May (.queueTimeout eng atOp) .host) := ⟨rfl⟩
    exact execQueueTimeout_keeps (Keeps.rfl' h) eng atOp
  | drainTimeout eng atOp =>
    have : Fact (May (.drainTimeout eng atOp) .img) := ⟨rfl⟩
    have : Fact (May (.drainTimeout eng atOp) .hub) := ⟨rfl⟩
    have : Fact (May (.drainTimeout eng atOp) .flash) := ⟨rfl⟩
    have : Fact (May (.drainTimeout eng atOp) .halves) := ⟨rfl⟩
    have : Fact (May (.drainTimeout eng atOp) .cores) := ⟨rfl⟩
    have : Fact (May (.drainTimeout eng atOp) .spad) := ⟨rfl⟩
    have : Fact (May (.drainTimeout eng atOp) .data) := ⟨rfl⟩
    have : Fact (May (.drainTimeout eng atOp) .engines) := ⟨rfl⟩
    have : Fact (May (.drainTimeout eng atOp) .queues) := ⟨rfl⟩
    have : Fact (May (.drainTimeout eng atOp) .slots) := ⟨rfl⟩
    have : Fact (May (.drainTimeout eng atOp) .route) := ⟨rfl⟩
    have : Fact (May (.drainTimeout eng atOp) .per) := ⟨rfl⟩
    have : Fact (May (.drainTimeout eng atOp) .links) := ⟨rfl⟩
    have : Fact (May (.drainTimeout eng atOp) .rng) := ⟨rfl⟩
    have : Fact (May (.drainTimeout eng atOp) .rel) := ⟨rfl⟩
    have : Fact (May (.drainTimeout eng atOp) .host) := ⟨rfl⟩
    exact execDrainTimeout_keeps (Keeps.rfl' h) eng atOp
  | hostReadTimeout eng =>
    have : Fact (May (.hostReadTimeout eng) .img) := ⟨rfl⟩
    have : Fact (May (.hostReadTimeout eng) .halves) := ⟨rfl⟩
    have : Fact (May (.hostReadTimeout eng) .spad) := ⟨rfl⟩
    have : Fact (May (.hostReadTimeout eng) .data) := ⟨rfl⟩
    have : Fact (May (.hostReadTimeout eng) .engines) := ⟨rfl⟩
    have : Fact (May (.hostReadTimeout eng) .queues) := ⟨rfl⟩
    have : Fact (May (.hostReadTimeout eng) .slots) := ⟨rfl⟩
    have : Fact (May (.hostReadTimeout eng) .per) := ⟨rfl⟩
    have : Fact (May (.hostReadTimeout eng) .host) := ⟨rfl⟩
    exact execHostReadTimeout_keeps (Keeps.rfl' h) eng
  | accountWindow eng =>
    have : Fact (May (.accountWindow eng) .engines) := ⟨rfl⟩
    have : Fact (May (.accountWindow eng) .queues) := ⟨rfl⟩
    exact execAccountWindow_keeps (Keeps.rfl' h) eng
  | mappingPoint eng =>
    have : Fact (May (.mappingPoint eng) .data) := ⟨rfl⟩
    have : Fact (May (.mappingPoint eng) .engines) := ⟨rfl⟩
    have : Fact (May (.mappingPoint eng) .queues) := ⟨rfl⟩
    have : Fact (May (.mappingPoint eng) .slots) := ⟨rfl⟩
    have : Fact (May (.mappingPoint eng) .per) := ⟨rfl⟩
    have : Fact (May (.mappingPoint eng) .host) := ⟨rfl⟩
    exact execMappingPoint_keeps (Keeps.rfl' h) eng
  | slotHandover slot =>
    have : Fact (May (.slotHandover slot) .data) := ⟨rfl⟩
    have : Fact (May (.slotHandover slot) .engines) := ⟨rfl⟩
    have : Fact (May (.slotHandover slot) .queues) := ⟨rfl⟩
    have : Fact (May (.slotHandover slot) .slots) := ⟨rfl⟩
    have : Fact (May (.slotHandover slot) .per) := ⟨rfl⟩
    have : Fact (May (.slotHandover slot) .host) := ⟨rfl⟩
    exact execSlotHandover_keeps (Keeps.rfl' h) slot
  | dbH2fPoll =>
    have : Fact (May (.dbH2fPoll) .data) := ⟨rfl⟩
    have : Fact (May (.dbH2fPoll) .host) := ⟨rfl⟩
    exact execDbH2fPoll_keeps (Keeps.rfl' h)
  | heartbeat =>
    have : Fact (May (.heartbeat) .hubs) := ⟨rfl⟩
    exact execHeartbeat_keeps (Keeps.rfl' h)
  | hubLoss cause =>
    have : Fact (May (.hubLoss cause) .hubs) := ⟨rfl⟩
    have : Fact (May (.hubLoss cause) .halves) := ⟨rfl⟩
    have : Fact (May (.hubLoss cause) .engines) := ⟨rfl⟩
    have : Fact (May (.hubLoss cause) .route) := ⟨rfl⟩
    have : Fact (May (.hubLoss cause) .per) := ⟨rfl⟩
    have : Fact (May (.hubLoss cause) .clk) := ⟨rfl⟩
    have : Fact (May (.hubLoss cause) .rng) := ⟨rfl⟩
    have : Fact (May (.hubLoss cause) .rel) := ⟨rfl⟩
    have : Fact (May (.hubLoss cause) .hclk) := ⟨rfl⟩
    exact execHubLoss_keeps (Keeps.rfl' h) cause
  | standbyLost =>
    have : Fact (May (.standbyLost) .hubs) := ⟨rfl⟩
    exact execStandbyLost_keeps (Keeps.rfl' h)
  | hubLostNoStandby =>
    have : Fact (May (.hubLostNoStandby) .hubs) := ⟨rfl⟩
    exact execHubLostNoStandby_keeps (Keeps.rfl' h)
  | rngBlock hub src samples =>
    have : Fact (May (.rngBlock hub src samples) .img) := ⟨rfl⟩
    have : Fact (May (.rngBlock hub src samples) .halves) := ⟨rfl⟩
    have : Fact (May (.rngBlock hub src samples) .data) := ⟨rfl⟩
    have : Fact (May (.rngBlock hub src samples) .engines) := ⟨rfl⟩
    have : Fact (May (.rngBlock hub src samples) .queues) := ⟨rfl⟩
    have : Fact (May (.rngBlock hub src samples) .slots) := ⟨rfl⟩
    have : Fact (May (.rngBlock hub src samples) .per) := ⟨rfl⟩
    have : Fact (May (.rngBlock hub src samples) .rng) := ⟨rfl⟩
    have : Fact (May (.rngBlock hub src samples) .host) := ⟨rfl⟩
    exact execRngBlock_keeps (Keeps.rfl' h) hub src samples
  | reseed hub =>
    have : Fact (May (.reseed hub) .rng) := ⟨rfl⟩
    exact execReseed_keeps (Keeps.rfl' h) hub
  | rngRequest hub =>
    have : Fact (May (.rngRequest hub) .img) := ⟨rfl⟩
    have : Fact (May (.rngRequest hub) .halves) := ⟨rfl⟩
    have : Fact (May (.rngRequest hub) .data) := ⟨rfl⟩
    have : Fact (May (.rngRequest hub) .engines) := ⟨rfl⟩
    have : Fact (May (.rngRequest hub) .queues) := ⟨rfl⟩
    have : Fact (May (.rngRequest hub) .slots) := ⟨rfl⟩
    have : Fact (May (.rngRequest hub) .per) := ⟨rfl⟩
    have : Fact (May (.rngRequest hub) .rng) := ⟨rfl⟩
    have : Fact (May (.rngRequest hub) .host) := ⟨rfl⟩
    exact execRngRequest_keeps (Keeps.rfl' h) hub
  | rngDataBound who =>
    have : Fact (May (.rngDataBound who) .rng) := ⟨rfl⟩
    exact execRngDataBound_keeps (Keeps.rfl' h) who
  | dataFrameRx port frame =>
    have : Fact (May (.dataFrameRx port frame) .img) := ⟨rfl⟩
    have : Fact (May (.dataFrameRx port frame) .hub) := ⟨rfl⟩
    have : Fact (May (.dataFrameRx port frame) .flash) := ⟨rfl⟩
    have : Fact (May (.dataFrameRx port frame) .cores) := ⟨rfl⟩
    have : Fact (May (.dataFrameRx port frame) .data) := ⟨rfl⟩
    have : Fact (May (.dataFrameRx port frame) .engines) := ⟨rfl⟩
    have : Fact (May (.dataFrameRx port frame) .fences) := ⟨rfl⟩
    have : Fact (May (.dataFrameRx port frame) .links) := ⟨rfl⟩
    have : Fact (May (.dataFrameRx port frame) .rel) := ⟨rfl⟩
    exact execDataFrameRx_keeps (Keeps.rfl' h) port frame
  | nak port seq =>
    have : Fact (May (.nak port seq) .links) := ⟨rfl⟩
    exact execNak_keeps (Keeps.rfl' h) port seq
  | laneFault port lane =>
    have : Fact (May (.laneFault port lane) .links) := ⟨rfl⟩
    exact execLaneFault_keeps (Keeps.rfl' h) port lane
  | laneSwap port old new slot =>
    have : Fact (May (.laneSwap port old new slot) .links) := ⟨rfl⟩
    exact execLaneSwap_keeps (Keeps.rfl' h) port old new slot
  | laneSwapSlot port =>
    have : Fact (May (.laneSwapSlot port) .img) := ⟨rfl⟩
    have : Fact (May (.laneSwapSlot port) .hub) := ⟨rfl⟩
    have : Fact (May (.laneSwapSlot port) .flash) := ⟨rfl⟩
    have : Fact (May (.laneSwapSlot port) .data) := ⟨rfl⟩
    have : Fact (May (.laneSwapSlot port) .engines) := ⟨rfl⟩
    have : Fact (May (.laneSwapSlot port) .queues) := ⟨rfl⟩
    have : Fact (May (.laneSwapSlot port) .slots) := ⟨rfl⟩
    have : Fact (May (.laneSwapSlot port) .per) := ⟨rfl⟩
    have : Fact (May (.laneSwapSlot port) .links) := ⟨rfl⟩
    have : Fact (May (.laneSwapSlot port) .rel) := ⟨rfl⟩
    have : Fact (May (.laneSwapSlot port) .host) := ⟨rfl⟩
    exact execLaneSwapSlot_keeps (Keeps.rfl' h) port
  | mapMessage port map =>
    have : Fact (May (.mapMessage port map) .links) := ⟨rfl⟩
    exact execMapMessage_keeps (Keeps.rfl' h) port map
  | linkDown port =>
    have : Fact (May (.linkDown port) .links) := ⟨rfl⟩
    exact execLinkDown_keeps (Keeps.rfl' h) port
  | linkRetrained port map =>
    have : Fact (May (.linkRetrained port map) .img) := ⟨rfl⟩
    have : Fact (May (.linkRetrained port map) .data) := ⟨rfl⟩
    have : Fact (May (.linkRetrained port map) .engines) := ⟨rfl⟩
    have : Fact (May (.linkRetrained port map) .queues) := ⟨rfl⟩
    have : Fact (May (.linkRetrained port map) .slots) := ⟨rfl⟩
    have : Fact (May (.linkRetrained port map) .per) := ⟨rfl⟩
    have : Fact (May (.linkRetrained port map) .links) := ⟨rfl⟩
    have : Fact (May (.linkRetrained port map) .rel) := ⟨rfl⟩
    have : Fact (May (.linkRetrained port map) .host) := ⟨rfl⟩
    exact execLinkRetrained_keeps (Keeps.rfl' h) port map
  | noPeerTimeout port =>
    have : Fact (May (.noPeerTimeout port) .links) := ⟨rfl⟩
    exact execNoPeerTimeout_keeps (Keeps.rfl' h) port
  | txItemSend port chan =>
    have : Fact (May (.txItemSend port chan) .links) := ⟨rfl⟩
    exact execTxItemSend_keeps (Keeps.rfl' h) port chan
  | linkReadRequest port chan tag eng =>
    have : Fact (May (.linkReadRequest port chan tag eng) .engines) := ⟨rfl⟩
    have : Fact (May (.linkReadRequest port chan tag eng) .links) := ⟨rfl⟩
    exact execLinkReadRequest_keeps (Keeps.rfl' h) port chan tag eng
  | thermtrip tempC =>
    have : Fact (May (.thermtrip tempC) .pwr) := ⟨rfl⟩
    exact execThermtrip_keeps (Keeps.rfl' h) tempC
  | testLogicReset =>
    exact execTestLogicReset_keeps (Keeps.rfl' h)
  | windowTimeout =>
    have : Fact (May (.windowTimeout) .data) := ⟨rfl⟩
    have : Fact (May (.windowTimeout) .engines) := ⟨rfl⟩
    have : Fact (May (.windowTimeout) .rel) := ⟨rfl⟩
    have : Fact (May (.windowTimeout) .host) := ⟨rfl⟩
    exact execWindowTimeout_keeps (Keeps.rfl' h)
  | flushRegionErased =>
    have : Fact (May (.flushRegionErased) .flash) := ⟨rfl⟩
    exact execFlushRegionErased_keeps (Keeps.rfl' h)
  | drivePortLink port up fecLock =>
    have : Fact (May (.drivePortLink port up fecLock) .per) := ⟨rfl⟩
    exact execDrivePortLink_keeps (Keeps.rfl' h) port up fecLock
  | receiveSignal port =>
    have : Fact (May (.receiveSignal port) .links) := ⟨rfl⟩
    exact execReceiveSignal_keeps (Keeps.rfl' h) port
  | ackSeq port seq =>
    have : Fact (May (.ackSeq port seq) .img) := ⟨rfl⟩
    have : Fact (May (.ackSeq port seq) .halves) := ⟨rfl⟩
    have : Fact (May (.ackSeq port seq) .data) := ⟨rfl⟩
    have : Fact (May (.ackSeq port seq) .engines) := ⟨rfl⟩
    have : Fact (May (.ackSeq port seq) .queues) := ⟨rfl⟩
    have : Fact (May (.ackSeq port seq) .slots) := ⟨rfl⟩
    have : Fact (May (.ackSeq port seq) .per) := ⟨rfl⟩
    have : Fact (May (.ackSeq port seq) .links) := ⟨rfl⟩
    have : Fact (May (.ackSeq port seq) .host) := ⟨rfl⟩
    exact execAckSeq_keeps (Keeps.rfl' h) port seq
  | announce port priority identity =>
    have : Fact (May (.announce port priority identity) .per) := ⟨rfl⟩
    exact execAnnounce_keeps (Keeps.rfl' h) port priority identity
  | pdelayResp port delayNs =>
    have : Fact (May (.pdelayResp port delayNs) .per) := ⟨rfl⟩
    exact execPdelayResp_keeps (Keeps.rfl' h) port delayNs
  | gateControlEntry port =>
    have : Fact (May (.gateControlEntry port) .per) := ⟨rfl⟩
    exact execGateControlEntry_keeps (Keeps.rfl' h) port
  | configurationWrite off value =>
    exact execConfigurationWrite_keeps (Keeps.rfl' h) off value

end Sys2Proof.Machine
end

