-- ==== Sys2Proof/Laws/State.lean ====
section
/-! SUPPORT. What each update of the state leaves in each field of it: the field that it writes, and every other field as it was. -/
namespace Sys2Proof.Machine

/-! ## setEng -/

@[simp] theorem setEng_pending (s : State) (k x) : (s.setEng k x).pending = s.pending := rfl
@[simp] theorem setEng_freeCtr (s : State) (k x) : (s.setEng k x).freeCtr = s.freeCtr := rfl
@[simp] theorem setEng_hclk (s : State) (k x) : (s.setEng k x).hclk = s.hclk := rfl
@[simp] theorem setEng_pwr (s : State) (k x) : (s.setEng k x).pwr = s.pwr := rfl
@[simp] theorem setEng_hubs (s : State) (k x) : (s.setEng k x).hubs = s.hubs := rfl
@[simp] theorem setEng_img (s : State) (k x) : (s.setEng k x).img = s.img := rfl
@[simp] theorem setEng_hub (s : State) (k x) : (s.setEng k x).hub = s.hub := rfl
@[simp] theorem setEng_flash (s : State) (k x) : (s.setEng k x).flash = s.flash := rfl
@[simp] theorem setEng_yards (s : State) (k x) : (s.setEng k x).yards = s.yards := rfl
@[simp] theorem setEng_mem (s : State) (k x) : (s.setEng k x).mem = s.mem := rfl
@[simp] theorem setEng_engines (s : State) (k x) : (s.setEng k x).engines = sset Engine.reset s.engines k x := rfl
@[simp] theorem setEng_fences (s : State) (k x) : (s.setEng k x).fences = s.fences := rfl
@[simp] theorem setEng_fenceSat (s : State) (k x) : (s.setEng k x).fenceSat = s.fenceSat := rfl
@[simp] theorem setEng_queues (s : State) (k x) : (s.setEng k x).queues = s.queues := rfl
@[simp] theorem setEng_slots (s : State) (k x) : (s.setEng k x).slots = s.slots := rfl
@[simp] theorem setEng_qSelHost (s : State) (k x) : (s.setEng k x).qSelHost = s.qSelHost := rfl
@[simp] theorem setEng_qSelPre (s : State) (k x) : (s.setEng k x).qSelPre = s.qSelPre := rfl
@[simp] theorem setEng_route (s : State) (k x) : (s.setEng k x).route = s.route := rfl
@[simp] theorem setEng_per (s : State) (k x) : (s.setEng k x).per = s.per := rfl
@[simp] theorem setEng_links (s : State) (k x) : (s.setEng k x).links = s.links := rfl
@[simp] theorem setEng_mbx (s : State) (k x) : (s.setEng k x).mbx = s.mbx := rfl
@[simp] theorem setEng_clk (s : State) (k x) : (s.setEng k x).clk = s.clk := rfl
@[simp] theorem setEng_rng (s : State) (k x) : (s.setEng k x).rng = s.rng := rfl
@[simp] theorem setEng_rel (s : State) (k x) : (s.setEng k x).rel = s.rel := rfl
@[simp] theorem setEng_evr (s : State) (k x) : (s.setEng k x).evr = s.evr := rfl
@[simp] theorem setEng_ports (s : State) (k x) : (s.setEng k x).ports = s.ports := rfl
@[simp] theorem setEng_pmon (s : State) (k x) : (s.setEng k x).pmon = s.pmon := rfl
@[simp] theorem setEng_latchHost (s : State) (k x) : (s.setEng k x).latchHost = s.latchHost := rfl
@[simp] theorem setEng_latchPre (s : State) (k x) : (s.setEng k x).latchPre = s.latchPre := rfl
@[simp] theorem setEng_fresh (s : State) (k x) : (s.setEng k x).fresh = s.fresh := rfl
@[simp] theorem setEng_posts (s : State) (k x) : (s.setEng k x).posts = s.posts := rfl
@[simp] theorem setEng_tails (s : State) (k x) : (s.setEng k x).tails = s.tails := rfl
@[simp] theorem modEng_eq (s : State) (k f) : s.modEng k f = s.setEng k (f (s.eng k)) := rfl
theorem eng_setEng_same (s : State) (k x) (h : swf Engine.reset s.engines = true) : (s.setEng k x).eng k = x := sget_sset_same _ _ _ _ h
theorem eng_setEng_ne (s : State) (k j x) (h : j ≠ k) : (s.setEng k x).eng j = s.eng j := sget_sset_ne _ _ _ _ _ h

/-! ## setQueue -/

@[simp] theorem setQueue_pending (s : State) (k x) : (s.setQueue k x).pending = s.pending := rfl
@[simp] theorem setQueue_freeCtr (s : State) (k x) : (s.setQueue k x).freeCtr = s.freeCtr := rfl
@[simp] theorem setQueue_hclk (s : State) (k x) : (s.setQueue k x).hclk = s.hclk := rfl
@[simp] theorem setQueue_pwr (s : State) (k x) : (s.setQueue k x).pwr = s.pwr := rfl
@[simp] theorem setQueue_hubs (s : State) (k x) : (s.setQueue k x).hubs = s.hubs := rfl
@[simp] theorem setQueue_img (s : State) (k x) : (s.setQueue k x).img = s.img := rfl
@[simp] theorem setQueue_hub (s : State) (k x) : (s.setQueue k x).hub = s.hub := rfl
@[simp] theorem setQueue_flash (s : State) (k x) : (s.setQueue k x).flash = s.flash := rfl
@[simp] theorem setQueue_yards (s : State) (k x) : (s.setQueue k x).yards = s.yards := rfl
@[simp] theorem setQueue_mem (s : State) (k x) : (s.setQueue k x).mem = s.mem := rfl
@[simp] theorem setQueue_engines (s : State) (k x) : (s.setQueue k x).engines = s.engines := rfl
@[simp] theorem setQueue_fences (s : State) (k x) : (s.setQueue k x).fences = s.fences := rfl
@[simp] theorem setQueue_fenceSat (s : State) (k x) : (s.setQueue k x).fenceSat = s.fenceSat := rfl
@[simp] theorem setQueue_queues (s : State) (k x) : (s.setQueue k x).queues = sset Queue.reset s.queues k x := rfl
@[simp] theorem setQueue_slots (s : State) (k x) : (s.setQueue k x).slots = s.slots := rfl
@[simp] theorem setQueue_qSelHost (s : State) (k x) : (s.setQueue k x).qSelHost = s.qSelHost := rfl
@[simp] theorem setQueue_qSelPre (s : State) (k x) : (s.setQueue k x).qSelPre = s.qSelPre := rfl
@[simp] theorem setQueue_route (s : State) (k x) : (s.setQueue k x).route = s.route := rfl
@[simp] theorem setQueue_per (s : State) (k x) : (s.setQueue k x).per = s.per := rfl
@[simp] theorem setQueue_links (s : State) (k x) : (s.setQueue k x).links = s.links := rfl
@[simp] theorem setQueue_mbx (s : State) (k x) : (s.setQueue k x).mbx = s.mbx := rfl
@[simp] theorem setQueue_clk (s : State) (k x) : (s.setQueue k x).clk = s.clk := rfl
@[simp] theorem setQueue_rng (s : State) (k x) : (s.setQueue k x).rng = s.rng := rfl
@[simp] theorem setQueue_rel (s : State) (k x) : (s.setQueue k x).rel = s.rel := rfl
@[simp] theorem setQueue_evr (s : State) (k x) : (s.setQueue k x).evr = s.evr := rfl
@[simp] theorem setQueue_ports (s : State) (k x) : (s.setQueue k x).ports = s.ports := rfl
@[simp] theorem setQueue_pmon (s : State) (k x) : (s.setQueue k x).pmon = s.pmon := rfl
@[simp] theorem setQueue_latchHost (s : State) (k x) : (s.setQueue k x).latchHost = s.latchHost := rfl
@[simp] theorem setQueue_latchPre (s : State) (k x) : (s.setQueue k x).latchPre = s.latchPre := rfl
@[simp] theorem setQueue_fresh (s : State) (k x) : (s.setQueue k x).fresh = s.fresh := rfl
@[simp] theorem setQueue_posts (s : State) (k x) : (s.setQueue k x).posts = s.posts := rfl
@[simp] theorem setQueue_tails (s : State) (k x) : (s.setQueue k x).tails = s.tails := rfl
@[simp] theorem modQueue_eq (s : State) (k f) : s.modQueue k f = s.setQueue k (f (s.queue k)) := rfl
theorem queue_setQueue_same (s : State) (k x) (h : swf Queue.reset s.queues = true) : (s.setQueue k x).queue k = x := sget_sset_same _ _ _ _ h
theorem queue_setQueue_ne (s : State) (k j x) (h : j ≠ k) : (s.setQueue k x).queue j = s.queue j := sget_sset_ne _ _ _ _ _ h

/-! ## setSlot -/

@[simp] theorem setSlot_pending (s : State) (k x) : (s.setSlot k x).pending = s.pending := rfl
@[simp] theorem setSlot_freeCtr (s : State) (k x) : (s.setSlot k x).freeCtr = s.freeCtr := rfl
@[simp] theorem setSlot_hclk (s : State) (k x) : (s.setSlot k x).hclk = s.hclk := rfl
@[simp] theorem setSlot_pwr (s : State) (k x) : (s.setSlot k x).pwr = s.pwr := rfl
@[simp] theorem setSlot_hubs (s : State) (k x) : (s.setSlot k x).hubs = s.hubs := rfl
@[simp] theorem setSlot_img (s : State) (k x) : (s.setSlot k x).img = s.img := rfl
@[simp] theorem setSlot_hub (s : State) (k x) : (s.setSlot k x).hub = s.hub := rfl
@[simp] theorem setSlot_flash (s : State) (k x) : (s.setSlot k x).flash = s.flash := rfl
@[simp] theorem setSlot_yards (s : State) (k x) : (s.setSlot k x).yards = s.yards := rfl
@[simp] theorem setSlot_mem (s : State) (k x) : (s.setSlot k x).mem = s.mem := rfl
@[simp] theorem setSlot_engines (s : State) (k x) : (s.setSlot k x).engines = s.engines := rfl
@[simp] theorem setSlot_fences (s : State) (k x) : (s.setSlot k x).fences = s.fences := rfl
@[simp] theorem setSlot_fenceSat (s : State) (k x) : (s.setSlot k x).fenceSat = s.fenceSat := rfl
@[simp] theorem setSlot_queues (s : State) (k x) : (s.setSlot k x).queues = s.queues := rfl
@[simp] theorem setSlot_slots (s : State) (k x) : (s.setSlot k x).slots = sset Slot.reset s.slots k x := rfl
@[simp] theorem setSlot_qSelHost (s : State) (k x) : (s.setSlot k x).qSelHost = s.qSelHost := rfl
@[simp] theorem setSlot_qSelPre (s : State) (k x) : (s.setSlot k x).qSelPre = s.qSelPre := rfl
@[simp] theorem setSlot_route (s : State) (k x) : (s.setSlot k x).route = s.route := rfl
@[simp] theorem setSlot_per (s : State) (k x) : (s.setSlot k x).per = s.per := rfl
@[simp] theorem setSlot_links (s : State) (k x) : (s.setSlot k x).links = s.links := rfl
@[simp] theorem setSlot_mbx (s : State) (k x) : (s.setSlot k x).mbx = s.mbx := rfl
@[simp] theorem setSlot_clk (s : State) (k x) : (s.setSlot k x).clk = s.clk := rfl
@[simp] theorem setSlot_rng (s : State) (k x) : (s.setSlot k x).rng = s.rng := rfl
@[simp] theorem setSlot_rel (s : State) (k x) : (s.setSlot k x).rel = s.rel := rfl
@[simp] theorem setSlot_evr (s : State) (k x) : (s.setSlot k x).evr = s.evr := rfl
@[simp] theorem setSlot_ports (s : State) (k x) : (s.setSlot k x).ports = s.ports := rfl
@[simp] theorem setSlot_pmon (s : State) (k x) : (s.setSlot k x).pmon = s.pmon := rfl
@[simp] theorem setSlot_latchHost (s : State) (k x) : (s.setSlot k x).latchHost = s.latchHost := rfl
@[simp] theorem setSlot_latchPre (s : State) (k x) : (s.setSlot k x).latchPre = s.latchPre := rfl
@[simp] theorem setSlot_fresh (s : State) (k x) : (s.setSlot k x).fresh = s.fresh := rfl
@[simp] theorem setSlot_posts (s : State) (k x) : (s.setSlot k x).posts = s.posts := rfl
@[simp] theorem setSlot_tails (s : State) (k x) : (s.setSlot k x).tails = s.tails := rfl
@[simp] theorem modSlot_eq (s : State) (k f) : s.modSlot k f = s.setSlot k (f (s.slot k)) := rfl
theorem slot_setSlot_same (s : State) (k x) (h : swf Slot.reset s.slots = true) : (s.setSlot k x).slot k = x := sget_sset_same _ _ _ _ h
theorem slot_setSlot_ne (s : State) (k j x) (h : j ≠ k) : (s.setSlot k x).slot j = s.slot j := sget_sset_ne _ _ _ _ _ h

/-! ## setHalf -/

@[simp] theorem setHalf_pending (s : State) (k x) : (s.setHalf k x).pending = s.pending := rfl
@[simp] theorem setHalf_freeCtr (s : State) (k x) : (s.setHalf k x).freeCtr = s.freeCtr := rfl
@[simp] theorem setHalf_hclk (s : State) (k x) : (s.setHalf k x).hclk = s.hclk := rfl
@[simp] theorem setHalf_pwr (s : State) (k x) : (s.setHalf k x).pwr = s.pwr := rfl
@[simp] theorem setHalf_hubs (s : State) (k x) : (s.setHalf k x).hubs = s.hubs := rfl
@[simp] theorem setHalf_img (s : State) (k x) : (s.setHalf k x).img = s.img := rfl
@[simp] theorem setHalf_hub (s : State) (k x) : (s.setHalf k x).hub = s.hub := rfl
@[simp] theorem setHalf_flash (s : State) (k x) : (s.setHalf k x).flash = s.flash := rfl
@[simp] theorem setHalf_yards (s : State) (k x) : (s.setHalf k x).yards = { s.yards with halves := sset Half.reset s.yards.halves k x } := rfl
@[simp] theorem setHalf_mem (s : State) (k x) : (s.setHalf k x).mem = s.mem := rfl
@[simp] theorem setHalf_engines (s : State) (k x) : (s.setHalf k x).engines = s.engines := rfl
@[simp] theorem setHalf_fences (s : State) (k x) : (s.setHalf k x).fences = s.fences := rfl
@[simp] theorem setHalf_fenceSat (s : State) (k x) : (s.setHalf k x).fenceSat = s.fenceSat := rfl
@[simp] theorem setHalf_queues (s : State) (k x) : (s.setHalf k x).queues = s.queues := rfl
@[simp] theorem setHalf_slots (s : State) (k x) : (s.setHalf k x).slots = s.slots := rfl
@[simp] theorem setHalf_qSelHost (s : State) (k x) : (s.setHalf k x).qSelHost = s.qSelHost := rfl
@[simp] theorem setHalf_qSelPre (s : State) (k x) : (s.setHalf k x).qSelPre = s.qSelPre := rfl
@[simp] theorem setHalf_route (s : State) (k x) : (s.setHalf k x).route = s.route := rfl
@[simp] theorem setHalf_per (s : State) (k x) : (s.setHalf k x).per = s.per := rfl
@[simp] theorem setHalf_links (s : State) (k x) : (s.setHalf k x).links = s.links := rfl
@[simp] theorem setHalf_mbx (s : State) (k x) : (s.setHalf k x).mbx = s.mbx := rfl
@[simp] theorem setHalf_clk (s : State) (k x) : (s.setHalf k x).clk = s.clk := rfl
@[simp] theorem setHalf_rng (s : State) (k x) : (s.setHalf k x).rng = s.rng := rfl
@[simp] theorem setHalf_rel (s : State) (k x) : (s.setHalf k x).rel = s.rel := rfl
@[simp] theorem setHalf_evr (s : State) (k x) : (s.setHalf k x).evr = s.evr := rfl
@[simp] theorem setHalf_ports (s : State) (k x) : (s.setHalf k x).ports = s.ports := rfl
@[simp] theorem setHalf_pmon (s : State) (k x) : (s.setHalf k x).pmon = s.pmon := rfl
@[simp] theorem setHalf_latchHost (s : State) (k x) : (s.setHalf k x).latchHost = s.latchHost := rfl
@[simp] theorem setHalf_latchPre (s : State) (k x) : (s.setHalf k x).latchPre = s.latchPre := rfl
@[simp] theorem setHalf_fresh (s : State) (k x) : (s.setHalf k x).fresh = s.fresh := rfl
@[simp] theorem setHalf_posts (s : State) (k x) : (s.setHalf k x).posts = s.posts := rfl
@[simp] theorem setHalf_tails (s : State) (k x) : (s.setHalf k x).tails = s.tails := rfl
@[simp] theorem modHalf_eq (s : State) (k f) : s.modHalf k f = s.setHalf k (f (s.half k)) := rfl
theorem half_setHalf_same (s : State) (k x) (h : swf Half.reset s.yards.halves = true) : (s.setHalf k x).half k = x := sget_sset_same _ _ _ _ h
theorem half_setHalf_ne (s : State) (k j x) (h : j ≠ k) : (s.setHalf k x).half j = s.half j := sget_sset_ne _ _ _ _ _ h

/-! ## setCore -/

@[simp] theorem setCore_pending (s : State) (k x) : (s.setCore k x).pending = s.pending := rfl
@[simp] theorem setCore_freeCtr (s : State) (k x) : (s.setCore k x).freeCtr = s.freeCtr := rfl
@[simp] theorem setCore_hclk (s : State) (k x) : (s.setCore k x).hclk = s.hclk := rfl
@[simp] theorem setCore_pwr (s : State) (k x) : (s.setCore k x).pwr = s.pwr := rfl
@[simp] theorem setCore_hubs (s : State) (k x) : (s.setCore k x).hubs = s.hubs := rfl
@[simp] theorem setCore_img (s : State) (k x) : (s.setCore k x).img = s.img := rfl
@[simp] theorem setCore_hub (s : State) (k x) : (s.setCore k x).hub = s.hub := rfl
@[simp] theorem setCore_flash (s : State) (k x) : (s.setCore k x).flash = s.flash := rfl
@[simp] theorem setCore_yards (s : State) (k x) : (s.setCore k x).yards = { s.yards with cores := sset Core.reset s.yards.cores k x } := rfl
@[simp] theorem setCore_mem (s : State) (k x) : (s.setCore k x).mem = s.mem := rfl
@[simp] theorem setCore_engines (s : State) (k x) : (s.setCore k x).engines = s.engines := rfl
@[simp] theorem setCore_fences (s : State) (k x) : (s.setCore k x).fences = s.fences := rfl
@[simp] theorem setCore_fenceSat (s : State) (k x) : (s.setCore k x).fenceSat = s.fenceSat := rfl
@[simp] theorem setCore_queues (s : State) (k x) : (s.setCore k x).queues = s.queues := rfl
@[simp] theorem setCore_slots (s : State) (k x) : (s.setCore k x).slots = s.slots := rfl
@[simp] theorem setCore_qSelHost (s : State) (k x) : (s.setCore k x).qSelHost = s.qSelHost := rfl
@[simp] theorem setCore_qSelPre (s : State) (k x) : (s.setCore k x).qSelPre = s.qSelPre := rfl
@[simp] theorem setCore_route (s : State) (k x) : (s.setCore k x).route = s.route := rfl
@[simp] theorem setCore_per (s : State) (k x) : (s.setCore k x).per = s.per := rfl
@[simp] theorem setCore_links (s : State) (k x) : (s.setCore k x).links = s.links := rfl
@[simp] theorem setCore_mbx (s : State) (k x) : (s.setCore k x).mbx = s.mbx := rfl
@[simp] theorem setCore_clk (s : State) (k x) : (s.setCore k x).clk = s.clk := rfl
@[simp] theorem setCore_rng (s : State) (k x) : (s.setCore k x).rng = s.rng := rfl
@[simp] theorem setCore_rel (s : State) (k x) : (s.setCore k x).rel = s.rel := rfl
@[simp] theorem setCore_evr (s : State) (k x) : (s.setCore k x).evr = s.evr := rfl
@[simp] theorem setCore_ports (s : State) (k x) : (s.setCore k x).ports = s.ports := rfl
@[simp] theorem setCore_pmon (s : State) (k x) : (s.setCore k x).pmon = s.pmon := rfl
@[simp] theorem setCore_latchHost (s : State) (k x) : (s.setCore k x).latchHost = s.latchHost := rfl
@[simp] theorem setCore_latchPre (s : State) (k x) : (s.setCore k x).latchPre = s.latchPre := rfl
@[simp] theorem setCore_fresh (s : State) (k x) : (s.setCore k x).fresh = s.fresh := rfl
@[simp] theorem setCore_posts (s : State) (k x) : (s.setCore k x).posts = s.posts := rfl
@[simp] theorem setCore_tails (s : State) (k x) : (s.setCore k x).tails = s.tails := rfl
@[simp] theorem modCore_eq (s : State) (k f) : s.modCore k f = s.setCore k (f (s.core k)) := rfl
theorem core_setCore_same (s : State) (k x) (h : swf Core.reset s.yards.cores = true) : (s.setCore k x).core k = x := sget_sset_same _ _ _ _ h
theorem core_setCore_ne (s : State) (k j x) (h : j ≠ k) : (s.setCore k x).core j = s.core j := sget_sset_ne _ _ _ _ _ h

/-! ## setShed -/

@[simp] theorem setShed_pending (s : State) (k x) : (s.setShed k x).pending = s.pending := rfl
@[simp] theorem setShed_freeCtr (s : State) (k x) : (s.setShed k x).freeCtr = s.freeCtr := rfl
@[simp] theorem setShed_hclk (s : State) (k x) : (s.setShed k x).hclk = s.hclk := rfl
@[simp] theorem setShed_pwr (s : State) (k x) : (s.setShed k x).pwr = s.pwr := rfl
@[simp] theorem setShed_hubs (s : State) (k x) : (s.setShed k x).hubs = s.hubs := rfl
@[simp] theorem setShed_img (s : State) (k x) : (s.setShed k x).img = s.img := rfl
@[simp] theorem setShed_hub (s : State) (k x) : (s.setShed k x).hub = s.hub := rfl
@[simp] theorem setShed_flash (s : State) (k x) : (s.setShed k x).flash = s.flash := rfl
@[simp] theorem setShed_yards (s : State) (k x) : (s.setShed k x).yards = s.yards := rfl
@[simp] theorem setShed_mem (s : State) (k x) : (s.setShed k x).mem = { s.mem with sheds := sset Shed.reset s.mem.sheds k x } := rfl
@[simp] theorem setShed_engines (s : State) (k x) : (s.setShed k x).engines = s.engines := rfl
@[simp] theorem setShed_fences (s : State) (k x) : (s.setShed k x).fences = s.fences := rfl
@[simp] theorem setShed_fenceSat (s : State) (k x) : (s.setShed k x).fenceSat = s.fenceSat := rfl
@[simp] theorem setShed_queues (s : State) (k x) : (s.setShed k x).queues = s.queues := rfl
@[simp] theorem setShed_slots (s : State) (k x) : (s.setShed k x).slots = s.slots := rfl
@[simp] theorem setShed_qSelHost (s : State) (k x) : (s.setShed k x).qSelHost = s.qSelHost := rfl
@[simp] theorem setShed_qSelPre (s : State) (k x) : (s.setShed k x).qSelPre = s.qSelPre := rfl
@[simp] theorem setShed_route (s : State) (k x) : (s.setShed k x).route = s.route := rfl
@[simp] theorem setShed_per (s : State) (k x) : (s.setShed k x).per = s.per := rfl
@[simp] theorem setShed_links (s : State) (k x) : (s.setShed k x).links = s.links := rfl
@[simp] theorem setShed_mbx (s : State) (k x) : (s.setShed k x).mbx = s.mbx := rfl
@[simp] theorem setShed_clk (s : State) (k x) : (s.setShed k x).clk = s.clk := rfl
@[simp] theorem setShed_rng (s : State) (k x) : (s.setShed k x).rng = s.rng := rfl
@[simp] theorem setShed_rel (s : State) (k x) : (s.setShed k x).rel = s.rel := rfl
@[simp] theorem setShed_evr (s : State) (k x) : (s.setShed k x).evr = s.evr := rfl
@[simp] theorem setShed_ports (s : State) (k x) : (s.setShed k x).ports = s.ports := rfl
@[simp] theorem setShed_pmon (s : State) (k x) : (s.setShed k x).pmon = s.pmon := rfl
@[simp] theorem setShed_latchHost (s : State) (k x) : (s.setShed k x).latchHost = s.latchHost := rfl
@[simp] theorem setShed_latchPre (s : State) (k x) : (s.setShed k x).latchPre = s.latchPre := rfl
@[simp] theorem setShed_fresh (s : State) (k x) : (s.setShed k x).fresh = s.fresh := rfl
@[simp] theorem setShed_posts (s : State) (k x) : (s.setShed k x).posts = s.posts := rfl
@[simp] theorem setShed_tails (s : State) (k x) : (s.setShed k x).tails = s.tails := rfl
@[simp] theorem modShed_eq (s : State) (k f) : s.modShed k f = s.setShed k (f (s.shed k)) := rfl
theorem shed_setShed_same (s : State) (k x) (h : swf Shed.reset s.mem.sheds = true) : (s.setShed k x).shed k = x := sget_sset_same _ _ _ _ h
theorem shed_setShed_ne (s : State) (k j x) (h : j ≠ k) : (s.setShed k x).shed j = s.shed j := sget_sset_ne _ _ _ _ _ h

/-! ## setShedRec -/

@[simp] theorem setShedRec_pending (s : State) (k x) : (s.setShedRec k x).pending = s.pending := rfl
@[simp] theorem setShedRec_freeCtr (s : State) (k x) : (s.setShedRec k x).freeCtr = s.freeCtr := rfl
@[simp] theorem setShedRec_hclk (s : State) (k x) : (s.setShedRec k x).hclk = s.hclk := rfl
@[simp] theorem setShedRec_pwr (s : State) (k x) : (s.setShedRec k x).pwr = s.pwr := rfl
@[simp] theorem setShedRec_hubs (s : State) (k x) : (s.setShedRec k x).hubs = s.hubs := rfl
@[simp] theorem setShedRec_img (s : State) (k x) : (s.setShedRec k x).img = { s.img with sheds := sset ShedRec.reset s.img.sheds k x } := rfl
@[simp] theorem setShedRec_hub (s : State) (k x) : (s.setShedRec k x).hub = s.hub := rfl
@[simp] theorem setShedRec_flash (s : State) (k x) : (s.setShedRec k x).flash = s.flash := rfl
@[simp] theorem setShedRec_yards (s : State) (k x) : (s.setShedRec k x).yards = s.yards := rfl
@[simp] theorem setShedRec_mem (s : State) (k x) : (s.setShedRec k x).mem = s.mem := rfl
@[simp] theorem setShedRec_engines (s : State) (k x) : (s.setShedRec k x).engines = s.engines := rfl
@[simp] theorem setShedRec_fences (s : State) (k x) : (s.setShedRec k x).fences = s.fences := rfl
@[simp] theorem setShedRec_fenceSat (s : State) (k x) : (s.setShedRec k x).fenceSat = s.fenceSat := rfl
@[simp] theorem setShedRec_queues (s : State) (k x) : (s.setShedRec k x).queues = s.queues := rfl
@[simp] theorem setShedRec_slots (s : State) (k x) : (s.setShedRec k x).slots = s.slots := rfl
@[simp] theorem setShedRec_qSelHost (s : State) (k x) : (s.setShedRec k x).qSelHost = s.qSelHost := rfl
@[simp] theorem setShedRec_qSelPre (s : State) (k x) : (s.setShedRec k x).qSelPre = s.qSelPre := rfl
@[simp] theorem setShedRec_route (s : State) (k x) : (s.setShedRec k x).route = s.route := rfl
@[simp] theorem setShedRec_per (s : State) (k x) : (s.setShedRec k x).per = s.per := rfl
@[simp] theorem setShedRec_links (s : State) (k x) : (s.setShedRec k x).links = s.links := rfl
@[simp] theorem setShedRec_mbx (s : State) (k x) : (s.setShedRec k x).mbx = s.mbx := rfl
@[simp] theorem setShedRec_clk (s : State) (k x) : (s.setShedRec k x).clk = s.clk := rfl
@[simp] theorem setShedRec_rng (s : State) (k x) : (s.setShedRec k x).rng = s.rng := rfl
@[simp] theorem setShedRec_rel (s : State) (k x) : (s.setShedRec k x).rel = s.rel := rfl
@[simp] theorem setShedRec_evr (s : State) (k x) : (s.setShedRec k x).evr = s.evr := rfl
@[simp] theorem setShedRec_ports (s : State) (k x) : (s.setShedRec k x).ports = s.ports := rfl
@[simp] theorem setShedRec_pmon (s : State) (k x) : (s.setShedRec k x).pmon = s.pmon := rfl
@[simp] theorem setShedRec_latchHost (s : State) (k x) : (s.setShedRec k x).latchHost = s.latchHost := rfl
@[simp] theorem setShedRec_latchPre (s : State) (k x) : (s.setShedRec k x).latchPre = s.latchPre := rfl
@[simp] theorem setShedRec_fresh (s : State) (k x) : (s.setShedRec k x).fresh = s.fresh := rfl
@[simp] theorem setShedRec_posts (s : State) (k x) : (s.setShedRec k x).posts = s.posts := rfl
@[simp] theorem setShedRec_tails (s : State) (k x) : (s.setShedRec k x).tails = s.tails := rfl
theorem shedRec_setShedRec_same (s : State) (k x) (h : swf ShedRec.reset s.img.sheds = true) : (s.setShedRec k x).shedRec k = x := sget_sset_same _ _ _ _ h
theorem shedRec_setShedRec_ne (s : State) (k j x) (h : j ≠ k) : (s.setShedRec k x).shedRec j = s.shedRec j := sget_sset_ne _ _ _ _ _ h

/-! ## setTopo -/

@[simp] theorem setTopo_pending (s : State) (k x) : (s.setTopo k x).pending = s.pending := rfl
@[simp] theorem setTopo_freeCtr (s : State) (k x) : (s.setTopo k x).freeCtr = s.freeCtr := rfl
@[simp] theorem setTopo_hclk (s : State) (k x) : (s.setTopo k x).hclk = s.hclk := rfl
@[simp] theorem setTopo_pwr (s : State) (k x) : (s.setTopo k x).pwr = s.pwr := rfl
@[simp] theorem setTopo_hubs (s : State) (k x) : (s.setTopo k x).hubs = s.hubs := rfl
@[simp] theorem setTopo_img (s : State) (k x) : (s.setTopo k x).img = { s.img with topo := sset TopoHalf.reset s.img.topo k x } := rfl
@[simp] theorem setTopo_hub (s : State) (k x) : (s.setTopo k x).hub = s.hub := rfl
@[simp] theorem setTopo_flash (s : State) (k x) : (s.setTopo k x).flash = s.flash := rfl
@[simp] theorem setTopo_yards (s : State) (k x) : (s.setTopo k x).yards = s.yards := rfl
@[simp] theorem setTopo_mem (s : State) (k x) : (s.setTopo k x).mem = s.mem := rfl
@[simp] theorem setTopo_engines (s : State) (k x) : (s.setTopo k x).engines = s.engines := rfl
@[simp] theorem setTopo_fences (s : State) (k x) : (s.setTopo k x).fences = s.fences := rfl
@[simp] theorem setTopo_fenceSat (s : State) (k x) : (s.setTopo k x).fenceSat = s.fenceSat := rfl
@[simp] theorem setTopo_queues (s : State) (k x) : (s.setTopo k x).queues = s.queues := rfl
@[simp] theorem setTopo_slots (s : State) (k x) : (s.setTopo k x).slots = s.slots := rfl
@[simp] theorem setTopo_qSelHost (s : State) (k x) : (s.setTopo k x).qSelHost = s.qSelHost := rfl
@[simp] theorem setTopo_qSelPre (s : State) (k x) : (s.setTopo k x).qSelPre = s.qSelPre := rfl
@[simp] theorem setTopo_route (s : State) (k x) : (s.setTopo k x).route = s.route := rfl
@[simp] theorem setTopo_per (s : State) (k x) : (s.setTopo k x).per = s.per := rfl
@[simp] theorem setTopo_links (s : State) (k x) : (s.setTopo k x).links = s.links := rfl
@[simp] theorem setTopo_mbx (s : State) (k x) : (s.setTopo k x).mbx = s.mbx := rfl
@[simp] theorem setTopo_clk (s : State) (k x) : (s.setTopo k x).clk = s.clk := rfl
@[simp] theorem setTopo_rng (s : State) (k x) : (s.setTopo k x).rng = s.rng := rfl
@[simp] theorem setTopo_rel (s : State) (k x) : (s.setTopo k x).rel = s.rel := rfl
@[simp] theorem setTopo_evr (s : State) (k x) : (s.setTopo k x).evr = s.evr := rfl
@[simp] theorem setTopo_ports (s : State) (k x) : (s.setTopo k x).ports = s.ports := rfl
@[simp] theorem setTopo_pmon (s : State) (k x) : (s.setTopo k x).pmon = s.pmon := rfl
@[simp] theorem setTopo_latchHost (s : State) (k x) : (s.setTopo k x).latchHost = s.latchHost := rfl
@[simp] theorem setTopo_latchPre (s : State) (k x) : (s.setTopo k x).latchPre = s.latchPre := rfl
@[simp] theorem setTopo_fresh (s : State) (k x) : (s.setTopo k x).fresh = s.fresh := rfl
@[simp] theorem setTopo_posts (s : State) (k x) : (s.setTopo k x).posts = s.posts := rfl
@[simp] theorem setTopo_tails (s : State) (k x) : (s.setTopo k x).tails = s.tails := rfl
theorem topo_setTopo_same (s : State) (k x) (h : swf TopoHalf.reset s.img.topo = true) : (s.setTopo k x).topo k = x := sget_sset_same _ _ _ _ h
theorem topo_setTopo_ne (s : State) (k j x) (h : j ≠ k) : (s.setTopo k x).topo j = s.topo j := sget_sset_ne _ _ _ _ _ h

/-! ## setXlat -/

@[simp] theorem setXlat_pending (s : State) (k x) : (s.setXlat k x).pending = s.pending := rfl
@[simp] theorem setXlat_freeCtr (s : State) (k x) : (s.setXlat k x).freeCtr = s.freeCtr := rfl
@[simp] theorem setXlat_hclk (s : State) (k x) : (s.setXlat k x).hclk = s.hclk := rfl
@[simp] theorem setXlat_pwr (s : State) (k x) : (s.setXlat k x).pwr = s.pwr := rfl
@[simp] theorem setXlat_hubs (s : State) (k x) : (s.setXlat k x).hubs = s.hubs := rfl
@[simp] theorem setXlat_img (s : State) (k x) : (s.setXlat k x).img = { s.img with xlat := sset Xlat.reset s.img.xlat k x } := rfl
@[simp] theorem setXlat_hub (s : State) (k x) : (s.setXlat k x).hub = s.hub := rfl
@[simp] theorem setXlat_flash (s : State) (k x) : (s.setXlat k x).flash = s.flash := rfl
@[simp] theorem setXlat_yards (s : State) (k x) : (s.setXlat k x).yards = s.yards := rfl
@[simp] theorem setXlat_mem (s : State) (k x) : (s.setXlat k x).mem = s.mem := rfl
@[simp] theorem setXlat_engines (s : State) (k x) : (s.setXlat k x).engines = s.engines := rfl
@[simp] theorem setXlat_fences (s : State) (k x) : (s.setXlat k x).fences = s.fences := rfl
@[simp] theorem setXlat_fenceSat (s : State) (k x) : (s.setXlat k x).fenceSat = s.fenceSat := rfl
@[simp] theorem setXlat_queues (s : State) (k x) : (s.setXlat k x).queues = s.queues := rfl
@[simp] theorem setXlat_slots (s : State) (k x) : (s.setXlat k x).slots = s.slots := rfl
@[simp] theorem setXlat_qSelHost (s : State) (k x) : (s.setXlat k x).qSelHost = s.qSelHost := rfl
@[simp] theorem setXlat_qSelPre (s : State) (k x) : (s.setXlat k x).qSelPre = s.qSelPre := rfl
@[simp] theorem setXlat_route (s : State) (k x) : (s.setXlat k x).route = s.route := rfl
@[simp] theorem setXlat_per (s : State) (k x) : (s.setXlat k x).per = s.per := rfl
@[simp] theorem setXlat_links (s : State) (k x) : (s.setXlat k x).links = s.links := rfl
@[simp] theorem setXlat_mbx (s : State) (k x) : (s.setXlat k x).mbx = s.mbx := rfl
@[simp] theorem setXlat_clk (s : State) (k x) : (s.setXlat k x).clk = s.clk := rfl
@[simp] theorem setXlat_rng (s : State) (k x) : (s.setXlat k x).rng = s.rng := rfl
@[simp] theorem setXlat_rel (s : State) (k x) : (s.setXlat k x).rel = s.rel := rfl
@[simp] theorem setXlat_evr (s : State) (k x) : (s.setXlat k x).evr = s.evr := rfl
@[simp] theorem setXlat_ports (s : State) (k x) : (s.setXlat k x).ports = s.ports := rfl
@[simp] theorem setXlat_pmon (s : State) (k x) : (s.setXlat k x).pmon = s.pmon := rfl
@[simp] theorem setXlat_latchHost (s : State) (k x) : (s.setXlat k x).latchHost = s.latchHost := rfl
@[simp] theorem setXlat_latchPre (s : State) (k x) : (s.setXlat k x).latchPre = s.latchPre := rfl
@[simp] theorem setXlat_fresh (s : State) (k x) : (s.setXlat k x).fresh = s.fresh := rfl
@[simp] theorem setXlat_posts (s : State) (k x) : (s.setXlat k x).posts = s.posts := rfl
@[simp] theorem setXlat_tails (s : State) (k x) : (s.setXlat k x).tails = s.tails := rfl
theorem xlat_setXlat_same (s : State) (k x) (h : swf Xlat.reset s.img.xlat = true) : (s.setXlat k x).xlat k = x := sget_sset_same _ _ _ _ h
theorem xlat_setXlat_ne (s : State) (k j x) (h : j ≠ k) : (s.setXlat k x).xlat j = s.xlat j := sget_sset_ne _ _ _ _ _ h

/-! ## setProg -/

@[simp] theorem setProg_pending (s : State) (k x) : (s.setProg k x).pending = s.pending := rfl
@[simp] theorem setProg_freeCtr (s : State) (k x) : (s.setProg k x).freeCtr = s.freeCtr := rfl
@[simp] theorem setProg_hclk (s : State) (k x) : (s.setProg k x).hclk = s.hclk := rfl
@[simp] theorem setProg_pwr (s : State) (k x) : (s.setProg k x).pwr = s.pwr := rfl
@[simp] theorem setProg_hubs (s : State) (k x) : (s.setProg k x).hubs = s.hubs := rfl
@[simp] theorem setProg_img (s : State) (k x) : (s.setProg k x).img = s.img := rfl
@[simp] theorem setProg_hub (s : State) (k x) : (s.setProg k x).hub = s.hub := rfl
@[simp] theorem setProg_flash (s : State) (k x) : (s.setProg k x).flash = s.flash := rfl
@[simp] theorem setProg_yards (s : State) (k x) : (s.setProg k x).yards = s.yards := rfl
@[simp] theorem setProg_mem (s : State) (k x) : (s.setProg k x).mem = s.mem := rfl
@[simp] theorem setProg_engines (s : State) (k x) : (s.setProg k x).engines = s.engines := rfl
@[simp] theorem setProg_fences (s : State) (k x) : (s.setProg k x).fences = s.fences := rfl
@[simp] theorem setProg_fenceSat (s : State) (k x) : (s.setProg k x).fenceSat = s.fenceSat := rfl
@[simp] theorem setProg_queues (s : State) (k x) : (s.setProg k x).queues = s.queues := rfl
@[simp] theorem setProg_slots (s : State) (k x) : (s.setProg k x).slots = s.slots := rfl
@[simp] theorem setProg_qSelHost (s : State) (k x) : (s.setProg k x).qSelHost = s.qSelHost := rfl
@[simp] theorem setProg_qSelPre (s : State) (k x) : (s.setProg k x).qSelPre = s.qSelPre := rfl
@[simp] theorem setProg_route (s : State) (k x) : (s.setProg k x).route = s.route := rfl
@[simp] theorem setProg_per (s : State) (k x) : (s.setProg k x).per = { s.per with progs := sset Program.reset s.per.progs k x } := rfl
@[simp] theorem setProg_links (s : State) (k x) : (s.setProg k x).links = s.links := rfl
@[simp] theorem setProg_mbx (s : State) (k x) : (s.setProg k x).mbx = s.mbx := rfl
@[simp] theorem setProg_clk (s : State) (k x) : (s.setProg k x).clk = s.clk := rfl
@[simp] theorem setProg_rng (s : State) (k x) : (s.setProg k x).rng = s.rng := rfl
@[simp] theorem setProg_rel (s : State) (k x) : (s.setProg k x).rel = s.rel := rfl
@[simp] theorem setProg_evr (s : State) (k x) : (s.setProg k x).evr = s.evr := rfl
@[simp] theorem setProg_ports (s : State) (k x) : (s.setProg k x).ports = s.ports := rfl
@[simp] theorem setProg_pmon (s : State) (k x) : (s.setProg k x).pmon = s.pmon := rfl
@[simp] theorem setProg_latchHost (s : State) (k x) : (s.setProg k x).latchHost = s.latchHost := rfl
@[simp] theorem setProg_latchPre (s : State) (k x) : (s.setProg k x).latchPre = s.latchPre := rfl
@[simp] theorem setProg_fresh (s : State) (k x) : (s.setProg k x).fresh = s.fresh := rfl
@[simp] theorem setProg_posts (s : State) (k x) : (s.setProg k x).posts = s.posts := rfl
@[simp] theorem setProg_tails (s : State) (k x) : (s.setProg k x).tails = s.tails := rfl
@[simp] theorem modProg_eq (s : State) (k f) : s.modProg k f = s.setProg k (f (s.prog k)) := rfl
theorem prog_setProg_same (s : State) (k x) (h : swf Program.reset s.per.progs = true) : (s.setProg k x).prog k = x := sget_sset_same _ _ _ _ h
theorem prog_setProg_ne (s : State) (k j x) (h : j ≠ k) : (s.setProg k x).prog j = s.prog j := sget_sset_ne _ _ _ _ _ h

/-! ## setPort -/

@[simp] theorem setPort_pending (s : State) (k x) : (s.setPort k x).pending = s.pending := rfl
@[simp] theorem setPort_freeCtr (s : State) (k x) : (s.setPort k x).freeCtr = s.freeCtr := rfl
@[simp] theorem setPort_hclk (s : State) (k x) : (s.setPort k x).hclk = s.hclk := rfl
@[simp] theorem setPort_pwr (s : State) (k x) : (s.setPort k x).pwr = s.pwr := rfl
@[simp] theorem setPort_hubs (s : State) (k x) : (s.setPort k x).hubs = s.hubs := rfl
@[simp] theorem setPort_img (s : State) (k x) : (s.setPort k x).img = s.img := rfl
@[simp] theorem setPort_hub (s : State) (k x) : (s.setPort k x).hub = s.hub := rfl
@[simp] theorem setPort_flash (s : State) (k x) : (s.setPort k x).flash = s.flash := rfl
@[simp] theorem setPort_yards (s : State) (k x) : (s.setPort k x).yards = s.yards := rfl
@[simp] theorem setPort_mem (s : State) (k x) : (s.setPort k x).mem = s.mem := rfl
@[simp] theorem setPort_engines (s : State) (k x) : (s.setPort k x).engines = s.engines := rfl
@[simp] theorem setPort_fences (s : State) (k x) : (s.setPort k x).fences = s.fences := rfl
@[simp] theorem setPort_fenceSat (s : State) (k x) : (s.setPort k x).fenceSat = s.fenceSat := rfl
@[simp] theorem setPort_queues (s : State) (k x) : (s.setPort k x).queues = s.queues := rfl
@[simp] theorem setPort_slots (s : State) (k x) : (s.setPort k x).slots = s.slots := rfl
@[simp] theorem setPort_qSelHost (s : State) (k x) : (s.setPort k x).qSelHost = s.qSelHost := rfl
@[simp] theorem setPort_qSelPre (s : State) (k x) : (s.setPort k x).qSelPre = s.qSelPre := rfl
@[simp] theorem setPort_route (s : State) (k x) : (s.setPort k x).route = s.route := rfl
@[simp] theorem setPort_per (s : State) (k x) : (s.setPort k x).per = { s.per with ports := sset DrivePort.reset s.per.ports k x } := rfl
@[simp] theorem setPort_links (s : State) (k x) : (s.setPort k x).links = s.links := rfl
@[simp] theorem setPort_mbx (s : State) (k x) : (s.setPort k x).mbx = s.mbx := rfl
@[simp] theorem setPort_clk (s : State) (k x) : (s.setPort k x).clk = s.clk := rfl
@[simp] theorem setPort_rng (s : State) (k x) : (s.setPort k x).rng = s.rng := rfl
@[simp] theorem setPort_rel (s : State) (k x) : (s.setPort k x).rel = s.rel := rfl
@[simp] theorem setPort_evr (s : State) (k x) : (s.setPort k x).evr = s.evr := rfl
@[simp] theorem setPort_ports (s : State) (k x) : (s.setPort k x).ports = s.ports := rfl
@[simp] theorem setPort_pmon (s : State) (k x) : (s.setPort k x).pmon = s.pmon := rfl
@[simp] theorem setPort_latchHost (s : State) (k x) : (s.setPort k x).latchHost = s.latchHost := rfl
@[simp] theorem setPort_latchPre (s : State) (k x) : (s.setPort k x).latchPre = s.latchPre := rfl
@[simp] theorem setPort_fresh (s : State) (k x) : (s.setPort k x).fresh = s.fresh := rfl
@[simp] theorem setPort_posts (s : State) (k x) : (s.setPort k x).posts = s.posts := rfl
@[simp] theorem setPort_tails (s : State) (k x) : (s.setPort k x).tails = s.tails := rfl
@[simp] theorem modPort_eq (s : State) (k f) : s.modPort k f = s.setPort k (f (s.port k)) := rfl
theorem port_setPort_same (s : State) (k x) (h : swf DrivePort.reset s.per.ports = true) : (s.setPort k x).port k = x := sget_sset_same _ _ _ _ h
theorem port_setPort_ne (s : State) (k j x) (h : j ≠ k) : (s.setPort k x).port j = s.port j := sget_sset_ne _ _ _ _ _ h

/-! ## setLink -/

@[simp] theorem setLink_pending (s : State) (k x) : (s.setLink k x).pending = s.pending := rfl
@[simp] theorem setLink_freeCtr (s : State) (k x) : (s.setLink k x).freeCtr = s.freeCtr := rfl
@[simp] theorem setLink_hclk (s : State) (k x) : (s.setLink k x).hclk = s.hclk := rfl
@[simp] theorem setLink_pwr (s : State) (k x) : (s.setLink k x).pwr = s.pwr := rfl
@[simp] theorem setLink_hubs (s : State) (k x) : (s.setLink k x).hubs = s.hubs := rfl
@[simp] theorem setLink_img (s : State) (k x) : (s.setLink k x).img = s.img := rfl
@[simp] theorem setLink_hub (s : State) (k x) : (s.setLink k x).hub = s.hub := rfl
@[simp] theorem setLink_flash (s : State) (k x) : (s.setLink k x).flash = s.flash := rfl
@[simp] theorem setLink_yards (s : State) (k x) : (s.setLink k x).yards = s.yards := rfl
@[simp] theorem setLink_mem (s : State) (k x) : (s.setLink k x).mem = s.mem := rfl
@[simp] theorem setLink_engines (s : State) (k x) : (s.setLink k x).engines = s.engines := rfl
@[simp] theorem setLink_fences (s : State) (k x) : (s.setLink k x).fences = s.fences := rfl
@[simp] theorem setLink_fenceSat (s : State) (k x) : (s.setLink k x).fenceSat = s.fenceSat := rfl
@[simp] theorem setLink_queues (s : State) (k x) : (s.setLink k x).queues = s.queues := rfl
@[simp] theorem setLink_slots (s : State) (k x) : (s.setLink k x).slots = s.slots := rfl
@[simp] theorem setLink_qSelHost (s : State) (k x) : (s.setLink k x).qSelHost = s.qSelHost := rfl
@[simp] theorem setLink_qSelPre (s : State) (k x) : (s.setLink k x).qSelPre = s.qSelPre := rfl
@[simp] theorem setLink_route (s : State) (k x) : (s.setLink k x).route = s.route := rfl
@[simp] theorem setLink_per (s : State) (k x) : (s.setLink k x).per = s.per := rfl
@[simp] theorem setLink_links (s : State) (k x) : (s.setLink k x).links = sset LinkPort.reset s.links k x := rfl
@[simp] theorem setLink_mbx (s : State) (k x) : (s.setLink k x).mbx = s.mbx := rfl
@[simp] theorem setLink_clk (s : State) (k x) : (s.setLink k x).clk = s.clk := rfl
@[simp] theorem setLink_rng (s : State) (k x) : (s.setLink k x).rng = s.rng := rfl
@[simp] theorem setLink_rel (s : State) (k x) : (s.setLink k x).rel = s.rel := rfl
@[simp] theorem setLink_evr (s : State) (k x) : (s.setLink k x).evr = s.evr := rfl
@[simp] theorem setLink_ports (s : State) (k x) : (s.setLink k x).ports = s.ports := rfl
@[simp] theorem setLink_pmon (s : State) (k x) : (s.setLink k x).pmon = s.pmon := rfl
@[simp] theorem setLink_latchHost (s : State) (k x) : (s.setLink k x).latchHost = s.latchHost := rfl
@[simp] theorem setLink_latchPre (s : State) (k x) : (s.setLink k x).latchPre = s.latchPre := rfl
@[simp] theorem setLink_fresh (s : State) (k x) : (s.setLink k x).fresh = s.fresh := rfl
@[simp] theorem setLink_posts (s : State) (k x) : (s.setLink k x).posts = s.posts := rfl
@[simp] theorem setLink_tails (s : State) (k x) : (s.setLink k x).tails = s.tails := rfl
@[simp] theorem modLink_eq (s : State) (k f) : s.modLink k f = s.setLink k (f (s.link k)) := rfl
theorem link_setLink_same (s : State) (k x) (h : swf LinkPort.reset s.links = true) : (s.setLink k x).link k = x := sget_sset_same _ _ _ _ h
theorem link_setLink_ne (s : State) (k j x) (h : j ≠ k) : (s.setLink k x).link j = s.link j := sget_sset_ne _ _ _ _ _ h

/-! ## setH2f -/

@[simp] theorem setH2f_pending (s : State) (k x) : (s.setH2f k x).pending = s.pending := rfl
@[simp] theorem setH2f_freeCtr (s : State) (k x) : (s.setH2f k x).freeCtr = s.freeCtr := rfl
@[simp] theorem setH2f_hclk (s : State) (k x) : (s.setH2f k x).hclk = s.hclk := rfl
@[simp] theorem setH2f_pwr (s : State) (k x) : (s.setH2f k x).pwr = s.pwr := rfl
@[simp] theorem setH2f_hubs (s : State) (k x) : (s.setH2f k x).hubs = s.hubs := rfl
@[simp] theorem setH2f_img (s : State) (k x) : (s.setH2f k x).img = s.img := rfl
@[simp] theorem setH2f_hub (s : State) (k x) : (s.setH2f k x).hub = s.hub := rfl
@[simp] theorem setH2f_flash (s : State) (k x) : (s.setH2f k x).flash = s.flash := rfl
@[simp] theorem setH2f_yards (s : State) (k x) : (s.setH2f k x).yards = s.yards := rfl
@[simp] theorem setH2f_mem (s : State) (k x) : (s.setH2f k x).mem = s.mem := rfl
@[simp] theorem setH2f_engines (s : State) (k x) : (s.setH2f k x).engines = s.engines := rfl
@[simp] theorem setH2f_fences (s : State) (k x) : (s.setH2f k x).fences = s.fences := rfl
@[simp] theorem setH2f_fenceSat (s : State) (k x) : (s.setH2f k x).fenceSat = s.fenceSat := rfl
@[simp] theorem setH2f_queues (s : State) (k x) : (s.setH2f k x).queues = s.queues := rfl
@[simp] theorem setH2f_slots (s : State) (k x) : (s.setH2f k x).slots = s.slots := rfl
@[simp] theorem setH2f_qSelHost (s : State) (k x) : (s.setH2f k x).qSelHost = s.qSelHost := rfl
@[simp] theorem setH2f_qSelPre (s : State) (k x) : (s.setH2f k x).qSelPre = s.qSelPre := rfl
@[simp] theorem setH2f_route (s : State) (k x) : (s.setH2f k x).route = s.route := rfl
@[simp] theorem setH2f_per (s : State) (k x) : (s.setH2f k x).per = s.per := rfl
@[simp] theorem setH2f_links (s : State) (k x) : (s.setH2f k x).links = s.links := rfl
@[simp] theorem setH2f_mbx (s : State) (k x) : (s.setH2f k x).mbx = { s.mbx with h2f := sset H2f.reset s.mbx.h2f k x } := rfl
@[simp] theorem setH2f_clk (s : State) (k x) : (s.setH2f k x).clk = s.clk := rfl
@[simp] theorem setH2f_rng (s : State) (k x) : (s.setH2f k x).rng = s.rng := rfl
@[simp] theorem setH2f_rel (s : State) (k x) : (s.setH2f k x).rel = s.rel := rfl
@[simp] theorem setH2f_evr (s : State) (k x) : (s.setH2f k x).evr = s.evr := rfl
@[simp] theorem setH2f_ports (s : State) (k x) : (s.setH2f k x).ports = s.ports := rfl
@[simp] theorem setH2f_pmon (s : State) (k x) : (s.setH2f k x).pmon = s.pmon := rfl
@[simp] theorem setH2f_latchHost (s : State) (k x) : (s.setH2f k x).latchHost = s.latchHost := rfl
@[simp] theorem setH2f_latchPre (s : State) (k x) : (s.setH2f k x).latchPre = s.latchPre := rfl
@[simp] theorem setH2f_fresh (s : State) (k x) : (s.setH2f k x).fresh = s.fresh := rfl
@[simp] theorem setH2f_posts (s : State) (k x) : (s.setH2f k x).posts = s.posts := rfl
@[simp] theorem setH2f_tails (s : State) (k x) : (s.setH2f k x).tails = s.tails := rfl
theorem h2f_setH2f_same (s : State) (k x) (h : swf H2f.reset s.mbx.h2f = true) : (s.setH2f k x).h2f k = x := sget_sset_same _ _ _ _ h
theorem h2f_setH2f_ne (s : State) (k j x) (h : j ≠ k) : (s.setH2f k x).h2f j = s.h2f j := sget_sset_ne _ _ _ _ _ h

/-! ## setF2h -/

@[simp] theorem setF2h_pending (s : State) (k x) : (s.setF2h k x).pending = s.pending := rfl
@[simp] theorem setF2h_freeCtr (s : State) (k x) : (s.setF2h k x).freeCtr = s.freeCtr := rfl
@[simp] theorem setF2h_hclk (s : State) (k x) : (s.setF2h k x).hclk = s.hclk := rfl
@[simp] theorem setF2h_pwr (s : State) (k x) : (s.setF2h k x).pwr = s.pwr := rfl
@[simp] theorem setF2h_hubs (s : State) (k x) : (s.setF2h k x).hubs = s.hubs := rfl
@[simp] theorem setF2h_img (s : State) (k x) : (s.setF2h k x).img = s.img := rfl
@[simp] theorem setF2h_hub (s : State) (k x) : (s.setF2h k x).hub = s.hub := rfl
@[simp] theorem setF2h_flash (s : State) (k x) : (s.setF2h k x).flash = s.flash := rfl
@[simp] theorem setF2h_yards (s : State) (k x) : (s.setF2h k x).yards = s.yards := rfl
@[simp] theorem setF2h_mem (s : State) (k x) : (s.setF2h k x).mem = s.mem := rfl
@[simp] theorem setF2h_engines (s : State) (k x) : (s.setF2h k x).engines = s.engines := rfl
@[simp] theorem setF2h_fences (s : State) (k x) : (s.setF2h k x).fences = s.fences := rfl
@[simp] theorem setF2h_fenceSat (s : State) (k x) : (s.setF2h k x).fenceSat = s.fenceSat := rfl
@[simp] theorem setF2h_queues (s : State) (k x) : (s.setF2h k x).queues = s.queues := rfl
@[simp] theorem setF2h_slots (s : State) (k x) : (s.setF2h k x).slots = s.slots := rfl
@[simp] theorem setF2h_qSelHost (s : State) (k x) : (s.setF2h k x).qSelHost = s.qSelHost := rfl
@[simp] theorem setF2h_qSelPre (s : State) (k x) : (s.setF2h k x).qSelPre = s.qSelPre := rfl
@[simp] theorem setF2h_route (s : State) (k x) : (s.setF2h k x).route = s.route := rfl
@[simp] theorem setF2h_per (s : State) (k x) : (s.setF2h k x).per = s.per := rfl
@[simp] theorem setF2h_links (s : State) (k x) : (s.setF2h k x).links = s.links := rfl
@[simp] theorem setF2h_mbx (s : State) (k x) : (s.setF2h k x).mbx = { s.mbx with f2h := sset F2h.reset s.mbx.f2h k x } := rfl
@[simp] theorem setF2h_clk (s : State) (k x) : (s.setF2h k x).clk = s.clk := rfl
@[simp] theorem setF2h_rng (s : State) (k x) : (s.setF2h k x).rng = s.rng := rfl
@[simp] theorem setF2h_rel (s : State) (k x) : (s.setF2h k x).rel = s.rel := rfl
@[simp] theorem setF2h_evr (s : State) (k x) : (s.setF2h k x).evr = s.evr := rfl
@[simp] theorem setF2h_ports (s : State) (k x) : (s.setF2h k x).ports = s.ports := rfl
@[simp] theorem setF2h_pmon (s : State) (k x) : (s.setF2h k x).pmon = s.pmon := rfl
@[simp] theorem setF2h_latchHost (s : State) (k x) : (s.setF2h k x).latchHost = s.latchHost := rfl
@[simp] theorem setF2h_latchPre (s : State) (k x) : (s.setF2h k x).latchPre = s.latchPre := rfl
@[simp] theorem setF2h_fresh (s : State) (k x) : (s.setF2h k x).fresh = s.fresh := rfl
@[simp] theorem setF2h_posts (s : State) (k x) : (s.setF2h k x).posts = s.posts := rfl
@[simp] theorem setF2h_tails (s : State) (k x) : (s.setF2h k x).tails = s.tails := rfl
theorem f2h_setF2h_same (s : State) (k x) (h : swf F2h.reset s.mbx.f2h = true) : (s.setF2h k x).f2h k = x := sget_sset_same _ _ _ _ h
theorem f2h_setF2h_ne (s : State) (k j x) (h : j ≠ k) : (s.setF2h k x).f2h j = s.f2h j := sget_sset_ne _ _ _ _ _ h

/-! ## setRngHub -/

@[simp] theorem setRngHub_pending (s : State) (k x) : (s.setRngHub k x).pending = s.pending := rfl
@[simp] theorem setRngHub_freeCtr (s : State) (k x) : (s.setRngHub k x).freeCtr = s.freeCtr := rfl
@[simp] theorem setRngHub_hclk (s : State) (k x) : (s.setRngHub k x).hclk = s.hclk := rfl
@[simp] theorem setRngHub_pwr (s : State) (k x) : (s.setRngHub k x).pwr = s.pwr := rfl
@[simp] theorem setRngHub_hubs (s : State) (k x) : (s.setRngHub k x).hubs = s.hubs := rfl
@[simp] theorem setRngHub_img (s : State) (k x) : (s.setRngHub k x).img = s.img := rfl
@[simp] theorem setRngHub_hub (s : State) (k x) : (s.setRngHub k x).hub = s.hub := rfl
@[simp] theorem setRngHub_flash (s : State) (k x) : (s.setRngHub k x).flash = s.flash := rfl
@[simp] theorem setRngHub_yards (s : State) (k x) : (s.setRngHub k x).yards = s.yards := rfl
@[simp] theorem setRngHub_mem (s : State) (k x) : (s.setRngHub k x).mem = s.mem := rfl
@[simp] theorem setRngHub_engines (s : State) (k x) : (s.setRngHub k x).engines = s.engines := rfl
@[simp] theorem setRngHub_fences (s : State) (k x) : (s.setRngHub k x).fences = s.fences := rfl
@[simp] theorem setRngHub_fenceSat (s : State) (k x) : (s.setRngHub k x).fenceSat = s.fenceSat := rfl
@[simp] theorem setRngHub_queues (s : State) (k x) : (s.setRngHub k x).queues = s.queues := rfl
@[simp] theorem setRngHub_slots (s : State) (k x) : (s.setRngHub k x).slots = s.slots := rfl
@[simp] theorem setRngHub_qSelHost (s : State) (k x) : (s.setRngHub k x).qSelHost = s.qSelHost := rfl
@[simp] theorem setRngHub_qSelPre (s : State) (k x) : (s.setRngHub k x).qSelPre = s.qSelPre := rfl
@[simp] theorem setRngHub_route (s : State) (k x) : (s.setRngHub k x).route = s.route := rfl
@[simp] theorem setRngHub_per (s : State) (k x) : (s.setRngHub k x).per = s.per := rfl
@[simp] theorem setRngHub_links (s : State) (k x) : (s.setRngHub k x).links = s.links := rfl
@[simp] theorem setRngHub_mbx (s : State) (k x) : (s.setRngHub k x).mbx = s.mbx := rfl
@[simp] theorem setRngHub_clk (s : State) (k x) : (s.setRngHub k x).clk = s.clk := rfl
@[simp] theorem setRngHub_rng (s : State) (k x) : (s.setRngHub k x).rng = { s.rng with hubs := sset RngHub.reset s.rng.hubs k x } := rfl
@[simp] theorem setRngHub_rel (s : State) (k x) : (s.setRngHub k x).rel = s.rel := rfl
@[simp] theorem setRngHub_evr (s : State) (k x) : (s.setRngHub k x).evr = s.evr := rfl
@[simp] theorem setRngHub_ports (s : State) (k x) : (s.setRngHub k x).ports = s.ports := rfl
@[simp] theorem setRngHub_pmon (s : State) (k x) : (s.setRngHub k x).pmon = s.pmon := rfl
@[simp] theorem setRngHub_latchHost (s : State) (k x) : (s.setRngHub k x).latchHost = s.latchHost := rfl
@[simp] theorem setRngHub_latchPre (s : State) (k x) : (s.setRngHub k x).latchPre = s.latchPre := rfl
@[simp] theorem setRngHub_fresh (s : State) (k x) : (s.setRngHub k x).fresh = s.fresh := rfl
@[simp] theorem setRngHub_posts (s : State) (k x) : (s.setRngHub k x).posts = s.posts := rfl
@[simp] theorem setRngHub_tails (s : State) (k x) : (s.setRngHub k x).tails = s.tails := rfl
@[simp] theorem modRngHub_eq (s : State) (k f) : s.modRngHub k f = s.setRngHub k (f (s.rngHub k)) := rfl
theorem rngHub_setRngHub_same (s : State) (k x) (h : swf RngHub.reset s.rng.hubs = true) : (s.setRngHub k x).rngHub k = x := sget_sset_same _ _ _ _ h
theorem rngHub_setRngHub_ne (s : State) (k j x) (h : j ≠ k) : (s.setRngHub k x).rngHub j = s.rngHub j := sget_sset_ne _ _ _ _ _ h

/-! ## modPwr -/

@[simp] theorem modPwr_pending (s : State) (f) : (s.modPwr f).pending = s.pending := rfl
@[simp] theorem modPwr_freeCtr (s : State) (f) : (s.modPwr f).freeCtr = s.freeCtr := rfl
@[simp] theorem modPwr_hclk (s : State) (f) : (s.modPwr f).hclk = s.hclk := rfl
@[simp] theorem modPwr_pwr (s : State) (f) : (s.modPwr f).pwr = f s.pwr := rfl
@[simp] theorem modPwr_hubs (s : State) (f) : (s.modPwr f).hubs = s.hubs := rfl
@[simp] theorem modPwr_img (s : State) (f) : (s.modPwr f).img = s.img := rfl
@[simp] theorem modPwr_hub (s : State) (f) : (s.modPwr f).hub = s.hub := rfl
@[simp] theorem modPwr_flash (s : State) (f) : (s.modPwr f).flash = s.flash := rfl
@[simp] theorem modPwr_yards (s : State) (f) : (s.modPwr f).yards = s.yards := rfl
@[simp] theorem modPwr_mem (s : State) (f) : (s.modPwr f).mem = s.mem := rfl
@[simp] theorem modPwr_engines (s : State) (f) : (s.modPwr f).engines = s.engines := rfl
@[simp] theorem modPwr_fences (s : State) (f) : (s.modPwr f).fences = s.fences := rfl
@[simp] theorem modPwr_fenceSat (s : State) (f) : (s.modPwr f).fenceSat = s.fenceSat := rfl
@[simp] theorem modPwr_queues (s : State) (f) : (s.modPwr f).queues = s.queues := rfl
@[simp] theorem modPwr_slots (s : State) (f) : (s.modPwr f).slots = s.slots := rfl
@[simp] theorem modPwr_qSelHost (s : State) (f) : (s.modPwr f).qSelHost = s.qSelHost := rfl
@[simp] theorem modPwr_qSelPre (s : State) (f) : (s.modPwr f).qSelPre = s.qSelPre := rfl
@[simp] theorem modPwr_route (s : State) (f) : (s.modPwr f).route = s.route := rfl
@[simp] theorem modPwr_per (s : State) (f) : (s.modPwr f).per = s.per := rfl
@[simp] theorem modPwr_links (s : State) (f) : (s.modPwr f).links = s.links := rfl
@[simp] theorem modPwr_mbx (s : State) (f) : (s.modPwr f).mbx = s.mbx := rfl
@[simp] theorem modPwr_clk (s : State) (f) : (s.modPwr f).clk = s.clk := rfl
@[simp] theorem modPwr_rng (s : State) (f) : (s.modPwr f).rng = s.rng := rfl
@[simp] theorem modPwr_rel (s : State) (f) : (s.modPwr f).rel = s.rel := rfl
@[simp] theorem modPwr_evr (s : State) (f) : (s.modPwr f).evr = s.evr := rfl
@[simp] theorem modPwr_ports (s : State) (f) : (s.modPwr f).ports = s.ports := rfl
@[simp] theorem modPwr_pmon (s : State) (f) : (s.modPwr f).pmon = s.pmon := rfl
@[simp] theorem modPwr_latchHost (s : State) (f) : (s.modPwr f).latchHost = s.latchHost := rfl
@[simp] theorem modPwr_latchPre (s : State) (f) : (s.modPwr f).latchPre = s.latchPre := rfl
@[simp] theorem modPwr_fresh (s : State) (f) : (s.modPwr f).fresh = s.fresh := rfl
@[simp] theorem modPwr_posts (s : State) (f) : (s.modPwr f).posts = s.posts := rfl
@[simp] theorem modPwr_tails (s : State) (f) : (s.modPwr f).tails = s.tails := rfl

/-! ## modRel -/

@[simp] theorem modRel_pending (s : State) (f) : (s.modRel f).pending = s.pending := rfl
@[simp] theorem modRel_freeCtr (s : State) (f) : (s.modRel f).freeCtr = s.freeCtr := rfl
@[simp] theorem modRel_hclk (s : State) (f) : (s.modRel f).hclk = s.hclk := rfl
@[simp] theorem modRel_pwr (s : State) (f) : (s.modRel f).pwr = s.pwr := rfl
@[simp] theorem modRel_hubs (s : State) (f) : (s.modRel f).hubs = s.hubs := rfl
@[simp] theorem modRel_img (s : State) (f) : (s.modRel f).img = s.img := rfl
@[simp] theorem modRel_hub (s : State) (f) : (s.modRel f).hub = s.hub := rfl
@[simp] theorem modRel_flash (s : State) (f) : (s.modRel f).flash = s.flash := rfl
@[simp] theorem modRel_yards (s : State) (f) : (s.modRel f).yards = s.yards := rfl
@[simp] theorem modRel_mem (s : State) (f) : (s.modRel f).mem = s.mem := rfl
@[simp] theorem modRel_engines (s : State) (f) : (s.modRel f).engines = s.engines := rfl
@[simp] theorem modRel_fences (s : State) (f) : (s.modRel f).fences = s.fences := rfl
@[simp] theorem modRel_fenceSat (s : State) (f) : (s.modRel f).fenceSat = s.fenceSat := rfl
@[simp] theorem modRel_queues (s : State) (f) : (s.modRel f).queues = s.queues := rfl
@[simp] theorem modRel_slots (s : State) (f) : (s.modRel f).slots = s.slots := rfl
@[simp] theorem modRel_qSelHost (s : State) (f) : (s.modRel f).qSelHost = s.qSelHost := rfl
@[simp] theorem modRel_qSelPre (s : State) (f) : (s.modRel f).qSelPre = s.qSelPre := rfl
@[simp] theorem modRel_route (s : State) (f) : (s.modRel f).route = s.route := rfl
@[simp] theorem modRel_per (s : State) (f) : (s.modRel f).per = s.per := rfl
@[simp] theorem modRel_links (s : State) (f) : (s.modRel f).links = s.links := rfl
@[simp] theorem modRel_mbx (s : State) (f) : (s.modRel f).mbx = s.mbx := rfl
@[simp] theorem modRel_clk (s : State) (f) : (s.modRel f).clk = s.clk := rfl
@[simp] theorem modRel_rng (s : State) (f) : (s.modRel f).rng = s.rng := rfl
@[simp] theorem modRel_rel (s : State) (f) : (s.modRel f).rel = f s.rel := rfl
@[simp] theorem modRel_evr (s : State) (f) : (s.modRel f).evr = s.evr := rfl
@[simp] theorem modRel_ports (s : State) (f) : (s.modRel f).ports = s.ports := rfl
@[simp] theorem modRel_pmon (s : State) (f) : (s.modRel f).pmon = s.pmon := rfl
@[simp] theorem modRel_latchHost (s : State) (f) : (s.modRel f).latchHost = s.latchHost := rfl
@[simp] theorem modRel_latchPre (s : State) (f) : (s.modRel f).latchPre = s.latchPre := rfl
@[simp] theorem modRel_fresh (s : State) (f) : (s.modRel f).fresh = s.fresh := rfl
@[simp] theorem modRel_posts (s : State) (f) : (s.modRel f).posts = s.posts := rfl
@[simp] theorem modRel_tails (s : State) (f) : (s.modRel f).tails = s.tails := rfl

/-! ## modMbx -/

@[simp] theorem modMbx_pending (s : State) (f) : (s.modMbx f).pending = s.pending := rfl
@[simp] theorem modMbx_freeCtr (s : State) (f) : (s.modMbx f).freeCtr = s.freeCtr := rfl
@[simp] theorem modMbx_hclk (s : State) (f) : (s.modMbx f).hclk = s.hclk := rfl
@[simp] theorem modMbx_pwr (s : State) (f) : (s.modMbx f).pwr = s.pwr := rfl
@[simp] theorem modMbx_hubs (s : State) (f) : (s.modMbx f).hubs = s.hubs := rfl
@[simp] theorem modMbx_img (s : State) (f) : (s.modMbx f).img = s.img := rfl
@[simp] theorem modMbx_hub (s : State) (f) : (s.modMbx f).hub = s.hub := rfl
@[simp] theorem modMbx_flash (s : State) (f) : (s.modMbx f).flash = s.flash := rfl
@[simp] theorem modMbx_yards (s : State) (f) : (s.modMbx f).yards = s.yards := rfl
@[simp] theorem modMbx_mem (s : State) (f) : (s.modMbx f).mem = s.mem := rfl
@[simp] theorem modMbx_engines (s : State) (f) : (s.modMbx f).engines = s.engines := rfl
@[simp] theorem modMbx_fences (s : State) (f) : (s.modMbx f).fences = s.fences := rfl
@[simp] theorem modMbx_fenceSat (s : State) (f) : (s.modMbx f).fenceSat = s.fenceSat := rfl
@[simp] theorem modMbx_queues (s : State) (f) : (s.modMbx f).queues = s.queues := rfl
@[simp] theorem modMbx_slots (s : State) (f) : (s.modMbx f).slots = s.slots := rfl
@[simp] theorem modMbx_qSelHost (s : State) (f) : (s.modMbx f).qSelHost = s.qSelHost := rfl
@[simp] theorem modMbx_qSelPre (s : State) (f) : (s.modMbx f).qSelPre = s.qSelPre := rfl
@[simp] theorem modMbx_route (s : State) (f) : (s.modMbx f).route = s.route := rfl
@[simp] theorem modMbx_per (s : State) (f) : (s.modMbx f).per = s.per := rfl
@[simp] theorem modMbx_links (s : State) (f) : (s.modMbx f).links = s.links := rfl
@[simp] theorem modMbx_mbx (s : State) (f) : (s.modMbx f).mbx = f s.mbx := rfl
@[simp] theorem modMbx_clk (s : State) (f) : (s.modMbx f).clk = s.clk := rfl
@[simp] theorem modMbx_rng (s : State) (f) : (s.modMbx f).rng = s.rng := rfl
@[simp] theorem modMbx_rel (s : State) (f) : (s.modMbx f).rel = s.rel := rfl
@[simp] theorem modMbx_evr (s : State) (f) : (s.modMbx f).evr = s.evr := rfl
@[simp] theorem modMbx_ports (s : State) (f) : (s.modMbx f).ports = s.ports := rfl
@[simp] theorem modMbx_pmon (s : State) (f) : (s.modMbx f).pmon = s.pmon := rfl
@[simp] theorem modMbx_latchHost (s : State) (f) : (s.modMbx f).latchHost = s.latchHost := rfl
@[simp] theorem modMbx_latchPre (s : State) (f) : (s.modMbx f).latchPre = s.latchPre := rfl
@[simp] theorem modMbx_fresh (s : State) (f) : (s.modMbx f).fresh = s.fresh := rfl
@[simp] theorem modMbx_posts (s : State) (f) : (s.modMbx f).posts = s.posts := rfl
@[simp] theorem modMbx_tails (s : State) (f) : (s.modMbx f).tails = s.tails := rfl

/-! ## modEvr -/

@[simp] theorem modEvr_pending (s : State) (f) : (s.modEvr f).pending = s.pending := rfl
@[simp] theorem modEvr_freeCtr (s : State) (f) : (s.modEvr f).freeCtr = s.freeCtr := rfl
@[simp] theorem modEvr_hclk (s : State) (f) : (s.modEvr f).hclk = s.hclk := rfl
@[simp] theorem modEvr_pwr (s : State) (f) : (s.modEvr f).pwr = s.pwr := rfl
@[simp] theorem modEvr_hubs (s : State) (f) : (s.modEvr f).hubs = s.hubs := rfl
@[simp] theorem modEvr_img (s : State) (f) : (s.modEvr f).img = s.img := rfl
@[simp] theorem modEvr_hub (s : State) (f) : (s.modEvr f).hub = s.hub := rfl
@[simp] theorem modEvr_flash (s : State) (f) : (s.modEvr f).flash = s.flash := rfl
@[simp] theorem modEvr_yards (s : State) (f) : (s.modEvr f).yards = s.yards := rfl
@[simp] theorem modEvr_mem (s : State) (f) : (s.modEvr f).mem = s.mem := rfl
@[simp] theorem modEvr_engines (s : State) (f) : (s.modEvr f).engines = s.engines := rfl
@[simp] theorem modEvr_fences (s : State) (f) : (s.modEvr f).fences = s.fences := rfl
@[simp] theorem modEvr_fenceSat (s : State) (f) : (s.modEvr f).fenceSat = s.fenceSat := rfl
@[simp] theorem modEvr_queues (s : State) (f) : (s.modEvr f).queues = s.queues := rfl
@[simp] theorem modEvr_slots (s : State) (f) : (s.modEvr f).slots = s.slots := rfl
@[simp] theorem modEvr_qSelHost (s : State) (f) : (s.modEvr f).qSelHost = s.qSelHost := rfl
@[simp] theorem modEvr_qSelPre (s : State) (f) : (s.modEvr f).qSelPre = s.qSelPre := rfl
@[simp] theorem modEvr_route (s : State) (f) : (s.modEvr f).route = s.route := rfl
@[simp] theorem modEvr_per (s : State) (f) : (s.modEvr f).per = s.per := rfl
@[simp] theorem modEvr_links (s : State) (f) : (s.modEvr f).links = s.links := rfl
@[simp] theorem modEvr_mbx (s : State) (f) : (s.modEvr f).mbx = s.mbx := rfl
@[simp] theorem modEvr_clk (s : State) (f) : (s.modEvr f).clk = s.clk := rfl
@[simp] theorem modEvr_rng (s : State) (f) : (s.modEvr f).rng = s.rng := rfl
@[simp] theorem modEvr_rel (s : State) (f) : (s.modEvr f).rel = s.rel := rfl
@[simp] theorem modEvr_evr (s : State) (f) : (s.modEvr f).evr = f s.evr := rfl
@[simp] theorem modEvr_ports (s : State) (f) : (s.modEvr f).ports = s.ports := rfl
@[simp] theorem modEvr_pmon (s : State) (f) : (s.modEvr f).pmon = s.pmon := rfl
@[simp] theorem modEvr_latchHost (s : State) (f) : (s.modEvr f).latchHost = s.latchHost := rfl
@[simp] theorem modEvr_latchPre (s : State) (f) : (s.modEvr f).latchPre = s.latchPre := rfl
@[simp] theorem modEvr_fresh (s : State) (f) : (s.modEvr f).fresh = s.fresh := rfl
@[simp] theorem modEvr_posts (s : State) (f) : (s.modEvr f).posts = s.posts := rfl
@[simp] theorem modEvr_tails (s : State) (f) : (s.modEvr f).tails = s.tails := rfl

/-! ## modClk -/

@[simp] theorem modClk_pending (s : State) (f) : (s.modClk f).pending = s.pending := rfl
@[simp] theorem modClk_freeCtr (s : State) (f) : (s.modClk f).freeCtr = s.freeCtr := rfl
@[simp] theorem modClk_hclk (s : State) (f) : (s.modClk f).hclk = s.hclk := rfl
@[simp] theorem modClk_pwr (s : State) (f) : (s.modClk f).pwr = s.pwr := rfl
@[simp] theorem modClk_hubs (s : State) (f) : (s.modClk f).hubs = s.hubs := rfl
@[simp] theorem modClk_img (s : State) (f) : (s.modClk f).img = s.img := rfl
@[simp] theorem modClk_hub (s : State) (f) : (s.modClk f).hub = s.hub := rfl
@[simp] theorem modClk_flash (s : State) (f) : (s.modClk f).flash = s.flash := rfl
@[simp] theorem modClk_yards (s : State) (f) : (s.modClk f).yards = s.yards := rfl
@[simp] theorem modClk_mem (s : State) (f) : (s.modClk f).mem = s.mem := rfl
@[simp] theorem modClk_engines (s : State) (f) : (s.modClk f).engines = s.engines := rfl
@[simp] theorem modClk_fences (s : State) (f) : (s.modClk f).fences = s.fences := rfl
@[simp] theorem modClk_fenceSat (s : State) (f) : (s.modClk f).fenceSat = s.fenceSat := rfl
@[simp] theorem modClk_queues (s : State) (f) : (s.modClk f).queues = s.queues := rfl
@[simp] theorem modClk_slots (s : State) (f) : (s.modClk f).slots = s.slots := rfl
@[simp] theorem modClk_qSelHost (s : State) (f) : (s.modClk f).qSelHost = s.qSelHost := rfl
@[simp] theorem modClk_qSelPre (s : State) (f) : (s.modClk f).qSelPre = s.qSelPre := rfl
@[simp] theorem modClk_route (s : State) (f) : (s.modClk f).route = s.route := rfl
@[simp] theorem modClk_per (s : State) (f) : (s.modClk f).per = s.per := rfl
@[simp] theorem modClk_links (s : State) (f) : (s.modClk f).links = s.links := rfl
@[simp] theorem modClk_mbx (s : State) (f) : (s.modClk f).mbx = s.mbx := rfl
@[simp] theorem modClk_clk (s : State) (f) : (s.modClk f).clk = f s.clk := rfl
@[simp] theorem modClk_rng (s : State) (f) : (s.modClk f).rng = s.rng := rfl
@[simp] theorem modClk_rel (s : State) (f) : (s.modClk f).rel = s.rel := rfl
@[simp] theorem modClk_evr (s : State) (f) : (s.modClk f).evr = s.evr := rfl
@[simp] theorem modClk_ports (s : State) (f) : (s.modClk f).ports = s.ports := rfl
@[simp] theorem modClk_pmon (s : State) (f) : (s.modClk f).pmon = s.pmon := rfl
@[simp] theorem modClk_latchHost (s : State) (f) : (s.modClk f).latchHost = s.latchHost := rfl
@[simp] theorem modClk_latchPre (s : State) (f) : (s.modClk f).latchPre = s.latchPre := rfl
@[simp] theorem modClk_fresh (s : State) (f) : (s.modClk f).fresh = s.fresh := rfl
@[simp] theorem modClk_posts (s : State) (f) : (s.modClk f).posts = s.posts := rfl
@[simp] theorem modClk_tails (s : State) (f) : (s.modClk f).tails = s.tails := rfl

/-! ## modPorts -/

@[simp] theorem modPorts_pending (s : State) (f) : (s.modPorts f).pending = s.pending := rfl
@[simp] theorem modPorts_freeCtr (s : State) (f) : (s.modPorts f).freeCtr = s.freeCtr := rfl
@[simp] theorem modPorts_hclk (s : State) (f) : (s.modPorts f).hclk = s.hclk := rfl
@[simp] theorem modPorts_pwr (s : State) (f) : (s.modPorts f).pwr = s.pwr := rfl
@[simp] theorem modPorts_hubs (s : State) (f) : (s.modPorts f).hubs = s.hubs := rfl
@[simp] theorem modPorts_img (s : State) (f) : (s.modPorts f).img = s.img := rfl
@[simp] theorem modPorts_hub (s : State) (f) : (s.modPorts f).hub = s.hub := rfl
@[simp] theorem modPorts_flash (s : State) (f) : (s.modPorts f).flash = s.flash := rfl
@[simp] theorem modPorts_yards (s : State) (f) : (s.modPorts f).yards = s.yards := rfl
@[simp] theorem modPorts_mem (s : State) (f) : (s.modPorts f).mem = s.mem := rfl
@[simp] theorem modPorts_engines (s : State) (f) : (s.modPorts f).engines = s.engines := rfl
@[simp] theorem modPorts_fences (s : State) (f) : (s.modPorts f).fences = s.fences := rfl
@[simp] theorem modPorts_fenceSat (s : State) (f) : (s.modPorts f).fenceSat = s.fenceSat := rfl
@[simp] theorem modPorts_queues (s : State) (f) : (s.modPorts f).queues = s.queues := rfl
@[simp] theorem modPorts_slots (s : State) (f) : (s.modPorts f).slots = s.slots := rfl
@[simp] theorem modPorts_qSelHost (s : State) (f) : (s.modPorts f).qSelHost = s.qSelHost := rfl
@[simp] theorem modPorts_qSelPre (s : State) (f) : (s.modPorts f).qSelPre = s.qSelPre := rfl
@[simp] theorem modPorts_route (s : State) (f) : (s.modPorts f).route = s.route := rfl
@[simp] theorem modPorts_per (s : State) (f) : (s.modPorts f).per = s.per := rfl
@[simp] theorem modPorts_links (s : State) (f) : (s.modPorts f).links = s.links := rfl
@[simp] theorem modPorts_mbx (s : State) (f) : (s.modPorts f).mbx = s.mbx := rfl
@[simp] theorem modPorts_clk (s : State) (f) : (s.modPorts f).clk = s.clk := rfl
@[simp] theorem modPorts_rng (s : State) (f) : (s.modPorts f).rng = s.rng := rfl
@[simp] theorem modPorts_rel (s : State) (f) : (s.modPorts f).rel = s.rel := rfl
@[simp] theorem modPorts_evr (s : State) (f) : (s.modPorts f).evr = s.evr := rfl
@[simp] theorem modPorts_ports (s : State) (f) : (s.modPorts f).ports = f s.ports := rfl
@[simp] theorem modPorts_pmon (s : State) (f) : (s.modPorts f).pmon = s.pmon := rfl
@[simp] theorem modPorts_latchHost (s : State) (f) : (s.modPorts f).latchHost = s.latchHost := rfl
@[simp] theorem modPorts_latchPre (s : State) (f) : (s.modPorts f).latchPre = s.latchPre := rfl
@[simp] theorem modPorts_fresh (s : State) (f) : (s.modPorts f).fresh = s.fresh := rfl
@[simp] theorem modPorts_posts (s : State) (f) : (s.modPorts f).posts = s.posts := rfl
@[simp] theorem modPorts_tails (s : State) (f) : (s.modPorts f).tails = s.tails := rfl

/-! ## modPer -/

@[simp] theorem modPer_pending (s : State) (f) : (s.modPer f).pending = s.pending := rfl
@[simp] theorem modPer_freeCtr (s : State) (f) : (s.modPer f).freeCtr = s.freeCtr := rfl
@[simp] theorem modPer_hclk (s : State) (f) : (s.modPer f).hclk = s.hclk := rfl
@[simp] theorem modPer_pwr (s : State) (f) : (s.modPer f).pwr = s.pwr := rfl
@[simp] theorem modPer_hubs (s : State) (f) : (s.modPer f).hubs = s.hubs := rfl
@[simp] theorem modPer_img (s : State) (f) : (s.modPer f).img = s.img := rfl
@[simp] theorem modPer_hub (s : State) (f) : (s.modPer f).hub = s.hub := rfl
@[simp] theorem modPer_flash (s : State) (f) : (s.modPer f).flash = s.flash := rfl
@[simp] theorem modPer_yards (s : State) (f) : (s.modPer f).yards = s.yards := rfl
@[simp] theorem modPer_mem (s : State) (f) : (s.modPer f).mem = s.mem := rfl
@[simp] theorem modPer_engines (s : State) (f) : (s.modPer f).engines = s.engines := rfl
@[simp] theorem modPer_fences (s : State) (f) : (s.modPer f).fences = s.fences := rfl
@[simp] theorem modPer_fenceSat (s : State) (f) : (s.modPer f).fenceSat = s.fenceSat := rfl
@[simp] theorem modPer_queues (s : State) (f) : (s.modPer f).queues = s.queues := rfl
@[simp] theorem modPer_slots (s : State) (f) : (s.modPer f).slots = s.slots := rfl
@[simp] theorem modPer_qSelHost (s : State) (f) : (s.modPer f).qSelHost = s.qSelHost := rfl
@[simp] theorem modPer_qSelPre (s : State) (f) : (s.modPer f).qSelPre = s.qSelPre := rfl
@[simp] theorem modPer_route (s : State) (f) : (s.modPer f).route = s.route := rfl
@[simp] theorem modPer_per (s : State) (f) : (s.modPer f).per = f s.per := rfl
@[simp] theorem modPer_links (s : State) (f) : (s.modPer f).links = s.links := rfl
@[simp] theorem modPer_mbx (s : State) (f) : (s.modPer f).mbx = s.mbx := rfl
@[simp] theorem modPer_clk (s : State) (f) : (s.modPer f).clk = s.clk := rfl
@[simp] theorem modPer_rng (s : State) (f) : (s.modPer f).rng = s.rng := rfl
@[simp] theorem modPer_rel (s : State) (f) : (s.modPer f).rel = s.rel := rfl
@[simp] theorem modPer_evr (s : State) (f) : (s.modPer f).evr = s.evr := rfl
@[simp] theorem modPer_ports (s : State) (f) : (s.modPer f).ports = s.ports := rfl
@[simp] theorem modPer_pmon (s : State) (f) : (s.modPer f).pmon = s.pmon := rfl
@[simp] theorem modPer_latchHost (s : State) (f) : (s.modPer f).latchHost = s.latchHost := rfl
@[simp] theorem modPer_latchPre (s : State) (f) : (s.modPer f).latchPre = s.latchPre := rfl
@[simp] theorem modPer_fresh (s : State) (f) : (s.modPer f).fresh = s.fresh := rfl
@[simp] theorem modPer_posts (s : State) (f) : (s.modPer f).posts = s.posts := rfl
@[simp] theorem modPer_tails (s : State) (f) : (s.modPer f).tails = s.tails := rfl

/-! ## modHubs -/

@[simp] theorem modHubs_pending (s : State) (f) : (s.modHubs f).pending = s.pending := rfl
@[simp] theorem modHubs_freeCtr (s : State) (f) : (s.modHubs f).freeCtr = s.freeCtr := rfl
@[simp] theorem modHubs_hclk (s : State) (f) : (s.modHubs f).hclk = s.hclk := rfl
@[simp] theorem modHubs_pwr (s : State) (f) : (s.modHubs f).pwr = s.pwr := rfl
@[simp] theorem modHubs_hubs (s : State) (f) : (s.modHubs f).hubs = f s.hubs := rfl
@[simp] theorem modHubs_img (s : State) (f) : (s.modHubs f).img = s.img := rfl
@[simp] theorem modHubs_hub (s : State) (f) : (s.modHubs f).hub = s.hub := rfl
@[simp] theorem modHubs_flash (s : State) (f) : (s.modHubs f).flash = s.flash := rfl
@[simp] theorem modHubs_yards (s : State) (f) : (s.modHubs f).yards = s.yards := rfl
@[simp] theorem modHubs_mem (s : State) (f) : (s.modHubs f).mem = s.mem := rfl
@[simp] theorem modHubs_engines (s : State) (f) : (s.modHubs f).engines = s.engines := rfl
@[simp] theorem modHubs_fences (s : State) (f) : (s.modHubs f).fences = s.fences := rfl
@[simp] theorem modHubs_fenceSat (s : State) (f) : (s.modHubs f).fenceSat = s.fenceSat := rfl
@[simp] theorem modHubs_queues (s : State) (f) : (s.modHubs f).queues = s.queues := rfl
@[simp] theorem modHubs_slots (s : State) (f) : (s.modHubs f).slots = s.slots := rfl
@[simp] theorem modHubs_qSelHost (s : State) (f) : (s.modHubs f).qSelHost = s.qSelHost := rfl
@[simp] theorem modHubs_qSelPre (s : State) (f) : (s.modHubs f).qSelPre = s.qSelPre := rfl
@[simp] theorem modHubs_route (s : State) (f) : (s.modHubs f).route = s.route := rfl
@[simp] theorem modHubs_per (s : State) (f) : (s.modHubs f).per = s.per := rfl
@[simp] theorem modHubs_links (s : State) (f) : (s.modHubs f).links = s.links := rfl
@[simp] theorem modHubs_mbx (s : State) (f) : (s.modHubs f).mbx = s.mbx := rfl
@[simp] theorem modHubs_clk (s : State) (f) : (s.modHubs f).clk = s.clk := rfl
@[simp] theorem modHubs_rng (s : State) (f) : (s.modHubs f).rng = s.rng := rfl
@[simp] theorem modHubs_rel (s : State) (f) : (s.modHubs f).rel = s.rel := rfl
@[simp] theorem modHubs_evr (s : State) (f) : (s.modHubs f).evr = s.evr := rfl
@[simp] theorem modHubs_ports (s : State) (f) : (s.modHubs f).ports = s.ports := rfl
@[simp] theorem modHubs_pmon (s : State) (f) : (s.modHubs f).pmon = s.pmon := rfl
@[simp] theorem modHubs_latchHost (s : State) (f) : (s.modHubs f).latchHost = s.latchHost := rfl
@[simp] theorem modHubs_latchPre (s : State) (f) : (s.modHubs f).latchPre = s.latchPre := rfl
@[simp] theorem modHubs_fresh (s : State) (f) : (s.modHubs f).fresh = s.fresh := rfl
@[simp] theorem modHubs_posts (s : State) (f) : (s.modHubs f).posts = s.posts := rfl
@[simp] theorem modHubs_tails (s : State) (f) : (s.modHubs f).tails = s.tails := rfl

/-! ## modRoute -/

@[simp] theorem modRoute_pending (s : State) (f) : (s.modRoute f).pending = s.pending := rfl
@[simp] theorem modRoute_freeCtr (s : State) (f) : (s.modRoute f).freeCtr = s.freeCtr := rfl
@[simp] theorem modRoute_hclk (s : State) (f) : (s.modRoute f).hclk = s.hclk := rfl
@[simp] theorem modRoute_pwr (s : State) (f) : (s.modRoute f).pwr = s.pwr := rfl
@[simp] theorem modRoute_hubs (s : State) (f) : (s.modRoute f).hubs = s.hubs := rfl
@[simp] theorem modRoute_img (s : State) (f) : (s.modRoute f).img = s.img := rfl
@[simp] theorem modRoute_hub (s : State) (f) : (s.modRoute f).hub = s.hub := rfl
@[simp] theorem modRoute_flash (s : State) (f) : (s.modRoute f).flash = s.flash := rfl
@[simp] theorem modRoute_yards (s : State) (f) : (s.modRoute f).yards = s.yards := rfl
@[simp] theorem modRoute_mem (s : State) (f) : (s.modRoute f).mem = s.mem := rfl
@[simp] theorem modRoute_engines (s : State) (f) : (s.modRoute f).engines = s.engines := rfl
@[simp] theorem modRoute_fences (s : State) (f) : (s.modRoute f).fences = s.fences := rfl
@[simp] theorem modRoute_fenceSat (s : State) (f) : (s.modRoute f).fenceSat = s.fenceSat := rfl
@[simp] theorem modRoute_queues (s : State) (f) : (s.modRoute f).queues = s.queues := rfl
@[simp] theorem modRoute_slots (s : State) (f) : (s.modRoute f).slots = s.slots := rfl
@[simp] theorem modRoute_qSelHost (s : State) (f) : (s.modRoute f).qSelHost = s.qSelHost := rfl
@[simp] theorem modRoute_qSelPre (s : State) (f) : (s.modRoute f).qSelPre = s.qSelPre := rfl
@[simp] theorem modRoute_route (s : State) (f) : (s.modRoute f).route = f s.route := rfl
@[simp] theorem modRoute_per (s : State) (f) : (s.modRoute f).per = s.per := rfl
@[simp] theorem modRoute_links (s : State) (f) : (s.modRoute f).links = s.links := rfl
@[simp] theorem modRoute_mbx (s : State) (f) : (s.modRoute f).mbx = s.mbx := rfl
@[simp] theorem modRoute_clk (s : State) (f) : (s.modRoute f).clk = s.clk := rfl
@[simp] theorem modRoute_rng (s : State) (f) : (s.modRoute f).rng = s.rng := rfl
@[simp] theorem modRoute_rel (s : State) (f) : (s.modRoute f).rel = s.rel := rfl
@[simp] theorem modRoute_evr (s : State) (f) : (s.modRoute f).evr = s.evr := rfl
@[simp] theorem modRoute_ports (s : State) (f) : (s.modRoute f).ports = s.ports := rfl
@[simp] theorem modRoute_pmon (s : State) (f) : (s.modRoute f).pmon = s.pmon := rfl
@[simp] theorem modRoute_latchHost (s : State) (f) : (s.modRoute f).latchHost = s.latchHost := rfl
@[simp] theorem modRoute_latchPre (s : State) (f) : (s.modRoute f).latchPre = s.latchPre := rfl
@[simp] theorem modRoute_fresh (s : State) (f) : (s.modRoute f).fresh = s.fresh := rfl
@[simp] theorem modRoute_posts (s : State) (f) : (s.modRoute f).posts = s.posts := rfl
@[simp] theorem modRoute_tails (s : State) (f) : (s.modRoute f).tails = s.tails := rfl

/-! ## modYards -/

@[simp] theorem modYards_pending (s : State) (f) : (s.modYards f).pending = s.pending := rfl
@[simp] theorem modYards_freeCtr (s : State) (f) : (s.modYards f).freeCtr = s.freeCtr := rfl
@[simp] theorem modYards_hclk (s : State) (f) : (s.modYards f).hclk = s.hclk := rfl
@[simp] theorem modYards_pwr (s : State) (f) : (s.modYards f).pwr = s.pwr := rfl
@[simp] theorem modYards_hubs (s : State) (f) : (s.modYards f).hubs = s.hubs := rfl
@[simp] theorem modYards_img (s : State) (f) : (s.modYards f).img = s.img := rfl
@[simp] theorem modYards_hub (s : State) (f) : (s.modYards f).hub = s.hub := rfl
@[simp] theorem modYards_flash (s : State) (f) : (s.modYards f).flash = s.flash := rfl
@[simp] theorem modYards_yards (s : State) (f) : (s.modYards f).yards = f s.yards := rfl
@[simp] theorem modYards_mem (s : State) (f) : (s.modYards f).mem = s.mem := rfl
@[simp] theorem modYards_engines (s : State) (f) : (s.modYards f).engines = s.engines := rfl
@[simp] theorem modYards_fences (s : State) (f) : (s.modYards f).fences = s.fences := rfl
@[simp] theorem modYards_fenceSat (s : State) (f) : (s.modYards f).fenceSat = s.fenceSat := rfl
@[simp] theorem modYards_queues (s : State) (f) : (s.modYards f).queues = s.queues := rfl
@[simp] theorem modYards_slots (s : State) (f) : (s.modYards f).slots = s.slots := rfl
@[simp] theorem modYards_qSelHost (s : State) (f) : (s.modYards f).qSelHost = s.qSelHost := rfl
@[simp] theorem modYards_qSelPre (s : State) (f) : (s.modYards f).qSelPre = s.qSelPre := rfl
@[simp] theorem modYards_route (s : State) (f) : (s.modYards f).route = s.route := rfl
@[simp] theorem modYards_per (s : State) (f) : (s.modYards f).per = s.per := rfl
@[simp] theorem modYards_links (s : State) (f) : (s.modYards f).links = s.links := rfl
@[simp] theorem modYards_mbx (s : State) (f) : (s.modYards f).mbx = s.mbx := rfl
@[simp] theorem modYards_clk (s : State) (f) : (s.modYards f).clk = s.clk := rfl
@[simp] theorem modYards_rng (s : State) (f) : (s.modYards f).rng = s.rng := rfl
@[simp] theorem modYards_rel (s : State) (f) : (s.modYards f).rel = s.rel := rfl
@[simp] theorem modYards_evr (s : State) (f) : (s.modYards f).evr = s.evr := rfl
@[simp] theorem modYards_ports (s : State) (f) : (s.modYards f).ports = s.ports := rfl
@[simp] theorem modYards_pmon (s : State) (f) : (s.modYards f).pmon = s.pmon := rfl
@[simp] theorem modYards_latchHost (s : State) (f) : (s.modYards f).latchHost = s.latchHost := rfl
@[simp] theorem modYards_latchPre (s : State) (f) : (s.modYards f).latchPre = s.latchPre := rfl
@[simp] theorem modYards_fresh (s : State) (f) : (s.modYards f).fresh = s.fresh := rfl
@[simp] theorem modYards_posts (s : State) (f) : (s.modYards f).posts = s.posts := rfl
@[simp] theorem modYards_tails (s : State) (f) : (s.modYards f).tails = s.tails := rfl

/-! ## bumpBy -/

@[simp] theorem bumpBy_pending (s : State) (g i k n) : (s.bumpBy g i k n).pending = s.pending := rfl
@[simp] theorem bumpBy_freeCtr (s : State) (g i k n) : (s.bumpBy g i k n).freeCtr = s.freeCtr := rfl
@[simp] theorem bumpBy_hclk (s : State) (g i k n) : (s.bumpBy g i k n).hclk = s.hclk := rfl
@[simp] theorem bumpBy_pwr (s : State) (g i k n) : (s.bumpBy g i k n).pwr = s.pwr := rfl
@[simp] theorem bumpBy_hubs (s : State) (g i k n) : (s.bumpBy g i k n).hubs = s.hubs := rfl
@[simp] theorem bumpBy_img (s : State) (g i k n) : (s.bumpBy g i k n).img = s.img := rfl
@[simp] theorem bumpBy_hub (s : State) (g i k n) : (s.bumpBy g i k n).hub = s.hub := rfl
@[simp] theorem bumpBy_flash (s : State) (g i k n) : (s.bumpBy g i k n).flash = s.flash := rfl
@[simp] theorem bumpBy_yards (s : State) (g i k n) : (s.bumpBy g i k n).yards = s.yards := rfl
@[simp] theorem bumpBy_mem (s : State) (g i k n) : (s.bumpBy g i k n).mem = s.mem := rfl
@[simp] theorem bumpBy_engines (s : State) (g i k n) : (s.bumpBy g i k n).engines = s.engines := rfl
@[simp] theorem bumpBy_fences (s : State) (g i k n) : (s.bumpBy g i k n).fences = s.fences := rfl
@[simp] theorem bumpBy_fenceSat (s : State) (g i k n) : (s.bumpBy g i k n).fenceSat = s.fenceSat := rfl
@[simp] theorem bumpBy_queues (s : State) (g i k n) : (s.bumpBy g i k n).queues = s.queues := rfl
@[simp] theorem bumpBy_slots (s : State) (g i k n) : (s.bumpBy g i k n).slots = s.slots := rfl
@[simp] theorem bumpBy_qSelHost (s : State) (g i k n) : (s.bumpBy g i k n).qSelHost = s.qSelHost := rfl
@[simp] theorem bumpBy_qSelPre (s : State) (g i k n) : (s.bumpBy g i k n).qSelPre = s.qSelPre := rfl
@[simp] theorem bumpBy_route (s : State) (g i k n) : (s.bumpBy g i k n).route = s.route := rfl
@[simp] theorem bumpBy_per (s : State) (g i k n) : (s.bumpBy g i k n).per = s.per := rfl
@[simp] theorem bumpBy_links (s : State) (g i k n) : (s.bumpBy g i k n).links = s.links := rfl
@[simp] theorem bumpBy_mbx (s : State) (g i k n) : (s.bumpBy g i k n).mbx = s.mbx := rfl
@[simp] theorem bumpBy_clk (s : State) (g i k n) : (s.bumpBy g i k n).clk = s.clk := rfl
@[simp] theorem bumpBy_rng (s : State) (g i k n) : (s.bumpBy g i k n).rng = s.rng := rfl
@[simp] theorem bumpBy_rel (s : State) (g i k n) : (s.bumpBy g i k n).rel = s.rel := rfl
@[simp] theorem bumpBy_evr (s : State) (g i k n) : (s.bumpBy g i k n).evr = s.evr := rfl
@[simp] theorem bumpBy_ports (s : State) (g i k n) : (s.bumpBy g i k n).ports = s.ports := rfl
@[simp] theorem bumpBy_pmon (s : State) (g i k n) : (s.bumpBy g i k n).pmon = sset 0 s.pmon (pmonOff g i k) ((s.count g i k + n) % 2 ^ 48) := rfl
@[simp] theorem bumpBy_latchHost (s : State) (g i k n) : (s.bumpBy g i k n).latchHost = s.latchHost := rfl
@[simp] theorem bumpBy_latchPre (s : State) (g i k n) : (s.bumpBy g i k n).latchPre = s.latchPre := rfl
@[simp] theorem bumpBy_fresh (s : State) (g i k n) : (s.bumpBy g i k n).fresh = s.fresh := rfl
@[simp] theorem bumpBy_posts (s : State) (g i k n) : (s.bumpBy g i k n).posts = s.posts := rfl
@[simp] theorem bumpBy_tails (s : State) (g i k n) : (s.bumpBy g i k n).tails = s.tails := rfl
@[simp] theorem bump_eq (s : State) (g i k) : s.bump g i k = s.bumpBy g i k 1 := rfl
theorem count_bumpBy_same (s : State) (g i k n) (h : swf 0 s.pmon = true) :
    (s.bumpBy g i k n).count g i k = (s.count g i k + n) % 2 ^ 48 := sget_sset_same _ _ _ _ h
theorem count_bumpBy_ne (s : State) (g i k n g' i' k') (h : pmonOff g' i' k' ≠ pmonOff g i k) :
    (s.bumpBy g i k n).count g' i' k' = s.count g' i' k' := sget_sset_ne _ _ _ _ _ h

/-! ## answer and draw -/

@[simp] theorem answer_pending (s : State) (r) : (s.answer r).pending = s.pending := rfl
@[simp] theorem answer_freeCtr (s : State) (r) : (s.answer r).freeCtr = s.freeCtr := rfl
@[simp] theorem answer_hclk (s : State) (r) : (s.answer r).hclk = s.hclk := rfl
@[simp] theorem answer_pwr (s : State) (r) : (s.answer r).pwr = s.pwr := rfl
@[simp] theorem answer_hubs (s : State) (r) : (s.answer r).hubs = s.hubs := rfl
@[simp] theorem answer_img (s : State) (r) : (s.answer r).img = s.img := rfl
@[simp] theorem answer_hub (s : State) (r) : (s.answer r).hub = s.hub := rfl
@[simp] theorem answer_flash (s : State) (r) : (s.answer r).flash = s.flash := rfl
@[simp] theorem answer_yards (s : State) (r) : (s.answer r).yards = s.yards := rfl
@[simp] theorem answer_mem (s : State) (r) : (s.answer r).mem = s.mem := rfl
@[simp] theorem answer_engines (s : State) (r) : (s.answer r).engines = s.engines := rfl
@[simp] theorem answer_fences (s : State) (r) : (s.answer r).fences = s.fences := rfl
@[simp] theorem answer_fenceSat (s : State) (r) : (s.answer r).fenceSat = s.fenceSat := rfl
@[simp] theorem answer_queues (s : State) (r) : (s.answer r).queues = s.queues := rfl
@[simp] theorem answer_slots (s : State) (r) : (s.answer r).slots = s.slots := rfl
@[simp] theorem answer_qSelHost (s : State) (r) : (s.answer r).qSelHost = s.qSelHost := rfl
@[simp] theorem answer_qSelPre (s : State) (r) : (s.answer r).qSelPre = s.qSelPre := rfl
@[simp] theorem answer_route (s : State) (r) : (s.answer r).route = s.route := rfl
@[simp] theorem answer_per (s : State) (r) : (s.answer r).per = s.per := rfl
@[simp] theorem answer_links (s : State) (r) : (s.answer r).links = s.links := rfl
@[simp] theorem answer_mbx (s : State) (r) : (s.answer r).mbx = s.mbx := rfl
@[simp] theorem answer_clk (s : State) (r) : (s.answer r).clk = s.clk := rfl
@[simp] theorem answer_rng (s : State) (r) : (s.answer r).rng = s.rng := rfl
@[simp] theorem answer_rel (s : State) (r) : (s.answer r).rel = s.rel := rfl
@[simp] theorem answer_evr (s : State) (r) : (s.answer r).evr = s.evr := rfl
@[simp] theorem answer_pmon (s : State) (r) : (s.answer r).pmon = s.pmon := rfl
@[simp] theorem answer_latchHost (s : State) (r) : (s.answer r).latchHost = s.latchHost := rfl
@[simp] theorem answer_latchPre (s : State) (r) : (s.answer r).latchPre = s.latchPre := rfl
@[simp] theorem answer_fresh (s : State) (r) : (s.answer r).fresh = s.fresh := rfl
@[simp] theorem answer_posts (s : State) (r) : (s.answer r).posts = s.posts := rfl
@[simp] theorem answer_tails (s : State) (r) : (s.answer r).tails = s.tails := rfl
@[simp] theorem answer_ports (s : State) (r) : (s.answer r).ports = { s.ports with resp := r } := rfl
@[simp] theorem draw_pending (s : State) : s.draw.2.pending = s.pending := rfl
@[simp] theorem draw_hclk (s : State) : s.draw.2.hclk = s.hclk := rfl
@[simp] theorem draw_pwr (s : State) : s.draw.2.pwr = s.pwr := rfl
@[simp] theorem draw_hubs (s : State) : s.draw.2.hubs = s.hubs := rfl
@[simp] theorem draw_img (s : State) : s.draw.2.img = s.img := rfl
@[simp] theorem draw_hub (s : State) : s.draw.2.hub = s.hub := rfl
@[simp] theorem draw_flash (s : State) : s.draw.2.flash = s.flash := rfl
@[simp] theorem draw_yards (s : State) : s.draw.2.yards = s.yards := rfl
@[simp] theorem draw_mem (s : State) : s.draw.2.mem = s.mem := rfl
@[simp] theorem draw_engines (s : State) : s.draw.2.engines = s.engines := rfl
@[simp] theorem draw_fences (s : State) : s.draw.2.fences = s.fences := rfl
@[simp] theorem draw_fenceSat (s : State) : s.draw.2.fenceSat = s.fenceSat := rfl
@[simp] theorem draw_queues (s : State) : s.draw.2.queues = s.queues := rfl
@[simp] theorem draw_slots (s : State) : s.draw.2.slots = s.slots := rfl
@[simp] theorem draw_qSelHost (s : State) : s.draw.2.qSelHost = s.qSelHost := rfl
@[simp] theorem draw_qSelPre (s : State) : s.draw.2.qSelPre = s.qSelPre := rfl
@[simp] theorem draw_route (s : State) : s.draw.2.route = s.route := rfl
@[simp] theorem draw_per (s : State) : s.draw.2.per = s.per := rfl
@[simp] theorem draw_links (s : State) : s.draw.2.links = s.links := rfl
@[simp] theorem draw_mbx (s : State) : s.draw.2.mbx = s.mbx := rfl
@[simp] theorem draw_clk (s : State) : s.draw.2.clk = s.clk := rfl
@[simp] theorem draw_rng (s : State) : s.draw.2.rng = s.rng := rfl
@[simp] theorem draw_rel (s : State) : s.draw.2.rel = s.rel := rfl
@[simp] theorem draw_evr (s : State) : s.draw.2.evr = s.evr := rfl
@[simp] theorem draw_ports (s : State) : s.draw.2.ports = s.ports := rfl
@[simp] theorem draw_pmon (s : State) : s.draw.2.pmon = s.pmon := rfl
@[simp] theorem draw_latchHost (s : State) : s.draw.2.latchHost = s.latchHost := rfl
@[simp] theorem draw_latchPre (s : State) : s.draw.2.latchPre = s.latchPre := rfl
@[simp] theorem draw_fresh (s : State) : s.draw.2.fresh = s.fresh := rfl
@[simp] theorem draw_posts (s : State) : s.draw.2.posts = s.posts := rfl
@[simp] theorem draw_tails (s : State) : s.draw.2.tails = s.tails := rfl
@[simp] theorem draw_freeCtr (s : State) : s.draw.2.freeCtr = s.freeCtr + 1 := rfl

end Sys2Proof.Machine
end

