-- ==== Sys2Proof/Laws/Finish.lean ====
section
/-!
SUPPORT. What the end of a command and of a request does, said once: the engine is at a boundary, the privileged command has left
Prephor, the request has left the line; and what the end leaves alone.
-/
namespace Sys2Proof.Machine

variable {s t : State}

/-! ## The end of a command leaves alone (R368, R372) -/

/-- The parts that the end of a command may write. -/
def endWrites (p : Part) : Bool := [Part.img, .halves, .data, .engines, .queues, .slots, .per, .host].contains p

theorem finish_same (h : Flat s) (e : Nat) (c : Cmd) (d : Done) (p : Part) (hp : endWrites p = false) : p.same s (s.finish e c d) := by
  have : Fact ((fun p => endWrites p = true) Part.img) := ⟨rfl⟩
  have : Fact ((fun p => endWrites p = true) Part.halves) := ⟨rfl⟩
  have : Fact ((fun p => endWrites p = true) Part.data) := ⟨rfl⟩
  have : Fact ((fun p => endWrites p = true) Part.engines) := ⟨rfl⟩
  have : Fact ((fun p => endWrites p = true) Part.queues) := ⟨rfl⟩
  have : Fact ((fun p => endWrites p = true) Part.slots) := ⟨rfl⟩
  have : Fact ((fun p => endWrites p = true) Part.per) := ⟨rfl⟩
  have : Fact ((fun p => endWrites p = true) Part.host) := ⟨rfl⟩
  exact (finish_keeps (P := False) (W := fun p => endWrites p = true) (Keeps.rfl' h) e c d).same p (by simp [hp])

theorem complete_same (h : Flat s) (e : Nat) (c : Cmd) (d : Done) (p : Part) (hp : endWrites p = false) : p.same s (s.complete e c d) := by
  unfold State.complete
  split <;> exact finish_same h e c _ p hp

theorem finishPriv_same (h : Flat s) (c : Cmd) (d : Done) (p : Part) (hp : endWrites p = false) : p.same s (s.finishPriv c d) := by
  have : Fact ((fun p => endWrites p = true) Part.img) := ⟨rfl⟩
  have : Fact ((fun p => endWrites p = true) Part.data) := ⟨rfl⟩
  have : Fact ((fun p => endWrites p = true) Part.engines) := ⟨rfl⟩
  have : Fact ((fun p => endWrites p = true) Part.queues) := ⟨rfl⟩
  have : Fact ((fun p => endWrites p = true) Part.slots) := ⟨rfl⟩
  have : Fact ((fun p => endWrites p = true) Part.per) := ⟨rfl⟩
  have : Fact ((fun p => endWrites p = true) Part.host) := ⟨rfl⟩
  exact (finishPriv_keeps (P := False) (W := fun p => endWrites p = true) (Keeps.rfl' h) c d).same p (by simp [hp])

theorem reply_engines (h : Flat s) (r : Req) (rc : Nat) (b : Bytes) : (s.reply r rc b).engines = s.engines := by
  have : Fact ((fun p => p ≠ Part.engines) Part.data) := ⟨by decide⟩
  have : Fact ((fun p => p ≠ Part.engines) Part.host) := ⟨by decide⟩
  exact (reply_keeps (P := False) (W := fun p => p ≠ Part.engines) (Keeps.rfl' h) r rc b).same Part.engines (by simp)

theorem serveHead_engines (h : Flat s) : s.serveHead.engines = s.engines := by
  have : Fact ((fun p => p ≠ Part.engines) Part.data) := ⟨by decide⟩
  have : Fact ((fun p => p ≠ Part.engines) Part.host) := ⟨by decide⟩
  exact (serveHead_keeps (P := False) (W := fun p => p ≠ Part.engines) (Keeps.rfl' h)).same Part.engines (by simp)

theorem endDestroy_engines (h : Flat s) (d : Destroy) : (s.endDestroy d).engines = s.engines := by
  have : Fact ((fun p => p ≠ Part.engines) Part.img) := ⟨by decide⟩
  have : Fact ((fun p => p ≠ Part.engines) Part.data) := ⟨by decide⟩
  have : Fact ((fun p => p ≠ Part.engines) Part.queues) := ⟨by decide⟩
  have : Fact ((fun p => p ≠ Part.engines) Part.slots) := ⟨by decide⟩
  have : Fact ((fun p => p ≠ Part.engines) Part.host) := ⟨by decide⟩
  exact (endDestroy_keeps (P := False) (W := fun p => p ≠ Part.engines) (Keeps.rfl' h) d).same Part.engines (by simp)

theorem modEng_flat (h : Flat s) (e : Nat) (f : Engine → Engine) : Flat (s.modEng e f) :=
  { h with engines := swf_sset Engine.reset s.engines e (f (s.eng e)) h.engines }

theorem modEng_eng (h : Flat s) (e : Nat) (f : Engine → Engine) : (s.modEng e f).eng e = f (s.eng e) :=
  sget_sset_same Engine.reset s.engines e (f (s.eng e)) h.engines

theorem disabled_cur (h : Flat s) (e : Nat) : ((s.disabled e).eng e).cur = (s.eng e).cur := by
  have h1 : Flat (s.modEng e (fun g => { g with st := .disabled, counts := [] })) := modEng_flat h e _
  have e1 : ((s.modEng e (fun g => { g with st := .disabled, counts := [] })).eng e).cur = (s.eng e).cur := by
    rw [modEng_eng h]
  unfold State.disabled
  extract_lets x s1
  split
  · exact e1
  · have h2 : Flat (s1.modMbx fun m => { m with bgDisable := m.bgDisable.filter (fun y => y.1 != e) }) := { h1 with }
    have T : Fact True := ⟨trivial⟩
    rw [State.eng, serveHead_engines (reply_keeps (P := False) (W := fun _ => True) (Keeps.rfl' h2) _ _ _).flat, reply_engines h2]
    exact e1

theorem each_halves_engines (ds : List Nat) (f : State → Nat → State) (hf : ∀ s d, (f s d).engines = s.engines) :
    ∀ s : State, (s.each ds f).engines = s.engines := by
  induction ds with
  | nil => intro s; rfl
  | cons d ds ih => intro s; exact (ih (f s d)).trans (hf s d)

/-- At a boundary an engine holds no command (R372). -/
theorem atBoundary_cur (h : Flat s) (e : Nat) : ((s.atBoundary e).eng e).cur = none := by
  unfold State.atBoundary
  extract_lets dis s1 s2
  have h1 : Flat s1 := modEng_flat h e _
  have c1 : (s1.eng e).cur = none := by
    simp only [s1, modEng_eng h]
  have e2 : s2.engines = s1.engines :=
    each_halves_engines (s1.halvesOf e) (fun s d => s.modHalf d (fun h => { h with idleAt := (s.rclk d).yclk })) (fun _ _ => rfl) s1
  have c2 : (s2.eng e).cur = none := by rw [State.eng, e2]; exact c1
  split
  · have h2 : Flat s2 := by
      have : Fact ((fun _ => True) Part.halves) := ⟨trivial⟩
      have : Keeps False (fun _ => True) s1 s2 := each_keeps _ _ (fun _ _ k => modHalf_keeps k _ _) (Keeps.rfl' h1)
      exact this.flat
    rw [disabled_cur h2]
    exact c2
  · exact c2

/-! ## What a record leaves of the engines (R359, R368) -/

/-- The commands, parked waits and states of every engine are those of another state. -/
def engSame (s t : State) : Prop := ∀ x, (t.eng x).waits = (s.eng x).waits ∧ (t.eng x).cur = (s.eng x).cur ∧ (t.eng x).st = (s.eng x).st

theorem engSame.refl (s : State) : engSame s s := fun _ => ⟨rfl, rfl, rfl⟩

theorem engSame.trans {r s t : State} (h : engSame r s) (k : engSame s t) : engSame r t :=
  fun x => ⟨(k x).1.trans (h x).1, (k x).2.1.trans (h x).2.1, (k x).2.2.trans (h x).2.2⟩

theorem engSame_of (h : t.engines = s.engines) : engSame s t := fun x => by simp only [State.eng, h, and_self]

theorem modEng_engSame' (h : swf Engine.reset s.engines = true) (e : Nat) (f : Engine → Engine)
    (hf : ∀ g, (f g).waits = g.waits ∧ (f g).cur = g.cur ∧ (f g).st = g.st) : engSame s (s.modEng e f) := by
  intro x
  by_cases hx : x = e
  · subst hx
    have : (s.modEng x f).eng x = f (s.eng x) := sget_sset_same Engine.reset s.engines x (f (s.eng x)) h
    rw [this]
    exact hf _
  · have : (s.modEng e f).eng x = s.eng x := sget_sset_ne _ _ _ _ _ hx
    rw [this]
    exact ⟨rfl, rfl, rfl⟩

theorem modEng_engSame (h : Flat s) (e : Nat) (f : Engine → Engine)
    (hf : ∀ g, (f g).waits = g.waits ∧ (f g).cur = g.cur ∧ (f g).st = g.st) : engSame s (s.modEng e f) :=
  modEng_engSame' h.engines e f hf

theorem queueCheck_engines (s : State) (pa : Nat) : (s.queueCheck pa).engines = s.engines := by
  unfold State.queueCheck
  extract_lets sl blk k
  split
  · rfl
  · split <;> rfl

theorem devWritePiece_engines (s : State) (va : Nat) (bs : Bytes) : (s.devWritePiece va bs).engines = s.engines := by
  unfold State.devWritePiece
  extract_lets page k off sh fresh pa part s1
  have h1 : s1.engines = s.engines := by
    simp only [s1]
    split
    · exact queueCheck_engines s pa
    · rfl
  split
  · exact h1
  · exact h1

theorem devWrite_engines (s : State) (va : Nat) (bs : Bytes) : (s.devWrite va bs).engines = s.engines := by
  unfold State.devWrite
  generalize pieces va bs.length = ps
  induction ps generalizing s with
  | nil => rfl
  | cons p ps ih => exact (ih _).trans (devWritePiece_engines _ _ _)

theorem event_engines (s : State) (b : EventBit) : (s.event b).engines = s.engines := by
  unfold State.event
  split <;> rfl

theorem xlatFault_engines (s : State) (va : Nat) (w : Bool) (a : Agent) (c : Nat) : (s.xlatFault va w a c).engines = s.engines := by
  unfold State.xlatFault
  extract_lets s1
  split
  · exact event_engines s1 .xfValid
  · exact event_engines s1 .xfValid

theorem hostWrite_engines (s : State) (a : Nat) (bs : Bytes) : (s.hostWrite a bs).engines = s.engines := by
  unfold State.hostWrite
  split <;> rfl

theorem trace_engines (s : State) (a b c d : Nat) (x : Bytes) : (s.trace a b c d x).engines = s.engines := by
  unfold State.trace
  split
  · split <;> rfl
  · rfl

theorem hostRecord_engines (s : State) (p : Posted) : (s.putRecord p).engines = s.engines := by
  unfold State.putRecord
  extract_lets q slot va s1
  have h1 : s1.engines = s.engines := by
    simp only [s1]
    split
    · exact devWrite_engines _ _ _
    · exact xlatFault_engines _ _ _ _ _
  split
  · exact h1
  · exact (hostWrite_engines _ _ _).trans h1

theorem each_engines {α : Type} (xs : List α) (f : State → α → State) (hf : ∀ s x, (f s x).engines = s.engines) :
    ∀ s : State, (s.each xs f).engines = s.engines := by
  induction xs with
  | nil => intro s; rfl
  | cons d ds ih => intro s; exact (ih (f s d)).trans (hf s d)

theorem placeRecord_engines (s : State) (e n : Nat) (bs : Bytes) : (s.placeRecord e n bs).engines = s.engines := by
  unfold State.placeRecord
  exact each_engines _ _ hostRecord_engines s

/-- A record changes no command, no parked wait and no state of an engine. -/
theorem writeRecord_engSame (h : Flat s) (e : Nat) (c : Cmd) (d : Done) (m : Bool) : engSame s (s.writeRecord e c d m) := by
  unfold State.writeRecord
  extract_lets f u q st s2 charge halt s3 s4 s5 s6 s7 s8 s9 s10
  have hu : u.engines = s.engines := by
    simp only [u, f]
    split <;> rfl
  have h2 : s2.engines = s.engines := (placeRecord_engines _ _ _ _).trans hu
  clear_value charge st s2
  have h3 : s3.engines = s.engines := h2
  have h4 : engSame s s4 := by
    refine (engSame_of h3).trans (modEng_engSame' (h3 ▸ h.engines) e _ ?_)
    exact fun _ => ⟨rfl, rfl, rfl⟩
  have h6 : s6.engines = s4.engines := by
    simp only [s6]
    split <;> rfl
  have h7 : s7.engines = s4.engines := by
    simp only [s7]
    split
    · exact h6
    · exact h6
  have h8 : s8.engines = s4.engines := by
    simp only [s8]
    split
    · exact h7
    · exact h7
  have h9 : s9.engines = s4.engines := h8
  have h10 : s10.engines = s4.engines := by
    simp only [s10]
    split
    · exact h9
    · exact h9
  exact h4.trans (engSame_of ((trace_engines _ _ _ _ _ _).trans h10))

theorem setChain_engSame (h : Flat s) (e k : Nat) (x : ChainSlot) : engSame s (s.setChain e k x) := by
  refine modEng_engSame h e _ ?_
  exact fun _ => ⟨rfl, rfl, rfl⟩

theorem dropPreload_engSame (h : Flat s) (e : Nat) (p : Preload) : engSame s (s.dropPreload e p) := by
  unfold State.dropPreload
  exact (modEng_engSame h e (fun x => { x with
    preload := none, shadow := Programs.reset,
    lastServed := if p.chainSlot.isSome then x.lastServed else sset 0 x.lastServed p.turn.1 p.turn.2 })
    (fun _ => ⟨rfl, rfl, rfl⟩)).trans (engSame_of rfl)

theorem dropChainPreload_engSame (h : Flat s) (e k : Nat) : engSame s (s.dropChainPreload e k) := by
  unfold State.dropChainPreload
  split
  · split
    · exact dropPreload_engSame h e _
    · exact engSame.refl s
  · exact engSame.refl s

/-- A posted record, with all that its trigger brings, changes no command, no parked wait and no state of an engine (R359). -/
theorem postAt_engSame (n : Nat) : ∀ {s : State}, Flat s → ∀ (e : Nat) (c : Cmd) (d : Done), engSame s (s.postAt n e c d) := by
  have T : Fact True := ⟨trivial⟩
  induction n with
  | zero => intro s h e c d; exact writeRecord_engSame h e c d false
  | succ n ih =>
    intro s h e c d
    unfold State.postAt
    extract_lets te k x armed ok s1
    have k0 : Keeps False (fun _ => True) s s := Keeps.rfl' h
    split
    · split
      · exact (engSame_of (t := s.bump .engine e 4) rfl).trans (writeRecord_engSame (bump_keeps k0 _ _ _).flat _ _ _ _)
      · split
        · have a := setChain_engSame h te k { x with st := .fired }
          have b : Keeps False (fun _ => True) s _ := setChain_keeps k0 te k { x with st := .fired }
          have b2 := trace_keeps (bump_keeps b .engine te 3) 4 7 0 te (toBytes 1 k ++ toBytes 1 1)
          have b3 := event_keeps b2 (.fired te k e c.queue)
          have a2 : engSame (s.setChain te k { x with st := .fired }) _ := engSame_of ((event_engines _ (.fired te k e c.queue)).trans
            (trace_engines ((s.setChain te k { x with st := .fired }).bump .engine te 3) 4 7 0 te (toBytes 1 k ++ toBytes 1 1)))
          exact (a.trans a2).trans (writeRecord_engSame b3.flat _ _ _ _)
        · have a := setChain_engSame h te k ChainSlot.reset
          have b : Keeps False (fun _ => True) s _ := setChain_keeps k0 te k ChainSlot.reset
          have a2 := dropChainPreload_engSame b.flat te k
          have b2 := dropChainPreload_keeps b te k
          have b3 : Keeps False (fun _ => True) s s1 := trace_keeps (bump_keeps b2 .engine te 5) 4 7 0 te (toBytes 1 k ++ toBytes 1 2)
          have a3 : engSame s s1 := (a.trans a2).trans (engSame_of (trace_engines _ _ _ _ _ _))
          split
          · exact (a3.trans (ih b3.flat _ _ _)).trans (writeRecord_engSame (postAt_keeps b3 _ _ _ _).flat _ _ _ _)
          · exact (a3.trans (writeRecord_engSame b3.flat _ _ _ _)).trans (ih (writeRecord_keeps b3 _ _ _ _).flat _ _ _)
    · exact writeRecord_engSame h e c d false

theorem postRecord_engSame (h : Flat s) (e : Nat) (c : Cmd) (d : Done) : engSame s (s.postRecord e c d) := postAt_engSame 168 h e c d

/-! ## What the end of a destruction leaves of the engines (R400) -/

theorem posts_engines (s : State) (x) : State.engines { s with posts := x } = s.engines := rfl

theorem fresh_engines (s : State) (x) : State.engines { s with fresh := x } = s.engines := rfl

theorem unfire_engines (s : State) (te k : Nat) : (s.unfire te k).engines = s.engines := by
  unfold State.unfire
  extract_lets mine
  split
  · split
    · exact (posts_engines _ _).trans ((hostRecord_engines _ _).trans ((fresh_engines _ _).trans ((bumpBy_engines _ _ _ _ _).trans (bumpBy_engines _ _ _ _ _))))
    · exact (fresh_engines _ _).trans ((bumpBy_engines _ _ _ _ _).trans (bumpBy_engines _ _ _ _ _))
  · rfl

theorem each_engSame {α : Type} (xs : List α) (f : State → α → State) (hk : ∀ s x, Flat s → Flat (f s x))
    (hs : ∀ s x, Flat s → engSame s (f s x)) : ∀ {s : State}, Flat s → engSame s (s.each xs f) := by
  induction xs with
  | nil => intro s _; exact engSame.refl s
  | cons x xs ih => intro s h; exact (hs s x h).trans (ih (hk s x h))

theorem cancelChains_engSame (h : Flat s) (n e : Nat) : engSame s (s.cancelChains n e) := by
  have T : Fact True := ⟨trivial⟩
  unfold State.cancelChains
  refine each_engSame _ _ (fun s k h => ?_) (fun s k h => ?_) h
  · extract_lets x
    split
    · exact h
    · have k1 : Keeps False (fun _ => True) s (s.unfire e k) := unfire_keeps (Keeps.rfl' h) e k
      have k3 := dropChainPreload_keeps (setChain_keeps k1 e k ChainSlot.reset) e k
      exact (postRecord_keeps (trace_keeps (bump_keeps k3 .engine e 5) 4 7 0 e (toBytes 1 k ++ toBytes 1 2)) e (x.cmd e) _).flat
  · extract_lets x
    split
    · exact engSame.refl s
    · have k1 : Keeps False (fun _ => True) s (s.unfire e k) := unfire_keeps (Keeps.rfl' h) e k
      have k2 := setChain_keeps k1 e k ChainSlot.reset
      have k3 := dropChainPreload_keeps k2 e k
      have k4 := trace_keeps (bump_keeps k3 .engine e 5) 4 7 0 e (toBytes 1 k ++ toBytes 1 2)
      have a1 : engSame s (s.unfire e k) := engSame_of (unfire_engines s e k)
      have a2 := a1.trans (setChain_engSame k1.flat e k ChainSlot.reset)
      have a3 := a2.trans (dropChainPreload_engSame k2.flat e k)
      have a4 := a3.trans (engSame_of (trace_engines ((((s.unfire e k).setChain e k ChainSlot.reset).dropChainPreload e k).bump .engine e 5)
        4 7 0 e (toBytes 1 k ++ toBytes 1 2)))
      exact a4.trans (postRecord_engSame k4.flat e (x.cmd e) _)

/-- The end of a destruction changes no command, no parked wait and no state of an engine. -/
theorem endDestroys_engSame (h : Flat s) : engSame s s.endDestroys := by
  have T : Fact True := ⟨trivial⟩
  unfold State.endDestroys
  refine each_engSame _ _ (fun s d h => ?_) (fun s d h => ?_) h
  · split
    · exact h
    · have k : Keeps False (fun _ => True) s (s.each (upto 21) (fun s e => s.cancelChains d.queue e)) :=
        each_keeps (upto 21) _ (fun _ e hy => cancelChains_keeps hy d.queue e) (Keeps.rfl' h)
      extract_lets t
      split
      · exact (endDestroy_keeps k _).flat
      · exact k.flat
  · split
    · exact engSame.refl s
    · have k : Keeps False (fun _ => True) s (s.each (upto 21) (fun s e => s.cancelChains d.queue e)) :=
        each_keeps (upto 21) _ (fun _ e hy => cancelChains_keeps hy d.queue e) (Keeps.rfl' h)
      have a : engSame s (s.each (upto 21) (fun s e => s.cancelChains d.queue e)) := each_engSame (upto 21) (fun s e => s.cancelChains d.queue e)
        (fun s e h => (cancelChains_keeps (P := False) (W := fun _ => True) (Keeps.rfl' h) _ _).flat) (fun s e h => cancelChains_engSame h _ _) h
      extract_lets t
      split
      · exact a.trans (engSame_of (endDestroy_engines k.flat _))
      · exact a

/-- The command has left its engine (R372). -/
theorem finish_cur (h : Flat s) (e : Nat) (c : Cmd) (d : Done) : ((s.finish e c d).eng e).cur = none := by
  have : Fact ((fun _ => True) Part.img) := ⟨trivial⟩
  have : Fact ((fun _ => True) Part.halves) := ⟨trivial⟩
  have : Fact ((fun _ => True) Part.data) := ⟨trivial⟩
  have : Fact ((fun _ => True) Part.engines) := ⟨trivial⟩
  have : Fact ((fun _ => True) Part.queues) := ⟨trivial⟩
  have : Fact ((fun _ => True) Part.slots) := ⟨trivial⟩
  have : Fact ((fun _ => True) Part.per) := ⟨trivial⟩
  have : Fact ((fun _ => True) Part.host) := ⟨trivial⟩
  have k0 : Keeps False (fun _ => True) s s := Keeps.rfl' h
  unfold State.finish
  split
  · exact atBoundary_cur h e
  · extract_lets s1 s2
    have k1 : Keeps False (fun _ => True) s s1 := postRecord_keeps k0 _ _ _
    have k2 : Keeps False (fun _ => True) s s2 := ite_keeps (fun _ => confirmPreload_keeps k1 _) (fun _ => discardPreload_keeps k1 _)
    exact ((endDestroys_engSame (atBoundary_keeps k2 _).flat e).2.1).trans (atBoundary_cur k2.flat e)

theorem complete_cur (h : Flat s) (e : Nat) (c : Cmd) (d : Done) : ((s.complete e c d).eng e).cur = none := by
  unfold State.complete
  split <;> exact finish_cur h e c _

/-! ## Prephor's line and its commands (R465, R470, R571) -/

theorem each_mbx {α : Type} (xs : List α) (f : State → α → State) (hf : ∀ s x, (f s x).mbx = s.mbx) :
    ∀ s : State, (s.each xs f).mbx = s.mbx := by
  induction xs with
  | nil => intro s; rfl
  | cons d ds ih => intro s; exact (ih (f s d)).trans (hf s d)

theorem queueCheck_mbx (s : State) (pa : Nat) : (s.queueCheck pa).mbx = s.mbx := by
  unfold State.queueCheck
  extract_lets sl blk k
  split
  · rfl
  · split <;> rfl

theorem devWritePiece_mbx (s : State) (va : Nat) (bs : Bytes) : (s.devWritePiece va bs).mbx = s.mbx := by
  unfold State.devWritePiece
  extract_lets page k off sh fresh pa part s1
  have h1 : s1.mbx = s.mbx := by
    simp only [s1]
    split
    · exact queueCheck_mbx s pa
    · rfl
  split
  · exact h1
  · exact h1

theorem devWrite_mbx (s : State) (va : Nat) (bs : Bytes) : (s.devWrite va bs).mbx = s.mbx :=
  each_mbx (pieces va bs.length) (fun s p => s.devWritePiece p.1 ((bs.drop (p.1 - va)).take p.2)) (fun _ _ => devWritePiece_mbx _ _ _) s

theorem event_mbx (s : State) (b : EventBit) : (s.event b).mbx = s.mbx := by
  unfold State.event
  split <;> rfl

theorem xlatFault_mbx (s : State) (va : Nat) (w : Bool) (a : Agent) (c : Nat) : (s.xlatFault va w a c).mbx = s.mbx := by
  unfold State.xlatFault
  extract_lets s1
  split
  · exact event_mbx s1 .xfValid
  · exact event_mbx s1 .xfValid

theorem hubWrite_mbx (s : State) (va : Nat) (bs : Bytes) : (s.hubWrite va bs).mbx = s.mbx := by
  unfold State.hubWrite
  split
  · exact devWrite_mbx _ _ _
  · exact xlatFault_mbx _ _ _ _ _

theorem hostWrite_mbx (s : State) (va : Nat) (bs : Bytes) : (s.hostWrite va bs).mbx = s.mbx := by
  unfold State.hostWrite
  split <;> rfl

theorem msix_mbx (s : State) (i : Nat) : (s.msix i).mbx = s.mbx := by
  unfold State.msix
  split <;> rfl

theorem ringHost_line (s : State) (i : Nat) : (s.ringHost i).mbx.reqs = s.mbx.reqs ∧ (s.ringHost i).mbx.privs = s.mbx.privs := by
  unfold State.ringHost
  extract_lets s1
  have h1 : s1.mbx.reqs = s.mbx.reqs ∧ s1.mbx.privs = s.mbx.privs := by
    simp only [s1, event_mbx, State.modMbx, and_self]
  split
  · exact h1
  · rw [msix_mbx]
    exact h1

theorem devNote_mbx (s : State) (va n : Nat) : (s.devNote va n).mbx = s.mbx := each_mbx _ _ (fun _ _ => queueCheck_mbx _ _) s

/-- The line of `t` holds what the line of `s` held and what a post tried in `s` brought (R465). -/
def lineFrom (s t : State) : Prop :=
  (∀ m, (t.h2f m).tried ≠ none → (s.h2f m).tried ≠ none) ∧ ∀ x ∈ t.mbx.reqs, x ∈ s.mbx.reqs ∨ (s.h2f x.mbx).tried ≠ none

theorem lineFrom.refl (s : State) : lineFrom s s := ⟨fun _ h => h, fun _ h => .inl h⟩

theorem lineFrom.trans {r s t : State} (h : lineFrom r s) (k : lineFrom s t) : lineFrom r t :=
  ⟨fun m hm => h.1 m (k.1 m hm), fun x hx => (k.2 x hx).elim (h.2 x) (fun ht => .inr (h.1 x.mbx ht))⟩

/-- A post read from a mailbox brings one request of it. -/
theorem readPost_line (h : Flat s) (m : Nat) (v : Word) :
    (∃ q : Req, q.mbx = m ∧ (s.readPost m v).mbx.reqs = s.mbx.reqs ++ [q]) ∧ (s.readPost m v).mbx.privs = s.mbx.privs ∧
    ∀ k, ((s.readPost m v).h2f k).tried ≠ none → (s.h2f k).tried ≠ none := by
  have key : ∀ (u : State) (msg : Bytes) (f : Nat),
      u.mbx = ((s.setH2f m { s.h2f m with seq := v.toNat, pending := true, tried := none }).modMbx
        (fun x => { x with dbH2f := x.dbH2f ||| BitVec.ofNat 32 (2 ^ m) })).mbx →
      ∀ w : State, w = u.modMbx (fun x => { x with reqs := x.reqs ++ [⟨m, msg, (s.h2f m).space, f, u.hclk⟩] }) →
      (∃ q : Req, q.mbx = m ∧ w.mbx.reqs = s.mbx.reqs ++ [q]) ∧ w.mbx.privs = s.mbx.privs ∧
      ∀ k, (w.h2f k).tried ≠ none → (s.h2f k).tried ≠ none := by
    intro u msg f hu w hw
    subst hw
    refine ⟨⟨⟨m, msg, (s.h2f m).space, f, u.hclk⟩, rfl, ?_⟩, ?_, fun k hk => ?_⟩
    · simp only [State.modMbx, hu, State.setH2f]
    · simp only [State.modMbx, hu, State.setH2f]
    · have e : (u.modMbx (fun x => { x with reqs := x.reqs ++ [⟨m, msg, (s.h2f m).space, f, u.hclk⟩] })).h2f k =
          sget H2f.reset (sset H2f.reset s.mbx.h2f m { s.h2f m with seq := v.toNat, pending := true, tried := none }) k := by
        simp only [State.h2f, State.modMbx, hu, State.setH2f]
      rw [e] at hk
      by_cases hm : k = m
      · subst hm
        rw [sget_sset_same _ _ _ _ h.h2f] at hk
        exact absurd rfl hk
      · rw [sget_sset_ne _ _ _ _ _ hm] at hk
        exact hk
  unfold State.readPost
  extract_lets x ptr s1 s2 add
  split
  · exact key _ _ _ rfl _ rfl
  · split
    · split
      · exact key _ _ _ rfl _ rfl
      · exact key _ _ _ rfl _ rfl
    · split
      · exact key _ _ _ (xlatFault_mbx _ _ _ _ _) _ rfl
      · exact key _ _ _ (devNote_mbx _ _ _) _ rfl

/-- A retried post brings no request but that of a post tried (R465). -/
theorem retryPost_line (h : Flat s) (m : Nat) : lineFrom s (s.retryPost m) ∧ (s.retryPost m).mbx.privs = s.mbx.privs := by
  unfold State.retryPost
  extract_lets x
  split
  · next t v was ht =>
    split
    · have T : Fact True := ⟨trivial⟩
      have hf : Flat (s.setH2f m { x with overrun := was }) := { h with h2f := swf_sset _ _ _ _ h.h2f }
      obtain ⟨⟨q, hq, hr⟩, hp, hk⟩ := readPost_line hf m v
      have tr : ∀ k, ((s.setH2f m { x with overrun := was }).h2f k).tried ≠ none → (s.h2f k).tried ≠ none := by
        intro k hk
        by_cases hm : k = m
        · subst hm
          simp [x] at ht
          simp [ht]
        · have e : (s.setH2f m { x with overrun := was }).h2f k = s.h2f k := sget_sset_ne _ _ _ _ _ hm
          rwa [e] at hk
      refine ⟨⟨fun k h1 => tr k (hk k h1), fun y hy => ?_⟩, hp⟩
      rw [hr] at hy
      rcases List.mem_append.1 hy with hy | hy
      · exact .inl hy
      · refine .inr ?_
        rw [List.mem_singleton.1 hy, hq]
        simp only [x] at ht
        simp [ht]
    · exact ⟨lineFrom.refl s, rfl⟩
  · exact ⟨lineFrom.refl s, rfl⟩

theorem event_h2f (s : State) (b : EventBit) : ∀ k, (s.event b).h2f k = s.h2f k := fun k => by rw [State.h2f, event_mbx]; rfl

theorem ringHost_h2f (s : State) (i k : Nat) : (s.ringHost i).h2f k = s.h2f k := by
  unfold State.ringHost
  extract_lets s1
  have h1 : s1.h2f k = s.h2f k := event_h2f _ _ k
  split
  · exact h1
  · rw [State.h2f, msix_mbx]
    exact h1

/-- A reply takes its request out of the line, and brings none but by a post tried; Prephor's commands stay (R465). -/
theorem reply_line (h : Flat s) (r : Req) (rc : Nat) (b : Bytes) :
    lineFrom s (s.reply r rc b) ∧ (r ∈ (s.reply r rc b).mbx.reqs → (s.h2f r.mbx).tried ≠ none) ∧
    (s.reply r rc b).mbx.privs = s.mbx.privs := by
  have T : Fact True := ⟨trivial⟩
  unfold State.reply
  extract_lets seq bs s1 x s2
  have h1 : s1.mbx = s.mbx := by
    simp only [s1]
    split
    · split
      · exact hostWrite_mbx _ _ _
      · split
        · exact devWrite_mbx _ _ _
        · exact xlatFault_mbx _ _ _ _ _
    · rfl
  have hf1 : Flat s1 := by
    have k0 : Keeps False (fun _ => True) s s := Keeps.rfl' h
    simp only [s1]
    split
    · split
      · exact (hostWrite_keeps k0 _ _).flat
      · split
        · exact (devWrite_keeps k0 _ _).flat
        · exact (xlatFault_keeps k0 _ _ _ _).flat
    · exact h
  clear_value s1
  have hf2 : Flat s2 := { hf1 with h2f := swf_sset _ _ _ _ hf1.h2f }
  have hf3 : Flat (s2.modMbx (fun m => { m with reqs := m.reqs.filter (fun x => decide (x ≠ r)) })) := { hf2 with }
  generalize hs3 : (s2.modMbx (fun m => { m with reqs := m.reqs.filter (fun x => decide (x ≠ r)) })).ringHost r.mbx = s3
  have hf4 : Flat s3 := hs3 ▸ (ringHost_keeps (P := False) (W := fun _ => True) (Keeps.rfl' hf3) _).flat
  have h3 := ringHost_line (s2.modMbx (fun m => { m with reqs := m.reqs.filter (fun x => decide (x ≠ r)) })) r.mbx
  have q3 : s3.mbx.reqs = s.mbx.reqs.filter (fun x => decide (x ≠ r)) := (hs3 ▸ h3.1).trans (by simp only [State.modMbx, s2, State.setH2f, h1])
  have p3 : s3.mbx.privs = s.mbx.privs := (hs3 ▸ h3.2).trans (by simp only [State.modMbx, s2, State.setH2f, h1])
  have t3 : ∀ m, (s3.h2f m).tried = (s.h2f m).tried := by
    intro m
    have a : s3.h2f m = s2.h2f m := hs3 ▸ ringHost_h2f _ _ m
    have h0 : s1.h2f m = s.h2f m := by simp only [State.h2f, h1]
    rw [a, ← h0]
    by_cases hm : m = r.mbx
    · subst hm
      have e : s2.h2f r.mbx = _ := sget_sset_same H2f.reset s1.mbx.h2f r.mbx _ hf1.h2f
      rw [e]
    · have e : s2.h2f m = s1.h2f m := sget_sset_ne _ _ _ _ _ hm
      rw [e]
  obtain ⟨l4, p4⟩ := retryPost_line hf4 r.mbx
  refine ⟨⟨fun m hm => t3 m ▸ l4.1 m hm, fun y hy => ?_⟩, fun hy => ?_, p4.trans p3⟩
  · rcases l4.2 y hy with k | k
    · rw [q3] at k
      exact .inl (List.mem_filter.1 k).1
    · exact .inr (t3 _ ▸ k)
  · rcases l4.2 r hy with k | k
    · rw [q3] at k
      simpa using (List.mem_filter.1 k).2
    · exact t3 _ ▸ k

theorem takeNotice_line (s : State) (r : Req) : lineFrom s (s.takeNotice r) ∧ (s.takeNotice r).mbx.privs = s.mbx.privs :=
  ⟨⟨fun _ h => h, fun _ h => .inl h⟩, rfl⟩

theorem takeNotice_flat (h : Flat s) (r : Req) : Flat (s.takeNotice r) := { h with }

/-- Refused requests leave the line, and none comes but by a post tried (R465, R470). -/
theorem serveBad_line (n : Nat) : ∀ {s : State}, Flat s → lineFrom s (s.serveBad n) ∧ (s.serveBad n).mbx.privs = s.mbx.privs := by
  have T : Fact True := ⟨trivial⟩
  induction n with
  | zero => intro s _; exact ⟨lineFrom.refl s, rfl⟩
  | succ n ih =>
    intro s h
    unfold State.serveBad
    split
    · exact ⟨lineFrom.refl s, rfl⟩
    · split
      · split
        · exact ⟨lineFrom.refl s, rfl⟩
        · rename_i r _ _ _ _ rc _
          have h0 := takeNotice_flat h r
          have h1 := reply_line h0 r rc []
          have h2 := ih (reply_keeps (P := False) (W := fun _ => True) (Keeps.rfl' h0) r rc []).flat
          exact ⟨((takeNotice_line s r).1.trans h1.1).trans h2.1, h2.2.trans h1.2.2⟩
      · exact ⟨lineFrom.refl s, rfl⟩

/-- A request that ends has left the line, where no later post was tried in this hclk. -/
theorem endReq_line (h : Flat s) (r : Req) (rc : Nat) (b : Bytes) (ht : (s.h2f r.mbx).tried = none) : r ∉ (s.endReq r rc b).mbx.reqs := by
  have T : Fact True := ⟨trivial⟩
  intro hr
  have h0 := takeNotice_flat h r
  have h1 := reply_line h0 r rc b
  have h2 := serveBad_line 4 (reply_keeps (P := False) (W := fun _ => True) (Keeps.rfl' h0) r rc b).flat
  rcases h2.1.2 r hr with k | k
  · exact h1.2.1 k ht
  · exact h1.1.1 _ k ht

theorem background_line (h : Flat s) (r : Req) (ht : (s.h2f r.mbx).tried = none) : r ∉ (s.background r).mbx.reqs := by
  intro hr
  have h1 : Flat ((s.takeNotice r).modMbx (fun m => { m with reqs := m.reqs.filter (fun x => decide (x ≠ r)) })) := { h with }
  rcases (serveBad_line 4 h1).1.2 r hr with k | k
  · simpa using (List.mem_filter.1 k).2
  · exact k ht

theorem endDestroy_privs (h : Flat s) (d : Destroy) : (s.endDestroy d).mbx.privs = s.mbx.privs := by
  have T : Fact True := ⟨trivial⟩
  unfold State.endDestroy
  extract_lets q bs s1 s2 im s3 s4 s5
  have k1 : Keeps False (fun _ => True) s s1 := by
    simp only [s1]
    split
    · exact hostWrite_keeps (Keeps.rfl' h) _ _
    · exact hubWrite_keeps (Keeps.rfl' h) _ _
  have h1 : s1.mbx = s.mbx := by
    simp only [s1]
    split
    · exact hostWrite_mbx _ _ _
    · exact hubWrite_mbx _ _ _
  clear_value s1
  have k2 : Keeps False (fun _ => True) s s2 := by
    simp only [s2]
    split
    · exact k1
    · exact modSlot_keeps k1 _ _
  have h2 : s2.mbx = s.mbx := by
    simp only [s2]
    split
    · exact h1
    · exact h1
  clear_value s2
  have k3 : Keeps False (fun _ => True) s s3 := xlat_keeps k2 _ (swf_smap _ _ _ k2.flat.xlat)
  have k4 : Keeps False (fun _ => True) s s4 := slots_keeps k3 _ (swf_smap _ _ _ k3.flat.slots)
  have f5 : Flat s5 := { (setQueue_keeps k4 d.queue Queue.reset).flat with }
  have r5 := reply_line f5 d.req rcOk []
  have f6 := (reply_keeps (P := False) (W := fun _ => True) (Keeps.rfl' f5) d.req rcOk []).flat
  have p5 : s5.mbx.privs = s2.mbx.privs := rfl
  exact (serveBad_line 4 f6).2.trans (r5.2.2.trans (p5.trans (congrArg Mbx.privs h2)))

/-! ## Records leave Prephor's commands alone (R571) -/

theorem each_privs {α : Type} (xs : List α) (f : State → α → State) (hf : ∀ s x, (f s x).mbx.privs = s.mbx.privs) :
    ∀ s : State, (s.each xs f).mbx.privs = s.mbx.privs := by
  induction xs with
  | nil => intro s; rfl
  | cons d ds ih => intro s; exact (ih (f s d)).trans (hf s d)

theorem putRecord_mbx (s : State) (p : Posted) : (s.putRecord p).mbx = s.mbx := by
  unfold State.putRecord
  extract_lets q slot va s1
  have h1 : s1.mbx = s.mbx := by
    simp only [s1]
    split
    · exact devWrite_mbx _ _ _
    · exact xlatFault_mbx _ _ _ _ _
  split
  · exact h1
  · exact (hostWrite_mbx _ _ _).trans h1

theorem trace_mbx (s : State) (a b c d : Nat) (x : Bytes) : (s.trace a b c d x).mbx = s.mbx := by
  unfold State.trace
  split
  · split <;> rfl
  · rfl

theorem dropChainPreload_mbx (s : State) (e k : Nat) : (s.dropChainPreload e k).mbx = s.mbx := by
  unfold State.dropChainPreload
  split
  · split <;> rfl
  · rfl

theorem posts_mbx (s : State) (x) : State.mbx { s with posts := x } = s.mbx := rfl

theorem fresh_mbx (s : State) (x) : State.mbx { s with fresh := x } = s.mbx := rfl

theorem unfire_mbx (s : State) (te k : Nat) : (s.unfire te k).mbx = s.mbx := by
  unfold State.unfire
  extract_lets mine
  split
  · split
    · exact (posts_mbx _ _).trans ((putRecord_mbx _ _).trans ((fresh_mbx _ _).trans ((bumpBy_mbx _ _ _ _ _).trans (bumpBy_mbx _ _ _ _ _))))
    · exact (fresh_mbx _ _).trans ((bumpBy_mbx _ _ _ _ _).trans (bumpBy_mbx _ _ _ _ _))
  · rfl

theorem placeRecord_mbx (s : State) (e n : Nat) (bs : Bytes) : (s.placeRecord e n bs).mbx = s.mbx := by
  unfold State.placeRecord
  exact each_mbx _ _ putRecord_mbx s

theorem writeRecord_privs (s : State) (e : Nat) (c : Cmd) (d : Done) (m : Bool) : (s.writeRecord e c d m).mbx.privs = s.mbx.privs := by
  unfold State.writeRecord
  extract_lets f u q st s2 charge halt s3 s4 s5 s6 s7 s8 s9 s10
  have hu : u.mbx = s.mbx := by
    simp only [u, f]
    split <;> rfl
  have h2 : s2.mbx = s.mbx := (placeRecord_mbx _ _ _ _).trans hu
  clear_value charge st s2
  have h4 : s4.mbx = s2.mbx := rfl
  clear_value s4
  have h5 : s5.mbx = s2.mbx := (bumpBy_mbx _ _ _ _ _).trans ((bumpBy_mbx _ _ _ _ _).trans h4)
  clear_value s5
  have h6 : s6.mbx = s2.mbx := by
    simp only [s6]
    split
    · exact (bumpBy_mbx _ _ _ _ _).trans h5
    · exact h5
  have h7 : s7.mbx = s2.mbx := by
    simp only [s7]
    split
    · exact (bumpBy_mbx _ _ _ _ _).trans h6
    · exact h6
  have h8 : s8.mbx = s2.mbx := by
    simp only [s8]
    split
    · exact (bumpBy_mbx _ _ _ _ _).trans h7
    · exact h7
  have h9 : s9.mbx.privs = s.mbx.privs := by
    show s8.mbx.privs = s.mbx.privs
    rw [h8, h2]
  have h10 : s10.mbx.privs = s.mbx.privs := by
    simp only [s10]
    split
    · exact h9
    · exact h9
  exact (congrArg Mbx.privs (trace_mbx _ _ _ _ _ _)).trans h10

theorem postAt_privs (n : Nat) : ∀ (s : State) (e : Nat) (c : Cmd) (d : Done), (s.postAt n e c d).mbx.privs = s.mbx.privs := by
  induction n with
  | zero => intro s e c d; exact writeRecord_privs s e c d false
  | succ n ih =>
    intro s e c d
    unfold State.postAt
    extract_lets te k x armed ok s1
    split
    · split
      · exact writeRecord_privs _ _ _ _ _
      · split
        · refine (writeRecord_privs _ _ _ _ _).trans ?_
          rw [event_mbx, trace_mbx]
          rfl
        · have h1 : s1.mbx.privs = s.mbx.privs := by
            simp only [s1]
            rw [trace_mbx]
            exact congrArg Mbx.privs (dropChainPreload_mbx _ _ _)
          split
          · exact (writeRecord_privs _ _ _ _ _).trans ((ih _ _ _ _).trans h1)
          · exact (ih _ _ _ _).trans ((writeRecord_privs _ _ _ _ _).trans h1)
    · exact writeRecord_privs _ _ _ _ _

theorem cancelChains_privs (s : State) (n e : Nat) : (s.cancelChains n e).mbx.privs = s.mbx.privs := by
  unfold State.cancelChains
  refine each_privs _ _ (fun s k => ?_) s
  extract_lets x
  split
  · rfl
  · have a : ((((s.unfire e k).setChain e k ChainSlot.reset).dropChainPreload e k).bump .engine e 5).mbx = s.mbx := by
      rw [State.bump, bumpBy_mbx, dropChainPreload_mbx]
      exact unfire_mbx s e k
    have b := trace_mbx ((((s.unfire e k).setChain e k ChainSlot.reset).dropChainPreload e k).bump .engine e 5) 4 7 0 e
      (toBytes 1 k ++ toBytes 1 2)
    exact (postAt_privs 168 _ e (x.cmd e) _).trans (congrArg Mbx.privs (b.trans a))

theorem each_flat_privs {α : Type} (xs : List α) (f : State → α → State) (hk : ∀ s x, Flat s → Flat (f s x))
    (hs : ∀ s x, Flat s → (f s x).mbx.privs = s.mbx.privs) : ∀ {s : State}, Flat s → (s.each xs f).mbx.privs = s.mbx.privs := by
  induction xs with
  | nil => intro s _; rfl
  | cons x xs ih => intro s h; exact (ih (hk s x h)).trans (hs s x h)

theorem endDestroys_privs (h : Flat s) : s.endDestroys.mbx.privs = s.mbx.privs := by
  have T : Fact True := ⟨trivial⟩
  have kc : ∀ {s : State} (d : Destroy), Flat s → Keeps False (fun _ => True) s (s.each (upto 21) (fun s e => s.cancelChains d.queue e)) :=
    fun d h => each_keeps (upto 21) _ (fun _ e hy => cancelChains_keeps hy d.queue e) (Keeps.rfl' h)
  unfold State.endDestroys
  refine each_flat_privs _ _ (fun s d h => ?_) (fun s d h => ?_) h
  · split
    · exact h
    · have k := kc d h
      extract_lets t
      split
      · exact (endDestroy_keeps k _).flat
      · exact k.flat
  · split
    · rfl
    · have k := kc d h
      have a := each_privs (upto 21) (fun s e => s.cancelChains d.queue e) (fun s e => cancelChains_privs s d.queue e) s
      generalize s.each (upto 21) (fun s e => s.cancelChains d.queue e) = t at k a ⊢
      dsimp only
      split
      · next x _ => exact (endDestroy_privs (s := t) k.flat x).trans a
      · exact a

/-- A privileged command that ends has left Prephor's hands (R571). -/
theorem finishPriv_privs (h : Flat s) (c : Cmd) (d : Done) : c ∉ (s.finishPriv c d).mbx.privs := by
  have T : Fact True := ⟨trivial⟩
  unfold State.finishPriv
  extract_lets s1 s2 s3
  have k1 : Keeps False (fun _ => True) s s1 := postRecord_keeps (Keeps.rfl' h) _ _ _
  have f2 : Flat s2 := { k1.flat with }
  have h2 : c ∉ s2.mbx.privs := by
    intro h
    simpa using (List.mem_filter.1 h).2
  clear_value s2
  have f3 : Flat s3 := by
    simp only [s3]
    split
    · exact f2
    · exact (modSlot_keeps (P := False) (W := fun _ => True) (Keeps.rfl' f2) _ _).flat
  rw [endDestroys_privs f3]
  simp only [s3]
  split
  · exact h2
  · exact h2

end Sys2Proof.Machine
end

