-- ==== Sys2Proof/WellFormed.lean ====
section
/-!
DEFINITION. Which commands are well formed: every operand in the range the spec gives its number.  exec is total and does
not ask; a sender of commands keeps to these ranges.
-/
namespace Sys2Proof

/-- Ranges of the numbers that commands carry. -/
def engOk (e : Nat) : Bool := decide (e < 21)
def computeOk (e : Nat) : Bool := decide (e < 8)
def moveOk (e : Nat) : Bool := decide (8 ≤ e) && decide (e < 16)
def linkEngOk (e : Nat) : Bool := decide (17 ≤ e) && decide (e < 21)
def queueOk (q : Nat) : Bool := decide (q < 512)
def slotOk (k : Nat) : Bool := decide (k < 32)
def halfOk (d : Nat) : Bool := decide (d < 32)
def shedOk (k : Nat) : Bool := decide (k < 8)
def blockOk (b : Nat) : Bool := decide (b < 47616 * 4096)
def linkOk (p : Nat) : Bool := decide (p < 4)
def chanOk (c : Nat) : Bool := decide (c < 16)
def driveOk (p : Nat) : Bool := decide (p < 8)
def progOk (p : Nat) : Bool := decide (p < 8)
def mbxOk (m : Nat) : Bool := decide (m < 4)
def hubOk (h : Nat) : Bool := decide (h < 2)
def laneOk (l : Nat) : Bool := decide (l < 108)
def bar0Ok (off : Nat) : Bool := decide (off < 0x4000000) && decide (off % 4 = 0)
def fieldOk (n v : Nat) : Bool := decide (v < 2 ^ n)

/-- A core of the stack (R68). -/
def PhysCore.ok (c : PhysCore) : Bool := decide (c.yh < 32) && decide (c.pcol < 66) && decide (c.row < 64)

/-- A bank row of a core, the spare rows among them (R289, R302). -/
def bankRowOk (c : PhysCore) (bank row : Nat) : Bool := c.ok && decide (bank < 12) && decide (row < 130)

/-- A read of a march (R302): elements 1 to 5 read, over four backgrounds. -/
def RowFail.ok (f : RowFail) : Bool :=
  bankRowOk ⟨f.yh, f.pcol, f.row⟩ f.bank f.bankRow && decide (f.unit < 16 ∧ f.background < 4 ∧ 1 ≤ f.element ∧ f.element < 6) &&
    fieldOk 132 f.value

/-- A unit a fault can be counted against (R495). -/
def FaultUnit.ok : FaultUnit → Bool
  | .core c => c.ok
  | .router c => c.ok
  | .edge n => decide (n < 384)
  | .bankRow c bank row => bankRowOk c bank row
  | .lane port l => linkOk port && laneOk l
  | .device shed dev => shedOk shed && decide (dev < 13)
  | .hub => true

def FaultEvent.ok : FaultEvent → Bool
  | .unit u => u.ok
  | .edge n => decide (n < 384)
  | .crossing tx rx => decide (tx < 60) && decide (rx < 60)
  | .control c _ => c.ok

/-- Domains and attempts of an alignment (R266, R267). -/
def AlignFacts.ok (f : AlignFacts) : Bool :=
  f.noLock.all (fun d => decide (d < 60)) &&
  f.crossings.all (fun c => decide (c.tx < 60) && decide (c.rx < 60) && decide (c.attempts.length ≤ 4) &&
    c.attempts.all (fun a => a.all (fun w => decide (w.word < 256 ∧ w.value < 65536))))

/-- A job of a plan names a logical core, streams of the schedule object and tile A or B (R70, R72, R351). -/
def TileJob.ok (j : TileJob) : Bool :=
  decide (j.core < 131072 ∧ j.rowCore < 131072 ∧ j.colCore < 131072) && decide (j.stream < 1024 ∧ j.rowStream < 1024 ∧ j.colStream < 1024) && decide (j.tile < 2)

def TensorPlan.ok (p : TensorPlan) : Bool :=
  p.jobs.all TileJob.ok && p.tables.all (fun t => decide (t.core < 131072) && decide (t.table < 4)) &&
  p.faults.all (fun f => decide (f.1 < 131072)) && p.reads.all (fun r => linkOk r.port && chanOk r.chan) && p.pushes.all (fun r => linkOk r.port && chanOk r.chan)

/-- A frame as the lanes carry it: header fields of their widths (R438). -/
def LinkFrame.ok (f : LinkFrame) : Bool :=
  fieldOk 8 f.type && fieldOk 8 f.chan && fieldOk 16 f.flags && fieldOk 32 f.seq && fieldOk 32 f.tag && f.badLanes.all laneOk

/-- Samples of a start-up test or of a block (R476, R477). -/
def SrcBlock.ok (b : SrcBlock) : Bool := hubOk b.hub && decide (b.src < 2) && decide (b.samples.length = 1024 ∨ b.samples.length = 2048)

/-- Findings of a power-up name parts of the module. -/
def BootFacts.ok (f : BootFacts) : Bool :=
  f.bistCore.all PhysCore.ok && f.bistRouter.all PhysCore.ok && f.rowFails.all RowFail.ok && f.deadDie.all halfOk &&
  f.seamTrain.all (fun d => decide (d < 60)) && f.laneFails.all (fun x => linkOk x.1 && laneOk x.2) && f.signal.all (fun x => linkOk x.1) &&
  f.gddrFails.all (fun x => shedOk x.1 && decide (x.2 < 13)) && f.align.ok && f.katFails.all (fun x => hubOk x.1 && decide (x.2 < 3)) &&
  f.rngBlocks.all SrcBlock.ok && decide (f.stepMs.length ≤ 9)

/-- A rail of the stack (R556). -/
def Rail.ok : Rail → Bool
  | .vddY d => halfOk d
  | .vddSp d => halfOk d
  | .vddRt y => decide (y < 16)
  | .other => true

/-- A compute fault names a logical core and a restart entry (R14, R169). -/
def AnnealFault.ok (f : AnnealFault) : Bool := decide (f.core < 131072) && decide (f.entry < 64)

/-- The operands of a command stand in their ranges. -/
def Instr.wf : Instr → Bool
  | .tensor e plan => computeOk e && plan.ok
  | .anneal e fs => computeOk e && fs.all AnnealFault.ok
  | .rotate e fs => computeOk e && fs.all AnnealFault.ok
  | .snapshot e _ => computeOk e
  | .resume e fs => computeOk e && fs.all AnnealFault.ok
  | .moveCopy e => moveOk e
  | .moveSpinpack e => moveOk e
  | .route arrival => arrival.all (fun c => decide (c < 135168))
  | .combine => true
  | .reduceCompute e remote => computeOk e && remote.all (fun x => decide (x.1 < 65535))
  | .reduceNode e _ => linkEngOk e
  | .reduceOpen e => linkEngOk e
  | .reduceClose e => linkEngOk e
  | .reduceSend e => linkEngOk e
  | .fenceSignalAdd e => engOk e
  | .fenceSignalMax e => engOk e
  | .fenceWait e => engOk e
  | .chain e => engOk e
  | .nop e => engOk e
  | .patch => true
  | .repairHalter => true
  | .repairColumn => true
  | .repairRow => true
  | .marchDestructive found => found.all RowFail.ok
  | .marchPreserving found => found.all RowFail.ok
  | .clkmode facts => facts.ok
  | .rngctlReseed => true
  | .rngctlRestart kat blocks => kat.all (fun t => decide (t < 3)) && blocks.all SrcBlock.ok
  | .rngctlPattern => true
  | .rngctlPatternOff kat blocks => kat.all (fun t => decide (t < 3)) && blocks.all SrcBlock.ok
  | .retainToRun => true
  | .retainToRetain => true
  | .retainToOff => true
  | .feFenceAdd _ => true
  | .feQTail q _ => queueOk q
  | .feQResume _ _ => true
  | .rteRecSel _ _ => true
  | .mbxH2fSeq m _ => mbxOk m
  | .mbxF2hAck m _ => mbxOk m
  | .dbH2f _ => true
  | .perArm p _ => progOk p
  | .perDisarm p _ => progOk p
  | .perRepairGrant _ => true
  | .evrCursorHi _ _ => true
  | .evrWin15 _ => true
  | .evrAckHi _ => true
  | .evrFreeze _ => true
  | .evrThaw _ => true
  | .drvGclChange p _ => driveOk p
  | .rngData0 _ => true
  | .lowWordRead _ off => bar0Ok off
  | .registerWrite _ off _ => bar0Ok off
  | .queueCreate => true
  | .queueDestroy ps => ps.all (fun p => engOk p.1)
  | .queueBudget => true
  | .map => true
  | .unmap => true
  | .engineDisable => true
  | .engineEnable => true
  | .repairList => true
  | .repairRun => true
  | .patchRequest => true
  | .hubStatus => true
  | .failover => true
  | .powerUp facts => facts.ok
  | .powerUpStepTimeout step facts => decide (1 ≤ step) && decide (step ≤ 9) && facts.ok
  | .mrstPulse _ => true
  | .pfailAssert _ _ => true
  | .perst => true
  | .railOutOfBand rail => rail.ok
  | .yardLost y => decide (y < 16)
  | .flushEnd => true
  | .evrFreezeExpiry => true
  | .bar2Access _ _ len data => decide (data.length = len) || data.isEmpty
  | .bar4Read off len => decide (off + len ≤ 0x10000000)
  | .bar0BadWrite => true
  | .unsupportedRequest _ => true
  | .i3cPrivateWrite _ => true
  | .i3cPrivateRead => true
  | .i3cCcc _ => true
  | .tapInstruction _ => true
  | .driveFrameRx p _ _ => driveOk p
  | .gptpSync p _ _ => driveOk p
  | .pdelayReq p => driveOk p
  | .syncTimeout => true
  | .gclChangeApply p => driveOk p
  | .syncOutPulse => true
  | .syncInEdge => true
  | .syncInTimeout p => progOk p
  | .tickFire p => progOk p
  | .listRelease p => progOk p
  | .commit p => progOk p
  | .egressDeadline p _ => progOk p
  | .repairWindowOpen e => engOk e
  | .repairWindowClose p => progOk p
  | .columnItem _ found => found.all RowFail.ok
  | .rowItem => true
  | .realign facts => facts.ok
  | .faultReport u e => u.ok && e.all engOk
  | .spadCheckReread c bank word e _ => c.ok && decide (bank < 12 ∧ word < 8192) && e.all engOk
  | .memCheckReread b ws e _ _ => blockOk b && ws.all (fun w => decide (w < 256)) && e.all engOk
  | .writeRetry b e _ => blockOk b && e.all engOk
  | .pageRetire k => shedOk k
  | .pageRetireDone k => shedOk k
  | .deviceCopyOver k => shedOk k
  | .deviceSwap k => shedOk k
  | .refresh k => shedOk k
  | .conveyorWave conv flit _ => fieldOk 20 conv && flit.all (fieldOk 28)
  | .crossingHoldEnd d _ => halfOk d
  | .phaseStart c phase _ => decide (c < 135168) && decide (phase < 4194304)
  | .rotateVisit e fs => computeOk e && fs.all AnnealFault.ok
  | .ready c o => decide (c < 135168) && fieldOk 64 o
  | .patchLanding e found => engOk e && found.all RowFail.ok
  | .engineFetch e => engOk e
  | .preload e => engOk e
  | .startMarker e cs js => engOk e && cs.all (fun i => decide (i < 131072)) && js.all TileJob.ok
  | .idleEntry d => halfOk d
  | .wake d => halfOk d
  | .fence e k => engOk e && slotOk k
  | .ctlBad d type => halfOk d && fieldOk 8 type
  | .queueTimeout e _ => engOk e
  | .drainTimeout e _ => engOk e
  | .hostReadTimeout e => engOk e
  | .accountWindow e => engOk e
  | .mappingPoint e => engOk e
  | .slotHandover k => slotOk k
  | .dbH2fPoll => true
  | .heartbeat => true
  | .hubLoss _ => true
  | .standbyLost => true
  | .hubLostNoStandby => true
  | .rngBlock h src samples => hubOk h && decide (src < 2) && decide (samples.length = 2048 ∨ samples.length = 1024)
  | .reseed h => hubOk h
  | .rngRequest h => hubOk h
  | .rngDataBound _ => true
  | .dataFrameRx p f => linkOk p && f.ok
  | .nak p _ => linkOk p
  | .laneFault p l => linkOk p && laneOk l
  | .laneSwap p old new _ => linkOk p && laneOk old && laneOk new
  | .laneSwapSlot p => linkOk p
  | .mapMessage p _ => linkOk p
  | .linkDown p => linkOk p
  | .linkRetrained p _ => linkOk p
  | .noPeerTimeout p => linkOk p
  | .txItemSend p c => linkOk p && chanOk c
  | .linkReadRequest p c _ e => linkOk p && chanOk c && e.all engOk
  | .thermtrip _ => true
  | .testLogicReset => true
  | .windowTimeout => true
  | .flushRegionErased => true
  | .drivePortLink p _ _ => driveOk p
  | .receiveSignal p => linkOk p
  | .ackSeq p _ => linkOk p
  | .announce p _ _ => driveOk p
  | .pdelayResp p _ => driveOk p
  | .gateControlEntry p => driveOk p
  | .configurationWrite off _ => decide (off < 4096) && decide (off % 4 = 0)

end Sys2Proof
end

