-- ==== Sys2Proof/Tests/Slice0.lean ====
section
/-!
SUPPORT. Tests: ill-formed commands, what commands do on small states, and for every statement states and operands that meet its
hypotheses.
-/
namespace Sys2Proof.Tests
open Sys2Proof Sys2Proof.Machine

set_option Elab.async false

/-! ## Small states -/

/-- The invariant by evaluation. -/
theorem inv {s : State} (h : (Memory.wf s && s.unitsWf && s.partsWf && s.countersOk && decide (s.evr.recs.length ≤ 1024)) = true) : s.Inv := by
  simpa [State.Inv, and_assoc] using h

/-- A module in READY whose image has loaded. -/
def ready : State := { State.reset with pwr := { Power.reset with mod := .ready }, hub := { Hub.reset with loaded := true } }

/-- One with engine 0 over all halves, four hardware slots, half 0 up, and page 0 mapped. -/
def small : State := { ready with
  img := { Image.reset with
    engs := [⟨0, 1, 0, 0, 8, 4, 4, false⟩], xlat := [(0, ⟨0, true, true, true, none⟩)], buildId := 4,
    topo := [(0, ⟨2 ^ 64 - 1, 0⟩), (31, ⟨2 ^ 64 - 1, 0⟩)], rng := ⟨31, 700, 4, 8⟩ },
  yards := { Yards.reset with halves := [(0, { Half.reset with pstate := .run, curMhz := 2400 })] },
  engines := [(0, { Engine.reset with st := .idle })] }

/-- A command with its arguments from byte 0x20 on, and its tack block. -/
def cmd (op : Nat) (args tack : Bytes) : Cmd := { newCmd 0 (toBytes 1 op ++ zeros 31 ++ args) 0 0 none with tack := tack }

/-- A command that runs. -/
def running (op : Nat) (args tack : Bytes) : Cmd := { cmd op args tack with startAt := some 0, ready := true }

/-- Engine `e` of `s` holds a command in state `st`. -/
def hold (s : State) (e : Nat) (st : EngState) (c : Cmd) : State := s.setEng e { Engine.reset with st := st, cur := some c }

/-- Engine `e` of `s` runs a command. -/
def run (s : State) (e op : Nat) (args tack : Bytes) : State := hold s e .run (running op args tack)

/-- A privileged command is in Prephor's hands. -/
def privileged (s : State) (op : Nat) (args tack : Bytes) : State := { s with mbx := { s.mbx with privs := [cmd op args tack] } }

/-- A request with code `op` heads the line of mailbox 0, as host memory holds it. -/
def req (op : Nat) (body : Bytes) : Req := ⟨0, toBytes 2 op ++ [1, 0] ++ toBytes 4 body.length ++ zeros 24 ++ body, true, 0, 0⟩
def asked (s : State) (op : Nat) (body : Bytes) : State := { s with mbx := { s.mbx with reqs := [req op body] } }

/-- A plan without jobs. -/
def noJobs : TensorPlan := ⟨[], [], [], [], [], [], [], [], []⟩

/-! ## Witnesses: the machine -/

theorem witness_StepRunsFrontCommand : ({ ready with pending := [.refresh 7] } : State).pending = .refresh 7 :: [] := rfl

theorem witness_IdleStepPassesOneHclk : ready.Inv ∧ ready.pending = [] := ⟨inv (by decide +kernel), rfl⟩

theorem witness_StepKeepsInvariant :
    ({ ready with pending := [.refresh 7] } : State).Inv ∧ step { ready with pending := [.refresh 7] } = .next ready :=
  ⟨inv (by decide +kernel), rfl⟩

def safeState : State := { ready with pwr := { Power.reset with mod := .safe }, pending := [.refresh 7] }
def pfailState : State := { ready with pwr := { Power.reset with mod := .pfail, pfailAt := some 0 }, pending := [.refresh 7] }

theorem witness_SafeAndPfailLeftOnlyByReset :
    (safeState.Inv ∧ safeState.pwr.mod = .safe ∧ safeState.pending = [.refresh 7] ∧ step safeState = .next { safeState with pending := [] }) ∧
    (pfailState.Inv ∧ pfailState.pwr.mod = .pfail ∧ pfailState.pending = [.refresh 7] ∧
      step pfailState = .next { pfailState with pending := [] }) :=
  ⟨⟨inv (by decide +kernel), rfl, rfl, rfl⟩, inv (by decide +kernel), rfl, rfl, rfl⟩

def lostHub : State := { ready with hubs := { Hubs.reset with active := 1, h0Lost := true }, pending := [.refresh 7] }

theorem witness_FencesSeqsAndLossesOnlyGrow :
    lostHub.Inv ∧ lostHub.pending = [.refresh 7] ∧ step lostHub = .next { lostHub with pending := [] } ∧ lostHub.pwr.mod ≠ .boot ∧
      lostHub.hubs.h0Lost = true :=
  ⟨inv (by decide +kernel), rfl, rfl, by decide, rfl⟩

theorem witness_CommandsKeepToTheirParts : ready.Inv ∧ exec (.refresh 7) ready = .next ready ∧ mayWrite .fences (.refresh 7) = false :=
  ⟨inv (by decide +kernel), rfl, by decide +kernel⟩

/-- Two counters of the hub block, the first at the end of its range. -/
theorem witness_CountersWrap : ({ ready with pmon := [(pmonOff .hub 2 0, 2 ^ 48 - 1)] } : State).Inv ∧ pmonOff .hub 2 1 ≠ pmonOff .hub 2 0 := by
  unfold State.Inv
  decide +kernel

/-! ## Witnesses: engine commands -/

theorem witness_TensorCompletes : (run ready 7 opTensor [] []).Inv ∧ (run ready 7 opTensor [] []).running 7 opTensor = some (running opTensor [] []) ∧
    (run ready 7 opTensor [] []).planOk 7 (running opTensor [] []) noJobs = true ∧
    (run ready 7 opTensor [] []).takeChecks 7 (running opTensor [] []) (((run ready 7 opTensor [] []).tensorWork 7 (running opTensor [] [])
      ((run ready 7 opTensor [] []).tensorCtx 7 (running opTensor [] [])) noJobs).met ++ ((run ready 7 opTensor [] []).tensorWork 7
      (running opTensor [] []) ((run ready 7 opTensor [] []).tensorCtx 7 (running opTensor [] [])) noJobs).run.run.met) [] = none := by
  unfold State.Inv
  decide +kernel

/-- What a command that anneals reads translates, and it has met no error. -/
def annealOk (s : State) (e : Nat) (c : Cmd) : Bool :=
  ((s.annealReads c).findSome? (fun x => s.firstFail x.1 x.2 false false)).isNone &&
    (s.takeChecks e c (s.annealWords c) ((s.annealReads c).flatMap (fun x => s.devBad x.1 x.2))).isNone

theorem witness_AnnealCompletes :
    ((run small 7 opAnneal [] []).Inv ∧ (run small 7 opAnneal [] []).running 7 opAnneal = some (running opAnneal [] []) ∧
      annealOk (run small 7 opAnneal [] []) 7 (running opAnneal [] []) = true) ∧
    ((run small 0 opResume [] []).Inv ∧ (run small 0 opResume [] []).running 0 opResume = some (running opResume [] []) ∧
      annealOk (run small 0 opResume [] []) 0 (running opResume [] []) = true) := by
  unfold State.Inv
  decide +kernel

/-- A rotate of one window and one pass. -/
def rotState : State := (run small 0 opRotate [] []).physWrite 0x0C [1, 0, 1, 0]

theorem witness_RotateCompletes : rotState.Inv ∧ rotState.running 0 opRotate = some (running opRotate [] []) ∧ rotState.mem.bad = [] ∧
    (running opRotate [] []).asks = false ∧
    (rotState.rotRun 0 (rotState.rotCtx (running opRotate [] []))).next < (rotState.rotCtx (running opRotate [] [])).total ∧
    (rotState.visit 0 (rotState.rotCtx (running opRotate [] [])) (running opRotate [] [])
      (rotState.rotRun 0 (rotState.rotCtx (running opRotate [] []))) none []).toOption.isSome = true := by
  unfold State.Inv
  decide +kernel

/-- A rotate runs, and a SNAPSHOT of another queue is held as the preload. -/
def stopState : State := ready.setEng 0 { Engine.reset with
  st := .run, cur := some (running opRotate [] []),
  preload := some ⟨{ cmd opSnapshot [] [] with queue := 1, slot := some 1 }, none, none, false, (0, 0)⟩ }

/-- What a SPINPACK reads translates, and it has met no error. -/
def spinOk (s : State) (e : Nat) (c : Cmd) : Bool :=
  let b := s.devBytes (fld c.desc 0x28 8) 48
  (s.spFault b c.early).isNone && (s.takeChecks e c (s.spWords b c.early) (s.spBlocks b c.early)).isNone

theorem witness_SnapshotAndSpinpackComplete :
    ((run ready 0 opSnapshot [] []).Inv ∧ (run ready 0 opSnapshot [] []).running 0 opSnapshot = some (running opSnapshot [] [])) ∧
    (stopState.Inv ∧ stopState.running 0 opSnapshot = none ∧
      stopState.stoppedBy 0 = some (running opRotate [] [], { cmd opSnapshot [] [] with queue := 1, slot := some 1 }) ∧
      stopState.mem.bad = [] ∧ stopState.yards.bad = [] ∧ (running opRotate [] []).asks = false) ∧
    ((run small 7 opMove [] []).Inv ∧ (run small 7 opMove [] []).running 7 opMove = some (running opMove [] []) ∧
      spinOk (run small 7 opMove [] []) 7 (running opMove [] []) = true) := by
  unfold State.Inv
  decide +kernel

/-- A conversion of one page whose exponent is 32. -/
def badPage : State := (((run small 7 opMove (zeros 8) []).physWrite 0 [2]).physWrite 8 [1, 0, 1, 0]).physWrite 0xE20 [32]

theorem witness_spinpack_fails : badPage.Inv ∧ badPage.running 7 opMove = some (running opMove (zeros 8) []) ∧
    spSrcKind (badPage.devBytes (fld (running opMove (zeros 8) []).desc 0x28 8) 48) = 2 ∧
    spinOk badPage 7 (running opMove (zeros 8) []) = true ∧
    (badPage.fromPages (badPage.devBytes (fld (running opMove (zeros 8) []).desc 0x28 8) 48) []).toOption.isNone = true := by
  unfold State.Inv
  decide +kernel

/-- A tree of one leaf at a link engine, whose item does not come. -/
def voidTree : Tree := ⟨0, 0, 0, 1, 0, 0, 0, [⟨2, 0, 65535, 65535⟩]⟩
def reduceState : State :=
  let s := run small 7 opReduce (zeros 12 ++ [1]) []
  { s with img := { s.img with net := { s.img.net with trees := [voidTree] } } }

def reduceSum : List Flit :=
  (voidTree.reduce (reduceState.frameNodeOp 7 voidTree 1)
    (reduceState.reduceLeaf 0 1 [] []) 65 0).1

theorem witness_ReduceComputeCompletes : reduceState.Inv ∧ reduceState.running 7 opReduce = some (running opReduce (zeros 12 ++ [1]) []) ∧
    treeOf reduceState.img.net.trees (fld (running opReduce (zeros 12 ++ [1]) []).desc 0x20 4) = some (voidTree, 0) ∧
    reduceSum.any Flit.gap = true ∧
    reduceState.takeChecks 7 (running opReduce (zeros 12 ++ [1]) []) (reduceState.reduceWords voidTree 0 0 1 true []) [] = none := by
  unfold State.Inv
  decide +kernel

/-! ## Witnesses: movement, route and link engines -/

/-- A copy of 16 bytes from device memory to offset 0 of core 0. -/
def copyArgs : Bytes := [0, 0, 2, 0, 16, 0, 0, 0] ++ zeros 16

theorem witness_CopyCompletes :
    ((run small 8 opMove copyArgs []).Inv ∧
      (run small 8 opMove copyArgs []).starting 8 opMove = some (running opMove copyArgs [], run small 8 opMove copyArgs []) ∧
      copyDstSpace (running opMove copyArgs []).desc = 2 ∧
      (run small 8 opMove copyArgs []).copyAwake (copySrcSpace (running opMove copyArgs []).desc) (copySrc (running opMove copyArgs []).desc) = true ∧
      (run small 8 opMove copyArgs []).copyAwake (copyDstSpace (running opMove copyArgs []).desc) (copyDst (running opMove copyArgs []).desc) = true ∧
      (run small 8 opMove copyArgs []).copyReadable (running opMove copyArgs []).desc = true ∧
      (run small 8 opMove copyArgs []).copyFault (running opMove copyArgs []).desc = none ∧
      (run small 8 opMove copyArgs []).takeChecks 8 (running opMove copyArgs []) ((run small 8 opMove copyArgs []).copyMet (running opMove copyArgs []).desc 0 16).1
        ((run small 8 opMove copyArgs []).copyMet (running opMove copyArgs []).desc 0 16).2 = none ∧
      ((upto 16).map (fun i => (run small 8 opMove copyArgs []).cell (coreNum ((run small 8 opMove copyArgs []).coreAt (spCore (copyDst
        (running opMove copyArgs []).desc)))) (spOff (copyDst (running opMove copyArgs []).desc) + i))).Nodup) ∧
    (copyDstSpace (running opMove (zeros 24) []).desc ≠ 2 ∧ (run small 15 opMove (zeros 24) []).Inv ∧
      (run small 15 opMove (zeros 24) []).starting 15 opMove = some (running opMove (zeros 24) [], run small 15 opMove (zeros 24) []) ∧
      (run small 15 opMove (zeros 24) []).copyReadable (running opMove (zeros 24) []).desc = true ∧
      (run small 15 opMove (zeros 24) []).takeChecks 15 (running opMove (zeros 24) []) [] [] = none ∧
      (run small 15 opMove (zeros 24) []).copyFault (running opMove (zeros 24) []).desc = none) := by
  unfold State.Inv
  decide +kernel

/-- Engine 8 runs a COPY whose host read has waited for 1 ms. -/
def lateRead : State :=
  let s := run small 8 opMove copyArgs []
  { s with hclk := 1000 * hclkPerUs, ports := { s.ports with waitsRead := [(8, some 0)] } }
/-- Engine 0 holds a command in PREP whose host read has waited for 1 ms. -/
def lateFetch : State :=
  let s := hold small 0 .prep (cmd opNop [] [])
  { s with hclk := 1000 * hclkPerUs, ports := { s.ports with waitsRead := [(0, some 0)] } }

theorem witness_hostReadTimeout :
    (lateRead.Inv ∧ lateRead.readTimedOut 8 = true ∧ (lateRead.eng 8).cur = some (running opMove copyArgs []) ∧
      dOp (running opMove copyArgs []).desc = opMove ∧ (running opMove copyArgs []).startAt.isSome = true) ∧
    (lateFetch.Inv ∧ lateFetch.readTimedOut 0 = true ∧ (lateFetch.eng 0).cur = some (cmd opNop [] []) ∧ (lateFetch.eng 0).st = .prep ∧
      (cmd opNop [] []).ready = false) := by
  unfold State.Inv
  decide +kernel

/-- The tack of a route command: object at 0, STEP 1, fences 1 and 2. -/
def routeTack : Bytes := zeros 8 ++ [1, 0, 0, 0, 0, 1, 2] ++ zeros 17
def routeState (op : Nat) : State :=
  let s := run small 16 op [] routeTack
  { s with route := { s.route with objs := [⟨0, 0, 1, true, [], [], [], [], [], []⟩] } }

def routeSent : State := (routeState opRoute).sendSpec ((routeState opRoute).routeCtx routeTack)

theorem witness_RouteAndCombineComplete :
    ((routeState opRoute).Inv ∧ (routeState opRoute).starting 16 opRoute = some (running opRoute [] routeTack, routeState opRoute) ∧
      (routeState opRoute).routeReady 0 ((routeState opRoute).tokensOf ((routeState opRoute).devBytes (rtAddr routeTack) 64)) = true ∧
      (routeSent.takeChecks 16 (running opRoute [] routeTack) (routeSent.routeWords ((routeState opRoute).routeCtx routeTack))
        (routeSent.routeBlocks 0 ((routeState opRoute).devBytes 0 64))) = none ∧
      arrivalOk ((routeState opRoute).tokensOf ((routeState opRoute).devBytes (rtAddr routeTack) 64)).length [] = true ∧
      rtLand routeTack ≠ rtCatch routeTack) ∧
    ready.live = true ∧
    ((routeState opCombine).Inv ∧
      (routeState opCombine).starting 16 opCombine = some (running opCombine [] routeTack, routeState opCombine) ∧
      ((routeState opCombine).routeObj (rtAddr routeTack)) = some ⟨0, 0, 1, true, [], [], [], [], [], []⟩ ∧
      (routeState opCombine).takeChecks 16 (running opCombine [] routeTack)
        ((routeState opCombine).combineWords ⟨0, 0, 1, true, [], [], [], [], [], []⟩) [] = none) :=
  ⟨⟨inv (by decide +kernel), by decide +kernel⟩, rfl, inv (by decide +kernel), by decide +kernel⟩

/-- Engine 20 runs a REDUCE; its port has nothing to send, and the one pair that its NODE may ask for is done. -/
def linkState (args : Bytes) : State :=
  let s := run small 20 opReduce args []
  { s with links := [(3, { LinkPort.reset with st := .up, run := some ⟨1, false⟩ })],
           img := { s.img with net := { s.img.net with trees := [⟨0, 0, 0, 1, 0, 0, 0, [⟨2, 3, 65535, 65535⟩]⟩] } } }

theorem witness_LinkReduceCompletes_open_tx : (linkState [1, 15, 0]).Inv ∧ (linkState [1, 15, 0]).starting 20 opReduce = some (running opReduce [1, 15, 0] [], linkState [1, 15, 0]) ∧
    rForm (running opReduce [1, 15, 0] []).desc = 1 ∧ rDir (running opReduce [1, 15, 0] []).desc = 0 := by
  unfold State.Inv
  decide +kernel

theorem witness_LinkReduceCompletes_open_rx : (linkState [1, 15, 1]).Inv ∧ (linkState [1, 15, 1]).starting 20 opReduce = some (running opReduce [1, 15, 1] [], linkState [1, 15, 1]) ∧
    rForm (running opReduce [1, 15, 1] []).desc = 1 ∧ rDir (running opReduce [1, 15, 1] []).desc ≠ 0 := by
  unfold State.Inv
  decide +kernel

theorem witness_LinkReduceCompletes_close_rx : (linkState [2, 15, 1]).Inv ∧ (linkState [2, 15, 1]).starting 20 opReduce = some (running opReduce [2, 15, 1] [], linkState [2, 15, 1]) ∧
    rForm (running opReduce [2, 15, 1] []).desc = 2 ∧ rDir (running opReduce [2, 15, 1] []).desc ≠ 0 ∧
    swf RxChan.reset ((linkState [2, 15, 1]).link 3).rx = true := by
  unfold State.Inv
  decide +kernel

theorem witness_LinkReduceCompletes_close_tx : (linkState [2, 15, 0]).Inv ∧ (linkState [2, 15, 0]).starting 20 opReduce = some (running opReduce [2, 15, 0] [], linkState [2, 15, 0]) ∧
    rForm (running opReduce [2, 15, 0] []).desc = 2 ∧ rDir (running opReduce [2, 15, 0] []).desc = 0 ∧
    swf TxChan.reset ((linkState [2, 15, 0]).link 3).tx = true ∧ (((linkState [2, 15, 0]).link 3).txChan 15).queue = [] ∧
    (((linkState [2, 15, 0]).link 3).txChan 15).going = [] ∧
    ((linkState [2, 15, 0]).link 3).unacked.all (fun x => x.chan != 15) = true := by
  unfold State.Inv
  decide +kernel

theorem witness_LinkReduceCompletes_send : (linkState [3, 15]).Inv ∧ (linkState [3, 15]).running 20 opReduce = some (running opReduce [3, 15] []) ∧
    rForm (running opReduce [3, 15] []).desc = 3 ∧ ((linkState [3, 15]).link 3).run = some ⟨1, false⟩ ∧
    ((linkState [3, 15]).link 3).queued.any TxItem.bySend = false ∧
    ((linkState [3, 15]).link 3).unacked.any (fun x => x.item.bySend) = false := by
  unfold State.Inv
  decide +kernel

theorem witness_LinkReduceCompletes_node : (linkState (zeros 20 ++ [1])).Inv ∧ rForm (running opReduce (zeros 20 ++ [1]) []).desc = 0 ∧
    (linkState (zeros 20 ++ [1])).starting 20 opReduce = some (running opReduce (zeros 20 ++ [1]) [], linkState (zeros 20 ++ [1])) ∧
    rCount (running opReduce (zeros 20 ++ [1]) []).desc ≤ 1 ∧
    treeOf (linkState (zeros 20 ++ [1])).img.net.trees (rAddr (running opReduce (zeros 20 ++ [1]) []).desc % 2 ^ 32) =
    some (⟨0, 0, 0, 1, 0, 0, 0, [⟨2, 3, 65535, 65535⟩]⟩, 0) ∧
    (⟨0, 0, 0, 1, 0, 0, 0, [⟨2, 3, 65535, 65535⟩]⟩ : Tree).nodeFor 3 = some (0, ⟨2, 3, 65535, 65535⟩) := by
  unfold State.Inv
  decide +kernel

/-! ## Witnesses: fences, chains, NOP -/

/-- FENCE 255, VALUE 2^64 − 1. -/
def fenceArgs (form : Byte) : Bytes := [255, form] ++ zeros 6 ++ List.replicate 8 0xFF
def fenced (s : State) : State := { s with fences := [(255, 1)] }

theorem witness_FenceSignals :
    ((fenced (run small 20 opSignal (fenceArgs 0) [])).Inv ∧
      (fenced (run small 20 opSignal (fenceArgs 0) [])).starting 20 opSignal =
        some (running opSignal (fenceArgs 0) [], fenced (run small 20 opSignal (fenceArgs 0) [])) ∧
      fld (running opSignal (fenceArgs 0) []).desc 0x21 1 = 0 ∧ fenceOf (running opSignal (fenceArgs 0) []).desc = 255 ∧
      2 ^ 64 ≤ ((fenced (run small 20 opSignal (fenceArgs 0) [])).fence 255).toNat + fenceValue (running opSignal (fenceArgs 0) []).desc) ∧
    ((fenced (run small 20 opSignal (fenceArgs 1) [])).Inv ∧
      (fenced (run small 20 opSignal (fenceArgs 1) [])).starting 20 opSignal =
        some (running opSignal (fenceArgs 1) [], fenced (run small 20 opSignal (fenceArgs 1) [])) ∧
      fld (running opSignal (fenceArgs 1) []).desc 0x21 1 = 1) ∧
    ready.writable 0x100800 = true := by
  unfold State.Inv
  decide +kernel

/-- A FENCE_WAIT on fence 255, and one that is parked on fence 255 for the value 1. -/
def waitArgs (v : Byte) : Bytes := [255, 0] ++ zeros 6 ++ [v] ++ zeros 7
def parked : Parked := ⟨running opWait (waitArgs 1) [], 255, 1⟩
def parkedState : State := fenced (small.setEng 0 { Engine.reset with st := .idle, waits := [parked] })

theorem witness_WaitsChainsAndNopComplete :
    ((fenced (run small 20 opWait (waitArgs 1) [])).Inv ∧
      (fenced (run small 20 opWait (waitArgs 1) [])).starting 20 opWait =
        some (running opWait (waitArgs 1) [], fenced (run small 20 opWait (waitArgs 1) [])) ∧
      fenceValue (running opWait (waitArgs 1) []).desc ≤ ((fenced (run small 20 opWait (waitArgs 1) [])).fence 255).toNat) ∧
    ((fenced (run small 20 opWait (waitArgs 2) [])).Inv ∧
      (fenced (run small 20 opWait (waitArgs 2) [])).starting 20 opWait =
        some (running opWait (waitArgs 2) [], fenced (run small 20 opWait (waitArgs 2) [])) ∧
      ((fenced (run small 20 opWait (waitArgs 2) [])).fence 255).toNat < fenceValue (running opWait (waitArgs 2) []).desc) ∧
    (parkedState.Inv ∧ parkedState.live = true ∧ (parkedState.eng 0).waits.find? (fun w => parkedState.fenceMet w.fence w.value && parkedState.clears (.fenceUp w.fence) &&
        (if (32 : Nat) < 32 then (parkedState.slot 32).queue == some w.cmd.queue else (parkedState.queue w.cmd.queue).slot.isNone)) =
      some parked) ∧
    ((run small 8 opNop [] []).Inv ∧ (run small 8 opNop [] []).starting 8 opNop = some (running opNop [] [], run small 8 opNop [] [])) := by
  unfold State.Inv
  decide +kernel

/-- Engine 8 chains a NOP at 0x40 into slot 7 of engine 0. -/
def chainArgs : Bytes := [0, 7] ++ zeros 6 ++ [0x40] ++ zeros 7
def chainState : State := (run small 8 opChain chainArgs []).physWrite 0x40 [0x13]

theorem witness_chain : chainState.Inv ∧ chainState.starting 8 opChain = some (running opChain chainArgs [], chainState) ∧
    chainState.takesChain (fld (running opChain chainArgs []).desc 0x20 1) = true ∧
    (chainState.chainSlot (fld (running opChain chainArgs []).desc 0x20 1) (fld (running opChain chainArgs []).desc 0x21 1)).st = .empty ∧
    chainState.firstFail (fld (running opChain chainArgs []).desc 0x28 8) 64 false false = none ∧
    checkDesc (kindOf (fld (running opChain chainArgs []).desc 0x20 1)) (chainState.queue (running opChain chainArgs []).queue).cls
      (chainState.devBytes (fld (running opChain chainArgs []).desc 0x28 8) 64) = none ∧
    chainState.takeChecks 8 (running opChain chainArgs []) [] (chainState.chainBad (running opChain chainArgs [])) = none := by
  unfold State.Inv
  decide +kernel

/-! ## Witnesses: patches.  The object carries a signature by the key that makes both scalars of its check 1. -/

def evrZ : Nat := 0x382a7f485cfcd5817fee925cd1bf4d9b09f97d4548b9eb95f0a3d25d22b2e2589d67c2a3c14b54f093b375a1ce575a28
def evrKey : Nat × Nat :=
  (0x45c11c683b75ede270ece2b6ebdd76602c1599001f881c6fd0c3268d976d850c9fa9198dcf3aa5e41c927be59d7dca4,
   0xfd01cf6754bfebfcc0d7627018e5da9f46337f09e9158ec18d77746121ed6ac936e6cc711491d834f87113475225d6d4)
/-- A patch object of R60: patch 1 on build 4. -/
def object (section_ mode : Byte) (z : Nat) (body : Bytes) : Bytes :=
  toBytes 4 0x54505053 ++ [section_, mode, 0, 0] ++ toBytes 4 0 ++ toBytes 8 4 ++ toBytes 4 1 ++ toBytes 4 body.length ++ zeros 4 ++
    toBytes 48 z ++ toBytes 48 z ++ zeros 64 ++ body

/-- An EVR section of no entries. -/
def evrObject : Bytes := object 7 1 evrZ (toBytes 4 0x20525645 ++ [1, 0, 0, 0] ++ zeros 16)
def patchable (s : State) : State := { s.physWrite 0x1000 evrObject with hub := { s.hub with custKey := evrKey } }

def patchArgs : Bytes := [0, 0x10, 0, 0, 0, 0, 0, 0]
def patchState : State := patchable (privileged small opPatch patchArgs [])
def patchAsked : State := patchable (asked small rqPatch patchArgs)
def patchWait : PatchWait := ⟨.object evrObject, none, none, [0], [], [], [], []⟩
def patchWaits : State := { patchState with rel := { Rel.reset with patches := [patchWait] } }

theorem witness_PatchCompletes_bad :
    ((privileged small opPatch patchArgs []).Inv ∧ (privileged small opPatch patchArgs []).live = true ∧
      (privileged small opPatch patchArgs []).newPatch = some (cmd opPatch patchArgs []) ∧
      ((privileged small opPatch patchArgs []).openPatch (fld (cmd opPatch patchArgs []).desc 0x20 8)).toOption.isNone = true) ∧
    ((asked small rqPatch patchArgs).Inv ∧ (asked small rqPatch patchArgs).live = true ∧
      (asked small rqPatch patchArgs).headReq rqPatch = some (req rqPatch patchArgs) ∧ (asked small rqPatch patchArgs).mbx.windowReq = none ∧
      ((asked small rqPatch patchArgs).openPatch (fld (mBody (req rqPatch patchArgs).msg) 0 8)).toOption.isNone = true) := by
  unfold State.Inv
  decide +kernel

theorem witness_PatchCompletes_lands : patchState.Inv ∧ patchState.live = true ∧ patchState.newPatch = some (cmd opPatch patchArgs []) ∧
    (patchState.openPatch (fld (cmd opPatch patchArgs []).desc 0x20 8)).toOption.any (fun x =>
      decide (x.1 = evrObject) && !patchState.patchHeld x.1 && x.2.engines.isEmpty && x.2.swaps.isEmpty) = true ∧
    ((patchState.patchNote (fld (cmd opPatch patchArgs []).desc 0x20 8)).landObject evrObject).toOption.isSome = true := by
  unfold State.Inv
  decide +kernel

theorem witness_PatchCompletes_request : patchAsked.Inv ∧ patchAsked.live = true ∧
    patchAsked.headReq rqPatch = some (req rqPatch patchArgs) ∧ patchAsked.mbx.windowReq = none ∧
    (patchAsked.openPatch (fld (mBody (req rqPatch patchArgs).msg) 0 8)).toOption.any (fun x =>
      decide (x.1 = evrObject) && !patchAsked.patchHeld x.1 && x.2.engines.isEmpty && x.2.swaps.isEmpty) = true ∧
    (((((patchAsked.patchNote (fld (mBody (req rqPatch patchArgs).msg) 0 8)).background (req rqPatch patchArgs)).modMbx
      (fun m => { m with windowReq := some (req rqPatch patchArgs) })).landObject evrObject).toOption.isSome) = true := by
  unfold State.Inv
  decide +kernel

theorem witness_PatchCompletes_landing : patchWaits.Inv ∧ patchWaits.live = true ∧ patchWaits.patchFor 0 = some patchWait ∧
    patchWaits.boundary 0 = true ∧ patchWait.engines.all (fun x => (patchWait.held ++ [0]).contains x) = true ∧ patchWait.swaps = [] ∧
    ((patchWaits.dropPatch patchWait).landObject evrObject).toOption.isSome = true := by
  unfold State.Inv
  decide +kernel

/-- A patch that waits for two engines, and Prephor's patch of the halter of core (63, 63) of half 31. -/
def twoWait : PatchWait := ⟨.object evrObject, none, none, [0, 1], [], [], [], []⟩
def halterWait : PatchWait := ⟨.halter ⟨31, 63, 63, 3⟩, none, none, [0], [], [], [], []⟩

theorem witness_PatchCompletes_holds :
    (({ small with rel := { Rel.reset with patches := [twoWait] } } : State).Inv ∧
      ({ small with rel := { Rel.reset with patches := [twoWait] } } : State).live = true ∧
      ({ small with rel := { Rel.reset with patches := [twoWait] } } : State).patchFor 0 = some twoWait ∧
      ({ small with rel := { Rel.reset with patches := [twoWait] } } : State).boundary 0 = true ∧
      twoWait.engines.all (fun x => (twoWait.held ++ [0]).contains x) = false) ∧
    (({ small with rel := { Rel.reset with patches := [halterWait] } } : State).Inv ∧
      ({ small with rel := { Rel.reset with patches := [halterWait] } } : State).patchFor 0 = some halterWait ∧
      halterWait.engines.all (fun x => (halterWait.held ++ [0]).contains x) = true ∧ halterWait.src = .halter ⟨31, 63, 63, 3⟩ ∧
      (small.topo 31).use.getLsbD 63 = true) := by
  unfold State.Inv
  decide +kernel

/-! ## Witnesses: the other privileged commands and the items -/

def halterTack : Bytes := [0, 31, 63, 63] ++ zeros 28
def columnTack : Bytes := [1, 31, 63, 63] ++ zeros 28
def rowTack : Bytes := [2, 31, 63, 63, 11, 0, 127, 0] ++ zeros 24

/-- A HALTER of a core of a row that no core has. -/
def badTack : Bytes := [0, 31, 63, 64] ++ zeros 28

theorem witness_RepairQueuesItem_fails : (privileged small opRepair [] badTack).Inv ∧ (privileged small opRepair [] badTack).live = true ∧
    (privileged small opRepair [] badTack).newRepair 0 = some (cmd opRepair [] badTack) ∧
    ((privileged small opRepair [] badTack).privCheck (cmd opRepair [] badTack)).isSome = true := by
  unfold State.Inv
  decide +kernel

theorem witness_RepairQueuesItem_requests : ∀ t ∈ [halterTack, columnTack], (asked small rqRepairRun t).Inv ∧ (asked small rqRepairRun t).live = true ∧
    (asked small rqRepairRun t).headReq rqRepairRun = some (req rqRepairRun t) ∧ (asked small rqRepairRun t).mbx.windowReq = none ∧
    (asked small rqRepairRun t).repairCheck (mBody (req rqRepairRun t).msg) = none ∧ fld (mBody (req rqRepairRun t).msg) 0 1 ≤ 1 := by
  unfold State.Inv
  decide +kernel

theorem witness_RepairQueuesItem :
    ((privileged small opRepair [] halterTack).Inv ∧ (privileged small opRepair [] halterTack).live = true ∧
      (privileged small opRepair [] halterTack).newRepair 0 = some (cmd opRepair [] halterTack) ∧
      (privileged small opRepair [] halterTack).privCheck (cmd opRepair [] halterTack) = none) ∧
    ((privileged small opRepair [] columnTack).Inv ∧ (privileged small opRepair [] columnTack).newRepair 1 = some (cmd opRepair [] columnTack) ∧
      (privileged small opRepair [] columnTack).privCheck (cmd opRepair [] columnTack) = none) ∧
    ((privileged small opRepair [] rowTack).Inv ∧ (privileged small opRepair [] rowTack).newRepair 2 = some (cmd opRepair [] rowTack) ∧
      (privileged small opRepair [] rowTack).privCheck (cmd opRepair [] rowTack) = none) ∧
    ((asked small rqRepairRun rowTack).Inv ∧ (asked small rqRepairRun rowTack).headReq rqRepairRun = some (req rqRepairRun rowTack) ∧
      (asked small rqRepairRun rowTack).mbx.windowReq = none ∧
      (asked small rqRepairRun rowTack).repairCheck (mBody (req rqRepairRun rowTack).msg) = none ∧
      fld (mBody (req rqRepairRun rowTack).msg) 0 1 = 2) := by
  unfold State.Inv
  decide +kernel

/-- An item of column 63 of half 31 on engine 0, in an open window. -/
def item (kind : Nat) : RepairItem := ⟨kind, 0, 31, 63, 63, 11, 127, 1, 0, [cmd opRepair [] columnTack], none⟩
def itemState (kind : Nat) : State := { small with rel := { Rel.reset with items := [item kind], windows := [0] } }
def lateReq : Req := ⟨0, toBytes 2 rqPatch ++ [1, 0, 8, 0, 0, 0] ++ zeros 12 ++ [1] ++ zeros 19, true, 0, 0⟩
def lateWindow : State := { small with hclk := hclkPerUs, mbx := { Mbx.reset with windowReq := some lateReq } }

/-- Engine 0 has a REALIGN item for the crossing from half 0 to half 1. -/
def slippedState : State := { itemState 3 with clk := { (itemState 3).clk with slipped := [(0, 1)] } }

theorem witness_ItemsComplete :
    ((itemState 1).Inv ∧ (itemState 1).live = true ∧ (itemState 1).itemReady 1 = some (item 1) ∧ (itemState 1).inUse 31 63 = true ∧
      ((itemState 1).substitute 31 63).isSome = true) ∧
    ((itemState 2).Inv ∧ (itemState 2).itemReady 2 = some (item 2) ∧
      ((itemState 2).half 31).rows.find? (samePlace ⟨31, 63, 63, 11, 0, 127⟩) = none ∧
      ((itemState 2).half 31).freeSpare ⟨31, 63, 63⟩ 11 = some 0) ∧
    (slippedState.Inv ∧ slippedState.realignItem = some (item 3) ∧
      slippedState.clk.slipped.all (fun x => !(slippedState.crossingEngines x).contains 0 || (slippedState.realignable 0).contains x) = true) ∧
    ((itemState 3).Inv ∧ (itemState 3).live = true ∧ (itemState 3).realignItem = none ∧ item 3 ∈ (itemState 3).rel.items ∧
      (itemState 3).realigned (item 3) = true) ∧
    (lateWindow.Inv ∧ lateWindow.live = true ∧ lateWindow.mbx.windowReq = some lateReq ∧ lateWindow.windowLate lateReq = true) := by
  unfold State.Inv
  decide +kernel

def marchTack (mode bank : Byte) : Bytes := [1, 0, 0, 0, mode, bank, 0, 0] ++ zeros 24
def marchState (mode bank : Byte) : State := privileged small opMarch [] (marchTack mode bank)

/-- The MARCH has begun: the farriers of its halves are at work. -/
def marchRuns (mode bank : Byte) : State :=
  { marchState mode bank with yards := { small.yards with halves := [(0, { Half.reset with pstate := .idle, farrier := true })] } }

theorem witness_MarchCompletes_begins :
    ((marchState 0 0).Inv ∧ (marchState 0 0).live = true ∧ (marchState 0 0).privCheck (cmd opMarch [] (marchTack 0 0)) = none ∧
      (marchState 0 0).marching (cmd opMarch [] (marchTack 0 0)) = false ∧
      (marchState 0 0).marchReady (cmd opMarch [] (marchTack 0 0)) = true ∧ (marchState 0 0).newMarch 0 = some (cmd opMarch [] (marchTack 0 0))) ∧
    ((marchState 1 11).Inv ∧ (marchState 1 11).live = true ∧ (marchState 1 11).privCheck (cmd opMarch [] (marchTack 1 11)) = none ∧
      (marchState 1 11).marching (cmd opMarch [] (marchTack 1 11)) = false ∧
      (marchState 1 11).marchReady (cmd opMarch [] (marchTack 1 11)) = true ∧
      (marchState 1 11).newMarch 1 = some (cmd opMarch [] (marchTack 1 11))) := by
  unfold State.Inv
  decide +kernel

theorem witness_MarchCompletes_ends :
    ((marchRuns 0 0).Inv ∧ (marchRuns 0 0).live = true ∧ (marchRuns 0 0).privCheck (cmd opMarch [] (marchTack 0 0)) = none ∧
      (marchRuns 0 0).marching (cmd opMarch [] (marchTack 0 0)) = true ∧ (marchRuns 0 0).newMarch 0 = some (cmd opMarch [] (marchTack 0 0)) ∧
      0 ∈ maskHalves (cmd opMarch [] (marchTack 0 0))) ∧
    ((marchRuns 1 11).Inv ∧ (marchRuns 1 11).live = true ∧ (marchRuns 1 11).privCheck (cmd opMarch [] (marchTack 1 11)) = none ∧
      (marchRuns 1 11).marching (cmd opMarch [] (marchTack 1 11)) = true ∧
      (marchRuns 1 11).newMarch 1 = some (cmd opMarch [] (marchTack 1 11)) ∧
      keyBank (spadKey 0 0) ≠ fld (cmd opMarch [] (marchTack 1 11)).tack 5 1) := by
  unfold State.Inv
  decide +kernel

/-- Hub 0's generator is seeded, its pool holds two blocks, and the image is a factory one. -/
def rngHub : RngHub := { RngHub.reset with seeded := true, pool := [1, 2], src0 := { NoiseSrc.reset with st := srcOk } }
def rngSmall : State := { small with rng := { Rng.reset with hubs := [(0, rngHub)] }, hub := { small.hub with factory := true } }
def rngTack (op : Byte) : Bytes := [op] ++ zeros 31
def patternTack : Bytes := [2, 0, 0, 0, 0, 1] ++ zeros 26
def rngState (tack : Bytes) : State := privileged rngSmall opRngctl [] tack
/-- Samples that alternate: a start-up test and two blocks of source 0. -/
def samples (n : Nat) : List Bool := (upto n).map (fun i => i % 2 == 0)
def goodBlocks : List SrcBlock := [⟨0, 0, samples 1024⟩, ⟨0, 0, samples 2048⟩, ⟨0, 0, samples 2048⟩]

theorem witness_RngctlCompletes :
    ((rngState (rngTack 0)).Inv ∧ (rngState (rngTack 0)).live = true ∧ (rngState (rngTack 0)).privCheck (cmd opRngctl [] (rngTack 0)) = none ∧
      (rngState (rngTack 0)).rngUp ((rngState (rngTack 0)).rngctlHub (cmd opRngctl [] (rngTack 0))) = true ∧
      (rngState (rngTack 0)).newRngctl 0 = some (cmd opRngctl [] (rngTack 0)) ∧ ((rngState (rngTack 0)).rngHub 0).canReseed = true) ∧
    ((rngState patternTack).Inv ∧ (rngState patternTack).privCheck (cmd opRngctl [] patternTack) = none ∧
      (rngState patternTack).rngUp ((rngState patternTack).rngctlHub (cmd opRngctl [] patternTack)) = true ∧
      (rngState patternTack).newRngctl 2 = some (cmd opRngctl [] patternTack)) ∧
    ((rngState (rngTack 1)).privCheck (cmd opRngctl [] (rngTack 1)) = none ∧
      (rngState (rngTack 1)).newRngctl 1 = some (cmd opRngctl [] (rngTack 1)) ∧ ((rngState (rngTack 1)).rngHub 0).seeded = true) ∧
    ((rngState (rngTack 3)).privCheck (cmd opRngctl [] (rngTack 3)) = none ∧
      (rngState (rngTack 3)).newRngctl 3 = some (cmd opRngctl [] (rngTack 3)) ∧ ((rngState (rngTack 3)).rngHub 0).seeded = true) := by
  unfold State.Inv
  decide +kernel

def restarted : State :=
  ((rngState (rngTack 1)).modRngHub 0 RngHub.restart).each (goodBlocks.filter (fun b => b.hub == 0 && decide (b.src < 2)))
    (fun s b => s.block 0 b.src b.samples)

theorem witness_restart_blocks : (restarted.rngHub 0).canReseed = true ∧ (restarted.rngHub 0).bothFatal = false := by decide +kernel

def clkmodeState : State := privileged small opClkmode [] (zeros 32)
def retainTack (target : Byte) : Bytes := [1, 0, 0, 0, target] ++ zeros 27
def retainState (target : Byte) : State := privileged small opRetain [] (retainTack target)

theorem witness_ClkmodeAndRetainComplete :
    (clkmodeState.Inv ∧ clkmodeState.live = true ∧ clkmodeState.privCheck (cmd opClkmode [] (zeros 32)) = none ∧
      clkmodeState.privOf opClkmode = some (cmd opClkmode [] (zeros 32)) ∧
      (clkmodeState.clkEngines (fld (zeros 32) 0 8)).all (fun e => clkmodeState.holdsFor e 20) = true ∧ fld (zeros 32) 0 8 = 0) ∧
    ((retainState 0).Inv ∧ (retainState 0).privCheck (cmd opRetain [] (retainTack 0)) = none ∧
      (retainState 0).newRetain 0 = some (cmd opRetain [] (retainTack 0))) ∧
    ((retainState 1).Inv ∧ (retainState 1).privCheck (cmd opRetain [] (retainTack 1)) = none ∧
      (retainState 1).newRetain 1 = some (cmd opRetain [] (retainTack 1)) ∧
      (maskHalves (cmd opRetain [] (retainTack 1))).all (retainState 1).maySleep = true) ∧
    ((retainState 2).Inv ∧ (retainState 2).privCheck (cmd opRetain [] (retainTack 2)) = none ∧
      (retainState 2).newRetain 2 = some (cmd opRetain [] (retainTack 2)) ∧
      (maskHalves (cmd opRetain [] (retainTack 2))).all (retainState 2).maySleep = true) := by
  unfold State.Inv
  decide +kernel

/-! ## Witnesses: registers -/

/-- Queue 503 with a ring of 16 entries. -/
def tailState : State := { small with queues := [(503, { Queue.reset with st := .idle, descLog2 := 4, recLog2 := 4 })] }
def haltedState : State := { small with queues := [(503, { Queue.reset with st := .halted, slot := some 3 })], qSelHost := 503 }

theorem witness_QueueRegisters :
    (tailState.Inv ∧ tailState.writable (0x102000 + 4 * 503) = true ∧ (tailState.queue 503).st ≠ .free ∧
      (tailState.queue 503).st ≠ .destroying ∧ (tailState.eng (tailState.queue 503).engine).st ≠ .disabled ∧
      (tailState.eng (tailState.queue 503).engine).st ≠ .disabling ∧
      ((16 : Word).toNat + 2 ^ 32 - (tailState.queue 503).head % 2 ^ 32) % 2 ^ 32 ≤ 2 ^ (tailState.queue 503).descLog2 ∧
      2 ^ (tailState.queue 503).descLog2 < ((17 : Word).toNat + 2 ^ 32 - (tailState.queue 503).head % 2 ^ 32) % 2 ^ 32) ∧
    (haltedState.Inv ∧ haltedState.writable 0x10301C = true ∧ (1 : Word).getLsbD 0 = true ∧ 503 = haltedState.qSel .host ∧
      (haltedState.queue 503).st = .halted ∧ (haltedState.queue 503).slot.isSome = true) := by
  unfold State.Inv
  decide +kernel

theorem witness_LatchedPairs : small.Inv ∧ small.hubAlive = true ∧ latchedLow 0x1017F8 = true ∧ sqHalf 0x1017F8 = none ∧ sqHalf 0x1017FC = none ∧
    latchedLow 0x1017FC = false := by
  unfold State.Inv
  decide +kernel

theorem witness_RegisterWrites : small.Inv ∧ small.hubAlive = true ∧ small.writable 0x3F0010 = true ∧ 0x3FFFFFF % 4 ≠ 0 ∧
    0x3F0010 % 4 = 0 ∧ safeState.Inv ∧ safeState.hubAlive = true ∧ safeState.writable 0x3F0010 = false := by
  unfold State.Inv
  decide +kernel

/-- A HUB_STATUS request in host memory, which mailbox 3 points to, and a mailbox to the host with a message. -/
def statusMsg : Bytes := [0x50, 0, 1, 0] ++ zeros 28
def mbxState : State := { small with
  ports := { Ports.reset with hostMem := [(0, 0x50), (2, 1)] },
  mbx := { Mbx.reset with h2f := [(3, { H2f.reset with len := 32, space := true })], f2h := [(3, { F2h.reset with seq := 1, pending := true })] } }
/-- In the same hclk Prephor has tried its next post, before the ACK. -/
def triedMbx : State := { mbxState with
  mbx := { mbxState.mbx with f2h := [(3, { F2h.reset with seq := 1, pending := true, tried := some (0, 2) })] } }
def busyMbx : State := { small with mbx := { Mbx.reset with h2f := [(3, { H2f.reset with pending := true })] } }

theorem witness_MailboxesAndDoorbells :
    (mbxState.Inv ∧ mbxState.writable 0x40000C = true ∧ (mbxState.h2f 3).pending = false ∧
      (1 : Word).toNat = ((mbxState.h2f 3).seq + 1) % 2 ^ 32 ∧ (mbxState.h2f 3).space = true ∧ 32 ≤ (mbxState.h2f 3).len ∧
      (mbxState.h2f 3).len ≤ 4096 ∧ mbxState.mbx.reqs = [] ∧
      mbxState.hostRead ((mbxState.h2f 3).ptrLo.toNat + 2 ^ 32 * (mbxState.h2f 3).ptrHi.toNat) (mbxState.h2f 3).len = some statusMsg ∧
      mbxState.badRc ⟨3, statusMsg, true, 0, mbxState.hclk⟩ = none ∧ mbxState.writable 0x400090 = true ∧ (mbxState.f2h 3).pending = true ∧
      mbxState.writable 0x400208 = true ∧ mbxState.serving = true) ∧
    (mbxState.f2h 3).tried = none ∧
    (triedMbx.Inv ∧ triedMbx.writable 0x400090 = true ∧ (triedMbx.f2h 3).pending = true ∧
      (0x10000 : Word).toNat / 65536 = (triedMbx.f2h 3).seq % 65536 ∧ (triedMbx.f2h 3).tried = some (triedMbx.hclk, 2) ∧
      (2 : Word).toNat = ((triedMbx.f2h 3).seq + 1) % 2 ^ 32) ∧
    (busyMbx.Inv ∧ busyMbx.writable 0x40000C = true ∧ (busyMbx.h2f 3).pending = true) := by
  unfold State.Inv
  decide +kernel

/-- Standing program 7 on engine 0 every 50 µs, with what of its registers is given. -/
def perProg : PerProg := ⟨7, 0, 0, 50000, 0, 20000, 0, 0, 0⟩
def perState (x : Program) : State := { small with
  img := { small.img with progs := [perProg] }, per := { Period.reset with progs := [(7, x)] } }
def disarmed : Program := { Program.reset with st := .disarmed, count := 1, recLog2 := 4 }
def armedState : State := { perState { disarmed with st := .armed } with rel := { Rel.reset with items := [item 1] } }

theorem witness_ProgramRegisters :
    ((perState disarmed).Inv ∧ (perState disarmed).perProg 7 = some perProg ∧ (perState disarmed).writable 0xA00018 = true ∧
      (1 : Word).getLsbD 0 = true ∧ (1 : Word).getLsbD 1 = false ∧ ((perState disarmed).prog 7).st = .disarmed ∧
      (perState disarmed).armErr perProg ((perState disarmed).prog 7) = 0) ∧
    ((perState { disarmed with count := 65 }).Inv ∧ (perState { disarmed with count := 65 }).perProg 7 = some perProg ∧
      ((perState { disarmed with count := 65 }).prog 7).st = .disarmed ∧
      (perState { disarmed with count := 65 }).armErr perProg ((perState { disarmed with count := 65 }).prog 7) ≠ 0) ∧
    ((2 : Word).getLsbD 0 = false ∧ (2 : Word).getLsbD 1 = true ∧ ((perState { disarmed with st := .held }).prog 7).st = .held) ∧
    (armedState.Inv ∧ armedState.perProg 7 = some perProg ∧ armedState.writable 0xA01000 = true ∧ (0x1FFF7 : Word).toNat % 8 = 7 ∧
      bits (0x1FFF7 : Word).toNat 15 4 ≠ 0 ∧ armedState.grantResult 7 ((0x1FFF7 : Word).toNat / 65536) = 0) ∧
    ((perState disarmed).grantResult 7 ((0x1FFF7 : Word).toNat / 65536) ≠ 0) := by
  unfold State.Inv
  decide +kernel

/-- A record of SEQ 5 in the window of the host. -/
def record (sev seq : Nat) : EvRec := ⟨0x101, sev, [], 1, 0xFF, false, 0, 0, 0, seq⟩
def evrState : State := { small with evr := { Evr.reset with recs := [record 2 5], head := 6, host := ⟨5, true, false, some (record 2 5)⟩ } }
def frozen : State := { evrState with evr := { evrState.evr with freeze := true, freezeAt := 0, heldAcks := [5] }, hclk := 10000 * hclkPerUs }

theorem witness_EventWindowAndFreeze :
    (evrState.Inv ∧ evrState.hubAlive = true ∧ evrState.evr.src = false ∧ evrState.writable 0x600010 = true ∧
      (evrState.evWin .host).record = some (record 2 5) ∧ (evrState.evWin .host).valid = true ∧ evrState.writable 0x600014 = true ∧
      evrState.evr.freeze = false) ∧
    (frozen.Inv ∧ frozen.writable 0x600014 = true ∧ (0 : Word).getLsbD 0 = false ∧ (1 : Word).getLsbD 0 = true ∧ frozen.evr.freeze = true ∧
      frozen.evr.freezeAt + 10000 * hclkPerUs ≤ frozen.hclk) := by
  unfold State.Inv
  decide +kernel

theorem witness_AckFreesRecords : evrState.Inv ∧ evrState.writable 0x60001C = true ∧ evrState.evr.freeze = false := by
  unfold State.Inv
  decide +kernel

/-! ## Witnesses: power, resets and ports -/

def noFacts : BootFacts :=
  { h0Fails := false, h1Fails := false, readErrorA := false, readErrorB := false, bistCore := [], bistRouter := [], rowFails := [], deadDie := [], seamTrain := [], laneFails := [],
    signal := [], gddrFails := [], align := ⟨[], []⟩, katFails := [], rngBlocks := [], stepMs := [] }

theorem witness_PowerUpEnds : State.reset.Inv ∧ State.reset.atReset = true ∧ (noFacts.h0Fails && noFacts.h1Fails) = false ∧
    ({ noFacts with h0Fails := true, h1Fails := true }.h0Fails && { noFacts with h0Fails := true, h1Fails := true }.h1Fails) = true := by
  unfold State.Inv
  decide +kernel

/-- The boot step 9 takes place in range. -/
theorem witness_powerUpStep : (1 : Nat) ≤ 9 ∧ (9 : Nat) ≤ 9 := by decide

/-- A flush and an erase at work, and the last hclk before the kill at 100 µs and before the dark at 200 µs of PFAIL#. -/
def flushState : State := { small with evr := { Evr.reset with flushing := some ⟨1, 1, 0, [record 3 5]⟩ } }
def eraseState : State := { small with evr := { Evr.reset with erasing := some 1, flushWaits := true, flushes := 15 } }
def failing (us : Nat) : State := { small with pwr := { Power.reset with mod := .pfail, pfailAt := some 0 }, hclk := us * hclkPerUs - 1 }

theorem witness_ResetAndPowerFail :
    (ready.Inv ∧ ready.pwr.mod ≠ .pfail ∧ ready.hubAlive = true ∧ ready.evr.flushing = none ∧ ready.evr.erasing = none) ∧
    (flushState.Inv ∧ flushState.evr.flushing = some ⟨1, 1, 0, [record 3 5]⟩ ∧ (record 3 5).regs.length ≤ 6) ∧
    (eraseState.Inv ∧ eraseState.evr.erasing = some 1) ∧
    ((failing 100).Inv ∧ (failing 100).pending = [] ∧ (failing 100).pwr.mod = .pfail ∧ (failing 100).pwr.pfailAt = some 0 ∧
      (failing 100).hclk + 1 = 0 + 100 * hclkPerUs) ∧
    ((failing 200).Inv ∧ (failing 200).pending = [] ∧ (failing 200).pwr.mod = .pfail ∧ (failing 200).pwr.pfailAt = some 0 ∧
      (failing 200).hclk + 1 = 0 + 200 * hclkPerUs) := by
  unfold State.Inv
  decide +kernel

/-- THERMTRIP# is low, and a refresh waits. -/
def hotState : State := { ready with pwr := { Power.reset with mod := .ready, thermtrip := true }, pending := [.refresh 7] }

theorem witness_ThermtripStaysLow : hotState.Inv ∧ step hotState = .next { hotState with pending := [] } ∧ hotState.pwr.thermtrip = true ∧
    hotState.pending = [.refresh 7] :=
  ⟨inv (by decide +kernel), rfl, rfl, rfl⟩

theorem witness_LostYardEntersSafe : small.Inv ∧ small.yardsUp = true ∧ Rail.yard (.vddRt 15) = some 15 ∧ Rail.yard .other = none ∧
    small.pwr.mod ≠ .pfail ∧ pfailState.pwr.mod = .pfail ∧ pfailState.Inv := by
  unfold State.Inv
  decide +kernel

theorem witness_FlushesComplete :
    (flushState.Inv ∧ flushState.evr.flushing = some ⟨1, 1, 0, [record 3 5]⟩ ∧
      flushState.flushBlank 1 = true ∧ [record 3 5].length ≤ 1024 ∧ (∀ r ∈ [record 3 5], r.regs.length ≤ 6) ∧
      flushState.evr.flushSeq + 1 < 2 ^ 32 ∧ flushState.pwr.mod ≠ .pfail ∧ pfailState.pwr.mod = .pfail) ∧
    (eraseState.Inv ∧ eraseState.evr.erasing = some 1 ∧ eraseState.evr.flushWaits = true ∧ eraseState.evr.flushing = none ∧
      eraseState.evr.flushes < 16 ∧ eraseState.pwr.mod ≠ .pfail) := by
  unfold State.Inv
  decide +kernel

/-- The last byte of page 0. -/
theorem witness_Bar2ReadsWhatItWrote : small.Inv ∧ small.hubAlive = true ∧ small.bar2Served = true ∧ 0x3FFFFF + 1 ≤ 2 ^ small.ports.bar2Log2 ∧
    small.firstFail 0x3FFFFF 1 false true = none ∧ small.firstFail 0x3FFFFF 1 true true = none ∧ 0x3FFFFF % pageBytes + 1 ≤ pageBytes := by
  unfold State.Inv
  decide +kernel

/-- No page is being retired. -/
theorem witness_bar2_noRetirement (k : Nat) : (small.shed k).retBusy = false := rfl

/-- Two bytes of which the second lies in page 1, which is not mapped; and with a fault recorded before. -/
def faulted : State := { small with mem := { Mem.reset with xfInfo := 1 } }

theorem witness_FailedBar2AccessIsRecorded :
    (small.Inv ∧ small.hubAlive = true ∧ small.bar2Served = true ∧ 0x3FFFFF + 2 ≤ 2 ^ small.ports.bar2Log2 ∧
      small.firstFail 0x3FFFFF 2 true true = some (0x400000, 1) ∧ small.mem.xfInfo.getLsbD 0 = false) ∧
    (faulted.Inv ∧ faulted.firstFail 0x3FFFFF 2 true true = some (0x400000, 1) ∧ faulted.mem.xfInfo.getLsbD 0 = true) := by
  unfold State.Inv
  decide +kernel

def traced : State := { small with img := { small.img with traceSrc := 1 } }

theorem witness_HostRequests :
    (traced.Inv ∧ traced.hubAlive = true ∧ traced.pwr.mod ≠ .safe ∧ traced.img.traceSrc ≠ 0 ∧ 0xFFFFFFF + 1 ≤ bar4Bytes ∧
      bar4Bytes < 0xFFFFFFF + 2) ∧
    (small.Inv ∧ small.hubAlive = true ∧ small.img.traceSrc = 0 ∧ (small.ports.config.map Prod.fst).Nodup ∧
      (small.ports.msixTable.map Prod.fst).Nodup) := by
  unfold State.Inv
  decide +kernel

theorem witness_configurationWrite : ∃ off, off ≠ Config.rebarControl ∧ identityWord small.pwr.grade off = none :=
  if h : Config.rebarControl = 4 then ⟨12, by omega, by decide⟩ else ⟨4, fun x => h x.symm, by decide⟩

theorem witness_identityWrite : ∃ off w, off ≠ Config.rebarControl ∧ identityWord small.pwr.grade off = some w :=
  if h : Config.rebarControl = 0 then ⟨8, _, by omega, rfl⟩ else ⟨0, _, fun x => h x.symm, rfl⟩

/-- The offset 0x60_0010, as a private write carries it. -/
theorem witness_ManagementPorts :
    (small.Inv ∧ ([0x10, 0, 0x60, 0] : Bytes).length = 4 ∧ small.hubAlive = true ∧ i3cBlock (ofBytes [0x10, 0, 0x60, 0]) = true ∧
      ofBytes [0x10, 0, 0x60, 0] < 0x4000000 ∧ latchedHigh (ofBytes [0x10, 0, 0x60, 0]) = false ∧ sqHalf (ofBytes [0x10, 0, 0x60, 0]) = none) ∧
    i3cBlock ({ small.ports with i3cOff := 0x100000 } : Ports).i3cOff = false ∧ small.ports.tapFull = true ∧
    ({ small.ports with tapFull := false } : Ports).tapFull = false ∧ TapInstr.samplePreload ≠ .bypass ∧ TapInstr.samplePreload ≠ .idcode := by
  unfold State.Inv
  decide +kernel

/-! ## Witnesses: drive ports, time and standing programs -/

/-- Port 7 is enabled with gPTP; stream 0 comes in on it with 4 bytes. -/
def driveState : State := { small with
  img := { small.img with progs := [perProg], streams := [⟨7, 0, 7, 0, 9, 4, 0⟩] },
  per := { Period.reset with ports := [(7, { DrivePort.reset with cfg := 9, cycle := 1000 })] } }
/-- A record of stream 9 and tick 3, and a frame of another type. -/
def recordFrame : Bytes := zeros 12 ++ [0x88, 0xB5, 1, 0, 1, 0, 3, 0, 0, 0] ++ zeros 8 ++ [9, 0, 4, 0, 1, 2, 3, 4]
def otherFrame : Bytes := zeros 12 ++ [0x08, 0x00]

theorem witness_DriveFrames : driveState.Inv ∧ driveState.e5Up = true ∧ (driveState.port 7).cfg.getLsbD 0 = true ∧
    otherFrame.length ≤ 1518 ∧ ofBytes ((otherFrame.drop 12).take 2).reverse ≠ 0x8100 ∧
    ofBytes ((otherFrame.drop 12).take 2).reverse ≠ 0x88B5 ∧ ofBytes ((otherFrame.drop 12).take 2).reverse ≠ 0x88F7 ∧
    34 ≤ recordFrame.length ∧ recordFrame.length ≤ 1518 ∧ ofBytes ((recordFrame.drop 12).take 2).reverse = 0x88B5 ∧
    fld recordFrame 14 1 = 1 ∧ fld recordFrame 16 1 = 1 ∧ 34 + fld recordFrame 32 2 ≤ recordFrame.length ∧ fld recordFrame 32 2 = 4 ∧
    (indexed driveState.img.streams).find? (fun y => decide (y.2.port = 7 ∧ y.2.dir = 0 ∧ y.2.sid = fld recordFrame 30 2)) =
      some (0, ⟨7, 0, 7, 0, 9, 4, 0⟩) := by
  unfold State.Inv
  decide +kernel

def syncedState : State := { driveState with per := { driveState.per with time := { TimeSt.reset with synced := true } } }
/-- The link of port 7 is up, and master 5 stands. -/
def linkState7 : State := { driveState with
  per := { driveState.per with ports := [(7, { driveState.port 7 with link := true })], time := { TimeSt.reset with master := some (1, 5) } } }

theorem witness_TimeFollowsSync : driveState.Inv ∧ driveState.ptpOn 7 = true ∧ syncedState.Inv ∧ syncedState.e5Up = true ∧
    syncedState.per.time.synced = true ∧ syncedState.pending = [] ∧ driveState.per.time.follows 0 = true ∧
    (driveState.port 7).waiting = [] ∧ (driveState.port 7).link = false ∧
    (linkState7.Inv ∧ linkState7.ptpOn 7 = true ∧ (linkState7.port 7).waiting = [] ∧ (linkState7.port 7).link = true ∧
      (linkState7.port 7).oper.entries = [] ∧ linkState7.per.time.follows 6 = false) := by
  unfold State.Inv
  decide +kernel

def gateState : State := { driveState with
  per := { driveState.per with ports := [(7, { DrivePort.reset with cfg := 1, cycle := 1000, pending := some (0, ⟨[(1, 1000)], 1000, 0⟩) })] } }

theorem witness_GatesAndPorts :
    (driveState.Inv ∧ driveState.writable 0xA02024 = true ∧ (0x100 : Word).getLsbD 8 = true ∧ 1000 ≤ (driveState.port 7).cycle.toNat ∧
      (driveState.port 7).cycle.toNat ≤ 1000000000 ∧ (driveState.port 7).oper.entries = []) ∧
    (gateState.Inv ∧ (gateState.port 7).pending = some (0, ⟨[(1, 1000)], 1000, 0⟩) ∧ 0 ≤ gateState.time) := by
  unfold State.Inv
  decide +kernel

/-- Program 7 on SYNC_IN edges, armed, at `at_` hclk. -/
def syncProg : PerProg := { perProg with tickSrc := 1 }
def syncState (edge : Option Nat) (at_ : Nat) : State := { small with
  hclk := at_, img := { small.img with progs := [syncProg] },
  per := { Period.reset with progs := [(7, { disarmed with st := .armed, edge := edge })], syncMode := 1 } }

/-- 7/8 of 50 µs are 52,500 hclk; the edge at 52,499 is early, and 9/8 are passed after 67,500. -/
theorem witness_SyncPins :
    ((syncState none 0).Inv ∧ (syncState none 0).live = true ∧ syncProg.tickSrc = 1 ∧ ((syncState none 0).prog 7).armed = true ∧
      syncProg ∈ (syncState none 0).img.progs ∧ ((syncState none 0).img.progs.map PerProg.prog).Nodup ∧
      ((syncState none 0).prog 7).edge = none ∧ (syncState none 0).per.syncMode = 1) ∧
    ((syncState (some 0) 52500).Inv ∧ 7 * syncProg.period ≤ 8 * nsOf ((syncState (some 0) 52500).hclk - 0)) ∧
    ((syncState (some 0) 52499).Inv ∧ 8 * nsOf ((syncState (some 0) 52499).hclk - 0) < 7 * syncProg.period) ∧
    ((syncState (some 0) 67502).Inv ∧ (syncState (some 0) 67502).perProg 7 = some syncProg ∧
      9 * syncProg.period < 8 * nsOf ((syncState (some 0) 67502).hclk - 0)) := by
  unfold State.Inv
  decide +kernel

/-- Program 7 at its fire instant, with its list done, and at its deadline. -/
def dueState : State := { perState { disarmed with st := .armed } with hclk := 60000 }
/-- Its first command of the tick before still runs on engine 0; and the tick waits with nothing before it. -/
def blockedState : State := dueState.setEng 0 { Engine.reset with st := .run, cur := some { running opNop [] [] with queue := 511 } }
def waitState : State := { perState { disarmed with st := .armed, waits := true, fired := true } with hclk := 60000 }
def doneState : State := { perState { disarmed with st := .running, fired := true, released := true } with hclk := 154 }
def deadlineState : State := { perState { disarmed with st := .running, fired := true, fireAt := 50000 } with hclk := 84000 }

theorem witness_TicksComplete_waits :
    (blockedState.Inv ∧ blockedState.perProg 7 = some perProg ∧ blockedState.live = true ∧ (blockedState.prog 7).st = .armed ∧
      (blockedState.prog 7).fired = false ∧ (blockedState.prog 7).disarmNext = false ∧ (blockedState.prog 7).windowOpen = false ∧
      (blockedState.prog 7).grantWait = false ∧ (blockedState.prog 7).waits = false ∧ blockedState.dueTick perProg = some (1, 50000) ∧
      blockedState.fireBlocked perProg = true) ∧
    (waitState.Inv ∧ waitState.perProg 7 = some perProg ∧ waitState.live = true ∧ (waitState.prog 7).armed = true ∧
      (waitState.prog 7).waits = true ∧ (waitState.prog 7).st ≠ .held ∧ waitState.fireBlocked perProg = false) := by
  unfold State.Inv
  decide +kernel

theorem witness_TicksComplete :
    (dueState.Inv ∧ dueState.perProg 7 = some perProg ∧ dueState.live = true ∧ (dueState.prog 7).st = .armed ∧ (dueState.prog 7).fired = false ∧
      (dueState.prog 7).disarmNext = false ∧ (dueState.prog 7).windowOpen = false ∧ (dueState.prog 7).grantWait = false ∧
      (dueState.prog 7).waits = false ∧ dueState.dueTick perProg = some (1, 50000) ∧ dueState.fireBlocked perProg = false) ∧
    (doneState.Inv ∧ doneState.perProg 7 = some perProg ∧ doneState.live = true ∧ (doneState.prog 7).st = .running ∧
      (doneState.prog 7).fired = true ∧ (doneState.prog 7).committed = false ∧ doneState.listEnded 7 = true ∧
      (doneState.prog 7).postAt + doneState.commitHclk 7 ≤ doneState.hclk) ∧
    (deadlineState.Inv ∧ deadlineState.perProg 7 = some perProg ∧ deadlineState.e5Sends = true ∧ (deadlineState.prog 7).fired = true ∧
      (deadlineState.prog 7).fireAt + perProg.egress ≤ deadlineState.progNow perProg ∧ (deadlineState.prog 7).windowOpen = false ∧
      (deadlineState.prog 7).st = .running) := by
  unfold State.Inv
  decide +kernel

theorem witness_ListReleasedAtInDone :
    (doneState.Inv ∧ doneState.live = true ∧ (doneState.prog 7).st = .running ∧ (doneState.prog 7).fired = true ∧
      (doneState.prog 7).waits = false ∧ (doneState.eng (doneState.queue 511).engine).st ≠ .disabled ∧
      (doneState.eng (doneState.queue 511).engine).st ≠ .disabling ∧ doneState.perProg 7 = some perProg) ∧
    ({ small with slots := [(0, { Slot.reset with queue := some 511 })] }.slot 0).queue = some (504 + 7) ∧ (small.prog 7).released = false := by
  unfold State.Inv
  decide +kernel

/-! ## Witnesses: faults, memory and the network -/

/-- Core 63 of column 63 of half 31 has two events that still count. -/
def core31 : PhysCore := ⟨31, 63, 63⟩
def twice : State := { small with rel := { Rel.reset with track := [⟨.core core31, [0, 0]⟩] } }
/-- The router of that core has two, and halves 0 and 1 run aligned. -/
def routerTwice : State := { small with rel := { Rel.reset with track := [⟨.router core31, [0, 0]⟩] } }
def aligned01 : State := { small with clk := { small.clk with aligned := 3 } }
def retried : State := { small with mem := { Mem.reset with sheds := [(0, { Shed.reset with retry := [⟨0, 7⟩] })] } }

theorem witness_FaultsAreHandled : twice.Inv ∧ twice.live = true ∧ FaultUnit.core core31 ≠ .hub ∧ twice.counts (.core core31) = true ∧
    (twice.countEvent (.core core31)).1 = true ∧ twice.memoryUp = true ∧ (∀ x, some 20 = some x → x < 21) ∧
    (routerTwice.Inv ∧ routerTwice.live = true ∧ routerTwice.counts (.router core31) = true ∧ (routerTwice.countEvent (.router core31)).1 = true ∧
      (small.countEvent (.router core31)).1 = false) ∧
    (aligned01.Inv ∧ aligned01.live = true ∧ crossing 0 1 = true ∧ aligned01.alignedDom 0 = true ∧ aligned01.alignedDom 1 = true) ∧
    retried.Inv ∧ retried.memoryUp = true ∧ (∃ r ∈ (retried.shed (blockSlice 0 / 24)).retry, r.block = 0) := by
  unfold State.Inv
  decide +kernel

/-- Page 0 waits for retirement; page 0 is being retired, its last block uncopied; a copy-over is done. -/
def waitsRetire : State := { small with mem := { Mem.reset with sheds := [(0, { Shed.reset with retQueue := [0] })] } }
def retiring : State := { small with mem := { Mem.reset with sheds := [(0, { Shed.reset with retBusy := true, retNew := 192, retDone := [0] })] } }
def copied : State := { small with mem := { Mem.reset with sheds := [(0, { Shed.reset with copying := some 11, copyDone := copyTotal })] } }

theorem witness_PagesAndDevices :
    (waitsRetire.Inv ∧ waitsRetire.memoryUp = true ∧ (waitsRetire.shed 0).retBusy = false ∧ (waitsRetire.shed 0).retQueue = [0] ∧
      waitsRetire.vpageOf 0 = some 0 ∧ waitsRetire.freeFrame (0 % 192) = some 192) ∧
    (retiring.Inv ∧ retiring.memoryUp = true ∧ (retiring.shed 0).retBusy = true ∧
      (upto 4096).find? (fun i => !(retiring.shed 0).retDone.contains i) = some 1) ∧
    (copied.Inv ∧ copied.memoryUp = true ∧ (copied.shed 0).copying = some 11 ∧ copied.hubAlive = true ∧
      copyTotal ≤ (copied.shed 0).copyDone) := by
  unfold State.Inv
  decide +kernel

/-- A delivery conveyor of edge router 0 over one core. -/
def conveyor : Conveyor := ⟨0, 0, 0, 0, 0, 0, 0, 0, 0⟩
def withWave (s : State) : State := { s with img := { s.img with net := { Net.reset with nC := 1, conveyors := [conveyor] } } }
/-- The movement engine of shed 0 copies 16 bytes into that core. -/
def carries : State := withWave (run small 8 opMove copyArgs [])

theorem witness_NetworkEvents_delivery : carries.Inv ∧ carries.img.net.conveyors[0]? = some conveyor ∧ carries.waveFrame 0 conveyor = some 0 ∧
    carries.hub.loaded = true ∧ carries.pwr.mod = .ready ∧ 0 % 2 = conveyor.dir % 2 ∧
    carries.running (8 + conveyor.edge / 32) opMove = some (running opMove copyArgs []) ∧
    carries.member conveyor carries.img.net.nC (carries.wave 0 % carries.img.net.nC) = some 0 ∧
    carries.unitFits conveyor 0 (conveyor.slice carries.img.net.nC (carries.wave 0)) (running opMove copyArgs []) 0 = true ∧
    carries.takeChecks 8 (running opMove copyArgs []) (carries.copyMet (running opMove copyArgs []).desc (16 * 0) 16).1
      (carries.copyMet (running opMove copyArgs []).desc (16 * 0) 16).2 = none ∧ copyDstSpace (running opMove copyArgs []).desc = 2 ∧
    ((upto 16).map (fun j => carries.cell (coreNum (carries.coreAt (spCore (copyDst (running opMove copyArgs []).desc + 16 * 0))))
      (spOff (copyDst (running opMove copyArgs []).desc + 16 * 0) + j))).Nodup := by
  unfold State.Inv
  decide +kernel

/-- Half 31 holds in its slot. -/
def holding : State := { small with yards := { small.yards with holds := [31] } }
/-- An anneal over one core, whose control block has W 1 and H 1. -/
def phaseState : State := (run small 0 opAnneal [] []).physWrite 8 [1, 0, 1, 0]

theorem witness_NetworkEvents :
    ((withWave small).Inv ∧ (withWave small).img.net.conveyors[0]? = some conveyor ∧ (withWave small).waveFrame 0 conveyor = some 0 ∧
      (withWave small).hub.loaded = true ∧ (withWave small).pwr.mod ≠ .safe ∧ (withWave small).pwr.mod ≠ .pfail ∧
      holding.Inv ∧ holding.yards.holds.contains 31 = true ∧ holding.pwr.mod = .ready ∧ small.yards.holds.contains 31 = false) ∧
    (phaseState.Inv ∧ phaseState.engineOf (physOf 0).yh = some 0 ∧ phaseState.phased 0 = some (running opAnneal [] []) ∧
      phaseState.engAligned 0 = false ∧
      phaseState.phaseOpen (phaseState.ctrlOf (running opAnneal [] []).sched.header) 0 1 = true) := by
  unfold State.Inv
  decide +kernel

theorem witness_DrainArithmetic : (∀ v ∈ [0, 2 ^ 31], mag32 v = 0) ∧ (2 ≤ [one32, one32].length ∧ (∀ x ∈ [one32, one32], x = one32) ∧ mag32 one32 ≠ 0) ∧
    key32 0 < key32 one32 ∧ fmtOf 0 = 0 ∧ fmtOf 2 = 2 := by
  decide +kernel

/-! ## Witnesses: fetching, timeouts and slots -/

/-- Queue 503 in slot 3 of engine 0 with one NOP to be fetched. -/
def queued (e : Engine) : State := { small with
  engines := [(0, e)], slots := [(3, { Slot.reset with queue := some 503 })],
  queues := [(503, { Queue.reset with st := .mapped, cls := 3, tail := 1, slot := some 3, share := 1, descLog2 := 4, recLog2 := 4 })] }
def runsTensor : Engine := { Engine.reset with st := .run, cur := some (running opTensor [] []) }
/-- Half 31 idles for 64 yclk, and it sleeps. -/
def lazy : State := { small with yards := { Yards.reset with
  clocks := List.replicate 32 ⟨64, 0⟩, halves := [(31, { Half.reset with pstate := .run, curMhz := 2400 })] } }
def sleeping (p : PState) : State := { small with yards := { Yards.reset with halves := [(31, { Half.reset with pstate := p, waking := true })] } }

theorem witness_FetchingAndStarting :
    ((queued { Engine.reset with st := .idle }).Inv ∧ (queued { Engine.reset with st := .idle }).fetches 0 = true ∧
      ((queued { Engine.reset with st := .idle }).eng 0).preload = none ∧
      (queued { Engine.reset with st := .idle }).nextSource 0 = some (.slot 3) ∧
      ((queued { Engine.reset with st := .idle }).slot 3).queue = some 503 ∧ ((queued { Engine.reset with st := .idle }).eng 0).cur = none ∧
      (∀ d ∈ (queued { Engine.reset with st := .idle }).mbx.destroys, d.queue ≠ 503)) ∧
    ((queued runsTensor).Inv ∧ (queued runsTensor).live = true ∧ ((queued runsTensor).eng 0).cur = some (running opTensor [] []) ∧
      ((queued runsTensor).eng 0).preload = none ∧ ((queued runsTensor).eng 0).st = .run ∧ dNoPreload (running opTensor [] []).desc = false ∧
      (queued runsTensor).heldFor 0 = false ∧ ((queued runsTensor).eng 0).heldItems = false ∧
      (queued runsTensor).nextSource 0 = some (.slot 3) ∧ ((queued runsTensor).slot 3).queue = some 503) := by
  unfold State.Inv
  decide +kernel

/-- Engine 0 fetches from queue 503 while the list of program 7 is not released. -/
theorem witness_ListReleasedAtInDone_fetch : ((queued { Engine.reset with st := .idle }).prog 7).released = false ∧
    ((queued { Engine.reset with st := .idle }).eng 0).preload = none ∧ ((queued { Engine.reset with st := .idle }).eng 0).cur = none ∧
    (queued { Engine.reset with st := .idle }).nextSource 0 = some (.slot 3) ∧
    (∀ d ∈ (queued { Engine.reset with st := .idle }).mbx.destroys, d.queue ≠ 504 + 7) := by decide +kernel

def readyTensor : State :=
  let s := hold small 0 .prep { cmd opTensor [] [] with ready := true }
  { s with yards := { s.yards with halves := (upto 32).map (fun d => (d, { Half.reset with pstate := .run, curMhz := 2400 })) } }
/-- The streams of its schedule mix INT8 rows with float columns. -/
def badStreams : Cmd := { cmd opTensor [] [] with ready := true, sched := { Sched.reset with cores := [0], streams := [[2], [0, 2], [1, 6]] } }
def badJob : TileJob := ⟨0, 0, 0, 1, 2, 0, 0, 0, 0, 0, 0, none, none, 0, 0, 0, 0, 0, 0, 0, .partialSum, none⟩
def badTensor : State := hold readyTensor 0 .prep badStreams
def readyState : State := hold small 20 .prep { cmd opReduce [] [] with ready := true }

theorem witness_starting :
    (readyState.Inv ∧ readyState.live = true ∧ (readyState.eng 20).cur = some { cmd opReduce [] [] with ready := true } ∧
      (readyState.eng 20).st = .prep ∧ dOp (cmd opReduce [] []).desc < 0x10 ∧ takesSched (kindOf 20) (dOp (cmd opReduce [] []).desc) = false) ∧
    (readyTensor.Inv ∧ readyTensor.live = true ∧ (readyTensor.eng 0).cur = some { cmd opTensor [] [] with ready := true } ∧
      (readyTensor.eng 0).st = .prep ∧ dOp (cmd opTensor [] []).desc < 0x10 ∧ takesSched (kindOf 0) (dOp (cmd opTensor [] []).desc) = true ∧
      readyTensor.halvesRun 0 = true ∧ readyTensor.claimWaits 0 { cmd opTensor [] [] with ready := true } = false ∧
      dOp (cmd opTensor [] []).desc = opTensor ∧ readyTensor.jobsOk 0 { cmd opTensor [] [] with ready := true } [] = true ∧
      readyTensor.tensorCheck (readyTensor.tensorCtx 0 { cmd opTensor [] [] with ready := true }) [] = none) ∧
    (lazy.Inv ∧ lazy.engineOf 31 = some 0 ∧ lazy.live = true ∧ (lazy.half 31).pstate = .run ∧ lazy.hasCommand 0 = false ∧
      lazy.idleDue 31 = true) ∧
    ((sleeping .retain).Inv ∧ (sleeping .retain).live = true ∧ (sleeping .retain).sqDown 31 = true ∧
      ((sleeping .retain).engineOf 31).isSome = true ∧ ((sleeping .retain).half 31).farrier = false) ∧
    ((sleeping .off).Inv ∧ (sleeping .off).sqDown 31 = true ∧ ((sleeping .off).half 31).farrier = false) := by
  unfold State.Inv
  decide +kernel

theorem witness_starting_fails : badTensor.Inv ∧ badTensor.live = true ∧ (badTensor.eng 0).cur = some badStreams ∧ (badTensor.eng 0).st = .prep ∧
    badStreams.ready = true ∧ dOp badStreams.desc < 0x10 ∧ badTensor.halvesRun 0 = true ∧ badTensor.claimWaits 0 badStreams = false ∧
    dOp badStreams.desc = opTensor ∧ badTensor.jobsOk 0 badStreams [badJob] = true ∧
    (badTensor.tensorCheck (badTensor.tensorCtx 0 badStreams) [badJob]).isSome = true := by
  unfold State.Inv
  decide +kernel

/-- A NOP in PREP whose queue's timeout of 1 µs has passed, under policy DRAIN (0) or KILL (1); and a drained one at its bound. -/
def timedState (policy : Nat) : State := { hold small 20 .run (running opNop [] []) with
  hclk := hclkPerUs + 1, queues := [(0, { Queue.reset with st := .mapped, policy := policy, timeoutUs := 1 })] }
def drainedState : State := { hold small 20 .drain { running opNop [] [] with draining := true } with
  hclk := 2 * hclkPerUs, queues := [(0, { Queue.reset with st := .mapped, policy := 1, timeoutUs := 1 })] }

theorem witness_TimeoutsEndCommands :
    ((timedState 0).Inv ∧ (timedState 0).live = true ∧ ((timedState 0).eng 20).cur = some (running opNop [] []) ∧
      (timedState 0).timedOut (running opNop [] []) = true) ∧
    ((timedState 1).Inv ∧ (timedState 1).timedOut (running opNop [] []) = true ∧
      ((timedState 0).queue 0).kills ≠ ((timedState 1).queue 0).kills ∧ dOp (running opNop [] []).desc ≠ opWait ∧
      dOp (running opNop [] []).desc ≠ opAnneal ∧ dOp (running opNop [] []).desc ≠ opResume ∧ dOp (running opNop [] []).desc ≠ opRotate) ∧
    (drainedState.Inv ∧ drainedState.live = true ∧ (drainedState.eng 20).cur = some { running opNop [] [] with draining := true } ∧
      drainedState.drainEnd { running opNop [] [] with draining := true } ≤ drainedState.hclk) := by
  unfold State.Inv
  decide +kernel

def windowed : State := { small with hclk := 2 ^ 20 }
def waiting : State := { small with queues := [(0, { Queue.reset with st := .idle }), (503, { Queue.reset with st := .waiting, tail := 1 })] }
def leaving : State := { small with
  slots := [(3, { Slot.reset with queue := some 502, leaving := true, next := some 503 })],
  queues := [(502, { Queue.reset with st := .mapped, slot := some 3 }), (503, { Queue.reset with st := .waiting, tail := 1 })] }
def dueWindow : State := { small with rel := { Rel.reset with items := [item 1] } }
def closing : State := { perState { disarmed with st := .repair, windowOpen := true } with hclk := 100 * hclkPerUs }

theorem witness_WindowsAndSlots :
    (windowed.Inv ∧ windowed.present 0 = true ∧ (windowed.eng 0).windowStart + 2 ^ 20 ≤ windowed.hclk) ∧
    (waiting.Inv ∧ waiting.live = true ∧ waiting.present 0 = true ∧ (waiting.queue 0).st ≠ .waiting ∧ (waiting.queue 0).slot = none ∧
      (waiting.eng 0).st ≠ .disabled ∧ (waiting.eng 0).st ≠ .disabling ∧ waiting.waitingQueues 0 = [503] ∧ waiting.mapRule 0 1 503 = some 0) ∧
    (leaving.Inv ∧ leaving.live = true ∧ (leaving.slot 3).leaving = true ∧ leaving.slotQuiet 3 = true ∧ (leaving.slot 3).queue = some 502 ∧
      (leaving.slot 3).next = some 503 ∧ (leaving.queue 503).st = .waiting ∧ (leaving.queue 502).st = .mapped ∧
      (leaving.eng (leaving.queue 503).engine).st ≠ .disabled ∧ (leaving.eng (leaving.queue 503).engine).st ≠ .disabling) ∧
    (dueWindow.Inv ∧ dueWindow.live = true ∧ dueWindow.windowDue 0 = true ∧ dueWindow.boundary 0 = true ∧
      dueWindow.rel.windows.contains 0 = false) ∧
    (closing.Inv ∧ closing.perProg 7 = some perProg ∧ (closing.prog 7).windowOpen = true ∧ (closing.prog 7).windowLeft = 0 ∧
      (closing.prog 7).fired = false ∧ (closing.dueTick perProg).isSome = true) := by
  unfold State.Inv
  decide +kernel

/-! ## Witnesses: hubs, random numbers and requests -/

def standby : State := { small with hubs := { Hubs.reset with standbyOk := true }, hclk := 250 * hclkPerUs }

theorem witness_HubsFailOver : standby.Inv ∧ standby.hasStandby = true ∧ standby.beatsMissed = true ∧ standby.hubs.standbyOk = true ∧
    standby.hubs.active < 2 ∧ small.Inv ∧ small.hubs.standbyOk = false := by
  unfold State.Inv
  decide +kernel

def hubState (h : RngHub) : State := { small with rng := { Rng.reset with hubs := [(0, h)] } }
def fatal : RngHub := { RngHub.reset with src1 := { NoiseSrc.reset with st := srcFatal } }
def asking : RngHub := { rngHub with waiting := [(.host, 0)] }
def stuckSamples : List Bool := List.replicate 2048 false
/-- Source 0 in its start-up test. -/
def startingUp : RngHub := { RngHub.reset with src0 := { NoiseSrc.reset with st := srcStarting } }
def bounded : State := { hubState asking with hclk := 20 * hclkPerUs, rng := { Rng.reset with hubs := [(0, asking)], hostWaits := some 0 } }

theorem witness_RandomNumbers :
    ((hubState fatal).Inv ∧ (hubState fatal).rngUp 0 = true ∧ (((hubState fatal).rngHub 0).src 1).st = srcFatal ∧
      (hubState fatal).rngActive.alarm = false) ∧
    ((hubState rngHub).Inv ∧ (hubState rngHub).rngUp 0 = true ∧ (((hubState rngHub).rngHub 0).src 0).st = srcOk ∧
      ((hubState rngHub).rngHub 0).pattern = none ∧
      (rctScan (hubState rngHub).img.rng.rct stuckSamples (((hubState rngHub).rngHub 0).src 0).run
        (((hubState rngHub).rngHub 0).src 0).last false).2.2 = true ∧
      stuckSamples.length = (((hubState rngHub).rngHub 0).src 0).due ∧ (samples 1024).length ≠ (((hubState rngHub).rngHub 0).src 0).due ∧
      (hubState rngHub).hubAlive = true ∧ (hubState rngHub).pwr.mod ≠ .safe ∧ (hubState rngHub).dataWaits .host = none ∧
      (hubState rngHub).hubs.active = 0 ∧ ((hubState rngHub).rngHub 0).waiting = [] ∧ (hubState rngHub).rngServes 0 = true) ∧
    (((hubState { rngHub with count := 16 }).rngHub 0).due (hubState { rngHub with count := 16 }).img.rng = true ∧
      ((hubState { rngHub with count := 16 }).rngHub 0).canReseed = true) ∧
    ((hubState asking).Inv ∧ ((hubState asking).rngHub 0).waiting = (.host, 0) :: [] ∧ (hubState asking).rngServes 0 = true) ∧
    (small.rngUp 0 = true ∧ small.dataWaits .prephor = none ∧ small.rngServes 0 = false) ∧
    (bounded.Inv ∧ bounded.rngUp 0 = true ∧ bounded.dataWaits .host = some 0 ∧ 0 + 20 * hclkPerUs ≤ bounded.hclk ∧
      bounded.hubs.active = 0) := by
  unfold State.Inv
  decide +kernel

/-- The blocks of 1,024 and 2,048 alternating samples pass, the second of the active source; and a due reseed comes before the request. -/
theorem witness_RandomNumbers_blocks :
    ((hubState startingUp).Inv ∧ (hubState startingUp).rngUp 0 = true ∧ (((hubState startingUp).rngHub 0).src 0).st = srcStarting ∧
      ((hubState startingUp).rngHub 0).pattern = none ∧ (samples 1024).length = 1024 ∧ (hubState startingUp).rngActive.alarm = false ∧
      (rctScan (hubState startingUp).img.rng.rct (samples 1024) (((hubState startingUp).rngHub 0).src 0).run
        (((hubState startingUp).rngHub 0).src 0).last false).2.2 = false ∧ aptFails (hubState startingUp).img.rng.apt (samples 1024) = false) ∧
    ((hubState rngHub).Inv ∧ (((hubState rngHub).rngHub 0).src 0).st = srcOk ∧ ((hubState rngHub).rngHub 0).pattern = none ∧
      (samples 2048).length = 2048 ∧ (hubState rngHub).rngActive.alarm = false ∧
      (rctScan (hubState rngHub).img.rng.rct (samples 2048) (((hubState rngHub).rngHub 0).src 0).run
        (((hubState rngHub).rngHub 0).src 0).last false).2.2 = false ∧
      aptFails (hubState rngHub).img.rng.apt ((samples 2048).take 1024) = false ∧
      aptFails (hubState rngHub).img.rng.apt ((samples 2048).drop 1024) = false ∧ ((hubState rngHub).rngHub 0).activeSrc = 0 ∧
      ((hubState rngHub).rngHub 0).switchTo = none ∧ ((hubState rngHub).rngHub 0).seeded = true) ∧
    ((hubState { asking with count := 16 }).Inv ∧ ((hubState { asking with count := 16 }).rngHub 0).waiting ≠ [] ∧
      (hubState { asking with count := 16 }).hubs.active = 0 ∧ (hubState { asking with count := 16 }).reseedFirst 0 = true ∧
      ((hubState { asking with count := 16 }).rngHub 0).busy ≤ (hubState { asking with count := 16 }).hclk) := by
  unfold State.Inv
  decide +kernel

/-- A create of queue 503 or of any FREE queue on engine 0, class 1; and a destroy, a budget and a map that name queue 503. -/
def createBody (q : Nat) : Bytes := toBytes 2 q ++ [1, 0] ++ zeros 8 ++ [4, 4] ++ zeros 50
def owned : State := { small with queues := [(503, { Queue.reset with st := .idle })] }
def destroyBody : Bytes := toBytes 2 503 ++ zeros 14
def budgetBody (share : Nat) : Bytes := toBytes 2 503 ++ [3, 0] ++ toBytes 4 65536 ++ toBytes 2 share ++ zeros 6
def mapBody : Bytes := toBytes 2 503 ++ [0, 0] ++ toBytes 4 1 ++ toBytes 4 0xFFFF ++ zeros 4

theorem witness_QueueAndPageRequests :
    ((asked small rqCreate (createBody 503)).Inv ∧ (asked small rqCreate (createBody 503)).headReq rqCreate = some (req rqCreate (createBody 503)) ∧
      ((asked small rqCreate (createBody 503)).createTarget 0 (createBody 503)).toOption = some 503) ∧
    ((asked small rqCreate (createBody 504)).headReq rqCreate = some (req rqCreate (createBody 504)) ∧
      ((asked small rqCreate (createBody 504)).createTarget 0 (createBody 504)).toOption = none) ∧
    ((asked owned rqBudget (budgetBody 1024)).Inv ∧
      (asked owned rqBudget (budgetBody 1024)).headReq rqBudget = some (req rqBudget (budgetBody 1024)) ∧
      fld (budgetBody 1024) 2 1 = 3 ∧ ((asked owned rqBudget (budgetBody 1024)).budget 0 (budgetBody 1024)).1 = rcOk ∧
      ((asked owned rqBudget (budgetBody 1025)).budget 0 (budgetBody 1025)).1 ≠ rcOk) ∧
    ((asked owned rqDestroy destroyBody).Inv ∧ (asked owned rqDestroy destroyBody).headReq rqDestroy = some (req rqDestroy destroyBody) ∧
      (asked owned rqDestroy destroyBody).destroyRc (req rqDestroy destroyBody) = none ∧
      (asked owned rqDestroy destroyBody).mbx.privs = [] ∧ (asked owned rqDestroy destroyBody).mbx.destroys = []) := by
  unfold State.Inv
  decide +kernel

/-- No engine of that state holds anything of a queue. -/
theorem witness_destroy_quiet (e : Nat) : ((asked owned rqDestroy destroyBody).eng e).cur = none ∧ ((asked owned rqDestroy destroyBody).eng e).preload = none ∧
    ((asked owned rqDestroy destroyBody).eng e).waits = [] ∧ ((asked owned rqDestroy destroyBody).eng e).chain = [] := by
  by_cases h : e = 0
  · subst h; decide +kernel
  · have : (asked owned rqDestroy destroyBody).eng e = Engine.reset := by simp [State.eng, asked, owned, small, sget, Ne.symm h]
    rw [this]; decide

theorem witness_pages :
    ((asked owned rqMap mapBody).Inv ∧ (asked owned rqMap mapBody).headReq rqMap = some (req rqMap mapBody) ∧
      (asked owned rqMap mapBody).rangeRetiring 0xFFFF 1 = false ∧
      ((asked owned rqMap mapBody).queue 503).pages < ((asked owned rqMap mapBody).queue 503).usePages + 1 ∧
      ((asked owned rqMap mapBody).xlat 0).valid = true) ∧
    ((asked owned rqUnmap mapBody).Inv ∧ (asked owned rqUnmap mapBody).headReq rqUnmap = some (req rqUnmap mapBody) ∧
      (asked owned rqUnmap mapBody).rangeRetiring 0xFFFF 1 = false ∧ ((asked owned rqUnmap mapBody).xlat 0).owner ≠ some 503) := by
  unfold State.Inv
  decide +kernel

def disabledState : State := { small with engines := [(0, { Engine.reset with st := .disabled })] }

theorem witness_OtherRequests :
    ((asked small rqDisable (zeros 8)).Inv ∧ (asked small rqDisable (zeros 8)).headReq rqDisable = some (req rqDisable (zeros 8)) ∧
      (asked small rqDisable (zeros 8)).engineRc 0 = none) ∧
    ((asked disabledState rqEnable (zeros 8)).Inv ∧
      (asked disabledState rqEnable (zeros 8)).headReq rqEnable = some (req rqEnable (zeros 8)) ∧
      (asked disabledState rqEnable (zeros 8)).engineRc 0 = none ∧ ((asked disabledState rqEnable (zeros 8)).eng 0).st = .disabled) ∧
    ((asked small rqEnable [21, 0, 0, 0, 0, 0, 0, 0]).headReq rqEnable = some (req rqEnable [21, 0, 0, 0, 0, 0, 0, 0]) ∧
      (asked small rqEnable [21, 0, 0, 0, 0, 0, 0, 0]).engineRc 21 = some rcNoEngine) ∧
    ((asked small rqRepairList []).headReq rqRepairList = some (req rqRepairList []) ∧
      (asked small rqStatus []).statusReq = some (req rqStatus [])) ∧
    ((asked standby rqFailover []).Inv ∧ (asked standby rqFailover []).headReq rqFailover = some (req rqFailover []) ∧
      (asked standby rqFailover []).hasStandby = true) := by
  unfold State.Inv
  decide +kernel

/-! ## Witnesses: Nolonlink -/

/-- Port 3 in a state, with one item to send on channel 15 and one received there with tag 4. -/
def linkPort (st : LinkSt) : LinkPort := { LinkPort.reset with
  st := st, txMap := 1, tx := [(15, ⟨true, 1, 1, [⟨0, zeros 16, false⟩], []⟩)],
  rx := [(15, { RxChan.reset with open_ := true, flits := 1, items := [⟨4, zeros 16, false⟩] })] }
def linked (l : LinkPort) : State := { small with links := [(3, l)] }
def frame (seq : Nat) (ok : Bool) : LinkFrame := ⟨1, 15, 3, seq, 5, 0, zeros 16, ok, []⟩

theorem witness_LinkFrames : (linked (linkPort .up)).Inv ∧ ((linked (linkPort .up)).link 3).st = .up ∧
    (frame 0 true).seq % 2 ^ 32 = ((linked (linkPort .up)).link 3).expSeq ∧ (frame 1 true).seq % 2 ^ 32 ≠ ((linked (linkPort .up)).link 3).expSeq ∧
    seqLe ((linked (linkPort .up)).link 3).expSeq 1 = true ∧ (frame 0 false).crcOk = false ∧
    ((linked { linkPort .up with badRun := 254 }).link 3).badRun + 1 < 256 ∧
    ((linked { linkPort .up with badCtl := 2 }).link 3).badCtl < 3 ∧ (((linked (linkPort .up)).link 3).txChan 15).open_ = true ∧
    (((linked (linkPort .up)).link 3).txChan 15).queue = ⟨0, zeros 16, false⟩ :: [] ∧
    newestUpTo 4 (((linked (linkPort .up)).link 3).rxChan 15).items = some ⟨4, zeros 16, false⟩ := by
  unfold State.Inv
  decide +kernel

theorem witness_LinkLanesAndTraining :
    ((linked (linkPort .up)).Inv ∧ ((linked (linkPort .up)).link 3).st = .up ∧ ((linked (linkPort .up)).link 3).txMap.getLsbD 0 = true ∧
      ((linked (linkPort .up)).link 3).swapOut = [] ∧
      (upto 108).find? (fun x => !((linked (linkPort .up)).link 3).txMap.getLsbD x) = some 1) ∧
    ((linked { linkPort .up with swapOut := [(0, 107, 80)] }).Inv ∧
      ((linked { linkPort .up with swapOut := [(0, 107, 80)] }).link 3).swapOut = [(0, 107, 80)] ∧
      (linked { linkPort .up with swapOut := [(0, 107, 80)] }).rel.patches = [] ∧
      80 ≤ ({ linked { linkPort .up with swapOut := [(0, 107, 80)] } with hclk := 192 }).slotNow 3) ∧
    ((linked { linkPort .up with swapIn := [(0, 107, 80)] }).Inv ∧ ((linked { linkPort .up with swapIn := [(0, 107, 80)] }).link 3).swapOut = [] ∧
      ((linked { linkPort .up with swapIn := [(0, 107, 80)] }).link 3).swapIn = [(0, 107, 80)]) ∧
    ((linked (linkPort .down)).Inv ∧ (linked (linkPort .down)).pwr.mod ≠ .safe ∧ ((linked (linkPort .down)).link 3).st = .down ∧
      (linked (linkPort .down)).rel.patches = []) ∧
    ((linked (linkPort .noPeer)).Inv ∧ ((linked (linkPort .noPeer)).link 3).st = .noPeer) := by
  unfold State.Inv
  decide +kernel

/-! ## Ill-formed commands: one or more for each check -/

theorem test_illFormed_numbers :
    [Instr.anneal 8 [], .moveCopy 7, .moveCopy 16, .reduceOpen 16, .reduceOpen 21, .nop 21, .feQTail 512 0, .fence 0 32, .wake 32, .pageRetire 8,
      .writeRetry (47616 * 4096) none true, .nak 4 0, .txItemSend 0 16, .gptpSync 8 0 0, .tickFire 8, .mbxH2fSeq 4 0, .reseed 2, .laneFault 0 108,
      .lowWordRead .host 2, .lowWordRead .host 0x4000000, .registerWrite .host 1 0, .ctlBad 0 256, .route [135168],
      .queueDestroy [(21, ⟨0, 0, [], [], 0⟩)], .reduceCompute 0 [(65535, [])], .yardLost 16, .bar2Access true 0 2 [0], .bar4Read 0xFFFFFFF 2,
      .ready 135168 0, .startMarker 0 [131072] [], .linkReadRequest 0 0 0 (some 21), .rotate 0 [⟨0, 64, 0, 0⟩], .phaseStart 0 4194304 0, .configurationWrite 4096 0, .configurationWrite 2 0, .engineFetch 21, .dataFrameRx 4 ⟨1, 0, 0, 0, 0, 0, [], true, []⟩,
      .drivePortLink 8 true true, .slotHandover 32, .repairWindowClose 8, .mappingPoint 21].all (fun i => !i.wf) = true := by
  decide +kernel

theorem test_illFormed_parts :
    [Instr.tensor 0 { noJobs with reads := [⟨4, 0, 0, 0, 0⟩] }, .marchDestructive [⟨32, 0, 0, 0, 0, 0, 0, 0, 1, 0⟩], .marchPreserving [⟨0, 66, 0, 0, 0, 0, 0, 0, 1, 0⟩],
      .faultReport (.unit (.core ⟨0, 0, 64⟩)) none, .faultReport (.unit (.bankRow ⟨0, 0, 0⟩ 12 0)) none, .faultReport (.unit (.lane 0 108)) none,
      .faultReport (.unit (.device 0 13)) none, .faultReport (.edge 384) none, .faultReport (.crossing 60 0) none, .faultReport (.control ⟨32, 0, 0⟩ true) none,
      .clkmode ⟨[60], []⟩, .realign ⟨[], [⟨0, 1, [[⟨256, 0, 0⟩]]⟩]⟩, .rngctlRestart (some 3) [], .rngctlPatternOff none [⟨0, 2, []⟩], .rngBlock 0 0 [],
      .powerUp { noFacts with deadDie := [32] }, .powerUpStepTimeout 10 noFacts, .powerUpStepTimeout 0 noFacts, .railOutOfBand (.vddY 32),
      .spadCheckReread ⟨0, 0, 0⟩ 12 0 none .clean, .memCheckReread 0 [256] none .clean false, .columnItem false [⟨0, 0, 0, 0, 130, 0, 0, 0, 1, 0⟩],
      .dataFrameRx 0 ⟨256, 0, 0, 0, 0, 0, [], true, []⟩, .conveyorWave 0 (some (2 ^ 28)) none].all (fun i => !i.wf) = true := by
  decide +kernel

theorem test_wellFormed :
    [Instr.tensor 7 noJobs, .moveCopy 15, .reduceOpen 20, .nop 20, .feQTail 511 0, .fence 20 31, .wake 31, .pageRetire 7, .nak 3 0, .txItemSend 3 15,
      .lowWordRead .host 0x3FFFFFC, .powerUp noFacts, .powerUpStepTimeout 9 noFacts, .bar2Access false 0 2 [], .bar4Read 0xFFFFFFF 1,
      .queueCreate, .refresh 7, .railOutOfBand .other].all (fun i => i.wf) = true := by
  decide +kernel

/-! ## What commands do, by the rules and worked examples of the manual -/

/-- `p` holds of the state that a command completes in. -/
def after (i : Instr) (s : State) (p : State → Bool) : Bool :=
  match exec i s with
  | .next t => p t
  | _ => false

/-- R362, R376: an ADD of 2^24 − 1 to fence 255. -/
theorem test_feFenceAdd : after (.feFenceAdd 0xFFFFFFFF) (fenced small) (fun t => t.fence 255 == 0x1000000#64 && t.fence 254 == 0) = true := by
  decide +kernel

/-- R362: ADD saturates and sets the fence's bit; MAX takes the larger value. -/
theorem test_fenceSignalAdd : after (.fenceSignalAdd 20) (fenced (run small 20 opSignal (fenceArgs 0) []))
    (fun t => t.fence 255 == 0xFFFFFFFFFFFFFFFF#64 && t.fenceSat.contains (255, true)) = true := by decide +kernel
theorem test_fenceSignalMax : after (.fenceSignalMax 20) (fenced (run small 20 opSignal (fenceArgs 1) []))
    (fun t => t.fence 255 == 0xFFFFFFFFFFFFFFFF#64 && t.fenceSat.isEmpty) = true := by decide +kernel

/-- Chapter 02: column 23 of a half with columns 0 to 59 in use gets column 60. -/
theorem test_substitute : ({ { small with pwr := { small.pwr with grade := 1 } } with
      img := { small.img with topo := [(12, ⟨2 ^ 60 - 1, 0⟩)] } } : State).substitute 12 23 = some (60, 0x1FFFFFFFFF7FFFFF#66) := by
  decide +kernel

/-- Chapter 03: the core at logical column 28, row 10 of Y13E on an EQ6-7168, and its registers. -/
def y13e : State := { { small with pwr := { small.pwr with grade := 2 } } with
  img := { small.img with topo := [(27, ⟨2 ^ 59 - 2 ^ 30 - 4, 2 ^ 30 + 3⟩)] } }
theorem test_coreAt : y13e.coreAt 90692 = ⟨27, 31, 10⟩ := by decide +kernel
theorem test_yardRegisters : y13e.peek .host 0x1D81ACC = 0x1C01#32 ∧ y13e.peek .host 0x1D80010 = 0xBFFFFFFC#32 ∧ y13e.peek .host 0x1D80014 = 0x07FFFFFF#32 ∧
    y13e.peek .host 0x1D8001C = 0x40000003#32 := by decide +kernel

/-- Chapter 04: the tie in a CB4 search goes to the lower entry. -/
theorem test_cb4Tie : (outCode 0x44 0 0
    [0xC800, 0xC600, 0xC400, 0xC200, 0xC000, 0xBE00, 0xBC00, 0xB800, 0, 0x3800, 0x3C00, 0x3E00, 0x4000, 0x4200, 0x4400, 0x4600]
    0x3F800000 0x40200000).1 = 12 := by decide +kernel

/-- Chapter 04: −5.2 under r = 18.6765 is code −97, and 7.5 clamps to 127. -/
theorem test_int8Codes : outCode 2 1 0 [] 0x41956969 0xC0A66666 = (256 - 97, false) ∧ outCode 2 1 0 [] 0x41956969 0x40F00000 = (127, true) := by
  decide +kernel

/-- Chapter 12: virtual page 18,641 is in local slice 17 of S0, whose position 8 device D8 holds. -/
theorem test_deviceOf : ({ small with img := { small.img with sheds := [(0, ⟨4, 0x0FFF, 0, 5⟩)] } } : State).deviceOf (18641 % 192) = 8 := by
  decide +kernel

/-- Chapter 16: an item of 384 flits takes two frames, FIRST in the one and LAST in the other. -/
theorem test_itemFrames : (itemFrames 2 ⟨4, zeros 6144, false⟩).map (fun f => (f.flags, f.itemFlit)) = [(1, 0), (2, 310)] := by
  decide +kernel

/-- Chapter 22: TDC of domain 11, and its count over the wrap. -/
theorem test_tdc : pmonOff .half 11 11 = 0x700B58 ∧
    (({ small with pmon := [(0x700B58, 0xFFFFFFFFFFF0)] } : State).bumpBy .half 11 11 0x20).count .half 11 11 = 0x10 := by decide +kernel

/-- Chapter 17: a create of any queue takes queue 0; with CLASS 0 by mailbox 1 it is refused with PRIVILEGE. -/
def createMsg (cls : Byte) : Bytes := [1, 0, 1, 0] ++ toBytes 4 64 ++ zeros 24 ++ [0xFF, 0xFF, cls, 0] ++ zeros 8 ++ [8, 10] ++ zeros 50
def createState (cls : Byte) : State := { small with mbx := { Mbx.reset with
  h2f := [(1, { H2f.reset with seq := 1, pending := true })], reqs := [⟨1, createMsg cls, true, 0, 0⟩] } }
theorem test_queueCreate : after .queueCreate (createState 2) (fun t => (t.queue 0).st == .idle && (t.queue 0).owner == 1 &&
    (t.h2f 1).ack == 0x10000#32 && t.mbx.dbF2h.getLsbD 1) = true := by decide +kernel
theorem test_queueCreate_privilege : after .queueCreate (createState 0) (fun t => (t.queue 0).st == .free && (t.h2f 1).ack == 0x10002#32) = true := by
  decide +kernel

/-- Chapter 11: the preserving march that remaps one row takes 1,129,706 yclk. -/
theorem test_marchYclk : marchYclk 1 5 { MarchOut.start small with again := [(63, 0)] } = 1129706 := by decide +kernel

/-- Chapter 19: events at 0, 0.70, 1.20 and 1.60 s under COUNT 3 and 1 s: the last one is lasting. -/
theorem test_lasting : (addTime 3 1000000 (1200000 * hclkPerUs) [0, 700000 * hclkPerUs]).2 = false ∧
    (addTime 3 1000000 (1600000 * hclkPerUs) [700000 * hclkPerUs, 1200000 * hclkPerUs]).2 = true := by decide +kernel

/-- Chapter 21: with the cursor at 0 the window latches SEQ 2 and GAP. -/
theorem test_evrCursorHi : after (.evrCursorHi .host 0) { small with evr := { Evr.reset with recs := [record 0 3, record 0 2], head := 3 } }
    (fun t => (t.evWin .host).valid && (t.evWin .host).gap && ((t.evWin .host).record.map EvRec.seq == some 2)) = true := by decide +kernel

/-- R465: the first post carries SEQ 1, and another sets OVERRUN. -/
theorem test_mbxH2fSeq : after (.mbxH2fSeq 3 1) mbxState (fun t => (t.h2f 3).pending && t.mbx.reqs.length == 1) = true ∧
    after (.mbxH2fSeq 3 2) mbxState (fun t => (t.h2f 3).overrun && t.mbx.reqs.isEmpty) = true := by decide +kernel

/-- R381, R382: a tail one past the ring is refused. -/
theorem test_feQTail : after (.feQTail 503 16) tailState (fun t => (t.queue 503).tail == 16 && (t.queue 503).st == .waiting) = true ∧
    after (.feQTail 503 17) tailState (fun t => (t.queue 503).badTail && (t.queue 503).tail == 0) = true := by decide +kernel

/-- R529, R533: a PFAIL# or MRST# shorter than 1 µs has no effect. -/
theorem test_shortPulses : after (.pfailAssert 999 100) small (fun t => t.pwr.mod == .ready) = true ∧
    after (.mrstPulse 999) small (fun t => t.pwr.mod == .ready) = true := by decide +kernel

/-- R564: THERMTRIP# at 125 °C. -/
theorem test_thermtrip : after (.thermtrip 124) small (fun t => !t.pwr.thermtrip) = true ∧ after (.thermtrip 125) small (fun t => t.pwr.thermtrip) = true := by
  decide +kernel

/-- R440: a frame with the SEQ expected is accepted, its repeat is dropped, and one ahead starts a NAK. -/
theorem test_dataFrameRx : after (.dataFrameRx 3 (frame 0 true)) (linked (linkPort .up)) (fun t => (t.link 3).expSeq == 1 &&
      (((t.link 3).rxChan 15).items.map Item.tag == [4, 5])) = true ∧
    after (.dataFrameRx 3 (frame 0xFFFFFFFF true)) (linked (linkPort .up)) (fun t => (t.link 3).expSeq == 0 && !(t.link 3).nakOut) = true ∧
    after (.dataFrameRx 3 (frame 1 true)) (linked (linkPort .up)) (fun t => (t.link 3).expSeq == 0 && (t.link 3).nakOut) = true := by decide +kernel

/-- R437: word 97 of a frame content stands on lane 1, at position 1. -/
theorem test_laneWords : ((laneWords (zeros 194 ++ [0x34, 0x12] ++ zeros 4796) 1).take 3) = [0, 0x1234, 0] := by decide +kernel

/-- R439, R441: the slot of a swap is a multiple of 16 at least 64 slots after the control slot 15 that announces it. -/
theorem test_laneFault : after (.laneFault 3 0) (linked (linkPort .up)) (fun t => (t.link 3).swapOut == [(0, 1, 80)]) = true := by decide +kernel

/-- R365: a copy from device memory to a scratchpad. -/
theorem test_moveCopy : after (.moveCopy 8) ((run small 8 opMove copyArgs []).physWrite 0 [1, 2, 3])
    (fun t => t.spadRead 0 0 4 == [1, 2, 3, 0] && (t.eng 8).cur.isNone) = true := by decide +kernel

/-- R528: a power-up from an erased flash ends in SAFE with no valid image. -/
theorem test_powerUp : after (.powerUp noFacts) State.reset (fun t => t.pwr.mod == .safe && t.pwr.safeCause == 2) = true := by decide +kernel

end Sys2Proof.Tests
end

section
/-!
SUPPORT and PROOFS. Host accesses through BAR2 that fail translation: what the fault registers then hold (R327, R340, R341).
-/
namespace Sys2Proof.Machine

/-! ## The fault registers (R340) -/

/-- MEM_XF_INFO of a recorded fault: VALID, WRITE, AGENT, CAUSE and ENGINE in their bits (R340). -/
def xfInfoWord (write : Bool) (a : Agent) (cause : Nat) : Word :=
  BitVec.ofNat 32 (1 + b2n write * 2 + a.code * 4 + cause * 32 + a.number % 8 * 128)

theorem Agent.code_lt (a : Agent) : a.code < 8 := by
  cases a <;> simp [Agent.code]

theorem b2n_lt (b : Bool) : b2n b < 2 := by cases b <;> decide

theorem xfInfoWord_valid (write : Bool) (a : Agent) (cause : Nat) : (xfInfoWord write a cause).getLsbD 0 = true := by
  simp only [xfInfoWord, BitVec.getLsbD_ofNat, Nat.testBit_zero, Bool.and_eq_true, decide_eq_true_eq]
  omega

theorem xfInfoWord_write (write : Bool) (a : Agent) (cause : Nat) : (xfInfoWord write a cause).getLsbD 1 = write := by
  have hbit : (1 + b2n write * 2 + a.code * 4 + cause * 32 + a.number % 8 * 128) / 2 % 2 = b2n write := by
    have := b2n_lt write
    omega
  simp only [xfInfoWord, BitVec.getLsbD_ofNat, Nat.testBit_succ, Nat.testBit_zero, hbit]
  cases write <;> decide

theorem xfInfoWord_agent (write : Bool) (a : Agent) (cause : Nat) : bits (xfInfoWord write a cause).toNat 4 2 = a.code := by
  have := a.code_lt
  have := b2n_lt write
  simp only [xfInfoWord, bits, BitVec.toNat_ofNat]
  omega

theorem xfInfoWord_cause (write : Bool) (a : Agent) (cause : Nat) : bits (xfInfoWord write a cause).toNat 6 5 = cause % 4 := by
  have := a.code_lt
  have := b2n_lt write
  simp only [xfInfoWord, bits, BitVec.toNat_ofNat]
  omega

/-- The first fault is recorded whole, and nothing else of the memory part changes (R340). -/
theorem xlatFault_mem_of_not_valid {s : State} (h : s.mem.xfInfo.getLsbD 0 = false) (va : Nat) (write : Bool) (a : Agent) (cause : Nat) :
    (s.xlatFault va write a cause).mem =
      { s.mem with xfLo := BitVec.ofNat 32 va, xfHi := BitVec.ofNat 32 (va / 2 ^ 32), xfInfo := xfInfoWord write a cause } := by
  have hvalid : ¬ s.mem.xfInfo.getLsbD 0 = true := by simp only [h, Bool.false_eq_true, not_false_eq_true]
  simp only [State.xlatFault, if_neg hvalid, bump_eq, bumpBy_mem, xfInfoWord]

/-- A fault after the first changes nothing of the memory part (R340). -/
theorem xlatFault_mem_of_valid {s : State} (h : s.mem.xfInfo.getLsbD 0 = true) (va : Nat) (write : Bool) (a : Agent) (cause : Nat) :
    (s.xlatFault va write a cause).mem = s.mem := by
  simp only [State.xlatFault, if_pos h, event_mem, bump_eq, bumpBy_mem]

theorem xlatFault_data (s : State) (va : Nat) (write : Bool) (a : Agent) (cause : Nat) :
    (s.xlatFault va write a cause).mem.data = s.mem.data := by
  cases h : s.mem.xfInfo.getLsbD 0 with
  | false => rw [xlatFault_mem_of_not_valid h]
  | true => rw [xlatFault_mem_of_valid h]

/-! ## Accesses through BAR2 (R432) -/

/-- The access is served: a hub and the sheds serve it, and it lies within the BAR, so that only its translation can fail. -/
theorem execBar2Access_of_firstFail {s : State} {write : Bool} {a n : Nat} {x : Nat × Nat} (data : Bytes) (hhub : s.hubAlive = true)
    (hserved : s.bar2Served = true) (hlen : a + n ≤ 2 ^ s.ports.bar2Log2) (hfail : s.firstFail a n write true = some x) :
    exec (.bar2Access write a n data) s =
      .next ((s.xlatFault x.1 write .bar2 x.2).answer (if write then .dropped else .unsupported)) := by
  have hexec : exec (.bar2Access write a n data) s = .next (s.bar2 write a n data) := rfl
  have hfits : ¬ 2 ^ s.ports.bar2Log2 < a + n := Nat.not_lt.mpr hlen
  rw [hexec]
  simp [State.bar2, State.deadBar, hhub, hserved, hfits, hfail]

/-- Settles O39: the access ends in `xlatFault` of its first part that fails, for agent `bar2`, whose code is 0; the split is whether VALID
was set before. -/
theorem failedBar2AccessIsRecorded : Obligations.FailedBar2AccessIsRecorded := by
  intro s write a n data x _ hhub hserved hlen hfail
  refine ⟨_, execBar2Access_of_firstFail data hhub hserved hlen hfail, rfl, xlatFault_data .., fun hfirst => ?_, fun hlater => ?_⟩
  · rw [answer_mem, xlatFault_mem_of_not_valid hfirst]
    exact ⟨rfl, rfl, xfInfoWord_valid .., xfInfoWord_write .., xfInfoWord_agent .., xfInfoWord_cause ..⟩
  · rw [answer_mem, xlatFault_mem_of_valid hlater]
    exact ⟨rfl, rfl, rfl⟩

end Sys2Proof.Machine
end

section
/-!
SUPPORT and PROOFS. The list of a tick stays in its queue until IN_DONE (R419): nothing of a fetch from another queue moves the head of its queue.
-/
namespace Sys2Proof.Machine

variable {q pos e : Nat} {s t : State}

/-! ## A queue that stands -/

/-- Queue `q` stands at head `pos` and is not being destroyed, and engine `e` holds no preload that a discard could take back. -/
structure QueueStands (q pos e : Nat) (s : State) : Prop where
  flat : Flat s
  head : (s.queue q).head = pos
  spared : ∀ d ∈ s.mbx.destroys, d.queue ≠ q
  empty : (s.eng e).preload = none

/-- The parts that may change while every queue and every engine stays as it is. -/
def besideQueues (p : Part) : Prop := p ≠ .queues ∧ p ≠ .engines

theorem QueueStands.of_keeps (hs : QueueStands q pos e s) (k : Keeps False besideQueues s t) (hd : t.mbx.destroys = s.mbx.destroys) :
    QueueStands q pos e t := by
  have hq : t.queues = s.queues := k.same .queues (fun hw => hw.1 rfl)
  have he : t.engines = s.engines := k.same .engines (fun hw => hw.2 rfl)
  refine ⟨k.flat, ?_, ?_, ?_⟩
  · rw [State.queue, hq]
    exact hs.head
  · rw [hd]
    exact hs.spared
  · rw [State.eng, he]
    exact hs.empty

theorem QueueStands.keeps (hs : QueueStands q pos e s) : Keeps False besideQueues s s := Keeps.rfl' hs.flat

theorem QueueStands.each {α : Type} {f : State → α → State} (xs : List α)
    (hf : ∀ s, ∀ x ∈ xs, QueueStands q pos e s → QueueStands q pos e (f s x)) (hs : QueueStands q pos e s) :
    QueueStands q pos e (s.each xs f) := by
  induction xs generalizing s with
  | nil => exact hs
  | cons x xs ih =>
    exact ih (fun s y hy => hf s y (List.mem_cons_of_mem x hy)) (hf s x List.mem_cons_self hs)

/-- An engine changes without taking a preload. -/
theorem QueueStands.modEng (hs : QueueStands q pos e s) (k : Nat) {f : Engine → Engine}
    (hf : ∀ x, x.preload = none → (f x).preload = none) : QueueStands q pos e (s.modEng k f) := by
  refine ⟨modEng_flat hs.flat k f, hs.head, hs.spared, ?_⟩
  by_cases hk : e = k
  · subst hk
    rw [modEng_eng hs.flat]
    exact hf _ hs.empty
  · rw [modEng_eq, eng_setEng_ne _ _ _ _ hk]
    exact hs.empty

theorem QueueStands.setQueue_ne (hs : QueueStands q pos e s) {n : Nat} (x : Queue) (hn : n ≠ q) : QueueStands q pos e (s.setQueue n x) := by
  refine ⟨{ hs.flat with queues := swf_sset _ _ _ _ hs.flat.queues }, ?_, hs.spared, hs.empty⟩
  rw [queue_setQueue_ne _ _ _ _ hn.symm]
  exact hs.head

/-- A queue changes, its head apart. -/
theorem QueueStands.setQueue_head (hs : QueueStands q pos e s) {n : Nat} {x : Queue} (hx : x.head = (s.queue n).head) :
    QueueStands q pos e (s.setQueue n x) := by
  by_cases hn : n = q
  · subst hn
    refine ⟨{ hs.flat with queues := swf_sset _ _ _ _ hs.flat.queues }, ?_, hs.spared, hs.empty⟩
    rw [queue_setQueue_same _ _ _ hs.flat.queues, hx]
    exact hs.head
  · exact hs.setQueue_ne x hn

theorem QueueStands.modSlot (hs : QueueStands q pos e s) (k : Nat) (f : Slot → Slot) : QueueStands q pos e (s.modSlot k f) :=
  ⟨{ hs.flat with slots := swf_sset _ _ _ _ hs.flat.slots }, hs.head, hs.spared, hs.empty⟩

theorem modProg_flat (h : Flat s) (k : Nat) (f : Program → Program) : Flat (s.modProg k f) :=
  { h with progs := swf_sset Program.reset s.per.progs k (f (s.prog k)) h.progs }

theorem modProg_prog (h : Flat s) (k : Nat) (f : Program → Program) : (s.modProg k f).prog k = f (s.prog k) :=
  prog_setProg_same s k (f (s.prog k)) h.progs

theorem QueueStands.modProg (hs : QueueStands q pos e s) (k : Nat) (f : Program → Program) : QueueStands q pos e (s.modProg k f) :=
  ⟨modProg_flat hs.flat k f, hs.head, hs.spared, hs.empty⟩

theorem QueueStands.modHalf (hs : QueueStands q pos e s) (k : Nat) (f : Half → Half) : QueueStands q pos e (s.modHalf k f) :=
  ⟨{ hs.flat with halves := swf_sset _ _ _ _ hs.flat.halves }, hs.head, hs.spared, hs.empty⟩

/-- Mailboxes, doorbells and Prephor's commands change; a destruction names a queue that one named before. -/
theorem QueueStands.modMbx (hs : QueueStands q pos e s) {f : Mbx → Mbx} (hf : (f s.mbx).h2f = s.mbx.h2f ∧ (f s.mbx).f2h = s.mbx.f2h)
    (hd : ∀ d ∈ (f s.mbx).destroys, ∃ b ∈ s.mbx.destroys, b.queue = d.queue) : QueueStands q pos e (s.modMbx f) := by
  refine ⟨{ hs.flat with h2f := hf.1 ▸ hs.flat.h2f, f2h := hf.2 ▸ hs.flat.f2h }, hs.head, fun d hm => ?_, hs.empty⟩
  obtain ⟨b, hb, hbd⟩ := hd d hm
  exact hbd ▸ hs.spared b hb

theorem QueueStands.bumpBy (hs : QueueStands q pos e s) (g : Grp) (i k n : Nat) : QueueStands q pos e (s.bumpBy g i k n) :=
  hs.of_keeps (bumpBy_keeps hs.keeps g i k n) rfl

theorem QueueStands.bump (hs : QueueStands q pos e s) (g : Grp) (i k : Nat) : QueueStands q pos e (s.bump g i k) := hs.bumpBy g i k 1

theorem QueueStands.trace (hs : QueueStands q pos e s) (a b c d : Nat) (x : Bytes) : QueueStands q pos e (s.trace a b c d x) :=
  hs.of_keeps (trace_keeps hs.keeps a b c d x) (congrArg Mbx.destroys (trace_mbx s a b c d x))

theorem QueueStands.event (hs : QueueStands q pos e s) (b : EventBit) : QueueStands q pos e (s.event b) :=
  hs.of_keeps (event_keeps hs.keeps b) (congrArg Mbx.destroys (event_mbx s b))

theorem QueueStands.hostWrite (hs : QueueStands q pos e s) (a : Nat) (bs : Bytes) : QueueStands q pos e (s.hostWrite a bs) := by
  have : Fact (besideQueues .host) := ⟨by decide, by decide⟩
  exact hs.of_keeps (hostWrite_keeps hs.keeps a bs) (congrArg Mbx.destroys (hostWrite_mbx s a bs))

theorem QueueStands.hubWrite (hs : QueueStands q pos e s) (a : Nat) (bs : Bytes) : QueueStands q pos e (s.hubWrite a bs) := by
  have : Fact (besideQueues .data) := ⟨by decide, by decide⟩
  exact hs.of_keeps (hubWrite_keeps hs.keeps a bs) (congrArg Mbx.destroys (hubWrite_mbx s a bs))

/-! ## Replies leave the destructions alone (R465, R470) -/

theorem readPost_destroys (s : State) (m : Nat) (v : Word) : (s.readPost m v).mbx.destroys = s.mbx.destroys := by
  unfold State.readPost
  extract_lets x ptr s1 s2 add
  split
  · rfl
  · split
    · split <;> rfl
    · split
      · exact (congrArg Mbx.destroys (xlatFault_mbx s2 _ _ _ _) :)
      · exact (congrArg Mbx.destroys (devNote_mbx s2 _ _) :)

theorem retryPost_destroys (s : State) (m : Nat) : (s.retryPost m).mbx.destroys = s.mbx.destroys := by
  unfold State.retryPost
  extract_lets x
  split
  · split
    · exact readPost_destroys _ _ _
    · rfl
  · rfl

theorem ringHost_destroys (s : State) (i : Nat) : (s.ringHost i).mbx.destroys = s.mbx.destroys := by
  unfold State.ringHost
  extract_lets s1
  have h1 : s1.mbx.destroys = s.mbx.destroys := (congrArg Mbx.destroys (event_mbx _ _) :)
  split
  · exact h1
  · exact (congrArg Mbx.destroys (msix_mbx _ _)).trans h1

theorem reply_destroys (s : State) (r : Req) (rc : Nat) (b : Bytes) : (s.reply r rc b).mbx.destroys = s.mbx.destroys := by
  unfold State.reply
  extract_lets seq bs s1 x s2
  have h1 : s1.mbx = s.mbx := by
    simp only [s1]
    split
    · split
      · exact hostWrite_mbx _ _ _
      · split
        · exact devWrite_mbx _ _ _
        · exact xlatFault_mbx _ _ _ _ _
    · rfl
  have h1 : s1.mbx.destroys = s.mbx.destroys := congrArg Mbx.destroys h1
  exact (retryPost_destroys _ _).trans ((ringHost_destroys _ _).trans h1)

theorem serveBad_destroys (n : Nat) : ∀ s : State, (s.serveBad n).mbx.destroys = s.mbx.destroys := by
  induction n with
  | zero => exact fun _ => rfl
  | succ n ih =>
    intro s
    unfold State.serveBad
    split
    · rfl
    · split
      · split
        · rfl
        · exact (ih _).trans (reply_destroys _ _ _ _)
      · rfl

theorem QueueStands.reply (hs : QueueStands q pos e s) (r : Req) (rc : Nat) (b : Bytes) : QueueStands q pos e (s.reply r rc b) := by
  have : Fact (besideQueues .data) := ⟨by decide, by decide⟩
  have : Fact (besideQueues .host) := ⟨by decide, by decide⟩
  exact hs.of_keeps (reply_keeps hs.keeps r rc b) (reply_destroys s r rc b)

theorem QueueStands.serveHead (hs : QueueStands q pos e s) : QueueStands q pos e s.serveHead := by
  have : Fact (besideQueues .data) := ⟨by decide, by decide⟩
  have : Fact (besideQueues .host) := ⟨by decide, by decide⟩
  exact hs.of_keeps (serveHead_keeps hs.keeps) (serveBad_destroys 4 s)

/-! ## Records (R359, R368) -/

theorem QueueStands.placeRecord (hs : QueueStands q pos e s) (k n : Nat) (bs : Bytes) : QueueStands q pos e (s.placeRecord k n bs) := by
  have : Fact (besideQueues .data) := ⟨by decide, by decide⟩
  have : Fact (besideQueues .host) := ⟨by decide, by decide⟩
  exact hs.of_keeps (placeRecord_keeps hs.keeps k n bs) (congrArg Mbx.destroys (placeRecord_mbx s k n bs))

theorem placeRecord_queues (h : Flat s) (k n : Nat) (bs : Bytes) : (s.placeRecord k n bs).queues = s.queues := by
  have : Fact (besideQueues .data) := ⟨by decide, by decide⟩
  have : Fact (besideQueues .host) := ⟨by decide, by decide⟩
  exact (placeRecord_keeps (P := False) (W := besideQueues) (Keeps.rfl' h) k n bs).same .queues (fun hw => hw.1 rfl)

theorem destroyCount_queue (d : Destroy) (k : Nat) (x : Done) : (d.count k x).queue = d.queue := by
  unfold Destroy.count
  repeat' split
  all_goals rfl

/-- A record counts for its queue, and moves no head (R368). -/
theorem QueueStands.writeRecord (hs : QueueStands q pos e s) (k : Nat) (c : Cmd) (d : Done) (m : Bool) :
    QueueStands q pos e (s.writeRecord k c d m) := by
  unfold State.writeRecord
  extract_lets f u x st s2 charge halt s3 s4 s5 s6 s7 s8 s9 s10
  have hu : QueueStands q pos e u := by
    simp only [u, f]
    split
    · exact hs
    · exact hs.of_keeps (draw_keeps hs.keeps) rfl
  have h2 : QueueStands q pos e s2 := hu.placeRecord _ _ _
  have h3 : QueueStands q pos e s3 := h2.setQueue_head (by
    rw [State.queue, placeRecord_queues hu.flat]
    rfl)
  have h4 : QueueStands q pos e s4 := h3.modEng k (fun _ hx => hx)
  have h5 : QueueStands q pos e s5 := (h4.bump _ _ _).bumpBy _ _ _ _
  have h6 : QueueStands q pos e s6 := by
    simp only [s6]
    split
    · exact h5.bump _ _ _
    · exact h5
  have h7 : QueueStands q pos e s7 := by
    simp only [s7]
    split
    · exact h6.bump _ _ _
    · exact h6
  have h8 : QueueStands q pos e s8 := by
    simp only [s8]
    split
    · exact h7.bump _ _ _
    · exact h7
  have h9 : QueueStands q pos e s9 := h8.modMbx ⟨rfl, rfl⟩ (fun d hd => by
    obtain ⟨b, hb, rfl⟩ := List.mem_map.1 hd
    refine ⟨b, hb, ?_⟩
    split
    · exact (destroyCount_queue b _ _).symm
    · rfl)
  have h10 : QueueStands q pos e s10 := by
    simp only [s10]
    split
    · exact h9.modProg _ _
    · exact h9
  exact h10.trace _ _ _ _ _

theorem QueueStands.setChain (hs : QueueStands q pos e s) (a k : Nat) (x : ChainSlot) : QueueStands q pos e (s.setChain a k x) :=
  hs.modEng a (fun _ hx => hx)

theorem QueueStands.dropPreload (hs : QueueStands q pos e s) (a : Nat) (p : Preload) : QueueStands q pos e (s.dropPreload a p) :=
  (hs.modEng a (fun _ _ => rfl)).bump _ _ _

theorem QueueStands.dropChainPreload (hs : QueueStands q pos e s) (a k : Nat) : QueueStands q pos e (s.dropChainPreload a k) := by
  unfold State.dropChainPreload
  split
  · split
    · exact hs.dropPreload a _
    · exact hs
  · exact hs

/-- A posted record, with all that its trigger brings, moves no head (R359). -/
theorem QueueStands.postAt (n : Nat) : ∀ {s : State}, QueueStands q pos e s → ∀ (k : Nat) (c : Cmd) (d : Done),
    QueueStands q pos e (s.postAt n k c d) := by
  induction n with
  | zero => exact fun hs k c d => hs.writeRecord k c d false
  | succ n ih =>
    intro s hs k c d
    unfold State.postAt
    extract_lets te j x armed ok s1
    split
    · split
      · exact (hs.bump _ _ _).writeRecord _ _ _ _
      · split
        · exact ((((hs.setChain _ _ _).bump _ _ _).trace _ _ _ _ _).event _).writeRecord _ _ _ _
        · have h1 : QueueStands q pos e s1 := (((hs.setChain _ _ _).dropChainPreload _ _).bump _ _ _).trace _ _ _ _ _
          split
          · exact (ih h1 _ _ _).writeRecord _ _ _ _
          · exact ih (h1.writeRecord _ _ _ _) _ _ _
    · exact hs.writeRecord _ _ _ _

theorem QueueStands.postRecord (hs : QueueStands q pos e s) (k : Nat) (c : Cmd) (d : Done) : QueueStands q pos e (s.postRecord k c d) :=
  hs.postAt 168 k c d

/-! ## The end of a command (R372, R400) -/

theorem QueueStands.disabled (hs : QueueStands q pos e s) (k : Nat) : QueueStands q pos e (s.disabled k) := by
  unfold State.disabled
  extract_lets x s1
  have h1 : QueueStands q pos e s1 := hs.modEng k (fun _ hx => hx)
  split
  · exact h1
  · exact ((h1.modMbx ⟨rfl, rfl⟩ (fun d hd => ⟨d, hd, rfl⟩)).reply _ _ _).serveHead

theorem QueueStands.atBoundary (hs : QueueStands q pos e s) (k : Nat) : QueueStands q pos e (s.atBoundary k) := by
  unfold State.atBoundary
  extract_lets dis s1 s2
  have h1 : QueueStands q pos e s1 := hs.modEng k (fun _ hx => hx)
  have h2 : QueueStands q pos e s2 := h1.each _ (fun _ d _ hu => hu.modHalf d _)
  split
  · exact h2.disabled k
  · exact h2

theorem QueueStands.unfire (hs : QueueStands q pos e s) (a k : Nat) : QueueStands q pos e (s.unfire a k) := by
  have : Fact (besideQueues .data) := ⟨by decide, by decide⟩
  have : Fact (besideQueues .host) := ⟨by decide, by decide⟩
  exact hs.of_keeps (unfire_keeps hs.keeps a k) (congrArg Mbx.destroys (unfire_mbx s a k))

theorem QueueStands.cancelChains (hs : QueueStands q pos e s) (n a : Nat) : QueueStands q pos e (s.cancelChains n a) := by
  unfold State.cancelChains
  refine hs.each _ (fun s k _ hu => ?_)
  extract_lets x
  split
  · exact hu
  · exact (((((hu.unfire a k).setChain a k _).dropChainPreload a k).bump _ _ _).trace _ _ _ _ _).postRecord _ _ _

/-- The end of another queue's destruction (R400). -/
theorem QueueStands.endDestroy (hs : QueueStands q pos e s) {d : Destroy} (hd : d.queue ≠ q) : QueueStands q pos e (s.endDestroy d) := by
  unfold State.endDestroy
  extract_lets x bs s1 s2 im s3 s4 s5
  have h1 : QueueStands q pos e s1 := by
    simp only [s1]
    split
    · exact hs.hostWrite _ _
    · exact hs.hubWrite _ _
  have h2 : QueueStands q pos e s2 := by
    simp only [s2]
    split
    · exact h1
    · exact h1.modSlot _ _
  clear_value s2
  have h4 : QueueStands q pos e s4 :=
    ⟨{ h2.flat with xlat := swf_smap _ _ _ h2.flat.xlat, slots := swf_smap _ _ _ h2.flat.slots }, h2.head, h2.spared, h2.empty⟩
  have h5 : QueueStands q pos e s5 :=
    (h4.setQueue_ne Queue.reset hd).modMbx ⟨rfl, rfl⟩ (fun b hb => ⟨b, (List.mem_filter.1 hb).1, rfl⟩)
  exact (h5.reply _ _ _).serveHead

theorem QueueStands.endDestroys (hs : QueueStands q pos e s) : QueueStands q pos e s.endDestroys := by
  unfold State.endDestroys
  refine hs.each _ (fun u d _ hu => ?_)
  split
  · exact hu
  · extract_lets v
    have hv : QueueStands q pos e v := hu.each _ (fun _ a _ hw => hw.cancelChains d.queue a)
    split
    · next x hx => exact hv.endDestroy (hv.spared x (List.mem_of_find?_eq_some hx))
    · exact hv

/-- The end of a command moves no head: its engine holds no preload to take back (R372). -/
theorem QueueStands.finish (hs : QueueStands q pos e s) (c : Cmd) (d : Done) : QueueStands q pos e (s.finish e c d) := by
  unfold State.finish
  split
  · exact hs.atBoundary e
  · extract_lets s1 s2
    have h1 : QueueStands q pos e s1 := hs.postRecord e c d
    have h2 : QueueStands q pos e s2 := by
      simp only [s2, State.confirmPreload, State.discardPreload, h1.empty, ite_self]
      exact h1
    exact (h2.atBoundary e).endDestroys

theorem QueueStands.noteFail (hs : QueueStands q pos e s) (f : Fail) : QueueStands q pos e (s.noteFail e f) := by
  refine hs.of_keeps (noteFail_keeps hs.keeps e f) (congrArg Mbx.destroys ?_)
  unfold State.noteFail State.noteAs
  split
  · split
    · exact xlatFault_mbx _ _ _ _ _
    · rfl
  · rfl

theorem QueueStands.faultQueue (hs : QueueStands q pos e s) (n : Nat) : QueueStands q pos e (s.faultQueue n) :=
  hs.setQueue_head (by
    dsimp only
    split <;> rfl)

/-! ## A command taken from another queue (R348) -/

/-- Queue `q` stands at head `pos`, and engine `e` holds no command of it. -/
structure ListStays (q pos e : Nat) (s : State) : Prop extends QueueStands q pos e s where
  apart : ∀ c, (s.eng e).cur = some c → c.queue ≠ q

theorem ListStays.of_cur_none (hs : QueueStands q pos e s) (hc : (s.eng e).cur = none) : ListStays q pos e s :=
  ⟨hs, fun _ h => absurd (hc.symm.trans h) nofun⟩

theorem ListStays.of_cur (hs : QueueStands q pos e s) {c : Cmd} (hcur : (s.eng e).cur = some c) (hc : c.queue ≠ q) : ListStays q pos e s :=
  ⟨hs, fun _ h => Option.some.inj (hcur.symm.trans h) ▸ hc⟩

theorem ListStays.of_keeps (hs : ListStays q pos e s) (k : Keeps False besideQueues s t) (hd : t.mbx.destroys = s.mbx.destroys) :
    ListStays q pos e t := by
  have he : t.engines = s.engines := k.same .engines (fun hw => hw.2 rfl)
  refine ⟨hs.toQueueStands.of_keeps k hd, ?_⟩
  rw [State.eng, he]
  exact hs.apart

theorem hold_listStays (hs : QueueStands q pos e s) (st : EngState) {c : Cmd} (hc : c.queue ≠ q) : ListStays q pos e (s.hold e st c) :=
  .of_cur (hs.modEng e (fun _ hx => hx)) (congrArg Engine.cur (modEng_eng hs.flat e _)) hc

theorem enter_listStays (hs : QueueStands q pos e s) {c : Cmd} (hc : c.queue ≠ q) : ListStays q pos e (s.enter e c) := by
  have hr : QueueStands q pos e (s.rouse e) := hs.each _ (fun _ d _ hu => hu.modHalf d _)
  exact .of_cur (c := { c with prepAt := s.hclk }) (hr.modEng e (fun _ hx => hx)) (congrArg Engine.cur (modEng_eng hr.flat e _)) hc

theorem failCmd_listStays (hs : QueueStands q pos e s) (c : Cmd) (f : Fail) : ListStays q pos e (s.failCmd e c f) := by
  unfold State.failCmd
  extract_lets s1
  have h0 : QueueStands q pos e ((s.noteFail e f).modEng e (fun x => { x with shadow := Programs.reset })) :=
    (hs.noteFail f).modEng e (fun _ hx => hx)
  have h1 : QueueStands q pos e s1 := h0.finish c f.done
  have c1 : (s1.eng e).cur = none := finish_cur h0.flat e c f.done
  split
  · exact .of_cur_none (h1.faultQueue c.queue) c1
  · exact .of_cur_none h1 c1

theorem accept_listStays (hs : QueueStands q pos e s) {c : Cmd} (hc : c.queue ≠ q) : ListStays q pos e (s.accept e c) := by
  unfold State.accept
  split
  · extract_lets s1 s2
    have h1 : QueueStands q pos e s1 := (hs.modMbx ⟨rfl, rfl⟩ (fun d hd => ⟨d, hd, rfl⟩)).trace _ _ _ _ _
    have h2 : QueueStands q pos e s2 := by
      simp only [s2]
      split
      · exact h1
      · exact h1.modSlot _ _
    exact .of_cur_none (h2.atBoundary e) (atBoundary_cur h2.flat e)
  · split
    · exact failCmd_listStays hs c _
    · exact hold_listStays hs .prep hc

theorem ListStays.modRngHub (hs : ListStays q pos e s) (k : Nat) (f : RngHub → RngHub) : ListStays q pos e (s.modRngHub k f) := by
  have : Fact (besideQueues .rng) := ⟨by decide, by decide⟩
  exact hs.of_keeps (modRngHub_keeps hs.keeps k f) rfl

theorem ListStays.awaitHost (hs : ListStays q pos e s) : ListStays q pos e (s.awaitHost e) :=
  hs.of_keeps (awaitHost_keeps hs.keeps e) rfl

theorem steps8to10_listStays (hs : QueueStands q pos e s) {c : Cmd} (hc : c.queue ≠ q) : ListStays q pos e (s.steps8to10 e c) := by
  unfold State.steps8to10
  extract_lets x pages
  split
  · exact failCmd_listStays hs c _
  · split
    · refine accept_listStays hs ?_
      split <;> exact hc
    · split
      · exact accept_listStays hs hc
      · split
        · exact failCmd_listStays hs c _
        · split
          · exact failCmd_listStays hs c _
          · exact (hold_listStays hs .prep (c := { c with usesRng := true }) hc).modRngHub _ _

theorem askBlock_frame (a : State × Cmd) (b : Nat) : (State.askBlock a b).1.mbx = a.1.mbx ∧ (State.askBlock a b).2.queue = a.2.queue := by
  unfold State.askBlock
  extract_lets x
  split
  · exact ⟨rfl, rfl⟩
  · split <;> exact ⟨queueCheck_mbx _ _, rfl⟩

/-- A command that asks for the re-reads of blocks stays of its queue, and the mailboxes stay as they are (R330). -/
theorem ask_frame (s : State) (c : Cmd) (blocks : List Nat) : (s.ask c [] blocks).1.mbx = s.mbx ∧ (s.ask c [] blocks).2.queue = c.queue := by
  suffices h : ∀ a : State × Cmd, (blocks.foldl State.askBlock a).1.mbx = a.1.mbx ∧ (blocks.foldl State.askBlock a).2.queue = a.2.queue from
    h (s, c)
  induction blocks with
  | nil => exact fun _ => ⟨rfl, rfl⟩
  | cons b bs ih =>
    exact fun a => ⟨(ih _).1.trans (askBlock_frame a b).1, (ih _).2.trans (askBlock_frame a b).2⟩

theorem QueueStands.ask (hs : QueueStands q pos e s) (c : Cmd) (blocks : List Nat) : QueueStands q pos e (s.ask c [] blocks).1 :=
  hs.of_keeps (ask_keeps hs.keeps c [] blocks) (congrArg Mbx.destroys (ask_frame s c blocks).1)

theorem ListStays.ask (hs : ListStays q pos e s) (c : Cmd) (blocks : List Nat) : ListStays q pos e (s.ask c [] blocks).1 :=
  hs.of_keeps (ask_keeps hs.keeps c [] blocks) (congrArg Mbx.destroys (ask_frame s c blocks).1)

theorem QueueStands.loadShadow (hs : QueueStands q pos e s) (c : Cmd) : QueueStands q pos e (s.loadShadow e c) := by
  unfold State.loadShadow
  split
  · exact hs.modEng e (fun _ hx => hx)
  · exact hs

/-- Steps 2 to 10 of R348 for a command of another queue. -/
theorem checkCmd_listStays (hs : ListStays q pos e s) {c : Cmd} (hc : c.queue ≠ q) : ListStays q pos e (s.checkCmd e c) := by
  unfold State.checkCmd
  extract_lets a
  have ha : ListStays q pos e a.1 := hs.ask c _
  have hac : a.2.queue ≠ q := (ask_frame s c _).2 ▸ hc
  clear_value a
  split
  · split
    · exact ha.awaitHost
    · exact failCmd_listStays ha.toQueueStands _ _
  · exact steps8to10_listStays (ha.toQueueStands.loadShadow _) hac

/-- The steps of R348 for a command of another queue. -/
theorem fetchEntry_listStays (hs : QueueStands q pos e s) {c : Cmd} (hc : c.queue ≠ q) (i : Nat) : ListStays q pos e (s.fetchEntry e c i) := by
  unfold State.fetchEntry
  extract_lets a u d s1
  have hu : QueueStands q pos e u := hs.ask c _
  have hd : d.queue ≠ q := (ask_frame s c _).2 ▸ hc
  clear_value u d
  split
  · have h1 : ListStays q pos e s1 := enter_listStays hu hd
    split
    · exact h1.awaitHost
    · exact failCmd_listStays h1.toQueueStands _ _
  · next bs _ =>
    extract_lets c1
    have hc1 : c1.queue ≠ q := hd
    exact checkCmd_listStays (enter_listStays hu hc1) hc1

/-! ## Slots (R382, R383, R391) -/

theorem QueueStands.setTail_ne (hs : QueueStands q pos e s) {n : Nat} (hn : n ≠ q) (v : Nat) : QueueStands q pos e (s.setTail n v) := by
  unfold State.setTail
  extract_lets x ahead x1
  split
  · exact (hs.setQueue_ne _ hn).event _
  · exact hs.setQueue_ne _ hn

/-- The head of another queue passes one entry. -/
theorem QueueStands.passHead_ne (hs : QueueStands q pos e s) {n : Nat} (hn : n ≠ q) : QueueStands q pos e (s.passHead n) := by
  unfold State.passHead
  split
  · split
    · extract_lets s1 s2
      have h1 : QueueStands q pos e s1 := hs.setQueue_ne _ hn
      have h2 : QueueStands q pos e s2 := h1.of_keeps (fresh_keeps h1.keeps _) rfl
      clear_value s2
      exact h2.each _ (fun _ x _ hu => hu.setTail_ne hn x.value)
    · exact hs.setQueue_ne _ hn
  · exact hs.setQueue_ne _ hn

theorem QueueStands.serveSlot (hs : QueueStands q pos e s) {k n : Nat} (hk : (s.slot k).queue = some n) (hn : n ≠ q) :
    QueueStands q pos e (s.serveSlot e k) := by
  unfold State.serveSlot
  rw [hk]
  exact (hs.passHead_ne hn).modEng e (fun _ hx => hx)

theorem mem_of_minBy {α : Type} {key : α → Nat} {xs : List α} {x : α} (h : minBy key xs = some x) : x ∈ xs := by
  induction xs generalizing x with
  | nil => cases h
  | cons y ys ih =>
    unfold minBy at h
    split at h
    · cases h
      exact List.mem_cons_self
    · next z hz =>
      split at h
      · cases h
        exact List.mem_cons_self
      · cases h
        exact List.mem_cons_of_mem y (ih hz)

/-- The slot that an engine serves next is ready (R391). -/
theorem slotReady_of_nextSource {k : Nat} (h : s.nextSource e = some (.slot k)) : s.slotReady e k = true := by
  unfold State.nextSource at h
  split at h
  · cases h
  · obtain ⟨j, hj, hjk⟩ := Option.map_eq_some_iff.1 h
    obtain rfl := Source.slot.inj hjk
    exact (List.mem_filter.1 (mem_of_minBy hj)).2

/-- A ready slot holds a queue. -/
theorem exists_queue_of_slotReady {k : Nat} (h : s.slotReady e k = true) : ∃ n, (s.slot k).queue = some n := by
  unfold State.slotReady at h
  extract_lets sl at h
  split at h
  · cases h
  · next n hn => exact ⟨n, hn⟩

/-- The queue of a list that is not released is passed over (R419). -/
theorem slotReady_of_not_released {k n : Nat} (hk : (s.slot k).queue = some (504 + n)) (hr : (s.prog n).released = false) :
    s.slotReady e k = false := by
  simp [State.slotReady, hk, hr]

/-! ## The fetch (R344, R372) -/

theorem execEngineFetch_of_not_fetches (h : s.fetches e = false) : exec (.engineFetch e) s = .next s := by
  have hx : exec (.engineFetch e) s = execEngineFetch e s := rfl
  rw [hx, execEngineFetch, h]
  rfl

theorem execEngineFetch_of_slot {k n : Nat} (h : s.fetches e = true) (hp : (s.eng e).preload = none) (hsrc : s.nextSource e = some (.slot k))
    (hk : (s.slot k).queue = some n) :
    exec (.engineFetch e) s =
      .next ((s.serveSlot e k).fetchEntry e (newCmd e [] n ((s.queue n).seqOf n) (some k)) (s.queue n).head) := by
  have hx : exec (.engineFetch e) s = execEngineFetch e s := rfl
  rw [hx, execEngineFetch, h, hp, hsrc]
  dsimp only
  rw [hk]
  rfl

/-- What a fetch from a slot leaves of a queue whose list is not released, and what its engine then holds (R419). -/
theorem execEngineFetch_listStays {k n : Nat} (hinv : s.Inv) (hr : (s.prog n).released = false) (hp : (s.eng e).preload = none)
    (hsrc : s.nextSource e = some (.slot k)) (hd : ∀ d ∈ s.mbx.destroys, d.queue ≠ 504 + n) (hf : s.fetches e = true)
    (hx : exec (.engineFetch e) s = .next t) : ListStays (504 + n) (s.queue (504 + n)).head e t := by
  have hready : s.slotReady e k = true := slotReady_of_nextSource hsrc
  obtain ⟨j, hj⟩ := exists_queue_of_slotReady hready
  have hne : j ≠ 504 + n := by
    rintro rfl
    exact absurd (hready.symm.trans (slotReady_of_not_released hj hr)) nofun
  have hs : QueueStands (504 + n) (s.queue (504 + n)).head e s := ⟨(flat_iff s).2 hinv, rfl, hd, hp⟩
  rw [execEngineFetch_of_slot hf hp hsrc hj] at hx
  cases hx
  exact fetchEntry_listStays (hs.serveSlot hj hne) hne _

/-! ## The release and the fire (R409, R419) -/

/-- At an engine that is not disabled nothing is reported of a queue (R373). -/
theorem reportQueue_of_enabled {n : Nat} (h1 : (s.eng (s.queue n).engine).st ≠ .disabled) (h2 : (s.eng (s.queue n).engine).st ≠ .disabling) :
    s.reportQueue n = s := by
  unfold State.reportQueue
  extract_lets x
  exact if_neg (fun h => h.1.elim h1 h2)

theorem execListRelease_of_runs {n : Nat} (hl : s.live = true) (hst : (s.prog n).st = .running) (hf : (s.prog n).fired = true)
    (hw : (s.prog n).waits = false) (h1 : (s.eng (s.queue (504 + n)).engine).st ≠ .disabled)
    (h2 : (s.eng (s.queue (504 + n)).engine).st ≠ .disabling) :
    exec (.listRelease n) s = .next (s.modProg n (fun x => { x with released := true })) := by
  have hx : exec (.listRelease n) s = execListRelease n s := rfl
  have hruns : s.live ∧ (s.prog n).st = .running ∧ (s.prog n).fired ∧ !(s.prog n).waits := ⟨hl, hst, hf, by rw [hw]; rfl⟩
  rw [hx, execListRelease, if_pos hruns, reportQueue_of_enabled (s := s.modProg n _) h1 h2]

theorem perProg_prog {n : Nat} {p : PerProg} (h : s.perProg n = some p) : p.prog = n :=
  beq_iff_eq.1 (List.find?_some (p := fun x : PerProg => x.prog == n) h)

/-- A tick fires with its list not released (R409). -/
theorem fire_released (h : Flat s) (p : PerProg) (k f : Nat) : ((s.fire p k f).prog p.prog).released = false := by
  have : Fact (Part.spad ≠ .per) := ⟨by decide⟩
  have : Fact (Part.queues ≠ .per) := ⟨by decide⟩
  unfold State.fire
  extract_lets s1 s2 s3
  have h1 : Flat s1 := modProg_flat h _ _
  have k3 : Keeps False (· ≠ Part.per) s1 s3 := traceTick_keeps (bump_keeps (modQueue_keeps (Keeps.rfl' h1) _ _) _ _ _) _ _ _ _
  have kd := each_keeps (indexed s.img.streams) (fun u x => if x.2.prog = p.prog ∧ x.2.dir = 0 then u.deliverStream k x.1 x.2 else u)
    (fun _ x hu => ite_keeps (fun _ => deliverStream_keeps hu k x.1 x.2) (fun _ => hu)) k3
  rw [State.prog, kd.same .per (by simp)]
  exact congrArg Program.released (modProg_prog h _ _)

/-- Settles O47: a release is a write of the period unit alone; a queue whose list is not released is never ready, so that a fetch serves another
queue, and no step of it moves the head of this one. -/
theorem listReleasedAtInDone : Obligations.ListReleasedAtInDone := by
  intro s n hinv
  have hflat : Flat s := (flat_iff s).2 hinv
  refine ⟨fun hl hst hf hw he1 he2 => ?_, fun e k hk hr => slotReady_of_not_released hk hr, fun p k f hp => ?_,
    fun e k u hr hp hsrc hd hx => ?_⟩
  · exact ⟨_, execListRelease_of_runs hl hst hf hw he1 he2, congrArg Program.released (modProg_prog hflat _ _), rfl, rfl⟩
  · exact perProg_prog hp ▸ fire_released hflat p k f
  · cases hf : s.fetches e with
    | false =>
      rw [execEngineFetch_of_not_fetches hf] at hx
      cases hx
      exact ⟨rfl, fun c hnone hsome => absurd (hnone.symm.trans hsome) nofun⟩
    | true =>
      have hu := execEngineFetch_listStays hinv hr hp hsrc hd hf hx
      exact ⟨hu.head, fun c _ hc => hu.apart c hc⟩

end Sys2Proof.Machine
end

section
/-!
SUPPORT and PROOFS. THERMTRIP# goes low at 125 °C and stays low until the next power-up (R564).  Six commands may write the power part (`mayWrite`);
all but MRST_PULSE and THERMTRIP leave the pin alone, by a walk through their writes of that part.
-/
namespace Sys2Proof.Machine

variable {b : Bool} {s t : State} {r : Except BootStop State}

/-! ## The pin stands -/

/-- The state meets the invariant, and THERMTRIP# is driven low just where `b` holds. -/
structure TripStands (b : Bool) (s : State) : Prop where
  flat : Flat s
  trip : s.pwr.thermtrip = b

/-- Every part but the power part may change.  Reducible, so that one `Fact True` answers for all of them. -/
abbrev OffPwr : Part → Prop
  | .pwr => False
  | _ => True

theorem TripStands.keeps (hs : TripStands b s) : Keeps False OffPwr s s := Keeps.rfl' hs.flat

theorem TripStands.of_keeps (hs : TripStands b s) (h : Keeps False OffPwr s t) : TripStands b t :=
  ⟨h.flat, (congrArg Power.thermtrip (h.same .pwr id)).trans hs.trip⟩

/-- A write of the power part that spares the pin. -/
theorem TripStands.modPwr (hs : TripStands b s) (f : Power → Power) (hf : ∀ p, (f p).thermtrip = p.thermtrip) : TripStands b (s.modPwr f) :=
  ⟨{ hs.flat with }, (hf s.pwr).trans hs.trip⟩

theorem TripStands.ite {c : Prop} [Decidable c] (ht : c → TripStands b t) (hs : ¬c → TripStands b s) : TripStands b (if c then t else s) := by
  split
  · next hc => exact ht hc
  · next hc => exact hs hc

/-! ## SAFE, a lost yard and PFAIL# (R517, R526, R529) -/

theorem TripStands.enterSafe (hs : TripStands b s) (cause step detail : Nat) : TripStands b (s.enterSafe cause step detail) := by
  have : Fact True := ⟨trivial⟩
  unfold State.enterSafe
  extract_lets s1 s2 s3
  have h1 : TripStands b s1 := hs.modPwr _ (fun _ => rfl)
  have h2 : TripStands b s2 := h1.of_keeps (raise_keeps h1.keeps _ _ _)
  have hsafe : TripStands b (s2.modPwr (fun p => { p with mod := .safe })) := h2.modPwr _ (fun _ => rfl)
  have h3 : TripStands b s3 := hsafe.of_keeps (inBand_keeps (ringHost_keeps hsafe.keeps _) _)
  exact h3.of_keeps (serveHead_keeps (dark_keeps h3.keeps))

theorem TripStands.loseYard (hs : TripStands b s) (y : Nat) : TripStands b (s.loseYard y) :=
  have : Fact True := ⟨trivial⟩
  (hs.of_keeps (raise_keeps (modRel_keeps hs.keeps _) _ _ _)).enterSafe _ _ _

theorem execYardLost_tripStands (hs : TripStands b s) {y : Nat} (hx : execYardLost y s = .next t) : TripStands b t := by
  obtain rfl := Host.Outcome.next.inj hx
  exact .ite (fun _ => hs.loseYard y) (fun _ => hs)

theorem execRailOutOfBand_tripStands (hs : TripStands b s) {rail : Rail} (hx : execRailOutOfBand rail s = .next t) : TripStands b t := by
  unfold execRailOutOfBand at hx
  split at hx
  · next y _ => exact execYardLost_tripStands hs (y := y) hx
  · split at hx
    · exact Host.Outcome.next.inj hx ▸ hs
    · cases hx

theorem execPfailAssert_tripStands (hs : TripStands b s) {ns pageUs : Nat} (hx : execPfailAssert ns pageUs s = .next t) : TripStands b t := by
  have : Fact True := ⟨trivial⟩
  obtain rfl := Host.Outcome.next.inj hx
  refine .ite (fun _ => ?_) (fun _ => hs)
  have hpfail := (hs.of_keeps (raise_keeps hs.keeps .pwrPfail noDomain 0)).modPwr
    (fun p => { p with mod := .pfail, pfailAt := some s.hclk }) (fun _ => rfl)
  exact hpfail.of_keeps (pfailFlush_keeps hpfail.keeps pageUs)

/-! ## Power-up (R521 to R525) -/

/-- Where a step of power-up ends, well or not, the pin stands. -/
def BootTrip (b : Bool) : Except BootStop State → Prop
  | .ok t => TripStands b t
  | .error e => TripStands b e.st

theorem TripStands.boot_of_keeps (hs : TripStands b s) (h : BootKeeps False OffPwr s r) : BootTrip b r := by
  cases r with
  | ok t => exact hs.of_keeps (h.1 t rfl)
  | error e => exact hs.of_keeps (h.2 e rfl)

theorem BootTrip.bind {f : State → Except BootStop State} (h : BootTrip b r) (hf : ∀ u, TripStands b u → BootTrip b (f u)) :
    BootTrip b (r >>= f) := by
  cases r with
  | ok u => exact hf u h
  | error e => exact h

theorem TripStands.bootStep (hs : TripStands b s) {f : BootFacts} {late : Option Nat} {k : Nat} {run : State → Except BootStop State}
    (hr : ∀ u, TripStands b u → BootTrip b (run u)) : BootTrip b (s.bootStep f late k run) := by
  have : Fact True := ⟨trivial⟩
  unfold State.bootStep
  extract_lets ms past u v s1
  have hu : TripStands b u := hs.modPwr _ (fun _ => rfl)
  have hv : TripStands b v := .ite (fun _ => hu.of_keeps (beginAlign_keeps hu.keeps)) (fun _ => hu)
  have h1 : TripStands b s1 := hv.of_keeps (pass_keeps hv.keeps _)
  split
  · exact h1
  · exact hr _ h1

theorem TripStands.boot9 (hs : TripStands b s) : TripStands b s.boot9 := by
  have : Fact True := ⟨trivial⟩
  unfold State.boot9
  extract_lets s1 s2 s3
  have k1 : Keeps False OffPwr s s1 := mapMessagePage_keeps (each_keeps _ _ (fun _ _ hu => createRt_keeps hu _) hs.keeps)
  have k2 : Keeps False OffPwr s s2 := each_keeps _ _ (fun _ _ hu => modEng_keeps hu _ _) k1
  have k3 : Keeps False OffPwr s s3 := each_keeps _ _ (fun _ _ hu => readyHalf_keeps hu _) k2
  have hready := (hs.of_keeps k3).modPwr (fun p => { p with mod := .ready, bootMs := s3.bootMs }) (fun _ => rfl)
  exact hready.of_keeps (serveHead_keeps (holdPrograms_keeps hready.keeps))

theorem TripStands.bootAll (hs : TripStands b s) (f : BootFacts) (late : Option Nat) : BootTrip b (s.bootAll f late) := by
  have : Fact True := ⟨trivial⟩
  unfold State.bootAll
  refine (hs.bootStep fun u hu => hu.boot_of_keeps (boot_ok_keeps (boot1_keeps hu.keeps nofun f))).bind fun s1 h1 => ?_
  refine (h1.bootStep fun u hu => hu.boot_of_keeps (boot2_keeps hu.keeps f)).bind fun s2 h2 => ?_
  refine (h2.bootStep fun u hu => hu.boot_of_keeps (boot3_keeps hu.keeps f)).bind fun s3 h3 => ?_
  refine (h3.bootStep fun u hu => hu.boot_of_keeps (boot4_keeps hu.keeps f)).bind fun s4 h4 => ?_
  refine (h4.bootStep fun u hu => hu.boot_of_keeps (boot5_keeps hu.keeps f)).bind fun s5 h5 => ?_
  refine (h5.bootStep fun u hu => hu.boot_of_keeps (boot_ok_keeps (align_keeps hu.keeps _ _))).bind fun s6 h6 => ?_
  refine (h6.bootStep fun u hu => hu.boot_of_keeps (boot7_keeps hu.keeps f)).bind fun s7 h7 => ?_
  refine (h7.bootStep fun u hu => hu.boot_of_keeps (boot8_keeps hu.keeps f)).bind fun s8 h8 => ?_
  exact h8.bootStep fun u hu => hu.boot9

theorem TripStands.powerUp (hs : TripStands b s) (f : BootFacts) (late : Option Nat) : TripStands b (s.powerUp f late) := by
  have : Fact True := ⟨trivial⟩
  have hboot := hs.bootAll f late
  unfold State.powerUp
  split
  · exact hs.of_keeps (modHubs_boot_keeps hs.keeps nofun _)
  · cases hr : s.bootAll f late with
    | ok u =>
      rw [hr] at hboot
      exact hboot
    | error e =>
      rw [hr] at hboot
      exact TripStands.enterSafe hboot _ _ _

theorem execPowerUp_tripStands (hs : TripStands b s) {f : BootFacts} (hx : execPowerUp f s = .next t) : TripStands b t := by
  obtain rfl := Host.Outcome.next.inj hx
  exact .ite (fun _ => hs.powerUp f none) (fun _ => hs)

theorem execPowerUpStepTimeout_tripStands (hs : TripStands b s) {k : Nat} {f : BootFacts} (hx : execPowerUpStepTimeout k f s = .next t) :
    TripStands b t := by
  obtain rfl := Host.Outcome.next.inj hx
  exact .ite (fun _ => hs.powerUp f (some k)) (fun _ => hs)

/-! ## Every step -/

theorem tick_tripStands (hs : TripStands b s) : TripStands b s.tick :=
  have : Fact True := ⟨trivial⟩
  hs.of_keeps (tick_keeps hs.keeps)

theorem TripStands.of_not_mayWrite_pwr {c : Instr} (hs : TripStands b s) (hc : mayWrite .pwr c = false) (hx : exec c s = .next t) :
    TripStands b t := by
  have hk : Keeps False (May c) s t := exec_keeps c hs.flat (fun _ _ => id) t hx
  have hpwr : t.pwr = s.pwr := hk.same .pwr (by simp [May, hc])
  exact ⟨hk.flat, (congrArg Power.thermtrip hpwr).trans hs.trip⟩

/-- Only MRST_PULSE and THERMTRIP change the pin. -/
theorem exec_tripStands {c : Instr} (hs : TripStands b s) (hm : ∀ ns, c ≠ .mrstPulse ns) (ht : ∀ d, c ≠ .thermtrip d)
    (hx : exec c s = .next t) : TripStands b t := by
  cases hw : mayWrite .pwr c with
  | false => exact hs.of_not_mayWrite_pwr hw hx
  | true =>
    unfold mayWrite at hw
    split at hw
    · next ns => exact absurd rfl (hm ns)
    · dsimp only at hw
      split at hw
      · exact execPowerUp_tripStands hs hx
      · exact execPowerUpStepTimeout_tripStands hs hx
      · exact execPfailAssert_tripStands hs hx
      · exact execRailOutOfBand_tripStands hs hx
      · exact execYardLost_tripStands hs hx
      · next d _ => exact absurd rfl (ht d)
      · cases hw

theorem step_of_pending_nil (h : s.pending = []) : step s = .next s.tick := by rw [step, h]

theorem step_of_pending_cons {c : Instr} {rest : List Instr} (h : s.pending = c :: rest) : step s = exec c { s with pending := rest } := by
  rw [step, h]

theorem TripStands.popPending (hs : TripStands b s) (rest : List Instr) : TripStands b { s with pending := rest } := ⟨{ hs.flat with }, hs.trip⟩

/-- A step at which neither MRST_PULSE nor THERMTRIP heads the queue leaves the pin as it was. -/
theorem step_tripStands (hs : TripStands b s) (hm : ∀ ns rest, s.pending ≠ .mrstPulse ns :: rest) (ht : ∀ d rest, s.pending ≠ .thermtrip d :: rest)
    (hx : step s = .next t) : TripStands b t := by
  cases hp : s.pending with
  | nil =>
    rw [step_of_pending_nil hp] at hx
    exact Host.Outcome.next.inj hx ▸ tick_tripStands hs
  | cons c rest =>
    rw [step_of_pending_cons hp] at hx
    exact exec_tripStands (hs.popPending rest) (fun ns hc => hm ns rest (hc ▸ hp)) (fun d hc => ht d rest (hc ▸ hp)) hx

/-! ## THERMTRIP (R564) -/

theorem exec_thermtrip (d : Nat) (s : State) : exec (.thermtrip d) s = execThermtrip d s := rfl

theorem exec_thermtrip_of_hot (s : State) {d : Nat} (h : 125 ≤ d) :
    exec (.thermtrip d) s = .next { s with pwr := { s.pwr with thermtrip := true } } := by
  rw [exec_thermtrip, execThermtrip, if_pos h, State.modPwr]

theorem exec_thermtrip_of_cool (s : State) {d : Nat} (h : d < 125) : exec (.thermtrip d) s = .next s := by
  rw [exec_thermtrip, execThermtrip, if_neg (Nat.not_le.2 h)]

/-- No temperature lets the pin go. -/
theorem exec_thermtrip_low {d : Nat} (hlow : s.pwr.thermtrip = true) (hx : exec (.thermtrip d) s = .next t) : t.pwr.thermtrip = true := by
  rcases Nat.lt_or_ge d 125 with hd | hd
  · rw [exec_thermtrip_of_cool s hd] at hx
    exact Host.Outcome.next.inj hx ▸ hlow
  · rw [exec_thermtrip_of_hot s hd] at hx
    exact Host.Outcome.next.inj hx ▸ rfl

/-- A pin that is low stays so at every step but MRST_PULSE. -/
theorem step_low (hs : TripStands true s) (hm : ∀ ns rest, s.pending ≠ .mrstPulse ns :: rest) (hx : step s = .next t) :
    t.pwr.thermtrip = true := by
  by_cases ht : ∃ d rest, s.pending = .thermtrip d :: rest
  · obtain ⟨d, rest, hp⟩ := ht
    rw [step_of_pending_cons hp] at hx
    exact exec_thermtrip_low (hs.popPending rest).trip hx
  · exact (step_tripStands hs hm (fun d rest hp => ht ⟨d, rest, hp⟩) hx).trip

/-- MRST# low for at least 1 µs resets the module (R559). -/
theorem exec_mrstPulse_of_long (s : State) {ns : Nat} (h : 1000 ≤ ns) : exec (.mrstPulse ns) s = .next s.mrst := by
  have hx : exec (.mrstPulse ns) s = execMrstPulse ns s := rfl
  rw [hx, execMrstPulse, if_pos h]

/-- Settles O35: THERMTRIP writes the pin alone; of the other commands that may write the power part each spares the pin, and the rest leave that part
as it was; MRST# alone lets the pin go. -/
theorem thermtripStaysLow : Obligations.ThermtripStaysLow := by
  refine ⟨fun s d => ⟨exec_thermtrip_of_hot s, exec_thermtrip_of_cool s⟩, fun s t hinv hx hm => ?_,
    fun s ns _ hns => ⟨_, exec_mrstPulse_of_long s hns, rfl⟩⟩
  have hflat : Flat s := (flat_iff s).2 hinv
  exact ⟨fun hlow => step_low ⟨hflat, hlow⟩ hm hx, fun ht => (step_tripStands ⟨hflat, rfl⟩ hm ht hx).trip⟩

end Sys2Proof.Machine
end

section
/-!
SUPPORT and PROOFS. What every step keeps, from what every command keeps (`exec_keeps`) and what one hclk keeps (`tick_keeps`): the
invariant, the ways out of SAFE and PFAIL, what only grows, and the frames.
-/
namespace Sys2Proof.Machine

variable {P : Prop} {s t : State}

/-! ## Steps -/

/-- Every part: what `Keeps` says of it beside the frames. -/
def anyPart (_ : Part) : Prop := True

theorem anyPart_fact (p : Part) : Fact (anyPart p) := ⟨trivial⟩

theorem Keeps.mono {W V : Part → Prop} (h : Keeps P W s t) (hv : ∀ p, ¬V p → ¬W p) : Keeps P V s t :=
  { h with same := fun p hp => h.same p (hv p hp) }

/-- The state with which a step of the front command begins keeps what `Keeps` says but the queue itself. -/
theorem Flat.popPending (h : Flat s) (rest : List Instr) : Flat { s with pending := rest } := { h with }

/-- What a step keeps, whichever it is: the front command's `Keeps`, or that of one hclk. -/
theorem step_keeps (h : Flat s) (hP : ∀ ns rest, s.pending = .mrstPulse ns :: rest → ¬P) (hx : step s = .next t) :
    Keeps P anyPart { s with pending := s.pending.tail } t := by
  have _ := anyPart_fact
  cases hp : s.pending with
  | nil =>
    rw [step_of_pending_nil hp] at hx
    have hs : ({ s with pending := [] } : State) = s := by rw [← hp]
    rw [List.tail_nil, hs]
    exact Host.Outcome.next.inj hx ▸ tick_keeps (Keeps.rfl' h)
  | cons c rest =>
    rw [step_of_pending_cons hp] at hx
    exact (exec_keeps c (h.popPending rest) (fun ns hc => hP ns rest (hc ▸ hp)) t hx).mono (fun p hp _ => hp trivial)

/-- Settles O4: every operation of every step keeps the canonical forms, the bounds of the counters and of the event records. -/
theorem stepKeepsInvariant : Obligations.StepKeepsInvariant := by
  unfold Obligations.StepKeepsInvariant
  intro s t hs hx
  exact (flat_iff t).1 (step_keeps (P := False) ((flat_iff s).2 hs) (fun _ _ _ => id) hx).flat

/-- Settles O6: of all commands MRST_PULSE alone leaves SAFE for another state than PFAIL, and PFAIL at all. -/
theorem safeAndPfailLeftOnlyByReset : Obligations.SafeAndPfailLeftOnlyByReset := by
  unfold Obligations.SafeAndPfailLeftOnlyByReset
  have hk : ∀ s t : State, s.Inv → (∀ ns rest, s.pending ≠ .mrstPulse ns :: rest) → step s = .next t →
      Keeps True anyPart { s with pending := s.pending.tail } t :=
    fun s t hs hm hx => step_keeps ((flat_iff s).2 hs) (fun ns rest hp _ => hm ns rest hp) hx
  exact ⟨fun s t hs hmod hm hx => (hk s t hs hm hx).safe trivial hmod, fun s t hs hmod hm hx => (hk s t hs hm hx).pfail trivial hmod⟩

/-! ## Signals on one fence (R362) -/

theorem fenceAdd_fence_same (h : Flat s) (f n : Nat) : ((s.fenceAdd f n).fence f).toNat = min ((s.fence f).toNat + n) (2 ^ 64 - 1) := by
  unfold State.fenceAdd
  dsimp only
  split
  · next hfull =>
    simp only [State.fence, sget_sset_same 0 s.fences f _ h.fences, BitVec.toNat_ofNat]
    have : 2 ^ 64 ≤ (s.fence f).toNat + n := hfull
    simp only [State.fence] at this
    omega
  · next hroom =>
    simp only [State.fence, sget_sset_same 0 s.fences f _ h.fences, BitVec.toNat_ofNat]
    simp only [State.fence] at hroom
    omega

theorem fenceAdd_fence_ne {g f : Nat} (n : Nat) (hg : g ≠ f) : (s.fenceAdd f n).fence g = s.fence g := by
  unfold State.fenceAdd
  dsimp only
  split <;> simp only [State.fence, sget_sset_ne 0 s.fences f g _ hg]

theorem fenceMax_fence_same (h : Flat s) (f n : Nat) : ((s.fenceMax f n).fence f).toNat = max (s.fence f).toNat (n % 2 ^ 64) := by
  have hf := (s.fence f).isLt
  simp only [State.fence] at hf
  simp only [State.fenceMax, State.fence, sget_sset_same 0 s.fences f _ h.fences, BitVec.toNat_ofNat]
  omega

theorem fenceMax_fence_ne {g f : Nat} (n : Nat) (hg : g ≠ f) : (s.fenceMax f n).fence g = s.fence g :=
  sget_sset_ne 0 s.fences f g _ hg

theorem fenceAdd_flat (h : Flat s) (f n : Nat) : Flat (s.fenceAdd f n) :=
  have _ := anyPart_fact
  (fenceAdd_keeps (P := False) (W := anyPart) (Keeps.rfl' h) f n).flat

theorem fenceMax_flat (h : Flat s) (f n : Nat) : Flat (s.fenceMax f n) :=
  have _ := anyPart_fact
  (fenceMax_keeps (P := False) (W := anyPart) (Keeps.rfl' h) f n).flat

theorem fenceAdd_comm (h : Flat s) (f a b : Nat) : ((s.fenceAdd f a).fenceAdd f b).fence f = ((s.fenceAdd f b).fenceAdd f a).fence f := by
  apply BitVec.eq_of_toNat_eq
  rw [fenceAdd_fence_same (fenceAdd_flat h f a), fenceAdd_fence_same h, fenceAdd_fence_same (fenceAdd_flat h f b), fenceAdd_fence_same h]
  omega

theorem fenceMax_comm (h : Flat s) (f a b : Nat) : ((s.fenceMax f a).fenceMax f b).fence f = ((s.fenceMax f b).fenceMax f a).fence f := by
  apply BitVec.eq_of_toNat_eq
  rw [fenceMax_fence_same (fenceMax_flat h f a), fenceMax_fence_same h, fenceMax_fence_same (fenceMax_flat h f b), fenceMax_fence_same h]
  omega

/-- Settles O7: no command but MRST_PULSE takes a fence or the next SEQ back, or a lost hub into service outside BOOT; signals of one kind
commute, as saturating sums and as maxima do. -/
theorem fencesSeqsAndLossesOnlyGrow : Obligations.FencesSeqsAndLossesOnlyGrow := by
  unfold Obligations.FencesSeqsAndLossesOnlyGrow
  refine ⟨fun s t hs hm hx => ?_, fun s f a b hs => ?_⟩
  · have hk : Keeps True anyPart { s with pending := s.pending.tail } t := step_keeps ((flat_iff s).2 hs) (fun ns rest hp _ => hm ns rest hp) hx
    exact ⟨hk.fence trivial, hk.head trivial, fun hmod => ⟨hk.lost0 trivial hmod, hk.lost1 trivial hmod⟩⟩
  · exact ⟨fenceAdd_comm ((flat_iff s).2 hs) f a b, fenceMax_comm ((flat_iff s).2 hs) f a b⟩

/-- Settles O8: the frame of every command, and the queue and the strap that no command writes. -/
theorem commandsKeepToTheirParts : Obligations.CommandsKeepToTheirParts := by
  unfold Obligations.CommandsKeepToTheirParts
  intro c s t hs hx
  have hk : Keeps False (May c) s t := exec_keeps c ((flat_iff s).2 hs) (fun _ _ => id) t hx
  exact ⟨fun p hp => hk.same p (by rw [May, hp]; exact Bool.false_ne_true), hk.pending, hk.grade⟩

/-! ## One hclk (log entry 10) -/

/-- What an idle hclk does before the clocks move on: the engines', queues' and programs' counts of it, its trace, and its frames. -/
def State.tickWork (s : State) : State :=
  let s1 := if s.live then ((s.each ((upto 21).filter s.present) State.tickEngine).tickQueues.tickRng).tickFires.askDelay.traceWrite else s
  let s1 := if s1.pwr.mod = .ready then s1.takeFull else s1
  if s1.pwr.mod = .ready then s1.each (upto 4) State.linkSlot else s1

theorem tick_eq (s : State) : s.tick = (s.tickWork.pass 1).pfailTick := rfl

theorem tickWork_keeps {W : Part → Prop} {o : State} [Fact (W .img)] [Fact (W .hub)] [Fact (W .flash)] [Fact (W .cores)] [Fact (W .data)]
    [Fact (W .engines)] [Fact (W .per)] [Fact (W .links)] [Fact (W .rel)] (h : Keeps P W o s) : Keeps P W o s.tickWork := by
  unfold State.tickWork
  extract_lets s1 s2
  have h1 : Keeps P W o s1 :=
    ite_keeps (fun _ => traceWrite_keeps (askDelay_keeps (tickFires_keeps (tickRng_keeps (tickQueues_keeps
      (each_keeps _ _ (fun _ _ hu => tickEngine_keeps hu _) h)))))) (fun _ => h)
  clear_value s1
  have h2 : Keeps P W o s2 := ite_keeps (fun _ => takeFull_keeps h1) (fun _ => h1)
  clear_value s2
  exact ite_keeps (fun _ => each_keeps _ _ (fun _ _ hu => linkSlot_keeps hu _) h2) (fun _ => h2)

/-- What `tickWork` may write. -/
def tickWorkWrites (p : Part) : Bool := [Part.img, .hub, .flash, .cores, .data, .engines, .per, .links, .rel].contains p

theorem tickWork_keeps_own (h : Flat s) : Keeps P (fun p => tickWorkWrites p = true) s s.tickWork := by
  have : Fact (tickWorkWrites .img = true) := ⟨rfl⟩
  have : Fact (tickWorkWrites .hub = true) := ⟨rfl⟩
  have : Fact (tickWorkWrites .flash = true) := ⟨rfl⟩
  have : Fact (tickWorkWrites .cores = true) := ⟨rfl⟩
  have : Fact (tickWorkWrites .data = true) := ⟨rfl⟩
  have : Fact (tickWorkWrites .engines = true) := ⟨rfl⟩
  have : Fact (tickWorkWrites .per = true) := ⟨rfl⟩
  have : Fact (tickWorkWrites .links = true) := ⟨rfl⟩
  have : Fact (tickWorkWrites .rel = true) := ⟨rfl⟩
  exact tickWork_keeps (Keeps.rfl' h)

theorem pass_hclk (h : Flat s) (n : Nat) : (s.pass n).hclk = s.hclk + n := by
  have : Fact ((fun p => p = Part.halves) .halves) := ⟨rfl⟩
  have hk : Keeps False (fun p => p = .halves) s (if s.yardsClocked then s.each (upto 32) (State.runHalf n) else s) :=
    ite_keeps (fun _ => each_keeps _ _ (fun _ _ hu => runHalf_keeps hu _ _) (Keeps.rfl' h)) (fun _ => Keeps.rfl' h)
  have hsame : (if s.yardsClocked then s.each (upto 32) (State.runHalf n) else s).hclk = s.hclk := hk.same .hclk (by decide)
  rw [State.pass, hsame]

theorem pass_flat (h : Flat s) (n : Nat) : Flat (s.pass n) :=
  have _ := anyPart_fact
  (pass_keeps (P := False) (W := anyPart) (Keeps.rfl' h) n).flat

/-- What `pfailTick` may write. -/
def pfailTickWrites (p : Part) : Bool := [Part.flash, .halves, .spad, .data, .engines, .per, .links, .rel].contains p

theorem pfailTick_keeps_own (h : Flat s) : Keeps P (fun p => pfailTickWrites p = true) s s.pfailTick := by
  have : Fact (pfailTickWrites .flash = true) := ⟨rfl⟩
  have : Fact (pfailTickWrites .halves = true) := ⟨rfl⟩
  have : Fact (pfailTickWrites .spad = true) := ⟨rfl⟩
  have : Fact (pfailTickWrites .data = true) := ⟨rfl⟩
  have : Fact (pfailTickWrites .engines = true) := ⟨rfl⟩
  have : Fact (pfailTickWrites .per = true) := ⟨rfl⟩
  have : Fact (pfailTickWrites .links = true) := ⟨rfl⟩
  have : Fact (pfailTickWrites .rel = true) := ⟨rfl⟩
  exact pfailTick_keeps (Keeps.rfl' h)

theorem tick_hclk (h : Flat s) : s.tick.hclk = s.hclk + 1 := by
  have hw : Keeps False (fun p => tickWorkWrites p = true) s s.tickWork := tickWork_keeps_own h
  have hwork : s.tickWork.hclk = s.hclk := hw.same .hclk Bool.false_ne_true
  have hp : Keeps False (fun p => pfailTickWrites p = true) (s.tickWork.pass 1) s.tick := pfailTick_keeps_own (pass_flat hw.flat 1)
  have hpass : s.tick.hclk = (s.tickWork.pass 1).hclk := hp.same .hclk Bool.false_ne_true
  rw [hpass, pass_hclk hw.flat, hwork]

/-- Settles O2: with an empty queue a step is one tick, whose parts but `pass` leave the count of hclk. -/
theorem idleStepPassesOneHclk : Obligations.IdleStepPassesOneHclk := by
  unfold Obligations.IdleStepPassesOneHclk
  intro s hs hp
  have h : Flat s := (flat_iff s).2 hs
  have _ := anyPart_fact
  have hk : Keeps False anyPart s s.tick := tick_keeps (Keeps.rfl' h)
  exact ⟨s.tick, step_of_pending_nil hp, hk.pending.trans hp, tick_hclk h⟩

/-! ## Counters (R551) -/

/-- Settles O9: a count is one write of the table of counters, modulo 2^48. -/
theorem countersWrap : Obligations.CountersWrap := by
  unfold Obligations.CountersWrap
  intro s g g' i j k l n hs
  have h : Flat s := (flat_iff s).2 hs
  have hsame : (s.bumpBy g i k n).count g i k = (s.count g i k + n) % 2 ^ 48 := count_bumpBy_same s g i k n h.pmon
  exact ⟨hsame, count_bumpBy_ne s g i k n g' j l, hsame ▸ Nat.mod_lt _ (by decide)⟩

/-! ## Reset -/

/-- Settles O1: it is what a step is. -/
theorem stepRunsFrontCommand : Obligations.StepRunsFrontCommand := fun _ _ _ hp => step_of_pending_cons hp

/-- Settles O3: the invariant is decidable, and the reset state is one closed value. -/
theorem resetMeetsInvariant : Obligations.ResetMeetsInvariant := by
  unfold Obligations.ResetMeetsInvariant State.Inv
  decide

/-- Settles O5: each reading is one of the reset state's own values. -/
theorem resetReadings : Obligations.ResetReadings := by
  unfold Obligations.ResetReadings
  refine ⟨rfl, rfl, rfl, rfl, fun who => ?_, fun _ => rfl, fun _ => rfl, fun _ => rfl, fun _ _ _ => rfl, rfl⟩
  cases who <;> refine ⟨?_, ?_, ?_, ?_⟩ <;> decide

end Sys2Proof.Machine
end

section
/-!
SUPPORT and PROOFS. The registers of the event recorder: the window, the acknowledgements and the freeze (R541 to R543).
-/
namespace Sys2Proof.Machine

variable {s t : State}

/-! ## Least elements -/

theorem minBy_eq_none_iff {α : Type} {key : α → Nat} {xs : List α} : minBy key xs = none ↔ xs = [] := by
  cases xs with
  | nil => simp [minBy]
  | cons x xs =>
    simp only [minBy]
    split
    · simp
    · split <;> simp

theorem minBy_le {α : Type} {key : α → Nat} : ∀ {xs : List α} {x y : α}, minBy key xs = some x → y ∈ xs → key x ≤ key y
  | z :: zs, x, y, h, hy => by
    simp only [minBy] at h
    split at h
    · next hnone =>
      rw [minBy_eq_none_iff.1 hnone, List.mem_singleton] at hy
      rw [hy, Option.some.inj h]
    · next w hw =>
      have hle : ∀ v ∈ zs, key w ≤ key v := fun v hv => minBy_le hw hv
      rcases List.mem_cons.1 hy with rfl | hy
      · split at h <;> cases h <;> omega
      · have := hle y hy
        split at h <;> cases h <;> omega

/-! ## Writes and reads that reach their register -/

theorem onWrite_of_writable {off : Nat} (h : s.writable off = true) (f : State → State) : s.onWrite off f = (f s).answer .none := by
  rw [State.onWrite, if_pos h]

theorem onWrite_of_not_writable {off : Nat} (h : s.writable off = false) (f : State → State) : s.onWrite off f = s.answer .dropped := by
  rw [State.onWrite, if_neg (by rw [h]; exact Bool.false_ne_true)]

theorem deadBar_of_hubAlive (h : s.hubAlive = true) : s.deadBar = false := by rw [State.deadBar, h]; rfl

/-! ## The event window (R542) -/

theorem evWin_setWin (who : Requester) (w : EvWin) : (s.setWin who w).evWin who = w := by cases who <;> rfl

theorem setWin_recs (who : Requester) (w : EvWin) : (s.setWin who w).evr.recs = s.evr.recs := by cases who <;> rfl

theorem setWin_src (who : Requester) (w : EvWin) : (s.setWin who w).evr.src = s.evr.src := by cases who <;> rfl

theorem winLatch_cursor (who : Requester) : ((s.winLatch who).evWin who).cursor = (s.evWin who).cursor := by
  simp only [State.winLatch]
  split <;> simp only [evWin_setWin]

theorem winLatch_recs (who : Requester) : (s.winLatch who).evr.recs = s.evr.recs := by
  simp only [State.winLatch]
  split <;> exact setWin_recs who _

/-- A window that is valid holds the record of the lowest SEQ at or above its cursor; GAP tells that the cursor lies below it. -/
theorem winLatch_valid {who : Requester} (hsrc : s.evr.src = false) (hv : ((s.winLatch who).evWin who).valid = true) :
    ∃ r ∈ s.evr.recs, ((s.winLatch who).evWin who).record = some r ∧ (s.evWin who).cursor ≤ r.seq ∧
      (((s.winLatch who).evWin who).gap = true ↔ (s.evWin who).cursor < r.seq) ∧
      ∀ x ∈ s.evr.recs, (s.evWin who).cursor ≤ x.seq → r.seq ≤ x.seq := by
  simp only [State.winLatch, hsrc, Bool.false_eq_true, if_false] at hv ⊢
  split at hv
  · simp only [evWin_setWin, Bool.false_eq_true] at hv
  · next r hr =>
    obtain ⟨hmem, hle⟩ := List.mem_filter.1 (mem_of_minBy hr)
    simp only [evWin_setWin, decide_eq_true_eq] at hle ⊢
    exact ⟨r, hmem, rfl, hle, Iff.rfl, fun x hx hc => minBy_le hr (List.mem_filter.2 ⟨hx, decide_eq_true hc⟩)⟩

/-- A window that is not valid has no record at or above its cursor. -/
theorem winLatch_not_valid {who : Requester} (hsrc : s.evr.src = false) (hv : ((s.winLatch who).evWin who).valid = false) :
    ∀ x ∈ s.evr.recs, x.seq < (s.evWin who).cursor := by
  simp only [State.winLatch, hsrc, Bool.false_eq_true, if_false] at hv
  split at hv
  · next hnone =>
    intro x hx
    have hempty := minBy_eq_none_iff.1 hnone
    rw [List.filter_eq_nil_iff] at hempty
    simpa using hempty x hx
  · simp only [evWin_setWin, Bool.true_eq_false] at hv

theorem winAdvance_cursor {who : Requester} {r : EvRec} (hr : (s.evWin who).record = some r) (hv : (s.evWin who).valid = true) :
    ((s.winAdvance who).evWin who).cursor = r.seq + 1 := by
  simp only [State.winAdvance, hr, hv, if_true, winLatch_cursor, evWin_setWin]

theorem winAdvance_recs (who : Requester) : (s.winAdvance who).evr.recs = s.evr.recs := by
  simp only [State.winAdvance, winLatch_recs]
  split
  · split
    · exact setWin_recs who _
    · rfl
  · rfl

/-- A read of EVR_WIN15 while a hub serves: no pair of words latches it, and SAFE lets it through. -/
theorem readReg_evrWin15 (h : s.hubAlive = true) (who : Requester) :
    s.readReg who 0x60007C = (s.winAdvance who).answer (.value (s.peek who 0x60007C)) := by
  have hsq : sqHalf 0x60007C = none := by decide
  have hsafe : ¬(s.pwr.mod = .safe ∧ (!safeBlock 0x60007C) = true) := fun hc => absurd hc.2 (by decide)
  have hlow : ¬latchedLow 0x60007C = true := by decide
  have hhigh : ¬latchedHigh 0x60007C = true := by decide
  simp only [State.readReg, deadBar_of_hubAlive h, hsq, Bool.false_eq_true, if_false, if_neg hsafe, if_neg hlow, if_neg hhigh, if_true]

/-! ## Acknowledgements and the freeze (R541, R543) -/

theorem mem_ack_iff {now a : Nat} {v : Evr} {r : EvRec} : r ∈ (v.ack now a).recs ↔ r ∈ v.recs ∧ ¬(r.sev ≤ 2 ∧ r.seq ≤ a) := by
  simp only [Evr.ack, List.mem_filter, decide_eq_true_eq]
  exact and_congr_right fun _ => by omega

theorem mem_acks_iff {now : Nat} {r : EvRec} (as : List Nat) (v : Evr) :
    r ∈ (as.foldl (Evr.ack now) v).recs ↔ r ∈ v.recs ∧ ∀ a ∈ as, ¬(r.sev ≤ 2 ∧ r.seq ≤ a) := by
  induction as generalizing v with
  | nil => simp
  | cons a as ih => rw [List.foldl_cons, ih, mem_ack_iff, List.forall_mem_cons, and_assoc]

theorem mem_thaw_iff {now : Nat} {v : Evr} {r : EvRec} :
    r ∈ (v.thaw now).recs ↔ r ∈ v.recs ∧ ∀ a ∈ v.heldAcks, ¬(r.sev ≤ 2 ∧ r.seq ≤ a) := mem_acks_iff v.heldAcks v

/-- A write of FREEZE begins a freeze, or leaves the one in force. -/
theorem evrCtrl_on {v : Word} (hv : v.getLsbD 0 = true) : (s.evrCtrl v).evr.freeze = true ∧
    (s.evr.freeze = false → (s.evrCtrl v).evr.missed = 0 ∧ (s.evrCtrl v).evr.freezeAt = s.hclk) ∧
    (s.evr.freeze = true → (s.evrCtrl v).evr.missed = s.evr.missed ∧ (s.evrCtrl v).evr.freezeAt = s.evr.freezeAt) ∧
    (s.evrCtrl v).evr.recs = s.evr.recs := by
  cases hf : s.evr.freeze <;> simp only [State.evrCtrl, hv, hf] <;> simp [hf]

theorem evrCtrl_off {v : Word} (hv : v.getLsbD 0 = false) (hf : s.evr.freeze = true) :
    (s.evrCtrl v).evr = Evr.thaw s.hclk { s.evr with src := v.getLsbD 1 } := by
  simp only [State.evrCtrl, hv, hf]
  simp [hf]

/-- Settles O31: each register runs one operation of the recorder, whose window, freeze and acknowledgements the lemmas above give. -/
theorem eventWindowAndFreeze : Obligations.EventWindowAndFreeze := by
  unfold Obligations.EventWindowAndFreeze
  refine ⟨fun s who v hs halive hsrc => ⟨fun hw => ?_, fun r hr hv => ?_⟩, fun s v hs => ⟨fun hw hv => ?_, fun hw hv hf => ?_, fun hf hdue => ?_⟩⟩
  · refine ⟨_, congrArg Host.Outcome.next (onWrite_of_writable hw _), ?_⟩
    have hsrc' := (setWin_src who { s.evWin who with cursor := v.toNat * 2 ^ 32 + (s.evWin who).cursor % 2 ^ 32 }).trans hsrc
    have hval := winLatch_valid (who := who) hsrc'
    have hnone := winLatch_not_valid (who := who) hsrc'
    have hcur := winLatch_cursor (s := s.setWin who { s.evWin who with cursor := v.toNat * 2 ^ 32 + (s.evWin who).cursor % 2 ^ 32 }) who
    rw [← hcur, setWin_recs] at hval hnone
    rw [evWin_setWin] at hcur
    exact ⟨hcur, (winLatch_recs who).trans (setWin_recs who _), hval, hnone⟩
  · exact ⟨_, congrArg Host.Outcome.next (readReg_evrWin15 halive who), winAdvance_cursor hr hv, winAdvance_recs who⟩
  · exact ⟨_, congrArg Host.Outcome.next (onWrite_of_writable hw _), evrCtrl_on hv⟩
  · have he := evrCtrl_off hv hf
    refine ⟨_, congrArg Host.Outcome.next (onWrite_of_writable hw _), ?_, ?_, fun r => ?_⟩
    · rw [answer_evr, he]; rfl
    · rw [answer_evr, he]; rfl
    · rw [answer_evr, he]; exact mem_thaw_iff
  · refine ⟨s.modEvr (Evr.thaw s.hclk), congrArg Host.Outcome.next (if_pos ⟨hf, hdue⟩), rfl, rfl, fun r => mem_thaw_iff⟩

/-- Settles O32: outside a freeze the acknowledgement is applied at once. -/
theorem ackFreesRecords : Obligations.AckFreesRecords := by
  unfold Obligations.AckFreesRecords
  intro s v hs hw hf
  refine ⟨_, congrArg Host.Outcome.next (onWrite_of_writable hw _), fun r => ?_⟩
  rw [answer_evr, State.ackHi, modEvr_evr, if_neg (by rw [hf]; exact Bool.false_ne_true)]
  exact mem_ack_iff

end Sys2Proof.Machine
end

section
/-!
SUPPORT and PROOFS. Register accesses and the host's other requests: latched pairs, single writes, BAR4, configuration writes, I3C and the TAP
(R7, R10, R429 to R432, R460, R461).
-/
namespace Sys2Proof.Machine

variable {s t : State}

/-! ## Latched pairs (R10) -/

theorem exec_lowWordRead (who : Requester) {off : Nat} (h : off ≠ 0x500020) : exec (.lowWordRead who off) s = .next (s.readReg who off) := by
  have hx : exec (.lowWordRead who off) s = execLowWordRead who off s := rfl
  rw [hx, execLowWordRead, if_neg h]

/-- The reset state in another mode, with a high word latched for the host. -/
def latchedIn (m : ModState) : State := { State.reset with pwr := { Power.reset with mod := m }, latchHost := 1 }

/-- Refutes O27: in SAFE a read of the low word of fence 0 answers 0 and latches nothing (R526), so that the high word read in READY with the same
latch is that of an earlier pair, 1, and not the 0 that the high word read as. -/
theorem not_latchedPairs : ¬ Obligations.LatchedPairs := by
  unfold Obligations.LatchedPairs
  intro h
  obtain ⟨u, hu, -, hpair⟩ := h (latchedIn .safe) .host 0x101000 (by unfold State.Inv; decide) (by decide) (by decide) (by decide) (by decide)
  rw [exec_lowWordRead .host (by decide)] at hu
  have hlatch : u.latch .host = (latchedIn .ready).latch .host := Host.Outcome.next.inj hu ▸ by decide
  obtain ⟨w, hw, hresp, -⟩ := hpair (latchedIn .ready) (by decide) hlatch.symm (by decide)
  rw [exec_lowWordRead .host (by decide)] at hw
  rw [← Host.Outcome.next.inj hw] at hresp
  exact absurd hresp (by decide)

/-! ## Single writes (R7, R212, R432, R472) -/

theorem badWrite_of_hubAlive (h : s.hubAlive = true) : s.badWrite = (s.bump .hub 2 0).answer .dropped := by
  rw [State.badWrite, deadBar_of_hubAlive h]; rfl

/-- A host write of DB_F2H_MASK stores the mask (R472). -/
theorem exec_registerWrite_f2hMask (h : s.hubAlive = true) (v : Word) :
    exec (.registerWrite .host 0x400204 v) s = .next ((s.modMbx (fun m => { m with dbF2hMask := v })).answer .none) := by
  have hw : s.writable 0x400204 = true := by
    rw [State.writable, deadBar_of_hubAlive h, show safeBlock 0x400204 = true by decide, Bool.or_true]; rfl
  have heff : s.effectWrite .host 0x400204 v = none := rfl
  have hplain : s.plainWrite .host 0x400204 v = s.modMbx (fun m => { m with dbF2hMask := v }) := rfl
  refine congrArg Host.Outcome.next ((if_neg (by decide)).trans ((onWrite_of_writable hw _).trans ?_))
  rw [heff, hplain, Option.getD_none]

theorem peek_f2hMask (s : State) (who : Requester) : s.peek who 0x400204 = s.mbx.dbF2hMask := by
  have hsafe : ¬(s.pwr.mod = .safe ∧ (!safeBlock 0x400204) = true) := fun hc => absurd hc.2 (by decide)
  have hreg : s.peekNat who 0x400204 = s.mbx.dbF2hMask.toNat := rfl
  rw [State.peek, if_neg hsafe, hreg, BitVec.ofNat_toNat, BitVec.setWidth_eq]

/-- Settles O28: each write is one operation of the register it reaches. -/
theorem registerWrites : Obligations.RegisterWrites := by
  unfold Obligations.RegisterWrites
  intro s who v off hs halive
  have h : Flat s := (flat_iff s).2 hs
  refine ⟨fun hw => ?_, fun hw => ?_, fun hoff => ?_, ?_, fun hoff hw => ?_⟩
  · exact ⟨_, congrArg Host.Outcome.next (onWrite_of_writable hw _), rfl, rfl, rfl, rfl⟩
  · exact ⟨_, congrArg Host.Outcome.next (onWrite_of_writable hw _), rfl, rfl, rfl, rfl⟩
  · refine ⟨_, congrArg Host.Outcome.next ((if_pos hoff).trans (badWrite_of_hubAlive halive)), rfl, ?_, rfl, rfl⟩
    exact count_bumpBy_same s .hub 2 0 1 h.pmon
  · exact ⟨_, exec_registerWrite_f2hMask halive v, rfl, rfl, peek_f2hMask _ who⟩
  · exact congrArg Host.Outcome.next ((if_neg (not_not.2 hoff)).trans (onWrite_of_not_writable hw _))

/-! ## BAR4, bad requests and configuration writes (R429 to R432, R550) -/

theorem each_of {α β : Type} (p : State → β) (xs : List α) (f : State → α → State) (hf : ∀ s x, p (f s x) = p s) : ∀ s : State, p (s.each xs f) = p s := by
  induction xs with
  | nil => exact fun _ => rfl
  | cons x xs ih => exact fun s => (ih (f s x)).trans (hf s x)

theorem queueCheck_data (s : State) (pa : Nat) : (s.queueCheck pa).mem.data = s.mem.data := by
  unfold State.queueCheck
  dsimp only
  repeat' split
  all_goals rfl

/-- A key without a second entry reads as the default once it is taken out, whichever default. -/
theorem sget_sdel_same_of_nodup {α : Type} (d : α) (k : Nat) : ∀ m : Sparse α, (m.map Prod.fst).Nodup → sget d (sdel m k) k = d
  | [], _ => rfl
  | (j, v) :: m, h => by
    obtain ⟨hj, hm⟩ := List.nodup_cons.1 h
    simp only [sdel]
    split
    · next he =>
      subst he
      clear h hm
      induction m with
      | nil => rfl
      | cons x m ih =>
        simp only [List.map_cons, List.mem_cons, not_or] at hj
        rw [sget, if_neg (Ne.symm hj.1)]
        exact ih hj.2
    · next he =>
      rw [sget, if_neg he]
      exact sget_sdel_same_of_nodup d k m hm

theorem sget_sset_same_of_nodup {α : Type} [DecidableEq α] (d : α) (m : Sparse α) (k : Nat) (v : α) (h : (m.map Prod.fst).Nodup) :
    sget d (sset d m k v) k = v := by
  unfold sset
  split
  · next hv => rw [hv]; exact sget_sdel_same_of_nodup d k m h
  · exact sget_sput_same d m k v

/-- What a configuration write leaves, by the register it names. -/
theorem configWrite_linkUp (s : State) (off : Nat) (v : Word) : (s.configWrite off v).ports.linkUp = true := by
  unfold State.configWrite
  dsimp only
  repeat' split
  all_goals rfl

theorem configWrite_identity {off : Nat} (h : off ≠ Config.rebarControl) {w : Word} (hw : identityWord s.pwr.grade off = some w) (v : Word) :
    s.configWrite off v = s.modPorts (fun p => { p with linkUp := true, resp := .none }) := by
  have hsome : (identityWord s.pwr.grade off).isSome = true := by rw [hw]; rfl
  simp only [State.configWrite, if_neg h, if_pos hsome]

theorem configWrite_rebar (s : State) (v : Word) : (s.configWrite Config.rebarControl v).ports.bar2Log2 =
    if 30 ≤ 20 + bits v.toNat 13 8 ∧ 20 + bits v.toNat 13 8 ≤ 38 then 20 + bits v.toNat 13 8 else s.ports.bar2Log2 := by
  simp only [State.configWrite, if_true]
  split <;> rfl

theorem configWrite_word {off : Nat} (h : off ≠ Config.rebarControl) (hid : identityWord s.pwr.grade off = none) (v : Word)
    (hconf : (s.ports.config.map Prod.fst).Nodup) (htable : (s.ports.msixTable.map Prod.fst).Nodup) :
    (s.configWrite off v).ports.bar2Log2 = s.ports.bar2Log2 ∧ (Config.msixWord off).elim
      (sget (Config.pcieConfig off) (s.configWrite off v).ports.config off = v ∧ (s.configWrite off v).ports.msixTable = s.ports.msixTable)
      (fun i => (s.configWrite off v).ports.config = s.ports.config ∧
        (i < 128 → sget (msixReset i) (s.configWrite off v).ports.msixTable i = v)) := by
  have hnone : ¬(identityWord s.pwr.grade off).isSome = true := by rw [hid]; exact Bool.false_ne_true
  simp only [State.configWrite, if_neg h, if_neg hnone]
  cases Config.msixWord off with
  | none => exact ⟨rfl, sget_sset_same_of_nodup _ _ off v hconf, rfl⟩
  | some i =>
    by_cases hi : i < 4 * pcieCaps.vectors
    · simp only [if_pos hi, Option.elim]
      exact ⟨rfl, rfl, fun _ => sget_sset_same_of_nodup _ _ i v htable⟩
    · simp only [if_neg hi, Option.elim]
      exact ⟨rfl, rfl, fun hlt => absurd hlt hi⟩

/-- A bad request is answered and leaves the rest. -/
theorem exec_unsupportedRequest (h : s.hubAlive = true) (k : BadRequest) :
    exec (.unsupportedRequest k) s = .next (s.answer (if k = .vdm1 then .dropped else .unsupported)) := by
  have hx : exec (.unsupportedRequest k) s = execUnsupportedRequest k s := rfl
  rw [hx, execUnsupportedRequest, deadBar_of_hubAlive h, apply_ite s.answer, if_neg (c := k = .bar0BadRead ∧ false = true) (by simp)]

/-- Settles O40: every request is one operation of the port. -/
theorem hostRequests : Obligations.HostRequests := by
  unfold Obligations.HostRequests
  intro s off n v k hs halive
  have h : Flat s := (flat_iff s).2 hs
  have hdead : ¬s.deadBar = true := by rw [deadBar_of_hubAlive halive]; exact Bool.false_ne_true
  refine ⟨fun hlen hmod htrace => ?_, fun hlen hoff => ?_, fun hlen => ?_, ?_, ?_, ?_⟩
  · refine ⟨_, congrArg Host.Outcome.next ((if_neg hdead).trans ((if_neg (Nat.not_lt.2 hlen)).trans (if_neg (not_or.2 ⟨hmod, htrace⟩)))), ?_, ?_⟩
    · exact congrArg Resp.data (List.map_map ..)
    · exact each_of (fun s => s.mem.data) _ _ (fun s b => queueCheck_data s _) s
  · exact ⟨_, congrArg Host.Outcome.next ((if_neg hdead).trans ((if_neg (Nat.not_lt.2 hlen)).trans (if_pos hoff))), rfl⟩
  · exact congrArg Host.Outcome.next ((if_neg hdead).trans (if_pos hlen))
  · exact ⟨_, congrArg Host.Outcome.next (badWrite_of_hubAlive halive), rfl, count_bumpBy_same s .hub 2 0 1 h.pmon⟩
  · exact ⟨_, exec_unsupportedRequest halive k, rfl, rfl, rfl, rfl⟩
  · refine ⟨_, rfl, configWrite_linkUp s off v, fun hoff hid hconf htable => configWrite_word hoff hid v hconf htable, fun w hoff hw => ?_, fun hoff => ?_⟩
    · rw [configWrite_identity hoff hw]; exact ⟨rfl, rfl⟩
    · rw [hoff]; exact configWrite_rebar s v

/-! ## I3C and the TAP (R460, R461) -/

/-- Bits taken from a number are no more in it. -/
theorem sub_land_land_eq_zero (x m : Nat) : (x - (x &&& m)) &&& m = 0 := by
  induction x using Nat.strongRecOn generalizing m with
  | _ x ih =>
    by_cases hx : x = 0
    · rw [hx, Nat.zero_sub, Nat.zero_and]
    · have hle : (x &&& m) ≤ x := Nat.and_le_left
      have hdiv : (x &&& m) / 2 = x / 2 &&& m / 2 := Nat.and_div_two
      have hmod : (x &&& m) % 2 = 1 ↔ x % 2 = 1 ∧ m % 2 = 1 := Nat.and_mod_two_eq_one
      have hhalf : (x - (x &&& m)) / 2 = x / 2 - (x / 2 &&& m / 2) := by omega
      have hhigh : ((x - (x &&& m)) &&& m) / 2 = 0 := by rw [Nat.and_div_two, hhalf]; exact ih (x / 2) (by omega) (m / 2)
      have hlow : ((x - (x &&& m)) &&& m) % 2 = 1 ↔ (x - (x &&& m)) % 2 = 1 ∧ m % 2 = 1 := Nat.and_mod_two_eq_one
      omega

/-- Every block that I3C reaches is alive in SAFE. -/
theorem safeBlock_of_i3cBlock {off : Nat} (h : i3cBlock off = true) : safeBlock off = true := by
  simp only [i3cBlock, safeBlock, List.contains_iff_mem, List.mem_cons, List.not_mem_nil, or_false] at h ⊢
  omega

/-- What a register read answers with where its block is served. -/
theorem readReg_resp (h : s.hubAlive = true) (who : Requester) {off : Nat} (hsq : sqHalf off = none) (hsafe : safeBlock off = true)
    (hhigh : latchedHigh off = false) : (s.readReg who off).ports.resp = .value (s.peek who off) := by
  simp only [State.readReg, deadBar_of_hubAlive h, hsq, hsafe, hhigh, Bool.false_eq_true, if_false, Bool.not_true, and_false]
  split
  · rfl
  · split <;> rfl

theorem exec_i3cPrivateRead_of_block (hb : i3cBlock s.ports.i3cOff = true) (hlt : s.ports.i3cOff < 0x4000000) :
    exec .i3cPrivateRead s = .next (s.readReg .host s.ports.i3cOff) := congrArg Host.Outcome.next (if_pos ⟨hb, hlt⟩)

theorem exec_tapInstruction_of_taken {i : TapInstr} (h : s.ports.tapFull = true ∨ i = .bypass ∨ i = .idcode) :
    exec (.tapInstruction i) s = .next (if i = .idcode then (s.modPorts (fun p => { p with tapInstr := i, tapReset := false })).answer
      (.value (Config.idcode s.pwr.grade)) else s.modPorts (fun p => { p with tapInstr := i, tapReset := false })) := by
  have hx : exec (.tapInstruction i) s = execTapInstruction i s := rfl
  rw [hx, execTapInstruction, if_pos h]

theorem exec_tapInstruction_of_ignored {i : TapInstr} (h : s.ports.tapFull = false) (hb : i ≠ .bypass) (hi : i ≠ .idcode) :
    exec (.tapInstruction i) s = .next (s.modPorts (fun p => { p with tapReset := false })) := by
  have hx : exec (.tapInstruction i) s = execTapInstruction i s := rfl
  rw [hx, execTapInstruction, if_neg (by rw [h]; simp [hb, hi])]

/-- Settles O41: every command of the management ports is one update of the ports, or the read of a register. -/
theorem managementPorts : Obligations.ManagementPorts := by
  unfold Obligations.ManagementPorts
  intro s data a i hs
  refine ⟨fun hlen => ?_, fun hlen => ?_, fun hb => ?_, ?_, ⟨_, rfl, rfl⟩, ⟨_, rfl, rfl⟩, ⟨_, rfl, ?_⟩, ?_, fun ht => ?_, fun hfull hb hi => ?_,
    ⟨_, rfl, rfl, rfl⟩⟩
  · refine ⟨_, congrArg Host.Outcome.next (if_pos hlen), rfl, fun halive hb hlt hhigh hsq => ?_⟩
    refine ⟨_, exec_i3cPrivateRead_of_block hb hlt, ?_⟩
    refine readReg_resp ?_ .host hsq (safeBlock_of_i3cBlock hb) hhigh
    exact halive
  · exact congrArg Host.Outcome.next (if_neg hlen)
  · exact ⟨_, congrArg Host.Outcome.next (if_neg (by rw [hb]; simp)), rfl⟩
  · rintro c (rfl | rfl) <;> exact ⟨_, rfl, rfl⟩
  · exact sub_land_land_eq_zero s.ports.i3cEvents (a % 256)
  · rintro c (rfl | rfl | rfl | rfl) <;> exact ⟨_, _, rfl, rfl, rfl⟩
  · refine ⟨_, exec_tapInstruction_of_taken ht, ?_, fun hi => ?_⟩
    · split <;> rfl
    · rw [if_pos hi]; rfl
  · exact ⟨_, exec_tapInstruction_of_ignored hfull hb hi, rfl⟩

end Sys2Proof.Machine
end

section
/-!
SUPPORT and PROOFS. Doorbells and posts tried before their acknowledgement (R465, R472).
-/
namespace Sys2Proof.Machine

/-! ## DB_H2F_POLL (R472) -/

/-- READY, a request at the head that is refused, and a post of a HUB_STATUS in host memory that was tried in this hclk before the
acknowledgement of that request. -/
def postTried : State :=
  { State.reset with
    pwr := { Power.reset with mod := .ready },
    mbx := { Mbx.reset with
      reqs := [⟨0, [], true, rcBadRequest, 0⟩],
      h2f := [(0, { H2f.reset with len := 32, space := true, pending := true, tried := some (0, 1, false) })] },
    ports := { Ports.reset with hostMem := [(0, 0x50), (2, 1)] } }

/-- Refutes O29 by its last clause: Prephor's look at DB_H2F answers the refused request at the head, whose acknowledgement lets the post tried
before it take place after all (R465), and that post sets its bit of DB_H2F again. -/
theorem not_mailboxesAndDoorbells : ¬ Obligations.MailboxesAndDoorbells := by
  unfold Obligations.MailboxesAndDoorbells
  intro h
  obtain ⟨-, -, -, -, -, hpoll⟩ := h postTried 0 0 (by unfold State.Inv; decide)
  obtain ⟨u, hu, hzero⟩ := hpoll (by decide)
  have hx : exec .dbH2fPoll postTried = .next ((postTried.modMbx (fun m => { m with dbH2f := 0 })).serveHead) := rfl
  rw [hx] at hu
  rw [← Host.Outcome.next.inj hu] at hzero
  exact absurd hzero (by decide)

end Sys2Proof.Machine
end

section
/-!
SUPPORT and PROOFS. Commands that start and end at an engine: fence signals and waits, chains and NOP (R358 to R363, R367, R372, R376).
-/
namespace Sys2Proof.Machine

variable {s t : State} {c : Cmd}

/-! ## The start of a command (R372) -/

/-- What the start of a command may write. -/
def startWrites (p : Part) : Bool := [Part.halves, .cores, .spad, .engines, .route].contains p

theorem starting_keeps_own (h : Flat s) {e op : Nat} (hx : s.starting e op = some (c, t)) : Keeps False (fun p => startWrites p = true) s t := by
  have : Fact (startWrites .halves = true) := ⟨rfl⟩
  have : Fact (startWrites .cores = true) := ⟨rfl⟩
  have : Fact (startWrites .spad = true) := ⟨rfl⟩
  have : Fact (startWrites .engines = true) := ⟨rfl⟩
  have : Fact (startWrites .route = true) := ⟨rfl⟩
  exact starting_keeps (Keeps.rfl' h) hx

theorem starting_flat (h : Flat s) {e op : Nat} (hx : s.starting e op = some (c, t)) : Flat t := (starting_keeps_own h hx).flat

theorem starting_fences (h : Flat s) {e op : Nat} (hx : s.starting e op = some (c, t)) : t.fences = s.fences ∧ t.fenceSat = s.fenceSat :=
  (starting_keeps_own h hx).same .fences Bool.false_ne_true

theorem starting_fence (h : Flat s) {e op : Nat} (hx : s.starting e op = some (c, t)) (f : Nat) : t.fence f = s.fence f := by
  rw [State.fence, (starting_fences h hx).1]; rfl

/-! ## The end of a command (R368, R372) -/

theorem complete_flat (h : Flat s) (e : Nat) (c : Cmd) (d : Done) : Flat (s.complete e c d) := by
  have _ := anyPart_fact
  exact (complete_keeps (P := False) (W := anyPart) (Keeps.rfl' h) e c d).flat

theorem complete_fences (h : Flat s) (e : Nat) (c : Cmd) (d : Done) :
    (s.complete e c d).fences = s.fences ∧ (s.complete e c d).fenceSat = s.fenceSat := complete_same h e c d .fences rfl

theorem trace_fences (s : State) (a b c d : Nat) (x : Bytes) : (s.trace a b c d x).fences = s.fences ∧ (s.trace a b c d x).fenceSat = s.fenceSat := by
  unfold State.trace
  repeat' split
  all_goals exact ⟨rfl, rfl⟩

theorem trace_flat (h : Flat s) (a b c d : Nat) (x : Bytes) : Flat (s.trace a b c d x) := (trace_keeps (P := False) (W := anyPart) (Keeps.rfl' h) a b c d x).flat

/-- The engine at its boundary: idle, or disabled where a disable request waits (R372, R373). -/
def Engine.bounded (x : Engine) : Engine :=
  if x.st = .disabling then { x with cur := none, st := .disabled, counts := [] } else { x with cur := none, st := .idle }

theorem eng_of_engines {s t : State} (h : t.engines = s.engines) (e : Nat) : t.eng e = s.eng e := by rw [State.eng, h]; rfl

theorem disabled_engines (h : Flat s) (e : Nat) : (s.disabled e).engines = (s.modEng e (fun g => { g with st := .disabled, counts := [] })).engines := by
  have h1 : Flat (s.modEng e (fun g => { g with st := .disabled, counts := [] })) := modEng_flat h e _
  unfold State.disabled
  extract_lets x s1
  split
  · rfl
  · have h2 : Flat (s1.modMbx fun m => { m with bgDisable := m.bgDisable.filter (fun y => y.1 != e) }) := { h1 with }
    have _ := anyPart_fact
    exact (serveHead_engines (reply_keeps (P := False) (W := anyPart) (Keeps.rfl' h2) _ _ _).flat).trans (reply_engines h2 _ _ _)

theorem modHalves_engines (ds : List Nat) (f : State → Nat → Half → Half) (s : State) :
    (s.each ds (fun s d => s.modHalf d (f s d))).engines = s.engines :=
  each_halves_engines ds (fun s d => s.modHalf d (f s d)) (fun _ _ => rfl) s

theorem modHalves_flat (h : Flat s) (ds : List Nat) (f : State → Nat → Half → Half) : Flat (s.each ds (fun s d => s.modHalf d (f s d))) := by
  have _ := anyPart_fact
  exact (each_keeps (P := False) (W := anyPart) _ _ (fun _ _ k => modHalf_keeps k _ _) (Keeps.rfl' h)).flat

/-- At its boundary engine `e` is bounded, and every other engine is as it was. -/
theorem atBoundary_eng (h : Flat s) (e : Nat) : (s.atBoundary e).eng e = (s.eng e).bounded ∧ ∀ x, x ≠ e → (s.atBoundary e).eng x = s.eng x := by
  unfold State.atBoundary
  extract_lets dis s1 s2
  have h1 : Flat s1 := modEng_flat h e _
  have h2 : Flat s2 := modHalves_flat h1 _ _
  have hs2 : s2.engines = s1.engines := modHalves_engines _ _ s1
  have hown : s1.eng e = { s.eng e with cur := none, st := if dis then (s.eng e).st else .idle } := modEng_eng h e _
  have hother : ∀ x, x ≠ e → s1.eng x = s.eng x := fun x hx => eng_setEng_ne s e x _ hx
  by_cases hd : (s.eng e).st = .disabling
  · have hdis : dis = true := by simp only [dis, hd, beq_self_eq_true]
    rw [if_pos hdis]
    refine ⟨?_, fun x hx => ?_⟩
    · rw [eng_of_engines (disabled_engines h2 e), modEng_eng h2, eng_of_engines hs2, hown, Engine.bounded, if_pos hd]
    · rw [eng_of_engines (disabled_engines h2 e), State.modEng, eng_setEng_ne s2 e x _ hx, eng_of_engines hs2, hother x hx]
  · have hdis : ¬dis = true := by simp only [dis, beq_iff_eq, hd, not_false_eq_true]
    rw [if_neg hdis]
    refine ⟨?_, fun x hx => ?_⟩
    · rw [eng_of_engines hs2, hown, if_neg hdis, Engine.bounded, if_neg hd]
    · rw [eng_of_engines hs2, hother x hx]

theorem bounded_waits (x : Engine) : x.bounded.waits = x.waits := by unfold Engine.bounded; split <;> rfl

theorem bounded_cur (x : Engine) : x.bounded.cur = none := by unfold Engine.bounded; split <;> rfl

theorem atBoundary_fences (h : Flat s) (e : Nat) : (s.atBoundary e).fences = s.fences ∧ (s.atBoundary e).fenceSat = s.fenceSat := by
  have : Fact (endWrites .halves = true) := ⟨rfl⟩
  have : Fact (endWrites .data = true) := ⟨rfl⟩
  have : Fact (endWrites .engines = true) := ⟨rfl⟩
  have : Fact (endWrites .host = true) := ⟨rfl⟩
  exact (atBoundary_keeps (P := False) (W := fun p => endWrites p = true) (Keeps.rfl' h) e).same .fences Bool.false_ne_true

/-! ## Fence signals (R362, R376) -/

theorem ofBytes_lt (bs : Bytes) : ofBytes bs < 256 ^ bs.length := by
  induction bs with
  | nil => exact Nat.one_pos
  | cons b bs ih =>
    have := b.isLt
    simp only [ofBytes, List.length_cons, Nat.pow_succ]
    omega

theorem fld_lt (bs : Bytes) (off n : Nat) : fld bs off n < 256 ^ n :=
  Nat.lt_of_lt_of_le (ofBytes_lt _) (Nat.pow_le_pow_right (by decide) (List.length_take_le n _))

theorem fenceValue_lt (d : Bytes) : fenceValue d < 2 ^ 64 := fld_lt d 0x28 8

theorem mem_sput {α : Type} (m : Sparse α) (k : Nat) (v : α) : (k, v) ∈ sput m k v := by
  induction m with
  | nil => exact List.mem_singleton.2 rfl
  | cons x m ih =>
    simp only [sput]
    split
    · exact List.mem_cons_self
    · split
      · exact List.mem_cons_self
      · exact List.mem_cons_of_mem _ ih

/-- An ADD that passes the largest value flags its fence (R376). -/
theorem fenceAdd_flags {f n : Nat} (hn : 2 ^ 64 ≤ (s.fence f).toNat + n) : (f, true) ∈ (s.fenceAdd f n).fenceSat := by
  rw [State.fenceAdd, if_pos hn]
  exact mem_sput s.fenceSat f true

theorem fenceMax_fenceSat (s : State) (f n : Nat) : (s.fenceMax f n).fenceSat = s.fenceSat := by
  unfold State.fenceMax State.event
  dsimp only
  split <;> rfl

/-- The end of a signal leaves the fences as the signal did. -/
theorem signal_end (h : Flat s) (e : Nat) (c : Cmd) (d : Done) (desc : Bytes) :
    (((s.fenceTrace e desc).complete e c d).eng e).cur = none ∧ ((s.fenceTrace e desc).complete e c d).fences = s.fences ∧
      ((s.fenceTrace e desc).complete e c d).fenceSat = s.fenceSat := by
  have ht : Flat (s.fenceTrace e desc) := trace_flat h ..
  have htrace := trace_fences s 3 6 0 e (toBytes 1 (fenceOf desc) ++ toBytes 8 (fenceValue desc))
  exact ⟨complete_cur ht e c d, (complete_fences ht e c d).1.trans htrace.1, (complete_fences ht e c d).2.trans htrace.2⟩

theorem exec_fenceSignalAdd {e : Nat} (hx : s.starting e opSignal = some (c, t)) (h0 : fld c.desc 0x21 1 = 0) :
    exec (.fenceSignalAdd e) s = .next (((t.fenceAdd (fenceOf c.desc) (fenceValue c.desc)).fenceTrace e c.desc).complete e c
      { status := endStatus false (t.fenceFull (fenceOf c.desc) (fenceValue c.desc)) c.replayed }) := by
  have hex : exec (.fenceSignalAdd e) s = execFenceSignalAdd e s := rfl
  rw [hex, execFenceSignalAdd, hx]
  exact congrArg Host.Outcome.next (if_pos h0)

theorem exec_fenceSignalMax {e : Nat} (hx : s.starting e opSignal = some (c, t)) (h1 : fld c.desc 0x21 1 = 1) :
    exec (.fenceSignalMax e) s = .next (((t.fenceMax (fenceOf c.desc) (fenceValue c.desc)).fenceTrace e c.desc).complete e c { status := stOk }) := by
  have hex : exec (.fenceSignalMax e) s = execFenceSignalMax e s := rfl
  rw [hex, execFenceSignalMax, hx]
  exact congrArg Host.Outcome.next (if_pos h1)

theorem fence_of_fences {s t : State} (h : t.fences = s.fences) (f : Nat) : t.fence f = s.fence f := by rw [State.fence, h]; rfl

theorem fenceAdd_engines (s : State) (f n : Nat) : (s.fenceAdd f n).engines = s.engines := by
  unfold State.fenceAdd
  dsimp only
  split
  · exact (event_engines _ _).trans (event_engines _ _)
  · exact event_engines _ _

/-- Settles O18: every signal is an ADD or a MAX of one fence; what ends it writes no fence. -/
theorem fenceSignals : Obligations.FenceSignals := by
  unfold Obligations.FenceSignals
  intro s e hs
  have h : Flat s := (flat_iff s).2 hs
  refine ⟨fun c t hx h0 => ?_, fun c t hx h1 => ?_, fun v hw => ?_⟩
  · have ht := starting_flat h hx
    obtain ⟨hcur, hfences, hsat⟩ := signal_end (fenceAdd_flat ht (fenceOf c.desc) (fenceValue c.desc)) e c
      { status := endStatus false (t.fenceFull (fenceOf c.desc) (fenceValue c.desc)) c.replayed } c.desc
    refine ⟨_, exec_fenceSignalAdd hx h0, hcur, ?_, fun hfull => ?_, fun f hf => ?_⟩
    · rw [fence_of_fences hfences, fenceAdd_fence_same ht, starting_fence h hx]
    · rw [hsat]; exact fenceAdd_flags (by rw [starting_fence h hx]; exact hfull)
    · rw [fence_of_fences hfences, fenceAdd_fence_ne _ hf, starting_fence h hx]
  · have ht := starting_flat h hx
    obtain ⟨hcur, hfences, hsat⟩ := signal_end (fenceMax_flat ht (fenceOf c.desc) (fenceValue c.desc)) e c { status := stOk } c.desc
    refine ⟨_, exec_fenceSignalMax hx h1, hcur, ?_, ?_, fun f hf => ?_⟩
    · rw [fence_of_fences hfences, fenceMax_fence_same ht, starting_fence h hx, Nat.mod_eq_of_lt (fenceValue_lt _)]
    · rw [hsat, fenceMax_fenceSat, (starting_fences h hx).2]
    · rw [fence_of_fences hfences, fenceMax_fence_ne _ hf, starting_fence h hx]
  · have htrace (f : Nat) : (s.fenceWrite v).fence f = (s.fenceAdd (v.toNat % 256) (v.toNat / 256)).fence f := fence_of_fences (trace_fences ..).1 f
    refine ⟨_, congrArg Host.Outcome.next (onWrite_of_writable hw _), ?_, rfl, ?_, fun f hf => ?_⟩
    · exact (trace_engines ..).trans (fenceAdd_engines ..)
    · exact (congrArg BitVec.toNat (htrace _)).trans (fenceAdd_fence_same h _ _)
    · exact (htrace f).trans (fenceAdd_fence_ne _ hf)

/-! ## Waits, chains and NOP (R358, R363, R367) -/

theorem exec_fenceWait {e : Nat} (hx : s.starting e opWait = some (c, t)) : exec (.fenceWait e) s = .next
    (if t.fenceMet (fenceOf c.desc) (fenceValue c.desc) then (t.fenceTrace e c.desc).complete e c { status := stOk }
      else ((t.fenceTrace e c.desc).modEng e (fun x => { x with waits := x.waits ++ [⟨c, fenceOf c.desc, fenceValue c.desc⟩] })).atBoundary e) := by
  have hex : exec (.fenceWait e) s = execFenceWait e s := rfl
  rw [hex, execFenceWait, hx]

theorem fenceMet_starting (h : Flat s) {e op : Nat} (hx : s.starting e op = some (c, t)) (f v : Nat) : t.fenceMet f v = s.fenceMet f v := by
  rw [State.fenceMet, starting_fence h hx, State.fenceMet]

/-- A wait whose fence has not come to its value parks, its engine at a boundary. -/
theorem park_parks (h : Flat s) (e : Nat) (p : Parked) (desc : Bytes) :
    let u := ((s.fenceTrace e desc).modEng e (fun x => { x with waits := x.waits ++ [p] })).atBoundary e
    (u.eng e).cur = none ∧ u.fences = s.fences ∧ p ∈ (u.eng e).waits := by
  intro u
  have ht : Flat (s.fenceTrace e desc) := trace_flat h ..
  have hm : Flat ((s.fenceTrace e desc).modEng e (fun x => { x with waits := x.waits ++ [p] })) := modEng_flat ht e _
  refine ⟨atBoundary_cur hm e, (atBoundary_fences hm e).1.trans (trace_fences s ..).1, ?_⟩
  rw [(atBoundary_eng hm e).1, bounded_waits, modEng_eng ht]
  exact List.mem_append_right _ (List.mem_singleton.2 rfl)

theorem exec_fence {e k : Nat} {w : Parked} (hlive : s.live = true)
    (hw : (s.eng e).waits.find? (fun w => s.fenceMet w.fence w.value && s.clears (.fenceUp w.fence) &&
      (if k < 32 then (s.slot k).queue == some w.cmd.queue else (s.queue w.cmd.queue).slot.isNone)) = some w) :
    exec (.fence e k) s = .next ((s.dropWait e w).postRecord e w.cmd { status := stOk }).endDestroys := by
  have hex : exec (.fence e k) s = execFence e k s := rfl
  rw [hex, execFence, hw]
  exact congrArg Host.Outcome.next (if_pos hlive)

theorem postRecord_flat (h : Flat s) (e : Nat) (c : Cmd) (d : Done) : Flat (s.postRecord e c d) := by
  have _ := anyPart_fact
  exact (postRecord_keeps (P := False) (W := anyPart) (Keeps.rfl' h) e c d).flat

theorem endDestroys_flat (h : Flat s) : Flat s.endDestroys := by
  have _ := anyPart_fact
  exact (endDestroys_keeps (P := False) (W := anyPart) (Keeps.rfl' h)).flat

theorem posted_fences (h : Flat s) (e : Nat) (c : Cmd) (d : Done) : (s.postRecord e c d).endDestroys.fences = s.fences := by
  have : Fact (endWrites .img = true) := ⟨rfl⟩
  have : Fact (endWrites .data = true) := ⟨rfl⟩
  have : Fact (endWrites .engines = true) := ⟨rfl⟩
  have : Fact (endWrites .queues = true) := ⟨rfl⟩
  have : Fact (endWrites .slots = true) := ⟨rfl⟩
  have : Fact (endWrites .per = true) := ⟨rfl⟩
  have : Fact (endWrites .host = true) := ⟨rfl⟩
  have hk : Keeps False (fun p => endWrites p = true) s (s.postRecord e c d).endDestroys :=
    endDestroys_keeps (postRecord_keeps (Keeps.rfl' h) e c d)
  exact (hk.same .fences Bool.false_ne_true).1

/-- The end of a parked wait takes it from its engine and leaves every command and fence alone. -/
theorem wait_ends (h : Flat s) (e : Nat) (w : Parked) :
    let u := ((s.dropWait e w).postRecord e w.cmd { status := stOk }).endDestroys
    w ∉ (u.eng e).waits ∧ u.fences = s.fences ∧ ∀ x, (u.eng x).cur = (s.eng x).cur := by
  intro u
  have hd : Flat (s.dropWait e w) := modEng_flat h e _
  have hsame : engSame (s.dropWait e w) u := (postRecord_engSame hd e w.cmd _).trans (endDestroys_engSame (postRecord_flat hd e w.cmd _))
  refine ⟨?_, posted_fences hd e w.cmd _, fun x => (hsame x).2.1.trans ?_⟩
  · rw [(hsame e).1, State.dropWait, modEng_eng h]
    simp
  · rcases eq_or_ne x e with rfl | hx
    · rw [State.dropWait, modEng_eng h]
    · rw [State.dropWait, State.modEng, eng_setEng_ne s e x _ hx]

/-- What an arming CHAIN leaves: its slot ARMED with the descriptor it read, and the trace of it (R358). -/
def State.chainArmed (s : State) (c : Cmd) : State :=
  (s.setChain (fld c.desc 0x20 1) (fld c.desc 0x21 1) ⟨.armed, s.devBytes (fld c.desc 0x28 8) 64, c.queue, c.seq⟩).trace 4 7 0 (fld c.desc 0x20 1)
    (toBytes 1 (fld c.desc 0x21 1) ++ toBytes 1 0)

theorem chainArmed_chainSlot (h : Flat s) (c : Cmd) : (s.chainArmed c).chainSlot (fld c.desc 0x20 1) (fld c.desc 0x21 1) =
    ⟨.armed, s.devBytes (fld c.desc 0x28 8) 64, c.queue, c.seq⟩ := by
  have hne : (⟨.armed, s.devBytes (fld c.desc 0x28 8) 64, c.queue, c.seq⟩ : ChainSlot) ≠ ChainSlot.reset := fun he =>
    ChainSt.noConfusion (congrArg ChainSlot.st he)
  rw [State.chainSlot, State.chainArmed, eng_of_engines (trace_engines ..), State.setChain, modEng_eng h]
  dsimp only
  rw [sset, if_neg hne, sget_sput_same]

theorem chainArmed_flat (h : Flat s) (c : Cmd) : Flat (s.chainArmed c) := trace_flat (modEng_flat h _ _) ..

theorem armChain_chainArmed {e : Nat} (htakes : s.takesChain (fld c.desc 0x20 1) = true)
    (hempty : (s.chainSlot (fld c.desc 0x20 1) (fld c.desc 0x21 1)).st = .empty) (hread : s.firstFail (fld c.desc 0x28 8) 64 false false = none)
    (hdesc : checkDesc (kindOf (fld c.desc 0x20 1)) (s.queue c.queue).cls (s.devBytes (fld c.desc 0x28 8) 64) = none) :
    s.armChain e c = ({ status := stOk }, s.chainArmed c) := by
  simp only [State.armChain, htakes, hempty, hread, hdesc, Bool.not_true, Bool.false_eq_true, if_false, ne_eq, not_true_eq_false]
  rfl

/-- Settles O19: a wait completes or parks by its fence; a FENCE takes one parked wait away; CHAIN arms its slot and ends; NOP ends. -/
theorem waitsChainsAndNopComplete : Obligations.WaitsChainsAndNopComplete := by
  unfold Obligations.WaitsChainsAndNopComplete
  refine ⟨fun s e hs => ⟨fun c t hx hmet => ?_, fun c t hx hlow => ?_, fun k w hlive hw => ?_⟩, fun s t e c hs => ⟨fun hx htakes hempty hread hdesc hasks => ?_, fun hx => ?_⟩⟩ <;>
    have h : Flat s := (flat_iff s).2 hs
  · have hcond : t.fenceMet (fenceOf c.desc) (fenceValue c.desc) = true := by
      rw [fenceMet_starting h hx, State.fenceMet, decide_eq_true_eq]; exact hmet
    obtain ⟨hcur, hfences, -⟩ := signal_end (starting_flat h hx) e c { status := stOk } c.desc
    exact ⟨_, (exec_fenceWait hx).trans (congrArg Host.Outcome.next (if_pos hcond)), hcur, hfences.trans (starting_fences h hx).1⟩
  · have hcond : ¬t.fenceMet (fenceOf c.desc) (fenceValue c.desc) = true := by
      rw [fenceMet_starting h hx, State.fenceMet, decide_eq_true_eq]; exact Nat.not_le.2 hlow
    obtain ⟨hcur, hfences, hmem⟩ := park_parks (starting_flat h hx) e ⟨c, fenceOf c.desc, fenceValue c.desc⟩ c.desc
    exact ⟨_, (exec_fenceWait hx).trans (congrArg Host.Outcome.next (if_neg hcond)), hcur, hfences.trans (starting_fences h hx).1, hmem⟩
  · exact ⟨_, exec_fence hlive hw, wait_ends h e w⟩
  · have ht := starting_flat h hx
    refine ⟨t.chainArmed c, ?_, chainArmed_chainSlot ht c, complete_cur (chainArmed_flat ht c) e c _⟩
    have hex : exec (.chain e) s = execChain e s := rfl
    rw [hex, execChain, hx]
    dsimp only
    rw [hasks, Option.getD_none, armChain_chainArmed htakes hempty hread hdesc]
  · refine ⟨?_, complete_cur (starting_flat h hx) e c _⟩
    have hex : exec (.nop e) s = execNop e s := rfl
    rw [hex, execNop, hx]

end Sys2Proof.Machine
end

section
/-!
SUPPORT and PROOFS. Queues and slots: the registers of a queue, accounting windows, mapping points, handovers and repair windows (R382, R385 to R388,
R390, R425, R506).
-/
namespace Sys2Proof.Machine

variable {s t : State} {e k n q : Nat}

/-! ## Queues (R382, R387, R388) -/

theorem modQueue_flat (h : Flat s) (n : Nat) (f : Queue → Queue) : Flat (s.modQueue n f) :=
  { h with queues := swf_sset Queue.reset s.queues n (f (s.queue n)) h.queues }

theorem modQueue_queue_same (h : Flat s) (n : Nat) (f : Queue → Queue) : (s.modQueue n f).queue n = f (s.queue n) :=
  queue_setQueue_same s n _ h.queues

theorem modQueue_queue_ne (s : State) {n q : Nat} (f : Queue → Queue) (hq : q ≠ n) : (s.modQueue n f).queue q = s.queue q :=
  queue_setQueue_ne s n q _ hq

theorem queue_of_queues {s t : State} (h : t.queues = s.queues) (q : Nat) : t.queue q = s.queue q := by rw [State.queue, h]; rfl

theorem event_queues (s : State) (b : EventBit) : (s.event b).queues = s.queues := by unfold State.event; split <;> rfl

/-- How far ahead of its head a tail write puts the tail of a queue (R382). -/
def Queue.ahead (q : Queue) (v : Nat) : Nat := (v + 2 ^ 32 - q.head % 2 ^ 32) % 2 ^ 32

theorem setTail_eq_refused {v : Nat} (hv : 2 ^ (s.queue n).descLog2 < (s.queue n).ahead v) :
    s.setTail n v = (s.setQueue n { s.queue n with badTail := true }).event (.badTail n) := if_pos hv

theorem setTail_eq_taken {v : Nat} (hv : (s.queue n).ahead v ≤ 2 ^ (s.queue n).descLog2) : ∃ st, s.setTail n v =
    s.setQueue n { s.queue n with tail := (s.queue n).head + (s.queue n).ahead v, st := st } := ⟨_, if_neg (Nat.not_lt.2 hv)⟩

theorem setTail_refused (h : Flat s) {v : Nat} (hv : 2 ^ (s.queue n).descLog2 < (s.queue n).ahead v) :
    (s.setTail n v).queue n = { s.queue n with badTail := true } := by
  rw [setTail_eq_refused hv, queue_of_queues (event_queues _ _)]
  exact queue_setQueue_same s n _ h.queues

theorem setTail_taken (h : Flat s) {v : Nat} (hv : (s.queue n).ahead v ≤ 2 ^ (s.queue n).descLog2) :
    ∃ st, (s.setTail n v).queue n = { s.queue n with tail := (s.queue n).head + (s.queue n).ahead v, st := st } := by
  obtain ⟨st, heq⟩ := setTail_eq_taken hv
  exact ⟨st, heq ▸ queue_setQueue_same s n _ h.queues⟩

theorem setTail_queue_ne (s : State) {n q : Nat} (v : Nat) (hq : q ≠ n) : (s.setTail n v).queue q = s.queue q := by
  rcases Nat.lt_or_ge (2 ^ (s.queue n).descLog2) ((s.queue n).ahead v) with hv | hv
  · rw [setTail_eq_refused hv, queue_of_queues (event_queues _ _), queue_setQueue_ne _ _ _ _ hq]
  · obtain ⟨st, heq⟩ := setTail_eq_taken hv
    rw [heq, queue_setQueue_ne _ _ _ _ hq]

theorem setTail_engines (s : State) (n v : Nat) : (s.setTail n v).engines = s.engines := by
  rcases Nat.lt_or_ge (2 ^ (s.queue n).descLog2) ((s.queue n).ahead v) with hv | hv
  · rw [setTail_eq_refused hv, event_engines, setQueue_engines]
  · obtain ⟨st, heq⟩ := setTail_eq_taken hv
    rw [heq, setQueue_engines]

theorem setTail_head (h : Flat s) (n v : Nat) : ((s.setTail n v).queue n).head = (s.queue n).head := by
  rcases Nat.lt_or_ge (2 ^ (s.queue n).descLog2) ((s.queue n).ahead v) with hv | hv
  · rw [setTail_refused h hv]
  · obtain ⟨st, hst⟩ := setTail_taken h hv
    rw [hst]

theorem setTail_engine (h : Flat s) (n v : Nat) : ((s.setTail n v).queue n).engine = (s.queue n).engine := by
  rcases Nat.lt_or_ge (2 ^ (s.queue n).descLog2) ((s.queue n).ahead v) with hv | hv
  · rw [setTail_refused h hv]
  · obtain ⟨st, hst⟩ := setTail_taken h hv
    rw [hst]

/-- What a tail write notes of itself for a fetch of its hclk changes no queue and no engine (R383). -/
def State.noteTail (s : State) (xs : List TailWrite) : State := { s with tails := xs }

theorem noteTail_queue (s : State) (xs : List TailWrite) (q : Nat) : (s.noteTail xs).queue q = s.queue q := queue_of_queues rfl q

theorem noteTail_eng (s : State) (xs : List TailWrite) (e : Nat) : (s.noteTail xs).eng e = s.eng e := eng_of_engines rfl e

theorem answer_queue (s : State) (r : Resp) (q : Nat) : (s.answer r).queue q = s.queue q := queue_of_queues rfl q

theorem writeTail_of_taken {v : Nat} (hn : n < 504) (hfree : (s.queue n).st ≠ .free) (hdest : (s.queue n).st ≠ .destroying) :
    s.writeTail n v = (s.setTail n v).noteTail (s.tails ++ [⟨n, (s.queue n).tail, (s.queue n).badTail, v⟩]) := by
  have hcond : ¬((s.queue n).st = .free ∨ (s.queue n).st = .destroying ∨ 504 ≤ n) := by
    rintro (hc | hc | hc)
    · exact hfree hc
    · exact hdest hc
    · omega
  exact if_neg hcond

/-- The tail register of a queue in use: the write itself, where no disabled engine has to report (R373, R383). -/
theorem exec_feQTail (h : Flat s) {v : Word} (hw : s.writable (0x102000 + 4 * n) = true) (hn : n < 504) (hfree : (s.queue n).st ≠ .free)
    (hdest : (s.queue n).st ≠ .destroying) (h1 : (s.eng (s.queue n).engine).st ≠ .disabled) (h2 : (s.eng (s.queue n).engine).st ≠ .disabling) :
    exec (.feQTail n v) s =
      .next (((s.setTail n v.toNat).noteTail (s.tails ++ [⟨n, (s.queue n).tail, (s.queue n).badTail, v.toNat⟩])).answer .none) := by
  have hx : exec (.feQTail n v) s = execFeQTail n v s := rfl
  have heng : (s.writeTail n v.toNat).eng ((s.writeTail n v.toNat).queue n).engine = s.eng (s.queue n).engine := by
    rw [writeTail_of_taken hn hfree hdest, noteTail_queue, noteTail_eng, setTail_engine h, eng_of_engines (setTail_engines s n v.toNat)]
  rw [hx, execFeQTail, onWrite_of_writable hw, reportQueue_of_enabled (heng ▸ h1) (heng ▸ h2), writeTail_of_taken hn hfree hdest]

theorem unmapped_not_stopped (x : Queue) : x.unmapped ≠ .halted ∧ x.unmapped ≠ .faulted := by unfold Queue.unmapped; split <;> decide

/-- Settles O26: a tail write sets the tail or BAD_TAIL of its queue, and RESUME the state of its queue. -/
theorem queueRegisters : Obligations.QueueRegisters := by
  unfold Obligations.QueueRegisters
  intro s n v hs
  have h : Flat s := (flat_iff s).2 hs
  refine ⟨fun hw hn hfree hdest h1 h2 => ?_, fun who hw hv hsel => ?_⟩
  · refine ⟨_, exec_feQTail h hw hn hfree hdest h1 h2, ?_⟩
    simp only [answer_queue, noteTail_queue]
    refine ⟨fun m hm => setTail_queue_ne s v.toNat hm, setTail_head h n v.toNat, fun htake => ?_, fun hrefuse => setTail_refused h hrefuse⟩
    obtain ⟨st, hst⟩ := setTail_taken h htake
    have htail : ((s.setTail n v.toNat).queue n).tail = (s.queue n).head + (s.queue n).ahead v.toNat := by rw [hst]
    have hbad : ((s.setTail n v.toNat).queue n).badTail = (s.queue n).badTail := by rw [hst]
    exact ⟨htail, hbad⟩
  · refine ⟨_, congrArg Host.Outcome.next (onWrite_of_writable hw _), ?_⟩
    rw [if_pos hv, ← hsel]
    have hsame := modQueue_queue_same h n (fun q =>
      if q.st = .halted ∨ q.st = .faulted then { q with st := if q.slot.isSome then .mapped else q.unmapped } else q)
    have hq : ((s.resumeQueue n).answer .none).queue n = if (s.queue n).st = .halted ∨ (s.queue n).st = .faulted then
        { s.queue n with st := if (s.queue n).slot.isSome then .mapped else (s.queue n).unmapped } else s.queue n := hsame
    refine ⟨fun m hm => modQueue_queue_ne s _ hm, ?_⟩
    rw [hq]
    by_cases hst : (s.queue n).st = .halted ∨ (s.queue n).st = .faulted
    · rw [if_pos hst]
      have hun := unmapped_not_stopped (s.queue n)
      cases hslot : (s.queue n).slot.isSome
      · exact ⟨rfl, rfl, hun.1, hun.2, nofun⟩
      · exact ⟨rfl, rfl, nofun, nofun, fun _ _ => rfl⟩
    · rw [if_neg hst]
      exact ⟨rfl, rfl, fun hh => hst (.inl hh), fun hf => hst (.inr hf), fun hc => absurd hc hst⟩

end Sys2Proof.Machine
end

section
/-!
SUPPORT and PROOFS. The drain's arithmetic: special rows and the codes of the signed formats (R109, R115, R116).
-/
namespace Sys2Proof.Machine

/-! ## The largest and the smallest of a row -/

/-- The step of `maxVal`. -/
def larger (a b : Nat) : Nat := if key32 a < key32 b then b else a

/-- The step of `minVal`. -/
def smaller (a b : Nat) : Nat := if key32 b < key32 a then b else a

theorem key32_larger (a b : Nat) : key32 a ≤ key32 (larger a b) ∧ key32 b ≤ key32 (larger a b) := by
  unfold larger; split <;> omega

theorem key32_smaller (a b : Nat) : key32 (smaller a b) ≤ key32 a ∧ key32 (smaller a b) ≤ key32 b := by
  unfold smaller; split <;> omega

theorem le_foldl_larger (xs : List Nat) (a : Nat) :
    key32 a ≤ key32 (xs.foldl larger a) ∧ ∀ x ∈ xs, key32 x ≤ key32 (xs.foldl larger a) := by
  induction xs generalizing a with
  | nil => simp
  | cons b xs ih =>
    have hab := key32_larger a b
    have hstep := ih (larger a b)
    simp only [List.foldl_cons, List.mem_cons, forall_eq_or_imp]
    exact ⟨hab.1.trans hstep.1, hab.2.trans hstep.1, hstep.2⟩

theorem foldl_smaller_le (xs : List Nat) (a : Nat) :
    key32 (xs.foldl smaller a) ≤ key32 a ∧ ∀ x ∈ xs, key32 (xs.foldl smaller a) ≤ key32 x := by
  induction xs generalizing a with
  | nil => simp
  | cons b xs ih =>
    have hab := key32_smaller a b
    have hstep := ih (smaller a b)
    simp only [List.foldl_cons, List.mem_cons, forall_eq_or_imp]
    exact ⟨hstep.1.trans hab.1, hstep.1.trans hab.2, hstep.2⟩

theorem key32_le_maxVal {vs : List Nat} {v : Nat} (h : v ∈ vs) : key32 v ≤ key32 (maxVal vs) := by
  cases vs with
  | nil => cases h
  | cons x xs =>
    have hfold := le_foldl_larger xs x
    rcases List.mem_cons.1 h with rfl | h
    · exact hfold.1
    · exact hfold.2 v h

theorem minVal_le_key32 {vs : List Nat} {v : Nat} (h : v ∈ vs) : key32 (minVal vs) ≤ key32 v := by
  cases vs with
  | nil => cases h
  | cons x xs =>
    have hfold := foldl_smaller_le xs x
    rcases List.mem_cons.1 h with rfl | h
    · exact hfold.1
    · exact hfold.2 v h

theorem maxVal_replicate (n v : Nat) : maxVal (List.replicate (n + 1) v) = v := by
  have hfold : ∀ n, (List.replicate n v).foldl larger v = v := by
    intro n
    induction n with
    | zero => rfl
    | succ n ih => rw [List.replicate_succ, List.foldl_cons, larger, if_neg (lt_irrefl _), ih]
  exact hfold n

theorem minVal_replicate (n v : Nat) : minVal (List.replicate (n + 1) v) = v := by
  have hfold : ∀ n, (List.replicate n v).foldl smaller v = v := by
    intro n
    induction n with
    | zero => rfl
    | succ n ih => rw [List.replicate_succ, List.foldl_cons, smaller, if_neg (lt_irrefl _), ih]
  exact hfold n

theorem key32_eq_zero {v : Nat} (h : mag32 v = 0) : key32 v = 0 := by
  unfold key32
  rw [h]
  split <;> rfl

/-! ## Special rows (R115, R116) -/

theorem specialRow_of_zero {vs : List Nat} (h : ∀ v ∈ vs, mag32 v = 0) : specialRow vs = some (rfZero, one32, 0) :=
  if_pos (List.all_eq_true.2 fun v hv => decide_eq_true (h v hv))

theorem specialRow_of_one_value {vs : List Nat} {v : Nat} (hlen : 2 ≤ vs.length) (h : ∀ x ∈ vs, x = v) (hv : mag32 v ≠ 0) :
    specialRow vs = some (rfDegen, minNormal, v) := by
  have hrep : vs = List.replicate (vs.length - 1 + 1) v := by
    rw [Nat.sub_add_cancel (by omega)]
    exact List.eq_replicate_iff.2 ⟨rfl, h⟩
  have hmax : maxVal vs = v := by rw [hrep, maxVal_replicate]
  have hmin : minVal vs = v := by rw [hrep, minVal_replicate]
  have hall : vs.all (fun v => mag32 v = 0) = false := by
    rw [hrep, List.replicate_succ, List.all_cons, decide_eq_false hv, Bool.false_and]
  unfold specialRow
  rw [hall, if_neg Bool.false_ne_true, if_pos ⟨hlen, by rw [hmax, hmin]⟩, hmax]

theorem specialRow_of_two_values {vs : List Nat} {v w : Nat} (hv : v ∈ vs) (hw : w ∈ vs) (hlt : key32 v < key32 w) : specialRow vs = none := by
  have hall : ¬ vs.all (fun v => mag32 v = 0) = true := by
    intro hall
    have hzero : ∀ x ∈ vs, key32 x = 0 := fun x hx => key32_eq_zero (of_decide_eq_true (List.all_eq_true.1 hall x hx))
    rw [hzero v hv, hzero w hw] at hlt
    exact lt_irrefl _ hlt
  have hne : ¬ (2 ≤ vs.length ∧ key32 (minVal vs) = key32 (maxVal vs)) := by
    rintro ⟨-, heq⟩
    have := minVal_le_key32 hv
    have := key32_le_maxVal hw
    omega
  exact (if_neg hall).trans (if_neg hne)

/-! ## Codes of the signed formats (R109) -/

/-- The clamp of R109 keeps a signed code off the most negative value of its `n` bits. -/
theorem unsigned_clamp_ne {n k : Nat} (hk : 2 ^ n = 2 * k) (h0 : 0 < k) (x : Int) :
    unsigned n (max (1 - (k : Int)) (min x ((k : Int) - 1))) ≠ k := by
  have hc : 1 - (k : Int) ≤ max (1 - (k : Int)) (min x ((k : Int) - 1)) ∧ max (1 - (k : Int)) (min x ((k : Int) - 1)) ≤ (k : Int) - 1 := by omega
  generalize max (1 - (k : Int)) (min x ((k : Int) - 1)) = c at hc
  unfold unsigned
  rw [hk]
  rcases le_or_gt 0 c with hpos | hneg
  · rw [Int.emod_eq_of_lt hpos (by omega)]
    omega
  · rw [← Int.add_emod_right, Int.emod_eq_of_lt (by omega) (by omega)]
    omega

theorem outCode_int4_ne (fb mode fixed : Nat) (table : List Nat) (r v : Nat) (hf : fmtOf fb = 0) : (outCode fb mode fixed table r v).1 ≠ 8 := by
  unfold outCode
  rw [hf]
  split
  · decide
  · exact unsigned_clamp_ne (n := 4) (k := 8) rfl (by decide) _

theorem outCode_int8_ne (fb mode fixed : Nat) (table : List Nat) (r v : Nat) (hf : fmtOf fb = 2) : (outCode fb mode fixed table r v).1 ≠ 128 := by
  unfold outCode
  rw [hf]
  split
  · decide
  · exact unsigned_clamp_ne (n := 8) (k := 128) rfl (by decide) _

/-- Settles O51: a row's largest and smallest values bound all of its values, and the clamp of a signed code is symmetric. -/
theorem drainArithmetic : Obligations.DrainArithmetic := by
  unfold Obligations.DrainArithmetic
  exact ⟨fun _ => specialRow_of_zero, fun _ _ => specialRow_of_one_value, fun _ _ _ => specialRow_of_two_values, outCode_int4_ne, outCode_int8_ne⟩

end Sys2Proof.Machine
end

section
/-!
SUPPORT and PROOFS. What the recorder and the trace writer count; Nolonlink's lanes and training (R436, R437, R441, R442, R462, R524).
-/
namespace Sys2Proof.Machine

variable {s t : State} {g : Grp} {i k p : Nat}

/-! ## The counters of the recorder and the trace writer

They are counters 2 to 4 of the hub's group (R540, R543, R548); an index that is none of theirs modulo 32 names another counter in every group. -/

/-- Counter index `k` is none of the recorder's. -/
def OtherIndex (k : Nat) : Prop := k % 32 < 2 ∨ 4 < k % 32

theorem OtherIndex.off_ne (hk : OtherIndex k) (g : Grp) (i : Nat) {j : Nat} (hj : 2 ≤ j) (hj' : j ≤ 4) : pmonOff g i k ≠ pmonOff .hub 2 j := by
  unfold OtherIndex at hk
  unfold pmonOff
  cases g <;> simp only [Grp.base] <;> omega

theorem OtherIndex.bump (hk : OtherIndex k) (s : State) (g : Grp) (i : Nat) {j : Nat} (hj : 2 ≤ j) (hj' : j ≤ 4) :
    (s.bump .hub 2 j).count g i k = s.count g i k := count_bumpBy_ne s .hub 2 j 1 g i k (hk.off_ne g i hj hj')

theorem count_of_pmon (h : t.pmon = s.pmon) (g : Grp) (i k : Nat) : t.count g i k = s.count g i k := by rw [State.count, h]; rfl

theorem OtherIndex.trace (hk : OtherIndex k) (s : State) (a b c d x g i) : (s.trace a b c d x).count g i k = s.count g i k := by
  unfold State.trace
  split
  · split
    · exact hk.bump _ g i (by decide) (by decide)
    · rfl
  · rfl

@[simp] theorem msix_pmon (s : State) (v : Nat) : (s.msix v).pmon = s.pmon := by unfold State.msix; split <;> rfl

@[simp] theorem event_pmon (s : State) (b : EventBit) : (s.event b).pmon = s.pmon := by unfold State.event; split <;> rfl

@[simp] theorem ringHost_pmon (s : State) (i : Nat) : (s.ringHost i).pmon = s.pmon := by
  unfold State.ringHost
  dsimp only
  split
  · rw [event_pmon]; rfl
  · rw [msix_pmon, event_pmon]; rfl

@[simp] theorem inBand_pmon (s : State) (b : Nat) : (s.inBand b).pmon = s.pmon := by unfold State.inBand; split <;> rfl

@[simp] theorem startFlush_pmon (s : State) : (s.startFlush).pmon = s.pmon := by
  unfold State.startFlush
  split
  · rfl
  · split <;> rfl

theorem OtherIndex.raiseBy (hk : OtherIndex k) (s : State) (ev dom arg n g i) : (s.raiseBy ev dom arg n).count g i k = s.count g i k := by
  unfold State.raiseBy
  extract_lets id sev trig off regs s0 pl s1 s2 s3
  have h1 : s1.count g i k = s.count g i k := by
    refine count_of_pmon ?_ g i k
    show s0.pmon = s.pmon
    simp only [s0]
    split <;> rfl
  have h2 : s2.count g i k = s.count g i k := by
    simp only [s2]
    split
    · exact (hk.trace ..).trans h1
    · exact (hk.trace ..).trans h1
    · exact (hk.bump _ g i (by decide) (by decide)).trans h1
  have h3 : s3.count g i k = s.count g i k := (count_of_pmon (by simp only [s3, inBand_pmon, ringHost_pmon]) g i k).trans h2
  split
  · rfl
  · split
    · exact hk.bump _ g i (by decide) (by decide)
    · split
      · split
        · exact h3
        · exact (count_of_pmon (startFlush_pmon s3) g i k).trans h3
      · exact h2

theorem OtherIndex.raise (hk : OtherIndex k) (s : State) (ev dom arg g i) : (s.raise ev dom arg).count g i k = s.count g i k := hk.raiseBy s ev dom arg 1 g i

theorem OtherIndex.traceLink (hk : OtherIndex k) (s : State) (port what rest g i) : (s.traceLink port what rest).count g i k = s.count g i k :=
  hk.trace s _ _ _ _ _ g i

/-! ## What events and trace records leave alone -/

theorem raise_same (h : Flat s) (ev : Ev) (dom arg : Nat) (q : Part) : q.same s (s.raise ev dom arg) :=
  (raise_keeps (P := False) (W := fun _ => False) (Keeps.rfl' h) ev dom arg).same q not_false

theorem raise_flat (h : Flat s) (ev : Ev) (dom arg : Nat) : Flat (s.raise ev dom arg) :=
  (raise_keeps (P := False) (W := fun _ => False) (Keeps.rfl' h) ev dom arg).flat

theorem traceLink_same (h : Flat s) (port what : Nat) (rest : Bytes) (q : Part) : q.same s (s.traceLink port what rest) :=
  (traceLink_keeps (P := False) (W := fun _ => False) (Keeps.rfl' h) port what rest).same q not_false

theorem bump_flat (h : Flat s) (g : Grp) (i k : Nat) : Flat (s.bump g i k) :=
  (bump_keeps (P := False) (W := fun _ => False) (Keeps.rfl' h) g i k).flat

theorem count_bump_same (h : Flat s) (g : Grp) (i k : Nat) : (s.bump g i k).count g i k = (s.count g i k + 1) % 2 ^ 48 :=
  count_bumpBy_same s g i k 1 h.pmon

/-! ## Links -/

theorem modLink_flat (h : Flat s) (p : Nat) (f : LinkPort → LinkPort) : Flat (s.modLink p f) :=
  { h with links := swf_sset LinkPort.reset s.links p (f (s.link p)) h.links }

theorem modLink_link (h : Flat s) (p : Nat) (f : LinkPort → LinkPort) : (s.modLink p f).link p = f (s.link p) := link_setLink_same s p _ h.links

theorem link_of_links (h : t.links = s.links) (p : Nat) : t.link p = s.link p := by rw [State.link, h]; rfl

/-! ## Lane maps (R441) -/

theorem laneFor_getLsbD (m : BitVec 108) (i j k : Nat) (hk : k < 108) :
    (laneFor m i j).getLsbD k = (m.getLsbD k && decide (i ≠ k) || decide (j = k)) := by
  simp only [laneFor, BitVec.getLsbD_or, BitVec.getLsbD_and, BitVec.getLsbD_not, BitVec.getLsbD_ofNat, Nat.testBit_two_pow, hk, decide_true, Bool.true_and,
    decide_not]

theorem laneFor_old (m : BitVec 108) {i j : Nat} (hi : i < 108) (hij : i ≠ j) : (laneFor m i j).getLsbD i = false := by
  rw [laneFor_getLsbD m i j i hi, decide_eq_false hij.symm]
  simp

theorem laneFor_new (m : BitVec 108) {i j : Nat} (hj : j < 108) : (laneFor m i j).getLsbD j = true := by
  rw [laneFor_getLsbD m i j j hj, decide_eq_true rfl, Bool.or_true]

/-! ## A lane swap (R441) -/

theorem program_pmon (s : State) (a : Nat) (bs : Bytes) : (s.program a bs).pmon = s.pmon := rfl

theorem journalAppend_pmon (s : State) (o : Bytes) : (s.journalAppend o).pmon = s.pmon := by
  unfold State.journalAppend
  extract_lets a n s1 s2 s3
  show s3.pmon = s.pmon
  rw [program_pmon, program_pmon, program_pmon]

theorem OtherIndex.recordPatch (hk : OtherIndex k) (s : State) (o : Bytes) (img : Image) (g i) : (s.recordPatch o img).count g i k = s.count g i k := by
  unfold State.recordPatch
  split
  · rw [hk.raise]
    exact count_of_pmon (journalAppend_pmon s o) g i k
  · rw [hk.raise]
    rfl

/-- The parts that a lane map's patch writes. -/
def laneWrites (p : Part) : Bool := [Part.img, .hub, .flash].contains p

theorem ownLane_keeps_own (h : Flat s) (port : Nat) (m : BitVec 108) : Keeps False (fun p => laneWrites p = true) s (s.ownLane port m) := by
  have : Fact (laneWrites .img = true) := ⟨rfl⟩
  have : Fact (laneWrites .hub = true) := ⟨rfl⟩
  have : Fact (laneWrites .flash = true) := ⟨rfl⟩
  exact ownLane_keeps (Keeps.rfl' h) port m

theorem swapLane_link (h : Flat s) (port old new : Nat) : (s.swapLane port old new).link port = { s.link port with txMap := laneFor (s.link port).txMap old new } := by
  have hf := modLink_flat h port (fun l => { l with txMap := laneFor (s.link port).txMap old new })
  have hown := ownLane_keeps_own hf port (laneFor (s.link port).txMap old new)
  have hb := bump_flat hown.flat .link port 1
  have hr := raise_flat hb .linkLaneSwap (49 + port) (port + old * 0x100 + new * 0x10000)
  have hlinks : (s.swapLane port old new).links = (s.modLink port (fun l => { l with txMap := laneFor (s.link port).txMap old new })).links :=
    (traceLink_same hr port 2 (toBytes 1 old ++ toBytes 1 new) .links).trans
      ((raise_same hb .linkLaneSwap (49 + port) (port + old * 0x100 + new * 0x10000) .links).trans (hown.same .links Bool.false_ne_true))
  rw [link_of_links hlinks, modLink_link h]

theorem swapLane_count (h : Flat s) (port old new : Nat) : (s.swapLane port old new).count .link port 1 = (s.count .link port 1 + 1) % 2 ^ 48 := by
  have hk : OtherIndex 1 := .inl (by decide)
  have hf := modLink_flat h port (fun l => { l with txMap := laneFor (s.link port).txMap old new })
  have hown := (ownLane_keeps_own hf port (laneFor (s.link port).txMap old new)).flat
  calc (s.swapLane port old new).count .link port 1
      = (((s.modLink port (fun l => { l with txMap := laneFor (s.link port).txMap old new })).ownLane port (laneFor (s.link port).txMap old new)).bump
          .link port 1).count .link port 1 := (hk.traceLink ..).trans (hk.raise ..)
    _ = _ := count_bump_same hown .link port 1
    _ = (s.count .link port 1 + 1) % 2 ^ 48 := by rw [State.ownLane, hk.recordPatch]; rfl

theorem exec_laneSwapSlot_out {x : Nat × Nat × Nat} (ho : (s.link p).swapOut = [x]) (hn : x.2.2 ≤ s.slotNow p) (hp : s.rel.patches = []) :
    exec (.laneSwapSlot p) s = .next ((s.modLink p (fun l => { l with swapOut := l.swapOut.drop 1 })).swapLane p x.1 x.2.1) := by
  have hx : exec (.laneSwapSlot p) s = execLaneSwapSlot p s := rfl
  rw [hx, execLaneSwapSlot, ho]
  dsimp only
  rw [if_pos hn, State.swapOutNow, hp]
  rfl

theorem exec_laneSwapSlot_in {x : Nat × Nat × Nat} {rest : List (Nat × Nat × Nat)} (ho : (s.link p).swapOut = []) (hi : (s.link p).swapIn = x :: rest) :
    exec (.laneSwapSlot p) s = .next (s.modLink p (fun l => { l with swapIn := rest, rxMap := laneFor l.rxMap x.1 x.2.1 })) := by
  have hx : exec (.laneSwapSlot p) s = execLaneSwapSlot p s := rfl
  rw [hx, execLaneSwapSlot, ho, hi]

/-- A faulty lane is answered with the lowest lane outside the map while no swap is announced. -/
theorem exec_laneFault {lane j : Nat} (hu : (s.link p).st = .up) (hl : (s.link p).txMap.getLsbD lane = true) (ho : (s.link p).swapOut = [])
    (hj : (upto 108).find? (fun x => !(s.link p).txMap.getLsbD x) = some j) : exec (.laneFault p lane) s = .next (s.announceSwap p lane j) := by
  have hx : exec (.laneFault p lane) s = execLaneFault p lane s := rfl
  have hgo : ¬((s.link p).st ≠ .up ∨ (!(s.link p).txMap.getLsbD lane) = true ∨ ((s.link p).swapOut.any fun x => x.1 == lane) = true) := by
    simp [hu, hl, ho]
  have hfind : (upto 108).find? (fun i => !(s.link p).txMap.getLsbD i && !((s.link p).swapOut.map (fun x => x.2.1)).contains i) = some j := by
    rw [ho, ← hj]
    congr 1
    funext i
    exact Bool.and_true _
  rw [hx, execLaneFault]
  dsimp only
  rw [if_neg hgo, hfind]

/-! ## Training (R436, R442, R524) -/

theorem exec_linkRetrained {m : BitVec 108} (hs : s.pwr.mod ≠ .safe) (hst : (s.link p).st = .down ∨ (s.link p).st = .training) (hp : s.rel.patches = []) :
    exec (.linkRetrained p m) s = .next (s.modLink p (fun l => { l.resendAll with
      st := .up, rxMap := m, txMap := sget 0 s.img.net.laneMaps p, nextSeq := 0, expSeq := 0, upAt := s.hclk, mapOut := true })) := by
  have hx : exec (.linkRetrained p m) s = execLinkRetrained p m s := rfl
  have hgo : ¬(s.pwr.mod = .safe ∨ ((s.link p).st ≠ .down ∧ (s.link p).st ≠ .training)) := by
    rintro (h | ⟨h1, h2⟩)
    · exact hs h
    · exact hst.elim h1 h2
  rw [hx, execLinkRetrained, if_neg hgo, State.patchTrained]
  have hp' : (s.modLink p (fun l => { l.resendAll with
      st := .up, rxMap := m, txMap := sget 0 s.img.net.laneMaps p, nextSeq := 0, expSeq := 0, upAt := s.hclk, mapOut := true })).rel.patches = [] := hp
  rw [hp']
  rfl

theorem linkFalls_st (h : Flat s) (p : Nat) : ((s.linkFalls p).link p).st = .down := by
  have hf := modLink_flat h p (fun l => { l with
    st := .down, rx := smap RxChan.reset (fun x => { x with partial_ := none }) l.rx, nakOut := false, badRun := 0, badCtl := 0, faultOut := [],
    swapOut := [], swapIn := [], mapOut := false, replays := [] })
  rw [State.linkFalls, link_of_links (raise_same hf .linkDown (portDomain p) p .links), modLink_link h]

end Sys2Proof.Machine
end

section
/-!
SUPPORT and PROOFS. The words of a frame content on its 96 logical lanes (R437); the statement on lanes and training.
-/
namespace Sys2Proof.Machine

variable {s : State}

/-! ## Bytes and words -/

theorem toBytes_ofBytes (bs : Bytes) : toBytes bs.length (ofBytes bs) = bs := by
  induction bs with
  | nil => rfl
  | cons b bs ih =>
    have hb := b.isLt
    have hdiv : (b.toNat + 256 * ofBytes bs) / 256 = ofBytes bs := by omega
    have hlow : BitVec.ofNat 8 (b.toNat + 256 * ofBytes bs) = b := by
      apply BitVec.eq_of_toNat_eq
      rw [BitVec.toNat_ofNat]
      omega
    rw [List.length_cons, ofBytes, toBytes, hdiv, hlow, ih]

theorem length_wordsOf (k n : Nat) (bs : Bytes) : (wordsOf k n bs).length = n := by
  induction n generalizing bs with
  | zero => rfl
  | succ n ih => rw [wordsOf, List.length_cons, ih]

theorem wordsOf_getD (k n : Nat) (bs : Bytes) {i : Nat} (hi : i < n) : (wordsOf k n bs).getD i 0 = ofBytes ((bs.drop (k * i)).take k) := by
  induction n generalizing bs i with
  | zero => cases hi
  | succ n ih =>
    cases i with
    | zero => rfl
    | succ i =>
      rw [wordsOf, List.getD_cons_succ, ih _ (Nat.lt_of_succ_lt_succ hi), List.drop_drop]
      congr 3
      ring

/-- Pieces of `k` bytes in a row make up the bytes again. -/
theorem flatten_pieces (k n : Nat) (bs : Bytes) : ((upto n).map (fun i => (bs.drop (k * i)).take k)).flatten = bs.take (k * n) := by
  induction n with
  | zero => simp [upto]
  | succ n ih =>
    rw [upto, List.range_succ, List.map_append, List.flatten_append, ← upto, ih, Nat.mul_succ, List.take_add]
    simp

/-! ## Logical lanes -/

theorem indexed_eq (ws : List Nat) : indexed ws = (upto ws.length).map (fun i => (i, ws.getD i 0)) := by
  apply List.ext_getElem
  · simp [indexed, upto]
  · intro i h1 h2
    have hi : i < ws.length := by simpa [upto] using h2
    simp [indexed, upto, hi]

theorem filterMap_range_eq {f : Nat → Nat} {j n : Nat} (hj : j < n) : (upto n).filterMap (fun i => if i = j then some (f i) else none) = [f j] := by
  induction n with
  | zero => cases hj
  | succ n ih =>
    rw [upto, List.range_succ, List.filterMap_append, ← upto]
    rcases Nat.lt_or_eq_of_le (Nat.le_of_lt_succ hj) with hlt | rfl
    · rw [ih hlt]
      simp [hlt.ne']
    · have hnone : (upto j).filterMap (fun i => if i = j then some (f i) else none) = [] :=
        List.filterMap_eq_nil_iff.2 fun i hi => if_neg (List.mem_range.1 hi).ne
      rw [hnone]
      simp

/-- The numbers below `96 * m` of remainder `j` are those `96 * q + j` of `q` below `m`. -/
theorem filterMap_lane (f : Nat → Nat) {j : Nat} (hj : j < 96) (m : Nat) :
    (upto (96 * m)).filterMap (fun i => if wordLane i = j then some (f i) else none) = (upto m).map (fun q => f (96 * q + j)) := by
  induction m with
  | zero => rfl
  | succ m ih =>
    have hlane : (fun i => if wordLane i = j then some (f i) else none) ∘ (fun x => 96 * m + x) =
        fun x => if x % 96 = j then some (f (96 * m + x)) else none := by
      funext x
      simp only [Function.comp_apply, wordLane, Nat.mul_add_mod]
    have hlast : (upto 96).filterMap (fun x => if x % 96 = j then some (f (96 * m + x)) else none) = [f (96 * m + j)] := by
      rw [← filterMap_range_eq (f := fun x => f (96 * m + x)) hj]
      refine List.filterMap_congr fun x hx => ?_
      rw [Nat.mod_eq_of_lt (List.mem_range.1 hx)]
    rw [Nat.mul_succ, upto, List.range_add, List.filterMap_append, ← upto, ih, List.filterMap_map, hlane, ← upto, hlast, upto, upto, List.range_succ,
      List.map_append]
    rfl

theorem laneWords_eq (content : Bytes) {j : Nat} (hj : j < 96) : laneWords content j = (upto 26).map (fun q => (frameWords content).getD (96 * q + j) 0) := by
  rw [laneWords, indexed_eq, List.filterMap_map, frameWords, length_wordsOf]
  exact filterMap_lane (fun i => (wordsOf 2 2496 content).getD i 0) hj 26

theorem laneWords_getD (content : Bytes) {w : Nat} (hw : w < 2496) :
    (((upto 96).map (laneWords content)).getD (wordLane w) []).getD (wordPos w) 0 = (frameWords content).getD w 0 := by
  have hlane : wordLane w < 96 := Nat.mod_lt _ (by decide)
  have hpos : wordPos w < 26 := by unfold wordPos; omega
  have hlanes : ((upto 96).map (laneWords content)).getD (wordLane w) [] = laneWords content (wordLane w) := by
    simp [List.getD_eq_getElem?_getD, upto, hlane]
  have hsplit : 96 * wordPos w + wordLane w = w := by unfold wordPos wordLane; omega
  rw [hlanes, laneWords_eq content hlane]
  simp [List.getD_eq_getElem?_getD, upto, hpos, hsplit]

theorem ofLanes_laneWords {content : Bytes} (hlen : content.length = 4992) : ofLanes ((upto 96).map (laneWords content)) = content := by
  have hword : ∀ w ∈ upto 2496, toBytes 2 ((((upto 96).map (laneWords content)).getD (wordLane w) []).getD (wordPos w) 0) = (content.drop (2 * w)).take 2 := by
    intro w hw
    have hlt : w < 2496 := List.mem_range.1 hw
    have htwo : ((content.drop (2 * w)).take 2).length = 2 := by
      rw [List.length_take, List.length_drop, hlen]
      omega
    have hback := toBytes_ofBytes ((content.drop (2 * w)).take 2)
    rw [htwo] at hback
    rw [laneWords_getD content hlt, frameWords, wordsOf_getD 2 2496 content hlt, hback]
  rw [ofLanes, List.map_congr_left hword, flatten_pieces, List.take_of_length_le hlen.le]

/-- Settles O60: a swap, a map and a training change the port's record alone, and the lanes partition the words of a content. -/
theorem linkLanesAndTraining : Obligations.LinkLanesAndTraining := by
  unfold Obligations.LinkLanesAndTraining
  intro s p i j n m hs
  have h : Flat s := (flat_iff s).2 hs
  refine ⟨fun hu hl ho hj => ?_, fun hu => ?_, fun ho hn hi hj hij hp => ?_, fun ho hi => ?_, ?_, fun hu => ?_, fun hs hst hp => ?_, fun hst => ?_,
    fun hst => ?_, fun content hlen => ⟨ofLanes_laneWords hlen, fun j hj => ?_⟩⟩
  · refine ⟨_, (nextControl (s.slotNow p) + 64 + 15) / 16 * 16, exec_laneFault hu hl ho hj, ?_, Nat.mul_mod_left _ _, by omega, by omega⟩
    rw [State.announceSwap, modLink_link h, ho]
    rfl
  · refine ⟨_, rfl, ?_⟩
    rw [modLink_link h]
    split
    · next hc =>
      rcases hc with hc | hc
      · exact absurd hu hc
      · exact List.contains_iff_mem.1 hc
    · exact List.mem_append_right _ (List.mem_singleton.2 rfl)
  · have hf := modLink_flat h p (fun l => { l with swapOut := l.swapOut.drop 1 })
    refine ⟨_, exec_laneSwapSlot_out ho hn hp, ?_, ?_, ?_, swapLane_count hf p i j⟩
    · rw [swapLane_link hf, modLink_link h, ho]
      rfl
    · rw [swapLane_link hf]
      exact laneFor_old _ hi hij
    · rw [swapLane_link hf]
      exact laneFor_new _ hj
  · refine ⟨_, exec_laneSwapSlot_in ho hi, ?_⟩
    rw [modLink_link h]
    exact ⟨rfl, rfl⟩
  · exact ⟨_, rfl, modLink_link h p _⟩
  · exact ⟨_, congrArg Host.Outcome.next (if_pos hu), linkFalls_st h p⟩
  · refine ⟨_, exec_linkRetrained hs hst hp, ?_⟩
    rw [State.slotNow, modLink_link h]
    exact ⟨rfl, rfl, rfl, rfl, rfl, rfl, rfl, congrArg slotOf (Nat.sub_self s.hclk)⟩
  · refine ⟨_, rfl, ?_⟩
    rw [modLink_link h]
    exact if_pos hst.symm
  · refine ⟨_, rfl, ?_⟩
    rw [modLink_link h]
    exact if_pos hst
  · rw [laneWords_eq content hj, List.length_map, upto, List.length_range]

end Sys2Proof.Machine
end

section
/-!
SUPPORT and PROOFS. Nolonlink frames, replays, acknowledgements, items and reads (R438, R440, R445 to R449).
-/
namespace Sys2Proof.Machine

variable {s t : State} {p n : Nat} {f : LinkFrame}

/-- A table entry that is not the default reads back after its write, canonical table or not. -/
theorem sget_sset_of_ne {α : Type} [DecidableEq α] {d v : α} (hv : v ≠ d) (m : Sparse α) (k : Nat) : sget d (sset d m k v) k = v := by
  rw [sset, if_neg hv, sget_sput_same]

theorem each_induct {α : Type} {R : State → Prop} {f : State → α → State} (hf : ∀ s x, R s → R (f s x)) (xs : List α) (hs : R s) : R (s.each xs f) :=
  List.foldlRecOn xs f hs fun s hs x _ => hf s x hs

/-! ## Receiving (R440, R447) -/

/-- What a port expects next and whether it asks for it. -/
def LinkPort.asks (l : LinkPort) : Nat × Bool := (l.expSeq, l.nakOut)

theorem modLink_asks (h : Flat s) (p : Nat) (g : LinkPort → LinkPort) (hg : ∀ l, (g l).asks = l.asks) : ((s.modLink p g).link p).asks = (s.link p).asks := by
  rw [modLink_link h, hg]

/-- The parts that a write of a link engine and its signal change. -/
def arrivalWrites (q : Part) : Bool := [Part.data, .fences].contains q

theorem linkWrite_links (h : Flat s) (port va : Nat) (bs : Bytes) : Flat (s.linkWrite port va bs) ∧ (s.linkWrite port va bs).links = s.links := by
  have : Fact (arrivalWrites .data = true) := ⟨rfl⟩
  have hk : Keeps False (fun q => arrivalWrites q = true) s (s.linkWrite port va bs) := linkWrite_keeps (Keeps.rfl' h) port va bs
  exact ⟨hk.flat, hk.same .links Bool.false_ne_true⟩

theorem linkSignal_links (h : Flat s) (port : Nat) (f : Option Nat) : (s.linkSignal port f).links = s.links := by
  have : Fact (arrivalWrites .fences = true) := ⟨rfl⟩
  have hk : Keeps False (fun q => arrivalWrites q = true) s (s.linkSignal port f) := linkSignal_keeps (Keeps.rfl' h) port f
  exact hk.same .links Bool.false_ne_true

theorem itemArrives_asks (h : Flat s) (port chan tag : Nat) (flits : Bytes) :
    ((s.itemArrives port chan tag flits).link port).asks = (s.link port).asks := by
  unfold State.itemArrives
  extract_lets r fresh full lost r1 s1 s2 s3
  split
  · rfl
  · have h1 : Flat s1 := modLink_flat h port _
    have h2 : Flat s2 ∧ s2.links = s1.links := by
      simp only [s2]
      split
      · exact ⟨bump_flat h1 .link port 5, rfl⟩
      · exact ⟨h1, rfl⟩
    have h3 : Flat s3 ∧ s3.links = s2.links := by
      simp only [s3]
      split
      · exact ⟨h2.1, rfl⟩
      · exact linkWrite_links h2.1 port _ flits
    rw [link_of_links ((linkSignal_links h3.1 port r.fence).trans (h3.2.trans h2.2))]
    exact modLink_asks h port (fun l => l.setRx chan r1) fun _ => rfl

theorem frameIn_asks (h : Flat s) (port : Nat) (f : LinkFrame) : ((s.frameIn port f).link port).asks = (seqAdd (s.link port).expSeq 1, false) := by
  unfold State.frameIn
  extract_lets s1 r part s2
  have h1 : Flat s1 := modLink_flat h port _
  have ha : (s1.link port).asks = (seqAdd (s.link port).expSeq 1, false) := by
    simp only [s1]
    rw [modLink_link h]
    rfl
  split
  · exact ha
  · split
    · have h2 : Flat s2 := modLink_flat h1 port _
      have ha2 : (s2.link port).asks = (s1.link port).asks := modLink_asks h1 port (fun l => l.setRx f.chan { r with partial_ := none }) fun _ => rfl
      clear_value part
      cases part with
      | none => exact ha2.trans ha
      | some q => exact (itemArrives_asks h2 ..).trans (ha2.trans ha)
    · exact (modLink_asks h1 port (fun l => l.setRx f.chan { r with partial_ := part }) fun _ => rfl).trans ha

/-- A good DATA or REPLAY frame clears the counts of bad ones. -/
def State.goodFrame (s : State) (p : Nat) (f : LinkFrame) : State :=
  s.modLink p (fun l => { l with badRun := 0, badCtl := if f.type = 3 then 0 else (s.link p).badCtl })

theorem exec_dataFrameRx_good (hu : (s.link p).st = .up) (hc : f.crcOk = true) (ht : f.type = 1 ∨ f.type = 2) : exec (.dataFrameRx p f) s = .next (
    if f.seq % 2 ^ 32 = (s.link p).expSeq then (s.goodFrame p f).frameIn p f
    else if seqLe (s.link p).expSeq f.seq then (s.goodFrame p f).askNak p else s.goodFrame p f) := by
  have hx : exec (.dataFrameRx p f) s = execDataFrameRx p f s := rfl
  have h1 : ¬((!f.crcOk) = true ∨ 3 < f.type) := by
    rw [hc]
    rintro (h | h)
    · exact Bool.false_ne_true h
    · omega
  have h2 : ¬(f.type ≠ 1 ∧ f.type ≠ 2) := by omega
  rw [hx, execDataFrameRx]
  dsimp only
  rw [if_neg (not_not.2 hu), if_neg h1, if_neg h2]
  rfl

theorem askNak_link (h : Flat s) (p : Nat) : (s.askNak p).link p = { s.link p with nakOut := true } := by
  unfold State.askNak
  dsimp only
  split
  · next hn => rw [← hn]
  · rw [link_of_links (traceLink_same (modLink_flat h p fun l => { l with nakOut := true }) p 1 (toBytes 4 (s.link p).expSeq) .links), modLink_link h]

/-! ## Bad frames (R440, R442) -/

theorem countEvent_links (h : Flat s) (u : FaultUnit) : Flat (s.countEvent u).2 ∧ (s.countEvent u).2.links = s.links := by
  have : Fact (Part.rel = .rel) := ⟨rfl⟩
  have hk : Keeps False (fun q => q = .rel) s (s.countEvent u).2 := countEvent_keeps (Keeps.rfl' h) u
  exact ⟨hk.flat, hk.same .links (by decide)⟩

/-- What a bad frame leaves of its port: what it expects and asks, and its count of bad frames. -/
def LinkPort.state (l : LinkPort) : Nat × Bool × Nat := (l.expSeq, l.nakOut, l.badRun)

theorem lasting_lane (s : State) (p i : Nat) : s.lasting (.lane p i) = s.modLink p (fun l => { l with faultOut := l.faultOut ++ [i] }) := rfl

theorem countFault_lane (h : Flat s) (p i : Nat) :
    Flat (s.countFault (.lane p i)) ∧ ((s.countFault (.lane p i)).link p).state = (s.link p).state := by
  unfold State.countFault
  dsimp only
  have he := countEvent_links h (.lane p i)
  split
  · split
    · rw [lasting_lane]
      refine ⟨modLink_flat he.1 p _, ?_⟩
      rw [modLink_link he.1, link_of_links he.2]
      rfl
    · exact ⟨he.1, by rw [link_of_links he.2]⟩
  · exact ⟨h, rfl⟩

theorem frameBad_state (h : Flat s) (hr : (s.link p).badRun + 1 < 256) (hc : (s.link p).badCtl < 3) :
    ((s.frameBad p f).link p).state = ((s.link p).expSeq, ((s.link p).nakOut || f.type != 3), (s.link p).badRun + 1) := by
  unfold State.frameBad
  extract_lets l ctl s0 s1 s2
  have hctl : ¬(256 ≤ l.badRun + 1 ∨ 4 ≤ ctl) := by
    simp only [ctl, l]
    split <;> omega
  have h0 : Flat s0 := modLink_flat h p _
  have hl0 : s0.link p = { l with badRun := l.badRun + 1, badCtl := ctl } := modLink_link h p _
  have h1 : Flat s1 ∧ (s1.link p).state = (l.expSeq, (l.nakOut || f.type != 3), l.badRun + 1) := by
    simp only [s1]
    split
    · next ht =>
      rw [hl0, ht]
      exact ⟨h0, by simp [LinkPort.state]⟩
    · next ht =>
      rw [askNak_link h0, hl0]
      have hne : (f.type != 3) = true := bne_iff_ne.2 ht
      rw [hne, Bool.or_true]
      exact ⟨(by
        have : Fact (Part.links = .links) := ⟨rfl⟩
        exact (askNak_keeps (P := False) (W := fun q => q = .links) (Keeps.rfl' h0) p).flat), rfl⟩
  rw [if_neg hctl]
  simp only [s2]
  split
  · exact h1.2
  · exact (each_induct (R := fun u => Flat u ∧ (u.link p).state = (l.expSeq, (l.nakOut || f.type != 3), l.badRun + 1))
      (fun u i hu => ⟨(countFault_lane hu.1 p i).1, (countFault_lane hu.1 p i).2.trans hu.2⟩) f.badLanes h1).2

theorem exec_dataFrameRx_bad (hu : (s.link p).st = .up) (hc : f.crcOk = false) : exec (.dataFrameRx p f) s = .next (s.frameBad p f) := by
  have hx : exec (.dataFrameRx p f) s = execDataFrameRx p f s := rfl
  rw [hx, execDataFrameRx]
  dsimp only
  rw [if_neg (not_not.2 hu), if_pos (.inl (by rw [hc]; rfl))]

/-! ## NAK and ACK (R438, R440) -/

/-- The port sends every kept frame from `seq` on again (R440). -/
def LinkPort.replayFrom (l : LinkPort) (seq : Nat) : LinkPort :=
  { l with replays := (l.sent.filter (fun f => seqLe seq f.seq)).map (fun f => { f with type := 2 }) }

theorem exec_nak (hu : (s.link p).st = .up) :
    exec (.nak p n) s = .next (((s.bump .link p 0).modLink p (fun l => l.replayFrom n)).traceLink p 0 (toBytes 4 n)) :=
  congrArg Host.Outcome.next (if_pos hu)

theorem sendDone_unacked (h : Flat s) (p : Nat) : ((s.sendDone p).link p).unacked = (s.link p).unacked := by
  unfold State.sendDone
  split
  · dsimp only
    split
    · rfl
    · rw [link_of_links (complete_same (modLink_flat h p fun l => { l with run := none }) _ _ _ .links rfl), modLink_link h]
  · rfl

/-! ## Items (R446, R448) -/

theorem sendItem_txChan (l : LinkPort) (c : Nat) {x : TxItem} {rest : List TxItem} (hq : (l.txChan c).queue = x :: rest) :
    (l.sendItem c).txChan c = { l.txChan c with queue := rest, going := (l.txChan c).going ++ [⟨x, itemFrames c x⟩] } ∧
      (l.sendItem c).nextSeq = l.nextSeq := by
  unfold LinkPort.sendItem
  dsimp only
  rw [hq]
  refine ⟨sget_sset_of_ne ?_ _ _, rfl⟩
  intro heq
  have hgoing : (l.txChan c).going ++ [(⟨x, itemFrames c x⟩ : Going)] = [] := congrArg TxChan.going heq
  simp at hgoing

theorem linkRead_item {tag chan : Nat} {x : Item} (hx : newestUpTo tag ((s.link p).rxChan chan).items = some x) :
    (s.linkRead p chan tag).1 = x.flits ∧ (x.tag = tag → (s.linkRead p chan tag).2.1 = false) ∧
      (x.tag = tag → (s.linkRead p chan tag).2.2.pmon = s.pmon ∧ (s.linkRead p chan tag).2.2.engines = s.engines) := by
  have hstale : x.tag = tag → (some x).any (fun y => y.tag == tag) = true := fun h => by simp [h]
  unfold State.linkRead
  dsimp only
  rw [hx]
  refine ⟨rfl, fun h => ?_, fun h => ?_⟩
  · rw [hstale h]
    rfl
  · rw [hstale h]
    exact ⟨rfl, rfl⟩

theorem linkRead_flat (h : Flat s) (p chan tag : Nat) : Flat (s.linkRead p chan tag).2.2 := by
  have _ := anyPart_fact
  exact (linkRead_keeps (P := False) (W := anyPart) (Keeps.rfl' h) p chan tag).flat

/-- Settles O59: each exchange changes the port's record as the lemmas above say, and events and trace records leave it alone. -/
theorem linkFrames : Obligations.LinkFrames := by
  unfold Obligations.LinkFrames
  intro s p f n hs hu
  have h : Flat s := (flat_iff s).2 hs
  have hgood : Flat (s.goodFrame p f) := modLink_flat h p _
  have hgoodAsks : ((s.goodFrame p f).link p).asks = (s.link p).asks := modLink_asks h p _ fun _ => rfl
  refine ⟨fun hc ht hseq => ?_, fun hc ht hseq => ?_, fun hc hr hb => ?_, ?_, ?_, fun x rest ho hq => ?_, fun t x who hx => ?_⟩
  · refine ⟨_, (exec_dataFrameRx_good hu hc ht).trans (congrArg _ (if_pos hseq)), ?_⟩
    have hin := frameIn_asks hgood p f
    have hexp : ((s.goodFrame p f).link p).expSeq = (s.link p).expSeq := congrArg Prod.fst hgoodAsks
    rw [hexp] at hin
    exact ⟨congrArg Prod.fst hin, congrArg Prod.snd hin⟩
  · refine ⟨_, (exec_dataFrameRx_good hu hc ht).trans (congrArg _ (if_neg hseq)), ?_⟩
    have hlink : (s.goodFrame p f).link p = { s.link p with badRun := 0, badCtl := if f.type = 3 then 0 else (s.link p).badCtl } := modLink_link h p _
    split
    · rw [askNak_link hgood, hlink]
      exact ⟨rfl, rfl, fun _ => rfl⟩
    · next hle =>
      rw [hlink]
      exact ⟨rfl, rfl, fun h => absurd h hle⟩
  · have hstate := frameBad_state (f := f) h hr hb
    exact ⟨_, exec_dataFrameRx_bad hu hc, congrArg (fun x => x.2.1) hstate, congrArg (fun x => x.2.2) hstate, congrArg Prod.fst hstate⟩
  · have hk : OtherIndex 0 := .inl (by decide)
    have hb := bump_flat h .link p 0
    have hf := modLink_flat hb p (fun l => l.replayFrom n)
    refine ⟨_, exec_nak hu, (hk.traceLink ..).trans (count_bump_same h .link p 0), ?_⟩
    rw [link_of_links (traceLink_same hf p 0 (toBytes 4 n) .links), modLink_link hb]
    exact ⟨rfl, rfl, rfl⟩
  · refine ⟨_, congrArg Host.Outcome.next (if_pos hu), fun x hx => ?_⟩
    rw [sendDone_unacked (modLink_flat h p _), modLink_link h] at hx
    simpa using (List.mem_filter.1 hx).2
  · have hsend := sendItem_txChan (s.link p) n hq
    refine ⟨_, congrArg Host.Outcome.next (if_pos hu), ?_⟩
    rw [modLink_link h, hsend.1]
    exact ⟨rfl, rfl, hsend.2⟩
  · have hread := linkRead_item hx
    have hf := linkRead_flat h p n t
    have hreply : ((((s.linkRead p n t).2.2).modLink p (fun l => { l with reply := [toFlits (s.linkRead p n t).1] })).link p).reply = [toFlits x.flits] := by
      rw [modLink_link hf, hread.1]
    cases who with
    | none => exact ⟨_, rfl, hreply, hread.2.2⟩
    | some e =>
      refine ⟨_, rfl, ?_, fun htag => ?_⟩
      · dsimp only
        split
        · exact (congrArg LinkPort.reply (link_of_links rfl p)).trans hreply
        · exact hreply
      · dsimp only
        rw [hread.2.1 htag]
        exact hread.2.2 htag

end Sys2Proof.Machine
end

section
/-!
SUPPORT and PROOFS. The entry into SAFE, and the loss of a yard (R517, R526, R528, R560).
-/
namespace Sys2Proof.Machine

variable {s t : State} {y : Nat}

/-! ## The dark module -/

/-- One half unpowered. -/
def darkHalf (m : Sparse Half) (d : Nat) : Sparse Half :=
  sset Half.reset m d { sget Half.reset m d with pstate := .off, curMhz := 0, waking := false, farrier := false }

theorem darkHalf_upto (n : Nat) {hs : Sparse Half} (h : swf Half.reset hs = true) : swf Half.reset ((upto n).foldl darkHalf hs) = true ∧
    ∀ d, d < n → (sget Half.reset ((upto n).foldl darkHalf hs) d).pstate = .off := by
  induction n with
  | zero => exact ⟨h, nofun⟩
  | succ n ih =>
    obtain ⟨hwf, hoff⟩ := ih
    rw [upto, List.range_succ, List.foldl_append, ← upto]
    refine ⟨swf_sset _ _ _ _ hwf, fun d hd => ?_⟩
    rcases Nat.lt_or_eq_of_le (Nat.le_of_lt_succ hd) with hlt | rfl
    · exact (congrArg Half.pstate (sget_sset_ne _ _ _ _ _ hlt.ne)).trans (hoff d hlt)
    · exact congrArg Half.pstate (sget_sset_same _ _ _ _ hwf)

theorem darkHalves_off {hs : Sparse Half} (h : swf Half.reset hs = true) {d : Nat} (hd : d < 32) : (sget Half.reset (darkHalves hs) d).pstate = .off :=
  (darkHalf_upto 32 h).2 d hd

theorem dark_halves (s : State) : s.dark.yards.halves = darkHalves s.yards.halves := by rw [State.dark]

theorem dark_flat (h : Flat s) : Flat s.dark := by
  have _ := anyPart_fact
  exact (dark_keeps (P := False) (W := anyPart) (Keeps.rfl' h)).flat

/-! ## Requests at the head of the line -/

/-- The parts that replies write: the replies of refused requests may go to host memory or device memory. -/
def replyWrites (q : Part) : Bool := [Part.data, .host].contains q

theorem serveHead_keeps_own (h : Flat s) : Keeps False (fun q => replyWrites q = true) s s.serveHead := by
  have : Fact (replyWrites .data = true) := ⟨rfl⟩
  have : Fact (replyWrites .host = true) := ⟨rfl⟩
  exact serveHead_keeps (Keeps.rfl' h)

theorem ringHost_same (h : Flat s) (i : Nat) (q : Part) : q.same s (s.ringHost i) :=
  (ringHost_keeps (P := False) (W := fun _ => False) (Keeps.rfl' h) i).same q not_false

theorem ringHost_flat (h : Flat s) (i : Nat) : Flat (s.ringHost i) := (ringHost_keeps (P := False) (W := fun _ => False) (Keeps.rfl' h) i).flat

theorem inBand_same (h : Flat s) (b : Nat) (q : Part) : q.same s (s.inBand b) :=
  (inBand_keeps (P := False) (W := fun _ => False) (Keeps.rfl' h) b).same q not_false

theorem inBand_flat (h : Flat s) (b : Nat) : Flat (s.inBand b) := (inBand_keeps (P := False) (W := fun _ => False) (Keeps.rfl' h) b).flat

/-! ## SAFE -/

theorem Part.same_trans {q : Part} {a b c : State} (h : q.same a b) (h' : q.same b c) : q.same a c := by
  cases q <;> simp only [Part.same] at h h' ⊢ <;> simp_all

theorem modPwr_flat (h : Flat s) (f : Power → Power) : Flat (s.modPwr f) := { h with }

theorem modPwr_same (s : State) (f : Power → Power) {q : Part} (hq : q ≠ .pwr) : q.same s (s.modPwr f) := by
  cases q
  case pwr => exact absurd rfl hq
  case fences => exact ⟨rfl, rfl⟩
  case sel => exact ⟨rfl, rfl, rfl, rfl⟩
  all_goals rfl

/-- The power state in SAFE. -/
def Power.inSafe (p : Power) (ms cause step detail : Nat) : Power :=
  { p with safeCause := cause, safeStep := step, safeDetail := detail, bootMs := if p.mod = .boot then ms else p.bootMs, mod := .safe }

/-- The module in SAFE, before its yards go dark. -/
def State.safeEntry (s : State) (cause step detail : Nat) : State :=
  let s1 := s.modPwr (fun p => { p with
    safeCause := cause, safeStep := step, safeDetail := detail, bootMs := if p.mod = .boot then s.bootMs else p.bootMs })
  let s2 := s1.raise .pwrSafe noDomain (cause + step * 0x100 + detail % 65536 * 0x10000)
  ((s2.modPwr (fun p => { p with mod := .safe })).ringHost 8).inBand 2

theorem enterSafe_eq (s : State) (cause step detail : Nat) : s.enterSafe cause step detail = (s.safeEntry cause step detail).dark.serveHead := rfl

theorem safeEntry_facts (h : Flat s) (cause step detail : Nat) : Flat (s.safeEntry cause step detail) ∧
    (s.safeEntry cause step detail).pwr = s.pwr.inSafe s.bootMs cause step detail ∧ ∀ q, q ≠ .pwr → Part.same q s (s.safeEntry cause step detail) := by
  unfold State.safeEntry
  extract_lets s1 s2
  have h1 : Flat s1 := modPwr_flat h _
  have h2 : Flat s2 := raise_flat h1 _ _ _
  have h3 : Flat (s2.modPwr (fun p => { p with mod := .safe })) := modPwr_flat h2 _
  have h4 := ringHost_flat h3 8
  have hraise (q : Part) : q.same s1 s2 := raise_same h1 .pwrSafe noDomain (cause + step * 0x100 + detail % 65536 * 0x10000) q
  have hrest (q : Part) : q.same (s2.modPwr (fun p => { p with mod := .safe })) (((s2.modPwr (fun p => { p with mod := .safe })).ringHost 8).inBand 2) :=
    Part.same_trans (ringHost_same h3 8 q) (inBand_same h4 2 q)
  refine ⟨inBand_flat h4 2, ?_, fun q hq => ?_⟩
  · have hpwr : s2.pwr = s1.pwr := hraise .pwr
    rw [hrest .pwr, modPwr_pwr, hpwr]
    rfl
  · exact Part.same_trans (modPwr_same s _ hq) (Part.same_trans (hraise q) (Part.same_trans (modPwr_same s2 _ hq) (hrest q)))

/-- What the module is in SAFE: its cause, its dark yards, and everything else as it was. -/
theorem enterSafe_facts (h : Flat s) (cause step detail : Nat) :
    let u := s.enterSafe cause step detail
    u.pwr = s.pwr.inSafe s.bootMs cause step detail ∧ u.engines = [] ∧ u.yards.spad = [] ∧ u.yards.halves = darkHalves s.yards.halves ∧
      u.rel = { s.rel with windows := [], patches := [] } := by
  obtain ⟨hf, hpwr, hsame⟩ := safeEntry_facts h cause step detail
  have hserve := serveHead_keeps_own (dark_flat hf)
  rw [enterSafe_eq]
  have huhalves : (s.safeEntry cause step detail).dark.serveHead.yards.halves = (s.safeEntry cause step detail).dark.yards.halves :=
    hserve.same .halves Bool.false_ne_true
  have hhalves : (s.safeEntry cause step detail).yards.halves = s.yards.halves := hsame .halves (by decide)
  have hrel : (s.safeEntry cause step detail).rel = s.rel := hsame .rel (by decide)
  exact ⟨(hserve.same .pwr Bool.false_ne_true).trans hpwr, hserve.same .engines Bool.false_ne_true, hserve.same .spad Bool.false_ne_true,
    huhalves.trans ((dark_halves _).trans (by rw [hhalves])),
    (hserve.same .rel Bool.false_ne_true).trans (congrArg (fun r : Rel => { r with windows := [], patches := [] }) hrel)⟩

theorem half_of_halves (h : t.yards.halves = s.yards.halves) (d : Nat) : t.half d = s.half d := by rw [State.half, h]; rfl

/-! ## A lost yard (R517, R560) -/

theorem loseYard_facts (h : Flat s) (y : Nat) : (s.loseYard y).pwr.mod = .safe ∧ (s.loseYard y).pwr.safeCause = scYardLost ∧
    (s.loseYard y).pwr.safeDetail = y ∧ (s.loseYard y).rel.yardLost = true ∧ (s.loseYard y).rel.lostYard = y ∧ (s.loseYard y).engines = [] ∧
    (s.loseYard y).yards.spad = [] ∧ ∀ d, d < 32 → ((s.loseYard y).half d).pstate = .off := by
  have hm : Flat (s.modRel (fun r => { r with yardLost := true, lostYard := y })) := { h with }
  have hf := raise_flat hm .relYardLost noDomain y
  have hrel : ((s.modRel (fun r => { r with yardLost := true, lostYard := y })).raise .relYardLost noDomain y).rel =
      { s.rel with yardLost := true, lostYard := y } := raise_same hm .relYardLost noDomain y .rel
  obtain ⟨upwr, ueng, uspad, uhalves, urel⟩ := enterSafe_facts hf scYardLost (if s.pwr.mod = .boot then s.pwr.step else 0) y
  have hpwr : (s.loseYard y).pwr = _ := upwr
  have hr : (s.loseYard y).rel = _ := urel
  have hh : (s.loseYard y).yards.halves = _ := uhalves
  rw [hpwr, hr, hrel]
  refine ⟨rfl, rfl, rfl, rfl, rfl, ueng, uspad, fun d hd => ?_⟩
  rw [State.half, hh]
  exact darkHalves_off hf.halves hd

/-- Settles O36: the loss of a yard enters SAFE, whose yards are dark, and a rail of a yard loses it. -/
theorem lostYardEntersSafe : Obligations.LostYardEntersSafe := by
  unfold Obligations.LostYardEntersSafe
  intro s y r hs
  have h : Flat s := (flat_iff s).2 hs
  have hrail : exec (.railOutOfBand r) s = execRailOutOfBand r s := rfl
  have hlost (hup : s.yardsUp = true) : exec (.yardLost y) s = .next (s.loseYard y) := congrArg Host.Outcome.next (if_pos hup)
  refine ⟨fun hup => ⟨_, hlost hup, loseYard_facts h y⟩, fun hr hup => ⟨s.loseYard y, ?_, hlost hup⟩, fun hr hp => ?_, fun hr hp => ?_⟩
  · rw [hrail, execRailOutOfBand, hr]
    exact congrArg Host.Outcome.next (if_pos hup)
  · rw [hrail, execRailOutOfBand, hr]
    exact if_pos hp
  · rw [hrail, execRailOutOfBand, hr]
    exact if_neg hp

end Sys2Proof.Machine
end

section
/-!
SUPPORT. The mailbox and the line of requests across records, replies and the ends of destructions (R400, R465, R470).
-/
namespace Sys2Proof.Machine

variable {s t : State} {α : Type}

/-! ## The mailbox apart from the reports of destructions -/

/-- The mailbox without what it counts of destructions. -/
def Mbx.base (m : Mbx) : Mbx := { m with destroys := [] }

theorem base_of_mbx (h : t.mbx = s.mbx) : t.mbx.base = s.mbx.base := congrArg Mbx.base h

theorem each_base (xs : List α) (f : State → α → State) (hf : ∀ s x, (f s x).mbx.base = s.mbx.base) : ∀ s : State, (s.each xs f).mbx.base = s.mbx.base :=
  each_of (fun s => s.mbx.base) xs f hf

theorem writeRecord_base (s : State) (e : Nat) (c : Cmd) (d : Done) (m : Bool) : (s.writeRecord e c d m).mbx.base = s.mbx.base := by
  unfold State.writeRecord
  extract_lets f u q st s2 charge halt s3 s4 s5 s6 s7 s8 s9 s10
  have hu : u.mbx = s.mbx := by
    simp only [u, f]
    split <;> rfl
  have h2 : s2.mbx = s.mbx := (placeRecord_mbx _ _ _ _).trans hu
  clear_value charge st s2
  have h4 : s4.mbx = s2.mbx := rfl
  clear_value s4
  have h5 : s5.mbx = s2.mbx := (bumpBy_mbx ..).trans ((bumpBy_mbx ..).trans h4)
  have h6 : s6.mbx = s5.mbx := by simp only [s6]; split <;> rfl
  have h7 : s7.mbx = s6.mbx := by simp only [s7]; split <;> rfl
  have h8 : s8.mbx = s7.mbx := by simp only [s8]; split <;> rfl
  have h9 : s9.mbx.base = s8.mbx.base := rfl
  have h10 : s10.mbx = s9.mbx := by simp only [s10]; split <;> rfl
  rw [base_of_mbx (trace_mbx ..), base_of_mbx h10, h9, h8, h7, h6, h5, h2]

theorem postAt_base (n : Nat) : ∀ (s : State) (e : Nat) (c : Cmd) (d : Done), (s.postAt n e c d).mbx.base = s.mbx.base := by
  induction n with
  | zero => exact fun s e c d => writeRecord_base s e c d false
  | succ n ih =>
    intro s e c d
    unfold State.postAt
    extract_lets te k x armed ok s1
    have h1 : s1.mbx = s.mbx := (trace_mbx ..).trans (dropChainPreload_mbx _ te k)
    clear_value s1
    split
    · split
      · exact writeRecord_base ..
      · split
        · exact (writeRecord_base ..).trans (base_of_mbx ((event_mbx ..).trans (trace_mbx ..)))
        · split
          · exact (writeRecord_base ..).trans ((ih ..).trans (base_of_mbx h1))
          · exact (ih ..).trans ((writeRecord_base ..).trans (base_of_mbx h1))
    · exact writeRecord_base ..

theorem postRecord_base (s : State) (e : Nat) (c : Cmd) (d : Done) : (s.postRecord e c d).mbx.base = s.mbx.base := postAt_base 168 s e c d

theorem cancelChains_base (s : State) (n e : Nat) : (s.cancelChains n e).mbx.base = s.mbx.base := by
  unfold State.cancelChains
  refine each_base _ _ (fun s k => ?_) s
  extract_lets x
  split
  · rfl
  · refine (postRecord_base ..).trans (base_of_mbx ((trace_mbx ..).trans ?_))
    exact (dropChainPreload_mbx _ e k).trans (unfire_mbx s e k)

/-! ## The line -/

theorem h2f_of_mbx (h : t.mbx.h2f = s.mbx.h2f) (m : Nat) : t.h2f m = s.h2f m := by rw [State.h2f, h]; rfl

theorem lineFrom_of_base (h : t.mbx.base = s.mbx.base) : lineFrom s t := by
  have hh : t.mbx.base.h2f = s.mbx.base.h2f := by rw [h]
  have hr : t.mbx.base.reqs = s.mbx.base.reqs := by rw [h]
  exact ⟨fun m => by rw [h2f_of_mbx hh]; exact id, fun x hx => .inl (by rwa [← show t.mbx.reqs = s.mbx.reqs from hr])⟩

theorem reply_flat (h : Flat s) (r : Req) (rc : Nat) (b : Bytes) : Flat (s.reply r rc b) := by
  have _ := anyPart_fact
  exact (reply_keeps (P := False) (W := anyPart) (Keeps.rfl' h) r rc b).flat

theorem serveHead_line (h : Flat s) : lineFrom s s.serveHead := (serveBad_line 4 h).1

theorem endReq_lineFrom (h : Flat s) (r : Req) (rc : Nat) (b : Bytes) : lineFrom s (s.endReq r rc b) :=
  ((takeNotice_line s r).1.trans (reply_line (takeNotice_flat h r) r rc b).1).trans (serveHead_line (reply_flat (takeNotice_flat h r) r rc b))

theorem background_lineFrom (h : Flat s) (r : Req) : lineFrom s (s.background r) := by
  have h1 : Flat ((s.takeNotice r).modMbx (fun m => { m with reqs := m.reqs.filter (fun x => decide (x ≠ r)) })) := { h with }
  have h2 : lineFrom s ((s.takeNotice r).modMbx (fun m => { m with reqs := m.reqs.filter (fun x => decide (x ≠ r)) })) :=
    ⟨fun _ h => h, fun _ hx => .inl (List.mem_filter.1 hx).1⟩
  exact h2.trans (serveHead_line h1)

theorem disabled_lineFrom (h : Flat s) (e : Nat) : lineFrom s (s.disabled e) := by
  unfold State.disabled
  extract_lets x s1
  split
  · exact lineFrom.refl s
  · next b _ =>
    have h1 : Flat s1 := modEng_flat h e _
    have h2 : Flat (s1.modMbx (fun m => { m with bgDisable := m.bgDisable.filter (fun y => y.1 != e) })) := { h1 with }
    have h0 : lineFrom s (s1.modMbx (fun m => { m with bgDisable := m.bgDisable.filter (fun y => y.1 != e) })) := ⟨fun _ h => h, fun _ h => .inl h⟩
    exact (h0.trans (reply_line h2 b.2 rcOk x.report).1).trans (serveHead_line (reply_flat h2 b.2 rcOk x.report))

theorem endDestroy_lineFrom (h : Flat s) (d : Destroy) : lineFrom s (s.endDestroy d) := by
  unfold State.endDestroy
  extract_lets q bs s1 s2 im s3 s4 s5
  have _ := anyPart_fact
  have k1 : Keeps False anyPart s s1 := by
    simp only [s1]
    split
    · exact hostWrite_keeps (Keeps.rfl' h) _ _
    · exact hubWrite_keeps (Keeps.rfl' h) _ _
  have h1 : s1.mbx = s.mbx := by
    simp only [s1]
    split
    · exact hostWrite_mbx _ _ _
    · exact hubWrite_mbx _ _ _
  clear_value s1
  have k2 : Keeps False anyPart s s2 := by
    simp only [s2]
    split
    · exact k1
    · exact modSlot_keeps k1 _ _
  have h2 : s2.mbx = s1.mbx := by
    simp only [s2]
    split <;> rfl
  clear_value s2
  have k3 : Keeps False anyPart s s3 := xlat_keeps k2 _ (swf_smap _ _ _ k2.flat.xlat)
  have k4 : Keeps False anyPart s s4 := slots_keeps k3 _ (swf_smap _ _ _ k3.flat.slots)
  have f5 : Flat s5 := { (setQueue_keeps k4 d.queue Queue.reset).flat with }
  have h5 : s5.mbx.base = s2.mbx.base := rfl
  exact ((lineFrom_of_base (h5.trans (base_of_mbx (h2.trans h1)))).trans (reply_line f5 d.req rcOk []).1).trans (serveHead_line (reply_flat f5 d.req rcOk []))

/-- A relation of states that the steps of a loop keep, where it carries canonical form along. -/
theorem each_rel {R : State → State → Prop} (hr : ∀ s, R s s) (ht : ∀ {r s t}, R r s → R s t → R r t) (xs : List α) (f : State → α → State)
    (hk : ∀ s x, Flat s → Flat (f s x)) (hs : ∀ s x, Flat s → R s (f s x)) : ∀ {s : State}, Flat s → R s (s.each xs f) := by
  induction xs with
  | nil => exact fun _ => hr _
  | cons x xs ih => exact fun h => ht (hs _ x h) (ih (hk _ x h))

theorem cancelAll_flat (h : Flat s) (n : Nat) : Flat (s.each (upto 21) (fun s e => s.cancelChains n e)) := by
  have _ := anyPart_fact
  exact (each_keeps (P := False) (W := anyPart) (upto 21) _ (fun _ e hy => cancelChains_keeps hy n e) (Keeps.rfl' h)).flat

/-- What ends one destruction whose queue has nothing running left. -/
def State.endOne (s : State) (d : Destroy) : State :=
  if s.queueBusy d.queue then s
  else
    let t := s.each (upto 21) (fun s e => s.cancelChains d.queue e)
    match t.mbx.destroys.find? (fun x => x.queue == d.queue) with
    | some x => t.endDestroy x
    | none => t

theorem endDestroys_eq (s : State) : s.endDestroys = s.each s.mbx.destroys State.endOne := by
  unfold State.endDestroys
  refine congrArg (s.each s.mbx.destroys) (funext fun s => funext fun d => ?_)
  unfold State.endOne
  split
  · rfl
  · generalize s.each (upto 21) (fun s e => s.cancelChains d.queue e) = t
    rfl

theorem endDestroy_flat (h : Flat s) (d : Destroy) : Flat (s.endDestroy d) := by
  have _ := anyPart_fact
  exact (endDestroy_keeps (P := False) (W := anyPart) (Keeps.rfl' h) d).flat

/-- What the end of one destruction does, from the cancelling of its chain slots and its own end. -/
theorem endOne_rel {R : State → State → Prop} (hr : ∀ s, R s s) (ht : ∀ {r s t}, R r s → R s t → R r t)
    (hc : ∀ {s : State} (n : Nat), Flat s → R s (s.each (upto 21) (fun s e => s.cancelChains n e)))
    (he : ∀ {s : State} (d : Destroy), Flat s → R s (s.endDestroy d)) (h : Flat s) (d : Destroy) : R s (s.endOne d) := by
  unfold State.endOne
  extract_lets t
  split
  · exact hr s
  · split
    · exact ht (hc d.queue h) (he _ (cancelAll_flat h d.queue))
    · exact hc d.queue h

theorem endOne_flat (h : Flat s) (d : Destroy) : Flat (s.endOne d) := by
  unfold State.endOne
  extract_lets t
  split
  · exact h
  · split
    · exact endDestroy_flat (cancelAll_flat h d.queue) _
    · exact cancelAll_flat h d.queue

theorem endDestroys_rel {R : State → State → Prop} (hr : ∀ s, R s s) (ht : ∀ {r s t}, R r s → R s t → R r t)
    (hc : ∀ {s : State} (n : Nat), Flat s → R s (s.each (upto 21) (fun s e => s.cancelChains n e)))
    (he : ∀ {s : State} (d : Destroy), Flat s → R s (s.endDestroy d)) (h : Flat s) : R s s.endDestroys := by
  rw [endDestroys_eq]
  exact each_rel hr ht s.mbx.destroys State.endOne (fun _ d h => endOne_flat h d) (fun _ d h => endOne_rel hr ht hc he h d) h

theorem endDestroys_lineFrom (h : Flat s) : lineFrom s s.endDestroys :=
  endDestroys_rel lineFrom.refl lineFrom.trans (fun n _ => lineFrom_of_base (each_base _ _ (fun s e => cancelChains_base s n e) _))
    (fun d h => endDestroy_lineFrom h d) h

/-- A request that has left the line, and its mailbox no tried post, stays out of it. -/
theorem lineFrom.stays_out {r s t : State} {q : Req} (h : lineFrom r s) (hk : lineFrom s t) (ht : (r.h2f q.mbx).tried = none) (hq : q ∉ s.mbx.reqs) :
    q ∉ t.mbx.reqs := by
  intro hin
  rcases hk.2 q hin with hin | htried
  · exact hq hin
  · exact h.1 q.mbx htried ht

end Sys2Proof.Machine
end

section
/-!
SUPPORT and PROOFS. Heartbeats, the takeover and the loss of a hub (R513 to R515), and the requests about engines, lists, status and failover
(R372, R373, R469, R470, R475, R507).
-/
namespace Sys2Proof.Machine

variable {s t : State}

/-! ## Many hclk at once -/

theorem wakeClock_rest (s : State) (d : Nat) : (s.wakeClock d).2.pmon = s.pmon ∧ (s.wakeClock d).2.mbx = s.mbx := by
  unfold State.wakeClock
  split <;> exact ⟨rfl, rfl⟩

/-- A half that runs over more than one hclk meets no crossing: it counts nothing. -/
theorem runHalf_rest {n : Nat} (hn : n ≠ 1) (s : State) (d : Nat) : (s.runHalf n d).pmon = s.pmon ∧ (s.runHalf n d).mbx = s.mbx := by
  have hc := wakeClock_rest s d
  unfold State.runHalf
  extract_lets c t u on s1
  have h1 : s1.pmon = s.pmon ∧ s1.mbx = s.mbx := by
    simp only [s1, if_neg hn]
    split
    · exact hc
    · split
      · exact hc
      · exact hc
  split
  · exact h1
  · exact h1

theorem pass_rest {n : Nat} (hn : n ≠ 1) (s : State) : (s.pass n).pmon = s.pmon ∧ (s.pass n).mbx = s.mbx := by
  unfold State.pass
  extract_lets s1
  have h1 : (s1.pmon, s1.mbx) = (s.pmon, s.mbx) := by
    simp only [s1]
    split
    · exact each_of (fun s => (s.pmon, s.mbx)) _ _ (fun s d => Prod.ext (runHalf_rest hn s d).1 (runHalf_rest hn s d).2) s
    · rfl
  exact ⟨congrArg Prod.fst h1, congrArg Prod.snd h1⟩

/-! ## Events below severity 3 -/

theorem raise_mbx {ev : Ev} (hev : ev.idSev.2 ≠ 3) (s : State) (dom arg : Nat) : (s.raise ev dom arg).mbx = s.mbx := by
  unfold State.raise State.raiseBy
  extract_lets id sev trig off regs s0 pl s1 s2 s3
  have h1 : s1.mbx = s.mbx := by
    show s0.mbx = s.mbx
    simp only [s0]
    split <;> rfl
  have h2 : s2.mbx = s.mbx := by
    simp only [s2]
    split
    · exact (trace_mbx ..).trans h1
    · exact (trace_mbx ..).trans h1
    · exact h1
  split
  · rfl
  · split
    · rfl
    · exact h2

/-! ## The takeover (R513, R514) -/

/-- The state in which H1 serves, after the takeover's time has passed. -/
def State.h1Serves (s : State) : State :=
  let t := s.closeWindows.restartPatches.pass takeoverHclk
  let seeds := (t.rngHub 0).waiting.filter (fun w => decide (w.1 ≠ .host ∧ w.1 ≠ .prephor))
  let t1 := t.modHubs (fun h => { h with h0Lost := true, active := 1, standbyOk := false })
  let t2 := t1.modClk (fun c => { c with aligned := c.aligned &&& ~~~ BitVec.ofNat 60 (2 ^ 54 + 2 ^ 55 + 2 ^ 56) })
  (t2.modRngHub 0 (fun h => { h with waiting := [] })).modRngHub 1 (fun h => { h with waiting := h.waiting ++ seeds })

/-- The same with the ticks that the takeover missed, and what runs again. -/
def State.h1Ready (s : State) : State := (s.closeWindows.restartPatches.missTicks s.h1Serves).rerunRoute

theorem takeOver_eq (s : State) : s.takeOver = ((s.h1Ready.ringHost 9).bump .hub 2 1).raise .relFailover s.h1Ready.hubDomain 1 := rfl

theorem h1Serves_hubs (h : Flat s) : s.h1Serves.hubs = { s.hubs with h0Lost := true, active := 1, standbyOk := false } := by
  have _ := anyPart_fact
  have hk : Keeps False (fun q => q ≠ .hubs) s (s.closeWindows.restartPatches.pass takeoverHclk) := by
    have : Fact (Part.engines ≠ .hubs) := ⟨by decide⟩
    have : Fact (Part.rel ≠ .hubs) := ⟨by decide⟩
    have : Fact (Part.halves ≠ .hubs) := ⟨by decide⟩
    have : Fact (Part.hclk ≠ .hubs) := ⟨by decide⟩
    exact pass_keeps (restartPatches_keeps (closeWindows_keeps (Keeps.rfl' h))) takeoverHclk
  have heq : (s.closeWindows.restartPatches.pass takeoverHclk).hubs = s.hubs := hk.same .hubs (not_not.2 rfl)
  unfold State.h1Serves
  rw [← heq]
  rfl

/-- The parts that the takeover's missed ticks and reruns write. -/
def rerunWrites (q : Part) : Bool := [Part.halves, .engines, .route, .per, .rel, .hclk].contains q

theorem h1Serves_flat (h : Flat s) : Flat s.h1Serves := by
  have _ := anyPart_fact
  have hk : Keeps False anyPart s (s.closeWindows.restartPatches.pass takeoverHclk) := pass_keeps (restartPatches_keeps (closeWindows_keeps (Keeps.rfl' h))) _
  unfold State.h1Serves
  extract_lets t seeds t1 t2
  have ht : Flat t := hk.flat
  have h2 : Flat t2 := { ht with }
  exact (modRngHub_keeps (P := False) (W := anyPart) (modRngHub_keeps (Keeps.rfl' h2) 0 _) 1 _).flat

theorem h1Ready_keeps (h : Flat s) : Keeps False (fun q => rerunWrites q = true) s.h1Serves s.h1Ready := by
  have : Fact (rerunWrites .engines = true) := ⟨rfl⟩
  have : Fact (rerunWrites .per = true) := ⟨rfl⟩
  have : Fact (rerunWrites .rel = true) := ⟨rfl⟩
  have : Fact (rerunWrites .route = true) := ⟨rfl⟩
  exact rerunRoute_keeps (missTicks_keeps (Keeps.rfl' (h1Serves_flat h)))

theorem closeWindows_rest (s : State) : s.closeWindows.pmon = s.pmon ∧ s.closeWindows.mbx = s.mbx := by
  have heach := each_of (fun s => (s.pmon, s.mbx)) (s.rel.windows.filter (fun e => !s.granted e))
    (fun s e => s.modEng e (fun x => { x with heldItems := false })) (fun _ _ => rfl) s
  exact ⟨congrArg Prod.fst heach, congrArg Prod.snd heach⟩

theorem h1Serves_rest (s : State) : s.h1Serves.pmon = s.pmon ∧ s.h1Serves.mbx = s.mbx := by
  have hpass := pass_rest (n := takeoverHclk) (by decide) s.closeWindows.restartPatches
  have hclose := closeWindows_rest s
  exact ⟨hpass.1.trans hclose.1, hpass.2.trans hclose.2⟩

theorem endGrant_rest (s : State) (p : PerProg) : (s.endGrant p).pmon = s.pmon ∧ (s.endGrant p).mbx = s.mbx := ⟨rfl, rfl⟩

theorem progCount_ne (s : State) (p n : Nat) : (s.bumpBy .prog p 5 n).count .hub 2 1 = s.count .hub 2 1 :=
  count_bumpBy_ne s .prog p 5 n .hub 2 1 (by simp only [pmonOff, Grp.base]; omega)

/-- The count of failovers and the mailbox. -/
def State.overCount (s : State) : Nat × Mbx := (s.count .hub 2 1, s.mbx)

theorem overCount_of (h : t.pmon = s.pmon) (hm : t.mbx = s.mbx) : t.overCount = s.overCount := Prod.ext (count_of_pmon h ..) hm

theorem missTicks_overCount (s t : State) : (s.missTicks t).overCount = t.overCount := by
  unfold State.missTicks
  refine each_of State.overCount t.img.progs _ (fun u p => ?_) t
  extract_lets x n v
  have hv : v.overCount = u.overCount := by
    have h0 : (u.bumpBy .prog p.prog 5 n).overCount = u.overCount := Prod.ext (progCount_ne u p.prog n) (bumpBy_mbx u .prog p.prog 5 n)
    exact (overCount_of (s := u.bumpBy .prog p.prog 5 n) rfl rfl).trans h0
  clear_value v
  split
  · split
    · exact (overCount_of (endGrant_rest v p).1 (endGrant_rest v p).2).trans hv
    · exact hv
  · rfl

theorem rerunRoute_overCount (s : State) : s.rerunRoute.overCount = s.overCount := by
  have hcount : (s.bumpBy .route 0 7 s.route.sent.length).count .hub 2 1 = s.count .hub 2 1 := count_bumpBy_ne _ .route 0 7 _ .hub 2 1 (by decide)
  have h0 : (s.bumpBy .route 0 7 s.route.sent.length).overCount = s.overCount := Prod.ext hcount (bumpBy_mbx s .route 0 7 s.route.sent.length)
  unfold State.rerunRoute State.discardSent
  exact (overCount_of (s := s.bumpBy .route 0 7 s.route.sent.length) rfl rfl).trans h0

theorem h1Ready_overCount (s : State) : s.h1Ready.overCount = s.overCount := by
  have hserve := h1Serves_rest s
  rw [State.h1Ready, rerunRoute_overCount, missTicks_overCount, overCount_of hserve.1 hserve.2]

theorem h1Ready_rest (s : State) : s.h1Ready.count .hub 2 1 = s.count .hub 2 1 ∧ s.h1Ready.mbx = s.mbx :=
  ⟨congrArg Prod.fst (h1Ready_overCount s), congrArg Prod.snd (h1Ready_overCount s)⟩

theorem ringHost_bit (s : State) {i : Nat} (hi : i < 32) : (s.ringHost i).mbx.dbF2h.getLsbD i = true := by
  have hset : ((s.modMbx (fun m => { m with dbF2h := m.dbF2h ||| BitVec.ofNat 32 (2 ^ i) })).event (.dbF2h i)).mbx.dbF2h.getLsbD i = true := by
    rw [event_mbx]
    simp only [State.modMbx, BitVec.getLsbD_or, BitVec.getLsbD_ofNat, Nat.testBit_two_pow_self, hi, decide_true, Bool.and_true, Bool.or_true]
  unfold State.ringHost
  dsimp only
  split
  · exact hset
  · rw [msix_mbx]
    exact hset

theorem takeOver_facts (h : Flat s) : s.takeOver.hubs = { s.hubs with h0Lost := true, active := 1, standbyOk := false } ∧
    s.takeOver.mbx.dbF2h.getLsbD 9 = true ∧ s.takeOver.count .hub 2 1 = (s.count .hub 2 1 + 1) % 2 ^ 48 := by
  have hready := h1Ready_keeps h
  have hring := ringHost_flat hready.flat 9
  have hb := bump_flat hring .hub 2 1
  have hk : OtherIndex 1 := .inl (by decide)
  rw [takeOver_eq]
  refine ⟨?_, ?_, ?_⟩
  · have hraise := raise_same hb .relFailover s.h1Ready.hubDomain 1 .hubs
    have hr := ringHost_same hready.flat 9 .hubs
    have hh := hready.same .hubs Bool.false_ne_true
    exact hraise.trans (hr.trans (hh.trans (h1Serves_hubs h)))
  · rw [raise_mbx (by decide)]
    exact ringHost_bit _ (by decide)
  · rw [hk.raise, count_bump_same hring, count_of_pmon (ringHost_pmon ..), (h1Ready_rest s).1]

theorem takeOver_keeps_own (h : Flat s) : Keeps False (fun q => rerunWrites q = true ∨ q ∈ [Part.hubs, .clk, .rng]) s s.takeOver := by
  have : Fact (rerunWrites .engines = true ∨ Part.engines ∈ [Part.hubs, .clk, .rng]) := ⟨.inl rfl⟩
  have : Fact (rerunWrites .per = true ∨ Part.per ∈ [Part.hubs, .clk, .rng]) := ⟨.inl rfl⟩
  have : Fact (rerunWrites .rel = true ∨ Part.rel ∈ [Part.hubs, .clk, .rng]) := ⟨.inl rfl⟩
  have : Fact (rerunWrites .route = true ∨ Part.route ∈ [Part.hubs, .clk, .rng]) := ⟨.inl rfl⟩
  have : Fact (rerunWrites .halves = true ∨ Part.halves ∈ [Part.hubs, .clk, .rng]) := ⟨.inl rfl⟩
  have : Fact (rerunWrites .hclk = true ∨ Part.hclk ∈ [Part.hubs, .clk, .rng]) := ⟨.inl rfl⟩
  have : Fact (rerunWrites .hubs = true ∨ Part.hubs ∈ [Part.hubs, .clk, .rng]) := ⟨.inr (by decide)⟩
  have : Fact (rerunWrites .clk = true ∨ Part.clk ∈ [Part.hubs, .clk, .rng]) := ⟨.inr (by decide)⟩
  have : Fact (rerunWrites .rng = true ∨ Part.rng ∈ [Part.hubs, .clk, .rng]) := ⟨.inr (by decide)⟩
  exact takeOver_keeps (Keeps.rfl' h)

theorem takeOver_line (s : State) : s.takeOver.mbx.reqs = s.mbx.reqs ∧ s.takeOver.mbx.h2f = s.mbx.h2f := by
  have hring : (s.h1Ready.ringHost 9).mbx.reqs = s.mbx.reqs ∧ (s.h1Ready.ringHost 9).mbx.h2f = s.mbx.h2f := by
    rw [← (h1Ready_rest s).2]
    unfold State.ringHost
    dsimp only
    split
    · rw [event_mbx]
      exact ⟨rfl, rfl⟩
    · rw [msix_mbx, event_mbx]
      exact ⟨rfl, rfl⟩
  rw [takeOver_eq, raise_mbx (by decide)]
  exact hring

/-! ## The loss of a hub (R515) -/

theorem standbyLost_hubs (h : Flat s) (hs : s.hubs.standbyOk = true) : ∃ u, exec .standbyLost s = .next u ∧ u.engines = s.engines ∧
    u.hubs = { s.hubs with
      standbyOk := false, h0Lost := s.hubs.h0Lost || decide (otherHub s.hubs.active = 0),
      h1Lost := s.hubs.h1Lost || decide (otherHub s.hubs.active = 1) } := by
  have hf : Flat (s.modHubs (fun x => { x with
    standbyOk := false, h0Lost := x.h0Lost || decide (otherHub s.hubs.active = 0), h1Lost := x.h1Lost || decide (otherHub s.hubs.active = 1) })) := { h with }
  exact ⟨_, congrArg Host.Outcome.next (if_pos hs), raise_same hf .relStandbyLost s.hubDomain _ .engines, raise_same hf .relStandbyLost s.hubDomain _ .hubs⟩

theorem loseHub_dead (s : State) : s.loseHub.hubAlive = false := by
  unfold State.loseHub
  split
  · next ha => simp [State.hubAlive, ha]
  · next ha => simp [State.hubAlive, ha]

theorem loseHub_same (s : State) : s.loseHub.engines = s.engines ∧ s.loseHub.yards = s.yards := by
  unfold State.loseHub
  split <;> exact ⟨rfl, rfl⟩

/-- Settles O55: the takeover step by step, each step leaving what later ones have set. -/
theorem hubsFailOver : Obligations.HubsFailOver := by
  unfold Obligations.HubsFailOver
  intro s c hs
  have h : Flat s := (flat_iff s).2 hs
  refine ⟨fun hsb => ⟨_, congrArg Host.Outcome.next (if_pos hsb), rfl⟩, fun hsb hc => ?_, fun hok _ => ?_, fun hok => ?_⟩
  · obtain ⟨uhubs, ubit, ucount⟩ := takeOver_facts h
    have hk := takeOver_keeps_own h
    refine ⟨_, congrArg Host.Outcome.next (if_pos ⟨hsb, hc⟩), ?_⟩
    rw [uhubs]
    exact ⟨rfl, rfl, rfl, ubit, (hk.same .fences (by decide)).1, hk.same .queues (by decide), ucount⟩
  · obtain ⟨u, hx, ueng, uhubs⟩ := standbyLost_hubs h hok
    refine ⟨u, hx, ?_⟩
    rw [uhubs]
    refine ⟨rfl, fun ha => ?_, rfl, ueng⟩
    have hlost : (s.hubs.h1Lost || decide (otherHub 0 = 1)) = true := Bool.or_true s.hubs.h1Lost
    rw [ha]
    exact hlost
  · refine ⟨_, congrArg Host.Outcome.next (if_neg (by rw [hok]; exact Bool.false_ne_true)), loseHub_dead s, ?_⟩
    exact loseHub_same s

end Sys2Proof.Machine
end

section
/-!
SUPPORT and PROOFS. The requests about engines, lists, status and failover (R372, R373, R469, R470, R475, R507).
-/
namespace Sys2Proof.Machine

variable {s t : State} {e n : Nat} {r : Req} {α : Type}

/-! ## What the reports of a disabled engine leave alone (R373) -/

/-- The states of the engines and the mailbox apart from the reports of destructions are as they were. -/
def stateSame (s t : State) : Prop := t.mbx.base = s.mbx.base ∧ ∀ x, (t.eng x).st = (s.eng x).st

theorem stateSame.refl (s : State) : stateSame s s := ⟨rfl, fun _ => rfl⟩

theorem stateSame.trans {r s t : State} (h : stateSame r s) (k : stateSame s t) : stateSame r t := ⟨k.1.trans h.1, fun x => (k.2 x).trans (h.2 x)⟩

theorem stateSame_of (hb : t.mbx.base = s.mbx.base) (he : engSame s t) : stateSame s t := ⟨hb, fun x => (he x).2.2⟩

theorem modEng_stateSame (h : Flat s) (e : Nat) (f : Engine → Engine) (hf : ∀ g, (f g).st = g.st) : stateSame s (s.modEng e f) := by
  refine ⟨rfl, fun x => ?_⟩
  by_cases hx : x = e
  · subst hx
    rw [modEng_eng h, hf]
  · exact congrArg Engine.st (eng_setEng_ne s e x _ hx)

theorem postRecord_stateSame (h : Flat s) (e : Nat) (c : Cmd) (d : Done) : stateSame s (s.postRecord e c d) :=
  stateSame_of (postRecord_base s e c d) (postRecord_engSame h e c d)

theorem each_stateSame (xs : List α) (f : State → α → State) (hk : ∀ s x, Flat s → Flat (f s x)) (hs : ∀ s x, Flat s → stateSame s (f s x)) (h : Flat s) :
    stateSame s (s.each xs f) := each_rel stateSame.refl stateSame.trans xs f hk hs h

theorem reportRing_stateSame (fuel : Nat) : ∀ {s : State}, Flat s → ∀ e n, stateSame s (s.reportRing e n fuel) := by
  induction fuel with
  | zero => exact fun _ _ _ => stateSame.refl _
  | succ fuel ih =>
    intro s h e n
    unfold State.reportRing
    extract_lets q d c
    split
    · have h1 : Flat (s.setQueue n { q with head := q.head + 1 }) := modQueue_flat h n (fun q => { q with head := q.head + 1 })
      have h2 := postRecord_stateSame h1 e { c with chained := false } { status := stDisabled }
      have h0 : stateSame s (s.setQueue n { q with head := q.head + 1 }) := ⟨rfl, fun _ => rfl⟩
      exact (h0.trans h2).trans (ih (postRecord_flat h1 ..) e n)
    · exact stateSame.refl s

theorem postDisabled_flat (h : Flat s) (e : Nat) (c : Cmd) : Flat (s.postDisabled e c) := postRecord_flat h ..

theorem dropPreload_flat (h : Flat s) (e : Nat) (p : Preload) : Flat (s.dropPreload e p) := bump_flat (modEng_flat h e _) .engine e 2

theorem disablePreload_stateSame (h : Flat s) (e : Nat) : stateSame s (s.disablePreload e) := by
  unfold State.disablePreload
  split
  · exact stateSame.refl s
  · next p _ =>
    extract_lets s1
    have h1 : stateSame s s1 := stateSame_of rfl (dropPreload_engSame h e p)
    split
    · exact h1
    · exact h1.trans (postRecord_stateSame (dropPreload_flat h e p) ..)

theorem disablePrep_stateSame (h : Flat s) (e : Nat) : stateSame s (s.disablePrep e) := by
  unfold State.disablePrep
  split
  · split
    · have h0 : stateSame s (s.endWaits e) := ⟨rfl, fun _ => rfl⟩
      have hf : Flat (s.endWaits e) := by
        have _ := anyPart_fact
        exact (endWaits_keeps (P := False) (W := anyPart) (Keeps.rfl' h) e).flat
      exact (h0.trans (modEng_stateSame hf e (fun x => { x with cur := none }) fun _ => rfl)).trans (postRecord_stateSame (modEng_flat hf e _) ..)
    · exact stateSame.refl s
  · exact stateSame.refl s

theorem disableChains_stateSame (h : Flat s) (e : Nat) : stateSame s (s.disableChains e) := by
  have _ := anyPart_fact
  have hu (s : State) (k : Nat) (h : Flat s) : Flat (s.unfire e k) := (unfire_keeps (P := False) (W := anyPart) (Keeps.rfl' h) e k).flat
  unfold State.disableChains
  refine each_stateSame _ _ (fun s k h => ?_) (fun s k h => ?_) h
  · extract_lets x
    split
    · exact h
    · exact postDisabled_flat (modEng_flat (hu s k h) e _) ..
  · extract_lets x
    split
    · exact stateSame.refl s
    · have h0 : stateSame s (s.unfire e k) := stateSame_of (base_of_mbx (unfire_mbx s e k)) (engSame_of (unfire_engines s e k))
      have h1 : stateSame (s.unfire e k) ((s.unfire e k).setChain e k ChainSlot.reset) := modEng_stateSame (hu s k h) e _ fun _ => rfl
      exact (h0.trans h1).trans (postRecord_stateSame (modEng_flat (hu s k h) e _) ..)

theorem disableParked_stateSame (h : Flat s) (e : Nat) : stateSame s (s.disableParked e) := by
  unfold State.disableParked
  refine each_stateSame _ _ (fun s w h => postDisabled_flat (modEng_flat h e _) ..) (fun s w h => ?_) h
  have h0 : stateSame s (s.dropWait e w) := modEng_stateSame h e _ fun _ => rfl
  exact h0.trans (postRecord_stateSame (modEng_flat h e _) ..)

theorem disableRings_stateSame (h : Flat s) (e : Nat) : stateSame s (s.disableRings e) := by
  have _ := anyPart_fact
  unfold State.disableRings
  refine each_stateSame _ _ (fun s k h => ?_) (fun s k h => ?_) h
  · split
    · split
      · exact h
      · exact (reportRing_keeps (P := False) (W := anyPart) (Keeps.rfl' h) _ _ _).flat
    · exact h
  · split
    · split
      · exact stateSame.refl s
      · exact reportRing_stateSame _ h e _
    · exact stateSame.refl s

theorem disable_flat (h : Flat s) (e : Nat) : Flat (s.disable e) := by
  have _ := anyPart_fact
  exact (disable_keeps (P := False) (W := anyPart) (Keeps.rfl' h) e).flat

/-- A disable marks the engine and reports what it holds; the line stays as it was. -/
theorem disable_facts (h : Flat s) (e : Nat) : (s.disable e).mbx.base = s.mbx.base ∧ ((s.disable e).eng e).st = .disabling := by
  have _ := anyPart_fact
  unfold State.disable
  extract_lets s1
  have h1 : Flat s1 := modEng_flat h e _
  have k0 : Keeps False anyPart s1 s1 := Keeps.rfl' h1
  have k1 := disablePreload_keeps k0 e
  have k2 := disablePrep_keeps k1 e
  have k3 := disableChains_keeps k2 e
  have k4 := disableParked_keeps k3 e
  have hall := (((((disablePreload_stateSame h1 e)).trans (disablePrep_stateSame k1.flat e)).trans (disableChains_stateSame k2.flat e)).trans
    (disableParked_stateSame k3.flat e)).trans (disableRings_stateSame k4.flat e)
  refine ⟨hall.1, (hall.2 e).trans ?_⟩
  simp only [s1, modEng_eng h]

/-! ## ENGINE_DISABLE and ENGINE_ENABLE (R372, R373) -/

/-- The engine is being disabled, and its request waits in the background. -/
def State.disabling (s : State) (e : Nat) (r : Req) : State :=
  ((s.disable e).background r).modMbx (fun m => { m with bgDisable := m.bgDisable ++ [(e, r)] })

theorem exec_engineDisable (hr : s.headReq rqDisable = some r) (hrc : s.engineRc (fld (mBody r.msg) 0 1) = none) : exec .engineDisable s = .next (
    (if ((s.disabling (fld (mBody r.msg) 0 1) r).eng (fld (mBody r.msg) 0 1)).cur.isSome then s.disabling (fld (mBody r.msg) 0 1) r
      else (s.disabling (fld (mBody r.msg) 0 1) r).disabled (fld (mBody r.msg) 0 1)).endDestroys) := by
  have hx : exec .engineDisable s = execEngineDisable s := rfl
  rw [hx, execEngineDisable, hr]
  dsimp only
  rw [hrc]
  rfl

theorem background_flat (h : Flat s) (r : Req) : Flat (s.background r) := by
  have _ := anyPart_fact
  exact (background_keeps (P := False) (W := anyPart) (Keeps.rfl' h) r).flat

theorem background_engines (h : Flat s) (r : Req) : (s.background r).engines = s.engines := by
  have h1 : Flat ((s.takeNotice r).modMbx (fun m => { m with reqs := m.reqs.filter (fun x => decide (x ≠ r)) })) := { h with }
  exact serveHead_engines h1

theorem disabled_flat (h : Flat s) (e : Nat) : Flat (s.disabled e) := by
  have _ := anyPart_fact
  exact (disabled_keeps (P := False) (W := anyPart) (Keeps.rfl' h) e).flat

theorem disabled_st (h : Flat s) (e : Nat) : ((s.disabled e).eng e).st = .disabled := by
  rw [eng_of_engines (disabled_engines h e), modEng_eng h]

theorem disabling_flat (h : Flat s) (e : Nat) (r : Req) : Flat (s.disabling e r) := { background_flat (disable_flat h e) r with }

theorem disabling_st (h : Flat s) (e : Nat) (r : Req) : ((s.disabling e r).eng e).st = .disabling := by
  have heng : (s.disabling e r).engines = (s.disable e).engines := background_engines (disable_flat h e) r
  rw [eng_of_engines heng]
  exact (disable_facts h e).2

/-- The request of a disable stays out of the line, where no later post was tried in its hclk. -/
theorem disable_leftLine (h : Flat s) (e : Nat) (r : Req) {t : State} (ht : lineFrom (s.disabling e r) t) : s.leftLine t r := by
  intro htried
  have hd := lineFrom_of_base (disable_facts h e).1
  have hf := disable_flat h e
  have hb : lineFrom (s.disable e) (s.disabling e r) := (background_lineFrom hf r).trans ⟨fun _ h => h, fun _ h => .inl h⟩
  have hd0 : ((s.disable e).h2f r.mbx).tried = none := by
    by_contra hne
    exact hd.1 _ hne htried
  have hout : r ∉ (s.disabling e r).mbx.reqs := background_line hf r hd0
  exact lineFrom.stays_out hb ht hd0 hout

theorem fetches_of_not_idle (hst : (s.eng e).st ≠ .idle) : s.fetches e = false := by
  have hb : ((s.eng e).st == EngState.idle) = false := beq_eq_false_iff_ne.2 hst
  unfold State.fetches
  rw [hb, Bool.and_false, Bool.false_and, Bool.false_and, Bool.false_and]

theorem endReq_keeps_own (h : Flat s) (r : Req) (rc : Nat) (b : Bytes) : Keeps False (fun q => replyWrites q = true) s (s.endReq r rc b) := by
  have : Fact (replyWrites .data = true) := ⟨rfl⟩
  have : Fact (replyWrites .host = true) := ⟨rfl⟩
  exact endReq_keeps (Keeps.rfl' h) r rc b

theorem endReq_leftLine (h : Flat s) (r : Req) (rc : Nat) (b : Bytes) : s.leftLine (s.endReq r rc b) r := endReq_line h r rc b

theorem exec_engineEnable (hr : s.headReq rqEnable = some r) (hrc : s.engineRc (fld (mBody r.msg) 0 1) = none) : exec .engineEnable s = .next
    ((s.modEng (fld (mBody r.msg) 0 1) (fun x => if x.st = .disabled then { x with st := .idle } else x)).endReq r rcOk []) := by
  have hx : exec .engineEnable s = execEngineEnable s := rfl
  rw [hx, execEngineEnable, hr]
  dsimp only
  rw [hrc]

theorem exec_engineEnable_refused {rc : Nat} (hr : s.headReq rqEnable = some r) (hrc : s.engineRc (fld (mBody r.msg) 0 1) = some rc) :
    exec .engineEnable s = .next (s.endReq r rc []) := by
  have hx : exec .engineEnable s = execEngineEnable s := rfl
  rw [hx, execEngineEnable, hr]
  dsimp only
  rw [hrc]

theorem exec_failover (hr : s.headReq rqFailover = some r) (hsb : s.hasStandby = true) : exec .failover s = .next (s.takeOver.endReq r rcOk []) := by
  have hx : exec .failover s = execFailover s := rfl
  rw [hx, execFailover, hr]
  exact congrArg Host.Outcome.next (if_pos hsb)

/-- Settles O58: each request ends in a reply, which leaves the machine apart from memory as it was. -/
theorem otherRequests : Obligations.OtherRequests := by
  unfold Obligations.OtherRequests
  intro s r hs
  have h : Flat s := (flat_iff s).2 hs
  refine ⟨fun hr hrc => ?_, fun hr hrc => ?_, fun rc hr hrc => ?_, fun hr => ?_, fun hr => ?_, fun hr hsb => ?_⟩
  · have hf := disabling_flat h (fld (mBody r.msg) 0 1) r
    have hst := disabling_st h (fld (mBody r.msg) 0 1) r
    refine ⟨_, exec_engineDisable hr hrc, ?_⟩
    split
    · have hsame := (endDestroys_engSame hf (fld (mBody r.msg) 0 1)).2.2
      have hu := hsame.trans hst
      exact ⟨disable_leftLine h _ r (endDestroys_lineFrom hf), .inr hu, fetches_of_not_idle (by rw [hu]; nofun)⟩
    · have hd := disabled_flat hf (fld (mBody r.msg) 0 1)
      have hu := ((endDestroys_engSame hd (fld (mBody r.msg) 0 1)).2.2).trans (disabled_st hf _)
      exact ⟨disable_leftLine h _ r ((disabled_lineFrom hf _).trans (endDestroys_lineFrom hd)), .inl hu, fetches_of_not_idle (by rw [hu]; nofun)⟩
  · have hf := modEng_flat h (fld (mBody r.msg) 0 1) (fun x => if x.st = .disabled then { x with st := .idle } else x)
    refine ⟨_, exec_engineEnable hr hrc, endReq_leftLine hf r rcOk [], fun hst => ?_⟩
    rw [eng_of_engines ((endReq_keeps_own hf r rcOk []).same .engines Bool.false_ne_true), modEng_eng h, if_pos hst]
  · exact ⟨_, exec_engineEnable_refused hr hrc, endReq_leftLine h r rc [], (endReq_keeps_own h r rc []).same .engines Bool.false_ne_true⟩
  · have hx : exec .repairList s = execRepairList s := rfl
    have hk := endReq_keeps_own h r rcOk ((s.rel.items.map (fun i => i.bytes s.hclk)).flatten)
    refine ⟨_, by rw [hx, execRepairList, hr], endReq_leftLine h r rcOk _, hk.same .rel Bool.false_ne_true, hk.same .queues Bool.false_ne_true⟩
  · have hx : exec .hubStatus s = execHubStatus s := rfl
    have hk := endReq_keeps_own h r rcOk (toBytes 4 (s.regHub 0x100) ++ toBytes 4 s.hub.patchSeq ++ toBytes 4 s.hubs.active)
    refine ⟨_, by rw [hx, execHubStatus, hr], endReq_leftLine h r rcOk _, hk.same .hub Bool.false_ne_true, hk.same .hubs Bool.false_ne_true⟩
  · have hf := (takeOver_keeps_own h).flat
    have hhubs : (s.takeOver.endReq r rcOk []).hubs = s.takeOver.hubs := (endReq_keeps_own hf r rcOk []).same .hubs Bool.false_ne_true
    refine ⟨_, exec_failover hr hsb, fun ht => endReq_line hf r rcOk [] ?_, ?_⟩
    · rw [h2f_of_mbx (takeOver_line s).2, ht]
    · rw [hhubs, (takeOver_facts h).1]
      exact ⟨rfl, rfl⟩

end Sys2Proof.Machine
end

section
/-!
SUPPORT and PROOFS. Requests about queues and pages (R380, R392, R393, R400, R469, R471).
-/
namespace Sys2Proof.Machine

variable {s t : State} {r : Req} {n : Nat} {α : Type}

/-! ## What replies leave of the mailbox (R465, R467) -/

/-- What Prephor holds: destructions, commands, the request that waits for a window, and the engines being disabled. -/
def Mbx.held (m : Mbx) : List Destroy × List Cmd × Option Req × List (Nat × Req) := (m.destroys, m.privs, m.windowReq, m.bgDisable)

theorem ringHost_held (s : State) (i : Nat) : (s.ringHost i).mbx.held = s.mbx.held := by
  unfold State.ringHost
  dsimp only
  split
  · rw [event_mbx]
    rfl
  · rw [msix_mbx, event_mbx]
    rfl

theorem held_of_mbx (h : t.mbx = s.mbx) : t.mbx.held = s.mbx.held := congrArg Mbx.held h

theorem readPost_held (s : State) (m : Nat) (v : Word) : (s.readPost m v).mbx.held = s.mbx.held := by
  unfold State.readPost
  extract_lets h ptr s1 s2 add
  have h2 : s2.mbx.held = s.mbx.held := rfl
  have hadd (u : State) (msg : Bytes) (fault : Nat) (hu : u.mbx.held = s.mbx.held) : (add u msg fault).mbx.held = s.mbx.held := hu
  clear_value s2 add
  split
  · exact hadd _ _ _ h2
  · split
    · split <;> exact hadd _ _ _ h2
    · split
      · exact hadd _ _ _ ((held_of_mbx (xlatFault_mbx ..)).trans h2)
      · exact hadd _ _ _ ((held_of_mbx (devNote_mbx ..)).trans h2)

theorem retryPost_held (s : State) (m : Nat) : (s.retryPost m).mbx.held = s.mbx.held := by
  unfold State.retryPost
  dsimp only
  split
  · split
    · exact readPost_held ..
    · rfl
  · rfl

theorem reply_held (s : State) (r : Req) (rc : Nat) (b : Bytes) : (s.reply r rc b).mbx.held = s.mbx.held := by
  unfold State.reply
  extract_lets seq bs s1 x s2
  have h1 : s1.mbx = s.mbx := by
    simp only [s1]
    split
    · split
      · exact hostWrite_mbx _ _ _
      · split
        · exact devWrite_mbx _ _ _
        · exact xlatFault_mbx _ _ _ _ _
    · rfl
  have h2 : s2.mbx.held = s1.mbx.held := rfl
  clear_value s2
  rw [retryPost_held, ringHost_held]
  exact h2.trans (held_of_mbx h1)

theorem serveBad_held (n : Nat) : ∀ s : State, (s.serveBad n).mbx.held = s.mbx.held := by
  induction n with
  | zero => exact fun _ => rfl
  | succ n ih =>
    intro s
    unfold State.serveBad
    split
    · rfl
    · split
      · split
        · rfl
        · rw [ih, reply_held]
          rfl
      · rfl

theorem serveHead_held (s : State) : s.serveHead.mbx.held = s.mbx.held := serveBad_held 4 s

theorem endReq_held (s : State) (r : Req) (rc : Nat) (b : Bytes) : (s.endReq r rc b).mbx.held = s.mbx.held :=
  (serveHead_held _).trans (reply_held (s.takeNotice r) r rc b)

theorem background_held (s : State) (r : Req) : (s.background r).mbx.held = s.mbx.held := serveHead_held _

/-! ## Queues (R380, R393) -/

theorem setQueue_flat (h : Flat s) (n : Nat) (q : Queue) : Flat (s.setQueue n q) := { h with queues := swf_sset Queue.reset s.queues n q h.queues }

theorem endReq_queues (h : Flat s) (r : Req) (rc : Nat) (b : Bytes) : (s.endReq r rc b).queues = s.queues :=
  (endReq_keeps_own h r rc b).same .queues Bool.false_ne_true

theorem endReq_img (h : Flat s) (r : Req) (rc : Nat) (b : Bytes) : (s.endReq r rc b).img = s.img := (endReq_keeps_own h r rc b).same .img Bool.false_ne_true

theorem exec_queueCreate (hr : s.headReq rqCreate = some r) (hn : s.createTarget r.mbx (mBody r.msg) = .ok n) :
    exec .queueCreate s = .next ((s.setQueue n (s.newQueue (mBody r.msg) r.mbx)).endReq r rcOk (toBytes 2 n ++ zeros 2)) := by
  have hx : exec .queueCreate s = execQueueCreate s := rfl
  rw [hx, execQueueCreate, hr]
  dsimp only
  rw [hn]

theorem exec_queueCreate_refused {rc : Nat} (hr : s.headReq rqCreate = some r) (hn : s.createTarget r.mbx (mBody r.msg) = .error rc) :
    exec .queueCreate s = .next (s.endReq r rc []) := by
  have hx : exec .queueCreate s = execQueueCreate s := rfl
  rw [hx, execQueueCreate, hr]
  dsimp only
  rw [hn]

theorem exec_queueBudget (hr : s.headReq rqBudget = some r) :
    exec .queueBudget s = .next ((s.budget r.mbx (mBody r.msg)).2.endReq r (s.budget r.mbx (mBody r.msg)).1 []) := by
  have hx : exec .queueBudget s = execQueueBudget s := rfl
  rw [hx, execQueueBudget, hr]

/-- No refusal of a queue has the code of success. -/
theorem queueRc_ne_ok {m n rc : Nat} (h : s.queueRc m n = some rc) : rc ≠ rcOk := by
  unfold State.queueRc at h
  dsimp only at h
  split at h
  · exact Option.some.inj h ▸ by decide
  · split at h
    · exact Option.some.inj h ▸ by decide
    · split at h
      · exact Option.some.inj h ▸ by decide
      · cases h

/-- A budget that is refused changes nothing; one that is granted sets what its bits name. -/
theorem budget_cases (s : State) (m : Nat) (b : Bytes) : ((s.budget m b).1 ≠ rcOk ∧ (s.budget m b).2 = s) ∨
    s.budget m b = (rcOk, s.modQueue (fld b 0 2) (fun q => { q with
      pages := if bit (fld b 2 1) 0 then fld b 4 4 else q.pages, share := if bit (fld b 2 1) 1 then fld b 8 2 else q.share })) := by
  unfold State.budget
  extract_lets n setPages setShare pages share foot low
  clear_value low
  have hbad : rcBadRequest ≠ rcOk := by decide
  have hlow : rcBelowUse ≠ rcOk := by decide
  split
  · exact .inl ⟨hbad, rfl⟩
  · split
    · next rc hrc => exact .inl ⟨queueRc_ne_ok hrc, rfl⟩
    · split
      · exact .inl ⟨hbad, rfl⟩
      · split
        · exact .inl ⟨hlow, rfl⟩
        · exact .inr rfl

/-! ## Pages (R392) -/

/-- Entries of the translation that are valid in `s` are in `t` as they were. -/
def validStays (s t : State) : Prop := ∀ v, (s.xlat v).valid = true → t.xlat v = s.xlat v

theorem mapPages_validStays (q flags : Nat) (k : Nat) : ∀ (s : State) (v done : Nat), validStays s (s.mapPages q flags v k done).2.2 := by
  induction k with
  | zero => exact fun _ _ _ _ _ => rfl
  | succ k ih =>
    intro s v done x hx
    unfold State.mapPages
    split
    · rfl
    · next hv =>
      split
      · rfl
      · next p _ =>
        have hne : x ≠ v := by
          rintro rfl
          exact hv hx
        have hset : (s.setXlat v ⟨p, true, bit flags 0, bit flags 1, some q⟩).xlat x = s.xlat x := xlat_setXlat_ne s v x _ hne
        have hstep : ∀ u : State, u.xlat x = s.xlat x → (u.mapPages q flags (v + 1) k (done + 1)).2.2.xlat x = s.xlat x := fun u hu =>
          (ih u (v + 1) (done + 1) x (by rw [hu]; exact hx)).trans hu
        exact hstep _ hset

theorem mapRequest_facts (s : State) (m : Nat) (b : Bytes) : validStays s (s.mapRequest m b).2.2 ∧
    ((s.queue (fld b 0 2)).pages < (s.queue (fld b 0 2)).usePages + fld b 4 4 → (s.mapRequest m b).2.2.img.xlat = s.img.xlat) := by
  unfold State.mapRequest
  dsimp only
  split
  · exact ⟨fun _ _ => rfl, fun _ => rfl⟩
  · split
    · exact ⟨fun _ _ => rfl, fun _ => rfl⟩
    · split
      · exact ⟨fun _ _ => rfl, fun _ => rfl⟩
      · next hquota => exact ⟨mapPages_validStays _ _ _ s _ 0, fun h => absurd h hquota⟩

/-- Entries of the translation that queue `q` does not own in `s` are in `t` as they were. -/
def othersStay (q : Nat) (s t : State) : Prop := ∀ v, (s.xlat v).owner ≠ some q → t.xlat v = s.xlat v

theorem unmapPages_othersStay (q : Nat) (k : Nat) : ∀ (s : State) (v done : Nat), othersStay q s (s.unmapPages q v k done).2.2 := by
  induction k with
  | zero => exact fun _ _ _ _ _ => rfl
  | succ k ih =>
    intro s v done x hx
    unfold State.unmapPages
    dsimp only
    split
    · rfl
    · split
      · rfl
      · next howner =>
        have hne : x ≠ v := by
          rintro rfl
          exact howner hx
        have hset : (s.setXlat v Xlat.reset).xlat x = s.xlat x := xlat_setXlat_ne s v x _ hne
        have hstep : ∀ u : State, u.xlat x = s.xlat x → (u.unmapPages q (v + 1) k (done + 1)).2.2.xlat x = s.xlat x := fun u hu =>
          (ih u (v + 1) (done + 1) x (by rw [hu]; exact hx)).trans hu
        split
        · exact hstep _ hset
        · exact hstep _ hset

theorem unmapRequest_othersStay (s : State) (m : Nat) (b : Bytes) : othersStay (fld b 0 2) s (s.unmapRequest m b).2.2 := by
  unfold State.unmapRequest
  dsimp only
  split
  · exact fun _ _ => rfl
  · split
    · next hq =>
      split
      · exact unmapPages_othersStay _ _ s _ 0
      · exact fun _ _ => rfl
    · split
      · exact fun _ _ => rfl
      · exact unmapPages_othersStay _ _ s _ 0

theorem exec_map (hr : s.headReq rqMap = some r) (hret : s.rangeRetiring (fld (mBody r.msg) 8 4) (fld (mBody r.msg) 4 4) = false) : exec .map s = .next
    ((s.mapRequest r.mbx (mBody r.msg)).2.2.endReq r (s.mapRequest r.mbx (mBody r.msg)).1 (toBytes 4 (s.mapRequest r.mbx (mBody r.msg)).2.1)) := by
  have hx : exec .map s = execMap s := rfl
  rw [hx, execMap, hr]
  exact congrArg Host.Outcome.next (if_neg (by rw [hret]; exact Bool.false_ne_true))

theorem exec_unmap (hr : s.headReq rqUnmap = some r) (hret : s.rangeRetiring (fld (mBody r.msg) 8 4) (fld (mBody r.msg) 4 4) = false) : exec .unmap s = .next
    ((s.unmapRequest r.mbx (mBody r.msg)).2.2.endReq r (s.unmapRequest r.mbx (mBody r.msg)).1 (toBytes 4 (s.unmapRequest r.mbx (mBody r.msg)).2.1)) := by
  have hx : exec .unmap s = execUnmap s := rfl
  rw [hx, execUnmap, hr]
  exact congrArg Host.Outcome.next (if_neg (by rw [hret]; exact Bool.false_ne_true))

theorem mapPages_mbx (q flags : Nat) (k : Nat) : ∀ (s : State) (v done : Nat), (s.mapPages q flags v k done).2.2.mbx = s.mbx := by
  induction k with
  | zero => exact fun _ _ _ => rfl
  | succ k ih =>
    intro s v done
    unfold State.mapPages
    split
    · rfl
    · split
      · rfl
      · exact (ih ..).trans rfl

theorem mapRequest_mbx (s : State) (m : Nat) (b : Bytes) : (s.mapRequest m b).2.2.mbx = s.mbx := by
  unfold State.mapRequest
  dsimp only
  split
  · rfl
  · split
    · rfl
    · split
      · exact bumpBy_mbx ..
      · exact mapPages_mbx ..

theorem unmapPages_mbx (q : Nat) (k : Nat) : ∀ (s : State) (v done : Nat), (s.unmapPages q v k done).2.2.mbx = s.mbx := by
  induction k with
  | zero => exact fun _ _ _ => rfl
  | succ k ih =>
    intro s v done
    unfold State.unmapPages
    dsimp only
    split
    · rfl
    · split
      · rfl
      · refine (ih ..).trans ?_
        split <;> rfl

theorem unmapRequest_mbx (s : State) (m : Nat) (b : Bytes) : (s.unmapRequest m b).2.2.mbx = s.mbx := by
  unfold State.unmapRequest
  dsimp only
  split
  · rfl
  · split
    · split
      · exact unmapPages_mbx ..
      · rfl
    · split
      · rfl
      · exact unmapPages_mbx ..

/-- A request that ends in a state with the mailbox of `s` has left the line of `s`. -/
theorem endReq_leftLine_of_mbx (h : Flat t) (hm : t.mbx = s.mbx) (r : Req) (rc : Nat) (b : Bytes) : s.leftLine (t.endReq r rc b) r := fun ht =>
  endReq_line h r rc b (by rw [h2f_of_mbx (congrArg Mbx.h2f hm), ht])

/-! ## The destruction of a queue with nothing running (R400) -/

theorem each_of_same {f : State → α → State} (xs : List α) (hf : ∀ x ∈ xs, f s x = s) : s.each xs f = s := by
  induction xs with
  | nil => rfl
  | cons x xs ih =>
    rw [State.each, List.foldl_cons, hf x List.mem_cons_self]
    exact ih fun y hy => hf y (List.mem_cons_of_mem x hy)

/-- No engine holds a command, a preload, a parked wait or a chain slot. -/
def State.quietEngines (s : State) : Prop := ∀ e, (s.eng e).cur = none ∧ (s.eng e).preload = none ∧ (s.eng e).waits = [] ∧ (s.eng e).chain = []

theorem cancelChains_of_quiet (hq : s.quietEngines) (n e : Nat) : s.cancelChains n e = s := by
  unfold State.cancelChains
  refine each_of_same _ fun k _ => ?_
  have hslot : s.chainSlot e k = ChainSlot.reset := by
    obtain ⟨-, -, -, hchain⟩ := hq e
    rw [State.chainSlot, hchain]
    rfl
  rw [hslot]
  rfl

theorem cancelHeld_of_quiet (hq : s.quietEngines) (n e : Nat) : s.cancelHeld n e = s := by
  obtain ⟨-, hpre, hwaits, -⟩ := hq e
  unfold State.cancelHeld
  rw [hpre]
  dsimp only
  rw [hwaits]
  rfl

theorem endRunning_of_quiet (hq : s.quietEngines) (n : Nat) (kill : Bool) (a : List (Nat × Progress)) (e : Nat) : s.endRunning n kill a e = s := by
  obtain ⟨hcur, -, -, -⟩ := hq e
  unfold State.endRunning
  rw [hcur]

theorem cancelAll_of_quiet (hq : s.quietEngines) (n : Nat) : s.each (upto 21) (fun s e => s.cancelChains n e) = s :=
  each_of_same (upto 21) fun e _ => cancelChains_of_quiet hq n e

theorem cancelAllHeld_of_quiet (hq : s.quietEngines) (n : Nat) : s.each (upto 21) (fun s e => s.cancelHeld n e) = s :=
  each_of_same (upto 21) fun e _ => cancelHeld_of_quiet hq n e

theorem endAllRunning_of_quiet (hq : s.quietEngines) (n : Nat) (kill : Bool) (a : List (Nat × Progress)) :
    s.each (upto 21) (State.endRunning · n kill a) = s := each_of_same (upto 21) fun e _ => endRunning_of_quiet hq n kill a e

theorem queueBusy_of_quiet (hq : s.quietEngines) (hp : s.mbx.privs = []) (n : Nat) : s.queueBusy n = false := by
  unfold State.queueBusy
  rw [hp, List.any_nil, Bool.or_false, List.any_eq_false]
  intro e _
  obtain ⟨hcur, -, -, -⟩ := hq e
  rw [hcur]
  exact Bool.false_ne_true

theorem endDestroys_of_quiet (hq : s.quietEngines) (hp : s.mbx.privs = []) {d : Destroy} (hd : s.mbx.destroys = [d]) : s.endDestroys = s.endDestroy d := by
  have hcancel := cancelAll_of_quiet hq d.queue
  have hone : s.endOne d = s.endDestroy d := by
    unfold State.endOne
    rw [queueBusy_of_quiet hq hp, if_neg Bool.false_ne_true, hcancel]
    dsimp only
    rw [hd, List.find?_cons_of_pos (by simp)]
  rw [endDestroys_eq, hd, State.each, List.foldl_cons, List.foldl_nil, hone]

theorem endDestroy_held (s : State) (d : Destroy) : (s.endDestroy d).mbx.destroys = s.mbx.destroys.filter (fun x => x.queue != d.queue) := by
  unfold State.endDestroy
  extract_lets q bs s1 s2 im s3 s4 s5
  have h1 : s1.mbx = s.mbx := by
    simp only [s1]
    split
    · exact hostWrite_mbx _ _ _
    · exact hubWrite_mbx _ _ _
  have h2 : s2.mbx = s1.mbx := by
    simp only [s2]
    split <;> rfl
  have h5 : s5.mbx = { s2.mbx with destroys := s2.mbx.destroys.filter (fun x => x.queue != d.queue) } := by
    simp only [s5, modMbx_mbx, setQueue_mbx, s4, s3]
  clear_value s5
  have hheld : (s5.reply d.req rcOk []).serveHead.mbx.held = s5.mbx.held := (serveHead_held _).trans (reply_held ..)
  rw [h5, h2, h1] at hheld
  exact congrArg Prod.fst hheld

theorem reply_keeps_own (h : Flat s) (r : Req) (rc : Nat) (b : Bytes) : Keeps False (fun q => replyWrites q = true) s (s.reply r rc b) := by
  have : Fact (replyWrites .data = true) := ⟨rfl⟩
  have : Fact (replyWrites .host = true) := ⟨rfl⟩
  exact reply_keeps (Keeps.rfl' h) r rc b

/-- The queue of a destruction that ends is FREE. -/
theorem endDestroy_queue (h : Flat s) (d : Destroy) : (s.endDestroy d).queue d.queue = Queue.reset := by
  unfold State.endDestroy
  extract_lets q bs s1 s2 im s3 s4 s5
  have _ := anyPart_fact
  have k1 : Keeps False anyPart s s1 := by
    simp only [s1]
    split
    · exact hostWrite_keeps (Keeps.rfl' h) _ _
    · exact hubWrite_keeps (Keeps.rfl' h) _ _
  have k2 : Keeps False anyPart s s2 := by
    simp only [s2]
    split
    · exact k1
    · exact modSlot_keeps k1 _ _
  have k3 : Keeps False anyPart s s3 := xlat_keeps k2 _ (swf_smap _ _ _ k2.flat.xlat)
  have k4 : Keeps False anyPart s s4 := slots_keeps k3 _ (swf_smap _ _ _ k3.flat.slots)
  have f5 : Flat s5 := { (setQueue_keeps k4 d.queue Queue.reset).flat with }
  have hq5 : s5.queue d.queue = Queue.reset := (queue_of_queues rfl _).trans (queue_setQueue_same s4 d.queue Queue.reset k4.flat.queues)
  clear_value s5
  have hqueues : (s5.reply d.req rcOk []).serveHead.queues = s5.queues :=
    Eq.trans ((serveHead_keeps_own (reply_flat f5 d.req rcOk [])).same .queues Bool.false_ne_true)
      ((reply_keeps_own f5 d.req rcOk []).same .queues Bool.false_ne_true)
  rw [queue_of_queues hqueues, hq5]

theorem background_keeps_own (h : Flat s) (r : Req) : Keeps False (fun q => replyWrites q = true) s (s.background r) := by
  have : Fact (replyWrites .data = true) := ⟨rfl⟩
  have : Fact (replyWrites .host = true) := ⟨rfl⟩
  exact background_keeps (Keeps.rfl' h) r

/-- The destruction that a request begins, with the counts of its report to come. -/
def State.destruction (s : State) (r : Req) : Destroy :=
  ⟨fld (mBody r.msg) 0 2, fld (mBody r.msg) 2 1, fld (mBody r.msg) 8 8, r, s.hclk,
    (s.queue (fld (mBody r.msg) 0 2)).tail - (s.queue (fld (mBody r.msg) 0 2)).head, [], [], [], []⟩

/-- The queue is DESTROYING, and its request waits in the background. -/
def State.destroying (s : State) (r : Req) : State :=
  ((s.background r).setQueue (fld (mBody r.msg) 0 2) { s.queue (fld (mBody r.msg) 0 2) with st := .destroying }).modMbx (fun m =>
    { m with destroys := m.destroys ++ [s.destruction r] })

theorem destroying_flat (h : Flat s) (r : Req) : Flat (s.destroying r) := by
  have hf := setQueue_flat (background_flat h r) (fld (mBody r.msg) 0 2) { s.queue (fld (mBody r.msg) 0 2) with st := .destroying }
  exact { hf with }

theorem destroying_quiet (h : Flat s) (r : Req) (hq : s.quietEngines) : (s.destroying r).quietEngines := fun e => by
  have heng : (s.destroying r).engines = s.engines := background_engines h r
  rw [eng_of_engines heng]
  exact hq e

theorem destroying_held (s : State) (r : Req) :
    (s.destroying r).mbx.destroys = s.mbx.destroys ++ [s.destruction r] ∧ (s.destroying r).mbx.privs = s.mbx.privs := by
  have hheld := background_held s r
  have hd : (s.background r).mbx.destroys = s.mbx.destroys := congrArg Prod.fst hheld
  have hp : (s.background r).mbx.privs = s.mbx.privs := congrArg (fun x => x.2.1) hheld
  have heq : (s.destroying r).mbx = { (s.background r).mbx with destroys := (s.background r).mbx.destroys ++ [s.destruction r] } := by
    rw [State.destroying, modMbx_mbx, setQueue_mbx]
  rw [heq]
  exact ⟨congrArg (· ++ [s.destruction r]) hd, hp⟩

theorem destroyQueue_of_quiet (h : Flat s) (r : Req) (a : List (Nat × Progress)) (hq : s.quietEngines) (hp : s.mbx.privs = []) (hd : s.mbx.destroys = []) :
    s.destroyQueue r a = (s.destroying r).endDestroy (s.destruction r) := by
  have hq1 := destroying_quiet h r hq
  obtain ⟨hd1, hp1⟩ := destroying_held s r
  rw [hd, List.nil_append] at hd1
  rw [hp] at hp1
  unfold State.destroyQueue
  extract_lets b n kill q d s1 s2
  have hs1 : s1 = s.destroying r := rfl
  clear_value s1
  subst hs1
  have hs2 : s2 = s.destroying r := by
    simp only [s2]
    rw [cancelAll_of_quiet hq1, cancelAllHeld_of_quiet hq1]
  rw [hs2, endAllRunning_of_quiet hq1, State.endPrivs, hp1]
  exact endDestroys_of_quiet hq1 hp1 hd1

theorem exec_queueDestroy {a : List (Nat × Progress)} (hr : s.headReq rqDestroy = some r) (hrc : s.destroyRc r = none) :
    exec (.queueDestroy a) s = .next (s.destroyQueue r a) := by
  have hx : exec (.queueDestroy a) s = execQueueDestroy a s := rfl
  rw [hx, execQueueDestroy, hr]
  dsimp only
  rw [hrc]

/-- Settles O57: each request ends in its reply; a destruction with nothing running ends in its own step. -/
theorem queueAndPageRequests : Obligations.QueueAndPageRequests := by
  unfold Obligations.QueueAndPageRequests
  intro s r hs
  have h : Flat s := (flat_iff s).2 hs
  have _ := anyPart_fact
  refine ⟨fun n hr hn => ?_, fun rc hr hn => ?_, fun hr => ?_, fun a hr hrc hquiet hp hd => ?_, fun hr hret => ?_, fun hr hret => ?_⟩
  · have hf := setQueue_flat h n (s.newQueue (mBody r.msg) r.mbx)
    have hqueues := endReq_queues hf r rcOk (toBytes 2 n ++ zeros 2)
    have hn' : ((s.setQueue n (s.newQueue (mBody r.msg) r.mbx)).endReq r rcOk (toBytes 2 n ++ zeros 2)).queue n = s.newQueue (mBody r.msg) r.mbx := by
      rw [queue_of_queues hqueues, queue_setQueue_same s n _ h.queues]
    refine ⟨_, exec_queueCreate hr hn, endReq_leftLine_of_mbx hf (setQueue_mbx ..) r rcOk _, hn', ?_, ?_, ?_, ?_, fun m hm => ?_⟩
    · rw [hn']; rfl
    · rw [hn']; rfl
    · rw [hn']; rfl
    · rw [hn']; rfl
    · rw [queue_of_queues hqueues, queue_setQueue_ne s n m _ hm]
  · exact ⟨_, exec_queueCreate_refused hr hn, endReq_leftLine h r rc [], endReq_queues h r rc []⟩
  · refine ⟨_, exec_queueBudget hr, ?_⟩
    rcases budget_cases s r.mbx (mBody r.msg) with ⟨hrc, hsame⟩ | hok
    · rw [hsame]
      exact ⟨endReq_leftLine h r _ [], fun _ hrc' => absurd hrc' hrc, fun _ => endReq_queues h r _ []⟩
    · rw [hok]
      have hf := modQueue_flat h (fld (mBody r.msg) 0 2) (fun q => { q with
        pages := if bit (fld (mBody r.msg) 2 1) 0 then fld (mBody r.msg) 4 4 else q.pages,
        share := if bit (fld (mBody r.msg) 2 1) 1 then fld (mBody r.msg) 8 2 else q.share })
      refine ⟨endReq_leftLine_of_mbx hf rfl r rcOk [], fun h3 _ => ?_, fun hne => absurd rfl hne⟩
      rw [queue_of_queues (endReq_queues hf r rcOk []), modQueue_queue_same h, h3]
      rfl
  · have hf := destroying_flat h r
    refine ⟨_, exec_queueDestroy hr hrc, ?_⟩
    rw [destroyQueue_of_quiet h r a hquiet hp hd]
    refine ⟨fun ht => ?_, endDestroy_queue hf (s.destruction r), ?_⟩
    · have hback : lineFrom (s.background r) (s.destroying r) := ⟨fun _ h => h, fun _ h => .inl h⟩
      exact lineFrom.stays_out (background_lineFrom h r) (hback.trans (endDestroy_lineFrom hf _)) ht (background_line h r ht)
    · rw [endDestroy_held, (destroying_held s r).1, hd, List.nil_append, List.filter_cons_of_neg (by simp), List.filter_nil]
  · obtain ⟨hvalid, hquota⟩ := mapRequest_facts s r.mbx (mBody r.msg)
    have hf : Flat (s.mapRequest r.mbx (mBody r.msg)).2.2 := (mapRequest_keeps (P := False) (W := anyPart) (Keeps.rfl' h) r.mbx (mBody r.msg)).flat
    have himg := endReq_img hf r (s.mapRequest r.mbx (mBody r.msg)).1 (toBytes 4 (s.mapRequest r.mbx (mBody r.msg)).2.1)
    refine ⟨_, exec_map hr hret, endReq_leftLine_of_mbx hf (mapRequest_mbx ..) r _ _, fun hq => ?_, fun v hv => ?_⟩
    · rw [himg]
      exact hquota hq
    · rw [State.xlat, himg]
      exact hvalid v hv
  · have hf : Flat (s.unmapRequest r.mbx (mBody r.msg)).2.2 := (unmapRequest_keeps (P := False) (W := anyPart) (Keeps.rfl' h) r.mbx (mBody r.msg)).flat
    have himg := endReq_img hf r (s.unmapRequest r.mbx (mBody r.msg)).1 (toBytes 4 (s.unmapRequest r.mbx (mBody r.msg)).2.1)
    refine ⟨_, exec_unmap hr hret, endReq_leftLine_of_mbx hf (unmapRequest_mbx ..) r _ _, fun v hv => ?_⟩
    rw [State.xlat, himg]
    exact unmapRequest_othersStay s r.mbx (mBody r.msg) v hv

end Sys2Proof.Machine
end

section
/-!
SUPPORT and PROOFS. The flash under programming, and MRST#, PFAIL# and PERST# (R434, R529, R559).
-/
namespace Sys2Proof.Machine

variable {s t : State} {k a : Nat}

/-! ## Programming -/

theorem programByte_ne (m : Sparse Byte) (a : Nat) (b : Byte) {k : Nat} (hk : k ≠ a) : sget flashErased (programByte m a b) k = sget flashErased m k :=
  sget_sset_ne _ _ _ _ _ hk

theorem foldl_programByte_ne (xs : List (Nat × Byte)) (a k : Nat) (hk : ∀ x ∈ xs, k ≠ a + x.1) (m : Sparse Byte) :
    sget flashErased (xs.foldl (fun m x => programByte m (a + x.1) x.2) m) k = sget flashErased m k := by
  induction xs generalizing m with
  | nil => rfl
  | cons x xs ih =>
    rw [List.foldl_cons, ih fun y hy => hk y (List.mem_cons_of_mem x hy)]
    exact programByte_ne m _ _ (hk x List.mem_cons_self)

theorem lt_of_mem_indexed {α : Type} {xs : List α} {x : Nat × α} (h : x ∈ indexed xs) : x.1 < xs.length :=
  List.mem_range.1 (List.of_mem_zip h).1

/-- Programming `bs` from `a` touches no byte outside them. -/
theorem program_flash_ne (s : State) (a : Nat) (bs : Bytes) (hk : k < a ∨ a + bs.length ≤ k) :
    sget flashErased (s.program a bs).flash k = sget flashErased s.flash k :=
  foldl_programByte_ne (indexed bs) a k (fun x hx => by have := lt_of_mem_indexed hx; omega) s.flash

/-! ## The bytes of event records (R536) -/

theorem length_toBytes (n v : Nat) : (toBytes n v).length = n := by
  induction n generalizing v with
  | zero => rfl
  | succ n ih => rw [toBytes, List.length_cons, ih]

theorem length_zeros (n : Nat) : (zeros n).length = n := List.length_replicate

theorem length_flatten_of_all {α : Type} {f : α → Bytes} {n : Nat} (xs : List α) (h : ∀ x ∈ xs, (f x).length = n) : (xs.map f).flatten.length = n * xs.length := by
  induction xs with
  | nil => rfl
  | cons x xs ih =>
    rw [List.map_cons, List.flatten_cons, List.length_append, h x List.mem_cons_self, ih fun y hy => h y (List.mem_cons_of_mem x hy), List.length_cons]
    ring

theorem length_evRec_bytes {r : EvRec} (h : r.regs.length ≤ 6) : r.bytes.length = 64 := by
  have hregs : (r.regs.map (fun w => toBytes 4 w.toNat)).flatten.length = 4 * r.regs.length := length_flatten_of_all _ fun _ _ => length_toBytes 4 _
  unfold EvRec.bytes
  simp only [List.length_append, length_toBytes, length_zeros, hregs]
  omega

theorem length_evRecs_bytes {rs : List EvRec} (h : ∀ r ∈ rs, r.regs.length ≤ 6) : (rs.map EvRec.bytes).flatten.length = 64 * rs.length :=
  length_flatten_of_all rs fun r hr => length_evRec_bytes (h r hr)

/-! ## MRST# (R559) -/

/-- A key that lies in neither flush region. -/
def OutsideFlush (k : Nat) : Prop := k < flashFlush 0 ∨ flashFlush 1 + flushBytes ≤ k

theorem flashFlush_lt {r : Nat} (hr : r < 2) : flashFlush 0 ≤ flashFlush r ∧ flashFlush r + flushBytes ≤ flashFlush 1 + flushBytes := by
  unfold flashFlush
  omega

theorem programPages_flash_ne (s : State) {f : Flush} (n : Nat) (hr : f.region < 2) (hlen : f.recs.length ≤ 1024) (hregs : ∀ r ∈ f.recs, r.regs.length ≤ 6)
    (hk : OutsideFlush k) : sget flashErased (s.programPages f n).flash k = sget flashErased s.flash k := by
  have hbytes : ((f.recs.take (4 * n)).map EvRec.bytes).flatten.length ≤ 0x10000 := by
    rw [length_evRecs_bytes fun r hr => hregs r (List.mem_of_mem_take hr), List.length_take]
    omega
  have hbase := flashFlush_lt hr
  refine program_flash_ne s _ _ ?_
  unfold OutsideFlush at hk
  unfold flushBytes at hk hbase
  omega

theorem cutFlush_flash (s : State) (hf : ∀ f, s.evr.flushing = some f → f.region < 2 ∧ f.recs.length ≤ 1024 ∧ ∀ r ∈ f.recs, r.regs.length ≤ 6)
    (hk : OutsideFlush k) : sget flashErased s.cutFlush.flash k = sget flashErased s.flash k := by
  unfold State.cutFlush
  split
  · rfl
  · next f hfl =>
    obtain ⟨hr, hlen, hregs⟩ := hf f hfl
    split
    · exact programPages_flash_ne s _ hr hlen hregs hk
    · exact programPages_flash_ne s.draw.2 _ hr hlen hregs hk

theorem cutFlush_evr (s : State) : s.cutFlush.evr = s.evr := by
  unfold State.cutFlush
  split
  · rfl
  · split <;> rfl

theorem cutErase_flash (s : State) (he : ∀ r, s.evr.erasing = some r → r < 2) (hk : OutsideFlush k) :
    sget flashErased s.cutErase.flash k = sget flashErased s.flash k := by
  unfold State.cutErase
  split
  · rfl
  · next r her =>
    have hbase := flashFlush_lt (he r her)
    refine sget_swrite_ne _ _ _ _ _ ?_
    rw [length_toBytes]
    unfold OutsideFlush at hk
    unfold flushBytes at hk hbase
    omega

theorem cutErase_of_none (h : s.evr.erasing = none) : s.cutErase = s := by
  unfold State.cutErase
  rw [h]

theorem cutFlush_of_none (h : s.evr.flushing = none) : s.cutFlush = s := by
  unfold State.cutFlush
  rw [h]

theorem mrst_flash (s : State) : s.mrst.flash = s.cutFlush.cutErase.flash := rfl

/-! ## PFAIL# (R529) -/

theorem pfailFlush_rest (s : State) (us : Nat) : (s.pfailFlush us).pwr = s.pwr ∧ (s.pfailFlush us).engines = s.engines := by
  unfold State.pfailFlush
  split
  · unfold State.cutErase
    split <;> exact ⟨rfl, rfl⟩
  · exact ⟨rfl, rfl⟩

theorem exec_pfailAssert {ns us : Nat} (hns : 1000 ≤ ns) (hm : s.pwr.mod ≠ .pfail) (ha : s.hubAlive = true) : exec (.pfailAssert ns us) s = .next
    (((s.raise .pwrPfail noDomain 0).modPwr (fun p => { p with mod := .pfail, pfailAt := some s.hclk })).pfailFlush us) :=
  congrArg Host.Outcome.next (if_pos ⟨hns, hm, ha⟩)

/-- In PFAIL nothing but the half clocks and what PFAIL# itself brings goes on. -/
theorem tick_of_pfail (hm : s.pwr.mod = .pfail) : s.tick = (s.pass 1).pfailTick := by
  have hlive : s.live = false := by
    unfold State.live
    rw [hm]
    rfl
  have hready : s.pwr.mod ≠ .ready := by
    rw [hm]
    nofun
  unfold State.tick
  simp only [hlive, hready, Bool.false_eq_true, if_false]

theorem pass_pwr (h : Flat s) (n : Nat) : (s.pass n).pwr = s.pwr := by
  have : Fact (Part.halves ≠ .pwr) := ⟨by decide⟩
  have : Fact (Part.hclk ≠ .pwr) := ⟨by decide⟩
  exact (pass_keeps (P := False) (W := fun q => q ≠ .pwr) (Keeps.rfl' h) n).same .pwr (not_not.2 rfl)

theorem pfailTick_of (hp : s.pwr.pfailAt = some a) : s.pfailTick = if a + 200 * hclkPerUs ≤ s.hclk then (s.pfailWrite a).dark
    else if a + 100 * hclkPerUs ≤ s.hclk then { s.pfailWrite a with engines := [] } else s.pfailWrite a := by
  unfold State.pfailTick
  rw [hp]

/-- Settles O34: a reset cuts a flush and an erase off inside their regions; PFAIL# acts with the time since its acceptance. -/
theorem resetAndPowerFail : Obligations.ResetAndPowerFail := by
  unfold Obligations.ResetAndPowerFail
  refine ⟨fun s ns _ hns => ?_, fun s ns us hs => ⟨fun hns hm ha => ?_, fun hns => ?_⟩, fun s a hs hpend hm hp => ?_, fun s _ => ?_⟩
  · refine ⟨_, exec_mrstPulse_of_long s hns, fun hf he => ?_, fun hf he k hk => ?_, rfl, rfl, rfl, rfl, rfl, rfl, rfl, rfl, rfl, rfl, rfl, rfl⟩
    · rw [mrst_flash, cutFlush_of_none hf, cutErase_of_none he]
    · rw [mrst_flash, cutErase_flash _ (by rwa [cutFlush_evr]) hk, cutFlush_flash s hf hk]
  · have h : Flat s := (flat_iff s).2 hs
    obtain ⟨upwr, ueng⟩ := pfailFlush_rest ((s.raise .pwrPfail noDomain 0).modPwr (fun p => { p with mod := .pfail, pfailAt := some s.hclk })) us
    refine ⟨_, exec_pfailAssert hns hm ha, ?_, ?_, ueng.trans (raise_same h .pwrPfail noDomain 0 .engines)⟩
    · rw [upwr]
      rfl
    · rw [upwr]
      rfl
  · exact congrArg Host.Outcome.next (if_neg fun hc => absurd hc.1 (by omega))
  · have h : Flat s := (flat_iff s).2 hs
    have hstep : step s = .next (s.pass 1).pfailTick := by rw [step_of_pending_nil hpend, tick_of_pfail hm]
    have hat : (s.pass 1).pwr.pfailAt = some a := by rw [pass_pwr h, hp]
    have hclk : (s.pass 1).hclk = s.hclk + 1 := pass_hclk h 1
    refine ⟨fun hc => ⟨_, hstep, ?_⟩, fun hc => ⟨_, hstep, ?_⟩⟩
    · rw [pfailTick_of hat, hclk, hc, if_neg (by unfold hclkPerUs; omega), if_pos le_rfl]
    · rw [pfailTick_of hat, hclk, hc, if_pos le_rfl]
      exact ⟨rfl, rfl, rfl, rfl⟩
  · exact ⟨_, rfl, rfl, rfl, rfl, rfl, rfl, rfl⟩

end Sys2Proof.Machine
end

section
/-!
SUPPORT and PROOFS. Flushes of the event recorder and the erase of their region (R544, R545).
-/
namespace Sys2Proof.Machine

variable {s t : State} {k a : Nat}

/-! ## Programming erased bytes writes them -/

/-- A flash with the bytes of a run programmed one after the other. -/
def programFrom (m : Sparse Byte) (a : Nat) : Bytes → Sparse Byte
  | [] => m
  | b :: bs => programFrom (programByte m a b) (a + 1) bs

theorem foldl_programByte_eq (bs : Bytes) (a i : Nat) (m : Sparse Byte) :
    ((List.range' i bs.length).zip bs).foldl (fun m x => programByte m (a + x.1) x.2) m = programFrom m (a + i) bs := by
  induction bs generalizing i m with
  | nil => rfl
  | cons b bs ih =>
    rw [List.length_cons, List.range'_succ, List.zip_cons_cons, List.foldl_cons, ih, programFrom]
    rfl

theorem program_flash (s : State) (a : Nat) (bs : Bytes) : (s.program a bs).flash = programFrom s.flash a bs := by
  have h := foldl_programByte_eq bs a 0 s.flash
  rw [← List.range_eq_range'] at h
  exact h

theorem programFrom_erased (bs : Bytes) : ∀ (m : Sparse Byte) (a : Nat), (∀ k, a ≤ k → k < a + bs.length → sget flashErased m k = flashErased) →
    programFrom m a bs = swrite flashErased m a bs := by
  induction bs with
  | nil => exact fun _ _ _ => rfl
  | cons b bs ih =>
    intro m a he
    have hbyte : programByte m a b = sset flashErased m a b := by
      have hand : flashErased &&& b = b := BitVec.allOnes_and
      rw [programByte, he a le_rfl (by simp), hand]
    rw [programFrom, swrite, hbyte]
    refine ih _ _ fun k hk hk' => ?_
    rw [sget_sset_ne _ _ _ _ _ (by omega)]
    exact he k (by omega) (by rw [List.length_cons]; omega)

theorem sread_take (d : Byte) (m : Sparse Byte) : ∀ (n N a : Nat), n ≤ N → (sread d m a N).take n = sread d m a n
  | 0, _, _, _ => rfl
  | n + 1, 0, _, h => absurd h (by omega)
  | n + 1, N + 1, a, h => by rw [sread, sread, List.take_succ_cons, sread_take d m n N (a + 1) (by omega)]

/-! ## Fields of a header -/

theorem ofBytes_toBytes (n v : Nat) : ofBytes (toBytes n v) = v % 256 ^ n := by
  induction n generalizing v with
  | zero => rw [Nat.pow_zero, Nat.mod_one]; rfl
  | succ n ih =>
    have hlow : (BitVec.ofNat 8 v).toNat = v % 256 := BitVec.toNat_ofNat v 8
    rw [toBytes, ofBytes, ih, hlow, Nat.pow_succ, Nat.mul_comm (256 ^ n), Nat.mod_mul]

theorem crc64Bit_lt (acc : Nat) : crc64Bit acc < 2 ^ 64 := by
  have hmod : acc * 2 % 2 ^ 64 < 2 ^ 64 := Nat.mod_lt _ (by decide)
  unfold crc64Bit
  split
  · exact Nat.xor_lt_two_pow hmod (by decide)
  · exact hmod

theorem crc64_lt (bs : Bytes) : crc64 bs < 2 ^ 64 := by
  unfold crc64
  exact List.foldlRecOn (motive := fun acc => acc < 2 ^ 64) bs _ (by decide) fun _ _ _ _ => crc64Bit_lt _

/-! ## The end of a flush (R544) -/

/-- The records of a flush as bytes. -/
def Flush.body (f : Flush) : Bytes := (f.recs.map EvRec.bytes).flatten

/-- The header of a flush, up to its CRC. -/
def State.flushHead (s : State) (f : Flush) : Bytes :=
  toBytes 4 0x46455053 ++ toBytes 4 (s.evr.flushSeq + 1) ++ toBytes 1 f.reason ++ toBytes 1 s.hubs.active ++
    toBytes 2 f.recs.length ++ toBytes 4 s.img.imageSeq ++ toBytes 8 f.time ++ toBytes 4 (lo32 (s.count .hub 2 2)) ++ zeros 4

/-- The first page of a flush: its header, the CRC, and zeros. -/
def State.flushPage (s : State) (f : Flush) : Bytes := s.flushHead f ++ toBytes 8 (crc64 (s.flushHead f ++ f.body)) ++ zeros 216

theorem length_flushHead (s : State) (f : Flush) : (s.flushHead f).length = 32 := by
  unfold State.flushHead
  simp only [List.length_append, length_toBytes, length_zeros]

theorem length_flushPage (s : State) (f : Flush) : (s.flushPage f).length = 256 := by
  unfold State.flushPage
  simp only [List.length_append, length_flushHead, length_toBytes, length_zeros]

theorem writeFlush_flash (s : State) (f : Flush) : (s.writeFlush f f.recs.length).flash =
    programFrom (programFrom s.flash (flashFlush f.region + 0x100) f.body) (flashFlush f.region) (s.flushPage f) := by
  unfold State.writeFlush
  rw [List.take_length]
  dsimp only
  rw [modEvr_flash, program_flash, program_flash]
  rfl

theorem erased_of_blank {r : Nat} (hb : s.flushBlank r = true) {k : Nat} (h1 : flashFlush r ≤ k) (h2 : k < flashFlush r + flushBytes) :
    sget flashErased s.flash k = flashErased := by
  have hall : ∀ x ∈ s.flash, x.1 ≠ k := by
    rintro x hx rfl
    have hany : s.flash.any (fun x => decide (flashFlush r ≤ x.1 ∧ x.1 < flashFlush r + flushBytes)) = true := List.any_eq_true.2 ⟨x, hx, decide_eq_true ⟨h1, h2⟩⟩
    rw [State.flushBlank, hany] at hb
    cases hb
  generalize s.flash = m at hall
  induction m with
  | nil => rfl
  | cons x m ih =>
    rw [sget, if_neg (hall x List.mem_cons_self)]
    exact ih fun y hy => hall y (List.mem_cons_of_mem x hy)

theorem flushPage_fields (s : State) (f : Flush) (hlen : f.recs.length ≤ 1024) (hseq : s.evr.flushSeq + 1 < 2 ^ 32) :
    fld ((s.flushPage f).take 0x28) 0 4 = 0x46455053 ∧ fld ((s.flushPage f).take 0x28) 4 4 = s.evr.flushSeq + 1 ∧
      fld ((s.flushPage f).take 0x28) 0x0A 2 = f.recs.length ∧ fld ((s.flushPage f).take 0x28) 0x20 8 = crc64 (s.flushHead f ++ f.body) ∧
      ((s.flushPage f).take 0x28).take 0x20 = s.flushHead f := by
  have hhead : (s.flushPage f).take 0x28 = s.flushHead f ++ toBytes 8 (crc64 (s.flushHead f ++ f.body)) := by
    rw [State.flushPage, List.append_assoc, List.take_append, length_flushHead, List.take_of_length_le (by rw [length_flushHead]; decide),
      List.take_append, length_toBytes, List.take_of_length_le (by rw [length_toBytes]), List.take_zero, List.append_nil]
  have hcrc : toBytes 8 (crc64 (s.flushHead f ++ f.body)) = (((s.flushPage f).take 0x28).drop 0x20).take 8 := by
    rw [hhead, List.drop_left' (length_flushHead s f), List.take_of_length_le (by rw [length_toBytes])]
  have hmagic : (((s.flushPage f).take 0x28).drop 0).take 4 = toBytes 4 0x46455053 := by rw [hhead]; rfl
  have hnum : (((s.flushPage f).take 0x28).drop 4).take 4 = toBytes 4 (s.evr.flushSeq + 1) := by rw [hhead]; rfl
  have hcount : (((s.flushPage f).take 0x28).drop 0x0A).take 2 = toBytes 2 f.recs.length := by rw [hhead]; rfl
  unfold fld
  rw [hmagic, hnum, hcount, ← hcrc, ofBytes_toBytes, ofBytes_toBytes, ofBytes_toBytes, ofBytes_toBytes, hhead]
  exact ⟨rfl, Nat.mod_eq_of_lt hseq, Nat.mod_eq_of_lt (by omega), Nat.mod_eq_of_lt (crc64_lt _), List.take_left' (length_flushHead s f)⟩

/-- A flush that was written to a blank region reads back (R544, R547). -/
theorem writeFlush_flushAt (h : Flat s) (f : Flush) (hb : s.flushBlank f.region = true) (hlen : f.recs.length ≤ 1024)
    (hregs : ∀ r ∈ f.recs, r.regs.length ≤ 6) (hseq : s.evr.flushSeq + 1 < 2 ^ 32) (ht : t.flash = (s.writeFlush f f.recs.length).flash) :
    t.flushAt f.region = some (s.evr.flushSeq + 1, f.body) := by
  have hbody : f.body.length = 64 * f.recs.length := length_evRecs_bytes hregs
  have hflash : t.flash = swrite flashErased (swrite flashErased s.flash (flashFlush f.region + 0x100) f.body) (flashFlush f.region) (s.flushPage f) := by
    have hbelow (k : Nat) (h1 : flashFlush f.region ≤ k) (h2 : k < flashFlush f.region + flushBytes) := erased_of_blank hb h1 h2
    unfold flushBytes at hbelow
    rw [ht, writeFlush_flash, programFrom_erased f.body _ _ fun k h1 h2 => hbelow k (by omega) (by omega),
      programFrom_erased (s.flushPage f) _ _ fun k h1 h2 => ?_]
    rw [length_flushPage] at h2
    rw [sget_swrite_ne _ _ _ _ _ (.inl h2)]
    exact hbelow k h1 (by omega)
  have hwf : swf flashErased (swrite flashErased s.flash (flashFlush f.region + 0x100) f.body) = true := swf_swrite _ _ _ _ h.flash
  have hread : t.flashRead (flashFlush f.region) 0x28 = (s.flushPage f).take 0x28 := by
    have hpage := sread_swrite_same flashErased _ (flashFlush f.region) (s.flushPage f) hwf
    rw [State.flashRead, hflash, ← sread_take _ _ 0x28 (s.flushPage f).length _ (by rw [length_flushPage]; decide), hpage]
  have hrecs : t.flashRead (flashFlush f.region + 0x100) (64 * f.recs.length) = f.body := by
    rw [State.flashRead, hflash, sread_swrite_above _ _ _ _ _ _ (by rw [length_flushPage]), ← hbody]
    exact sread_swrite_same _ _ _ _ h.flash
  obtain ⟨hmagic, hnum, hcount, hcrc, hhead⟩ := flushPage_fields s f hlen hseq
  unfold State.flushAt
  dsimp only
  rw [hread, hcount, Nat.min_eq_left hlen, hrecs, hmagic, hcrc, hhead, hnum, if_pos ⟨rfl, rfl⟩]

/-! ## The erase (R545) -/

theorem sget_swipe_outside {α : Type} (d : α) (lo hi : Nat) (m : Sparse α) (hk : k < lo ∨ hi ≤ k) : sget d (swipe lo hi m) k = sget d m k := by
  induction m with
  | nil => rfl
  | cons x m ih =>
    have ih' : sget d (List.filter (fun x => decide (x.1 < lo) || decide (hi ≤ x.1)) m) k = sget d m k := ih
    rw [swipe, List.filter_cons]
    split
    · rw [sget, sget, ih']
    · next hx =>
      have hne : x.1 ≠ k := by
        rintro rfl
        exact hx (by simpa using hk)
      rw [ih', sget, if_neg hne]

theorem erase_flushBlank (s : State) (r : Nat) : (s.erase (flashFlush r) flushBytes).flushBlank r = true := by
  have hany : (swipe (flashFlush r) (flashFlush r + flushBytes) s.flash).any (fun x => decide (flashFlush r ≤ x.1 ∧ x.1 < flashFlush r + flushBytes)) = false := by
    rw [List.any_eq_false]
    intro x hx
    have hout := (List.mem_filter.1 hx).2
    simp only [Bool.or_eq_true, decide_eq_true_eq] at hout ⊢
    omega
  have hflash : (s.erase (flashFlush r) flushBytes).flash = swipe (flashFlush r) (flashFlush r + flushBytes) s.flash := rfl
  rw [State.flushBlank, hflash, hany, Bool.not_false]

/-- The region erased, and nothing of the flush that waits begun yet. -/
def State.erased (s : State) (r : Nat) : State := (s.erase (flashFlush r) flushBytes).modEvr (fun v => { v with erasing := none, flushWaits := false })

theorem exec_flushRegionErased {r : Nat} (he : s.evr.erasing = some r) :
    exec .flushRegionErased s = .next (if s.evr.flushWaits then (s.erased r).startFlush else s.erased r) := by
  have hx : exec .flushRegionErased s = execFlushRegionErased s := rfl
  rw [hx, execFlushRegionErased, he]
  rfl

/-- A flush that may start does so, and one that may not leaves the recorder's erase and flash alone. -/
theorem startFlush_rest (s : State) (he : s.evr.erasing = none) : s.startFlush.flash = s.flash ∧ s.startFlush.evr.erasing = none := by
  unfold State.startFlush
  split
  · exact ⟨rfl, he⟩
  · split <;> exact ⟨rfl, he⟩

theorem startFlush_begins (hf : s.evr.flushing = none) (hn : s.evr.flushes < 16) (hm : s.pwr.mod ≠ .pfail) (he : s.evr.erasing = none) :
    s.startFlush.evr.flushing = some ⟨s.evr.dueRegion, 1, s.hclk, flushOrder s.evr.recs⟩ := by
  have hgo : ¬(s.evr.flushing.isSome = true ∨ 16 ≤ s.evr.flushes ∨ s.pwr.mod = .pfail) := by
    rw [hf]
    rintro (h | h | h)
    · cases h
    · omega
    · exact hm h
  unfold State.startFlush
  rw [if_neg hgo, he]
  rfl

theorem erased_flash (s : State) (r : Nat) : (s.erased r).flash = (s.erase (flashFlush r) flushBytes).flash := rfl

theorem flushBlank_of_flash (h : t.flash = s.flash) (r : Nat) : t.flushBlank r = s.flushBlank r := by rw [State.flushBlank, h]; rfl

theorem exec_flushEnd {f : Flush} (hf : s.evr.flushing = some f) (hm : s.pwr.mod ≠ .pfail) : exec .flushEnd s = .next
    ((s.writeFlush f f.recs.length).modEvr (fun v => { v with erasing := some (1 - f.region) })) := by
  have hx : exec .flushEnd s = execFlushEnd s := rfl
  rw [hx, execFlushEnd, hf]
  exact congrArg Host.Outcome.next (if_neg hm)

theorem exec_flushEnd_of_pfail (hm : s.pwr.mod = .pfail) : exec .flushEnd s = .next s := by
  have hx : exec .flushEnd s = execFlushEnd s := rfl
  rw [hx, execFlushEnd]
  split
  · rfl
  · rw [if_pos hm]

theorem program_evr (s : State) (b : Nat) (d : Bytes) : (s.program b d).evr = s.evr := by rw [State.program]

theorem writeFlush_evr (s : State) (f : Flush) (n : Nat) :
    (s.writeFlush f n).evr = { s.evr with flushSeq := s.evr.flushSeq + 1, flushing := none, dueRegion := 1 - f.region } := by
  rw [State.writeFlush]
  dsimp only
  rw [modEvr_evr, program_evr, program_evr]

/-- The recorder where a flush has ended: the next number, the other region due and being erased. -/
theorem flushEnd_evr (s : State) (f : Flush) :
    ((s.writeFlush f f.recs.length).modEvr (fun v => { v with erasing := some (1 - f.region) })).evr =
      { s.evr with flushSeq := s.evr.flushSeq + 1, flushing := none, dueRegion := 1 - f.region, erasing := some (1 - f.region) } := by
  rw [modEvr_evr, writeFlush_evr]

/-- Settles O37: programming erased bytes writes them, so a flush of a blank region reads back; an erase blanks its region alone. -/
theorem flushesComplete : Obligations.FlushesComplete := by
  unfold Obligations.FlushesComplete
  intro s hs
  have h : Flat s := (flat_iff s).2 hs
  refine ⟨fun f hf hm => ⟨_, exec_flushEnd hf hm, ?_⟩, fun hm => exec_flushEnd_of_pfail hm, fun r he => ?_⟩
  · rw [flushEnd_evr]
    exact ⟨rfl, rfl, rfl, rfl, rfl, fun hb hlen hregs hseq => writeFlush_flushAt h f hb hlen hregs hseq (modEvr_flash _ _)⟩
  · refine ⟨_, exec_flushRegionErased he, ?_⟩
    have hflash : (if s.evr.flushWaits then (s.erased r).startFlush else s.erased r).flash = (s.erase (flashFlush r) flushBytes).flash := by
      split
      · exact (startFlush_rest (s.erased r) rfl).1
      · rfl
    refine ⟨?_, ?_, fun k hk => ?_, fun hw hf hn hm => ?_⟩
    · split
      · exact (startFlush_rest (s.erased r) rfl).2
      · rfl
    · rw [flushBlank_of_flash hflash, erase_flushBlank]
    · rw [hflash]
      exact sget_swipe_outside _ _ _ _ hk
    · rw [if_pos hw]
      exact ⟨_, startFlush_begins (s := s.erased r) hf hn hm rfl, rfl, rfl⟩

end Sys2Proof.Machine
end

section
/-!
SUPPORT and PROOFS. A drive port: its frames, its gates and its link (R453, R455, R457).
-/
namespace Sys2Proof.Machine

variable {s t : State} {n : Nat}

theorem port_of_per (h : t.per.ports = s.per.ports) (n : Nat) : t.port n = s.port n := by rw [State.port, h]; rfl

theorem modPort_port (h : Flat s) (n : Nat) (f : DrivePort → DrivePort) : (s.modPort n f).port n = f (s.port n) := port_setPort_same s n _ h.ports

theorem setPort_flat (h : Flat s) (n : Nat) (x : DrivePort) : Flat (s.setPort n x) :=
  have _ := anyPart_fact
  (setPort_keeps (P := False) (W := anyPart) (Keeps.rfl' h) n x).flat

theorem modPort_flat (h : Flat s) (n : Nat) (f : DrivePort → DrivePort) : Flat (s.modPort n f) := setPort_flat h n _

/-! ## What a port sends -/

theorem drain_off (h : (s.port n).cfg.getLsbD 0 = false ∨ (s.port n).link = false) : s.drain n = s := by
  rw [State.drain]
  refine if_pos ?_
  rcases h with h | h
  · exact Or.inl (by rw [h]; rfl)
  · exact Or.inr (by rw [h]; rfl)

/-- Sending changes nothing of a port but what waits there. -/
theorem drain_port (h : Flat s) (n : Nat) : ∃ w, (s.drain n).port n = { s.port n with waiting := w } := by
  rw [State.drain]
  dsimp only
  split
  · exact ⟨(s.port n).waiting, rfl⟩
  · exact ⟨_, port_setPort_same s n _ h.ports⟩

/-- With an empty gate list every frame may start. -/
theorem send_all {p : DrivePort} (hp : p.oper.entries = []) (t : Nat) (fs : List Frame) : ∀ used, p.send t fs used = (fs, []) := by
  induction fs with
  | nil => exact fun _ => rfl
  | cons f fs ih =>
    intro used
    have hmay : p.mayStart t used f = true := by rw [DrivePort.mayStart, hp]; rfl
    rw [DrivePort.send, if_pos hmay, ih]

theorem drain_all (hc : (s.port n).cfg.getLsbD 0 = true) (hl : (s.port n).link = true) (hp : (s.port n).oper.entries = []) :
    s.drain n = (s.setPort n { s.port n with waiting := [] }).modPorts (fun x => { x with
      sent := x.sent ++ (s.port n).waiting
      gptpOut := x.gptpOut ++ (s.port n).waiting.filterMap (fun f => f.gptp.map (fun k => (f.port, k))) }) := by
  have hon : ¬((!(s.port n).cfg.getLsbD 0) = true ∨ (!(s.port n).link) = true) := by
    rw [hc, hl]
    rintro (h | h) <;> cases h
  rw [State.drain]
  dsimp only
  rw [if_neg hon, send_all hp]

/-! ## The gates -/

theorem gateEntry_port (h : Flat s) (n : Nat) :
    ((s.gateEntry n).port n).gates = ((((s.port n).oper.ahead s.time).head?).map Prod.fst).getD 0xFF ∧
      ((s.gateEntry n).port n).oper = (s.port n).oper ∧ ((s.gateEntry n).port n).pending = (s.port n).pending := by
  rw [State.gateEntry]
  obtain ⟨w, hw⟩ := drain_port (setPort_flat h n { s.port n with
    entry := if (s.port n).oper.entries.isEmpty then 0 else
      Gcl.index (Gcl.cut (s.port n).oper.entries (s.port n).oper.cycle) ((s.port n).oper.offset s.time)
    gates := ((((s.port n).oper.ahead s.time).head?).map Prod.fst).getD 0xFF }) n
  rw [hw, port_setPort_same _ _ _ h.ports]
  exact ⟨rfl, rfl, rfl⟩

/-- A write of the length leaves the cycle and the base time of a port. -/
theorem write_length (p : DrivePort) (v : Word) : (p.write 0x24 v).cycle = p.cycle ∧ (p.write 0x24 v).baseLo = p.baseLo ∧
    (p.write 0x24 v).baseHi = p.baseHi := by
  have hw : p.write 0x24 v = if v.toNat % 128 ≤ 64 then { p with len := v.toNat % 128 } else p := rfl
  rw [hw]
  split <;> exact ⟨rfl, rfl, rfl⟩

/-- The first start of a cycle at or after `now`, counted from `base`. -/
def cycleStart (now base cycle : Nat) : Nat := if now ≤ base then base else base + (now - base + cycle - 1) / cycle * cycle

theorem cycleStart_spec (now base : Nat) {cycle : Nat} (hc : 0 < cycle) :
    base ≤ cycleStart now base cycle ∧ now ≤ cycleStart now base cycle ∧ (cycleStart now base cycle - base) % cycle = 0 ∧
      (base < cycleStart now base cycle → cycleStart now base cycle < now + cycle) := by
  rw [cycleStart]
  split
  · next hle => exact ⟨Nat.le_refl _, hle, by rw [Nat.sub_self, Nat.zero_mod], fun hlt => absurd hlt (Nat.lt_irrefl _)⟩
  · next hlt =>
    have hdiv := Nat.div_add_mod (now - base + cycle - 1) cycle
    have hmod := Nat.mod_lt (now - base + cycle - 1) hc
    rw [Nat.mul_comm] at hdiv
    refine ⟨Nat.le_add_right _ _, by omega, ?_, fun _ => by omega⟩
    rw [Nat.add_sub_cancel_left, Nat.mul_mod_left]

/-- A change with a cycle in its bounds waits for that start. -/
theorem gclChange_pending (h : Flat s) {v : Word} (hv : v.getLsbD 8 = true) (h1 : 1000 ≤ (s.port n).cycle.toNat)
    (h2 : (s.port n).cycle.toNat ≤ 1000000000) : ∃ es, ((s.gclChange n v).port n).pending =
      some (cycleStart s.time ((s.port n).baseLo.toNat + 2 ^ 32 * (s.port n).baseHi.toNat) (s.port n).cycle.toNat,
        ⟨es, (s.port n).cycle.toNat, cycleStart s.time ((s.port n).baseLo.toNat + 2 ^ 32 * (s.port n).baseHi.toNat) (s.port n).cycle.toNat⟩) := by
  have hport := modPort_port h n (fun p => p.write 0x24 v)
  obtain ⟨hcycle, hlo, hhi⟩ := write_length (s.port n) v
  rw [State.gclChange]
  dsimp only
  rw [hport, hcycle, hlo, hhi, if_pos ⟨hv, h1, h2⟩, port_setPort_same _ _ _ (modPort_flat h n _).ports]
  exact ⟨_, rfl⟩

/-- Settles O44: a change waits for the cycle start that `cycleStart` gives, and a port that is up with an empty list sends all that waits. -/
theorem gatesAndPorts : Obligations.GatesAndPorts := by
  unfold Obligations.GatesAndPorts
  intro s n v hs
  have h : Flat s := (flat_iff s).2 hs
  refine ⟨fun hw hv h1 h2 => ?_, fun x hx hle => ?_, ?_, fun lock => ?_, fun lock hc hp => ?_⟩
  · have hexec : exec (.drvGclChange n v) s = .next (s.onWrite 0xA02024 (fun s => s.gclChange n v)) := rfl
    obtain ⟨es, hpending⟩ := gclChange_pending h hv h1 h2
    obtain ⟨hbase, hnow, hmod, hfirst⟩ := cycleStart_spec s.time ((s.port n).baseLo.toNat + 2 ^ 32 * (s.port n).baseHi.toNat)
      (cycle := (s.port n).cycle.toNat) (by omega)
    rw [hexec, onWrite_of_writable hw]
    exact ⟨_, _, _, rfl, hpending, rfl, rfl, hbase, hnow, hmod, hfirst⟩
  · have hexec : exec (.gclChangeApply n) s = execGclChangeApply n s := rfl
    rw [hexec, execGclChangeApply, hx]
    dsimp only
    rw [if_pos hle]
    obtain ⟨-, hoper, hnone⟩ := gateEntry_port (modPort_flat h n (fun p => { p with oper := x.2, pending := none })) n
    rw [modPort_port h] at hoper hnone
    exact ⟨_, rfl, hoper, hnone⟩
  · obtain ⟨hgates, hoper, -⟩ := gateEntry_port h n
    exact ⟨s.gateEntry n, rfl, hgates, hoper⟩
  · have hx : exec (.drivePortLink n false lock) s = .next ((s.modPort n (fun p => { p with link := false, fecLock := lock })).drain n) := rfl
    have hport := modPort_port h n (fun p => { p with link := false, fecLock := lock })
    rw [hx, drain_off (Or.inr (by rw [hport]))]
    exact ⟨_, rfl, by rw [hport], by rw [hport], rfl⟩
  · have hx : exec (.drivePortLink n true lock) s = .next ((s.modPort n (fun p => { p with link := true, fecLock := lock })).drain n) := rfl
    have hport := modPort_port h n (fun p => { p with link := true, fecLock := lock })
    rw [hx, drain_all (by rw [hport]; exact hc) (by rw [hport]) (by rw [hport]; exact hp), hport]
    have hsame := port_setPort_same (s.modPort n (fun p => { p with link := true, fecLock := lock })) n
      { s.port n with link := true, fecLock := lock, waiting := [] } (modPort_flat h n _).ports
    refine ⟨_, rfl, ?_, ?_, rfl⟩
    · exact congrArg DrivePort.link hsame
    · exact congrArg DrivePort.waiting hsame

end Sys2Proof.Machine
end

section
/-!
SUPPORT and PROOFS. The SYNC pins (R411, R413, R456).
-/
namespace Sys2Proof.Machine

variable {s t : State} {p : PerProg} {k n : Nat}

theorem prog_of_per (h : t.per.progs = s.per.progs) (n : Nat) : t.prog n = s.prog n := by rw [State.prog, h]; rfl

theorem setProg_flat (h : Flat s) (n : Nat) (x : Program) : Flat (s.setProg n x) :=
  have _ := anyPart_fact
  (setProg_keeps (P := False) (W := anyPart) (Keeps.rfl' h) n x).flat

theorem syncEdge_flat (h : Flat s) (p : PerProg) : Flat (s.syncEdge p) :=
  have _ := anyPart_fact
  (syncEdge_keeps (P := False) (W := anyPart) (Keeps.rfl' h) p).flat

/-- A program that takes an edge at `hclk`: the tick of the edge is due where it comes late enough after the ARM. -/
def Program.takeEdge (x : Program) (hclk phase : Nat) : Program :=
  { x with
    edge := some hclk
    edges := x.edges + 1
    due := x.due.filter (fun d => decide (x.fireAt < d.2)) ++
      (if x.armAt + 1000 ≤ nsOf hclk + phase then [(x.edges, nsOf hclk + phase)] else []) }

/-- What an edge can do at a program: nothing, a miss, an edge taken, or both of these. -/
theorem syncEdge_cases (s : State) (p : PerProg) : ∃ y, s.syncEdge p = s ∨ s.syncEdge p = s.bump .prog p.prog 5 ∨ s.syncEdge p = s.setProg p.prog y ∨
    s.syncEdge p = (s.bump .prog p.prog 5).setProg p.prog y := by
  refine ⟨(s.prog p.prog).takeEdge s.hclk p.phase, ?_⟩
  rw [State.syncEdge]
  dsimp only
  split
  · exact .inl rfl
  · split
    · exact .inr (.inr (.inl rfl))
    · split
      · exact .inr (.inl rfl)
      · split
        · exact .inr (.inr (.inr rfl))
        · exact .inr (.inr (.inl rfl))

/-- What one program's edge leaves of another program's, and of the time. -/
theorem syncEdge_other (hk : p.prog ≠ k) : (s.syncEdge p).prog k = s.prog k ∧ (s.syncEdge p).count .prog k 5 = s.count .prog k 5 := by
  have hcount : (s.bump .prog p.prog 5).count .prog k 5 = s.count .prog k 5 :=
    count_bumpBy_ne s .prog p.prog 5 1 .prog k 5 (by simp only [pmonOff, Grp.base]; omega)
  obtain ⟨y, he | he | he | he⟩ := syncEdge_cases s p <;> rw [he]
  · exact ⟨rfl, rfl⟩
  · exact ⟨prog_of_per (by rw [State.bump, bumpBy_per]) k, hcount⟩
  · exact ⟨prog_setProg_ne _ _ _ _ (Ne.symm hk), count_of_pmon (setProg_pmon ..) ..⟩
  · exact ⟨(prog_setProg_ne _ _ _ _ (Ne.symm hk)).trans (prog_of_per (by rw [State.bump, bumpBy_per]) k),
      (count_of_pmon (setProg_pmon ..) ..).trans hcount⟩

theorem syncEdge_hclk (s : State) (p : PerProg) : (s.syncEdge p).hclk = s.hclk := by
  obtain ⟨y, he | he | he | he⟩ := syncEdge_cases s p <;> rw [he]
  · rw [State.bump, bumpBy_hclk]
  · rw [setProg_hclk]
  · rw [setProg_hclk, State.bump, bumpBy_hclk]

/-- `t` stands as `s` does for program `k`. -/
def SyncSame (k : Nat) (s t : State) : Prop :=
  Flat t ∧ t.hclk = s.hclk ∧ t.prog k = s.prog k ∧ t.count .prog k 5 = s.count .prog k 5

/-- The edges of other programs leave program `k`. -/
theorem syncEdges_other (h : Flat s) (xs : List PerProg) (hx : ∀ p ∈ xs, p.prog ≠ k) : SyncSame k s (s.each xs (fun s p => s.syncEdge p)) :=
  List.foldlRecOn xs _ (motive := fun t => SyncSame k s t) ⟨h, rfl, rfl, rfl⟩ fun t ⟨hflat, hhclk, hprog, hcount⟩ p hp =>
    have ho := syncEdge_other (s := t) (hx p hp)
    ⟨syncEdge_flat hflat p, (syncEdge_hclk t p).trans hhclk, ho.1.trans hprog, ho.2.trans hcount⟩

/-- An edge at every program is, for program `p`, its own edge alone. -/
theorem syncEdges_own (h : Flat s) (hp : p ∈ s.img.progs) (hnd : (s.img.progs.map PerProg.prog).Nodup) :
    ∃ a, SyncSame p.prog s a ∧ SyncSame p.prog (a.syncEdge p) (s.each s.img.progs (fun s p => s.syncEdge p)) := by
  obtain ⟨as, bs, hxs⟩ := List.append_of_mem hp
  rw [hxs, List.map_append, List.map_cons] at hnd
  have hsplit := List.nodup_middle.1 hnd
  rw [List.nodup_cons, ← List.map_append] at hsplit
  have hne : ∀ q ∈ as ++ bs, q.prog ≠ p.prog := fun q hq he => hsplit.1 (List.mem_map.2 ⟨q, hq, he⟩)
  have ha := syncEdges_other h as fun q hq => hne q (List.mem_append_left _ hq)
  have hb := syncEdges_other (syncEdge_flat ha.1 p) bs fun q hq => hne q (List.mem_append_right _ hq)
  refine ⟨_, ha, ?_⟩
  have hall : s.each s.img.progs (fun s p => s.syncEdge p) =
      ((s.each as fun s p => s.syncEdge p).syncEdge p).each bs (fun s p => s.syncEdge p) := by
    rw [hxs]
    exact List.foldl_append
  rw [hall]
  exact hb

/-- An edge in its time is taken. -/
theorem syncEdge_taken (h : Flat s) (ha : (s.prog p.prog).armed = true) (hsrc : p.tickSrc = 1)
    (he : (s.prog p.prog).edge = none ∨ ∃ h, (s.prog p.prog).edge = some h ∧ 7 * p.period ≤ 8 * nsOf (s.hclk - h)) :
    (s.syncEdge p).prog p.prog = (s.prog p.prog).takeEdge s.hclk p.phase := by
  have hgo : ¬((!(s.prog p.prog).armed) = true ∨ p.tickSrc ≠ 1) := by
    rw [ha, hsrc]
    rintro (h | h)
    · cases h
    · exact h rfl
  rw [State.syncEdge]
  dsimp only
  rw [if_neg hgo]
  rcases he with he | ⟨h0, he, hle⟩
  · rw [he]
    exact prog_setProg_same _ _ _ h.progs
  · rw [he]
    dsimp only
    rw [if_neg (Nat.not_lt.2 hle)]
    split
    · exact prog_setProg_same _ _ _ (bump_flat h .prog p.prog 5).progs
    · exact prog_setProg_same _ _ _ h.progs

/-- An early edge is a miss and is ignored. -/
theorem syncEdge_early (ha : (s.prog p.prog).armed = true) (hsrc : p.tickSrc = 1) {h0 : Nat} (he : (s.prog p.prog).edge = some h0)
    (hlt : 8 * nsOf (s.hclk - h0) < 7 * p.period) : s.syncEdge p = s.bump .prog p.prog 5 := by
  have hgo : ¬((!(s.prog p.prog).armed) = true ∨ p.tickSrc ≠ 1) := by
    rw [ha, hsrc]
    rintro (h | h)
    · cases h
    · exact h rfl
  rw [State.syncEdge]
  dsimp only
  rw [if_neg hgo, he]
  dsimp only
  rw [if_pos hlt]

theorem exec_syncInEdge (h : s.live = true) : exec .syncInEdge s = .next (s.each s.img.progs (fun s p => s.syncEdge p)) :=
  congrArg Host.Outcome.next (if_pos h)

theorem exec_syncInTimeout (hl : s.live = true) (ha : (s.prog n).armed = true) (hp : s.perProg n = some p) (hsrc : p.tickSrc = 1) {h0 : Nat}
    (he : (s.prog n).edge = some h0) (hlt : 9 * p.period < 8 * nsOf (s.hclk - h0)) :
    exec (.syncInTimeout n) s = .next ((s.setProg n { s.prog n with edge := none }).bump .prog n 5) := by
  have hx : exec (.syncInTimeout n) s = execSyncInTimeout n s := rfl
  rw [hx, execSyncInTimeout, hp]
  dsimp only
  rw [he]
  exact congrArg Host.Outcome.next (if_pos ⟨hl, ha, hsrc, hlt⟩)

theorem e5Up_of_live (h : s.live = true) : s.e5Up = true := h

/-- Settles O45: the edges of other programs leave a program alone, so `syncEdge` at its own entry says all. -/
theorem syncPins : Obligations.SyncPins := by
  unfold Obligations.SyncPins
  intro s p hs hl hsrc ha
  have h : Flat s := (flat_iff s).2 hs
  refine ⟨fun hp hnd => ⟨fun he => ?_, fun h0 he hlt => ?_⟩, fun h0 hp he hlt => ?_, fun hmode => ?_⟩
  · obtain ⟨a, ⟨haf, hah, hap, -⟩, ⟨-, -, hup, -⟩⟩ := syncEdges_own h hp hnd
    refine ⟨_, exec_syncInEdge hl, ?_⟩
    rw [hup, syncEdge_taken haf (by rw [hap]; exact ha) hsrc (by rw [hap, hah]; exact he), hap, hah]
    rfl
  · obtain ⟨a, ⟨haf, hah, hap, hac⟩, ⟨-, -, hup, huc⟩⟩ := syncEdges_own h hp hnd
    have hearly := syncEdge_early (s := a) (by rw [hap]; exact ha) hsrc (by rw [hap]; exact he) (by rw [hah]; exact hlt)
    refine ⟨_, exec_syncInEdge hl, ?_, ?_⟩
    · rw [hup, hearly, prog_of_per (s := a) (by rw [State.bump, bumpBy_per]), hap]
    · rw [huc, hearly, count_bump_same haf, hac]
  · have hf := setProg_flat h p.prog { s.prog p.prog with edge := none }
    refine ⟨_, exec_syncInTimeout hl ha hp hsrc he hlt, ?_, ?_⟩
    · rw [prog_of_per (s := s.setProg p.prog { s.prog p.prog with edge := none }) (by rw [State.bump, bumpBy_per]),
        prog_setProg_same _ _ _ h.progs]
    · rw [count_bump_same hf, count_of_pmon (setProg_pmon ..)]
  · exact ⟨_, congrArg Host.Outcome.next (if_pos ⟨e5Up_of_live hl, .inl hmode⟩), rfl⟩

end Sys2Proof.Machine
end

section
/-!
SUPPORT and PROOFS. Drive frames (R414, R418, R452, R453).
-/
namespace Sys2Proof.Machine

variable {s t : State} {port : Nat} {frame : Bytes}

theorem fld_drop (bs : Bytes) (a off n : Nat) : fld (bs.drop a) off n = fld bs (a + off) n := by rw [fld, List.drop_drop]; rfl

/-- An index of a list stands there with one element. -/
theorem indexed_unique {α : Type} {xs : List α} {j : Nat} {x y : α} (hx : (j, x) ∈ indexed xs) (hy : (j, y) ∈ indexed xs) : x = y := by
  obtain ⟨i, hi, he⟩ := List.getElem_of_mem hx
  obtain ⟨k, hk, hf⟩ := List.getElem_of_mem hy
  simp only [indexed, upto, List.getElem_zip, List.getElem_range, Prod.mk.injEq] at he hf
  obtain ⟨hij, rfl⟩ := he
  obtain ⟨hkj, rfl⟩ := hf
  subst hij
  subst hkj
  rfl

theorem inBad_per (h : Flat s) (port : Nat) (prog : Option Nat) : (s.inBad port prog).per = s.per :=
  (inBad_keeps (P := False) (W := fun _ => False) (Keeps.rfl' h) port prog).same .per not_false

theorem inBad_flat (h : Flat s) (port : Nat) (prog : Option Nat) : Flat (s.inBad port prog) :=
  (inBad_keeps (P := False) (W := fun _ => False) (Keeps.rfl' h) port prog).flat

/-! ## A record goes to the streams that take it (R418) -/

/-- What one record does at one of its streams: it becomes the newest, or counts as bad where its length is not the stream's. -/
def State.newest (s : State) (port tick len : Nat) (data : Bytes) (x : Nat × PerStream) : State :=
  if len = x.2.length ∧ data.length = len then s.modPer (fun u => { u with ingress := sset none u.ingress x.1 (some ⟨tick, data⟩) })
  else s.inBad port (some x.2.prog)

theorem newest_flat (h : Flat s) (port tick len : Nat) (data : Bytes) (x : Nat × PerStream) : Flat (s.newest port tick len data x) := by
  have _ := anyPart_fact
  rw [State.newest]
  split
  · exact (modPer_keeps (P := False) (W := anyPart) (Keeps.rfl' h)
      (fun u => { u with ingress := sset none u.ingress x.1 (some ⟨tick, data⟩) }) fun _ => ⟨rfl, rfl⟩).flat
  · exact inBad_flat h port _

/-- Stream `j` has the record as its newest. -/
def HasNewest (j tick : Nat) (data : Bytes) (s : State) : Prop := Flat s ∧ sget none s.per.ingress j = some ⟨tick, data⟩

theorem newest_takes (h : Flat s) {port tick : Nat} {data : Bytes} {x : Nat × PerStream} (hx : data.length = x.2.length) :
    HasNewest x.1 tick data (s.newest port tick data.length data x) := by
  refine ⟨newest_flat h .., ?_⟩
  rw [State.newest, if_pos ⟨hx, rfl⟩]
  exact sget_sset_of_ne (Option.some_ne_none _) _ _

/-- A stream that has the record keeps it while the others, or it once more, take it. -/
theorem newest_keeps {j port tick len : Nat} {data : Bytes} {x : Nat × PerStream} (h : HasNewest j tick data s) :
    HasNewest j tick data (s.newest port tick len data x) := by
  refine ⟨newest_flat h.1 .., ?_⟩
  rw [State.newest]
  split
  · show sget none (sset none s.per.ingress x.1 (some ⟨tick, data⟩)) j = _
    by_cases hj : j = x.1
    · rw [hj]
      exact sget_sset_of_ne (Option.some_ne_none _) _ _
    · rw [sget_sset_ne _ _ _ _ _ hj]
      exact h.2
  · rw [inBad_per h.1]
    exact h.2

/-- A record that goes to the streams `xs` is the newest of each of its own length. -/
theorem newest_each (h : Flat s) {port tick : Nat} {data : Bytes} {xs : List (Nat × PerStream)} {x : Nat × PerStream} (hx : x ∈ xs)
    (hlen : data.length = x.2.length) : HasNewest x.1 tick data (s.each xs (fun s x => s.newest port tick data.length data x)) := by
  obtain ⟨as, bs, rfl⟩ := List.append_of_mem hx
  have hflat := each_induct (R := Flat) (fun t y (ht : Flat t) => newest_flat ht port tick data.length data y) as h
  have hsplit : s.each (as ++ x :: bs) (fun s x => s.newest port tick data.length data x) =
      ((s.each as (fun s x => s.newest port tick data.length data x)).newest port tick data.length data x).each bs
        (fun s x => s.newest port tick data.length data x) := List.foldl_append
  rw [hsplit]
  exact each_induct (fun t y => newest_keeps) bs (newest_takes hflat hlen)

/-! ## A frame -/

/-- The EtherType of an untagged frame. -/
def etherType (frame : Bytes) : Nat := ofBytes ((frame.drop 12).take 2).reverse

theorem e5_goes (h : s.e5Up = true) (hc : (s.port port).cfg.getLsbD 0 = true) : ¬((!s.e5Up) = true ∨ (!(s.port port).cfg.getLsbD 0) = true) := by
  rw [h, hc]
  rintro (h | h) <;> cases h

theorem exec_driveFrameRx_bad (h : s.e5Up = true) (hc : (s.port port).cfg.getLsbD 0 = true) {ok : Bool} (hbad : ok = false ∨ 1518 < frame.length) :
    exec (.driveFrameRx port frame ok) s = .next (s.bump .drive port 0) := by
  have hx : exec (.driveFrameRx port frame ok) s = execDriveFrameRx port frame ok s := rfl
  rw [hx, execDriveFrameRx]
  dsimp only
  rw [if_neg (e5_goes h hc), if_pos (hbad.imp_left (by rintro rfl; rfl))]

theorem exec_driveFrameRx_other (h : s.e5Up = true) (hc : (s.port port).cfg.getLsbD 0 = true) (hlen : frame.length ≤ 1518)
    (htag : etherType frame ≠ 0x8100) (hdrive : etherType frame ≠ 0x88B5) (hptp : etherType frame ≠ 0x88F7 ∨ (s.port port).cfg.getLsbD 3 = false) :
    exec (.driveFrameRx port frame true) s = .next (s.bump .drive port 1) := by
  have hx : exec (.driveFrameRx port frame true) s = execDriveFrameRx port frame true s := rfl
  have htag' : (etherType frame == 0x8100) = false := beq_false_of_ne htag
  unfold etherType at htag' hdrive hptp
  rw [hx, execDriveFrameRx]
  dsimp only
  rw [htag', if_neg (e5_goes h hc), if_neg (by rintro (h | h); cases h; omega), if_neg (by rw [if_neg Bool.false_ne_true]; exact hdrive), if_neg]
  rw [if_neg Bool.false_ne_true]
  rintro ⟨h1, h2⟩
  rcases hptp with hp | hp
  · exact hp h1
  · rw [hp] at h2
    cases h2

theorem exec_driveFrameRx_drive (h : s.e5Up = true) (hc : (s.port port).cfg.getLsbD 0 = true) (hlen : frame.length ≤ 1518)
    (hdrive : etherType frame = 0x88B5) : exec (.driveFrameRx port frame true) s = .next (s.driveFrame port (frame.drop 14)) := by
  have hx : exec (.driveFrameRx port frame true) s = execDriveFrameRx port frame true s := rfl
  have htag : (etherType frame == 0x8100) = false := by rw [hdrive]; rfl
  unfold etherType at htag hdrive
  rw [hx, execDriveFrameRx]
  dsimp only
  rw [htag, if_neg Bool.false_ne_true, if_neg Bool.false_ne_true, if_neg (e5_goes h hc), if_neg (by rintro (h | h); cases h; omega), if_pos hdrive]

/-- A frame of one record gives it to the streams of its port and STREAM_ID. -/
theorem driveFrame_one (hlen : 34 ≤ frame.length) (hv : fld frame 14 1 = 1) (hn : fld frame 16 1 = 1) {x : Nat × PerStream}
    (hx : x ∈ (indexed s.img.streams).filter (fun y => decide (y.2.port = port ∧ y.2.dir = 0 ∧ y.2.sid = fld frame 30 2))) :
    s.driveFrame port (frame.drop 14) =
      s.each ((indexed s.img.streams).filter (fun y => decide (y.2.port = port ∧ y.2.dir = 0 ∧ y.2.sid = fld frame 30 2)))
        (fun s x => s.newest port (fld frame 18 4) (fld frame 32 2) ((frame.drop 34).take (fld frame 32 2)) x) := by
  have hlen14 : (frame.drop 14).length = frame.length - 14 := List.length_drop
  have hlen30 : (frame.drop (14 + 16)).length = frame.length - 30 := List.length_drop
  have hmine : ((indexed s.img.streams).filter (fun y => decide (y.2.port = port ∧ y.2.dir = 0 ∧ y.2.sid = fld frame 30 2))).isEmpty = false := by
    rw [List.isEmpty_eq_false_iff]
    exact List.ne_nil_of_mem hx
  rw [State.driveFrame, fld_drop, fld_drop, fld_drop, hv, hn, if_neg (by omega), List.drop_drop, State.takeRecords, State.takeRecords,
    if_neg (by omega), fld_drop, fld_drop, List.drop_drop, hmine]
  rfl

/-- Settles O42: a record that goes to every stream of its port and STREAM_ID is the newest of each of its length. -/
theorem driveFrames : Obligations.DriveFrames := by
  unfold Obligations.DriveFrames
  intro s port frame hs he hc
  have h : Flat s := (flat_iff s).2 hs
  refine ⟨fun ok hbad => ⟨_, exec_driveFrameRx_bad he hc hbad, bumpBy_per s .drive port 0 1, count_bump_same h .drive port 0⟩,
    fun hlen htag hdrive hptp => ⟨_, exec_driveFrameRx_other he hc hlen htag hdrive hptp, bumpBy_per s .drive port 1 1, count_bump_same h .drive port 1⟩,
    fun j x hlen hmin hdrive hv hn hfit hx hfind => ?_⟩
  have hmem : (j, x) ∈ (indexed s.img.streams).filter (fun y => decide (y.2.port = port ∧ y.2.dir = 0 ∧ y.2.sid = fld frame 30 2)) :=
    List.mem_filter.2 ⟨List.mem_of_find?_eq_some hfind, by simpa using List.find?_some hfind⟩
  have hdata : ((frame.drop 34).take (fld frame 32 2)).length = fld frame 32 2 := by
    rw [List.length_take, List.length_drop]
    omega
  have hnew := newest_each h (port := port) (tick := fld frame 18 4) (data := (frame.drop 34).take (fld frame 32 2)) hmem (hdata.trans hx)
  rw [hdata] at hnew
  refine ⟨_, exec_driveFrameRx_drive he hc hlen hdrive, ?_⟩
  rw [driveFrame_one hmin hv hn hmem, ← hx]
  exact hnew.2

end Sys2Proof.Machine
end

section
/-!
SUPPORT and PROOFS. The registers of a period program (R407, R408, R424).
-/
namespace Sys2Proof.Machine

variable {s t : State} {n : Nat} {p : PerProg} {v : Word}

/-- An entry of PER is that of its program. -/
theorem prog_of_perProg (h : s.perProg n = some p) : p.prog = n := by simpa using List.find?_some h

theorem not_armed_of_disarmed {x : Program} (h : x.st = .disarmed) : x.armed = false := by rw [Program.armed, h]; rfl

/-! ## ARM and DISARM -/

/-- ARM on a program that is DISARMED, by its checks. -/
theorem arm_disarmed (hp : s.perProg n = some p) (hd : (s.prog n).st = .disarmed) : s.arm n =
    if s.armErr p (s.prog n) = 0 then s.armed p (s.prog n) else s.setProg n { s.prog n with armErr := s.armErr p (s.prog n) } := by
  rw [State.arm]
  dsimp only
  rw [hp]
  dsimp only
  rw [not_armed_of_disarmed hd, if_neg Bool.false_ne_true, if_neg (by rw [hd]; decide)]

theorem armed_prog (h : Flat s) (p : PerProg) (x : Program) : ((s.armed p x).prog p.prog).st = (if bit s.clk.unalignedEng p.eng then .held else .armed) ∧
    ((s.armed p x).prog p.prog).armErr = 0 ∧ ((s.armed p x).prog p.prog).armAt = s.progNow p := by
  have hprog : (s.armed p x).prog p.prog = _ := prog_setProg_same s p.prog _ h.progs
  rw [hprog]
  exact ⟨rfl, rfl, rfl⟩

theorem armed_queue (h : Flat s) (p : PerProg) (x : Program) : ((s.armed p x).queue (504 + p.prog)).head = 0 ∧
    ((s.armed p x).queue (504 + p.prog)).tail = 0 ∧ ((s.armed p x).queue (504 + p.prog)).descAddr = x.list ∧
    ((s.armed p x).queue (504 + p.prog)).recAddr = x.recAddr := by
  have hq := modQueue_queue_same h (504 + p.prog) (fun q => { q with
    descAddr := x.list, descLog2 := 6, recAddr := x.recAddr, recLog2 := x.recLog2, head := 0, tail := 0 })
  have hs : (s.armed p x).queue (504 + p.prog) = (s.modQueue (504 + p.prog) (fun q => { q with
    descAddr := x.list, descLog2 := 6, recAddr := x.recAddr, recLog2 := x.recLog2, head := 0, tail := 0 })).queue (504 + p.prog) := rfl
  rw [hs, hq]
  exact ⟨rfl, rfl, rfl, rfl⟩

theorem exec_perArm (hw : s.writable 0xA00018 = true) (h0 : v.getLsbD 0 = true) (h1 : v.getLsbD 1 = false) :
    exec (.perArm n v) s = .next ((s.arm n).answer .none) := by
  have hx : exec (.perArm n v) s = .next (s.onWrite 0xA00018 (fun s => s.progCtrl n v)) := rfl
  rw [hx, onWrite_of_writable hw, State.progCtrl, h0, h1]
  rfl

theorem exec_perDisarm (hw : s.writable 0xA00018 = true) (h0 : v.getLsbD 0 = false) (h1 : v.getLsbD 1 = true) :
    exec (.perDisarm n v) s = .next ((s.disarm n).answer .none) := by
  have hx : exec (.perDisarm n v) s = .next (s.onWrite 0xA00018 (fun s => s.progCtrl n v)) := rfl
  rw [hx, onWrite_of_writable hw, State.progCtrl, h0, h1]
  rfl

theorem disarm_held (h : (s.prog n).st = .held) : s.disarm n = s.setProg n (s.prog n).disarm := if_pos h

theorem disarm_later (h : (s.prog n).st = .armed ∨ (s.prog n).st = .running ∨ (s.prog n).st = .repair) :
    s.disarm n = s.setProg n { s.prog n with disarmNext := true } := by
  rw [State.disarm, if_neg (by rintro hh; rw [hh] at h; revert h; decide), if_pos h]

theorem disarm_none (h : (s.prog n).st = .absent ∨ (s.prog n).st = .disarmed) : s.disarm n = s := by
  rw [State.disarm]
  rcases h with h | h
  all_goals rw [h, if_neg (by decide), if_neg (by decide)]

/-! ## Grants (R424) -/

theorem exec_perRepairGrant (hw : s.writable 0xA01000 = true) : exec (.perRepairGrant v) s = .next ((s.grant v).answer .none) := by
  have hx : exec (.perRepairGrant v) s = .next (s.onWrite 0xA01000 (fun s => s.grant v)) := rfl
  rw [hx, onWrite_of_writable hw]

/-- The result of a grant in its register. -/
def State.withResult (s : State) (n r : Nat) : State := s.modPer (fun u => { u with grantProg := if r = 0 then n else u.grantProg, grantResult := r })

theorem withResult_flat (h : Flat s) (n r : Nat) : Flat (s.withResult n r) :=
  have _ := anyPart_fact
  (modPer_keeps (P := False) (W := anyPart) (Keeps.rfl' h) (fun u => { u with grantProg := if r = 0 then n else u.grantProg, grantResult := r })
    fun _ => ⟨rfl, rfl⟩).flat

theorem grant_eq (hn : bits v.toNat 15 4 ≠ 0) : s.grant v =
    if s.grantResult (v.toNat % 8) (v.toNat / 65536) = 0 then
      (s.withResult (v.toNat % 8) (s.grantResult (v.toNat % 8) (v.toNat / 65536))).modProg (v.toNat % 8) (fun x => { x with
        grantTick := v.toNat / 65536, grantTicks := bits v.toNat 15 4, grantWait := true })
    else s.withResult (v.toNat % 8) (s.grantResult (v.toNat % 8) (v.toNat / 65536)) := by
  rw [State.grant]
  exact if_neg hn

/-- Settles O30: ARM by its checks, DISARM by the state of the program, a grant by its result. -/
theorem programRegisters : Obligations.ProgramRegisters := by
  unfold Obligations.ProgramRegisters
  intro s n v p hs hp
  have h : Flat s := (flat_iff s).2 hs
  have hpn := prog_of_perProg hp
  refine ⟨fun hw h0 h1 hd herr => ⟨_, exec_perArm hw h0 h1, ?_⟩, fun hw h0 h1 hd herr => ⟨_, exec_perArm hw h0 h1, ?_⟩,
    fun hw h0 h1 => ⟨_, exec_perDisarm hw h0 h1, fun hst => ?_, fun hst => ?_, fun hst => ?_⟩, fun hw hn hticks => ⟨_, exec_perRepairGrant hw, ?_⟩⟩
  · obtain ⟨hst, he, hat⟩ := armed_prog h p (s.prog n)
    obtain ⟨hhead, htail, hdesc, hrec⟩ := armed_queue h p (s.prog n)
    rw [hpn] at hst he hat hhead htail hdesc hrec
    rw [arm_disarmed hp hd, if_pos herr]
    exact ⟨hst, he, hat, hhead, htail, hdesc, hrec⟩
  · rw [arm_disarmed hp hd, if_neg herr]
    exact ⟨prog_setProg_same _ _ _ h.progs, rfl⟩
  · rw [disarm_held hst]
    have hprog := prog_setProg_same s n (s.prog n).disarm h.progs
    exact ⟨congrArg Program.st hprog, congrArg Program.claims hprog⟩
  · rw [disarm_later hst]
    exact prog_setProg_same s n _ h.progs
  · rw [disarm_none hst]
    rfl
  · rw [grant_eq hticks, hn]
    split
    · next hr =>
      have hprog := modProg_prog (withResult_flat h n (s.grantResult n (v.toNat / 65536))) n (fun x => { x with
        grantTick := v.toNat / 65536, grantTicks := bits v.toNat 15 4, grantWait := true })
      refine ⟨if_pos (t := n) (e := s.per.grantProg) hr, rfl, fun _ => ?_, fun hne => absurd hr hne⟩
      exact ⟨congrArg Program.grantWait hprog, congrArg Program.grantTick hprog, congrArg Program.grantTicks hprog⟩
    · next hr => exact ⟨if_neg (t := n) (e := s.per.grantProg) hr, rfl, fun he => absurd he hr, fun _ => rfl⟩

end Sys2Proof.Machine
end

section
/-!
SUPPORT. A tick fires and commits (R409, R411, R418, R420, R423).
-/
namespace Sys2Proof.Machine

variable {s t : State} {n k f : Nat} {p : PerProg}

theorem length_spadRead (s : State) (core off n : Nat) : (s.spadRead core off n).length = n := by
  rw [State.spadRead]
  split
  · exact length_sread ..
  · rw [List.length_map]
    exact List.length_range

/-! ## A fire -/

/-- The program of a tick that fires. -/
def Program.fire (x : Program) (k f : Nat) : Program :=
  { x with
    st := .running, tick := k, cur := k, fireAt := f, fired := true, waits := false, released := false, listDone := false, failed := false,
    committed := false, skipped := 0 }

/-- The program and the queue of a tick that fires, before its ingress is delivered. -/
def State.fireBegins (s : State) (p : PerProg) (k f : Nat) : State :=
  (s.modProg p.prog (fun x => x.fire k f)).modQueue (504 + p.prog) (fun q => { q with head := 0, tail := (s.prog p.prog).count, rtTick := k })

theorem fireBegins_flat (h : Flat s) (p : PerProg) (k f : Nat) : Flat (s.fireBegins p k f) := modQueue_flat (modProg_flat h _ _) _ _

/-- Only the scratchpads may be other than in `fireBegins`. -/
def fireWrites (q : Part) : Bool := [Part.spad].contains q

theorem fire_keeps_begins (h : Flat s) (p : PerProg) (k f : Nat) :
    Keeps False (fun q => fireWrites q = true) (s.fireBegins p k f) (s.fire p k f) := by
  have : Fact (fireWrites .spad = true) := ⟨rfl⟩
  have hbegin := Keeps.rfl' (P := False) (W := fun q => fireWrites q = true) (fireBegins_flat h p k f)
  rw [State.fire]
  refine each_keeps _ _ (fun t x ht => ?_) (traceTick_keeps (bump_keeps hbegin _ _ _) _ _ _ _)
  split
  · exact deliverStream_keeps ht _ _ _
  · exact ht

theorem fire_facts (h : Flat s) (p : PerProg) (k f : Nat) : (s.fire p k f).prog p.prog = (s.prog p.prog).fire k f ∧
    (s.fire p k f).queue (504 + p.prog) = { s.queue (504 + p.prog) with head := 0, tail := (s.prog p.prog).count, rtTick := k } := by
  have hk := fire_keeps_begins h p k f
  have hper : (s.fire p k f).per = (s.fireBegins p k f).per := hk.same .per Bool.false_ne_true
  have hqueues : (s.fire p k f).queues = (s.fireBegins p k f).queues := hk.same .queues Bool.false_ne_true
  constructor
  · rw [prog_of_per (congrArg Period.progs hper)]
    exact modProg_prog h p.prog (fun x => x.fire k f)
  · rw [queue_of_queues hqueues]
    exact modQueue_queue_same (modProg_flat h _ _) (504 + p.prog) _

/-! ## TICK_FIRE -/

/-- A program that is armed and waits takes its fire when nothing holds it back any more. -/
theorem exec_tickFire_waiting (hp : s.perProg n = some p) (hl : s.live = true) (ha : (s.prog n).armed = true) (hw : (s.prog n).waits = true)
    (hh : (s.prog n).st ≠ .held) (hb : s.fireBlocked p = false) :
    exec (.tickFire n) s = .next (s.fire p (s.prog n).cur (s.prog n).fireAt) := by
  have hx : exec (.tickFire n) s = execTickFire n s := rfl
  rw [hx, execTickFire, hp]
  dsimp only
  rw [hl, ha, hw, hb, if_neg (by rintro (h | h) <;> cases h), if_pos rfl, if_neg (by rintro (h | h); exact hh h; cases h)]

/-- At a due tick nothing else takes the place of the fire: no window, no DISARM, no grant, no waiting fire. -/
structure Program.ready (x : Program) : Prop where
  st : x.st = .armed
  fired : x.fired = false
  disarm : x.disarmNext = false
  window : x.windowOpen = false
  grant : x.grantWait = false
  waits : x.waits = false

theorem armed_of_st {x : Program} (h : x.st = .armed ∨ x.st = .running) : x.armed = true := by
  rw [Program.armed]
  rcases h with h | h <;> rw [h] <;> rfl

theorem exec_tickFire_due (hp : s.perProg n = some p) (hl : s.live = true) (hr : (s.prog n).ready) (hd : s.dueTick p = some (k, f)) :
    exec (.tickFire n) s = .next (s.takeTick p k f) := by
  have hx : exec (.tickFire n) s = execTickFire n s := rfl
  rw [hx, execTickFire, hp]
  dsimp only
  rw [hl, armed_of_st (.inl hr.st), hr.waits, hr.fired, hd, if_neg (by rintro (h | h) <;> cases h), if_neg Bool.false_ne_true, if_neg Bool.false_ne_true]

/-- The program of a tick whose fire is held back. -/
def Program.waitFire (x : Program) (k f : Nat) : Program :=
  { x with cur := k, fireAt := f, fired := true, skipped := 0, waits := true, released := false, listDone := false, failed := false, committed := false }

theorem takeTick_ready (hr : (s.prog p.prog).ready) : s.takeTick p k f =
    if s.fireBlocked p then (s.latchIngress p).setProg p.prog ((s.prog p.prog).waitFire k f) else (s.latchIngress p).fire p k f := by
  rw [State.takeTick]
  dsimp only
  rw [if_neg (Bool.eq_false_iff.1 hr.window), if_neg (Bool.eq_false_iff.1 hr.disarm), if_neg fun hg => Bool.eq_false_iff.1 hr.grant hg.1,
    if_neg (by rw [hr.st]; decide)]
  rfl

theorem latchIngress_flat (h : Flat s) (p : PerProg) : Flat (s.latchIngress p) :=
  have _ := anyPart_fact
  (latchIngress_keeps (P := False) (W := anyPart) (Keeps.rfl' h) p).flat

/-! ## Commit (R420) -/

/-- An element of a list whose index no other has stands in the table that the list fills. -/
theorem sget_foldl_sset {α β : Type} [DecidableEq β] (d : β) (q : α → Prop) [DecidablePred q] (key : α → Nat) (v : α → β) {x : α} (hq : q x)
    (hv : v x ≠ d) {xs : List α} (hx : x ∈ xs) (hu : ∀ y ∈ xs, key y = key x → y = x) (m : Sparse β) :
    sget d (xs.foldl (fun m y => if q y then sset d m (key y) (v y) else m) m) (key x) = v x := by
  obtain ⟨as, bs, rfl⟩ := List.append_of_mem hx
  rw [List.foldl_append, List.foldl_cons, if_pos hq]
  refine List.foldlRecOn bs _ (motive := fun m => sget d m (key x) = v x) (sget_sset_of_ne hv _ _) fun m hm y hy => ?_
  split
  · by_cases hkey : key y = key x
    · rw [hu y (List.mem_append_right _ (List.mem_cons_of_mem _ hy)) hkey]
      exact sget_sset_of_ne hv _ _
    · rw [sget_sset_ne _ _ _ _ _ (Ne.symm hkey)]
      exact hm
  · exact hm

/-- What a commit leaves: the program committed, and each of its egress regions in the hold. -/
theorem commit_facts (h : Flat s) (n : Nat) : ((s.commit n).prog n).committed = true ∧ ((s.commit n).prog n).holdTick = (s.prog n).cur % 2 ^ 32 ∧
    ∀ j x, (j, x) ∈ indexed s.img.streams → x.prog = n → x.dir = 1 → 0 < x.length →
      sget [] (s.commit n).per.hold j = s.spadRead (s.streamCore x) x.off x.length := by
  have hprogs : ∀ met : List (Nat × Nat), (s.each met (fun s w => s.spadCheck w.1 w.2)).per = s.per := fun met =>
    (each_keeps met _ (fun t w ht => spadCheck_keeps ht w.1 w.2) (Keeps.rfl' (P := False) (W := fun _ => False) h)).same .per not_false
  unfold State.commit
  extract_lets hold met
  have hflat : Flat ((s.each met (fun s w => s.spadCheck w.1 w.2)).modPer (fun u => { u with hold := hold })) :=
    have _ := anyPart_fact
    (modPer_keeps (each_keeps met _ (fun t w ht => spadCheck_keeps ht w.1 w.2) (Keeps.rfl' (P := False) (W := anyPart) h))
      (fun u => { u with hold := hold }) fun _ => ⟨rfl, rfl⟩).flat
  have hprog : ((s.each met (fun s w => s.spadCheck w.1 w.2)).modPer (fun u => { u with hold := hold })).prog n = s.prog n :=
    prog_of_per (congrArg Period.progs (hprogs met)) n
  rw [modProg_prog hflat, hprog]
  refine ⟨rfl, rfl, fun j x hx hxn hdir hlen => ?_⟩
  have hne : s.spadRead (s.streamCore x) x.off x.length ≠ [] := by
    rw [← List.length_pos_iff, length_spadRead]
    exact hlen
  exact sget_foldl_sset [] (fun y : Nat × PerStream => y.2.prog = n ∧ y.2.dir = 1) Prod.fst
    (fun y => s.spadRead (s.streamCore y.2) y.2.off y.2.length) (x := (j, x)) ⟨hxn, hdir⟩ hne hx
    (fun y hy (he : y.1 = j) => Prod.ext he (indexed_unique (j := j) (by rw [← he]; exact hy) hx)) s.per.hold

theorem exec_commit (hl : s.live = true) (hst : (s.prog n).st = .running) (hf : (s.prog n).fired = true) (hc : (s.prog n).committed = false)
    (he : s.listEnded n = true) (ht : (s.prog n).postAt + s.commitHclk n ≤ s.hclk) : exec (.commit n) s = .next (s.commit n) :=
  congrArg Host.Outcome.next (if_pos ⟨hl, hst, hf, by rw [hc]; rfl, he, ht⟩)

end Sys2Proof.Machine
end

section
/-!
SUPPORT and PROOFS. The deadline of a tick (R420 to R423): what ends the list of one program leaves the ticks of every other.
-/
namespace Sys2Proof.Machine

variable {s t : State} {n : Nat} {p : PerProg} {a : ProgState × Bool × Bool}

/-! ## A program stands while commands end -/

/-- What a deadline looks at of a program. -/
def Program.stands (x : Program) : ProgState × Bool × Bool := (x.st, x.windowOpen, x.committed)

/-- Program `n` stands at `a`. -/
structure ProgStands (n : Nat) (a : ProgState × Bool × Bool) (s : State) : Prop where
  flat : Flat s
  prog : (s.prog n).stands = a

/-- The parts that may change while every program stays as it is. -/
def besidePer (q : Part) : Prop := q ≠ .per

theorem besidePer_facts : Fact (besidePer .img) ∧ Fact (besidePer .hub) ∧ Fact (besidePer .flash) ∧ Fact (besidePer .halves) ∧
    Fact (besidePer .cores) ∧ Fact (besidePer .spad) ∧ Fact (besidePer .data) ∧ Fact (besidePer .engines) ∧ Fact (besidePer .queues) ∧
    Fact (besidePer .slots) ∧ Fact (besidePer .route) ∧ Fact (besidePer .links) ∧ Fact (besidePer .rng) ∧ Fact (besidePer .rel) ∧
    Fact (besidePer .host) := by
  refine ⟨⟨?_⟩, ⟨?_⟩, ⟨?_⟩, ⟨?_⟩, ⟨?_⟩, ⟨?_⟩, ⟨?_⟩, ⟨?_⟩, ⟨?_⟩, ⟨?_⟩, ⟨?_⟩, ⟨?_⟩, ⟨?_⟩, ⟨?_⟩, ⟨?_⟩⟩ <;> exact Part.noConfusion

theorem ProgStands.of_keeps (hs : ProgStands n a s) (k : Keeps False besidePer s t) : ProgStands n a t :=
  ⟨k.flat, by rw [prog_of_per (congrArg Period.progs (k.same .per (fun hw => hw rfl)))]; exact hs.prog⟩

theorem ProgStands.keeps (hs : ProgStands n a s) : Keeps False besidePer s s := Keeps.rfl' hs.flat

theorem ProgStands.each {α : Type} {f : State → α → State} (hs : ProgStands n a s) (xs : List α)
    (hf : ∀ t, ∀ x ∈ xs, ProgStands n a t → ProgStands n a (f t x)) : ProgStands n a (s.each xs f) :=
  List.foldlRecOn xs f hs fun t ht x hx => hf t x hx ht

/-- A program changes in nothing that a deadline looks at. -/
theorem ProgStands.modProg (hs : ProgStands n a s) (k : Nat) {f : Program → Program} (hf : ∀ x, (f x).stands = x.stands) :
    ProgStands n a (s.modProg k f) := by
  refine ⟨modProg_flat hs.flat k f, ?_⟩
  by_cases hk : n = k
  · subst hk
    rw [modProg_prog hs.flat, hf]
    exact hs.prog
  · rw [modProg_eq, prog_setProg_ne _ _ _ _ hk]
    exact hs.prog

theorem ProgStands.modProg_ne (hs : ProgStands n a s) {k : Nat} (hk : n ≠ k) (f : Program → Program) : ProgStands n a (s.modProg k f) :=
  ⟨modProg_flat hs.flat k f, by rw [modProg_eq, prog_setProg_ne _ _ _ _ hk]; exact hs.prog⟩

theorem ProgStands.writeRecord (hs : ProgStands n a s) (e : Nat) (c : Cmd) (d : Done) (m : Bool) : ProgStands n a (s.writeRecord e c d m) := by
  obtain ⟨_, _, _, _, _, _, _, _, _, _, _, _, _, _, _⟩ := besidePer_facts
  unfold State.writeRecord
  extract_lets f u q st s2 charge halt s3 s4 s5 s6 s7 s8 s9 s10
  have hu : Keeps False besidePer s u := by
    simp only [u, f]
    split
    · exact hs.keeps
    · exact draw_keeps hs.keeps
  have h2 : Keeps False besidePer s s2 := placeRecord_keeps hu _ _ _
  have h4 : Keeps False besidePer s s4 := modEng_keeps (setQueue_keeps h2 _ _) _ _
  have h5 : Keeps False besidePer s s5 := bumpBy_keeps (bump_keeps h4 _ _ _) _ _ _ _
  have h6 : Keeps False besidePer s s6 := ite_keeps (fun _ => bump_keeps h5 _ _ _) (fun _ => h5)
  have h7 : Keeps False besidePer s s7 := ite_keeps (fun _ => bump_keeps h6 _ _ _) (fun _ => h6)
  have h8 : Keeps False besidePer s s8 := ite_keeps (fun _ => bump_keeps h7 _ _ _) (fun _ => h7)
  have h9 : ProgStands n a s9 := hs.of_keeps (modMbx_keeps h8 _ (fun _ => ⟨rfl, rfl⟩))
  have h10 : ProgStands n a s10 := by
    simp only [s10]
    split
    · exact h9.modProg _ (fun _ => rfl)
    · exact h9
  exact h10.of_keeps (trace_keeps h10.keeps _ _ _ _ _)

theorem ProgStands.postAt (m : Nat) : ∀ {s : State}, ProgStands n a s → ∀ (e : Nat) (c : Cmd) (d : Done), ProgStands n a (s.postAt m e c d) := by
  obtain ⟨_, _, _, _, _, _, _, _, _, _, _, _, _, _, _⟩ := besidePer_facts
  induction m with
  | zero => exact fun hs e c d => hs.writeRecord e c d false
  | succ m ih =>
    intro s hs e c d
    unfold State.postAt
    extract_lets te k x armed ok s1
    split
    · split
      · exact (hs.of_keeps (bump_keeps hs.keeps _ _ _)).writeRecord _ _ _ _
      · split
        · exact (hs.of_keeps (event_keeps (trace_keeps (bump_keeps (setChain_keeps hs.keeps _ _ _) _ _ _) _ _ _ _ _) _)).writeRecord _ _ _ _
        · have h1 : ProgStands n a s1 :=
            hs.of_keeps (trace_keeps (bump_keeps (dropChainPreload_keeps (setChain_keeps hs.keeps _ _ _) _ _) _ _ _) _ _ _ _ _)
          split
          · exact (ih h1 _ _ _).writeRecord _ _ _ _
          · exact ih (h1.writeRecord _ _ _ _) _ _ _
    · exact hs.writeRecord _ _ _ _

theorem ProgStands.postRecord (hs : ProgStands n a s) (e : Nat) (c : Cmd) (d : Done) : ProgStands n a (s.postRecord e c d) :=
  ProgStands.postAt 168 hs e c d

theorem ProgStands.cancelChains (hs : ProgStands n a s) (q e : Nat) : ProgStands n a (s.cancelChains q e) := by
  obtain ⟨_, _, _, _, _, _, _, _, _, _, _, _, _, _, _⟩ := besidePer_facts
  unfold State.cancelChains
  refine hs.each _ fun t k _ ht => ?_
  extract_lets x
  split
  · exact ht
  · exact (ht.of_keeps (trace_keeps (bump_keeps (dropChainPreload_keeps (setChain_keeps (unfire_keeps ht.keeps _ _) _ _ _) _ _) _ _ _) _ _ _ _ _)).postRecord
      _ _ _

theorem ProgStands.endDestroys (hs : ProgStands n a s) : ProgStands n a s.endDestroys := by
  obtain ⟨_, _, _, _, _, _, _, _, _, _, _, _, _, _, _⟩ := besidePer_facts
  rw [endDestroys_eq]
  refine hs.each _ fun t d _ ht => ?_
  unfold State.endOne
  extract_lets u
  split
  · exact ht
  · have hu : ProgStands n a u := ht.each _ fun t e _ h => h.cancelChains _ e
    split
    · exact hu.of_keeps (endDestroy_keeps hu.keeps _)
    · exact hu

/-! ## What ends a command -/

theorem ProgStands.atBoundary (hs : ProgStands n a s) (e : Nat) : ProgStands n a (s.atBoundary e) := by
  obtain ⟨_, _, _, _, _, _, _, _, _, _, _, _, _, _, _⟩ := besidePer_facts
  exact hs.of_keeps (atBoundary_keeps hs.keeps e)

theorem ProgStands.discardPreload (hs : ProgStands n a s) (e : Nat) : ProgStands n a (s.discardPreload e) := by
  obtain ⟨_, _, _, _, _, _, _, _, _, _, _, _, _, _, _⟩ := besidePer_facts
  exact hs.of_keeps (discardPreload_keeps hs.keeps e)

theorem ProgStands.dropWait (hs : ProgStands n a s) (e : Nat) (w : Parked) : ProgStands n a (s.dropWait e w) := by
  obtain ⟨_, _, _, _, _, _, _, _, _, _, _, _, _, _, _⟩ := besidePer_facts
  exact hs.of_keeps (dropWait_keeps hs.keeps e w)

theorem ProgStands.finish (hs : ProgStands n a s) (e : Nat) (c : Cmd) (d : Done) : ProgStands n a (s.finish e c d) := by
  obtain ⟨_, _, _, _, _, _, _, _, _, _, _, _, _, _, _⟩ := besidePer_facts
  unfold State.finish
  split
  · exact hs.atBoundary e
  · extract_lets s1 s2
    have h1 : ProgStands n a s1 := hs.postRecord e c d
    have h2 : ProgStands n a s2 := by
      simp only [s2]
      split
      · exact h1.of_keeps (confirmPreload_keeps h1.keeps e)
      · exact h1.discardPreload e
    exact (h2.atBoundary e).endDestroys

theorem ProgStands.kill (hs : ProgStands n a s) (e : Nat) (c : Cmd) (at_ : Progress) (st : Nat) (cause : Cause) :
    ProgStands n a (s.kill e c at_ st cause) := by
  obtain ⟨_, _, _, _, _, _, _, _, _, _, _, _, _, _, _⟩ := besidePer_facts
  unfold State.kill
  extract_lets s1 ran kib
  have h1 : ProgStands n a s1 := hs.of_keeps (endWaits_keeps (killed_keeps hs.keeps e c at_) e)
  exact h1.finish e c _

theorem ProgStands.finishPriv (hs : ProgStands n a s) (c : Cmd) (d : Done) : ProgStands n a (s.finishPriv c d) := by
  obtain ⟨_, _, _, _, _, _, _, _, _, _, _, _, _, _, _⟩ := besidePer_facts
  unfold State.finishPriv
  extract_lets s1 s2 s3
  have h1 : ProgStands n a s1 := hs.postRecord _ _ _
  have h2 : ProgStands n a s2 := h1.of_keeps (modMbx_keeps h1.keeps _ (fun _ => ⟨rfl, rfl⟩))
  have h3 : ProgStands n a s3 := by
    simp only [s3]
    split
    · exact h2
    · exact h2.of_keeps (modSlot_keeps h2.keeps _ _)
  exact h3.endDestroys

theorem ProgStands.runMarch (hs : ProgStands n a s) (c : Cmd) (found : List RowFail) (cut : Option (Done × Option Nat)) :
    ProgStands n a (s.runMarch c found cut) := by
  obtain ⟨_, _, _, _, _, _, _, _, _, _, _, _, _, _, _⟩ := besidePer_facts
  unfold State.runMarch
  extract_lets ds mode o yclk s2
  have ho : Keeps False besidePer s o.st :=
    marchHalves_keeps _ _ (fun y d hy => MarchOut_half_keeps hy _ _ _ _) (MarchOut_start_keeps hs.keeps)
  have h2 : ProgStands n a s2 := hs.of_keeps (hubWrite_keeps (each_keeps _ _ (fun _ d hy => marchRest_keeps hy d) ho) _ _)
  have h3 := h2.finishPriv c ((cut.map Prod.fst).getD { status := endStatus false (!o.rows.isEmpty) false })
  exact h3.of_keeps (dropItemsOf_keeps h3.keeps _ _ _)

theorem ProgStands.stopPriv (hs : ProgStands n a s) (c : Cmd) (kill : Bool) (at_ : Progress) (st : Nat) (cause : Cause) :
    ProgStands n a (s.stopPriv c kill at_ st cause) := by
  obtain ⟨_, _, _, _, _, _, _, _, _, _, _, _, _, _, _⟩ := besidePer_facts
  unfold State.stopPriv
  extract_lets d mode f u
  split
  · exact hs
  · split
    · split
      · have hu : ProgStands n a u := (hs.of_keeps (draw_keeps hs.keeps)).runMarch _ _ _
        split
        · exact hu.of_keeps (each_keeps _ _ (fun _ h hy => freeBank_keeps hy _ h) hu.keeps)
        · exact hu
      · exact hs.runMarch _ _ _
    · exact (hs.of_keeps (dropPriv_keeps hs.keeps c)).finishPriv c d

theorem ProgStands.killList (hs : ProgStands n a s) (k : Nat) (at_ : Progress) : ProgStands n a (s.killList k at_) := by
  unfold State.killList
  extract_lets s1 s2
  have h1 : ProgStands n a s1 := hs.each _ fun t e _ ht => by
    split
    · split
      · exact ht.kill _ _ _ _ _
      · exact ht
    · exact ht
  have h2 : ProgStands n a s2 := h1.each _ fun t e _ ht => ht.each _ fun u w _ hu => (hu.dropWait e w).postRecord _ _ _
  exact h2.each _ fun t c _ ht => ht.stopPriv _ _ _ _ _

theorem ProgStands.withdraw (hs : ProgStands n a s) (k : Nat) : ProgStands n a (s.withdraw k) := by
  obtain ⟨_, _, _, _, _, _, _, _, _, _, _, _, _, _, _⟩ := besidePer_facts
  unfold State.withdraw
  extract_lets q s1 a1 b q1
  have h1 : Keeps False besidePer s s1 := by
    refine each_keeps _ _ (fun u e hu => ?_) hs.keeps
    split
    · split
      · exact discardPreload_keeps hu _
      · exact hu
    · exact hu
  clear_value s1
  have ha : Keeps False besidePer s a1.2 :=
    foldl_part_keeps Prod.snd (upto 21) (State.withdrawPrep q) (fun _ _ hy => withdrawPrep_keeps hy _ _) (b := (0, s1)) h1
  clear_value a1
  have hb : Keeps False besidePer s b.2 :=
    foldl_part_keeps Prod.snd (upto 21) (State.withdrawChains q) (fun _ _ hy => withdrawChains_keeps hy _ _) (b := a1) ha
  clear_value b
  exact (hs.of_keeps (setQueue_keeps hb _ _)).modProg k fun _ => rfl

/-! ## The frames of a tick -/

theorem drain_rest (s : State) (k : Nat) : (s.drain k).per.progs = s.per.progs ∧ (s.drain k).queues = s.queues := by
  rw [State.drain]
  dsimp only
  split <;> exact ⟨rfl, rfl⟩

theorem queueFrame_rest (s : State) (f : Frame) : (s.queueFrame f).per.progs = s.per.progs ∧ (s.queueFrame f).queues = s.queues := by
  rw [State.queueFrame]
  split
  · exact drain_rest _ _
  · exact ⟨rfl, rfl⟩

/-- Frames went out, and no program and no queue changed. -/
def SendsOnly (s t : State) : Prop := t.per.progs = s.per.progs ∧ t.queues = s.queues

theorem egress_rest (s : State) (prog flags k time : Nat) : SendsOnly s (s.egress prog flags k time) := by
  unfold State.egress
  exact each_induct (R := SendsOnly s) (fun t n ht => each_induct (R := SendsOnly s)
    (fun u f hu => ⟨(queueFrame_rest u f).1.trans hu.1, (queueFrame_rest u f).2.trans hu.2⟩) _ ht) _ ⟨rfl, rfl⟩

theorem egress_flat (h : Flat s) (prog flags k time : Nat) : Flat (s.egress prog flags k time) :=
  have _ := anyPart_fact
  (egress_keeps (P := False) (W := anyPart) (Keeps.rfl' h) prog flags k time).flat

theorem ProgStands.egress (hs : ProgStands n a s) (prog flags k time : Nat) : ProgStands n a (s.egress prog flags k time) :=
  ⟨egress_flat hs.flat .., by rw [prog_of_per (egress_rest ..).1]; exact hs.prog⟩

/-! ## The end of a tick -/

theorem ProgStands.endTick (hs : ProgStands n a s) (hp : n ≠ p.prog) (late : Bool) : ProgStands n a (s.endTick p late) := by
  obtain ⟨_, _, _, _, _, _, _, _, _, _, _, _, _, _, _⟩ := besidePer_facts
  unfold State.endTick
  extract_lets ran s1
  have h1 : ProgStands n a s1 := hs.modProg_ne hp _
  split
  · exact h1.of_keeps (modEng_keeps h1.keeps _ _)
  · exact h1

theorem ProgStands.missDeadline (hs : ProgStands n a s) (hp : n ≠ p.prog) (time : Nat) (at_ : Progress) :
    ProgStands n a (s.missDeadline p time at_) := by
  unfold State.missDeadline
  extract_lets x arg u t1
  have hu : ProgStands n a u := (hs.killList _ _).withdraw _
  have h1 : ProgStands n a t1 := hu.of_keeps
    (ite_keeps (fun _ => raise_keeps (bump_keeps hu.keeps _ _ _) _ _ _) (fun _ => raise_keeps (bump_keeps hu.keeps _ _ _) _ _ _))
  exact (h1.egress _ _ _ _).endTick hp true

theorem ProgStands.deadline (hs : ProgStands n a s) (hp : n ≠ p.prog) (at_ : Progress) : ProgStands n a (s.deadline at_ p) := by
  unfold State.deadline
  extract_lets x k time u
  have hu : ProgStands n a u := hs.of_keeps (traceTick_keeps hs.keeps _ _ _ _)
  split
  · split
    · exact hu.endTick hp _
    · exact (hu.egress _ _ _ _).endTick hp _
  · split
    · exact (hu.egress _ _ _ _).endTick hp _
    · split
      · exact (hu.egress _ _ _ _).endTick hp _
      · exact hu.missDeadline hp _ _

/-- A tick that ends leaves its program unfired, with LAST_LATE as it ends, and every queue. -/
theorem endTick_facts (h : Flat s) (p : PerProg) (late : Bool) : ((s.endTick p late).prog p.prog).fired = false ∧
    ((s.endTick p late).prog p.prog).lastLate = late ∧ (s.endTick p late).queues = s.queues := by
  unfold State.endTick
  extract_lets ran s1
  have h1 : (s1.prog p.prog).fired = false ∧ (s1.prog p.prog).lastLate = late := by
    simp only [s1]
    rw [modProg_prog h]
    exact ⟨rfl, rfl⟩
  split
  · exact ⟨h1.1, h1.2, rfl⟩
  · exact ⟨h1.1, h1.2, rfl⟩

theorem withdraw_queue (h : Flat s) (k : Nat) : ((s.withdraw k).queue (504 + k)).head = ((s.withdraw k).queue (504 + k)).tail := by
  have _ := anyPart_fact
  unfold State.withdraw
  extract_lets q s1 a1 b q1
  have h1 : Keeps False anyPart s s1 := by
    refine each_keeps _ _ (fun u e hu => ?_) (Keeps.rfl' h)
    split
    · split
      · exact discardPreload_keeps hu _
      · exact hu
    · exact hu
  clear_value s1
  have ha : Keeps False anyPart s a1.2 :=
    foldl_part_keeps Prod.snd (upto 21) (State.withdrawPrep q) (fun _ _ hy => withdrawPrep_keeps hy _ _) (b := (0, s1)) h1
  clear_value a1
  have hb : Keeps False anyPart s b.2 :=
    foldl_part_keeps Prod.snd (upto 21) (State.withdrawChains q) (fun _ _ hy => withdrawChains_keeps hy _ _) (b := a1) ha
  clear_value b
  have hq : ((b.2.setQueue q { q1 with head := q1.tail }).modProg k (fun x => { x with skipped := q1.tail - q1.head + b.1 })).queue (504 + k) =
      { q1 with head := q1.tail } := queue_setQueue_same _ _ _ hb.flat.queues
  rw [hq]

/-- A list that did not commit by its deadline: LATE, and nothing of it is left in its queue. -/
theorem missDeadline_facts (h : Flat s) (p : PerProg) (time : Nat) (at_ : Progress) : ((s.missDeadline p time at_).prog p.prog).fired = false ∧
    ((s.missDeadline p time at_).prog p.prog).lastLate = true ∧
    ((s.missDeadline p time at_).queue (504 + p.prog)).head = ((s.missDeadline p time at_).queue (504 + p.prog)).tail := by
  unfold State.missDeadline
  extract_lets x arg u t1
  have hk : ProgStands p.prog _ (s.killList (504 + p.prog) at_) := (ProgStands.mk (n := p.prog) h rfl).killList _ _
  have hu : Flat u := (hk.withdraw p.prog).flat
  have h1 : Keeps False (fun _ => False) u t1 := ite_keeps (fun _ => raise_keeps (bump_keeps (Keeps.rfl' hu) _ _ _) _ _ _)
    (fun _ => raise_keeps (bump_keeps (Keeps.rfl' hu) _ _ _) _ _ _)
  obtain ⟨hfired, hlate, hqueues⟩ := endTick_facts (egress_flat h1.flat p.prog (if x.failed then efFail else efLate) (x.cur % 2 ^ 32) time) p true
  refine ⟨hfired, hlate, ?_⟩
  have hsame : t1.queues = u.queues := h1.same .queues not_false
  rw [queue_of_queues (hqueues.trans ((egress_rest ..).2.trans hsame))]
  exact withdraw_queue hk.flat p.prog

/-- The deadline of a program that runs its list. -/
theorem deadline_facts (h : Flat s) (p : PerProg) (at_ : Progress) (hw : (s.prog p.prog).windowOpen = false) (hst : (s.prog p.prog).st = .running) :
    ((s.deadline at_ p).prog p.prog).fired = false ∧ ((s.deadline at_ p).prog p.prog).lastLate = !(s.prog p.prog).committed ∧
      ((s.prog p.prog).committed = false → ((s.deadline at_ p).queue (504 + p.prog)).head = ((s.deadline at_ p).queue (504 + p.prog)).tail) := by
  unfold State.deadline
  extract_lets x k time u
  have hu : Flat u := (traceTick_keeps (P := False) (W := fun _ => False) (Keeps.rfl' h) _ _ _ _).flat
  rw [if_neg (Bool.eq_false_iff.1 hw), if_neg (by rw [hst]; decide)]
  split
  · next hc =>
    obtain ⟨hfired, hlate, -⟩ := endTick_facts (egress_flat hu p.prog 0 k time) p false
    exact ⟨hfired, by rw [hlate, hc]; rfl, fun hno => absurd hc (Bool.eq_false_iff.1 hno)⟩
  · next hc =>
    obtain ⟨hfired, hlate, hqueue⟩ := missDeadline_facts hu p time at_
    exact ⟨hfired, by rw [hlate, Bool.eq_false_iff.2 hc]; rfl, fun _ => hqueue⟩

theorem lt_of_mem_deadlineBefore {q : PerProg} (hq : q ∈ s.deadlineBefore p) : q.prog < p.prog := by
  obtain ⟨k, hk, hf⟩ := List.mem_filterMap.1 (List.mem_filter.1 hq).1
  rw [prog_of_perProg hf]
  exact List.mem_range.1 hk

theorem exec_egressDeadline {at_ : Progress} (hp : s.perProg n = some p) (he : s.e5Sends = true) (hf : (s.prog n).fired = true)
    (hd : (s.prog n).fireAt + p.egress ≤ s.progNow p) :
    exec (.egressDeadline n at_) s = .next ((s.each (s.deadlineBefore p) (fun s q => s.deadline at_ q)).deadline at_ p) := by
  have hx : exec (.egressDeadline n at_) s = execEgressDeadline n at_ s := rfl
  have hdue : s.deadlineDue p = true := by
    rw [State.deadlineDue, prog_of_perProg hp, hf, decide_eq_true hd]
    rfl
  rw [hx, execEgressDeadline, hp]
  dsimp only
  rw [he, hdue]
  exact congrArg Host.Outcome.next (if_neg (by rintro (h | h) <;> cases h))

/-- Settles O46: a fire that goes through leaves `fireBegins` but for the scratchpads, and the deadlines of lower programs leave this program's tick. -/
theorem ticksComplete : Obligations.TicksComplete := by
  unfold Obligations.TicksComplete
  intro s n p hs hp
  have h : Flat s := (flat_iff s).2 hs
  have hpn := prog_of_perProg hp
  refine ⟨fun k f hl hst hfired hdis hwin hgrant hwaits hd hb => ?_, fun hl ha hw hh hb => ?_,
    fun k f hl hst hfired hdis hwin hgrant hwaits hd hb => ?_, fun hl hst hfired hc he ht => ?_, fun a he hfired hd hwin hst => ?_⟩
  · have hr : (s.prog n).ready := ⟨hst, hfired, hdis, hwin, hgrant, hwaits⟩
    have hprog := prog_setProg_same (s.latchIngress p) n ((s.prog n).waitFire k f) (latchIngress_flat h p).progs
    rw [exec_tickFire_due hp hl hr hd, takeTick_ready (hpn.symm ▸ hr), if_pos hb, hpn]
    refine ⟨_, rfl, ?_⟩
    rw [hprog]
    exact ⟨rfl, rfl, rfl, rfl, rfl, rfl⟩
  · obtain ⟨hprog, hqueue⟩ := fire_facts h p (s.prog n).cur (s.prog n).fireAt
    rw [hpn] at hprog hqueue
    refine ⟨_, exec_tickFire_waiting hp hl ha hw hh hb, ?_⟩
    rw [hprog, hqueue]
    exact ⟨rfl, rfl, rfl, rfl, rfl⟩
  · have hr : (s.prog n).ready := ⟨hst, hfired, hdis, hwin, hgrant, hwaits⟩
    obtain ⟨hprog, hqueue⟩ := fire_facts (latchIngress_flat h p) p k f
    rw [hpn] at hprog hqueue
    rw [exec_tickFire_due hp hl hr hd, takeTick_ready (hpn.symm ▸ hr), if_neg (Bool.eq_false_iff.1 hb)]
    refine ⟨_, rfl, ?_⟩
    rw [hprog, hqueue]
    exact ⟨rfl, rfl, rfl, rfl, rfl, rfl, rfl⟩
  · exact ⟨_, exec_commit hl hst hfired hc he ht, commit_facts h n⟩
  · have hb : ProgStands n (s.prog n).stands (s.each (s.deadlineBefore p) (fun s q => s.deadline a q)) :=
      (ProgStands.mk h rfl).each _ fun t q hq ht => ht.deadline (by have := lt_of_mem_deadlineBefore hq; omega) a
    have hstands := hb.prog
    rw [Program.stands, Program.stands, Prod.mk.injEq, Prod.mk.injEq] at hstands
    obtain ⟨hst', hwin', hc'⟩ := hstands
    obtain ⟨hf', hlate, hqueue⟩ := deadline_facts hb.flat p a (by rw [hpn]; exact hwin'.trans hwin) (by rw [hpn]; exact hst'.trans hst)
    rw [hpn] at hf' hlate hqueue
    rw [hc'] at hlate hqueue
    exact ⟨_, exec_egressDeadline hp he hfired hd, hf', hlate, hqueue⟩

end Sys2Proof.Machine
end

section
/-!
SUPPORT and PROOFS. 802.1AS time (R453, R454).
-/
namespace Sys2Proof.Machine

variable {s t : State} {port n : Nat}

theorem time_of (hp : t.per.time = s.per.time) (hc : t.hclk = s.hclk) : t.time = s.time := by rw [State.time, State.time, hp, hc]

theorem ptpOn_parts (h : s.ptpOn port = true) : s.e5Up = true ∧ (s.port port).cfg.getLsbD 0 = true := by
  rw [State.ptpOn, Bool.and_eq_true, Bool.and_eq_true] at h
  exact h.1

/-! ## A Sync and the loss of Sync -/

theorem exec_gptpSync_other {i : Nat} (h : s.per.time.follows i = false) : exec (.gptpSync port n i) s = .next s :=
  congrArg Host.Outcome.next (if_neg fun hc => Bool.eq_false_iff.1 h hc.2)

/-- The time that a Sync sets: the grandmaster's, corrected by the link delay, at the rate measured since the last one. -/
def TimeSt.sync (t : TimeSt) (hclk n : Nat) : TimeSt :=
  { t with
    now := n + t.delayNs, at_ := hclk, synced := true, holdover := false, lastSync := hclk
    rateNum := if (t.synced ∨ t.holdover) ∧ 0 < nsOf (hclk - t.lastSync) ∧ t.now ≤ n + t.delayNs ∧ t.at_ = t.lastSync then
      (n + t.delayNs - t.now) * 1000000000 / nsOf (hclk - t.lastSync) else t.rateNum }

theorem exec_gptpSync {i : Nat} (h : s.ptpOn port = true) (hi : s.per.time.follows i = true) :
    exec (.gptpSync port n i) s = .next (s.modTime (fun t => t.sync s.hclk n)) := congrArg Host.Outcome.next (if_pos ⟨h, hi⟩)

theorem time_sync (s : State) (n : Nat) : (s.modTime (fun t => t.sync s.hclk n)).time = n + s.per.time.delayNs := by
  have hs : (s.modTime (fun t => t.sync s.hclk n)).time =
      n + s.per.time.delayNs + nsOf (s.hclk - s.hclk) * (s.per.time.sync s.hclk n).rateNum / 1000000000 := rfl
  rw [hs, Nat.sub_self]
  simp [nsOf]

theorem modTime_flat (h : Flat s) (f : TimeSt → TimeSt) : Flat (s.modTime f) :=
  have _ := anyPart_fact
  (modTime_keeps (P := False) (W := anyPart) (Keeps.rfl' h) f).flat

/-- The loss of Sync: holdover, and the master is chosen anew. -/
def TimeSt.loseSync (t : TimeSt) : TimeSt := { t with synced := false, holdover := true, master := none }

theorem exec_syncTimeout (he : s.e5Up = true) (hs : s.per.time.synced = true) :
    exec .syncTimeout s = .next ((s.modTime TimeSt.loseSync).raise .timeHoldover 53 0) := congrArg Host.Outcome.next (if_pos ⟨he, hs⟩)

/-! ## Messages -/

/-- A gPTP message as a frame of traffic class 7. -/
def gptpFrame (port kind : Nat) : Frame := ⟨port, 7, (upto 68).map (fun i => Config.gptpByte kind i), some kind⟩

theorem queueFrame_on {f : Frame} (hc : (s.port f.port).cfg.getLsbD 0 = true) :
    s.queueFrame f = (s.modPort f.port (fun p => { p with waiting := p.waiting ++ [f] })).drain f.port := if_pos hc

theorem drain_time (s : State) (n : Nat) : (s.drain n).per.time = s.per.time := by
  rw [State.drain]
  dsimp only
  split <;> rfl

theorem queueFrame_time (s : State) (f : Frame) : (s.queueFrame f).per.time = s.per.time := by
  rw [State.queueFrame]
  split
  · exact drain_time _ _
  · rfl

theorem queueFrame_flat (h : Flat s) (f : Frame) : Flat (s.queueFrame f) :=
  have _ := anyPart_fact
  (queueFrame_keeps (P := False) (W := anyPart) (Keeps.rfl' h) f).flat

theorem gptpSend_flat (h : Flat s) (port kind : Nat) : Flat (s.gptpSend port kind) := queueFrame_flat h (gptpFrame port kind)

/-- A port that is up with an empty gate list sends a message at once. -/
theorem gptpSend_sent (h : Flat s) (kind : Nat) (hc : (s.port port).cfg.getLsbD 0 = true) (hl : (s.port port).link = true)
    (hp : (s.port port).oper.entries = []) (hw : (s.port port).waiting = []) :
    (s.gptpSend port kind).port port = s.port port ∧ (s.gptpSend port kind).ports.gptpOut = s.ports.gptpOut ++ [(port, kind)] := by
  have hport := modPort_port h port (fun p => { p with waiting := p.waiting ++ [gptpFrame port kind] })
  have hs : s.gptpSend port kind = (s.modPort port (fun p => { p with waiting := p.waiting ++ [gptpFrame port kind] })).drain port :=
    queueFrame_on (f := gptpFrame port kind) hc
  rw [hs, drain_all (by rw [hport]; exact hc) (by rw [hport]; exact hl) (by rw [hport]; exact hp), hport, hw]
  refine ⟨(port_setPort_same _ port _ (modPort_flat h port _).ports).trans ?_, rfl⟩
  rw [← hw]

/-- A port that is down keeps a message. -/
theorem gptpSend_kept (h : Flat s) (kind : Nat) (hc : (s.port port).cfg.getLsbD 0 = true) (hl : (s.port port).link = false) :
    (s.gptpSend port kind).port port = { s.port port with waiting := (s.port port).waiting ++ [gptpFrame port kind] } ∧
      (s.gptpSend port kind).ports.gptpOut = s.ports.gptpOut := by
  have hport := modPort_port h port (fun p => { p with waiting := p.waiting ++ [gptpFrame port kind] })
  have hs : s.gptpSend port kind = (s.modPort port (fun p => { p with waiting := p.waiting ++ [gptpFrame port kind] })).drain port :=
    queueFrame_on (f := gptpFrame port kind) hc
  rw [hs, drain_off (.inr (by rw [hport]; exact hl))]
  exact ⟨hport, rfl⟩

theorem exec_pdelayReq (h : s.ptpOn port = true) :
    exec (.pdelayReq port) s = .next ((s.gptpSend port gptpPdelayResp).gptpSend port gptpPdelayRespFollowUp) :=
  congrArg Host.Outcome.next (if_pos h)

theorem exec_pdelayResp (h : s.ptpOn port = true) : exec (.pdelayResp port n) s = .next (s.modTime (fun t => { t with delayNs := n })) :=
  congrArg Host.Outcome.next (if_pos h)

/-! ## Masters -/

/-- The time function where a master announces itself. -/
def TimeSt.hear (t : TimeSt) (pr id : Nat) : TimeSt :=
  match t.master with
  | some m => if pr < m.1 ∨ (pr = m.1 ∧ id < m.2) then { t with master := some (pr, id) } else t
  | none => { t with master := some (pr, id) }

theorem exec_announce {pr id : Nat} (h : s.ptpOn port = true) : exec (.announce port pr id) s = .next (s.modTime (fun t => t.hear pr id)) :=
  congrArg Host.Outcome.next (if_pos h)

/-- Of two masters the better one stands. -/
theorem hear_master (t : TimeSt) (pr id : Nat) : ∃ m, (t.hear pr id).master = some m ∧ (m.1 < pr ∨ (m.1 = pr ∧ m.2 ≤ id)) ∧
    (m = (pr, id) ∨ some m = t.master) := by
  unfold TimeSt.hear
  split
  · next m hm =>
    split
    · exact ⟨(pr, id), rfl, .inr ⟨rfl, Nat.le_refl _⟩, .inl rfl⟩
    · exact ⟨m, hm, by omega, .inr hm.symm⟩
  · exact ⟨(pr, id), rfl, .inr ⟨rfl, Nat.le_refl _⟩, .inl rfl⟩

/-! ## The time between commands -/

/-- A state whose 802.1AS time is that of `s`. -/
def TimeSame (s t : State) : Prop := t.per.time = s.per.time

theorem askDelay_time (s : State) : TimeSame s s.askDelay := by
  unfold State.askDelay
  split
  · exact rfl
  · exact each_induct (R := TimeSame s) (fun t k ht => (queueFrame_time t _).trans ht) _ rfl

theorem askDelay_flat (h : Flat s) : Flat s.askDelay :=
  have _ := anyPart_fact
  (askDelay_keeps (P := False) (W := anyPart) (Keeps.rfl' h)).flat

theorem tickWork_time (h : Flat s) : TimeSame s s.tickWork := by
  obtain ⟨_, _, _, _, _, _, _, _, _, _, _, _, _, _, _⟩ := besidePer_facts
  unfold State.tickWork
  extract_lets s1 s2
  have h1 : TimeSame s s1 ∧ Flat s1 := by
    simp only [s1]
    split
    · have hfires := tickFires_keeps (tickRng_keeps (tickQueues_keeps
        (each_keeps ((upto 21).filter s.present) State.tickEngine (fun _ _ hu => tickEngine_keeps hu _) (Keeps.rfl' (P := False) (W := besidePer) h))))
      have htrace := traceWrite_keeps (Keeps.rfl' (P := False) (W := besidePer) (askDelay_flat hfires.flat))
      refine ⟨?_, htrace.flat⟩
      have ht := congrArg Period.time (htrace.same .per (fun hw => hw rfl))
      have hf := congrArg Period.time (hfires.same .per (fun hw => hw rfl))
      exact ht.trans ((askDelay_time _).trans hf)
    · exact ⟨rfl, h⟩
  have h2 : Keeps False besidePer s1 s2 := ite_keeps (fun _ => takeFull_keeps (Keeps.rfl' h1.2)) (fun _ => Keeps.rfl' h1.2)
  have h3 : Keeps False besidePer s1 (if s2.pwr.mod = .ready then s2.each (upto 4) State.linkSlot else s2) :=
    ite_keeps (fun _ => each_keeps _ _ (fun _ _ hu => linkSlot_keeps hu _) h2) (fun _ => h2)
  exact (congrArg Period.time (h3.same .per (fun hw => hw rfl))).trans h1.1

theorem pfailTick_time (h : Flat s) : TimeSame s s.pfailTick := by
  have hw : ∀ a, (s.pfailWrite a).per = s.per := fun a =>
    have : Fact ((fun q => q = Part.flash) .flash) := ⟨rfl⟩
    (pfailWrite_keeps (P := False) (W := fun q => q = .flash) (Keeps.rfl' h) a).same .per (by decide)
  unfold State.pfailTick
  split
  · exact rfl
  · extract_lets u
    have hu : u.per.time = s.per.time := congrArg Period.time (hw _)
    clear_value u
    split
    · exact hu
    · split <;> exact hu

theorem pass_time (h : Flat s) (n : Nat) : TimeSame s (s.pass n) := by
  have : Fact ((fun q => q = Part.halves ∨ q = Part.hclk) .halves) := ⟨.inl rfl⟩
  have : Fact ((fun q => q = Part.halves ∨ q = Part.hclk) .hclk) := ⟨.inr rfl⟩
  exact congrArg Period.time ((pass_keeps (P := False) (W := fun q => q = .halves ∨ q = .hclk) (Keeps.rfl' h) n).same .per (by decide))

theorem tick_time (h : Flat s) : s.tick.per.time = s.per.time := by
  have hw : Flat s.tickWork := (tickWork_keeps_own (P := False) h).flat
  rw [tick_eq]
  exact (pfailTick_time (pass_flat hw 1)).trans ((pass_time hw 1).trans (tickWork_time h))

/-- Settles O43: each message of gPTP changes what it names of the time, and no part of an idle hclk writes the time function. -/
theorem timeFollowsSync : Obligations.TimeFollowsSync := by
  unfold Obligations.TimeFollowsSync
  intro s port n i hs
  have h : Flat s := (flat_iff s).2 hs
  refine ⟨exec_gptpSync_other, fun hon hi => ⟨_, exec_gptpSync hon hi, time_sync s n, rfl, rfl, rfl, rfl, rfl⟩, fun he hsync => ?_,
    fun hon hw => ⟨fun hl hp => ⟨_, exec_pdelayReq hon, ?_⟩, fun hl => ⟨_, exec_pdelayReq hon, ?_⟩⟩, fun hon => ⟨_, exec_pdelayResp hon, rfl, rfl⟩,
    fun t hpend hstep => ?_, fun pr id hon => ?_⟩
  · have hf := modTime_flat h TimeSt.loseSync
    have hper : ((s.modTime TimeSt.loseSync).raise .timeHoldover 53 0).per = (s.modTime TimeSt.loseSync).per := raise_same hf _ _ _ .per
    have hclk : ((s.modTime TimeSt.loseSync).raise .timeHoldover 53 0).hclk = s.hclk := raise_same hf _ _ _ .hclk
    refine ⟨_, exec_syncTimeout he hsync, ?_⟩
    rw [State.time, hper, hclk]
    exact ⟨rfl, rfl, rfl, rfl⟩
  · obtain ⟨hport, hout⟩ := gptpSend_sent h gptpPdelayResp (ptpOn_parts hon).2 hl hp hw
    obtain ⟨-, hout2⟩ := gptpSend_sent (gptpSend_flat h port gptpPdelayResp) gptpPdelayRespFollowUp
      (by rw [hport]; exact (ptpOn_parts hon).2) (by rw [hport]; exact hl) (by rw [hport]; exact hp) (by rw [hport]; exact hw)
    refine ⟨(queueFrame_time _ _).trans (queueFrame_time _ _), hout2.trans ?_⟩
    rw [hout, List.append_assoc]
    rfl
  · obtain ⟨hport, hout⟩ := gptpSend_kept h gptpPdelayResp (ptpOn_parts hon).2 hl
    obtain ⟨hport2, hout2⟩ := gptpSend_kept (gptpSend_flat h port gptpPdelayResp) gptpPdelayRespFollowUp
      (by rw [hport]; exact (ptpOn_parts hon).2) (by rw [hport]; exact hl)
    refine ⟨hout2.trans hout, ?_⟩
    rw [hport2, hport, hw]
    rfl
  · rw [step_of_pending_nil hpend] at hstep
    obtain rfl : s.tick = t := by injection hstep
    refine ⟨tick_time h, ?_⟩
    rw [State.time, tick_time h, tick_hclk h]
  · obtain ⟨m, hm, hbest, hfrom⟩ := hear_master s.per.time pr id
    exact ⟨_, m, exec_announce hon, hm, hbest, hfrom⟩

end Sys2Proof.Machine
end

section
/-!
SUPPORT and PROOFS. CLKMODE (R530 to R532) and RETAIN (R297 to R301).
-/
namespace Sys2Proof.Machine

variable {s t : State} {c : Cmd} {d : Nat}

theorem modHalf_half (h : Flat s) (d : Nat) (f : Half → Half) : (s.modHalf d f).half d = f (s.half d) := half_setHalf_same s d _ h.halves

theorem modHalf_flat (h : Flat s) (d : Nat) (f : Half → Half) : Flat (s.modHalf d f) :=
  have _ := anyPart_fact
  (modHalf_keeps (P := False) (W := anyPart) (Keeps.rfl' h) d f).flat

/-! ## Items leave -/

theorem closeWindow_mbx (s : State) (e : Nat) : (s.closeWindow e).mbx = s.mbx := by
  unfold State.closeWindow
  split <;> rfl

theorem dropItem_mbx (s : State) (i : RepairItem) : (s.dropItem i).mbx = s.mbx := closeWindow_mbx _ _

theorem dropItemsOf_mbx (s : State) (kind : Nat) (cmds : List Cmd) (req : Option Req) : (s.dropItemsOf kind cmds req).mbx = s.mbx := by
  unfold State.dropItemsOf
  exact each_of (fun s => s.mbx) _ _ dropItem_mbx s

/-- What the end of an item may write. -/
def endItemWrites (p : Part) : Bool := [Part.img, .data, .engines, .queues, .slots, .per, .rel, .host].contains p

theorem endItemWrites_facts : Fact (endItemWrites .img = true) ∧ Fact (endItemWrites .data = true) ∧ Fact (endItemWrites .engines = true) ∧
    Fact (endItemWrites .queues = true) ∧ Fact (endItemWrites .slots = true) ∧ Fact (endItemWrites .per = true) ∧ Fact (endItemWrites .rel = true) ∧
    Fact (endItemWrites .host = true) := ⟨⟨rfl⟩, ⟨rfl⟩, ⟨rfl⟩, ⟨rfl⟩, ⟨rfl⟩, ⟨rfl⟩, ⟨rfl⟩, ⟨rfl⟩⟩

theorem endItem_keeps_own {o : State} (h : Keeps False (fun p => endItemWrites p = true) o s) (i : RepairItem) (flagged : Bool) :
    Keeps False (fun p => endItemWrites p = true) o (s.endItem i flagged) := by
  obtain ⟨_, _, _, _, _, _, _, _⟩ := endItemWrites_facts
  exact endItem_keeps h i flagged

/-- A command in Prephor's hands ends, and leaves the items it waits in. -/
theorem finishDrop_keeps_own {o : State} (h : Keeps False (fun p => endItemWrites p = true) o s) (c : Cmd) (x : Done) (kind : Nat) (cmds : List Cmd)
    (req : Option Req) : Keeps False (fun p => endItemWrites p = true) o ((s.finishPriv c x).dropItemsOf kind cmds req) := by
  obtain ⟨_, _, _, _, _, _, _, _⟩ := endItemWrites_facts
  exact dropItemsOf_keeps (finishPriv_keeps h c x) kind cmds req

theorem finishDrop_privs (h : Flat s) (c : Cmd) (x : Done) (kind : Nat) (cmds : List Cmd) (req : Option Req) :
    c ∉ ((s.finishPriv c x).dropItemsOf kind cmds req).mbx.privs := by
  rw [dropItemsOf_mbx]
  exact finishPriv_privs h c x

/-! ## Alignment -/

theorem startSet_req (s : State) (ds : List Nat) : (s.startSet ds).clk.req = s.clk.req := by
  have h1 : (s.each (ds.filter (fun d => decide (d < 32))) (fun s d =>
      (s.setRclk d RouterClock.reset).modHalf d (fun h => { h with idleAt := 0 }))).clk = s.clk := each_of (fun s => s.clk) _
      (fun s d => (s.setRclk d RouterClock.reset).modHalf d (fun h => { h with idleAt := 0 })) (fun _ _ => rfl) s
  refine Eq.trans ?_ (congrArg Clocks.req h1)
  rfl

theorem setAligned_clk (h : Flat s) (live : List Nat) (state un : Nat) : (s.setAligned live state un).clk.req = s.clk.req ∧
    (live = [] → (s.setAligned live state un).clk.aligned = 0) ∧ (s.setAligned live state un).clk.state = state := by
  have : Fact ((fun p => p = Part.halves ∨ p = Part.per) .halves) := ⟨.inl rfl⟩
  have : Fact ((fun p => p = Part.halves ∨ p = Part.per) .per) := ⟨.inr rfl⟩
  unfold State.setAligned
  extract_lets gone left engs s1
  have hf : Flat s1 := { h with }
  have hclk : s1.setClocks.holdPrograms.clk = s1.clk :=
    (holdPrograms_keeps (setClocks_keeps (Keeps.rfl' (P := False) (W := fun p => p = .halves ∨ p = .per) hf))).same .clk (by decide)
  rw [hclk]
  refine ⟨rfl, fun hl => ?_, rfl⟩
  have hmask : (fun d => left.contains d) = fun _ => false := by
    funext d
    simp only [left, hl, List.filter_nil, List.contains_nil]
  have haligned : s1.clk.aligned = BitVec.ofNat 60 (maskOf 60 (fun d => left.contains d)) := rfl
  rw [haligned, hmask]
  decide

/-- Alignment leaves the set asked for, and with none asked for no domain aligned. -/
theorem alignOver_clk (h : Flat s) (mask : BitVec 60) (req : List Nat) (f : AlignFacts) : (s.alignOver mask req f).clk.req = mask ∧
    (mask = 0 → (s.alignOver mask req f).clk.aligned = 0 ∧ (s.alignOver mask req f).clk.state = 0) := by
  have _ := anyPart_fact
  unfold State.alignOver
  extract_lets s0 iss noLock pll live facts lost failed loop out attempts s1 s2 s3 doms
  have f0 : Flat s0 := { h with }
  split
  · obtain ⟨hreq, haligned, hstate⟩ := setAligned_clk f0 [] 0 0
    exact ⟨hreq, fun _ => ⟨haligned rfl, hstate⟩⟩
  · next hm =>
    have h1 : s1.clk.req = mask ∧ Flat s1 := by
      simp only [s1]
      split
      · exact ⟨rfl, { f0 with }⟩
      · have hk : Flat (s0.startSet live) := (startSet_keeps (P := False) (W := anyPart) (Keeps.rfl' f0) live).flat
        exact ⟨startSet_req s0 live, { hk with }⟩
    have h2 : Keeps False (fun _ => False) s1 s2 := each_keeps _ _ (fun _ x hu => alignFail_keeps hu x) (Keeps.rfl' h1.2)
    have hreq2 : s2.clk.req = mask := (congrArg Clocks.req (h2.same .clk not_false)).trans h1.1
    refine ⟨?_, fun hmask => absurd hmask hm⟩
    split
    · extract_lets x
      have fx : Flat (s2.modClk (fun c => c.fail0 x)) := { h2.flat with }
      have hx : Keeps False (fun _ => False) (s2.modClk (fun c => c.fail0 x)) ((s2.modClk (fun c => c.fail0 x)).alignFail x) :=
        alignFail_keeps (Keeps.rfl' fx) x
      rw [(setAligned_clk hx.flat _ _ _).1, show _ = _ from hx.same .clk not_false]
      exact hreq2
    · have h3 : s3.clk.req = s2.clk.req ∧ Flat s3 := by
        simp only [s3]
        clear_value out
        split
        · exact ⟨rfl, h2.flat⟩
        · exact ⟨rfl, { h2.flat with }⟩
      rw [(setAligned_clk h3.2 _ _ _).1, h3.1]
      exact hreq2

/-! ## CLKMODE -/

theorem exec_clkmode {facts : AlignFacts} (hl : s.live = true) (hc : s.privOf opClkmode = some c) (hk : s.privCheck c = none)
    (he : (s.clkEngines (fld c.tack 0 8)).all (fun e => s.holdsFor e 20) = true) : exec (.clkmode facts) s = .next (s.runClkmode c facts) := by
  have hx : exec (.clkmode facts) s = execClkmode facts s := rfl
  have hall : (((s.clkEngines (fld c.tack 0 8)).map (fun e => (e, 20))).all (fun e => s.holdsFor e.1 e.2)) = true := by
    rw [List.all_map]
    exact he
  rw [hx, execClkmode, hc]
  dsimp only
  rw [State.repairing, hl, if_neg (by decide), hk]
  exact congrArg Host.Outcome.next (if_pos hall)

theorem runClkmode_facts (h : Flat s) (c : Cmd) (facts : AlignFacts) : c ∉ (s.runClkmode c facts).mbx.privs ∧
    (s.runClkmode c facts).clk.req = BitVec.ofNat 60 (fld c.tack 0 8) ∧
    (fld c.tack 0 8 = 0 → (s.runClkmode c facts).clk.aligned = 0 ∧ (s.runClkmode c facts).clk.state = 0) := by
  have _ := anyPart_fact
  unfold State.runClkmode
  extract_lets mask s1 s2 s3
  have f1 : Flat s1 := (each_keeps (P := False) (W := anyPart) _ _ (fun _ e hu => discardPreload_keeps hu e) (Keeps.rfl' h)).flat
  obtain ⟨hreq, hzero⟩ := alignOver_clk f1 mask (s1.clkTakesPart mask) facts
  have f2 : Flat s2 := (alignOver_keeps (P := False) (W := anyPart) (Keeps.rfl' f1) mask (s1.clkTakesPart mask) facts).flat
  have h3 : Keeps False (fun p => endItemWrites p = true) s2 s3 := each_keeps _ _ (fun _ i hu => endItem_keeps_own hu i false) (Keeps.rfl' f2)
  have hclk : ((s3.finishPriv c { status := endStatus false (s3.clk.aligned != mask) false }).dropItemsOf 6 [c] none).clk = s2.clk :=
    (finishDrop_keeps_own h3 c _ 6 [c] none).same .clk Bool.false_ne_true
  refine ⟨finishDrop_privs h3.flat c _ 6 [c] none, ?_⟩
  rw [hclk]
  exact ⟨hreq, fun hm => hzero (congrArg (BitVec.ofNat 60) hm)⟩

/-! ## RETAIN -/

/-- Half `d` is in power state `p`. -/
structure AtRest (d : Nat) (p : PState) (s : State) : Prop where
  flat : Flat s
  state : (s.half d).pstate = p

theorem AtRest.of_halves (h : AtRest d p s) (f : Flat t) (ht : t.yards.halves = s.yards.halves) : AtRest d p t :=
  ⟨f, by rw [half_of_halves ht]; exact h.state⟩

/-- A change of one half leaves every other as it was, and it where the change keeps the power state. -/
theorem AtRest.modHalf {p : PState} (h : AtRest d p s) (k : Nat) {f : Half → Half} (hf : k = d → (f (s.half d)).pstate = p) :
    AtRest d p (s.modHalf k f) := by
  refine ⟨modHalf_flat h.flat k f, ?_⟩
  by_cases hk : k = d
  · subst hk
    rw [modHalf_half h.flat]
    exact hf rfl
  · rw [State.modHalf, half_setHalf_ne _ _ _ _ (Ne.symm hk)]
    exact h.state

theorem wakeClock_halves (s : State) (d : Nat) : (s.wakeClock d).2.yards = s.yards := by
  unfold State.wakeClock
  split <;> rfl

theorem wakeClock_flat (h : Flat s) (d : Nat) : Flat (s.wakeClock d).2 := (wakeClock_keeps (P := False) (W := fun _ => False) (Keeps.rfl' h) d).flat

/-- What a loop over halves does at each of them, its steps for the others keeping it. -/
theorem each_atRest {p : PState} {f : State → Nat → State} (hk : ∀ s k, Flat s → Flat (f s k)) (hd : ∀ s k, Flat s → ((f s k).half k).pstate = p)
    (ho : ∀ s k d, AtRest d p s → AtRest d p (f s k)) {ds : List Nat} (hm : d ∈ ds) (h : Flat s) : AtRest d p (s.each ds f) := by
  obtain ⟨as, bs, rfl⟩ := List.append_of_mem hm
  have hsplit : s.each (as ++ d :: bs) f = (f (s.each as f) d).each bs f := List.foldl_append
  have ha : Flat (s.each as f) := each_induct (fun s k hs => hk s k hs) as h
  rw [hsplit]
  exact each_induct (fun s k hs => ho s k d hs) bs ⟨hk _ d ha, hd _ d ha⟩

theorem toRun_flat (h : Flat s) (k : Nat) : Flat (s.toRun k) :=
  have _ := anyPart_fact
  (toRun_keeps (P := False) (W := anyPart) (Keeps.rfl' h) k).flat

/-- The state in which a wake draws its clock: one that was OFF has its banks zero and the remaps of TOPO. -/
def State.wakeBegins (s : State) (d : Nat) : State :=
  if (s.half d).pstate = .off then (s.zeroHalf d).modHalf d (fun h => { h with rows := s.img.rows.filter (fun r => r.yh == d) }) else s

theorem wakeHalf_eq (s : State) (d : Nat) : s.wakeHalf d = ((s.wakeBegins d).wakeClock d).2.modHalf d (fun h =>
    { h.ranAt ((s.wakeBegins d).wakeClock d).1 with pstate := .run, waking := false, curMhz := ((s.wakeBegins d).wakeClock d).1 }) := rfl

theorem zeroHalf_flat (h : Flat s) (d : Nat) : Flat (s.zeroHalf d) :=
  have _ := anyPart_fact
  (zeroHalf_keeps (P := False) (W := anyPart) (Keeps.rfl' h) d).flat

theorem wakeBegins_flat (h : Flat s) (d : Nat) : Flat (s.wakeBegins d) := by
  unfold State.wakeBegins
  split
  · exact modHalf_flat (zeroHalf_flat h d) d _
  · exact h

theorem toRun_run (h : Flat s) (k : Nat) : ((s.toRun k).half k).pstate = .run := by
  unfold State.toRun
  split
  · rw [wakeHalf_eq, modHalf_half (wakeClock_flat (wakeBegins_flat h k) k)]
  · rw [modHalf_half h]

theorem AtRest.toRun (h : AtRest d .run s) (k : Nat) : AtRest d .run (s.toRun k) := by
  by_cases hk : k = d
  · exact ⟨toRun_flat h.flat k, hk ▸ toRun_run h.flat k⟩
  · unfold State.toRun
    split
    · have hb : AtRest d .run (s.wakeBegins k) := by
        unfold State.wakeBegins
        split
        · exact (h.of_halves (zeroHalf_flat h.flat k) rfl).modHalf k fun he => absurd he hk
        · exact h
      rw [wakeHalf_eq]
      exact (hb.of_halves (wakeClock_flat hb.flat k) (congrArg Yards.halves (wakeClock_halves _ k))).modHalf k fun he => absurd he hk
    · exact h.modHalf k fun he => absurd he hk

/-- A half that goes to sleep loses what its cores hold, unless it sleeps already. -/
def State.sleepBegins (s : State) (d : Nat) : State := if s.sqDown d then s else (s.losePrograms d).each (s.coresOf d) (fun s n => s.loseCore n)

theorem sleepHalf_eq (s : State) (d : Nat) (target : PState) : s.sleepHalf d target =
    if target = .off then ((s.sleepBegins d).zeroHalf d).modHalf d (fun h => { h with pstate := .off, curMhz := 0, rows := [] })
    else if (s.half d).pstate = .off then ((s.sleepBegins d).wakeClock d).2.modHalf d (fun h => { h with
      pstate := .retain, curMhz := ((s.sleepBegins d).wakeClock d).1, rows := s.img.rows.filter (fun r => r.yh == d) })
    else (s.sleepBegins d).modHalf d (fun h => { h with pstate := .retain }) := rfl

theorem sleepBegins_keeps (h : Flat s) (d : Nat) : Keeps False (fun p => p ≠ .halves) s (s.sleepBegins d) := by
  have : Fact ((fun p => p ≠ Part.halves) .engines) := ⟨Part.noConfusion⟩
  have : Fact ((fun p => p ≠ Part.halves) .cores) := ⟨Part.noConfusion⟩
  unfold State.sleepBegins
  exact ite_keeps (fun _ => Keeps.rfl' h) (fun _ => each_keeps _ _ (fun _ n hu => loseCore_keeps hu n) (losePrograms_keeps (Keeps.rfl' h) d))

theorem sleepHalf_flat (h : Flat s) (d : Nat) (target : PState) : Flat (s.sleepHalf d target) :=
  have _ := anyPart_fact
  (sleepHalf_keeps (P := False) (W := anyPart) (Keeps.rfl' h) d target).flat

theorem sleepHalf_pstate (h : Flat s) (d : Nat) {target : PState} (ht : target = .off ∨ target = .retain) :
    ((s.sleepHalf d target).half d).pstate = target := by
  have hb := (sleepBegins_keeps h d).flat
  rw [sleepHalf_eq]
  rcases ht with rfl | rfl
  · rw [if_pos rfl, modHalf_half (zeroHalf_flat hb d)]
  · rw [if_neg (by decide)]
    split
    · rw [modHalf_half (wakeClock_flat hb d)]
    · rw [modHalf_half hb]

theorem AtRest.sleepHalf {p target : PState} (h : AtRest d p s) (k : Nat) (ht : target = .off ∨ target = .retain) (hp : p = target) :
    AtRest d p (s.sleepHalf k target) := by
  by_cases hk : k = d
  · exact ⟨sleepHalf_flat h.flat k target, by rw [hp, ← hk]; exact sleepHalf_pstate h.flat k ht⟩
  · have hkeep := sleepBegins_keeps h.flat k
    have hb : AtRest d p (s.sleepBegins k) := h.of_halves hkeep.flat (hkeep.same .halves (fun hn => hn rfl))
    rw [sleepHalf_eq]
    split
    · exact (hb.of_halves (zeroHalf_flat hb.flat k) rfl).modHalf k fun he => absurd he hk
    · split
      · exact (hb.of_halves (wakeClock_flat hb.flat k) (congrArg Yards.halves (wakeClock_halves _ k))).modHalf k fun he => absurd he hk
      · exact hb.modHalf k fun he => absurd he hk

/-- Every half of a RETAIN that sleeps comes to its target. -/
theorem runSleep_facts (h : Flat s) (c : Cmd) {target : PState} (ht : target = .off ∨ target = .retain) (hall : (maskHalves c).all s.maySleep = true) :
    c ∉ (s.runSleep c target).mbx.privs ∧ ∀ d ∈ maskHalves c, ((s.runSleep c target).half d).pstate = target := by
  have : Fact ((fun p => p ≠ Part.halves) .engines) := ⟨Part.noConfusion⟩
  have : Fact ((fun p => p ≠ Part.halves) .queues) := ⟨Part.noConfusion⟩
  unfold State.runSleep
  extract_lets ds s1
  have hgo : ds.all s.maySleep = true := by
    rw [List.all_eq_true] at hall ⊢
    exact fun d hd => hall d (List.mem_of_mem_filter hd)
  have h1 : Keeps False (fun p => p ≠ .halves) s s1 := each_keeps _ _ (fun _ e hu => discardPreload_keeps hu e) (Keeps.rfl' h)
  have h2 : Flat (s1.each ds (fun s d => s.sleepHalf d target)) := each_induct (R := Flat) (fun _ d hs => sleepHalf_flat hs d target) ds h1.flat
  rw [if_pos hgo]
  refine ⟨finishPriv_privs h2 c _, fun d hd => ?_⟩
  have hhalves : ((s1.each ds (fun s d => s.sleepHalf d target)).finishPriv c { status := stOk }).yards.halves =
      (s1.each ds (fun s d => s.sleepHalf d target)).yards.halves := by
    obtain ⟨_, _, _, _, _, _, _, _⟩ := endItemWrites_facts
    exact (finishPriv_keeps (P := False) (W := fun p => endItemWrites p = true) (Keeps.rfl' h2) c _).same .halves Bool.false_ne_true
  rw [half_of_halves hhalves]
  by_cases hin : d ∈ ds
  · exact (each_atRest (fun _ k hs => sleepHalf_flat hs k target) (fun _ k hs => sleepHalf_pstate hs k ht)
      (fun _ k _ hs => hs.sleepHalf k ht rfl) hin h1.flat).state
  · have hst : (s.half d).pstate = target := by
      by_contra hne
      exact hin (List.mem_filter.2 ⟨hd, by simpa using hne⟩)
    have hs1 : AtRest d target s1 := ⟨h1.flat, by rw [half_of_halves (h1.same .halves (fun hn => hn rfl))]; exact hst⟩
    exact (each_induct (fun _ k hs => hs.sleepHalf k ht rfl) ds hs1).state

theorem retain_of_none (hk : s.privCheck c = none) (run : State → State) : s.retain c run = run s := by
  unfold State.retain
  rw [hk]

theorem exec_retainToRun (hl : s.live = true) (hc : s.newRetain 0 = some c) (hk : s.privCheck c = none) :
    exec .retainToRun s = .next ((s.each (maskHalves c) (fun s d => s.toRun d)).finishPriv c { status := stOk }) := by
  have hx : exec .retainToRun s = execRetainToRun s := rfl
  rw [hx, execRetainToRun, hc]
  dsimp only
  rw [State.repairing, hl, if_pos rfl, retain_of_none hk]

theorem exec_retainToRetain (hl : s.live = true) (hc : s.newRetain 1 = some c) (hk : s.privCheck c = none) :
    exec .retainToRetain s = .next (s.runSleep c .retain) := by
  have hx : exec .retainToRetain s = execRetainToRetain s := rfl
  rw [hx, execRetainToRetain, hc]
  dsimp only
  rw [State.repairing, hl, if_pos rfl, retain_of_none hk]

theorem exec_retainToOff (hl : s.live = true) (hc : s.newRetain 2 = some c) (hk : s.privCheck c = none) :
    exec .retainToOff s = .next (s.runSleep c .off) := by
  have hx : exec .retainToOff s = execRetainToOff s := rfl
  rw [hx, execRetainToOff, hc]
  dsimp only
  rw [State.repairing, hl, if_pos rfl, retain_of_none hk]

/-- Settles O25: the set that an alignment leaves asked for, and the power state that each half of a RETAIN comes to and keeps. -/
theorem clkmodeAndRetainComplete : Obligations.ClkmodeAndRetainComplete := by
  unfold Obligations.ClkmodeAndRetainComplete
  intro s c facts hs hl hk
  have h : Flat s := (flat_iff s).2 hs
  refine ⟨fun hc he => ⟨_, exec_clkmode hl hc hk he, runClkmode_facts h c facts⟩, fun hc => ⟨_, exec_retainToRun hl hc hk, ?_⟩,
    fun hc hall => ⟨_, exec_retainToRetain hl hc hk, runSleep_facts h c (.inr rfl) hall⟩,
    fun hc hall => ⟨_, exec_retainToOff hl hc hk, runSleep_facts h c (.inl rfl) hall⟩⟩
  have h2 : Flat (s.each (maskHalves c) (fun s d => s.toRun d)) := each_induct (R := Flat) (fun _ k hs => toRun_flat hs k) _ h
  have hhalves : ((s.each (maskHalves c) (fun s d => s.toRun d)).finishPriv c { status := stOk }).yards.halves =
      (s.each (maskHalves c) (fun s d => s.toRun d)).yards.halves := by
    obtain ⟨_, _, _, _, _, _, _, _⟩ := endItemWrites_facts
    exact (finishPriv_keeps (P := False) (W := fun p => endItemWrites p = true) (Keeps.rfl' h2) c _).same .halves Bool.false_ne_true
  refine ⟨finishPriv_privs h2 c _, fun d hd => ?_⟩
  rw [half_of_halves hhalves]
  exact (each_atRest (fun _ k hs => toRun_flat hs k) (fun _ k hs => toRun_run hs k) (fun _ k _ hs => hs.toRun k) hd h).state

end Sys2Proof.Machine
end

section
/-!
SUPPORT and PROOFS. RNGCTL (R484, R491) and what the blocks of a source leave of a hub's generator.
-/
namespace Sys2Proof.Machine

variable {s t : State} {β : Type} {π : RngHub → β} {b : β} {k hub : Nat} {c : Cmd}

/-! ## A part of a hub's generator -/

theorem rngHub_of_rng (h : t.rng = s.rng) (k : Nat) : t.rngHub k = s.rngHub k := by rw [State.rngHub, h]; rfl

theorem modRngHub_rngHub (h : Flat s) (k : Nat) (f : RngHub → RngHub) : (s.modRngHub k f).rngHub k = f (s.rngHub k) :=
  rngHub_setRngHub_same s k _ h.rng

theorem modRngHub_flat (h : Flat s) (k : Nat) (f : RngHub → RngHub) : Flat (s.modRngHub k f) :=
  have _ := anyPart_fact
  (modRngHub_keeps (P := False) (W := anyPart) (Keeps.rfl' h) k f).flat

/-- What `π` reads of the generator of hub `k` is `b`. -/
structure HubPart (π : RngHub → β) (k : Nat) (b : β) (s : State) : Prop where
  flat : Flat s
  part : π (s.rngHub k) = b

/-- Every part but the generators may change. -/
def besideRng (p : Part) : Prop := p ≠ .rng

theorem besideRng_facts : Fact (besideRng .img) ∧ Fact (besideRng .halves) ∧ Fact (besideRng .data) ∧ Fact (besideRng .engines) ∧
    Fact (besideRng .queues) ∧ Fact (besideRng .slots) ∧ Fact (besideRng .per) ∧ Fact (besideRng .host) := by
  refine ⟨⟨?_⟩, ⟨?_⟩, ⟨?_⟩, ⟨?_⟩, ⟨?_⟩, ⟨?_⟩, ⟨?_⟩, ⟨?_⟩⟩ <;> exact Part.noConfusion

theorem HubPart.of_keeps (h : HubPart π k b s) (hk : Keeps False besideRng s t) : HubPart π k b t :=
  ⟨hk.flat, by rw [rngHub_of_rng (hk.same .rng (fun hw => hw rfl))]; exact h.part⟩

theorem HubPart.keeps (h : HubPart π k b s) : Keeps False besideRng s s := Keeps.rfl' h.flat

theorem HubPart.setRngHub (h : HubPart π k b s) (j : Nat) {x : RngHub} (hx : π x = π (s.rngHub j)) : HubPart π k b (s.setRngHub j x) := by
  refine ⟨modRngHub_flat h.flat j (fun _ => x), ?_⟩
  by_cases hj : k = j
  · subst hj
    rw [rngHub_setRngHub_same _ _ _ h.flat.rng, hx]
    exact h.part
  · rw [rngHub_setRngHub_ne _ _ _ _ hj]
    exact h.part

theorem HubPart.modRngHub (h : HubPart π k b s) (j : Nat) {f : RngHub → RngHub} (hf : ∀ x, π (f x) = π x) : HubPart π k b (s.modRngHub j f) :=
  h.setRngHub j (hf _)

/-! ## Alarms -/

theorem alarm_hub (h : Flat s) (hub : Nat) : (s.alarm hub).rngHub hub = { s.rngHub hub with alarm := true } := by
  unfold State.alarm
  split
  · next ha =>
    rw [← ha]
  · have hf := modRngHub_flat h hub (fun h => { h with alarm := true })
    rw [rngHub_of_rng (raise_same hf _ _ _ .rng), modRngHub_rngHub h]

theorem HubPart.alarm (h : HubPart π k b s) (hub : Nat) (hπ : ∀ x : RngHub, π { x with alarm := true } = π x) : HubPart π k b (s.alarm hub) := by
  unfold State.alarm
  split
  · exact h
  · have h1 := h.modRngHub hub (f := fun h => { h with alarm := true }) hπ
    exact h1.of_keeps (raise_keeps h1.keeps _ _ _)

/-- A fatal alarm withdraws requests and changes nothing else of a generator. -/
theorem HubPart.alarmEffects (h : HubPart π k b s) (hπ : ∀ (x : RngHub) u, π (x.withdraw u) = π x) : HubPart π k b s.alarmEffects := by
  obtain ⟨_, _, _, _, _, _, _, _⟩ := besideRng_facts
  unfold State.alarmEffects
  split
  · refine each_induct (R := HubPart π k b) (fun t w ht => ?_) _ h
    split
    · have h1 := ht.modRngHub t.hubs.active (f := fun h => h.withdraw w.1) (fun x => hπ x w.1)
      exact h1.of_keeps (seedFails_keeps h1.keeps _)
    · exact ht
  · exact h

theorem alarmEffects_of_quiet (h : s.rngActive.alarm = false) : s.alarmEffects = s := if_neg (Bool.eq_false_iff.1 h)

theorem alarmEffects_flat (h : Flat s) : Flat s.alarmEffects :=
  have _ := anyPart_fact
  (alarmEffects_keeps (P := False) (W := anyPart) (Keeps.rfl' h)).flat

/-! ## Reseeds -/

theorem reseed_hub (h : Flat s) (hc : (s.rngHub hub).canReseed = true) :
    (s.reseed hub).rngHub hub = { (s.rngHub hub).reseed with busy := s.hclk + 600 } := by
  have hbump : ((s.modRngHub hub (fun h => { h.reseed with busy := s.hclk + 600 })).bump .hub hub 3).rng =
      (s.modRngHub hub (fun h => { h.reseed with busy := s.hclk + 600 })).rng := bumpBy_rng _ .hub hub 3 1
  rw [State.reseed, if_pos hc, rngHub_of_rng hbump, modRngHub_rngHub h]

theorem reseed_flat (h : Flat s) (hub : Nat) : Flat (s.reseed hub) :=
  have _ := anyPart_fact
  (reseed_keeps (P := False) (W := anyPart) (Keeps.rfl' h) hub).flat

/-- A reseed takes the two oldest blocks of the pool, starts the count again and leaves the requests. -/
theorem reseed_of_canReseed {x : RngHub} (hc : x.canReseed = true) : x.reseed.count = 0 ∧ x.reseed.pool = x.pool.drop 2 ∧
    x.reseed.waiting = x.waiting := by
  rw [RngHub.canReseed, Bool.and_eq_true, decide_eq_true_eq] at hc
  unfold RngHub.reseed
  split
  · next a b rest hp => exact ⟨rfl, by rw [hp]; rfl, rfl⟩
  · next hno =>
    exfalso
    match hp : x.pool, hc.2 with
    | a :: b :: rest, _ => exact hno a b rest hp

theorem canReseed_not_alarm {x : RngHub} (hc : x.canReseed = true) : x.alarm = false := by
  rw [RngHub.canReseed, Bool.and_eq_true, Bool.and_eq_true] at hc
  simpa using hc.1.2

/-! ## Blocks leave the pattern -/

theorem setSrc_pattern (h : RngHub) (i : Nat) (x : NoiseSrc) : (h.setSrc i x).pattern = h.pattern := by
  unfold RngHub.setSrc
  split <;> rfl

theorem start_pattern (h : RngHub) : h.start.pattern = h.pattern := by
  unfold RngHub.start
  split
  · split <;> rfl
  · rfl

/-- The pattern in force at hub `k`. -/
def PatternIs (k : Nat) (p : Option Bytes) (s : State) : Prop := HubPart RngHub.pattern k p s

theorem PatternIs.blockFails {p : Option Bytes} (h : PatternIs k p s) (hub i : Nat) (rct apt : Bool) : PatternIs k p (s.blockFails hub i rct apt) := by
  unfold State.blockFails
  extract_lets x n s1 s2 s3 s4
  have h1 : PatternIs k p s1 := HubPart.modRngHub h hub fun x => setSrc_pattern x i _
  have h2 : PatternIs k p s2 := HubPart.of_keeps h1 (raise_keeps (bump_keeps (HubPart.keeps h1) _ _ _) _ _ _)
  have h3 : PatternIs k p s3 := HubPart.of_keeps h2 (ite_keeps (fun _ => raise_keeps (HubPart.keeps h2) _ _ _) (fun _ => HubPart.keeps h2))
  have h4 : PatternIs k p s4 := by
    simp only [s4]
    split
    · exact HubPart.modRngHub h3 hub fun _ => rfl
    · exact h3
  split
  · exact HubPart.alarm h4 hub fun _ => rfl
  · exact h4

theorem PatternIs.blockPasses {p : Option Bytes} (h : PatternIs k p s) (hub i : Nat) (bs : List Bool) (run : Nat) (last : Bool) :
    PatternIs k p (s.blockPasses hub i bs run last) := by
  unfold State.blockPasses
  extract_lets x src h1 h2 h3
  have p1 : h1.pattern = x.pattern := setSrc_pattern _ _ _
  have p2 : h2.pattern = x.pattern := by
    simp only [h2]
    split <;> exact p1
  have p3 : h3.pattern = x.pattern := by
    simp only [h3]
    split <;> exact p2
  split
  · have hs : PatternIs k p (s.setRngHub hub h3.start) := HubPart.setRngHub h hub ((start_pattern h3).trans p3)
    exact HubPart.of_keeps hs (bump_keeps (HubPart.keeps hs) _ _ _)
  · exact HubPart.setRngHub h hub p2

theorem PatternIs.block {p : Option Bytes} (h : PatternIs k p s) (hub i : Nat) (bs : List Bool) : PatternIs k p (s.block hub i bs) := by
  unfold State.block
  extract_lets x y bits s0 r apt
  split
  · exact h
  · have h0 : PatternIs k p s0 := by
      simp only [s0]
      split
      · exact HubPart.modRngHub h hub fun _ => rfl
      · exact h
    split
    · exact h0.blockFails _ _ _ _
    · split
      · exact HubPart.modRngHub h0 hub fun x => setSrc_pattern x i _
      · exact h0.blockPasses _ _ _ _ _

theorem PatternIs.runPattern {p : Option Bytes} (fuel : Nat) : ∀ {s : State}, PatternIs k p s → ∀ hub, PatternIs k p (s.runPattern hub fuel) := by
  induction fuel with
  | zero => exact fun h _ => h
  | succ fuel ih =>
    intro s h hub
    unfold State.runPattern
    extract_lets x i
    split
    · exact h
    · exact ih (h.block hub i _) hub

/-! ## RNGCTL -/

/-- The end of a command in Prephor's hands leaves the generators. -/
theorem finishPriv_rngHub (h : Flat s) (c : Cmd) (d : Done) (k : Nat) : (s.finishPriv c d).rngHub k = s.rngHub k :=
  rngHub_of_rng (finishPriv_same h c d .rng rfl) k

theorem rngctl_eq {op : Nat} {run : Cmd → Nat → State → State} (hl : s.live = true) (hk : s.privCheck c = none)
    (hu : s.rngUp (s.rngctlHub c) = true) (hc : s.newRngctl op = some c) : s.rngctl op run = run c (s.rngctlHub c) s := by
  rw [State.rngctl, hc]
  dsimp only
  rw [State.repairing, hl, if_neg (by decide), hk]
  exact if_pos hu

theorem exec_rngctlReseed (hl : s.live = true) (hk : s.privCheck c = none) (hu : s.rngUp (s.rngctlHub c) = true) (hc : s.newRngctl 0 = some c)
    (hr : (s.rngHub (s.rngctlHub c)).canReseed = true) :
    exec .rngctlReseed s = .next ((s.reseed (s.rngctlHub c)).finishPriv c { status := stOk }) := by
  have hx : exec .rngctlReseed s = execRngctlReseed s := rfl
  rw [hx, execRngctlReseed, rngctl_eq hl hk hu hc, canReseed_not_alarm hr, if_neg Bool.false_ne_true, if_pos hr]

/-- The state in which an RNGCTL PATTERN has run its blocks. -/
def State.patterned (s : State) (c : Cmd) (hub : Nat) : State :=
  ((s.modRngHub hub (fun h => { h with
    pattern := some (s.devBytes (fld c.tack 8 8) (fld c.tack 4 4)), patPos := 0, seeded := false, stretched := false, count := 0
    pool := [] })).runPattern hub 24).alarmEffects

theorem exec_rngctlPattern (hl : s.live = true) (hk : s.privCheck c = none) (hu : s.rngUp (s.rngctlHub c) = true) (hc : s.newRngctl 2 = some c) :
    exec .rngctlPattern s = .next ((s.patterned c (s.rngctlHub c)).finishPriv c
      { status := if ((s.patterned c (s.rngctlHub c)).rngHub (s.rngctlHub c)).seeded then stOk else stRngUnavailable }) := by
  have hx : exec .rngctlPattern s = execRngctlPattern s := rfl
  rw [hx, execRngctlPattern, rngctl_eq hl hk hu hc]
  rfl

theorem patterned_pattern (h : Flat s) (c : Cmd) (hub : Nat) :
    PatternIs hub (some (s.devBytes (fld c.tack 8 8) (fld c.tack 4 4))) (s.patterned c hub) := by
  have h1 : PatternIs hub (some (s.devBytes (fld c.tack 8 8) (fld c.tack 4 4))) (s.modRngHub hub (fun h => { h with
      pattern := some (s.devBytes (fld c.tack 8 8) (fld c.tack 4 4)), patPos := 0, seeded := false, stretched := false, count := 0
      pool := [] })) := ⟨modRngHub_flat h hub _, congrArg RngHub.pattern (modRngHub_rngHub h hub _)⟩
  exact HubPart.alarmEffects (h1.runPattern 24 hub) fun _ _ => rfl

/-- RESTART and PATTERN_OFF run alike. -/
theorem exec_restart {i : Instr} {op : Nat} {katFail : Option Nat} {blocks : List SrcBlock}
    (hi : (i = .rngctlRestart katFail blocks ∧ op = 1) ∨ (i = .rngctlPatternOff katFail blocks ∧ op = 3))
    (hl : s.live = true) (hk : s.privCheck c = none) (hu : s.rngUp (s.rngctlHub c) = true) (hc : s.newRngctl op = some c) :
    exec i s = .next (s.restart c (s.rngctlHub c) katFail blocks) := by
  rcases hi with ⟨rfl, rfl⟩ | ⟨rfl, rfl⟩
  · have hx : exec (.rngctlRestart katFail blocks) s = execRngctlRestart katFail blocks s := rfl
    rw [hx, execRngctlRestart, rngctl_eq hl hk hu hc]
  · have hx : exec (.rngctlPatternOff katFail blocks) s = execRngctlPatternOff katFail blocks s := rfl
    rw [hx, execRngctlPatternOff, rngctl_eq hl hk hu hc]

/-- A known-answer test that fails leaves KAT_FAIL and the alarm. -/
theorem katFails_hub (h : Flat s) (hub test : Nat) : HubPart (fun x => (x.kat, x.alarm)) hub (true, true) (s.katFails hub test) := by
  have h1 := modRngHub_flat h hub (fun h => { h with kat := true })
  have hr : Keeps False (fun _ => False) (s.modRngHub hub (fun h => { h with kat := true }))
      ((s.modRngHub hub (fun h => { h with kat := true })).raise .rngKatFail (rngDomain hub) (hub + test * 0x100)) := raise_keeps (Keeps.rfl' h1) _ _ _
  have _ := anyPart_fact
  refine ⟨(katFails_keeps (P := False) (W := anyPart) (Keeps.rfl' h) hub test).flat, ?_⟩
  rw [State.katFails, alarm_hub hr.flat, rngHub_of_rng (hr.same .rng not_false), modRngHub_rngHub h]

theorem restart_katFails (s : State) (c : Cmd) (hub t : Nat) (blocks : List SrcBlock) : s.restart c hub (some t) blocks =
    (((s.modRngHub hub RngHub.restart).katFails hub t).alarmEffects).finishPriv c { status := stRngUnavailable } := by rw [State.restart]

/-- The state in which a restart has taken its blocks. -/
def State.restarted (s : State) (hub : Nat) (blocks : List SrcBlock) : State :=
  (s.modRngHub hub RngHub.restart).each (blocks.filter (fun b => b.hub == hub && decide (b.src < 2))) (fun s b => s.block hub b.src b.samples)

theorem restarted_flat (h : Flat s) (hub : Nat) (blocks : List SrcBlock) : Flat (s.restarted hub blocks) := by
  have _ := anyPart_fact
  exact (each_keeps (P := False) (W := anyPart) _ _ (fun _ b hu => block_keeps hu hub b.src b.samples) (modRngHub_keeps (Keeps.rfl' h) hub _)).flat

/-- The blocks of a restart leave the hub that an RNGCTL names. -/
theorem each_block_rngctlHub (c : Cmd) (bs : List SrcBlock) : ∀ {t : State}, Flat t → t.hubs = s.hubs →
    t.each bs (fun u b => u.block (u.rngctlHub c) b.src b.samples) = t.each bs (fun u b => u.block (s.rngctlHub c) b.src b.samples) := by
  have : Fact ((fun p => p = Part.rng) .rng) := ⟨rfl⟩
  induction bs with
  | nil => exact fun _ _ => rfl
  | cons b bs ih =>
    intro t h ht
    have hhub : t.rngctlHub c = s.rngctlHub c := by rw [State.rngctlHub, ht]; rfl
    have hk : Keeps False (fun p => p = .rng) t (t.block (s.rngctlHub c) b.src b.samples) := block_keeps (Keeps.rfl' h) _ _ _
    have hfirst : ∀ f : State → SrcBlock → State, t.each (b :: bs) f = (f t b).each bs f := fun _ => rfl
    rw [hfirst, hfirst, hhub]
    exact ih hk.flat ((hk.same .hubs (by decide)).trans ht)

theorem restart_reseeds {blocks : List SrcBlock} (hs : (s.rngHub hub).seeded = true) (hr : ((s.restarted hub blocks).rngHub hub).canReseed = true)
    (hf : ((s.restarted hub blocks).rngHub hub).bothFatal = false) :
    s.restart c hub none blocks = ((s.restarted hub blocks).reseed hub).finishPriv c { status := stOk } := by
  have hw : (s.modRngHub hub RngHub.restart).each (blocks.filter (fun b => b.hub == hub && decide (b.src < 2)))
      (fun s b => s.block hub b.src b.samples) = s.restarted hub blocks := rfl
  rw [State.restart]
  rw [hw, hf, if_neg Bool.false_ne_true, if_neg (by rintro ⟨hn, -⟩; rw [hs] at hn; cases hn), if_pos ⟨hs, hr⟩]

/-- Settles O24: each operation's own change of its hub, and that what follows it leaves that. -/
theorem rngctlCompletes : Obligations.RngctlCompletes := by
  unfold Obligations.RngctlCompletes
  intro s c hs hl hk hu
  have h : Flat s := (flat_iff s).2 hs
  refine ⟨fun hc hr => ⟨_, exec_rngctlReseed hl hk hu hc hr, finishPriv_privs (reseed_flat h _) c _, ?_⟩,
    fun hc => ⟨_, exec_rngctlPattern hl hk hu hc, finishPriv_privs (patterned_pattern h c _).flat c _, ?_⟩, fun i op katFail blocks hi hc => ?_⟩
  · obtain ⟨hcount, hpool, -⟩ := reseed_of_canReseed hr
    rw [finishPriv_rngHub (reseed_flat h _), reseed_hub h hr]
    exact ⟨hcount, hpool⟩
  · rw [finishPriv_rngHub (patterned_pattern h c _).flat]
    exact (patterned_pattern h c _).part
  · refine ⟨fun t ht => ⟨_, exec_restart hi hl hk hu hc, ?_⟩, fun w hnone hw hseed hr hf => ⟨_, exec_restart hi hl hk hu hc, ?_⟩⟩
    · subst ht
      have h1 := modRngHub_flat h (s.rngctlHub c) RngHub.restart
      have h2 := (katFails_hub h1 (s.rngctlHub c) t).alarmEffects fun _ _ => rfl
      have hpair := h2.part
      rw [Prod.mk.injEq] at hpair
      rw [restart_katFails]
      refine ⟨finishPriv_privs h2.flat c _, ?_⟩
      rw [finishPriv_rngHub h2.flat]
      exact hpair
    · subst hnone
      obtain rfl : w = s.restarted (s.rngctlHub c) blocks :=
        hw.trans (each_block_rngctlHub (s := s) c _ (modRngHub_flat h (s.rngctlHub c) RngHub.restart) rfl)
      have hf' := restarted_flat h (s.rngctlHub c) blocks
      rw [restart_reseeds hseed hr hf]
      refine ⟨finishPriv_privs (reseed_flat hf' _) c _, ?_⟩
      rw [finishPriv_rngHub (reseed_flat hf' _), reseed_hub hf' hr]
      exact (reseed_of_canReseed hr).1

end Sys2Proof.Machine
end

section
/-!
SUPPORT and PROOFS. Random numbers: noise blocks, reseeds and requests (R476 to R487).
-/
namespace Sys2Proof.Machine

variable {s t : State} {hub i n : Nat} {bs : List Bool} {who : Requester}

/-! ## The sources of a hub -/

@[simp] theorem src_setSrc (h : RngHub) (i : Nat) (x : NoiseSrc) : (h.setSrc i x).src i = x := by
  unfold RngHub.src RngHub.setSrc
  split <;> rfl

@[simp] theorem setSrc_pool (h : RngHub) (i : Nat) (x : NoiseSrc) : (h.setSrc i x).pool = h.pool := by
  unfold RngHub.setSrc
  split <;> rfl

@[simp] theorem setSrc_kat (h : RngHub) (i : Nat) (x : NoiseSrc) : (h.setSrc i x).kat = h.kat := by
  unfold RngHub.setSrc
  split <;> rfl

@[simp] theorem setSrc_alarm (h : RngHub) (i : Nat) (x : NoiseSrc) : (h.setSrc i x).alarm = h.alarm := by
  unfold RngHub.setSrc
  split <;> rfl

@[simp] theorem setSrc_seeded (h : RngHub) (i : Nat) (x : NoiseSrc) : (h.setSrc i x).seeded = h.seeded := by
  unfold RngHub.setSrc
  split <;> rfl

@[simp] theorem setSrc_activeSrc (h : RngHub) (i : Nat) (x : NoiseSrc) : (h.setSrc i x).activeSrc = h.activeSrc := by
  unfold RngHub.setSrc
  split <;> rfl

@[simp] theorem setSrc_switchTo (h : RngHub) (i : Nat) (x : NoiseSrc) : (h.setSrc i x).switchTo = h.switchTo := by
  unfold RngHub.setSrc
  split <;> rfl

/-- What a block of a source is judged by: its source's state and failures, and the pool. -/
def RngHub.feeds (i : Nat) (h : RngHub) : NoiseSrc × List (BitVec 256) := (h.src i, h.pool)

theorem start_src (h : RngHub) (i : Nat) : h.start.src i = h.src i := by
  unfold RngHub.start
  split
  · split <;> rfl
  · rfl

theorem start_alarm (h : RngHub) : h.start.alarm = h.alarm := by
  unfold RngHub.start
  split
  · split <;> rfl
  · rfl

theorem start_of_seeded {h : RngHub} (hs : h.seeded = true) : h.start = h := by
  unfold RngHub.start
  split
  · exact if_pos (.inl hs)
  · rfl

/-! ## A block -/

/-- The generators hold no fatal alarm where the active hub's holds none, and that of `hub` has not come to hold one. -/
theorem quiet_of_hub (hq : s.rngActive.alarm = false) (hh : t.hubs = s.hubs) (hsame : (t.rngHub hub).alarm = true → (s.rngHub hub).alarm = true)
    (hother : ∀ k, k ≠ hub → t.rngHub k = s.rngHub k) : t.rngActive.alarm = false := by
  rw [State.rngActive] at hq ⊢
  rw [hh]
  by_cases hk : s.hubs.active = hub
  · rw [hk] at hq ⊢
    by_contra hne
    rw [hsame (by simpa using hne)] at hq
    cases hq
  · rw [hother _ hk]
    exact hq

theorem exec_rngBlock (hu : s.rngUp hub = true) (hi : i < 2) : exec (.rngBlock hub i bs) s = .next ((s.block hub i bs).alarmEffects) :=
  congrArg Host.Outcome.next (if_pos ⟨hu, hi⟩)

/-- A block that its source does not give changes nothing. -/
theorem exec_rngBlock_none (hq : s.rngActive.alarm = false)
    (hno : ((s.rngHub hub).src i).st = srcFatal ∨ ((s.rngHub hub).src i).st = srcOff ∨ bs.length ≠ ((s.rngHub hub).src i).due) :
    exec (.rngBlock hub i bs) s = .next s := by
  have hb : s.block hub i bs = s := if_pos hno
  refine congrArg Host.Outcome.next ?_
  rw [hb, alarmEffects_of_quiet hq, ite_self]

/-- A block with no pattern in force is tested as it came. -/
theorem block_eq (hp : (s.rngHub hub).pattern = none) (hst : ((s.rngHub hub).src i).st = srcOk ∨ ((s.rngHub hub).src i).st = srcStarting)
    (hlen : bs.length = ((s.rngHub hub).src i).due) : s.block hub i bs =
    let r := rctScan s.img.rng.rct bs ((s.rngHub hub).src i).run ((s.rngHub hub).src i).last false
    let apt := aptFails s.img.rng.apt (bs.take 1024) || aptFails s.img.rng.apt (bs.drop 1024)
    if r.2.2 || apt then s.blockFails hub i r.2.2 apt
    else if ((s.rngHub hub).src i).st = srcStarting then
      s.modRngHub hub (fun h => { h.setSrc i { h.src i with st := srcOk, run := r.1, last := r.2.1 } with
        alarm := if h.kat then h.alarm else false })
    else s.blockPasses hub i bs r.1 r.2.1 := by
  have hgo : ¬(((s.rngHub hub).src i).st = srcFatal ∨ ((s.rngHub hub).src i).st = srcOff ∨ bs.length ≠ ((s.rngHub hub).src i).due) := by
    rintro (h | h | h)
    · rcases hst with hs | hs <;> rw [hs] at h <;> cases h
    · rcases hst with hs | hs <;> rw [hs] at h <;> cases h
    · exact h hlen
  rw [State.block]
  dsimp only
  rw [if_neg hgo, hp]
  rfl

/-- The generator of a hub where the start-up block of a source has passed. -/
def RngHub.started (h : RngHub) (i : Nat) (run : Nat) (last : Bool) : RngHub :=
  { h.setSrc i { h.src i with st := srcOk, run := run, last := last } with alarm := if h.kat then h.alarm else false }

theorem started_facts (h : RngHub) (i : Nat) (run : Nat) (last : Bool) : (h.started i run last).src i = { h.src i with st := srcOk, run := run, last := last } ∧
    (h.started i run last).pool = h.pool ∧ ((h.started i run last).alarm = true → h.alarm = true) := by
  refine ⟨src_setSrc h i _, setSrc_pool h i _, fun ha => ?_⟩
  have hs : (h.started i run last).alarm = if h.kat then h.alarm else false := rfl
  rw [hs] at ha
  split at ha
  · exact ha
  · cases ha

/-- A start-up block that passes makes its source OK. -/
theorem block_startup (hp : (s.rngHub hub).pattern = none) (hst : ((s.rngHub hub).src i).st = srcStarting) (hlen : bs.length = 1024)
    (hr : (rctScan s.img.rng.rct bs ((s.rngHub hub).src i).run ((s.rngHub hub).src i).last false).2.2 = false)
    (ha : aptFails s.img.rng.apt bs = false) : ∃ run last, s.block hub i bs = s.modRngHub hub (fun h => h.started i run last) := by
  have hdue : ((s.rngHub hub).src i).due = 1024 := if_pos hst
  have hapt : (aptFails s.img.rng.apt (bs.take 1024) || aptFails s.img.rng.apt (bs.drop 1024)) = false := by
    rw [List.take_of_length_le (by omega), List.drop_of_length_le (by omega), ha]
    rfl
  rw [block_eq hp (.inr hst) (hlen.trans hdue.symm)]
  dsimp only
  rw [hr, hapt, if_neg (by decide), if_pos hst]
  exact ⟨_, _, rfl⟩

/-- A block that passes the tests of a source that is OK. -/
theorem block_passes (hp : (s.rngHub hub).pattern = none) (hst : ((s.rngHub hub).src i).st = srcOk) (hlen : bs.length = 2048)
    (hr : (rctScan s.img.rng.rct bs ((s.rngHub hub).src i).run ((s.rngHub hub).src i).last false).2.2 = false)
    (ha : aptFails s.img.rng.apt (bs.take 1024) = false) (hb : aptFails s.img.rng.apt (bs.drop 1024) = false) :
    ∃ run last, s.block hub i bs = s.blockPasses hub i bs run last := by
  have hne : ((s.rngHub hub).src i).st ≠ srcStarting := by rw [hst]; decide
  have hdue : ((s.rngHub hub).src i).due = 2048 := if_neg hne
  rw [block_eq hp (.inl hst) (hlen.trans hdue.symm)]
  dsimp only
  rw [hr, ha, hb, if_neg (by decide), if_neg hne]
  exact ⟨_, _, rfl⟩

theorem block_fails (hp : (s.rngHub hub).pattern = none) (hst : ((s.rngHub hub).src i).st = srcOk ∨ ((s.rngHub hub).src i).st = srcStarting)
    (hlen : bs.length = ((s.rngHub hub).src i).due)
    (hr : (rctScan s.img.rng.rct bs ((s.rngHub hub).src i).run ((s.rngHub hub).src i).last false).2.2 = true) :
    ∃ rct apt, s.block hub i bs = s.blockFails hub i rct apt := by
  rw [block_eq hp hst hlen]
  dsimp only
  rw [hr, Bool.true_or, if_pos rfl]
  exact ⟨_, _, rfl⟩

theorem bump_rng (s : State) (g : Grp) (j k : Nat) : (s.bump g j k).rng = s.rng := bumpBy_rng s g j k 1

/-- The generator of a hub where a block has passed. -/
def RngHub.passed (h : RngHub) (i : Nat) (bs : List Bool) (run : Nat) (last : Bool) : RngHub :=
  let h1 := h.setSrc i { h.src i with st := srcOk, fails := 0, run := run, last := last }
  let h2 := if h1.switchTo = some i then { h1 with activeSrc := i, switchTo := none } else h1
  if h2.activeSrc = i then
    RngHub.start (if h2.pool.length < 4 then { h2 with pool := h2.pool ++ [condition bs] } else h2)
  else h2

theorem blockPasses_hub (h : Flat s) (run : Nat) (last : Bool) : (s.blockPasses hub i bs run last).rngHub hub = (s.rngHub hub).passed i bs run last := by
  unfold State.blockPasses RngHub.passed
  extract_lets x src h1 h2 h3
  split
  · rw [rngHub_of_rng (bump_rng _ .hub hub 0)]
    exact rngHub_setRngHub_same _ _ _ h.rng
  · exact rngHub_setRngHub_same _ _ _ h.rng

theorem passed_src (h : RngHub) (run : Nat) (last : Bool) : ((h.passed i bs run last).src i).st = srcOk ∧
    ((h.passed i bs run last).src i).fails = 0 ∧ (h.passed i bs run last).alarm = h.alarm := by
  unfold RngHub.passed
  extract_lets src h1 h2
  have hsrc : h2.src i = h1.src i ∧ h2.alarm = h.alarm := by
    simp only [h2]
    split
    · exact ⟨rfl, setSrc_alarm ..⟩
    · exact ⟨rfl, setSrc_alarm ..⟩
  have h1src : h1.src i = { src with st := srcOk, fails := 0, run := run, last := last } := src_setSrc _ _ _
  split
  · rw [start_src, start_alarm]
    have h3 : RngHub.src (if h2.pool.length < 4 then { h2 with pool := h2.pool ++ [condition bs] } else h2) i = h2.src i ∧
        RngHub.alarm (if h2.pool.length < 4 then { h2 with pool := h2.pool ++ [condition bs] } else h2) = h2.alarm := by
      split <;> exact ⟨rfl, rfl⟩
    rw [h3.1, h3.2, hsrc.1, h1src]
    exact ⟨rfl, rfl, hsrc.2⟩
  · rw [hsrc.1, h1src]
    exact ⟨rfl, rfl, hsrc.2⟩

/-- A block of the active source joins the pool where there is room. -/
theorem passed_pool {h : RngHub} (hact : h.activeSrc = i) (hsw : h.switchTo = none) (hs : h.seeded = true) (run : Nat) (last : Bool) :
    (h.passed i bs run last).pool = if h.pool.length < 4 then h.pool ++ [condition bs] else h.pool := by
  unfold RngHub.passed
  dsimp only
  rw [setSrc_switchTo, hsw, if_neg (show ¬(none = some i) from nofun), setSrc_activeSrc, if_pos hact, setSrc_pool]
  split
  · rw [start_of_seeded]
    exact (setSrc_seeded ..).trans hs
  · rw [start_of_seeded ((setSrc_seeded ..).trans hs), setSrc_pool]

theorem blockPasses_count (h : Flat s) (hact : (s.rngHub hub).activeSrc = i) (hsw : (s.rngHub hub).switchTo = none) (run : Nat) (last : Bool) :
    (s.blockPasses hub i bs run last).count .hub hub 0 = (s.count .hub hub 0 + 1) % 2 ^ 48 := by
  unfold State.blockPasses
  dsimp only
  rw [setSrc_switchTo, hsw, if_neg (show ¬(none = some i) from nofun), setSrc_activeSrc, if_pos hact]
  exact (count_bump_same (modRngHub_flat h hub (fun _ => _)) .hub hub 0).trans rfl

/-- What the passing of a block leaves beside its own hub's generator. -/
theorem blockPasses_rest (run : Nat) (last : Bool) : (s.blockPasses hub i bs run last).hubs = s.hubs ∧
    ∀ k, k ≠ hub → (s.blockPasses hub i bs run last).rngHub k = s.rngHub k := by
  unfold State.blockPasses
  extract_lets x src h1 h2 h3
  split
  · exact ⟨bumpBy_hubs _ .hub hub 0 1, fun k hk => (rngHub_of_rng (bump_rng _ .hub hub 0) k).trans (rngHub_setRngHub_ne _ _ _ _ hk)⟩
  · exact ⟨rfl, fun k hk => rngHub_setRngHub_ne _ _ _ _ hk⟩

/-- A source whose block has failed: it starts again, or is FATAL at the third failure in a row. -/
def NoiseSrc.failed (x : NoiseSrc) (rct apt : Bool) : NoiseSrc :=
  { st := if min (x.fails + 1) 3 = 3 then srcFatal else srcStarting, fails := min (x.fails + 1) 3, rct := rct, apt := apt, run := 0, last := false }

/-- A block that fails counts on, restarts its source, and leaves the pool. -/
theorem blockFails_feeds (h : Flat s) (rct apt : Bool) : HubPart (RngHub.feeds i) hub
    (((s.rngHub hub).src i).failed rct apt, (s.rngHub hub).pool) (s.blockFails hub i rct apt) := by
  unfold State.blockFails
  extract_lets x n s1 s2 s3 s4
  have h1 : HubPart (RngHub.feeds i) hub (((s.rngHub hub).src i).failed rct apt, (s.rngHub hub).pool) s1 := by
    refine ⟨modRngHub_flat h hub _, ?_⟩
    rw [show s1.rngHub hub = _ from modRngHub_rngHub h hub _, RngHub.feeds, src_setSrc, setSrc_pool]
    rfl
  have h2 := h1.of_keeps (raise_keeps (bump_keeps h1.keeps .hub hub 1) .rngBlockFail (rngDomain hub) (hub + i * 0x100 + (b2n rct + b2n apt * 2) * 0x10000))
  have h3 : HubPart (RngHub.feeds i) hub (((s.rngHub hub).src i).failed rct apt, (s.rngHub hub).pool) s3 :=
    h2.of_keeps (ite_keeps (fun _ => raise_keeps h2.keeps _ _ _) (fun _ => h2.keeps))
  have h4 : HubPart (RngHub.feeds i) hub (((s.rngHub hub).src i).failed rct apt, (s.rngHub hub).pool) s4 := by
    simp only [s4]
    split
    · exact h3.modRngHub hub (f := fun h => { h with switchTo := some (1 - i) }) fun _ => rfl
    · exact h3
  split
  · exact h4.alarm hub fun _ => rfl
  · exact h4

/-! ## Requests -/

theorem generate_waiting (h : Flat s) (hub : Nat) : ((s.generate hub).2.rngHub hub).waiting = (s.rngHub hub).waiting := by
  unfold State.generate
  extract_lets p x g h1 enters s1 s2 s3
  have hf : Flat (s.setRngHub hub { h1 with stretched := h1.stretched || enters }) := modRngHub_flat h hub (fun _ => _)
  have k1 : Keeps False (fun _ => False) (s.setRngHub hub { h1 with stretched := h1.stretched || enters }) s1 := bump_keeps (Keeps.rfl' hf) _ _ _
  have k2 : Keeps False (fun _ => False) (s.setRngHub hub { h1 with stretched := h1.stretched || enters }) s2 :=
    ite_keeps (fun _ => bump_keeps k1 _ _ _) (fun _ => k1)
  have k3 : Keeps False (fun _ => False) (s.setRngHub hub { h1 with stretched := h1.stretched || enters }) s3 :=
    ite_keeps (fun _ => raise_keeps k2 _ _ _) (fun _ => k2)
  rw [rngHub_of_rng (k3.same .rng not_false), rngHub_setRngHub_same _ _ _ h.rng]

/-- A record is served VALID and ends the read that waited. -/
theorem serveRecord_facts (s : State) (who : Requester) (out : Nat) (stretched alarm : Bool) :
    (∃ w, (s.serveRecord who out stretched alarm).ports.resp = .value w ∧ w.getLsbD 0 = true) ∧
    (s.serveRecord who out stretched alarm).dataWaits who = none ∧ ∀ k, (s.serveRecord who out stretched alarm).rngHub k = s.rngHub k := by
  refine ⟨⟨_, rfl, ?_⟩, ?_, fun k => ?_⟩
  · rw [BitVec.getLsbD_ofNat, Nat.testBit_zero]
    simp only [Nat.zero_lt_succ, decide_true, Bool.true_and, decide_eq_true_eq]
    omega
  · cases who <;> rfl
  · cases who <;> rfl

theorem serveUser_read (h : Flat s) (who : Requester) (hub : Nat) : (∃ w, (s.serveUser hub (readUser who)).ports.resp = .value w ∧ w.getLsbD 0 = true) ∧
    (s.serveUser hub (readUser who)).dataWaits who = none ∧ ((s.serveUser hub (readUser who)).rngHub hub).waiting = (s.rngHub hub).waiting := by
  obtain ⟨hw, hd, hk⟩ := serveRecord_facts (s.generate hub).2 who (s.generate hub).1 (s.rngHub hub).stretched (s.rngHub hub).alarm
  have hs : s.serveUser hub (readUser who) =
      (s.generate hub).2.serveRecord who (s.generate hub).1 (s.rngHub hub).stretched (s.rngHub hub).alarm := by cases who <;> rfl
  rw [hs]
  exact ⟨hw, hd, by rw [hk]; exact generate_waiting h hub⟩

theorem exec_rngRequest {w : RngUser × Nat} {rest : List (RngUser × Nat)} (hw : (s.rngHub hub).waiting = w :: rest) (hu : s.rngUp hub = true)
    (ha : s.hubs.active = hub) : exec (.rngRequest hub) s = .next (
      if s.rngServes hub then (s.modRngHub hub (fun h => { h with waiting := rest })).serveUser hub w.1
      else if s.reseedFirst hub ∧ (s.rngHub hub).busy ≤ s.hclk then s.reseed hub else s) := by
  have hx : exec (.rngRequest hub) s = execRngRequest hub s := rfl
  rw [hx, execRngRequest, hw]
  dsimp only
  rw [hu, ha, if_neg (by rintro (h | h); cases h; exact h rfl)]

theorem exec_rngData0 (hal : s.hubAlive = true) (hm : s.pwr.mod ≠ .safe) (hd : s.dataWaits who = none) : exec (.rngData0 who) s = .next (
    if s.rngUp s.hubs.active ∧ s.rngActive.waiting = [] ∧ s.rngServes s.hubs.active then s.serveUser s.hubs.active (readUser who)
    else ((s.modRngHub s.hubs.active (fun h => h.enqueue (readUser who) s.hclk)).setDataWaits who (some s.hclk)).answer .waits) := by
  have hx : exec (.rngData0 who) s = execRngData0 who s := rfl
  rw [hx, execRngData0, deadBar_of_hubAlive hal, if_neg Bool.false_ne_true, if_neg hm, hd]
  rfl

theorem exec_rngDataBound (hd : s.dataWaits who = some n) (hle : n + 20 * hclkPerUs ≤ s.hclk) : exec (.rngDataBound who) s = .next
    ((s.modRngHub s.hubs.active (fun h => h.withdraw (readUser who))).boundRecord who) := by
  have hx : exec (.rngDataBound who) s = execRngDataBound who s := rfl
  rw [hx, execRngDataBound, hd]
  exact congrArg Host.Outcome.next (if_neg (Nat.not_lt.2 hle))

theorem boundRecord_facts (s : State) (who : Requester) : (∃ w, (s.boundRecord who).ports.resp = .value w ∧ w.getLsbD 0 = false) ∧
    (s.boundRecord who).dataWaits who = none ∧ ∀ k, (s.boundRecord who).rngHub k = s.rngHub k := by
  refine ⟨⟨_, rfl, ?_⟩, ?_, fun k => ?_⟩
  · rw [BitVec.getLsbD_ofNat, Nat.testBit_zero]
    simp only [Nat.zero_lt_succ, decide_true, Bool.true_and, decide_eq_false_iff_not]
    omega
  · cases who <;> rfl
  · cases who <;> rfl

theorem setDataWaits_dataWaits (s : State) (who : Requester) (w : Option Nat) : (s.setDataWaits who w).dataWaits who = w := by cases who <;> rfl

theorem setDataWaits_rngHub (s : State) (who : Requester) (w : Option Nat) (k : Nat) : (s.setDataWaits who w).rngHub k = s.rngHub k := by
  cases who <;> rfl

theorem rngServes_of_reseedFirst (h : s.reseedFirst hub = true) : s.rngServes hub = false := by
  rw [State.rngServes, h, Bool.not_true, Bool.and_false, Bool.false_and]

/-- Settles O56: the tests of a block decide what it does, and alarms and reseeds leave what they do not name of a generator. -/
theorem randomNumbers : Obligations.RandomNumbers := by
  unfold Obligations.RandomNumbers
  intro s hub i bs who hs hhub hu
  have h : Flat s := (flat_iff s).2 hs
  refine ⟨fun hi hst hq => exec_rngBlock_none hq (hst.imp_right .inl), fun hlen hq => exec_rngBlock_none hq (.inr (.inr hlen)),
    fun hi hst hp hlen hq hr ha => ?_, fun hi hst hp hlen hq hr ha hb => ?_, fun hi hst hp hlen hr => ?_, fun hdue hc => ?_,
    fun hw ha hfirst hbusy => ?_, fun t rest hw ha hserves => ?_, fun hal hm hd ha hw hserves => ?_, fun hal hm hd ha hno => ?_, fun t hd hle ha => ?_⟩
  · obtain ⟨run, last, hblock⟩ := block_startup hp hst hlen hr ha
    have hhubx := modRngHub_rngHub h hub (fun h => h.started i run last)
    obtain ⟨hsrc, hpool, halarm⟩ := started_facts (s.rngHub hub) i run last
    have hquiet : (s.block hub i bs).rngActive.alarm = false := by
      rw [hblock]
      exact quiet_of_hub (hub := hub) hq rfl (fun hx => halarm (by rw [← hhubx]; exact hx)) fun k hk => rngHub_setRngHub_ne _ _ _ _ hk
    rw [exec_rngBlock hu hi, alarmEffects_of_quiet hquiet, hblock]
    refine ⟨_, rfl, ?_⟩
    rw [hhubx, hsrc]
    exact ⟨rfl, rfl, hpool, rfl⟩
  · obtain ⟨run, last, hblock⟩ := block_passes hp hst hlen hr ha hb
    obtain ⟨hstate, hfails, halarm⟩ := passed_src (bs := bs) (i := i) (s.rngHub hub) run last
    obtain ⟨hhubs, hother⟩ := blockPasses_rest (s := s) (hub := hub) (i := i) (bs := bs) run last
    have hquiet : (s.block hub i bs).rngActive.alarm = false := by
      rw [hblock]
      refine quiet_of_hub (hub := hub) hq hhubs (fun hx => ?_) hother
      rw [blockPasses_hub h, halarm] at hx
      exact hx
    rw [exec_rngBlock hu hi, alarmEffects_of_quiet hquiet, hblock]
    refine ⟨_, rfl, ?_⟩
    rw [blockPasses_hub h]
    exact ⟨hstate, hfails, fun hact hsw => ⟨blockPasses_count h hact hsw run last, fun hseed => passed_pool hact hsw hseed run last⟩⟩
  · obtain ⟨rct, apt, hblock⟩ := block_fails hp hst hlen hr
    have hfeeds := ((blockFails_feeds (i := i) h rct apt (hub := hub)).alarmEffects fun _ _ => rfl).part
    rw [RngHub.feeds, Prod.mk.injEq] at hfeeds
    obtain ⟨hsrc, hpool⟩ := hfeeds
    rw [exec_rngBlock hu hi, hblock]
    refine ⟨_, rfl, congrArg NoiseSrc.fails hsrc, (congrArg NoiseSrc.st hsrc).trans ?_, hpool⟩
    exact if_congr (by omega) rfl rfl
  · obtain ⟨hcount, hpool, -⟩ := reseed_of_canReseed hc
    refine ⟨_, congrArg Host.Outcome.next (if_pos ⟨hu, hdue⟩), ?_⟩
    rw [reseed_hub h hc]
    exact ⟨hcount, hpool⟩
  · have hc : (s.rngHub hub).canReseed = true := by
      rw [State.reseedFirst, Bool.and_eq_true] at hfirst
      exact hfirst.2
    obtain ⟨hcount, -, hwait⟩ := reseed_of_canReseed hc
    obtain ⟨w, rest, hwr⟩ := List.exists_cons_of_ne_nil hw
    rw [exec_rngRequest hwr hu ha, rngServes_of_reseedFirst hfirst, if_neg Bool.false_ne_true, if_pos ⟨hfirst, hbusy⟩]
    refine ⟨_, rfl, ?_⟩
    rw [reseed_hub h hc]
    exact ⟨hwait, hcount⟩
  · have hf := modRngHub_flat h hub (fun h => { h with waiting := rest })
    obtain ⟨⟨w, hresp, hbit⟩, hdata, hwait⟩ := serveUser_read hf .host hub
    rw [exec_rngRequest hw hu ha, if_pos hserves]
    refine ⟨_, w, rfl, hwait.trans ?_, hresp, hbit, hdata⟩
    rw [modRngHub_rngHub h]
  · obtain ⟨⟨w, hresp, hbit⟩, -, hwait⟩ := serveUser_read h who hub
    rw [exec_rngData0 hal hm hd, State.rngActive, ha, if_pos ⟨hu, hw, hserves⟩]
    exact ⟨_, w, rfl, hresp, hbit, hwait.trans hw⟩
  · rw [exec_rngData0 hal hm hd, State.rngActive, ha, if_neg (by
      rintro ⟨-, hempty, hserves⟩
      rcases hno with hno | hno
      · rw [hno] at hserves
        cases hserves
      · exact hno hempty)]
    refine ⟨_, rfl, rfl, ?_, setDataWaits_dataWaits _ _ _⟩
    have hhub' : ∀ u : State, (u.answer .waits).rngHub hub = u.rngHub hub := fun _ => rfl
    rw [hhub', setDataWaits_rngHub, modRngHub_rngHub h]
  · obtain ⟨⟨w, hresp, hbit⟩, hdata, hk⟩ := boundRecord_facts (s.modRngHub s.hubs.active (fun h => h.withdraw (readUser who))) who
    rw [exec_rngDataBound hd hle]
    refine ⟨_, w, rfl, hdata, fun x hx => ?_, hresp, hbit⟩
    rw [hk, ha, modRngHub_rngHub h] at hx
    simpa using (List.mem_filter.1 hx).2

end Sys2Proof.Machine
end

section
/-!
SUPPORT and PROOFS. REPAIR and REPAIR_RUN (R505, R507, R511).
-/
namespace Sys2Proof.Machine

variable {s t : State} {c : Cmd} {k : PhysCore}

/-! ## Halters -/

theorem core_of_cores (h : t.yards.cores = s.yards.cores) (n : Nat) : t.core n = s.core n := by rw [State.core, h]; rfl

theorem noteHalt_rest (s : State) (k : PhysCore) : (s.noteHalt k).yards = s.yards ∧ (s.noteHalt k).mbx = s.mbx ∧ (s.noteHalt k).rel = s.rel ∧
    (s.noteHalt k).img = s.img ∧ (s.noteHalt k).pwr = s.pwr := by
  unfold State.noteHalt
  split <;> exact ⟨rfl, rfl, rfl, rfl, rfl⟩

theorem noteHalt_flat (h : Flat s) (k : PhysCore) : Flat (s.noteHalt k) :=
  have _ := anyPart_fact
  (noteHalt_keeps (P := False) (W := anyPart) (Keeps.rfl' h) k).flat

/-- The core of a new halter is fenced. -/
def State.fenced (s : State) (k : PhysCore) (reason : Nat) : State :=
  ((s.noteHalt k).modCore (coreNum k) (fun x => { x with halter := some reason })).bump .half k.yh 29

theorem halt_eq (hn : (s.core (coreNum k)).halter = none) (reason : Nat) :
    s.halt k reason = (s.fenced k reason).raise .relHalter k.yh (coreArg k + reason * 0x1000000) := by
  rw [State.halt, hn]
  exact if_neg Bool.false_ne_true

theorem fenced_flat (h : Flat s) (k : PhysCore) (reason : Nat) : Flat (s.fenced k reason) := by
  have _ := anyPart_fact
  exact bump_flat (modCore_keeps (P := False) (W := anyPart) (Keeps.rfl' (noteHalt_flat h k)) (coreNum k) _).flat _ _ _

/-- What a halt changes: the halter of its core, which keeps the reason it had. -/
structure Halted (k : PhysCore) (reason : Nat) (s t : State) : Prop where
  flat : Flat t
  halter : (t.core (coreNum k)).halter = ((s.core (coreNum k)).halter).or (some reason)
  others : ∀ n, n ≠ coreNum k → t.core n = s.core n
  spad : t.yards.spad = s.yards.spad
  mbx : t.mbx = s.mbx
  rel : t.rel = s.rel
  img : t.img = s.img
  pwr : t.pwr = s.pwr

theorem halt_halted (h : Flat s) (k : PhysCore) (reason : Nat) : Halted k reason s (s.halt k reason) := by
  rcases hh : (s.core (coreNum k)).halter with _ | r
  · have hf := fenced_flat h k reason
    obtain ⟨hyards, hmbx, hrel, himg, hpwr⟩ := noteHalt_rest s k
    have hcores : (s.fenced k reason).yards.cores = ((s.noteHalt k).modCore (coreNum k) (fun x => { x with halter := some reason })).yards.cores :=
      congrArg Yards.cores (bumpBy_yards _ .half k.yh 29 1)
    have hraise := raise_same hf .relHalter k.yh (coreArg k + reason * 0x1000000)
    rw [halt_eq hh]
    refine ⟨raise_flat hf _ _ _, ?_, fun n hn => ?_, ?_, ?_, ?_, ?_, ?_⟩
    · rw [core_of_cores (hraise .cores), core_of_cores hcores, State.modCore, core_setCore_same _ _ _ (noteHalt_flat h k).cores, hh]
      rfl
    · rw [core_of_cores (hraise .cores), core_of_cores hcores, State.modCore, core_setCore_ne _ _ _ _ hn, core_of_cores (congrArg Yards.cores hyards)]
    · exact (hraise .spad).trans ((congrArg Yards.spad (bumpBy_yards _ .half k.yh 29 1)).trans (show (s.noteHalt k).yards.spad = s.yards.spad by rw [hyards]))
    · exact (raise_mbx (by decide) ..).trans ((bumpBy_mbx _ .half k.yh 29 1).trans hmbx)
    · exact (hraise .rel).trans ((bumpBy_rel _ .half k.yh 29 1).trans hrel)
    · exact (hraise .img).trans ((bumpBy_img _ .half k.yh 29 1).trans himg)
    · exact (hraise .pwr).trans ((bumpBy_pwr _ .half k.yh 29 1).trans hpwr)
  · have heq : s.halt k reason = s := by
      rw [State.halt, hh]
      exact if_pos rfl
    rw [heq]
    exact ⟨h, by rw [hh]; rfl, fun _ _ => rfl, rfl, rfl, rfl, rfl, rfl⟩

/-! ## Items -/

/-- An item for the column of core `k` waits with commands `cmds`, for a request of its own or for the one that an item in `is` waited for. -/
def HasColumn (k : PhysCore) (cmds : List Cmd) (req : Option Req) (is : List RepairItem) (t : State) : Prop :=
  ∃ i ∈ t.rel.items, i.kind = 1 ∧ i.yh = k.yh ∧ i.pcol = k.pcol ∧ (∀ c ∈ cmds, c ∈ i.cmds) ∧
    (i.req = req ∨ ∃ y ∈ is, y.kind = 1 ∧ y.yh = k.yh ∧ y.pcol = k.pcol ∧ i.req = y.req)

theorem queueColumn_rest (s : State) (k : PhysCore) (cmds : List Cmd) (req : Option Req) :
    (s.queueColumn k cmds req).yards = s.yards ∧ (s.queueColumn k cmds req).mbx = s.mbx := by
  unfold State.queueColumn
  dsimp only
  split <;> exact ⟨rfl, rfl⟩

theorem queueColumn_items (s : State) (k : PhysCore) (cmds : List Cmd) (req : Option Req) :
    HasColumn k cmds req s.rel.items (s.queueColumn k cmds req) := by
  unfold State.queueColumn
  dsimp only
  split
  · next hany =>
    obtain ⟨y, hy, hsame⟩ := List.any_eq_true.1 hany
    have hplace := of_decide_eq_true hsame
    refine ⟨_, List.mem_map.2 ⟨y, hy, if_pos hsame⟩, hplace.1, hplace.2.1, hplace.2.2, fun c hc => List.mem_append_right _ hc, ?_⟩
    rcases hreq : y.req with _ | r
    · exact .inl rfl
    · exact .inr ⟨y, hy, hplace.1, hplace.2.1, hplace.2.2, hreq.symm⟩
  · exact ⟨_, List.mem_append_right _ (List.mem_singleton.2 rfl), rfl, rfl, rfl, fun c hc => hc, .inl rfl⟩

/-- Prephor's record of a halter on an engine's half waits for that engine. -/
theorem recordHalter_waits {e : Nat} {g : Halter} (he : s.engineOf g.yh = some e) (hm : s.pwr.mod ≠ .boot) : s.recordHalter g =
    s.modRel (fun r => { r with patches := r.patches ++ [⟨.halter g, none, none, [e], [], [], [], []⟩] }) := by
  rw [State.recordHalter, he]
  exact if_neg hm

theorem engineOf_of_img (h : t.img = s.img) (d : Nat) : t.engineOf d = s.engineOf d := by rw [State.engineOf, h]; rfl

/-- A halter of REPAIR fences its core and queues the item of its column. -/
theorem halter_facts (h : Flat s) {e : Nat} (he : s.engineOf k.yh = some e) (hm : s.pwr.mod ≠ .boot) (reason : Nat) (cmds : List Cmd) (req : Option Req) :
    ((s.halter k reason cmds req).core (coreNum k)).halter = ((s.core (coreNum k)).halter).or (some reason) ∧
    (∀ n, n ≠ coreNum k → (s.halter k reason cmds req).core n = s.core n) ∧ (s.halter k reason cmds req).yards.spad = s.yards.spad ∧
    (s.halter k reason cmds req).mbx = s.mbx ∧ HasColumn k cmds req s.rel.items (s.halter k reason cmds req) := by
  have hh := halt_halted h k reason
  have hrec : (s.halt k reason).recordHalter ⟨k.yh, k.pcol, k.row, reason⟩ = _ :=
    recordHalter_waits (by rw [engineOf_of_img hh.img]; exact he) (by rw [hh.pwr]; exact hm)
  unfold State.halter
  extract_lets new s1
  rw [show s1.recordHalter ⟨k.yh, k.pcol, k.row, reason⟩ = _ from hrec]
  have hmid : ∃ p, (if new then s1.modRel (fun r => { r with patches := r.patches ++ [⟨.halter ⟨k.yh, k.pcol, k.row, reason⟩, none, none, [e], [], [], [], []⟩] })
      else s1) = s1.modRel (fun r => { r with patches := p }) := by
    split
    · exact ⟨_, rfl⟩
    · exact ⟨s1.rel.patches, rfl⟩
  obtain ⟨p, hp⟩ := hmid
  obtain ⟨hyards, hmbx⟩ := queueColumn_rest (s1.modRel (fun r => { r with patches := p })) k cmds req
  have hitems := queueColumn_items (s1.modRel (fun r => { r with patches := p })) k cmds req
  have hrel : (s1.modRel (fun r => { r with patches := p })).rel.items = s.rel.items :=
    show s1.rel.items = s.rel.items by rw [hh.rel]
  rw [hrel] at hitems
  rw [hp]
  refine ⟨?_, fun n hn => ?_, ?_, hmbx.trans hh.mbx, hitems⟩
  · rw [core_of_cores (congrArg Yards.cores hyards)]
    exact hh.halter
  · rw [core_of_cores (congrArg Yards.cores hyards)]
    exact hh.others n hn
  · rw [hyards]
    exact hh.spad

/-! ## The block that names a repair -/

theorem firstOf_none {fs : List (Option Fail)} (h : firstOf fs = none) : ∀ f ∈ fs, f = none := by
  intro f hf
  exact List.findSome?_eq_none_iff.1 h f hf

theorem chk_none {ok : Bool} {f : Fail} (h : chk ok f = none) : ok = true := by
  rw [chk] at h
  by_contra hne
  rw [if_neg hne] at h
  cases h

/-- A block that passes its checks has a defined operation and names a half of an engine. -/
theorem repairCheck_none {b : Bytes} (h : s.repairCheck b = none) : fld b 0 1 ≤ 2 ∧ ∃ e, s.engineOf (repairCore b).yh = some e := by
  have hall := firstOf_none h
  have hop := chk_none (hall _ List.mem_cons_self)
  have hhalf := chk_none (hall _ (List.mem_cons_of_mem _ List.mem_cons_self))
  simp only [decide_eq_true_eq, Bool.decide_and, Bool.and_eq_true] at hop hhalf
  exact ⟨hop, Option.isSome_iff_exists.1 hhalf.2⟩

theorem privCheck_repair (hc : dOp c.desc = opRepair) : s.privCheck c = s.repairCheck c.tack := if_pos hc

/-- The oldest REPAIR of an operation, and what its block names where it passes its checks. -/
theorem newRepair_op {op : Nat} (h : s.newRepair op = some c) : dOp c.desc = opRepair ∧ (fld c.tack 0 1 = op ∨ (op = 0 ∧ 3 ≤ fld c.tack 0 1)) := by
  have hc := List.find?_some h
  simp only [Bool.and_eq_true, Bool.or_eq_true, beq_iff_eq, decide_eq_true_eq] at hc
  exact ⟨hc.1.1, hc.1.2⟩

theorem newRepair_checked {op : Nat} (h : s.newRepair op = some c) (hk : s.privCheck c = none) : fld c.tack 0 1 = op ∧
    ∃ e, s.engineOf (repairCore c.tack).yh = some e := by
  obtain ⟨hop, hfld⟩ := newRepair_op h
  obtain ⟨hle, he⟩ := repairCheck_none (b := c.tack) (by rw [← privCheck_repair hop]; exact hk)
  exact ⟨by omega, he⟩

theorem repair_checked (hk : s.privCheck c = none) : s.repair c = s.queueRepair c.tack [c] none := by
  rw [State.repair, hk]

theorem repair_failed {f : Fail} (hk : s.privCheck c = some f) : s.repair c = s.failPriv c f := by
  rw [State.repair, hk]

/-- The instruction that runs a REPAIR of each operation. -/
theorem exec_repair {i : Instr} {op : Nat}
    (hi : (i = Instr.repairHalter ∧ op = 0) ∨ (i = Instr.repairColumn ∧ op = 1) ∨ (i = Instr.repairRow ∧ op = 2)) (hl : s.live = true)
    (hc : s.newRepair op = some c) : exec i s = .next (s.repair c) := by
  rcases hi with ⟨rfl, rfl⟩ | ⟨rfl, rfl⟩ | ⟨rfl, rfl⟩
  · have hx : exec .repairHalter s = execRepairHalter s := rfl
    rw [hx, execRepairHalter, hc]
    exact congrArg Host.Outcome.next (if_pos hl)
  · have hx : exec .repairColumn s = execRepairColumn s := rfl
    rw [hx, execRepairColumn, hc]
    exact congrArg Host.Outcome.next (if_pos hl)
  · have hx : exec .repairRow s = execRepairRow s := rfl
    rw [hx, execRepairRow, hc]
    exact congrArg Host.Outcome.next (if_pos hl)

theorem mod_of_live (h : s.live = true) : s.pwr.mod = .ready := by
  rw [State.live, Bool.and_eq_true, beq_iff_eq] at h
  exact h.1

theorem queueRepair_halter {b : Bytes} (h : fld b 0 1 = 0) (cmds : List Cmd) (req : Option Req) :
    s.queueRepair b cmds req = s.halter (repairCore b) 3 cmds req := if_pos h

theorem queueRepair_column {b : Bytes} (h : fld b 0 1 = 1) (cmds : List Cmd) (req : Option Req) :
    s.queueRepair b cmds req = s.queueColumn (repairCore b) cmds req := by
  rw [State.queueRepair, h]
  rfl

theorem queueRepair_row {b : Bytes} (h : fld b 0 1 = 2) {e : Nat} (he : s.engineOf (repairCore b).yh = some e) (cmds : List Cmd) (req : Option Req) :
    s.queueRepair b cmds req = s.queueItem ⟨2, e, (repairCore b).yh, (repairCore b).pcol, (repairCore b).row, fld b 4 1, fld b 6 2, 1, s.hclk, cmds, req⟩ := by
  rw [State.queueRepair, h]
  dsimp only
  rw [if_neg (by decide), if_neg (by decide), he]
  rfl

theorem failPriv_facts (h : Flat s) (c : Cmd) (f : Fail) : c ∉ (s.failPriv c f).mbx.privs ∧ (s.failPriv c f).rel = s.rel := by
  have hn : Keeps False (fun _ => False) s (s.noteAs .hub f) := noteAs_keeps (Keeps.rfl' h) .hub f
  have hrel : ((s.noteAs .hub f).finishPriv c f.done).rel = (s.noteAs .hub f).rel := finishPriv_same hn.flat c f.done .rel rfl
  exact ⟨finishPriv_privs hn.flat c f.done, hrel.trans (hn.same .rel not_false)⟩

/-! ## REPAIR_RUN -/

/-- The request waits in the background for what it queues. -/
def State.windowed (s : State) (r : Req) : State := (s.background r).modMbx (fun m => { m with windowReq := some r })

theorem exec_repairRun {r : Req} (hr : s.headReq rqRepairRun = some r) (hw : s.mbx.windowReq = none) (hk : s.repairCheck (mBody r.msg) = none) :
    exec .repairRun s = .next ((s.windowed r).queueRepair (mBody r.msg) [] (some r)) := by
  have hx : exec .repairRun s = execRepairRun s := rfl
  rw [hx, execRepairRun, hr]
  dsimp only
  rw [hw, if_neg (by decide), hk]
  rfl

theorem windowed_keeps (h : Flat s) (r : Req) : Keeps False (fun q => replyWrites q = true) s (s.windowed r) :=
  modMbx_keeps (background_keeps_own h r) _ fun _ => ⟨rfl, rfl⟩

theorem windowed_leftLine (h : Flat s) (r : Req) : s.leftLine (s.windowed r) r := fun ht => background_line h r ht

/-- Settles O21: REPAIR's own halter, item, or failure; a request queues the same from the state in which it waits. -/
theorem repairQueuesItem : Obligations.RepairQueuesItem := by
  unfold Obligations.RepairQueuesItem
  intro s c k hs hl
  have h : Flat s := (flat_iff s).2 hs
  have hboot : s.pwr.mod ≠ .boot := by rw [mod_of_live hl]; decide
  refine ⟨fun hcore hk hc => ?_, fun hcore hk hc => ?_, fun hcore hk hc => ?_, fun i op f hi hc hk => ?_, fun r hr hw hk hcore => ?_⟩
  · obtain ⟨hop, e, he⟩ := newRepair_checked hc hk
    obtain ⟨hhalter, hothers, hspad, hmbx, i, hi, hkind, hyh, hpcol, hcmds, -⟩ := halter_facts h he hboot 3 [c] none
    rw [exec_repair (.inl ⟨rfl, rfl⟩) hl hc, repair_checked hk, queueRepair_halter hop, hcore]
    exact ⟨_, rfl, hhalter, hothers, hspad, congrArg Mbx.privs hmbx, i, hi, hkind, hyh, hpcol, hcmds c (List.mem_singleton.2 rfl)⟩
  · obtain ⟨hop, -⟩ := newRepair_checked hc hk
    obtain ⟨hyards, hmbx⟩ := queueColumn_rest s (repairCore c.tack) [c] none
    obtain ⟨i, hi, hkind, hyh, hpcol, hcmds, -⟩ := queueColumn_items s (repairCore c.tack) [c] none
    rw [exec_repair (.inr (.inl ⟨rfl, rfl⟩)) hl hc, repair_checked hk, queueRepair_column hop, hcore]
    exact ⟨_, rfl, hyards, congrArg Mbx.privs hmbx, i, hi, hkind, hyh, hpcol, hcmds c (List.mem_singleton.2 rfl)⟩
  · obtain ⟨hop, e, he⟩ := newRepair_checked hc hk
    rw [exec_repair (.inr (.inr ⟨rfl, rfl⟩)) hl hc, repair_checked hk, queueRepair_row hop he, hcore]
    exact ⟨_, e, rfl, he, rfl, rfl, rfl⟩
  · rw [exec_repair hi hl hc, repair_failed hk]
    exact ⟨_, rfl, failPriv_facts h c f⟩
  · have hb := windowed_keeps h r
    have hleft := windowed_leftLine h r
    obtain ⟨hop, e, he⟩ := repairCheck_none hk
    have himg : (s.windowed r).img = s.img := hb.same .img Bool.false_ne_true
    have hpwr : (s.windowed r).pwr = s.pwr := hb.same .pwr Bool.false_ne_true
    have hitems : (s.windowed r).rel = s.rel := hb.same .rel Bool.false_ne_true
    have he' : (s.windowed r).engineOf (repairCore (mBody r.msg)).yh = some e := by rw [engineOf_of_img himg]; exact he
    have hwin : (s.windowed r).mbx.windowReq = some r := rfl
    rw [exec_repairRun hr hw hk, hcore]
    refine ⟨_, rfl, ?_⟩
    have hcases : fld (mBody r.msg) 0 1 = 0 ∨ fld (mBody r.msg) 0 1 = 1 ∨ fld (mBody r.msg) 0 1 = 2 := by omega
    rcases hcases with hop | hop | hop
    · obtain ⟨hhalter, -, -, hmbx, i, hi, hkind, hyh, hpcol, -, hreq⟩ := halter_facts hb.flat he' (by rw [hpwr]; exact hboot) 3 [] (some r)
      rw [hitems] at hreq
      rw [queueRepair_halter hop]
      refine ⟨fun ht => by rw [hmbx]; exact hleft ht, by rw [hmbx]; exact hwin, fun _ => ?_, fun _ => ⟨i, hi, hkind, hyh, hpcol, hreq⟩, fun h2 => ?_⟩
      · rw [hhalter]
        cases ((s.windowed r).core (coreNum (repairCore (mBody r.msg)))).halter <;> rfl
      · rw [hop] at h2
        cases h2
    · obtain ⟨-, hmbx⟩ := queueColumn_rest (s.windowed r) (repairCore (mBody r.msg)) [] (some r)
      obtain ⟨i, hi, hkind, hyh, hpcol, -, hreq⟩ := queueColumn_items (s.windowed r) (repairCore (mBody r.msg)) [] (some r)
      rw [hitems] at hreq
      rw [queueRepair_column hop]
      refine ⟨fun ht => by rw [hmbx]; exact hleft ht, by rw [hmbx]; exact hwin, fun h0 => ?_, fun _ => ⟨i, hi, hkind, hyh, hpcol, hreq⟩, fun h2 => ?_⟩
      · rw [hop] at h0
        cases h0
      · rw [hop] at h2
        cases h2
    · rw [queueRepair_row hop he']
      refine ⟨hleft, hwin, fun h0 => ?_, fun h1 => ?_, fun _ => ⟨_, List.mem_append_right _ (List.mem_singleton.2 rfl), rfl, rfl, rfl, rfl, rfl, rfl, rfl⟩⟩
      · rw [hop] at h0
        cases h0
      · rw [hop] at h1
        exact absurd h1 (by decide)

end Sys2Proof.Machine
end

section
/-!
SUPPORT and PROOFS. The items of the repair list (R274, R469, R508 to R510).
-/
namespace Sys2Proof.Machine

variable {s t : State} {c : Cmd} {i : RepairItem} {r : Req}

/-! ## Commands leave Prephor's hands and none comes -/

/-- A privileged command that ends leaves Prephor's hands alone. -/
theorem finishPriv_privs_eq (h : Flat s) (c : Cmd) (d : Done) : (s.finishPriv c d).mbx.privs = s.mbx.privs.filter (fun x => decide (x ≠ c)) := by
  have _ := anyPart_fact
  unfold State.finishPriv
  extract_lets s1 s2 s3
  have k1 : Keeps False anyPart s s1 := postRecord_keeps (Keeps.rfl' h) _ _ _
  have h1 : s1.mbx.privs = s.mbx.privs := postAt_privs 168 s c.engine c _
  have h2 : s2.mbx.privs = s1.mbx.privs.filter (fun x => decide (x ≠ c)) := rfl
  have f2 : Flat s2 := { k1.flat with }
  clear_value s2
  have h3 : s3.mbx.privs = s2.mbx.privs ∧ Flat s3 := by
    simp only [s3]
    split
    · exact ⟨rfl, f2⟩
    · exact ⟨rfl, (modSlot_keeps (P := False) (W := anyPart) (Keeps.rfl' f2) _ _).flat⟩
  rw [endDestroys_privs h3.2, h3.1, h2, h1]

/-- From `s` no command has come into Prephor's hands and no item into the list. -/
structure OnlyLeave (s t : State) : Prop where
  flat : Flat t
  privs : ∀ c ∈ t.mbx.privs, c ∈ s.mbx.privs
  items : ∀ i ∈ t.rel.items, i ∈ s.rel.items

theorem OnlyLeave.refl (h : Flat s) : OnlyLeave s s := ⟨h, fun _ h => h, fun _ h => h⟩

theorem OnlyLeave.trans {q : State} (h : OnlyLeave q s) (k : OnlyLeave s t) : OnlyLeave q t :=
  ⟨k.flat, fun c hc => h.privs c (k.privs c hc), fun i hi => h.items i (k.items i hi)⟩

theorem finishPriv_leaves (h : Flat s) (c : Cmd) (d : Done) : OnlyLeave s (s.finishPriv c d) := by
  have _ := anyPart_fact
  have hrel : (s.finishPriv c d).rel = s.rel := finishPriv_same h c d .rel rfl
  refine ⟨(finishPriv_keeps (P := False) (W := anyPart) (Keeps.rfl' h) c d).flat, fun x hx => ?_, fun i hi => by rw [hrel] at hi; exact hi⟩
  rw [finishPriv_privs_eq h] at hx
  exact List.mem_of_mem_filter hx

theorem closeWindow_items (s : State) (e : Nat) : (s.closeWindow e).rel.items = s.rel.items := by
  unfold State.closeWindow
  split <;> rfl

theorem dropItem_items (s : State) (i : RepairItem) : (s.dropItem i).rel.items = s.rel.items.filter (fun y => decide (y ≠ i)) := closeWindow_items _ _

theorem dropItem_flat (h : Flat s) (i : RepairItem) : Flat (s.dropItem i) :=
  have _ := anyPart_fact
  (dropItem_keeps (P := False) (W := anyPart) (Keeps.rfl' h) i).flat

theorem dropItem_leaves (h : Flat s) (i : RepairItem) : OnlyLeave s (s.dropItem i) :=
  ⟨dropItem_flat h i, fun c hc => by rw [dropItem_mbx] at hc; exact hc, fun y hy => by rw [dropItem_items] at hy; exact List.mem_of_mem_filter hy⟩

theorem endCmds_leaves (h : Flat s) (cs : List Cmd) (d : Done) : OnlyLeave s (s.endCmds cs d) :=
  each_induct (R := OnlyLeave s) (fun _ c ht => ht.trans (finishPriv_leaves ht.flat c d)) cs (.refl h)

/-- Every command of a list that ends has left. -/
theorem endCmds_privs (h : Flat s) {cs : List Cmd} (hc : c ∈ cs) (d : Done) : c ∉ (s.endCmds cs d).mbx.privs := by
  obtain ⟨as, bs, rfl⟩ := List.append_of_mem hc
  have hsplit : s.endCmds (as ++ c :: bs) d = ((s.endCmds as d).finishPriv c d).endCmds bs d := List.foldl_append
  have ha := (endCmds_leaves h as d).flat
  rw [hsplit]
  exact fun hin => finishPriv_privs ha c d ((endCmds_leaves (finishPriv_leaves ha c d).flat bs d).privs c hin)

/-! ## The request that waits for a window -/

/-- The reply to the request that waited. -/
theorem endWindowReq_some (s : State) (r : Req) (rc : Nat) (b : Bytes) : s.endWindowReq (some r) rc b =
    ((s.modMbx (fun m => { m with windowReq := none })).reply r rc b).serveHead := rfl

theorem endWindowReq_held (s : State) (r : Req) (rc : Nat) (b : Bytes) : (s.endWindowReq (some r) rc b).mbx.held =
    (s.mbx.destroys, s.mbx.privs, none, s.mbx.bgDisable) := by
  rw [endWindowReq_some, serveHead_held, reply_held]
  rfl

/-- What a reply may write leaves the list of items and Prephor's commands. -/
theorem endWindowReq_keeps_own (h : Flat s) (req : Option Req) (rc : Nat) (b : Bytes) :
    Keeps False (fun q => replyWrites q = true) s (s.endWindowReq req rc b) := by
  have : Fact (replyWrites .data = true) := ⟨rfl⟩
  have : Fact (replyWrites .host = true) := ⟨rfl⟩
  exact endWindowReq_keeps (Keeps.rfl' h) req rc b

theorem endWindowReq_privs (s : State) (req : Option Req) (rc : Nat) (b : Bytes) : (s.endWindowReq req rc b).mbx.privs = s.mbx.privs := by
  rcases req with _ | r
  · rfl
  · exact congrArg (fun x => x.2.1) (endWindowReq_held s r rc b)

theorem endWindowReq_leaves (h : Flat s) (req : Option Req) (rc : Nat) (b : Bytes) : OnlyLeave s (s.endWindowReq req rc b) := by
  have hk := endWindowReq_keeps_own h req rc b
  have hrel : (s.endWindowReq req rc b).rel = s.rel := hk.same .rel Bool.false_ne_true
  exact ⟨hk.flat, fun c hc => by rw [endWindowReq_privs] at hc; exact hc, fun i hi => by rw [hrel] at hi; exact hi⟩

/-- An item that has run: it and what waited in it leave, and nothing comes. -/
theorem endItem_leaves (h : Flat s) (i : RepairItem) (flagged : Bool) : OnlyLeave s (s.endItem i flagged) := by
  have h1 := dropItem_leaves h i
  have h2 := endCmds_leaves h1.flat i.cmds { status := endStatus false flagged false }
  exact h1.trans (h2.trans (endWindowReq_leaves h2.flat i.req rcOk []))

theorem endItem_gone (h : Flat s) (i : RepairItem) (flagged : Bool) : i ∉ (s.endItem i flagged).rel.items ∧
    ∀ c ∈ i.cmds, c ∉ (s.endItem i flagged).mbx.privs := by
  have h1 := dropItem_leaves h i
  have h2 := endCmds_leaves h1.flat i.cmds { status := endStatus false flagged false }
  have h3 := endWindowReq_leaves h2.flat i.req rcOk []
  refine ⟨fun hi => ?_, fun c hc hin => endCmds_privs h1.flat hc _ (h3.privs c hin)⟩
  have hdrop := h2.items i (h3.items i hi)
  rw [dropItem_items] at hdrop
  simpa using (List.mem_filter.1 hdrop).2

theorem endItem_same (h : Flat s) (i : RepairItem) (flagged : Bool) (p : Part) (hp : endItemWrites p = false) : p.same s (s.endItem i flagged) :=
  (endItem_keeps_own (Keeps.rfl' h) i flagged).same p (by rw [hp]; exact Bool.false_ne_true)

/-- Every item of a list that ends is gone. -/
theorem endItems_gone (h : Flat s) {is : List RepairItem} (hi : i ∈ is) : i ∉ (s.each is (fun u y => u.endItem y false)).rel.items ∧
    ∀ c ∈ i.cmds, c ∉ (s.each is (fun u y => u.endItem y false)).mbx.privs := by
  have hall : ∀ {u : State} (js : List RepairItem), Flat u → OnlyLeave u (u.each js (fun u y => u.endItem y false)) := fun {u} js hu =>
    each_induct (R := OnlyLeave u) (fun _ y ht => ht.trans (endItem_leaves ht.flat y false)) js (.refl hu)
  obtain ⟨as, bs, rfl⟩ := List.append_of_mem hi
  have hsplit : s.each (as ++ i :: bs) (fun u y => u.endItem y false) =
      ((s.each as (fun u y => u.endItem y false)).endItem i false).each bs (fun u y => u.endItem y false) := List.foldl_append
  have ha := (hall as h).flat
  obtain ⟨hitem, hcmds⟩ := endItem_gone ha i false
  have hb := hall bs (endItem_leaves ha i false).flat
  rw [hsplit]
  exact ⟨fun hin => hitem (hb.items i hin), fun c hc hin => hcmds c hc (hb.privs c hin)⟩

/-! ## COLUMN and ROW items -/

theorem exec_columnItem {fails : Bool} {found : List RowFail} (hl : s.live = true) (hi : s.itemReady 1 = some i) :
    exec (.columnItem fails found) s = .next (s.runColumn i fails found) := by
  have hx : exec (.columnItem fails found) s = execColumnItem fails found s := rfl
  rw [hx, execColumnItem, hi]
  exact congrArg Host.Outcome.next (if_pos hl)

theorem runColumn_passes {x : Nat × BitVec 66} {found : List RowFail} (hu : s.inUse i.yh i.pcol = true) (hx : s.substitute i.yh i.pcol = some x) :
    ∃ flagged, s.runColumn i false found = (s.takeColumn i.yh i.pcol x.1 x.2 found).endItem i flagged := by
  rw [State.runColumn, hu]
  dsimp only
  rw [if_neg (by decide), hx]
  exact ⟨_, rfl⟩

theorem runColumn_fails {x : Nat × BitVec 66} {found : List RowFail} (hu : s.inUse i.yh i.pcol = true) (hx : s.substitute i.yh i.pcol = some x) :
    s.runColumn i true found = s.markFailed i.yh x.1 := by
  rw [State.runColumn, hu]
  dsimp only
  rw [if_neg (by decide), hx]
  rfl

theorem exec_rowItem (hl : s.live = true) (hi : s.itemReady 2 = some i) : exec .rowItem s = .next (s.runRow i) := by
  have hx : exec .rowItem s = execRowItem s := rfl
  rw [hx, execRowItem, hi]
  exact congrArg Host.Outcome.next (if_pos hl)

/-- The spare row that a ROW item takes. -/
def RepairItem.repair (i : RepairItem) (k : Nat) : RowRepair := ⟨i.yh, i.pcol, i.row, i.bank, k, i.bankRow⟩

theorem runRow_free {k : Nat} (hr : (s.half i.yh).rows.find? (samePlace ⟨i.yh, i.pcol, i.row, i.bank, 0, i.bankRow⟩) = none)
    (hk : (s.half i.yh).freeSpare ⟨i.yh, i.pcol, i.row⟩ i.bank = some k) :
    ∃ flagged, s.runRow i = ((s.remap (i.repair k)).bump .half i.yh 31).endItem i flagged := by
  rw [State.runRow]
  dsimp only
  rw [hr]
  dsimp only
  rw [hk]
  exact ⟨_, rfl⟩

/-- A row repair that is added stands in the list. -/
theorem mem_addRows (old : List RowRepair) (x : RowRepair) : x ∈ addRows old [x] := by
  unfold addRows
  extract_lets fresh
  by_cases hx : x ∈ old
  · have hfresh : fresh = [] := by simp [fresh, hx]
    rw [hfresh, List.append_nil]
    exact List.mem_filter.2 ⟨hx, rfl⟩
  · have hfresh : fresh = [x] := by simp [fresh, hx]
    rw [hfresh]
    exact List.mem_append_right _ (List.mem_singleton.2 rfl)

theorem takeRow_rows (h : Flat s) (x : RowRepair) : x ∈ ((s.takeRow x).half x.yh).rows := by
  have _ := anyPart_fact
  unfold State.takeRow
  extract_lets n at_ s1
  have h1 : (s1.modHalf x.yh (fun h => { h with rows := addRows h.rows [x] })).half x.yh = { s1.half x.yh with rows := addRows (s1.half x.yh).rows [x] } :=
    half_setHalf_same s1 x.yh _ h.halves
  rw [h1]
  exact mem_addRows _ x

theorem takeRow_flat (h : Flat s) (x : RowRepair) : Flat (s.takeRow x) :=
  have _ := anyPart_fact
  (takeRow_keeps (P := False) (W := anyPart) (Keeps.rfl' h) x).flat

theorem remap_flat (h : Flat s) (x : RowRepair) : Flat (s.remap x) :=
  have _ := anyPart_fact
  (remap_keeps (P := False) (W := anyPart) (Keeps.rfl' h) x).flat

/-- What a topology patch of the module itself may write. -/
def ownTopoWrites (p : Part) : Bool := [Part.img, .hub, .flash].contains p

theorem ownTopoWrites_facts : Fact (ownTopoWrites .img = true) ∧ Fact (ownTopoWrites .hub = true) ∧ Fact (ownTopoWrites .flash = true) := ⟨⟨rfl⟩, ⟨rfl⟩, ⟨rfl⟩⟩

theorem remap_rows (h : Flat s) (x : RowRepair) : x ∈ ((s.remap x).half x.yh).rows := by
  have ht := takeRow_flat h x
  have hk : Keeps False (fun p => ownTopoWrites p = true) (s.takeRow x) (s.remap x) := by
    obtain ⟨_, _, _⟩ := ownTopoWrites_facts
    exact ownTopo_keeps (Keeps.rfl' ht) _ ⟨h.topo, h.recs, h.xlat⟩
  rw [half_of_halves (hk.same .halves Bool.false_ne_true)]
  exact takeRow_rows h x

/-! ## REALIGN -/

/-- From `s` no crossing has slipped. -/
structure SlipsLeave (s t : State) : Prop where
  flat : Flat t
  slipped : ∀ x ∈ t.clk.slipped, x ∈ s.clk.slipped

theorem SlipsLeave.refl (h : Flat s) : SlipsLeave s s := ⟨h, fun _ h => h⟩

theorem SlipsLeave.trans {q : State} (h : SlipsLeave q s) (k : SlipsLeave s t) : SlipsLeave q t := ⟨k.flat, fun x hx => h.slipped x (k.slipped x hx)⟩

theorem setAligned_slipped (h : Flat s) (live : List Nat) (state un : Nat) : (s.setAligned live state un).clk.slipped = s.clk.slipped := by
  have : Fact ((fun p => p = Part.halves ∨ p = Part.per) .halves) := ⟨.inl rfl⟩
  have : Fact ((fun p => p = Part.halves ∨ p = Part.per) .per) := ⟨.inr rfl⟩
  unfold State.setAligned
  extract_lets gone left engs s1
  have hf : Flat s1 := { h with }
  have hclk : s1.setClocks.holdPrograms.clk = s1.clk :=
    (holdPrograms_keeps (setClocks_keeps (Keeps.rfl' (P := False) (W := fun p => p = .halves ∨ p = .per) hf))).same .clk (by decide)
  rw [hclk]
  rfl

theorem firstFail_slipped (valid : Bool) (c : Clocks) (x : Excluded) : (if valid then c else c.fail0 x).slipped = c.slipped := by
  split <;> rfl

theorem dropDomain_slips (h : Flat s) (x : Excluded) : SlipsLeave s (s.dropDomain x) := by
  have _ := anyPart_fact
  refine ⟨(dropDomain_keeps (P := False) (W := anyPart) (Keeps.rfl' h) x).flat, fun y hy => ?_⟩
  unfold State.dropDomain at hy
  extract_lets live outs s1 s2 doms s3 at hy
  have f1 : Flat s1 := { h with }
  have h1 : s1.clk.slipped = s.clk.slipped := firstFail_slipped s.clk.failValid { s.clk with excluded := s.clk.excluded + outs.length } x
  have h2 : Keeps False (fun _ => False) s1 s2 := each_keeps _ _ (fun _ x hu => alignFail_keeps hu x) (Keeps.rfl' f1)
  have h3 : s3.clk.slipped = s2.clk.slipped := by
    simp only [s3]
    exact setAligned_slipped h2.flat _ _ _
  clear_value s3
  have hmem : y ∈ s3.clk.slipped := List.mem_of_mem_filter hy
  rw [h3, show s2.clk = s1.clk from h2.same .clk not_false, h1] at hmem
  exact hmem

/-- What a realignment may write. -/
def realignWrites (p : Part) : Bool := [Part.halves, .per, .clk].contains p

theorem realignWrites_facts : Fact (realignWrites .halves = true) ∧ Fact (realignWrites .per = true) ∧ Fact (realignWrites .clk = true) := ⟨⟨rfl⟩, ⟨rfl⟩, ⟨rfl⟩⟩

/-- Of the crossings realigned none is left slipped, and no other slips. -/
theorem realignAll_slips (h : Flat s) (f : AlignFacts) (cs : List (Nat × Nat)) : ∀ x ∈ (s.realignAll f cs).clk.slipped, x ∈ s.clk.slipped ∧ x ∉ cs := by
  intro x hx
  unfold State.realignAll at hx
  extract_lets s1 bad at hx
  have f1 : Flat s1 := { h with }
  have h1 : s1.clk.slipped = s.clk.slipped.filter (fun y => !cs.contains y) := rfl
  have h2 := each_induct (R := SlipsLeave s1) (fun u (d : Nat) hu => show SlipsLeave s1 (match lowestPeer (bad.filter (fun y => y.rx == d)) d with
      | some y => if u.alignedDom d then u.dropDomain ⟨d, otherEnd y d, if crossingPattern y then 1 else 2⟩ else u
      | none => u) by
    split
    · split
      · exact hu.trans (dropDomain_slips hu.flat _)
      · exact hu
    · exact hu) (dedup (bad.map CrossingFact.rx)) (.refl f1)
  have hmem := h2.slipped x hx
  rw [h1] at hmem
  obtain ⟨hin, hout⟩ := List.mem_filter.1 hmem
  exact ⟨hin, by simpa using hout⟩

theorem realignAll_keeps_own (h : Flat s) (f : AlignFacts) (cs : List (Nat × Nat)) : Keeps False (fun p => realignWrites p = true) s (s.realignAll f cs) := by
  obtain ⟨_, _, _⟩ := realignWrites_facts
  exact realignAll_keeps (Keeps.rfl' h) f cs

/-- The end of the items that have nothing left to realign. -/
def State.endRealigned (t : State) : State := t.each (t.rel.items.filter t.realigned) (fun u y => u.endItem y false)

theorem endRealigned_clk (h : Flat t) : t.endRealigned.clk = t.clk :=
  (each_keeps (P := False) (W := fun p => endItemWrites p = true) _ _ (fun _ i hu => endItem_keeps_own hu i false) (Keeps.rfl' h)).same .clk Bool.false_ne_true

theorem exec_realign {facts : AlignFacts} (hl : s.live = true) : exec (.realign facts) s = .next (match s.realignItem with
    | some i => s.realignAll facts (s.realignable i.engine)
    | none => s).endRealigned := by
  have hx : exec (.realign facts) s = execRealign facts s := rfl
  rw [hx, execRealign]
  exact congrArg Host.Outcome.next (if_pos hl)

theorem crossingEngines_of_img (h : t.img = s.img) (x : Nat × Nat) : t.crossingEngines x = s.crossingEngines x := by
  unfold State.crossingEngines State.enginesWith State.halvesOf State.engEntry
  rw [h]

/-! ## The wait of a request -/

theorem closeWindows_items (es : List RepairItem) (s : State) : (s.each es (fun s i => s.closeWindow i.engine)).rel.items = s.rel.items :=
  each_induct (R := fun t => t.rel.items = s.rel.items) (fun _ i ht => (closeWindow_items _ i.engine).trans ht) es rfl

/-- The items once the request `r` waits no more. -/
def leftItems (keep : RepairItem → Bool) (r : Req) (is : List RepairItem) : List RepairItem :=
  (is.filter keep).map (fun i => if i.req == some r then { i with req := none } else i)

theorem leftItems_req (keep : RepairItem → Bool) (is : List RepairItem) : ∀ i ∈ leftItems keep r is, i.req ≠ some r := by
  intro i hi
  obtain ⟨j, _, rfl⟩ := List.mem_map.1 hi
  split
  · exact fun h => nomatch h
  · next h => exact fun he => h (by rw [he]; exact beq_self_eq_true _)

theorem exec_windowTimeout (h : Flat s) (hl : s.live = true) (hr : s.mbx.windowReq = some r) (hw : s.windowLate r = true) :
    ∃ u, exec .windowTimeout s = .next (u.endWindowReq (some r) rcWindowTimeout []) ∧ Flat u ∧ ∀ i ∈ u.rel.items, i.req ≠ some r := by
  have _ := anyPart_fact
  have hx : exec .windowTimeout s = execWindowTimeout s := rfl
  have hs : s.serving = true := by
    obtain ⟨hm, ha⟩ := Bool.and_eq_true_iff.1 hl
    rw [State.serving, hm, ha]
    rfl
  rw [hx]
  unfold execWindowTimeout
  rw [hr]
  dsimp only
  rw [if_neg (by simp [hw, hs])]
  refine ⟨_, rfl, (each_keeps (P := False) (W := anyPart) _ _ (fun _ i hu => closeWindow_keeps hu i.engine) (Keeps.rfl' ?_)).flat, ?_⟩
  · exact { h with }
  · rw [closeWindows_items]
    exact leftItems_req _ s.rel.items

/-! ## O22 -/

theorem columnItem_ends (h : Flat s) {x : Nat × BitVec 66} (found : List RowFail) (hu : s.inUse i.yh i.pcol = true) (hx : s.substitute i.yh i.pcol = some x) :
    i ∉ (s.runColumn i false found).rel.items ∧ ∀ c ∈ i.cmds, c ∉ (s.runColumn i false found).mbx.privs := by
  have _ := anyPart_fact
  obtain ⟨flagged, he⟩ := runColumn_passes (found := found) hu hx
  rw [he]
  exact endItem_gone (takeColumn_keeps (P := False) (W := anyPart) (Keeps.rfl' h) _ _ _ _ _).flat i flagged

theorem columnItem_stays (h : Flat s) {x : Nat × BitVec 66} (found : List RowFail) (hu : s.inUse i.yh i.pcol = true) (hx : s.substitute i.yh i.pcol = some x) :
    (s.runColumn i true found).rel.items = s.rel.items := by
  obtain ⟨_, _, _⟩ := ownTopoWrites_facts
  rw [runColumn_fails hu hx]
  exact congrArg Rel.items ((markFailed_keeps (P := False) (W := fun p => ownTopoWrites p = true) (Keeps.rfl' h) _ _).same .rel Bool.false_ne_true)

theorem rowItem_ends (h : Flat s) {k : Nat} (hr : (s.half i.yh).rows.find? (samePlace ⟨i.yh, i.pcol, i.row, i.bank, 0, i.bankRow⟩) = none)
    (hk : (s.half i.yh).freeSpare ⟨i.yh, i.pcol, i.row⟩ i.bank = some k) :
    i ∉ (s.runRow i).rel.items ∧ (∀ c ∈ i.cmds, c ∉ (s.runRow i).mbx.privs) ∧ i.repair k ∈ ((s.runRow i).half i.yh).rows := by
  obtain ⟨flagged, he⟩ := runRow_free hr hk
  have ht := bump_flat (remap_flat h (i.repair k)) .half i.yh 31
  rw [he]
  obtain ⟨hitem, hcmds⟩ := endItem_gone ht i flagged
  refine ⟨hitem, hcmds, ?_⟩
  have hhalves : _ = ((s.remap (i.repair k)).bump .half i.yh 31).yards.halves := endItem_same ht i flagged .halves rfl
  rw [half_of_halves (hhalves.trans (congrArg Yards.halves (bumpBy_yards (s.remap (i.repair k)) .half i.yh 31 1)))]
  exact remap_rows h (i.repair k)

/-- The slipped crossings that the windows admit are realigned, and an item with none left ends. -/
theorem realign_ends (h : Flat s) (facts : AlignFacts) (hkind : i.kind = 3) (hi : i ∈ s.rel.items) :
    (∀ x ∈ s.realignable i.engine, x ∉ (s.realignAll facts (s.realignable i.engine)).endRealigned.clk.slipped) ∧
      ((∀ x ∈ s.clk.slipped, (s.crossingEngines x).contains i.engine = true → x ∈ s.realignable i.engine) →
        i ∉ (s.realignAll facts (s.realignable i.engine)).endRealigned.rel.items ∧
        (∀ c ∈ i.cmds, c ∉ (s.realignAll facts (s.realignable i.engine)).endRealigned.mbx.privs) ∧
        ∀ x ∈ (s.realignAll facts (s.realignable i.engine)).endRealigned.clk.slipped, (s.crossingEngines x).contains i.engine = false) := by
  have hk := realignAll_keeps_own h facts (s.realignable i.engine)
  have hslips := realignAll_slips h facts (s.realignable i.engine)
  generalize s.realignAll facts (s.realignable i.engine) = t at hk hslips
  rw [endRealigned_clk hk.flat]
  refine ⟨fun x hx hin => (hslips x hin).2 hx, fun hall => ?_⟩
  have hnone : ∀ x ∈ t.clk.slipped, (s.crossingEngines x).contains i.engine = false := fun x hx => by
    obtain ⟨hin, hout⟩ := hslips x hx
    exact Bool.eq_false_iff.2 (fun hc => hout (hall x hin hc))
  have hdone : t.realigned i = true := by
    refine Bool.and_eq_true_iff.2 ⟨beq_iff_eq.2 hkind, List.all_eq_true.2 (fun x hx => ?_)⟩
    rw [crossingEngines_of_img (hk.same .img Bool.false_ne_true), hnone x hx]
    rfl
  have hin : i ∈ t.rel.items := by
    rw [show t.rel = s.rel from hk.same .rel Bool.false_ne_true]
    exact hi
  obtain ⟨hgone, hcmds⟩ := endItems_gone hk.flat (List.mem_filter.2 ⟨hin, hdone⟩)
  exact ⟨hgone, hcmds, hnone⟩

/-- Settles O22: an item that runs ends with what waited in it (`endItem_gone`), a realignment only takes crossings off the slipped list
(`realignAll_slips`), and the request whose wait is over stands in no item (`leftItems_req`). -/
theorem itemsComplete : Obligations.ItemsComplete := by
  unfold Obligations.ItemsComplete
  intro s hinv hl
  have h : Flat s := (flat_iff s).2 hinv
  refine ⟨fun i x found hi hu hx => ⟨?_, ?_⟩, fun i k hi hr hk => ?_, fun i facts hi => ?_, fun i facts hn hi hd => ?_, fun r hr hw => ?_⟩
  · exact ⟨_, exec_columnItem hl hi, columnItem_ends h found hu hx⟩
  · exact ⟨_, exec_columnItem hl hi, columnItem_stays h found hu hx⟩
  · exact ⟨_, exec_rowItem hl hi, rowItem_ends h hr hk⟩
  · have hx := exec_realign (facts := facts) hl
    rw [hi] at hx
    have hp := List.find?_some hi
    have hkind : i.kind = 3 := by
      simp only [Bool.and_eq_true, beq_iff_eq] at hp
      exact hp.1.1.1
    exact ⟨_, hx, realign_ends h facts hkind (List.mem_of_find?_eq_some hi)⟩
  · have hx := exec_realign (facts := facts) hl
    rw [hn] at hx
    exact ⟨_, hx, (endItems_gone h (List.mem_filter.2 ⟨hi, hd⟩)).1, congrArg Clocks.slipped (endRealigned_clk h)⟩
  · obtain ⟨u, hx, hu, hitems⟩ := exec_windowTimeout h hl hr hw
    refine ⟨_, hx, ?_, fun i hi => hitems i ((endWindowReq_leaves hu (some r) rcWindowTimeout []).items i hi)⟩
    exact congrArg (fun x => x.2.2.1) (endWindowReq_held u r rcWindowTimeout [])

end Sys2Proof.Machine
end

section
/-!
SUPPORT and PROOFS. Patches of the image (R60, R63, R64, R469, R505).
-/
namespace Sys2Proof.Machine

variable {s t u : State} {c : Cmd} {r : Req} {o : Bytes} {p : PatchWait} {e : Nat}

/-! ## The image but for the owners of its pages -/

/-- The image in force is the same but for the pages. -/
def imageStays (s t : State) : Prop := ({ t.img with xlat := s.img.xlat } : Image) = s.img

theorem imageStays.refl (s : State) : imageStays s s := rfl

theorem imageStays_of_img (h : t.img = s.img) : imageStays s t := by
  unfold imageStays
  rw [h]

theorem imageStays.trans (h : imageStays s t) (k : imageStays t u) : imageStays s u := by
  unfold imageStays at *
  rw [← h, ← k]

/-- What the end of a command may write beside the image. -/
theorem cancelChains_img (h : Flat s) (n e : Nat) : (s.cancelChains n e).img = s.img := by
  have : Fact ((fun q => q ≠ Part.img) Part.data) := ⟨by decide⟩
  have : Fact ((fun q => q ≠ Part.img) Part.engines) := ⟨by decide⟩
  have : Fact ((fun q => q ≠ Part.img) Part.queues) := ⟨by decide⟩
  have : Fact ((fun q => q ≠ Part.img) Part.per) := ⟨by decide⟩
  have : Fact ((fun q => q ≠ Part.img) Part.host) := ⟨by decide⟩
  have : Fact ((fun q => q ≠ Part.img) Part.slots) := ⟨by decide⟩
  exact (cancelChains_keeps (P := False) (W := fun q => q ≠ .img) (Keeps.rfl' h) n e).same .img (fun h => h rfl)

theorem endDestroy_image (h : Flat s) (d : Destroy) : imageStays s (s.endDestroy d) := by
  unfold State.endDestroy
  extract_lets q bs s1 s2 im s3 s4 s5
  have _ := anyPart_fact
  have h1 : s1.img = s.img ∧ Flat s1 := by
    have : Fact (replyWrites .data = true) := ⟨rfl⟩
    have : Fact (replyWrites .host = true) := ⟨rfl⟩
    have k1 : Keeps False (fun q => replyWrites q = true) s s1 := by
      simp only [s1]
      split
      · exact hostWrite_keeps (Keeps.rfl' h) _ _
      · exact hubWrite_keeps (Keeps.rfl' h) _ _
    exact ⟨k1.same .img Bool.false_ne_true, k1.flat⟩
  clear_value s1
  have h2 : s2.img = s1.img ∧ Flat s2 := by
    simp only [s2]
    split
    · exact ⟨rfl, h1.2⟩
    · exact ⟨rfl, (modSlot_keeps (P := False) (W := anyPart) (Keeps.rfl' h1.2) _ _).flat⟩
  clear_value s2
  have k3 : Keeps False anyPart s2 s3 := xlat_keeps (Keeps.rfl' h2.2) _ (swf_smap _ _ _ h2.2.xlat)
  have k4 : Keeps False anyPart s2 s4 := slots_keeps k3 _ (swf_smap _ _ _ k3.flat.slots)
  have f5 : Flat s5 := { (setQueue_keeps k4 d.queue Queue.reset).flat with }
  have h5 : imageStays s s5 := by
    refine (imageStays_of_img (h2.1.trans h1.1)).trans ?_
    exact (rfl : imageStays s2 s5)
  clear_value s5
  refine h5.trans (imageStays_of_img ?_)
  have f6 := reply_flat f5 d.req rcOk []
  rw [show (s5.reply d.req rcOk []).serveHead.img = _ from (serveHead_keeps_own f6).same .img Bool.false_ne_true]
  exact (reply_keeps_own f5 d.req rcOk []).same .img Bool.false_ne_true

theorem endDestroys_image (h : Flat s) : imageStays s s.endDestroys :=
  endDestroys_rel imageStays.refl imageStays.trans
    (fun n h => imageStays_of_img ((each_rel (R := fun s t : State => t.img = s.img) (fun _ => rfl) (fun h k => k.trans h) (upto 21) _
      (fun s e h => by have _ := anyPart_fact; exact (cancelChains_keeps (P := False) (W := anyPart) (Keeps.rfl' h) n e).flat)
      (fun s e h => cancelChains_img h n e) h)))
    (fun d h => endDestroy_image h d) h

theorem finishPriv_image (h : Flat s) (c : Cmd) (d : Done) : imageStays s (s.finishPriv c d) := by
  have _ := anyPart_fact
  unfold State.finishPriv
  extract_lets s1 s2 s3
  have : Fact ((fun q => q ≠ Part.img) Part.data) := ⟨by decide⟩
  have : Fact ((fun q => q ≠ Part.img) Part.engines) := ⟨by decide⟩
  have : Fact ((fun q => q ≠ Part.img) Part.queues) := ⟨by decide⟩
  have : Fact ((fun q => q ≠ Part.img) Part.per) := ⟨by decide⟩
  have : Fact ((fun q => q ≠ Part.img) Part.host) := ⟨by decide⟩
  have : Fact ((fun q => q ≠ Part.img) Part.slots) := ⟨by decide⟩
  have k1 : Keeps False (fun q => q ≠ .img) s s1 := postRecord_keeps (Keeps.rfl' h) _ _ _
  have h1 : s1.img = s.img := k1.same .img (fun h => h rfl)
  have f2 : Flat s2 := { k1.flat with }
  have h2 : s2.img = s1.img := rfl
  clear_value s2
  have h3 : s3.img = s2.img ∧ Flat s3 := by
    simp only [s3]
    split
    · exact ⟨rfl, f2⟩
    · exact ⟨rfl, (modSlot_keeps (P := False) (W := anyPart) (Keeps.rfl' f2) _ _).flat⟩
  exact (imageStays_of_img (h3.1.trans (h2.trans h1))).trans (endDestroys_image h3.2)

/-! ## The mailboxes while a patch lands -/

theorem journalAppend_mbx (s : State) (o : Bytes) : (s.journalAppend o).mbx = s.mbx := by
  unfold State.journalAppend State.program
  rfl

theorem recordPatch_mbx (s : State) (o : Bytes) (i : Image) : (s.recordPatch o i).mbx = s.mbx := by
  unfold State.recordPatch
  split
  · extract_lets s1 s2
    rw [raise_mbx (by decide)]
    exact journalAppend_mbx s o
  · rw [raise_mbx (by decide)]

theorem shiftHalf_mbx (s : State) (d : Nat) (a b : List Nat) : (s.shiftHalf d a b).mbx = s.mbx := by
  unfold State.shiftHalf
  extract_lets moved s1
  have h1 : s1.mbx = s.mbx := modYards_mbx s _
  refine (each_mbx _ _ (fun t x => each_mbx _ _ (fun u r => ?_) t) s1).trans h1
  exact setCore_mbx u _ _

theorem takeRow_mbx (s : State) (x : RowRepair) : (s.takeRow x).mbx = s.mbx := by
  unfold State.takeRow
  extract_lets n at_ s1
  exact (setHalf_mbx s1 _ _).trans rfl

theorem applyHalters_mbx (s : State) : s.applyHalters.mbx = s.mbx := by
  unfold State.applyHalters
  extract_lets s1
  have h1 : s1.mbx = s.mbx := each_mbx _ _ (fun _ _ => by dsimp only; split <;> rfl) s
  refine (each_mbx _ _ (fun u h => ?_) s1).trans h1
  dsimp only
  split
  · exact bumpBy_mbx _ _ _ _ _
  · rfl

theorem discardPreload_mbx (s : State) (e : Nat) : (s.discardPreload e).mbx = s.mbx := by
  unfold State.discardPreload State.dropPreload
  split
  · rfl
  · split
    · exact bumpBy_mbx _ _ _ _ _
    · exact (modMbx_mbx _ id).trans (bumpBy_mbx _ _ _ _ _)

theorem afterPatch_mbx (s : State) (before : Image) (sec : Nat) : (s.afterPatch before sec).mbx = s.mbx := by
  unfold State.afterPatch
  extract_lets ds moved s1 s2 s3
  have h1 : s1.mbx = s.mbx := by
    have hmoved : moved.mbx = s.mbx := each_mbx _ _ (fun u d => by
      dsimp only
      split
      · rfl
      · exact shiftHalf_mbx u d _ _) s
    simp only [s1]
    split
    · rfl
    · refine (each_mbx _ _ (fun u x => ?_) _).trans ((applyHalters_mbx moved).trans hmoved)
      split
      · rfl
      · exact takeRow_mbx u x
  clear_value s1
  have h2 : s2.mbx = s1.mbx := each_mbx _ _ (fun _ _ => by split <;> rfl) s1
  clear_value s2
  have h3 : s3.mbx = s2.mbx := by
    simp only [s3]
    split
    · rfl
    · exact each_mbx _ _ (fun _ _ => by split <;> rfl) s2
  exact (each_mbx _ _ (fun u e => discardPreload_mbx u e) s3).trans (h3.trans (h2.trans h1))

/-! ## The object lands -/

/-- What a landed object leaves beside: the mailboxes and the repair list, and the patch count goes on by 1. -/
structure Landed (s t : State) : Prop where
  flat : Flat t
  mbx : t.mbx = s.mbx
  rel : t.rel = s.rel
  seq : t.hub.patchSeq = s.hub.patchSeq + 1

/-- What a landed object may write. -/
def landWrites (q : Part) : Bool := [Part.img, .hub, .flash, .halves, .cores, .spad, .engines, .queues].contains q

theorem landWrites_facts : Fact (landWrites .img = true) ∧ Fact (landWrites .hub = true) ∧ Fact (landWrites .flash = true) ∧ Fact (landWrites .halves = true) ∧
    Fact (landWrites .cores = true) ∧ Fact (landWrites .spad = true) ∧ Fact (landWrites .engines = true) ∧ Fact (landWrites .queues = true) :=
  ⟨⟨rfl⟩, ⟨rfl⟩, ⟨rfl⟩, ⟨rfl⟩, ⟨rfl⟩, ⟨rfl⟩, ⟨rfl⟩, ⟨rfl⟩⟩

theorem afterPatch_hub (h : Flat s) (before : Image) (sec : Nat) : (s.afterPatch before sec).hub = s.hub := by
  have : Fact ((fun q => q ≠ Part.hub) Part.halves) := ⟨by decide⟩
  have : Fact ((fun q => q ≠ Part.hub) Part.cores) := ⟨by decide⟩
  have : Fact ((fun q => q ≠ Part.hub) Part.spad) := ⟨by decide⟩
  have : Fact ((fun q => q ≠ Part.hub) Part.engines) := ⟨by decide⟩
  have : Fact ((fun q => q ≠ Part.hub) Part.queues) := ⟨by decide⟩
  exact (afterPatch_keeps (P := False) (W := fun q => q ≠ .hub) (Keeps.rfl' h) before sec).same .hub (fun h => h rfl)

theorem recordPatch_seq (h : Flat s) {i : Image} (hi : i.Ok) (hj : s.journalRoom o = true) : (s.recordPatch o i).hub.patchSeq = s.hub.patchSeq + 1 := by
  have _ := anyPart_fact
  rw [State.recordPatch, if_pos hj]
  have hk : Keeps False anyPart s (s.journalAppend o) := journalAppend_keeps (Keeps.rfl' h) o
  have hseq : (s.journalAppend o).hub.patchSeq = s.hub.patchSeq := by rw [State.journalAppend]; rfl
  generalize s.journalAppend o = a at hk hseq
  have hf : Flat { a with img := i, hub := { a.hub with patchSeq := a.hub.patchSeq + 1 } } :=
    (hub_keeps (P := False) (W := anyPart) (img_keeps (Keeps.rfl' hk.flat) i hi) _).flat
  rw [show State.hub (State.raise _ _ _ _) = _ from raise_same hf .patchApplied _ _ .hub]
  exact congrArg (· + 1) hseq

theorem landObject_landed (h : Flat s) (hx : s.landObject o = .ok t) : Landed s t := by
  obtain ⟨_, _, _, _, _, _, _, _⟩ := landWrites_facts
  have hk : Keeps False (fun q => landWrites q = true) s t := landObject_keeps (Keeps.rfl' h) hx
  unfold State.landObject at hx
  split at hx
  · cases hx
  · next i hp =>
    split at hx
    · next hj =>
      injection hx with hx
      have hi := patchCheck_ok ⟨h.topo, h.recs, h.xlat⟩ hp
      have hrec : Flat (s.recordPatch o i) := (recordPatch_keeps (W := fun q => landWrites q = true) (P := False) (Keeps.rfl' h) o i hi).flat
      have hafter : (State.afterPatch (s.recordPatch o i) s.img (poSection o)).hub = (s.recordPatch o i).hub := afterPatch_hub hrec _ _
      subst hx
      exact ⟨hk.flat, (afterPatch_mbx _ _ _).trans (recordPatch_mbx s o i), hk.same .rel Bool.false_ne_true,
        (congrArg Hub.patchSeq hafter).trans (recordPatch_seq h hi hj)⟩
    · cases hx

end Sys2Proof.Machine
end

section
/-!
SUPPORT and PROOFS. PATCH and PATCH_LANDING (R60, R63, R64, R469, R505).
-/
namespace Sys2Proof.Machine

variable {s t u : State} {c : Cmd} {r : Req} {o : Bytes} {p : PatchWait} {e : Nat}

/-! ## What brought a patch ends -/

/-- The end of a patch that landed in `t` leaves the patch in force and the list of those in wait, and takes its command. -/
structure PatchEnds (t u : State) (cmd : Option Cmd) : Prop where
  flat : Flat u
  patched : u.patchedAs t
  rel : u.rel = t.rel
  gone : ∀ c, cmd = some c → c ∉ u.mbx.privs

theorem endWindowReq_ends (h : Flat t) (req : Option Req) (rc : Nat) (b : Bytes) (cmd : Option Cmd) (hc : ∀ c, cmd = some c → c ∉ t.mbx.privs) :
    PatchEnds t (t.endWindowReq req rc b) cmd := by
  have hk := endWindowReq_keeps_own h req rc b
  refine ⟨hk.flat, ⟨hk.same .hub Bool.false_ne_true, hk.same .flash Bool.false_ne_true, imageStays_of_img (hk.same .img Bool.false_ne_true)⟩,
    hk.same .rel Bool.false_ne_true, fun c hin => ?_⟩
  rw [endWindowReq_privs]
  exact hc c hin

theorem endPatch_ends (h : Flat t) (cmd : Option Cmd) (req : Option Req) : PatchEnds t (t.endPatch cmd req none) cmd := by
  rcases cmd with _ | c
  · exact endWindowReq_ends h req rcOk (zeros 4) none (fun c hc => nomatch hc)
  · have hf := (finishPriv_leaves h c { status := stOk }).flat
    have hw := endWindowReq_ends hf req rcOk (zeros 4) (some c) (fun x hx => by
      injection hx with hx
      subst hx
      exact finishPriv_privs h c _)
    obtain ⟨hhub, hflash, himg⟩ := hw.patched
    exact ⟨hw.flat, ⟨hhub.trans (finishPriv_same h c _ .hub rfl), hflash.trans (finishPriv_same h c _ .flash rfl), (finishPriv_image h c _).trans himg⟩,
      hw.rel.trans (finishPriv_same h c _ .rel rfl), hw.gone⟩

theorem afterLanding_done (hs : p.swaps = []) : s.afterLanding p = s.endPatch p.cmd p.req none := by
  rw [State.afterLanding, hs]
  rfl

theorem land_object {found : List RowFail} (hsrc : p.src = .object o) (hx : s.landObject o = .ok t) (hs : p.swaps = []) :
    s.land p found = (s.marchNew t found).endPatch p.cmd p.req none := by
  rw [State.land, hsrc]
  dsimp only
  rw [hx]
  exact afterLanding_done hs

theorem foldl_marches_nil (ds : List Nat) (x : MarchOut) : ds.foldl (fun o d => o.marches true d []) x = x := by
  induction ds with
  | nil => rfl
  | cons d ds ih => exact ih

/-- Marches that find nothing change nothing. -/
theorem marchNew_nil (s t : State) : s.marchNew t [] = t :=
  congrArg MarchOut.st (foldl_marches_nil (upto 32) (MarchOut.start t))

/-! ## PATCH -/

theorem exec_patch_refused {f : Fail} (hl : s.live = true) (hc : s.newPatch = some c) (ho : s.openPatch (fld c.desc 0x20 8) = .error f) :
    ∃ u, exec .patch s = .next (u.finishPriv c f.done) ∧ (Flat s → Flat u ∧ u.hub = s.hub) := by
  have hx : exec .patch s = execPatch s := rfl
  have hrep : (!s.repairing) = false := congrArg not hl
  rw [hx, execPatch, hc]
  dsimp only
  rw [hrep, if_neg Bool.false_ne_true, ho]
  refine ⟨_, rfl, fun h => ?_⟩
  have hk : Keeps False (fun _ => False) s (if f.status = stImage then
      (match s.readPatch (fld c.desc 0x20 8) with
        | .ok o => s.refusePatch o f.detail
        | .error _ => s)
    else s.xlatFault f.addr false .hub ((s.xlatCause f.addr false false).getD 0)) := by
    split
    · split
      · exact refusePatch_keeps (Keeps.rfl' h) _ _
      · exact Keeps.rfl' h
    · exact xlatFault_keeps (Keeps.rfl' h) _ _ _ _
  exact ⟨hk.flat, hk.same .hub not_false⟩

theorem beginPatch_now {n : PatchNeed} {cmd : Option Cmd} {req : Option Req} (he : n.engines = []) (hs : n.swaps = []) (hx : s.landObject o = .ok t) :
    s.beginPatch o n cmd req = t.endPatch cmd req none := by
  unfold State.beginPatch
  extract_lets p
  rw [he]
  refine (land_object (p := p) rfl hx hs).trans ?_
  rw [marchNew_nil]

theorem exec_patch {n : PatchNeed} (hl : s.live = true) (hc : s.newPatch = some c) (ho : s.openPatch (fld c.desc 0x20 8) = .ok (o, n))
    (hh : s.patchHeld o = false) (he : n.engines = []) (hs : n.swaps = []) (hx : (s.patchNote (fld c.desc 0x20 8)).landObject o = .ok t) :
    exec .patch s = .next (t.endPatch (some c) none none) := by
  have hexec : exec .patch s = execPatch s := rfl
  have hrep : (!s.repairing) = false := congrArg not hl
  rw [hexec, execPatch, hc]
  dsimp only
  rw [hrep, if_neg Bool.false_ne_true, ho]
  exact congrArg Host.Outcome.next ((if_neg (Bool.eq_false_iff.1 hh)).trans (beginPatch_now he hs hx))

theorem patchNote_keeps_all (h : Flat s) (a : Nat) : Keeps False (fun _ => False) s (s.patchNote a) := patchNote_keeps (Keeps.rfl' h) a

/-! ## PATCH as a request -/

theorem exec_patchRequest_refused {f : Fail} (hr : s.headReq rqPatch = some r) (hw : s.mbx.windowReq = none)
    (ho : s.openPatch (fld (mBody r.msg) 0 8) = .error f) : ∃ u rc b, exec .patchRequest s = .next (u.endReq r rc b) ∧
      (Flat s → Flat u ∧ u.hub = s.hub ∧ u.mbx = s.mbx) := by
  have hx : exec .patchRequest s = execPatchRequest s := rfl
  rw [hx, execPatchRequest, hr]
  dsimp only
  rw [hw, if_neg (by decide), ho]
  dsimp only
  split
  · split
    · next o _ =>
      refine ⟨_, _, _, rfl, fun h => ?_⟩
      have hk : Keeps False (fun _ => False) s (s.refusePatch o f.detail) := refusePatch_keeps (Keeps.rfl' h) _ _
      refine ⟨hk.flat, hk.same .hub not_false, ?_⟩
      unfold State.refusePatch
      split
      · exact raise_mbx (by decide) _ _ _
      · rfl
    · exact ⟨s, _, _, rfl, fun h => ⟨h, rfl, rfl⟩⟩
  · refine ⟨_, _, _, rfl, fun h => ?_⟩
    have hk : Keeps False (fun _ => False) s (s.xlatFault f.addr false .hub ((s.xlatCause f.addr false false).getD 0)) := xlatFault_keeps (Keeps.rfl' h) _ _ _ _
    exact ⟨hk.flat, hk.same .hub not_false, xlatFault_mbx _ _ _ _ _⟩

theorem exec_patchRequest {n : PatchNeed} (hr : s.headReq rqPatch = some r) (hw : s.mbx.windowReq = none)
    (ho : s.openPatch (fld (mBody r.msg) 0 8) = .ok (o, n)) (hh : s.patchHeld o = false) (he : n.engines = []) (hs : n.swaps = [])
    (hx : ((s.patchNote (fld (mBody r.msg) 0 8)).windowed r).landObject o = .ok t) :
    exec .patchRequest s = .next (t.endPatch none (some r) none) := by
  have hexec : exec .patchRequest s = execPatchRequest s := rfl
  rw [hexec, execPatchRequest, hr]
  dsimp only
  rw [hw, if_neg (by decide), ho]
  exact congrArg Host.Outcome.next ((if_neg (Bool.eq_false_iff.1 hh)).trans (beginPatch_now he hs hx))

theorem endWindowReq_lineFrom (h : Flat s) (r : Req) (rc : Nat) (b : Bytes) : lineFrom s (s.endWindowReq (some r) rc b) := by
  have h1 : Flat (s.modMbx (fun m => { m with windowReq := none })) := { h with }
  have h0 : lineFrom s (s.modMbx (fun m => { m with windowReq := none })) := ⟨fun _ h => h, fun _ h => .inl h⟩
  rw [endWindowReq_some]
  exact (h0.trans (reply_line h1 r rc b).1).trans (serveHead_line (reply_flat h1 r rc b))

theorem windowed_lineFrom (h : Flat s) (r : Req) : lineFrom s (s.windowed r) := (background_lineFrom h r).trans ⟨fun _ h => h, fun _ h => .inl h⟩

/-- A request that waited in the background, and whose mailboxes stood still since, has left the line once it is answered. -/
theorem answered_leftLine {u : State} (hu : u.mbx = s.mbx) (fu : Flat u) (r : Req) (ft : Flat t) (ht : t.mbx = (u.windowed r).mbx)
    (rc : Nat) (b : Bytes) : s.leftLine (t.endWindowReq (some r) rc b) r := by
  intro htried
  have hline : lineFrom s (u.windowed r) := (lineFrom_of_base (base_of_mbx hu)).trans (windowed_lineFrom fu r)
  have hrest : lineFrom (u.windowed r) (t.endWindowReq (some r) rc b) := (lineFrom_of_base (base_of_mbx ht)).trans (endWindowReq_lineFrom ft r rc b)
  refine lineFrom.stays_out hline hrest htried (windowed_leftLine fu r ?_)
  rw [h2f_of_mbx (congrArg Mbx.h2f hu)]
  exact htried

/-! ## PATCH_LANDING -/

/-- From `s` no patch came into the list of those in wait but for the records of halters. -/
structure HaltersCome (s t : State) : Prop where
  flat : Flat t
  patches : ∀ p ∈ t.rel.patches, (∀ g, p.src ≠ .halter g) → p ∈ s.rel.patches

theorem HaltersCome.refl (h : Flat s) : HaltersCome s s := ⟨h, fun _ h _ => h⟩

theorem HaltersCome.trans {q : State} (h : HaltersCome q s) (k : HaltersCome s t) : HaltersCome q t :=
  ⟨k.flat, fun p hp hg => h.patches p (k.patches p hp hg) hg⟩

theorem haltersCome_of_rel (h : Flat t) (hr : t.rel = s.rel) : HaltersCome s t := ⟨h, fun p hp _ => by rw [hr] at hp; exact hp⟩

theorem landHalter_rel (h : Flat s) (g : Halter) : HaltersCome s (s.landHalter g) := by
  obtain ⟨_, _, _⟩ := ownTopoWrites_facts
  have hk : Keeps False (fun q => ownTopoWrites q = true) s (s.landHalter g) := landHalter_keeps (Keeps.rfl' h) g
  exact haltersCome_of_rel hk.flat (hk.same .rel Bool.false_ne_true)

theorem recordHalter_come (h : Flat s) (g : Halter) : HaltersCome s (s.recordHalter g) := by
  unfold State.recordHalter
  split
  · split
    · exact landHalter_rel h g
    · refine ⟨{ h with }, fun p hp hg => ?_⟩
      rcases List.mem_append.1 hp with hp | hp
      · exact hp
      · rw [List.mem_singleton.1 hp] at hg
        exact absurd rfl (hg g)
  · exact landHalter_rel h g

theorem queueColumn_patches (s : State) (k : PhysCore) (cmds : List Cmd) (req : Option Req) : (s.queueColumn k cmds req).rel.patches = s.rel.patches := by
  unfold State.queueColumn
  extract_lets same
  split <;> rfl

theorem halter_come (h : Flat s) (k : PhysCore) (reason : Nat) : HaltersCome s (s.halter k reason [] none) := by
  have _ := anyPart_fact
  have hflat : Flat (s.halter k reason [] none) := (halter_keeps (P := False) (W := anyPart) (Keeps.rfl' h) k reason [] none).flat
  have hh := halt_halted h k reason
  have hf : Flat (s.halt k reason) := (halt_keeps (P := False) (W := anyPart) (Keeps.rfl' h) k reason).flat
  have h1 : HaltersCome s (s.halt k reason) := haltersCome_of_rel hf hh.rel
  refine ⟨hflat, fun p hp hg => ?_⟩
  unfold State.halter at hp
  extract_lets new s1 at hp
  rw [queueColumn_patches] at hp
  have hor : p ∈ s1.rel.patches := by
    split at hp
    · exact (recordHalter_come hf _).patches p hp hg
    · exact hp
  exact h1.patches p hor hg

theorem find_come {x : MarchOut} (h : HaltersCome s x.st) (f : RowFail) : HaltersCome s (x.find f).st := by
  have _ := anyPart_fact
  refine h.trans (haltersCome_of_rel (MarchOut_find_keeps (P := False) (W := anyPart) (Keeps.rfl' h.flat) f).flat ?_)
  have : Fact ((fun q => q = Part.halves) Part.halves) := ⟨rfl⟩
  exact (MarchOut_find_keeps (P := False) (W := fun q => q = .halves) (Keeps.rfl' h.flat) f).same .rel (by decide)

theorem mend_come {x : MarchOut} (h : HaltersCome s x.st) (repair : Bool) (m : Nat) (f : RowFail) : HaltersCome s (x.mend repair m f).st := by
  unfold MarchOut.mend
  split
  · exact h
  · split
    · next k _ =>
      split
      · exact h
      · obtain ⟨_, _, _, _, _, _, _, _⟩ := landWrites_facts
        refine h.trans ?_
        have hk := bump_keeps (remap_keeps (P := False) (W := fun q => landWrites q = true) (Keeps.rfl' h.flat)
          ⟨f.yh, f.pcol, f.row, f.bank, k, f.bankRow⟩) .half f.yh 28
        exact haltersCome_of_rel hk.flat (hk.same .rel Bool.false_ne_true)
    · exact h.trans (halter_come h.flat _ _)

theorem foldl_come {α : Type} (f : MarchOut → α → MarchOut) (hf : ∀ y a, HaltersCome t y.st → HaltersCome t (f y a).st) :
    ∀ (xs : List α) (y : MarchOut), HaltersCome t y.st → HaltersCome t (xs.foldl f y).st
  | [], _, hy => hy
  | a :: xs, y, hy => foldl_come f hf xs (f y a) (hf y a hy)

theorem march_come {x : MarchOut} (h : HaltersCome t x.st) (repair : Bool) (d b m : Nat) (found : List RowFail) :
    HaltersCome t (x.march repair d b m found).st := by
  unfold MarchOut.march
  extract_lets rows
  split
  · exact h
  · exact foldl_come _ (fun y f hy => mend_come hy repair m f) _ _ (foldl_come _ (fun y f hy => find_come hy f) _ _ h)

theorem marches_come {x : MarchOut} (h : HaltersCome t x.st) (repair : Bool) (d : Nat) (found : List RowFail) :
    HaltersCome t (x.marches repair d found).st := by
  unfold MarchOut.marches
  split
  · exact h
  · exact foldl_come _ (fun y b hy => foldl_come _ (fun z m hz => march_come hz repair d b m _) _ y hy) _ x h

theorem marchNew_come (h : Flat t) (s : State) (found : List RowFail) : HaltersCome t (s.marchNew t found) :=
  foldl_come _ (fun _ d hy => marches_come hy true d _) (upto 32) (MarchOut.start t) (.refl h)

theorem patchFor_mem (h : s.patchFor e = some p) : p ∈ s.rel.patches := List.mem_of_find?_eq_some h

theorem dropPatch_gone (s : State) (p : PatchWait) : p ∉ (s.dropPatch p).rel.patches := fun hp => by
  simpa using (List.mem_filter.1 hp).2

theorem exec_patchLanding_waits {found : List RowFail} (hl : s.live = true) (hp : s.patchFor e = some p) (hb : s.boundary e = true)
    (hall : p.engines.all (fun x => (p.held ++ [e]).contains x) = false) : exec (.patchLanding e found) s = .next
      ((s.modRel (fun r => { r with patches := r.patches.map (fun y => if y = p then { p with held := p.held ++ [e] } else y) })).discardPreload e) := by
  have hx : exec (.patchLanding e found) s = execPatchLanding e found s := rfl
  have hgo : ¬((!s.repairing) = true ∨ (!s.boundary e) = true) := by
    rw [show s.repairing = true from hl, hb]
    decide
  rw [hx, execPatchLanding, hp]
  exact congrArg Host.Outcome.next ((if_neg hgo).trans (if_neg (Bool.eq_false_iff.1 hall)))

theorem exec_patchLanding_lands {found : List RowFail} (hl : s.live = true) (hp : s.patchFor e = some p) (hb : s.boundary e = true)
    (hall : p.engines.all (fun x => (p.held ++ [e]).contains x) = true) : exec (.patchLanding e found) s = .next
      (((s.dropPatch p).land { p with held := p.held ++ [e] } found).dropItemsOf 4 p.cmd.toList p.req) := by
  have hx : exec (.patchLanding e found) s = execPatchLanding e found s := rfl
  have hgo : ¬((!s.repairing) = true ∨ (!s.boundary e) = true) := by
    rw [show s.repairing = true from hl, hb]
    decide
  rw [hx, execPatchLanding, hp]
  exact congrArg Host.Outcome.next ((if_neg hgo).trans (if_pos hall))

/-- What the items of a patch write as they leave. -/
def dropWrites (q : Part) : Bool := [Part.engines, .rel].contains q

theorem dropItemsOf_keeps_own (h : Flat s) (kind : Nat) (cmds : List Cmd) (req : Option Req) :
    Keeps False (fun q => dropWrites q = true) s (s.dropItemsOf kind cmds req) := by
  have : Fact (dropWrites .engines = true) := ⟨rfl⟩
  have : Fact (dropWrites .rel = true) := ⟨rfl⟩
  exact dropItemsOf_keeps (Keeps.rfl' h) kind cmds req

theorem closeWindow_patches (s : State) (e : Nat) : (s.closeWindow e).rel.patches = s.rel.patches := by
  unfold State.closeWindow
  split <;> rfl

theorem dropItem_patches (s : State) (i : RepairItem) : (s.dropItem i).rel.patches = s.rel.patches := closeWindow_patches _ i.engine

theorem dropItemsOf_patches (s : State) (kind : Nat) (cmds : List Cmd) (req : Option Req) :
    (s.dropItemsOf kind cmds req).rel.patches = s.rel.patches :=
  each_induct (R := fun t => t.rel.patches = s.rel.patches) (fun u i ht => (dropItem_patches u i).trans ht) _ rfl

/-- A patch that waits for another engine is held for by this one. -/
theorem patchHolds (h : Flat s) (hp : p ∈ s.rel.patches) (e : Nat) (q : PatchWait) : ∀ u, u =
    (s.modRel (fun r => { r with patches := r.patches.map (fun y => if y = p then q else y) })).discardPreload e →
    q ∈ u.rel.patches ∧ u.img = s.img ∧ u.hub = s.hub := by
  rintro u rfl
  have hf : Flat (s.modRel (fun r => { r with patches := r.patches.map (fun y => if y = p then q else y) })) := { h with }
  have : Fact ((fun q => q = Part.engines ∨ q = Part.queues) Part.engines) := ⟨.inl rfl⟩
  have : Fact ((fun q => q = Part.engines ∨ q = Part.queues) Part.queues) := ⟨.inr rfl⟩
  have hk := discardPreload_keeps (P := False) (W := fun q => q = .engines ∨ q = .queues) (Keeps.rfl' hf) e
  refine ⟨?_, hk.same .img (by decide), hk.same .hub (by decide)⟩
  rw [show State.rel _ = _ from hk.same .rel (by decide)]
  exact List.mem_map.2 ⟨p, hp, if_pos rfl⟩

/-- An object lands with the last engine that it concerns. -/
theorem patchLands (h : Flat s) (hsrc : p.src = .object o) (hs : p.swaps = []) (hx : (s.dropPatch p).landObject o = .ok t) (held : List Nat)
    (found : List RowFail) : ∀ u, u = ((s.dropPatch p).land { p with held := held } found).dropItemsOf 4 p.cmd.toList p.req →
      p ∉ u.rel.patches ∧ (∀ c, p.cmd = some c → c ∉ u.mbx.privs) ∧ (found = [] → u.patchedAs t ∧ t.hub.patchSeq = s.hub.patchSeq + 1) := by
  rintro u rfl
  have hf : Flat (s.dropPatch p) := { h with }
  have hland := landObject_landed hf hx
  have hcome := marchNew_come hland.flat (s.dropPatch p) found
  have hend := endPatch_ends hcome.flat p.cmd p.req
  have hdrop := dropItemsOf_keeps_own hend.flat 4 p.cmd.toList p.req
  rw [land_object (p := { p with held := held }) hsrc hx hs]
  refine ⟨fun hp => ?_, fun c hc => ?_, fun hnil => ⟨?_, hland.seq⟩⟩
  · rw [dropItemsOf_patches, hend.rel] at hp
    have hp := hcome.patches p hp (fun g hg => by rw [hsrc] at hg; cases hg)
    rw [hland.rel] at hp
    exact dropPatch_gone s p hp
  · rw [dropItemsOf_mbx]
    exact hend.gone c hc
  · obtain ⟨hhub, hflash, himg⟩ := hend.patched
    subst hnil
    rw [marchNew_nil] at hhub hflash himg hdrop ⊢
    exact ⟨(hdrop.same .hub Bool.false_ne_true).trans hhub, (hdrop.same .flash Bool.false_ne_true).trans hflash,
      imageStays.trans himg (imageStays_of_img (hdrop.same .img Bool.false_ne_true))⟩

theorem recordPatch_img (h : Flat s) {i : Image} (hi : i.Ok) : (s.recordPatch o i).img = i := by
  have _ := anyPart_fact
  unfold State.recordPatch
  split
  · have hk : Keeps False anyPart s (s.journalAppend o) := journalAppend_keeps (Keeps.rfl' h) o
    exact raise_same (hub_keeps (P := False) (W := anyPart) (img_keeps (Keeps.rfl' hk.flat) i hi) _).flat _ _ _ .img
  · have h2 : Flat { s with img := i } := (img_keeps (P := False) (W := anyPart) (Keeps.rfl' h) i hi).flat
    exact raise_same h2 _ _ _ .img

theorem landHalter_lands (h : Flat s) (g : Halter) (hu : (s.topo g.yh).use.getLsbD g.pcol = true) :
    (s.landHalter g).img.halters.any (fun x => decide (x.yh = g.yh ∧ x.pcol = g.pcol ∧ x.row = g.row)) = true := by
  unfold State.landHalter
  split
  · next hin =>
    rcases hin with hin | hin
    · exact hin
    · rw [hu] at hin
      exact absurd hin (by decide)
  · have hi : Image.Ok { s.img with halters := s.img.halters ++ [g] } := ⟨h.topo, h.recs, h.xlat⟩
    rw [State.ownTopo, recordPatch_img h hi]
    simp

/-- A record of a halter lands with the last engine that it concerns. -/
theorem halterLands (h : Flat s) {g : Halter} (hsrc : p.src = .halter g) (held : List Nat) (found : List RowFail) : ∀ u,
    u = ((s.dropPatch p).land { p with held := held } found).dropItemsOf 4 p.cmd.toList p.req → p ∉ u.rel.patches ∧
      ((s.topo g.yh).use.getLsbD g.pcol = true → u.img.halters.any (fun x => decide (x.yh = g.yh ∧ x.pcol = g.pcol ∧ x.row = g.row)) = true) := by
  rintro u rfl
  have hf : Flat (s.dropPatch p) := { h with }
  have : Fact ((fun q => q = Part.engines ∨ q = Part.queues) Part.engines) := ⟨.inl rfl⟩
  have : Fact ((fun q => q = Part.engines ∨ q = Part.queues) Part.queues) := ⟨.inr rfl⟩
  have hland : (s.dropPatch p).land { p with held := held } found =
      ((s.dropPatch p).each ((s.dropPatch p).enginesOf [g.yh]) (fun s e => s.discardPreload e)).landHalter g := by
    rw [State.land]
    dsimp only
    rw [hsrc]
  have hk := each_keeps (P := False) (W := fun q => q = .engines ∨ q = .queues) ((s.dropPatch p).enginesOf [g.yh]) _
    (fun _ e hu => discardPreload_keeps hu e) (Keeps.rfl' hf)
  rw [hland]
  generalize (s.dropPatch p).each ((s.dropPatch p).enginesOf [g.yh]) (fun s e => s.discardPreload e) = a at hk
  have hrel := landHalter_rel hk.flat g
  have hdrop := dropItemsOf_keeps_own hrel.flat 4 p.cmd.toList p.req
  refine ⟨fun hp => ?_, fun hu => ?_⟩
  · rw [dropItemsOf_patches] at hp
    obtain ⟨_, _, _⟩ := ownTopoWrites_facts
    rw [(landHalter_keeps (P := False) (W := fun q => ownTopoWrites q = true) (Keeps.rfl' hk.flat) g).same .rel Bool.false_ne_true,
      show a.rel = _ from hk.same .rel (by decide)] at hp
    exact dropPatch_gone s p hp
  · rw [show State.img (State.dropItemsOf _ _ _ _) = _ from hdrop.same .img Bool.false_ne_true]
    refine landHalter_lands hk.flat g ?_
    rw [State.topo, show a.img = _ from hk.same .img (by decide)]
    exact hu

/-! ## O20 -/

/-- Settles O20: an object that passes lands as `landObject` gives it, what ends its command or request touches no other word of the image than the
owners of its pages (`finishPriv_image`), and a patch that waits leaves the list with the last engine (`patchLands`, `halterLands`). -/
theorem patchCompletes : Obligations.PatchCompletes := by
  unfold Obligations.PatchCompletes
  refine ⟨fun s hinv hl => ?_, fun s e p found hinv hl hp hb => ?_⟩
  · have h : Flat s := (flat_iff s).2 hinv
    refine ⟨fun c f hc ho => ?_, fun c o n t hc ho hh he hs hx => ?_, fun r f hr hw ho => ?_, fun r o n t hr hw ho hh he hs hx => ?_⟩
    · obtain ⟨u, hx, hu⟩ := exec_patch_refused hl hc ho
      obtain ⟨fu, hhub⟩ := hu h
      exact ⟨_, hx, finishPriv_privs fu c f.done, (finishPriv_same fu c f.done .hub rfl).trans hhub⟩
    · have hk := patchNote_keeps_all h (fld c.desc 0x20 8)
      have hland := landObject_landed hk.flat hx
      have hend := endPatch_ends hland.flat (some c) none
      exact ⟨_, exec_patch hl hc ho hh he hs hx, hend.gone c rfl, hend.patched, hland.seq.trans (congrArg (fun y => Hub.patchSeq y + 1) (hk.same .hub not_false))⟩
    · obtain ⟨u, rc, b, hx, hu⟩ := exec_patchRequest_refused hr hw ho
      obtain ⟨fu, hhub, hmbx⟩ := hu h
      exact ⟨_, hx, endReq_leftLine_of_mbx fu hmbx r rc b, ((endReq_keeps_own fu r rc b).same .hub Bool.false_ne_true).trans hhub⟩
    · have hk := patchNote_keeps_all h (fld (mBody r.msg) 0 8)
      have hwin := windowed_keeps hk.flat r
      have hland := landObject_landed hwin.flat hx
      have hend := endPatch_ends hland.flat none (some r)
      have hnote : (s.patchNote (fld (mBody r.msg) 0 8)).mbx = s.mbx := by
        unfold State.patchNote
        split
        · exact devNote_mbx _ _ _
        · rfl
      have hseq : ((s.patchNote (fld (mBody r.msg) 0 8)).windowed r).hub = s.hub := (hwin.same .hub Bool.false_ne_true).trans (hk.same .hub not_false)
      exact ⟨_, exec_patchRequest hr hw ho hh he hs hx, answered_leftLine hnote hk.flat r hland.flat hland.mbx rcOk (zeros 4),
        congrArg (fun x => x.2.2.1) (endWindowReq_held t r rcOk (zeros 4)), hend.patched, hland.seq.trans (congrArg (fun y => Hub.patchSeq y + 1) hseq)⟩
  · have h : Flat s := (flat_iff s).2 hinv
    refine ⟨fun hall => ?_, fun o t hall hs hsrc hx => ?_, fun g hall hsrc => ?_⟩
    · exact ⟨_, exec_patchLanding_waits hl hp hb hall, patchHolds h (patchFor_mem hp) e _ _ rfl⟩
    · exact ⟨_, exec_patchLanding_lands hl hp hb hall, patchLands h hsrc hs hx _ found _ rfl⟩
    · exact ⟨_, exec_patchLanding_lands hl hp hb hall, halterLands h hsrc _ found _ rfl⟩

end Sys2Proof.Machine
end

section
/-!
SUPPORT and PROOFS. The marches of the farrier (R303, R304, R309).
-/
namespace Sys2Proof.Machine

variable {s t u : State} {c : Cmd} {d : Nat} {found : List RowFail}

/-! ## The halves one after another -/

/-- What a step leaves of a half, and the steps of the others keep of it, holds of each half of the list in the end. -/
theorem each_half {Q : Half → Prop} {f : State → Nat → State} (hk : ∀ s k, Flat s → Flat (f s k)) (hd : ∀ s k, Flat s → Q ((f s k).half k))
    (ho : ∀ s k d, Flat s → Q (s.half d) → Q ((f s k).half d)) {ds : List Nat} (hm : d ∈ ds) (h : Flat s) : Q ((s.each ds f).half d) := by
  obtain ⟨as, bs, rfl⟩ := List.append_of_mem hm
  have hsplit : s.each (as ++ d :: bs) f = (f (s.each as f) d).each bs f := List.foldl_append
  have ha : Flat (s.each as f) := each_induct (fun s k hs => hk s k hs) as h
  rw [hsplit]
  exact (each_induct (R := fun t => Flat t ∧ Q (t.half d)) (fun t k ht => ⟨hk t k ht.1, ho t k d ht.1 ht.2⟩) bs ⟨hk _ d ha, hd _ d ha⟩).2

/-- A change of one half by one function, over a list: each half of it has what the function gives. -/
theorem each_modHalf {Q : Half → Prop} (g : State → Nat → Half → Half) (hg : ∀ s k x, Q (g s k x)) {ds : List Nat} (hm : d ∈ ds) (h : Flat s) :
    Q ((s.each ds (fun s k => s.modHalf k (g s k))).half d) := by
  refine each_half (fun s k hs => modHalf_flat hs k _) (fun s k hs => ?_) (fun s k d hs hq => ?_) hm h
  · rw [modHalf_half hs]
    exact hg s k _
  · by_cases hk : k = d
    · subst hk
      rw [modHalf_half hs]
      exact hg s k _
    · rw [State.modHalf, half_setHalf_ne _ _ _ _ (Ne.symm hk)]
      exact hq

/-! ## The march begins -/

theorem marchCheck_mask (h : s.marchCheck c.tack = none) : maskHalves c ≠ [] := by
  have hmask := chk_none (firstOf_none h _ List.mem_cons_self)
  obtain ⟨i, hi⟩ := Nat.exists_testBit_of_ne_zero (of_decide_eq_true hmask)
  have hlt : i < 32 := by
    by_contra hge
    have hv : fld c.tack 0 4 < 2 ^ i := (show fld c.tack 0 4 < 2 ^ 32 from fld_lt c.tack 0 4).trans_le (Nat.pow_le_pow_right (by decide) (by omega))
    rw [Nat.testBit_lt_two_pow hv] at hi
    cases hi
  have hin : i ∈ maskHalves c := by
    refine List.mem_filter.2 ⟨by simpa [upto] using hlt, ?_⟩
    rw [Nat.testBit_eq_decide_div_mod_eq] at hi
    exact beq_iff_eq.2 (of_decide_eq_true hi)
  exact List.ne_nil_of_mem hin

theorem newMarch_op {mode : Nat} (h : s.newMarch mode = some c) : dOp c.desc = opMarch ∧ (fld c.tack 4 1 = mode ∨ (mode = 0 ∧ 2 ≤ fld c.tack 4 1)) := by
  have hc := List.find?_some h
  simp only [Bool.and_eq_true, Bool.or_eq_true, beq_iff_eq, decide_eq_true_eq] at hc
  exact ⟨hc.1.1, hc.1.2⟩

theorem privCheck_march (hc : dOp c.desc = opMarch) : s.privCheck c = s.marchCheck c.tack := by
  have hne : ¬opMarch = opRepair := by decide
  rw [State.privCheck, hc]
  exact (if_neg hne).trans (if_pos rfl)

theorem march_begins (hk : s.privCheck c = none) (hm : s.marching c = false) (hr : s.marchReady c = true) : s.march c found = s.beginMarch c := by
  rw [State.march, hk]
  exact (if_neg (Bool.eq_false_iff.1 hm)).trans (if_pos hr)

theorem march_runs (hk : s.privCheck c = none) (hm : s.marching c = true) : s.march c found = s.runMarch c found none := by
  rw [State.march, hk]
  exact if_pos hm

theorem exec_march {i : Instr} {mode : Nat} (hi : (i = .marchDestructive found ∧ mode = 0) ∨ (i = .marchPreserving found ∧ mode = 1)) (hl : s.live = true)
    (hc : s.newMarch mode = some c) : exec i s = .next (s.march c found) := by
  rcases hi with ⟨rfl, rfl⟩ | ⟨rfl, rfl⟩
  · have hx : exec (.marchDestructive found) s = execMarchDestructive found s := rfl
    rw [hx, execMarchDestructive, hc]
    exact congrArg Host.Outcome.next (if_pos hl)
  · have hx : exec (.marchPreserving found) s = execMarchPreserving found s := rfl
    rw [hx, execMarchPreserving, hc]
    exact congrArg Host.Outcome.next (if_pos hl)

theorem marchWake_flat (h : Flat s) (d : Nat) : Flat (s.marchWake d) :=
  have _ := anyPart_fact
  (marchWake_keeps (P := False) (W := anyPart) (Keeps.rfl' h) d).flat

theorem wakeClock_mbx (s : State) (d : Nat) : (s.wakeClock d).2.mbx = s.mbx := by
  unfold State.wakeClock
  split <;> rfl

theorem marchWake_mbx (s : State) (d : Nat) : (s.marchWake d).mbx = s.mbx := by
  have hb : (s.wakeBegins d).mbx = s.mbx := by
    unfold State.wakeBegins
    split
    · rw [State.modHalf, setHalf_mbx]
      rfl
    · rfl
  unfold State.marchWake
  split
  · rw [wakeHalf_eq, State.modHalf, setHalf_mbx, wakeClock_mbx, hb]
  · rfl

/-- A march that begins has its farriers at work, and stays in Prephor's hands. -/
theorem beginMarch_facts (h : Flat s) (hm : maskHalves c ≠ []) : (s.beginMarch c).marching c = true ∧ (s.beginMarch c).mbx.privs = s.mbx.privs := by
  have _ := anyPart_fact
  unfold State.beginMarch
  extract_lets ds
  have hk : Keeps False anyPart s (s.each (s.enginesOf ds) (fun s e => s.discardPreload e)) :=
    each_keeps _ _ (fun _ e hu => discardPreload_keeps hu e) (Keeps.rfl' h)
  have hw : Keeps False anyPart s ((s.each (s.enginesOf ds) (fun s e => s.discardPreload e)).each ds (fun s d => s.marchWake d)) :=
    each_keeps _ _ (fun _ d hu => marchWake_keeps hu d) hk
  have hmbx : ((s.each (s.enginesOf ds) (fun s e => s.discardPreload e)).each ds (fun s d => s.marchWake d)).mbx = s.mbx :=
    (each_mbx ds _ (fun u d => marchWake_mbx u d) _).trans (each_mbx _ _ (fun u e => discardPreload_mbx u e) s)
  generalize (s.each (s.enginesOf ds) (fun s e => s.discardPreload e)).each ds (fun s d => s.marchWake d) = a at hw hmbx
  refine ⟨Bool.and_eq_true_iff.2 ⟨?_, List.all_eq_true.2 fun d hd => ?_⟩, ?_⟩
  · rw [Bool.not_eq_true', List.isEmpty_eq_false_iff]
    exact hm
  · exact each_modHalf (Q := fun x => x.farrier = true) (fun _ _ x => { x with farrier := true }) (fun _ _ _ => rfl) hd hw.flat
  · exact congrArg Mbx.privs ((each_mbx ds _ (fun u d => setHalf_mbx u d _) a).trans hmbx)

/-! ## What the marches leave in the addressed rows -/

/-- The bytes of the addressed rows, those of the spare rows apart, are the same. -/
def addressedSame (s t : State) : Prop := ∀ k, k < 135168 * spadBytes → sget 0 t.yards.spad k = sget 0 s.yards.spad k

theorem addressedSame_of_spad (h : t.yards.spad = s.yards.spad) : addressedSame s t := fun k _ => by rw [h]

theorem addressedSame.trans (h : addressedSame s t) (k : addressedSame t u) : addressedSame s u := fun i hi => (k i hi).trans (h i hi)

theorem spareKey_ge (n b k o : Nat) : 135168 * spadBytes ≤ spareKey n b k o := by
  unfold spareKey
  omega

/-- A remap fills a spare row, and no addressed one. -/
theorem takeRow_addressed (s : State) (x : RowRepair) : addressedSame s (s.takeRow x) := by
  intro k hk
  unfold State.takeRow
  generalize upto 256 = os
  extract_lets n at_ s1
  have hfold : ∀ (os : List Nat) (m : Sparse Byte), sget 0 (os.foldl (fun m o => sset 0 m (spareKey n x.bank x.spare o) (sget 0 s.yards.spad (at_ o))) m) k = sget 0 m k := by
    intro os
    induction os with
    | nil => exact fun _ => rfl
    | cons o os ih =>
      intro m
      have := spareKey_ge n x.bank x.spare o
      rw [List.foldl_cons, ih, sget_sset_ne _ _ _ _ _ (by omega)]
  have := spareKey_ge n x.bank x.spare 0
  exact (hfold os _).trans (sget_swipe_outside _ _ _ _ (.inl (by omega)))

/-- From `s` the addressed rows have stood still. -/
structure RowsStay (s t : State) : Prop where
  flat : Flat t
  rows : addressedSame s t

theorem RowsStay.refl (h : Flat s) : RowsStay s s := ⟨h, fun _ _ => rfl⟩

theorem RowsStay.step (h : RowsStay s t) {W : Part → Prop} (hk : Keeps False W t u) (hw : ¬W .spad) : RowsStay s u :=
  ⟨hk.flat, h.rows.trans (addressedSame_of_spad (hk.same .spad hw))⟩

/-- What a march may write beside the spare rows. -/
def mendWrites (q : Part) : Bool := [Part.img, .hub, .flash, .halves, .cores, .engines, .rel].contains q

theorem mendWrites_facts : Fact (mendWrites .img = true) ∧ Fact (mendWrites .hub = true) ∧ Fact (mendWrites .flash = true) ∧
    Fact (mendWrites .halves = true) ∧ Fact (mendWrites .cores = true) ∧ Fact (mendWrites .engines = true) ∧ Fact (mendWrites .rel = true) :=
  ⟨⟨rfl⟩, ⟨rfl⟩, ⟨rfl⟩, ⟨rfl⟩, ⟨rfl⟩, ⟨rfl⟩, ⟨rfl⟩⟩

theorem find_rows {x : MarchOut} (h : RowsStay s x.st) (f : RowFail) : RowsStay s (x.find f).st := by
  obtain ⟨_, _, _, _, _, _, _⟩ := mendWrites_facts
  exact h.step (MarchOut_find_keeps (P := False) (W := fun q => mendWrites q = true) (Keeps.rfl' h.flat) f) Bool.false_ne_true

theorem remap_rowsStay (h : RowsStay s t) (x : RowRepair) : RowsStay s (t.remap x) := by
  obtain ⟨_, _, _, _, _, _, _⟩ := mendWrites_facts
  have ht : RowsStay s (t.takeRow x) := ⟨takeRow_flat h.flat x, h.rows.trans (takeRow_addressed t x)⟩
  exact ht.step (ownTopo_keeps (P := False) (W := fun q => mendWrites q = true) (Keeps.rfl' ht.flat) _ ⟨h.flat.topo, h.flat.recs, h.flat.xlat⟩) Bool.false_ne_true

theorem mend_rows {x : MarchOut} (h : RowsStay s x.st) (repair : Bool) (m : Nat) (f : RowFail) : RowsStay s (x.mend repair m f).st := by
  obtain ⟨_, _, _, _, _, _, _⟩ := mendWrites_facts
  unfold MarchOut.mend
  split
  · exact h
  · split
    · next k _ =>
      split
      · exact h
      · have hr := remap_rowsStay h ⟨f.yh, f.pcol, f.row, f.bank, k, f.bankRow⟩
        exact hr.step (bump_keeps (P := False) (W := fun _ => False) (Keeps.rfl' hr.flat) .half f.yh 28) not_false
    · exact h.step (halter_keeps (P := False) (W := fun q => mendWrites q = true) (Keeps.rfl' h.flat) _ _ _ _) Bool.false_ne_true

theorem foldl_rows {α : Type} (f : MarchOut → α → MarchOut) (hf : ∀ y a, RowsStay s y.st → RowsStay s (f y a).st) :
    ∀ (xs : List α) (y : MarchOut), RowsStay s y.st → RowsStay s (xs.foldl f y).st
  | [], _, hy => hy
  | a :: xs, y, hy => foldl_rows f hf xs (f y a) (hf y a hy)

theorem marches_rows {x : MarchOut} (h : RowsStay s x.st) (repair : Bool) (d : Nat) (found : List RowFail) : RowsStay s (x.marches repair d found).st := by
  unfold MarchOut.marches
  split
  · exact h
  · refine foldl_rows _ (fun y b hy => foldl_rows _ (fun z m hz => ?_) _ y hy) _ x h
    unfold MarchOut.march
    extract_lets rows
    split
    · exact hz
    · exact foldl_rows _ (fun y f hy => mend_rows hy repair m f) _ _ (foldl_rows _ (fun y f hy => find_rows hy f) _ _ hz)

/-! ## The destructive mode -/

theorem sget_swipe_inside {α : Type} (d : α) {lo hi k : Nat} (m : Sparse α) (hk : lo ≤ k ∧ k < hi) : sget d (swipe lo hi m) k = d := by
  induction m with
  | nil => rfl
  | cons x m ih =>
    have ih' : sget d (List.filter (fun x => decide (x.1 < lo) || decide (hi ≤ x.1)) m) k = d := ih
    rw [swipe, List.filter_cons]
    split
    · next hx =>
      have hne : x.1 ≠ k := by
        rintro rfl
        simp only [Bool.or_eq_true, decide_eq_true_eq] at hx
        omega
      rw [sget, if_neg hne, ih']
    · exact ih'

/-- The keys of the addressed rows of half `d`. -/
def halfKey (d k : Nat) : Prop := spadKey (physNum d 0 0) 0 ≤ k ∧ k < spadKey (physNum (d + 1) 0 0) 0

theorem halfKey_lt {k : Nat} (hd : d < 32) (h : halfKey d k) : k < 135168 * spadBytes := by
  obtain ⟨_, hhi⟩ := h
  unfold spadKey physNum spadBytes at *
  omega

theorem halfKey_core {p r o : Nat} (hp : p < 66) (hr : r < 64) (ho : o < spadBytes) : halfKey d (spadKey (physNum d p r) o) := by
  unfold halfKey spadKey physNum spadBytes at *
  omega

/-- A half of which every addressed byte reads zero. -/
def HalfZero (d : Nat) (s : State) : Prop := ∀ k, halfKey d k → sget 0 s.yards.spad k = 0

theorem zeroHalf_spad (s : State) (d : Nat) : (s.zeroHalf d).yards.spad =
    swipe (spareKey (physNum d 0 0) 0 0 0) (spareKey (physNum (d + 1) 0 0) 0 0 0) (swipe (spadKey (physNum d 0 0) 0) (spadKey (physNum (d + 1) 0 0) 0) s.yards.spad) := rfl

theorem zeroHalf_zero (s : State) (hd : d < 32) : HalfZero d (s.zeroHalf d) := by
  intro k hk
  have hlt := halfKey_lt hd hk
  have := spareKey_ge (physNum d 0 0) 0 0 0
  rw [zeroHalf_spad, sget_swipe_outside _ _ _ _ (.inl (by omega)), sget_swipe_inside _ _ hk]

theorem sget_swipe_zero {lo hi k : Nat} {m : Sparse Byte} (h : sget 0 m k = 0) : sget 0 (swipe lo hi m) k = 0 := by
  by_cases hk : lo ≤ k ∧ k < hi
  · exact sget_swipe_inside _ _ hk
  · rw [sget_swipe_outside _ _ _ _ (by omega), h]

theorem HalfZero.of_rows (hd : d < 32) (h : HalfZero d s) (hr : addressedSame s t) : HalfZero d t := fun k hk => by
  rw [hr k (halfKey_lt hd hk)]
  exact h k hk

theorem HalfZero.zeroHalf (h : HalfZero d s) (e : Nat) : HalfZero d (s.zeroHalf e) := fun k hk => by
  rw [zeroHalf_spad]
  exact sget_swipe_zero (sget_swipe_zero (h k hk))

theorem half_flat {x : MarchOut} (h : Flat x.st) (d : Nat) (park : Option Nat) (repair : Bool) (found : List RowFail) : Flat (x.half d park repair found).st :=
  have _ := anyPart_fact
  (MarchOut_half_keeps (P := False) (W := anyPart) (Keeps.rfl' h) d park repair found).flat

theorem half_destroys {x : MarchOut} (h : Flat x.st) (hd : d < 32) (repair : Bool) (found : List RowFail) : HalfZero d (x.half d none repair found).st := by
  have hz := zeroHalf_flat h d
  exact (zeroHalf_zero x.st hd).of_rows hd (marches_rows (x := { x with st := x.st.zeroHalf d }) (.refl hz) repair d _).rows

theorem half_keepsZero {x : MarchOut} (h : Flat x.st) (hd : d < 32) (hq : HalfZero d x.st) (e : Nat) (repair : Bool) (found : List RowFail) :
    HalfZero d (x.half e none repair found).st := by
  have hz := zeroHalf_flat h e
  exact (hq.zeroHalf e).of_rows hd (marches_rows (x := { x with st := x.st.zeroHalf e }) (.refl hz) repair e _).rows

/-- Every half that a destructive march visits reads zero. -/
theorem foldl_destroys (repair : Bool) (found : List RowFail) (hd : d < 32) : ∀ (ds : List Nat) (x : MarchOut), Flat x.st → d ∈ ds ∨ HalfZero d x.st →
    HalfZero d (ds.foldl (fun o d => o.half d none repair found) x).st
  | [], _, _, hz => hz.resolve_left (List.not_mem_nil)
  | e :: ds, x, h, hz => by
    refine foldl_destroys repair found hd ds _ (half_flat h e none repair found) ?_
    rcases hz with hm | hz
    · rcases List.mem_cons.1 hm with rfl | hm
      · exact .inr (half_destroys h hd repair found)
      · exact .inl hm
    · exact .inr (half_keepsZero h hd hz e repair found)

/-! ## The preserving mode -/

theorem foldl_id {α β : Type} (f : β → α → β) (hf : ∀ y a, f y a = y) : ∀ (xs : List α) (y : β), xs.foldl f y = y
  | [], _ => rfl
  | a :: xs, y => by rw [List.foldl_cons, hf, foldl_id f hf xs y]

/-- Reads that all give what they should find no row. -/
theorem marches_nothing (x : MarchOut) (repair : Bool) (d : Nat) (hf : ∀ f ∈ found, rowFails f = false) : x.marches repair d found = x := by
  unfold MarchOut.marches
  split
  · rfl
  · refine foldl_id _ (fun y b => foldl_id _ (fun z m => ?_) _ y) _ x
    have hrows : ((found.filter (fun x => x.bank == b)).filter (fun x => x.march == m)).filter rowFails = [] :=
      List.filter_eq_nil_iff.2 fun f hin => by simp [hf f (List.mem_of_mem_filter (List.mem_of_mem_filter hin))]
    unfold MarchOut.march
    rw [hrows]
    exact ite_self _

/-- A key whose content a preserving march of the halves `ds` with PARK `b` keeps. -/
def spared (ds : List Nat) (b k : Nat) : Prop := keyCore k / 4224 ∉ ds ∨ keyBank k ≠ b

theorem sget_filter_kept {α : Type} (d : α) (p : Nat × α → Bool) {k : Nat} (hp : ∀ v, p (k, v) = true) : ∀ m : Sparse α, sget d (m.filter p) k = sget d m k
  | [] => rfl
  | x :: m => by
    rw [List.filter_cons]
    split
    · rw [sget, sget, sget_filter_kept d p hp m]
    · next hx =>
      have hne : x.1 ≠ k := by
        rintro rfl
        exact hx (hp x.2)
      rw [sget_filter_kept d p hp m, sget, if_neg hne]

theorem zeroBanks_spared (s : State) {b k : Nat} (hk : keyCore k / 4224 ≠ d ∨ keyBank k ≠ b) : sget 0 (s.zeroBanks d b).yards.spad k = sget 0 s.yards.spad k := by
  refine sget_filter_kept _ _ (fun v => ?_) s.yards.spad
  rw [Bool.not_eq_true', decide_eq_false_iff_not]
  exact fun ⟨hd, hb⟩ => hk.elim (fun h => h hd) (fun h => h hb)

theorem foldl_preserves (repair : Bool) (hf : ∀ f ∈ found, rowFails f = false) {b k : Nat} : ∀ (ds : List Nat) (x : MarchOut), spared ds b k →
    sget 0 (ds.foldl (fun o d => o.half d (some b) repair found) x).st.yards.spad k = sget 0 x.st.yards.spad k
  | [], _, _ => rfl
  | d :: ds, x, hk => by
    have hhalf : (x.half d (some b) repair found).st = x.st.zeroBanks d b :=
      congrArg MarchOut.st (marches_nothing { x with st := x.st.zeroBanks d b } repair d (fun f hin => hf f (List.mem_of_mem_filter hin)))
    rw [List.foldl_cons, foldl_preserves repair hf ds _ (hk.imp_left (fun h hin => h (List.mem_cons_of_mem _ hin))), hhalf]
    exact zeroBanks_spared x.st (hk.imp_left (fun h he => h (he ▸ List.mem_cons_self)))

/-! ## The march ends -/

/-- The state as the marches of a MARCH leave it. -/
def State.marchedBy (s : State) (c : Cmd) (found : List RowFail) : State :=
  ((maskHalves c).foldl (fun o d => o.half d (if fld c.tack 4 1 = 1 then some (fld c.tack 5 1) else none) (bit (fld c.tack 6 1) 0) found) (MarchOut.start s)).st

theorem runMarch_eq (s : State) (c : Cmd) (found : List RowFail) : ∃ (b : Bytes) (x : Done), s.runMarch c found none =
    ((((s.marchedBy c found).each (maskHalves c) (fun s d => s.marchRest d)).hubWrite (fld c.tack 8 8) b).finishPriv c x).dropItemsOf 5 [c] none :=
  ⟨_, _, rfl⟩

theorem marchedBy_flat (h : Flat s) (c : Cmd) (found : List RowFail) : Flat (s.marchedBy c found) := by
  have _ := anyPart_fact
  exact (marchHalves_keeps (P := False) (W := anyPart) (maskHalves c) _ (fun y d hy => MarchOut_half_keeps hy _ _ _ _) (x := MarchOut.start s) (Keeps.rfl' h)).flat

/-- A march that has ended: its command is gone, its halves rest, and the scratchpads are as the marches left them. -/
theorem runMarch_facts (h : Flat s) (c : Cmd) (found : List RowFail) : c ∉ (s.runMarch c found none).mbx.privs ∧
    (∀ d ∈ maskHalves c, (((s.runMarch c found none).half d).pstate = .idle ∨ ((s.runMarch c found none).half d).pstate = .off) ∧
      ((s.runMarch c found none).half d).farrier = false) ∧ (s.runMarch c found none).yards.spad = (s.marchedBy c found).yards.spad := by
  obtain ⟨b, x, he⟩ := runMarch_eq s c found
  have hm := marchedBy_flat h c found
  have hrest : Flat ((s.marchedBy c found).each (maskHalves c) (fun s d => s.marchRest d)) := each_induct (R := Flat) (fun s k hs => modHalf_flat hs k _) _ hm
  have hspad : ((s.marchedBy c found).each (maskHalves c) (fun s d => s.marchRest d)).yards.spad = (s.marchedBy c found).yards.spad :=
    each_induct (R := fun t => t.yards.spad = (s.marchedBy c found).yards.spad) (fun s d ht => (show (s.marchRest d).yards.spad = s.yards.spad from rfl).trans ht) _ rfl
  have hhalf : ∀ d ∈ maskHalves c, _ := fun d hd => each_modHalf (d := d) (Q := fun x => (x.pstate = .idle ∨ x.pstate = .off) ∧ x.farrier = false)
    (fun s d h => { h with pstate := if (s.engineOf d).isSome then .idle else .off, waking := false, farrier := false })
    (fun s k x => ⟨by dsimp only; split; exacts [.inl rfl, .inr rfl], rfl⟩) hd hm
  obtain ⟨_, _, _, _, _, _, _, _⟩ := endItemWrites_facts
  have hw := hubWrite_keeps (P := False) (W := fun p => endItemWrites p = true) (Keeps.rfl' hrest) (fld c.tack 8 8) b
  have hend := finishDrop_keeps_own hw c x 5 [c] none
  rw [he]
  refine ⟨finishDrop_privs hw.flat c x 5 [c] none, fun d hd => ?_, (hend.same .spad Bool.false_ne_true).trans hspad⟩
  rw [half_of_halves (hend.same .halves Bool.false_ne_true)]
  exact hhalf d hd

/-! ## O23 -/

/-- Settles O23: a march fills spare rows only (`takeRow_addressed`), so the addressed rows that its destructive mode zeroes stay zero, and a
preserving march with no row that fails zeroes PARK alone (`foldl_preserves`). -/
theorem marchCompletes : Obligations.MarchCompletes := by
  unfold Obligations.MarchCompletes
  intro s c found hinv hl hk
  have h : Flat s := (flat_iff s).2 hinv
  refine ⟨fun i mode hi hc hm hr => ?_, fun hc hm => ?_, fun hc hm => ?_⟩
  · refine ⟨_, exec_march hi hl hc, ?_⟩
    have hmask := marchCheck_mask (by rw [← privCheck_march (newMarch_op hc).1]; exact hk)
    rw [march_begins hk hm hr]
    exact beginMarch_facts h hmask
  · refine ⟨_, exec_march (.inl ⟨rfl, rfl⟩) hl hc, ?_⟩
    obtain ⟨hgone, hrest, hspad⟩ := runMarch_facts h c found
    rw [march_runs hk hm]
    refine ⟨hgone, hrest, fun d hd p r o hp hr ho => ?_⟩
    have hmode : fld c.tack 4 1 ≠ 1 := by
      have := (newMarch_op hc).2
      omega
    have hlt : d < 32 := by simpa [upto] using List.mem_of_mem_filter hd
    rw [hspad, State.marchedBy, if_neg hmode]
    exact foldl_destroys _ found hlt (maskHalves c) (MarchOut.start s) h (.inl hd) _ (halfKey_core hp hr ho)
  · refine ⟨_, exec_march (.inr ⟨rfl, rfl⟩) hl hc, ?_⟩
    obtain ⟨hgone, hrest, hspad⟩ := runMarch_facts h c found
    rw [march_runs hk hm]
    refine ⟨hgone, hrest, fun hf k hkey => ?_⟩
    have hmode : fld c.tack 4 1 = 1 := by
      have := (newMarch_op hc).2
      omega
    rw [hspad, State.marchedBy, if_pos hmode]
    exact foldl_preserves _ (fun f hin => by simpa using List.all_eq_true.1 hf f hin) (maskHalves c) (MarchOut.start s) hkey

end Sys2Proof.Machine
end

section
/-!
SUPPORT and PROOFS. BAR2 accesses to device memory (R430, R432).
-/
namespace Sys2Proof.Machine

variable {s t u : State} {a n : Nat} {bs : Bytes}

/-- No page is in the course of its retirement. -/
def State.quietPages (s : State) : Prop := ∀ k, (s.shed k).retBusy = false

theorem physRead_quiet (hq : s.quietPages) (va : Nat) : s.physRead va = (s.xlat (vpage va)).ppage * pageBytes + va % pageBytes := by
  unfold State.physRead
  extract_lets page off k
  rw [if_neg]
  rintro ⟨hbusy, _⟩
  rw [hq] at hbusy
  cases hbusy

theorem queueCheck_quiet (hf : Flat s) (hq : s.quietPages) (pa : Nat) : (s.queueCheck pa).quietPages ∧ (s.queueCheck pa).img = s.img ∧
    (s.queueCheck pa).mem.data = s.mem.data := by
  unfold State.queueCheck
  extract_lets slice blk k
  have hset : ∀ x : Shed, x.retBusy = false → (s.setShed (slice / 24) x).quietPages := fun x hx j => by
    by_cases hj : j = slice / 24
    · rw [hj, shed_setShed_same _ _ _ hf.sheds, hx]
    · rw [shed_setShed_ne _ _ _ _ hj, hq]
  split
  · exact ⟨hq, rfl, rfl⟩
  · split
    · exact ⟨hset _ (hq _), rfl, rfl⟩
    · exact ⟨hset _ (hq _), rfl, rfl⟩

theorem queueCheck_flat (hf : Flat s) (pa : Nat) : Flat (s.queueCheck pa) :=
  (queueCheck_keeps (P := False) (W := fun _ => False) (Keeps.rfl' hf) pa).flat

/-- What a write of part of a range has done to a state: its bytes are in place, and the rest is as it was. -/
structure Wrote (pa : Nat) (bs : Bytes) (s t : State) : Prop where
  flat : Flat t
  quiet : t.quietPages
  img : t.img = s.img
  data : t.mem.data = swrite 0 s.mem.data pa bs

theorem devWritePiece_parts (hf : Flat s) (hq : s.quietPages) (va : Nat) (bs : Bytes) : (s.devWritePiece va bs).quietPages ∧
    (s.devWritePiece va bs).img = s.img ∧ (s.devWritePiece va bs).mem.data = swrite 0 s.mem.data (s.physRead va) bs := by
  unfold State.devWritePiece
  extract_lets page k off sh fresh pa part s1
  have hfresh : fresh = false := by simp [fresh, sh, hq k]
  have hpa : pa = s.physRead va := if_neg (by rw [hfresh]; decide)
  have hchk : (if part then s.queueCheck pa else s).quietPages ∧ (if part then s.queueCheck pa else s).img = s.img ∧
      (if part then s.queueCheck pa else s).mem.data = s.mem.data := by
    split
    · exact queueCheck_quiet hf hq pa
    · exact ⟨hq, rfl, rfl⟩
  rw [hfresh, if_neg Bool.false_ne_true]
  obtain ⟨hquiet, himg, hdata⟩ := hchk
  refine ⟨hquiet, himg, ?_⟩
  rw [← hpa, ← hdata]
  rfl

/-- A piece of a write reaches the frame of its page. -/
theorem devWritePiece_wrote (hf : Flat s) (hq : s.quietPages) (va : Nat) (bs : Bytes) : Wrote (s.physRead va) bs s (s.devWritePiece va bs) :=
  have _ := anyPart_fact
  have ⟨hquiet, himg, hdata⟩ := devWritePiece_parts hf hq va bs
  ⟨(devWritePiece_keeps (P := False) (W := anyPart) (Keeps.rfl' hf) va bs).flat, hquiet, himg, hdata⟩

theorem swrite_append : ∀ (xs ys : Bytes) (m : Sparse Byte) (a : Nat), swrite 0 m a (xs ++ ys) = swrite 0 (swrite 0 m a xs) (a + xs.length) ys
  | [], _, _, _ => rfl
  | x :: xs, ys, m, a => by
    rw [List.cons_append, swrite, swrite, swrite_append xs ys, List.length_cons, Nat.add_right_comm, Nat.add_assoc]

/-- Within one page the addresses of a range read from a run of its frame. -/
theorem physRead_add (hq : s.quietPages) {j : Nat} (hj : a % pageBytes + j < pageBytes) : s.physRead (a + j) = s.physRead a + j := by
  have hmod : (a + j) % pageBytes = a % pageBytes + j := by
    unfold pageBytes at *
    omega
  have hpage : vpage (a + j) = vpage a := by
    unfold vpage pageBytes at *
    omega
  rw [physRead_quiet hq, physRead_quiet hq, hmod, hpage, Nat.add_assoc]

theorem physRead_of_img (hs : s.quietPages) (ht : t.quietPages) (hi : t.img = s.img) (va : Nat) : t.physRead va = s.physRead va := by
  rw [physRead_quiet hs, physRead_quiet ht, State.xlat, State.xlat, hi]

/-- The pieces of a range within one page write its bytes one after another. -/
theorem writePieces_wrote (a : Nat) (bs : Bytes) (hpage : a % pageBytes + bs.length ≤ pageBytes) : ∀ (fuel : Nat) (s : State) (j n : Nat), Flat s → s.quietPages →
    j + n = bs.length → (0 < n → n + (a + j) % 1024 ≤ 1024 * fuel) → Wrote (s.physRead a + j) (bs.drop j) s
      (s.each (blockPieces fuel (a + j) n) (fun s p => s.devWritePiece p.1 ((bs.drop (p.1 - a)).take p.2))) := by
  intro fuel
  induction fuel with
  | zero =>
    intro s j n hf hq hlen hfuel
    have hnil : bs.drop j = [] := List.drop_eq_nil_of_le (by omega)
    rw [hnil]
    exact ⟨hf, hq, rfl, rfl⟩
  | succ fuel ih =>
    intro s j n hf hq hlen hfuel
    rw [blockPieces]
    by_cases hn : n = 0
    · rw [if_pos hn]
      have hnil : bs.drop j = [] := List.drop_eq_nil_of_le (by omega)
      rw [hnil]
      exact ⟨hf, hq, rfl, rfl⟩
    · rw [if_neg hn]
      have hm : 1 ≤ blockPiece (a + j) n ∧ blockPiece (a + j) n ≤ n ∧ (0 < n - blockPiece (a + j) n → n - blockPiece (a + j) n + (a + (j + blockPiece (a + j) n)) % 1024 ≤ 1024 * fuel) := by
        have := hfuel (by omega)
        unfold blockPiece
        rcases Nat.le_total n (1024 - (a + j) % 1024) with hle | hle
        · rw [Nat.min_eq_left hle]
          omega
        · rw [Nat.min_eq_right hle]
          omega
      dsimp only
      generalize blockPiece (a + j) n = m at hm
      obtain ⟨hm1, hmn, hrest⟩ := hm
      have h1 := devWritePiece_wrote hf hq (a + j) ((bs.drop j).take m)
      have hpos : s.physRead (a + j) = s.physRead a + j := physRead_add hq (by omega)
      rw [hpos] at h1
      have h2 := ih (s.devWritePiece (a + j) ((bs.drop j).take m)) (j + m) (n - m) h1.flat h1.quiet (by omega) hrest
      rw [physRead_of_img hq h1.quiet h1.img] at h2
      have heach : s.each ((a + j, m) :: blockPieces fuel (a + j + m) (n - m)) (fun s p => s.devWritePiece p.1 ((bs.drop (p.1 - a)).take p.2)) =
          (s.devWritePiece (a + j) ((bs.drop j).take m)).each (blockPieces fuel (a + (j + m)) (n - m)) (fun s p => s.devWritePiece p.1 ((bs.drop (p.1 - a)).take p.2)) := by
        rw [← Nat.add_assoc a j m, show bs.drop j = bs.drop (a + j - a) by rw [Nat.add_sub_cancel_left]]
        rfl
      rw [heach]
      refine ⟨h2.flat, h2.quiet, h2.img.trans h1.img, ?_⟩
      have hlen1 : ((bs.drop j).take m).length = m := by
        rw [List.length_take, List.length_drop]
        omega
      have hsplit : bs.drop j = (bs.drop j).take m ++ bs.drop (j + m) := by
        rw [← List.drop_drop, List.take_append_drop]
      rw [h2.data, h1.data]
      conv_rhs => rw [hsplit, swrite_append, hlen1]
      rw [Nat.add_assoc]

/-- A write within one page that translates leaves its bytes in its frame, and every other byte alone. -/
theorem devWrite_wrote (hf : Flat s) (hq : s.quietPages) (hpage : a % pageBytes + bs.length ≤ pageBytes) : Wrote (s.physRead a) bs s (s.devWrite a bs) := by
  have h := writePieces_wrote a bs hpage (bs.length / 1024 + 2) s 0 bs.length hf hq (Nat.zero_add _) (fun _ => by omega)
  exact h

theorem sread_eq_map (m : Sparse Byte) : ∀ (n a : Nat), sread 0 m a n = (upto n).map (fun i => sget 0 m (a + i))
  | 0, _ => rfl
  | n + 1, a => by
    have hup : upto (n + 1) = 0 :: (upto n).map (· + 1) := List.range_succ_eq_map
    rw [sread, sread_eq_map m n (a + 1), hup, List.map_cons, List.map_map]
    exact congrArg₂ _ rfl (List.map_congr_left fun i _ => congrArg (sget 0 m) (Nat.add_right_comm a 1 i))

/-- Within one page a read gives the run of its frame. -/
theorem devBytes_page (hq : s.quietPages) (hpage : a % pageBytes + n ≤ pageBytes) : s.devBytes a n = sread 0 s.mem.data (s.physRead a) n := by
  rw [sread_eq_map, State.devBytes, State.devRead, List.map_map]
  refine List.map_congr_left fun i hi => ?_
  have hlt : i < n := by simpa [upto] using hi
  exact congrArg (sget 0 s.mem.data) (physRead_add hq (by omega))

theorem exec_bar2Read (hal : s.hubAlive = true) (hs : s.bar2Served = true) (hn : a + n ≤ 2 ^ s.ports.bar2Log2) (hx : s.firstFail a n false true = none)
    {data : Bytes} : exec (.bar2Access false a n data) s = .next ((s.devNote a n).answer (.data (s.devBytes a n))) := by
  have he : exec (.bar2Access false a n data) s = execBar2Access false a n data s := rfl
  have hgo : ¬((!s.bar2Served) = true ∨ 2 ^ s.ports.bar2Log2 < a + n) := by
    rw [hs]
    exact fun h => h.elim Bool.false_ne_true (by omega)
  rw [he, execBar2Access, State.bar2, deadBar_of_hubAlive hal, if_neg Bool.false_ne_true, if_neg hgo, hx]
  exact congrArg Host.Outcome.next (if_neg Bool.false_ne_true)

theorem exec_bar2Write (hal : s.hubAlive = true) (hs : s.bar2Served = true) (hn : a + n ≤ 2 ^ s.ports.bar2Log2) (hx : s.firstFail a n true true = none)
    (hlen : bs.length = n) : exec (.bar2Access true a n bs) s = .next ((s.devWrite a bs).answer .none) := by
  have he : exec (.bar2Access true a n bs) s = execBar2Access true a n bs s := rfl
  have hgo : ¬((!s.bar2Served) = true ∨ 2 ^ s.ports.bar2Log2 < a + n) := by
    rw [hs]
    exact fun h => h.elim Bool.false_ne_true (by omega)
  have hall : bs.take n ++ zeros (n - bs.length) = bs := by
    rw [List.take_of_length_le (by omega), hlen, Nat.sub_self]
    exact List.append_nil bs
  rw [he, execBar2Access, State.bar2, deadBar_of_hubAlive hal, if_neg Bool.false_ne_true, if_neg hgo, hx]
  exact congrArg Host.Outcome.next ((if_pos rfl).trans (by rw [hall]))

/-- Settles O38: within one page the pieces of a write fill one run of its frame (`writePieces_wrote`), which a read gives back (`devBytes_page`). -/
theorem bar2ReadsWhatItWrote : Obligations.Bar2ReadsWhatItWrote := by
  unfold Obligations.Bar2ReadsWhatItWrote
  intro s a n data hinv hal hs hn
  have h : Flat s := (flat_iff s).2 hinv
  refine ⟨fun hx => ⟨_, exec_bar2Read hal hs hn hx, rfl, ?_⟩, fun hx hlen hpage hq => ⟨_, exec_bar2Write hal hs hn hx hlen, rfl, ?_⟩⟩
  · exact (devNote_keeps (P := False) (W := fun _ => False) (Keeps.rfl' h) a n).same .data not_false
  · have hw := devWrite_wrote h hq (bs := data) (by rw [hlen]; exact hpage)
    have hread : (s.devWrite a data).devBytes a n = data := by
      rw [devBytes_page hw.quiet hpage, physRead_of_img hq hw.quiet hw.img, hw.data, ← hlen]
      exact sread_swrite_same 0 _ _ _ h.data
    refine ⟨hread, fun k hk => ?_⟩
    rw [show ((s.devWrite a data).answer .none).mem.data = (s.devWrite a data).mem.data from rfl, hw.data]
    exact sget_swrite_ne 0 _ _ _ _ (by rw [hlen]; exact hk)

end Sys2Proof.Machine
end

section
/-!
SUPPORT and PROOFS. Page retirement, copy-over, device swap and refresh (R320, R334 to R337).
-/
namespace Sys2Proof.Machine

variable {s t u : State} {k i : Nat}

/-! ## What the recorder leaves of device memory -/

theorem trace_mem (s : State) (a b c d : Nat) (x : Bytes) : (s.trace a b c d x).mem = s.mem := by
  unfold State.trace
  split
  · split
    · exact bumpBy_mem _ _ _ _ _
    · rfl
  · rfl

theorem msix_mem (s : State) (v : Nat) : (s.msix v).mem = s.mem := by
  unfold State.msix
  split <;> rfl

theorem ringHost_mem (s : State) (v : Nat) : (s.ringHost v).mem = s.mem := by
  unfold State.ringHost
  dsimp only
  split
  · rw [event_mem]
    rfl
  · rw [msix_mem, event_mem]
    rfl

theorem inBand_mem (s : State) (b : Nat) : (s.inBand b).mem = s.mem := by
  unfold State.inBand
  split <;> rfl

theorem startFlush_mem (s : State) : s.startFlush.mem = s.mem := by
  unfold State.startFlush
  split
  · rfl
  · split <;> rfl

theorem raise_mem (s : State) (ev : Ev) (dom arg : Nat) : (s.raise ev dom arg).mem = s.mem := by
  unfold State.raise State.raiseBy
  extract_lets id sev trig off regs s0 pl s1 s2 s3
  have h1 : s1.mem = s.mem := by
    show s0.mem = s.mem
    simp only [s0]
    split <;> rfl
  have h2 : s2.mem = s.mem := by
    simp only [s2]
    split
    · exact (trace_mem ..).trans h1
    · exact (trace_mem ..).trans h1
    · exact (bumpBy_mem s1 .hub 2 2 1).trans h1
  have h3 : s3.mem = s.mem := by
    simp only [s3]
    rw [inBand_mem, ringHost_mem, h2]
  split
  · rfl
  · split
    · exact bumpBy_mem _ _ _ _ _
    · split
      · split
        · exact h3
        · exact (startFlush_mem s3).trans h3
      · exact h2

theorem journalAppend_mem (s : State) (o : Bytes) : (s.journalAppend o).mem = s.mem := by
  unfold State.journalAppend State.program
  rfl

theorem recordPatch_mem (s : State) (o : Bytes) (im : Image) : (s.recordPatch o im).mem = s.mem := by
  unfold State.recordPatch
  split
  · extract_lets s1 s2
    rw [raise_mem]
    exact journalAppend_mem s o
  · rw [raise_mem]

/-! ## The sheds -/

theorem modShed_shed (h : Flat s) (k : Nat) (f : Shed → Shed) : (s.modShed k f).shed k = f (s.shed k) := shed_setShed_same s k _ h.sheds

theorem modShed_flat (h : Flat s) (k : Nat) (f : Shed → Shed) : Flat (s.modShed k f) := { h with sheds := swf_sset Shed.reset s.mem.sheds k _ h.sheds }

theorem shed_of_mem (h : t.mem = s.mem) (k : Nat) : t.shed k = s.shed k := by rw [State.shed, h]; rfl

/-! ## A retirement begins (R334) -/

/-- A change of what waits in a shed's line frees no frame and takes none. -/
theorem freeFrame_modShed (h : Flat s) (f : Shed → Shed) (hf : ∀ x, (f x).retBusy = x.retBusy ∧ (f x).retOld = x.retOld ∧ (f x).retNew = x.retNew) (c : Nat) :
    (s.modShed k f).freeFrame c = s.freeFrame c := by
  have hframe : (s.modShed k f).frameFree = s.frameFree := by
    funext p
    have hshed : ((s.modShed k f).shed (p % 192 / 24)).retBusy = (s.shed (p % 192 / 24)).retBusy ∧
        ((s.modShed k f).shed (p % 192 / 24)).retOld = (s.shed (p % 192 / 24)).retOld ∧
        ((s.modShed k f).shed (p % 192 / 24)).retNew = (s.shed (p % 192 / 24)).retNew := by
      by_cases hk : p % 192 / 24 = k
      · rw [hk, modShed_shed h]
        exact hf _
      · rw [State.modShed, shed_setShed_ne _ _ _ _ hk]
        exact ⟨rfl, rfl, rfl⟩
    obtain ⟨hb, ho, hn⟩ := hshed
    unfold State.frameFree
    dsimp only
    rw [hb, ho, hn]
    rfl
  rw [State.freeFrame, hframe]
  rfl

/-- The switch of a page to its new frame, with every block uncopied. -/
def State.switched (s : State) (k page v new : Nat) (rest : List Nat) : State :=
  let s1 := s.modShed k (fun x => { x with retQueue := rest })
  (s1.setXlat v { s1.xlat v with ppage := new }).modShed k (fun x => { x with retOld := page, retNew := new, retVpage := v, retBusy := true, retDone := [] })

theorem startRetire_switched (h : Flat s) {page v new : Nat} {rest : List Nat} (hq : (s.shed k).retQueue = page :: rest) (hv : s.vpageOf page = some v)
    (hn : s.freeFrame (page % 192) = some new) : s.startRetire k = s.switched k page v new rest := by
  have hv1 : (s.modShed k (fun x => { x with retQueue := rest })).vpageOf page = some v := hv
  have hn1 : (s.modShed k (fun x => { x with retQueue := rest })).freeFrame (page % 192) = some new :=
    (freeFrame_modShed h (fun x => { x with retQueue := rest }) (fun _ => ⟨rfl, rfl, rfl⟩) _).trans hn
  rw [State.startRetire, hq]
  dsimp only
  rw [hv1, hn1]
  rfl

theorem switched_facts (h : Flat s) (page v new : Nat) (rest : List Nat) : ((s.switched k page v new rest).shed k).retBusy = true ∧
    ((s.switched k page v new rest).shed k).retOld = page ∧ ((s.switched k page v new rest).shed k).retNew = new ∧
    ((s.switched k page v new rest).shed k).retDone = [] ∧ (s.switched k page v new rest).xlat v = { s.xlat v with ppage := new } ∧
    (s.switched k page v new rest).mem.data = s.mem.data := by
  have h1 : Flat (s.modShed k (fun x => { x with retQueue := rest })) := modShed_flat h k _
  unfold State.switched
  extract_lets s1
  have h2 : Flat (s1.setXlat v { s1.xlat v with ppage := new }) := { h1 with xlat := swf_sset Xlat.reset s1.img.xlat v _ h1.xlat }
  rw [modShed_shed h2]
  exact ⟨rfl, rfl, rfl, rfl, sget_sset_same Xlat.reset s.img.xlat v _ h.xlat, rfl⟩

theorem exec_pageRetire_start (hm : s.memoryUp = true) (hb : (s.shed k).retBusy = false) : exec (.pageRetire k) s = .next (s.startRetire k) := by
  have hx : exec (.pageRetire k) s = execPageRetire k s := rfl
  rw [hx, execPageRetire, hm, hb]
  rfl

/-! ## A block is copied -/

theorem spoil_rest (ws : List Nat) (dst : Nat) : ∀ s : State, (ws.foldl (fun s w => s.physSpoil (dst + 4 * w)) s).mem.data = s.mem.data ∧
    (ws.foldl (fun s w => s.physSpoil (dst + 4 * w)) s).mem.sheds = s.mem.sheds ∧ (ws.foldl (fun s w => s.physSpoil (dst + 4 * w)) s).pmon = s.pmon := by
  induction ws with
  | nil => exact fun _ => ⟨rfl, rfl, rfl⟩
  | cons w ws ih => exact fun s => ih (s.physSpoil (dst + 4 * w))

theorem mem_insertNat (k : Nat) : ∀ js : List Nat, k ∈ insertNat k js
  | [] => List.mem_singleton.2 rfl
  | j :: js => by
    unfold insertNat
    split
    · exact List.mem_cons_self
    · split
      · next hk => exact hk ▸ List.mem_cons_self
      · exact List.mem_cons_of_mem _ (mem_insertNat k js)

theorem exec_pageRetire_copy (hm : s.memoryUp = true) (hb : (s.shed k).retBusy = true)
    (hi : (upto 4096).find? (fun i => !(s.shed k).retDone.contains i) = some i) : exec (.pageRetire k) s = .next (s.copyBlock k i) := by
  have hx : exec (.pageRetire k) s = execPageRetire k s := rfl
  rw [hx, execPageRetire, hm, hb]
  exact congrArg Host.Outcome.next (by rw [hi]; rfl)

theorem physWrite_rest (s : State) (pa : Nat) (bs : Bytes) : (s.physWrite pa bs).mem.data = swrite 0 s.mem.data pa bs ∧
    (s.physWrite pa bs).mem.sheds = s.mem.sheds ∧ (s.physWrite pa bs).pmon = s.pmon := ⟨rfl, rfl, rfl⟩

theorem copyBlock_facts (h : Flat s) (hi : (s.shed k).retDone.contains i = false) : i ∈ ((s.copyBlock k i).shed k).retDone ∧
    (s.copyBlock k i).physBytes ((s.shed k).retNew * pageBytes + 1024 * i) 1024 = s.physBytes ((s.shed k).retOld * pageBytes + 1024 * i) 1024 := by
  unfold State.copyBlock
  extract_lets x src dst bad s1
  rw [if_neg (Bool.eq_false_iff.1 hi)]
  obtain ⟨hdata, hsheds, _⟩ := spoil_rest bad dst s1
  obtain ⟨hdata1, hsheds1, _⟩ := physWrite_rest s dst (s.physBytes src 1024)
  generalize bad.foldl (fun s w => s.physSpoil (dst + 4 * w)) s1 = t at hdata hsheds
  have hshed : (t.modShed k (fun y => { y with retDone := insertNat i y.retDone })).shed k = { t.shed k with retDone := insertNat i (t.shed k).retDone } :=
    shed_setShed_same t k _ (by rw [hsheds, hsheds1]; exact h.sheds)
  have hbytes : (s.physBytes src 1024).length = 1024 := length_sread 0 _ _ _
  refine ⟨?_, ?_⟩
  · rw [hshed]
    exact mem_insertNat i _
  · show sread 0 t.mem.data dst 1024 = s.physBytes src 1024
    have hsame := sread_swrite_same 0 s.mem.data dst (s.physBytes src 1024) h.data
    rw [hbytes] at hsame
    rw [hdata, hdata1]
    exact hsame

theorem copyBlock_pmon (s : State) (k i : Nat) : (s.copyBlock k i).pmon = s.pmon := by
  unfold State.copyBlock
  extract_lets x src dst bad s1
  split
  · rfl
  · obtain ⟨_, _, hpmon1⟩ := physWrite_rest s dst (s.physBytes src 1024)
    exact (spoil_rest bad dst s1).2.2.trans hpmon1

theorem copyBlocks_rest (h : Flat s) (k : Nat) (is : List Nat) : Flat (s.copyBlocks k is) ∧ (s.copyBlocks k is).pmon = s.pmon := by
  have _ := anyPart_fact
  exact ⟨(each_keeps (P := False) (W := anyPart) is _ (fun _ i hu => copyBlock_keeps hu k i) (Keeps.rfl' h)).flat,
    each_induct (R := fun t => t.pmon = s.pmon) (fun t i ht => (copyBlock_pmon t k i).trans ht) is rfl⟩

/-! ## A retirement ends (R335) -/

theorem exec_pageRetireDone (hm : s.memoryUp = true) (hb : (s.shed k).retBusy = true) : exec (.pageRetireDone k) s = .next (s.endRetire k) := by
  have hx : exec (.pageRetireDone k) s = execPageRetireDone k s := rfl
  rw [hx, execPageRetireDone]
  exact congrArg Host.Outcome.next (if_pos ⟨hm, hb⟩)

/-- The recorded end of the retirement of shed record `x`, whose copies stand. -/
def State.retired (s : State) (k : Nat) (x : Shed) : State :=
  ((s.recordRetire x).raise .memRetire (shedDomain k) (x.retOld + x.retNew * 2 ^ 32)).bump .shed k 7

theorem endRetire_eq (s : State) (k : Nat) : s.endRetire k =
    ((s.copyBlocks k (upto 4096)).modShed k (fun y => { y with retBusy := false, retDone := [] })).retired k (s.shed k) := rfl

theorem bump_mem (s : State) (g : Grp) (i k : Nat) : (s.bump g i k).mem = s.mem := bumpBy_mem s g i k 1

theorem bump_img (s : State) (g : Grp) (i k : Nat) : (s.bump g i k).img = s.img := bumpBy_img s g i k 1

theorem recordRetire_facts (h : Flat s) (x : Shed) : Flat (s.recordRetire x) ∧ (s.recordRetire x).mem = s.mem ∧
    x.retOld ∈ (s.recordRetire x).img.resv ∧ (s.recordRetire x).count .shed k 7 = s.count .shed k 7 := by
  have _ := anyPart_fact
  have h7 : OtherIndex 7 := .inr (by decide)
  have hok : Image.Ok { s.img with resv := s.img.resv ++ [x.retOld] } := ⟨h.topo, h.recs, h.xlat⟩
  refine ⟨(recordRetire_keeps (P := False) (W := anyPart) (Keeps.rfl' h) x).flat, recordPatch_mem _ _ _, ?_, h7.recordPatch _ _ _ _ _⟩
  rw [show (s.recordRetire x).img = _ from recordPatch_img h hok]
  exact List.mem_append_right _ (List.mem_singleton.2 rfl)

theorem retired_facts (h : Flat s) (k : Nat) (x : Shed) : (s.retired k x).mem = s.mem ∧ x.retOld ∈ (s.retired k x).img.resv ∧
    (s.retired k x).count .shed k 7 = (s.count .shed k 7 + 1) % 2 ^ 48 := by
  have h7 : OtherIndex 7 := .inr (by decide)
  obtain ⟨hf, hmem, hresv, hcount⟩ := recordRetire_facts (k := k) h x
  unfold State.retired
  have himg := raise_same hf .memRetire (shedDomain k) (x.retOld + x.retNew * 2 ^ 32) .img
  refine ⟨(bump_mem _ .shed k 7).trans ((raise_mem _ _ _ _).trans hmem), ?_, ?_⟩
  · rw [bump_img, show State.img (State.raise _ _ _ _) = _ from himg]
    exact hresv
  · rw [count_bump_same (raise_flat hf _ _ _), h7.raise, hcount]

theorem endRetire_facts (h : Flat s) (k : Nat) : ((s.endRetire k).shed k).retBusy = false ∧ (s.shed k).retOld ∈ (s.endRetire k).img.resv ∧
    (s.endRetire k).count .shed k 7 = (s.count .shed k 7 + 1) % 2 ^ 48 := by
  rw [endRetire_eq]
  obtain ⟨hcopy, hpmon⟩ := copyBlocks_rest h k (upto 4096)
  generalize s.copyBlocks k (upto 4096) = a at hcopy hpmon
  obtain ⟨hmem, hresv, hcount⟩ := retired_facts (modShed_flat hcopy k (fun y => { y with retBusy := false, retDone := [] })) k (s.shed k)
  refine ⟨?_, hresv, ?_⟩
  · rw [shed_of_mem hmem, modShed_shed hcopy]
  · have hsame : (a.modShed k (fun y => { y with retBusy := false, retDone := [] })).pmon = s.pmon := (setShed_pmon a k _).trans hpmon
    rw [hcount, count_of_pmon hsame]

/-! ## Copy-over and device swap (R336, R337) -/

theorem exec_deviceCopyOver (hm : s.memoryUp = true) (hc : (s.shed k).copying.isSome = true) :
    exec (.deviceCopyOver k) s = .next (s.modShed k (fun x => { x with copyDone := copyTotal })) := by
  have hx : exec (.deviceCopyOver k) s = execDeviceCopyOver k s := rfl
  rw [hx, execDeviceCopyOver]
  exact congrArg Host.Outcome.next (if_pos ⟨hm, hc⟩)

theorem exec_deviceSwap {d : Nat} (hl : s.live = true) (hc : (s.shed k).copying = some d) (hd : copyTotal ≤ (s.shed k).copyDone) :
    exec (.deviceSwap k) s = .next ((s.spareDevice k d).modShed k (fun x => { x with copying := none, copyDone := 0 })) := by
  have hx : exec (.deviceSwap k) s = execDeviceSwap k s := rfl
  rw [hx, execDeviceSwap, hc]
  exact congrArg Host.Outcome.next (if_pos ⟨hl, hd⟩)

/-- The record of a shed with device `d` out and D12 in. -/
def ShedRec.spared (m : ShedRec) (d : Nat) : ShedRec :=
  { m with active := (m.active &&& ~~~ BitVec.ofNat 13 (2 ^ d)) ||| BitVec.ofNat 13 (2 ^ 12), failed := m.failed ||| BitVec.ofNat 13 (2 ^ d) }

theorem spared_bits (m : ShedRec) {d : Nat} (hd : d < 12) : (m.spared d).active.getLsbD 12 = true ∧ (m.spared d).active.getLsbD d = false ∧
    (m.spared d).failed.getLsbD d = true := by
  have h13 : d < 13 := by omega
  have hne : ¬12 = d := by omega
  simp only [ShedRec.spared, BitVec.getLsbD_or, BitVec.getLsbD_and, BitVec.getLsbD_not, BitVec.getLsbD_ofNat, Nat.testBit_two_pow, h13, decide_true,
    hne, decide_false, Bool.and_true, Bool.or_true, Bool.not_true, Bool.and_false, Bool.or_false, and_self]
  simp

theorem spareDevice_facts (h : Flat s) (k d : Nat) : Flat (s.spareDevice k d) ∧ (s.spareDevice k d).shedRec k = (s.shedRec k).spared d := by
  have _ := anyPart_fact
  have hok : Image.Ok { s.img with sheds := sset ShedRec.reset s.img.sheds k ((s.shedRec k).spared d) } := ⟨h.topo, swf_sset _ _ _ _ h.recs, h.xlat⟩
  refine ⟨(spareDevice_keeps (P := False) (W := anyPart) (Keeps.rfl' h) k d).flat, ?_⟩
  have himg : (s.spareDevice k d).img = { s.img with sheds := sset ShedRec.reset s.img.sheds k ((s.shedRec k).spared d) } := by
    unfold State.spareDevice
    extract_lets m new
    exact (raise_same (ownMem_keeps (P := False) (W := anyPart) (Keeps.rfl' h) _ hok).flat _ _ _ .img).trans (recordPatch_img h hok)
  rw [State.shedRec, himg]
  exact sget_sset_same ShedRec.reset s.img.sheds k _ h.recs

/-- Settles O49: the frame is chosen as before the page left its line (`freeFrame_modShed`), a block is copied whole (`copyBlock_facts`), the end is
recorded in the journal (`endRetire_facts`), and the spare comes in by a MEM patch (`spareDevice_facts`). -/
theorem pagesAndDevices : Obligations.PagesAndDevices := by
  unfold Obligations.PagesAndDevices
  intro s k hinv hm
  have h : Flat s := (flat_iff s).2 hinv
  refine ⟨fun page rest v new hb hq hv hn => ⟨_, exec_pageRetire_start hm hb, ?_⟩, fun i hb hi => ⟨_, exec_pageRetire_copy hm hb hi, ?_⟩,
    fun hb => ⟨_, exec_pageRetireDone hm hb, endRetire_facts h k⟩, fun hc => ⟨_, exec_deviceCopyOver hm hc, ?_, rfl⟩,
    fun d hal hc hd hdone => ⟨_, exec_deviceSwap ?_ hc hdone, ?_⟩, rfl⟩
  · rw [startRetire_switched h hq hv hn]
    exact switched_facts h page v new rest
  · have hnot := List.find?_some hi
    exact copyBlock_facts h (by simpa using hnot)
  · rw [modShed_shed h]
  · exact Bool.and_eq_true_iff.2 ⟨hm, hal⟩
  · obtain ⟨hflat, hrec⟩ := spareDevice_facts h k d
    have hshed : ((s.spareDevice k d).modShed k (fun x => { x with copying := none, copyDone := 0 })).shedRec k = (s.shedRec k).spared d := hrec
    rw [modShed_shed hflat, hshed]
    exact ⟨rfl, spared_bits (s.shedRec k) hd⟩

end Sys2Proof.Machine
end

section
/-!
SUPPORT and PROOFS. Writes of scratchpads, the pieces of a COPY, and the network's events (R167, R240, R247, R249, R256).
-/
namespace Sys2Proof.Machine

variable {s t u : State}

/-! ## A scratchpad reads what was written -/

/-- An element of a list whose key no other has stands in the table that the list fills. -/
theorem sget_foldl_fill {α β : Type} [DecidableEq β] (d : β) (key : α → Nat) (v : α → β) {x : α} {xs : List α} (hx : x ∈ xs)
    (hu : ∀ y ∈ xs, key y = key x → y = x) {m : Sparse β} (hm : swf d m = true) : sget d (xs.foldl (fun m y => sset d m (key y) (v y)) m) (key x) = v x := by
  obtain ⟨as, bs, rfl⟩ := List.append_of_mem hx
  rw [List.foldl_append, List.foldl_cons]
  have has : swf d (as.foldl (fun m y => sset d m (key y) (v y)) m) = true := swf_foldl d _ (fun m y hm => swf_sset d m _ _ hm) as _ hm
  refine (List.foldlRecOn (motive := fun m => swf d m = true ∧ sget d m (key x) = v x) bs _ ⟨swf_sset d _ _ _ has, sget_sset_same d _ _ _ has⟩
    fun m hm y hy => ⟨swf_sset d m _ _ hm.1, ?_⟩).2
  by_cases hkey : key y = key x
  · rw [hu y (List.mem_append_right _ (List.mem_cons_of_mem _ hy)) hkey]
    exact sget_sset_same d _ _ _ hm.1
  · rw [sget_sset_ne _ _ _ _ _ (Ne.symm hkey)]
    exact hm.2

theorem mem_indexed {α : Type} {xs : List α} {i : Nat} (hi : i < xs.length) : (i, xs[i]) ∈ indexed xs := by
  refine List.mem_iff_getElem.2 ⟨i, by simpa [indexed, upto] using hi, ?_⟩
  simp [indexed, upto]

theorem spadWrite_halves (s : State) (k off : Nat) (bs : Bytes) : (s.spadWrite k off bs).yards.halves = s.yards.halves := by
  unfold State.spadWrite
  dsimp only
  split <;> rfl

theorem coreRows_of_halves (h : t.yards.halves = s.yards.halves) (k : Nat) : t.coreRows k = s.coreRows k := by
  unfold State.coreRows
  dsimp only
  rw [half_of_halves h]

theorem cell_of_halves (h : t.yards.halves = s.yards.halves) (k off : Nat) : t.cell k off = s.cell k off := by
  rw [State.cell, State.cell, coreRows_of_halves h]

theorem cell_of_noRows {k : Nat} (h : (s.coreRows k).isEmpty = true) (off : Nat) : s.cell k off = spadKey k off := by
  rw [State.cell, List.isEmpty_iff.1 h]
  rfl

/-- A scratchpad reads as it was written, where each byte has a cell of its own. -/
theorem spadRead_spadWrite (h : Flat s) (k off : Nat) (bs : Bytes) (hn : ((upto bs.length).map (fun j => s.cell k (off + j))).Nodup) :
    (s.spadWrite k off bs).spadRead k off bs.length = bs := by
  have hrows := coreRows_of_halves (spadWrite_halves s k off bs) k
  have hcell := fun o => cell_of_halves (spadWrite_halves s k off bs) k o
  rw [State.spadRead, hrows]
  simp only [hcell]
  unfold State.spadWrite
  split
  · exact sread_swrite_same 0 s.yards.spad _ bs h.spad
  · refine List.ext_getElem (by simp [upto]) fun i hi hib => ?_
    have hinj := List.inj_on_of_nodup_map hn
    rw [List.getElem_map]
    simp only [upto, List.getElem_range]
    refine sget_foldl_fill 0 (fun b : Nat × Byte => s.cell k (off + b.1)) Prod.snd (mem_indexed hib) (fun y hy hkey => ?_) h.spad
    have hy1 := lt_of_mem_indexed hy
    have hidx : y.1 = i := hinj (by simpa [upto] using hy1) (by simpa [upto] using hib) hkey
    obtain ⟨j, v⟩ := y
    have hj : j = i := hidx
    subst hj
    rw [indexed_unique hy (mem_indexed hib)]

theorem spadSpoil_rest (s : State) (k off : Nat) (vs : List Bool) : (s.spadSpoil k off vs).yards.spad = s.yards.spad ∧
    (s.spadSpoil k off vs).yards.halves = s.yards.halves ∧ (s.spadSpoil k off vs).yards.waves = s.yards.waves ∧ (s.spadSpoil k off vs).pmon = s.pmon ∧
    (s.spadSpoil k off vs).engines = s.engines := by
  unfold State.spadSpoil
  refine each_induct (R := fun t => t.yards.spad = s.yards.spad ∧ t.yards.halves = s.yards.halves ∧ t.yards.waves = s.yards.waves ∧ t.pmon = s.pmon ∧
    t.engines = s.engines) (fun t x ht => ?_) _ ⟨rfl, rfl, rfl, rfl, rfl⟩
  split
  · exact ht
  · exact ht

theorem spadRead_of (h1 : t.yards.spad = s.yards.spad) (h2 : t.yards.halves = s.yards.halves) (k off n : Nat) : t.spadRead k off n = s.spadRead k off n := by
  rw [State.spadRead, State.spadRead, coreRows_of_halves h2, h1]
  simp only [cell_of_halves h2]

/-! ## Writes of device memory -/

/-- What a write of device memory leaves alone. -/
def besideMemory (s t : State) : Prop := t.yards = s.yards ∧ t.pmon = s.pmon ∧ t.engines = s.engines ∧ t.mbx = s.mbx

theorem queueCheck_beside (s : State) (pa : Nat) : besideMemory s (s.queueCheck pa) := by
  unfold State.queueCheck
  extract_lets slice blk k
  split
  · exact ⟨rfl, rfl, rfl, rfl⟩
  · split <;> exact ⟨rfl, rfl, rfl, rfl⟩

theorem devWritePiece_beside (s : State) (va : Nat) (bs : Bytes) : besideMemory s (s.devWritePiece va bs) := by
  unfold State.devWritePiece
  extract_lets page k off sh fresh pa part s1
  have h1 : besideMemory s s1 := by
    simp only [s1]
    split
    · exact queueCheck_beside s pa
    · exact ⟨rfl, rfl, rfl, rfl⟩
  clear_value s1
  split
  · exact h1
  · exact h1

theorem besideMemory.trans (h : besideMemory s t) (k : besideMemory t u) : besideMemory s u :=
  ⟨k.1.trans h.1, k.2.1.trans h.2.1, k.2.2.1.trans h.2.2.1, k.2.2.2.trans h.2.2.2⟩

theorem devWrite_beside (s : State) (va : Nat) (bs : Bytes) : besideMemory s (s.devWrite va bs) :=
  each_induct (R := besideMemory s) (fun t p ht => ht.trans (devWritePiece_beside t p.1 _)) _ ⟨rfl, rfl, rfl, rfl⟩

theorem devSpoil_beside (s : State) (va : Nat) (vs : List Bool) : besideMemory s (s.devSpoil va vs) := by
  unfold State.devSpoil
  refine each_induct (R := besideMemory s) (fun t x ht => ?_) _ ⟨rfl, rfl, rfl, rfl⟩
  split
  · exact ht
  · exact ht

theorem hostWrite_beside (s : State) (va : Nat) (bs : Bytes) : besideMemory s (s.hostWrite va bs) := by
  unfold State.hostWrite
  split <;> exact ⟨rfl, rfl, rfl, rfl⟩

/-! ## The pieces of a COPY -/

/-- What a piece of a COPY leaves alone. -/
theorem copyWrites_rest (s : State) (d : Bytes) (o : Nat) (r : Read) : (s.copyWrites d o r).pmon = s.pmon ∧ (s.copyWrites d o r).engines = s.engines ∧
    (s.copyWrites d o r).yards.waves = s.yards.waves ∧ (s.copyWrites d o r).yards.halves = s.yards.halves ∧
    (copyDstSpace d < 2 → (s.copyWrites d o r).yards.spad = s.yards.spad) := by
  unfold State.copyWrites
  extract_lets a k
  split
  · obtain ⟨hy, hp, he, _⟩ := (devWrite_beside s a r.data).trans (devSpoil_beside _ a r.voids)
    exact ⟨hp, he, congrArg Yards.waves hy, congrArg Yards.halves hy, fun _ => congrArg Yards.spad hy⟩
  · split
    · obtain ⟨hy, hp, he, _⟩ := hostWrite_beside s a r.data
      exact ⟨hp, he, congrArg Yards.waves hy, congrArg Yards.halves hy, fun _ => congrArg Yards.spad hy⟩
    · next h0 h1 =>
      obtain ⟨_, hh, hw, hp, he⟩ := spadSpoil_rest (s.spadWrite k (spOff a) r.data) k (spOff a) r.voids
      have hwrite : (s.spadWrite k (spOff a) r.data).pmon = s.pmon ∧ (s.spadWrite k (spOff a) r.data).engines = s.engines ∧
          (s.spadWrite k (spOff a) r.data).yards.waves = s.yards.waves := by
        unfold State.spadWrite
        dsimp only
        split <;> exact ⟨rfl, rfl, rfl⟩
      exact ⟨hp.trans hwrite.1, he.trans hwrite.2.1, hw.trans hwrite.2.2, hh.trans (spadWrite_halves _ _ _ _), fun hlt => absurd hlt (by omega)⟩

/-- A piece of a COPY to a scratchpad stands there. -/
theorem copyWrites_read (h : Flat s) (d : Bytes) (o : Nat) (r : Read) (h2 : 2 ≤ copyDstSpace d)
    (hn : ((upto r.data.length).map (fun j => s.cell (coreNum (s.coreAt (spCore (copyDst d + o)))) (spOff (copyDst d + o) + j))).Nodup) :
    (s.copyWrites d o r).spadRead (coreNum (s.coreAt (spCore (copyDst d + o)))) (spOff (copyDst d + o)) r.data.length = r.data := by
  unfold State.copyWrites
  extract_lets a k
  rw [if_neg (by omega), if_neg (by omega)]
  obtain ⟨hspad, hhalves, _⟩ := spadSpoil_rest (s.spadWrite k (spOff a) r.data) k (spOff a) r.voids
  rw [spadRead_of hspad hhalves]
  exact spadRead_spadWrite h k (spOff a) r.data hn

theorem length_copyData (s : State) (d : Bytes) (o n : Nat) : (s.copyData d o n).data.length = n := by
  unfold State.copyData
  dsimp only
  split
  · simp [State.devRead, upto]
  · split
    · exact length_sread 0 _ _ _
    · exact length_spadRead _ _ _ _

end Sys2Proof.Machine
end

section
/-!
SUPPORT and PROOFS. Conveyor waves, holds, control messages and phases (R167, R240, R247, R249, R256).
-/
namespace Sys2Proof.Machine

variable {s t u : State} {c : Conveyor} {frame i n : Nat}

/-! ## A wave is launched -/

/-- A state with the marks of the conveyors given: the last frames, the waves, and the last flits. -/
def State.waved (s : State) (last waves flits : Sparse Nat) : State :=
  { s with yards := { s.yards with lastWave := last, waves := waves, flits := flits } }

theorem setFlit_eq (s : State) (i : Nat) (f : Flit) : ∃ flits, s.setFlit i f = s.waved s.yards.lastWave s.yards.waves flits := by
  unfold State.setFlit
  generalize f.bits = v
  exact ⟨_, rfl⟩

/-- The state in which a wave of conveyor `i` has left in a frame, with the idle flit. -/
def State.launched (s : State) (i : Nat) (c : Conveyor) (frame : Nat) : State :=
  (s.modYards (fun y => { y with
    lastWave := sset 0 y.lastWave i (frame + 1),
    waves := if decide (frame % 2 = c.dir % 2) then sset 0 y.waves i (s.wave i + 1) else y.waves })).setFlit i
      { idleFlit with member := if decide (frame % 2 = c.dir % 2) then s.wave i % s.img.net.nC else 0, poison := false }

theorem launched_eq (s : State) (i : Nat) (c : Conveyor) (frame : Nat) : ∃ flits, s.launched i c frame = s.waved (sset 0 s.yards.lastWave i (frame + 1))
    (if decide (frame % 2 = c.dir % 2) then sset 0 s.yards.waves i (s.wave i + 1) else s.yards.waves) flits := by
  unfold State.launched
  obtain ⟨flits, he⟩ := setFlit_eq (s.modYards (fun y => { y with
    lastWave := sset 0 y.lastWave i (frame + 1),
    waves := if decide (frame % 2 = c.dir % 2) then sset 0 y.waves i (s.wave i + 1) else y.waves })) i
      { idleFlit with member := if decide (frame % 2 = c.dir % 2) then s.wave i % s.img.net.nC else 0, poison := false }
  exact ⟨flits, he⟩

theorem exec_conveyorWave_idle (hc : s.img.net.conveyors[i]? = some c) (hf : s.waveFrame i c = some frame) (hl : s.hub.loaded = true)
    (h1 : s.pwr.mod ≠ .safe) (h2 : s.pwr.mod ≠ .pfail) : exec (.conveyorWave i none none) s = .next (s.launched i c frame) := by
  have hx : exec (.conveyorWave i none none) s = execConveyorWave i none none s := rfl
  have hgo : ¬((!s.hub.loaded) = true ∨ s.pwr.mod = .safe ∨ s.pwr.mod = .pfail) := by simp [hl, h1, h2]
  rw [hx, execConveyorWave, hc]
  dsimp only
  rw [hf]
  exact congrArg Host.Outcome.next (if_neg hgo)

theorem exec_conveyorWave_serves (hc : s.img.net.conveyors[i]? = some c) (hf : s.waveFrame i c = some frame) (hl : s.hub.loaded = true)
    (h1 : s.pwr.mod ≠ .safe) (h2 : s.pwr.mod ≠ .pfail) (hd : frame % 2 = c.dir % 2) :
    exec (.conveyorWave i (some n) none) s = .next ((s.launched i c frame).waveUnit i c (s.wave i) n) := by
  have hx : exec (.conveyorWave i (some n) none) s = execConveyorWave i (some n) none s := rfl
  have hgo : ¬((!s.hub.loaded) = true ∨ s.pwr.mod = .safe ∨ s.pwr.mod = .pfail) := by simp [hl, h1, h2]
  rw [hx, execConveyorWave, hc]
  dsimp only
  rw [hf]
  exact congrArg Host.Outcome.next ((if_neg hgo).trans (if_pos (decide_eq_true hd)))

theorem launched_wave (s : State) (i : Nat) (c : Conveyor) (frame : Nat) : (s.launched i c frame).wave i =
    if frame % 2 = c.dir % 2 then s.wave i + 1 else s.wave i := by
  obtain ⟨flits, he⟩ := launched_eq s i c frame
  rw [he]
  show sget 0 (if decide (frame % 2 = c.dir % 2) then sset 0 s.yards.waves i (s.wave i + 1) else s.yards.waves) i = _
  by_cases hd : frame % 2 = c.dir % 2
  · rw [if_pos (decide_eq_true hd), if_pos hd]
    exact sget_sset_of_ne (Nat.succ_ne_zero (s.wave i)) _ _
  · rw [if_neg (by simpa using hd), if_neg hd]
    rfl

/-- A conveyor launches once in a frame. -/
theorem launched_frame (hf : s.waveFrame i c = some frame) : (s.launched i c frame).waveFrame i c = none := by
  have hy : (s.rclk (s.waveHalf c)).yclk / 1024 = frame := by
    unfold State.waveFrame at hf
    dsimp only at hf
    split at hf
    · injection hf
    · cases hf
  obtain ⟨flits, he⟩ := launched_eq s i c frame
  rw [he]
  have hlast : sget 0 (sset 0 s.yards.lastWave i (frame + 1)) i = (s.rclk (s.waveHalf c)).yclk / 1024 + 1 := by
    rw [hy]
    exact sget_sset_of_ne (Nat.succ_ne_zero frame) _ _
  refine if_neg (fun ⟨_, hne⟩ => hne hlast)

theorem launched_rest (s : State) (i : Nat) (c : Conveyor) (frame : Nat) : (s.launched i c frame).yards.spad = s.yards.spad ∧
    (s.launched i c frame).mem = s.mem ∧ (s.launched i c frame).pmon = s.pmon := by
  obtain ⟨flits, he⟩ := launched_eq s i c frame
  rw [he]
  exact ⟨rfl, rfl, rfl⟩

theorem launched_flat (h : Flat s) (i : Nat) (c : Conveyor) (frame : Nat) : Flat (s.launched i c frame) := by
  obtain ⟨flits, he⟩ := launched_eq s i c frame
  rw [he]
  exact { h with }

/-! ## A wave that carries data -/

/-- The flit of a wave that has carried data for the running command `m`, which goes on as `m`, and its count. -/
def State.carried (s : State) (i sh j : Nat) (f : Flit) (m : Cmd) : State :=
  ((s.setFlit i f).modEng (8 + sh) (fun x => { x with cur := some m })).bump .shed sh j

/-- The wave carries unit `n` of the COPY `m`. -/
def State.carries (s : State) (i : Nat) (c : Conveyor) (k n : Nat) (m : Cmd) : State :=
  (s.copyWrites m.desc (16 * n) (s.copyData m.desc (16 * n) 16)).carried i (c.edge / 32) (if c.dir = 0 then 0 else 1)
    { dataFlit (s.copyData m.desc (16 * n) 16).data false false with member := k } { m with carried := n + 1 }

theorem waveUnit_carries {m : Cmd} {k w : Nat} (hm : s.running (8 + c.edge / 32) opMove = some m) (hk : s.member c s.img.net.nC (w % s.img.net.nC) = some k)
    (hu : s.unitFits c k (c.slice s.img.net.nC w) m n = true)
    (ht : s.takeChecks (8 + c.edge / 32) m (s.copyMet m.desc (16 * n) 16).1 (s.copyMet m.desc (16 * n) 16).2 = none) :
    s.waveUnit i c w n = s.carries i c (w % s.img.net.nC) n m := by
  unfold State.waveUnit
  dsimp only
  rw [hm, hk]
  dsimp only
  rw [hu, ht]
  rfl

/-- A unit that fits goes to a scratchpad, to the host or to device memory. -/
theorem unitFits_space {m : Cmd} {k slice : Nat} (h : s.unitFits c k slice m n = true) : copyDstSpace m.desc = 2 ∨ copyDstSpace m.desc < 2 := by
  simp only [State.unitFits, Bool.and_eq_true] at h
  obtain ⟨_, h⟩ := h
  split at h
  · simp only [Bool.and_eq_true, beq_iff_eq] at h
    exact .inl h.1.1
  · simp only [Bool.and_eq_true, Bool.or_eq_true, beq_iff_eq] at h
    rcases h.2 with h | h
    · omega
    · have := h.1.1
      omega

theorem bump_yards (s : State) (g : Grp) (i k : Nat) : (s.bump g i k).yards = s.yards := bumpBy_yards s g i k 1

theorem bump_eng (s : State) (g : Grp) (i k e : Nat) : (s.bump g i k).eng e = s.eng e := eng_of_engines (bumpBy_engines s g i k 1) e

theorem count_bump_wf (h : swf 0 s.pmon = true) (g : Grp) (i k : Nat) : (s.bump g i k).count g i k = (s.count g i k + 1) % 2 ^ 48 :=
  count_bumpBy_same s g i k 1 h

/-- A command goes on where it knows the errors that it meets to be stored and waits for no re-read. -/
theorem takeChecks_none {e : Nat} {m : Cmd} {ws : List (Nat × Nat)} {bs : List Nat} : s.takeChecks e m ws bs = none ↔
    (ws.all (fun w => m.checked.known.contains (wordKey w.1 w.2)) && bs.all (fun b => m.checked.knownMem.contains b) && !m.asks) = true := by
  unfold State.takeChecks
  split
  · next h => exact ⟨fun _ => h, fun _ => rfl⟩
  · next h => exact ⟨fun hn => absurd hn (Option.some_ne_none _), fun hc => absurd hc h⟩

theorem carried_facts (he : swf Engine.reset s.engines = true) (hp : swf 0 s.pmon = true) (i sh j : Nat) (f : Flit) (m : Cmd) :
    (s.carried i sh j f m).yards.waves = s.yards.waves ∧ ((s.carried i sh j f m).eng (8 + sh)).cur = some m ∧
    (s.carried i sh j f m).count .shed sh j = (s.count .shed sh j + 1) % 2 ^ 48 ∧ (s.carried i sh j f m).yards.spad = s.yards.spad ∧
    (s.carried i sh j f m).yards.halves = s.yards.halves := by
  unfold State.carried
  obtain ⟨flits, hf⟩ := setFlit_eq s i f
  rw [hf]
  obtain ⟨hy, hpm, heng⟩ : ((s.waved s.yards.lastWave s.yards.waves flits).modEng (8 + sh) (fun x => { x with cur := some m })).yards =
      (s.waved s.yards.lastWave s.yards.waves flits).yards ∧
      ((s.waved s.yards.lastWave s.yards.waves flits).modEng (8 + sh) (fun x => { x with cur := some m })).pmon = s.pmon ∧
      ((s.waved s.yards.lastWave s.yards.waves flits).modEng (8 + sh) (fun x => { x with cur := some m })).eng (8 + sh) =
      { s.eng (8 + sh) with cur := some m } := ⟨setEng_yards _ _ _, setEng_pmon _ _ _, eng_setEng_same _ _ _ he⟩
  generalize (s.waved s.yards.lastWave s.yards.waves flits).modEng (8 + sh) (fun x => { x with cur := some m }) = a at hy hpm heng
  have hyards := (bump_yards a .shed sh j).trans hy
  refine ⟨?_, ?_, ?_, ?_, ?_⟩
  · rw [hyards]
    rfl
  · rw [bump_eng, heng]
  · rw [count_bump_wf (by rw [hpm]; exact hp), count_of_pmon hpm]
  · rw [hyards]
    rfl
  · rw [hyards]
    rfl

theorem carries_facts (h : Flat s) (i : Nat) (c : Conveyor) (k n : Nat) (m : Cmd) : (s.carries i c k n m).yards.waves = s.yards.waves ∧
    ((s.carries i c k n m).eng (8 + c.edge / 32)).cur = some { m with carried := n + 1 } ∧
    (s.carries i c k n m).count .shed (c.edge / 32) (if c.dir = 0 then 0 else 1) = (s.count .shed (c.edge / 32) (if c.dir = 0 then 0 else 1) + 1) % 2 ^ 48 ∧
    (s.carries i c k n m).yards.spad = (s.copyWrites m.desc (16 * n) (s.copyData m.desc (16 * n) 16)).yards.spad ∧
    (s.carries i c k n m).yards.halves = s.yards.halves := by
  obtain ⟨hp, he, hw, hh, _⟩ := copyWrites_rest s m.desc (16 * n) (s.copyData m.desc (16 * n) 16)
  unfold State.carries
  generalize { dataFlit (s.copyData m.desc (16 * n) 16).data false false with member := k } = f
  generalize s.copyWrites m.desc (16 * n) (s.copyData m.desc (16 * n) 16) = a at hp he hw hh
  obtain ⟨h1, h2, h3, h4, h5⟩ := carried_facts (s := a) (by rw [he]; exact h.engines) (by rw [hp]; exact h.pmon) i (c.edge / 32) (if c.dir = 0 then 0 else 1) f
    { m with carried := n + 1 }
  exact ⟨h1.trans hw, h2, by rw [h3, count_of_pmon hp], h4, h5.trans hh⟩

/-! ## Holds, control messages and phases -/

theorem setBuf_rest (s : State) (k n : Nat) : (s.setBuf k n).pmon = s.pmon ∧ (s.setBuf k n).yards.cores = s.yards.cores ∧
    (s.setBuf k n).yards.spad = s.yards.spad ∧ (s.setBuf k n).yards.halves = s.yards.halves := ⟨rfl, rfl, rfl, rfl⟩

/-- The buffers of a half that goes on are filled, and it holds no more; nothing else changes. -/
theorem endHold_rest (s : State) (d : Nat) : (s.endHold d).pmon = s.pmon ∧ (s.endHold d).yards.cores = s.yards.cores ∧
    (s.endHold d).yards.spad = s.yards.spad ∧ (s.endHold d).yards.halves = s.yards.halves ∧ d ∉ (s.endHold d).yards.holds := by
  unfold State.endHold
  extract_lets slot rs ps
  have hbuf : ∀ (xs : List Nat) (f : State → Nat → Nat) {t : State}, (t.pmon = s.pmon ∧ t.yards.cores = s.yards.cores ∧ t.yards.spad = s.yards.spad ∧
      t.yards.halves = s.yards.halves) → ((t.each xs (fun u k => u.setBuf k (f u k))).pmon = s.pmon ∧
      (t.each xs (fun u k => u.setBuf k (f u k))).yards.cores = s.yards.cores ∧ (t.each xs (fun u k => u.setBuf k (f u k))).yards.spad = s.yards.spad ∧
      (t.each xs (fun u k => u.setBuf k (f u k))).yards.halves = s.yards.halves) := fun xs f {t} ht =>
    each_induct (R := fun t => t.pmon = s.pmon ∧ t.yards.cores = s.yards.cores ∧ t.yards.spad = s.yards.spad ∧ t.yards.halves = s.yards.halves)
      (fun u k hu => show (u.setBuf k (f u k)).pmon = s.pmon ∧ _ from hu) xs ht
  obtain ⟨hp, hc, hs, hh⟩ := hbuf ps (fun u k => min (bufDepth - ps.count k) (u.waitingFlits k))
    (hbuf rs (fun u k => max (rs.count k) (u.waitingFlits k)) (t := s) ⟨rfl, rfl, rfl, rfl⟩)
  refine ⟨hp, hc, hs, hh, fun hin => ?_⟩
  simpa using (List.mem_filter.1 hin).2

theorem exec_crossingHoldEnd (hh : s.yards.holds.contains i = true) (hm : s.pwr.mod = .ready) :
    exec (.crossingHoldEnd i n) s = .next ((s.endHold i).bumpBy .half i 19 n) := by
  have hx : exec (.crossingHoldEnd i n) s = execCrossingHoldEnd i n s := rfl
  have hgo : ¬((!s.yards.holds.contains i) = true ∨ s.pwr.mod ≠ .ready) := by simp [hm, List.contains_iff_mem.1 hh]
  rw [hx, execCrossingHoldEnd]
  exact congrArg Host.Outcome.next (if_neg hgo)

theorem exec_crossingHoldEnd_none (hh : s.yards.holds.contains i = false) : exec (.crossingHoldEnd i n) s = .next s := by
  have hx : exec (.crossingHoldEnd i n) s = execCrossingHoldEnd i n s := rfl
  rw [hx, execCrossingHoldEnd]
  exact congrArg Host.Outcome.next (if_pos (.inl (by rw [hh]; rfl)))

theorem exec_ctlBad (hn : 0x0E ≤ n) : exec (.ctlBad i n) s = .next (s.bump .half i 22) := by
  have hx : exec (.ctlBad i n) s = execCtlBad i n s := rfl
  rw [hx, execCtlBad]
  exact congrArg Host.Outcome.next (if_pos hn)

/-- The core begins its phase. -/
def State.phaseBegins (s : State) (core phase waited : Nat) : State :=
  (({ s with freeCtr := s.freeCtr + 8 } : State).modCore core (fun x => { x with phase := phase, phaseAt := (s.rclk (physOf core).yh).yclk })).bumpBy .half
    (physOf core).yh 13 waited

theorem exec_phaseStart {e w : Nat} {m : Cmd} (he : s.engineOf (physOf i).yh = some e) (hc : s.phased e = some m) (ha : s.engAligned e = false)
    (ho : s.phaseOpen (s.ctrlOf m.sched.header) i n = true) : exec (.phaseStart i n w) s = .next (s.phaseBegins i n w) := by
  have hx : exec (.phaseStart i n w) s = execPhaseStart i n w s := rfl
  rw [hx, execPhaseStart]
  dsimp only
  rw [he]
  dsimp only
  rw [hc]
  exact congrArg Host.Outcome.next ((if_neg (Bool.eq_false_iff.1 ha)).trans (if_pos ho))

theorem phaseBegins_facts (h : Flat s) (core phase waited : Nat) : ((s.phaseBegins core phase waited).core core).phase = phase ∧
    ((s.phaseBegins core phase waited).core core).spin = (s.core core).spin ∧
    (s.phaseBegins core phase waited).count .half (physOf core).yh 13 = (s.count .half (physOf core).yh 13 + waited) % 2 ^ 48 := by
  have hcore : ((({ s with freeCtr := s.freeCtr + 8 } : State).modCore core (fun x =>
      { x with phase := phase, phaseAt := (s.rclk (physOf core).yh).yclk })).core core) =
      { s.core core with phase := phase, phaseAt := (s.rclk (physOf core).yh).yclk } := core_setCore_same _ core _ h.cores
  unfold State.phaseBegins
  have hpm : (({ s with freeCtr := s.freeCtr + 8 } : State).modCore core (fun x =>
      { x with phase := phase, phaseAt := (s.rclk (physOf core).yh).yclk })).pmon = s.pmon := rfl
  generalize ({ s with freeCtr := s.freeCtr + 8 } : State).modCore core (fun x => { x with phase := phase, phaseAt := (s.rclk (physOf core).yh).yclk }) = a
    at hcore hpm
  have hc : (a.bumpBy .half (physOf core).yh 13 waited).core core = a.core core := core_of_cores (congrArg Yards.cores (bumpBy_yards a .half _ 13 waited)) core
  have hcount := count_bumpBy_same a .half (physOf core).yh 13 waited (by rw [hpm]; exact h.pmon)
  rw [count_of_pmon hpm] at hcount
  rw [hc, hcore]
  exact ⟨rfl, rfl, hcount⟩

/-! ## O50 -/

/-- Settles O50: a launch writes the conveyor's own marks alone, so the unit that fits before it fits after it, and its write stands in the cells that it
reaches (`copyWrites_read`). -/
theorem networkEvents : Obligations.NetworkEvents := by
  unfold Obligations.NetworkEvents
  intro s i n hinv
  have h : Flat s := (flat_iff s).2 hinv
  refine ⟨fun c frame hc hf hl h1 h2 => ⟨_, exec_conveyorWave_idle hc hf hl h1 h2, launched_wave s i c frame, launched_frame hf, launched_rest s i c frame⟩,
    fun c frame m k hc hf hl hm hd hr hk hu ht => ⟨_, exec_conveyorWave_serves hc hf hl (by rw [hm]; decide) (by rw [hm]; decide) hd, ?_⟩,
    fun hh hm => ⟨_, exec_crossingHoldEnd hh hm, ?_⟩, fun hh => exec_crossingHoldEnd_none hh,
    fun hn => ⟨_, exec_ctlBad hn, count_bump_same h .half i 22⟩,
    fun e c w he hc ha ho => ⟨_, exec_phaseStart he hc ha ho, phaseBegins_facts h i n w⟩⟩
  · have hwave := launched_wave s i c frame
    rw [if_pos hd] at hwave
    have hflat := launched_flat h i c frame
    obtain ⟨flits, hs⟩ := launched_eq s i c frame
    generalize s.launched i c frame = a at hwave hflat hs
    have hunit : a.waveUnit i c (s.wave i) n = a.carries i c (s.wave i % a.img.net.nC) n m := by
      subst hs
      exact waveUnit_carries hr hk hu (takeChecks_none.2 (takeChecks_none.1 ht))
    have hsame : a.yards.spad = s.yards.spad ∧ (∀ k o, a.cell k o = s.cell k o) ∧ (∀ x, a.coreAt x = s.coreAt x) ∧
        a.copyData m.desc (16 * n) 16 = s.copyData m.desc (16 * n) 16 ∧ a.pmon = s.pmon := by
      subst hs
      exact ⟨rfl, fun _ _ => rfl, fun _ => rfl, rfl, rfl⟩
    obtain ⟨hspad0, hcell, hcore, hdata, hpmon⟩ := hsame
    obtain ⟨hw, hcur, hcount, hspad, hhalves⟩ := carries_facts hflat i c (s.wave i % a.img.net.nC) n m
    rw [hunit]
    refine ⟨?_, hcur, ?_, fun h2 hn => ?_, fun hne => ?_⟩
    · rw [← hwave, State.wave, State.wave]
      exact congrArg (fun x => sget 0 x i) hw
    · rw [hcount, count_of_pmon hpmon]
    · have hlen : (a.copyData m.desc (16 * n) 16).data.length = 16 := length_copyData _ _ _ _
      have hread := copyWrites_read hflat m.desc (16 * n) (a.copyData m.desc (16 * n) 16) (by omega) (by
        rw [hlen, hcore]
        simp only [hcell]
        exact hn)
      obtain ⟨_, _, _, hh, _⟩ := copyWrites_rest a m.desc (16 * n) (a.copyData m.desc (16 * n) 16)
      rw [hlen, hcore, ← spadRead_of hspad (hhalves.trans hh.symm), hdata] at hread
      exact hread
    · exact hspad.trans (((copyWrites_rest _ _ _ _).2.2.2.2 ((unitFits_space hu).resolve_left hne)).trans hspad0)
  · obtain ⟨hp, hc, hs, hhv, hout⟩ := endHold_rest s i
    have hcount := count_bumpBy_same (s.endHold i) .half i 19 n (by rw [hp]; exact h.pmon)
    rw [count_of_pmon hp] at hcount
    have hy := bumpBy_yards (s.endHold i) .half i 19 n
    refine ⟨hcount, ?_, ?_, ?_, ?_⟩
    · rw [hy, hc]
    · rw [hy, hs]
    · rw [hy, hhv]
    · rw [hy]
      exact hout

end Sys2Proof.Machine
end

section
/-!
SUPPORT. What the counting of faults and its consequences leave alone (R497 to R501).
-/
namespace Sys2Proof.Machine

variable {s t u : State} {x : FaultUnit} {e k : Nat}

/-! ## The recorder and the yards -/

theorem trace_yards (s : State) (a b c d : Nat) (x : Bytes) : (s.trace a b c d x).yards = s.yards := by
  unfold State.trace
  split
  · split
    · exact bump_yards _ _ _ _
    · rfl
  · rfl

theorem event_yards (s : State) (b : EventBit) : (s.event b).yards = s.yards := by
  unfold State.event
  split <;> rfl

theorem msix_yards (s : State) (v : Nat) : (s.msix v).yards = s.yards := by
  unfold State.msix
  split <;> rfl

theorem ringHost_yards (s : State) (v : Nat) : (s.ringHost v).yards = s.yards := by
  unfold State.ringHost
  dsimp only
  split
  · rw [event_yards]
    rfl
  · rw [msix_yards, event_yards]
    rfl

theorem inBand_yards (s : State) (b : Nat) : (s.inBand b).yards = s.yards := by
  unfold State.inBand
  split <;> rfl

theorem startFlush_yards (s : State) : s.startFlush.yards = s.yards := by
  unfold State.startFlush
  split
  · rfl
  · split <;> rfl

theorem raise_yards (s : State) (ev : Ev) (dom arg : Nat) : (s.raise ev dom arg).yards = s.yards := by
  unfold State.raise State.raiseBy
  extract_lets id sev trig off regs s0 pl s1 s2 s3
  have h1 : s1.yards = s.yards := by
    show s0.yards = s.yards
    simp only [s0]
    split <;> rfl
  have h2 : s2.yards = s.yards := by
    simp only [s2]
    split
    · exact (trace_yards ..).trans h1
    · exact (trace_yards ..).trans h1
    · exact (bump_yards s1 .hub 2 2).trans h1
  have h3 : s3.yards = s.yards := by
    simp only [s3]
    rw [inBand_yards, ringHost_yards, h2]
  split
  · rfl
  · split
    · exact bump_yards _ _ _ _
    · split
      · split
        · exact h3
        · exact (startFlush_yards s3).trans h3
      · exact h2

theorem journalAppend_yards (s : State) (o : Bytes) : (s.journalAppend o).yards = s.yards := by
  unfold State.journalAppend State.program
  rfl

theorem recordPatch_yards (s : State) (o : Bytes) (im : Image) : (s.recordPatch o im).yards = s.yards := by
  unfold State.recordPatch
  split
  · extract_lets s1 s2
    rw [raise_yards]
    exact journalAppend_yards s o
  · rw [raise_yards]

/-! ## The counters of faults -/

/-- Counter index `k` is none that the counting of a fault, or what it brings, moves: besides the recorder's those of the table's evictions, of
discarded pairs, of replays and of halters, and those of re-reads. -/
structure FaultIndex (k : Nat) : Prop where
  other : OtherIndex k
  rest : k % 32 ≠ 6 ∧ k % 32 ≠ 7 ∧ k % 32 ≠ 9 ∧ k % 32 ≠ 29
  reread : k % 32 ≠ 5 ∧ k % 32 ≠ 23 ∧ k % 32 ≠ 24

theorem count_bumpBy_index (s : State) (g g' : Grp) (i i' n : Nat) {j k : Nat} (h : k % 32 ≠ j % 32) : (s.bumpBy g' i' j n).count g i k = s.count g i k := by
  refine count_bumpBy_ne s g' i' j n g i k ?_
  unfold pmonOff
  cases g <;> cases g' <;> simp only [Grp.base] <;> omega

theorem count_bump_index (s : State) (g g' : Grp) (i i' : Nat) {j k : Nat} (h : k % 32 ≠ j % 32) : (s.bump g' i' j).count g i k = s.count g i k :=
  count_bumpBy_index s g g' i i' 1 h

/-! ## What stands still -/

/-- What no fault's counting and no replay moves: the content of scratchpads and of device memory with its parity, the re-reads that are queued, and the
counters of other things. -/
structure FaultStays (s t : State) : Prop where
  bad : t.yards.bad = s.yards.bad
  checks : t.yards.checks = s.yards.checks
  spad : t.yards.spad = s.yards.spad
  halves : t.yards.halves = s.yards.halves
  memBad : t.mem.bad = s.mem.bad
  data : t.mem.data = s.mem.data
  count : ∀ k, FaultIndex k → ∀ g i, t.count g i k = s.count g i k

theorem FaultStays.refl (s : State) : FaultStays s s := ⟨rfl, rfl, rfl, rfl, rfl, rfl, fun _ _ _ _ => rfl⟩

theorem FaultStays.trans (h : FaultStays s t) (k : FaultStays t u) : FaultStays s u :=
  ⟨k.bad.trans h.bad, k.checks.trans h.checks, k.spad.trans h.spad, k.halves.trans h.halves, k.memBad.trans h.memBad, k.data.trans h.data,
    fun j hj g i => (k.count j hj g i).trans (h.count j hj g i)⟩

/-- Where yards, device memory and counters stand. -/
theorem FaultStays.of_same (hy : t.yards = s.yards) (hm : t.mem = s.mem) (hp : ∀ k, FaultIndex k → ∀ g i, t.count g i k = s.count g i k) : FaultStays s t := by
  refine ⟨?_, ?_, ?_, ?_, ?_, ?_, hp⟩
  · rw [hy]
  · rw [hy]
  · rw [hy]
  · rw [hy]
  · rw [hm]
  · rw [hm]

theorem raise_stays (s : State) (ev : Ev) (dom arg : Nat) : FaultStays s (s.raise ev dom arg) :=
  .of_same (raise_yards s ev dom arg) (raise_mem s ev dom arg) fun _ hk g i => hk.other.raise s ev dom arg g i

theorem trace_stays (s : State) (a b c d : Nat) (x : Bytes) : FaultStays s (s.trace a b c d x) :=
  .of_same (trace_yards s a b c d x) (trace_mem s a b c d x) fun _ hk g i => hk.other.trace s a b c d x g i

theorem bumpBy_stays (s : State) (g : Grp) (i j n : Nat) (hj : ∀ k, FaultIndex k → k % 32 ≠ j % 32) : FaultStays s (s.bumpBy g i j n) :=
  .of_same (bumpBy_yards s g i j n) (bumpBy_mem s g i j n) fun k hk g' i' => count_bumpBy_index s g' g i' i n (hj k hk)

theorem recordPatch_stays (s : State) (o : Bytes) (im : Image) : FaultStays s (s.recordPatch o im) :=
  .of_same (recordPatch_yards s o im) (recordPatch_mem s o im) fun _ hk g i => hk.other.recordPatch s o im g i

theorem landHalter_stays (s : State) (g : Halter) : FaultStays s (s.landHalter g) := by
  unfold State.landHalter State.ownTopo
  split
  · exact .refl s
  · exact recordPatch_stays s _ _

theorem halt_stays (s : State) (c : PhysCore) (reason : Nat) : FaultStays s (s.halt c reason) := by
  unfold State.halt
  extract_lets n
  split
  · exact .refl s
  · obtain ⟨hy, _⟩ := noteHalt_rest s c
    have hnote : FaultStays s (s.noteHalt c) := by
      refine .of_same hy ?_ (fun k _ g i => count_of_pmon ?_ g i k)
      · unfold State.noteHalt
        split <;> rfl
      · unfold State.noteHalt
        split <;> rfl
    have hcore : FaultStays (s.noteHalt c) ((s.noteHalt c).modCore n (fun k => { k with halter := some reason })) :=
      ⟨rfl, rfl, rfl, rfl, rfl, rfl, fun _ _ _ _ => rfl⟩
    exact ((hnote.trans hcore).trans (bumpBy_stays _ .half c.yh 29 1 fun k hk => hk.rest.2.2.2)).trans (raise_stays _ _ _ _)

theorem queueItem_stays (s : State) (i : RepairItem) : FaultStays s (s.queueItem i) := ⟨rfl, rfl, rfl, rfl, rfl, rfl, fun _ _ _ _ => rfl⟩

theorem modRel_stays (s : State) (f : Rel → Rel) : FaultStays s (s.modRel f) := ⟨rfl, rfl, rfl, rfl, rfl, rfl, fun _ _ _ _ => rfl⟩

theorem queueColumn_stays (s : State) (c : PhysCore) (cmds : List Cmd) (req : Option Req) : FaultStays s (s.queueColumn c cmds req) := by
  unfold State.queueColumn
  extract_lets same
  split
  · exact modRel_stays _ _
  · exact queueItem_stays _ _

theorem modCore_stays (s : State) (k : Nat) (f : Core → Core) : FaultStays s (s.modCore k f) := ⟨rfl, rfl, rfl, rfl, rfl, rfl, fun _ _ _ _ => rfl⟩

theorem halter_stays (s : State) (c : PhysCore) (reason : Nat) (cmds : List Cmd) (req : Option Req) : FaultStays s (s.halter c reason cmds req) := by
  unfold State.halter
  extract_lets new s1
  have h1 : FaultStays s s1 := halt_stays s c reason
  have h2 : FaultStays s (if new then s1.recordHalter ⟨c.yh, c.pcol, c.row, reason⟩ else s1) := by
    split
    · unfold State.recordHalter
      split
      · split
        · exact h1.trans (landHalter_stays s1 _)
        · exact h1.trans (modRel_stays s1 _)
      · exact h1.trans (landHalter_stays s1 _)
    · exact h1
  exact h2.trans (queueColumn_stays _ c cmds req)

theorem modShed_stays (s : State) (k : Nat) (f : Shed → Shed) : FaultStays s (s.modShed k f) := ⟨rfl, rfl, rfl, rfl, rfl, rfl, fun _ _ _ _ => rfl⟩

theorem deviceFault_stays (s : State) (k dev : Nat) : FaultStays s (s.deviceFault k dev) := by
  have hlost : ∀ d, FaultStays s ((s.modShed k (fun x => { x with noSpare := true, copying := if dev = 12 then none else x.copying })).raise .memDeviceLost
      (shedDomain k) (k + d * 0x100)) := fun d => (modShed_stays s k _).trans (raise_stays _ _ _ _)
  unfold State.deviceFault
  extract_lets m sh lost
  split
  · split
    · exact hlost _
    · split
      · exact hlost _
      · exact .refl s
  · split
    · exact .refl s
    · split
      · exact modShed_stays s k _
      · exact hlost _

theorem lasting_stays (s : State) (x : FaultUnit) : FaultStays s (s.lasting x) := by
  unfold State.lasting
  split
  · exact halter_stays s _ _ _ _
  · exact (modCore_stays s _ _).trans (halter_stays _ _ _ _ _)
  · exact queueItem_stays s _
  · exact .refl s
  · exact ⟨rfl, rfl, rfl, rfl, rfl, rfl, fun _ _ _ _ => rfl⟩
  · exact deviceFault_stays s _ _
  · exact .refl s

/-! ## An event is counted -/

/-- The entry of a unit moves the reliability unit's own tables alone, and a table's eviction is counted. -/
theorem countEvent_rest (s : State) (x : FaultUnit) : (s.countEvent x).2.yards = s.yards ∧ (s.countEvent x).2.mem = s.mem ∧
    (s.countEvent x).2.engines = s.engines ∧ (∀ k, FaultIndex k → ∀ g i, (s.countEvent x).2.count g i k = s.count g i k) ∧
    (∀ y ∈ s.rel.passed, y ∈ (s.countEvent x).2.rel.passed) ∧ ((s.countEvent x).1 = true → x ∈ (s.countEvent x).2.rel.passed) := by
  unfold State.countEvent
  extract_lets th s0 list old y entry s1
  split
  · exact ⟨rfl, rfl, rfl, fun _ _ _ _ => rfl, fun y hy => List.mem_append_left _ hy, fun _ => List.mem_append_right _ (List.mem_singleton.2 rfl)⟩
  · split
    · have h1 : s1.yards = s.yards ∧ s1.mem = s.mem ∧ s1.engines = s.engines ∧ (∀ k, FaultIndex k → ∀ g i, s1.count g i k = s.count g i k) ∧
          s1.rel.passed = s.rel.passed := by
        simp only [s1]
        split
        · exact ⟨rfl, rfl, rfl, fun _ _ _ _ => rfl, rfl⟩
        · unfold State.evict
          split
          · exact ⟨rfl, rfl, rfl, fun _ _ _ _ => rfl, rfl⟩
          · split
            · exact ⟨rfl, rfl, rfl, fun _ _ _ _ => rfl, rfl⟩
            · next tr _ =>
              generalize hr : s0.modRel (fun r => { r with track := r.track.erase tr }) = a
              have ha : a.yards = s.yards ∧ a.mem = s.mem ∧ a.engines = s.engines ∧ a.pmon = s.pmon ∧ a.rel.passed = s.rel.passed := by
                rw [← hr]
                exact ⟨rfl, rfl, rfl, rfl, rfl⟩
              obtain ⟨hy, hm, he, hp, hq⟩ := ha
              refine ⟨(bump_yards a _ _ _).trans hy, (bump_mem a _ _ _).trans hm, (bumpBy_engines a .hub s0.hubs.active 6 1).trans he, fun k hk g i => ?_, ?_⟩
              · rw [count_bump_index a g .hub i s0.hubs.active hk.rest.1]
                exact count_of_pmon hp g i k
              · rw [show (a.bump .hub s0.hubs.active 6).rel = a.rel from bumpBy_rel a .hub s0.hubs.active 6 1, hq]
      obtain ⟨hy, hm, he, hc, hp⟩ := h1
      exact ⟨hy, hm, he, hc, fun y hin => by rw [show (s1.modRel _).rel.passed = s1.rel.passed from rfl, hp]; exact hin, fun h => nomatch h⟩
    · exact ⟨rfl, rfl, rfl, fun _ _ _ _ => rfl, fun y hy => hy, fun h => nomatch h⟩

theorem countEvent_stays (s : State) (x : FaultUnit) : FaultStays s (s.countEvent x).2 :=
  have ⟨hy, hm, _, hc, _⟩ := countEvent_rest s x
  .of_same hy hm hc

theorem countFault_stays (s : State) (x : FaultUnit) : FaultStays s (s.countFault x) := by
  unfold State.countFault
  extract_lets y
  split
  · split
    · exact (countEvent_stays s x).trans (lasting_stays _ x)
    · exact countEvent_stays s x
  · exact .refl s

/-- A fault that makes no unit lasting leaves the yards and the engines. -/
theorem countFault_quiet (h : s.counts x = false ∨ (s.countEvent x).1 = false) : (s.countFault x).yards = s.yards ∧ (s.countFault x).engines = s.engines := by
  obtain ⟨hy, _, he, _⟩ := countEvent_rest s x
  unfold State.countFault
  extract_lets y
  split
  · next hc =>
    rw [if_neg (Bool.eq_false_iff.1 (h.resolve_left (by rw [hc]; decide)))]
    exact ⟨hy, he⟩
  · exact ⟨rfl, rfl⟩

theorem countFault_lasts (hc : s.counts x = true) (hl : (s.countEvent x).1 = true) : s.countFault x = (s.countEvent x).2.lasting x := by
  unfold State.countFault
  exact (if_pos hc).trans (if_pos hl)

/-! ## Replays -/

theorem replay_rest (s : State) (e : Nat) : (s.replay e).yards = s.yards ∧ (s.replay e).mem = s.mem ∧ (s.replay e).rel = s.rel ∧
    ∀ k, FaultIndex k → ∀ g i, (s.replay e).count g i k = s.count g i k := by
  unfold State.replay State.traceReplay
  split
  · next c _ =>
    split
    · have h1 : ∃ a : State, a = (if e = 16 then s.discardSent else s).modEng e (fun x => { x with cur := some { c with replayed := true } }) ∧
          a.yards = s.yards ∧ a.mem = s.mem ∧ a.rel = s.rel ∧ ∀ k, FaultIndex k → ∀ g i, a.count g i k = s.count g i k := by
        refine ⟨_, rfl, ?_⟩
        split
        · unfold State.discardSent
          generalize s.route.sent.length = n
          refine ⟨(setEng_yards _ _ _).trans (bumpBy_yards s .route 0 7 n), (setEng_mem _ _ _).trans (bumpBy_mem s .route 0 7 n),
            (setEng_rel _ _ _).trans (bumpBy_rel s .route 0 7 n), fun k hk g i => ?_⟩
          exact (count_of_pmon (setEng_pmon _ _ _) g i k).trans (count_bumpBy_index s g .route i 0 n hk.rest.2.1)
        · exact ⟨setEng_yards _ _ _, setEng_mem _ _ _, setEng_rel _ _ _, fun k _ g i => count_of_pmon (setEng_pmon _ _ _) g i k⟩
      obtain ⟨a, ha, hy, hm, hr, hc⟩ := h1
      rw [← ha]
      have htr : ((a.bump .engine e 9).trace 8 0xB 0 e (toBytes 2 c.queue ++ toBytes 8 c.seq ++ toBytes 1 (dOp c.desc))).rel = (a.bump .engine e 9).rel := by
        unfold State.trace
        split
        · split
          · exact bumpBy_rel _ .hub 2 4 1
          · rfl
        · rfl
      refine ⟨(trace_yards ..).trans ((bump_yards a _ _ _).trans hy), (trace_mem ..).trans ((bump_mem a _ _ _).trans hm),
        htr.trans ((bumpBy_rel a .engine e 9 1).trans hr), fun k hk g i => ?_⟩
      exact (hk.other.trace _ _ _ _ _ _ g i).trans ((count_bump_index a g .engine i e hk.rest.2.2.1).trans (hc k hk g i))
    · exact ⟨rfl, rfl, rfl, fun _ _ _ _ => rfl⟩
  · exact ⟨rfl, rfl, rfl, fun _ _ _ _ => rfl⟩

theorem replay_stays (s : State) (e : Nat) : FaultStays s (s.replay e) :=
  have ⟨hy, hm, _, hc⟩ := replay_rest s e
  .of_same hy hm hc

theorem flitReplay_rest (s : State) (e : Option Nat) : (s.flitReplay e).yards = s.yards ∧ (s.flitReplay e).rel = s.rel ∧ FaultStays s (s.flitReplay e) := by
  unfold State.flitReplay
  split
  · next e =>
    obtain ⟨hy, _, hr, _⟩ := replay_rest s e
    exact ⟨hy, hr, replay_stays s e⟩
  · exact ⟨rfl, rfl, .refl s⟩

theorem replayFor_stays (s : State) (e : Option Nat) : FaultStays s (s.replayFor e) := by
  unfold State.replayFor
  split
  · exact replay_stays s _
  · exact .refl s

end Sys2Proof.Machine
end

section
/-!
PROOFS. A unit past its threshold, poisoned flits and control messages, slips, re-reads and retries (R259, R273, R293, R331, R332, R497 to R499).
-/
namespace Sys2Proof.Machine

variable {s t u : State} {x : FaultUnit} {c : PhysCore}

/-! ## A unit past its threshold -/

theorem counts_of_bump (s : State) (g : Grp) (i k : Nat) (x : FaultUnit) : (s.bump g i k).counts x = s.counts x := by
  unfold State.counts
  have hr : (s.bump g i k).rel = s.rel := bumpBy_rel s g i k 1
  have hin : ∀ d p, (s.bump g i k).inUse d p = s.inUse d p := fun d p => by
    unfold State.inUse State.topo
    rw [bump_img]
  have hcore : ∀ n, (s.bump g i k).core n = s.core n := fun n => core_of_cores (congrArg Yards.cores (bump_yards s g i k)) n
  rw [hr]
  cases x <;> simp only [hin, hcore]

/-- Whether an event makes its unit lasting turns on the image, the tables and the time. -/
theorem countEvent_lasts_of_bump (s : State) (g : Grp) (i k : Nat) (x : FaultUnit) : ((s.bump g i k).countEvent x).1 = (s.countEvent x).1 := by
  have hr : (s.bump g i k).rel = s.rel := bumpBy_rel s g i k 1
  have hi : (s.bump g i k).img = s.img := bump_img s g i k
  have hh : (s.bump g i k).hclk = s.hclk := bumpBy_hclk s g i k 1
  generalize s.bump g i k = t at hr hi hh ⊢
  have hth : ∀ x, t.threshold x = s.threshold x := fun x => by rw [State.threshold, hi]; rfl
  have hlive : t.trackLive = s.trackLive := funext fun a => by rw [State.trackLive, hh, hth]; rfl
  have hmod : (t.modRel (fun r => { r with track := r.track.filter t.trackLive })).rel = (s.modRel (fun r => { r with track := r.track.filter s.trackLive })).rel := by
    rw [hlive]
    show ({ t.rel with track := t.rel.track.filter s.trackLive } : Rel) = { s.rel with track := s.rel.track.filter s.trackLive }
    rw [hr]
  unfold State.countEvent
  extract_lets tt t0 tlist told ty tentry ts1 st s0 list old y entry s1
  have hy : ty = y := by
    simp only [ty, y, told, old, tlist, list, t0, s0, tt, st]
    rw [hmod, hth, hh]
  rw [hy]
  split
  · rfl
  · split <;> rfl

theorem queueColumn_passed (s : State) (k : PhysCore) (cmds : List Cmd) (req : Option Req) : (s.queueColumn k cmds req).rel.passed = s.rel.passed := by
  unfold State.queueColumn
  extract_lets same
  split <;> rfl

theorem landHalter_same_rel (h : Flat s) (g : Halter) : (s.landHalter g).rel = s.rel := by
  obtain ⟨_, _, _⟩ := ownTopoWrites_facts
  exact (landHalter_keeps (P := False) (W := fun q => ownTopoWrites q = true) (Keeps.rfl' h) g).same .rel Bool.false_ne_true

theorem landHalter_yards (s : State) (g : Halter) : (s.landHalter g).yards = s.yards := by
  unfold State.landHalter State.ownTopo
  split
  · rfl
  · exact recordPatch_yards s _ _

theorem recordHalter_stands (h : Flat s) (g : Halter) : (s.recordHalter g).yards = s.yards ∧ (s.recordHalter g).rel.passed = s.rel.passed := by
  have hland : (s.landHalter g).yards = s.yards ∧ (s.landHalter g).rel.passed = s.rel.passed :=
    ⟨landHalter_yards s g, congrArg Rel.passed (landHalter_same_rel h g)⟩
  unfold State.recordHalter
  split
  · split
    · exact hland
    · exact ⟨rfl, rfl⟩
  · exact hland

/-- A halter leaves its core fenced and the units that have passed as they are. -/
theorem halter_fences (h : Flat s) (k : PhysCore) (reason : Nat) (cmds : List Cmd) (req : Option Req) :
    ((s.halter k reason cmds req).core (coreNum k)).halter.isSome = true ∧ (s.halter k reason cmds req).rel.passed = s.rel.passed := by
  have hh := halt_halted h k reason
  unfold State.halter
  extract_lets new s1
  have hrec : ∀ a : State, a = (if new then s1.recordHalter ⟨k.yh, k.pcol, k.row, reason⟩ else s1) → a.yards = s1.yards ∧ a.rel.passed = s1.rel.passed := by
    intro a ha
    rw [ha]
    split
    · exact recordHalter_stands hh.flat _
    · exact ⟨rfl, rfl⟩
  obtain ⟨hy, hp⟩ := hrec _ rfl
  refine ⟨?_, ?_⟩
  · rw [core_of_cores (congrArg Yards.cores ((queueColumn_rest _ k cmds req).1.trans hy)), hh.halter]
    cases (s.core (coreNum k)).halter <;> rfl
  · rw [queueColumn_passed, hp, hh.rel]

theorem deviceFault_passed (h : Flat s) (k dev : Nat) : (s.deviceFault k dev).rel = s.rel := by
  have hlost : ∀ d, ((s.modShed k (fun x => { x with noSpare := true, copying := if dev = 12 then none else x.copying })).raise .memDeviceLost
      (shedDomain k) (k + d * 0x100)).rel = s.rel := fun d => raise_same (modShed_flat h k _) .memDeviceLost (shedDomain k) (k + d * 0x100) .rel
  unfold State.deviceFault
  extract_lets m sh lost
  split
  · split
    · exact hlost _
    · split
      · exact hlost _
      · rfl
  · split
    · rfl
    · split
      · rfl
      · exact hlost _

/-- What a unit past its threshold brings leaves the mark, and fences the core of a core or of a core router. -/
theorem lasting_facts (h : Flat s) (x : FaultUnit) : (s.lasting x).rel.passed = s.rel.passed ∧
    ∀ k, x = .core k ∨ x = .router k → ((s.lasting x).core (coreNum k)).halter.isSome = true := by
  have _ := anyPart_fact
  unfold State.lasting
  split
  · next c =>
    obtain ⟨hc, hp⟩ := halter_fences h c 1 [] none
    refine ⟨hp, fun k hk => ?_⟩
    obtain rfl : c = k := by simpa using hk
    exact hc
  · next c =>
    have hf : Flat (s.modCore (coreNum c) (fun k => { k with routerFault := true })) :=
      (modCore_keeps (P := False) (W := anyPart) (Keeps.rfl' h) (coreNum c) _).flat
    obtain ⟨hc, hp⟩ := halter_fences hf c 1 [] none
    refine ⟨hp, fun k hk => ?_⟩
    obtain rfl : c = k := by simpa using hk
    exact hc
  · exact ⟨rfl, fun k hk => by simp at hk⟩
  · exact ⟨rfl, fun k hk => by simp at hk⟩
  · exact ⟨rfl, fun k hk => by simp at hk⟩
  · exact ⟨congrArg Rel.passed (deviceFault_passed h _ _), fun k hk => by simp at hk⟩
  · exact ⟨rfl, fun k hk => by simp at hk⟩

theorem countEvent_flat (h : Flat s) (x : FaultUnit) : Flat (s.countEvent x).2 := by
  have _ := anyPart_fact
  exact (countEvent_keeps (P := False) (W := anyPart) (Keeps.rfl' h) x).flat

/-- A unit that passes its threshold is marked, and the core of a core or of a core router fenced. -/
theorem countFault_handles (h : Flat s) (hc : s.counts x = true) (hl : (s.countEvent x).1 = true) : x ∈ (s.countFault x).rel.passed ∧
    ∀ k, x = .core k ∨ x = .router k → ((s.countFault x).core (coreNum k)).halter.isSome = true := by
  obtain ⟨-, -, -, -, -, hin⟩ := countEvent_rest s x
  obtain ⟨hp, hk⟩ := lasting_facts (countEvent_flat h x) x
  rw [countFault_lasts hc hl]
  exact ⟨hp ▸ hin hl, hk⟩

theorem not_passed_of_counts (hc : s.counts x = true) : s.rel.passed.contains x = false := by
  unfold State.counts at hc
  rw [Bool.and_eq_true] at hc
  simpa using hc.1

theorem computeFault_passes (hc : s.counts x = true) (hin : x ∈ (s.countFault x).rel.passed) (c : PhysCore) : s.computeFault c x = s.countFault x := by
  unfold State.computeFault
  extract_lets t
  have hin' : t.rel.passed.contains x = true := List.contains_iff_mem.2 hin
  have hnot := not_passed_of_counts hc
  exact if_pos ⟨by rw [hnot]; rfl, hin'⟩

/-- A fault of a core router: the flit is poisoned, counted, and its event is one of the router's. -/
def State.poisoned (s : State) (c : PhysCore) (k : Nat) : State := (s.bump .half c.yh k).countFault (.router c)

theorem poisoned_facts (h : Flat s) (c : PhysCore) {k : Nat} (hk : FaultIndex k) :
    (s.poisoned c k).count .half c.yh k = (s.count .half c.yh k + 1) % 2 ^ 48 ∧
    (s.counts (.router c) = false ∨ (s.countEvent (.router c)).1 = false → (s.poisoned c k).yards = s.yards ∧ (s.poisoned c k).engines = s.engines) ∧
    (s.counts (.router c) = true → (s.countEvent (.router c)).1 = true →
      FaultUnit.router c ∈ (s.poisoned c k).rel.passed ∧ ((s.poisoned c k).core (coreNum c)).halter.isSome = true) := by
  refine ⟨?_, fun hn => ?_, fun hc hl => ?_⟩
  · exact ((countFault_stays (s.bump .half c.yh k) (.router c)).count k hk .half c.yh).trans (count_bump_same h .half c.yh k)
  · rw [← counts_of_bump s .half c.yh k, ← countEvent_lasts_of_bump s .half c.yh k] at hn
    obtain ⟨hy, he⟩ := countFault_quiet hn
    exact ⟨hy.trans (bump_yards s _ _ _), he.trans (bumpBy_engines s .half c.yh k 1)⟩
  · rw [← counts_of_bump s .half c.yh k] at hc
    rw [← countEvent_lasts_of_bump s .half c.yh k] at hl
    obtain ⟨hin, hhalt⟩ := countFault_handles (bump_flat h .half c.yh k) hc hl
    exact ⟨hin, hhalt c (.inr rfl)⟩

theorem exec_faultReport (hl : s.live = true) (event : FaultEvent) (e : Option Nat) : exec (.faultReport event e) s = .next (s.faultReport event e) := by
  have hx : exec (.faultReport event e) s = execFaultReport event e s := rfl
  rw [hx, execFaultReport]
  exact congrArg Host.Outcome.next (if_pos hl)

theorem core_of_yards (h : t.yards = s.yards) (n : Nat) : t.core n = s.core n := core_of_cores (congrArg Yards.cores h) n

/-- A report of a unit that passes its threshold marks it, and fences the core that it names. -/
theorem unitFault_handles (h : Flat s) (hx : x ≠ .hub) (hc : s.counts x = true) (hl : (s.countEvent x).1 = true) (e : Option Nat) :
    x ∈ (s.unitFault x e).rel.passed ∧ ∀ k, x = .core k ∨ x = .router k → ((s.unitFault x e).core (coreNum k)).halter.isSome = true := by
  obtain ⟨hin, hhalt⟩ := countFault_handles h hc hl
  unfold State.unitFault
  split
  · next c =>
    rw [computeFault_passes hc hin c]
    exact ⟨hin, hhalt⟩
  · next c =>
    obtain ⟨hy, hr, -⟩ := flitReplay_rest ((s.bump .half c.yh 16).countFault (.router c)) e
    rw [← counts_of_bump s .half c.yh 16] at hc
    rw [← countEvent_lasts_of_bump s .half c.yh 16] at hl
    obtain ⟨hin, hhalt⟩ := countFault_handles (bump_flat h .half c.yh 16) hc hl
    exact ⟨by rw [hr]; exact hin, fun k hk => by rw [core_of_yards hy]; exact hhalt k hk⟩
  · exact absurd rfl hx
  · exact ⟨hin, hhalt⟩

theorem faultIndex_flit : FaultIndex 16 := ⟨.inr (by decide), by decide, by decide⟩
theorem faultIndex_event : FaultIndex 21 := ⟨.inr (by decide), by decide, by decide⟩

/-- A unit that no threshold's handling concerns leaves the yards. -/
theorem edgeFault_yards (s : State) (b : Nat) : (s.countFault (.edge b)).yards = s.yards := by
  by_cases hl : s.counts (.edge b) = true ∧ (s.countEvent (.edge b)).1 = true
  · rw [countFault_lasts hl.1 hl.2]
    exact (countEvent_rest s (.edge b)).1
  · refine (countFault_quiet ?_).1
    rcases hc : s.counts (.edge b) with _ | _
    · exact .inl rfl
    · exact .inr (Bool.eq_false_iff.2 fun h => hl ⟨hc, h⟩)

/-! ## Slips -/

theorem queueItem_clk (s : State) (i : RepairItem) : (s.queueItem i).clk = s.clk := rfl

theorem slip_bit {b w : Nat} (hw : w < 60) (hc : crossing b w = true) (hb : s.alignedDom b = true) (hd : s.alignedDom w = true) :
    (s.slip b w).clk.slip.getLsbD w = true := by
  unfold State.slip
  rw [if_neg (by rw [hc, hd]; decide), if_neg (by rw [hb]; decide)]
  extract_lets hit s2 s3
  have h2 : s2.clk.slip.getLsbD w = true := by
    show (BitVec.getLsbD (_ ||| BitVec.ofNat 60 (2 ^ w)) w) = true
    rw [BitVec.getLsbD_or, BitVec.getLsbD_ofNat, Nat.testBit_two_pow_self]
    simp [hw]
  split
  · exact h2
  · have h3 : s3.clk.slip.getLsbD w = true := h2
    exact each_induct (R := fun u : State => u.clk.slip.getLsbD w = true) (fun u e hu => by
      dsimp only
      split
      · exact hu
      · exact hu) _ h3

/-! ## Re-reads -/

theorem resolve_rest (s : State) (f : Cmd → Cmd) : (s.resolve f).yards = s.yards ∧ (s.resolve f).mem = s.mem := by
  unfold State.resolve
  exact each_induct (R := fun u : State => u.yards = s.yards ∧ u.mem = s.mem)
    (fun u e hu => ⟨(setEng_yards _ _ _).trans hu.1, (setEng_mem _ _ _).trans hu.2⟩) _ ⟨rfl, rfl⟩

/-- The word that a re-read of a bank looks at, and its entry in the line of checks. -/
def checkKey (c : PhysCore) (bank word : Nat) : Nat × Nat := (coreNum c * 12 + bank, spadKey (coreNum c) (0x8000 * bank + 4 * word) / 4)

/-- A check re-read has left its queue, and what it found is with the commands that wait. -/
def State.rereadDone (s : State) (c : PhysCore) (bank word : Nat) (stored : Bool) : State :=
  (s.modYards (fun y => { y with checks := y.checks.filter (fun x => decide (x ≠ checkKey c bank word)) })).resolve
    (Cmd.word (wordKey (coreNum c) (0x8000 * bank + 4 * word)) stored)

theorem rereadDone_facts (s : State) (c : PhysCore) (bank word : Nat) (stored : Bool) :
    checkKey c bank word ∉ (s.rereadDone c bank word stored).yards.checks ∧ (s.rereadDone c bank word stored).yards.spad = s.yards.spad ∧
    ∀ off, (s.rereadDone c bank word stored).cell (coreNum c) off = s.cell (coreNum c) off := by
  obtain ⟨hy, -⟩ := resolve_rest (s.modYards (fun y => { y with checks := y.checks.filter (fun x => decide (x ≠ checkKey c bank word)) }))
    (Cmd.word (wordKey (coreNum c) (0x8000 * bank + 4 * word)) stored)
  refine ⟨?_, ?_, fun off => cell_of_halves ?_ _ off⟩
  · rw [State.rereadDone, hy]
    intro hin
    exact of_decide_eq_true (List.mem_filter.1 hin).2 rfl
  · rw [State.rereadDone, hy]
    rfl
  · rw [State.rereadDone, hy]
    rfl

theorem bump_stays (s : State) (g : Grp) (i : Nat) {j : Nat} (hj : ∀ k, FaultIndex k → k % 32 ≠ j % 32) : FaultStays s (s.bump g i j) :=
  bumpBy_stays s g i j 1 hj

theorem spadTransient_stays (s : State) (c : PhysCore) (e : Option Nat) : FaultStays s (s.spadTransient c e) := by
  have h1 : FaultStays s ((s.bump .half c.yh 23).countFault (.core c)) :=
    (bump_stays s .half c.yh fun _ hk => hk.reread.2.1).trans (countFault_stays _ _)
  unfold State.spadTransient
  extract_lets t
  split
  · exact h1
  · exact h1.trans (replayFor_stays _ e)

theorem spadStored_stays (s : State) (c : PhysCore) (bank word : Nat) :
    FaultStays (s.spadParity (coreNum c) (0x8000 * bank + 4 * word) true) (s.spadStored c bank word) :=
  ((bump_stays _ .half c.yh fun _ hk => hk.reread.2.2).trans (raise_stays _ _ _ _)).trans (countFault_stays _ _)

theorem spadParity_rest (s : State) (n off : Nat) (wrong : Bool) : (s.spadParity n off wrong).yards.checks = s.yards.checks ∧
    (s.spadParity n off wrong).yards.spad = s.yards.spad := ⟨rfl, rfl⟩

theorem spadParity_good (s : State) (n off : Nat) : s.cell n off / 4 ∉ (s.spadParity n off false).yards.bad := by
  intro hin
  exact absurd (List.mem_filter.1 hin).2 (by simp)

theorem spadParity_bad (s : State) (n off : Nat) : s.cell n off / 4 ∈ (s.spadParity n off true).yards.bad := mem_insertNat _ _

/-- After a re-read that found nothing the word is in the line no more and of good parity. -/
theorem spadClean_facts (s : State) (c : PhysCore) (bank word : Nat) (stored : Bool) (e : Option Nat) :
    checkKey c bank word ∉ (((s.rereadDone c bank word stored).spadParity (coreNum c) (0x8000 * bank + 4 * word) false).spadTransient c e).yards.checks ∧
    s.cell (coreNum c) (0x8000 * bank + 4 * word) / 4 ∉
      (((s.rereadDone c bank word stored).spadParity (coreNum c) (0x8000 * bank + 4 * word) false).spadTransient c e).yards.bad ∧
    (((s.rereadDone c bank word stored).spadParity (coreNum c) (0x8000 * bank + 4 * word) false).spadTransient c e).yards.spad = s.yards.spad := by
  obtain ⟨hchecks, hspad, hcell⟩ := rereadDone_facts s c bank word stored
  generalize s.rereadDone c bank word stored = a at hchecks hspad hcell ⊢
  generalize 0x8000 * bank + 4 * word = off at hcell ⊢
  have hst := spadTransient_stays (a.spadParity (coreNum c) off false) c e
  obtain ⟨h1, h2⟩ := spadParity_rest a (coreNum c) off false
  rw [hst.checks, hst.bad, hst.spad, h1, h2, ← hcell]
  exact ⟨hchecks, spadParity_good a _ off, hspad⟩

/-- After a re-read that found the parity wrong again, or that was not run, the word is taken as stored. -/
theorem spadStored_facts (s : State) (c : PhysCore) (bank word : Nat) (stored : Bool) :
    checkKey c bank word ∉ ((s.rereadDone c bank word stored).spadStored c bank word).yards.checks ∧
    s.cell (coreNum c) (0x8000 * bank + 4 * word) / 4 ∈ ((s.rereadDone c bank word stored).spadStored c bank word).yards.bad ∧
    ((s.rereadDone c bank word stored).spadStored c bank word).yards.spad = s.yards.spad := by
  obtain ⟨hchecks, hspad, hcell⟩ := rereadDone_facts s c bank word stored
  generalize s.rereadDone c bank word stored = a at hchecks hspad hcell ⊢
  have hst := spadStored_stays a c bank word
  obtain ⟨h1, h2⟩ := spadParity_rest a (coreNum c) (0x8000 * bank + 4 * word) true
  rw [hst.checks, hst.bad, hst.spad, h1, h2, ← hcell]
  exact ⟨hchecks, spadParity_bad a _ _, hspad⟩

theorem exec_spadCheckReread (hm : s.memoryUp = true) (c : PhysCore) (bank word : Nat) (e : Option Nat) (r : Reread) :
    exec (.spadCheckReread c bank word e r) s = .next (match r with
      | .clean => ((s.rereadDone c bank word false).spadParity (coreNum c) (0x8000 * bank + 4 * word) false).spadTransient c e
      | .edcWrong => ((s.rereadDone c bank word false).spadParity (coreNum c) (0x8000 * bank + 4 * word) false).spadTransient c e
      | .parityWrong => (s.rereadDone c bank word true).spadStored c bank word
      | .notRun => (s.rereadDone c bank word true).spadStored c bank word) := by
  have hx : exec (.spadCheckReread c bank word e r) s = execSpadCheckReread c bank word e r s := rfl
  rw [hx, execSpadCheckReread]
  refine congrArg Host.Outcome.next ((if_neg (by rw [hm]; decide)).trans ?_)
  cases r <;> rfl

/-! ## Blocks of device memory -/

/-- A re-read of a block has left its queue, and what it found is with the commands that wait. -/
def State.blockDone (s : State) (b : Nat) (edc stored : Bool) : State :=
  let k := blockSlice b / 24
  let s1 := s.modShed k (fun x => { x with checks := x.checks.filter (fun c => decide (c ≠ (blockSlice b, b))) })
  (if edc then s1.bump .shed k 2 else s1).resolve (Cmd.block b stored)

theorem blockDone_data (s : State) (b : Nat) (edc stored : Bool) : (s.blockDone b edc stored).mem.data = s.mem.data := by
  unfold State.blockDone
  extract_lets k s1
  rw [(resolve_rest _ _).2]
  split
  · rw [bump_mem]
    rfl
  · rfl

theorem countDevice_stays (s : State) (b : Nat) : FaultStays s (s.countDevice b) := countFault_stays s _

theorem retirePage_stays (s : State) (p : Nat) : FaultStays s (s.retirePage p) := by
  unfold State.retirePage
  extract_lets k x
  split
  · exact .refl s
  · split
    · exact raise_stays _ _ _ _
    · exact modShed_stays _ _ _

theorem blockClean_facts (s : State) (b : Nat) (e : Option Nat) :
    (∀ w ∈ ((((s.blockParity b []).bump .shed (blockSlice b / 24) 4).countDevice b).replayFor e).mem.bad, w / 256 ≠ b) ∧
    ((((s.blockParity b []).bump .shed (blockSlice b / 24) 4).countDevice b).replayFor e).mem.data = s.mem.data := by
  have hst := (countDevice_stays ((s.blockParity b []).bump .shed (blockSlice b / 24) 4) b).trans (replayFor_stays _ e)
  have hm := bump_mem (s.blockParity b []) .shed (blockSlice b / 24) 4
  rw [hst.memBad, hst.data, hm]
  refine ⟨fun w hw => ?_, rfl⟩
  simpa using (List.mem_filter.1 hw).2

theorem blockStored_facts (s : State) (b word : Nat) : 256 * b + word % 256 ∈ ((s.memStored b [word] 5).countDevice b).mem.bad ∧
    ((s.memStored b [word] 5).countDevice b).mem.data = s.mem.data := by
  have hst : FaultStays (s.blockParity b [word]) ((s.memStored b [word] 5).countDevice b) :=
    (((bump_stays _ .shed (blockSlice b / 24) fun _ hk => hk.reread.1).trans (raise_stays _ _ _ _)).trans (retirePage_stays _ _)).trans
      (countDevice_stays _ b)
  rw [hst.memBad, hst.data]
  exact ⟨mem_insertNat _ _, rfl⟩

theorem exec_memCheckReread (hm : s.memoryUp = true) (b : Nat) (ws : List Nat) (e : Option Nat) (edc : Bool) :
    exec (.memCheckReread b ws e .clean edc) s =
      .next ((((s.blockDone b edc false).blockParity b []).bump .shed (blockSlice b / 24) 4 |>.countDevice b).replayFor e) ∧
    exec (.memCheckReread b ws e .parityWrong edc) s = .next (((s.blockDone b edc true).memStored b ws 5).countDevice b) := by
  have hx : ∀ r, exec (.memCheckReread b ws e r edc) s = execMemCheckReread b ws e r edc s := fun _ => rfl
  constructor
  · rw [hx, execMemCheckReread]
    exact congrArg Host.Outcome.next (if_neg (by rw [hm]; decide))
  · rw [hx, execMemCheckReread]
    exact congrArg Host.Outcome.next (if_neg (by rw [hm]; decide))

theorem countDevice_flat (h : Flat s) (b : Nat) : Flat (s.countDevice b) := by
  have _ := anyPart_fact
  exact (countDevice_keeps (P := False) (W := anyPart) (Keeps.rfl' h) b).flat

/-- A retried write that succeeds is in the retry buffer no more. -/
theorem retryWrite_done (h : Flat s) (b n : Nat) : ∀ r ∈ ((s.retryWrite b n true).shed (blockSlice b / 24)).retry, r.block ≠ b := by
  have hf : Flat ((s.bump .shed (blockSlice b / 24) 3).countDevice b) := countDevice_flat (bump_flat h _ _ _) b
  intro r hr
  unfold State.retryWrite at hr
  extract_lets k rest s1 at hr
  rw [if_pos rfl, modShed_shed hf] at hr
  simpa using (List.mem_filter.1 hr).2

theorem exec_writeRetry {b : Nat} {r : RetryBlk} (hm : s.memoryUp = true)
    (hr : (s.shed (blockSlice b / 24)).retry.find? (fun r => r.block == b) = some r) (e : Option Nat) (ok : Bool) :
    exec (.writeRetry b e ok) s = .next (s.retryWrite b r.tries ok) := by
  have hx : exec (.writeRetry b e ok) s = execWriteRetry b e ok s := rfl
  rw [hx, execWriteRetry]
  rw [hr]
  exact congrArg Host.Outcome.next (if_neg (by rw [hm]; decide))

/-- Settles O48: every step that counts a fault leaves the content of scratchpads and device memory, the words of wrong parity and the counters of
other things as they are (`FaultStays`), so each clause is read off the one operation of its step that moves what it speaks of. -/
theorem faultsAreHandled : Obligations.FaultsAreHandled := by
  unfold Obligations.FaultsAreHandled
  intro s unit c bank word b e hinv
  have h : Flat s := (flat_iff s).2 hinv
  refine ⟨fun hl hx hc hp => ?_, fun hl _ => ?_, fun hl _ => ?_, fun hl => ?_, fun hl _ hw hcr hb hd => ?_, fun hm r hr => ?_, fun hm r hr => ?_,
    fun hm edc => ?_, fun hm edc => ?_, fun hm hex => ?_⟩
  · exact ⟨_, exec_faultReport hl _ _, unitFault_handles h hx hc hp e⟩
  · obtain ⟨hy, -, hst⟩ := flitReplay_rest ((s.bump .half (edgeHalf b) 16).countFault (.edge b)) e
    have hst2 := countFault_stays (s.bump .half (edgeHalf b) 16) (.edge b)
    refine ⟨_, exec_faultReport hl _ _, ?_, hy.trans ((edgeFault_yards _ b).trans (bump_yards s _ _ _))⟩
    exact (hst.count 16 faultIndex_flit _ _).trans ((hst2.count 16 faultIndex_flit _ _).trans (count_bump_same h _ _ 16))
  · obtain ⟨hcount, hquiet, hpass⟩ := poisoned_facts h c faultIndex_flit
    obtain ⟨hy, -, hst⟩ := flitReplay_rest (s.poisoned c 16) e
    refine ⟨_, exec_faultReport hl _ _, (hst.count 16 faultIndex_flit _ _).trans hcount, fun hn => hy.trans (hquiet hn).1, fun hc hp => ?_⟩
    exact (congrArg (fun x : Core => x.halter.isSome) (core_of_yards hy (coreNum c))).trans (hpass hc hp).2
  · obtain ⟨hcount, hquiet, hpass⟩ := poisoned_facts h c faultIndex_event
    exact ⟨_, exec_faultReport hl _ _, hcount, hquiet, fun hc hp => (hpass hc hp).2⟩
  · exact ⟨_, exec_faultReport hl _ _, slip_bit hw hcr hb hd⟩
  · refine ⟨_, exec_spadCheckReread hm c bank word e r, ?_⟩
    rcases hr with rfl | rfl
    · exact spadClean_facts s c bank word false e
    · exact spadClean_facts s c bank word false e
  · refine ⟨_, exec_spadCheckReread hm c bank word e r, ?_⟩
    rcases hr with rfl | rfl
    · exact spadStored_facts s c bank word true
    · exact spadStored_facts s c bank word true
  · obtain ⟨hbad, hdata⟩ := blockClean_facts (s.blockDone b edc false) b e
    exact ⟨_, (exec_memCheckReread hm b [] e edc).1, hbad, hdata.trans (blockDone_data s b edc false)⟩
  · obtain ⟨hbad, hdata⟩ := blockStored_facts (s.blockDone b edc true) b word
    exact ⟨_, (exec_memCheckReread hm b [word] e edc).2, hbad, hdata.trans (blockDone_data s b edc true)⟩
  · obtain ⟨r, hr, hb⟩ := hex
    obtain ⟨r', hr'⟩ := Option.isSome_iff_exists.1 (List.find?_isSome (p := fun r : RetryBlk => r.block == b) |>.2 ⟨r, hr, beq_iff_eq.2 hb⟩)
    exact ⟨_, exec_writeRetry hm hr' e true, retryWrite_done h b r'.tries⟩

end Sys2Proof.Machine
end

section
/-!
PROOFS. REDUCE of a link engine (R445, R449, R450).
-/
namespace Sys2Proof.Machine

variable {s t : State} {e : Nat} {c : Cmd}

/-- A command starts beside the links. -/
theorem starting_links (h : Flat s) {op : Nat} (hx : s.starting e op = some (c, t)) (p : Nat) : t.link p = s.link p :=
  link_of_links ((starting_keeps_own h hx).same .links Bool.false_ne_true) p

theorem starting_img (h : Flat s) {op : Nat} (hx : s.starting e op = some (c, t)) : t.img = s.img := (starting_keeps_own h hx).same .img Bool.false_ne_true

theorem complete_link (h : Flat s) (e : Nat) (c : Cmd) (d : Done) (p : Nat) : (s.complete e c d).link p = s.link p :=
  link_of_links (complete_same h e c d .links rfl) p

/-- A command that changes its port and ends: its engine is at a boundary, and the port is as the change left it. -/
theorem linkEnd_facts (h : Flat s) (e : Nat) (c : Cmd) (d : Done) (p : Nat) (f : LinkPort → LinkPort) :
    (((s.modLink p f).complete e c d).eng e).cur = none ∧ ((s.modLink p f).complete e c d).link p = f (s.link p) :=
  have hf := modLink_flat h p f
  ⟨complete_cur hf e c d, (complete_link hf e c d p).trans (modLink_link h p f)⟩

/-! ## OPEN and CLOSE (R445) -/

/-- The channel that an OPEN opens. -/
def LinkPort.opened (l : LinkPort) (d : Bytes) : LinkPort :=
  if rDir d = 0 then l.setTx (rChan d) ⟨true, fld d 0x24 2, rFlits d, [], []⟩ else l.setRx (rChan d) (openRx d)

theorem setTx_txChan (l : LinkPort) (k : Nat) {x : TxChan} (hx : x ≠ TxChan.reset) : (l.setTx k x).txChan k = x := sget_sset_of_ne hx l.tx k

theorem setRx_rxChan (l : LinkPort) (k : Nat) {x : RxChan} (hx : x ≠ RxChan.reset) : (l.setRx k x).rxChan k = x := sget_sset_of_ne hx l.rx k

theorem opened_tx (l : LinkPort) {d : Bytes} (hd : rDir d = 0) : (l.opened d).txChan (rChan d) = ⟨true, fld d 0x24 2, rFlits d, [], []⟩ := by
  rw [LinkPort.opened, if_pos hd]
  refine setTx_txChan l (rChan d) (fun hr => ?_)
  exact absurd (congrArg TxChan.open_ hr) Bool.false_ne_true.symm

theorem opened_rx (l : LinkPort) {d : Bytes} (hd : rDir d ≠ 0) : (l.opened d).rxChan (rChan d) = openRx d := by
  rw [LinkPort.opened, if_neg hd]
  refine setRx_rxChan l (rChan d) (fun hr => ?_)
  exact absurd (congrArg RxChan.open_ hr) Bool.false_ne_true.symm

theorem exec_reduceOpen (hx : s.starting e opReduce = some (c, t)) (he : 17 ≤ e) (hf : rForm c.desc = 1) :
    exec (.reduceOpen e) s = .next ((t.modLink (e - 17) (fun l => l.opened c.desc)).complete e c { status := stOk }) := by
  have hex : exec (.reduceOpen e) s = execReduceOpen e s := rfl
  rw [hex, execReduceOpen, hx]
  exact congrArg Host.Outcome.next (if_neg (by omega))

theorem exec_reduceClose_rx (hx : s.starting e opReduce = some (c, t)) (he : 17 ≤ e) (hf : rForm c.desc = 2) (hd : rDir c.desc ≠ 0) :
    exec (.reduceClose e) s = .next ((t.modLink (e - 17) (fun l => l.setRx (rChan c.desc) RxChan.reset)).complete e c { status := stOk }) := by
  have hex : exec (.reduceClose e) s = execReduceClose e s := rfl
  rw [hex, execReduceClose, hx]
  exact congrArg Host.Outcome.next ((if_neg (by omega)).trans (if_neg hd))

theorem exec_reduceClose_tx (hx : s.starting e opReduce = some (c, t)) (he : 17 ≤ e) (hf : rForm c.desc = 2) (hd : rDir c.desc = 0)
    (hq : ((t.link (e - 17)).txChan (rChan c.desc)).queue = []) (hg : ((t.link (e - 17)).txChan (rChan c.desc)).going = [])
    (hu : (t.link (e - 17)).unacked.all (fun x => x.chan != rChan c.desc) = true) :
    exec (.reduceClose e) s = .next ((t.modLink (e - 17) (fun l => l.setTx (rChan c.desc) TxChan.reset)).complete e c { status := stOk }) := by
  have hnone : (t.link (e - 17)).unacked.any (fun u => u.chan == rChan c.desc) = false := by
    rw [List.any_eq_false]
    intro x hx
    simpa using List.all_eq_true.1 hu x hx
  have hex : exec (.reduceClose e) s = execReduceClose e s := rfl
  rw [hex, execReduceClose, hx]
  refine congrArg Host.Outcome.next ((if_neg (by omega)).trans ((if_pos hd).trans (if_neg ?_)))
  rw [hq, hg, hnone]
  decide

/-! ## SEND (R449) -/

theorem starting_of_running {op : Nat} (hr : s.running e op = some c) : s.starting e op = some (c, s) := by
  rw [State.starting, hr]

theorem exec_reduceSend_done {r : LinkRun} (hr : s.running e opReduce = some c) (he : 17 ≤ e) (hf : rForm c.desc = 3)
    (hrun : (s.link (e - 17)).run = some r) (hq : (s.link (e - 17)).queued.any TxItem.bySend = false)
    (hu : (s.link (e - 17)).unacked.any (fun x => x.item.bySend) = false) :
    exec (.reduceSend e) s = .next ((s.modLink (e - 17) (fun l => { l with run := none })).complete e c
      { status := endStatus false r.flagged c.replayed }) := by
  have hback : 17 + (e - 17) = e := by omega
  have hcmd : s.linkCmd (e - 17) 3 = some c := by
    rw [State.linkCmd, hback, hr]
    exact if_pos hf
  have hdone : s.sendDone (e - 17) = (s.modLink (e - 17) (fun l => { l with run := none })).complete e c
      { status := endStatus false r.flagged c.replayed } := by
    rw [State.sendDone, hcmd, hrun, hback]
    exact if_neg (by rw [hq, hu]; decide)
  have hex : exec (.reduceSend e) s = execReduceSend e s := rfl
  rw [hex, execReduceSend, starting_of_running hr]
  refine congrArg Host.Outcome.next ((if_neg (by omega)).trans ((if_pos ?_).trans hdone))
  rw [hrun]
  rfl

/-! ## NODE (R450) -/

/-- A NODE that has processed its COUNT takes no further pair. -/
theorem nodePairs_of_done {p : Nat} {r : LinkRun} (hrun : (s.link p).run = some r) (hd : rCount c.desc ≤ r.done) (tr : Tree) (i : Nat) (n : TreeNode)
    (mesh : List (List (Option MeshData))) : s.nodePairs p c tr i n mesh = s := by
  cases mesh with
  | nil => rfl
  | cons ms rest =>
    rw [State.nodePairs, hrun]
    exact if_pos (.inl hd)

/-- The port of a NODE at the beginning of a step: its count, and no result forwarded yet. -/
def LinkPort.nodeRun (l : LinkPort) : LinkPort := { l with run := some (l.run.getD ⟨0, false⟩), reply := [] }

theorem exec_reduceNode_done {r : LinkRun} {tr : Tree} {k : Nat} {n : Nat × TreeNode} (h : Flat s) (hx : s.starting e opReduce = some (c, t)) (he : 17 ≤ e)
    (hf : rForm c.desc = 0) (hrun : (t.link (e - 17)).run = some r) (hd : rCount c.desc ≤ r.done)
    (htree : treeOf s.img.net.trees (rAddr c.desc % 2 ^ 32) = some (tr, k)) (hn : tr.nodeFor (e - 17) = some n) (mesh : List (List (Option MeshData))) :
    exec (.reduceNode e mesh) s = .next (((t.modLink (e - 17) LinkPort.nodeRun).modLink (e - 17) (fun l => { l with run := none })).complete e c
      { status := endStatus false r.flagged c.replayed }) := by
  have ht : Flat t := starting_flat h hx
  have hrun1 : ((t.modLink (e - 17) LinkPort.nodeRun).link (e - 17)).run = some r := by
    rw [modLink_link ht, LinkPort.nodeRun, hrun]
    rfl
  have hdone : (t.modLink (e - 17) LinkPort.nodeRun).nodeDone (e - 17) c =
      ((t.modLink (e - 17) LinkPort.nodeRun).modLink (e - 17) (fun l => { l with run := none })).complete e c
        { status := endStatus false r.flagged c.replayed } := by
    rw [State.nodeDone, hrun1, show 17 + (e - 17) = e by omega]
    exact if_pos hd
  obtain ⟨i, n⟩ := n
  have hex : exec (.reduceNode e mesh) s = execReduceNode e mesh s := rfl
  rw [hex, execReduceNode, hx]
  refine congrArg Host.Outcome.next ((if_neg (by omega)).trans ?_)
  rw [htree]
  dsimp only
  rw [hn]
  exact (congrArg (fun u : State => u.nodeDone (e - 17) c) (nodePairs_of_done hrun1 hd tr i n mesh)).trans hdone

/-- Settles O17: each form is the change of its port and the completion of its command, which leaves the links alone. -/
theorem linkReduceCompletes : Obligations.LinkReduceCompletes := by
  unfold Obligations.LinkReduceCompletes
  intro s t e c hinv he hx
  have h : Flat s := (flat_iff s).2 hinv
  have ht : Flat t := starting_flat h hx
  have hlink := starting_links h hx (e - 17)
  refine ⟨fun hf => ?_, fun hf hd hw => ?_, fun hf hd hw hq hg hu => ?_, fun r hf hr hrun hq hu => ?_, fun r tr k n mesh hf hrun hd htree hn => ?_⟩
  · obtain ⟨hcur, hl⟩ := linkEnd_facts ht e c { status := stOk } (e - 17) (fun l => l.opened c.desc)
    refine ⟨_, exec_reduceOpen hx he hf, hcur, fun hd => ?_, fun hd => ?_⟩
    · rw [hl]
      exact opened_tx _ hd
    · rw [hl]
      exact opened_rx _ hd
  · obtain ⟨hcur, hl⟩ := linkEnd_facts ht e c { status := stOk } (e - 17) (fun l => l.setRx (rChan c.desc) RxChan.reset)
    refine ⟨_, exec_reduceClose_rx hx he hf hd, hcur, ?_⟩
    rw [hl, hlink]
    exact congrArg RxChan.open_ (sget_sset_same RxChan.reset _ (rChan c.desc) RxChan.reset hw)
  · obtain ⟨hcur, hl⟩ := linkEnd_facts ht e c { status := stOk } (e - 17) (fun l => l.setTx (rChan c.desc) TxChan.reset)
    rw [← hlink] at hq hg hu
    refine ⟨_, exec_reduceClose_tx hx he hf hd hq hg hu, hcur, ?_⟩
    rw [hl, hlink]
    exact congrArg TxChan.open_ (sget_sset_same TxChan.reset _ (rChan c.desc) TxChan.reset hw)
  · obtain ⟨hcur, hl⟩ := linkEnd_facts h e c { status := endStatus false r.flagged c.replayed } (e - 17) (fun l => { l with run := none })
    exact ⟨_, exec_reduceSend_done hr he hf hrun hq hu, hcur, congrArg LinkPort.run hl⟩
  · rw [← hlink] at hrun
    obtain ⟨hcur, hl⟩ := linkEnd_facts (modLink_flat ht (e - 17) LinkPort.nodeRun) e c { status := endStatus false r.flagged c.replayed } (e - 17)
      (fun l => { l with run := none })
    exact ⟨_, exec_reduceNode_done h hx he hf hrun hd htree hn mesh, hcur, congrArg LinkPort.run hl⟩

end Sys2Proof.Machine
end

section
/-!
SUPPORT and PROOFS. Windows and slots: accounting windows, mapping points, handovers and repair windows (R385, R386, R390, R425, R506).
-/
namespace Sys2Proof.Machine

variable {s t u : State} {e k n q : Nat}

/-! ## Accounting windows (R390) -/

theorem sget_smap {α : Type} [DecidableEq α] {d : α} {f : α → α} (hf : f d = d) (m : Sparse α) (h : swf d m = true) (k : Nat) :
    sget d (smap d f m) k = f (sget d m k) := by
  induction m with
  | nil => exact hf.symm
  | cons x m ih =>
    obtain ⟨j, v⟩ := x
    simp only [swf, Bool.and_eq_true] at h
    obtain ⟨⟨-, habove⟩, hwf⟩ := h
    have hrest : j = k → sget d (smap d f m) k = d := by
      rintro rfl
      rw [ih hwf, sget_of_sabove d m j habove, hf]
    simp only [smap, sget]
    by_cases hj : j = k
    · rw [if_pos hj]
      split
      · next hv => rw [hrest hj, hv]
      · rw [sget, if_pos hj]
    · rw [if_neg hj]
      split
      · exact ih hwf
      · rw [sget, if_neg hj, ih hwf]

theorem exec_accountWindow (hp : s.present e = true) (hdue : (s.eng e).windowStart + 2 ^ 20 ≤ s.hclk) :
    exec (.accountWindow e) s = .next (State.modEng
      { s with queues := smap Queue.reset (fun x => if x.engine = e then { x with charge := 0 } else x) s.queues } e
      (fun x => { x with kernelCharge := 0, windowStart := x.windowStart + 2 ^ 20 })) := by
  have hx : exec (.accountWindow e) s = execAccountWindow e s := rfl
  rw [hx, execAccountWindow, if_pos ⟨hp, hdue⟩]

theorem chargesReset_queue (h : Flat s) (e n : Nat) :
    sget Queue.reset (smap Queue.reset (fun x => if x.engine = e then { x with charge := 0 } else x) s.queues) n =
      if (s.queue n).engine = e then { s.queue n with charge := 0 } else s.queue n :=
  sget_smap (f := fun x : Queue => if x.engine = e then { x with charge := 0 } else x) (by split <;> rfl) s.queues h.queues n

/-! ## Repair windows (R425, R506) -/

theorem dropPreload_eng (h : Flat s) (e : Nat) (p : Preload) : ((s.dropPreload e p).eng e).preload = none ∧
    ((s.dropPreload e p).eng e).heldItems = (s.eng e).heldItems := by
  unfold State.dropPreload
  have heq : ∀ a : State, (a.bump .engine e 2).eng e = a.eng e := fun a => eng_of_engines (bumpBy_engines a .engine e 2 1) e
  rw [heq, modEng_eng h]
  exact ⟨rfl, rfl⟩

theorem discardPreload_preload (h : Flat s) (e : Nat) : ((s.discardPreload e).eng e).preload = none ∧
    ((s.discardPreload e).eng e).heldItems = (s.eng e).heldItems := by
  unfold State.discardPreload
  split
  · next hn => exact ⟨hn, rfl⟩
  · next p hp =>
    split
    · exact dropPreload_eng h e p
    · exact dropPreload_eng h e p

theorem exec_repairWindowOpen (hl : s.live = true) (hdue : s.windowDue e = true) (hb : s.boundary e = true) (hc : s.rel.windows.contains e = false) :
    exec (.repairWindowOpen e) s = .next (((s.modEng e (fun x => { x with heldItems := true })).discardPreload e).modRel (fun r =>
      { r with windows := r.windows ++ [e] })) :=
  congrArg Host.Outcome.next (if_pos ⟨hl, hdue, hb, by rw [hc]; rfl⟩)

theorem exec_repairWindowClose {p : PerProg} (hp : s.perProg k = some p) (ho : (s.prog k).windowOpen = true) (hl : (s.prog k).windowLeft = 0)
    (hf : (s.prog k).fired = false) (hd : (s.dueTick p).isSome = true) : exec (.repairWindowClose k) s = .next (s.endGrant p) := by
  have hx : exec (.repairWindowClose k) s = execRepairWindowClose k s := rfl
  rw [hx, execRepairWindowClose, hp]
  exact congrArg Host.Outcome.next (if_pos ⟨ho, hl, by rw [hf]; rfl, hd⟩)

theorem endGrant_closes (h : Flat s) (p : PerProg) : ((s.endGrant p).prog p.prog).windowOpen = false ∧ p.eng ∉ (s.endGrant p).rel.windows ∧
    ((s.endGrant p).eng p.eng).heldItems = false := by
  unfold State.endGrant
  extract_lets x y s1
  have hprog : s1.prog p.prog = if x.disarmNext then y.disarm else y := prog_setProg_same s p.prog _ h.progs
  have heng : ((s1.modEng p.eng (fun e => { e with heldItems := false })).eng p.eng).heldItems = false :=
    congrArg Engine.heldItems (modEng_eng (s := s1) (setProg_flat h p.prog _) p.eng (fun e => { e with heldItems := false }))
  clear_value s1
  refine ⟨?_, ?_, ?_⟩
  · have : (s1.prog p.prog).windowOpen = false := by rw [hprog]; split <;> rfl
    exact this
  · simp
  · exact (congrArg Engine.heldItems (eng_of_engines rfl p.eng)).trans heng

/-! ## Slots (R385, R386) -/

theorem modSlot_flat (h : Flat s) (k : Nat) (f : Slot → Slot) : Flat (s.modSlot k f) :=
  { h with slots := swf_sset Slot.reset s.slots k (f (s.slot k)) h.slots }

theorem slot_of_slots (h : t.slots = s.slots) (k : Nat) : t.slot k = s.slot k := by rw [State.slot, h]; rfl

/-- The state of a queue that moves into slot `k`, before a disabled engine reports what it holds (R386). -/
def State.mapped (s : State) (k n : Nat) : State :=
  (s.modSlot k (fun x => { x with queue := some n, leaving := false, next := none, mappedAt := s.hclk })).modQueue n (fun q =>
    { q with st := .mapped, slot := some k, wait := 0 })

theorem mapped_flat (h : Flat s) (k n : Nat) : Flat (s.mapped k n) := modQueue_flat (modSlot_flat h k _) n _

theorem mapped_queue_ne (s : State) (k : Nat) (hq : q ≠ n) : (s.mapped k n).queue q = s.queue q := modQueue_queue_ne _ _ hq

theorem mapped_slot (s : State) (k n j : Nat) : (s.mapped k n).slot j =
    (s.setSlot k { s.slot k with queue := some n, leaving := false, next := none, mappedAt := s.hclk }).slot j := slot_of_slots rfl j

theorem mapped_fields (h : Flat s) (k n : Nat) : (s.mapped k n).queue n = { s.queue n with st := .mapped, slot := some k, wait := 0 } ∧
    (s.mapped k n).slot k = { s.slot k with queue := some n, leaving := false, next := none, mappedAt := s.hclk } :=
  ⟨modQueue_queue_same (modSlot_flat h k _) n _, (mapped_slot s k n k).trans (slot_setSlot_same s k _ h.slots)⟩

theorem mapped_slot_ne (s : State) {j : Nat} (n : Nat) (hj : j ≠ k) : (s.mapped k n).slot j = s.slot j :=
  (mapped_slot s k n j).trans (slot_setSlot_ne s k j _ hj)

theorem moveIn_of_enabled (h : Flat s) (h1 : (s.eng (s.queue n).engine).st ≠ .disabled) (h2 : (s.eng (s.queue n).engine).st ≠ .disabling) :
    s.moveIn k n = s.mapped k n := by
  have hq : ((s.mapped k n).queue n).engine = (s.queue n).engine := by rw [(mapped_fields h k n).1]
  have heng : (s.mapped k n).eng ((s.mapped k n).queue n).engine = s.eng (s.queue n).engine := by
    rw [hq]
    rfl
  rw [State.moveIn]
  show (s.mapped k n).reportQueue n = s.mapped k n
  unfold State.reportQueue
  exact if_neg fun hc => hc.1.elim (heng ▸ h1) (heng ▸ h2)

/-- The state that a LEAVING slot's queue `o` has left (R386). -/
def State.movedOut (s : State) (k o : Nat) : State :=
  (s.modQueue o (fun q => { q with slot := none, st := if q.st = QState.mapped then q.unmapped else q.st })).modSlot k
    (fun y => { y with queue := none, leaving := false, next := none, mappedAt := 0 })

theorem movedOut_queue (s : State) (k o q : Nat) : (s.movedOut k o).queue q =
    (s.modQueue o (fun q => { q with slot := none, st := if q.st = QState.mapped then q.unmapped else q.st })).queue q := queue_of_queues rfl q

/-- The handover of a LEAVING slot that is quiet, from queue `o` to queue `n` (R386). -/
theorem exec_slotHandover (h : Flat s) {o : Nat} (hl : s.live = true) (hleave : (s.slot k).leaving = true) (hquiet : s.slotQuiet k = true)
    (ho : (s.slot k).queue = some o) (hn : (s.slot k).next = some n) (hne : o ≠ n) (hwait : (s.queue n).st = .waiting)
    (h1 : (s.eng (s.queue n).engine).st ≠ .disabled) (h2 : (s.eng (s.queue n).engine).st ≠ .disabling) :
    exec (.slotHandover k) s = .next ((s.movedOut k o).mapped k n) := by
  have hx : exec (.slotHandover k) s = execSlotHandover k s := rfl
  have hgo : ¬((!s.live) = true ∨ (!(s.slot k).leaving) = true ∨ (!s.slotQuiet k) = true) := by simp [hl, hleave, hquiet]
  have hflat : Flat (s.movedOut k o) := modSlot_flat (modQueue_flat h o _) k _
  have hq : (s.movedOut k o).queue n = s.queue n := (movedOut_queue s k o n).trans (modQueue_queue_ne s _ hne.symm)
  have hmove : (s.movedOut k o).moveIn k n = (s.movedOut k o).mapped k n := by
    refine moveIn_of_enabled hflat ?_ ?_
    · rw [hq]
      exact h1
    · rw [hq]
      exact h2
  rw [hx, execSlotHandover]
  dsimp only
  rw [if_neg hgo, ho, hn]
  refine congrArg Host.Outcome.next ((if_pos (.inl ?_)).trans hmove)
  show ((s.movedOut k o).queue n).st = .waiting
  rw [hq, hwait]

/-! ## A queue that does not wait (R385) -/

/-- Queue `q` is given no slot: it does not wait, and has none. -/
structure Unmapped (q : Nat) (s : State) : Prop where
  flat : Flat s
  st : (s.queue q).st ≠ .waiting
  slot : (s.queue q).slot = none

/-- The parts that may change while every queue stays as it is. -/
def besideQueueTable (q : Part) : Prop := q ≠ .queues

theorem besideQueueTable_facts : Fact (besideQueueTable .data) ∧ Fact (besideQueueTable .engines) ∧ Fact (besideQueueTable .host) ∧
    Fact (besideQueueTable .per) ∧ Fact (besideQueueTable .slots) := by
  refine ⟨⟨?_⟩, ⟨?_⟩, ⟨?_⟩, ⟨?_⟩, ⟨?_⟩⟩ <;> exact Part.noConfusion

theorem Unmapped.of_queues (hs : Unmapped q s) (ht : Flat t) (hq : t.queue q = s.queue q) : Unmapped q t :=
  ⟨ht, by rw [hq]; exact hs.st, by rw [hq]; exact hs.slot⟩

theorem Unmapped.of_keeps (hs : Unmapped q s) (k : Keeps False besideQueueTable s t) : Unmapped q t :=
  hs.of_queues k.flat (queue_of_queues (k.same .queues (fun hw => hw rfl)) q)

theorem Unmapped.keeps (hs : Unmapped q s) : Keeps False besideQueueTable s s := Keeps.rfl' hs.flat

/-- A queue's entry changes in what no mapping point gives. -/
theorem Unmapped.setQueue (hs : Unmapped q s) (n : Nat) {x : Queue} (hst : x.st = .waiting → (s.queue n).st = .waiting)
    (hslot : x.slot = (s.queue n).slot) : Unmapped q (s.setQueue n x) := by
  by_cases hn : q = n
  · subst hn
    have heq : (s.setQueue q x).queue q = x := queue_setQueue_same s q x hs.flat.queues
    exact ⟨setQueue_flat hs.flat q x, fun hw => hs.st (hst (by rw [← heq]; exact hw)), by rw [heq, hslot]; exact hs.slot⟩
  · exact hs.of_queues (setQueue_flat hs.flat n x) (queue_setQueue_ne s n q x hn)

theorem Unmapped.writeRecord (hs : Unmapped q s) (e : Nat) (c : Cmd) (d : Done) (m : Bool) : Unmapped q (s.writeRecord e c d m) := by
  obtain ⟨_, _, _, _, _⟩ := besideQueueTable_facts
  unfold State.writeRecord
  extract_lets f u y st s2 charge halt s3 s4 s5 s6 s7 s8 s9 s10
  have hu : Unmapped q u := hs.of_keeps (by
    simp only [u, f]
    split
    · exact hs.keeps
    · exact draw_keeps hs.keeps)
  have h2 : Keeps False besideQueueTable u s2 := placeRecord_keeps hu.keeps _ _ _
  have hsame : s2.queue c.queue = y := queue_of_queues (h2.same .queues (fun hw => hw rfl)) c.queue
  have h3 : Unmapped q s3 := by
    refine (hu.of_keeps h2).setQueue c.queue (fun hw => ?_) (by rw [hsame])
    rw [hsame]
    dsimp only at hw
    split at hw
    · cases hw
    · exact hw
  have h5 : Keeps False besideQueueTable s3 s5 := bumpBy_keeps (bump_keeps (modEng_keeps h3.keeps _ _) _ _ _) _ _ _ _
  have h6 : Keeps False besideQueueTable s3 s6 := ite_keeps (fun _ => bump_keeps h5 _ _ _) (fun _ => h5)
  have h7 : Keeps False besideQueueTable s3 s7 := ite_keeps (fun _ => bump_keeps h6 _ _ _) (fun _ => h6)
  have h8 : Keeps False besideQueueTable s3 s8 := ite_keeps (fun _ => bump_keeps h7 _ _ _) (fun _ => h7)
  have h9 : Keeps False besideQueueTable s3 s9 := modMbx_keeps h8 _ (fun _ => ⟨rfl, rfl⟩)
  have h10 : Keeps False besideQueueTable s3 s10 := ite_keeps (fun _ => modProg_keeps h9 _ _) (fun _ => h9)
  exact h3.of_keeps (trace_keeps h10 _ _ _ _ _)

theorem Unmapped.postAt (m : Nat) : ∀ {s : State}, Unmapped q s → ∀ (e : Nat) (c : Cmd) (d : Done), Unmapped q (s.postAt m e c d) := by
  obtain ⟨_, _, _, _, _⟩ := besideQueueTable_facts
  induction m with
  | zero => exact fun hs e c d => hs.writeRecord e c d false
  | succ m ih =>
    intro s hs e c d
    unfold State.postAt
    extract_lets te k x armed ok s1
    split
    · split
      · exact (hs.of_keeps (bump_keeps hs.keeps _ _ _)).writeRecord _ _ _ _
      · split
        · exact (hs.of_keeps (event_keeps (trace_keeps (bump_keeps (setChain_keeps hs.keeps _ _ _) _ _ _) _ _ _ _ _) _)).writeRecord _ _ _ _
        · have h1 : Unmapped q s1 :=
            hs.of_keeps (trace_keeps (bump_keeps (dropChainPreload_keeps (setChain_keeps hs.keeps _ _ _) _ _) _ _ _) _ _ _ _ _)
          split
          · exact (ih h1 _ _ _).writeRecord _ _ _ _
          · exact ih (h1.writeRecord _ _ _ _) _ _ _
    · exact hs.writeRecord _ _ _ _

theorem Unmapped.postRecord (hs : Unmapped q s) (e : Nat) (c : Cmd) (d : Done) : Unmapped q (s.postRecord e c d) := Unmapped.postAt 168 hs e c d

theorem Unmapped.reportRing (e n : Nat) : ∀ (fuel : Nat) {s : State}, Unmapped q s → Unmapped q (s.reportRing e n fuel) := by
  intro fuel
  induction fuel with
  | zero => exact fun hs => hs
  | succ fuel ih =>
    intro s hs
    have hset : Unmapped q (s.setQueue n { s.queue n with head := (s.queue n).head + 1 }) := hs.setQueue n (fun hw => hw) rfl
    have hnext : ∀ c d, Unmapped q (((s.setQueue n { s.queue n with head := (s.queue n).head + 1 }).postRecord e c d).reportRing e n fuel) :=
      fun c d => ih (hset.postRecord e c d)
    rw [State.reportRing]
    by_cases hlt : (s.queue n).head < (s.queue n).tail
    · exact (if_pos hlt).symm ▸ hnext _ _
    · exact (if_neg hlt).symm ▸ hs

/-- A queue other than `q` moves into a slot. -/
theorem Unmapped.moveIn (hs : Unmapped q s) (k : Nat) (hn : q ≠ n) : Unmapped q (s.moveIn k n) := by
  have hm : Unmapped q (s.mapped k n) := hs.of_queues (mapped_flat hs.flat k n) (mapped_queue_ne s k hn)
  show Unmapped q ((s.mapped k n).reportQueue n)
  unfold State.reportQueue
  extract_lets y
  split
  · exact hm.reportRing _ n _
  · exact hm

/-! ## The queues that wait (R385) -/

theorem above_of_mem {α : Type} {v : α} {j : Nat} {m : Sparse α} (h : sabove j m = true) (hin : (k, v) ∈ m) : j < k := by
  induction m with
  | nil => cases hin
  | cons x m ih =>
    obtain ⟨i, w⟩ := x
    simp only [sabove, Bool.and_eq_true, decide_eq_true_eq] at h
    rcases List.mem_cons.1 hin with heq | hin
    · cases heq
      exact h.1
    · exact ih h.2 hin

theorem sget_of_mem {α : Type} [DecidableEq α] {d v : α} {m : Sparse α} (h : swf d m = true) (hin : (k, v) ∈ m) : sget d m k = v := by
  induction m with
  | nil => cases hin
  | cons x m ih =>
    obtain ⟨j, w⟩ := x
    simp only [swf, Bool.and_eq_true, decide_eq_true_eq] at h
    obtain ⟨⟨-, habove⟩, hwf⟩ := h
    rw [sget]
    rcases List.mem_cons.1 hin with heq | hin
    · cases heq
      exact if_pos rfl
    · rw [if_neg (Nat.ne_of_lt (above_of_mem habove hin))]
      exact ih hwf hin

theorem mem_of_sget {α : Type} {d : α} : ∀ {m : Sparse α}, sget d m k ≠ d → (k, sget d m k) ∈ m
  | [], h => absurd rfl h
  | (j, w) :: m, h => by
    rw [sget] at h ⊢
    split at h
    · next hj =>
      subst hj
      rw [if_pos rfl]
      exact List.mem_cons_self
    · next hj =>
      rw [if_neg hj]
      exact List.mem_cons_of_mem _ (mem_of_sget h)

theorem mem_waitingQueues (h : Flat s) : n ∈ s.waitingQueues e ↔ (s.queue n).st = .waiting ∧ (s.queue n).engine = e ∧
    (s.engSlots e).any (fun k => (s.slot k).next == some n) = false := by
  unfold State.waitingQueues
  constructor
  · intro hin
    obtain ⟨⟨j, x⟩, hx, rfl⟩ := List.mem_map.1 hin
    obtain ⟨hmem, hp⟩ := List.mem_filter.1 hx
    have hq : s.queue j = x := sget_of_mem h.queues hmem
    simp only [Bool.and_eq_true, beq_iff_eq, Bool.not_eq_true'] at hp
    rw [hq]
    exact ⟨hp.1.1, hp.1.2, hp.2⟩
  · rintro ⟨hst, heng, hnext⟩
    have hmem : (n, s.queue n) ∈ s.queues := mem_of_sget (d := Queue.reset) fun hr => by
      have := congrArg Queue.st (show s.queue n = Queue.reset from hr)
      rw [hst] at this
      exact absurd this (by decide)
    refine List.mem_map.2 ⟨(n, s.queue n), List.mem_filter.2 ⟨hmem, ?_⟩, rfl⟩
    simp only [hst, heng, hnext, beq_self_eq_true, Bool.and_true, Bool.not_false]

/-! ## Mapping points (R385) -/

/-- A mapping point takes a queue of the list of those that wait, a slot free by rule 1 for the first of the list where there is one. -/
theorem mapChoice_mem {ws : List Nat} {r : Nat} (hc : s.mapChoice e ws = some (r, n, k)) : n ∈ ws := by
  unfold State.mapChoice at hc
  obtain ⟨r', -, hr⟩ := List.exists_of_findSome?_eq_some hc
  obtain ⟨n', hn', hm⟩ := List.exists_of_findSome?_eq_some hr
  obtain ⟨k', -, heq⟩ := Option.map_eq_some_iff.1 hm
  cases heq
  exact hn'

theorem mapRule_free (s : State) (e n : Nat) : s.mapRule e 1 n =
    (s.engSlots e).find? (fun k => (s.slot k).queue.isNone && (s.slot k).next.isNone && !(s.slot k).pinned) := by
  rw [State.mapRule]
  exact if_pos rfl

theorem mapChoice_free {ws : List Nat} (hk : s.mapRule e 1 n = some k) : s.mapChoice e (n :: ws) = some (1, n, k) := by
  unfold State.mapChoice
  simp only [List.findSome?_cons, hk, Option.map_some]

theorem Unmapped.mapAll (e : Nat) : ∀ (fuel : Nat) {s : State}, Unmapped q s → Unmapped q (s.mapAll e fuel) := by
  obtain ⟨_, _, _, _, _⟩ := besideQueueTable_facts
  intro fuel
  induction fuel with
  | zero => exact fun hs => hs
  | succ fuel ih =>
    intro s hs
    unfold State.mapAll
    extract_lets ws
    split
    · exact hs
    · next r n k hc =>
      split
      · have hn : n ∈ s.waitingQueues e := List.mem_mergeSort.1 (mapChoice_mem hc)
        have hw := ((mem_waitingQueues hs.flat).1 hn).1
        exact ih (hs.moveIn k fun heq => hs.st (heq ▸ hw))
      · extract_lets out s1 s2
        have h1 : Keeps False besideQueueTable s s1 := modSlot_keeps hs.keeps _ _
        have h2 : Keeps False besideQueueTable s s2 := ite_keeps (fun _ => bump_keeps h1 _ _ _) (fun _ => h1)
        exact ih (hs.of_keeps h2)

/-- The state in which every queue that waits for engine `e` has waited one point more. -/
def State.waitedOn (s : State) (e : Nat) : State :=
  s.each ((s.queues.filter (fun x => x.2.st == .waiting && x.2.engine == e)).map Prod.fst)
    (fun s n => s.modQueue n (fun q => { q with wait := min (q.wait + 1) 65535 }))

theorem exec_mappingPoint (hl : s.live = true) (hp : s.present e = true) : exec (.mappingPoint e) s = .next ((s.waitedOn e).mapAll e 64) := by
  have hx : exec (.mappingPoint e) s = execMappingPoint e s := rfl
  rw [hx, execMappingPoint]
  exact congrArg Host.Outcome.next (if_neg (by rw [hl, hp]; decide))

/-- Waiting a point more changes the queues alone, and of them the points. -/
structure WaitsOn (s t : State) : Prop where
  flat : Flat t
  rest : ∃ qs, t = { s with queues := qs }
  queue : ∀ q, ∃ w, t.queue q = { s.queue q with wait := w }

theorem waitedOn_waits (h : Flat s) (e : Nat) : WaitsOn s (s.waitedOn e) := by
  unfold State.waitedOn
  refine each_induct (R := WaitsOn s) (fun u n hu => ?_) _ ⟨h, ⟨s.queues, rfl⟩, fun q => ⟨(s.queue q).wait, rfl⟩⟩
  obtain ⟨hf, ⟨qs, hqs⟩, hq⟩ := hu
  refine ⟨modQueue_flat hf n _, ?_, fun q => ?_⟩
  · rw [hqs]
    exact ⟨_, rfl⟩
  · obtain ⟨w, hw⟩ := hq q
    rcases eq_or_ne q n with rfl | hne
    · rw [modQueue_queue_same hf, hw]
      exact ⟨_, rfl⟩
    · rw [modQueue_queue_ne u _ hne]
      exact ⟨w, hw⟩

theorem WaitsOn.mem_waitingQueues (h : Flat s) (hw : WaitsOn s t) : q ∈ t.waitingQueues e ↔ q ∈ s.waitingQueues e := by
  obtain ⟨hf, ⟨qs, rfl⟩, hq⟩ := hw
  obtain ⟨w, hqw⟩ := hq q
  rw [Machine.mem_waitingQueues hf, Machine.mem_waitingQueues h, hqw]
  exact Iff.rfl

/-- The only queue that waits takes the first free slot, and no other waits then. -/
theorem mapAll_alone (h : Flat s) (h1 : (s.eng e).st ≠ .disabled) (h2 : (s.eng e).st ≠ .disabling) (hall : ∀ q, q ∈ s.waitingQueues e ↔ q = n)
    (hk : s.mapRule e 1 n = some k) {m fuel : Nat} (hfuel : m = fuel + 2) : s.mapAll e m = s.mapped k n := by
  subst hfuel
  obtain ⟨hst, heng, hnext⟩ := (mem_waitingQueues h).1 ((hall n).2 rfl)
  have hm : Flat (s.mapped k n) := mapped_flat h k n
  have hfree : (s.slot k).next = none := by
    rw [mapRule_free] at hk
    have hp := List.find?_some hk
    simp only [Bool.and_eq_true, Option.isNone_iff_eq_none] at hp
    exact hp.1.2
  have hnone : (s.mapped k n).waitingQueues e = [] := by
    refine List.eq_nil_iff_forall_not_mem.2 fun q hq => ?_
    obtain ⟨hqst, hqeng, hqnext⟩ := (mem_waitingQueues hm).1 hq
    rcases eq_or_ne q n with rfl | hne
    · rw [(mapped_fields h k q).1] at hqst
      exact absurd hqst QState.noConfusion
    · rw [mapped_queue_ne s k hne] at hqst hqeng
      refine hne ((hall q).1 ((mem_waitingQueues h).2 ⟨hqst, hqeng, ?_⟩))
      refine List.any_eq_false.2 fun j hj => ?_
      have hj' := List.any_eq_false.1 hqnext j hj
      rcases eq_or_ne j k with rfl | hjk
      · rw [hfree]
        exact Bool.false_ne_true
      · rw [mapped_slot_ne s n hjk] at hj'
        exact hj'
  obtain ⟨x, ws, hws⟩ : ∃ x ws, (s.waitingQueues e).mergeSort (fun a b => decide (s.waitRank a ≤ s.waitRank b)) = x :: ws := by
    refine List.exists_cons_of_ne_nil fun hnil => ?_
    have hin : n ∈ (s.waitingQueues e).mergeSort (fun a b => decide (s.waitRank a ≤ s.waitRank b)) := List.mem_mergeSort.2 ((hall n).2 rfl)
    rw [hnil] at hin
    cases hin
  have hx : x = n := (hall x).1 (List.mem_mergeSort.1 (hws ▸ List.mem_cons_self))
  subst hx
  rw [State.mapAll, hws, mapChoice_free hk]
  have hmove : s.moveIn k x = s.mapped k x := moveIn_of_enabled h (heng ▸ h1) (heng ▸ h2)
  refine (if_pos rfl).trans ?_
  rw [hmove, State.mapAll, hnone, List.mergeSort_nil]
  rfl

/-- The window of an accounting boundary. -/
theorem accounted_facts (h : Flat s) (e : Nat) (qs : Sparse Queue) (hq : swf Queue.reset qs = true) (w : Nat) :
    ((State.modEng { s with queues := qs } e (fun x => { x with kernelCharge := 0, windowStart := x.windowStart + w })).eng e).windowStart =
      (s.eng e).windowStart + w ∧
    ((State.modEng { s with queues := qs } e (fun x => { x with kernelCharge := 0, windowStart := x.windowStart + w })).eng e).kernelCharge = 0 := by
  have hf : Flat { s with queues := qs } := { h with queues := hq }
  rw [modEng_eng hf]
  exact ⟨rfl, rfl⟩

/-- Settles O54: an accounting window maps its reset over the queues; a mapping point moves none but queues that wait, the only one that waits into the
first free slot; a handover is the old queue's move out and the new one's move in; and a repair window sets and clears the hold of its engine. -/
theorem windowsAndSlots : Obligations.WindowsAndSlots := by
  unfold Obligations.WindowsAndSlots
  intro s e k hinv
  have h : Flat s := (flat_iff s).2 hinv
  refine ⟨fun hp hdue => ?_, fun hl hp => ?_, fun n hl hp h1 h2 hall hk => ?_, fun o n hl hleave hquiet ho hn hne hwait hmap h1 h2 => ?_,
    fun hl hdue hb hc => ?_, fun p hp ho hl hf hd => ?_⟩
  · obtain ⟨hstart, hcharge⟩ := accounted_facts h e _
      (swf_smap Queue.reset (fun x : Queue => if x.engine = e then { x with charge := 0 } else x) s.queues h.queues) (2 ^ 20)
    exact ⟨_, exec_accountWindow hp hdue, hstart, hcharge, fun n => chargesReset_queue h e n⟩
  · refine ⟨_, exec_mappingPoint hl hp, fun q hst hslot => ?_⟩
    have hw := waitedOn_waits h e
    obtain ⟨w, hq⟩ := hw.queue q
    exact (Unmapped.mapAll e 64 ⟨hw.flat, by rw [hq]; exact hst, by rw [hq]; exact hslot⟩).slot
  · have hw := waitedOn_waits h e
    have hmem : ∀ q, q ∈ (s.waitedOn e).waitingQueues e ↔ q = n := fun q => by
      rw [hw.mem_waitingQueues h, hall, List.mem_singleton]
    have hone : (s.waitedOn e).mapAll e 64 = (s.waitedOn e).mapped k n := by
      obtain ⟨qs, hqs⟩ := hw.rest
      refine mapAll_alone hw.flat ?_ ?_ hmem ?_ (show 64 = 62 + 2 from rfl)
      · rw [hqs]
        exact h1
      · rw [hqs]
        exact h2
      · rw [mapRule_free] at hk ⊢
        rw [hqs]
        exact hk
    obtain ⟨hqn, hsk⟩ := mapped_fields hw.flat k n
    refine ⟨_, exec_mappingPoint hl hp, ?_⟩
    rw [hone, hqn, hsk]
    exact ⟨rfl, rfl, rfl⟩
  · have hf : Flat (s.movedOut k o) := modSlot_flat (modQueue_flat h o _) k _
    obtain ⟨hqn, hsk⟩ := mapped_fields hf k n
    have hqo : ((s.movedOut k o).mapped k n).queue o = { s.queue o with slot := none, st := (s.queue o).unmapped } := by
      rw [mapped_queue_ne _ k hne]
      rw [movedOut_queue, modQueue_queue_same h, if_pos hmap]
    refine ⟨_, exec_slotHandover h hl hleave hquiet ho hn hne hwait h1 h2, ?_⟩
    rw [hqn, hsk, hqo]
    refine ⟨rfl, rfl, rfl, rfl, rfl, ?_⟩
    show (s.queue o).unmapped = .waiting ∨ (s.queue o).unmapped = .idle
    unfold Queue.unmapped
    split
    · exact .inr rfl
    · exact .inl rfl
  · have hf := modEng_flat h e (fun x => { x with heldItems := true })
    obtain ⟨hpre, hheld⟩ := discardPreload_preload hf e
    refine ⟨_, exec_repairWindowOpen hl hdue hb hc, List.mem_append_right _ (List.mem_singleton.2 rfl), ?_, hpre⟩
    exact hheld.trans (congrArg Engine.heldItems (modEng_eng h e _))
  · obtain ⟨hopen, hwin, hheld⟩ := endGrant_closes h p
    rw [prog_of_perProg hp] at hopen
    exact ⟨_, exec_repairWindowClose hp ho hl hf hd, hopen, hwin, hheld⟩

end Sys2Proof.Machine
end

section
/-!
PROOFS. Timeouts: a command past its time is killed or drains, and a drain is bounded (R374, R389, R400).
-/
namespace Sys2Proof.Machine

variable {s : State} {e : Nat} {c : Cmd}

/-- A killed command leaves its engine. -/
theorem kill_cur (h : Flat s) (e : Nat) (c : Cmd) (a : Progress) (st : Nat) (cause : Cause) : ((s.kill e c a st cause).eng e).cur = none := by
  have _ := anyPart_fact
  unfold State.kill
  extract_lets s1 ran kib
  have h1 : Flat s1 := (endWaits_keeps (killed_keeps (P := False) (W := anyPart) (Keeps.rfl' h) e c a) e).flat
  exact finish_cur h1 e c _

/-- A command that no stop point ends drains: it stays in its engine, marked. -/
theorem drainCmd_marks (hw : dOp c.desc ≠ opWait) (ha : dOp c.desc ≠ opAnneal) (hr : dOp c.desc ≠ opResume) (ho : dOp c.desc ≠ opRotate) (a : Progress) :
    s.drainCmd e c a .timeout =
      s.modEng e (fun x => { x with cur := some { c with draining := true, ownTimeout := true }, st := if x.st = .run then .drain else x.st }) := by
  unfold State.drainCmd
  extract_lets op c1
  rw [if_neg hw, if_neg (fun h => h.2.elim ha hr), if_neg (fun h => ho h.2)]
  rfl

theorem exec_queueTimeout (hl : s.live = true) (hc : (s.eng e).cur = some c) (ht : s.timedOut c = true) (a : Progress) :
    exec (.queueTimeout e a) s = .next (if (s.queue c.queue).kills then s.kill e c a stKilled .timeout else s.drainCmd e c a .timeout) := by
  have hx : exec (.queueTimeout e a) s = execQueueTimeout e a s := rfl
  rw [hx, execQueueTimeout, hc]
  exact congrArg Host.Outcome.next ((if_neg (by rw [hl]; decide)).trans (if_pos ht))

theorem exec_drainTimeout (hl : s.live = true) (hc : (s.eng e).cur = some c) (hd : c.draining = true) (he : s.drainEnd c ≤ s.hclk) (a : Progress) :
    exec (.drainTimeout e a) s = .next (s.kill e c a stKilled (s.drainCause c)) := by
  have hx : exec (.drainTimeout e a) s = execDrainTimeout e a s := rfl
  rw [hx, execDrainTimeout, hc]
  exact congrArg Host.Outcome.next (if_pos ⟨hl, hd, he⟩)

/-- Settles O53: a kill ends in `finish`, which leaves the engine at a boundary; a drain of another command only marks it. -/
theorem timeoutsEndCommands : Obligations.TimeoutsEndCommands := by
  unfold Obligations.TimeoutsEndCommands
  intro s e c a hinv hl hc
  have h : Flat s := (flat_iff s).2 hinv
  refine ⟨fun ht hk => ?_, fun ht hk hw ha hr ho => ?_, fun hd he => ?_⟩
  · exact ⟨_, (exec_queueTimeout hl hc ht a).trans (congrArg Host.Outcome.next (if_pos hk)), kill_cur h e c a _ _⟩
  · have hx := (exec_queueTimeout hl hc ht a).trans (congrArg Host.Outcome.next (if_neg (Bool.eq_false_iff.1 hk)))
    rw [drainCmd_marks hw ha hr ho] at hx
    refine ⟨_, hx, ?_, fun hst => ?_⟩
    · rw [modEng_eng h]
    · rw [modEng_eng h]
      exact if_pos hst
  · exact ⟨_, exec_drainTimeout hl hc hd he a, kill_cur h e c a _ _⟩

end Sys2Proof.Machine
end

section
/-!
PROOFS. ROUTE, READY and COMBINE (R214 to R217, R230 to R232).
-/
namespace Sys2Proof.Machine

variable {s t : State} {c : Cmd}

/-! ## What the route engine's own steps leave alone -/

/-- The parts that sending rows may change. -/
def sendWrites (p : Part) : Bool := [Part.spad, .route].contains p

theorem sendWrites_facts : Fact (sendWrites .spad = true) ∧ Fact (sendWrites .route = true) := ⟨⟨rfl⟩, ⟨rfl⟩⟩

theorem landSlot_route (h : Flat s) (x : RouteCtx) (spec : Bool) (fill : Nat → Nat → Option Nat) (y : Nat × Nat × (Nat × Nat)) :
    (x.landSlot spec fill s y).route = s.route := by
  have : Fact ((fun p => p = Part.spad) Part.spad) := ⟨rfl⟩
  exact (RouteCtx_landSlot_keeps (P := False) (W := fun p => p = .spad) (Keeps.rfl' h) x spec fill y).same .route (by decide)

theorem landSlot_flat (h : Flat s) (x : RouteCtx) (spec : Bool) (fill : Nat → Nat → Option Nat) (y : Nat × Nat × (Nat × Nat)) :
    Flat (x.landSlot spec fill s y) := by
  have _ := anyPart_fact
  exact (RouteCtx_landSlot_keeps (P := False) (W := anyPart) (Keeps.rfl' h) x spec fill y).flat

/-- Sending the speculative rows leaves the ready notices. -/
theorem sendSpec_ready (h : Flat s) (x : RouteCtx) : (s.sendSpec x).route.readyCores = s.route.readyCores := by
  unfold State.sendSpec
  split
  · rfl
  · extract_lets fill slots s1
    have h0 : Flat (s.modRoute (fun r => { r with sent := x.spec })) := { h with }
    have h1 : Flat s1 ∧ s1.route.readyCores = s.route.readyCores := by
      refine each_induct (R := fun u : State => Flat u ∧ u.route.readyCores = s.route.readyCores) (fun u y hu => ?_) x.spec ⟨h0, rfl⟩
      refine ⟨trace_flat hu.1 .., ?_⟩
      have hr := (trace_keeps (P := False) (W := fun _ => False) (Keeps.rfl' hu.1) 1 3 1 16
        (pairRecord x.h y.1.1 y.1.2 (((s.specSet x.h x.step y.1.1).find? (fun r => r.2 == y.1.2)).map Prod.fst |>.getD 0) 0)).same .route not_false
      exact (congrArg RouteEng.readyCores hr).trans hu.2
    exact (each_induct (R := fun u : State => Flat u ∧ u.route.readyCores = s.route.readyCores)
      (fun u y hu => ⟨landSlot_flat hu.1 .., (congrArg RouteEng.readyCores (landSlot_route hu.1 ..)).trans hu.2⟩) slots h1).2

theorem sendSpec_keeps_own (h : Flat s) (x : RouteCtx) : Keeps False (fun p => sendWrites p = true) s (s.sendSpec x) := by
  obtain ⟨_, _⟩ := sendWrites_facts
  exact sendSpec_keeps (Keeps.rfl' h) x

theorem coreAt_of_same {u : State} (hi : u.img = s.img) (hp : u.pwr = s.pwr) (i : Nat) : u.coreAt i = s.coreAt i := by
  unfold State.coreAt State.logical State.pcol State.useCols State.topo
  rw [hi, hp]

/-- Sending the speculative rows leaves ROUTE as ready as it was. -/
theorem sendSpec_routeReady (h : Flat s) (x : RouteCtx) (a : Nat) (toks : List (Nat × Nat)) : (s.sendSpec x).routeReady a toks = s.routeReady a toks := by
  unfold State.routeReady
  rw [sendSpec_ready h]
  have hk := sendSpec_keeps_own h x
  simp only [coreAt_of_same (hk.same .img Bool.false_ne_true) (hk.same .pwr Bool.false_ne_true)]

/-! ## ROUTE (R214 to R217) -/

theorem landAll_keeps_own (h : Flat s) (x : RouteCtx) (spec : Bool) (fill : Nat → Nat → Option Nat) (ys : List (Nat × Nat × (Nat × Nat))) :
    Keeps False (fun p => sendWrites p = true) s (s.each ys (x.landSlot spec fill)) := by
  obtain ⟨_, _⟩ := sendWrites_facts
  exact each_keeps _ _ (fun _ y k => RouteCtx_landSlot_keeps k x spec fill y) (Keeps.rfl' h)

theorem commitRoute_keeps_own (h : Flat s) (b : Bytes) (x : RouteCtx) (a : Adm) (bad : List Bool) :
    Keeps False (fun p => sendWrites p = true) s (s.commitRoute b x a bad) := by
  obtain ⟨_, _⟩ := sendWrites_facts
  exact commitRoute_keeps (Keeps.rfl' h) b x a bad

/-- A commit opens the step of its route object. -/
theorem commitRoute_opens (h : Flat s) (b : Bytes) (x : RouteCtx) (a : Adm) (bad : List Bool) :
    ∃ o ∈ (s.commitRoute b x a bad).route.objs, o.addr = rtAddr b ∧ o.step = rtStep b ∧ o.isOpen = true := by
  unfold State.commitRoute
  extract_lets k carry own recs obj s1 s2
  have hflat1 : Flat s1 := { h with }
  have : Fact ((fun p => p = Part.spad) Part.spad) := ⟨rfl⟩
  have hk : Keeps False (fun p => p = Part.spad) s1 ((s2.countRoute x a).traceAdmit x a) := by
    refine traceAdmit_keeps (countRoute_keeps ?_ x a) x a
    exact each_keeps _ _ (fun _ y k => deliver_keeps k _ _ _) (Keeps.rfl' hflat1)
  rw [hk.same .route (by decide)]
  exact ⟨obj, List.mem_append_right _ (List.mem_singleton.2 rfl), rfl, rfl, rfl⟩

/-- The command as a ROUTE ends it: whether it was replayed is what its engine says by then. -/
def State.routeEnds (s : State) (c : Cmd) (void : Bool) : State :=
  let now := ((s.eng 16).cur.map Cmd.replayed).getD c.replayed
  s.complete 16 { c with replayed := now } { status := endStatus false void now }

/-- What a ROUTE leaves before its two fences: every row landed. -/
def State.routeLands (s : State) (x : RouteCtx) (arrival : List Nat) : State :=
  s.each (x.landing.filter (fun y => !s.route.sent.any (fun z => z.1.2 == y.1 && z.2 == y.2.1))) (x.landSlot false (x.filler (x.decided arrival).1))

theorem runRoute_eq (s : State) (c : Cmd) (x : RouteCtx) (arrival : List Nat) : s.runRoute c x arrival =
    (((((s.routeLands x arrival).fenceAdd (rtLand c.tack) 1).fenceAdd (rtCatch c.tack) 1).commitRoute c.tack x (x.decided arrival).1
      (x.decided arrival).2).routeEnds c (x.sawVoid s)) := rfl

theorem routeEnds_facts (h : Flat s) (c : Cmd) (void : Bool) : ((s.routeEnds c void).eng 16).cur = none ∧ (s.routeEnds c void).route = s.route ∧
    (s.routeEnds c void).fences = s.fences :=
  ⟨complete_cur h 16 _ _, complete_same h 16 _ _ .route rfl, (complete_fences h 16 _ _).1⟩

theorem fenceAdd_fences (s : State) (f n : Nat) : (s.fenceAdd f n).fences =
    sset 0 s.fences f (BitVec.ofNat 64 (if 2 ^ 64 ≤ (s.fence f).toNat + n then 2 ^ 64 - 1 else (s.fence f).toNat + n)) := by
  unfold State.fenceAdd
  split
  · next hle => rw [if_pos hle]
  · next hle => rw [if_neg hle]

theorem fenceAdd_congr {u : State} (hf : u.fences = s.fences) (f n : Nat) : (u.fenceAdd f n).fences = (s.fenceAdd f n).fences := by
  rw [fenceAdd_fences, fenceAdd_fences, hf, fence_of_fences hf]

/-- A ROUTE that runs opens its step and adds 1 to its two fences. -/
theorem runRoute_facts (h : Flat s) (c : Cmd) (x : RouteCtx) (arrival : List Nat) :
    ((s.runRoute c x arrival).eng 16).cur = none ∧
    (∃ o ∈ (s.runRoute c x arrival).route.objs, o.addr = rtAddr c.tack ∧ o.step = rtStep c.tack ∧ o.isOpen = true) ∧
    ∀ f, (s.runRoute c x arrival).fence f = ((s.fenceAdd (rtLand c.tack) 1).fenceAdd (rtCatch c.tack) 1).fence f := by
  have hl : Keeps False (fun p => sendWrites p = true) s (s.routeLands x arrival) := landAll_keeps_own h x false _ _
  have hf : Flat (((s.routeLands x arrival).fenceAdd (rtLand c.tack) 1).fenceAdd (rtCatch c.tack) 1) := fenceAdd_flat (fenceAdd_flat hl.flat _ _) _ _
  have hc := commitRoute_keeps_own hf c.tack x (x.decided arrival).1 (x.decided arrival).2
  have hopen := commitRoute_opens hf c.tack x (x.decided arrival).1 (x.decided arrival).2
  obtain ⟨hcur, hroute, hfences⟩ := routeEnds_facts hc.flat c (x.sawVoid s)
  rw [runRoute_eq]
  refine ⟨hcur, ?_, fun f => fence_of_fences ?_ f⟩
  · rw [hroute]
    exact hopen
  · rw [hfences, (hc.same .fences Bool.false_ne_true).1]
    exact fenceAdd_congr (fenceAdd_congr (hl.same .fences Bool.false_ne_true).1 _ _) _ _

theorem exec_route {arrival : List Nat} (h : Flat s) (hx : s.starting 16 opRoute = some (c, t))
    (hready : t.routeReady (rtAddr c.tack) (t.tokensOf (t.devBytes (rtAddr c.tack) 64)) = true)
    (harr : roArrival (t.devBytes (rtAddr c.tack) 64) = true → arrivalOk (t.tokensOf (t.devBytes (rtAddr c.tack) 64)).length arrival = true)
    (hchk : (t.sendSpec (t.routeCtx c.tack)).takeChecks 16 c ((t.sendSpec (t.routeCtx c.tack)).routeWords (t.routeCtx c.tack))
      ((t.sendSpec (t.routeCtx c.tack)).routeBlocks (rtAddr c.tack) (t.devBytes (rtAddr c.tack) 64)) = none) :
    exec (.route arrival) s = .next ((t.sendSpec (t.routeCtx c.tack)).runRoute c (t.routeCtx c.tack) arrival) := by
  have hex : exec (.route arrival) s = execRoute arrival s := rfl
  rw [hex, execRoute, hx]
  dsimp only
  rw [if_neg, hchk]
  · rfl
  · rw [sendSpec_routeReady (starting_flat h hx), hready]
    rintro (hn | ⟨ha, hn⟩)
    · cases hn
    · rw [harr ha] at hn
      cases hn

/-! ## COMBINE (R230 to R232) -/

theorem putCombined_keeps_own (h : Flat s) (o : RouteObj) (rows : List ((Nat × Nat) × Nat × Combined)) :
    Keeps False (fun p => sendWrites p = true) s (s.each rows (State.putCombined o)) := by
  obtain ⟨_, _⟩ := sendWrites_facts
  exact each_keeps _ _ (fun _ y k => putCombined_keeps k o y) (Keeps.rfl' h)

/-- The route engine with the step of the route object at `a` closed. -/
def State.closeObj (s : State) (a : Nat) : State :=
  s.modRoute (fun r => { r with objs := r.objs.map (fun (x : RouteObj) => if x.addr = a then { x with isOpen := false } else x) })

theorem closeObj_closes (s : State) (a : Nat) : ∀ x ∈ (s.closeObj a).route.objs, x.addr = a → x.isOpen = false := by
  intro x hx ha
  obtain ⟨y, -, rfl⟩ := List.mem_map.1 hx
  split at ha
  · next hy => rw [if_pos hy]
  · next hy => exact absurd ha hy

/-- A COMBINE that runs closes its step, and changes no fence and no core's state. -/
theorem runCombine_facts (h : Flat s) (c : Cmd) (o : RouteObj) : ((s.runCombine c o).eng 16).cur = none ∧ (s.runCombine c o).fences = s.fences ∧
    (s.runCombine c o).yards.cores = s.yards.cores ∧ ∀ x ∈ (s.runCombine c o).route.objs, x.addr = o.addr → x.isOpen = false := by
  unfold State.runCombine
  extract_lets rows s1 s2 flagged
  have hk : Keeps False (fun p => sendWrites p = true) s s1 := putCombined_keeps_own h o rows
  have h1 : Flat s1 := hk.flat
  have h2 : Flat s2 := { h1 with }
  refine ⟨complete_cur h2 _ _ _, (complete_fences h2 _ _ _).1.trans (hk.same .fences Bool.false_ne_true).1,
    (complete_same h2 _ _ _ .cores rfl).trans (hk.same .cores Bool.false_ne_true), ?_⟩
  rw [complete_same h2 16 c _ .route rfl]
  exact closeObj_closes s1 o.addr

/-- COMBINE starts beside the cores: it is no command of a compute engine. -/
theorem starting_combine_cores (h : Flat s) (hx : s.starting 16 opCombine = some (c, t)) : t.yards.cores = s.yards.cores := by
  unfold State.starting at hx
  split at hx
  · cases hx
    rfl
  · split at hx
    · next m hm =>
      split at hx
      · cases hx
        have : Fact ((fun p => p = Part.engines ∨ p = Part.route) Part.engines) := ⟨.inl rfl⟩
        have : Fact ((fun p => p = Part.engines ∨ p = Part.route) Part.route) := ⟨.inr rfl⟩
        have hk : Keeps False (fun p => p = Part.engines ∨ p = Part.route) s (s.start 16 m) := by
          unfold State.start
          extract_lets c1 s1
          have h1 : Keeps False (fun p => p = Part.engines ∨ p = Part.route) s s1 := showRoute_keeps (Keeps.rfl' h) m
          exact traceStart_keeps (hold_keeps h1 16 _ c1) 16 m
        exact hk.same .cores (by simp)
      · cases hx
    · cases hx

theorem exec_combine {o : RouteObj} (hx : s.starting 16 opCombine = some (c, t)) (ho : t.routeObj (rtAddr c.tack) = some o)
    (hchk : t.takeChecks 16 c (t.combineWords o) [] = none) : exec .combine s = .next (t.runCombine c o) := by
  have hex : exec .combine s = execCombine s := rfl
  rw [hex, execCombine, hx]
  dsimp only
  rw [ho]
  dsimp only
  rw [hchk]
  rfl

/-! ## READY (R216) -/

theorem exec_ready (hl : s.live = true) (core obj : Nat) : exec (.ready core obj) s = .next (s.modRoute (fun r => { r with
    readyCores := if r.readyCores.contains (core, obj) then r.readyCores else (core, obj) :: r.readyCores })) :=
  congrArg Host.Outcome.next (if_pos hl)

/-- Settles O16: ROUTE sends, adds to its two fences and commits, COMBINE writes and closes, each by the frames of its parts; READY is one entry more. -/
theorem routeAndCombineComplete : Obligations.RouteAndCombineComplete := by
  unfold Obligations.RouteAndCombineComplete
  refine ⟨?_, fun s core obj hl => ?_, fun s t c o hinv hx ho hchk => ?_⟩
  · rintro s t t1 c b arrival hinv hx rfl rfl hready harr hchk
    have h : Flat s := (flat_iff s).2 hinv
    have ht : Flat t := starting_flat h hx
    have hk := sendSpec_keeps_own ht (t.routeCtx c.tack)
    obtain ⟨hcur, hobj, hfence⟩ := runRoute_facts hk.flat c (t.routeCtx c.tack) arrival
    have hsame : ∀ f, (t.sendSpec (t.routeCtx c.tack)).fence f = s.fence f := fun f =>
      (fence_of_fences (hk.same .fences Bool.false_ne_true).1 f).trans (starting_fence h hx f)
    have hf1 := fenceAdd_flat hk.flat (rtLand c.tack) 1
    refine ⟨_, exec_route h hx hready harr hchk, hcur, hobj, fun f hl hc => ?_, fun hne => ⟨?_, ?_⟩⟩
    · rw [hfence, fenceAdd_fence_ne 1 hc, fenceAdd_fence_ne 1 hl, hsame]
    · rw [hfence, fenceAdd_fence_ne 1 hne, fenceAdd_fence_same hk.flat, hsame]
    · rw [hfence, fenceAdd_fence_same hf1, fenceAdd_fence_ne 1 hne.symm, hsame]
  · refine ⟨_, exec_ready hl core obj, ?_, fun x hx => ?_, rfl⟩
    · show (core, obj) ∈ if s.route.readyCores.contains (core, obj) then s.route.readyCores else (core, obj) :: s.route.readyCores
      split
      · next hin => exact List.contains_iff_mem.1 hin
      · exact List.mem_cons_self
    · show x ∈ (if s.route.readyCores.contains (core, obj) then s.route.readyCores else (core, obj) :: s.route.readyCores) ↔ _
      split
      · exact Iff.rfl
      · rw [List.mem_cons, or_iff_right hx]
  · have h : Flat s := (flat_iff s).2 hinv
    obtain ⟨hcur, hfences, hcores, hobjs⟩ := runCombine_facts (starting_flat h hx) c o
    exact ⟨_, exec_combine hx ho hchk, hcur, hfences.trans (starting_fences h hx).1, hcores.trans (starting_combine_cores h hx), hobjs⟩

end Sys2Proof.Machine
end

section
/-!
PROOFS. Power-up: where it ends, and a step past its bound (R372, R520 to R522, R526).
-/
namespace Sys2Proof.Machine

variable {s t : State} {r : Except BootStop State} {k : Nat}

/-! ## Steps of a power-up -/

/-- A step that goes well or not leaves a flat state. -/
def BootFlat : Except BootStop State → Prop
  | .ok t => Flat t
  | .error e => Flat e.st

/-- The power part is as the step found it where the step fails. -/
def BootRuns (s : State) (r : Except BootStop State) : Prop := BootFlat r ∧ ∀ e, r = .error e → e.st.pwr = s.pwr

theorem bootRuns_of_keeps (h : BootKeeps False OffPwr s r) : BootRuns s r := by
  refine ⟨?_, fun e he => (h.2 e he).same .pwr id⟩
  cases r with
  | ok t => exact (h.1 t rfl).flat
  | error e => exact (h.2 e rfl).flat

/-- What step `j` finds: its number shown, the alignment begun at step 6, and its ms passed. -/
def State.atStep (s : State) (f : BootFacts) (late : Option Nat) (j : Nat) : State :=
  let ms := f.stepMs.getD (j - 1) 0
  let t := s.modPwr (fun p => { p with step := j })
  (if j = 6 then t.beginAlign else t).pass ((if late = some j ∨ stepBound j < ms then stepBound j else ms) * 1000 * hclkPerUs)

theorem atStep_facts (h : Flat s) (f : BootFacts) (late : Option Nat) (j : Nat) : Flat (s.atStep f late j) ∧ (s.atStep f late j).pwr.step = j := by
  have : Fact True := ⟨trivial⟩
  unfold State.atStep
  extract_lets ms t
  have ht : Flat t := modPwr_flat h _
  have hv : Keeps False OffPwr t (if j = 6 then t.beginAlign else t) := by
    split
    · exact beginAlign_keeps (Keeps.rfl' ht)
    · exact Keeps.rfl' ht
  refine ⟨pass_flat hv.flat _, ?_⟩
  rw [pass_pwr hv.flat, hv.same .pwr id]
  rfl

/-- A step runs where its ms do not pass its bound, and fails with TIMEOUT where they do or it is named late. -/
theorem bootStep_eq (s : State) (f : BootFacts) (late : Option Nat) (j : Nat) (run : State → Except BootStop State) :
    s.bootStep f late j run =
      if late = some j ∨ stepBound j < f.stepMs.getD (j - 1) 0 then .error ⟨s.atStep f late j, scTimeout, 0⟩ else run (s.atStep f late j) := by
  unfold State.bootStep State.atStep
  simp only [decide_eq_true_eq]

/-! ## Every step of a power-up runs on a flat state -/

/-- The power-up comes to its end, or a step of it fails. -/
def BootEnds : Except BootStop State → Prop
  | .ok t => ∃ u, Flat u ∧ t = u.boot9
  | .error e => Flat e.st

theorem BootFlat.ends {g : State → Except BootStop State} (h : BootFlat r) (hg : ∀ u, Flat u → BootEnds (g u)) : BootEnds (r >>= g) := by
  cases r with
  | ok u => exact hg u h
  | error e => exact h

theorem bootStep_flat (h : Flat s) {f : BootFacts} {late : Option Nat} {j : Nat} {run : State → Except BootStop State}
    (hr : ∀ u, Flat u → BootFlat (run u)) : BootFlat (s.bootStep f late j run) := by
  rw [bootStep_eq]
  split
  · exact (atStep_facts h f late j).1
  · exact hr _ (atStep_facts h f late j).1

/-- The runs of the first eight steps. -/
def bootRun (f : BootFacts) : Nat → State → Except BootStop State
  | 1, s => .ok (s.boot1 f)
  | 2, s => s.boot2 f
  | 3, s => s.boot3 f
  | 4, s => s.boot4 f
  | 5, s => s.boot5 f
  | 6, s => .ok (s.align (BitVec.ofNat 60 s.img.lockMask.toNat) f.align)
  | 7, s => s.boot7 f
  | 8, s => s.boot8 f
  | _, s => .ok s.boot9

theorem bootRun_runs (h : Flat s) (f : BootFacts) {j : Nat} (hj : 1 ≤ j) (hj' : j ≤ 8) : BootRuns s (bootRun f j s) := by
  have : Fact True := ⟨trivial⟩
  have hk : Keeps False OffPwr s s := Keeps.rfl' h
  match j, hj, hj' with
  | 1, _, _ => exact bootRuns_of_keeps (boot_ok_keeps (boot1_keeps hk nofun f))
  | 2, _, _ => exact bootRuns_of_keeps (boot2_keeps hk f)
  | 3, _, _ => exact bootRuns_of_keeps (boot3_keeps hk f)
  | 4, _, _ => exact bootRuns_of_keeps (boot4_keeps hk f)
  | 5, _, _ => exact bootRuns_of_keeps (boot5_keeps hk f)
  | 6, _, _ => exact bootRuns_of_keeps (boot_ok_keeps (align_keeps hk _ _))
  | 7, _, _ => exact bootRuns_of_keeps (boot7_keeps hk f)
  | 8, _, _ => exact bootRuns_of_keeps (boot8_keeps hk f)

/-- Step `j` of a power-up and those after it, up to step 9. -/
def State.bootFrom (s : State) (f : BootFacts) (late : Option Nat) (j : Nat) : Nat → Except BootStop State
  | 0 => s.bootStep f late j (bootRun f j)
  | n + 1 => s.bootStep f late j (bootRun f j) >>= fun t => t.bootFrom f late (j + 1) n

theorem bootAll_eq (s : State) (f : BootFacts) (late : Option Nat) : s.bootAll f late = s.bootFrom f late 1 8 := rfl

theorem bootFrom_ends (f : BootFacts) (late : Option Nat) : ∀ n j, 1 ≤ j → j + n = 9 → ∀ {s}, Flat s → BootEnds (s.bootFrom f late j n)
  | 0, j, _, hn, s, h => by
    obtain rfl : j = 9 := hn
    unfold State.bootFrom
    rw [bootStep_eq]
    split
    · exact (atStep_facts h f late 9).1
    · exact ⟨_, (atStep_facts h f late 9).1, rfl⟩
  | n + 1, j, hj, hn, s, h => by
    unfold State.bootFrom
    refine (bootStep_flat h fun u hu => (bootRun_runs hu f hj (by omega)).1).ends fun u hu => ?_
    exact bootFrom_ends f late n (j + 1) (by omega) (by omega) hu

/-! ## A late step -/

/-- A power-up that step `k` ends at the latest, step `k` itself with TIMEOUT. -/
def StopsBy (k : Nat) (r : Except BootStop State) : Prop :=
  ∃ e, r = .error e ∧ Flat e.st ∧ e.st.pwr.step ≤ k ∧ (e.st.pwr.step = k → e.cause = scTimeout)

/-- The late step fails. -/
theorem bootStep_late (h : Flat s) (f : BootFacts) (k : Nat) (run : State → Except BootStop State) : ∃ e, s.bootStep f (some k) k run = .error e ∧
    Flat e.st ∧ e.st.pwr.step ≤ k ∧ (e.st.pwr.step = k → e.cause = scTimeout) := by
  obtain ⟨hf, hs⟩ := atStep_facts h f (some k) k
  rw [bootStep_eq, if_pos (.inl rfl)]
  exact ⟨_, rfl, hf, Nat.le_of_eq hs, fun _ => rfl⟩

/-- A step before the late one fails at its own number, or the power-up goes on. -/
theorem bootStep_before (h : Flat s) (f : BootFacts) {k j : Nat} (hj : j < k) {run g : State → Except BootStop State}
    (hr : ∀ u, Flat u → BootRuns u (run u)) (hg : ∀ u, Flat u → StopsBy k (g u)) : StopsBy k (s.bootStep f (some k) j run >>= g) := by
  obtain ⟨hf, hs⟩ := atStep_facts h f (some k) j
  have hstop : ∀ e : BootStop, Flat e.st → e.st.pwr.step = j → StopsBy k (Except.error e >>= g) := fun e he hej =>
    ⟨e, rfl, he, by omega, fun hk => by omega⟩
  rw [bootStep_eq]
  split
  · exact hstop _ hf hs
  · obtain ⟨hflat, hpwr⟩ := hr _ hf
    cases hrun : run (s.atStep f (some k) j) with
    | ok u =>
      rw [hrun] at hflat
      exact hg u hflat
    | error e =>
      rw [hrun] at hflat
      exact hstop e hflat (by rw [hpwr e hrun]; exact hs)

theorem bootFrom_stops (f : BootFacts) : ∀ n j, 1 ≤ j → j + n = 9 → j ≤ k → k ≤ 9 → ∀ {s}, Flat s → StopsBy k (s.bootFrom f (some k) j n)
  | 0, j, _, hn, hjk, hk, s, h => by
    obtain rfl : j = k := by omega
    exact bootStep_late h f j _
  | n + 1, j, hj, hn, hjk, hk, s, h => by
    unfold State.bootFrom
    rcases Nat.lt_or_ge j k with hlt | hge
    · exact bootStep_before h f hlt (fun u hu => bootRun_runs hu f hj (by omega))
        fun u hu => bootFrom_stops f n (j + 1) (by omega) (by omega) hlt hk hu
    · obtain rfl : j = k := by omega
      obtain ⟨e, he, hrest⟩ := bootStep_late h f j (bootRun f j)
      rw [he]
      exact ⟨e, rfl, hrest⟩

/-! ## READY (R520, R527) -/

/-- Every engine of a list is IDLE once each has been set IDLE. -/
theorem idleAll_idle (h : Flat s) (g : State → Engine → Nat) (es : List Nat) {e : Nat} (he : e ∈ es) :
    ((s.each es (fun s e => s.modEng e (fun x => { x with st := .idle, windowStart := g s x }))).eng e).st = .idle := by
  have hkeep : ∀ u x, Flat u ∧ (u.eng e).st = .idle → Flat (u.modEng x (fun y => { y with st := .idle, windowStart := g u y })) ∧
      ((u.modEng x (fun y => { y with st := .idle, windowStart := g u y })).eng e).st = .idle := by
    intro u x hu
    refine ⟨modEng_flat hu.1 x _, ?_⟩
    rcases eq_or_ne e x with rfl | hne
    · rw [modEng_eng hu.1]
    · rw [State.modEng, eng_setEng_ne _ _ _ _ hne]
      exact hu.2
  obtain ⟨as, bs, rfl⟩ := List.append_of_mem he
  have hsplit : s.each (as ++ e :: bs) (fun s e => s.modEng e (fun x => { x with st := .idle, windowStart := g s x })) =
      ((s.each as (fun s e => s.modEng e (fun x => { x with st := .idle, windowStart := g s x }))).modEng e (fun x => { x with
        st := .idle, windowStart := g (s.each as (fun s e => s.modEng e (fun x => { x with st := .idle, windowStart := g s x }))) x })).each bs
        (fun s e => s.modEng e (fun x => { x with st := .idle, windowStart := g s x })) := List.foldl_append
  have hflat : Flat (s.each as (fun s e => s.modEng e (fun x => { x with st := .idle, windowStart := g s x }))) :=
    each_induct (R := Flat) (fun u x hu => modEng_flat hu x _) as h
  rw [hsplit]
  refine (each_induct (R := fun u => Flat u ∧ (u.eng e).st = .idle) hkeep bs ⟨modEng_flat hflat e _, ?_⟩).2
  rw [modEng_eng hflat]

/-- The parts that the end of a power-up may change once its engines are IDLE. -/
def besideIdle (q : Part) : Prop := q ≠ .engines ∧ q ≠ .img ∧ q ≠ .hub

theorem besideIdle_same (k : Keeps False besideIdle s t) : t.img = s.img ∧ t.hub = s.hub ∧ t.engines = s.engines :=
  ⟨k.same .img (fun hw => hw.2.1 rfl), k.same .hub (fun hw => hw.2.2 rfl), k.same .engines (fun hw => hw.1 rfl)⟩

theorem present_of_same {u : State} (hi : u.img = s.img) (hh : u.hub = s.hub) (e : Nat) : u.present e = s.present e := by
  unfold State.present State.engEntry
  rw [hi, hh]

/-- Step 9 ends in READY with every engine that is present IDLE. -/
theorem boot9_facts (h : Flat s) : s.boot9.pwr.mod = .ready ∧ ∀ e, e < 21 → s.boot9.present e = true → (s.boot9.eng e).st = .idle := by
  have _ := anyPart_fact
  have : Fact (besideIdle .halves) := ⟨by unfold besideIdle; decide⟩
  have : Fact (besideIdle .spad) := ⟨by unfold besideIdle; decide⟩
  have : Fact (besideIdle .per) := ⟨by unfold besideIdle; decide⟩
  have : Fact (besideIdle .data) := ⟨by unfold besideIdle; decide⟩
  have : Fact (besideIdle .host) := ⟨by unfold besideIdle; decide⟩
  unfold State.boot9
  extract_lets s1 s2 s3
  have h1 : Flat s1 :=
    (mapMessagePage_keeps (each_keeps (W := anyPart) (P := False) _ _ (fun _ _ hu => createRt_keeps hu _) (Keeps.rfl' h))).flat
  have : Fact ((fun q => q = Part.engines) Part.engines) := ⟨rfl⟩
  have k2 : Keeps False (fun q => q = Part.engines) s1 s2 := each_keeps _ _ (fun _ _ hu => modEng_keeps hu _ _) (Keeps.rfl' h1)
  have hidle : ∀ e, e < 21 → s1.present e = true → (s2.eng e).st = .idle := fun e he hp =>
    idleAll_idle h1 _ _ (List.mem_filter.2 ⟨List.mem_range.2 he, hp⟩)
  have k3 : Keeps False besideIdle s2 s3 := each_keeps _ _ (fun _ _ hu => readyHalf_keeps hu _) (Keeps.rfl' k2.flat)
  have i2 : s2.img = s1.img := k2.same .img (by decide)
  have hb2 : s2.hub = s1.hub := k2.same .hub (by decide)
  clear_value s1 s2 s3
  have h4 : Flat (s3.modPwr (fun p => { p with mod := .ready, bootMs := s3.bootMs })) := modPwr_flat k3.flat _
  have : Fact (Part.per ≠ .pwr) := ⟨by decide⟩
  have : Fact (Part.data ≠ .pwr) := ⟨by decide⟩
  have : Fact (Part.host ≠ .pwr) := ⟨by decide⟩
  have kp : Keeps False (fun q => q ≠ .pwr) (s3.modPwr (fun p => { p with mod := .ready, bootMs := s3.bootMs }))
      (s3.modPwr (fun p => { p with mod := .ready, bootMs := s3.bootMs })).holdPrograms.serveHead :=
    serveHead_keeps (holdPrograms_keeps (Keeps.rfl' h4))
  have k5 : Keeps False besideIdle (s3.modPwr (fun p => { p with mod := .ready, bootMs := s3.bootMs }))
      (s3.modPwr (fun p => { p with mod := .ready, bootMs := s3.bootMs })).holdPrograms.serveHead :=
    serveHead_keeps (holdPrograms_keeps (Keeps.rfl' h4))
  refine ⟨congrArg Power.mod (kp.same .pwr (not_not.2 rfl)), fun e he hp => ?_⟩
  obtain ⟨i3, hb3, e3⟩ := besideIdle_same k3
  obtain ⟨i5, hb5, e5⟩ := besideIdle_same k5
  rw [present_of_same (i5.trans (i3.trans i2)) (hb5.trans (hb3.trans hb2))] at hp
  rw [eng_of_engines (e5.trans e3)]
  exact hidle e he hp

/-! ## The power-up -/

theorem exec_powerUp (hr : s.atReset = true) (f : BootFacts) : exec (.powerUp f) s = .next (s.powerUp f none) := congrArg Host.Outcome.next (if_pos hr)

theorem exec_powerUpStepTimeout (hr : s.atReset = true) (h1 : 1 ≤ k) (h9 : k ≤ 9) (f : BootFacts) :
    exec (.powerUpStepTimeout k f) s = .next (s.powerUp f (some k)) := congrArg Host.Outcome.next (if_pos ⟨hr, h1, h9⟩)

theorem powerUp_ok {f : BootFacts} {late : Option Nat} (hf : (f.h0Fails && f.h1Fails) = false) (hb : s.bootAll f late = .ok t) :
    s.powerUp f late = t := by
  unfold State.powerUp
  rw [if_neg (by rw [← Bool.and_eq_true, hf]; decide), hb]

theorem powerUp_error {f : BootFacts} {late : Option Nat} {e : BootStop} (hf : (f.h0Fails && f.h1Fails) = false) (hb : s.bootAll f late = .error e) :
    s.powerUp f late = e.st.enterSafe e.cause e.st.pwr.step e.detail := by
  unfold State.powerUp
  rw [if_neg (by rw [← Bool.and_eq_true, hf]; decide), hb]

/-- Both hubs have failed: the module answers nothing (R522). -/
theorem powerUp_dead {f : BootFacts} {late : Option Nat} (hf : (f.h0Fails && f.h1Fails) = true) : (s.powerUp f late).hubAlive = false ∧
    (s.powerUp f late).pwr = s.pwr := by
  unfold State.powerUp
  rw [if_pos (by rw [← Bool.and_eq_true]; exact hf)]
  refine ⟨?_, rfl⟩
  unfold State.hubAlive
  split <;> rfl

theorem mod_of_atReset (hr : s.atReset = true) : s.pwr.mod = .boot := by
  unfold State.atReset at hr
  simp only [Bool.and_eq_true, beq_iff_eq] at hr
  exact hr.1.1.1

/-- Settles O33: each step runs on a flat state and leaves the power part alone, so a power-up comes to step 9 or its failed step enters SAFE, with
TIMEOUT where that is the late one. -/
theorem powerUpEnds : Obligations.PowerUpEnds := by
  unfold Obligations.PowerUpEnds
  intro s f hinv hr
  have h : Flat s := (flat_iff s).2 hinv
  refine ⟨⟨_, exec_powerUp hr f, ?_⟩, fun k h1 h9 hf => ⟨_, exec_powerUpStepTimeout hr h1 h9 f, ?_⟩⟩
  · cases hf : (f.h0Fails && f.h1Fails) with
    | true =>
      obtain ⟨hdead, hpwr⟩ := powerUp_dead (s := s) (late := none) hf
      refine ⟨nofun, fun _ => hdead, fun hm => ?_⟩
      rw [hpwr, mod_of_atReset hr] at hm
      cases hm
    | false =>
      have hends := bootFrom_ends f none 8 1 (by decide) rfl h
      rw [← bootAll_eq] at hends
      refine ⟨fun _ => ?_, nofun, fun hm => ?_⟩
      · cases hb : s.bootAll f none with
        | ok t =>
          rw [hb] at hends
          obtain ⟨u, hu, ht⟩ := hends
          rw [powerUp_ok hf hb, ht]
          exact .inl (boot9_facts hu).1
        | error e =>
          rw [hb] at hends
          rw [powerUp_error hf hb, (enterSafe_facts hends _ _ _).1]
          exact .inr rfl
      · cases hb : s.bootAll f none with
        | ok t =>
          rw [hb] at hends
          obtain ⟨u, hu, ht⟩ := hends
          rw [powerUp_ok hf hb, ht]
          exact (boot9_facts hu).2
        | error e =>
          rw [hb] at hends
          rw [powerUp_error hf hb, (enterSafe_facts hends _ _ _).1] at hm
          cases hm
  · obtain ⟨e, he, hflat, hle, hcause⟩ := bootFrom_stops f 8 1 (by decide) rfl h1 h9 h
    rw [← bootAll_eq] at he
    rw [powerUp_error hf he, (enterSafe_facts hflat _ _ _).1]
    exact ⟨rfl, hle, hcause⟩

end Sys2Proof.Machine
end

section
/-!
SUPPORT. A fetch from a slot: the head of its queue passes one entry, the turn of its class goes to the slot, and the command that the engine then
holds, where it holds one, is that entry's (R348, R382, R391).
-/
namespace Sys2Proof.Machine

variable {s t : State} {e n k pos sq cls v : Nat} {c : Cmd}

/-! ## An engine stands at a turn -/

/-- Engine `e` stands at turn `v` of class `cls`, and holds no preload that a drop could give the turn back of. -/
structure TurnStands (e cls v : Nat) (s : State) : Prop where
  flat : Flat s
  empty : (s.eng e).preload = none
  turn : sget 0 (s.eng e).lastServed cls = v

/-- The parts that may change while every engine stays as it is. -/
def besideEngines (p : Part) : Prop := p ≠ .engines

theorem besideEngines_facts : Fact (besideEngines .img) ∧ Fact (besideEngines .halves) ∧ Fact (besideEngines .data) ∧ Fact (besideEngines .queues) ∧
    Fact (besideEngines .slots) ∧ Fact (besideEngines .per) ∧ Fact (besideEngines .host) ∧ Fact (besideEngines .rng) := by
  refine ⟨⟨?_⟩, ⟨?_⟩, ⟨?_⟩, ⟨?_⟩, ⟨?_⟩, ⟨?_⟩, ⟨?_⟩, ⟨?_⟩⟩ <;> exact Part.noConfusion

theorem TurnStands.of_eng (hs : TurnStands e cls v s) (ht : Flat t) (hp : (t.eng e).preload = (s.eng e).preload)
    (hl : (t.eng e).lastServed = (s.eng e).lastServed) : TurnStands e cls v t :=
  ⟨ht, hp.trans hs.empty, by rw [hl]; exact hs.turn⟩

theorem TurnStands.of_keeps (hs : TurnStands e cls v s) (k : Keeps False besideEngines s t) : TurnStands e cls v t :=
  have he : t.eng e = s.eng e := eng_of_engines (k.same .engines (fun hw => hw rfl)) e
  hs.of_eng k.flat (by rw [he]) (by rw [he])

theorem TurnStands.keeps (hs : TurnStands e cls v s) : Keeps False besideEngines s s := Keeps.rfl' hs.flat

theorem TurnStands.each {α : Type} {f : State → α → State} (hs : TurnStands e cls v s) (xs : List α)
    (hf : ∀ t, ∀ x ∈ xs, TurnStands e cls v t → TurnStands e cls v (f t x)) : TurnStands e cls v (s.each xs f) :=
  List.foldlRecOn xs f hs fun t ht x hx => hf t x hx ht

/-- An engine changes in neither its preload nor its turns. -/
theorem TurnStands.modEng (hs : TurnStands e cls v s) (j : Nat) {f : Engine → Engine}
    (hf : ∀ x, (f x).preload = x.preload ∧ (f x).lastServed = x.lastServed) : TurnStands e cls v (s.modEng j f) := by
  have hfl := modEng_flat hs.flat j f
  by_cases hj : e = j
  · subst hj
    have he := modEng_eng hs.flat e f
    exact hs.of_eng hfl (by rw [he]; exact (hf _).1) (by rw [he]; exact (hf _).2)
  · have he : (s.modEng j f).eng e = s.eng e := eng_setEng_ne _ _ _ _ hj
    exact hs.of_eng hfl (by rw [he]) (by rw [he])

theorem TurnStands.modEng_ne (hs : TurnStands e cls v s) {j : Nat} (hj : e ≠ j) (f : Engine → Engine) : TurnStands e cls v (s.modEng j f) :=
  have he : (s.modEng j f).eng e = s.eng e := eng_setEng_ne _ _ _ _ hj
  hs.of_eng (modEng_flat hs.flat j f) (by rw [he]) (by rw [he])

theorem TurnStands.setChain (hs : TurnStands e cls v s) (j i : Nat) (x : ChainSlot) : TurnStands e cls v (s.setChain j i x) :=
  hs.modEng j (fun _ => ⟨rfl, rfl⟩)

/-- The preload that a chain slot's end drops is another engine's. -/
theorem TurnStands.dropChainPreload (hs : TurnStands e cls v s) (j i : Nat) : TurnStands e cls v (s.dropChainPreload j i) := by
  unfold State.dropChainPreload
  split
  · next p hp =>
    have hj : e ≠ j := by
      rintro rfl
      rw [hs.empty] at hp
      cases hp
    split
    · have h1 := hs.modEng_ne hj (fun x => { x with
        preload := none, shadow := Programs.reset, lastServed := if p.chainSlot.isSome then x.lastServed else sset 0 x.lastServed p.turn.1 p.turn.2 })
      exact h1.of_keeps (bump_keeps h1.keeps _ _ _)
    · exact hs
  · exact hs

theorem TurnStands.writeRecord (hs : TurnStands e cls v s) (j : Nat) (c : Cmd) (d : Done) (m : Bool) : TurnStands e cls v (s.writeRecord j c d m) := by
  obtain ⟨_, _, _, _, _, _, _, _⟩ := besideEngines_facts
  unfold State.writeRecord
  extract_lets f u q st s2 charge halt s3 s4 s5 s6 s7 s8 s9 s10
  have hu : Keeps False besideEngines s u := by
    simp only [u, f]
    split
    · exact hs.keeps
    · exact draw_keeps hs.keeps
  have h3 : TurnStands e cls v s3 := hs.of_keeps (setQueue_keeps (placeRecord_keeps hu _ _ _) _ _)
  have h4 : TurnStands e cls v s4 := h3.modEng j (fun _ => ⟨rfl, rfl⟩)
  have h5 : Keeps False besideEngines s4 s5 := bumpBy_keeps (bump_keeps h4.keeps _ _ _) _ _ _ _
  have h6 : Keeps False besideEngines s4 s6 := ite_keeps (fun _ => bump_keeps h5 _ _ _) (fun _ => h5)
  have h7 : Keeps False besideEngines s4 s7 := ite_keeps (fun _ => bump_keeps h6 _ _ _) (fun _ => h6)
  have h8 : Keeps False besideEngines s4 s8 := ite_keeps (fun _ => bump_keeps h7 _ _ _) (fun _ => h7)
  have h9 : Keeps False besideEngines s4 s9 := modMbx_keeps h8 _ (fun _ => ⟨rfl, rfl⟩)
  have h10 : Keeps False besideEngines s4 s10 := ite_keeps (fun _ => modProg_keeps h9 _ _) (fun _ => h9)
  exact h4.of_keeps (trace_keeps h10 _ _ _ _ _)

theorem TurnStands.postAt (m : Nat) : ∀ {s : State}, TurnStands e cls v s → ∀ (j : Nat) (c : Cmd) (d : Done), TurnStands e cls v (s.postAt m j c d) := by
  obtain ⟨_, _, _, _, _, _, _, _⟩ := besideEngines_facts
  induction m with
  | zero => exact fun hs j c d => hs.writeRecord j c d false
  | succ m ih =>
    intro s hs j c d
    unfold State.postAt
    extract_lets te k x armed ok s1
    split
    · split
      · exact (hs.of_keeps (bump_keeps hs.keeps _ _ _)).writeRecord _ _ _ _
      · split
        · have h1 := hs.setChain te k { x with st := .fired }
          exact (h1.of_keeps (event_keeps (trace_keeps (bump_keeps h1.keeps _ _ _) _ _ _ _ _) _)).writeRecord _ _ _ _
        · have h0 := (hs.setChain te k ChainSlot.reset).dropChainPreload te k
          have h1 : TurnStands e cls v s1 := h0.of_keeps (trace_keeps (bump_keeps h0.keeps _ _ _) _ _ _ _ _)
          split
          · exact (ih h1 _ _ _).writeRecord _ _ _ _
          · exact ih (h1.writeRecord _ _ _ _) _ _ _
    · exact hs.writeRecord _ _ _ _

theorem TurnStands.postRecord (hs : TurnStands e cls v s) (j : Nat) (c : Cmd) (d : Done) : TurnStands e cls v (s.postRecord j c d) :=
  TurnStands.postAt 168 hs j c d

theorem TurnStands.cancelChains (hs : TurnStands e cls v s) (q j : Nat) : TurnStands e cls v (s.cancelChains q j) := by
  obtain ⟨_, _, _, _, _, _, _, _⟩ := besideEngines_facts
  unfold State.cancelChains
  refine hs.each _ fun t k _ ht => ?_
  extract_lets x
  split
  · exact ht
  · have h1 := ((ht.of_keeps (unfire_keeps ht.keeps j k)).setChain j k ChainSlot.reset).dropChainPreload j k
    exact (h1.of_keeps (trace_keeps (bump_keeps h1.keeps _ _ _) _ _ _ _ _)).postRecord _ _ _

theorem TurnStands.endDestroys (hs : TurnStands e cls v s) : TurnStands e cls v s.endDestroys := by
  obtain ⟨_, _, _, _, _, _, _, _⟩ := besideEngines_facts
  unfold State.endDestroys
  refine hs.each _ fun t d _ ht => ?_
  split
  · exact ht
  · extract_lets u
    have hu : TurnStands e cls v u := ht.each _ fun w j _ hw => hw.cancelChains _ j
    split
    · exact hu.of_keeps (endDestroy_keeps hu.keeps _)
    · exact hu

theorem bounded_turn (x : Engine) : x.bounded.preload = x.preload ∧ x.bounded.lastServed = x.lastServed := by
  unfold Engine.bounded
  split <;> exact ⟨rfl, rfl⟩

theorem TurnStands.atBoundary (hs : TurnStands e cls v s) (j : Nat) : TurnStands e cls v (s.atBoundary j) := by
  have _ := anyPart_fact
  have hf : Flat (s.atBoundary j) := (atBoundary_keeps (P := False) (W := anyPart) (Keeps.rfl' hs.flat) j).flat
  obtain ⟨hown, hother⟩ := atBoundary_eng hs.flat j
  by_cases hj : e = j
  · subst hj
    obtain ⟨hp, hl⟩ := bounded_turn (s.eng e)
    exact hs.of_eng hf (by rw [hown, hp]) (by rw [hown, hl])
  · exact hs.of_eng hf (by rw [hother e hj]) (by rw [hother e hj])

/-- The end of a command of engine `e`, which holds no preload. -/
theorem TurnStands.finish (hs : TurnStands e cls v s) (c : Cmd) (d : Done) : TurnStands e cls v (s.finish e c d) := by
  unfold State.finish
  split
  · exact hs.atBoundary e
  · extract_lets s1 s2
    have h1 : TurnStands e cls v s1 := hs.postRecord e c d
    have h2 : TurnStands e cls v s2 := by
      simp only [s2, State.confirmPreload, State.discardPreload, h1.empty, ite_self]
      exact h1
    exact (h2.atBoundary e).endDestroys

/-! ## The command that a fetch leaves in its engine -/

/-- The head of queue `n` stands at `pos` and engine `e` at turn `v` of class `cls`. -/
structure FetchStands (n pos e cls v : Nat) (s : State) : Prop where
  queue : QueueStands n pos e s
  turn : TurnStands e cls v s

theorem FetchStands.flat (hs : FetchStands n pos e cls v s) : Flat s := hs.queue.flat

theorem FetchStands.modEng (hs : FetchStands n pos e cls v s) (j : Nat) {f : Engine → Engine}
    (hf : ∀ x, (f x).preload = x.preload ∧ (f x).lastServed = x.lastServed) : FetchStands n pos e cls v (s.modEng j f) :=
  ⟨hs.queue.modEng j fun x hx => (hf x).1.trans hx, hs.turn.modEng j hf⟩

theorem FetchStands.of_keeps (hs : FetchStands n pos e cls v s) (k : ∀ W : Part → Prop, Fact (W .rng) → Fact (W .halves) → Keeps False W s t)
    (hd : t.mbx.destroys = s.mbx.destroys) : FetchStands n pos e cls v t :=
  ⟨hs.queue.of_keeps (k besideQueues ⟨by decide, by decide⟩ ⟨by decide, by decide⟩) hd,
    hs.turn.of_keeps (k besideEngines ⟨Part.noConfusion⟩ ⟨Part.noConfusion⟩)⟩

/-- A command of entry `sq` of queue `n` that has not started. -/
structure Cmd.Fetched (n sq : Nat) (c : Cmd) : Prop where
  queue : c.queue = n
  seq : c.seq = sq
  startAt : c.startAt = none

/-- A fetch from queue `n` so far: engine `e` holds no command, or the entry's. -/
structure Taken (n sq pos e cls v : Nat) (s : State) : Prop extends FetchStands n pos e cls v s where
  cur : (s.eng e).cur = none ∨ ∃ c, (s.eng e).cur = some c ∧ c.Fetched n sq

theorem hold_taken (hs : FetchStands n pos e cls v s) (st : EngState) (hc : c.Fetched n sq) : Taken n sq pos e cls v (s.hold e st c) :=
  ⟨hs.modEng e (fun _ => ⟨rfl, rfl⟩), .inr ⟨c, congrArg Engine.cur (modEng_eng hs.flat e _), hc⟩⟩

theorem rouse_mbx (s : State) (e : Nat) : (s.rouse e).mbx = s.mbx := by
  unfold State.rouse
  refine each_induct (R := fun u : State => u.mbx = s.mbx) ?_ _ rfl
  exact fun u d hu => hu

theorem enter_taken (hs : FetchStands n pos e cls v s) (hc : c.Fetched n sq) : Taken n sq pos e cls v (s.enter e c) := by
  have hr : FetchStands n pos e cls v (s.rouse e) :=
    hs.of_keeps (fun W _ _ => rouse_keeps (Keeps.rfl' hs.flat) e) (congrArg Mbx.destroys (rouse_mbx s e))
  exact ⟨hr.modEng e (fun _ => ⟨rfl, rfl⟩), .inr ⟨{ c with prepAt := s.hclk }, congrArg Engine.cur (modEng_eng hr.flat e _), hc.queue, hc.seq, hc.startAt⟩⟩

theorem noteFail_destroys (s : State) (e : Nat) (f : Fail) : (s.noteFail e f).mbx.destroys = s.mbx.destroys := by
  refine congrArg Mbx.destroys ?_
  unfold State.noteFail State.noteAs
  split
  · split
    · exact xlatFault_mbx _ _ _ _ _
    · rfl
  · rfl

theorem failCmd_taken (hs : FetchStands n pos e cls v s) (c : Cmd) (f : Fail) : Taken n sq pos e cls v (s.failCmd e c f) := by
  unfold State.failCmd
  extract_lets s1
  have h0 : FetchStands n pos e cls v ((s.noteFail e f).modEng e (fun x => { x with shadow := Programs.reset })) :=
    (hs.of_keeps (fun _ _ _ => noteFail_keeps (Keeps.rfl' hs.flat) e f) (noteFail_destroys s e f)).modEng e (fun _ => ⟨rfl, rfl⟩)
  have h1 : FetchStands n pos e cls v s1 := ⟨h0.queue.finish c f.done, h0.turn.finish c f.done⟩
  have c1 : (s1.eng e).cur = none := finish_cur h0.flat e c f.done
  obtain ⟨_, _, _, _, _, _, _, _⟩ := besideEngines_facts
  split
  · exact ⟨⟨h1.queue.faultQueue c.queue, h1.turn.of_keeps (faultQueue_keeps h1.turn.keeps c.queue)⟩, .inl c1⟩
  · exact ⟨h1, .inl c1⟩

theorem accept_taken (hs : FetchStands n pos e cls v s) (hc : c.Fetched n sq) : Taken n sq pos e cls v (s.accept e c) := by
  obtain ⟨_, _, _, _, _, _, _, _⟩ := besideEngines_facts
  unfold State.accept
  split
  · extract_lets s1 s2
    have q1 : QueueStands n pos e s1 := (hs.queue.modMbx ⟨rfl, rfl⟩ (fun d hd => ⟨d, hd, rfl⟩)).trace _ _ _ _ _
    have t1 : TurnStands e cls v s1 := by
      refine hs.turn.of_keeps (traceStart_keeps ?_ e c)
      exact modMbx_keeps hs.turn.keeps _ (fun _ => ⟨rfl, rfl⟩)
    have h2 : FetchStands n pos e cls v s2 := by
      simp only [s2]
      split
      · exact ⟨q1, t1⟩
      · exact ⟨q1.modSlot _ _, t1.of_keeps (modSlot_keeps t1.keeps _ _)⟩
    exact ⟨⟨h2.queue.atBoundary e, h2.turn.atBoundary e⟩, .inl (atBoundary_cur h2.flat e)⟩
  · split
    · exact failCmd_taken hs c _
    · exact hold_taken hs .prep ⟨hc.queue, hc.seq, hc.startAt⟩

theorem Taken.of_keeps (hs : Taken n sq pos e cls v s) (k : ∀ W : Part → Prop, Fact (W .rng) → Fact (W .halves) → Keeps False W s t)
    (hd : t.mbx.destroys = s.mbx.destroys) : Taken n sq pos e cls v t := by
  refine ⟨hs.toFetchStands.of_keeps k hd, ?_⟩
  rw [eng_of_engines ((k besideEngines ⟨Part.noConfusion⟩ ⟨Part.noConfusion⟩).same .engines (fun hw => hw rfl))]
  exact hs.cur

theorem steps8to10_taken (hs : FetchStands n pos e cls v s) (hc : c.Fetched n sq) : Taken n sq pos e cls v (s.steps8to10 e c) := by
  unfold State.steps8to10
  extract_lets x pages
  split
  · exact failCmd_taken hs c _
  · split
    · refine accept_taken hs ?_
      split
      · exact ⟨hc.queue, hc.seq, hc.startAt⟩
      · exact hc
    · split
      · exact accept_taken hs hc
      · split
        · exact failCmd_taken hs c _
        · split
          · exact failCmd_taken hs c _
          · have hh : Taken n sq pos e cls v (s.hold e .prep { c with usesRng := true }) := hold_taken hs .prep ⟨hc.queue, hc.seq, hc.startAt⟩
            exact hh.of_keeps (fun W _ _ => modRngHub_keeps (Keeps.rfl' hh.flat) _ _) rfl

theorem askBlock_own (a : State × Cmd) (b : Nat) : (State.askBlock a b).2.seq = a.2.seq ∧ (State.askBlock a b).2.startAt = a.2.startAt := by
  unfold State.askBlock
  extract_lets x
  split
  · exact ⟨rfl, rfl⟩
  · split <;> exact ⟨rfl, rfl⟩

theorem ask_own (s : State) (c : Cmd) (blocks : List Nat) : (s.ask c [] blocks).2.seq = c.seq ∧ (s.ask c [] blocks).2.startAt = c.startAt := by
  suffices h : ∀ a : State × Cmd, (blocks.foldl State.askBlock a).2.seq = a.2.seq ∧ (blocks.foldl State.askBlock a).2.startAt = a.2.startAt from h (s, c)
  induction blocks with
  | nil => exact fun _ => ⟨rfl, rfl⟩
  | cons b bs ih => exact fun a => ⟨(ih _).1.trans (askBlock_own a b).1, (ih _).2.trans (askBlock_own a b).2⟩

theorem ask_fetched (s : State) (hc : c.Fetched n sq) (blocks : List Nat) : (s.ask c [] blocks).2.Fetched n sq :=
  ⟨(ask_frame s c blocks).2.trans hc.queue, (ask_own s c blocks).1.trans hc.seq, (ask_own s c blocks).2.trans hc.startAt⟩

theorem FetchStands.ask (hs : FetchStands n pos e cls v s) (c : Cmd) (blocks : List Nat) : FetchStands n pos e cls v (s.ask c [] blocks).1 :=
  hs.of_keeps (fun _ _ _ => ask_keeps (Keeps.rfl' hs.flat) c [] blocks) (congrArg Mbx.destroys (ask_frame s c blocks).1)

theorem FetchStands.loadShadow (hs : FetchStands n pos e cls v s) (c : Cmd) : FetchStands n pos e cls v (s.loadShadow e c) := by
  unfold State.loadShadow
  split
  · exact hs.modEng e (fun _ => ⟨rfl, rfl⟩)
  · exact hs

theorem Taken.awaitHost (hs : Taken n sq pos e cls v s) : Taken n sq pos e cls v (s.awaitHost e) :=
  hs.of_keeps (fun _ _ _ => awaitHost_keeps (Keeps.rfl' hs.flat) e) rfl

/-- Steps 2 to 10 of R348 for an entry of queue `n`. -/
theorem checkCmd_taken (hs : Taken n sq pos e cls v s) (hc : c.Fetched n sq) : Taken n sq pos e cls v (s.checkCmd e c) := by
  unfold State.checkCmd
  extract_lets a
  have ha : Taken n sq pos e cls v a.1 :=
    hs.of_keeps (fun _ _ _ => ask_keeps (Keeps.rfl' hs.flat) c [] _) (congrArg Mbx.destroys (ask_frame s c _).1)
  have hac : a.2.Fetched n sq := ask_fetched s hc _
  clear_value a
  split
  · split
    · exact ha.awaitHost
    · exact failCmd_taken ha.toFetchStands _ _
  · exact steps8to10_taken (ha.toFetchStands.loadShadow _) ⟨hac.queue, hac.seq, hac.startAt⟩

/-- The steps of R348 for an entry of queue `n`. -/
theorem fetchEntry_taken (hs : FetchStands n pos e cls v s) (hc : c.Fetched n sq) (i : Nat) : Taken n sq pos e cls v (s.fetchEntry e c i) := by
  unfold State.fetchEntry
  extract_lets a u d s1
  have hu : FetchStands n pos e cls v u := hs.ask c _
  have hd : d.Fetched n sq := ask_fetched s hc _
  clear_value u d
  split
  · have h1 : Taken n sq pos e cls v s1 := enter_taken hu hd
    split
    · exact h1.awaitHost
    · exact failCmd_taken h1.toFetchStands _ _
  · next bs _ =>
    extract_lets c1
    have hc1 : c1.Fetched n sq := ⟨hd.queue, hd.seq, hd.startAt⟩
    exact checkCmd_taken (enter_taken hu hc1) hc1

/-! ## The head passes -/

theorem QueueStands.setTail (hs : QueueStands n pos e s) (w : Nat) : QueueStands n pos e (s.setTail n w) := by
  unfold State.setTail
  extract_lets q ahead q1
  have hbad : QueueStands n pos e (s.setQueue n { q with badTail := true }) := hs.setQueue_head rfl
  split
  · exact hbad.event _
  · exact hs.setQueue_head rfl

theorem passHead_stands (h : Flat s) (hd : ∀ d ∈ s.mbx.destroys, d.queue ≠ n) (he : (s.eng e).preload = none) :
    QueueStands n ((s.queue n).head + 1) e (s.passHead n) := by
  have hmod : ∀ f : Queue → Queue, (f (s.queue n)).head = (s.queue n).head + 1 → QueueStands n ((s.queue n).head + 1) e (s.modQueue n f) := fun f hf =>
    ⟨modQueue_flat h n f, by rw [modQueue_queue_same h]; exact hf, hd, he⟩
  unfold State.passHead
  split
  · split
    · extract_lets s1 s2
      have h1 : QueueStands n ((s.queue n).head + 1) e s1 := hmod _ rfl
      have h2 : QueueStands n ((s.queue n).head + 1) e s2 := h1.of_keeps (fresh_keeps h1.keeps _) rfl
      clear_value s2
      exact h2.each _ (fun _ x _ hu => hu.setTail x.value)
    · exact hmod _ rfl
  · exact hmod _ rfl

/-- A slot is served: the head of its queue passes one entry, and its turn is the class's. -/
theorem serveSlot_stands (h : Flat s) (hk : (s.slot k).queue = some n) (hd : ∀ d ∈ s.mbx.destroys, d.queue ≠ n) (he : (s.eng e).preload = none) :
    FetchStands n ((s.queue n).head + 1) e (s.queue n).cls (k + 1) (s.serveSlot e k) := by
  obtain ⟨_, _, _, _, _, _, _, _⟩ := besideEngines_facts
  have hq := passHead_stands h hd he
  have hkeep : Keeps False besideEngines s (s.passHead n) := passHead_keeps (Keeps.rfl' h) n
  have heng : (s.passHead n).eng e = s.eng e := eng_of_engines (hkeep.same .engines (fun hw => hw rfl)) e
  unfold State.serveSlot
  rw [hk]
  have hown := modEng_eng hq.flat e (fun x => { x with lastServed := sset 0 x.lastServed (s.queue n).cls (k + 1) })
  refine ⟨hq.modEng e (fun _ hx => hx), modEng_flat hq.flat e _, ?_, ?_⟩
  · exact (congrArg Engine.preload hown).trans hq.empty
  · exact (congrArg (fun x : Engine => sget 0 x.lastServed (s.queue n).cls) hown).trans (sget_sset_of_ne (Nat.succ_ne_zero k) _ _)

theorem exec_engineFetch_slot (hf : s.fetches e = true) (hp : (s.eng e).preload = none) (hsrc : s.nextSource e = some (.slot k))
    (hk : (s.slot k).queue = some n) : exec (.engineFetch e) s =
      .next ((s.serveSlot e k).fetchEntry e (newCmd e [] n ((s.queue n).seqOf n) (some k)) (s.queue n).head) := by
  have hx : exec (.engineFetch e) s = execEngineFetch e s := rfl
  rw [hx, execEngineFetch]
  refine congrArg Host.Outcome.next ((if_neg (by rw [hf]; decide)).trans ?_)
  rw [hp, hsrc]
  dsimp only
  rw [hk]
  rfl

end Sys2Proof.Machine
end

section
/-!
PROOFS. Fetch, preload and start of commands; halves sleep and wake (R298, R299, R348, R355, R372).
-/
namespace Sys2Proof.Machine

variable {s t : State} {e n k : Nat} {c : Cmd}

/-! ## Preloads (R355, R360) -/

/-- The parts that stay while an engine asks for re-reads. -/
theorem ask_queues (h : Flat s) (c : Cmd) (bs : List Nat) : (s.ask c [] bs).1.queues = s.queues ∧ (s.ask c [] bs).1.engines = s.engines ∧ Flat (s.ask c [] bs).1 := by
  have hk : Keeps False (fun _ => False) s (s.ask c [] bs).1 := ask_keeps (Keeps.rfl' h) c [] bs
  exact ⟨hk.same .queues not_false, hk.same .engines not_false, hk.flat⟩

theorem setTail_flat (h : Flat s) (n v : Nat) : Flat (s.setTail n v) := by
  have _ := anyPart_fact
  exact (setTail_keeps (P := False) (W := anyPart) (Keeps.rfl' h) n v).flat

theorem passHead_head (h : Flat s) (n : Nat) : Flat (s.passHead n) ∧ ((s.passHead n).queue n).head = (s.queue n).head + 1 := by
  have hmod : ∀ f : Queue → Queue, (f (s.queue n)).head = (s.queue n).head + 1 → Flat (s.modQueue n f) ∧
      ((s.modQueue n f).queue n).head = (s.queue n).head + 1 := fun f hf => ⟨modQueue_flat h n f, by rw [modQueue_queue_same h]; exact hf⟩
  unfold State.passHead
  split
  · split
    · extract_lets s1 s2
      have h1 : Flat s1 ∧ (s1.queue n).head = (s.queue n).head + 1 := hmod _ rfl
      have h2 : Flat s2 ∧ (s2.queue n).head = (s.queue n).head + 1 := ⟨{ h1.1 with }, h1.2⟩
      clear_value s2
      exact each_induct (R := fun u => Flat u ∧ (u.queue n).head = (s.queue n).head + 1)
        (fun u x hu => ⟨setTail_flat hu.1 n x.value, (setTail_head hu.1 n x.value).trans hu.2⟩) _ h2
    · exact hmod _ rfl
  · exact hmod _ rfl

/-- A slot is served beside the command of its engine. -/
theorem serveSlot_facts (h : Flat s) (hk : (s.slot k).queue = some n) (e : Nat) : Flat (s.serveSlot e k) ∧
    ((s.serveSlot e k).queue n).head = (s.queue n).head + 1 ∧ ((s.serveSlot e k).eng e).cur = (s.eng e).cur := by
  obtain ⟨_, _, _, _, _, _, _, _⟩ := besideEngines_facts
  obtain ⟨hf, hh⟩ := passHead_head h n
  have hkeep : Keeps False besideEngines s (s.passHead n) := passHead_keeps (Keeps.rfl' h) n
  have heng : (s.passHead n).eng e = s.eng e := eng_of_engines (hkeep.same .engines (fun hw => hw rfl)) e
  unfold State.serveSlot
  rw [hk]
  have hown := modEng_eng hf e (fun x => { x with lastServed := sset 0 x.lastServed (s.queue n).cls (k + 1) })
  exact ⟨modEng_flat hf e _, hh, (congrArg Engine.cur hown).trans (by rw [← heng])⟩

/-- What steps 2 to 7 leave of a preload. -/
def State.preloadOf (s : State) (e : Nat) (c : Cmd) (turn : Nat × Nat) : Preload :=
  match s.steps2to7 e c with
  | .ok tack => ⟨s.withReads e c tack, none, none, false, turn⟩
  | .error f => ⟨c, some f, none, false, turn⟩

/-- The checks of a preload, and its record in the trace (R355, R549). -/
def State.putPreload (s0 : State) (e : Nat) (c0 : Cmd) (turn : Nat × Nat) : State :=
  let a := s0.ask c0 [] (s0.prepBad e c0.desc)
  let p := a.1.preloadOf e a.2 turn
  (((if p.fail.isNone then a.1.loadShadow e a.2 else a.1).modEng e (fun x => { x with preload := some p })).trace 1 4 (1 + b2n a.2.chained * 2) e
    (toBytes 2 a.2.queue ++ toBytes 8 a.2.seq ++ toBytes 1 (dOp a.2.desc)))

theorem preloadOf_fetched {sq : Nat} (s : State) (e : Nat) (hc : c.Fetched n sq) (turn : Nat × Nat) : (s.preloadOf e c turn).cmd.Fetched n sq := by
  unfold State.preloadOf
  split
  · exact ⟨hc.queue, hc.seq, hc.startAt⟩
  · exact hc

theorem loadShadow_facts (h : Flat s) (e : Nat) (c : Cmd) : Flat (s.loadShadow e c) ∧ (s.loadShadow e c).queues = s.queues ∧
    ((s.loadShadow e c).eng e).cur = (s.eng e).cur := by
  unfold State.loadShadow
  split
  · have hown := modEng_eng h e (fun x => { x with shadow := s.programsOf e c })
    exact ⟨modEng_flat h e _, rfl, (congrArg Engine.cur hown).trans rfl⟩
  · exact ⟨h, rfl, rfl⟩

/-- A preload is held beside the queues and the command that runs. -/
theorem putPreload_facts {sq : Nat} (h : Flat s) (e : Nat) (hc : c.Fetched n sq) (turn : Nat × Nat) :
    (∃ p, ((s.putPreload e c turn).eng e).preload = some p ∧ p.cmd.Fetched n sq) ∧ (s.putPreload e c turn).queues = s.queues ∧
    ((s.putPreload e c turn).eng e).cur = (s.eng e).cur := by
  unfold State.putPreload
  extract_lets a p
  obtain ⟨hq, he, hf⟩ := ask_queues h c (s.prepBad e c.desc)
  have hp : p.cmd.Fetched n sq := preloadOf_fetched a.1 e (ask_fetched s hc _) turn
  obtain ⟨lf, lq, lc⟩ := loadShadow_facts hf e a.2
  have hmid : ∀ b : State, b = (if p.fail.isNone then a.1.loadShadow e a.2 else a.1) → Flat b ∧ b.queues = s.queues ∧ (b.eng e).cur = (s.eng e).cur := by
    intro b hb
    rw [hb]
    split
    · exact ⟨lf, lq.trans hq, lc.trans (by rw [eng_of_engines he])⟩
    · exact ⟨hf, hq, by rw [eng_of_engines he]⟩
  obtain ⟨mf, mq, mc⟩ := hmid _ rfl
  have hown := modEng_eng mf e (fun x => { x with preload := some p })
  have ht : Keeps False (fun _ => False) ((if p.fail.isNone then a.1.loadShadow e a.2 else a.1).modEng e (fun x => { x with preload := some p })) _ :=
    trace_keeps (Keeps.rfl' (modEng_flat mf e _)) 1 4 (1 + b2n a.2.chained * 2) e (toBytes 2 a.2.queue ++ toBytes 8 a.2.seq ++ toBytes 1 (dOp a.2.desc))
  have hteng := eng_of_engines (ht.same .engines not_false) e
  refine ⟨⟨p, ?_, hp⟩, (ht.same .queues not_false).trans mq, ?_⟩
  · rw [hteng, hown]
  · rw [hteng, hown]
    exact mc

/-- What PRELOAD leaves of the entry at the head of the queue in slot `k`. -/
def State.preloadSlot (s : State) (e k n : Nat) : State :=
  let c := newCmd e [] n ((s.queue n).seqOf n) (some k)
  let s1 := s.serveSlot e k
  let turn := ((s.queue n).cls, sget 0 (s.eng e).lastServed (s.queue n).cls)
  match s.readEntry (s.queue n) (s.queue n).head with
  | .error f => s1.modEng e (fun x => { x with preload := some ⟨c, some f, none, true, turn⟩ })
  | .ok d => (s1.ask { c with desc := d } [] (s.entryBad (s.queue n) (s.queue n).head)).1.putPreload e
      (s1.ask { c with desc := d } [] (s.entryBad (s.queue n) (s.queue n).head)).2 turn

theorem exec_preload (hl : s.live = true) (hc : (s.eng e).cur = some c) (hp : (s.eng e).preload = none) (hs : c.startAt.isSome = true)
    (hst : (s.eng e).st = .run) (hn : dNoPreload c.desc = false) (hh : s.heldFor e = false) (hi : (s.eng e).heldItems = false)
    (hsrc : s.nextSource e = some (.slot k)) (hk : (s.slot k).queue = some n) : exec (.preload e) s = .next (s.preloadSlot e k n) := by
  have hx : exec (.preload e) s = execPreload e s := rfl
  have hgo : ¬((!s.live) = true ∨ (s.eng e).preload.isSome = true ∨ c.startAt.isNone = true ∨ ((s.eng e).st ≠ .run ∧ (s.eng e).st ≠ .drain) ∨
      dNoPreload c.desc = true ∨ s.heldFor e = true ∨ (s.eng e).heldItems = true) := by
    have hno : c.startAt.isNone = false := by
      cases hcs : c.startAt with
      | none =>
        rw [hcs] at hs
        cases hs
      | some _ => rfl
    simp [hl, hp, hn, hh, hi, hno, hst]
  rw [hx, execPreload]
  dsimp only
  rw [hc]
  refine congrArg Host.Outcome.next ((if_neg hgo).trans ?_)
  rw [hsrc]
  dsimp only
  rw [hk]
  rfl

theorem preloadSlot_facts (h : Flat s) (hk : (s.slot k).queue = some n) (e : Nat) :
    (∃ p, ((s.preloadSlot e k n).eng e).preload = some p ∧ p.cmd.Fetched n ((s.queue n).seqOf n)) ∧
    ((s.preloadSlot e k n).queue n).head = (s.queue n).head + 1 ∧ ((s.preloadSlot e k n).eng e).cur = (s.eng e).cur := by
  obtain ⟨hf, hh, hcur⟩ := serveSlot_facts h hk e
  unfold State.preloadSlot
  extract_lets c s1 turn
  have hc : c.Fetched n ((s.queue n).seqOf n) := ⟨rfl, rfl, rfl⟩
  split
  · next f _ =>
    have hown := modEng_eng hf e (fun x => { x with preload := some ⟨c, some f, none, true, turn⟩ })
    exact ⟨⟨_, congrArg Engine.preload hown, hc⟩, hh, (congrArg Engine.cur hown).trans hcur⟩
  · next d _ =>
    obtain ⟨aq, ae, af⟩ := ask_queues hf { c with desc := d } (s.entryBad (s.queue n) (s.queue n).head)
    have had : ({ c with desc := d } : Cmd).Fetched n ((s.queue n).seqOf n) := ⟨rfl, rfl, rfl⟩
    obtain ⟨hp, hq, hcc⟩ := putPreload_facts af e (ask_fetched s1 had (s.entryBad (s.queue n) (s.queue n).head)) turn
    exact ⟨hp, by rw [queue_of_queues (hq.trans aq)]; exact hh, hcc.trans (by rw [eng_of_engines ae]; exact hcur)⟩

/-! ## The start of a command (R349, R372) -/

theorem start_facts (h : Flat s) (e : Nat) (c : Cmd) : ((s.start e c).eng e).cur =
      some { c with startAt := some s.hclk, yclk0 := (s.halvesOf e).map (fun d => (s.rclk d).yclk) } ∧
    ((s.start e c).eng e).st = if c.draining then .drain else .run := by
  have _ := anyPart_fact
  unfold State.start
  extract_lets c1 s1
  have h1 : Flat s1 := by
    have hk : Keeps False anyPart s s := Keeps.rfl' h
    simp only [s1]
    split
    · exact (setModes_keeps (placeTack_keeps (swapPrograms_keeps hk e) e c) e c).flat
    · exact (showRoute_keeps hk c).flat
  clear_value s1
  have hown : (s1.hold e (if c.draining then .drain else .run) c1).eng e =
      { s1.eng e with st := if c.draining then .drain else .run, cur := some c1 } :=
    modEng_eng h1 e (fun x => { x with st := if c.draining then .drain else .run, cur := some c1 })
  have ht : Keeps False (fun _ => False) (s1.hold e (if c.draining then .drain else .run) c1)
      ((s1.hold e (if c.draining then .drain else .run) c1).traceStart e c) := traceStart_keeps (Keeps.rfl' (modEng_flat h1 e _)) e c
  rw [eng_of_engines (ht.same .engines not_false) e]
  exact ⟨congrArg Engine.cur hown, congrArg Engine.st hown⟩

/-- A command that is ready has its start marker. -/
theorem exec_startMarker (hl : s.live = true) (hc : (s.eng e).cur = some c) (hst : (s.eng e).st = .prep) (hr : c.ready = true) (hop : dOp c.desc < 0x10)
    (hrun : takesSched (kindOf e) (dOp c.desc) = true → s.halvesRun e = true ∧ s.claimWaits e c = false) (early : List Nat) (jobs : List TileJob) :
    exec (.startMarker e early jobs) s = .next (
      if 8 ≤ e ∨ dOp c.desc ≠ opTensor then s.start e { c with early := early.filter (fun i => (c.named e).contains i) }
      else if !s.jobsOk e c jobs then s
      else
        match s.tensorCheck (s.tensorCtx e c) jobs with
        | some f => s.failCmd e c f
        | none => s.start e { c with early := early.filter (fun i => (c.named e).contains i), jobs := jobs }) := by
  have hx : exec (.startMarker e early jobs) s = execStartMarker e early jobs s := rfl
  have hgo : ¬((!s.live) = true ∨ (s.eng e).st ≠ .prep ∨ (!c.ready) = true ∨ 0x10 ≤ dOp c.desc ∨
      (takesSched (kindOf e) (dOp c.desc) = true ∧ ((!s.halvesRun e) = true ∨ s.claimWaits e c = true))) := by
    rintro (h | h | h | h | ⟨ht, h | h⟩)
    · rw [hl] at h
      cases h
    · exact h hst
    · rw [hr] at h
      cases h
    · omega
    · rw [(hrun ht).1] at h
      cases h
    · rw [(hrun ht).2] at h
      cases h
  rw [hx, execStartMarker, hc]
  exact congrArg Host.Outcome.next (if_neg hgo)

theorem failCmd_cur (h : Flat s) (e : Nat) (c : Cmd) (f : Fail) : ((s.failCmd e c f).eng e).cur = none := by
  have _ := anyPart_fact
  unfold State.failCmd
  extract_lets s1
  have h0 : Flat ((s.noteFail e f).modEng e (fun x => { x with shadow := Programs.reset })) :=
    modEng_flat (noteFail_keeps (P := False) (W := anyPart) (Keeps.rfl' h) e f).flat e _
  have c1 : (s1.eng e).cur = none := finish_cur h0 e c f.done
  split
  · exact c1
  · exact c1

/-! ## Sleep and wake (R297 to R299) -/

theorem exec_idleEntry {d x : Nat} (he : s.engineOf d = some x) (hl : s.live = true) (hp : (s.half d).pstate = .run) (hc : s.hasCommand x = false)
    (hd : s.idleDue d = true) : exec (.idleEntry d) s = .next (s.modHalf d (fun h => { h with pstate := .idle })) := by
  have hx : exec (.idleEntry d) s = execIdleEntry d s := rfl
  rw [hx, execIdleEntry, he]
  exact congrArg Host.Outcome.next (if_pos ⟨hl, hp, by rw [hc]; rfl, hd⟩)

theorem exec_wake {d : Nat} (hl : s.live = true) (hs : s.sqDown d = true) (he : (s.engineOf d).isSome = true) (hf : (s.half d).farrier = false) :
    exec (.wake d) s = .next (s.wakeHalf d) := congrArg Host.Outcome.next (if_pos ⟨hl, hs, he, by rw [hf]; rfl⟩)

theorem wakeClock_yards (s : State) (d : Nat) : (s.wakeClock d).2.yards = s.yards := by
  unfold State.wakeClock
  split <;> rfl

theorem wakeHalf_spad (s : State) (d : Nat) : (s.wakeHalf d).yards.spad = (s.wakeBegins d).yards.spad := by
  rw [wakeHalf_eq]
  have hy := congrArg Yards.spad (wakeClock_yards (s.wakeBegins d) d)
  exact hy

/-- A half that was OFF wakes with every word of its banks zero. -/
theorem wakeBegins_zero (d : Nat) (hp : (s.half d).pstate = .off) : HalfZero d (s.wakeBegins d) := by
  intro k hk
  have heq : (s.wakeBegins d).yards.spad = (s.zeroHalf d).yards.spad := by
    unfold State.wakeBegins
    rw [if_pos hp]
    rfl
  rw [heq, zeroHalf_spad]
  exact sget_swipe_zero (sget_swipe_inside _ _ hk)

/-- Settles O52: a fetch is followed through steps 1 to 10 by what its engine and queue hold (`Taken`), a preload through steps 1 to 7; a start is a hold
of the command, and a sleep or a wake the change of its half. -/
theorem fetchingAndStarting : Obligations.FetchingAndStarting := by
  unfold Obligations.FetchingAndStarting
  intro s e hinv
  have h : Flat s := (flat_iff s).2 hinv
  refine ⟨fun k n hf hp hsrc hk hcur hd => ?_, fun c k n hl hc hp hs hst hn hh hi hsrc hk => ?_, fun c early jobs hl hc hst hr hop hrun => ?_,
    fun d x he hl hp hc hd => ?_, fun d hl hs he hf => ?_⟩
  · have ht := fetchEntry_taken (c := newCmd e [] n ((s.queue n).seqOf n) (some k)) (serveSlot_stands h hk hd hp) ⟨rfl, rfl, rfl⟩ (s.queue n).head
    refine ⟨_, exec_engineFetch_slot hf hp hsrc hk, ht.queue.head, ht.turn.turn, ?_⟩
    rcases ht.cur with hnone | ⟨c, hc, hfetched⟩
    · exact .inl hnone
    · exact .inr ⟨c, hc, hfetched.queue, hfetched.seq, hfetched.startAt⟩
  · obtain ⟨⟨p, hpre, hfetched⟩, hhead, hcc⟩ := preloadSlot_facts h hk e
    exact ⟨_, p, exec_preload hl hc hp hs hst hn hh hi hsrc hk, hpre, hfetched.queue, hfetched.seq, hfetched.startAt, hhead, hcc.trans hc⟩
  · have hx := exec_startMarker hl hc hst hr hop hrun early jobs
    refine ⟨fun hno => ?_, fun he ht hj hk => ?_, fun f he ht hj hk => ?_⟩
    · rw [if_pos hno] at hx
      exact ⟨_, hx, start_facts h e _⟩
    · rw [if_neg (by omega), if_neg (by rw [hj]; decide), hk] at hx
      exact ⟨_, hx, start_facts h e _⟩
    · rw [if_neg (by omega), if_neg (by rw [hj]; decide), hk] at hx
      exact ⟨_, hx, failCmd_cur h e c f⟩
  · exact ⟨_, exec_idleEntry he hl hp hc hd, by rw [modHalf_half h], rfl⟩
  · have hw := modHalf_half (wakeClock_flat (wakeBegins_flat h d) d) d (fun h =>
      { h.ranAt ((s.wakeBegins d).wakeClock d).1 with pstate := .run, waking := false, curMhz := ((s.wakeBegins d).wakeClock d).1 })
    rw [← wakeHalf_eq] at hw
    refine ⟨_, exec_wake hl hs he hf, by rw [hw], by rw [hw], fun hr => ?_, fun ho p r o hp hr hlt => ?_⟩
    · rw [wakeHalf_spad]
      unfold State.wakeBegins
      rw [if_neg (by rw [hr]; decide)]
    · rw [wakeHalf_spad]
      exact wakeBegins_zero d ho _ (halfKey_core hp hr hlt)

end Sys2Proof.Machine
end

section
/-!
PROOFS. MOVE with COPY (R365).
-/
namespace Sys2Proof.Machine

/-- A COPY of one byte from host address 0 to scratchpad byte 0 of core 0, but for its destination space, which is 3. -/
def copyNowhere : Cmd :=
  { newCmd 8 ([8] ++ zeros 31 ++ [0, 1, 3, 0, 1, 0, 0, 0] ++ zeros 16) 0 0 none with startAt := some 0, ready := true }

/-- Engine 8 runs it in READY, and host byte 0 is 1. -/
def copiesNowhere : State :=
  { State.reset with
    pwr := { Power.reset with mod := .ready },
    engines := [(8, { Engine.reset with st := .run, cur := some copyNowhere })],
    ports := { Ports.reset with linkUp := true, hostMem := [(0, 1)] } }

theorem exec_moveCopy_of_running {s : State} {e : Nat} {c : Cmd} (he : 8 ≤ e) (hr : s.running e opMove = some c)
    (h1 : s.copyAwake (copySrcSpace c.desc) (copySrc c.desc) = true) (h2 : s.copyAwake (copyDstSpace c.desc) (copyDst c.desc) = true)
    (h3 : s.copyReadable c.desc = true) (h4 : s.copyFault c.desc = none)
    (h5 : s.takeChecks e c (s.copyMet c.desc 0 (copyLen c.desc)).1 (s.copyMet c.desc 0 (copyLen c.desc)).2 = none) :
    exec (.moveCopy e) s = .next (((s.copyPart e c (copyLen c.desc)).endWait e).complete e c
      { status := endStatus false ((s.copyData c.desc 0 (copyLen c.desc)).voids.any id) c.replayed }) := by
  have hx : exec (.moveCopy e) s = execMoveCopy e s := rfl
  rw [hx, execMoveCopy, starting_of_running hr]
  refine congrArg Host.Outcome.next ((if_neg (by omega)).trans ?_)
  dsimp only
  rw [h1, h2, h3, h4, h5]
  rfl

theorem copyPart_endWait_flat {s : State} (h : Flat s) (e : Nat) (c : Cmd) (n : Nat) : Flat ((s.copyPart e c n).endWait e) := by
  have _ := anyPart_fact
  exact (endWait_keeps (P := False) (W := anyPart) (copyPart_keeps (Keeps.rfl' h) e c n) e).flat

/-- Refutes O15: the data of a COPY whose destination space is 3 goes into a scratchpad. -/
theorem not_copyCompletes : ¬ Obligations.CopyCompletes := by
  unfold Obligations.CopyCompletes
  rintro ⟨h, -⟩
  have hr : copiesNowhere.running 8 opMove = some copyNowhere := by decide
  have hawake (a : Nat) : copiesNowhere.copyAwake (copySrcSpace copyNowhere.desc) a = true ∧ copiesNowhere.copyAwake (copyDstSpace copyNowhere.desc) a = true :=
    ⟨rfl, rfl⟩
  have hread : copiesNowhere.copyReadable copyNowhere.desc = true := by decide
  have hfault : copiesNowhere.copyFault copyNowhere.desc = none := by decide
  have hchecks : copiesNowhere.takeChecks 8 copyNowhere (copiesNowhere.copyMet copyNowhere.desc 0 (copyLen copyNowhere.desc)).1
      (copiesNowhere.copyMet copyNowhere.desc 0 (copyLen copyNowhere.desc)).2 = none := takeChecks_none.2 (by decide)
  have hinv : copiesNowhere.Inv := by unfold State.Inv; decide
  obtain ⟨u, hu, -, -, -, -, hspad⟩ := h copiesNowhere copiesNowhere 8 copyNowhere hinv (by omega) (starting_of_running hr)
    (hawake _).1 (hawake _).2 hread hfault hchecks
  have hflat : Flat ((copiesNowhere.copyPart 8 copyNowhere (copyLen copyNowhere.desc)).endWait 8) := copyPart_endWait_flat ((flat_iff _).2 hinv) _ _ _
  rw [exec_moveCopy_of_running (by omega) hr (hawake _).1 (hawake _).2 hread hfault hchecks] at hu
  rw [← Host.Outcome.next.inj hu, complete_same hflat 8 copyNowhere _ .spad rfl] at hspad
  exact absurd (hspad (by decide)) (by decide)

end Sys2Proof.Machine
end

section
/-!
SUPPORT and PROOFS. REDUCE of a compute engine (R366).
-/
namespace Sys2Proof.Machine

variable {s t u : State} {e : Nat} {c : Cmd} {tr : Tree}

/-- The state in which the root core of a REDUCE has written the tree's result, where it writes one. -/
def State.reduced (s : State) (tr : Tree) (sum : List Flit × List (TreeNode × NodeCount)) (dst : Nat) (void halted : Bool) : State :=
  match tr.rootCore with
  | some i => if void ∨ halted then s.countNodes sum.2
    else (s.countNodes sum.2).each (indexed sum.1) (fun s f => s.spadStore (coreNum (s.coreAt i)) (dst + 16 * f.1) f.2.data)
  | none => s.countNodes sum.2

theorem reduced_keeps_own (h : Flat s) (tr : Tree) (sum : List Flit × List (TreeNode × NodeCount)) (dst : Nat) (void halted : Bool) :
    Keeps False (fun p => p = .spad) s (s.reduced tr sum dst void halted) := by
  have : Fact ((fun p => p = Part.spad) .spad) := ⟨rfl⟩
  have hc : Keeps False (fun p => p = .spad) s (s.countNodes sum.2) := countNodes_keeps (Keeps.rfl' h) sum.2
  unfold State.reduced
  split
  · exact ite_keeps (fun _ => hc) (fun _ => each_keeps _ _ (fun u x hu => spadStore_keeps hu _ _ _) hc)
  · exact hc

/-- A void result writes no scratchpad. -/
theorem reduced_void_spad (h : Flat s) (tr : Tree) (sum : List Flit × List (TreeNode × NodeCount)) (dst : Nat) (halted : Bool) :
    (s.reduced tr sum dst true halted).yards.spad = s.yards.spad := by
  have hc : Keeps False (fun _ => False) s (s.countNodes sum.2) := countNodes_keeps (Keeps.rfl' h) sum.2
  have he : s.reduced tr sum dst true halted = s.countNodes sum.2 := by
    unfold State.reduced
    split
    · exact if_pos (.inl rfl)
    · rfl
  rw [he]
  exact hc.same .spad not_false

/-- A REDUCE whose words are known to be stored ends in the state that its result leaves. -/
theorem reduceRun_eq (remote : List (Nat × Bytes)) {void : Bool} {sum : List Flit × List (TreeNode × NodeCount)}
    (hsum : sum = tr.reduce (s.frameNodeOp e tr (fld c.desc 0x2C 4)) (s.reduceLeaf (fld c.desc 0x24 4) (fld c.desc 0x2C 4) remote c.early) 65 0)
    (hvoid : void = (sum.1.isEmpty || sum.1.any Flit.gap))
    (ht : s.takeChecks e c (s.reduceWords tr (fld c.desc 0x24 4) (fld c.desc 0x28 4) (fld c.desc 0x2C 4) void c.early) [] = none) :
    ∃ d, s.reduceRun e c tr remote = (s.reduced tr sum (fld c.desc 0x28 4) void (tr.rootCore.any (fun i => !s.reduceLive c.early i))).complete e c d := by
  subst hvoid hsum
  unfold State.reduceRun
  dsimp only
  rw [ht]
  dsimp only
  split
  · exact ⟨_, rfl⟩
  · exact ⟨_, rfl⟩

theorem exec_reduceCompute {n : Nat} (he : e < 8) (hr : s.running e opReduce = some c) (ht : treeOf s.img.net.trees (fld c.desc 0x20 4) = some (tr, n))
    (remote : List (Nat × Bytes)) : exec (.reduceCompute e remote) s = .next (s.reduceRun e c tr remote) := by
  have hx : exec (.reduceCompute e remote) s = execReduceCompute e remote s := rfl
  rw [hx, execReduceCompute, hr]
  refine congrArg Host.Outcome.next ((if_neg (by omega)).trans ?_)
  dsimp only
  rw [ht]

/-- Settles O14: the command ends in the state that its result leaves (`State.reduced`), which a void result leaves as it was. -/
theorem reduceComputeCompletes : Obligations.ReduceComputeCompletes := by
  unfold Obligations.ReduceComputeCompletes
  intro s e c remote tr n sum hinv he hr htree hsum hchecks
  have h : Flat s := (flat_iff s).2 hinv
  subst hsum
  obtain ⟨d, hd⟩ := reduceRun_eq remote rfl rfl hchecks
  have hk := reduced_keeps_own h tr
    (tr.reduce (s.frameNodeOp e tr (fld c.desc 0x2C 4)) (s.reduceLeaf (fld c.desc 0x24 4) (fld c.desc 0x2C 4) remote c.early) 65 0) (fld c.desc 0x28 4)
  refine ⟨_, (exec_reduceCompute he hr htree remote).trans (congrArg _ hd), complete_cur (hk _ _).flat e c d,
    (complete_same (hk _ _).flat e c d .cores rfl).trans ((hk _ _).same .cores (by decide)),
    (complete_fences (hk _ _).flat e c d).1.trans ((hk _ _).same .fences (by decide)).1, fun hvoid => ?_⟩
  rw [complete_same (hk _ _).flat e c d .spad rfl, hvoid]
  exact reduced_void_spad h tr _ _ _

end Sys2Proof.Machine
end

section
/-!
SUPPORT. Commands that run with no word of wrong parity in device memory: the ends of runs, the faults they meet, and what leaves the parity of
device memory good (R94, R185, R197, R327, R330).
-/
namespace Sys2Proof.Machine

variable {s t u : State} {e : Nat} {c : Cmd}

/-! ## Ends of runs -/

theorem xlatFault_flat (h : Flat s) (va : Nat) (write : Bool) (a : Agent) (cause : Nat) : Flat (s.xlatFault va write a cause) := by
  have _ := anyPart_fact
  exact (xlatFault_keeps (P := False) (W := anyPart) (Keeps.rfl' h) va write a cause).flat

theorem xlatEnd_cur (h : Flat s) (e : Nat) (c : Cmd) (va : Nat) (write : Bool) (cause : Nat) : ((s.xlatEnd e c va write cause).eng e).cur = none :=
  complete_cur (xlatFault_flat h va write (agentOf e) cause) e c _

theorem completeRun_cur (h : Flat s) (e : Nat) (c : Cmd) (flagged whole : Bool) : ((s.completeRun e c flagged whole).eng e).cur = none :=
  complete_cur h e _ _

/-! ## Device memory without words of wrong parity -/

/-- Device memory holds no word of wrong parity. -/
def State.memGood (s : State) : Prop := s.mem.bad = []

theorem State.memGood.of_mem (h : s.memGood) (hm : t.mem = s.mem) : t.memGood := by
  rw [State.memGood, hm]
  exact h

theorem State.memGood.stays (h : s.memGood) (hf : FaultStays s t) : t.memGood := hf.memBad.trans h

theorem devBad_of_memGood (h : s.memGood) (va n : Nat) : s.devBad va n = [] := by
  have hb : ∀ b, s.badBlock b = false := fun b => by
    rw [State.badBlock, h]
    rfl
  unfold State.devBad
  simp only [hb, Bool.false_eq_true, if_false]
  exact List.filterMap_eq_nil_iff.2 fun _ _ => rfl

theorem physWrite_memGood (h : s.memGood) (pa : Nat) (bs : Bytes) : (s.physWrite pa bs).memGood := by
  have hb : s.mem.bad = [] := h
  show (if bs.isEmpty then s.mem.bad else s.mem.bad.filter _) = []
  rw [hb]
  split <;> rfl

theorem devWritePiece_memGood (h : s.memGood) (va : Nat) (bs : Bytes) : (s.devWritePiece va bs).memGood := by
  unfold State.devWritePiece
  extract_lets page k off sh fresh pa part s1
  have hpart : part = false := by
    have hb : s.badBlock (pa / 1024) = false := by
      rw [State.badBlock, h]
      rfl
    simp only [part, hb, Bool.and_false]
  have h1 : s1.memGood := by
    simp only [s1, hpart]
    exact physWrite_memGood h pa bs
  clear_value s1
  split
  · exact h1
  · exact h1

theorem devWrite_memGood (h : s.memGood) (va : Nat) (bs : Bytes) : (s.devWrite va bs).memGood :=
  each_induct (R := State.memGood) (fun _ p ht => devWritePiece_memGood ht p.1 _) _ h

theorem writeUpTo_memGood (h : s.memGood) (va : Nat) (bs : Bytes) : (s.writeUpTo va bs).1.memGood := by
  unfold State.writeUpTo
  split <;> exact devWrite_memGood h _ _

theorem writeRuns_memGood (h : s.memGood) (xs : List (Nat × Bytes)) : (s.writeRuns xs).1.memGood := by
  induction xs generalizing s with
  | nil => exact h
  | cons x xs ih =>
    have hx := writeUpTo_memGood h x.1 x.2
    unfold State.writeRuns
    dsimp only
    split
    · exact hx
    · exact ih hx

/-! ## Runs -/

theorem spadWrite_mem (s : State) (k off : Nat) (bs : Bytes) : (s.spadWrite k off bs).mem = s.mem := by
  unfold State.spadWrite
  dsimp only
  split <;> rfl

theorem face_memGood {a : AnnealFaced} (h : a.st.memGood) (f : AnnealFault) : (a.face f).st.memGood := by
  have ht := h.stays (countFault_stays a.st (.core (a.st.coreAt f.core)))
  unfold AnnealFaced.face
  dsimp only
  split <;> exact ht

theorem annealFaced_memGood (h : s.memGood) (r : Rect) (fs : List AnnealFault) : (s.annealFaced r fs).st.memGood :=
  List.foldlRecOn (motive := fun a : AnnealFaced => a.st.memGood) _ _ h fun _ ha f _ => face_memGood ha f

theorem counted_memGood {a : AnnealFaced} (h : a.st.memGood) (e : Nat) : (a.counted e).memGood :=
  each_induct (R := State.memGood) (fun u _ hu => hu.stays (replay_stays u e)) _ h

theorem putPad_mem (s : State) (a : Pad) (n : Nat) : (s.putPad a n).mem = s.mem := by
  unfold State.putPad
  extract_lets s1
  have h1 : s1.mem = s.mem := by
    refine each_induct (R := fun u : State => u.mem = s.mem) (fun u x hu => ?_) _ rfl
    exact hu
  exact h1

theorem writeCtx_mem (s : State) (off p : Nat) (a : Pad) (st entry n0 phase : Nat) : (s.writeCtx off p a st entry n0 phase).mem = s.mem := by
  unfold State.writeCtx
  refine each_induct (R := fun u : State => u.mem = s.mem) (fun u c hu => ?_) _ rfl
  split
  · exact (spadWrite_mem _ _ _ _).trans hu
  · split
    · exact (spadWrite_mem _ _ _ _).trans hu
    · exact hu

theorem countPad_mem (s : State) (a : Pad) (ls : Bool) : (s.countPad a ls).mem = s.mem :=
  each_induct (R := fun u : State => u.mem = s.mem) (fun u _ hu => (bumpBy_mem u _ _ _ _).trans hu) _ rfl

/-! ## What a run may change -/

/-- The parts that a run of an annealing command may change. -/
def runWrites (p : Part) : Prop := p ≠ .fences

theorem runWrites_facts : Fact (runWrites .img) ∧ Fact (runWrites .hub) ∧ Fact (runWrites .flash) ∧ Fact (runWrites .halves) ∧ Fact (runWrites .cores) ∧
    Fact (runWrites .spad) ∧ Fact (runWrites .data) ∧ Fact (runWrites .engines) ∧ Fact (runWrites .queues) ∧ Fact (runWrites .slots) ∧
    Fact (runWrites .route) ∧ Fact (runWrites .per) ∧ Fact (runWrites .links) ∧ Fact (runWrites .rel) ∧ Fact (runWrites .host) := by
  refine ⟨⟨?_⟩, ⟨?_⟩, ⟨?_⟩, ⟨?_⟩, ⟨?_⟩, ⟨?_⟩, ⟨?_⟩, ⟨?_⟩, ⟨?_⟩, ⟨?_⟩, ⟨?_⟩, ⟨?_⟩, ⟨?_⟩, ⟨?_⟩, ⟨?_⟩⟩ <;> exact Part.noConfusion

end Sys2Proof.Machine
end

section
/-!
SUPPORT and PROOFS. ROTATE and its visits (R197 to R202).
-/
namespace Sys2Proof.Machine

variable {s t u : State} {e : Nat} {c : Cmd} {x : RotCtx} {r : RotateRun} {fs : List AnnealFault}

/-! ## A visit -/

theorem loadWindow_mem (s : State) (e : Nat) (x : RotCtx) (c : Cmd) (g wx wy : Nat) : (s.loadWindow e x c g wx wy).2.2.mem = s.mem := by
  unfold State.loadWindow
  extract_lets r s1 p fl s2
  have h1 : s1.mem = s.mem := by
    refine each_induct (R := fun u : State => u.mem = s.mem) (fun u y hu => ?_) _ rfl
    exact hu
  show s2.mem = s.mem
  clear_value s1
  refine each_induct (R := fun u : State => u.mem = s.mem) (fun u y hu => ?_) _ h1
  rw [bumpBy_mem]
  exact hu

theorem setWindow_mem {g wx wy first n : Nat} {w : RotWindow × Bool} (hw : s.setWindow e x c g wx wy first n = .ok w) : w.1.st.mem = s.mem := by
  have hl := loadWindow_mem s e x c g wx wy
  unfold State.setWindow at hw
  split at hw
  · cases hw
  · dsimp only at hw
    split at hw
    · cases hw
    · cases hw
      exact hl

/-- No check of a window makes a command wait. -/
theorem setWindow_stop {g wx wy first n : Nat} {f : VisitStop × State} (hw : s.setWindow e x c g wx wy first n = .error f) : f.1 ≠ .waits := by
  unfold State.setWindow at hw
  split at hw
  · cases hw
    exact VisitStop.noConfusion
  · dsimp only at hw
    split at hw
    · cases hw
      exact VisitStop.noConfusion
    · cases hw

theorem runWindow_memGood {w : RotWindow} (hw : w.st.memGood) (s : State) (e : Nat) (x : RotCtx) (g : Nat) (kill : Option Progress) :
    (s.runWindow e x g w kill fs).2.memGood := by
  unfold State.runWindow
  extract_lets a ls lim d run k n0 s1
  have hd : (d.counted e).memGood := counted_memGood (annealFaced_memGood hw _ _) e
  exact hd.of_mem ((bumpBy_mem _ _ _ _ _).trans ((countPad_mem _ _ _).trans ((writeCtx_mem _ _ _ _ _ _ _ _).trans (putPad_mem _ _ _))))

/-- The state that a visit leaves: its window's run `d` with its write-backs, and the run record after it. -/
def State.visited (s : State) (e : Nat) (x : RotCtx) (r : RotateRun) (w : RotWindow) (d : ARun × State) (bs : List (Nat × Bytes)) (flagged : Bool) : State :=
  ((d.2.writeRuns bs).1.modEng e (fun y => { y with rot := some (r.after x (s.engAligned e) flagged w d.1) })).newPhases ((acRect x.acb).idx s)

/-- A visit that ends with its write-back has set its window and run it. -/
theorem visit_ok (hv : s.visit e x c r none fs = .ok t) : ∃ wx wy first n w, s.setWindow e x c r.next wx wy first n = .ok w ∧ ∃ bs flagged,
    t = s.visited e x r w.1 (s.runWindow e x r.next w.1 none fs) bs flagged := by
  unfold State.visit at hv
  extract_lets g ent wx wy reads at hv
  split at hv
  · cases hv
  · split at hv
    · cases hv
    · split at hv
      · cases hv
      · next w hw =>
        extract_lets d cores b at hv
        split at hv
        · next hk => cases hk
        · split at hv
          · cases hv
          · cases hv
            exact ⟨wx, wy, _, _, w, hw, _, _, rfl⟩

/-- A visit that finds no word of wrong parity waits for no re-read. -/
theorem visit_stop (h : s.memGood) (ha : c.asks = false) {f : VisitStop × State} (hv : s.visit e x c r none fs = .error f) : f.1 ≠ .waits := by
  unfold State.visit at hv
  extract_lets g ent wx wy reads at hv
  have hchecks : s.takeChecks e c [] (reads.flatMap (fun y => s.devBad y.1 y.2)) = none := by
    simp only [devBad_of_memGood h]
    refine takeChecks_none.2 ?_
    simp [ha]
  split at hv
  · cases hv
    exact VisitStop.noConfusion
  · rw [if_neg (by decide), hchecks] at hv
    dsimp only at hv
    split at hv
    · next f' hf =>
      cases hv
      exact setWindow_stop hf
    · split at hv
      · cases hv
      · split at hv
        · cases hv
          exact VisitStop.noConfusion
        · cases hv

theorem visit_memGood (h : s.memGood) (hv : s.visit e x c r none fs = .ok t) : t.memGood := by
  obtain ⟨_, _, _, _, w, hw, bs, _, ht⟩ := visit_ok hv
  have hb := writeRuns_memGood (runWindow_memGood (fs := fs) (h.of_mem (setWindow_mem hw)) s e x r.next none) bs
  rw [ht]
  unfold State.visited State.newPhases
  refine each_induct (R := State.memGood) (fun u i hu => ?_) _ (hb.of_mem (setEng_mem _ _ _))
  exact hu

theorem visit_flat (h : Flat s) (hv : s.visit e x c r none fs = .ok t) : Flat t := by
  have _ := anyPart_fact
  exact ((visit_keeps (P := False) (W := anyPart) (Keeps.rfl' h)).2 t hv).flat

/-- A visit is counted, and the command goes on to the next. -/
theorem visit_counted (h : Flat s) (hv : s.visit e x c r none fs = .ok t) : ∃ q, (t.eng e).rot = some q ∧ q.next = r.next + 1 ∧ q.visits = r.visits + 1 := by
  have _ := anyPart_fact
  obtain ⟨_, _, _, _, w, hw, bs, flagged, ht⟩ := visit_ok hv
  have hb : Flat ((s.runWindow e x r.next w.1 none fs).2.writeRuns bs).1 := (writeRuns_keeps (P := False) (W := anyPart)
    (runWindow_keeps ((setWindow_keeps (Keeps.rfl' h)).2 _ hw) s e x r.next none fs) bs).flat
  have hown := modEng_eng hb e (fun y => { y with
    rot := some (r.after x (s.engAligned e) flagged w.1 (s.runWindow e x r.next w.1 none fs).1) })
  unfold State.visited at ht
  generalize (((s.runWindow e x r.next w.1 none fs).2.writeRuns bs).1.modEng e (fun y => { y with
    rot := some (r.after x (s.engAligned e) flagged w.1 (s.runWindow e x r.next w.1 none fs).1) })) = b at ht hown
  have he : t.engines = b.engines := by
    rw [ht]
    unfold State.newPhases
    refine each_induct (R := fun u : State => u.engines = b.engines) (fun u i hu => ?_) _ rfl
    exact hu
  exact ⟨_, (congrArg Engine.rot (eng_of_engines he e)).trans (congrArg Engine.rot hown), rfl, rfl⟩

/-! ## The command -/

/-- The visits of a command that meets no word of wrong parity are stopped by no wait. -/
theorem visits_stop (h : s.memGood) (ha : c.asks = false) (upTo fuel : Nat) : (State.visits e x c fs upTo fuel s).1 ≠ some .waits := by
  induction fuel generalizing s with
  | zero => exact (Option.some_ne_none _).symm
  | succ fuel ih =>
    unfold State.visits
    dsimp only
    split
    · exact (Option.some_ne_none _).symm
    · split
      · next f hf => exact fun hw => visit_stop h ha hf (Option.some.inj hw)
      · next t ht => exact ih (visit_memGood h ht)

theorem visits_flat (h : Flat s) (upTo fuel : Nat) : Flat (State.visits e x c fs upTo fuel s).2 := by
  have _ := anyPart_fact
  exact (visits_keeps (P := False) (W := anyPart) (Keeps.rfl' h) e x c fs upTo fuel).flat

theorem stopVisit_cur (h : Flat s) {v : VisitStop} (hv : v ≠ .waits) : ((s.stopVisit e c v).eng e).cur = none := by
  have hd : Flat (s.dropRot e) := modEng_flat h e _
  cases v with
  | bad f => exact complete_cur hd e c f.done
  | xlat va write cause => exact xlatEnd_cur hd e c va write cause
  | waits => exact absurd rfl hv

/-- A ROTATE that meets no word of wrong parity ends. -/
theorem endRotate_cur (h : Flat s) (hb : s.memGood) (ha : c.asks = false) (upTo : Option Nat) (fs : List AnnealFault) :
    ((s.endRotate e c upTo fs).eng e).cur = none := by
  have _ := anyPart_fact
  unfold State.endRotate
  extract_lets x v r
  have hf : Flat v.2 := visits_flat h _ _
  have hw : v.1 ≠ some .waits := visits_stop hb ha _ _
  clear_value r v
  split
  · next f hv => exact stopVisit_cur hf (fun hc => hw (hv.trans (congrArg some hc)))
  · next halted w _ _ =>
    have hwf : Flat w.1 := (writeUpTo_keeps (P := False) (W := anyPart) (Keeps.rfl' hf) _ _).flat
    have hd : Flat (w.1.dropRot e) := modEng_flat hwf e _
    clear_value w
    split
    · exact xlatEnd_cur hd e c _ true _
    · exact completeRun_cur hd e c _ _

theorem endRotate_fences (h : Flat s) (e : Nat) (c : Cmd) (upTo : Option Nat) (fs : List AnnealFault) : (s.endRotate e c upTo fs).fences = s.fences := by
  obtain ⟨_, _, _, _, _, _, _, _, _, _, _, _, _, _, _⟩ := runWrites_facts
  have hk : Keeps False runWrites s (s.endRotate e c upTo fs) := endRotate_keeps (Keeps.rfl' h) e c upTo fs
  exact (hk.same .fences (fun hw => hw rfl)).1

/-- Settles O12: a visit that goes on leaves device memory without words of wrong parity as it found it (`visit_memGood`), so that no wait stops the
visits of the command. -/
theorem rotateCompletes : Obligations.RotateCompletes := by
  unfold Obligations.RotateCompletes
  intro s t e c fs hinv hr
  have h : Flat s := (flat_iff s).2 hinv
  refine ⟨fun hb ha => ⟨s.endRotate e c c.firstStop fs, ?_, endRotate_cur h hb ha _ fs, endRotate_fences h e c _ fs⟩, fun hlt hv => ⟨?_, visit_counted h hv⟩⟩
  · have hx : exec (.rotate e fs) s = execRotate e fs s := rfl
    rw [hx, execRotate, hr]
  · have hx : exec (.rotateVisit e fs) s = execRotateVisit e fs s := rfl
    rw [hx, execRotateVisit, hr]
    dsimp only
    rw [if_neg (by omega), hv]

end Sys2Proof.Machine
end

section
/-!
SUPPORT and PROOFS. ANNEAL and RESUME (R153, R158 to R183).
-/
namespace Sys2Proof.Machine

variable {s t u : State} {e : Nat} {c : Cmd}

/-! ## Couplings, fields and exponents (R153, R163) -/

/-- What a core's spins see: its couplings, fields and exponent. -/
def Core.lattice (c : Core) : BitVec 24576 × BitVec 4096 × Nat := (c.spin.coup, c.spin.field, c.spin.exp)

/-- Every core keeps its couplings, fields and exponent. -/
structure LatticeStays (s t : State) : Prop where
  flat : Flat t
  same : ∀ n, (t.core n).lattice = (s.core n).lattice

theorem LatticeStays.of_cores (h : LatticeStays s t) (hu : Flat u) (hc : u.yards.cores = t.yards.cores) : LatticeStays s u :=
  ⟨hu, fun n => by rw [core_of_cores hc, h.same]⟩

theorem LatticeStays.modCore (h : LatticeStays s t) (k : Nat) {f : Core → Core} (hf : (f (t.core k)).lattice = (t.core k).lattice) :
    LatticeStays s (t.modCore k f) := by
  have _ := anyPart_fact
  refine ⟨(modCore_keeps (P := False) (W := anyPart) (Keeps.rfl' h.flat) k f).flat, fun n => ?_⟩
  rw [← h.same n, State.modCore]
  by_cases hn : n = k
  · subst hn
    rw [core_setCore_same _ _ _ h.flat.cores]
    exact hf
  · rw [core_setCore_ne _ _ _ _ hn]

/-- The parts that may change while every core stays as it is. -/
def besideCores (p : Part) : Prop := p ≠ .cores

theorem besideCores_facts : Fact (besideCores .img) ∧ Fact (besideCores .hub) ∧ Fact (besideCores .flash) ∧ Fact (besideCores .halves) ∧
    Fact (besideCores .spad) ∧ Fact (besideCores .data) ∧ Fact (besideCores .engines) ∧ Fact (besideCores .queues) ∧ Fact (besideCores .slots) ∧
    Fact (besideCores .route) ∧ Fact (besideCores .per) ∧ Fact (besideCores .links) ∧ Fact (besideCores .rel) ∧ Fact (besideCores .host) := by
  refine ⟨⟨?_⟩, ⟨?_⟩, ⟨?_⟩, ⟨?_⟩, ⟨?_⟩, ⟨?_⟩, ⟨?_⟩, ⟨?_⟩, ⟨?_⟩, ⟨?_⟩, ⟨?_⟩, ⟨?_⟩, ⟨?_⟩, ⟨?_⟩⟩ <;> exact Part.noConfusion

theorem LatticeStays.of_keeps (h : LatticeStays s t) (hk : Keeps False besideCores t u) : LatticeStays s u :=
  h.of_cores hk.flat (hk.same .cores (fun hw => hw rfl))

theorem LatticeStays.keeps (h : LatticeStays s t) : Keeps False besideCores t t := Keeps.rfl' h.flat

/-- A halter leaves what the spins of its core see. -/
theorem LatticeStays.halt (h : LatticeStays s t) (k : PhysCore) (reason : Nat) : LatticeStays s (t.halt k reason) := by
  obtain ⟨_, _, _, _, _, _, _, _, _, _, _, _, _, _⟩ := besideCores_facts
  unfold State.halt
  extract_lets n
  split
  · exact h
  · have hn : LatticeStays s (t.noteHalt k) := h.of_keeps (noteHalt_keeps h.keeps k)
    have hm : LatticeStays s ((t.noteHalt k).modCore n (fun x => { x with halter := some reason })) := hn.modCore n rfl
    exact hm.of_keeps (raise_keeps (bump_keeps hm.keeps _ _ _) _ _ _)

theorem LatticeStays.countCore (h : LatticeStays s t) (k : PhysCore) : LatticeStays s (t.countFault (.core k)) := by
  obtain ⟨_, _, _, _, _, _, _, _, _, _, _, _, _, _⟩ := besideCores_facts
  unfold State.countFault
  split
  · have hc : LatticeStays s (t.countEvent (.core k)).2 := h.of_keeps (countEvent_keeps h.keeps _)
    extract_lets x
    split
    · show LatticeStays s (x.2.halter k 1 [] none)
      unfold State.halter
      extract_lets new s1
      have h1 : LatticeStays s s1 := hc.halt k 1
      refine h1.of_keeps (queueColumn_keeps ?_ _ _ _)
      exact ite_keeps (fun _ => recordHalter_keeps h1.keeps _) (fun _ => h1.keeps)
    · exact hc
  · exact h

theorem LatticeStays.faced {a : AnnealFaced} (h : LatticeStays s a.st) (f : AnnealFault) : LatticeStays s (a.face f).st := by
  have hc := h.countCore (a.st.coreAt f.core)
  unfold AnnealFaced.face
  dsimp only
  split <;> exact hc

theorem LatticeStays.annealFaced (h : LatticeStays s t) (r : Rect) (fs : List AnnealFault) : LatticeStays s (t.annealFaced r fs).st :=
  List.foldlRecOn (motive := fun a : AnnealFaced => LatticeStays s a.st) _ _ h fun _ ha f _ => ha.faced f

theorem LatticeStays.putPad (h : LatticeStays s t) (a : Pad) (n : Nat) : LatticeStays s (t.putPad a n) := by
  unfold State.putPad
  extract_lets s1
  have h1 : LatticeStays s s1 := each_induct (R := LatticeStays s) (fun u x hu => hu.modCore x.2.num rfl) _ h
  clear_value s1
  exact h1.of_keeps (free_keeps h1.keeps _)

/-! ## The run and its end -/

/-- An ANNEAL leaves what the spins see, whatever faults it meets. -/
theorem runAnneal_lattice (h : Flat s) (hop : dOp c.desc ≠ opResume) (e : Nat) (stop : Option Nat) (kill : Option Progress) (fs : List AnnealFault) :
    LatticeStays s (s.runAnneal e c stop kill fs).st := by
  obtain ⟨_, _, _, _, _, _, _, _, _, _, _, _, _, _⟩ := besideCores_facts
  unfold State.runAnneal
  extract_lets j own lim d r t
  have hj : j.2 = s := by
    simp only [j, State.jobOf, if_neg hop]
  have hd : LatticeStays s (d.counted e) := by
    have hf : LatticeStays s d.st := by
      simp only [d, hj]
      exact LatticeStays.annealFaced ⟨h, fun _ => rfl⟩ _ _
    exact hf.of_keeps (AnnealFaced_counted_keeps hf.keeps e)
  clear_value r d
  show LatticeStays s ((d.counted e).applyRun e j.1 r).1
  unfold State.applyRun
  extract_lets a done at_ s1 s2
  have hp := hd.putPad r.pad ((r.phase - at_.2) * acP a)
  have h1 : LatticeStays s s1 := hp.of_keeps (writeCtx_keeps hp.keeps _ _ _ _ _ _ _)
  clear_value s1
  have h2 : LatticeStays s s2 := h1.of_keeps (keepRun_keeps (bumpBy_keeps (countPad_keeps h1.keeps _ _) _ _ _ _) _ _)
  clear_value s2
  split
  · exact h2
  · exact h2.of_keeps (writeUpTo_keeps h2.keeps _ _)

theorem runAnneal_flat (h : Flat s) (e : Nat) (c : Cmd) (stop : Option Nat) (kill : Option Progress) (fs : List AnnealFault) :
    Flat (s.runAnneal e c stop kill fs).st := by
  have _ := anyPart_fact
  exact (runAnneal_keeps (P := False) (W := anyPart) (Keeps.rfl' h) e c stop kill fs).flat

theorem restoreWhole_cur (h : Flat s) (e : Nat) (c : Cmd) (flagged : Bool) : ((s.restoreWhole e c flagged).eng e).cur = none := by
  have _ := anyPart_fact
  unfold State.restoreWhole
  extract_lets a idle s1 hd p r w
  have hw : Flat w.1 := (writeUpTo_keeps (P := False) (W := anyPart) (keepRun_keeps (loadRecords_keeps (Keeps.rfl' h) a idle) e r) _ _).flat
  clear_value w
  split
  · exact xlatEnd_cur hw e c _ true _
  · exact completeRun_cur hw e c _ _

theorem finishAnneal_cur (h : Flat s) (e : Nat) (c : Cmd) (stop : Option Nat) (fs : List AnnealFault) (flagged : Bool) :
    ((s.finishAnneal e c stop fs flagged).eng e).cur = none := by
  unfold State.finishAnneal
  split
  · exact restoreWhole_cur h e c flagged
  · extract_lets r
    have hr : Flat r.st := runAnneal_flat h e c stop none fs
    clear_value r
    split
    · exact xlatEnd_cur hr e c _ true _
    · exact completeRun_cur hr e c _ _

theorem finishAnneal_lattice (h : Flat s) (hop : dOp c.desc ≠ opResume) (e : Nat) (stop : Option Nat) (fs : List AnnealFault) (flagged : Bool) :
    LatticeStays s (s.finishAnneal e c stop fs flagged) := by
  obtain ⟨_, _, _, _, _, _, _, _, _, _, _, _, _, _⟩ := besideCores_facts
  unfold State.finishAnneal
  rw [if_neg (fun hc => hop hc.1)]
  extract_lets r
  have hr : LatticeStays s r.st := runAnneal_lattice h hop e stop none fs
  clear_value r
  split
  · exact hr.of_keeps (xlatEnd_keeps hr.keeps _ _ _ _ _)
  · exact hr.of_keeps (completeRun_keeps hr.keeps _ _ _ _)

theorem finishAnneal_fences (h : Flat s) (e : Nat) (c : Cmd) (stop : Option Nat) (fs : List AnnealFault) (flagged : Bool) :
    (s.finishAnneal e c stop fs flagged).fences = s.fences := by
  obtain ⟨_, _, _, _, _, _, _, _, _, _, _, _, _, _, _⟩ := runWrites_facts
  have hk : Keeps False runWrites s (s.finishAnneal e c stop fs flagged) := finishAnneal_keeps (Keeps.rfl' h) e c stop fs flagged
  exact (hk.same .fences (fun hw => hw rfl)).1

/-- A command whose reads translate and whose errors are known to be stored runs to its end. -/
theorem endAnneal_eq (hr : (s.annealReads c).findSome? (fun x => s.firstFail x.1 x.2 false false) = none)
    (ht : s.takeChecks e c (s.annealWords c) ((s.annealReads c).flatMap (fun x => s.devBad x.1 x.2)) = none) (stop : Option Nat) (fs : List AnnealFault) :
    ∃ flagged, s.endAnneal e c stop fs = s.finishAnneal e c stop fs flagged := by
  unfold State.endAnneal
  dsimp only
  rw [hr, ht]
  exact ⟨_, rfl⟩

theorem running_op {op : Nat} (hr : s.running e op = some c) : dOp c.desc = op := by
  unfold State.running at hr
  split at hr
  · split at hr
    · next hop =>
      cases hr
      exact hop.2.2.1
    · cases hr
  · cases hr

/-- Settles O11: the command runs to its end (`State.finishAnneal`), and every step of an ANNEAL's run leaves what the spins see
(`runAnneal_lattice`). -/
theorem annealCompletes : Obligations.AnnealCompletes := by
  unfold Obligations.AnnealCompletes
  intro s e c fs hinv hreads hchecks
  have h : Flat s := (flat_iff s).2 hinv
  obtain ⟨flagged, hend⟩ := endAnneal_eq hreads hchecks c.firstStop fs
  refine ⟨fun hr => ⟨_, ?_, finishAnneal_cur h e c c.firstStop fs flagged, finishAnneal_fences h e c _ fs flagged, fun n => ?_⟩,
    fun hr => ⟨_, ?_, finishAnneal_cur h e c c.firstStop fs flagged, finishAnneal_fences h e c _ fs flagged⟩⟩
  · have hx : exec (.anneal e fs) s = execAnneal e fs s := rfl
    rw [hx, execAnneal, hr, ← hend]
  · have hl := (finishAnneal_lattice h (c := c) (by rw [running_op hr]; decide) e c.firstStop fs flagged).same n
    simp only [Core.lattice, Prod.mk.injEq] at hl
    exact hl
  · have hx : exec (.resume e fs) s = execResume e fs s := rfl
    rw [hx, execResume, hr, ← hend]

end Sys2Proof.Machine
end

section
/-!
SUPPORT and PROOFS. SNAPSHOT, and MOVE with SPINPACK (R180, R190).
-/
namespace Sys2Proof.Machine

variable {s t u : State} {e : Nat} {c n : Cmd}

/-! ## SNAPSHOT (R180) -/

theorem endWrites_facts : Fact (endWrites .img = true) ∧ Fact (endWrites .halves = true) ∧ Fact (endWrites .data = true) ∧
    Fact (endWrites .engines = true) ∧ Fact (endWrites .queues = true) ∧ Fact (endWrites .slots = true) ∧ Fact (endWrites .per = true) ∧
    Fact (endWrites .host = true) := ⟨⟨rfl⟩, ⟨rfl⟩, ⟨rfl⟩, ⟨rfl⟩, ⟨rfl⟩, ⟨rfl⟩, ⟨rfl⟩, ⟨rfl⟩⟩

/-- A SNAPSHOT that runs writes device memory and ends. -/
theorem exec_snapshot_running (h : Flat s) (hr : s.running e opSnapshot = some c) (p : Progress) : ∃ u, exec (.snapshot e p) s = .next u ∧
    (u.eng e).cur = none ∧ Keeps False (fun p => endWrites p = true) s u := by
  obtain ⟨_, _, _, _, _, _, _, _⟩ := endWrites_facts
  have hx : exec (.snapshot e p) s = execSnapshot e p s := rfl
  rw [hx, execSnapshot, hr]
  dsimp only
  have h1 : Keeps False (fun p => endWrites p = true) s (s.modEng e (fun x => { x with noSnap := none })) := modEng_keeps (Keeps.rfl' h) e _
  generalize s.modEng e (fun x => { x with noSnap := none }) = s1 at h1 ⊢
  have hw : Keeps False (fun p => endWrites p = true) s (s1.writeSnapshot e (s.ctrlOf c.sched.header) c.early).1 := writeSnapshot_keeps h1 e _ _
  generalize s1.writeSnapshot e (s.ctrlOf c.sched.header) c.early = w at hw ⊢
  split
  · exact ⟨_, rfl, completeRun_cur h1.flat e c _ _, completeRun_keeps h1 e c _ _⟩
  · split
    · exact ⟨_, rfl, xlatEnd_cur hw.flat e c _ true _, xlatEnd_keeps hw e c _ true _⟩
    · exact ⟨_, rfl, completeRun_cur hw.flat e c _ _, completeRun_keeps hw e c _ _⟩

theorem badWords_of_good (hb : s.yards.bad = []) (k off len : Nat) : s.badWords k off len = [] := by
  have hbad : ∀ o, s.spadBad k o = false := fun o => by
    rw [State.spadBad, hb]
    rfl
  unfold State.badWords
  simp only [hbad, Bool.false_eq_true, if_false]
  split
  · rfl
  · exact List.filterMap_eq_nil_iff.2 fun _ _ => rfl

/-- An annealing command that meets no word of wrong parity ends. -/
theorem endAnneal_cur (h : Flat s) (hm : s.memGood) (hb : s.yards.bad = []) (ha : c.asks = false) (e : Nat) (stop : Option Nat) (fs : List AnnealFault) :
    ((s.endAnneal e c stop fs).eng e).cur = none := by
  have hwords : s.annealWords c = [] := by
    unfold State.annealWords
    simp only [badWords_of_good hb]
    split
    · exact List.flatMap_eq_nil_iff.2 fun _ _ => rfl
    · rfl
  have hblocks : (s.annealReads c).flatMap (fun x => s.devBad x.1 x.2) = [] := List.flatMap_eq_nil_iff.2 fun x _ => devBad_of_memGood hm x.1 x.2
  have hchecks : s.takeChecks e c (s.annealWords c) ((s.annealReads c).flatMap (fun x => s.devBad x.1 x.2)) = none := by
    rw [hwords, hblocks]
    refine takeChecks_none.2 ?_
    simp [ha]
  cases hr : (s.annealReads c).findSome? (fun x => s.firstFail x.1 x.2 false false) with
  | some f =>
    unfold State.endAnneal
    dsimp only
    rw [hr]
    exact xlatEnd_cur h e c f.1 false f.2
  | none =>
    obtain ⟨flagged, hend⟩ := endAnneal_eq hr hchecks stop fs
    rw [hend]
    exact finishAnneal_cur h e c stop fs flagged

/-! ## SPINPACK (R190) -/

/-- The parts that a conversion may change. -/
def convertWrites (p : Part) : Bool := p == .cores || endWrites p

theorem convertWrites_facts : Fact (convertWrites .img = true) ∧ Fact (convertWrites .halves = true) ∧ Fact (convertWrites .cores = true) ∧
    Fact (convertWrites .data = true) ∧ Fact (convertWrites .engines = true) ∧ Fact (convertWrites .queues = true) ∧
    Fact (convertWrites .slots = true) ∧ Fact (convertWrites .per = true) ∧ Fact (convertWrites .host = true) :=
  ⟨⟨rfl⟩, ⟨rfl⟩, ⟨rfl⟩, ⟨rfl⟩, ⟨rfl⟩, ⟨rfl⟩, ⟨rfl⟩, ⟨rfl⟩, ⟨rfl⟩⟩

theorem convert_facts (h : Flat s) (e : Nat) (c : Cmd) (b : Bytes) : ((s.convert e c b).eng e).cur = none ∧
    (s.convert e c b).yards.spad = s.yards.spad ∧ (s.convert e c b).fences = s.fences := by
  obtain ⟨_, _, _, _, _, _, _, _, _⟩ := convertWrites_facts
  have hk : Keeps False (fun p => convertWrites p = true) s (s.convert e c b) := convert_keeps (Keeps.rfl' h) e c b
  refine ⟨?_, hk.same .spad Bool.false_ne_true, (hk.same .fences Bool.false_ne_true).1⟩
  unfold State.convert
  split
  · exact complete_cur h e c _
  · next items _ =>
    extract_lets flagged r
    have hr : Keeps False (fun p => convertWrites p = true) s r.1 := putItems_keeps (Keeps.rfl' h) b items
    clear_value r
    split
    · exact xlatEnd_cur hr.flat e c _ true _
    · split
      · exact complete_cur hr.flat e c _
      · exact completeRun_cur hr.flat e c _ _

/-- A conversion that fails writes no spin block. -/
theorem convert_error (h : Flat s) {b : Bytes} {f : Fail} (hf : (if spSrcKind b = 2 then s.fromPages b c.early else s.fromTiles b c.early) = .error f) :
    (s.convert e c b).yards.cores = s.yards.cores := by
  unfold State.convert
  rw [hf]
  exact complete_same h e c f.done .cores rfl

/-- Settles O13: a stop request ends the running command, which waits for no re-read where nothing has wrong parity (`endRotate_cur`, `endAnneal_cur`); a
SNAPSHOT writes device memory and ends, and so does a conversion, which changes spin blocks only where it has items. -/
theorem snapshotAndSpinpackComplete : Obligations.SnapshotAndSpinpackComplete := by
  unfold Obligations.SnapshotAndSpinpackComplete
  refine ⟨fun s e p c n hinv => ?_, fun s e c b hinv he hr hb hx ht => ?_⟩
  · have h : Flat s := (flat_iff s).2 hinv
    have hexec : exec (.snapshot e p) s = execSnapshot e p s := rfl
    refine ⟨fun hr => ?_, fun hr hs hm hb ha => ?_⟩
    · obtain ⟨u, hu, hcur, hk⟩ := exec_snapshot_running h hr p
      exact ⟨u, hu, hcur, hk.same .cores Bool.false_ne_true, hk.same .spad Bool.false_ne_true⟩
    · rw [hexec, execSnapshot, hr, hs]
      dsimp only
      split
      · exact ⟨_, rfl, endRotate_cur (modEng_flat h e _) (State.memGood.of_mem hm (setEng_mem _ _ _)) ha _ []⟩
      · exact ⟨_, rfl, endAnneal_cur h hm hb ha e _ []⟩
  · have h : Flat s := (flat_iff s).2 hinv
    obtain ⟨hcur, hspad, hfences⟩ := convert_facts h e c b
    refine ⟨s.convert e c b, ?_, hcur, hspad, hfences, fun f hf => convert_error h hf⟩
    have hexec : exec (.moveSpinpack e) s = execMoveSpinpack e s := rfl
    rw [hexec, execMoveSpinpack, hr]
    refine congrArg Host.Outcome.next ((if_neg (by omega)).trans ?_)
    dsimp only
    rw [← hb, hx, ht]
    rfl

end Sys2Proof.Machine
end

section
/-!
SUPPORT and PROOFS. TENSOR (R125 to R152).
-/
namespace Sys2Proof.Machine

variable {P : Prop} {W : Part → Prop} {o s t : State} {e : Nat} {c : Cmd} {plan : TensorPlan}

/-! ## The end of a TENSOR -/

/-- The state in which the work of a TENSOR is counted and reported, its command still to end. -/
def State.tensorCounted (s : State) (e : Nat) (c : Cmd) (x : TensorCtx) (plan : TensorPlan) (w : TensorWork) : State :=
  let faced := (w.run.run.st.each (plan.faults.filter (fun f => (c.named e).contains f.1)) (fun t f => t.countFault (.core (s.coreAt f.1)))).each
    (upto w.faced.replays) (fun t _ => t.replay e)
  let full := if !w.faced.ctx.voids.isEmpty then faced.bump .engine e 10 else faced
  let rows := full.each ((w.run.run.rows.filter (fun row => (row.spec.map Prod.fst) == some rfDegen)).filterMap Row.home) (fun s h =>
    s.bump .half (s.coreAt h.1).yh 3)
  let tiles := (w.run.tiles.foldl (State.countTile x) rows).countNodes w.run.run.nodes
  let again := (if w.run.again then tiles.bump .engine e 11 else tiles).qscale e c (w.run.tiles.filter x.reached).length
  if x.aux = 0 then again else w.run.tiles.foldl (State.reportTile x.aux) again

theorem endTensor_eq (s : State) (e : Nat) (c : Cmd) (x : TensorCtx) (plan : TensorPlan) (w : TensorWork) :
    ∃ c' d, s.endTensor e c x plan w = (s.tensorCounted e c x plan w).complete e c' d := by
  unfold State.endTensor State.tensorCounted
  exact ⟨_, _, rfl⟩

theorem tensorCounted_keeps [Fact (W .img)] [Fact (W .hub)] [Fact (W .flash)] [Fact (W .cores)] [Fact (W .engines)] [Fact (W .route)]
    [Fact (W .links)] [Fact (W .rel)] {w : TensorWork} (h : Keeps P W o w.run.run.st) (s : State) (e : Nat) (c : Cmd) (x : TensorCtx) (plan : TensorPlan) :
    Keeps P W o (s.tensorCounted e c x plan w) := by
  unfold State.tensorCounted
  extract_lets faced full rows tiles again
  have hfaced : Keeps P W o faced := each_keeps _ _ (fun _ _ hy => replay_keeps hy _) (each_keeps _ _ (fun _ _ hy => countFault_keeps hy _) h)
  have hfull : Keeps P W o full := ite_keeps (fun _ => bump_keeps hfaced _ _ _) (fun _ => hfaced)
  have hrows : Keeps P W o rows := each_keeps _ _ (fun _ _ hy => bump_keeps hy _ _ _) hfull
  have htiles : Keeps P W o tiles := countNodes_keeps (foldl_keeps _ _ (fun _ _ hy => countTile_keeps hy _ _) hrows) _
  have hagain : Keeps P W o again := qscale_keeps (ite_keeps (fun _ => bump_keeps htiles _ _ _) (fun _ => htiles)) _ _ _
  exact ite_keeps (fun _ => hagain) (fun _ => foldl_keeps _ _ (fun _ _ hy => reportTile_keeps hy _ _) hagain)

/-! ## What a TENSOR changes -/

/-- The parts that the count of a TENSOR's work may change. -/
def countWrites (p : Part) : Bool := [Part.img, .hub, .flash, .cores, .engines, .route, .links, .rel].contains p

/-- The parts that the work of a TENSOR may change before its command ends. -/
def workWrites (p : Part) : Bool := [Part.spad, .clk].contains p || countWrites p

theorem tensorCounted_keeps_own {w : TensorWork} (h : Flat w.run.run.st) (s : State) (e : Nat) (c : Cmd) (x : TensorCtx) (plan : TensorPlan) :
    Keeps False (fun p => countWrites p = true) w.run.run.st (s.tensorCounted e c x plan w) := by
  have : Fact (countWrites .img = true) := ⟨rfl⟩
  have : Fact (countWrites .hub = true) := ⟨rfl⟩
  have : Fact (countWrites .flash = true) := ⟨rfl⟩
  have : Fact (countWrites .cores = true) := ⟨rfl⟩
  have : Fact (countWrites .engines = true) := ⟨rfl⟩
  have : Fact (countWrites .route = true) := ⟨rfl⟩
  have : Fact (countWrites .links = true) := ⟨rfl⟩
  have : Fact (countWrites .rel = true) := ⟨rfl⟩
  exact tensorCounted_keeps (Keeps.rfl' h) s e c x plan

theorem tensorWork_keeps_own (h : Flat s) (e : Nat) (c : Cmd) (x : TensorCtx) (plan : TensorPlan) :
    Keeps False (fun p => workWrites p = true) s (s.tensorWork e c x plan).run.run.st := by
  have : Fact (workWrites .img = true) := ⟨rfl⟩
  have : Fact (workWrites .hub = true) := ⟨rfl⟩
  have : Fact (workWrites .flash = true) := ⟨rfl⟩
  have : Fact (workWrites .cores = true) := ⟨rfl⟩
  have : Fact (workWrites .spad = true) := ⟨rfl⟩
  have : Fact (workWrites .engines = true) := ⟨rfl⟩
  have : Fact (workWrites .route = true) := ⟨rfl⟩
  have : Fact (workWrites .links = true) := ⟨rfl⟩
  have : Fact (workWrites .clk = true) := ⟨rfl⟩
  have : Fact (workWrites .rel = true) := ⟨rfl⟩
  exact tensorWork_keeps (Keeps.rfl' h) e c x plan

/-- A plan with no slip, no read and no fault leaves its jobs as its whole work. -/
theorem tensorWork_run (hs : plan.slips = []) (hr : plan.reads = []) (hf : plan.faults = []) (e : Nat) (c : Cmd) (x : TensorCtx) :
    (s.tensorWork e c x plan).run = s.runJobs x plan := by
  have hslips : s.planSlips e [] = s := rfl
  have hfaced : (s.faced e c x plan).ctx = x := by
    unfold State.faced
    rw [hf]
    rfl
  unfold State.tensorWork
  dsimp only
  rw [hs, hr, List.foldl_nil, hslips, hfaced]

theorem exec_tensor (he : e < 8) (hr : s.running e opTensor = some c) (hp : s.planOk e c plan = true)
    (ht : s.takeChecks e c ((s.tensorWork e c (s.tensorCtx e c) plan).met ++ (s.tensorWork e c (s.tensorCtx e c) plan).run.run.met) [] = none) :
    exec (.tensor e plan) s = .next (s.endTensor e c (s.tensorCtx e c) plan (s.tensorWork e c (s.tensorCtx e c) plan)) := by
  have hx : exec (.tensor e plan) s = execTensor e plan s := rfl
  have hgo : ¬(8 ≤ e ∨ (!s.planOk e c plan) = true) := by
    rw [hp]
    simpa using he
  rw [hx, execTensor, hr]
  refine congrArg Host.Outcome.next ((if_neg hgo).trans ?_)
  unfold State.runTensor
  dsimp only
  rw [ht]
  rfl

/-- Settles O10: the command ends in the state in which its work is counted (`State.tensorCounted`), and no count touches a scratchpad. -/
theorem tensorCompletes : Obligations.TensorCompletes := by
  unfold Obligations.TensorCompletes
  intro s e plan c hinv he hr hp ht
  have h : Flat s := (flat_iff s).2 hinv
  have hwork := tensorWork_keeps_own h e c (s.tensorCtx e c) plan
  have hcount := tensorCounted_keeps_own hwork.flat s e c (s.tensorCtx e c) plan
  obtain ⟨c', d, hd⟩ := endTensor_eq s e c (s.tensorCtx e c) plan (s.tensorWork e c (s.tensorCtx e c) plan)
  refine ⟨_, (exec_tensor he hr hp ht).trans (congrArg _ hd), complete_cur hcount.flat e c' d, ?_, ?_, fun hs hreads hf => ?_⟩
  · rw [complete_same hcount.flat e c' d .pwr rfl, hcount.same .pwr Bool.false_ne_true]
    exact hwork.same .pwr Bool.false_ne_true
  · rw [(complete_fences hcount.flat e c' d).1, (hcount.same .fences Bool.false_ne_true).1]
    exact (hwork.same .fences Bool.false_ne_true).1
  · rw [complete_same hcount.flat e c' d .spad rfl, hcount.same .spad Bool.false_ne_true, tensorWork_run hs hreads hf]

end Sys2Proof.Machine
end
